-- ==== Sys2Proof/Word.lean ====
section
/-! DEFINITION. The word types of the Myger architecture (spec/00_scope.md R5) and plain bit-field access. -/

namespace Sys2Proof

/-- One byte of memory (R146: a location is one byte). -/
abbrev Byte := BitVec 8

/-- An instruction or command word (R5, R423). -/
abbrev Word := BitVec 32

/-- A 64-bit register, control register or dword. -/
abbrev Dword := BitVec 64

/-- A 64-byte record held in memory: a view descriptor, a job card, a launch header, a trap record. -/
abbrev Line := BitVec 512

/-- The bits `[lo + n - 1 : lo]` of `w`, as a number. -/
def bitsAt {k : Nat} (w : BitVec k) (lo n : Nat) : Nat := w.toNat / 2 ^ lo % 2 ^ n

/-- Bit `i` of `w`. -/
def bitAt {k : Nat} (w : BitVec k) (i : Nat) : Bool := w.getLsbD i

/-- `w` with its bits `[lo + n - 1 : lo]` replaced by the low `n` bits of `v`. -/
def setBits {k : Nat} (w : BitVec k) (lo n v : Nat) : BitVec k :=
  BitVec.ofNat k (w.toNat % 2 ^ lo + 2 ^ lo * (v % 2 ^ n) + 2 ^ (lo + n) * (w.toNat / 2 ^ (lo + n)))

/-- 1 for true, 0 for false. -/
def b2n (b : Bool) : Nat := if b then 1 else 0

end Sys2Proof
end

