-- ==== Sys2Proof/Config.lean ====
section
/-! DEFINITION. What the spec leaves to the device: free values, which have no body and so no value a proof could use, and the cryptographic
functions of R421 and R422, whose bits follow from a key the device never shows. -/

namespace Sys2Proof.Config

/-- A timing field of a sample record or log record (R486 ACTIVE, STARTUP, CHAINW, PORTW; R488 STALL) for a fresh number
(log entry 9). -/
opaque timing : Nat → Nat

/-- Which lane group in service carries an element group (R18, R57), for a fresh number and the group (log entry 9). -/
opaque lane : Nat → Nat → Nat

/-- A value that the spec names and does not state, for a fresh number: the LAUNCHIDs of a refusal with no launches, the
sensor readings and energies no agent has supplied. -/
opaque unstated : Nat → Nat

/-- Issue slots that ballast takes from a mill in a cycle (R287), for the mill and GTIME (log entry 56). -/
opaque ballast : Nat → Nat → Nat

/-- SHA-256 of a list of bytes, as R24 names it (log entry 10). -/
opaque sha256 : List Byte → BitVec 256

/-- The ECDSA P-256 public key generated by the n-th create of the device (R421; log entry 10). -/
opaque publicKey : Nat → BitVec 512

/-- An ECDSA P-256 signature of a digest by the n-th key; key 0 is the device identity (R24, R421; log entry 10). -/
opaque sign : Nat → BitVec 256 → BitVec 512

/-- Whether a value is an ECDSA P-256 signature of a digest by a public key (R24, R478; log entry 10). -/
opaque signedBy : BitVec 512 → BitVec 256 → BitVec 512 → Bool

/-- The SHA-256 of the key that is fused into the device, and the fused least security version (R478; log entry 10). -/
opaque fusedKey : BitVec 256
opaque fusedVersion : Nat

/-- The measured images of R422: 1 the firmware core, 2 the Chandler, 3 the resident kernel of a partition (log entry 10). -/
opaque measured : Nat → Nat → BitVec 256

/-- The answer to a PCIe configuration request, which the spec names but does not describe (R468; log entry 10). -/
opaque configSpace : Nat → Nat

end Sys2Proof.Config
end

