-- ==== Sys2Proof/Machine/Registers.lean ====
section
/-! DEFINITION. The register windows of the device outside its contexts (R219, R245, R402, R405, R413, R417, R436, R440,
R443, R463, R465, R473, R479, R481, R484, R487, R489, R490, R492, R498, R283, R284, R289): how each register is named,
its reset value, and which of its bits a write sets or clears. A register is one 64-bit word at a byte offset. -/

namespace Sys2Proof.Machine

/-- A register window. The platform's registers that the spec gives no offset have a window of their own each. -/
inductive Window where
  | part (n : Nat)               -- partition window, R402, with R413 at 0x80, R487 at 0xC0 and R440 at 0x100
  | trans (n : Nat)              -- translation window, R405, R413, R419, R487
  | cx (n : Nat)                 -- context access window, R443, R465, R484, R489, R490, R492
  | chain (n die ch : Nat)       -- chain registers, R219
  | splice (n die : Nat)         -- splice window, R245
  | queue (die slot : Nat)       -- queue slot, R417, R436
  | hold                         -- hold window, R463
  | lease (die : Nat)            -- lease replica of a die, R473
  | regmap                       -- REGMAP0, REGMAP1, R498
  | dsense (d : Nat)             -- sensor mailbox of a domain, R283
  | dtarget (d : Nat)            -- target mailbox of a domain, R283
  | millcal (m : Nat)            -- MILLCAL of a mill, R284
  | energy (n : Nat)             -- ENERGY of a partition, and PLATFORM as partition 0, R289
  | ready                        -- READY0, READY1, R481
  | start (n : Nat)              -- entry n of the start record, R479
  | tier (g : Nat)               -- tier-map entry of a 64 KiB granule: its owner, R411
deriving DecidableEq, Repr

/-- A number for each window, no two alike within the ranges the spec gives. -/
def Window.key : Window → Nat
  | .part n => 0x100000 + n
  | .trans n => 0x200000 + n
  | .cx n => 0x300000 + n
  | .chain n die ch => 0x400000 + (n * 4 + die) * 64 + ch
  | .splice n die => 0x500000 + n * 4 + die
  | .queue die slot => 0x600000 + die * 64 + slot
  | .hold => 0x700000
  | .lease die => 0x800000 + die
  | .regmap => 0x900000
  | .dsense d => 0xA00000 + d
  | .dtarget d => 0xB00000 + d
  | .millcal m => 0xC00000 + m
  | .energy n => 0xD00000 + n
  | .ready => 0xE00000
  | .start n => 0xF00000 + n
  | .tier g => 0x1000000 + g

/-- The number of the register at an offset of a window. -/
def Window.regKey (w : Window) (off : Nat) : Nat := w.key * 4096 + off

/-- The 64-bit mask of the bits `[hi:lo]`. -/
def fieldMask (hi lo : Nat) : Nat := 2 ^ (hi + 1) - 2 ^ lo

/-- Reset value, bits a write sets, and bits a write of 1 clears. -/
structure RegInfo where
  reset : Nat
  rw : Nat
  w1c : Nat
deriving DecidableEq, Repr

/-- Regulator of bay i at reset: floor(i / 9) (R498). -/
def regmapReset (first n : Nat) : Nat :=
  (List.range n).foldl (fun acc k => acc + (first + k) / 9 * 4 ^ k) 0

/-- A ring's base register: BASE in `[63:12]`, LOGN in `[3:0]`. -/
def ringMask : Nat := fieldMask 63 12 + fieldMask 3 0

/-- The trap ring registers (R443; R440 for the hypervisor's) at an offset from TRBASE. -/
def trapRingInfo (off : Nat) : RegInfo :=
  match off with
  | 0x00 => ⟨0, ringMask, 0⟩
  | 0x10 => ⟨0, fieldMask 3 0, 0⟩
  | 0x18 => ⟨0, 0, 3⟩
  | 0x20 => ⟨0, fieldMask 63 0, 0⟩
  | _ => ⟨0, 0, 0⟩

/-- The invalidation registers (R413) at an offset from INVADDR; stage 2 keeps bits [51:16] of the page. -/
def invInfo (stage2 : Bool) (off : Nat) : RegInfo :=
  match off with
  | 0x00 => ⟨0, if stage2 then fieldMask 35 0 else fieldMask 55 0, 0⟩
  | 0x08 => ⟨0, fieldMask 32 0, 0⟩
  | _ => ⟨0, 0, 0⟩

/-- The log registers (R487) at an offset from PTLRING. -/
def logInfo (off : Nat) : RegInfo :=
  match off with
  | 0x00 => ⟨0, ringMask, 0⟩
  | 0x10 => ⟨0, fieldMask 63 0, 0⟩
  | 0x18 => ⟨0, 0, 1⟩
  | _ => ⟨0, 0, 0⟩

/-- The context access window (R443, R465, R484, R489, R490, R492). -/
def cxInfo (off : Nat) : RegInfo :=
  if off = 0x00 then ⟨0, fieldMask 11 0, 0⟩
  else if off = 0x18 then ⟨0, fieldMask 63 12, 0⟩
  else if off = 0x20 then ⟨0, fieldMask 31 3, 0⟩
  else if 0x30 ≤ off ∧ off ≤ 0x50 then trapRingInfo (off - 0x30)
  else if off = 0x58 then ⟨0, fieldMask 63 21 + 1, 0⟩
  else if off = 0x60 then ⟨0, fieldMask 63 63 + fieldMask 15 0, fieldMask 62 62⟩
  else if off = 0x68 then ⟨0, ringMask, 0⟩
  else if off = 0x78 then ⟨0, fieldMask 63 0, 0⟩
  else if 0x80 ≤ off ∧ off < 0xC0 then ⟨0, fieldMask 63 60 + fieldMask 43 0, 0⟩
  else if 0xC0 ≤ off ∧ off < 0x100 then
    (if off % 16 = 0 then ⟨0, fieldMask 63 0, 0⟩ else ⟨0, fieldMask 63 52 + fieldMask 31 0, 0⟩)
  else ⟨0, 0, 0⟩

/-- The partition window (R402, R413, R487, R440). -/
def partInfo (off : Nat) : RegInfo :=
  if off = 0x08 then ⟨0, fieldMask 35 0, 0⟩
  else if off = 0x10 then ⟨0, fieldMask 51 16, 0⟩
  else if off = 0x18 then ⟨0, fieldMask 60 48 + fieldMask 44 32 + fieldMask 28 16 + fieldMask 12 0, 0⟩
  else if off = 0x20 then ⟨0, fieldMask 31 0, 0⟩
  else if off = 0x28 then ⟨0, fieldMask 15 0, 0⟩
  else if off = 0x30 ∨ off = 0x40 ∨ off = 0x50 ∨ off = 0x60 then ⟨0, fieldMask 63 16 + 1, 0⟩
  else if off = 0x38 ∨ off = 0x48 ∨ off = 0x58 ∨ off = 0x68 then ⟨0, fieldMask 63 16, 0⟩
  else if 0x80 ≤ off ∧ off < 0xA0 then invInfo true (off - 0x80)
  else if 0xC0 ≤ off ∧ off < 0xE0 then logInfo (off - 0xC0)
  else if 0x100 ≤ off ∧ off ≤ 0x120 then trapRingInfo (off - 0x100)
  else ⟨0, 0, 0⟩

/-- The translation window (R405, R413, R419, R487). -/
def transInfo (off : Nat) : RegInfo :=
  if off = 0x00 then ⟨0, fieldMask 51 19, 0⟩
  else if 0x10 ≤ off ∧ off < 0x30 then invInfo false (off - 0x10)
  else if off = 0x30 then ⟨0, fieldMask 11 0, 0⟩
  else if 0x40 ≤ off ∧ off < 0x60 then logInfo (off - 0x40)
  else ⟨0, 0, 0⟩

/-- Reset value and write masks of a register. -/
def Window.info (w : Window) (off : Nat) : RegInfo :=
  match w with
  | .part _ => partInfo off
  | .trans _ => transInfo off
  | .cx _ => cxInfo off
  | .chain _ _ _ =>
    match off with
    | 0x00 => ⟨0, fieldMask 63 63 + fieldMask 15 4 + 1, 0⟩
    | 0x08 => ⟨0, fieldMask 63 5, 0⟩
    | 0x30 => ⟨0, 0, 3⟩
    | _ => ⟨0, 0, 0⟩
  | .splice _ _ =>
    match off with
    | 0x00 => ⟨0, fieldMask 63 16, 0⟩
    | 0x08 => ⟨0, fieldMask 7 0, 0⟩
    | 0x10 => ⟨0, ringMask, fieldMask 4 4⟩
    | _ => ⟨0, 0, 0⟩
  | .queue _ _ =>
    match off with
    | 0x00 => ⟨0, fieldMask 51 5, 0⟩
    | 0x08 => ⟨0, fieldMask 63 0, 0⟩
    | 0x10 => ⟨0, 0, 2⟩
    | 0x20 => ⟨0, 0, fieldMask 7 7⟩
    | _ => ⟨0, 0, 0⟩
  | .hold =>
    match off with
    | 0x00 => ⟨10 * 2 ^ 48 + 10 * 2 ^ 16, fieldMask 55 48 + fieldMask 21 16, 0⟩
    | 0x08 => ⟨0, fieldMask 51 30, 0⟩
    | _ => ⟨0, 0, 0⟩
  | .lease _ => ⟨0, 0, 0⟩
  | .regmap => if off = 0 then ⟨regmapReset 0 32, fieldMask 63 0, 0⟩ else ⟨regmapReset 32 4, fieldMask 7 0, 0⟩
  | .dsense _ => ⟨0, 0, 0⟩
  | .dtarget _ => ⟨0x1F40 * 2 ^ 44 + 1200 * 2 ^ 32 + 500 * 2 ^ 22, fieldMask 63 0, 0⟩
  | .millcal _ => ⟨500 * 2 ^ 32 + 2000, fieldMask 63 0, 0⟩
  | .energy _ => ⟨0, 0, 0⟩
  | .ready => ⟨0, 0, 0⟩
  | .start n => ⟨n * 2 ^ 32, 0, 0⟩
  | .tier _ => ⟨0, 0, 0⟩

end Sys2Proof.Machine
end

