-- ==== Sys2Proof/Syntax.lean ====
section
/-! DEFINITION. The instructions, commands and events of the TZ960: one constructor for each row of the opcode table.
A word's constructor holds the word's fields under the names of its entry, most significant first; an event's constructor holds what the
agent that brings it about chooses. -/

namespace Sys2Proof

open Sys2Proof.Machine (Window)

/-- Every instruction word (R68), every command (R424) and every event of the device. -/
inductive Instr where
  | add (d : BitVec 5) (a : BitVec 5) (b : BitVec 5)  -- R100
  | sub (d : BitVec 5) (a : BitVec 5) (b : BitVec 5)  -- R100
  | and (d : BitVec 5) (a : BitVec 5) (b : BitVec 5)  -- R100
  | or (d : BitVec 5) (a : BitVec 5) (b : BitVec 5)  -- R100
  | xor (d : BitVec 5) (a : BitVec 5) (b : BitVec 5)  -- R100
  | shl (d : BitVec 5) (a : BitVec 5) (b : BitVec 5)  -- R100
  | shr (d : BitVec 5) (a : BitVec 5) (b : BitVec 5)  -- R100
  | sha (d : BitVec 5) (a : BitVec 5) (b : BitVec 5)  -- R100
  | mul (d : BitVec 5) (a : BitVec 5) (b : BitVec 5)  -- R100
  | mulh (d : BitVec 5) (a : BitVec 5) (b : BitVec 5)  -- R100
  | mulhn (d : BitVec 5) (a : BitVec 5) (b : BitVec 5)  -- R100
  | div (d : BitVec 5) (a : BitVec 5) (b : BitVec 5)  -- R100
  | divn (d : BitVec 5) (a : BitVec 5) (b : BitVec 5)  -- R100
  | rem (d : BitVec 5) (a : BitVec 5) (b : BitVec 5)  -- R100
  | remn (d : BitVec 5) (a : BitVec 5) (b : BitVec 5)  -- R100
  | min (d : BitVec 5) (a : BitVec 5) (b : BitVec 5)  -- R100
  | max (d : BitVec 5) (a : BitVec 5) (b : BitVec 5)  -- R100
  | minn (d : BitVec 5) (a : BitVec 5) (b : BitVec 5)  -- R100
  | maxn (d : BitVec 5) (a : BitVec 5) (b : BitVec 5)  -- R100
  | slt (d : BitVec 5) (a : BitVec 5) (b : BitVec 5)  -- R100
  | sltn (d : BitVec 5) (a : BitVec 5) (b : BitVec 5)  -- R100
  | seq (d : BitVec 5) (a : BitVec 5) (b : BitVec 5)  -- R100
  | clz (d : BitVec 5) (a : BitVec 5)  -- R100
  | ctz (d : BitVec 5) (a : BitVec 5)  -- R100
  | popc (d : BitVec 5) (a : BitVec 5)  -- R100
  | qadd (d : BitVec 5) (a : BitVec 5) (b : BitVec 5)  -- R101
  | addi (d : BitVec 5) (a : BitVec 5) (i : BitVec 16)  -- R102
  | andi (d : BitVec 5) (a : BitVec 5) (i : BitVec 16)  -- R102
  | ori (d : BitVec 5) (a : BitVec 5) (i : BitVec 16)  -- R102
  | xori (d : BitVec 5) (a : BitVec 5) (i : BitVec 16)  -- R102
  | slti (d : BitVec 5) (a : BitVec 5) (i : BitVec 16)  -- R102
  | shli (d : BitVec 5) (a : BitVec 5) (n : BitVec 6)  -- R103
  | shri (d : BitVec 5) (a : BitVec 5) (n : BitVec 6)  -- R103
  | shai (d : BitVec 5) (a : BitVec 5) (n : BitVec 6)  -- R103
  | lui (d : BitVec 5) (i : BitVec 21)  -- R104
  | addpc (d : BitVec 5) (i : BitVec 21)  -- R104
  | fadd (d : BitVec 5) (a : BitVec 5) (b : BitVec 5) (f : BitVec 3)  -- R106
  | fsub (d : BitVec 5) (a : BitVec 5) (b : BitVec 5) (f : BitVec 3)  -- R106
  | fmul (d : BitVec 5) (a : BitVec 5) (b : BitVec 5) (f : BitVec 3)  -- R106
  | ffma (d : BitVec 5) (a : BitVec 5) (b : BitVec 5) (f : BitVec 3)  -- R106
  | fdiv (d : BitVec 5) (a : BitVec 5) (b : BitVec 5) (f : BitVec 3)  -- R106
  | fsqrt (d : BitVec 5) (a : BitVec 5) (f : BitVec 3)  -- R106
  | fmin (d : BitVec 5) (a : BitVec 5) (b : BitVec 5) (f : BitVec 3)  -- R106
  | fmax (d : BitVec 5) (a : BitVec 5) (b : BitVec 5) (f : BitVec 3)  -- R106
  | feq (d : BitVec 5) (a : BitVec 5) (b : BitVec 5) (f : BitVec 3)  -- R106
  | flt (d : BitVec 5) (a : BitVec 5) (b : BitVec 5) (f : BitVec 3)  -- R106
  | fle (d : BitVec 5) (a : BitVec 5) (b : BitVec 5) (f : BitVec 3)  -- R106
  | fclass (d : BitVec 5) (a : BitVec 5) (f : BitVec 3)  -- R106
  | fcvtI (d : BitVec 5) (a : BitVec 5) (f : BitVec 3)  -- R106
  | fcvtN (d : BitVec 5) (a : BitVec 5) (f : BitVec 3)  -- R106
  | fcvtFi (d : BitVec 5) (a : BitVec 5) (f : BitVec 3)  -- R106
  | fcvtFn (d : BitVec 5) (a : BitVec 5) (f : BitVec 3)  -- R106
  | fcvtFf (d : BitVec 5) (a : BitVec 5) (s : BitVec 2) (f : BitVec 3)  -- R106
  | beq (a : BitVec 5) (b : BitVec 5) (o : BitVec 16)  -- R108
  | bne (a : BitVec 5) (b : BitVec 5) (o : BitVec 16)  -- R108
  | blt (a : BitVec 5) (b : BitVec 5) (o : BitVec 16)  -- R108
  | bge (a : BitVec 5) (b : BitVec 5) (o : BitVec 16)  -- R108
  | bltn (a : BitVec 5) (b : BitVec 5) (o : BitVec 16)  -- R108
  | bgen (a : BitVec 5) (b : BitVec 5) (o : BitVec 16)  -- R108
  | jal (d : BitVec 5) (o : BitVec 21)  -- R109
  | jalr (d : BitVec 5) (a : BitVec 5) (i : BitVec 16)  -- R109
  | ld (s : BitVec 5) (a : BitVec 5) (w : BitVec 4) (z : BitVec 2) (i : BitVec 10)  -- R112
  | ldn (s : BitVec 5) (a : BitVec 5) (w : BitVec 4) (z : BitVec 2) (i : BitVec 10)  -- R112
  | st (s : BitVec 5) (a : BitVec 5) (w : BitVec 4) (z : BitVec 2) (i : BitVec 10)  -- R112
  | ldx (s : BitVec 5) (a : BitVec 5) (w : BitVec 4) (z : BitVec 2) (i : BitVec 10)  -- R114
  | stx (s : BitVec 5) (a : BitVec 5) (w : BitVec 4) (z : BitVec 2) (i : BitVec 10)  -- R114
  | aadd (a : BitVec 5) (b : BitVec 5) (w : BitVec 4) (z : BitVec 1)  -- R210
  | aand (a : BitVec 5) (b : BitVec 5) (w : BitVec 4) (z : BitVec 1)  -- R210
  | aor (a : BitVec 5) (b : BitVec 5) (w : BitVec 4) (z : BitVec 1)  -- R210
  | axor (a : BitVec 5) (b : BitVec 5) (w : BitVec 4) (z : BitVec 1)  -- R210
  | amin (a : BitVec 5) (b : BitVec 5) (w : BitVec 4) (z : BitVec 1)  -- R210
  | amax (a : BitVec 5) (b : BitVec 5) (w : BitVec 4) (z : BitVec 1)  -- R210
  | aminn (a : BitVec 5) (b : BitVec 5) (w : BitVec 4) (z : BitVec 1)  -- R210
  | amaxn (a : BitVec 5) (b : BitVec 5) (w : BitVec 4) (z : BitVec 1)  -- R210
  | aaddRet (d : BitVec 5) (a : BitVec 5) (b : BitVec 5) (w : BitVec 4) (z : BitVec 1)  -- R210
  | aandRet (d : BitVec 5) (a : BitVec 5) (b : BitVec 5) (w : BitVec 4) (z : BitVec 1)  -- R210
  | aorRet (d : BitVec 5) (a : BitVec 5) (b : BitVec 5) (w : BitVec 4) (z : BitVec 1)  -- R210
  | axorRet (d : BitVec 5) (a : BitVec 5) (b : BitVec 5) (w : BitVec 4) (z : BitVec 1)  -- R210
  | aminRet (d : BitVec 5) (a : BitVec 5) (b : BitVec 5) (w : BitVec 4) (z : BitVec 1)  -- R210
  | amaxRet (d : BitVec 5) (a : BitVec 5) (b : BitVec 5) (w : BitVec 4) (z : BitVec 1)  -- R210
  | aminnRet (d : BitVec 5) (a : BitVec 5) (b : BitVec 5) (w : BitVec 4) (z : BitVec 1)  -- R210
  | amaxnRet (d : BitVec 5) (a : BitVec 5) (b : BitVec 5) (w : BitVec 4) (z : BitVec 1)  -- R210
  | aswap (d : BitVec 5) (a : BitVec 5) (b : BitVec 5) (w : BitVec 4) (z : BitVec 1)  -- R210
  | acas (d : BitVec 5) (a : BitVec 5) (b : BitVec 5) (w : BitVec 4) (z : BitVec 1)  -- R210
  | fenceV (c : BitVec 3) (m : BitVec 16)  -- R164
  | fenceS (c : BitVec 3) (m : BitVec 16)  -- R164
  | waitseq (a : BitVec 5) (b : BitVec 5)  -- R216
  | signal (a : BitVec 5) (b : BitVec 5)  -- R216
  | waitx (a : BitVec 5)  -- R117
  | sqwait (d : BitVec 5) (q : BitVec 3) (b : BitVec 5)  -- R217
  | tseq (d : BitVec 5) (a : BitVec 5)  -- R216
  | gjoin (d : BitVec 5) (a : BitVec 5)  -- R260
  | gleave (a : BitVec 5)  -- R260
  | gbar (a : BitVec 5)  -- R261
  | forkl (d : BitVec 5) (a : BitVec 5)  -- R263
  | joinl (a : BitVec 5)  -- R264
  | yield  -- R259
  | tid (d : BitVec 5)  -- R259
  | gsize (d : BitVec 5) (a : BitVec 5)  -- R260
  | trap (k : BitVec 12)  -- R121
  | csrr (d : BitVec 5) (k : BitVec 12)  -- R120
  | csrw (d : BitVec 5) (a : BitVec 5) (k : BitVec 12)  -- R120
  | csrs (d : BitVec 5) (a : BitVec 5) (k : BitVec 12)  -- R120
  | csrc (d : BitVec 5) (a : BitVec 5) (k : BitVec 12)  -- R120
  | sleep (a : BitVec 5) (k : BitVec 12)  -- R122
  | halt (k : BitVec 12)  -- R123
  | brk (k : BitVec 12)  -- R124
  | chapp (d : BitVec 5) (a : BitVec 5) (b : BitVec 5)  -- R223
  | strmR (q : BitVec 3) (w : BitVec 4) (p : BitVec 5)  -- R232
  | strmW (q : BitVec 3) (w : BitVec 4) (p : BitVec 5)  -- R232
  | strmRg (q : BitVec 3) (w : BitVec 4) (p : BitVec 5)  -- R232
  | sunb (q : BitVec 3)  -- R233
  | gang (d : BitVec 5) (a : BitVec 5) (b : BitVec 5)  -- R234
  | ungang  -- R234
  | vconfigImm (d : BitVec 5) (c : BitVec 11)  -- R131
  | vconfigReg (d : BitVec 5) (a : BitVec 5)  -- R131
  | vtag (c : BitVec 2) (v : BitVec 6) (t : BitVec 4)  -- R132
  | setvl (d : BitVec 5) (a : BitVec 5) (e : BitVec 2)  -- R134
  | setvlB (d : BitVec 5) (a : BitVec 5) (b : BitVec 3) (t : BitVec 4)  -- R136
  | vcarrySet (o : BitVec 2) (n : BitVec 5)  -- R133
  | vcarryReg (a : BitVec 5)  -- R133
  | vfetch (b : BitVec 6) (p : BitVec 4)  -- R265
  | efetch (b : BitVec 6)  -- R267
  | ebz (o : BitVec 6) (a : BitVec 6)  -- R267
  | ebnz (o : BitVec 6) (a : BitVec 6)  -- R267
  | eend  -- R267
  | xqsend (a : BitVec 6)  -- R268
  | xqrecv (d : BitVec 6)  -- R268
  | vaddVv (d : BitVec 6) (a : BitVec 6) (b : BitVec 6) (p : BitVec 4)  -- R316
  | vsubVv (d : BitVec 6) (a : BitVec 6) (b : BitVec 6) (p : BitVec 4)  -- R316
  | vmulVv (d : BitVec 6) (a : BitVec 6) (b : BitVec 6) (p : BitVec 4)  -- R316
  | vfmaVv (d : BitVec 6) (a : BitVec 6) (b : BitVec 6) (p : BitVec 4)  -- R316
  | vfmsVv (d : BitVec 6) (a : BitVec 6) (b : BitVec 6) (p : BitVec 4)  -- R316
  | vfnmaVv (d : BitVec 6) (a : BitVec 6) (b : BitVec 6) (p : BitVec 4)  -- R316
  | vdivVv (d : BitVec 6) (a : BitVec 6) (b : BitVec 6) (p : BitVec 4)  -- R316
  | vminVv (d : BitVec 6) (a : BitVec 6) (b : BitVec 6) (p : BitVec 4)  -- R316
  | vmaxVv (d : BitVec 6) (a : BitVec 6) (b : BitVec 6) (p : BitVec 4)  -- R316
  | vabsVv (d : BitVec 6) (a : BitVec 6) (p : BitVec 4)  -- R316
  | vnegVv (d : BitVec 6) (a : BitVec 6) (p : BitVec 4)  -- R316
  | vsaddVv (d : BitVec 6) (a : BitVec 6) (b : BitVec 6) (p : BitVec 4)  -- R316
  | vssubVv (d : BitVec 6) (a : BitVec 6) (b : BitVec 6) (p : BitVec 4)  -- R316
  | vmulhVv (d : BitVec 6) (a : BitVec 6) (b : BitVec 6) (p : BitVec 4)  -- R316
  | vavgVv (d : BitVec 6) (a : BitVec 6) (b : BitVec 6) (p : BitVec 4)  -- R316
  | vaddVs (d : BitVec 6) (a : BitVec 6) (s : BitVec 5) (p : BitVec 4)  -- R316
  | vsubVs (d : BitVec 6) (a : BitVec 6) (s : BitVec 5) (p : BitVec 4)  -- R316
  | vmulVs (d : BitVec 6) (a : BitVec 6) (s : BitVec 5) (p : BitVec 4)  -- R316
  | vfmaVs (d : BitVec 6) (a : BitVec 6) (s : BitVec 5) (p : BitVec 4)  -- R316
  | vfmsVs (d : BitVec 6) (a : BitVec 6) (s : BitVec 5) (p : BitVec 4)  -- R316
  | vfnmaVs (d : BitVec 6) (a : BitVec 6) (s : BitVec 5) (p : BitVec 4)  -- R316
  | vdivVs (d : BitVec 6) (a : BitVec 6) (s : BitVec 5) (p : BitVec 4)  -- R316
  | vminVs (d : BitVec 6) (a : BitVec 6) (s : BitVec 5) (p : BitVec 4)  -- R316
  | vmaxVs (d : BitVec 6) (a : BitVec 6) (s : BitVec 5) (p : BitVec 4)  -- R316
  | vabsVs (d : BitVec 6) (s : BitVec 5) (p : BitVec 4)  -- R316
  | vnegVs (d : BitVec 6) (s : BitVec 5) (p : BitVec 4)  -- R316
  | vsaddVs (d : BitVec 6) (a : BitVec 6) (s : BitVec 5) (p : BitVec 4)  -- R316
  | vssubVs (d : BitVec 6) (a : BitVec 6) (s : BitVec 5) (p : BitVec 4)  -- R316
  | vmulhVs (d : BitVec 6) (a : BitVec 6) (s : BitVec 5) (p : BitVec 4)  -- R316
  | vavgVs (d : BitVec 6) (a : BitVec 6) (s : BitVec 5) (p : BitVec 4)  -- R316
  | vand (d : BitVec 6) (a : BitVec 6) (b : BitVec 6) (p : BitVec 4)  -- R318
  | vor (d : BitVec 6) (a : BitVec 6) (b : BitVec 6) (p : BitVec 4)  -- R318
  | vxor (d : BitVec 6) (a : BitVec 6) (b : BitVec 6) (p : BitVec 4)  -- R318
  | vnot (d : BitVec 6) (a : BitVec 6) (p : BitVec 4)  -- R318
  | vshl (d : BitVec 6) (a : BitVec 6) (b : BitVec 6) (p : BitVec 4)  -- R318
  | vshr (d : BitVec 6) (a : BitVec 6) (b : BitVec 6) (p : BitVec 4)  -- R318
  | vsha (d : BitVec 6) (a : BitVec 6) (b : BitVec 6) (p : BitVec 4)  -- R318
  | vclz (d : BitVec 6) (a : BitVec 6) (p : BitVec 4)  -- R318
  | vpopc (d : BitVec 6) (a : BitVec 6) (p : BitVec 4)  -- R318
  | vceq (q : BitVec 4) (a : BitVec 6) (b : BitVec 6) (p : BitVec 4)  -- R320
  | vcne (q : BitVec 4) (a : BitVec 6) (b : BitVec 6) (p : BitVec 4)  -- R320
  | vclt (q : BitVec 4) (a : BitVec 6) (b : BitVec 6) (p : BitVec 4)  -- R320
  | vcle (q : BitVec 4) (a : BitVec 6) (b : BitVec 6) (p : BitVec 4)  -- R320
  | vcun (q : BitVec 4) (a : BitVec 6) (b : BitVec 6) (p : BitVec 4)  -- R320
  | vclass (q : BitVec 4) (a : BitVec 6) (k : BitVec 6) (p : BitVec 4)  -- R320
  | vsqrt (d : BitVec 6) (a : BitVec 6) (p : BitVec 4)  -- R322
  | vrcp (d : BitVec 6) (a : BitVec 6) (p : BitVec 4)  -- R322
  | vrsq (d : BitVec 6) (a : BitVec 6) (p : BitVec 4)  -- R322
  | vexp2f (d : BitVec 6) (a : BitVec 6) (p : BitVec 4)  -- R322
  | vlog2f (d : BitVec 6) (a : BitVec 6) (p : BitVec 4)  -- R322
  | vrndi (d : BitVec 6) (a : BitVec 6) (p : BitVec 4)  -- R323
  | vgetexp (d : BitVec 6) (a : BitVec 6) (p : BitVec 4)  -- R323
  | vcvt (d : BitVec 6) (a : BitVec 6) (t : BitVec 4) (p : BitVec 4)  -- R324
  | vmov (d : BitVec 6) (a : BitVec 6) (p : BitVec 4)  -- R325
  | vsel (d : BitVec 6) (a : BitVec 6) (b : BitVec 6) (p : BitVec 4)  -- R325
  | vscale (d : BitVec 6) (a : BitVec 6) (b : BitVec 6) (p : BitVec 4)  -- R326
  | vslideup (d : BitVec 6) (a : BitVec 6) (s : BitVec 5) (p : BitVec 4)  -- R329
  | vslidedn (d : BitVec 6) (a : BitVec 6) (s : BitVec 5) (p : BitVec 4)  -- R329
  | vbfly (d : BitVec 6) (a : BitVec 6) (s : BitVec 5) (p : BitVec 4)  -- R330
  | vid (d : BitVec 6) (p : BitVec 4)  -- R329
  | vbcast (d : BitVec 6) (s : BitVec 5) (p : BitVec 4)  -- R329
  | vbflyC (d : BitVec 6) (a : BitVec 6) (s : BitVec 5) (p : BitVec 4)  -- R331
  | vxg (d : BitVec 6) (a : BitVec 6) (b : BitVec 6) (p : BitVec 4)  -- R334
  | vcomp (d : BitVec 6) (a : BitVec 6) (p : BitVec 4)  -- R335
  | vexpd (d : BitVec 6) (a : BitVec 6) (p : BitVec 4)  -- R335
  | vredsum (d : BitVec 6) (a : BitVec 6) (b : BitVec 3) (p : BitVec 4)  -- R343
  | vredmax (d : BitVec 6) (a : BitVec 6) (b : BitVec 3) (p : BitVec 4)  -- R343
  | vredmin (d : BitVec 6) (a : BitVec 6) (b : BitVec 3) (p : BitVec 4)  -- R343
  | vredand (d : BitVec 6) (a : BitVec 6) (b : BitVec 3) (p : BitVec 4)  -- R343
  | vredor (d : BitVec 6) (a : BitVec 6) (b : BitVec 3) (p : BitVec 4)  -- R343
  | vredxor (d : BitVec 6) (a : BitVec 6) (b : BitVec 3) (p : BitVec 4)  -- R343
  | vtree (y : BitVec 2) (a : BitVec 6) (p : BitVec 4)  -- R347
  | tmerge (y : BitVec 2) (a : BitVec 6)  -- R350
  | tread (d : BitVec 6) (y : BitVec 2) (i : BitVec 1)  -- R348
  | tclear (y : BitVec 2) (s : BitVec 5)  -- R346
  | vscan (d : BitVec 6) (a : BitVec 6) (o : BitVec 1) (i : BitVec 1) (p : BitVec 4)  -- R353
  | vscana (d : BitVec 6) (a : BitVec 6) (o : BitVec 1) (i : BitVec 1) (p : BitVec 4)  -- R353
  | vscanmax (d : BitVec 6) (a : BitVec 6) (o : BitVec 1) (i : BitVec 1) (p : BitVec 4)  -- R353
  | pand (d : BitVec 4) (a : BitVec 4) (b : BitVec 4)  -- R338
  | por (d : BitVec 4) (a : BitVec 4) (b : BitVec 4)  -- R338
  | pxor (d : BitVec 4) (a : BitVec 4) (b : BitVec 4)  -- R338
  | pnot (d : BitVec 4) (a : BitVec 4)  -- R338
  | pandn (d : BitVec 4) (a : BitVec 4) (b : BitVec 4)  -- R338
  | pwhile (d : BitVec 4) (s : BitVec 5)  -- R338
  | pcnt (a : BitVec 4) (b : BitVec 4) (s : BitVec 5)  -- R338
  | pfirst (a : BitVec 4) (b : BitVec 4) (s : BitVec 5)  -- R338
  | pset (d : BitVec 4) (v : BitVec 6)  -- R338
  | vins (d : BitVec 6) (x : BitVec 5) (b : BitVec 5)  -- R337
  | vext (x : BitVec 5) (a : BitVec 6) (d : BitVec 5)  -- R337
  | vld (d : BitVec 6) (w : BitVec 4) (s : BitVec 5) (p : BitVec 4)  -- R190
  | vst (d : BitVec 6) (w : BitVec 4) (s : BitVec 5) (p : BitVec 4)  -- R190
  | vldx (d : BitVec 6) (w : BitVec 4) (x : BitVec 6) (p : BitVec 4)  -- R190
  | vstx (d : BitVec 6) (w : BitVec 4) (x : BitVec 6) (p : BitVec 4)  -- R190
  | vldff (d : BitVec 6) (w : BitVec 4) (s : BitVec 5) (p : BitVec 4)  -- R192
  | vgb (d : BitVec 6) (w : BitVec 4) (x : BitVec 6) (p : BitVec 4)  -- R193
  | vsb (d : BitVec 6) (w : BitVec 4) (x : BitVec 6) (p : BitVec 4)  -- R193
  | vaadd (d : BitVec 6) (w : BitVec 4) (x : BitVec 6) (p : BitVec 4)  -- R194
  | vsrd (d : BitVec 6) (q : BitVec 3) (s : BitVec 5) (p : BitVec 4)  -- R197
  | vswr (d : BitVec 6) (q : BitVec 3) (s : BitVec 5) (p : BitVec 4)  -- R197
  | tlook (d : BitVec 5) (a : BitVec 5)  -- R207
  | tset (d : BitVec 5) (a : BitVec 5) (b : BitVec 5)  -- R207
  | tinv (d : BitVec 5) (a : BitVec 5)  -- R207
  | vwset (n : BitVec 4) (a : BitVec 5) (v : BitVec 4)  -- R202
  | vwret (n : BitVec 4)  -- R203
  | vwget (d : BitVec 5) (n : BitVec 4) (k : BitVec 3)  -- R204
  | vrng (d : BitVec 6) (s : BitVec 5) (p : BitVec 4)  -- R357
  | mtv (d : BitVec 6) (t : BitVec 2) (x : BitVec 1) (a : BitVec 5) (p : BitVec 4)  -- R380
  | mvt (d : BitVec 6) (t : BitVec 2) (x : BitVec 1) (a : BitVec 5) (p : BitVec 4)  -- R380
  | mtvc (d : BitVec 6) (t : BitVec 2) (x : BitVec 1) (p : BitVec 4)  -- R381
  | mten (m : BitVec 4)  -- R364
  | mzero (t : BitVec 2) (a : BitVec 4) (c : BitVec 1)  -- R373
  | mldw (a : BitVec 4) (s : BitVec 5) (y : BitVec 3)  -- R366
  | mswap (a : BitVec 4)  -- R367
  | mma (t : BitVec 2) (a : BitVec 4) (s : BitVec 5) (z : BitVec 1)  -- R369
  | mmaF64 (t : BitVec 2) (a : BitVec 4) (s : BitVec 5) (z : BitVec 1)  -- R371
  | mscan (t : BitVec 2) (a : BitVec 4) (o : BitVec 1) (i : BitVec 1)  -- R372
  | mcld (t : BitVec 2) (a : BitVec 4) (s : BitVec 5)  -- R373
  | mcst (t : BitVec 2) (a : BitVec 4) (s : BitVec 5)  -- R373
  | mst (t : BitVec 2) (a : BitVec 4) (s : BitVec 5)  -- R373
  | mld (t : BitVec 2) (a : BitVec 4) (s : BitVec 5)  -- R373
  | mrow (a : BitVec 4) (s : BitVec 5)  -- R368
  | mcol (a : BitVec 4) (s : BitVec 5)  -- R368
  | msig (s : BitVec 5) (i : BitVec 6)  -- R374
  | mwait (s : BitVec 5)  -- R375
  | mcfg (s : BitVec 5)  -- R365
  | cmdNop  -- R424
  | cmdHalt (k : BitVec 16)  -- R428
  | cmdLi (a : BitVec 4) (i : BitVec 16)  -- R424
  | cmdLil (a : BitVec 4) (lit : BitVec 64)  -- R424
  | cmdAddi (a : BitVec 4) (b : BitVec 4) (i : BitVec 16)  -- R424
  | cmdAdd (a : BitVec 4) (b : BitVec 4)  -- R424
  | cmdSub (a : BitVec 4) (b : BitVec 4)  -- R424
  | cmdAnd (a : BitVec 4) (b : BitVec 4)  -- R424
  | cmdOr (a : BitVec 4) (b : BitVec 4)  -- R424
  | cmdShli (a : BitVec 4) (b : BitVec 4) (n : BitVec 6)  -- R424
  | cmdLd (a : BitVec 4) (b : BitVec 4) (i : BitVec 16)  -- R425
  | cmdSt (a : BitVec 4) (b : BitVec 4) (i : BitVec 16)  -- R425
  | cmdBeq (a : BitVec 4) (b : BitVec 4) (o : BitVec 16)  -- R426
  | cmdBne (a : BitVec 4) (b : BitVec 4) (o : BitVec 16)  -- R426
  | cmdBlt (a : BitVec 4) (b : BitVec 4) (o : BitVec 16)  -- R426
  | cmdLoop (a : BitVec 4) (o : BitVec 16)  -- R424
  | cmdCall (lit : BitVec 64)  -- R426
  | cmdRet  -- R426
  | cmdLink (lit : BitVec 64)  -- R435
  | cmdLaunch (a : BitVec 4) (b : BitVec 4) (p : BitVec 3) (d : BitVec 1)  -- R430
  | cmdLaunchm (a : BitVec 4) (b : BitVec 4) (p : BitVec 3) (d : BitVec 1)  -- R430
  | cmdSplice  -- R238
  | cmdChapp (a : BitVec 4) (b : BitVec 4) (n : BitVec 6)  -- R424
  | cmdWait (b : BitVec 4) (y : BitVec 4) (c : BitVec 9)  -- R424
  | cmdSignal (b : BitVec 4) (y : BitVec 4) (c : BitVec 9)  -- R424
  | cmdFence  -- R424
  | launchPlaceRange (lid : Nat)  -- R255
  | launchComplete (lid : Nat)  -- R433
  | registerWrite (w : Window) (off : Nat) (v : Dword) (epoch : Nat)  -- R6
  | cxStop (part : Nat)  -- R444
  | cxSave (part : Nat)  -- R444
  | cxRestore (part : Nat)  -- R458
  | cxResume (part : Nat)  -- R459
  | cxCommandComplete (part : Nat)  -- R444
  | cxdataRead (part : Nat)  -- R461
  | cxdataWrite (part : Nat) (v : Dword)  -- R461
  | debugStopCmd (part : Nat)  -- R493
  | debugStep (part : Nat)  -- R493
  | breakpointHit (flat : Nat)  -- R489
  | debugStopDrained (flat : Nat)  -- R493
  | kill (part : Nat) (flat : Nat)  -- R419
  | killDone (part : Nat)  -- R419
  | partitionCreate (part : Nat)  -- R403
  | partitionDestroy (part : Nat)  -- R404
  | invalidateGo (part : Nat) (stage2 : Bool) (die core : Nat)  -- R414
  | invalidationComplete (part : Nat) (stage2 : Bool)  -- R179
  | ptEditRecord (part : Nat) (stage2 : Bool) (addr : Nat) (v : Dword) (page pages die core : Nat)  -- R488
  | queueBind (die slot : Nat)  -- R418
  | queueHoldClear (die slot : Nat)  -- R418
  | qfreePop (die slot : Nat)  -- R436
  | qfreePush (die slot : Nat) (v : Dword)  -- R436
  | leaseRenew (die : Nat) (epoch : Nat)  -- R474
  | leaseTake (die : Nat)  -- R474
  | leaseHand (die : Nat) (dst : Nat) (epoch : Nat)  -- R474
  | fwHeartbeat (die : Nat)  -- R473
  | healthTimeout (die : Nat)  -- R473
  | dieFence (die : Nat)  -- R476
  | regmapWrite (hi : Bool) (v : Dword)  -- R498
  | bayRegulatorMove (bay : Nat)  -- R280
  | chstatStopClear (part die chain : Nat)  -- R225
  | startRecordClear (n : Nat)  -- R479
  | coldBoot (pass alt : BitVec 12) (details : List Nat)  -- R480
  | unitMapOut (unit : Nat)  -- R482
  | pmlLinkUp (port : Nat)  -- R20
  | holdEntry  -- R466
  | holdDeadline (epoch : Nat)  -- R466
  | pwarnFall  -- R469
  | holdResume (epoch : Nat)  -- R469
  | holdSupplyLoss  -- R472
  | droop (bay slots : Nat)  -- R286
  | droopEnd (bay : Nat)  -- R286
  | chandlerLoop (targets : List Nat) (sensors : List Nat) (energies : List Nat)  -- R282
  | targetTimeout (domain : Nat)  -- R283
  | millCapUpdate (mill : Nat)  -- R284
  | ballastEnd (mill : Nat)  -- R287
  | tierMigration (g target : Nat) (exchange : Bool)  -- R411
  | arbiterCycle (mill : Nat)  -- R274
  | grantApply (flat : Nat)  -- R138
  | vfetchComplete (flat : Nat)  -- R265
  | waitEnd (flat : Nat)  -- R276
  | sleepExpiry (flat : Nat)  -- R122
  | xqEntryComplete (flat : Nat) (failed : Bool)  -- R115
  | streamBindingStart (mill port : Nat)  -- R231
  | streamFetch (mill port : Nat)  -- R231
  | engineJobStart (part die chain : Nat)  -- R224
  | jobComplete (job : Nat) (outcome : Nat)  -- R226
  | foldContribution (job : Nat)  -- R229
  | matrixOpComplete (mill : Nat) (fail : Option Nat)  -- R359
  | msigRaise (flat : Nat)  -- R374
  | hostWrite (part : Nat) (addr : Nat) (bytes : List Byte)  -- R170
  | hostRead (part : Nat) (addr n : Nat)  -- R170
  | peerRequest (tag addr op : Nat) (args : List Nat) (bytes : List Byte)  -- R410
  | spdmGetVersion (part : Nat) (epoch : Nat)  -- R422
  | spdmGetCapabilities (part : Nat) (epoch : Nat)  -- R422
  | spdmNegotiateAlgorithms (part : Nat) (epoch : Nat) (asym hash : Nat)  -- R422
  | spdmGetDigests (part : Nat) (epoch : Nat)  -- R422
  | spdmGetCertificate (part : Nat) (epoch : Nat) (off len : Nat)  -- R422
  | spdmChallenge (part : Nat) (epoch : Nat) (nonce : Nat)  -- R422
  | spdmGetMeasurements (part : Nat) (epoch : Nat) (index nonce : Nat)  -- R422
  | illegalInstruction (word : Word)  -- R73
  | fetchOutsideImage  -- R110
  | illegalCommand (word : Word)  -- R427
  | pmlLinkDown (port : Nat)  -- R118
  | hostConfigRequest (reg : Nat)  -- R468
deriving DecidableEq, Repr

end Sys2Proof
end

