-- ==== Sys2Proof/Decode.lean ====
section
/-! DEFINITION. Decoding, total on any bytes, and the encoder (R58 to R68, R71 to R74, R423, R424). A word is stored little-endian (R5). -/

namespace Sys2Proof

/-- Why a word is no instruction (R73, R232) or no command (R424, R427). -/
inductive Reject where
  | neverAssigned   -- OP 0x00 or 0x3F (R74)
  | reserved        -- OP 0x30 to 0x37 or 0x39 to 0x3E (R68)
  | unassigned      -- an unassigned func value, or a nonzero must-be-zero field (R73)
  | gangWrite       -- `strm` with GANG = 1 and DIR = 1: an illegal operand, not an illegal instruction (R232)
  | matrixView      -- a member of OP 0x38 with a view other than 0: an illegal operand on a matrix control core (R72)
  | illegalCommand  -- a word that is no command (R424)
  | tooShort        -- fewer bytes than the instruction has
deriving DecidableEq, Repr

/-- The field of `n` bits of `w` from bit `lo`. -/
def field (w : Word) (lo n : Nat) : BitVec n := BitVec.ofNat n (w.toNat / 2 ^ lo)

/-- OP 0x01 (R100, R101). -/
def decode01 (w : Word) : Except Reject Instr :=
  match bitsAt w 0 11 with
  | 0 => .ok (.add (field w 21 5) (field w 16 5) (field w 11 5))
  | 1 => .ok (.sub (field w 21 5) (field w 16 5) (field w 11 5))
  | 2 => .ok (.and (field w 21 5) (field w 16 5) (field w 11 5))
  | 3 => .ok (.or (field w 21 5) (field w 16 5) (field w 11 5))
  | 4 => .ok (.xor (field w 21 5) (field w 16 5) (field w 11 5))
  | 5 => .ok (.shl (field w 21 5) (field w 16 5) (field w 11 5))
  | 6 => .ok (.shr (field w 21 5) (field w 16 5) (field w 11 5))
  | 7 => .ok (.sha (field w 21 5) (field w 16 5) (field w 11 5))
  | 8 => .ok (.mul (field w 21 5) (field w 16 5) (field w 11 5))
  | 9 => .ok (.mulh (field w 21 5) (field w 16 5) (field w 11 5))
  | 10 => .ok (.mulhn (field w 21 5) (field w 16 5) (field w 11 5))
  | 11 => .ok (.div (field w 21 5) (field w 16 5) (field w 11 5))
  | 12 => .ok (.divn (field w 21 5) (field w 16 5) (field w 11 5))
  | 13 => .ok (.rem (field w 21 5) (field w 16 5) (field w 11 5))
  | 14 => .ok (.remn (field w 21 5) (field w 16 5) (field w 11 5))
  | 15 => .ok (.min (field w 21 5) (field w 16 5) (field w 11 5))
  | 16 => .ok (.max (field w 21 5) (field w 16 5) (field w 11 5))
  | 17 => .ok (.minn (field w 21 5) (field w 16 5) (field w 11 5))
  | 18 => .ok (.maxn (field w 21 5) (field w 16 5) (field w 11 5))
  | 19 => .ok (.slt (field w 21 5) (field w 16 5) (field w 11 5))
  | 20 => .ok (.sltn (field w 21 5) (field w 16 5) (field w 11 5))
  | 21 => .ok (.seq (field w 21 5) (field w 16 5) (field w 11 5))
  | 22 => 
      if bitsAt w 11 5 = 0 then .ok (.clz (field w 21 5) (field w 16 5))
      else .error .unassigned
  | 23 => 
      if bitsAt w 11 5 = 0 then .ok (.ctz (field w 21 5) (field w 16 5))
      else .error .unassigned
  | 24 => 
      if bitsAt w 11 5 = 0 then .ok (.popc (field w 21 5) (field w 16 5))
      else .error .unassigned
  | 25 => .ok (.qadd (field w 21 5) (field w 16 5) (field w 11 5))
  | _ => .error .unassigned

/-- OP 0x07 (R103). -/
def decode07 (w : Word) : Except Reject Instr :=
  match bitsAt w 6 2 with
  | 0 => 
      if bitsAt w 8 8 = 0 then .ok (.shli (field w 21 5) (field w 16 5) (field w 0 6))
      else .error .unassigned
  | 1 => 
      if bitsAt w 8 8 = 0 then .ok (.shri (field w 21 5) (field w 16 5) (field w 0 6))
      else .error .unassigned
  | 2 => 
      if bitsAt w 8 8 = 0 then .ok (.shai (field w 21 5) (field w 16 5) (field w 0 6))
      else .error .unassigned
  | _ => .error .unassigned

/-- OP 0x0A (R106). -/
def decode0A (w : Word) : Except Reject Instr :=
  match bitsAt w 0 8 with
  | 0 => 
      if bitsAt w 8 3 < 4 then .ok (.fadd (field w 21 5) (field w 16 5) (field w 11 5) (field w 8 3))
      else .error .unassigned
  | 1 => 
      if bitsAt w 8 3 < 4 then .ok (.fsub (field w 21 5) (field w 16 5) (field w 11 5) (field w 8 3))
      else .error .unassigned
  | 2 => 
      if bitsAt w 8 3 < 4 then .ok (.fmul (field w 21 5) (field w 16 5) (field w 11 5) (field w 8 3))
      else .error .unassigned
  | 3 => 
      if bitsAt w 8 3 < 4 then .ok (.ffma (field w 21 5) (field w 16 5) (field w 11 5) (field w 8 3))
      else .error .unassigned
  | 4 => 
      if bitsAt w 8 3 < 4 then .ok (.fdiv (field w 21 5) (field w 16 5) (field w 11 5) (field w 8 3))
      else .error .unassigned
  | 5 => 
      if bitsAt w 11 5 = 0 ∧ bitsAt w 8 3 < 4 then .ok (.fsqrt (field w 21 5) (field w 16 5) (field w 8 3))
      else .error .unassigned
  | 6 => 
      if bitsAt w 8 3 < 4 then .ok (.fmin (field w 21 5) (field w 16 5) (field w 11 5) (field w 8 3))
      else .error .unassigned
  | 7 => 
      if bitsAt w 8 3 < 4 then .ok (.fmax (field w 21 5) (field w 16 5) (field w 11 5) (field w 8 3))
      else .error .unassigned
  | 8 => 
      if bitsAt w 8 3 < 4 then .ok (.feq (field w 21 5) (field w 16 5) (field w 11 5) (field w 8 3))
      else .error .unassigned
  | 9 => 
      if bitsAt w 8 3 < 4 then .ok (.flt (field w 21 5) (field w 16 5) (field w 11 5) (field w 8 3))
      else .error .unassigned
  | 10 => 
      if bitsAt w 8 3 < 4 then .ok (.fle (field w 21 5) (field w 16 5) (field w 11 5) (field w 8 3))
      else .error .unassigned
  | 11 => 
      if bitsAt w 11 5 = 0 ∧ bitsAt w 8 3 < 4 then .ok (.fclass (field w 21 5) (field w 16 5) (field w 8 3))
      else .error .unassigned
  | 12 => 
      if bitsAt w 11 5 = 0 ∧ bitsAt w 8 3 < 4 then .ok (.fcvtI (field w 21 5) (field w 16 5) (field w 8 3))
      else .error .unassigned
  | 13 => 
      if bitsAt w 11 5 = 0 ∧ bitsAt w 8 3 < 4 then .ok (.fcvtN (field w 21 5) (field w 16 5) (field w 8 3))
      else .error .unassigned
  | 14 => 
      if bitsAt w 11 5 = 0 ∧ bitsAt w 8 3 < 4 then .ok (.fcvtFi (field w 21 5) (field w 16 5) (field w 8 3))
      else .error .unassigned
  | 15 => 
      if bitsAt w 11 5 = 0 ∧ bitsAt w 8 3 < 4 then .ok (.fcvtFn (field w 21 5) (field w 16 5) (field w 8 3))
      else .error .unassigned
  | 16 => 
      if bitsAt w 13 3 = 0 ∧ bitsAt w 8 3 < 4 then .ok (.fcvtFf (field w 21 5) (field w 16 5) (field w 11 2) (field w 8 3))
      else .error .unassigned
  | _ => .error .unassigned

/-- OP 0x18 (R210). -/
def decode18 (w : Word) : Except Reject Instr :=
  match bitsAt w 0 4 with
  | 0 => 
      if bitsAt w 21 5 = 0 ∧ bitsAt w 10 1 = 0 ∧ bitsAt w 5 1 = 0 then .ok (.aadd (field w 16 5) (field w 11 5) (field w 6 4) (field w 4 1))
      else if bitsAt w 10 1 = 1 ∧ bitsAt w 5 1 = 0 then .ok (.aaddRet (field w 21 5) (field w 16 5) (field w 11 5) (field w 6 4) (field w 4 1))
      else .error .unassigned
  | 1 => 
      if bitsAt w 21 5 = 0 ∧ bitsAt w 10 1 = 0 ∧ bitsAt w 5 1 = 0 then .ok (.aand (field w 16 5) (field w 11 5) (field w 6 4) (field w 4 1))
      else if bitsAt w 10 1 = 1 ∧ bitsAt w 5 1 = 0 then .ok (.aandRet (field w 21 5) (field w 16 5) (field w 11 5) (field w 6 4) (field w 4 1))
      else .error .unassigned
  | 2 => 
      if bitsAt w 21 5 = 0 ∧ bitsAt w 10 1 = 0 ∧ bitsAt w 5 1 = 0 then .ok (.aor (field w 16 5) (field w 11 5) (field w 6 4) (field w 4 1))
      else if bitsAt w 10 1 = 1 ∧ bitsAt w 5 1 = 0 then .ok (.aorRet (field w 21 5) (field w 16 5) (field w 11 5) (field w 6 4) (field w 4 1))
      else .error .unassigned
  | 3 => 
      if bitsAt w 21 5 = 0 ∧ bitsAt w 10 1 = 0 ∧ bitsAt w 5 1 = 0 then .ok (.axor (field w 16 5) (field w 11 5) (field w 6 4) (field w 4 1))
      else if bitsAt w 10 1 = 1 ∧ bitsAt w 5 1 = 0 then .ok (.axorRet (field w 21 5) (field w 16 5) (field w 11 5) (field w 6 4) (field w 4 1))
      else .error .unassigned
  | 4 => 
      if bitsAt w 21 5 = 0 ∧ bitsAt w 10 1 = 0 ∧ bitsAt w 5 1 = 0 then .ok (.amin (field w 16 5) (field w 11 5) (field w 6 4) (field w 4 1))
      else if bitsAt w 10 1 = 1 ∧ bitsAt w 5 1 = 0 then .ok (.aminRet (field w 21 5) (field w 16 5) (field w 11 5) (field w 6 4) (field w 4 1))
      else .error .unassigned
  | 5 => 
      if bitsAt w 21 5 = 0 ∧ bitsAt w 10 1 = 0 ∧ bitsAt w 5 1 = 0 then .ok (.amax (field w 16 5) (field w 11 5) (field w 6 4) (field w 4 1))
      else if bitsAt w 10 1 = 1 ∧ bitsAt w 5 1 = 0 then .ok (.amaxRet (field w 21 5) (field w 16 5) (field w 11 5) (field w 6 4) (field w 4 1))
      else .error .unassigned
  | 6 => 
      if bitsAt w 21 5 = 0 ∧ bitsAt w 10 1 = 0 ∧ bitsAt w 5 1 = 0 then .ok (.aminn (field w 16 5) (field w 11 5) (field w 6 4) (field w 4 1))
      else if bitsAt w 10 1 = 1 ∧ bitsAt w 5 1 = 0 then .ok (.aminnRet (field w 21 5) (field w 16 5) (field w 11 5) (field w 6 4) (field w 4 1))
      else .error .unassigned
  | 7 => 
      if bitsAt w 21 5 = 0 ∧ bitsAt w 10 1 = 0 ∧ bitsAt w 5 1 = 0 then .ok (.amaxn (field w 16 5) (field w 11 5) (field w 6 4) (field w 4 1))
      else if bitsAt w 10 1 = 1 ∧ bitsAt w 5 1 = 0 then .ok (.amaxnRet (field w 21 5) (field w 16 5) (field w 11 5) (field w 6 4) (field w 4 1))
      else .error .unassigned
  | 8 => 
      if bitsAt w 10 1 = 1 ∧ bitsAt w 5 1 = 0 then .ok (.aswap (field w 21 5) (field w 16 5) (field w 11 5) (field w 6 4) (field w 4 1))
      else .error .unassigned
  | 9 => 
      if bitsAt w 10 1 = 1 ∧ bitsAt w 5 1 = 0 then .ok (.acas (field w 21 5) (field w 16 5) (field w 11 5) (field w 6 4) (field w 4 1))
      else .error .unassigned
  | _ => .error .unassigned

/-- OP 0x19 (R213, R164). -/
def decode19 (w : Word) : Except Reject Instr :=
  match bitsAt w 24 1 with
  | 0 => 
      if bitsAt w 25 1 = 0 ∧ bitsAt w 16 5 = 0 ∧ bitsAt w 21 3 < 6 then .ok (.fenceV (field w 21 3) (field w 0 16))
      else .error .unassigned
  | 1 => 
      if bitsAt w 25 1 = 0 ∧ bitsAt w 16 5 = 0 ∧ bitsAt w 21 3 < 6 then .ok (.fenceS (field w 21 3) (field w 0 16))
      else .error .unassigned
  | _ => .error .unassigned

/-- OP 0x1A (R215, R117). -/
def decode1A (w : Word) : Except Reject Instr :=
  match bitsAt w 0 11 with
  | 0 => 
      if bitsAt w 21 5 = 0 then .ok (.waitseq (field w 16 5) (field w 11 5))
      else .error .unassigned
  | 1 => 
      if bitsAt w 21 5 = 0 then .ok (.signal (field w 16 5) (field w 11 5))
      else .error .unassigned
  | 2 => 
      if bitsAt w 21 5 = 0 ∧ bitsAt w 11 5 = 0 then .ok (.waitx (field w 16 5))
      else .error .unassigned
  | 3 => 
      if bitsAt w 19 2 = 0 then .ok (.sqwait (field w 21 5) (field w 16 3) (field w 11 5))
      else .error .unassigned
  | 4 => 
      if bitsAt w 11 5 = 0 then .ok (.tseq (field w 21 5) (field w 16 5))
      else .error .unassigned
  | _ => .error .unassigned

/-- OP 0x1B (R258). -/
def decode1B (w : Word) : Except Reject Instr :=
  match bitsAt w 0 11 with
  | 0 => 
      if bitsAt w 11 5 = 0 then .ok (.gjoin (field w 21 5) (field w 16 5))
      else .error .unassigned
  | 1 => 
      if bitsAt w 21 5 = 0 ∧ bitsAt w 11 5 = 0 then .ok (.gleave (field w 16 5))
      else .error .unassigned
  | 2 => 
      if bitsAt w 21 5 = 0 ∧ bitsAt w 11 5 = 0 then .ok (.gbar (field w 16 5))
      else .error .unassigned
  | 3 => 
      if bitsAt w 11 5 = 0 then .ok (.forkl (field w 21 5) (field w 16 5))
      else .error .unassigned
  | 4 => 
      if bitsAt w 21 5 = 0 ∧ bitsAt w 11 5 = 0 then .ok (.joinl (field w 16 5))
      else .error .unassigned
  | 5 => 
      if bitsAt w 11 15 = 0 then .ok (.yield)
      else .error .unassigned
  | 6 => 
      if bitsAt w 11 10 = 0 then .ok (.tid (field w 21 5))
      else .error .unassigned
  | 7 => 
      if bitsAt w 11 5 = 0 then .ok (.gsize (field w 21 5) (field w 16 5))
      else .error .unassigned
  | _ => .error .unassigned

/-- OP 0x1C (R119). -/
def decode1C (w : Word) : Except Reject Instr :=
  match bitsAt w 0 4 with
  | 0 => 
      if bitsAt w 16 10 = 0 then .ok (.trap (field w 4 12))
      else .error .unassigned
  | 1 => 
      if bitsAt w 16 5 = 0 then .ok (.csrr (field w 21 5) (field w 4 12))
      else .error .unassigned
  | 2 => .ok (.csrw (field w 21 5) (field w 16 5) (field w 4 12))
  | 3 => .ok (.csrs (field w 21 5) (field w 16 5) (field w 4 12))
  | 4 => .ok (.csrc (field w 21 5) (field w 16 5) (field w 4 12))
  | 5 => 
      if bitsAt w 21 5 = 0 then .ok (.sleep (field w 16 5) (field w 4 12))
      else .error .unassigned
  | 6 => 
      if bitsAt w 16 10 = 0 then .ok (.halt (field w 4 12))
      else .error .unassigned
  | 7 => 
      if bitsAt w 16 10 = 0 then .ok (.brk (field w 4 12))
      else .error .unassigned
  | _ => .error .unassigned

/-- OP 0x1D (R223, R232 to R234). -/
def decode1D (w : Word) : Except Reject Instr :=
  match bitsAt w 0 11 with
  | 0 => .ok (.chapp (field w 21 5) (field w 16 5) (field w 11 5))
  | 1 => 
      if bitsAt w 20 1 = 0 ∧ bitsAt w 24 2 = 3 then .error .gangWrite
      else if bitsAt w 24 2 = 0 ∧ bitsAt w 20 1 = 0 then .ok (.strmR (field w 21 3) (field w 16 4) (field w 11 5))
      else if bitsAt w 24 2 = 2 ∧ bitsAt w 20 1 = 0 then .ok (.strmW (field w 21 3) (field w 16 4) (field w 11 5))
      else if bitsAt w 24 2 = 1 ∧ bitsAt w 20 1 = 0 then .ok (.strmRg (field w 21 3) (field w 16 4) (field w 11 5))
      else .error .unassigned
  | 2 => 
      if bitsAt w 24 2 = 0 ∧ bitsAt w 11 10 = 0 then .ok (.sunb (field w 21 3))
      else .error .unassigned
  | 3 => .ok (.gang (field w 21 5) (field w 16 5) (field w 11 5))
  | 4 => 
      if bitsAt w 11 15 = 0 then .ok (.ungang)
      else .error .unassigned
  | _ => .error .unassigned

/-- OP 0x1E (R129). -/
def decode1E (w : Word) : Except Reject Instr :=
  match bitsAt w 0 4 with
  | 0 => 
      if bitsAt w 15 6 = 0 then .ok (.vconfigImm (field w 21 5) (field w 4 11))
      else if bitsAt w 4 12 = 2048 then .ok (.vconfigReg (field w 21 5) (field w 16 5))
      else .error .unassigned
  | 1 => 
      if bitsAt w 16 10 = 0 then .ok (.vtag (field w 14 2) (field w 8 6) (field w 4 4))
      else .error .unassigned
  | 2 => 
      if bitsAt w 6 10 = 0 then .ok (.setvl (field w 21 5) (field w 16 5) (field w 4 2))
      else .error .unassigned
  | 3 => 
      if bitsAt w 11 5 = 0 then .ok (.setvlB (field w 21 5) (field w 16 5) (field w 8 3) (field w 4 4))
      else .error .unassigned
  | 4 => 
      if bitsAt w 11 15 = 0 then .ok (.vcarrySet (field w 9 2) (field w 4 5))
      else if bitsAt w 21 5 = 0 ∧ bitsAt w 4 12 = 2048 then .ok (.vcarryReg (field w 16 5))
      else .error .unassigned
  | _ => .error .unassigned

/-- OP 0x1F (R265, R267). -/
def decode1F (w : Word) : Except Reject Instr :=
  match bitsAt w 0 4 with
  | 0 => 
      if bitsAt w 8 12 = 0 then .ok (.vfetch (field w 20 6) (field w 4 4))
      else .error .unassigned
  | 1 => 
      if bitsAt w 4 16 = 0 then .ok (.efetch (field w 20 6))
      else .error .unassigned
  | 2 => 
      if bitsAt w 4 10 = 0 then .ok (.ebz (field w 20 6) (field w 14 6))
      else .error .unassigned
  | 3 => 
      if bitsAt w 4 10 = 0 then .ok (.ebnz (field w 20 6) (field w 14 6))
      else .error .unassigned
  | 4 => 
      if bitsAt w 4 22 = 0 then .ok (.eend)
      else .error .unassigned
  | 5 => 
      if bitsAt w 20 6 = 0 ∧ bitsAt w 4 10 = 0 then .ok (.xqsend (field w 14 6))
      else .error .unassigned
  | 6 => 
      if bitsAt w 4 16 = 0 then .ok (.xqrecv (field w 20 6))
      else .error .unassigned
  | _ => .error .unassigned

/-- OP 0x20 (R316). -/
def decode20 (w : Word) : Except Reject Instr :=
  match bitsAt w 0 4 with
  | 0 => .ok (.vaddVv (field w 20 6) (field w 14 6) (field w 8 6) (field w 4 4))
  | 1 => .ok (.vsubVv (field w 20 6) (field w 14 6) (field w 8 6) (field w 4 4))
  | 2 => .ok (.vmulVv (field w 20 6) (field w 14 6) (field w 8 6) (field w 4 4))
  | 3 => .ok (.vfmaVv (field w 20 6) (field w 14 6) (field w 8 6) (field w 4 4))
  | 4 => .ok (.vfmsVv (field w 20 6) (field w 14 6) (field w 8 6) (field w 4 4))
  | 5 => .ok (.vfnmaVv (field w 20 6) (field w 14 6) (field w 8 6) (field w 4 4))
  | 6 => .ok (.vdivVv (field w 20 6) (field w 14 6) (field w 8 6) (field w 4 4))
  | 7 => .ok (.vminVv (field w 20 6) (field w 14 6) (field w 8 6) (field w 4 4))
  | 8 => .ok (.vmaxVv (field w 20 6) (field w 14 6) (field w 8 6) (field w 4 4))
  | 9 => 
      if bitsAt w 8 6 = 0 then .ok (.vabsVv (field w 20 6) (field w 14 6) (field w 4 4))
      else .error .unassigned
  | 10 => 
      if bitsAt w 8 6 = 0 then .ok (.vnegVv (field w 20 6) (field w 14 6) (field w 4 4))
      else .error .unassigned
  | 11 => .ok (.vsaddVv (field w 20 6) (field w 14 6) (field w 8 6) (field w 4 4))
  | 12 => .ok (.vssubVv (field w 20 6) (field w 14 6) (field w 8 6) (field w 4 4))
  | 13 => .ok (.vmulhVv (field w 20 6) (field w 14 6) (field w 8 6) (field w 4 4))
  | 14 => .ok (.vavgVv (field w 20 6) (field w 14 6) (field w 8 6) (field w 4 4))
  | _ => .error .unassigned

/-- OP 0x21 (R316). -/
def decode21 (w : Word) : Except Reject Instr :=
  match bitsAt w 0 5 with
  | 0 => .ok (.vaddVs (field w 20 6) (field w 14 6) (field w 9 5) (field w 5 4))
  | 1 => .ok (.vsubVs (field w 20 6) (field w 14 6) (field w 9 5) (field w 5 4))
  | 2 => .ok (.vmulVs (field w 20 6) (field w 14 6) (field w 9 5) (field w 5 4))
  | 3 => .ok (.vfmaVs (field w 20 6) (field w 14 6) (field w 9 5) (field w 5 4))
  | 4 => .ok (.vfmsVs (field w 20 6) (field w 14 6) (field w 9 5) (field w 5 4))
  | 5 => .ok (.vfnmaVs (field w 20 6) (field w 14 6) (field w 9 5) (field w 5 4))
  | 6 => .ok (.vdivVs (field w 20 6) (field w 14 6) (field w 9 5) (field w 5 4))
  | 7 => .ok (.vminVs (field w 20 6) (field w 14 6) (field w 9 5) (field w 5 4))
  | 8 => .ok (.vmaxVs (field w 20 6) (field w 14 6) (field w 9 5) (field w 5 4))
  | 9 => 
      if bitsAt w 14 6 = 0 then .ok (.vabsVs (field w 20 6) (field w 9 5) (field w 5 4))
      else .error .unassigned
  | 10 => 
      if bitsAt w 14 6 = 0 then .ok (.vnegVs (field w 20 6) (field w 9 5) (field w 5 4))
      else .error .unassigned
  | 11 => .ok (.vsaddVs (field w 20 6) (field w 14 6) (field w 9 5) (field w 5 4))
  | 12 => .ok (.vssubVs (field w 20 6) (field w 14 6) (field w 9 5) (field w 5 4))
  | 13 => .ok (.vmulhVs (field w 20 6) (field w 14 6) (field w 9 5) (field w 5 4))
  | 14 => .ok (.vavgVs (field w 20 6) (field w 14 6) (field w 9 5) (field w 5 4))
  | _ => .error .unassigned

/-- OP 0x22 (R318). -/
def decode22 (w : Word) : Except Reject Instr :=
  match bitsAt w 0 4 with
  | 0 => .ok (.vand (field w 20 6) (field w 14 6) (field w 8 6) (field w 4 4))
  | 1 => .ok (.vor (field w 20 6) (field w 14 6) (field w 8 6) (field w 4 4))
  | 2 => .ok (.vxor (field w 20 6) (field w 14 6) (field w 8 6) (field w 4 4))
  | 3 => 
      if bitsAt w 8 6 = 0 then .ok (.vnot (field w 20 6) (field w 14 6) (field w 4 4))
      else .error .unassigned
  | 4 => .ok (.vshl (field w 20 6) (field w 14 6) (field w 8 6) (field w 4 4))
  | 5 => .ok (.vshr (field w 20 6) (field w 14 6) (field w 8 6) (field w 4 4))
  | 6 => .ok (.vsha (field w 20 6) (field w 14 6) (field w 8 6) (field w 4 4))
  | 7 => 
      if bitsAt w 8 6 = 0 then .ok (.vclz (field w 20 6) (field w 14 6) (field w 4 4))
      else .error .unassigned
  | 8 => 
      if bitsAt w 8 6 = 0 then .ok (.vpopc (field w 20 6) (field w 14 6) (field w 4 4))
      else .error .unassigned
  | _ => .error .unassigned

/-- OP 0x23 (R320). -/
def decode23 (w : Word) : Except Reject Instr :=
  match bitsAt w 0 4 with
  | 0 => 
      if bitsAt w 24 2 = 0 then .ok (.vceq (field w 20 4) (field w 14 6) (field w 8 6) (field w 4 4))
      else .error .unassigned
  | 1 => 
      if bitsAt w 24 2 = 0 then .ok (.vcne (field w 20 4) (field w 14 6) (field w 8 6) (field w 4 4))
      else .error .unassigned
  | 2 => 
      if bitsAt w 24 2 = 0 then .ok (.vclt (field w 20 4) (field w 14 6) (field w 8 6) (field w 4 4))
      else .error .unassigned
  | 3 => 
      if bitsAt w 24 2 = 0 then .ok (.vcle (field w 20 4) (field w 14 6) (field w 8 6) (field w 4 4))
      else .error .unassigned
  | 4 => 
      if bitsAt w 24 2 = 0 then .ok (.vcun (field w 20 4) (field w 14 6) (field w 8 6) (field w 4 4))
      else .error .unassigned
  | 5 => 
      if bitsAt w 24 2 = 0 then .ok (.vclass (field w 20 4) (field w 14 6) (field w 8 6) (field w 4 4))
      else .error .unassigned
  | _ => .error .unassigned

/-- OP 0x24 (R322 to R326). -/
def decode24 (w : Word) : Except Reject Instr :=
  match bitsAt w 0 4 with
  | 0 => 
      if bitsAt w 8 6 = 0 then .ok (.vsqrt (field w 20 6) (field w 14 6) (field w 4 4))
      else .error .unassigned
  | 1 => 
      if bitsAt w 8 6 = 0 then .ok (.vrcp (field w 20 6) (field w 14 6) (field w 4 4))
      else .error .unassigned
  | 2 => 
      if bitsAt w 8 6 = 0 then .ok (.vrsq (field w 20 6) (field w 14 6) (field w 4 4))
      else .error .unassigned
  | 3 => 
      if bitsAt w 8 6 = 0 then .ok (.vexp2f (field w 20 6) (field w 14 6) (field w 4 4))
      else .error .unassigned
  | 4 => 
      if bitsAt w 8 6 = 0 then .ok (.vlog2f (field w 20 6) (field w 14 6) (field w 4 4))
      else .error .unassigned
  | 5 => 
      if bitsAt w 8 6 = 0 then .ok (.vrndi (field w 20 6) (field w 14 6) (field w 4 4))
      else .error .unassigned
  | 6 => 
      if bitsAt w 8 6 = 0 then .ok (.vgetexp (field w 20 6) (field w 14 6) (field w 4 4))
      else .error .unassigned
  | 7 => 
      if bitsAt w 12 2 = 0 then .ok (.vcvt (field w 20 6) (field w 14 6) (field w 8 4) (field w 4 4))
      else .error .unassigned
  | 8 => 
      if bitsAt w 8 6 = 0 then .ok (.vmov (field w 20 6) (field w 14 6) (field w 4 4))
      else .error .unassigned
  | 9 => .ok (.vsel (field w 20 6) (field w 14 6) (field w 8 6) (field w 4 4))
  | 10 => .ok (.vscale (field w 20 6) (field w 14 6) (field w 8 6) (field w 4 4))
  | _ => .error .unassigned

/-- OP 0x25 (R329). -/
def decode25 (w : Word) : Except Reject Instr :=
  match bitsAt w 0 5 with
  | 0 => .ok (.vslideup (field w 20 6) (field w 14 6) (field w 9 5) (field w 5 4))
  | 1 => .ok (.vslidedn (field w 20 6) (field w 14 6) (field w 9 5) (field w 5 4))
  | 2 => .ok (.vbfly (field w 20 6) (field w 14 6) (field w 9 5) (field w 5 4))
  | 3 => 
      if bitsAt w 9 11 = 0 then .ok (.vid (field w 20 6) (field w 5 4))
      else .error .unassigned
  | 4 => 
      if bitsAt w 14 6 = 0 then .ok (.vbcast (field w 20 6) (field w 9 5) (field w 5 4))
      else .error .unassigned
  | 5 => .ok (.vbflyC (field w 20 6) (field w 14 6) (field w 9 5) (field w 5 4))
  | _ => .error .unassigned

/-- OP 0x26 (R333). -/
def decode26 (w : Word) : Except Reject Instr :=
  match bitsAt w 0 4 with
  | 0 => .ok (.vxg (field w 20 6) (field w 14 6) (field w 8 6) (field w 4 4))
  | 1 => 
      if bitsAt w 8 6 = 0 then .ok (.vcomp (field w 20 6) (field w 14 6) (field w 4 4))
      else .error .unassigned
  | 2 => 
      if bitsAt w 8 6 = 0 then .ok (.vexpd (field w 20 6) (field w 14 6) (field w 4 4))
      else .error .unassigned
  | _ => .error .unassigned

/-- OP 0x27 (R342). -/
def decode27 (w : Word) : Except Reject Instr :=
  match bitsAt w 0 4 with
  | 0 => 
      if bitsAt w 8 3 = 0 then .ok (.vredsum (field w 20 6) (field w 14 6) (field w 11 3) (field w 4 4))
      else .error .unassigned
  | 1 => 
      if bitsAt w 8 3 = 0 then .ok (.vredmax (field w 20 6) (field w 14 6) (field w 11 3) (field w 4 4))
      else .error .unassigned
  | 2 => 
      if bitsAt w 8 3 = 0 then .ok (.vredmin (field w 20 6) (field w 14 6) (field w 11 3) (field w 4 4))
      else .error .unassigned
  | 3 => 
      if bitsAt w 8 3 = 0 then .ok (.vredand (field w 20 6) (field w 14 6) (field w 11 3) (field w 4 4))
      else .error .unassigned
  | 4 => 
      if bitsAt w 8 3 = 0 then .ok (.vredor (field w 20 6) (field w 14 6) (field w 11 3) (field w 4 4))
      else .error .unassigned
  | 5 => 
      if bitsAt w 8 3 = 0 then .ok (.vredxor (field w 20 6) (field w 14 6) (field w 11 3) (field w 4 4))
      else .error .unassigned
  | 6 => 
      if bitsAt w 22 4 = 0 ∧ bitsAt w 8 6 = 0 then .ok (.vtree (field w 20 2) (field w 14 6) (field w 4 4))
      else .error .unassigned
  | 7 => 
      if bitsAt w 22 4 = 0 ∧ bitsAt w 4 10 = 0 then .ok (.tmerge (field w 20 2) (field w 14 6))
      else .error .unassigned
  | 8 => 
      if bitsAt w 16 4 = 0 ∧ bitsAt w 9 5 = 0 ∧ bitsAt w 4 4 = 0 then .ok (.tread (field w 20 6) (field w 14 2) (field w 8 1))
      else .error .unassigned
  | 9 => 
      if bitsAt w 22 4 = 0 ∧ bitsAt w 13 7 = 0 ∧ bitsAt w 4 4 = 0 then .ok (.tclear (field w 20 2) (field w 8 5))
      else .error .unassigned
  | _ => .error .unassigned

/-- OP 0x28 (R353). -/
def decode28 (w : Word) : Except Reject Instr :=
  match bitsAt w 0 4 with
  | 0 => 
      if bitsAt w 10 4 = 0 then .ok (.vscan (field w 20 6) (field w 14 6) (field w 9 1) (field w 8 1) (field w 4 4))
      else .error .unassigned
  | 1 => 
      if bitsAt w 10 4 = 0 then .ok (.vscana (field w 20 6) (field w 14 6) (field w 9 1) (field w 8 1) (field w 4 4))
      else .error .unassigned
  | 2 => 
      if bitsAt w 10 4 = 0 then .ok (.vscanmax (field w 20 6) (field w 14 6) (field w 9 1) (field w 8 1) (field w 4 4))
      else .error .unassigned
  | _ => .error .unassigned

/-- OP 0x29 (R338). -/
def decode29 (w : Word) : Except Reject Instr :=
  match bitsAt w 0 8 with
  | 0 => 
      if bitsAt w 8 6 = 0 then .ok (.pand (field w 22 4) (field w 18 4) (field w 14 4))
      else .error .unassigned
  | 1 => 
      if bitsAt w 8 6 = 0 then .ok (.por (field w 22 4) (field w 18 4) (field w 14 4))
      else .error .unassigned
  | 2 => 
      if bitsAt w 8 6 = 0 then .ok (.pxor (field w 22 4) (field w 18 4) (field w 14 4))
      else .error .unassigned
  | 3 => 
      if bitsAt w 8 10 = 0 then .ok (.pnot (field w 22 4) (field w 18 4))
      else .error .unassigned
  | 4 => 
      if bitsAt w 8 6 = 0 then .ok (.pandn (field w 22 4) (field w 18 4) (field w 14 4))
      else .error .unassigned
  | 5 => 
      if bitsAt w 14 8 = 0 ∧ bitsAt w 8 1 = 0 then .ok (.pwhile (field w 22 4) (field w 9 5))
      else .error .unassigned
  | 6 => 
      if bitsAt w 22 4 = 0 ∧ bitsAt w 8 1 = 0 then .ok (.pcnt (field w 18 4) (field w 14 4) (field w 9 5))
      else .error .unassigned
  | 7 => 
      if bitsAt w 22 4 = 0 ∧ bitsAt w 8 1 = 0 then .ok (.pfirst (field w 18 4) (field w 14 4) (field w 9 5))
      else .error .unassigned
  | 8 => 
      if bitsAt w 14 8 = 0 then .ok (.pset (field w 22 4) (field w 8 6))
      else .error .unassigned
  | _ => .error .unassigned

/-- OP 0x2A (R336). -/
def decode2A (w : Word) : Except Reject Instr :=
  match bitsAt w 0 5 with
  | 0 => 
      if bitsAt w 14 1 = 0 ∧ bitsAt w 5 4 = 0 then .ok (.vins (field w 20 6) (field w 15 5) (field w 9 5))
      else .error .unassigned
  | 1 => 
      if bitsAt w 20 1 = 0 ∧ bitsAt w 5 4 = 0 then .ok (.vext (field w 21 5) (field w 14 6) (field w 9 5))
      else .error .unassigned
  | _ => .error .unassigned

/-- OP 0x2B (R186). -/
def decode2B (w : Word) : Except Reject Instr :=
  match bitsAt w 0 6 with
  | 0 => 
      if bitsAt w 10 1 = 0 then .ok (.vld (field w 20 6) (field w 16 4) (field w 11 5) (field w 6 4))
      else .error .unassigned
  | 1 => 
      if bitsAt w 10 1 = 0 then .ok (.vst (field w 20 6) (field w 16 4) (field w 11 5) (field w 6 4))
      else .error .unassigned
  | 2 => .ok (.vldx (field w 20 6) (field w 16 4) (field w 10 6) (field w 6 4))
  | 3 => .ok (.vstx (field w 20 6) (field w 16 4) (field w 10 6) (field w 6 4))
  | 4 => 
      if bitsAt w 10 1 = 0 then .ok (.vldff (field w 20 6) (field w 16 4) (field w 11 5) (field w 6 4))
      else .error .unassigned
  | 5 => .ok (.vgb (field w 20 6) (field w 16 4) (field w 10 6) (field w 6 4))
  | 6 => .ok (.vsb (field w 20 6) (field w 16 4) (field w 10 6) (field w 6 4))
  | 7 => .ok (.vaadd (field w 20 6) (field w 16 4) (field w 10 6) (field w 6 4))
  | _ => .error .unassigned

/-- OP 0x2C (R197). -/
def decode2C (w : Word) : Except Reject Instr :=
  match bitsAt w 0 6 with
  | 0 => 
      if bitsAt w 19 1 = 0 ∧ bitsAt w 10 1 = 0 then .ok (.vsrd (field w 20 6) (field w 16 3) (field w 11 5) (field w 6 4))
      else .error .unassigned
  | 1 => 
      if bitsAt w 19 1 = 0 ∧ bitsAt w 10 1 = 0 then .ok (.vswr (field w 20 6) (field w 16 3) (field w 11 5) (field w 6 4))
      else .error .unassigned
  | _ => .error .unassigned

/-- OP 0x2D (R202, R207). -/
def decode2D (w : Word) : Except Reject Instr :=
  match bitsAt w 0 11 with
  | 0 => 
      if bitsAt w 11 5 = 0 then .ok (.tlook (field w 21 5) (field w 16 5))
      else .error .unassigned
  | 1 => .ok (.tset (field w 21 5) (field w 16 5) (field w 11 5))
  | 2 => 
      if bitsAt w 11 5 = 0 then .ok (.tinv (field w 21 5) (field w 16 5))
      else .error .unassigned
  | 3 => 
      if bitsAt w 25 1 = 0 ∧ bitsAt w 15 1 = 0 then .ok (.vwset (field w 21 4) (field w 16 5) (field w 11 4))
      else .error .unassigned
  | 4 => 
      if bitsAt w 25 1 = 0 ∧ bitsAt w 11 10 = 0 then .ok (.vwret (field w 21 4))
      else .error .unassigned
  | 5 => 
      if bitsAt w 20 1 = 0 ∧ bitsAt w 14 2 = 0 then .ok (.vwget (field w 21 5) (field w 16 4) (field w 11 3))
      else .error .unassigned
  | _ => .error .unassigned

/-- OP 0x2E (R357). -/
def decode2E (w : Word) : Except Reject Instr :=
  match bitsAt w 0 5 with
  | 0 => 
      if bitsAt w 14 6 = 0 then .ok (.vrng (field w 20 6) (field w 9 5) (field w 5 4))
      else .error .unassigned
  | _ => .error .unassigned

/-- OP 0x2F (R379). -/
def decode2F (w : Word) : Except Reject Instr :=
  match bitsAt w 0 8 with
  | 0 => .ok (.mtv (field w 20 6) (field w 18 2) (field w 17 1) (field w 12 5) (field w 8 4))
  | 1 => .ok (.mvt (field w 20 6) (field w 18 2) (field w 17 1) (field w 12 5) (field w 8 4))
  | 2 => 
      if bitsAt w 12 5 = 0 then .ok (.mtvc (field w 20 6) (field w 18 2) (field w 17 1) (field w 8 4))
      else .error .unassigned
  | _ => .error .unassigned

/-- The vector instructions that a vector queue may hold (R271); a `vfetch`, and no other member of OP 0x1F (R73). -/
def decodeVector (w : Word) : Except Reject Instr :=
  match bitsAt w 26 6 with
  | 0x1E => decode1E w
  | 0x1F => if bitsAt w 0 4 = 0 then decode1F w else .error .unassigned
  | 0x20 => decode20 w
  | 0x21 => decode21 w
  | 0x22 => decode22 w
  | 0x23 => decode23 w
  | 0x24 => decode24 w
  | 0x25 => decode25 w
  | 0x26 => decode26 w
  | 0x27 => decode27 w
  | 0x28 => decode28 w
  | 0x29 => decode29 w
  | 0x2A => decode2A w
  | 0x2B => decode2B w
  | 0x2C => decode2C w
  | 0x2E => decode2E w
  | 0x2F => decode2F w
  | _ => .error .reserved

/-- A member of OP 0x38 that reaches a scratchpad through a view other than 0 (R72). -/
def matrixView (w : Word) : Bool :=
  bitsAt w 26 6 = 0x38 && bitsAt w 11 4 ≠ 0 &&
  match bitsAt w 21 5 with
  | 2 => bitsAt w 19 2 = 0 && bitsAt w 3 3 = 0
  | 4 => bitsAt w 1 5 = 0
  | 5 => bitsAt w 1 5 = 0
  | 7 => bitsAt w 0 6 = 0
  | 8 => bitsAt w 0 6 = 0
  | 9 => bitsAt w 0 6 = 0
  | 10 => bitsAt w 0 6 = 0
  | _ => false


/-- OP 0x38 (R362). -/
noncomputable def decode38 (w : Word) : Except Reject Instr :=
  if matrixView w then .error .matrixView else
  match bitsAt w 21 5 with
  | 0 => 
      if bitsAt w 4 17 = 0 then .ok (.mten (field w 0 4))
      else .error .unassigned
  | 1 => 
      if bitsAt w 1 14 = 0 then .ok (.mzero (field w 19 2) (field w 15 4) (field w 0 1))
      else .error .unassigned
  | 2 => 
      if bitsAt w 19 2 = 0 ∧ bitsAt w 11 4 = 0 ∧ bitsAt w 3 3 = 0 then .ok (.mldw (field w 15 4) (field w 6 5) (field w 0 3))
      else .error .unassigned
  | 3 => 
      if bitsAt w 19 2 = 0 ∧ bitsAt w 0 15 = 0 then .ok (.mswap (field w 15 4))
      else .error .unassigned
  | 4 => 
      if bitsAt w 11 4 = 0 ∧ bitsAt w 1 5 = 0 then .ok (.mma (field w 19 2) (field w 15 4) (field w 6 5) (field w 0 1))
      else .error .unassigned
  | 5 => 
      if bitsAt w 11 4 = 0 ∧ bitsAt w 1 5 = 0 then .ok (.mmaF64 (field w 19 2) (field w 15 4) (field w 6 5) (field w 0 1))
      else .error .unassigned
  | 6 => 
      if bitsAt w 2 13 = 0 then .ok (.mscan (field w 19 2) (field w 15 4) (field w 1 1) (field w 0 1))
      else .error .unassigned
  | 7 => 
      if bitsAt w 11 4 = 0 ∧ bitsAt w 0 6 = 0 then .ok (.mcld (field w 19 2) (field w 15 4) (field w 6 5))
      else .error .unassigned
  | 8 => 
      if bitsAt w 11 4 = 0 ∧ bitsAt w 0 6 = 0 then .ok (.mcst (field w 19 2) (field w 15 4) (field w 6 5))
      else .error .unassigned
  | 9 => 
      if bitsAt w 11 4 = 0 ∧ bitsAt w 0 6 = 0 then .ok (.mst (field w 19 2) (field w 15 4) (field w 6 5))
      else .error .unassigned
  | 10 => 
      if bitsAt w 11 4 = 0 ∧ bitsAt w 0 6 = 0 then .ok (.mld (field w 19 2) (field w 15 4) (field w 6 5))
      else .error .unassigned
  | 11 => 
      if bitsAt w 19 2 = 0 ∧ bitsAt w 11 4 = 0 ∧ bitsAt w 0 6 = 0 then .ok (.mrow (field w 15 4) (field w 6 5))
      else .error .unassigned
  | 12 => 
      if bitsAt w 19 2 = 0 ∧ bitsAt w 11 4 = 0 ∧ bitsAt w 0 6 = 0 then .ok (.mcol (field w 15 4) (field w 6 5))
      else .error .unassigned
  | 13 => 
      if bitsAt w 11 10 = 0 then .ok (.msig (field w 6 5) (field w 0 6))
      else .error .unassigned
  | 14 => 
      if bitsAt w 11 10 = 0 ∧ bitsAt w 0 6 = 0 then .ok (.mwait (field w 6 5))
      else .error .unassigned
  | 15 => 
      if bitsAt w 11 10 = 0 ∧ bitsAt w 0 6 = 0 then .ok (.mcfg (field w 6 5))
      else .error .unassigned
  | _ => .error .unassigned

/-- The instruction of a word that a thread context accepts (R68, R71, R73). -/
def decodeThread (w : Word) : Except Reject Instr :=
  match bitsAt w 26 6 with
  | 0x00 => .error .neverAssigned
  | 0x01 => decode01 w
  | 0x02 => .ok (.addi (field w 21 5) (field w 16 5) (field w 0 16))
  | 0x03 => .ok (.andi (field w 21 5) (field w 16 5) (field w 0 16))
  | 0x04 => .ok (.ori (field w 21 5) (field w 16 5) (field w 0 16))
  | 0x05 => .ok (.xori (field w 21 5) (field w 16 5) (field w 0 16))
  | 0x06 => .ok (.slti (field w 21 5) (field w 16 5) (field w 0 16))
  | 0x07 => decode07 w
  | 0x08 => .ok (.lui (field w 21 5) (field w 0 21))
  | 0x09 => .ok (.addpc (field w 21 5) (field w 0 21))
  | 0x0A => decode0A w
  | 0x0B => .ok (.beq (field w 21 5) (field w 16 5) (field w 0 16))
  | 0x0C => .ok (.bne (field w 21 5) (field w 16 5) (field w 0 16))
  | 0x0D => .ok (.blt (field w 21 5) (field w 16 5) (field w 0 16))
  | 0x0E => .ok (.bge (field w 21 5) (field w 16 5) (field w 0 16))
  | 0x0F => .ok (.bltn (field w 21 5) (field w 16 5) (field w 0 16))
  | 0x10 => .ok (.bgen (field w 21 5) (field w 16 5) (field w 0 16))
  | 0x11 => .ok (.jal (field w 21 5) (field w 0 21))
  | 0x12 => .ok (.jalr (field w 21 5) (field w 16 5) (field w 0 16))
  | 0x13 => .ok (.ld (field w 21 5) (field w 16 5) (field w 12 4) (field w 10 2) (field w 0 10))
  | 0x14 => .ok (.ldn (field w 21 5) (field w 16 5) (field w 12 4) (field w 10 2) (field w 0 10))
  | 0x15 => .ok (.st (field w 21 5) (field w 16 5) (field w 12 4) (field w 10 2) (field w 0 10))
  | 0x16 => .ok (.ldx (field w 21 5) (field w 16 5) (field w 12 4) (field w 10 2) (field w 0 10))
  | 0x17 => .ok (.stx (field w 21 5) (field w 16 5) (field w 12 4) (field w 10 2) (field w 0 10))
  | 0x18 => decode18 w
  | 0x19 => decode19 w
  | 0x1A => decode1A w
  | 0x1B => decode1B w
  | 0x1C => decode1C w
  | 0x1D => decode1D w
  | 0x1E => decode1E w
  | 0x1F => decode1F w
  | 0x20 => decode20 w
  | 0x21 => decode21 w
  | 0x22 => decode22 w
  | 0x23 => decode23 w
  | 0x24 => decode24 w
  | 0x25 => decode25 w
  | 0x26 => decode26 w
  | 0x27 => decode27 w
  | 0x28 => decode28 w
  | 0x29 => decode29 w
  | 0x2A => decode2A w
  | 0x2B => decode2B w
  | 0x2C => decode2C w
  | 0x2D => decode2D w
  | 0x2E => decode2E w
  | 0x2F => decode2F w
  | 0x3F => .error .neverAssigned
  | _ => .error .reserved

/-- The instruction of a word of a thread context or matrix control core (R68, R73). -/
noncomputable def decode (w : Word) : Except Reject Instr := if bitsAt w 26 6 = 0x38 then decode38 w else decodeThread w

/-- The 64-bit literal of two words, low half first (R423). -/
def literal (lo hi : Word) : Dword := BitVec.ofNat 64 (lo.toNat + 2 ^ 32 * hi.toNat)

/-- The command of a word and the two words after it, which hold the literal of a command that takes one (R424). -/
noncomputable def decodeCommand (w lo hi : Word) : Except Reject Instr :=
  match bitsAt w 24 8 with
  | 0x01 =>
      if bitsAt w 0 24 = 0 then .ok (.cmdNop)
      else .error .illegalCommand
  | 0x02 =>
      if bitsAt w 16 8 = 0 then .ok (.cmdHalt (field w 0 16))
      else .error .illegalCommand
  | 0x08 =>
      if bitsAt w 16 4 = 0 then .ok (.cmdLi (field w 20 4) (field w 0 16))
      else .error .illegalCommand
  | 0x09 =>
      if bitsAt w 0 20 = 0 then .ok (.cmdLil (field w 20 4) (literal lo hi))
      else .error .illegalCommand
  | 0x0A => .ok (.cmdAddi (field w 20 4) (field w 16 4) (field w 0 16))
  | 0x0B =>
      if bitsAt w 0 16 = 0 then .ok (.cmdAdd (field w 20 4) (field w 16 4))
      else .error .illegalCommand
  | 0x0C =>
      if bitsAt w 0 16 = 0 then .ok (.cmdSub (field w 20 4) (field w 16 4))
      else .error .illegalCommand
  | 0x0D =>
      if bitsAt w 0 16 = 0 then .ok (.cmdAnd (field w 20 4) (field w 16 4))
      else .error .illegalCommand
  | 0x0E =>
      if bitsAt w 0 16 = 0 then .ok (.cmdOr (field w 20 4) (field w 16 4))
      else .error .illegalCommand
  | 0x0F =>
      if bitsAt w 6 10 = 0 then .ok (.cmdShli (field w 20 4) (field w 16 4) (field w 0 6))
      else .error .illegalCommand
  | 0x10 => .ok (.cmdLd (field w 20 4) (field w 16 4) (field w 0 16))
  | 0x11 => .ok (.cmdSt (field w 20 4) (field w 16 4) (field w 0 16))
  | 0x18 => .ok (.cmdBeq (field w 20 4) (field w 16 4) (field w 0 16))
  | 0x19 => .ok (.cmdBne (field w 20 4) (field w 16 4) (field w 0 16))
  | 0x1A => .ok (.cmdBlt (field w 20 4) (field w 16 4) (field w 0 16))
  | 0x1B =>
      if bitsAt w 16 4 = 0 then .ok (.cmdLoop (field w 20 4) (field w 0 16))
      else .error .illegalCommand
  | 0x1C =>
      if bitsAt w 0 24 = 0 then .ok (.cmdCall (literal lo hi))
      else .error .illegalCommand
  | 0x1D =>
      if bitsAt w 0 24 = 0 then .ok (.cmdRet)
      else .error .illegalCommand
  | 0x1E =>
      if bitsAt w 0 24 = 0 then .ok (.cmdLink (literal lo hi))
      else .error .illegalCommand
  | 0x20 =>
      if bitsAt w 11 5 = 0 ∧ bitsAt w 1 7 = 0 then .ok (.cmdLaunch (field w 20 4) (field w 16 4) (field w 8 3) (field w 0 1))
      else .error .illegalCommand
  | 0x21 =>
      if bitsAt w 11 5 = 0 ∧ bitsAt w 1 7 = 0 then .ok (.cmdLaunchm (field w 20 4) (field w 16 4) (field w 8 3) (field w 0 1))
      else .error .illegalCommand
  | 0x22 =>
      if bitsAt w 0 24 = 0 then .ok (.cmdSplice)
      else .error .illegalCommand
  | 0x23 =>
      if bitsAt w 6 10 = 0 then .ok (.cmdChapp (field w 20 4) (field w 16 4) (field w 0 6))
      else .error .illegalCommand
  | 0x24 =>
      if bitsAt w 20 4 = 0 ∧ bitsAt w 13 3 = 0 then .ok (.cmdWait (field w 16 4) (field w 9 4) (field w 0 9))
      else .error .illegalCommand
  | 0x25 =>
      if bitsAt w 20 4 = 0 ∧ bitsAt w 13 3 = 0 then .ok (.cmdSignal (field w 16 4) (field w 9 4) (field w 0 9))
      else .error .illegalCommand
  | 0x26 =>
      if bitsAt w 0 24 = 0 then .ok (.cmdFence)
      else .error .illegalCommand
  | _ => .error .illegalCommand

/-- Whether a command word is followed by a literal, so that the command is 12 bytes long (R423, R424). -/
def takesLiteral (w : Word) : Bool :=
  match bitsAt w 24 8 with
  | 0x09 => true
  | 0x1C => true
  | 0x1E => true
  | _ => false

/-- A word from its four bytes, least significant first (R5). -/
def wordOfBytes (a b c d : Byte) : Word :=
  BitVec.ofNat 32 (a.toNat + 2 ^ 8 * b.toNat + 2 ^ 16 * c.toNat + 2 ^ 24 * d.toNat)

/-- The instruction at the head of a list of bytes. -/
noncomputable def decodeBytes : List Byte → Except Reject Instr
  | a :: b :: c :: d :: _ => decode (wordOfBytes a b c d)
  | _ => .error .tooShort

/-- The command at the head of a list of bytes, with its literal. -/
noncomputable def decodeCommandBytes : List Byte → Except Reject Instr
  | a :: b :: c :: d :: rest =>
    let w := wordOfBytes a b c d
    if takesLiteral w then
      match rest with
      | e :: f :: g :: h :: i :: j :: k :: l :: _ =>
        decodeCommand w (wordOfBytes e f g h) (wordOfBytes i j k l)
      | _ => .error .tooShort
    else decodeCommand w 0 0
  | _ => .error .tooShort

/-- The low `n` bytes of a number, least significant first. -/
def bytesOf : Nat → Nat → List Byte
  | 0, _ => []
  | n + 1, w => BitVec.ofNat 8 w :: bytesOf n (w / 256)

/-- The bytes of a table word: 12 of them, the length of the longest command, zero above `nbits`. -/
def tableBytes (nbits w : Nat) : List Byte := bytesOf 12 (w % 2 ^ nbits)

/-- Whether a word of 32 bits is read as a command: a word can be both an instruction of a thread and a command of a queue, and the
reading as a command, whose encodings are the narrower ones, comes first where the command needs no literal (log entry 2). -/
noncomputable def commandFirst (w : Word) : Bool := !takesLiteral w && (decodeCommand w 0 0).toOption.isSome

/-- What the decoder reads from the bits of a table row. -/
noncomputable def decodeTableWord (nbits w : Nat) : Option Instr :=
  let command := (decodeCommandBytes (tableBytes nbits w)).toOption
  if 32 < nbits || commandFirst (BitVec.ofNat 32 (w % 2 ^ nbits)) then command
  else (decodeBytes (tableBytes nbits w)).toOption.or command

/-- Whether the instruction is a word of a thread context or matrix control core. -/
def Instr.isWord : Instr → Bool
  | .add _ _ _ => true
  | .sub _ _ _ => true
  | .and _ _ _ => true
  | .or _ _ _ => true
  | .xor _ _ _ => true
  | .shl _ _ _ => true
  | .shr _ _ _ => true
  | .sha _ _ _ => true
  | .mul _ _ _ => true
  | .mulh _ _ _ => true
  | .mulhn _ _ _ => true
  | .div _ _ _ => true
  | .divn _ _ _ => true
  | .rem _ _ _ => true
  | .remn _ _ _ => true
  | .min _ _ _ => true
  | .max _ _ _ => true
  | .minn _ _ _ => true
  | .maxn _ _ _ => true
  | .slt _ _ _ => true
  | .sltn _ _ _ => true
  | .seq _ _ _ => true
  | .clz _ _ => true
  | .ctz _ _ => true
  | .popc _ _ => true
  | .qadd _ _ _ => true
  | .addi _ _ _ => true
  | .andi _ _ _ => true
  | .ori _ _ _ => true
  | .xori _ _ _ => true
  | .slti _ _ _ => true
  | .shli _ _ _ => true
  | .shri _ _ _ => true
  | .shai _ _ _ => true
  | .lui _ _ => true
  | .addpc _ _ => true
  | .fadd _ _ _ _ => true
  | .fsub _ _ _ _ => true
  | .fmul _ _ _ _ => true
  | .ffma _ _ _ _ => true
  | .fdiv _ _ _ _ => true
  | .fsqrt _ _ _ => true
  | .fmin _ _ _ _ => true
  | .fmax _ _ _ _ => true
  | .feq _ _ _ _ => true
  | .flt _ _ _ _ => true
  | .fle _ _ _ _ => true
  | .fclass _ _ _ => true
  | .fcvtI _ _ _ => true
  | .fcvtN _ _ _ => true
  | .fcvtFi _ _ _ => true
  | .fcvtFn _ _ _ => true
  | .fcvtFf _ _ _ _ => true
  | .beq _ _ _ => true
  | .bne _ _ _ => true
  | .blt _ _ _ => true
  | .bge _ _ _ => true
  | .bltn _ _ _ => true
  | .bgen _ _ _ => true
  | .jal _ _ => true
  | .jalr _ _ _ => true
  | .ld _ _ _ _ _ => true
  | .ldn _ _ _ _ _ => true
  | .st _ _ _ _ _ => true
  | .ldx _ _ _ _ _ => true
  | .stx _ _ _ _ _ => true
  | .aadd _ _ _ _ => true
  | .aand _ _ _ _ => true
  | .aor _ _ _ _ => true
  | .axor _ _ _ _ => true
  | .amin _ _ _ _ => true
  | .amax _ _ _ _ => true
  | .aminn _ _ _ _ => true
  | .amaxn _ _ _ _ => true
  | .aaddRet _ _ _ _ _ => true
  | .aandRet _ _ _ _ _ => true
  | .aorRet _ _ _ _ _ => true
  | .axorRet _ _ _ _ _ => true
  | .aminRet _ _ _ _ _ => true
  | .amaxRet _ _ _ _ _ => true
  | .aminnRet _ _ _ _ _ => true
  | .amaxnRet _ _ _ _ _ => true
  | .aswap _ _ _ _ _ => true
  | .acas _ _ _ _ _ => true
  | .fenceV _ _ => true
  | .fenceS _ _ => true
  | .waitseq _ _ => true
  | .signal _ _ => true
  | .waitx _ => true
  | .sqwait _ _ _ => true
  | .tseq _ _ => true
  | .gjoin _ _ => true
  | .gleave _ => true
  | .gbar _ => true
  | .forkl _ _ => true
  | .joinl _ => true
  | .yield => true
  | .tid _ => true
  | .gsize _ _ => true
  | .trap _ => true
  | .csrr _ _ => true
  | .csrw _ _ _ => true
  | .csrs _ _ _ => true
  | .csrc _ _ _ => true
  | .sleep _ _ => true
  | .halt _ => true
  | .brk _ => true
  | .chapp _ _ _ => true
  | .strmR _ _ _ => true
  | .strmW _ _ _ => true
  | .strmRg _ _ _ => true
  | .sunb _ => true
  | .gang _ _ _ => true
  | .ungang => true
  | .vconfigImm _ _ => true
  | .vconfigReg _ _ => true
  | .vtag _ _ _ => true
  | .setvl _ _ _ => true
  | .setvlB _ _ _ _ => true
  | .vcarrySet _ _ => true
  | .vcarryReg _ => true
  | .vfetch _ _ => true
  | .efetch _ => true
  | .ebz _ _ => true
  | .ebnz _ _ => true
  | .eend => true
  | .xqsend _ => true
  | .xqrecv _ => true
  | .vaddVv _ _ _ _ => true
  | .vsubVv _ _ _ _ => true
  | .vmulVv _ _ _ _ => true
  | .vfmaVv _ _ _ _ => true
  | .vfmsVv _ _ _ _ => true
  | .vfnmaVv _ _ _ _ => true
  | .vdivVv _ _ _ _ => true
  | .vminVv _ _ _ _ => true
  | .vmaxVv _ _ _ _ => true
  | .vabsVv _ _ _ => true
  | .vnegVv _ _ _ => true
  | .vsaddVv _ _ _ _ => true
  | .vssubVv _ _ _ _ => true
  | .vmulhVv _ _ _ _ => true
  | .vavgVv _ _ _ _ => true
  | .vaddVs _ _ _ _ => true
  | .vsubVs _ _ _ _ => true
  | .vmulVs _ _ _ _ => true
  | .vfmaVs _ _ _ _ => true
  | .vfmsVs _ _ _ _ => true
  | .vfnmaVs _ _ _ _ => true
  | .vdivVs _ _ _ _ => true
  | .vminVs _ _ _ _ => true
  | .vmaxVs _ _ _ _ => true
  | .vabsVs _ _ _ => true
  | .vnegVs _ _ _ => true
  | .vsaddVs _ _ _ _ => true
  | .vssubVs _ _ _ _ => true
  | .vmulhVs _ _ _ _ => true
  | .vavgVs _ _ _ _ => true
  | .vand _ _ _ _ => true
  | .vor _ _ _ _ => true
  | .vxor _ _ _ _ => true
  | .vnot _ _ _ => true
  | .vshl _ _ _ _ => true
  | .vshr _ _ _ _ => true
  | .vsha _ _ _ _ => true
  | .vclz _ _ _ => true
  | .vpopc _ _ _ => true
  | .vceq _ _ _ _ => true
  | .vcne _ _ _ _ => true
  | .vclt _ _ _ _ => true
  | .vcle _ _ _ _ => true
  | .vcun _ _ _ _ => true
  | .vclass _ _ _ _ => true
  | .vsqrt _ _ _ => true
  | .vrcp _ _ _ => true
  | .vrsq _ _ _ => true
  | .vexp2f _ _ _ => true
  | .vlog2f _ _ _ => true
  | .vrndi _ _ _ => true
  | .vgetexp _ _ _ => true
  | .vcvt _ _ _ _ => true
  | .vmov _ _ _ => true
  | .vsel _ _ _ _ => true
  | .vscale _ _ _ _ => true
  | .vslideup _ _ _ _ => true
  | .vslidedn _ _ _ _ => true
  | .vbfly _ _ _ _ => true
  | .vid _ _ => true
  | .vbcast _ _ _ => true
  | .vbflyC _ _ _ _ => true
  | .vxg _ _ _ _ => true
  | .vcomp _ _ _ => true
  | .vexpd _ _ _ => true
  | .vredsum _ _ _ _ => true
  | .vredmax _ _ _ _ => true
  | .vredmin _ _ _ _ => true
  | .vredand _ _ _ _ => true
  | .vredor _ _ _ _ => true
  | .vredxor _ _ _ _ => true
  | .vtree _ _ _ => true
  | .tmerge _ _ => true
  | .tread _ _ _ => true
  | .tclear _ _ => true
  | .vscan _ _ _ _ _ => true
  | .vscana _ _ _ _ _ => true
  | .vscanmax _ _ _ _ _ => true
  | .pand _ _ _ => true
  | .por _ _ _ => true
  | .pxor _ _ _ => true
  | .pnot _ _ => true
  | .pandn _ _ _ => true
  | .pwhile _ _ => true
  | .pcnt _ _ _ => true
  | .pfirst _ _ _ => true
  | .pset _ _ => true
  | .vins _ _ _ => true
  | .vext _ _ _ => true
  | .vld _ _ _ _ => true
  | .vst _ _ _ _ => true
  | .vldx _ _ _ _ => true
  | .vstx _ _ _ _ => true
  | .vldff _ _ _ _ => true
  | .vgb _ _ _ _ => true
  | .vsb _ _ _ _ => true
  | .vaadd _ _ _ _ => true
  | .vsrd _ _ _ _ => true
  | .vswr _ _ _ _ => true
  | .tlook _ _ => true
  | .tset _ _ _ => true
  | .tinv _ _ => true
  | .vwset _ _ _ => true
  | .vwret _ => true
  | .vwget _ _ _ => true
  | .vrng _ _ _ => true
  | .mtv _ _ _ _ _ => true
  | .mvt _ _ _ _ _ => true
  | .mtvc _ _ _ _ => true
  | .mten _ => true
  | .mzero _ _ _ => true
  | .mldw _ _ _ => true
  | .mswap _ => true
  | .mma _ _ _ _ => true
  | .mmaF64 _ _ _ _ => true
  | .mscan _ _ _ _ => true
  | .mcld _ _ _ => true
  | .mcst _ _ _ => true
  | .mst _ _ _ => true
  | .mld _ _ _ => true
  | .mrow _ _ => true
  | .mcol _ _ => true
  | .msig _ _ => true
  | .mwait _ => true
  | .mcfg _ => true
  | _ => false

/-- Whether the instruction is a command of a queue. -/
def Instr.isCommand : Instr → Bool
  | .cmdNop => true
  | .cmdHalt _ => true
  | .cmdLi _ _ => true
  | .cmdLil _ _ => true
  | .cmdAddi _ _ _ => true
  | .cmdAdd _ _ => true
  | .cmdSub _ _ => true
  | .cmdAnd _ _ => true
  | .cmdOr _ _ => true
  | .cmdShli _ _ _ => true
  | .cmdLd _ _ _ => true
  | .cmdSt _ _ _ => true
  | .cmdBeq _ _ _ => true
  | .cmdBne _ _ _ => true
  | .cmdBlt _ _ _ => true
  | .cmdLoop _ _ => true
  | .cmdCall _ => true
  | .cmdRet => true
  | .cmdLink _ => true
  | .cmdLaunch _ _ _ _ => true
  | .cmdLaunchm _ _ _ _ => true
  | .cmdSplice => true
  | .cmdChapp _ _ _ => true
  | .cmdWait _ _ _ => true
  | .cmdSignal _ _ _ => true
  | .cmdFence => true
  | _ => false

/-- A word from its fixed bits and its fields, each with the place of its lowest bit. -/
def asm (fixed : Nat) (fields : List (Nat × Nat)) : Word :=
  BitVec.ofNat 32 (fields.foldl (fun acc f => acc + f.1 * 2 ^ f.2) fixed)

/-- The word of an instruction, or the first word of a command; 0, which is no instruction (R74), for an event. -/
def Instr.word (i : Instr) : Word :=
  match i with
  | .add d a b => asm 0x04000000 [(d.toNat, 21), (a.toNat, 16), (b.toNat, 11)]
  | .sub d a b => asm 0x04000001 [(d.toNat, 21), (a.toNat, 16), (b.toNat, 11)]
  | .and d a b => asm 0x04000002 [(d.toNat, 21), (a.toNat, 16), (b.toNat, 11)]
  | .or d a b => asm 0x04000003 [(d.toNat, 21), (a.toNat, 16), (b.toNat, 11)]
  | .xor d a b => asm 0x04000004 [(d.toNat, 21), (a.toNat, 16), (b.toNat, 11)]
  | .shl d a b => asm 0x04000005 [(d.toNat, 21), (a.toNat, 16), (b.toNat, 11)]
  | .shr d a b => asm 0x04000006 [(d.toNat, 21), (a.toNat, 16), (b.toNat, 11)]
  | .sha d a b => asm 0x04000007 [(d.toNat, 21), (a.toNat, 16), (b.toNat, 11)]
  | .mul d a b => asm 0x04000008 [(d.toNat, 21), (a.toNat, 16), (b.toNat, 11)]
  | .mulh d a b => asm 0x04000009 [(d.toNat, 21), (a.toNat, 16), (b.toNat, 11)]
  | .mulhn d a b => asm 0x0400000A [(d.toNat, 21), (a.toNat, 16), (b.toNat, 11)]
  | .div d a b => asm 0x0400000B [(d.toNat, 21), (a.toNat, 16), (b.toNat, 11)]
  | .divn d a b => asm 0x0400000C [(d.toNat, 21), (a.toNat, 16), (b.toNat, 11)]
  | .rem d a b => asm 0x0400000D [(d.toNat, 21), (a.toNat, 16), (b.toNat, 11)]
  | .remn d a b => asm 0x0400000E [(d.toNat, 21), (a.toNat, 16), (b.toNat, 11)]
  | .min d a b => asm 0x0400000F [(d.toNat, 21), (a.toNat, 16), (b.toNat, 11)]
  | .max d a b => asm 0x04000010 [(d.toNat, 21), (a.toNat, 16), (b.toNat, 11)]
  | .minn d a b => asm 0x04000011 [(d.toNat, 21), (a.toNat, 16), (b.toNat, 11)]
  | .maxn d a b => asm 0x04000012 [(d.toNat, 21), (a.toNat, 16), (b.toNat, 11)]
  | .slt d a b => asm 0x04000013 [(d.toNat, 21), (a.toNat, 16), (b.toNat, 11)]
  | .sltn d a b => asm 0x04000014 [(d.toNat, 21), (a.toNat, 16), (b.toNat, 11)]
  | .seq d a b => asm 0x04000015 [(d.toNat, 21), (a.toNat, 16), (b.toNat, 11)]
  | .clz d a => asm 0x04000016 [(d.toNat, 21), (a.toNat, 16)]
  | .ctz d a => asm 0x04000017 [(d.toNat, 21), (a.toNat, 16)]
  | .popc d a => asm 0x04000018 [(d.toNat, 21), (a.toNat, 16)]
  | .qadd d a b => asm 0x04000019 [(d.toNat, 21), (a.toNat, 16), (b.toNat, 11)]
  | .addi d a i => asm 0x08000000 [(d.toNat, 21), (a.toNat, 16), (i.toNat, 0)]
  | .andi d a i => asm 0x0C000000 [(d.toNat, 21), (a.toNat, 16), (i.toNat, 0)]
  | .ori d a i => asm 0x10000000 [(d.toNat, 21), (a.toNat, 16), (i.toNat, 0)]
  | .xori d a i => asm 0x14000000 [(d.toNat, 21), (a.toNat, 16), (i.toNat, 0)]
  | .slti d a i => asm 0x18000000 [(d.toNat, 21), (a.toNat, 16), (i.toNat, 0)]
  | .shli d a n => asm 0x1C000000 [(d.toNat, 21), (a.toNat, 16), (n.toNat, 0)]
  | .shri d a n => asm 0x1C000040 [(d.toNat, 21), (a.toNat, 16), (n.toNat, 0)]
  | .shai d a n => asm 0x1C000080 [(d.toNat, 21), (a.toNat, 16), (n.toNat, 0)]
  | .lui d i => asm 0x20000000 [(d.toNat, 21), (i.toNat, 0)]
  | .addpc d i => asm 0x24000000 [(d.toNat, 21), (i.toNat, 0)]
  | .fadd d a b f => asm 0x28000000 [(d.toNat, 21), (a.toNat, 16), (b.toNat, 11), (f.toNat, 8)]
  | .fsub d a b f => asm 0x28000001 [(d.toNat, 21), (a.toNat, 16), (b.toNat, 11), (f.toNat, 8)]
  | .fmul d a b f => asm 0x28000002 [(d.toNat, 21), (a.toNat, 16), (b.toNat, 11), (f.toNat, 8)]
  | .ffma d a b f => asm 0x28000003 [(d.toNat, 21), (a.toNat, 16), (b.toNat, 11), (f.toNat, 8)]
  | .fdiv d a b f => asm 0x28000004 [(d.toNat, 21), (a.toNat, 16), (b.toNat, 11), (f.toNat, 8)]
  | .fsqrt d a f => asm 0x28000005 [(d.toNat, 21), (a.toNat, 16), (f.toNat, 8)]
  | .fmin d a b f => asm 0x28000006 [(d.toNat, 21), (a.toNat, 16), (b.toNat, 11), (f.toNat, 8)]
  | .fmax d a b f => asm 0x28000007 [(d.toNat, 21), (a.toNat, 16), (b.toNat, 11), (f.toNat, 8)]
  | .feq d a b f => asm 0x28000008 [(d.toNat, 21), (a.toNat, 16), (b.toNat, 11), (f.toNat, 8)]
  | .flt d a b f => asm 0x28000009 [(d.toNat, 21), (a.toNat, 16), (b.toNat, 11), (f.toNat, 8)]
  | .fle d a b f => asm 0x2800000A [(d.toNat, 21), (a.toNat, 16), (b.toNat, 11), (f.toNat, 8)]
  | .fclass d a f => asm 0x2800000B [(d.toNat, 21), (a.toNat, 16), (f.toNat, 8)]
  | .fcvtI d a f => asm 0x2800000C [(d.toNat, 21), (a.toNat, 16), (f.toNat, 8)]
  | .fcvtN d a f => asm 0x2800000D [(d.toNat, 21), (a.toNat, 16), (f.toNat, 8)]
  | .fcvtFi d a f => asm 0x2800000E [(d.toNat, 21), (a.toNat, 16), (f.toNat, 8)]
  | .fcvtFn d a f => asm 0x2800000F [(d.toNat, 21), (a.toNat, 16), (f.toNat, 8)]
  | .fcvtFf d a s f => asm 0x28000010 [(d.toNat, 21), (a.toNat, 16), (s.toNat, 11), (f.toNat, 8)]
  | .beq a b o => asm 0x2C000000 [(a.toNat, 21), (b.toNat, 16), (o.toNat, 0)]
  | .bne a b o => asm 0x30000000 [(a.toNat, 21), (b.toNat, 16), (o.toNat, 0)]
  | .blt a b o => asm 0x34000000 [(a.toNat, 21), (b.toNat, 16), (o.toNat, 0)]
  | .bge a b o => asm 0x38000000 [(a.toNat, 21), (b.toNat, 16), (o.toNat, 0)]
  | .bltn a b o => asm 0x3C000000 [(a.toNat, 21), (b.toNat, 16), (o.toNat, 0)]
  | .bgen a b o => asm 0x40000000 [(a.toNat, 21), (b.toNat, 16), (o.toNat, 0)]
  | .jal d o => asm 0x44000000 [(d.toNat, 21), (o.toNat, 0)]
  | .jalr d a i => asm 0x48000000 [(d.toNat, 21), (a.toNat, 16), (i.toNat, 0)]
  | .ld s a w z i => asm 0x4C000000 [(s.toNat, 21), (a.toNat, 16), (w.toNat, 12), (z.toNat, 10), (i.toNat, 0)]
  | .ldn s a w z i => asm 0x50000000 [(s.toNat, 21), (a.toNat, 16), (w.toNat, 12), (z.toNat, 10), (i.toNat, 0)]
  | .st s a w z i => asm 0x54000000 [(s.toNat, 21), (a.toNat, 16), (w.toNat, 12), (z.toNat, 10), (i.toNat, 0)]
  | .ldx s a w z i => asm 0x58000000 [(s.toNat, 21), (a.toNat, 16), (w.toNat, 12), (z.toNat, 10), (i.toNat, 0)]
  | .stx s a w z i => asm 0x5C000000 [(s.toNat, 21), (a.toNat, 16), (w.toNat, 12), (z.toNat, 10), (i.toNat, 0)]
  | .aadd a b w z => asm 0x60000000 [(a.toNat, 16), (b.toNat, 11), (w.toNat, 6), (z.toNat, 4)]
  | .aand a b w z => asm 0x60000001 [(a.toNat, 16), (b.toNat, 11), (w.toNat, 6), (z.toNat, 4)]
  | .aor a b w z => asm 0x60000002 [(a.toNat, 16), (b.toNat, 11), (w.toNat, 6), (z.toNat, 4)]
  | .axor a b w z => asm 0x60000003 [(a.toNat, 16), (b.toNat, 11), (w.toNat, 6), (z.toNat, 4)]
  | .amin a b w z => asm 0x60000004 [(a.toNat, 16), (b.toNat, 11), (w.toNat, 6), (z.toNat, 4)]
  | .amax a b w z => asm 0x60000005 [(a.toNat, 16), (b.toNat, 11), (w.toNat, 6), (z.toNat, 4)]
  | .aminn a b w z => asm 0x60000006 [(a.toNat, 16), (b.toNat, 11), (w.toNat, 6), (z.toNat, 4)]
  | .amaxn a b w z => asm 0x60000007 [(a.toNat, 16), (b.toNat, 11), (w.toNat, 6), (z.toNat, 4)]
  | .aaddRet d a b w z => asm 0x60000400 [(d.toNat, 21), (a.toNat, 16), (b.toNat, 11), (w.toNat, 6), (z.toNat, 4)]
  | .aandRet d a b w z => asm 0x60000401 [(d.toNat, 21), (a.toNat, 16), (b.toNat, 11), (w.toNat, 6), (z.toNat, 4)]
  | .aorRet d a b w z => asm 0x60000402 [(d.toNat, 21), (a.toNat, 16), (b.toNat, 11), (w.toNat, 6), (z.toNat, 4)]
  | .axorRet d a b w z => asm 0x60000403 [(d.toNat, 21), (a.toNat, 16), (b.toNat, 11), (w.toNat, 6), (z.toNat, 4)]
  | .aminRet d a b w z => asm 0x60000404 [(d.toNat, 21), (a.toNat, 16), (b.toNat, 11), (w.toNat, 6), (z.toNat, 4)]
  | .amaxRet d a b w z => asm 0x60000405 [(d.toNat, 21), (a.toNat, 16), (b.toNat, 11), (w.toNat, 6), (z.toNat, 4)]
  | .aminnRet d a b w z => asm 0x60000406 [(d.toNat, 21), (a.toNat, 16), (b.toNat, 11), (w.toNat, 6), (z.toNat, 4)]
  | .amaxnRet d a b w z => asm 0x60000407 [(d.toNat, 21), (a.toNat, 16), (b.toNat, 11), (w.toNat, 6), (z.toNat, 4)]
  | .aswap d a b w z => asm 0x60000408 [(d.toNat, 21), (a.toNat, 16), (b.toNat, 11), (w.toNat, 6), (z.toNat, 4)]
  | .acas d a b w z => asm 0x60000409 [(d.toNat, 21), (a.toNat, 16), (b.toNat, 11), (w.toNat, 6), (z.toNat, 4)]
  | .fenceV c m => asm 0x64000000 [(c.toNat, 21), (m.toNat, 0)]
  | .fenceS c m => asm 0x65000000 [(c.toNat, 21), (m.toNat, 0)]
  | .waitseq a b => asm 0x68000000 [(a.toNat, 16), (b.toNat, 11)]
  | .signal a b => asm 0x68000001 [(a.toNat, 16), (b.toNat, 11)]
  | .waitx a => asm 0x68000002 [(a.toNat, 16)]
  | .sqwait d q b => asm 0x68000003 [(d.toNat, 21), (q.toNat, 16), (b.toNat, 11)]
  | .tseq d a => asm 0x68000004 [(d.toNat, 21), (a.toNat, 16)]
  | .gjoin d a => asm 0x6C000000 [(d.toNat, 21), (a.toNat, 16)]
  | .gleave a => asm 0x6C000001 [(a.toNat, 16)]
  | .gbar a => asm 0x6C000002 [(a.toNat, 16)]
  | .forkl d a => asm 0x6C000003 [(d.toNat, 21), (a.toNat, 16)]
  | .joinl a => asm 0x6C000004 [(a.toNat, 16)]
  | .yield => asm 0x6C000005 []
  | .tid d => asm 0x6C000006 [(d.toNat, 21)]
  | .gsize d a => asm 0x6C000007 [(d.toNat, 21), (a.toNat, 16)]
  | .trap k => asm 0x70000000 [(k.toNat, 4)]
  | .csrr d k => asm 0x70000001 [(d.toNat, 21), (k.toNat, 4)]
  | .csrw d a k => asm 0x70000002 [(d.toNat, 21), (a.toNat, 16), (k.toNat, 4)]
  | .csrs d a k => asm 0x70000003 [(d.toNat, 21), (a.toNat, 16), (k.toNat, 4)]
  | .csrc d a k => asm 0x70000004 [(d.toNat, 21), (a.toNat, 16), (k.toNat, 4)]
  | .sleep a k => asm 0x70000005 [(a.toNat, 16), (k.toNat, 4)]
  | .halt k => asm 0x70000006 [(k.toNat, 4)]
  | .brk k => asm 0x70000007 [(k.toNat, 4)]
  | .chapp d a b => asm 0x74000000 [(d.toNat, 21), (a.toNat, 16), (b.toNat, 11)]
  | .strmR q w p => asm 0x74000001 [(q.toNat, 21), (w.toNat, 16), (p.toNat, 11)]
  | .strmW q w p => asm 0x76000001 [(q.toNat, 21), (w.toNat, 16), (p.toNat, 11)]
  | .strmRg q w p => asm 0x75000001 [(q.toNat, 21), (w.toNat, 16), (p.toNat, 11)]
  | .sunb q => asm 0x74000002 [(q.toNat, 21)]
  | .gang d a b => asm 0x74000003 [(d.toNat, 21), (a.toNat, 16), (b.toNat, 11)]
  | .ungang => asm 0x74000004 []
  | .vconfigImm d c => asm 0x78000000 [(d.toNat, 21), (c.toNat, 4)]
  | .vconfigReg d a => asm 0x78008000 [(d.toNat, 21), (a.toNat, 16)]
  | .vtag c v t => asm 0x78000001 [(c.toNat, 14), (v.toNat, 8), (t.toNat, 4)]
  | .setvl d a e => asm 0x78000002 [(d.toNat, 21), (a.toNat, 16), (e.toNat, 4)]
  | .setvlB d a b t => asm 0x78000003 [(d.toNat, 21), (a.toNat, 16), (b.toNat, 8), (t.toNat, 4)]
  | .vcarrySet o n => asm 0x78000004 [(o.toNat, 9), (n.toNat, 4)]
  | .vcarryReg a => asm 0x78008004 [(a.toNat, 16)]
  | .vfetch b p => asm 0x7C000000 [(b.toNat, 20), (p.toNat, 4)]
  | .efetch b => asm 0x7C000001 [(b.toNat, 20)]
  | .ebz o a => asm 0x7C000002 [(o.toNat, 20), (a.toNat, 14)]
  | .ebnz o a => asm 0x7C000003 [(o.toNat, 20), (a.toNat, 14)]
  | .eend => asm 0x7C000004 []
  | .xqsend a => asm 0x7C000005 [(a.toNat, 14)]
  | .xqrecv d => asm 0x7C000006 [(d.toNat, 20)]
  | .vaddVv d a b p => asm 0x80000000 [(d.toNat, 20), (a.toNat, 14), (b.toNat, 8), (p.toNat, 4)]
  | .vsubVv d a b p => asm 0x80000001 [(d.toNat, 20), (a.toNat, 14), (b.toNat, 8), (p.toNat, 4)]
  | .vmulVv d a b p => asm 0x80000002 [(d.toNat, 20), (a.toNat, 14), (b.toNat, 8), (p.toNat, 4)]
  | .vfmaVv d a b p => asm 0x80000003 [(d.toNat, 20), (a.toNat, 14), (b.toNat, 8), (p.toNat, 4)]
  | .vfmsVv d a b p => asm 0x80000004 [(d.toNat, 20), (a.toNat, 14), (b.toNat, 8), (p.toNat, 4)]
  | .vfnmaVv d a b p => asm 0x80000005 [(d.toNat, 20), (a.toNat, 14), (b.toNat, 8), (p.toNat, 4)]
  | .vdivVv d a b p => asm 0x80000006 [(d.toNat, 20), (a.toNat, 14), (b.toNat, 8), (p.toNat, 4)]
  | .vminVv d a b p => asm 0x80000007 [(d.toNat, 20), (a.toNat, 14), (b.toNat, 8), (p.toNat, 4)]
  | .vmaxVv d a b p => asm 0x80000008 [(d.toNat, 20), (a.toNat, 14), (b.toNat, 8), (p.toNat, 4)]
  | .vabsVv d a p => asm 0x80000009 [(d.toNat, 20), (a.toNat, 14), (p.toNat, 4)]
  | .vnegVv d a p => asm 0x8000000A [(d.toNat, 20), (a.toNat, 14), (p.toNat, 4)]
  | .vsaddVv d a b p => asm 0x8000000B [(d.toNat, 20), (a.toNat, 14), (b.toNat, 8), (p.toNat, 4)]
  | .vssubVv d a b p => asm 0x8000000C [(d.toNat, 20), (a.toNat, 14), (b.toNat, 8), (p.toNat, 4)]
  | .vmulhVv d a b p => asm 0x8000000D [(d.toNat, 20), (a.toNat, 14), (b.toNat, 8), (p.toNat, 4)]
  | .vavgVv d a b p => asm 0x8000000E [(d.toNat, 20), (a.toNat, 14), (b.toNat, 8), (p.toNat, 4)]
  | .vaddVs d a s p => asm 0x84000000 [(d.toNat, 20), (a.toNat, 14), (s.toNat, 9), (p.toNat, 5)]
  | .vsubVs d a s p => asm 0x84000001 [(d.toNat, 20), (a.toNat, 14), (s.toNat, 9), (p.toNat, 5)]
  | .vmulVs d a s p => asm 0x84000002 [(d.toNat, 20), (a.toNat, 14), (s.toNat, 9), (p.toNat, 5)]
  | .vfmaVs d a s p => asm 0x84000003 [(d.toNat, 20), (a.toNat, 14), (s.toNat, 9), (p.toNat, 5)]
  | .vfmsVs d a s p => asm 0x84000004 [(d.toNat, 20), (a.toNat, 14), (s.toNat, 9), (p.toNat, 5)]
  | .vfnmaVs d a s p => asm 0x84000005 [(d.toNat, 20), (a.toNat, 14), (s.toNat, 9), (p.toNat, 5)]
  | .vdivVs d a s p => asm 0x84000006 [(d.toNat, 20), (a.toNat, 14), (s.toNat, 9), (p.toNat, 5)]
  | .vminVs d a s p => asm 0x84000007 [(d.toNat, 20), (a.toNat, 14), (s.toNat, 9), (p.toNat, 5)]
  | .vmaxVs d a s p => asm 0x84000008 [(d.toNat, 20), (a.toNat, 14), (s.toNat, 9), (p.toNat, 5)]
  | .vabsVs d s p => asm 0x84000009 [(d.toNat, 20), (s.toNat, 9), (p.toNat, 5)]
  | .vnegVs d s p => asm 0x8400000A [(d.toNat, 20), (s.toNat, 9), (p.toNat, 5)]
  | .vsaddVs d a s p => asm 0x8400000B [(d.toNat, 20), (a.toNat, 14), (s.toNat, 9), (p.toNat, 5)]
  | .vssubVs d a s p => asm 0x8400000C [(d.toNat, 20), (a.toNat, 14), (s.toNat, 9), (p.toNat, 5)]
  | .vmulhVs d a s p => asm 0x8400000D [(d.toNat, 20), (a.toNat, 14), (s.toNat, 9), (p.toNat, 5)]
  | .vavgVs d a s p => asm 0x8400000E [(d.toNat, 20), (a.toNat, 14), (s.toNat, 9), (p.toNat, 5)]
  | .vand d a b p => asm 0x88000000 [(d.toNat, 20), (a.toNat, 14), (b.toNat, 8), (p.toNat, 4)]
  | .vor d a b p => asm 0x88000001 [(d.toNat, 20), (a.toNat, 14), (b.toNat, 8), (p.toNat, 4)]
  | .vxor d a b p => asm 0x88000002 [(d.toNat, 20), (a.toNat, 14), (b.toNat, 8), (p.toNat, 4)]
  | .vnot d a p => asm 0x88000003 [(d.toNat, 20), (a.toNat, 14), (p.toNat, 4)]
  | .vshl d a b p => asm 0x88000004 [(d.toNat, 20), (a.toNat, 14), (b.toNat, 8), (p.toNat, 4)]
  | .vshr d a b p => asm 0x88000005 [(d.toNat, 20), (a.toNat, 14), (b.toNat, 8), (p.toNat, 4)]
  | .vsha d a b p => asm 0x88000006 [(d.toNat, 20), (a.toNat, 14), (b.toNat, 8), (p.toNat, 4)]
  | .vclz d a p => asm 0x88000007 [(d.toNat, 20), (a.toNat, 14), (p.toNat, 4)]
  | .vpopc d a p => asm 0x88000008 [(d.toNat, 20), (a.toNat, 14), (p.toNat, 4)]
  | .vceq q a b p => asm 0x8C000000 [(q.toNat, 20), (a.toNat, 14), (b.toNat, 8), (p.toNat, 4)]
  | .vcne q a b p => asm 0x8C000001 [(q.toNat, 20), (a.toNat, 14), (b.toNat, 8), (p.toNat, 4)]
  | .vclt q a b p => asm 0x8C000002 [(q.toNat, 20), (a.toNat, 14), (b.toNat, 8), (p.toNat, 4)]
  | .vcle q a b p => asm 0x8C000003 [(q.toNat, 20), (a.toNat, 14), (b.toNat, 8), (p.toNat, 4)]
  | .vcun q a b p => asm 0x8C000004 [(q.toNat, 20), (a.toNat, 14), (b.toNat, 8), (p.toNat, 4)]
  | .vclass q a k p => asm 0x8C000005 [(q.toNat, 20), (a.toNat, 14), (k.toNat, 8), (p.toNat, 4)]
  | .vsqrt d a p => asm 0x90000000 [(d.toNat, 20), (a.toNat, 14), (p.toNat, 4)]
  | .vrcp d a p => asm 0x90000001 [(d.toNat, 20), (a.toNat, 14), (p.toNat, 4)]
  | .vrsq d a p => asm 0x90000002 [(d.toNat, 20), (a.toNat, 14), (p.toNat, 4)]
  | .vexp2f d a p => asm 0x90000003 [(d.toNat, 20), (a.toNat, 14), (p.toNat, 4)]
  | .vlog2f d a p => asm 0x90000004 [(d.toNat, 20), (a.toNat, 14), (p.toNat, 4)]
  | .vrndi d a p => asm 0x90000005 [(d.toNat, 20), (a.toNat, 14), (p.toNat, 4)]
  | .vgetexp d a p => asm 0x90000006 [(d.toNat, 20), (a.toNat, 14), (p.toNat, 4)]
  | .vcvt d a t p => asm 0x90000007 [(d.toNat, 20), (a.toNat, 14), (t.toNat, 8), (p.toNat, 4)]
  | .vmov d a p => asm 0x90000008 [(d.toNat, 20), (a.toNat, 14), (p.toNat, 4)]
  | .vsel d a b p => asm 0x90000009 [(d.toNat, 20), (a.toNat, 14), (b.toNat, 8), (p.toNat, 4)]
  | .vscale d a b p => asm 0x9000000A [(d.toNat, 20), (a.toNat, 14), (b.toNat, 8), (p.toNat, 4)]
  | .vslideup d a s p => asm 0x94000000 [(d.toNat, 20), (a.toNat, 14), (s.toNat, 9), (p.toNat, 5)]
  | .vslidedn d a s p => asm 0x94000001 [(d.toNat, 20), (a.toNat, 14), (s.toNat, 9), (p.toNat, 5)]
  | .vbfly d a s p => asm 0x94000002 [(d.toNat, 20), (a.toNat, 14), (s.toNat, 9), (p.toNat, 5)]
  | .vid d p => asm 0x94000003 [(d.toNat, 20), (p.toNat, 5)]
  | .vbcast d s p => asm 0x94000004 [(d.toNat, 20), (s.toNat, 9), (p.toNat, 5)]
  | .vbflyC d a s p => asm 0x94000005 [(d.toNat, 20), (a.toNat, 14), (s.toNat, 9), (p.toNat, 5)]
  | .vxg d a b p => asm 0x98000000 [(d.toNat, 20), (a.toNat, 14), (b.toNat, 8), (p.toNat, 4)]
  | .vcomp d a p => asm 0x98000001 [(d.toNat, 20), (a.toNat, 14), (p.toNat, 4)]
  | .vexpd d a p => asm 0x98000002 [(d.toNat, 20), (a.toNat, 14), (p.toNat, 4)]
  | .vredsum d a b p => asm 0x9C000000 [(d.toNat, 20), (a.toNat, 14), (b.toNat, 11), (p.toNat, 4)]
  | .vredmax d a b p => asm 0x9C000001 [(d.toNat, 20), (a.toNat, 14), (b.toNat, 11), (p.toNat, 4)]
  | .vredmin d a b p => asm 0x9C000002 [(d.toNat, 20), (a.toNat, 14), (b.toNat, 11), (p.toNat, 4)]
  | .vredand d a b p => asm 0x9C000003 [(d.toNat, 20), (a.toNat, 14), (b.toNat, 11), (p.toNat, 4)]
  | .vredor d a b p => asm 0x9C000004 [(d.toNat, 20), (a.toNat, 14), (b.toNat, 11), (p.toNat, 4)]
  | .vredxor d a b p => asm 0x9C000005 [(d.toNat, 20), (a.toNat, 14), (b.toNat, 11), (p.toNat, 4)]
  | .vtree y a p => asm 0x9C000006 [(y.toNat, 20), (a.toNat, 14), (p.toNat, 4)]
  | .tmerge y a => asm 0x9C000007 [(y.toNat, 20), (a.toNat, 14)]
  | .tread d y i => asm 0x9C000008 [(d.toNat, 20), (y.toNat, 14), (i.toNat, 8)]
  | .tclear y s => asm 0x9C000009 [(y.toNat, 20), (s.toNat, 8)]
  | .vscan d a o i p => asm 0xA0000000 [(d.toNat, 20), (a.toNat, 14), (o.toNat, 9), (i.toNat, 8), (p.toNat, 4)]
  | .vscana d a o i p => asm 0xA0000001 [(d.toNat, 20), (a.toNat, 14), (o.toNat, 9), (i.toNat, 8), (p.toNat, 4)]
  | .vscanmax d a o i p => asm 0xA0000002 [(d.toNat, 20), (a.toNat, 14), (o.toNat, 9), (i.toNat, 8), (p.toNat, 4)]
  | .pand d a b => asm 0xA4000000 [(d.toNat, 22), (a.toNat, 18), (b.toNat, 14)]
  | .por d a b => asm 0xA4000001 [(d.toNat, 22), (a.toNat, 18), (b.toNat, 14)]
  | .pxor d a b => asm 0xA4000002 [(d.toNat, 22), (a.toNat, 18), (b.toNat, 14)]
  | .pnot d a => asm 0xA4000003 [(d.toNat, 22), (a.toNat, 18)]
  | .pandn d a b => asm 0xA4000004 [(d.toNat, 22), (a.toNat, 18), (b.toNat, 14)]
  | .pwhile d s => asm 0xA4000005 [(d.toNat, 22), (s.toNat, 9)]
  | .pcnt a b s => asm 0xA4000006 [(a.toNat, 18), (b.toNat, 14), (s.toNat, 9)]
  | .pfirst a b s => asm 0xA4000007 [(a.toNat, 18), (b.toNat, 14), (s.toNat, 9)]
  | .pset d v => asm 0xA4000008 [(d.toNat, 22), (v.toNat, 8)]
  | .vins d x b => asm 0xA8000000 [(d.toNat, 20), (x.toNat, 15), (b.toNat, 9)]
  | .vext x a d => asm 0xA8000001 [(x.toNat, 21), (a.toNat, 14), (d.toNat, 9)]
  | .vld d w s p => asm 0xAC000000 [(d.toNat, 20), (w.toNat, 16), (s.toNat, 11), (p.toNat, 6)]
  | .vst d w s p => asm 0xAC000001 [(d.toNat, 20), (w.toNat, 16), (s.toNat, 11), (p.toNat, 6)]
  | .vldx d w x p => asm 0xAC000002 [(d.toNat, 20), (w.toNat, 16), (x.toNat, 10), (p.toNat, 6)]
  | .vstx d w x p => asm 0xAC000003 [(d.toNat, 20), (w.toNat, 16), (x.toNat, 10), (p.toNat, 6)]
  | .vldff d w s p => asm 0xAC000004 [(d.toNat, 20), (w.toNat, 16), (s.toNat, 11), (p.toNat, 6)]
  | .vgb d w x p => asm 0xAC000005 [(d.toNat, 20), (w.toNat, 16), (x.toNat, 10), (p.toNat, 6)]
  | .vsb d w x p => asm 0xAC000006 [(d.toNat, 20), (w.toNat, 16), (x.toNat, 10), (p.toNat, 6)]
  | .vaadd d w x p => asm 0xAC000007 [(d.toNat, 20), (w.toNat, 16), (x.toNat, 10), (p.toNat, 6)]
  | .vsrd d q s p => asm 0xB0000000 [(d.toNat, 20), (q.toNat, 16), (s.toNat, 11), (p.toNat, 6)]
  | .vswr d q s p => asm 0xB0000001 [(d.toNat, 20), (q.toNat, 16), (s.toNat, 11), (p.toNat, 6)]
  | .tlook d a => asm 0xB4000000 [(d.toNat, 21), (a.toNat, 16)]
  | .tset d a b => asm 0xB4000001 [(d.toNat, 21), (a.toNat, 16), (b.toNat, 11)]
  | .tinv d a => asm 0xB4000002 [(d.toNat, 21), (a.toNat, 16)]
  | .vwset n a v => asm 0xB4000003 [(n.toNat, 21), (a.toNat, 16), (v.toNat, 11)]
  | .vwret n => asm 0xB4000004 [(n.toNat, 21)]
  | .vwget d n k => asm 0xB4000005 [(d.toNat, 21), (n.toNat, 16), (k.toNat, 11)]
  | .vrng d s p => asm 0xB8000000 [(d.toNat, 20), (s.toNat, 9), (p.toNat, 5)]
  | .mtv d t x a p => asm 0xBC000000 [(d.toNat, 20), (t.toNat, 18), (x.toNat, 17), (a.toNat, 12), (p.toNat, 8)]
  | .mvt d t x a p => asm 0xBC000001 [(d.toNat, 20), (t.toNat, 18), (x.toNat, 17), (a.toNat, 12), (p.toNat, 8)]
  | .mtvc d t x p => asm 0xBC000002 [(d.toNat, 20), (t.toNat, 18), (x.toNat, 17), (p.toNat, 8)]
  | .mten m => asm 0xE0000000 [(m.toNat, 0)]
  | .mzero t a c => asm 0xE0200000 [(t.toNat, 19), (a.toNat, 15), (c.toNat, 0)]
  | .mldw a s y => asm 0xE0400000 [(a.toNat, 15), (s.toNat, 6), (y.toNat, 0)]
  | .mswap a => asm 0xE0600000 [(a.toNat, 15)]
  | .mma t a s z => asm 0xE0800000 [(t.toNat, 19), (a.toNat, 15), (s.toNat, 6), (z.toNat, 0)]
  | .mmaF64 t a s z => asm 0xE0A00000 [(t.toNat, 19), (a.toNat, 15), (s.toNat, 6), (z.toNat, 0)]
  | .mscan t a o i => asm 0xE0C00000 [(t.toNat, 19), (a.toNat, 15), (o.toNat, 1), (i.toNat, 0)]
  | .mcld t a s => asm 0xE0E00000 [(t.toNat, 19), (a.toNat, 15), (s.toNat, 6)]
  | .mcst t a s => asm 0xE1000000 [(t.toNat, 19), (a.toNat, 15), (s.toNat, 6)]
  | .mst t a s => asm 0xE1200000 [(t.toNat, 19), (a.toNat, 15), (s.toNat, 6)]
  | .mld t a s => asm 0xE1400000 [(t.toNat, 19), (a.toNat, 15), (s.toNat, 6)]
  | .mrow a s => asm 0xE1600000 [(a.toNat, 15), (s.toNat, 6)]
  | .mcol a s => asm 0xE1800000 [(a.toNat, 15), (s.toNat, 6)]
  | .msig s i => asm 0xE1A00000 [(s.toNat, 6), (i.toNat, 0)]
  | .mwait s => asm 0xE1C00000 [(s.toNat, 6)]
  | .mcfg s => asm 0xE1E00000 [(s.toNat, 6)]
  | .cmdNop => asm 0x01000000 []
  | .cmdHalt k => asm 0x02000000 [(k.toNat, 0)]
  | .cmdLi a i => asm 0x08000000 [(a.toNat, 20), (i.toNat, 0)]
  | .cmdLil a _ => asm 0x09000000 [(a.toNat, 20)]
  | .cmdAddi a b i => asm 0x0A000000 [(a.toNat, 20), (b.toNat, 16), (i.toNat, 0)]
  | .cmdAdd a b => asm 0x0B000000 [(a.toNat, 20), (b.toNat, 16)]
  | .cmdSub a b => asm 0x0C000000 [(a.toNat, 20), (b.toNat, 16)]
  | .cmdAnd a b => asm 0x0D000000 [(a.toNat, 20), (b.toNat, 16)]
  | .cmdOr a b => asm 0x0E000000 [(a.toNat, 20), (b.toNat, 16)]
  | .cmdShli a b n => asm 0x0F000000 [(a.toNat, 20), (b.toNat, 16), (n.toNat, 0)]
  | .cmdLd a b i => asm 0x10000000 [(a.toNat, 20), (b.toNat, 16), (i.toNat, 0)]
  | .cmdSt a b i => asm 0x11000000 [(a.toNat, 20), (b.toNat, 16), (i.toNat, 0)]
  | .cmdBeq a b o => asm 0x18000000 [(a.toNat, 20), (b.toNat, 16), (o.toNat, 0)]
  | .cmdBne a b o => asm 0x19000000 [(a.toNat, 20), (b.toNat, 16), (o.toNat, 0)]
  | .cmdBlt a b o => asm 0x1A000000 [(a.toNat, 20), (b.toNat, 16), (o.toNat, 0)]
  | .cmdLoop a o => asm 0x1B000000 [(a.toNat, 20), (o.toNat, 0)]
  | .cmdCall _ => asm 0x1C000000 []
  | .cmdRet => asm 0x1D000000 []
  | .cmdLink _ => asm 0x1E000000 []
  | .cmdLaunch a b p d => asm 0x20000000 [(a.toNat, 20), (b.toNat, 16), (p.toNat, 8), (d.toNat, 0)]
  | .cmdLaunchm a b p d => asm 0x21000000 [(a.toNat, 20), (b.toNat, 16), (p.toNat, 8), (d.toNat, 0)]
  | .cmdSplice => asm 0x22000000 []
  | .cmdChapp a b n => asm 0x23000000 [(a.toNat, 20), (b.toNat, 16), (n.toNat, 0)]
  | .cmdWait b y c => asm 0x24000000 [(b.toNat, 16), (y.toNat, 9), (c.toNat, 0)]
  | .cmdSignal b y c => asm 0x25000000 [(b.toNat, 16), (y.toNat, 9), (c.toNat, 0)]
  | .cmdFence => asm 0x26000000 []
  | _ => 0

/-- The words of an instruction or command, in address order; none for an event. -/
def encode (i : Instr) : List Word :=
  match i with
  | .cmdLil _ lit => [i.word, BitVec.ofNat 32 lit.toNat, BitVec.ofNat 32 (lit.toNat / 2 ^ 32)]
  | .cmdCall lit => [i.word, BitVec.ofNat 32 lit.toNat, BitVec.ofNat 32 (lit.toNat / 2 ^ 32)]
  | .cmdLink lit => [i.word, BitVec.ofNat 32 lit.toNat, BitVec.ofNat 32 (lit.toNat / 2 ^ 32)]
  | i => if i.isWord || i.isCommand then [i.word] else []

/-- The bytes an instruction or command stands as in memory. -/
def encodeBytes (i : Instr) : List Byte := (encode i).flatMap fun w => bytesOf 4 w.toNat

end Sys2Proof
end

