-- ==== Sys2Proof/Machine/Numbers.lean ====
section
/-! DEFINITION. The number formats, rounding and exact operations of spec/13_numbers.md (R291 to R306), on values held
exactly: a finite value is a sign, a natural significand and a power of two. A result that no dyadic number equals
carries one sticky bit below every bit that rounding reads (log entry 8). -/

namespace Sys2Proof.Machine

/-- The sticky flags of FFLAGS (R50): from bit 4 to bit 0 NV, DZ, OF, UF, NX. -/
abbrev Flags := BitVec 5

def Flags.nv : Flags := 0x10
def Flags.dz : Flags := 0x08
def Flags.of : Flags := 0x04
def Flags.uf : Flags := 0x02
def Flags.nx : Flags := 0x01

/-- The rounding modes of R300, in the order of their codes 0 to 4. -/
inductive RM where
  | nearestEven | towardZero | up | down | nearestAway
deriving DecidableEq, Repr

/-- The mode a 3-bit RM field names; 5 to 7 are never held (R38, R50, R51) and read as nearest-even. -/
def RM.ofCode : Nat → RM
  | 1 => .towardZero
  | 2 => .up
  | 3 => .down
  | 4 => .nearestAway
  | _ => .nearestEven

/-- The tags of R34, in the order of their codes. -/
inductive Tag where
  | none | f32 | f64 | f16 | bf16 | d8 | d8b | e8 | i8 | i16 | i32 | i64 | n8 | n16 | n32 | p32
deriving DecidableEq, Repr

/-- The tag of a 4-bit code (R34). -/
def Tag.ofCode : Nat → Tag
  | 1 => .f32 | 2 => .f64 | 3 => .f16 | 4 => .bf16 | 5 => .d8 | 6 => .d8b | 7 => .e8
  | 8 => .i8 | 9 => .i16 | 10 => .i32 | 11 => .i64 | 12 => .n8 | 13 => .n16 | 14 => .n32
  | 15 => .p32 | _ => .none

/-- The code of a tag (R34). -/
def Tag.code : Tag → Nat
  | .none => 0 | .f32 => 1 | .f64 => 2 | .f16 => 3 | .bf16 => 4 | .d8 => 5 | .d8b => 6 | .e8 => 7
  | .i8 => 8 | .i16 => 9 | .i32 => 10 | .i64 => 11 | .n8 => 12 | .n16 => 13 | .n32 => 14 | .p32 => 15

/-- Element bytes of a tag (R34); `none` has none and is read as 1 where a width must be named. -/
def Tag.bytes : Tag → Nat
  | .none => 1 | .f32 => 4 | .f64 => 8 | .f16 => 2 | .bf16 => 2 | .d8 => 1 | .d8b => 1 | .e8 => 1
  | .i8 => 1 | .i16 => 2 | .i32 => 4 | .i64 => 8 | .n8 => 1 | .n16 => 2 | .n32 => 4 | .p32 => 8

/-- The float tags a value can be computed in or read from: f32, f64, f16, bf16 and d8. -/
def Tag.isFloat : Tag → Bool
  | .f32 | .f64 | .f16 | .bf16 | .d8 => true
  | _ => false

def Tag.isSigned : Tag → Bool
  | .i8 | .i16 | .i32 | .i64 => true
  | _ => false

def Tag.isUnsigned : Tag → Bool
  | .n8 | .n16 | .n32 => true
  | _ => false

def Tag.isInt (t : Tag) : Bool := t.isSigned || t.isUnsigned

/-- Tags an element-wise arithmetic operand may carry (R306): any float or integer tag. -/
def Tag.isNum (t : Tag) : Bool := t.isFloat || t.isInt

/-- Bits of a tag's element. -/
def Tag.width (t : Tag) : Nat := 8 * t.bytes

/-- A binary floating-point format (R291): exponent bits and fraction bits. -/
structure Fmt where
  ebits : Nat
  fbits : Nat
deriving DecidableEq, Repr

def Fmt.f32 : Fmt := ⟨8, 23⟩
def Fmt.f64 : Fmt := ⟨11, 52⟩
def Fmt.bf16 : Fmt := ⟨8, 7⟩
def Fmt.f16 : Fmt := ⟨5, 10⟩

def Fmt.bias (f : Fmt) : Int := 2 ^ (f.ebits - 1) - 1
/-- Exponent of the smallest subnormal. -/
def Fmt.emin (f : Fmt) : Int := 1 - f.bias - f.fbits
/-- Exponent of the last place of the largest finite value. -/
def Fmt.emax (f : Fmt) : Int := f.bias - f.fbits
/-- All bits but the sign. -/
def Fmt.mag (f : Fmt) : Nat := 2 ^ (f.ebits + f.fbits)

/-- The scalar formats in the order of func[10:8] (R105). -/
def Fmt.ofCode : Nat → Fmt
  | 1 => .f64
  | 2 => .bf16
  | 3 => .f16
  | _ => .f32

def Fmt.bits (f : Fmt) : Nat := 1 + f.ebits + f.fbits

/-- The binary format in which a float tag is computed; d8 reads and computes as f32 (R294, R306). -/
def Tag.fmt : Tag → Fmt
  | .f64 => .f64
  | .f16 => .f16
  | .bf16 => .bf16
  | _ => .f32

/-- A float value: a NaN with its sign and its fraction left-aligned to 52 bits (bit 51 the quiet bit), an infinity,
or a finite value ± m × 2^e. -/
inductive FVal where
  | nan (neg : Bool) (frac : BitVec 52)
  | inf (neg : Bool)
  | fin (neg : Bool) (m : Nat) (e : Int)
deriving DecidableEq, Repr

namespace FVal

def isNan : FVal → Bool
  | nan _ _ => true
  | _ => false

/-- A signalling NaN: top fraction bit 0 (R291). -/
def isSnan : FVal → Bool
  | nan _ fr => !fr.getLsbD 51
  | _ => false

def isInf : FVal → Bool
  | inf _ => true
  | _ => false

def isZero : FVal → Bool
  | fin _ 0 _ => true
  | _ => false

def neg? : FVal → Bool
  | nan n _ => n
  | inf n => n
  | fin n _ _ => n

/-- The NaN with its quiet bit set (R304); other values are unchanged. -/
def quiet : FVal → FVal
  | nan n fr => nan n (fr ||| 0x8000000000000)
  | x => x

/-- The sign inverted. -/
def negate : FVal → FVal
  | nan n fr => nan (!n) fr
  | inf n => inf (!n)
  | fin n m e => fin (!n) m e

def zero : FVal := fin false 0 0
def one : FVal := fin false 1 0
/-- The default NaN of every format (R291). -/
def dnan : FVal := nan false 0x8000000000000
/-- The exact value of an integer; 0 is +0. -/
def ofInt (x : Int) : FVal := fin (decide (x < 0)) x.natAbs 0

end FVal

/-- The value of the encoded bits of a binary format (R291). -/
def Fmt.decode (f : Fmt) (b : Nat) : FVal :=
  let neg := b / f.mag % 2 == 1
  let ex := b / 2 ^ f.fbits % 2 ^ f.ebits
  let fr := b % 2 ^ f.fbits
  if ex = 2 ^ f.ebits - 1 then
    if fr = 0 then .inf neg else .nan neg (BitVec.ofNat 52 (fr * 2 ^ (52 - f.fbits)))
  else if ex = 0 then .fin neg fr f.emin
  else .fin neg (2 ^ f.fbits + fr) (ex - 1 + f.emin)

/-- `m / 2^sh` rounded to an integer in the given mode for a value of the given sign, and whether it was inexact
(R300). A non-positive `sh` multiplies exactly. -/
def roundShift (rm : RM) (neg : Bool) (m : Nat) (sh : Int) : Nat × Bool :=
  if sh ≤ 0 then (m * 2 ^ (-sh).toNat, false)
  else
    let d := 2 ^ sh.toNat
    let q := m / d
    let r := m % d
    let up : Bool :=
      match rm with
      | .nearestEven => decide (2 * r > d) || (decide (2 * r = d) && q % 2 == 1)
      | .towardZero => false
      | .up => decide (r ≠ 0) && !neg
      | .down => decide (r ≠ 0) && neg
      | .nearestAway => decide (2 * r ≥ d)
    (if up then q + 1 else q, decide (r ≠ 0))

/-- The encoded bits of a sign, an exponent field and a fraction. -/
def Fmt.pack (f : Fmt) (neg : Bool) (ex fr : Nat) : Nat := b2n neg * f.mag + ex * 2 ^ f.fbits + fr

/-- The result of an overflow (R301). -/
def Fmt.overflow (f : Fmt) (rm : RM) (neg : Bool) : Nat :=
  let infinity := f.pack neg (2 ^ f.ebits - 1) 0
  let largest := f.pack neg (2 ^ f.ebits - 2) (2 ^ f.fbits - 1)
  match rm with
  | .nearestEven => infinity
  | .nearestAway => infinity
  | .towardZero => largest
  | .up => if neg then largest else infinity
  | .down => if neg then infinity else largest

/-- A result is tiny when its magnitude, rounded with unbounded exponent range, is nonzero and below the smallest
normal (R301; log entry 7). -/
def Fmt.tiny (f : Fmt) (rm : RM) (neg : Bool) (m : Nat) (e : Int) : Bool :=
  let top : Int := e + m.log2
  let r := (roundShift rm neg m (top - f.fbits - e)).1
  let top' : Int := if r = 2 ^ (f.fbits + 1) then top + 1 else top
  decide (top' < f.emin + f.fbits)

/-- RoundTo for a binary float tag (R300, R301, R304). -/
def Fmt.roundTo (f : Fmt) (rm : RM) (x : FVal) : Nat × Flags :=
  match x with
  | .nan neg fr =>
    (f.pack neg (2 ^ f.ebits - 1) ((fr ||| 0x8000000000000).toNat / 2 ^ (52 - f.fbits)),
      if x.isSnan then Flags.nv else 0)
  | .inf neg => (f.pack neg (2 ^ f.ebits - 1) 0, 0)
  | .fin neg m e =>
    if m = 0 then (f.pack neg 0 0, 0)
    else
      let q0 : Int := max (e + m.log2 - f.fbits) f.emin
      let (r0, inexact) := roundShift rm neg m (q0 - e)
      let carry := decide (r0 = 2 ^ (f.fbits + 1))
      let r := if carry then 2 ^ f.fbits else r0
      let q := if carry then q0 + 1 else q0
      if q > f.emax then (f.overflow rm neg, Flags.of ||| Flags.nx)
      else
        let fl := (if inexact then Flags.nx else 0) |||
          (if inexact && f.tiny rm neg m e then Flags.uf else 0)
        if r < 2 ^ f.fbits then (f.pack neg 0 r, fl)
        else (f.pack neg ((q - f.emin).toNat + 1) (r - 2 ^ f.fbits), fl)

/-- A positive rational as a finite value with a sticky bit (exact when the division is). -/
def ratVal (neg : Bool) (num den : Nat) (k : Nat) : FVal :=
  let q := num * 2 ^ k / den
  let r := num * 2 ^ k % den
  .fin neg (2 * q + (if r = 0 then 0 else 1)) (-(k : Int) - 1)

/-- Order of two finite magnitudes. -/
def magLt (m1 : Nat) (e1 : Int) (m2 : Nat) (e2 : Int) : Bool :=
  let e := min e1 e2
  decide (m1 * 2 ^ (e1 - e).toNat < m2 * 2 ^ (e2 - e).toNat)

/-- A finite value as an integer count of 2^e, for an `e` at or below its exponent. -/
def scaledInt (neg : Bool) (m : Nat) (e0 e : Int) : Int :=
  let v : Int := m * 2 ^ (e0 - e).toNat
  if neg then -v else v

/-- Floor square root by bits from the top, `n` bits of result. -/
def isqrtAux : Nat → Nat → Nat → Nat
  | 0, _, r => r
  | n + 1, x, r =>
    let t := r + 2 ^ n
    isqrtAux n x (if t * t ≤ x then t else r)

/-- Floor of the square root. -/
def isqrt (x : Nat) : Nat := isqrtAux (x.log2 / 2 + 1) x 0

/-! ### d8 (R293 to R295) -/

/-- The real value of a finite nonzero d8 body as a rational: numerator, denominator. -/
def d8Real (body : Nat) : Nat × Nat :=
  let mk (fr fw : Nat) (e : Int) : Nat × Nat :=
    if e ≥ 0 then ((2 ^ fw + 9 * fr) * 10 ^ e.toNat, 2 ^ fw)
    else (2 ^ fw + 9 * fr, 2 ^ fw * 10 ^ (-e).toNat)
  if body ≥ 0x40 then mk (body - 0x40) 6 0
  else if body ≥ 0x20 then mk (body % 16) 4 (if body % 32 < 16 then -1 else 1)
  else if body ≥ 0x10 then
    mk (body % 4) 2 (match body % 16 / 4 with | 0 => -3 | 1 => -2 | 2 => 2 | _ => 3)
  else if body ≥ 8 then
    mk 0 0 (match body % 8 with | 0 => -7 | 1 => -6 | 2 => -5 | 3 => -4 | 4 => 4 | 5 => 5 | 6 => 6 | _ => 7)
  else if body ≥ 4 then mk 0 0 (match body % 4 with | 0 => -9 | 1 => -8 | 2 => 8 | _ => 9)
  else mk 0 0 (if body % 2 = 0 then -10 else 10)

/-- A d8 code read as its decoded f32 value (R294). -/
def d8Decode (code : Nat) : FVal :=
  let neg := code / 128 % 2 == 1
  let body := code % 128
  if body = 0 then (if neg then .dnan else .zero)
  else if body = 1 then .inf neg
  else
    let (n, d) := d8Real body
    Fmt.f32.decode (Fmt.f32.roundTo .nearestEven (ratVal neg n d 96)).1

/-- Magnitude of a finite d8 body's decoded value: significand and exponent. -/
def d8Mag (body : Nat) : Nat × Int :=
  match d8Decode body with
  | .fin _ m e => (m, e)
  | _ => (0, 0)

/-- The d8 bodies 0x00 and 0x02 to 0x7F in rising order of magnitude (R293). -/
def d8Order : List Nat :=
  [0x00, 0x02, 0x04, 0x05] ++ [0x08, 0x09, 0x0A, 0x0B] ++ (List.range 8).map (0x10 + ·) ++
  (List.range 16).map (0x20 + ·) ++ (List.range 64).map (0x40 + ·) ++ (List.range 16).map (0x30 + ·) ++
  (List.range 8).map (0x18 + ·) ++ [0x0C, 0x0D, 0x0E, 0x0F] ++ [0x06, 0x07, 0x03]

/-- The greatest body at or below the magnitude, and the next one above it if there is one. -/
def d8Around (m : Nat) (e : Int) : List Nat → Nat → Nat × Option Nat
  | [], lo => (lo, Option.none)
  | b :: rest, lo =>
    let (mb, eb) := d8Mag b
    if magLt m e mb eb then (lo, some b) else d8Around m e rest b

/-- The body a nearest-even tie between two neighbouring bodies takes (R295 step 3). -/
def d8TieEven (lo hi : Nat) : Nat :=
  if lo = 0 then hi
  else if lo = 2 && hi = 4 then lo
  else if lo = 7 && hi = 3 then lo
  else if lo % 2 = 0 then lo else hi

/-- RoundTo(d8, x, rm) (R295). -/
def d8Round (rm : RM) (x : FVal) : Nat × Flags :=
  match x with
  | .nan _ _ => (0x80, if x.isSnan then Flags.nv else 0)
  | .inf neg => (if neg then 0x81 else 0x01, 0)
  | .fin neg m e =>
    if m = 0 then (0, 0)
    else
      let (lo, hi?) := d8Around m e d8Order 0
      let (ml, el) := d8Mag lo
      let exact := !(magLt ml el m e)
      let sign := fun b => if b = 0 then 0 else b + 128 * b2n neg
      if exact then (sign lo, 0)
      else
        match hi? with
        | Option.none => (sign lo, Flags.of ||| Flags.nx)
        | some hi =>
          let (mh, eh) := d8Mag hi
          let k := min e (min el eh)
          let x' := m * 2 ^ (e - k).toNat
          let l' := ml * 2 ^ (el - k).toNat
          let h' := mh * 2 ^ (eh - k).toNat
          let body :=
            match rm with
            | .nearestEven =>
              if x' - l' < h' - x' then lo else if h' - x' < x' - l' then hi else d8TieEven lo hi
            | .nearestAway => if x' - l' < h' - x' then lo else hi
            | .towardZero => lo
            | .up => if neg then lo else hi
            | .down => if neg then hi else lo
          (sign body, Flags.nx ||| (if lo = 0 then Flags.uf else 0))

/-! ### Integers (R302) -/

/-- Least and greatest value of an integer tag; e8 counts as i8 (R324). -/
def Tag.minInt (t : Tag) : Int := if t.isUnsigned then 0 else -(2 ^ (t.width - 1))
def Tag.maxInt (t : Tag) : Int := if t.isUnsigned then 2 ^ t.width - 1 else 2 ^ (t.width - 1) - 1

/-- The value of an integer element's bits, signed or unsigned by its tag. -/
def Tag.readInt (t : Tag) (b : Nat) : Int :=
  let v := b % 2 ^ t.width
  if t.isUnsigned || v < 2 ^ (t.width - 1) then (v : Int) else (v : Int) - 2 ^ t.width

/-- The element bits of an integer, modulo 2^width. -/
def Tag.intBits (t : Tag) (x : Int) : Nat := (x % (2 ^ t.width : Int)).toNat

/-- The nearest end of the range, and whether the value lay outside it. -/
def Tag.clamp (t : Tag) (x : Int) : Int × Bool :=
  if x < t.minInt then (t.minInt, true) else if x > t.maxInt then (t.maxInt, true) else (x, false)

/-- A float value rounded to an integer (R302): the integer, saturated to [lo, hi], and the flags. A NaN gives `hi`. -/
def floatToInt (rm : RM) (lo hi : Int) (x : FVal) : Int × Flags :=
  match x with
  | .nan _ _ => (hi, Flags.nv)
  | .inf neg => (if neg then lo else hi, Flags.nv)
  | .fin neg m e =>
    let (r, inexact) := roundShift rm neg m (-e)
    let v : Int := if neg then -(r : Int) else r
    if v < lo then (lo, Flags.nv)
    else if v > hi then (hi, Flags.nv)
    else (v, if inexact then Flags.nx else 0)

/-! ### Values under a tag -/

/-- An element's value: an exact integer or a float value. -/
inductive Val where
  | int (x : Int)
  | flt (x : FVal)
deriving DecidableEq, Repr

/-- The value of element bits under a tag: e8 as an i8 (R292, R324), d8 and d8b by their decoded f32 value. -/
def Tag.read (t : Tag) (b : Nat) : Val :=
  match t with
  | .f32 => .flt (Fmt.f32.decode b)
  | .f64 => .flt (Fmt.f64.decode b)
  | .f16 => .flt (Fmt.f16.decode b)
  | .bf16 => .flt (Fmt.bf16.decode b)
  | .d8 => .flt (d8Decode (b % 256))
  | .d8b => .flt (d8Decode (b % 256))
  | t => .int (t.readInt b)

/-- The exact value as a float value. -/
def Val.toF : Val → FVal
  | .int x => .ofInt x
  | .flt x => x

/-- RoundTo(t, v, rm) of R9, R295, R300 to R302, R324: the element bits and the flags. -/
def Tag.roundTo (t : Tag) (rm : RM) (v : Val) : Nat × Flags :=
  match t with
  | .f32 => Fmt.f32.roundTo rm v.toF
  | .f64 => Fmt.f64.roundTo rm v.toF
  | .f16 => Fmt.f16.roundTo rm v.toF
  | .bf16 => Fmt.bf16.roundTo rm v.toF
  | .d8 => d8Round rm v.toF
  | .d8b => d8Round rm v.toF
  | t =>
    match v with
    | .int x => (t.intBits (t.clamp x).1, 0)
    | .flt x =>
      let (r, fl) := floatToInt rm t.minInt t.maxInt x
      (t.intBits r, fl)

/-- The common type of two operand tags (R306). -/
def commonTag (a b : Tag) : Tag :=
  if a = .f64 || b = .f64 then .f64
  else if a.isFloat || b.isFloat then
    if a = b && a ≠ .d8 then a
    else .f32
  else
    match a.isSigned, b.isSigned with
    | true, true => if a.bytes ≥ b.bytes then a else b
    | false, false => if a.bytes ≥ b.bytes then a else b
    | true, false => mixed a b
    | false, true => mixed b a
where
  /-- Signed `i` with unsigned `n`: the signed tag of the wider width, or of twice the unsigned width. -/
  mixed (i n : Tag) : Tag :=
    if i.bytes > n.bytes then i
    else match n with
      | .n8 => .i16
      | .n16 => .i32
      | _ => .i64

/-- The common type when there is one operand: its own tag, with d8 computed in f32 (R316, R322). -/
def soleTag (a : Tag) : Tag := if a = .d8 || a = .d8b then .f32 else a

/-- An operand converted to the common type by RoundTo (R306): its value in C and the flags of the conversion. -/
def toCommon (c : Tag) (rm : RM) (v : Val) : Val × Flags :=
  if c.isFloat then
    match v with
    | .flt x => (.flt x, 0)
    | .int _ =>
      let (b, fl) := c.roundTo rm v
      (c.read b, fl)
  else (v, 0)

/-- Two's complement in the width of an integer tag (R314). -/
def Tag.wrap (t : Tag) (x : Int) : Int := t.readInt (t.intBits x)

/-- ToDest of R314: an exact value of the operation in its common type, rounded to it and then to the destination's
tag. -/
def toDest (c td : Tag) (rm : RM) (v : Val) : Nat × Flags :=
  let (y, f1) := c.roundTo rm v
  if td = c then (y, f1)
  else
    let (z, f2) := td.roundTo rm (c.read y)
    (z, f1 ||| f2)

/-! ### Exact operations on float values -/

/-- The first NaN operand, quieted (R304). -/
def firstNan : List FVal → Option FVal
  | [] => Option.none
  | x :: rest => if x.isNan then some x.quiet else firstNan rest

/-- NV for any signalling NaN operand (R304). -/
def snanFlag (xs : List FVal) : Flags := if xs.any FVal.isSnan then Flags.nv else 0

/-- The sum of two values that are not NaN (R301): an exact zero sum of unlike signs is +0, or −0 under down. -/
def addNum (rm : RM) (x y : FVal) : FVal × Flags :=
  match x, y with
  | .inf a, .inf b => if a = b then (.inf a, 0) else (.dnan, Flags.nv)
  | .inf a, _ => (.inf a, 0)
  | _, .inf b => (.inf b, 0)
  | .fin n1 m1 e1, .fin n2 m2 e2 =>
    let e := min e1 e2
    let v := scaledInt n1 m1 e1 e + scaledInt n2 m2 e2 e
    if v = 0 then
      if m1 = 0 && m2 = 0 && n1 = n2 then (.fin n1 0 0, 0)
      else (.fin (decide (rm = .down)) 0 0, 0)
    else (.fin (decide (v < 0)) v.natAbs e, 0)
  | _, _ => (.dnan, 0)

/-- The product of two values that are not NaN. -/
def mulNum (x y : FVal) : FVal × Flags :=
  match x, y with
  | .fin n1 m1 e1, .fin n2 m2 e2 => (.fin (n1 != n2) (m1 * m2) (e1 + e2), 0)
  | x, y =>
    if x.isZero || y.isZero then (.dnan, Flags.nv) else (.inf (x.neg? != y.neg?), 0)

/-- x + y (R106, R301, R304). -/
def fAdd (rm : RM) (x y : FVal) : FVal × Flags :=
  match firstNan [x, y] with
  | some n => (n, snanFlag [x, y])
  | Option.none => addNum rm x y

/-- x − y: y's sign is inverted, but a NaN operand counts as it stands (R107). -/
def fSub (rm : RM) (x y : FVal) : FVal × Flags :=
  match firstNan [x, y] with
  | some n => (n, snanFlag [x, y])
  | Option.none => addNum rm x y.negate

/-- x × y. -/
def fMul (x y : FVal) : FVal × Flags :=
  match firstNan [x, y] with
  | some n => (n, snanFlag [x, y])
  | Option.none => mulNum x y

/-- ± x × y ± c with no rounding: `np` inverts the product, `nc` the addend. A NaN addend gives way to an invalid
product only in the flag (R304). -/
def fFma (rm : RM) (np nc : Bool) (x y c : FVal) : FVal × Flags :=
  let invalid := (x.isZero && y.isInf) || (x.isInf && y.isZero)
  match firstNan [x, y, c] with
  | some n => (n, snanFlag [x, y, c] ||| (if invalid then Flags.nv else 0))
  | Option.none =>
    if invalid then (.dnan, Flags.nv)
    else
      let p := (mulNum x y).1
      addNum rm (if np then p.negate else p) (if nc then c.negate else c)

/-- x / y with a sticky quotient (R106, R107). -/
def fDiv (x y : FVal) : FVal × Flags :=
  match firstNan [x, y] with
  | some n => (n, snanFlag [x, y])
  | Option.none =>
    let neg := x.neg? != y.neg?
    match x, y with
    | .inf _, .inf _ => (.dnan, Flags.nv)
    | .inf _, _ => (.inf neg, 0)
    | _, .inf _ => (.fin neg 0 0, 0)
    | .fin _ m1 e1, .fin _ m2 e2 =>
      if m2 = 0 then (if m1 = 0 then (.dnan, Flags.nv) else (.inf neg, Flags.dz))
      else if m1 = 0 then (.fin neg 0 0, 0)
      else
        match ratVal neg m1 m2 (m2.log2 + 64) with
        | .fin n m e => (.fin n m (e + e1 - e2), 0)
        | v => (v, 0)
    | _, _ => (.dnan, 0)

/-- The square root with a sticky bit. -/
def fSqrt (x : FVal) : FVal × Flags :=
  match x with
  | .nan _ _ => (x.quiet, snanFlag [x])
  | .inf neg => if neg then (.dnan, Flags.nv) else (x, 0)
  | .fin neg m e =>
    if m = 0 then (x, 0)
    else if neg then (.dnan, Flags.nv)
    else
      let odd := e % 2 = 1
      let m' := if odd then 2 * m else m
      let e' := if odd then e - 1 else e
      let v := m' * 2 ^ 128
      let r := isqrt v
      (.fin false (2 * r + (if r * r = v then 0 else 1)) (e' / 2 - 64 - 1), 0)

/-- Lesser or greater, −0 below +0 (R106); the first NaN as for the arithmetic members (R107). -/
def fMinMax (isMax : Bool) (x y : FVal) : FVal × Flags :=
  match firstNan [x, y] with
  | some n => (n, snanFlag [x, y])
  | Option.none => (if less x y then (if isMax then y else x) else (if isMax then x else y), 0)
where
  /-- x ranks below y, with −0 below +0. -/
  less (x y : FVal) : Bool :=
    match x, y with
    | .inf a, .inf b => a && !b
    | .inf a, _ => a
    | _, .inf b => !b
    | .fin n1 m1 e1, .fin n2 m2 e2 =>
      if m1 = 0 && m2 = 0 then n1 && !n2
      else
        let e := min e1 e2
        decide (scaledInt n1 m1 e1 e < scaledInt n2 m2 e2 e)
    | _, _ => false

/-- a = b for values that are not NaN; −0 equals +0. -/
def fEqNum (x y : FVal) : Bool :=
  match x, y with
  | .inf a, .inf b => a == b
  | .fin n1 m1 e1, .fin n2 m2 e2 =>
    let e := min e1 e2
    decide (scaledInt n1 m1 e1 e = scaledInt n2 m2 e2 e)
  | _, _ => false

/-- a < b for values that are not NaN; −0 equals +0. -/
def fLtNum (x y : FVal) : Bool := fMinMax.less x y && !fEqNum x y

/-- The class of R106's `fclass`: 0 −∞ to 9 quiet NaN. A value is subnormal when its exponent field is zero. -/
def Fmt.classOf (f : Fmt) (x : FVal) : Nat :=
  match x with
  | .nan _ _ => if x.isSnan then 8 else 9
  | .inf neg => if neg then 0 else 7
  | .fin neg m e =>
    if m = 0 then (if neg then 3 else 4)
    else if magLt m e (2 ^ f.fbits) f.emin then (if neg then 2 else 5)
    else (if neg then 1 else 6)

/-! ### The correctly rounded functions (R322, R323, R326) -/

/-- 1 / a. -/
def fRcp (x : FVal) : FVal × Flags := fDiv .one x

/-- 1 / √a with a sticky bit. -/
def fRsq (x : FVal) : FVal × Flags :=
  match x with
  | .nan _ _ => (x.quiet, snanFlag [x])
  | .inf neg => if neg then (.dnan, Flags.nv) else (.zero, 0)
  | .fin neg m e =>
    if m = 0 then (.inf neg, Flags.dz)
    else if neg then (.dnan, Flags.nv)
    else
      let odd := e % 2 = 1
      let m' := if odd then 2 * m else m
      let e' := if odd then e - 1 else e
      let k := m'.log2 + 128
      let r := isqrt (2 ^ (2 * k) / m')
      (.fin false (2 * r + (if r * r * m' = 2 ^ (2 * k) then 0 else 1)) (-(e' / 2) - k - 1), 0)

/-- Sum of the first terms of atanh(1/3) = Σ (1/3)^(2k+1)/(2k+1), scaled by 2^n. -/
def atanhThird : Nat → Nat → Nat → Nat
  | 0, _, _ => 0
  | t + 1, k, p => p / (2 * k + 1) + atanhThird t (k + 1) (p / 9)

/-- ln 2 scaled by 2^n, from below, within 2^-(n-12). -/
def ln2 (n : Nat) : Nat := 2 * atanhThird (n / 3 + 2) 0 (2 ^ n / 3)

/-- Σ y^k / k! from term k, for y scaled by 2^n; the terms fall at least by y / k. -/
def expSeries (n : Nat) (y : Int) : Nat → Nat → Int → Int
  | 0, _, _ => 0
  | t + 1, k, term => term + expSeries n y t (k + 1) (term * y / (2 ^ n * (k + 1)))

/-- 2^a for −1 < a < 1, a ≠ 0, from a bracket of `192 −` (exponent of a) bits (log entry 8). -/
def exp2Core (neg : Bool) (m : Nat) (e : Int) : FVal :=
  let n : Nat := 192 + (-(e + m.log2)).toNat
  let a : Int := scaledFloor neg m e n
  let y : Int := a * ln2 n / 2 ^ n
  let r := expSeries n y (n / 2 + 8) 0 (2 ^ n)
  .fin false (2 * r.toNat + 1) (-(n : Int) - 1)
where
  /-- ± m × 2^e as a count of 2^-n, exact or floored. -/
  scaledFloor (neg : Bool) (m : Nat) (e : Int) (n : Nat) : Int :=
    let sh := e + n
    let v : Int := if sh ≥ 0 then m * 2 ^ sh.toNat else m / 2 ^ (-sh).toNat
    if neg then -v else v

/-- `vexp2f`: 2^a on −1 ≤ a ≤ 1 (R322). -/
def fExp2 (x : FVal) : FVal × Flags :=
  match x with
  | .nan _ _ => (x.quiet, snanFlag [x])
  | .inf _ => (.dnan, Flags.nv)
  | .fin neg m e =>
    if m = 0 then (.one, 0)
    else if magLt 1 0 m e then (.dnan, Flags.nv)
    else if !(magLt m e 1 0) then (if neg then .fin false 1 (-1) else .fin false 1 1, 0)
    else (exp2Core neg m e, 0)

/-- Fraction bits of log2 of f in [1, 2), f scaled by 2^p, by repeated squaring. -/
def log2Bits (p : Nat) : Nat → Nat → Nat → Nat
  | 0, _, acc => acc
  | t + 1, f, acc =>
    let sq := f * f / 2 ^ p
    if sq ≥ 2 ^ (p + 1) then log2Bits p t (sq / 2) (2 * acc + 1) else log2Bits p t sq (2 * acc)

/-- `vlog2f`: log2 a (R322), from 224 bits of fraction (log entry 8). -/
def fLog2 (x : FVal) : FVal × Flags :=
  match x with
  | .nan _ _ => (x.quiet, snanFlag [x])
  | .inf neg => if neg then (.dnan, Flags.nv) else (x, 0)
  | .fin neg m e =>
    if m = 0 then (.inf true, Flags.dz)
    else if neg then (.dnan, Flags.nv)
    else
      let k := m.log2
      let top : Int := e + k
      if m = 2 ^ k then (.ofInt top, 0)
      else
        let p : Nat := 512
        let fr := log2Bits p 224 (m * 2 ^ p / 2 ^ k) 0
        let v : Int := top * 2 ^ 224 + fr
        if v ≥ 0 then (.fin false (2 * v.toNat + 1) (-225), 0)
        else (.fin true (2 * v.natAbs - 1) (-225), 0)

/-- `vrndi`: the integral value in the direction of rm, keeping the sign (R323). -/
def fRndi (rm : RM) (x : FVal) : FVal × Flags :=
  match x with
  | .nan _ _ => (x.quiet, snanFlag [x])
  | .inf _ => (x, 0)
  | .fin neg m e => (.fin neg (roundShift rm neg m (-e)).1 0, 0)

/-- `vgetexp`: floor(log2 |a|) (R323). -/
def fGetexp (x : FVal) : FVal × Flags :=
  match x with
  | .nan _ _ => (x.quiet, snanFlag [x])
  | .inf _ => (.inf false, 0)
  | .fin _ m e => if m = 0 then (.inf true, Flags.dz) else (.ofInt (e + m.log2), 0)

/-- `vscale`: a × 2^n, n an integer, or a float truncated toward zero (R326). -/
def fScale (x : FVal) (n : Val) : FVal × Flags :=
  let by2 (k : Int) : FVal :=
    match x with
    | .fin neg m e => .fin neg m (e + max (-5000) (min 5000 k))
    | y => y
  match n with
  | .int k => if x.isNan then (x.quiet, snanFlag [x]) else (by2 k, 0)
  | .flt y =>
    match firstNan [x, y] with
    | some v => (v, snanFlag [x, y])
    | Option.none =>
      match y with
      | .inf false => if x.isZero then (.dnan, Flags.nv) else (.inf x.neg?, 0)
      | .inf true => if x.isInf then (.dnan, Flags.nv) else (.fin x.neg? 0 0, 0)
      | .fin neg m e =>
        let k : Nat := (roundShift .towardZero neg m (-e)).1
        (by2 (if neg then -(k : Int) else k), 0)
      | .nan _ _ => (.dnan, 0)

/-! ### Affine pairs (R297 to R299) -/

/-- FlushGain (R299): a nonzero magnitude below 2^−126 becomes ±0; the second part says that it was flushed. -/
def flushGain (x : FVal) : FVal × Bool :=
  match x with
  | .fin neg m e =>
    if m ≠ 0 && magLt m e 1 (-126) then (.fin neg 0 0, true) else (x, false)
  | _ => (x, false)

/-- Compose(a2, b2, a1, b1, rm) on f32 bits (R297): the 64-bit pair, gain high, and the flags. -/
def compose (rm : RM) (a2 b2 a1 b1 : Nat) : Nat × Flags :=
  let g2 := (flushGain (Fmt.f32.decode a2)).1
  let g1 := (flushGain (Fmt.f32.decode a1)).1
  let o2 := Fmt.f32.decode b2
  let o1 := Fmt.f32.decode b1
  let (p, fp) := fMul g2 g1
  let (g, fg) := Fmt.f32.roundTo rm p
  let (gz, flushed) := flushGain (Fmt.f32.decode g)
  let g' := if flushed then (Fmt.f32.roundTo rm gz).1 else g
  let invalid := (g2.isZero && o1.isInf) || (g2.isInf && o1.isZero)
  let (x, fx) :=
    match firstNan [g2, o1, o2] with
    | some n => (n, snanFlag [g2, o1, o2] ||| (if invalid then Flags.nv else 0))
    | Option.none => fFma rm false false g2 o1 o2
  let (o, fo) := Fmt.f32.roundTo rm x
  (g' * 2 ^ 32 + o, fp ||| fg ||| (if flushed then Flags.uf ||| Flags.nx else 0) ||| fx ||| fo)

end Sys2Proof.Machine
end

