-- ==== Sys2Proof/Machine/State.lean ====
section
/-! DEFINITION. Everything the TZ960 holds (INVENTORY.md '## State'), as plain data, and its value after a cold start. Tables keyed by a number
(contexts, mills, registers, counters) are lists of pairs in rising key order; an absent key reads as the reset value that
Sys2Proof/Machine/Ops.lean names for it. Memories are lists of cells in rising address order with no zero byte. -/

namespace Sys2Proof.Machine

/-- Why a step of the model stops. -/
inductive Fault where
  /-- Raised by `step` when the agenda, which is the model's own (log entry 3), names an agent or a parameter that the
  device does not have. Safe: no hardware state follows from such a turn. -/
  | noSuchAgent
deriving DecidableEq, Repr

/-- Why an instruction has no meaning in the model. -/
inductive Refusal where
  /-- Raised by an arm of `exec` whose instruction is not modelled. Safe: the run stops there. -/
  | notModelled (mnemonic : String)
deriving DecidableEq, Repr

/-- A table keyed by a number. -/
abbrev Assoc (α : Type) := List (Nat × α)

/-- A memory: cells in strictly rising address order, none holding zero (log entry 1). -/
abbrev Mem := List Host.Cell

/-- The three states of a context or core (R253). -/
inductive Life where
  | free | running | stopped
deriving DecidableEq, Repr

/-- What a context waits for, with all that its condition needs (R276). -/
inductive Wait where
  /-- Room in the vector queue (R271). -/
  | vectorQueue
  /-- Room in the external queue (R115). -/
  | externalQueue
  /-- Registers that an access or a vector instruction has yet to write (R116, R211, R337). -/
  | pendingRegister (rs : List Nat)
  /-- At most `n` incomplete external queue entries (R117). -/
  | waitx (n : Nat)
  /-- Every earlier vector instruction (R54), and on a core every matrix operation (R376). -/
  | earlier
  /-- The same before a `brk`, whose debug stop names the convoy drained last (R124, R493). -/
  | brk
  /-- What makes an effect that another context could observe provisional (R449). -/
  | certain
  /-- A value of the global timer (R122). -/
  | sleep (t : Dword)
  /-- A value of a sequence counter (R216). -/
  | counter (n : Nat) (v : Dword)
  /-- The release conditions of R166. -/
  | release
  /-- The condition of `fence.v`, or with `whole` of `fence.s`, under a mask (R164, R213). -/
  | fence (whole : Bool) (m : BitVec 16)
  /-- No incomplete access through a view register (R203). -/
  | views (n : Nat)
  /-- No incomplete access through a view that meets this one (R113, R157, R202). -/
  | meets (d : Line)
  /-- Room for pins on some pages (R178, R409). -/
  | pin (ps : List (Nat × Nat))
  /-- Room for a binding at a port (R232). -/
  | port (p : Nat)
  /-- The element of a stream that an element group needs last (R197, R237). -/
  | element (q j : Nat)
  /-- The accesses before one through view w: those it keeps its order with (R113, R157, R161), and, where another agent could see it, what
  makes it provisional (R449). -/
  | order (w : Nat) (seen : Bool)
  /-- A count of outstanding accesses through a view below 4,095 (R163). -/
  | viewCount (n : Nat)
  /-- A free draining entry of the live-view directory (R163). -/
  | draining
  /-- The count condition of `sqwait` (R217). -/
  | streamCount (q t : Nat)
  /-- The end of a stream's accesses, and of other readers' reads (R233). -/
  | unbind (q : Nat)
  /-- Members of the gang that have not joined (R234), or not pushed (R235). -/
  | gang | gangSetvl
  /-- Members of the group's open episode that have not arrived (R261). -/
  | gbar
  /-- A child, or with 0 every child (R264, R123). -/
  | joinl (h : Nat)
  /-- The element threads of a `vfetch` (R265). -/
  | blocks
  /-- Room in the queues of some arrays (R359). -/
  | arrays (as : List Nat)
deriving DecidableEq, Repr

/-- A tree stack (R48). -/
structure Tree where
  levels : Vector Word 32
  mask : Word
  base : Dword
  count : Dword
deriving DecidableEq, Repr

/-- A bound stream register (R45, R457): the context whose `strm` bound it, and the port of that context's mill; the
arrived elements stand in the port's binding. -/
structure StreamReg where
  owner : Nat
  port : Nat
  desc : Line
  write : Bool
  gang : Bool
  next : Nat
deriving DecidableEq, Repr

/-- The scalar side of a context as it stood when a vector instruction was pushed: what a discard restores (R449), with what the
instructions before it have written since. -/
structure Checkpoint where
  sregs : Vector Dword 32
  fflags : Flags
  instret : Dword
  frm : BitVec 3
  replay : List Nat
  keys : Dword × Dword
  share : Nat
  pincap : Nat
deriving DecidableEq, Repr

/-- The view an access was issued through (R162, R202): its register, its descriptor, and, once a `vwset` has reloaded the
register, the draining entry of the mill's live-view directory that counts the access (R163). -/
structure Via where
  reg : Nat
  desc : Line
  drain : Option Nat
deriving DecidableEq, Repr

/-- A vector queue entry (R456), with the VTYPE, tags and carry set it decodes under (R36), the scalar register it will
write (0 for none), the view it named at its push (R202), the scalar registers and the views as they stood at the push of a `vfetch` (R265), and
what a discard at it restores (R449). `done` marks a member of the convoy in flight that has completed before an earlier one, or a `vbfly.c`
that has completed before its reader. `first` is the element at which it began in this mill (R485), and `holds` names the streams of its context whose
start waits for it (R173). -/
structure VqEntry where
  word : Word
  pc : Nat
  sa : Dword
  sb : Dword
  grant : Nat
  pad : Nat
  granted : Bool
  chain : Bool
  begun : Bool
  done : Bool
  start : Nat
  keys : Dword × Dword
  vtype : Dword
  vtag : BitVec 256
  vcarry : Word
  vfoldop : Dword
  dest : Nat
  via : Option Via
  regs : Option (Vector Dword 32)
  sees : Option (Vector (Option Line) 16)
  first : Nat
  holds : List Nat
  check : Option Checkpoint
deriving DecidableEq, Repr

/-- A scan that has begun (R354, R454): the carry read at its start and the pending partials. -/
structure ScanState where
  carry : Dword
  mask : Word
  levels : Vector Dword 32
deriving DecidableEq, Repr

/-- The convoy latch of R331: the register group it names, and the elements. -/
structure Latch where
  name : Nat
  elems : List Nat
deriving DecidableEq, Repr

/-- One element thread (R265, R268): its element, its table offset in bytes, whether it has ended, and the link to its
successor. -/
structure EThread where
  elem : Nat
  off : Nat
  live : Bool
  link : Option Word
deriving DecidableEq, Repr

/-- The element threads of a `vfetch` in flight, with the scalars and the views that they read (R265, R195). -/
structure Blocks where
  pc : Nat
  sregs : Vector Dword 32
  views : Vector (Option Line) 16
  keys : Dword × Dword
  threads : List EThread
deriving DecidableEq, Repr

/-- What an external queue entry does (R114, R211). -/
inductive XKind where
  | load | store (v : Nat) | atomic (op : Nat) (a b : Nat)
deriving DecidableEq, Repr

/-- Where an access lands: a scratchpad byte, physical device memory, host memory, a peer's memory, or a queue slot's window mapped
into a partition (R436). -/
inductive Loc where
  | scr (a : Nat) | dev (phys : Nat) (device : Bool) | host (a : Nat) | peer (a : Nat) | slot (die slot off : Nat)
deriving DecidableEq, Repr

/-- Who holds a pin (R177): a stream, a job, a `chapp` that waits with the page of its card pinned (R223), or an access in the external queue of a
context. -/
inductive PinHolder where
  | stream (flat q : Nat) | job (id : Nat) | append (flat : Nat) | access (flat : Nat)
deriving DecidableEq, Repr

/-- A pinned combined translation (R177, R408, R409), with the intermediate addresses of the stage-1 entries it was built through
(R414), and whether a shoot-down waits for it (R179). -/
structure Pin where
  holder : PinHolder
  part : Nat
  die : Nat
  page : Nat
  size : Nat
  ipa : Nat
  phys : Nat
  device : Bool
  tables : List Nat
  inval : Bool
deriving DecidableEq, Repr

/-- An external queue entry (R115): its kind, view, byte address, the location its pinned translation
gives, the pin that it holds where it is translated (R177, R178), its size in bytes, its destination register, and the streams of its context
whose start waits for it (R173). -/
structure XqEntry where
  kind : XKind
  via : Via
  addr : Nat
  loc : Loc
  pin : Option Pin
  size : Nat
  dest : Nat
  holds : List Nat
deriving DecidableEq, Repr

/-- A failed entry not yet reported (R118): its destination register and its address. -/
structure XqFail where
  dest : Nat
  addr : Nat
deriving DecidableEq, Repr

/-- A `setvl` or `setvl.b` that waits at push in a gang (R235): its word, its two scalar registers, its element width, its
block length (0 for `setvl`), its G and its AVL. -/
structure GangPush where
  word : Word
  d : Nat
  a : Nat
  ew : Nat
  b : Nat
  g : Nat
  avl : Nat
deriving DecidableEq, Repr

/-- Gang membership (R234, R235). Until the stated number have joined, `inside` is false and `dest` names the register that
the waiting `gang` will write. `lone` says that an image gave the membership and the set is not yet restored whole (R453). `pushes` counts the
`setvl` that the member has pushed in the gang, and `grants` keeps what its own caps gave it for the last of them, newest first, so that one which is
discarded and executed again pairs with the others' pushes of the same place in the order (R142, R235). -/
structure Gang where
  number : Nat
  count : Nat
  rank : Nat
  inside : Bool
  dest : Nat
  push : Option GangPush
  lone : Bool
  pushes : Nat
  grants : List (GangPush × Nat)
deriving DecidableEq, Repr

/-- What a context knows of the code it runs (R429). `first` is how many of the blocks are the producer's in a spliced kernel (R247). -/
structure Code where
  base : Nat
  len : Nat
  blocks : Nat
  nblk : Nat
  first : Nat
deriving DecidableEq, Repr

/-- What a queued matrix operation does (R366 to R373), with tile or carry number, scratch offset, and what its scalar gave at
issue: `zero t cc`, `loadPlane off type`, `mma t off z`, `scan t cout cin`, `rows M KP`, `cols NC`. -/
inductive MatKind where
  | zero (t : Nat) (cc : Bool) | loadPlane (off ty : Nat) | swap
  | mma (t off : Nat) (z : Bool) | mma64 (t off : Nat) (z : Bool) | scan (t : Nat) (cout cin : Bool)
  | carryIn (t off : Nat) | carryOut (t off : Nat) | tileOut (t off : Nat) | tileIn (t off : Nat)
  | rows (m kp : Nat) | cols (nc : Nat)
deriving DecidableEq, Repr

/-- A matrix operation in an array's queue (R359), with MCFG.RM and MCFG.SLICES at issue (R303, R371). -/
structure MatOp where
  kind : MatKind
  rm : RM
  slices : Nat
deriving DecidableEq, Repr

/-- The issue-order view a matrix control core keeps of an array (R363). -/
structure Issue where
  m : Nat
  kp : Nat
  nc : Nat
  active : Nat
  shadow : Nat
deriving DecidableEq, Repr

/-- A raise of `msig` that waits for what stands before it (R374): how many operations of each array must have completed, how many entries at the
front of the core's external queue are earlier, the counter and the increment. -/
structure Raise where
  after : List Nat
  xq : Nat
  counter : Nat
  inc : Nat
deriving DecidableEq, Repr

/-- A condition that stops a context (R439): what the trap record will say of it beyond its place. -/
structure Trap where
  cause : Nat
  faddr : Nat := 0
  ipa : Nat := 0
  stage2 : Bool := false
deriving DecidableEq, Repr

/-- A trap of a vector instruction whose stop waits until the thread core has executed the scalar instructions before the next
vector instruction (R449): what the record will say. -/
structure Late where
  trap : Trap
  pc : Nat
  elem : Nat
  ethr : Bool
deriving DecidableEq, Repr

/-- A thread context, or a matrix control core for flat numbers 2,304 to 2,339. `order` lists the places of the convoy that the agenda asked to go
first, `took` says that the vector instruction now run has used an issue slot (the model's own), `matched` is the breakpoint that a pending debug stop
met, `dbgstat` the agent's DBGSTAT (R492), and `drafts` the image dwords of
unset views and unbound streams that CXDATA has written (R461). -/
structure Ctx where
  life : Life
  sregs : Vector Dword 32
  pc : Nat
  launch : Nat
  code : Code
  fflags : Flags
  frm : BitVec 3
  vtype : Dword
  vl : Nat
  vlmax : Nat
  vstart : Nat
  vff : Nat
  vpad : Nat
  vcarry : Word
  vfoldop : Dword
  vtag : BitVec 256
  pinned : Bool
  pincap : Nat
  cap : Nat
  detm : BitVec 2
  share : Nat
  replay : List Nat
  rngkey0 : Dword
  rngkey1 : Dword
  acarry : Dword
  xqin : BitVec 33
  xqout : BitVec 33
  tileen : BitVec 4
  instret : Dword
  launchid : Word
  lindex : Word
  preds : Vector (BitVec 65536) 16
  views : Vector (Option Line) 16
  streams : Vector (Option StreamReg) 8
  trees : Vector Tree 4
  slice : BitVec 524288
  vq : List VqEntry
  convoyHead : Nat
  convoyCount : Nat
  convoyLeft : Nat
  slotted : Nat
  order : List Nat
  took : Bool
  latch : Option Latch
  reverted : Bool
  scan : Option ScanState
  blocks : Option Blocks
  xq : List XqEntry
  xfail : List XqFail
  wait : Option Wait
  late : Option Late
  record : Line
  groups : List Nat
  arrived : Option Nat
  gang : Option Gang
  parent : Nat
  children : List (Nat × Nat)
  exited : List Nat
  exitCode : Nat
  splice : List Word
  passBreak : Bool
  stepping : Bool
  debugReq : Nat
  matched : Nat
  dbgstat : Nat
  drafts : Assoc Dword
  deficit : Nat
  mcfg : Dword
  issue : Vector Issue 4
  raises : List Raise
  issued : Vector Nat 4
  matErr : Option Nat
deriving DecidableEq, Repr

/-- One binding of a stream port (R231): its owner, pattern, the register group the first reader of a gang stream names
(R236), the elements arrived and unread from index `base`, the elements written and not yet performed, the owner's earlier
write streams that this one starts after (R173), whether it is of the device class by its view or by a page (R148, R407), and then the index beyond
every element that has performed (R182). -/
structure Binding where
  flat : Nat
  q : Nat
  desc : Line
  write : Bool
  gang : Bool
  started : Bool
  vd : Option Nat
  base : Nat
  buf : List Nat
  pend : List (Nat × Nat)
  after : List Nat
  device : Bool
  top : Nat
deriving DecidableEq, Repr

/-- A mill: matrix array, port bindings, arbiter and counts. `drawn` lists the tile elements (row, column) that the operation at the head of the
queue has updated so far, and `scans` the results of the columns that an `mscan` at the head has begun (R377). -/
structure Mill where
  tiles : Vector (BitVec 524288) 4
  carries : Vector (BitVec 4096) 4
  active : BitVec 262144
  shadow : BitVec 262144
  rowpred : Dword
  colpred : Dword
  planes : Dword
  queue : List MatOp
  drawn : List (Nat × Nat)
  scans : Assoc (List Nat)
  completed : Nat
  ports : Assoc (List Binding)
  pointer : Nat
  fresh : Bool
  lgmask : BitVec 16
  slots : Option Nat
  lastE : Nat
  loopE : Nat
  ballast : Bool
  cycle : Dword
  samples : Nat
deriving DecidableEq, Repr

/-- Where a launch stands. -/
inductive LaunchState where
  | waiting | placed
deriving DecidableEq, Repr

/-- A launch taken from a queue (R255, R429 to R432); the distributor record of R475 is the same data. `second` is the
consumer of a spliced pair with its status address (R239), `block` the address of its queue's control block, `params` the parameter area of its launch pages, `image` the
address and length of its `.scr` image, `mills` those that have received a range, `ended` those that wait for the next. -/
structure Launch where
  id : Nat
  part : Nat
  die : Nat
  slot : Nat
  block : Nat
  command : Nat
  desc : Line
  descAddr : Nat
  status : Option Nat
  second : Option (Nat × Option Nat)
  prio : Nat
  reached : Nat
  matrix : Bool
  next : Nat
  redo : List Nat
  state : LaunchState
  kind : Nat
  exit : Nat
  mills : List Nat
  ended : List Nat
  params : List Byte
  image : Nat × Nat
  splice : List Word
  code : Code
deriving DecidableEq, Repr

/-- Where a queue stands with a `splice` command (R238): it has met none; the next two commands are the pair; the producer
has started with the consumer joined to it; or the consumer waits for the command with this number. -/
inductive Splicing where
  | none | armed | joined | after (cmd : Nat)
deriving DecidableEq, Repr

/-- A queue slot of a front end (R416 to R418, R423, R434 to R436). `atLink` says that the next word is the segment's
link, `launching` names the launch that the command in execution waits for, `reachedAt` when that command was reached, `busy` says that a
command is in execution and waits, `toHold` holds the shadow whose fields are cached when a hold of the slot takes effect (R418), `toStop` says that a
hold of the device takes effect when that command ends (R428, R438),
`pendFault` is a fault found at a completion, and `block` the address of the control block last loaded. -/
structure Queue where
  live : Bool
  hold : Bool
  reason : Nat
  part : Nat
  prio : Nat
  lo : Nat
  hi : Nat
  cregs : Vector Dword 16
  segment : Option Nat
  atLink : Bool
  pos : Nat
  pc : Nat
  stack : List Nat
  running : Bool
  qstate : Nat
  fcode : Nat
  faddr : Nat
  hcode : Nat
  issued : Nat
  openCmds : List Nat
  done : Nat
  ordinal : Nat
  free : List Nat
  ovf : Bool
  splicing : Splicing
  launching : Option Nat
  reachedAt : Option Nat
  busy : Bool
  toHold : Option Nat
  toStop : Bool
  pendFault : Option Trap
  block : Nat
deriving DecidableEq, Repr

/-- What a queue that has left its slot has open (R433): its partition and control block, the commands it has executed, those not complete, where it
stands with a `splice` (R238), and a fault found at a completion. -/
structure Book where
  part : Nat
  block : Nat
  issued : Nat
  openCmds : List Nat
  splicing : Splicing
  fault : Option Trap
deriving DecidableEq, Repr

/-- A job an engine has started (R224): its card, where its card stands, the context whose mill and bay its scratch footprints
name (R222), the context that a kill or a resumption of it names, its valid footprints, and how far it has run. `status` is
an outcome already certain; `waiting` a receive whose slot is not open, or a send on its way to a peer. -/
structure Job where
  id : Nat
  part : Nat
  die : Nat
  chain : Nat
  eng : Nat
  card : Line
  addr : Nat
  flat : Option Nat
  by' : Option Nat
  foot : List (Nat × Line × Bool)
  off : Nat
  status : Option (Nat × Nat)
  waiting : Bool
  parked : Bool
deriving DecidableEq, Repr

/-- An appended card not yet read (R222): who appended it, and whether a kill has reached it. -/
structure Appended where
  part : Nat
  die : Nat
  chain : Nat
  addr : Nat
  flat : Option Nat
  by' : Option Nat
  det : Bool
  killed : Bool
deriving DecidableEq, Repr

/-- What the image of a saved context keeps a claim on until it is restored (R453): its place in its launch, its groups and
its gang's number, count and NREG are not given up. `id` tells it from every other saved context, and `held` says that a hold of the device saved it in
its region's slot and that it has not been restored since (R471). `queue` is its vector queue at the save, with what the image has no place for: what a discard
of R142 restores, and the views, keys and registers that queued instructions took at their push (log entries 44, 116). -/
structure Away where
  id : Nat
  part : Nat
  flat : Nat
  launch : Nat
  groups : List Nat
  gang : Option (Nat × Nat × Nat)
  held : Bool
  queue : List VqEntry
deriving DecidableEq, Repr

/-- A contribution at a collective engine (R229): its slot number and the first location of its destination, rank, fold, operator, tag, and the elements. -/
structure Contribution where
  slot : Nat
  space : Nat
  addr : Nat
  part : Nat
  rank : Nat
  fold : Nat
  fop : Nat
  tag : Nat
  size : Nat
  elems : List Nat
  job : Option Nat
deriving DecidableEq, Repr

/-- An open fold slot (R229): the receive job, and the contributions in order of arrival. -/
structure FoldSlot where
  job : Nat
  die : Nat
  slot : Nat
  space : Nat
  addr : Nat
  part : Nat
  n : Nat
  got : List Contribution
deriving DecidableEq, Repr

/-- The key pair of a partition, numbered by the create that made it, and what its certificate holds of that time (R421). -/
structure Certified where
  key : Nat
  bays : Nat
  time : Dword
deriving DecidableEq, Repr

/-- A queued invalidation (R413, R414), with the system core that issued it. -/
structure Inval where
  part : Nat
  stage2 : Bool
  page : Nat
  pages : Nat
  die : Nat
  core : Nat
deriving DecidableEq, Repr

/-- A word that a walk has read as a table entry since the last completed shoot-down covering it (R488): its partition and stage, its address
(intermediate at stage 1, physical at stage 2), and the first page and number of pages that it mapped in that walk. -/
structure Walked where
  part : Nat
  stage2 : Bool
  word : Nat
  page : Nat
  pages : Nat
deriving DecidableEq, Repr

/-- A signed image that a ROM or the firmware verifies (R24, R478): its bytes, its security version, and the public key and the signature given with it. -/
structure SignedImage where
  bytes : List Byte
  version : Nat
  key : BitVec 512
  sig : BitVec 512
deriving DecidableEq, Repr

/-- A tier map entry (R411). -/
structure Granule where
  owner : Nat
  lpddr : Bool
  frame : Nat
deriving DecidableEq, Repr

/-- An interrupt delivered to a core outside the model: target and cause (R414, R427, R440, R466). -/
inductive Interrupt where
  | trap (part : Nat) (stage2 : Bool) (core : Nat)
  | invalidated (part : Nat) (stage2 : Bool) (die core : Nat)
  | queueFault (part : Nat) | queueHold (die slot : Nat) | stage2Queue (part : Nat)
  | chainStop (part die chain : Nat) | holdEntry | holdResume
deriving DecidableEq, Repr

/-- An answer given to an agent outside the device; `status` is the status that a peer's send completes with (R229). -/
inductive Answer where
  | data (v : Nat) | abort | done | status (n : Nat) | refused (epoch : Nat) | spdm (code : Nat) (body : List Nat)
deriving DecidableEq, Repr

/-- Who acts in a step. `entry` is the arbiter running the entry at a place of a vector queue, `group` the sequencer running an issue group. -/
inductive Who where
  | agent (flat : Nat) | entry (flat k : Nat) | group (flat : Nat) | queue (die slot : Nat) | nobody
deriving DecidableEq, Repr

/-- One turn of the agenda (log entry 3). `push` runs an agent whose vector instructions and external accesses stay queued; `member`
asks that the next slot its context is granted goes to a member of the convoy in flight; `access` completes an entry of an external queue that no
earlier entry holds; `job` performs elements of an engine job; `memory` makes a
byte of a space (R146) unreadable by an uncorrectable error, or good again; `hostAtomic` is a PCIe AtomicOp from the host (R437);
`windowWrite` is a thread's store to a register mapped into its partition (R436); `walk` is a walk of a partition's tables that the device makes of its
own (R408); `image` puts a signed image where a start finds it (R478); `ready` is a function of the package that becomes usable (R481); `calibrate`
begins or ends the recalibration of an HBM4 stack (R482); `time` passes
nanoseconds, with the arithmetic cycles of each voltage domain and then of each bay, for the bays that stretch their clock (R286). -/
inductive Turn where
  | run (flat : Nat) | push (flat : Nat) | member (flat k : Nat) | access (flat k : Nat) | element (mill row col : Nat) | queue (die slot : Nat) | event (i : Instr)
  | job (id n : Nat) | memory (space a : Nat) (bad : Bool) | hostAtomic (part addr op : Nat) (bytes cmp : List Byte)
  | windowWrite (w : Window) (off : Nat) (v : Dword)
  | walk (part va : Nat) | image (k : Nat) (x : SignedImage) | ready (k : Nat) | calibrate (stack : Nat) (on : Bool)
  | time (ns : Nat) (cycles : List Nat)
deriving DecidableEq, Repr

/-- The machine. `capacityTier` says that the package is a TZ960-M, `holdTimer` is the GTIME at which the hold's next step is due
(R466, R469), and `firmwareSaved` names the agents that firmware saved, with true for those in the fallback slots. `errors` lists the bytes that an
uncorrectable error has struck, by space (R146) and address, and `invalWaits` the writes of GO that wait for PEND to fall (R414). `books` keeps what
queues that no slot executes have open, `walked` the table words that walks have read (R488), `images` the signed images by step and alternate (R478),
`failed` the steps of the start record that failed at the last start, `starting` the READY bits that will still be set (R481), `calibrating` the HBM4
stacks under recalibration, and `resumeStep` the next step of a resumption under way, or 0 (R469). `agenda`,
`cur`, `defer`, `last`, `round`, `fresh`, `interrupts` and `answers` are the model's own (log entries 3, 5). -/
structure State where
  agenda : List Turn
  cur : Who
  defer : Bool
  last : Nat
  round : Nat
  fresh : Nat
  gtime : Dword
  agents : Assoc Ctx
  mills : Assoc Mill
  stretched : Assoc Bool
  regulators : Assoc Nat
  counters : Assoc Dword
  regs : Assoc Dword
  tags : Assoc Dword
  dev : Mem
  host : Mem
  peer : Mem
  scr : Mem
  errors : List (Nat × Nat)
  installed : Nat
  tiers : Assoc Granule
  owners : Assoc Nat
  launches : Assoc Launch
  queues : Assoc Queue
  books : List Book
  appended : List Appended
  jobs : List Job
  nextJob : Nat
  folds : List FoldSlot
  held : List Contribution
  invals : List Inval
  invalWaits : List Inval
  pins : List Pin
  walked : List Walked
  images : Assoc SignedImage
  failed : List Nat
  starting : List Nat
  calibrating : List Nat
  resumeStep : Nat
  fenced : List Nat
  mapped : List Nat
  kills : List Nat
  noTarget : List Nat
  targetTimes : Assoc Dword
  pkg : Nat
  capacityTier : Bool
  heartbeats : Assoc Dword
  holdTimer : Option Nat
  firmwareSaved : List (Nat × Bool)
  away : List Away
  creates : Nat
  keys : Assoc Certified
  interrupts : List Interrupt
  answers : List Answer
deriving DecidableEq, Repr

/-! ### The values after reset -/

/-- An empty tree stack (R48). -/
def Tree.empty : Tree := ⟨.replicate 32 0, 0, 0, 0⟩

/-- No code image. -/
def Code.none : Code := ⟨0, 0, 0, 0, 0⟩

/-- VLMAX for an NREG code with G = 1 and 32-bit elements (R29, R40). -/
def vlmaxReset (nreg : Nat) : Nat := 65536 / (8 * 2 ^ nreg) / 4

/-- The issue-order values of an array at its Reset values (R361). -/
def Issue.reset : Issue := ⟨128, 0, 128, 0, 0⟩

/-- A context that holds no thread, with the Reset values of R37, R40, R42, R50, R51 and R56 (log entry 4). -/
def Ctx.reset : Ctx where
  life := .free
  sregs := .replicate 32 0
  pc := 0
  launch := 0
  code := Code.none
  fflags := 0
  frm := 0
  vtype := 8 * 2 ^ 9 + 2 * 2 ^ 4
  vl := 0
  vlmax := vlmaxReset 0
  vstart := 0
  vff := 0
  vpad := 0
  vcarry := 0
  vfoldop := 0
  vtag := 0
  pinned := false
  pincap := 0
  cap := 0
  detm := 0
  share := 0
  replay := []
  rngkey0 := 0
  rngkey1 := 0
  acarry := 0x3F80000000000000
  xqin := 0
  xqout := 0
  tileen := 0
  instret := 0
  launchid := 0
  lindex := 0
  preds := .replicate 16 0
  views := .replicate 16 none
  streams := .replicate 8 none
  trees := .replicate 4 Tree.empty
  slice := 0
  vq := []
  convoyHead := 0
  convoyCount := 0
  convoyLeft := 0
  slotted := 0
  order := []
  took := false
  latch := none
  reverted := false
  scan := none
  blocks := none
  xq := []
  xfail := []
  wait := none
  late := none
  record := 0
  groups := []
  arrived := none
  gang := none
  parent := 0
  children := []
  exited := []
  exitCode := 0
  splice := []
  passBreak := false
  stepping := false
  debugReq := 0
  matched := 0
  dbgstat := 0
  drafts := []
  deficit := 0
  mcfg := 8
  issue := .replicate 4 Issue.reset
  raises := []
  issued := .replicate 4 0
  matErr := none

/-- A mill as partition creation leaves it (R46, R361, R403), with all 16 lane groups in service (log entry 4). -/
def Mill.reset : Mill where
  tiles := .replicate 4 0
  carries := .replicate 4 0
  active := 0
  shadow := 0
  rowpred := 128
  colpred := 128
  planes := 0
  queue := []
  drawn := []
  scans := []
  completed := 0
  ports := []
  pointer := 0
  fresh := true
  lgmask := 0xFFFF
  slots := none
  lastE := 0
  loopE := 0
  ballast := false
  cycle := 0
  samples := 0

/-- A queue slot with nothing bound (R417, R436). -/
def Queue.reset : Queue where
  live := false
  hold := false
  reason := 0
  part := 0
  prio := 0
  lo := 0
  hi := 0
  cregs := .replicate 16 0
  segment := none
  atLink := false
  pos := 0
  pc := 0
  stack := []
  running := false
  qstate := 0
  fcode := 0
  faddr := 0
  hcode := 0
  issued := 0
  openCmds := []
  done := 0
  ordinal := 0
  free := []
  ovf := false
  splicing := .none
  launching := none
  reachedAt := none
  busy := false
  toHold := none
  toStop := false
  pendFault := none
  block := 0

/-- The package right after reset: every context free, no partition, no launch, every register at its Reset value, memory
with nothing listed, and 512 GiB of HBM4 installed (R14, R411; log entry 4). -/
def State.reset : State where
  agenda := []
  cur := .nobody
  defer := false
  last := 0
  round := 0
  fresh := 0
  gtime := 0
  agents := []
  mills := []
  stretched := []
  regulators := []
  counters := []
  regs := []
  tags := []
  dev := []
  host := []
  peer := []
  scr := []
  errors := []
  installed := 512 * 2 ^ 30
  tiers := []
  owners := []
  launches := []
  queues := []
  books := []
  appended := []
  jobs := []
  nextJob := 0
  folds := []
  held := []
  invals := []
  invalWaits := []
  pins := []
  walked := []
  images := []
  failed := []
  starting := []
  calibrating := []
  resumeStep := 0
  fenced := []
  mapped := []
  kills := []
  noTarget := [0, 1, 2, 3]
  targetTimes := []
  pkg := 0
  capacityTier := false
  heartbeats := []
  holdTimer := none
  firmwareSaved := []
  away := []
  creates := 0
  keys := []
  interrupts := []
  answers := []

end Sys2Proof.Machine
end

