-- ==== Sys2Proof/Machine/Memory.lean ====
section
/-! DEFINITION. Reading and writing the tables and memories of the state: one home for every register, every access through these functions. -/

namespace Sys2Proof.Machine

/-! ### Tables -/

/-- The entry at a key. -/
def Assoc.find {α : Type} : Assoc α → Nat → Option α
  | [], _ => none
  | (j, v) :: rest, k => if j = k then some v else Assoc.find rest k

/-- The entry at a key, or the value an absent key stands for. -/
def Assoc.getD {α : Type} (t : Assoc α) (k : Nat) (d : α) : α := (Assoc.find t k).getD d

/-- The table with one entry replaced, or added in its place. -/
def Assoc.put {α : Type} : Assoc α → Nat → α → Assoc α
  | [], k, v => [(k, v)]
  | (j, w) :: rest, k, v =>
    if j = k then (k, v) :: rest
    else if k < j then (k, v) :: (j, w) :: rest
    else (j, w) :: Assoc.put rest k v

/-- The table without an entry. -/
def Assoc.erase {α : Type} (t : Assoc α) (k : Nat) : Assoc α := t.filter fun e => e.1 ≠ k

/-! ### Memories -/

/-- The byte at an address; an unlisted address reads as zero (log entry 1). -/
def Mem.get : Mem → Nat → Byte
  | [], _ => 0
  | (j, v) :: rest, a => if j = a then v else Mem.get rest a

/-- The memory with one byte written. Writing zero removes the cell, so that equal memories are equal lists. -/
def Mem.set : Mem → Nat → Byte → Mem
  | [], a, b => if b = 0 then [] else [(a, b)]
  | (j, w) :: rest, a, b =>
    if j = a then (if b = 0 then rest else (a, b) :: rest)
    else if a < j then (if b = 0 then (j, w) :: rest else (a, b) :: (j, w) :: rest)
    else (j, w) :: Mem.set rest a b

/-- The canonical form: addresses strictly rising, and no cell zero. -/
def Mem.wf : Mem → Bool
  | [] => true
  | [(_, b)] => decide (b ≠ 0)
  | (a, b) :: (a', b') :: rest => decide (b ≠ 0) && decide (a < a') && Mem.wf ((a', b') :: rest)

/-- The `n` bytes from an address as a number, least significant first (R5). -/
def Mem.read (m : Mem) (a : Nat) : Nat → Nat
  | 0 => 0
  | n + 1 => (Mem.get m a).toNat + 256 * Mem.read m (a + 1) n

/-- The memory with the low `n` bytes of a number written from an address, least significant first. -/
def Mem.write (m : Mem) (a : Nat) : Nat → Nat → Mem
  | 0, _ => m
  | n + 1, v => Mem.write (Mem.set m a (BitVec.ofNat 8 v)) (a + 1) n (v / 256)

/-- The memory with every byte from `lo` up to but not including `hi` zero. -/
def Mem.clear (m : Mem) (lo hi : Nat) : Mem := m.filter fun c => decide (c.1 < lo) || decide (hi ≤ c.1)

/-- The memory with a list of bytes written from an address. -/
def Mem.writeBytes (m : Mem) (a : Nat) : List Byte → Mem
  | [] => m
  | b :: rest => Mem.writeBytes (Mem.set m a b) (a + 1) rest

/-- The `n` bytes from an address. -/
def Mem.readBytes (m : Mem) (a : Nat) : Nat → List Byte
  | 0 => []
  | n + 1 => Mem.get m a :: Mem.readBytes m (a + 1) n

/-! ### Numbering (R253, R442) -/

/-- Bay 9 × die + bay of an agent. -/
def bayOf (flat : Nat) : Nat := if flat < 2304 then flat / 64 else flat - 2304
/-- Die of an agent. -/
def dieOf (flat : Nat) : Nat := bayOf flat / 9
/-- Mill 4 × bay + mill of a context; the bay's mill 0 for a matrix control core (R51). -/
def millOf (flat : Nat) : Nat := if flat < 2304 then flat / 16 else 4 * (flat - 2304)
/-- Matrix control cores are numbered from 2,304. -/
def isCore (flat : Nat) : Bool := decide (2304 ≤ flat)
/-- The contexts of a mill, in ascending number. -/
def millContexts (mill : Nat) : List Nat := (List.range 16).map (16 * mill + ·)

namespace State

/-! ### Agents, mills, queues -/

def ctx (s : State) (f : Nat) : Ctx := s.agents.getD f Ctx.reset
def setCtx (s : State) (f : Nat) (c : Ctx) : State := { s with agents := s.agents.put f c }
/-- The state with a context changed. -/
def modCtx (s : State) (f : Nat) (g : Ctx → Ctx) : State := s.setCtx f (g (s.ctx f))

def mill (s : State) (m : Nat) : Mill := s.mills.getD m Mill.reset
def setMill (s : State) (m : Nat) (v : Mill) : State := { s with mills := s.mills.put m v }
def modMill (s : State) (m : Nat) (g : Mill → Mill) : State := s.setMill m (g (s.mill m))

def queue (s : State) (die slot : Nat) : Queue := s.queues.getD (64 * die + slot) Queue.reset
def setQueue (s : State) (die slot : Nat) (q : Queue) : State := { s with queues := s.queues.put (64 * die + slot) q }
def modQueue (s : State) (die slot : Nat) (g : Queue → Queue) : State := s.setQueue die slot (g (s.queue die slot))

/-- The flat number of the agent whose turn it is; 0 where a queue or an event acts. -/
def me (s : State) : Nat :=
  match s.cur with
  | .agent f => f
  | .entry f _ => f
  | .group f => f
  | _ => 0

/-! ### Registers of windows -/

/-- The partition a bay belongs to, or 0 (R400). -/
def ownerOf (s : State) (bay : Nat) : Nat := s.owners.getD bay 0
/-- The partition of an agent. -/
def partOf (s : State) (flat : Nat) : Nat := s.ownerOf (bayOf flat)
/-- The bays of a partition, in ascending number. -/
def baysOf (s : State) (part : Nat) : List Nat := (List.range 36).filter fun b => s.ownerOf b = part

/-- A register's stored value. -/
def reg (s : State) (w : Window) (off : Nat) : Dword :=
  s.regs.getD (w.regKey off) (BitVec.ofNat 64 (w.info off).reset)
def setReg (s : State) (w : Window) (off : Nat) (v : Dword) : State :=
  { s with regs := s.regs.put (w.regKey off) v }
/-- STATE of HOLDCTL: 0 running, 1 entering, 2 hold, 3 resuming (R463). -/
def holdState (s : State) : Nat := bitsAt (s.reg .hold 0x00) 40 2
/-- In the hold state the compute domains and the system cores are off (R466, R468). -/
def asleep (s : State) : Bool := decide (s.holdState = 2)
/-- A field of a register set by the device. -/
def setField (s : State) (w : Window) (off lo n v : Nat) : State := s.setReg w off (setBits (s.reg w off) lo n v)

/-- A write by software: RW bits take the value, W1C bits clear where it is 1, every other bit keeps (R6, R7). -/
def maskedWrite (old : Dword) (info : RegInfo) (v : Dword) : Dword :=
  let rw := BitVec.ofNat 64 info.rw
  let w1c := BitVec.ofNat 64 info.w1c
  (old &&& ~~~rw &&& ~~~(w1c &&& v)) ||| (v &&& rw)

/-! ### Sequence counters (R49) -/

/-- Where a counter number of an agent's bay and partition stands: bay counters first, then the package counters. -/
def counterKey (bay part n : Nat) : Nat := if n < 64 then bay * 64 + n else 2304 + part * 256 + (n - 64)
def counter (s : State) (bay part n : Nat) : Dword := s.counters.getD (counterKey bay part n) 0
/-- A raise, saturating at 2^64 − 1 (R216, R424). -/
def raise (s : State) (bay part n inc : Nat) : State :=
  let v := min (2 ^ 64 - 1) ((s.counter bay part n).toNat + inc)
  { s with counters := s.counters.put (counterKey bay part n) (BitVec.ofNat 64 v) }

/-! ### Scratchpads (R147) -/

/-- Where byte `b` of a bay's four scratchpads stands. -/
def scrAddr (bay b : Nat) : Nat := bay * 0x1000000 + b

def interrupt (s : State) (i : Interrupt) : State := { s with interrupts := s.interrupts ++ [i] }
def answer (s : State) (a : Answer) : State := { s with answers := s.answers ++ [a] }

/-- The next fresh number for a free value, and the state that has used it. -/
def freshNumber (s : State) : Nat × State := (s.fresh, { s with fresh := s.fresh + 1 })

/-- The launch of a context. -/
def launchOf (s : State) (key : Nat) : Option Launch := Assoc.find s.launches key
def setLaunch (s : State) (key : Nat) (l : Launch) : State := { s with launches := s.launches.put key l }

end State

/-! ### Scalar registers (R27) -/

/-- s[n]; s0 reads as zero. -/
def Ctx.s (c : Ctx) (n : Nat) : Dword := if n = 0 then 0 else c.sregs.toList.getD n 0
/-- s[n] := v; a write to s0 is discarded. -/
def Ctx.setS (c : Ctx) (n : Nat) (v : Dword) : Ctx :=
  if n = 0 then c else { c with sregs := c.sregs.setIfInBounds n v }

/-! ### VTYPE (R37) -/

def Ctx.nregCode (c : Ctx) : Nat := bitsAt c.vtype 0 2
/-- Declared register count. -/
def Ctx.nreg (c : Ctx) : Nat := 8 * 2 ^ c.nregCode
/-- Grouping factor. -/
def Ctx.g (c : Ctx) : Nat := 2 ^ bitsAt c.vtype 2 2
/-- Element bytes of the current grant. -/
def Ctx.eb (c : Ctx) : Nat := 2 ^ bitsAt c.vtype 4 2
def Ctx.vrm (c : Ctx) : RM := RM.ofCode (bitsAt c.vtype 6 3)
def Ctx.slices (c : Ctx) : Nat := bitsAt c.vtype 9 4
/-- Lines of a tile-slice move. -/
def Ctx.tshape (c : Ctx) : Nat := 2 ^ bitsAt c.vtype 13 2
/-- Bytes of one register (R28). -/
def Ctx.regBytes (c : Ctx) : Nat := 65536 / c.nreg
/-- Bytes of a register group. -/
def Ctx.groupBytes (c : Ctx) : Nat := c.regBytes * c.g
/-- R29 for an element byte width. -/
def Ctx.vlmaxFor (c : Ctx) (eb : Nat) : Nat := c.groupBytes / eb
/-- Real elements of the strip (R31). -/
def Ctx.reals (c : Ctx) : Nat := c.vl - c.vpad

/-- The tag of register n (R35). -/
def Ctx.tag (c : Ctx) (n : Nat) : Tag := Tag.ofCode (bitsAt c.vtag (4 * n) 4)
/-- The tags of the G registers of a group set alike. -/
def Ctx.setTag (c : Ctx) (base : Nat) (t : Tag) : Ctx :=
  { c with vtag := (List.range c.g).foldl (fun v k => setBits v (4 * (base + k)) 4 t.code) c.vtag }

/-! ### The vector file (R28, R30) -/

/-- Bits of `n` bytes of the slice from byte `lo`. -/
def sliceBytes (sl : BitVec 524288) (lo n : Nat) : Nat := bitsAt sl (8 * lo) (8 * n)
def setSliceBytes (sl : BitVec 524288) (lo n v : Nat) : BitVec 524288 := setBits sl (8 * lo) (8 * n) v

/-- Elem of R9: element i of the group at `base`, of `b` bytes; zero at or above VL, for a pad element
(R137), in a void byte, and outside the group. -/
def Ctx.elem (c : Ctx) (base b i : Nat) : Nat :=
  if i < c.reals ∧ (i + 1) * b ≤ c.groupBytes then sliceBytes c.slice (base * c.regBytes + i * b) b else 0

/-- SetElem of R9: no effect on a pad element, which is void (R31), at or above VL, or outside the group. -/
def Ctx.setElem (c : Ctx) (base b i v : Nat) : Ctx :=
  if i < c.reals ∧ (i + 1) * b ≤ c.groupBytes then
    { c with slice := setSliceBytes c.slice (base * c.regBytes + i * b) b v }
  else c

/-- Void of R9: the bytes of register n from byte `b` upward become void. -/
def Ctx.voidFrom (c : Ctx) (n b : Nat) : Ctx :=
  if b < c.regBytes then { c with slice := setSliceBytes c.slice (n * c.regBytes + b) (c.regBytes - b) 0 } else c

/-! ### Predicates (R43) -/

/-- Bit i of predicate n; p0 is all ones. -/
def Ctx.pbit (c : Ctx) (n i : Nat) : Bool := if n = 0 then true else bitAt (c.preds.toList.getD n 0) i
def Ctx.setPred (c : Ctx) (n : Nat) (v : BitVec 65536) : Ctx :=
  if n = 0 then c else { c with preds := c.preds.setIfInBounds n v }
def Ctx.setPbit (c : Ctx) (n i : Nat) (b : Bool) : Ctx :=
  c.setPred n (setBits (c.preds.toList.getD n 0) i 1 (b2n b))

/-- Sticky flags (R50). -/
def Ctx.raiseFlags (c : Ctx) (f : Flags) : Ctx := { c with fflags := c.fflags ||| f }

end Sys2Proof.Machine
end

