-- ==== Sys2Proof/Machine/Views.lean ====
section
/-! DEFINITION. Views: the descriptor of R200 and its checks, the address map of R154 and the meet test of R155. -/

namespace Sys2Proof.Machine

namespace View

/-- SPACE: 0 scr, 1 bay, 2 dev, 3 host, 4 peer (R200). -/
def space (d : Line) : Nat := bitsAt d 64 3
def cacheable (d : Line) : Bool := bitAt d 71
def device (d : Line) : Bool := bitAt d 72
/-- Element size z in bytes. -/
def size (d : Line) : Nat := 2 ^ bitsAt d 73 2
def rank (d : Line) : Nat := bitsAt d 75 2 + 1
def transient (d : Line) : Bool := bitAt d 79
def pkg (d : Line) : Nat := bitsAt d 96 12
def splice (d : Line) : Nat := bitsAt d 120 8
/-- Base address bits [71:0]. -/
def base (d : Line) : Nat := bitsAt d 0 64 + 2 ^ 64 * bitsAt d 112 8
def ext (d : Line) (k : Nat) : Nat := bitsAt d (128 + 32 * k) 32
/-- A signed 32-bit stride. -/
def stride (d : Line) (k : Nat) : Int := (BitVec.ofNat 32 (bitsAt d (256 + 32 * k) 32)).toInt

/-- The descriptor of the fixed view w0: the local scratchpad in bytes (R44, R204). -/
def w0 : Line := BitVec.ofNat 512 (0x400000 * 2 ^ 128 + 2 ^ 256)
/-- The descriptor of the fixed view w15: dword 1 is 0x2 and EXT0 = 0 marks the device space to 2^64 − 1 (R44, R204). -/
def w15 : Line := BitVec.ofNat 512 (2 * 2 ^ 64)
/-- View 0 of a matrix control core: the four scratchpads of its bay in bytes (R72). -/
def bay0 : Line := BitVec.ofNat 512 (2 ^ 64 + 0x1000000 * 2 ^ 128 + 2 ^ 256)

/-- Whether the descriptor is the unbounded device view w15 (R204). -/
def whole (d : Line) : Bool := decide (ext d 0 = 0)

/-- Elements of the view's domain (R154). -/
def count (d : Line) : Nat :=
  if whole d then 2 ^ 64
  else (List.range (rank d)).foldl (fun acc k => acc * ext d k) 1

/-- Σ d[k] × s[k] for linear index j (R154), from dimension k, with `r` dimensions left. -/
def offsetFrom (d : Line) : Nat → Nat → Nat → Int
  | 0, _, _ => 0
  | r + 1, k, j => ((j % ext d k : Nat) : Int) * stride d k + offsetFrom d r (k + 1) (j / ext d k)

/-- The byte address of element j (R154). -/
def addr (d : Line) (j : Nat) : Int :=
  if whole d then (j : Int) else base d + size d * offsetFrom d (rank d) 0 j

/-- Σ min or max(0, (e − 1) × s) (R154). -/
def reach (d : Line) (low : Bool) : Int :=
  (List.range (rank d)).foldl (fun acc k =>
    let x := ((ext d k : Int) - 1) * stride d k
    acc + (if low then min 0 x else max 0 x)) 0

/-- First and last byte of the bounding interval (R154). -/
def lo (d : Line) : Int := if whole d then 0 else base d + size d * reach d true
def hi (d : Line) : Int := if whole d then 2 ^ 64 - 1 else base d + size d * reach d false + size d - 1

/-- R201, for a context of package `pkgNo`. -/
def valid (pkgNo : Nat) (d : Line) : Bool :=
  bitsAt d 384 128 = 0 && bitsAt d 108 4 = 0 && bitsAt d 80 16 = 0 && bitsAt d 77 2 = 0 && bitsAt d 67 4 = 0 &&
  ((List.range 4).all fun k =>
    if k < rank d then ext d k ≠ 0 else ext d k = 0 && bitsAt d (256 + 32 * k) 32 = 0) &&
  space d ≤ 4 && base d % size d = 0 &&
  (if space d = 0 then !device d && bitsAt d 112 8 = 0 && 0 ≤ lo d && hi d ≤ 0x3FFFFF
   else if space d = 1 then !device d && bitsAt d 112 8 = 0 && 0 ≤ lo d && hi d ≤ 0xFFFFFF
   else 0 ≤ lo d && hi d < 2 ^ 72) &&
  (if space d = 4 then pkg d ≠ pkgNo else pkg d = 0)

/-- A `scr` view as the bay view of mill m of its bay (R147, R155). -/
def bayForm (m : Nat) (d : Line) : Line :=
  if space d = 0 then setBits (setBits d 64 3 1) 0 64 (bitsAt d 0 64 + m * 0x400000) else d

/-- BoxPair of R155. -/
def boxPair (a b : Line) : Bool :=
  size a = size b && rank a = rank b && !whole a && !whole b &&
  ((List.range (rank a)).all fun k => stride a k ≥ 1 && stride a k = stride b k) &&
  ((List.range (rank a - 1)).all fun k =>
    stride a (k + 1) ≥ stride a k * (max (ext a k) (ext b k) : Nat)) &&
  base a % size a = base b % size a

/-- BoxMeet of R155; `n` dimensions remain, numbered n − 1 down. -/
def boxMeet (a b : Line) : Nat → Int → Bool
  | 0, d => d = 0
  | k + 1, d =>
    let s := stride a k
    let q := d.fdiv s
    (-(ext b k : Int) < q && q < ext a k && boxMeet a b k (d - q * s)) ||
    (-(ext b k : Int) < q + 1 && q + 1 < ext a k && boxMeet a b k (d - (q + 1) * s))

/-- MeetTest of R155 for two views of contexts of one bay, in mills ma and mb. -/
def meet (ma mb : Nat) (a b : Line) : Bool :=
  let a := bayForm ma a
  let b := bayForm mb b
  if space a ≠ space b || (space a = 4 && pkg a ≠ pkg b) then false
  else if hi a < lo b || hi b < lo a then false
  else if !boxPair a b then true
  else boxMeet a b (rank a) (((base b : Int) - base a).fdiv (size a))

/-- The bay byte of an address of a scratchpad view of a context in mill m (R147). -/
def bayByte (m : Nat) (d : Line) (address : Nat) : Nat := if space d = 0 then m * 0x400000 + address else address

end View

/-- The view register w[n] of a context, or of a core by R72; `none` while unset. -/
def Ctx.view (core : Bool) (c : Ctx) (n : Nat) : Option Line :=
  if n = 0 then some (if core then View.bay0 else View.w0)
  else if n = 15 then some View.w15
  else c.views.toList.getD n none

end Sys2Proof.Machine
end

