-- ==== Sys2Proof/Machine/Translate.lean ====
section
/-! DEFINITION. Two-stage translation (R405 to R407), the tier map's ownership check (R411), where an access of a view lands, and watchpoints
(R490, R491). An access outside a pin walks the tables each time, which the last-level TLB of R408 may always do. -/

namespace Sys2Proof.Machine

/-- Causes of R439. -/
def Trap.illegal : Trap := { cause := 0x01 }
def Trap.operand : Trap := { cause := 0x02 }
def Trap.tag : Trap := { cause := 0x03 }
def Trap.tile : Trap := { cause := 0x04 }
def Trap.access (faddr : Nat) : Trap := { cause := 0x06, faddr := faddr % 2 ^ 64 }
def Trap.align (faddr : Nat) : Trap := { cause := 0x07, faddr := faddr % 2 ^ 64 }
def Trap.watch (faddr : Nat) : Trap := { cause := 0x08, faddr := faddr % 2 ^ 64 }
def Trap.determinism : Trap := { cause := 0x09 }
def Trap.stream : Trap := { cause := 0x0A }
def Trap.block : Trap := { cause := 0x0B }

/-- What an access asks of a leaf (R406). -/
inductive Use where
  | read | write | fetch
deriving DecidableEq, Repr

/-- A leaf's page frame, its class, and whether it is 1 GiB. -/
structure Leaf where
  addr : Nat
  dev : Bool
  big : Bool
  w : Bool
  x : Bool
deriving DecidableEq, Repr

/-- The next step of a walk at a table entry. -/
inductive Entry where
  | bad | table (a : Nat) | leaf (l : Leaf)
deriving DecidableEq, Repr

/-- A table entry read at a level (R405, R406). A level-3 table is 128 KiB and aligned to its size. -/
def tableEntry (level e : Nat) : Entry :=
  let valid := e % 2 = 1
  let isLeaf := e / 2 % 2 = 1
  let addr := e / 2 ^ 16 % 2 ^ 36 * 2 ^ 16
  let resv := e / 2 ^ 63 % 2 ≠ 0 ∨ e / 2 ^ 52 % 2 ^ 9 ≠ 0 ∨ e / 2 ^ 4 % 2 ^ 12 ≠ 0
  let attr := e / 2 ^ 61 % 4
  let l : Leaf := ⟨addr, attr = 1, level = 2, e / 4 % 2 = 1, e / 8 % 2 = 1⟩
  if ¬valid ∨ resv then .bad
  else if isLeaf then
    if level < 2 ∨ attr ≥ 2 ∨ (level = 2 ∧ addr % 2 ^ 30 ≠ 0) then .bad else .leaf l
  else if level = 3 ∨ (level = 2 ∧ addr % 2 ^ 17 ≠ 0) then .bad
  else .table addr

/-- Whether a leaf permits a use: a read is permitted by every valid leaf (R407). -/
def Leaf.permits (l : Leaf) (u : Use) : Bool :=
  match u with
  | .read => true
  | .write => l.w
  | .fetch => l.x

/-- The address a leaf gives for the address below it. -/
def Leaf.at (l : Leaf) (a : Nat) : Nat := if l.big then l.addr + a % 2 ^ 30 else l.addr + a % 2 ^ 16

/-- Index of a level in a 72-bit virtual or 52-bit intermediate address (R405). -/
def levelIndex (level a : Nat) : Nat :=
  match level with
  | 0 => a / 2 ^ 56 % 2 ^ 16
  | 1 => a / 2 ^ 43 % 2 ^ 13
  | 2 => a / 2 ^ 30 % 2 ^ 13
  | _ => a / 2 ^ 16 % 2 ^ 14

/-- The combined translation of a page: its physical address, its class, whether both stages map 1 GiB, its intermediate
address, and those of the stage-1 entries read on the way. -/
structure Xlat where
  phys : Nat
  dev : Bool
  big : Bool
  ipa : Nat
  tables : List Nat
deriving DecidableEq, Repr

/-- A failed walk: translation (0x05) or access (0x06), at stage 1 or stage 2 (R407). -/
def walkFault (cause : Nat) (stage2 : Bool) (ipa va : Nat) : Trap :=
  { cause := cause, faddr := va % 2 ^ 64, ipa := if stage2 then ipa else 0, stage2 := stage2 }

/-! ### Windows mapped into a partition (R436) -/

/-- Where the registers of queue slots stand among physical addresses when the hypervisor maps them into a partition (R436): 64 KiB for
each slot, above every installed address (log entry 94). -/
def windowBase : Nat := 2 ^ 51
/-- The register byte that a physical address of a slot's window names. -/
def windowLoc (phys : Nat) : Loc :=
  let k := (phys - windowBase) / 65536
  .slot (k / 64) (k % 64) (phys % 65536)
/-- Whether a physical address is one of a slot's window. -/
def isWindow (phys : Nat) : Bool := decide (windowBase ≤ phys) && decide (phys < windowBase + 256 * 65536)

/-- Pages of 64 KiB that an entry maps at a level of a walk (R405). -/
def levelPages (level : Nat) : Nat :=
  match level with
  | 0 => 2 ^ 40
  | 1 => 2 ^ 27
  | 2 => 2 ^ 14
  | _ => 1

/-- The location of a physical address: device memory, or a slot's window. -/
def locOf (phys : Nat) (device : Bool) : Loc := if isWindow phys then windowLoc phys else .dev phys device

namespace State

/-- A stage-2 walk from a table at a level, with `n` levels left: the leaf and its physical address, or the cause. -/
def walk2 (s : State) (ipa : Nat) : Nat → Nat → Nat → Except Nat Leaf
  | 0, _, _ => .error 5
  | n + 1, level, table =>
    match tableEntry level (s.dev.read (table + 8 * levelIndex level ipa) 8) with
    | .bad => .error 5
    | .leaf l => .ok l
    | .table t => if t ≥ s.installed then .error 5 else walk2 s ipa n (level + 1) t

/-- Stage 2 of an intermediate address, up to the installed capacity (R407, R411). -/
def stage2 (s : State) (part ipa : Nat) (u : Use) : Except Nat (Nat × Leaf) :=
  match s.walk2 ipa 3 1 (bitsAt (s.reg (.part part) 0x10) 16 36 * 2 ^ 16) with
  | .error c => .error c
  | .ok l =>
    if !l.permits u then .error 6
    else if l.at ipa ≥ s.installed && !isWindow (l.at ipa) then .error 6
    else .ok (l.at ipa, l)

/-- The owner of a physical granule (R411). -/
def granuleOwner (s : State) (phys : Nat) : Nat := (s.tiers.getD (phys / 65536) ⟨0, false, phys / 65536⟩).owner

/-- A stage-1 walk, each table address walked through stage 2 as it is met (R407). -/
def walk1 (s : State) (part va : Nat) (u : Use) : Nat → Nat → Nat → List Nat → Except Trap Xlat
  | 0, _, _, _ => .error (walkFault 5 false 0 va)
  | n + 1, level, table, met =>
    let ea := table + 8 * levelIndex level va
    match s.stage2 part ea .read with
    | .error c => .error (walkFault c true ea va)
    | .ok (pa, _) =>
      match tableEntry level (s.dev.read pa 8) with
      | .bad => .error (walkFault 5 false 0 va)
      | .table t => walk1 s part va u n (level + 1) t (met ++ [ea])
      | .leaf l =>
        if !l.permits u then .error (walkFault 6 false 0 va)
        else
          let ipa := l.at va
          match s.stage2 part ipa u with
          | .error c => .error (walkFault c true ipa va)
          | .ok (phys, l2) =>
            if s.granuleOwner phys ≠ part && !isWindow phys then .error (walkFault 6 true ipa va)
            else .ok ⟨phys, l.dev || l2.dev, l.big && l2.big, ipa, met ++ [ea]⟩

/-- The translation of a virtual address of a partition. -/
def translate (s : State) (part va : Nat) (u : Use) : Except Trap Xlat :=
  s.walk1 part va u 4 0 (bitsAt (s.reg (.trans part) 0x00) 19 33 * 2 ^ 19) []

/-! ### What walks read (R488) -/

/-- The words that a stage-2 walk of an intermediate address reads, with the range that each maps in it. -/
def words2 (s : State) (part ipa : Nat) : Nat → Nat → Nat → List Walked
  | 0, _, _ => []
  | n + 1, level, table =>
    let a := table + 8 * levelIndex level ipa
    let p := levelPages level
    ⟨part, true, a, ipa / 65536 / p * p, p⟩ ::
    match tableEntry level (s.dev.read a 8) with
    | .table t => if t ≥ s.installed then [] else words2 s part ipa n (level + 1) t
    | _ => []

/-- The words of the stage-2 walk of one intermediate address. -/
def words2Of (s : State) (part ipa : Nat) : List Walked :=
  s.words2 part ipa 3 1 (bitsAt (s.reg (.part part) 0x10) 16 36 * 2 ^ 16)

/-- The words that a stage-1 walk reads, and those of the stage-2 walks on the way. -/
def words1 (s : State) (part va : Nat) : Nat → Nat → Nat → List Walked
  | 0, _, _ => []
  | n + 1, level, table =>
    let ea := table + 8 * levelIndex level va
    s.words2Of part ea ++
    match s.stage2 part ea .read with
    | .error _ => []
    | .ok (pa, _) =>
      let p := levelPages level
      ⟨part, false, ea, va / 65536 / p * p, p⟩ ::
      match tableEntry level (s.dev.read pa 8) with
      | .bad => []
      | .table t => words1 s part va n (level + 1) t
      | .leaf l => s.words2Of part (l.at va)

/-- A walk of a virtual address of a partition: the table words that it reads are remembered until a shoot-down covers them. -/
def noteWalk (s : State) (part va : Nat) : State :=
  let ws := s.words1 part va 4 0 (bitsAt (s.reg (.trans part) 0x00) 19 33 * 2 ^ 19)
  { s with walked := ws.foldl (fun l w => if l.contains w then l else l ++ [w]) s.walked }

/-! ### HBM4 stacks (R480 to R482) -/

/-- The stacks that the last start has trained, by the record of step 4. -/
def fitted (s : State) : List Nat := (List.range 8).filter fun k => !bitAt (s.reg (.start 4) 0x00) k

/-- The HBM4 stack that holds a physical address: the frames of each stack, 64 GiB, follow one another in ascending order of the stacks; `none` for
LPDDR-6 (log entry 122). -/
def stackOf (s : State) (phys : Nat) : Option Nat :=
  let g := phys / 65536
  s.fitted[(s.tiers.getD g ⟨0, false, g⟩).frame / 2 ^ 20]?

/-- Whether an access to a physical address waits, because its stack is not ready yet or is being recalibrated (R481, R482). -/
def stackBusy (s : State) (phys : Nat) : Bool :=
  match s.stackOf phys with
  | some k => s.starting.contains (64 + k) || s.calibrating.contains k
  | none => false

/-- The same for a location. -/
def locBusy (s : State) (l : Loc) : Bool :=
  match l with
  | .dev a _ => s.stackBusy a
  | _ => false

/-- The same for `n` bytes at a virtual address of a partition. -/
def rangeBusy (s : State) (part va n : Nat) : Bool :=
  (List.range (n / 65536 + 2)).any fun k =>
    let a := if k = 0 then va else (va / 65536 + k) * 65536
    decide (a < va + n) &&
      match s.translate part a .read with
      | .ok x => s.stackBusy x.phys
      | .error _ => false

/-- Whether a page that holds part of a code image, at some virtual address, holds a physical address: its 64 KiB, or the 1 GiB that
both stages map. -/
def codeAt (s : State) (part va phys : Nat) : Bool :=
  match s.translate part va .fetch with
  | .error _ => false
  | .ok x => let size := if x.big then 2 ^ 30 else 65536; x.phys / size = phys / size

/-- Whether a physical address lies in a page that holds the code image of a launch of a partition that runs, and so is read-only to every
agent of the partition (R77), whatever virtual address reaches it. -/
def codePage (s : State) (part phys : Nat) : Bool :=
  s.launches.any fun (_, l) =>
    l.part = part && l.state = .placed &&
    ([(l.code.base, l.code.len), (l.code.blocks, 128 * l.code.nblk)].any fun (b, n) =>
      n ≠ 0 && (List.range ((b + n - 1) / 65536 + 1 - b / 65536)).any fun k => s.codeAt part ((b / 65536 + k) * 65536) phys)

/-- Whether every byte of a host access lies in one enabled host window (R402, R410). -/
def hostAllowed (s : State) (part a n : Nat) : Bool :=
  (List.range 4).any fun k =>
    let b := s.reg (.part part) (0x30 + 16 * k)
    let l := s.reg (.part part) (0x38 + 16 * k)
    bitAt b 0 && bitsAt b 16 48 * 65536 ≤ a && a + n ≤ bitsAt l 16 48 * 65536

end State

namespace State

/-- Where byte address `a` of a view lands for an agent, with the faults of translation and access (R146, R407, R410,
R77). Scratchpads are not translated (R177). -/
def locate (s : State) (f : Nat) (d : Line) (a : Nat) (n : Nat) (u : Use) : Except Trap Loc :=
  let part := s.partOf f
  match View.space d with
  | 0 => .ok (.scr (scrAddr (bayOf f) (millOf f % 4 * 0x400000 + a)))
  | 1 => .ok (.scr (scrAddr (bayOf f) a))
  | 2 =>
    match s.translate part a u with
    | .error t => .error t
    | .ok x =>
      if u = .write && s.codePage part x.phys then .error (.access a)
      else .ok (locOf x.phys x.dev)
  | 3 => if s.hostAllowed part a n then .ok (.host a) else .error (.access a)
  | _ =>
    if bitsAt (s.reg (.part part) 0x28) 0 16 = 0 then .error (.access a)
    else .ok (.peer (View.pkg d * 2 ^ 72 + a))

/-- A register of a queue slot's window (R417, R436). A read of QFREE gives the oldest entry; beyond the registers of a slot the window reads as zero
(log entry 94). -/
def slotRead (s : State) (die slot off : Nat) : Nat :=
  let q := s.queue die slot
  if 0x1000 ≤ off then 0 else
  match off with
  | 0x10 => q.reason * 2 ^ 8 + b2n q.hold * 2 + b2n q.live
  | 0x18 => q.free.headD 0
  | 0x20 => b2n q.ovf * 2 ^ 7 + q.free.length
  | _ => (s.reg (.queue die slot) off).toNat

/-- A push on the free list (R436): dropped, with OVF set, when 64 entries are held. -/
def pushFree (s : State) (die slot seg : Nat) : State :=
  s.modQueue die slot fun q => if 64 ≤ q.free.length then { q with ovf := true } else { q with free := q.free ++ [seg] }

/-- The oldest entry of the free list is taken, if there is one. -/
def popFree (s : State) (die slot : Nat) : State := s.modQueue die slot fun q => { q with free := q.free.tail }

/-- What a read takes from the location it reads: the oldest entry of a slot's free list (R436). -/
def popped (s : State) (l : Loc) : State :=
  match l with
  | .slot die slot off => if off / 8 = 3 then s.popFree die slot else s
  | _ => s

/-- A thread's store to a queue slot's window (R436). A push takes place with the store; any other register is written by the next turn. A store of
fewer than 8 bytes writes its value, zero-extended, to the whole register, and one inside a register or beyond the registers of a slot changes nothing
(DESIGN CHOICE, log entry 94). -/
def slotWrite (s : State) (die slot off v : Nat) : State :=
  if 0x1000 ≤ off || off % 8 ≠ 0 then s
  else if off = 0x18 then s.pushFree die slot (v / 65536 % 2 ^ 48 * 65536)
  else { s with agenda := .windowWrite (.queue die slot) off (BitVec.ofNat 64 v) :: s.agenda }

/-- The `n` bytes at a location. -/
def load (s : State) (l : Loc) (n : Nat) : Nat :=
  match l with
  | .scr a => s.scr.read a n
  | .dev a _ => s.dev.read a n
  | .host a => s.host.read a n
  | .peer a => s.peer.read a n
  | .slot die slot off => s.slotRead die slot (off / 8 * 8) / 2 ^ (8 * (off % 8)) % 2 ^ (8 * n)

/-- The state with the low `n` bytes of a value stored at a location. -/
def store (s : State) (l : Loc) (n v : Nat) : State :=
  match l with
  | .scr a => { s with scr := s.scr.write a n v }
  | .dev a _ => { s with dev := s.dev.write a n v }
  | .host a => { s with host := s.host.write a n v }
  | .peer a => { s with peer := s.peer.write a n v }
  | .slot die slot off => s.slotWrite die slot off v

/-- Space code (R146, with physical addresses for device memory) and address of a location. -/
def locKey : Loc → Nat × Nat
  | .scr a => (0, a)
  | .dev a _ => (2, a)
  | .host a => (3, a)
  | .peer a => (4, a)
  | .slot _ _ off => (5, off)

/-- Whether an uncorrectable error has struck one of the `n` bytes at a location (R118, R198, R376, R441, R445; log entry 95). -/
def struck (s : State) (l : Loc) (n : Nat) : Bool :=
  s.errors.any fun e => e.1 = (locKey l).1 && (locKey l).2 ≤ e.2 && e.2 < (locKey l).2 + n

/-- Whether some peer can be reached: a PML port is up (R118, R481). -/
def peerReachable (s : State) : Bool := bitsAt (s.reg .ready 0x08) 10 12 ≠ 0

/-- Whether one armed watchpoint of the partition matches an access of `n` bytes (R490, R491). -/
def watchMatch (s : State) (f : Nat) (d : Line) (a n : Nat) (rd wr : Bool) (k : Nat) : Bool :=
  let w := Window.cx (s.partOf f)
  let ctl := s.reg w (0xC8 + 16 * k)
  let b := (s.reg w (0xC0 + 16 * k)).toNat
  let len := bitsAt ctl 0 32
  let space := bitsAt ctl 58 3
  let local' := decide (View.space d ≤ 1)
  let a' := if local' then View.bayByte (millOf f % 4) d a else a
  bitAt ctl 63 && ((rd && bitAt ctl 62) || (wr && bitAt ctl 61)) &&
  (if local' then space ≤ 1 && bitsAt ctl 52 6 = bayOf f else space = View.space d) &&
  len ≠ 0 && a' < b + len && b < a' + n

/-- Whether an access meets a watchpoint. -/
def watched (s : State) (f : Nat) (d : Line) (a n : Nat) (rd wr : Bool) : Bool :=
  (List.range 4).any fun k => s.watchMatch f d a n rd wr k

end State

end Sys2Proof.Machine
end

