-- ==== Sys2Proof/Machine/Pins.lean ====
section
/-! DEFINITION. The pages a view's elements touch, and the pins on them (R177 to R179, R232, R408, R409). -/

namespace Sys2Proof.Machine

namespace State

/-- The pages from byte `lo` to byte `hi`, added to those found: each is translated once, and counts once (R232). -/
def coverRun (s : State) (part : Nat) (u : Use) : Nat → Nat → Nat → List Pin → Except Trap (List Pin)
  | 0, _, _, acc => .ok acc
  | n + 1, lo, hi, acc =>
    if hi < lo then .ok acc
    else
      match acc.find? fun p => decide (p.page ≤ lo) && decide (lo < p.page + p.size) with
      | some p => coverRun s part u n (p.page + p.size) hi acc
      | none =>
        match s.translate part lo u with
        | .error t => .error t
        | .ok x =>
          if u = .write && s.codePage part x.phys then .error (.access lo)
          else
            let size := if x.big then 2 ^ 30 else 65536
            let off := lo % size
            coverRun s part u n (lo - off + size) hi
              (acc ++ [⟨.job 0, part, 0, lo - off, size, x.ipa - off, x.phys - off, x.dev, x.tables, false⟩])

/-- A function applied for each index below `n`, in ascending order. -/
def overIndices (g : Nat → List Pin → Except Trap (List Pin)) (total : Nat) : Nat → List Pin → Except Trap (List Pin)
  | 0, acc => .ok acc
  | n + 1, acc =>
    match g (total - (n + 1)) acc with
    | .error t => .error t
    | .ok acc' => overIndices g total n acc'

/-- Pages of the elements below dimension `k` from byte address `a`. A run whose stride is a page or less is covered whole. -/
def coverDim (s : State) (part : Nat) (u : Use) (d : Line) : Nat → Int → List Pin → Except Trap (List Pin)
  | 0, a, acc => s.coverRun part u 2 a.toNat (a.toNat + View.size d - 1) acc
  | k + 1, a, acc =>
    let e := View.ext d k
    let st := View.stride d k * View.size d
    if k = 0 && st.natAbs ≤ 65536 then
      let lo := (a + min 0 (((e : Int) - 1) * st)).toNat
      let hi := (a + max 0 (((e : Int) - 1) * st)).toNat + View.size d - 1
      s.coverRun part u ((hi - lo) / 65536 + 2) lo hi acc
    else
      let n := if st = 0 then 1 else e
      overIndices (fun j acc => coverDim s part u d k (a + j * st) acc) n n acc

/-- The distinct pages that hold a byte of an element of a view's domain, or the fault of the first that cannot be
translated; only device memory is translated (R177). -/
def pagesOf (s : State) (part : Nat) (u : Use) (d : Line) : Except Trap (List Pin) :=
  if View.space d ≠ 2 then .ok []
  else if View.whole d then s.coverRun part u (2 ^ 48 + 1) 0 (2 ^ 64 - 1) []
  else s.coverDim part u d (View.rank d) (View.base d) []

/-- Pages pinned on a die: those of streams and jobs, and those of the accesses in external queues. -/
def pinned (s : State) (die : Nat) : List (Nat × Nat × Nat) :=
  ((s.pins.filter fun p => p.die = die).map fun p => (p.part, p.page, p.size)) ++
  (s.agents.flatMap fun (f, c) =>
    if dieOf f = die then
      c.xq.filterMap fun e => e.pin.map fun p => (p.part, p.page, p.size)
    else [])

/-- LIMd of a partition (R402). -/
def pinLimit (s : State) (part die : Nat) : Nat := bitsAt (s.reg (.part part) 0x18) (16 * die) 13

/-- Whether a range of addresses that a shoot-down request names holds some byte of one from `a` of `size` bytes (R413). -/
def inRange (i : Inval) (a size : Nat) : Bool :=
  i.pages = 0 || (decide (i.page * 65536 < a + size) && decide (a < (i.page + i.pages) * 65536))

/-- The pin that an access of a context takes on the page of its address (R114, R177). -/
def pinFor (s : State) (f a : Nat) (u : Use) : Option Pin :=
  match s.translate (s.partOf f) a u with
  | .ok x =>
    let size := if x.big then 2 ^ 30 else 65536
    some ⟨.access f, s.partOf f, dieOf f, a / size * size, size, x.ipa - a % size, x.phys - a % size, x.dev, x.tables, false⟩
  | .error _ => none

/-- Whether a shoot-down that is under way names a page: by its addresses, or at stage 2 by an intermediate page that its translation goes through. A
pin asked for meanwhile waits for the request (R179). -/
def shotDown (s : State) (part : Nat) (q : Nat × Nat) : Bool :=
  s.invals.any fun i => i.part = part &&
    (if i.stage2 then
      match s.translate part q.1 .read with
      | .ok x => inRange i (x.ipa / q.2 * q.2) q.2 || x.tables.any fun a => inRange i a 8
      | .error _ => false
    else inRange i q.1 q.2)

/-- Whether pins on more pages may be taken: no shoot-down under way names one (R179), and they stay within the die's 4,096 entries and the partition's limit (R178, R409). -/
def pinRoom (s : State) (part die : Nat) (ps : List (Nat × Nat)) : Bool :=
  let new : List (Nat × Nat × Nat) := ps.map fun q => (part, q.1, q.2)
  let all := (s.pinned die ++ new).eraseDups
  ps.isEmpty ||
    (!(ps.any fun q => s.shotDown part q) && decide (all.length ≤ 4096) &&
      decide ((all.filter fun p => p.1 = part).length ≤ s.pinLimit part die))

/-- Pins added for a holder. The walk of each page has read the tables (R488). -/
def addPins (s : State) (holder : PinHolder) (die : Nat) (ps : List Pin) : State :=
  let s1 := ps.foldl (fun s p => s.noteWalk p.part p.page) s
  { s1 with pins := s.pins ++ ps.map fun p => { p with holder := holder, die := die } }

/-- Pins of a holder released. -/
def dropPins (s : State) (holder : PinHolder) : State := { s with pins := s.pins.filter fun p => p.holder ≠ holder }

/-- The pinned translation of an address. -/
def pinAt (s : State) (holder : PinHolder) (a : Nat) : Option Pin :=
  s.pins.find? fun p => decide (p.holder = holder) && decide (p.page ≤ a) && decide (a < p.page + p.size)

end State

end Sys2Proof.Machine
end

