-- ==== Sys2Proof/Machine/External.lean ====
section
/-! DEFINITION. The external queue's entries: what each does when it performs, and how the oldest completes or fails (R115, R118, R171, R210). -/

namespace Sys2Proof.Machine

/-! ### Registers that are written late -/

/-- What a vector instruction or an access of the external queue changes in the scalar side of its context, which a discard of
the instructions pushed behind it must not undo. -/
def Ctx.behind (c : Ctx) (k : Checkpoint → Checkpoint) : Ctx :=
  { c with vq := c.vq.map fun e => { e with check := e.check.map k } }

/-- A pending register is written (R116, R337). -/
def Ctx.arrive (c : Ctx) (r : Nat) (v : Dword) : Ctx :=
  (c.setS r v).behind fun k => { k with sregs := if r = 0 then k.sregs else k.sregs.setIfInBounds r v }

/-! ### Values of memory in registers -/

/-- SExt of the low `n` bytes of a number to 64 bits. -/
def sextBytes (n v : Nat) : Dword := BitVec.ofInt 64 (BitVec.ofNat (8 * n) v).toInt
/-- ZExt of the low `n` bytes. -/
def zextBytes (n v : Nat) : Dword := BitVec.ofNat 64 (v % 2 ^ (8 * n))

/-! ### Atomic steps (R210) -/

/-- The new value of an atomic on `k` bits, by op: old, operand and compared value. -/
def atomicNew (k op old v cmp : Nat) : Nat :=
  let sg (x : Nat) : Int := (BitVec.ofNat k x).toInt
  match op with
  | 0 => (old + v) % 2 ^ k
  | 1 => old &&& v
  | 2 => old ||| v
  | 3 => old ^^^ v
  | 4 => if sg old ≤ sg v then old else v
  | 5 => if sg old ≤ sg v then v else old
  | 6 => min old v
  | 7 => max old v
  | 8 => v
  | _ => if old = cmp then v else old

/-! ### Entries -/

/-- Whether an access writes where it lands. -/
def XKind.writes : XKind → Bool
  | .load => false
  | .store _ | .atomic _ _ _ => true

namespace State

/-- An entry performs: its memory effect, and the value its register receives (R115, R171). -/
def performEntry (s : State) (e : XqEntry) : State × Dword :=
  let old := s.load e.loc e.size
  match e.kind with
  | .load => (s.popped e.loc, sextBytes e.size old)
  | .store v => (s.store e.loc e.size v, 0)
  | .atomic op v cmp => (s.store e.loc e.size (atomicNew (8 * e.size) op old v cmp), sextBytes e.size old)

/-- Whether a location is a peer's, and no peer can be reached (R118). -/
def unreachable (s : State) (l : Loc) : Bool :=
  match l with
  | .peer _ => !s.peerReachable
  | _ => false

/-- Whether an entry fails as it performs: its peer cannot be reached, an uncorrectable error has struck it (R118), or it writes a page that has
come to hold a running launch's code since it was issued (R77). -/
def entryFails (s : State) (f : Nat) (e : XqEntry) : Bool :=
  s.unreachable e.loc || s.struck e.loc e.size ||
  match e.loc with
  | .dev a _ => e.kind.writes && s.codePage (s.partOf f) a
  | _ => false

/-- What keeps back the entry at a place of an external queue: an earlier one through a view that may meet its own (R115, R157), on a core a raise
queued before an access through w15 (R161), or a stack that is not ready (R481). -/
def entryHeld (s : State) (f k : Nat) (e : XqEntry) : Bool :=
  let c := s.ctx f
  ((c.xq.take k).any fun d => View.meet (millOf f % 4) (millOf f % 4) d.via.desc e.via.desc) ||
  (isCore f && e.via.reg = 15 && c.raises.any fun x => x.xq ≤ k) || s.locBusy e.loc

/-- The entry at a place of a context's external queue completes, or fails (R115, R118). -/
def completeAt (s : State) (f k : Nat) (failed : Bool) : State :=
  let c := s.ctx f
  match c.xq[k]? with
  | none => s
  | some e =>
    let rest := c.xq.eraseIdx k
    let raises := c.raises.map fun x => if k < x.xq then { x with xq := x.xq - 1 } else x
    if failed || s.entryFails f e then
      s.setCtx f { c with xq := rest, raises := raises, xfail := c.xfail ++ [⟨e.dest, e.addr⟩] }
    else
      let (s1, v) := s.performEntry e
      let c1 : Ctx := { (c.arrive e.dest v) with xq := rest, raises := raises }
      s1.setCtx f c1

/-- The oldest entry of a context completes, or fails (R115, R118). This is the entry that XQ_ENTRY_COMPLETE names, and that completes with an empty agenda;
entries through views that do not meet perform in either order (R115, R159), which the turns `access` of the agenda choose (log entry 5). -/
def completeEntry (s : State) (f : Nat) (failed : Bool) : State := s.completeAt f 0 failed

/-- The entry at a place of a context's external queue completes, where nothing before it holds it: entries through views that do not meet perform in
any order (R115, R159). -/
def accessTurn (s : State) (f k : Nat) (failed : Bool) : State :=
  match (s.ctx f).xq[k]? with
  | some e => if s.entryHeld f k e then s else s.completeAt f k failed
  | none => s

/-- Whether some external queue entry goes through a view that may meet `d` (R113, R115). -/
def xqMeets (s : State) (f : Nat) (d : Line) : Bool :=
  (s.ctx f).xq.any fun e => View.meet (millOf f % 4) (millOf f % 4) e.via.desc d

end State

end Sys2Proof.Machine
end

