-- ==== Sys2Proof/Machine/Bindings.lean ====
section
/-! DEFINITION. Stream ports and their bindings: the elements that arrive and perform, when a binding starts, and what a stop does to them (R173, R177, R179,
R182, R231, R236, R453). -/

namespace Sys2Proof.Machine

/-- Whether a binding is the one a stream register names. -/
def Binding.isOf (b : Binding) (r : StreamReg) (q : Nat) : Bool := decide (b.flat = r.owner) && decide (b.q = q)

/-- How many elements a port's 16 KiB hold (R231). -/
def Binding.room (b : Binding) : Nat := 16384 / View.size b.desc

namespace State

/-! ### Ports and bindings -/

/-- The bindings of a port, the one in force first (R231). -/
def port (s : State) (m p : Nat) : List Binding := (s.mill m).ports.getD p []
def setPort (s : State) (m p : Nat) (l : List Binding) : State :=
  s.modMill m fun v => { v with ports := v.ports.put p l }

/-- The binding a stream register names. -/
def bindingOf (s : State) (r : StreamReg) (q : Nat) : Option Binding :=
  (s.port (millOf r.owner) r.port).find? fun b => Binding.isOf b r q

/-- The state with the binding of a stream register changed. -/
def modBinding (s : State) (r : StreamReg) (q : Nat) (g : Binding → Binding) : State :=
  s.setPort (millOf r.owner) r.port
    ((s.port (millOf r.owner) r.port).map fun b => if Binding.isOf b r q then g b else b)

/-- The stream register q[n] of a context. -/
def streamReg (s : State) (f q : Nat) : Option StreamReg := (s.ctx f).streams.toList.getD q none
def setStreamReg (s : State) (f q : Nat) (r : Option StreamReg) : State :=
  s.modCtx f fun c => { c with streams := c.streams.setIfInBounds q r }

/-- The contexts of a bay. -/
def bayContexts (bay : Nat) : List Nat := (List.range 64).map (64 * bay + ·)

/-- The contexts in which a stream is bound: its own, or for a gang stream every member that holds it (R236). -/
def readers (s : State) (r : StreamReg) (q : Nat) : List Nat :=
  if r.gang then
    (bayContexts (bayOf r.owner)).filter fun g =>
      match s.streamReg g q with
      | some x => x.gang && decide (x.owner = r.owner)
      | none => false
  else [r.owner]

/-- Where element j of a binding lands, by the pin of its page (R177); an uncorrectable error, an unreachable peer, and a write to a page that has come to
hold a running launch's code fail it (R77, R118, R198). -/
def streamLoc (s : State) (b : Binding) (j : Nat) : Except Trap Loc :=
  let a := (View.addr b.desc j).toNat
  let r : Except Trap Loc :=
    match (if View.space b.desc = 2 then s.pinAt (.stream b.flat b.q) a else none) with
    | some p => .ok (locOf (p.phys + (a - p.page)) p.device)
    | none => s.locate b.flat b.desc a (View.size b.desc) (if b.write then .write else .read)
  match r with
  | .error t => .error t
  | .ok l =>
    let code := match l with
      | .dev p _ => b.write && s.codePage (s.partOf b.flat) p
      | _ => false
    if s.unreachable l || s.struck l (View.size b.desc) || code then .error (.access a) else .ok l

/-- The next element of a read stream arrives in its port's buffer (R231), in ascending index order (R173). A device-class element that
has performed already is not repeated (R182). -/
def fetchNext (s : State) (r : StreamReg) (q : Nat) (b : Binding) : Except Trap State :=
  let j := b.base + b.buf.length
  if b.device && decide (j < b.top) then .error .stream
  else
    match s.streamLoc b j with
    | .error t => .error t
    | .ok l =>
      let v := s.load l (View.size b.desc)
      .ok (s.modBinding r q fun b => { b with buf := b.buf ++ [v], top := j + 1 })

/-- Whether the stack that element j of a binding stands in is not ready (R481). -/
def elementBusy (s : State) (b : Binding) (j : Nat) : Bool :=
  match s.streamLoc b j with
  | .ok l => s.locBusy l
  | .error _ => false

/-- Elements below every reader's next index leave the buffer (R236). -/
def trimBinding (s : State) (r : StreamReg) (q : Nat) : State :=
  let nexts := (s.readers r q).filterMap fun g => (s.streamReg g q).map (·.next)
  match nexts with
  | [] => s
  | n :: rest =>
    let low := rest.foldl min n
    s.modBinding r q fun b =>
      if low ≤ b.base then b
      else if b.base + b.buf.length ≤ low then { b with base := low, buf := [] }
      else { b with base := low, buf := b.buf.drop (low - b.base) }

/-- A context's next index on a stream moves on. -/
def moveStream (s : State) (f q n : Nat) : State :=
  match s.streamReg f q with
  | none => s
  | some r => (s.setStreamReg f q (some { r with next := n })).trimBinding r q

/-- Elements fetched one after another until element j has arrived, or the buffer of a gang stream is full (R237). -/
def fetchUpTo (s : State) (r : StreamReg) (q j : Nat) : Nat → Except Trap (Option State)
  | 0 => .ok none
  | n + 1 =>
    match s.bindingOf r q with
    | none => .ok none
    | some b =>
      if j < b.base + b.buf.length then .ok (some s)
      else if Binding.room b ≤ b.buf.length || s.elementBusy b (b.base + b.buf.length) then .ok none
      else
        match s.fetchNext r q b with
        | .error t => .error t
        | .ok s' => fetchUpTo s' r q j n

/-- Stream writes of a context that have not performed (R166). -/
def streamWritesPending (s : State) (f : Nat) : Bool :=
  (s.mill (millOf f)).ports.any fun e => e.2.any fun b => decide (b.flat = f) && !b.pend.isEmpty

/-- A held write of a binding performs. One that meets a fault or an uncorrectable error fails as an entry of the external queue does (R118; log
entry 100). -/
def performWrite (s : State) (b : Binding) (j v : Nat) : State :=
  match s.streamLoc b j with
  | .error t => s.modCtx b.flat fun c => { c with xfail := c.xfail ++ [⟨0, t.faddr⟩] }
  | .ok l => s.store l (View.size b.desc) v

/-- The oldest held write of the binding in force at a port performs. -/
def performPending (s : State) (m p : Nat) (b : Binding) (rest : List Binding) : State :=
  match b.pend with
  | [] => s
  | (j, v) :: more => (s.setPort m p ({ b with pend := more } :: rest)).performWrite b j v

/-! ### Starting (R173) -/

/-- Whether the write streams that a binding starts after have performed what they hold. -/
def afterOthers (s : State) (b : Binding) : Bool :=
  b.after.all fun q =>
    match s.streamReg b.flat q with
    | none => true
    | some r => ((s.bindingOf r q).map fun x => x.pend.isEmpty).getD true

/-- Whether an access of a context that precedes a stream of its own, through a view that may meet it, has yet to perform. -/
def streamHeld (c : Ctx) (q : Nat) : Bool :=
  (c.xq.any fun e => e.holds.contains q) || c.vq.any fun e => !e.done && e.holds.contains q

/-- Whether a binding may start: the accesses of its owner before it, through views that may meet its own, have performed. -/
def canStart (s : State) (b : Binding) : Bool := !b.started && !streamHeld (s.ctx b.flat) b.q && s.afterOthers b

/-- Whether a context that holds a binding runs. The pins of a stream are held only then, and its elements perform only then (R179). -/
def streamLive (s : State) (b : Binding) : Bool :=
  (s.readers ⟨b.flat, 0, b.desc, b.write, b.gang, 0⟩ b.q).any fun f => decide ((s.ctx f).life = .running)

/-! ### A stop (R453) -/

/-- Every element written to a context's streams performs, a stream that starts after others behind them (R173). -/
def settleWrites (f : Nat) : Nat → State → State
  | 0, s => s
  | n + 1, s =>
    let one := (s.mill (millOf f)).ports.findSome? fun e =>
      (e.2.find? fun b => decide (b.flat = f) && !b.pend.isEmpty && s.afterOthers b).map fun b => (e.1, b)
    match one with
    | none => s
    | some (p, b) =>
      let s1 := b.pend.foldl (fun s jv => s.performWrite b jv.1 jv.2) s
      settleWrites f n (s1.setPort (millOf f) p ((s1.port (millOf f) p).map fun x =>
        if x.flat = f && x.q = b.q then { x with pend := [] } else x))

/-- What a stop does to a context's streams: every element written performs, and what an idempotent stream of its own has fetched and not
delivered is discarded; a device-class stream and a gang's keep it (R182, R237). -/
def settleStreams (s : State) (f : Nat) : State :=
  (settleWrites f 8 s).modMill (millOf f) fun m =>
    { m with ports := m.ports.map fun e => (e.1, e.2.map fun (b : Binding) =>
        if b.flat = f && !b.gang && !b.device then { b with buf := [] } else b) }

/-- The pins of a context's streams and of its waiting `chapp` released, as a stop does (R179); those of a gang's stream while no other member that holds it runs. -/
def releasePins (s : State) (f : Nat) : State :=
  { s with pins := s.pins.filter fun p =>
      match p.holder with
      | .stream g q =>
        match s.streamReg f q with
        | some r => !(decide (r.owner = g) && (s.readers r q).all fun x => x = f || (s.ctx x).life ≠ .running)
        | none => true
      | .append g => g ≠ f
      | .job _ | .access _ => true }

end State

end Sys2Proof.Machine
end

