-- ==== Sys2Proof/Machine/Fields.lean ====
section
/-! DEFINITION. The register fields of a thread's words (the formats of R59 and each entry), and what they say of two instructions of one
queue: the dependences that a convoy keeps (R272). -/

namespace Sys2Proof.Machine

/-- OP of a word. -/
def opOf (w : Word) : Nat := bitsAt w 26 6

/-! ### The register fields of a word (R240, R246) -/

/-- Register classes that the Tailor renumbers, in the order of the codes of R244 after `v`. -/
inductive Cls where
  | v | s | p | w | q | y
deriving DecidableEq, Repr

/-- A register field of a word: its class, its lowest bit and width, whether the word writes the register, and how many
consecutive registers it names. -/
structure RField where
  cls : Cls
  lo : Nat
  width : Nat
  wr : Bool
  span : Nat
deriving DecidableEq, Repr

/-- Bits of a register number of a class. -/
def Cls.bits : Cls → Nat
  | .v => 6
  | .s => 5
  | .p => 4
  | .w => 4
  | .q => 3
  | .y => 2

/-- A field that is only read, and one that is written. -/
def RField.rd (k : Cls) (lo : Nat) : RField := ⟨k, lo, k.bits, false, 1⟩
def RField.wt (k : Cls) (lo : Nat) : RField := ⟨k, lo, k.bits, true, 1⟩

open RField in
/-- The register fields of a word of a thread (the formats of R59 and each entry). The view mask of a fence stands apart. -/
def regFields (w : Word) : List RField :=
  match opOf w with
  | 0x01 =>
    match bitsAt w 0 11 with
    | 0x16 | 0x17 | 0x18 => [wt .s 21, rd .s 16]
    | 0x19 => [{ wt .s 21 with span := 2 }, { rd .s 16 with span := 2 }, { rd .s 11 with span := 2 }]
    | _ => [wt .s 21, rd .s 16, rd .s 11]
  | 0x02 | 0x03 | 0x04 | 0x05 | 0x06 | 0x07 => [wt .s 21, rd .s 16]
  | 0x08 | 0x09 => [wt .s 21]
  | 0x0A => if [5, 11, 12, 13, 14, 15, 16].contains (bitsAt w 0 8) then [wt .s 21, rd .s 16] else [wt .s 21, rd .s 16, rd .s 11]
  | 0x0B | 0x0C | 0x0D | 0x0E | 0x0F | 0x10 => [rd .s 21, rd .s 16]
  | 0x11 => [wt .s 21]
  | 0x12 => [wt .s 21, rd .s 16]
  | 0x13 | 0x14 | 0x16 => [wt .s 21, rd .s 16, rd .w 12]
  | 0x15 | 0x17 => [rd .s 21, rd .s 16, rd .w 12]
  | 0x18 => (if bitAt w 10 then [wt .s 21] else []) ++ [rd .s 16, rd .s 11, rd .w 6]
  | 0x1A =>
    match bitsAt w 0 11 with
    | 0 | 1 => [rd .s 16, rd .s 11]
    | 2 => [rd .s 16]
    | 3 => [wt .s 21, rd .q 16, rd .s 11]
    | _ => [wt .s 21, rd .s 16]
  | 0x1B => [wt .s 21, rd .s 16]
  | 0x1C => [wt .s 21, rd .s 16]
  | 0x1D =>
    match bitsAt w 0 11 with
    | 0 | 3 => [wt .s 21, rd .s 16, rd .s 11]
    | 1 => [wt .q 21, rd .w 16]
    | 2 => [wt .q 21]
    | _ => []
  | 0x1E =>
    match bitsAt w 0 4 with
    | 1 => [rd .v 8]
    | 4 => if bitAt w 15 then [rd .s 16] else [{ rd .v 4 with width := 5 }]
    | _ => [wt .s 21, rd .s 16]
  | 0x1F =>
    match bitsAt w 0 4 with
    | 0 => [rd .p 4]
    | 2 | 3 | 5 => [rd .v 14]
    | 6 => [wt .v 20]
    | _ => []
  | 0x20 => if [9, 10].contains (bitsAt w 0 4) then [wt .v 20, rd .v 14, rd .p 4] else [wt .v 20, rd .v 14, rd .v 8, rd .p 4]
  | 0x21 => if [9, 10].contains (bitsAt w 0 5) then [wt .v 20, rd .s 9, rd .p 5] else [wt .v 20, rd .v 14, rd .s 9, rd .p 5]
  | 0x22 => if [3, 7, 8].contains (bitsAt w 0 4) then [wt .v 20, rd .v 14, rd .p 4] else [wt .v 20, rd .v 14, rd .v 8, rd .p 4]
  | 0x23 => if bitsAt w 0 4 = 5 then [wt .p 20, rd .v 14, rd .p 4] else [wt .p 20, rd .v 14, rd .v 8, rd .p 4]
  | 0x24 => if [9, 10].contains (bitsAt w 0 4) then [wt .v 20, rd .v 14, rd .v 8, rd .p 4] else [wt .v 20, rd .v 14, rd .p 4]
  | 0x25 =>
    match bitsAt w 0 5 with
    | 3 => [wt .v 20, rd .p 5]
    | 4 => [wt .v 20, rd .s 9, rd .p 5]
    | _ => [wt .v 20, rd .v 14, rd .s 9, rd .p 5]
  | 0x26 => if bitsAt w 0 4 = 0 then [wt .v 20, rd .v 14, rd .v 8, rd .p 4] else [wt .v 20, rd .v 14, rd .p 4]
  | 0x27 =>
    match bitsAt w 0 4 with
    | 6 | 7 => [wt .y 20, rd .v 14, rd .p 4]
    | 8 => [wt .v 20, rd .y 14]
    | 9 => [wt .y 20, rd .s 8]
    | _ => [wt .v 20, rd .v 14, rd .p 4]
  | 0x28 => [wt .v 20, rd .v 14, rd .p 4]
  | 0x29 =>
    match bitsAt w 0 8 with
    | 5 => [wt .p 22, rd .s 9]
    | 6 | 7 => [rd .p 18, rd .p 14, wt .s 9]
    | 8 => [wt .p 22, rd .v 8]
    | _ => [wt .p 22, rd .p 18, rd .p 14]
  | 0x2A => if bitsAt w 0 5 = 0 then [wt .v 20, rd .s 15, rd .s 9] else [rd .s 21, rd .v 14, wt .s 9]
  | 0x2B =>
    match bitsAt w 0 6 with
    | 0 | 4 => [wt .v 20, rd .w 16, rd .s 11, rd .p 6]
    | 1 => [rd .v 20, rd .w 16, rd .s 11, rd .p 6]
    | 2 | 5 => [wt .v 20, rd .w 16, rd .v 10, rd .p 6]
    | _ => [rd .v 20, rd .w 16, rd .v 10, rd .p 6]
  | 0x2C => [if bitsAt w 0 6 = 0 then wt .v 20 else rd .v 20, rd .q 16, rd .s 11, rd .p 6]
  | 0x2D =>
    match bitsAt w 0 11 with
    | 3 => [wt .w 21, rd .s 16, rd .w 11]
    | 4 => [wt .w 21]
    | 5 => [wt .s 21, rd .w 16]
    | _ => [wt .s 21, rd .s 16, rd .s 11]
  | 0x2E => [wt .v 20, { rd .s 9 with span := 2 }, rd .p 5]
  | 0x2F =>
    let toThread := bitsAt w 0 8 = 0 || (bitsAt w 0 8 = 2 && !bitAt w 17)
    [if toThread then wt .v 20 else rd .v 20, rd .s 12, rd .p 8]
  | _ => []

/-- A register field's number. -/
def RField.num (w : Word) (f : RField) : Nat := bitsAt w f.lo f.width

/-! ### Dependences within a convoy (R272) -/

/-- The registers of a class that a word reads or writes, as bases of groups for vector registers. -/
def fieldsOf (cls : Cls) (wr : Bool) (w : Word) : List Nat :=
  (regFields w).flatMap fun f =>
    if f.cls = cls && f.wr = wr then (List.range f.span).map (f.num w + ·) else []

/-- Whether a word is a `vbfly.c` (R331). -/
def isChain (w : Word) : Bool := opOf w = 0x25 && bitsAt w 0 5 = 5

/-- The registers of a class that a word writes, and that it reads. A `vbfly.c` writes none, and reads the one that names its latch (R331). -/
def writesOf (cls : Cls) (w : Word) : List Nat := if isChain w then [] else fieldsOf cls true w
def readsOf (cls : Cls) (w : Word) : List Nat := fieldsOf cls false w ++ if isChain w then fieldsOf cls true w else []

/-- Whether a vector or predicate register that a word names in one way is one that another names in some way. -/
def touches (xs ys : Cls → Word → List Nat) (a b : Word) : Bool :=
  let met (cls : Cls) : Bool := (xs cls a).any fun x => (ys cls b).contains x
  met .v || met .p

/-- Whether a word works element by element, each on its own index of every operand: OP 0x20 to 0x24, `vid` and `vbcast`, the vector accesses but
`vldff`, the stream transfers and `vrng`. -/
def ownIndex (w : Word) : Bool :=
  let op := opOf w
  (decide (0x20 ≤ op) && decide (op ≤ 0x24)) || (op = 0x25 && (bitsAt w 0 5 = 3 || bitsAt w 0 5 = 4)) || (op = 0x2B && bitsAt w 0 6 ≠ 4) ||
    op = 0x2C || op = 0x2E

/-- Whether a word writes its results in rising index order: those that work element by element, the slides and `vbfly`. -/
def byIndex (w : Word) : Bool := ownIndex w || opOf w = 0x25

/-- Whether a word changes the tag of the group that it writes: `vcvt`. -/
def retags (w : Word) : Bool := opOf w = 0x24 && bitsAt w 0 4 = 7

/-- Whether element group by element group a later word may follow an earlier one (R272), which has performed its elements below `lo`, up to its
own elements below `hi`: it reads a register that the earlier one writes, or writes one that it reads or writes, only where each stands at its own index. -/
def follows (a b : Word) (lo hi : Nat) : Bool :=
  let apart := decide (hi ≤ lo)
  (!touches writesOf readsOf a b || (byIndex a && ownIndex b && apart)) &&
  (!touches readsOf writesOf a b || (ownIndex a && byIndex b && !retags b && apart)) &&
  (!touches writesOf writesOf a b || (byIndex a && byIndex b && !retags a && !retags b && apart))

/-- Whether a word forms a convoy of its own (R272, R265). -/
def aloneInConvoy (w : Word) : Bool :=
  (opOf w = 0x1F && bitsAt w 0 4 = 0) || [0x26, 0x27, 0x28, 0x2A, 0x2F].contains (opOf w)

/-- Bytes of the widest element among the vector registers a word names, each under its tag, and a `vcvt`'s destination under its new one; by
VTYPE.EW where it names none (R18). -/
def Ctx.widestOf (c : Ctx) (w : Word) : Nat :=
  let vs := (regFields w).filter fun f => f.cls = .v
  let new := opOf w = 0x24 && bitsAt w 0 4 = 7
  if vs.isEmpty then c.eb
  else vs.foldl (fun m f =>
    max m (if new && f.wr then (Tag.ofCode (bitsAt w 8 6)).bytes else (c.tag (f.num w)).bytes)) 1

end Sys2Proof.Machine
end

