-- ==== Sys2Proof/Machine/Ops.lean ====
section
/-! DEFINITION. The operations every meaning is written over: taking an exception (R440 to R442, R447 to R449) and the return from one (R459),
retiring, waiting (R276), and the ways a scalar and a vector instruction run (R53, R54, R116, R271, R314). -/

namespace Sys2Proof.Machine

/-- What `exec` answers. Completing, waiting and taking an exception are each a next state. -/
abbrev Out := Host.Outcome State Fault Refusal

/-! ### Rings in memory (R441) -/

namespace State

/-- A record written to a ring of a partition: through the partition's translation, or at its physical address for a ring
of the hypervisor. `none` when the write meets a fault, a page that holds a running launch's code (R77), or an uncorrectable error. -/
def ringStore (s : State) (part : Nat) (physical : Bool) (addr n v : Nat) : Option State :=
  if physical then (if s.struck (.dev addr false) n then none else some { s with dev := s.dev.write addr n v })
  else
    match s.translate part addr .write with
    | .error _ => none
    | .ok x =>
      if s.codePage part x.phys || s.struck (.dev x.phys x.dev) n then none
      else some { s.noteWalk part addr with dev := s.dev.write x.phys n v }

/-- Ring size of a base register with LOGN in [3:0] (R443, R484, R487). -/
def ringSize (base : Dword) : Nat := 16 * 2 ^ bitsAt base 0 4

/-- A count register raised by one. -/
def bump (s : State) (w : Window) (off : Nat) : State := s.setReg w off (s.reg w off + 1)

/-- Whether writing record number `n` overwrites an unread slot: slot's former record is at or above READ (R443). -/
def overwrites (n size read : Nat) : Bool := decide (size ≤ n) && decide (read ≤ n - size)

/-- Step 3 and 4 of R440: the copy of a record in a trap ring, its count, its flags, and the interrupt. -/
def ringTrap (s : State) (part : Nat) (stage2 : Bool) (r : Line) : State :=
  let w := if stage2 then Window.part part else Window.cx part
  let o := if stage2 then 0x100 else 0x30
  let base := s.reg w o
  let cnt := (s.reg w (o + 0x08)).toNat
  let size := ringSize base
  let addr := bitsAt base 12 52 * 4096 + 64 * (cnt % size)
  let s2 :=
    match s.ringStore part stage2 addr 64 r.toNat with
    | some s' => if overwrites cnt size (s.reg w (o + 0x20)).toNat then s'.setField w (o + 0x18) 0 1 1 else s'
    | none => s.setField w (o + 0x18) 1 1 1
  (s2.bump w (o + 0x08)).interrupt (.trap part stage2 (bitsAt (s.reg w (o + 0x10)) 0 4))

/-! ### The trap record (R442, R252) -/

/-- LAUNCHID of one of the kernels of a spliced context. -/
def kernelId (s : State) (c : Ctx) (tag : Nat) : Nat :=
  match s.launchOf c.launch with
  | some l =>
    match (tag, l.second) with
    | (1, some x) => x.1
    | _ => l.id
  | none => c.launchid.toNat

/-- Kernel tag, original program counter and LAUNCHID of the word at a program counter of a context. A program counter that no word of a
spliced kernel has is given as it stands, with the producer (R110; log entry 124). -/
def origin (s : State) (c : Ctx) (pc : Nat) : Nat × Nat × Nat :=
  match c.splice with
  | [] => (0, pc, c.launchid.toNat)
  | m =>
    match m[pc / 4]? with
    | some e => (bitsAt e 31 1, bitsAt e 0 31, s.kernelId c (bitsAt e 31 1))
    | none => (0, pc, s.kernelId c 0)

/-- The same for a word of the block table. The consumer's blocks follow the producer's in a spliced kernel (R247, R252). -/
def originOfBlock (s : State) (c : Ctx) (off : Nat) : Nat × Nat × Nat :=
  let tag := b2n (decide (c.splice ≠ []) && decide (c.code.first ≤ off / 128))
  (tag, off - tag * 128 * c.code.first, if c.splice = [] then c.launchid.toNat else s.kernelId c tag)

/-- The trap record of a stop. -/
def recordOf (s : State) (f : Nat) (t : Trap) (pc elem code : Nat) (ethr : Bool) : Line :=
  let c := s.ctx f
  let (ktag, opc, id) := if ethr then s.originOfBlock c pc else s.origin c pc
  BitVec.ofNat 512 (
    b2n (decide (c.splice ≠ [])) * 2 ^ 148 + b2n ethr * 2 ^ 149 + b2n t.stage2 * 2 ^ 150 + ktag * 2 ^ 151 +
    t.cause * 2 ^ 152 + code % 4096 * 2 ^ 164 + c.convoyCount % 16 * 2 ^ 176 + f * 2 ^ 180 +
    id % 2 ^ 32 * 2 ^ 192 + c.convoyHead % 2 ^ 32 * 2 ^ 224 + elem % 2 ^ 32 * 2 ^ 256 + opc % 2 ^ 32 * 2 ^ 288 +
    t.ipa % 2 ^ 52 * 2 ^ 332 + t.faddr % 2 ^ 64 * 2 ^ 384 + s.gtime.toNat * 2 ^ 448)

end State

/-! ### Sample records (R484 to R486) -/

namespace State

/-- The record of one lane group for the completed instruction at place `k` of a context's queue. -/
def sampleRecord (s : State) (f k : Nat) (e : VqEntry) (lg elems n : Nat) : Line :=
  let c := s.ctx f
  let (ktag, pc, id) := s.origin c e.pc
  BitVec.ofNat 512 (
    ktag * 2 ^ 232 + (c.convoyCount + k - c.convoyLeft) % 8 * 2 ^ 233 + lg * 2 ^ 236 + c.convoyCount % 16 * 2 ^ 240 + f * 2 ^ 244 +
    id % 2 ^ 32 * 2 ^ 256 + c.convoyHead % 2 ^ 32 * 2 ^ 288 + pc % 2 ^ 32 * 2 ^ 320 +
    min 65535 (Config.timing (4 * n)) * 2 ^ 352 + min 65535 (Config.timing (4 * n + 1)) * 2 ^ 368 +
    min 65535 (Config.timing (4 * n + 2)) * 2 ^ 384 + Config.timing (4 * n + 3) % 2 ^ 24 * 2 ^ 400 + elems % 2 ^ 24 * 2 ^ 424 +
    s.gtime.toNat * 2 ^ 448)

/-- A sample record in the partition's ring. A fault on the ring drops it and sets OVF (R485). -/
def putSample (s : State) (part : Nat) (r : Line) : State :=
  let w := Window.cx part
  let base := s.reg w 0x68
  let cnt := (s.reg w 0x70).toNat
  let size := ringSize base
  match s.ringStore part false (bitsAt base 12 52 * 4096 + 64 * (cnt % size)) 64 r.toNat with
  | some s1 => (if overwrites cnt size (s.reg w 0x78).toNat then s1.setField w 0x60 62 1 1 else s1).bump w 0x70
  | none => s.setField w 0x60 62 1 1

/-- Element groups of `n` elements that hold some element from `start` below `top` (R18). -/
def groupsBetween (n start top : Nat) : Nat := if top ≤ start then 0 else (top + n - 1) / n - start / n

/-- Elements of each lane group, in ascending number, for the element groups of `n` elements that hold some from `first` below `top` (R18, R485). -/
def laneElems (mask : BitVec 16) (k n first top : Nat) : List (Nat × Nat) :=
  let ls := (List.range 16).filter fun i => bitAt mask i
  let groups := (List.range (groupsBetween n first top)).map (first / n + ·)
  let at' (x : Nat) : Nat := ls.getD (Config.lane k x % ls.length) 0
  ls.filterMap fun l =>
    let mine := groups.filter fun x => at' x = l
    if mine.isEmpty then none else some (l, mine.foldl (fun m x => m + (min top ((x + 1) * n) - max first (x * n))) 0)

/-- The vector instruction at place `k` of a queue has completed: it is counted, and every PERIOD-th is sampled (R485). `bytes` is
its widest element, 0 for an instruction that is no work of the lanes; the elements below the one at which it began are not among its own. -/
def sample (s : State) (f k : Nat) (e : VqEntry) (bytes : Nat) : State :=
  let m := millOf f
  let s1 := s.modMill m fun x => { x with samples := x.samples + 1 }
  let ctl := s.reg (.cx (s.partOf f)) 0x60
  let period := bitsAt ctl 0 16
  if !bitAt ctl 63 || period = 0 || (s1.mill m).samples % period ≠ 0 || bytes = 0 then s1
  else
    let (x, s2) := s1.freshNumber
    (laneElems (s.mill m).lgmask x (256 / bytes) e.first (s.ctx f).reals).foldl (fun s le =>
      let (n, s') := s.freshNumber
      s'.putSample (s.partOf f) (s.sampleRecord f k e le.1 le.2 n)) s2

end State

/-- Whether a matrix operation reads or writes memory, through view 0 of its core (R161). -/
def MatKind.memory : MatKind → Bool
  | .loadPlane _ _ | .mma _ _ _ | .mma64 _ _ _ | .carryIn _ _ | .carryOut _ _ | .tileOut _ _ | .tileIn _ _ => true
  | .zero _ _ | .swap | .scan _ _ _ | .rows _ _ | .cols _ => false

/-! ### Convoys (R272) -/

/-- Members of the convoy that begins at the head of a queue, at most `n`. A `vbfly.c` is never the last. -/
def convoyLength : Nat → List VqEntry → Nat
  | 0, _ => 0
  | _, [] => 0
  | n + 1, e :: rest =>
    if aloneInConvoy e.word || opOf e.word = 0x1E then 0
    else
      let k := convoyLength n rest
      if isChain e.word && k = 0 then 0 else k + 1

/-- The completed entries at the head of a queue, which are `vbfly.c` whose reader has not completed. -/
def Ctx.doneAhead (c : Ctx) : Nat := (c.vq.takeWhile (·.done)).length

/-- Whether the thread core waits for the vector instructions that it has pushed, so that it pushes no other before. -/
def Wait.forEarlier : Wait → Bool
  | .earlier | .brk | .release => true
  | _ => false

/-- Members of the convoy that may begin with the entries of a queue behind the completed ones. A `vbfly.c` without its reader waits for it, but for
a chain that a convoy cannot hold, and where its context waits for it to complete or a debug step ends with it (log entry 97). -/
def Ctx.convoyAt (c : Ctx) (vq : List VqEntry) : Nat :=
  match vq with
  | [] => 0
  | e :: _ =>
    if aloneInConvoy e.word then 1
    else
      let n := convoyLength 8 vq
      if n ≠ 0 || !isChain e.word then n
      else if 8 ≤ vq.length then 8
      else if (c.wait.map Wait.forEarlier).getD false || c.debugReq = 3 then vq.length
      else 0

/-- The convoy in flight, named as its head begins (R272). -/
def Ctx.beginConvoy (c : Ctx) : Ctx :=
  if c.convoyLeft ≠ 0 then c
  else
    let d := c.doneAhead
    let vq := c.vq.drop d
    let n := c.convoyAt vq
    if n = 0 then c else { c with convoyHead := (vq.head?.map (·.pc)).getD 0, convoyCount := n, convoyLeft := d + n }

/-- Whether no effect of the thread core is provisional (R449): every instruction in the queue belongs to the convoy in flight, or to the one that
begins next. -/
def Ctx.certain (c : Ctx) : Bool :=
  if c.convoyLeft ≠ 0 then decide (c.vq.length ≤ c.convoyLeft)
  else
    let rest := (c.vq.drop c.doneAhead).dropWhile fun e => opOf e.word = 0x1E
    let n := c.convoyAt rest
    n = 0 || decide (rest.length ≤ n)

/-- Whether a debug stop that is due keeps back the instructions that have not begun. After a step, the one stepped to and those before it
complete (R493). -/
def Ctx.barred (c : Ctx) : Bool := decide (c.debugReq ≠ 0) && decide (c.debugReq ≠ 3)

/-- Where the entry at a place of the queue goes on: an entry that has not begun starts at VSTART where every one before it has completed, and at 0
behind others. -/
def Ctx.startAt (c : Ctx) (k : Nat) (e : VqEntry) : Nat := if e.begun then e.start else if k = c.doneAhead then c.vstart else 0

/-- Whether the thread core has no room in the vector queue, and so issues nothing (R271). -/
def Ctx.queueFull (c : Ctx) : Bool := decide (32 ≤ c.vq.length)

/-- The elements of a group of an entry's operands (R18), under the tags it was pushed with. -/
def Ctx.groupOf (c : Ctx) (e : VqEntry) : Nat :=
  max 1 (256 / ({ c with vtype := e.vtype, vtag := e.vtag } : Ctx).widestOf e.word)

/-- Whether an access goes through the view now in w[n], and not through one that the register held before (R163). -/
def Via.isNow (v : Via) (n : Nat) : Bool := decide (v.reg = n) && v.drain.isNone

/-- Whether two entries share more than registers: a stream, or views that may meet (R157). -/
def sharesMemory (f : Nat) (a b : VqEntry) : Bool :=
  (opOf a.word = 0x2C && opOf b.word = 0x2C && bitsAt a.word 16 3 = bitsAt b.word 16 3) ||
  match (a.via, b.via) with
  | (some v, some w) => View.meet (millOf f % 4) (millOf f % 4) v.desc w.desc
  | _ => false

/-- Whether the member at place k of the convoy may perform its elements below `hi` (R272): an earlier member on which it depends has
completed, or, where both stand at their own indices, has performed those. The reader of a latch waits for the `vbfly.c` before it, and a new chain for
the reader of the one before (R331). -/
def Ctx.mayRun (f : Nat) (c : Ctx) (k hi : Nat) : Bool :=
  let chainAt (j : Nat) : Bool := (c.vq[j]?.map fun x => isChain x.word).getD false
  match c.vq[k]? with
  | none => false
  | some e =>
    (List.range k).all fun j =>
      match c.vq[j]? with
      | none => true
      | some d =>
        let latched := (j + 1 = k && isChain d.word) || (isChain e.word && j ≠ 0 && chainAt (j - 1))
        d.done || (!latched && !sharesMemory f d e && follows d.word e.word (c.startAt j d) hi)

/-- The end of the element group in which an entry goes on. -/
def Ctx.groupEnd (c : Ctx) (k : Nat) (e : VqEntry) : Nat := (c.startAt k e / c.groupOf e + 1) * c.groupOf e

/-- A place added to places in rising order of where they go on, behind those that go on at the same index. -/
def insertPlace (x : Nat × Nat) : List (Nat × Nat) → List (Nat × Nat)
  | [] => [x]
  | y :: rest => if x.1 < y.1 then x :: y :: rest else y :: insertPlace x rest

/-- The members of the convoy that have an element group to issue, those that go on at the least index first (log entry 98). -/
def Ctx.ready (f : Nat) (c : Ctx) : List Nat :=
  ((List.range c.convoyLeft).foldl (fun l k =>
    match c.vq[k]? with
    | none => l
    | some e => if !e.done && c.mayRun f k (c.groupEnd k e) then insertPlace (c.startAt k e, k) l else l) []).map (·.2)

/-- The reader of the chain before these entries has completed. -/
def readerDone (vq : List VqEntry) : Bool := ((vq.find? fun e => !isChain e.word).map (·.done)).getD false

/-- How many entries leave the head of a queue: completed ones, a `vbfly.c` with its reader. -/
def retired : List VqEntry → Nat
  | [] => 0
  | e :: rest => if !e.done || (isChain e.word && !readerDone rest) then 0 else retired rest + 1

/-- VSTART once a member has completed: where the first entry that has not goes on. -/
def headStart (vq : List VqEntry) : Nat :=
  match vq.dropWhile (·.done) with
  | e :: _ => if e.begun then e.start else 0
  | [] => 0

/-- The completed instructions at the head of the queue leave it in program order, counted (R50). The convoy ends with its last
member. A debug stop that is due, or a `brk` that waits for one, names the convoy just drained (R124, R493). -/
def Ctx.retireDone (c : Ctx) : Ctx :=
  let n := retired c.vq
  let ended := (c.vq.take c.convoyLeft).all (·.done)
  let last := ended && c.debugReq = 0 && c.wait ≠ some .brk
  ({ c with
    vq := c.vq.drop n, convoyLeft := if ended then 0 else c.convoyLeft - n,
    order := if n = 0 then c.order else (c.order.filter (n ≤ ·)).map (· - n),
    convoyHead := if last then 0 else c.convoyHead, convoyCount := if last then 0 else c.convoyCount,
    instret := c.instret + BitVec.ofNat 64 n } : Ctx).behind
    fun k => { k with instret := k.instret + BitVec.ofNat 64 n }

/-- The entry at a place changed. -/
def Ctx.atPlace (c : Ctx) (k : Nat) (g : VqEntry → VqEntry) : Ctx :=
  { c with vq := c.vq.mapIdx fun i e => if i = k then g e else e }

/-- The entry at a place with its start index, kept by R448, and the element at which it began. -/
def Ctx.keepAt (c : Ctx) (k first start : Nat) : Ctx :=
  let c1 := c.atPlace k fun e => { e with begun := true, start := start, first := if e.begun then e.first else first }
  { c1 with vstart := if k = c.doneAhead then start else c.vstart }

/-- The entry at a place has completed. Where every one before it has, VSTART becomes that of the next (R41). -/
def Ctx.complete (c : Ctx) (k : Nat) : Ctx :=
  let c1 := c.atPlace k fun e => { e with begun := true, done := true, start := 0 }
  ({ c1 with vstart := if k = c.doneAhead then headStart c1.vq else c.vstart } : Ctx).retireDone

/-- The head entry leaves the queue, and with it the convoy of one that it forms. -/
def Ctx.popEntry (c : Ctx) : Ctx :=
  let last := c.debugReq = 0 && c.wait ≠ some .brk
  { c with vq := c.vq.tail, convoyLeft := 0, order := [], convoyHead := if last then 0 else c.convoyHead,
           convoyCount := if last then 0 else c.convoyCount }

/-- The strip under which each entry of a queue runs, and the one that the next instruction pushed will meet: VL, pad and VSTART, as the grants and changes of
G that wait in the queue leave them in their order (R39, R41, R130). -/
def Ctx.strips (c : Ctx) : List VqEntry → Nat × Nat × Nat → List (VqEntry × Nat × Nat × Nat) × (Nat × Nat × Nat)
  | [], x => ([], x)
  | e :: rest, (vl, pad, st) =>
    let next : Ctx := { c with vtype := (rest.head?.map (·.vtype)).getD c.vtype }
    let m := next.vlmaxFor next.eb
    let x :=
      if e.granted then (e.grant, e.pad, 0)
      else if opOf e.word = 0x1E then (if vl ≤ m then (vl, pad, st) else (m, pad - (vl - m), st))
      else (vl, pad, if e.done then st else 0)
    let r := c.strips rest x
    ((e, vl, pad, if e.begun then e.start else st) :: r.1, r.2)

/-- The strips of a context's queue. -/
def Ctx.stripsNow (c : Ctx) : List (VqEntry × Nat × Nat × Nat) × (Nat × Nat × Nat) := c.strips c.vq (c.vl, c.vpad, c.vstart)

/-- Whether the instruction pushed next begins with VSTART at or above VL (R41). -/
def Ctx.idleNext (c : Ctx) : Bool := decide (c.stripsNow.2.1 ≤ c.stripsNow.2.2.2)

/-- A new convoy of the members that a stop kept (R459). -/
def Ctx.resumeConvoy (c : Ctx) : Ctx :=
  let n := (List.range c.vq.length).foldl (fun m k => if (c.vq[k]?.map (·.begun)).getD false then k + 1 else m) 0
  { c with convoyLeft := n, convoyCount := n, convoyHead := if n = 0 then 0 else (c.vq.head?.map (·.pc)).getD 0 }

/-! ### What a stop discards (R449) -/

/-- The scalar side of a context, to be restored by a discard. -/
def Ctx.checkpoint (c : Ctx) : Checkpoint :=
  ⟨c.sregs, c.fflags, c.instret, c.frm, c.replay, (c.rngkey0, c.rngkey1), c.share, c.pincap⟩

/-- The context as it stood when a vector queue entry was about to be pushed; every instruction before it has taken place, so VLMAX is that of its
VTYPE (R39). -/
def Ctx.revert (c : Ctx) (e : VqEntry) (k : Checkpoint) : Ctx :=
  let at' : Ctx := { c with vtype := e.vtype }
  { c with
    sregs := k.sregs, fflags := k.fflags, instret := k.instret, frm := k.frm, replay := k.replay, rngkey0 := k.keys.1,
    rngkey1 := k.keys.2, share := k.share, pincap := k.pincap, vtype := e.vtype, vlmax := at'.vlmaxFor at'.eb, vtag := e.vtag,
    vcarry := e.vcarry, vfoldop := e.vfoldop, pc := e.pc, reverted := true }

/-- Whether every earlier vector instruction of the context has completed (R54). -/
def Ctx.quiet (c : Ctx) : Bool := (c.vq.all (·.done)) && c.blocks.isNone

/-- D of R449, with its place in the queue: the first vector instruction after the convoy in flight that has been pushed since the
context last resumed. -/
def Ctx.pushed (c : Ctx) : Option (Nat × VqEntry × Checkpoint) :=
  (List.range (c.vq.length - c.convoyLeft)).findSome? fun k =>
    match c.vq[c.convoyLeft + k]? with
    | none => none
    | some d => d.check.map fun x => (c.convoyLeft + k, d, x)

/-- The grants that a ganged context has drawn, without the last `n`, which a discard takes back (R142, R235). -/
def Ctx.dropGrants (c : Ctx) (n : Nat) : Ctx :=
  { c with gang := c.gang.map fun g => { g with pushes := g.pushes - n, grants := g.grants.drop n } }

/-- The discard of R449: every instruction from D onward. -/
def Ctx.discard (c : Ctx) : Ctx :=
  match c.pushed with
  | none => c
  | some (n, d, k) => ({ (c.revert d k) with vq := c.vq.take n } : Ctx).dropGrants ((c.vq.drop n).filter (·.granted)).length

/-- What a stop withdraws: the arrival at an open episode (R261), the joining of a gang that is not complete, and the push of a
ganged `setvl` that waits (R276, R493). -/
def Ctx.withdraw (c : Ctx) : Ctx :=
  { c with
    arrived := none
    gang := c.gang.bind fun g => if g.inside then some { g with push := none } else none }

/-- What a stop keeps of a queue: completed instructions leave it, and a `vbfly.c` whose reader has not completed starts again (R332, R448, R452). -/
def kept : List VqEntry → List VqEntry
  | [] => []
  | e :: rest =>
    if !e.done then e :: kept rest
    else if isChain e.word && !readerDone rest then { e with done := false, start := 0 } :: kept rest
    else kept rest

/-- The queue as a stop keeps it, with the completed instructions counted. -/
def Ctx.settleQueue (c : Ctx) : Ctx :=
  let vq := kept c.vq
  let n := c.vq.length - vq.length
  let changed := c.vq.any (·.done)
  ({ c with
    vq := vq, latch := none, convoyLeft := c.convoyLeft - n, vstart := if changed then headStart vq else c.vstart,
    instret := c.instret + BitVec.ofNat 64 n } : Ctx).behind fun k => { k with instret := k.instret + BitVec.ofNat 64 n }

namespace State

/-! ### Raises of a matrix control core (R374) -/

/-- Whether the oldest raise of a core may take place: the operations and accesses before it have completed. -/
def raiseReady (s : State) (flat : Nat) : Bool :=
  match (s.ctx flat).raises with
  | [] => false
  | x :: _ => x.xq = 0 && (List.range 4).all fun a => decide (x.after.getD a 0 ≤ (s.mill (millOf flat + a)).completed)

/-- A raise (R374): the oldest queued raise of a core takes place once the operations and the accesses before it have completed. -/
def raiseNext (s : State) (flat : Nat) : State :=
  match (s.ctx flat).raises with
  | [] => s
  | x :: rest =>
    if s.raiseReady flat then
      (s.raise (bayOf flat) (s.partOf flat) x.counter x.inc).modCtx flat fun c => { c with raises := rest }
    else s

/-- Entries of the external queue, oldest first, and queued raises complete in the order in which they stand, at most `n` of them. -/
def drainSome (f : Nat) : Nat → State → State
  | 0, s => s
  | n + 1, s =>
    if s.raiseReady f then drainSome f n (s.raiseNext f)
    else if (s.ctx f).xq.isEmpty then s
    else drainSome f n (s.completeEntry f false)

/-- Every entry of a context's external queue completes, as before an image is taken (R118), and the raises between them (R374). -/
def drainXq (s : State) (f : Nat) : State := drainSome f ((s.ctx f).xq.length + (s.ctx f).raises.length) s

/-! ### Stopping -/

/-- What every stop leaves of a context that stood at `c`: stopped, with its record, waiting for nothing. -/
def stopAs (c : Ctx) (r : Line) : Ctx :=
  { c with
    life := .stopped, record := r, wait := none, late := none, passBreak := false, stepping := false, debugReq := 0, slotted := 0,
    order := [], convoyHead := 0, convoyCount := 0, convoyLeft := 0 }

/-- TAKING AN EXCEPTION (R440): every external queue entry and stream write completes (R453), and the context stops, keeps what R448 keeps and discards what R449 discards, its record is
written, a copy goes into the ring, and the system core is interrupted. `pc` is the record's program counter; the
image's is the context's, or the one the discard restores. -/
def stopContext (s : State) (f : Nat) (t : Trap) (pc elem code : Nat) (ethr : Bool) : State :=
  let s1 := (s.drainXq f).settleStreams f
  let r := s1.recordOf f t pc elem code ethr
  let c := s1.ctx f
  let c1 := if t.cause = 0x0D then c.settleQueue else c.settleQueue.discard
  ((s1.setCtx f (stopAs (Ctx.withdraw c1) r)).releasePins f).ringTrap (s.partOf f) t.stage2 r

/-- A condition that an instruction meets. When an earlier vector instruction has met one already, its record is the one
written (R447). -/
def takeTrap (s : State) (f : Nat) (t : Trap) (pc elem code : Nat) (ethr : Bool) : State :=
  match (s.ctx f).late with
  | some l => s.stopContext f l.trap l.pc l.elem 0 l.ethr
  | none => s.stopContext f t pc elem code ethr

/-- Whether a vector instruction in the queue may access memory through a view that meets `d` (R155, R157). The words of element blocks are
not looked through: a `vfetch` counts as an access through every scratchpad view (log entry 96). -/
def queueMeets (f : Nat) (c : Ctx) (d : Option Line) : Bool :=
  match d with
  | none => false
  | some d =>
    c.vq.any fun e => !e.done &&
      ((opOf e.word = 0x1F && decide (View.space d ≤ 1)) ||
      (e.via.map fun v => View.meet (millOf f % 4) (millOf f % 4) v.desc d).getD false)

/-- Whether a vector instruction in the queue makes accesses that a fence names: through a view in its mask, and for `fence.s` the stream transfers.
Element blocks may go through any view. -/
def fenceVector (c : Ctx) (whole : Bool) (m : BitVec 16) : Bool :=
  c.vq.any fun e => !e.done &&
    ((decide (m ≠ 0 || whole) && decide (opOf e.word = 0x1F)) || (e.via.map fun v => bitAt m v.reg).getD false ||
      (whole && decide (opOf e.word = 0x2C)))

/-- Whether a transfer of a stream is in the queue. -/
def transferQueued (c : Ctx) (q : Nat) : Bool :=
  c.vq.any fun e => !e.done && decide (opOf e.word = 0x2C) && decide (bitsAt e.word 16 3 = q)

/-- Whether a wait can end only with vector instructions of the same context, which do not go on once one of them has met a trap. -/
def waitsVector (f : Nat) (c : Ctx) (w : Wait) : Bool :=
  match w with
  | .vectorQueue | .earlier | .brk | .release | .blocks | .element _ _ | .gangSetvl => true
  | .certain => !c.certain
  | .pendingRegister rs => c.vq.any fun e => e.dest ≠ 0 && rs.contains e.dest
  | .fence whole m => fenceVector c whole m
  | .order n seen => (seen && !c.certain) || queueMeets f c (c.view (isCore f) n)
  | .views n | .viewCount n => c.vq.any fun e => !e.done && (e.via.map fun v => decide (v.reg = n)).getD false
  | .streamCount q _ | .unbind q => transferQueued c q
  | .externalQueue | .waitx _ | .sleep _ | .counter _ _ | .meets _ | .pin _ | .port _ | .draining | .gang | .gbar | .joinl _ | .arrays _ => false

/-- A trap of the convoy in flight. With the next vector instruction pushed, the context stops at once and discards it;
otherwise the thread core goes on to that instruction first, through every scalar instruction before it, unless it
waits for what the convoy cannot bring any more (R449; log entry 125). -/
def vectorTrap (s : State) (f : Nat) (t : Trap) (pc elem : Nat) (ethr : Bool) : State :=
  let c := s.ctx f
  if c.pushed.isNone && c.debugReq = 0 && !((c.wait.map (waitsVector f c)).getD false) then
    s.setCtx f { c with late := some ⟨t, pc, elem, ethr⟩ }
  else s.takeTrap f t pc elem 0 ethr

/-- The stop of a trap that waits (R449). -/
def stopLate (s : State) (f : Nat) : State :=
  match (s.ctx f).late with
  | some l => s.stopContext f l.trap l.pc l.elem 0 l.ethr
  | none => s

/-- A wait (R276): the instruction has taken no effect and is executed again at the context's next turn. While a vector trap
waits for its stop, a wait that only vector instructions could end brings the stop (R449). -/
def stall (s : State) (f : Nat) (w : Wait) : State :=
  let c := s.ctx f
  if c.late.isSome && waitsVector f c w then s.stopLate f else s.setCtx f { c with wait := some w }

/-- Whether a core's earlier matrix operations, which go through its view 0 (R161), have completed. -/
def matIdle (s : State) (f : Nat) : Bool :=
  !isCore f || (List.range 4).all fun a => (s.mill (millOf f + a)).queue.isEmpty

/-- Whether a core's earlier matrix operations that read or write memory have completed. -/
def matMemoryIdle (s : State) (f : Nat) : Bool :=
  (List.range 4).all fun a => (s.mill (millOf f + a)).queue.all fun o => !o.kind.memory

/-- A trap at the instruction an agent is about to execute, once every earlier instruction of it has completed: no register,
memory or flag changes, and the record names the instruction and VSTART (R76, R376). -/
def trapHere (s : State) (f : Nat) (t : Trap) : State :=
  if (s.ctx f).quiet && s.matIdle f then s.takeTrap f t (s.ctx f).pc (s.ctx f).vstart 0 false
  else s.stall f .earlier

/-- A debug stop (R493): cause 0x0D, with the source and breakpoint in DBGSTAT. Where a vector trap waits for its stop, that stop is the one made, and
DBGSTAT stays (R494). -/
def debugStop (s : State) (f src bpn code : Nat) : State :=
  let done (s : State) : State := s.modCtx f fun c => { c with debugReq := 0, convoyHead := 0, convoyCount := 0 }
  if (s.ctx f).late.isSome then done (s.stopLate f)
  else
    let s1 := s.modCtx f fun c => { c with dbgstat := src * 16 + bpn }
    done (s1.takeTrap f { cause := 0x0D } (s1.ctx f).pc (s1.ctx f).vstart code false)

end State

/-- A completed scalar instruction: the next program counter and one more instruction retired (R50). -/
def Ctx.retire (c : Ctx) (pc : Nat) : Ctx :=
  { c with pc := pc, instret := c.instret + 1, wait := none, passBreak := false,
           debugReq := if c.stepping then 3 else c.debugReq, stepping := false }

/-- A completed instruction of a convoy of one: VSTART is 0 and one more instruction has retired (R41, R50). -/
def Ctx.vretire (c : Ctx) : Ctx :=
  ({ c with vstart := 0, instret := c.instret + 1 } : Ctx).behind fun k => { k with instret := k.instret + 1 }

/-- Flags raised by a vector instruction. -/
def Ctx.accrue (c : Ctx) (fl : Flags) : Ctx := (c.raiseFlags fl).behind fun k => { k with fflags := k.fflags ||| fl }

/-- Registers that an `ldx`, a returning atomic or a queued vector instruction has yet to write (R116, R337). -/
def Ctx.pending (c : Ctx) (r : Nat) : Bool :=
  decide (r ≠ 0) && ((c.xq.any fun e => e.dest = r) || (c.vq.any fun e => e.dest = r))

namespace State

/-- A failed external queue entry that an instruction naming the registers `rs` waits on (R118). -/
def failureOf (c : Ctx) (rs : List Nat) : Option XqFail := c.xfail.find? fun x => x.dest ≠ 0 && rs.contains x.dest

/-- A trap of an element thread (R269): its element, its table offset, and the whole context stops. -/
def groupTrap (s : State) (f e off : Nat) (t : Trap) : State := s.vectorTrap f t off e true

/-- The word of the block table at an offset (R265), or the fault of its fetch. -/
def blockFetch (s : State) (f off : Nat) : Except Trap Word :=
  let c := s.ctx f
  let va := c.code.blocks + off
  if 128 * c.code.nblk ≤ off then .error (.access va)
  else
    match s.translate (s.partOf f) va .fetch with
    | .error t => .error t
    | .ok x => .ok (BitVec.ofNat 32 (s.dev.read x.phys 4))

/-- The element thread that follows an element in a list of them, and the one before it. -/
def successor (ts : List EThread) (e : Nat) : Option EThread := ts.find? fun t => decide (e < t.elem)
def predecessor (ts : List EThread) (e : Nat) : Option EThread := (ts.filter fun t => t.elem < e).getLast?

/-- Whether an element thread waits by R268: at an `xqsend` with a full link, or an `xqrecv` with an empty one, while the
thread at the other end lives. -/
def linkWaits (s : State) (f : Nat) (ts : List EThread) (t : EThread) : Bool :=
  let c := s.ctx f
  -- a register that fails the checks of R75 traps and does not wait
  let carried (n : Nat) : Bool :=
    decide (n < c.nreg) && decide (n % c.g = 0) && c.tag n ≠ .none && [1, 2, 4].contains (c.tag n).bytes
  match s.blockFetch f t.off with
  | .error _ => false
  | .ok w =>
    match decodeThread w with
    | .ok (.xqsend a) =>
      carried a.toNat &&
      match successor ts t.elem with
      | some u => t.link.isSome && u.live
      | none => false
    | .ok (.xqrecv d) =>
      carried d.toNat &&
      match predecessor ts t.elem with
      | some u => u.link.isNone && u.live
      | none => false
    | _ => false

/-- The issue group (R269): the lowest table offset at which a live element thread stands that does not wait, and those
that stand there. -/
def issueGroup (s : State) (f : Nat) (b : Blocks) : Nat × List EThread :=
  let ready := b.threads.filter fun t => t.live && !s.linkWaits f b.threads t
  let off := ready.foldl (fun m t => min m t.off) (2 ^ 32)
  (off, ready.filter fun t => t.off = off)

/-- An element thread meets a word that is not permitted in element blocks (R266), or that decodes to a trap. -/
def trapGroup (s : State) (f : Nat) (t : Trap) : State :=
  match (s.ctx f).blocks with
  | none => s
  | some b =>
    match s.issueGroup f b with
    | (off, m :: _) => s.groupTrap f m.elem off t
    | (_, []) => s

/-- A SCALAR INSTRUCTION. In an element thread it raises the element-block trap (R125, R266). Otherwise it waits while the vector queue is
full (R271) or a register it names is pending (R116), reports a failed entry that it waited on (R118), and then has its effect `k`. -/
def scalar (rs : List Nat) (k : Nat → Ctx → State → State) (s : State) : State :=
  match s.cur with
  | .agent f =>
    let c := s.ctx f
    if c.queueFull then s.stall f .vectorQueue
    else if rs.any c.pending then s.stall f (.pendingRegister rs)
    else
      match failureOf c rs with
      | some x =>
        if c.quiet && s.matIdle f then (s.setCtx f { c with xfail := c.xfail.erase x }).trapHere f (.access x.addr)
        else s.stall f .earlier
      | none => k f c s
  | .group f => s.trapGroup f .block
  | _ => s

/-- A scalar instruction whose word, with the registers it reads, may fail a check of R75, which comes before a failed entry is reported. -/
def checked (bad : Nat → Ctx → Option Trap) (rs : List Nat) (k : Nat → Ctx → State → State) (s : State) : State :=
  match s.cur with
  | .agent f =>
    if rs.any (s.ctx f).pending then s.stall f (.pendingRegister rs)
    else
      match bad f (s.ctx f) with
      | some t => s.trapHere f t
      | none => s.scalar rs k
  | _ => s.scalar rs k

/-- A scalar instruction of one result: s[d] takes a value, flags are raised, and the next instruction follows. -/
def simple (rs : List Nat) (d : Nat) (val : Ctx → Dword × Flags) (s : State) : State :=
  s.scalar (d :: rs) fun f c s =>
    let (v, fl) := val c
    s.setCtx f (((c.raiseFlags fl).setS d v).retire (c.pc + 4))

/-- A scalar instruction that is not one of a matrix control core (R71). -/
def threadOnly (rs : List Nat) (k : Nat → Ctx → State → State) (s : State) : State :=
  if isCore s.me then s.trapHere s.me .illegal else s.scalar rs k

/-- The same for one that may fail a check of R75. -/
def threadOnlyChecked (bad : Nat → Ctx → Option Trap) (rs : List Nat) (k : Nat → Ctx → State → State) (s : State) : State :=
  if isCore s.me then s.trapHere s.me .illegal else s.checked bad rs k

/-- A thread's instruction with an effect that another context could observe, which is held while it is provisional (R449). -/
def threadCertain (rs : List Nat) (k : Nat → Ctx → State → State) (s : State) : State :=
  if isCore s.me then s.trapHere s.me .illegal
  else s.scalar rs fun f c s => if c.quiet || c.certain then k f c s else s.stall f .certain

/-- Element groups of a vector access that have still to perform (R162), under the strip it runs with: VL, pad and where it goes on. -/
def accessGroups (c : Ctx) (x : VqEntry × Nat × Nat × Nat) : Nat :=
  let (e, vl, pad, start) := x
  if e.done then 0 else groupsBetween (c.groupOf e) start (vl - pad)

/-- The outstanding accesses of a context through the view now in w[n] (R162): scalar accesses, and the element groups of vector accesses.
The count stands at 4,095 at most (R163). -/
def viewCount (c : Ctx) (n : Nat) : Nat :=
  min 4095 ((c.xq.filter fun e => e.via.isNow n).length +
    ((c.stripsNow.1.filter fun x => (x.1.via.map fun v => v.isNow n).getD false).map (accessGroups c)).sum)

/-- What holds an access through view w[n]: earlier accesses of the context through a view that may meet it (R113, R157), on a matrix control core the
matrix operations for view 0 (R161), and for an access that another agent could observe what makes it provisional (R449). -/
def orderHeld (s : State) (f w : Nat) (seen : Bool) : Bool :=
  let c := s.ctx f
  (seen && !c.certain) || queueMeets f c (c.view (isCore f) w) || (isCore f && w = 0 && !s.matMemoryIdle f)

/-- A scalar access through view w[n], which waits for its order and for room in the view's count (R163). -/
def ordered (w : Nat) (seen : Bool) (rs : List Nat) (k : Nat → Ctx → State → State) (s : State) : State :=
  s.scalar rs fun f c s =>
    if s.orderHeld f w seen then s.stall f (.order w seen)
    else if viewCount c w = 4095 then s.stall f (.viewCount w)
    else k f c s

end State

/-! ### Vector instructions -/

/-- The result of one element, or of a whole instruction. `done` says that the element itself has performed, as before a
watchpoint trap (R190); `wait` that element i must wait (R276). -/
inductive Res where
  | ok (s : State)
  | trap (t : Trap) (i : Nat) (done : Bool) (s : State)
  | wait (w : Wait) (i : Nat) (s : State)
deriving DecidableEq, Repr

/-- What a vector instruction read when it was pushed (R53, R195, R202, R357), the index at which it goes on, and whether it begins
there at element 0. -/
structure Env where
  f : Nat
  pc : Nat
  sa : Dword
  sb : Dword
  keys : Dword × Dword
  view : Option Line
  start : Nat
  fresh : Bool
deriving DecidableEq, Repr

/-- What a vector instruction is made of: the scalar registers it reads at push and the one it will write, the view it names, its checks at
decode (R75, R445 steps 1 and 2) and at issue (R445 steps 3 to 5), its governing predicate,
what it waits for before it runs up to an element, the end of its loop, its effect, by element (active or inactive) or whole, what it
does before element 0 and after the last, what it does in place of that where VSTART is at or above VL (R41), what it changes in program order
as it is pushed, and the group that it may read from the latch. -/
structure VOp where
  word : Word
  sa : Nat := 0
  sb : Nat := 0
  dest : Nat := 0
  view : Option Nat := none
  decode : Nat → Ctx → Option Trap := fun _ _ => none
  issue : Env → State → Option Trap := fun _ _ => none
  pm : Nat := 0
  limit : Ctx → Nat := fun c => c.reals
  elem : Env → Nat → State → Res := fun _ _ s => .ok s
  skip : Env → Nat → State → Res := fun _ _ s => .ok s
  whole : Option (Env → Nat → State → Res) := none
  busy : Env → Nat → State → Option Wait := fun _ _ _ => none
  begin' : Env → State → State := fun _ s => s
  finish : Env → State → State := fun _ s => s
  idle : Env → State → State := fun _ s => s
  push : Ctx → Ctx := id
  reader : Option Nat := none
  always : Bool := false
  inBlock : Bool := false

/-- The element loop of R314 from element i for n elements, in ascending order: `el` at an active element, and `sk` at an
inactive one, which for most instructions has no effect. -/
def elements (pm : Nat) (env : Env) (el sk : Env → Nat → State → Res) : Nat → Nat → State → Res
  | 0, _, s => .ok s
  | n + 1, i, s =>
    match (if (s.ctx env.f).pbit pm i then el env i s else sk env i s) with
    | .ok s' => elements pm env el sk n (i + 1) s'
    | r => r

/-- Elements `lo` to `hi − 1` of an instruction, or all of it where its effect is whole. -/
def VOp.run (op : VOp) (env : Env) (lo hi : Nat) (s : State) : Res :=
  match op.whole with
  | some w => w env lo s
  | none => elements op.pm env op.elem op.skip (hi - lo) lo s

/-- The queue entry of an instruction about to be pushed (R456), by a context of a mill. -/
def VOp.entry (op : VOp) (c : Ctx) : VqEntry where
  word := op.word
  pc := c.pc
  sa := c.s op.sa
  sb := c.s op.sb
  grant := 0
  pad := 0
  granted := false
  chain := isChain op.word
  begun := false
  done := false
  start := 0
  keys := (c.rngkey0, c.rngkey1)
  vtype := c.vtype
  vtag := c.vtag
  vcarry := c.vcarry
  vfoldop := c.vfoldop
  dest := op.dest
  via := op.view.bind fun n => (c.view false n).map fun d => ⟨n, d, none⟩
  regs := none
  sees := none
  first := 0
  holds := []
  check := some c.checkpoint

/-- What an entry gives its instruction, which goes on at an index. -/
def VqEntry.env (e : VqEntry) (f start : Nat) : Env := ⟨f, e.pc, e.sa, e.sb, e.keys, e.via.map (·.desc), start, !e.begun && start = 0⟩

/-- An element thread moved to an offset of the block table. -/
def Blocks.move (b : Blocks) (e off : Nat) : Blocks :=
  { b with threads := b.threads.map fun t => if t.elem = e then { t with off := off } else t }

/-- Whether a `vfetch` is in the queue. The thread core pushes no vector instruction behind it, since an element thread may retag a
register for the instructions after it (R36). -/
def Ctx.fetching (c : Ctx) : Bool := c.vq.any fun e => decide (opOf e.word = 0x1F)

/-- In program order, the name of the latch that the next vector instruction must read (R331): that of a `vbfly.c` pushed
last. -/
def Ctx.latchNext (c : Ctx) : Option Nat :=
  c.vq.getLast?.bind fun e => if isChain e.word then some (bitsAt e.word 20 6) else none

/-- The group that the first member of the chain read whose latch the next instruction reads (R331). -/
def Ctx.chainSource (c : Ctx) : Option Nat :=
  (c.vq.reverse.takeWhile fun e => isChain e.word).getLast?.map fun e => bitsAt e.word 14 6

/-- An instruction that may not follow a `vbfly.c` (R331). -/
def Ctx.latchBad (c : Ctx) (reader : Option Nat) : Bool := c.latchNext.isSome && decide (reader ≠ c.latchNext)

/-- The head of the queue, a `vfetch`, takes the VTYPE and tags that an issue group of it has set (R36). -/
def Ctx.retagHead (c : Ctx) : Ctx :=
  c.atPlace 0 fun e => { e with vtype := c.vtype, vtag := c.vtag, vcarry := c.vcarry, vfoldop := c.vfoldop }

namespace State

/-- A function run under the VTYPE, tags and carry set an entry was pushed with (R36); the context's own come back
after it. -/
def underEntry (e : VqEntry) (f : Nat) (k : State → State) (s : State) : State :=
  let c := s.ctx f
  let s1 := k (s.setCtx f
    { c with vtype := e.vtype, vtag := e.vtag, vcarry := e.vcarry, vfoldop := e.vfoldop, reverted := false })
  s1.modCtx f fun c' =>
    if c'.reverted then { c' with reverted := false }   -- a discard has set them
    else { c' with vtype := c.vtype, vtag := c.vtag, vcarry := c.vcarry, vfoldop := c.vfoldop }

/-- The instruction at place k of a context's queue has completed. -/
def endMember (f k : Nat) (e : VqEntry) (s : State) : State :=
  (s.sample f k e ((s.ctx f).widestOf e.word)).modCtx f fun c => c.complete k

/-- A mill whose only vector instruction has issued `n` element groups for context f, from a pointer that begins afresh: the arbiter stands at the next
context where the last of them ended the turn of 4 × weight, and has come round to this one otherwise (R274). -/
def chargeAlone (s : State) (f n : Nat) : State :=
  if n = 0 then s
  else s.modMill (millOf f) fun m =>
    { m with pointer := (if n % (4 * (s.ctx f).share) = 0 then f + 1 else f) % 16, fresh := true }

/-- `n` element groups have been issued: with `slots` in the one slot that the arbiter has granted, otherwise in the slots of the cycles they take. -/
def issued (slots : Bool) (f n : Nat) (s : State) : State :=
  if slots then s.modCtx f fun c => { c with took := n ≠ 0 } else s.chargeAlone f n

/-- A vector instruction waits, with nothing of its element group performed. While it waits for a stream the context issues nothing (R197, R276). -/
def holdMember (f : Nat) (w : Wait) (s : State) : State :=
  match w with
  | .element _ _ => s.modCtx f fun c => if c.wait.isNone then { c with wait := some w } else c
  | _ => s

/-- The context of a vector instruction that goes on: no slot is owed to it, and it waits for no stream. -/
def goOn (c : Ctx) : Ctx :=
  { c with slotted := 0, wait := match c.wait with
      | some (.element _ _) => none
      | w => w }

/-- An issue check (R445 steps 3 to 5) has failed as the entry at place k begins or goes on: nothing of it performs, and it stays in its convoy, with a
start index above 0 kept (R448). -/
def refuseIssue (f k : Nat) (t : Trap) (start : Nat) (e : VqEntry) (s : State) : State :=
  (if start = 0 then s else s.modCtx f fun c => c.keepAt k start start).vectorTrap f t e.pc start false

/-- The entry at place k of a context's queue runs up to element `upto` of its loop, or to its end: the shared course of every
vector instruction, from its issue checks to its completion or its trap. With `slots`, one that takes place whole first receives an issue slot for
each of its element groups (R18, R273). -/
def runMember (op : VOp) (f k : Nat) (slots : Bool) (upto : Ctx → Nat → Nat) (e : VqEntry) (s : State) : State :=
  let c := s.ctx f
  let start := c.startAt k e
  let env := e.env f start
  let e1 : VqEntry := if e.begun then e else { e with first := start }
  let g := c.groupOf e
  if !e.begun && decide (c.vl ≤ start) && !op.always then
    (op.idle env (s.modCtx f goOn)).endMember f k { e with first := c.reals }
  else
    match op.issue env s with
    | some t => s.refuseIssue f k t start e
    | none =>
      let stop := min (op.limit c) (upto c start)
      match op.busy env stop s with
      | some w => s.holdMember f w
      | none =>
        if slots && op.whole.isSome && decide (c.slotted + 1 < groupsBetween g start (op.limit c)) then
          s.modCtx f fun c => { c with slotted := c.slotted + 1, took := true }
        else
          let s0 := s.modCtx f goOn
          let s1 := if env.fresh then op.begin' env s0 else s0
          match op.run env start stop s1 with
          | .trap t i done s' =>
            let at' := if done then i + 1 else i
            ((issued slots f (groupsBetween g start (i + 1)) s').modCtx f fun c => c.keepAt k start at').vectorTrap f t e.pc i false
          | .wait w _ _ => s.holdMember f w
          | .ok s' =>
            let s2 := issued slots f (groupsBetween g start stop) s'
            if decide (op.limit c ≤ stop) || op.whole.isSome then (op.finish env s2).endMember f k e1
            else s2.modCtx f fun c => c.keepAt k start stop

/-- The other contexts of a mill have no vector instruction queued, and its arbiter owes none of them anything. -/
def millQuiet (s : State) (f : Nat) : Bool :=
  (s.mill (millOf f)).fresh &&
    (millContexts (millOf f)).all fun g => (s.ctx g).deficit = 0 && (g = f || (s.ctx g).vq.isEmpty)

/-- The whole of a vector instruction whose thread core has just pushed it behind completed ones, at place k of its queue, in a mill whose other contexts
have none: the issue slots of the cycles that it takes are all its own (log entry 99). -/
def runAll (op : VOp) (f k : Nat) (e : VqEntry) (s : State) : State :=
  let s1 := s.modCtx f Ctx.beginConvoy
  if (s1.ctx f).convoyLeft = 0 then s
  else underEntry e f (fun s => runMember op f k false (fun c _ => op.limit c) e s) s1

/-- One element group of the entry at place k (R18, R274). -/
def runGroup (op : VOp) (f k : Nat) (s : State) : State :=
  match (s.ctx f).vq[k]? with
  | none => s
  | some e =>
    underEntry e f (fun s => runMember op f k true (fun c start => (start / c.groupOf e + 1) * c.groupOf e) e s) s

/-- An element thread of a context moved on to the next word. -/
def advanceThread (s : State) (f e off : Nat) : State :=
  s.modCtx f fun c => { c with blocks := c.blocks.map fun b => Blocks.move b e (off + 4) }

/-- The members of an issue group execute an element-wise instruction one after another (R269). A member that would run
off its block raises the element-block trap (R267). -/
def runMembers (op : VOp) (env : Env) (off : Nat) : List Nat → State → State
  | [], s => s
  | e :: rest, s =>
    if off % 128 = 124 then s.groupTrap env.f e off .block
    else if (s.ctx env.f).pbit op.pm e then
      match op.elem env e s with
      | .ok s' => runMembers op env off rest (s'.advanceThread env.f e off)
      | .trap t _ done s' =>
        let s2 := if done then s'.advanceThread env.f e off else s'
        s2.groupTrap env.f e off t
      | .wait _ _ s' => s'
    else runMembers op env off rest (s.advanceThread env.f e off)

/-- Whether an element thread has left an offset. -/
def hasLeft (s : State) (f e off : Nat) : Bool :=
  ((s.ctx f).blocks.map fun b => b.threads.any fun t => t.elem = e && t.off ≠ off).getD false

/-- The element groups, of `n` elements each, that hold a member of an issue group: the issue slots it occupies (R269). -/
def groupSlots (n : Nat) (ms : List Nat) : Nat := (ms.map (· / n)).eraseDups.length

/-- An issue group executes `k` once it has been allotted its slots (R269). -/
def withSlots (s : State) (f need : Nat) (k : State → State) : State :=
  if (s.ctx f).slotted + 1 < need then s.modCtx f fun c => { c with slotted := c.slotted + 1 }
  else k (s.modCtx f fun c => { c with slotted := 0 })

/-- An issue group of element threads executes a vector instruction (R266, R269), with the views that stood at the push of its `vfetch` (R195). What a
`vcvt` changes in program order it changes at that issue, once a member has executed it (R36), for the `vfetch` in the queue as well. -/
def runIssueGroup (op : VOp) (f : Nat) (s : State) : State :=
  match (s.ctx f).blocks with
  | none => s
  | some b =>
    let (off, ms) := s.issueGroup f b
    let c := s.ctx f
    let seen : Ctx := { c with views := b.views }
    let env : Env := ⟨f, b.pc, if op.sa = 0 then 0 else b.sregs.toList.getD op.sa 0,
      if op.sb = 0 then 0 else b.sregs.toList.getD op.sb 0, b.keys, op.view.bind (seen.view false), 0, false⟩
    if !op.inBlock then s.trapGroup f .block
    else
      match op.decode f seen with
      | some t => s.trapGroup f t
      | none =>
        match op.issue env s with
        | some t => s.trapGroup f t
        | none =>
          match op.busy env 0 s with
          | some _ => s
          | none =>
            let es := ms.map (·.elem)
            s.withSlots f (groupSlots (max 1 (256 / c.widestOf op.word)) es) fun s =>
              let s1 := runMembers op env off es s
              if s1.hasLeft f (es.headD 0) off then s1.modCtx f fun c => (op.push c).retagHead else s1

/-- The context after the push of an entry. -/
def pushEntry (c : Ctx) (e : VqEntry) : Ctx :=
  { c with
    vq := c.vq ++ [e], pc := c.pc + 4, wait := none, passBreak := false,
    debugReq := if c.stepping then 3 else c.debugReq, stepping := false }

/-- A VECTOR INSTRUCTION. A thread core checks it at decode (R75), waits for its scalar operands and for room in the queue
(R271), and pushes it; with nothing ahead of it in the queue it then runs to its end at once, unless the turn leaves it
queued. The arbiter runs one element group of it, and the sequencer one issue group. -/
def vector (op : VOp) (s : State) : State :=
  match s.cur with
  | .agent f =>
    if isCore f then s.trapHere f .illegal
    else
      s.checked (fun f c => if c.latchBad op.reader then some Trap.operand else op.decode f c) [op.sa, op.sb, op.dest]
        fun f c s =>
          if c.late.isSome then s.stopLate f
          else if c.fetching then s.stall f .blocks
          else if (op.view.map (viewCount c)).getD 0 = 4095 then s.stall f (.viewCount (op.view.getD 0))
          else
            let e := op.entry c
            let c0 := pushEntry c e
            let c1 := if c.idleNext then c0 else op.push c0
            if s.defer || !c.quiet || !s.millQuiet f then s.setCtx f c1 else runAll op f c.vq.length e (s.setCtx f c1)
  | .entry f k => runGroup op f k s
  | .group f => runIssueGroup op f s
  | _ => s

end State

end Sys2Proof.Machine
end

