-- ==== Sys2Proof/Machine/Operands.lean ====
section
/-! DEFINITION. Operand forms: sign-extended immediates and targets (R60), scalar float operands (R105), and the checks of vector operands
(R29, R35, R43, R313). -/

namespace Sys2Proof.Machine

/-! ### Immediates and targets (R60) -/

/-- SExt(x, 64). -/
def sext {k : Nat} (x : BitVec k) : Dword := x.signExtend 64
/-- pc + SExt(off, 64) × 4, modulo 2^64. -/
def target {k : Nat} (pc : Nat) (off : BitVec k) : Nat := ((BitVec.ofNat 64 pc) + sext off * 4).toNat

/-! ### Scalar float operands (R105) -/

/-- The format a 3-bit code names. -/
def fmtOf (f : BitVec 3) : Fmt := Fmt.ofCode f.toNat
/-- A register read in a format: the higher bits are ignored. -/
def Fmt.ofReg (F : Fmt) (x : Dword) : FVal := F.decode (x.toNat % 2 ^ F.bits)
/-- A result in a format: the bits above it are written zero. -/
def Fmt.toReg (F : Fmt) (b : Nat) : Dword := BitVec.ofNat 64 (b % 2 ^ F.bits)

/-! ### Vector operands -/

/-- The limits of a vector register operand (R29): below NREG and a multiple of G. -/
def Ctx.groupOk (c : Ctx) (n : Nat) : Bool := decide (n < c.nreg) && decide (n % c.g = 0)
/-- Tag of a group: that of its base register (R35). -/
def Ctx.tagOf {k : Nat} (c : Ctx) (n : BitVec k) : Tag := c.tag n.toNat
/-- Fit (R313): VL elements of b bytes within the group. -/
def Ctx.fits (c : Ctx) (b : Nat) : Bool := decide (c.vl * b ≤ c.groupBytes)

/-- The first check that fails, in the order they are listed. -/
def firstTrap : List (Bool × Trap) → Option Trap
  | [] => none
  | (bad, t) :: rest => if bad then some t else firstTrap rest

/-- The illegal-operand check of some vector operands (R29). -/
def Ctx.badGroups (c : Ctx) (ns : List Nat) : Bool := ns.any fun n => !c.groupOk n
/-- The check that some operands are tagged (R35). -/
def Ctx.untagged (c : Ctx) (ns : List Nat) : Bool := ns.any fun n => c.tag n = .none

/-- Widest element of some groups under their tags (R18). -/
def Ctx.widest (c : Ctx) (ns : List Nat) : Nat := ns.foldl (fun m n => max m (c.tag n).bytes) 1

/-- The issue check of fit for some groups (R313). -/
def fitTrap (ns : List Nat) (env : Env) (s : State) : Option Trap :=
  let c := s.ctx env.f
  if ns.all fun n => c.fits (c.tag n).bytes then none else some .operand

/-- Element i of a group as a value under the group's tag. -/
def Ctx.val (c : Ctx) (n i : Nat) : Val := (c.tag n).read (c.elem n (c.tag n).bytes i)
/-- A scalar as an element value under a tag: its low bytes (R313). -/
def scalarVal (t : Tag) (x : Dword) : Val := t.read (x.toNat % 2 ^ t.width)
/-- SetElem of a group under its tag. -/
def Ctx.put (c : Ctx) (n i v : Nat) : Ctx := c.setElem n (c.tag n).bytes i v

/-- A value as a float of a binary format, read back from its bits. -/
def Val.flt? : Val → FVal
  | .flt x => x
  | .int x => .ofInt x
/-- A value as an integer; a float counts as 0 and is never asked. -/
def Val.int? : Val → Int
  | .int x => x
  | .flt _ => 0

end Sys2Proof.Machine
end

