-- ==== Sys2Proof/Machine/Flags.lean ====
section
/-! DEFINITION. Which flags an operation raises beyond its rounding (R107, R304, R305, R320), and how they reach FFLAGS (R50). -/

namespace Sys2Proof.Machine

/-- NV of a comparison: any NaN for an ordered comparison, a signalling NaN only for an equality (R107, R320). -/
def compareFlags (ordered : Bool) (x y : FVal) : Flags :=
  if ordered then (if x.isNan || y.isNan then Flags.nv else 0) else snanFlag [x, y]

/-- a = b, a < b or a ≤ b of two floats: 0 with a NaN operand (R107). -/
def floatEq (x y : FVal) : Bool := !x.isNan && !y.isNan && fEqNum x y
def floatLt (x y : FVal) : Bool := !x.isNan && !y.isNan && fLtNum x y
def floatLe (x y : FVal) : Bool := floatLt x y || floatEq x y

/-- A rounded result of a scalar operation with the flags of the operation and of its rounding. -/
def roundScalar (F : Fmt) (rm : RM) (r : FVal × Flags) : Dword × Flags :=
  let (b, fl) := F.roundTo rm r.1
  (F.toReg b, r.2 ||| fl)

/-- A truth value in a register, with flags. -/
def truth (b : Bool) (fl : Flags) : Dword × Flags := (BitVec.ofNat 64 (b2n b), fl)

/-- A state with flags raised in a context. -/
def State.raiseFlags (s : State) (f : Nat) (fl : Flags) : State := s.modCtx f fun c => c.raiseFlags fl

end Sys2Proof.Machine
end

