-- ==== Sys2Proof/Machine/ScalarMem.lean ====
section
/-! DEFINITION. Scratch loads and stores, the external queue and the scalar atomics (OP 0x13 to 0x18, and `waitx`; R111 to R118, R209 to R212). -/

namespace Sys2Proof.Machine

/-! ### Shared checks -/

/-- The byte offset s[sa] + (SExt(imm10, 64) << size), modulo 2^64 (R112). -/
def memOffset (c : Ctx) (a : BitVec 5) (z : BitVec 2) (i : BitVec 10) : Dword :=
  c.s a.toNat + (sext i <<< z.toNat)

/-- A view number a matrix control core does not accept (R72). -/
def coreViewBad (f w : Nat) : Bool := isCore f && w ≠ 0 && w ≠ 15

/-- Steps 2 to 4 of R112 for offset `b` (signed): the byte address, or the trap. A byte that an uncorrectable error has struck (`bad`) raises the access
trap before the alignment of its address is tested (R445). -/
def scratchCheck (bad : Nat → Bool) (d : Line) (b : Int) (n : Nat) : Except Trap Nat :=
  if 1 < View.space d || View.rank d ≠ 1 || View.stride d 0 ≠ 1 || View.whole d then .error (.access 0)
  else if b < 0 || (View.ext d 0 * View.size d : Nat) < b + n then .error (.access (((View.base d : Int) + b) % 2 ^ 64).toNat)
  else
    let a := View.base d + b.toNat
    if bad a then .error (.access a) else if a % n ≠ 0 then .error (.align a) else .ok a

/-- The bounds of R114 for offset `b`: unsigned under w15, signed otherwise. The byte address, and whether it is in bounds. -/
def externalAddr (d : Line) (b : Dword) (n : Nat) : Int × Bool :=
  if View.whole d then (b.toNat, decide (b.toNat + n ≤ 2 ^ 64))
  else
    let a : Int := View.base d + b.toInt
    if View.rank d = 1 && View.stride d 0 = 1 then
      (a, decide (0 ≤ b.toInt) && decide (b.toInt + n ≤ (View.ext d 0 * View.size d : Nat)))
    else (a, decide (View.lo d ≤ a) && decide (a + n - 1 ≤ View.hi d))

/-- The checks of R114 in order: translation, bounds, permission and window, then alignment to `al` bytes; for an atomic, alignment comes before
permission and window (R210). -/
def externalCheck (s : State) (f : Nat) (d : Line) (b : Dword) (n al : Nat) (u : Use) (step : Bool) : Except Trap (Nat × Loc) :=
  let (a, inBounds) := externalAddr d b n
  let at' := (a % (2 ^ 72 : Int)).toNat
  let finish (r : Except Trap Loc) : Except Trap (Nat × Loc) :=
    if !inBounds then .error (.access at')
    else if step && at' % al ≠ 0 then .error (.align at')
    else
      match r with
      | .error t => .error t
      | .ok l => if at' % al ≠ 0 then .error (.align at') else .ok (at', l)
  match s.locate f d at' n u with
  | .error t => if t.cause = 0x05 then .error t else finish (.error t)
  | .ok l => finish (.ok l)

namespace State

/-- Whether an uncorrectable error has struck a byte of a scratch access of an agent (R445). -/
def scratchBad (s : State) (f : Nat) (d : Line) (n a : Nat) : Bool :=
  match s.locate f d a n .read with
  | .ok l => s.struck l n
  | .error _ => false

/-- A watchpoint trap of a scalar access that has performed: the record names the access, the image the next word (R446). -/
def watchScalar (s : State) (f pc a : Nat) (hit : Bool) : State :=
  if hit then s.takeTrap f (.watch a) pc (s.ctx f).vstart 0 false else s

/-- A watched access is one after which its agent stops: it waits until nothing of it is provisional and, on a matrix control core, no matrix operation
is queued (R376, R446, R449). -/
def watchHeld (s : State) (f : Nat) (hit : Bool) : Bool := hit && !((s.ctx f).certain && s.matIdle f)

end State

/-! ### Scratch accesses -/

/-- `ld` and `ldn` (R111 to R113): the value reaches its register before any later instruction issues. -/
def scratchLoad (ext : Nat → Nat → Dword) (d a : BitVec 5) (w : BitVec 4) (z : BitVec 2) (i : BitVec 10) (s : State) : State :=
  let n := 2 ^ z.toNat
  if s.cur = .agent s.me && coreViewBad s.me w.toNat then s.trapHere s.me .operand
  else
    s.ordered w.toNat false [d.toNat, a.toNat] fun f c s =>
      match c.view (isCore f) w.toNat with
      | none => s.trapHere f (.access 0)
      | some v =>
        match scratchCheck (s.scratchBad f v n) v (memOffset c a z i).toInt n with
        | .error t => s.trapHere f t
        | .ok at' =>
          let hit := s.watched f v at' n true false
          if s.xqMeets f v then s.stall f (.meets v)
          else if s.watchHeld f hit then s.stall f (if c.certain then .earlier else .certain)
          else
            match s.locate f v at' n .read with
            | .error t => s.trapHere f t
            | .ok l => (s.setCtx f ((c.setS d.toNat (ext n (s.load l n))).retire (c.pc + 4))).watchScalar f c.pc at' hit

/-- `ld.z s, w[sa + #off]`: sign-extends. -/
def execLd (d a : BitVec 5) (w : BitVec 4) (z : BitVec 2) (i : BitVec 10) (s : State) : Out :=
  .next (scratchLoad sextBytes d a w z i s)
/-- `ldn.z s, w[sa + #off]`: zero-extends. -/
def execLdn (d a : BitVec 5) (w : BitVec 4) (z : BitVec 2) (i : BitVec 10) (s : State) : Out :=
  .next (scratchLoad zextBytes d a w z i s)

/-- `st.z s, w[sa + #off]`: the low 2^size bytes of s[s]. -/
def execSt (v a : BitVec 5) (w : BitVec 4) (z : BitVec 2) (i : BitVec 10) (s : State) : Out :=
  .next (
    let n := 2 ^ z.toNat
    if s.cur = .agent s.me && coreViewBad s.me w.toNat then s.trapHere s.me .operand
    else
      s.ordered w.toNat true [v.toNat, a.toNat] fun f c s =>
        match c.view (isCore f) w.toNat with
        | none => s.trapHere f (.access 0)
        | some d =>
          match scratchCheck (s.scratchBad f d n) d (memOffset c a z i).toInt n with
          | .error t => s.trapHere f t
          | .ok at' =>
            let hit := s.watched f d at' n false true
            if s.xqMeets f d then s.stall f (.meets d)
            else if s.watchHeld f hit then s.stall f .earlier
            else
              match s.locate f d at' n .write with
              | .error t => s.trapHere f t
              | .ok l => ((s.store l n (c.s v.toNat).toNat).setCtx f (c.retire (c.pc + 4))).watchScalar f c.pc at' hit)

/-! ### The external queue -/

namespace State

/-- The walk of the address that an access through a device view comes to, whatever its outcome (R488). -/
def noteAccess (s : State) (f : Nat) (d : Line) (b : Dword) (n : Nat) : State :=
  if View.space d = 2 then s.noteWalk (s.partOf f) ((externalAddr d b n).1 % (2 ^ 72 : Int)).toNat else s

/-- An access enters the external queue (R114, R115), or performs at once when nothing is ahead of it and the turn does
not leave it queued. A watched access performs before the next instruction issues; one that fails is not reported as watched (R446, R491). The walk of its
address has read the tables (R488). -/
def enterXq (s : State) (f : Nat) (e : XqEntry) (rd wr : Bool) : State :=
  let c := s.ctx f
  let hit := s.watched f e.via.desc e.addr e.size rd wr
  if 16 ≤ c.xq.length || (hit && !c.xq.isEmpty) then s.stall f (if hit then .waitx 0 else .externalQueue)
  else if s.watchHeld f hit || (hit && s.entryHeld f 0 e) then s.stall f .earlier
  else
    let s0 := if e.pin.isSome then s.noteWalk (s.partOf f) e.addr else s
    let s1 := s0.setCtx f { (c.retire (c.pc + 4)) with xq := c.xq ++ [e] }
    if (!hit && (s.defer || !c.xq.isEmpty)) || s.entryHeld f 0 e then s1
    else (s1.completeEntry f false).watchScalar f c.pc e.addr (hit && !s.entryFails f e)

end State

/-- An access through the external queue, with its checks (R114). `al` is the alignment, `host` whether a host view is
accepted (R211). -/
def external (rs : List Nat) (w : BitVec 4) (off : Ctx → Dword) (n : Nat) (u : Use) (kind : Ctx → XKind) (dest : Nat)
    (det hostOk : Bool) (s : State) : State :=
  if s.cur = .agent s.me && coreViewBad s.me w.toNat then s.trapHere s.me .operand
  else
    s.ordered w.toNat true rs fun f c s =>
      if det && bitAt c.detm 0 then s.trapHere f .determinism
      else
        match c.view (isCore f) w.toNat with
        | none => s.trapHere f (.access 0)
        | some d =>
          let k := kind c
          let isAtomic := match k with
            | .atomic _ _ _ => true
            | _ => false
          match externalCheck s f d (off c) n n u isAtomic with
          | .error t => (s.noteAccess f d (off c) n).trapHere f t
          | .ok (a, l) =>
            if !hostOk && View.space d = 3 then s.trapHere f (.access a)
            else
              let translated := match l with
                | .dev _ _ | .slot _ _ _ => true
                | _ => false
              let pin := if translated then s.pinFor f a u else none
              let pages := pin.toList.map fun p => (p.page, p.size)
              if !s.pinRoom (s.partOf f) (dieOf f) pages then s.stall f (.pin pages)
              else s.enterXq f ⟨k, ⟨w.toNat, d, none⟩, a, l, pin, n, dest, []⟩ (u = .read || isAtomic) (u = .write)

/-- `ldx.z s, w[sa + #off]`: sign-extends; s[s] is pending until the data arrives (R116). -/
def execLdx (d a : BitVec 5) (w : BitVec 4) (z : BitVec 2) (i : BitVec 10) (s : State) : Out :=
  .next (external [d.toNat, a.toNat] w (fun c => memOffset c a z i) (2 ^ z.toNat) .read (fun _ => .load) d.toNat false
    true s)

/-- `stx.z s, w[sa + #off]`. -/
def execStx (v a : BitVec 5) (w : BitVec 4) (z : BitVec 2) (i : BitVec 10) (s : State) : Out :=
  .next (external [v.toNat, a.toNat] w (fun c => memOffset c a z i) (2 ^ z.toNat) .write
    (fun c => .store (c.s v.toNat).toNat) 0 false true s)

/-- `waitx sa` (R117): waits until at most s[sa] entries are incomplete, and reports a failed one (R118). -/
def execWaitx (a : BitVec 5) (s : State) : Out :=
  .next (s.scalar [a.toNat] fun f c s =>
    if (c.s a.toNat).toNat < c.xq.length then s.stall f (.waitx (c.s a.toNat).toNat)
    else
      match c.xfail with
      | x :: rest =>
        if c.quiet && s.matIdle f then (s.setCtx f { c with xfail := rest }).trapHere f (.access x.addr) else s.stall f .earlier
      | [] => s.setCtx f (c.retire (c.pc + 4)))

/-! ### The atomics -/

/-- A scalar atomic (R210 to R212): `ret` the returning form, `host` whether PCIe carries it (R211). -/
def atomic (op : Nat) (ret hostOk : Bool) (d a b : BitVec 5) (w : BitVec 4) (z : BitVec 1) (s : State) : State :=
  let n := 4 * 2 ^ z.toNat
  external [d.toNat, a.toNat, b.toNat] w (fun c => c.s a.toNat) n .write
    (fun c => .atomic op ((c.s b.toNat).toNat % 2 ^ (8 * n)) ((c.s d.toNat).toNat % 2 ^ (8 * n)))
    (if ret then d.toNat else 0) ret hostOk s

/-- `aadd.z w[sa], sb`. -/
def execAadd (a b : BitVec 5) (w : BitVec 4) (z : BitVec 1) (s : State) : Out := .next (atomic 0 false true 0 a b w z s)
/-- `aand.z w[sa], sb`. -/
def execAand (a b : BitVec 5) (w : BitVec 4) (z : BitVec 1) (s : State) : Out := .next (atomic 1 false false 0 a b w z s)
/-- `aor.z w[sa], sb`. -/
def execAor (a b : BitVec 5) (w : BitVec 4) (z : BitVec 1) (s : State) : Out := .next (atomic 2 false false 0 a b w z s)
/-- `axor.z w[sa], sb`. -/
def execAxor (a b : BitVec 5) (w : BitVec 4) (z : BitVec 1) (s : State) : Out := .next (atomic 3 false false 0 a b w z s)
/-- `amin.z w[sa], sb`. -/
def execAmin (a b : BitVec 5) (w : BitVec 4) (z : BitVec 1) (s : State) : Out := .next (atomic 4 false false 0 a b w z s)
/-- `amax.z w[sa], sb`. -/
def execAmax (a b : BitVec 5) (w : BitVec 4) (z : BitVec 1) (s : State) : Out := .next (atomic 5 false false 0 a b w z s)
/-- `aminn.z w[sa], sb`. -/
def execAminn (a b : BitVec 5) (w : BitVec 4) (z : BitVec 1) (s : State) : Out := .next (atomic 6 false false 0 a b w z s)
/-- `amaxn.z w[sa], sb`. -/
def execAmaxn (a b : BitVec 5) (w : BitVec 4) (z : BitVec 1) (s : State) : Out := .next (atomic 7 false false 0 a b w z s)
/-- `aadd.z sd, w[sa], sb`. -/
def execAaddRet (d a b : BitVec 5) (w : BitVec 4) (z : BitVec 1) (s : State) : Out := .next (atomic 0 true true d a b w z s)
/-- `aand.z sd, w[sa], sb`. -/
def execAandRet (d a b : BitVec 5) (w : BitVec 4) (z : BitVec 1) (s : State) : Out := .next (atomic 1 true false d a b w z s)
/-- `aor.z sd, w[sa], sb`. -/
def execAorRet (d a b : BitVec 5) (w : BitVec 4) (z : BitVec 1) (s : State) : Out := .next (atomic 2 true false d a b w z s)
/-- `axor.z sd, w[sa], sb`. -/
def execAxorRet (d a b : BitVec 5) (w : BitVec 4) (z : BitVec 1) (s : State) : Out := .next (atomic 3 true false d a b w z s)
/-- `amin.z sd, w[sa], sb`. -/
def execAminRet (d a b : BitVec 5) (w : BitVec 4) (z : BitVec 1) (s : State) : Out := .next (atomic 4 true false d a b w z s)
/-- `amax.z sd, w[sa], sb`. -/
def execAmaxRet (d a b : BitVec 5) (w : BitVec 4) (z : BitVec 1) (s : State) : Out := .next (atomic 5 true false d a b w z s)
/-- `aminn.z sd, w[sa], sb`. -/
def execAminnRet (d a b : BitVec 5) (w : BitVec 4) (z : BitVec 1) (s : State) : Out := .next (atomic 6 true false d a b w z s)
/-- `amaxn.z sd, w[sa], sb`. -/
def execAmaxnRet (d a b : BitVec 5) (w : BitVec 4) (z : BitVec 1) (s : State) : Out := .next (atomic 7 true false d a b w z s)
/-- `aswap.z sd, w[sa], sb`. -/
def execAswap (d a b : BitVec 5) (w : BitVec 4) (z : BitVec 1) (s : State) : Out := .next (atomic 8 true true d a b w z s)
/-- `acas.z sd, w[sa], sb`: stores v where the old value equals s[sd]. -/
def execAcas (d a b : BitVec 5) (w : BitVec 4) (z : BitVec 1) (s : State) : Out := .next (atomic 9 true true d a b w z s)

end Sys2Proof.Machine
end

