-- ==== Sys2Proof/Machine/VMem.lean ====
section
/-! DEFINITION. The vector memory instructions (OP 0x2B; R186 to R195). -/

namespace Sys2Proof.Machine

/-- How an element finds its view index (R187). -/
inductive Index where
  | linear | indexed (x : Nat)
deriving DecidableEq, Repr

/-- What a member does at an element's location. -/
inductive Access where
  | load | store | add
deriving DecidableEq, Repr

/-- Tags an index register may carry (R188). -/
def indexTag : Tag → Bool
  | .i16 | .i32 | .i64 | .n16 | .n32 => true
  | _ => false

/-- The view of an access, set and of a space the member accepts (R186, R190). -/
def vmemView (spaces : List Nat) (view : Option Line) : Option Line :=
  view.filter fun v => spaces.contains (View.space v) && !View.whole v

/-- The checks at decode of a vector access (R187 to R189), in the order of R75. A load destination may equal its index
group only with equal element bytes, which one register under one tag always has; any other member may not. -/
def vmemDecode (spaces : List Nat) (acc : Access) (d w : Nat) (ix : Index) (c : Ctx) : Option Trap :=
  let td := c.tag d
  let viewBad :=
    match vmemView spaces (c.view false w) with
    | none => false
    | some v =>
      let z := View.size v
      decide (td.bytes < z) || (decide (z < td.bytes) && !(View.rank v = 1 && View.stride v 0 = 1))
  match ix with
  | .linear => firstTrap [(c.badGroups [d], .operand), (td = .none, .tag), (viewBad, .tag)]
  | .indexed x =>
    firstTrap [(c.badGroups [d, x] || (decide (acc ≠ .load) && decide (d = x)), .operand),
      (td = .none || td = .p32 || (decide (acc = .add) && !(td = .i32 || td = .n32 || td = .i64)), .tag),
      (!indexTag (c.tag x), .tag), (viewBad, .tag)]

/-- The issue checks: the index group holds VL elements (R189), then the view is set and of an accepted space (R190). -/
def vmemIssue (spaces : List Nat) (ix : Index) (env : Env) (s : State) : Option Trap :=
  let c := s.ctx env.f
  let short := match ix with
    | .linear => false
    | .indexed x => !c.fits (c.tag x).bytes
  firstTrap [(short, .operand), ((vmemView spaces env.view).isNone, .access 0)]

/-- The view index of element i (R187). -/
def vmemIndex (c : Ctx) (ix : Index) (env : Env) (k i : Nat) : Int :=
  match ix with
  | .linear => env.sa.toInt + (i * k : Nat)
  | .indexed x => (c.tag x).readInt (c.elem x (c.tag x).bytes i)

/-- Where element i lands: its byte address, or the trap of R190. Its alignment is tested last (R445). -/
def vmemAddr (v : Line) (b : Nat) (j : Int) : Except Trap Nat :=
  let k := b / View.size v
  if j < 0 || (View.count v : Int) < j + k then .error (.access (View.base v)) else .ok (View.addr v j.toNat).toNat

/-- One element of a vector access performs (R190, R194). -/
def vmemPerform (acc : Access) (d b i : Nat) (l : Loc) (c : Ctx) (f : Nat) (s : State) : State :=
  match acc with
  | .load => s.setCtx f (c.setElem d b i (s.load l b))
  | .store => s.store l b (c.elem d b i)
  | .add => s.store l b ((s.load l b + c.elem d b i) % 2 ^ (8 * b))

/-- Element i of a vector access, with its traps and its watchpoint (R190). -/
def vmemElem (spaces : List Nat) (acc : Access) (d : Nat) (ix : Index) (env : Env) (i : Nat) (s : State) : Res :=
  let c := s.ctx env.f
  let b := (c.tag d).bytes
  match vmemView spaces env.view with
  | none => .trap (.access 0) i false s
  | some v =>
    match vmemAddr v b (vmemIndex c ix env (b / View.size v) i) with
    | .error t => .trap t i false s
    | .ok a =>
      match s.locate env.f v a b (if acc = .load then .read else .write) with
      | .error t => .trap t i false s
      | .ok l =>
        if s.struck l b then .trap (.access a) i false s
        else if a % b ≠ 0 then .trap (.align a) i false s
        else
        let s1 := vmemPerform acc d b i l c env.f s
        if s.watched env.f v a b (acc ≠ .store) (acc ≠ .load) then .trap (.watch a) i true s1 else .ok s1

/-- Earlier external queue entries through a view that may meet perform first (R157). -/
def vmemBusy (spaces : List Nat) (env : Env) (_hi : Nat) (s : State) : Option Wait :=
  match vmemView spaces env.view with
  | none => none
  | some v => if s.xqMeets env.f v then some (.meets v) else none

/-- A vector access as a vector instruction. -/
def vmemOp (word : Word) (spaces : List Nat) (acc : Access) (d : BitVec 6) (w : BitVec 4) (sa : Nat) (ix : Index)
    (p : BitVec 4) : VOp where
  word := word
  sa := sa
  decode := fun _ c => vmemDecode spaces acc d.toNat w.toNat ix c
  view := some w.toNat
  issue := vmemIssue spaces ix
  busy := vmemBusy spaces
  pm := p.toNat
  elem := vmemElem spaces acc d.toNat ix
  inBlock := true

/-- `vld vd, w[sx]`. -/
def execVld (d : BitVec 6) (w : BitVec 4) (x : BitVec 5) (p : BitVec 4) (s : State) : Out :=
  .next (s.vector (vmemOp (Instr.vld d w x p).word [0] .load d w x.toNat .linear p))
/-- `vst vd, w[sx]`. -/
def execVst (d : BitVec 6) (w : BitVec 4) (x : BitVec 5) (p : BitVec 4) (s : State) : Out :=
  .next (s.vector (vmemOp (Instr.vst d w x p).word [0] .store d w x.toNat .linear p))
/-- `vldx vd, w[vx]`. -/
def execVldx (d : BitVec 6) (w : BitVec 4) (x : BitVec 6) (p : BitVec 4) (s : State) : Out :=
  .next (s.vector (vmemOp (Instr.vldx d w x p).word [0] .load d w 0 (.indexed x.toNat) p))
/-- `vstx vd, w[vx]`. -/
def execVstx (d : BitVec 6) (w : BitVec 4) (x : BitVec 6) (p : BitVec 4) (s : State) : Out :=
  .next (s.vector (vmemOp (Instr.vstx d w x p).word [0] .store d w 0 (.indexed x.toNat) p))
/-- `vgb vd, w[vx]`: the bay's four scratchpads (R193). -/
def execVgb (d : BitVec 6) (w : BitVec 4) (x : BitVec 6) (p : BitVec 4) (s : State) : Out :=
  .next (s.vector (vmemOp (Instr.vgb d w x p).word [1] .load d w 0 (.indexed x.toNat) p))
/-- `vsb vd, w[vx]`: the bay's four scratchpads (R193). -/
def execVsb (d : BitVec 6) (w : BitVec 4) (x : BitVec 6) (p : BitVec 4) (s : State) : Out :=
  .next (s.vector (vmemOp (Instr.vsb d w x p).word [1] .store d w 0 (.indexed x.toNat) p))
/-- `vaadd vd, w[vx]`: an atomic add at each element's location (R194). -/
def execVaadd (d : BitVec 6) (w : BitVec 4) (x : BitVec 6) (p : BitVec 4) (s : State) : Out :=
  .next (s.vector (vmemOp (Instr.vaadd d w x p).word [0, 1] .add d w 0 (.indexed x.toNat) p))

/-- Zero written into elements i to i + n − 1, active or not (R192). -/
def zeroElements (c : Ctx) (d b : Nat) : Nat → Nat → Ctx
  | 0, _ => c
  | n + 1, i => zeroElements (c.setElem d b i 0) d b n (i + 1)

/-- The loop of `vldff` (R192): the first element that would fault ends it, with VFF := i and zeros from there. -/
def vldffLoop (d p : Nat) (env : Env) : Nat → Nat → State → Res
  | 0, _, s => .ok (s.modCtx env.f fun c => { c with vff := c.vl })
  | n + 1, i, s =>
    if (s.ctx env.f).pbit p i then
      match vmemElem [0] .load d .linear env i s with
      | .trap t j true s' => .trap t j true s'
      | .ok s' => vldffLoop d p env n (i + 1) s'
      | _ => .ok (s.modCtx env.f fun c =>
          { (zeroElements c d (c.tag d).bytes (c.reals - i) i) with vff := i })
    else vldffLoop d p env n (i + 1) s

/-- `vldff vd, w[sx]` (R192): element-block trap in a block, determinism trap under DETM.DET (R195). -/
def execVldff (d : BitVec 6) (w : BitVec 4) (x : BitVec 5) (p : BitVec 4) (s : State) : Out :=
  .next (s.vector { vmemOp (Instr.vldff d w x p).word [0] .load d w x.toNat .linear p with
    decode := fun _ c =>
      match vmemDecode [0] .load d.toNat w.toNat .linear c with
      | some t => some t
      | none => if bitAt c.detm 0 then some .determinism else none
    whole := some fun env lo s => vldffLoop d.toNat p.toNat env ((s.ctx env.f).reals - lo) lo s
    inBlock := false })

end Sys2Proof.Machine
end

