-- ==== Sys2Proof/Machine/Streams.lean ====
section
/-! DEFINITION. Streams and gangs (OP 0x1D other than `chapp`, OP 0x2C; R45, R173, R196 to R199, R231 to R237). -/

namespace Sys2Proof.Machine

namespace State

/-- Whether the release conditions of R166 hold: every earlier access of an agent has performed, its queued stream writes
and, on a core, its matrix operations and raises included. -/
def released (s : State) (f : Nat) : Bool :=
  let c := s.ctx f
  c.quiet && c.xq.isEmpty && !s.streamWritesPending f && c.raises.isEmpty && s.matIdle f

end State

/-! ### Binding and unbinding -/

/-- The contexts that have joined a gang of a bay (R234). A member whose image is saved remains one (R444), under a number beyond the contexts'. -/
def State.gangMembers (s : State) (bay number : Nat) : List Nat :=
  ((State.bayContexts bay).filter fun g =>
    match (s.ctx g).gang with
    | some x => decide (x.number = number)
    | none => false) ++
  ((s.away.filter fun a => bayOf a.flat = bay && (a.gang.map (·.1)) = some number).map fun a => 65536 + a.id)

/-- The stated count and the NREG of a member of a gang, saved or not (R234). -/
def State.memberTerms (s : State) (m : Nat) : Option (Nat × Nat) :=
  if 65536 ≤ m then (s.away.find? fun a => a.id = m - 65536).bind fun a => a.gang.map (·.2)
  else (s.ctx m).gang.map fun g => (g.count, (s.ctx m).nreg)

/-- Whether a context is ganged. -/
def Ctx.ganged (c : Ctx) : Bool := (c.gang.map (·.inside)).getD false

/-- Whether a context's gang is being restored and is not whole yet (R453). -/
def Ctx.lone (c : Ctx) : Bool := (c.gang.map (·.lone)).getD false

/-- The members of the gang a context is in, itself alone when it is in none. -/
def State.gangOf (s : State) (f : Nat) : List Nat :=
  match (s.ctx f).gang with
  | some g => if g.inside then (s.gangMembers (bayOf f) g.number).filter fun m => 65536 ≤ m || (s.ctx m).ganged else [f]
  | none => [f]

/-- The write streams of a context that hold writes, or have transfers queued, through a view that may meet another (R173). -/
def State.earlierWrites (s : State) (f : Nat) (d : Line) : List Nat :=
  (List.range 8).filter fun q =>
    match s.streamReg f q with
    | none => false
    | some r =>
      match s.bindingOf r q with
      | none => false
      | some b =>
        b.write && (!b.pend.isEmpty || State.transferQueued (s.ctx f) q) && View.meet (millOf f % 4) (millOf f % 4) b.desc d

/-- The start of stream q, bound through view d, waits for the accesses of the context that are queued before it and may meet it (R173): external queue
entries, and vector instructions by the view they name, by the stream that they transfer, or, for a `vfetch`, through any scratchpad view. -/
def State.holdStart (s : State) (f q : Nat) (d : Line) : State :=
  let m := millOf f % 4
  s.modCtx f fun c =>
    let viaMeets (v : Via) : Bool := View.meet m m v.desc d
    let streamMeets (w : Word) : Bool :=
      opOf w = 0x2C && ((c.streams.toList.getD (bitsAt w 16 3) none).map fun r => View.meet m m r.desc d).getD false
    { c with
      xq := c.xq.map fun e => if viaMeets e.via then { e with holds := e.holds ++ [q] } else e
      vq := c.vq.map fun e =>
        if (e.via.map viaMeets).getD false || streamMeets e.word || (opOf e.word = 0x1F && decide (View.space d ≤ 1)) then
          { e with holds := e.holds ++ [q] } else e }

/-- No access holds the start of stream q of a context any more, and no other binding of it starts after q's. -/
def State.releaseStart (s : State) (f q : Nat) : State :=
  let s1 := s.modCtx f fun c =>
    { c with
      xq := c.xq.map fun e => { e with holds := e.holds.filter (· ≠ q) }
      vq := c.vq.map fun e => { e with holds := e.holds.filter (· ≠ q) } }
  s1.modMill (millOf f) fun m =>
    { m with ports := m.ports.map fun e => (e.1, e.2.map fun (b : Binding) => if b.flat = f then { b with after := b.after.filter (· ≠ q) } else b) }

/-- `strm` (R232), with its checks in order. The binding starts when R173 and R231 let it (STREAM_BINDING_START). -/
def strm (write gang : Bool) (q : BitVec 3) (w : BitVec 4) (p : BitVec 5) (s : State) : State :=
  s.threadCertain [] fun f c s =>
    let qn := q.toNat
    let who := if gang then (s.gangOf f).filter (· < 65536) else [f]
    if gang && (!c.ganged || c.lone) then s.trapHere f .operand
    else if who.any fun g => (s.streamReg g qn).isSome then s.trapHere f .stream
    else
      match c.view false w.toNat with
      | none => s.trapHere f (.access 0)
      | some d =>
        if View.space d = 1 then s.trapHere f (.access 0)
        else
          match s.pagesOf (s.partOf f) (if write then .write else .read) d with
          | .error t => s.trapHere f t
          | .ok ps =>
            if 512 < ps.length || s.pinLimit (s.partOf f) (dieOf f) < ps.length then s.trapHere f .stream
            else
              let l := s.port (millOf f) p.toNat
              if 4 ≤ l.length then s.stall f (.port p.toNat)
              else if !s.pinRoom (s.partOf f) (dieOf f) (ps.map fun x => (x.page, x.size)) then
                s.stall f (.pin (ps.map fun x => (x.page, x.size)))
              else
                let s0 := (s.addPins (.stream f qn) (dieOf f) ps).holdStart f qn d
                let s1 := s0.setPort (millOf f) p.toNat
                  (l ++ [⟨f, qn, d, write, gang, false, none, 0, [], [], s.earlierWrites f d, View.device d || ps.any (·.device), 0⟩])
                let s2 := who.foldl (fun s g => s.setStreamReg g qn (some ⟨f, p.toNat, d, write, gang, 0⟩)) s1
                s2.modCtx f fun c => c.retire (c.pc + 4)

/-- `strm.r qn, wv, #port`. -/
def execStrmR (q : BitVec 3) (w : BitVec 4) (p : BitVec 5) (s : State) : Out := .next (strm false false q w p s)
/-- `strm.w qn, wv, #port`. -/
def execStrmW (q : BitVec 3) (w : BitVec 4) (p : BitVec 5) (s : State) : Out := .next (strm true false q w p s)
/-- `strm.rg qn, wv, #port`: bound in every member of the gang. -/
def execStrmRg (q : BitVec 3) (w : BitVec 4) (p : BitVec 5) (s : State) : Out := .next (strm false true q w p s)

/-- A stream unbound in every context that holds it: its binding and pins go (R233). -/
def State.unbind (s : State) (r : StreamReg) (q : Nat) : State :=
  let s1 := ((s.readers r q).foldl (fun s g => s.setStreamReg g q none) s).releaseStart r.owner q
  (s1.setPort (millOf r.owner) r.port
    ((s.port (millOf r.owner) r.port).filter fun b => !Binding.isOf b r q)).dropPins (.stream r.owner q)

/-- Whether another member of a gang stream is inside a `vsrd` of it (R233). -/
def State.readingNow (s : State) (r : StreamReg) (q f : Nat) : Bool :=
  (s.readers r q).any fun g => decide (g ≠ f) &&
    (s.ctx g).vq.any fun e => e.begun && !e.done && decide (opOf e.word = 0x2C) && decide (bitsAt e.word 16 3 = q)

/-- `sunb qn` (R233): every transfer of the stream before it has completed, and every access of the stream has performed. -/
def execSunb (q : BitVec 3) (s : State) : Out :=
  .next (s.threadCertain [] fun f c s =>
    match s.streamReg f q.toNat with
    | none => s.setCtx f (c.retire (c.pc + 4))
    | some r =>
      if State.transferQueued c q.toNat then s.stall f (.unbind q.toNat)
      else
      match s.bindingOf r q.toNat with
      | none => (s.unbind r q.toNat).modCtx f fun c => c.retire (c.pc + 4)
      | some b =>
        if !b.pend.isEmpty then s.stall f (.unbind q.toNat)
        else if r.gang && s.readingNow r q.toNat f then s.stall f (.unbind q.toNat)
        else (s.unbind r q.toNat).modCtx f fun c => c.retire (c.pc + 4))

/-- The elements a stream has to count, and whether the condition of `sqwait` holds for a bound: writes not performed, or
arrived elements not read (R217). -/
def State.streamTally (s : State) (f q t : Nat) : Option (Nat × Bool) :=
  match s.streamReg f q with
  | none => none
  | some r =>
    (s.bindingOf r q).map fun x =>
      if r.write then (x.pend.length, decide (x.pend.length ≤ t))
      else
        let n := x.base + x.buf.length - r.next
        let left := View.count r.desc - r.next
        (n, decide (t ≤ n) || (decide (left < t) && decide (n = left)))

/-- `sqwait sd, qn, sb` (R217). The transfers of the stream before it in program order come first (log entry 126). -/
def execSqwait (d : BitVec 5) (q : BitVec 3) (b : BitVec 5) (s : State) : Out :=
  .next (s.threadOnly [d.toNat, b.toNat] fun f c s =>
    let t := (c.s b.toNat).toNat
    if State.transferQueued c q.toNat then s.stall f (.streamCount q.toNat t)
    else
    match s.streamTally f q.toNat t with
    | none => s.trapHere f .stream
    | some (n, holds) =>
      if holds then s.setCtx f ((c.setS d.toNat (BitVec.ofNat 64 n)).retire (c.pc + 4))
      else s.stall f (.streamCount q.toNat t))

/-! ### Transfers -/

/-- The issue checks of R198. -/
def streamIssue (write : Bool) (d q : Nat) (env : Env) (s : State) : Option Trap :=
  match s.streamReg env.f q with
  | none => some .stream
  | some r =>
    let other :=
      match s.bindingOf r q with
      | some b => r.gang && b.vd.isSome && b.vd ≠ some d
      | none => true
    firstTrap [(decide (r.write ≠ write) || other, .stream),
      (decide (((s.ctx env.f).tag d).bytes ≠ View.size r.desc), .tag)]

/-- The indices that a transfer skips before its element 0 (R197). One that a trap at its element 0 has kept makes no second skip as it goes on (DESIGN
CHOICE, log entry 128). -/
def Env.skipped (env : Env) : Nat := if env.fresh then env.sa.toNat else 0

/-- The skip of s[sx] indices before element 0 (R197), and the register group the first reader of a gang stream names
(R236). -/
def streamBegin (d q : Nat) (env : Env) (s : State) : State :=
  match s.streamReg env.f q with
  | none => s
  | some r =>
    (s.modBinding r q fun b => { b with vd := if r.gang && b.vd.isNone then some d else b.vd }).moveStream env.f q
      (r.next + env.skipped)

/-- Whether element j of a stream can arrive for a reader that goes on up to it: the binding has started, and a gang's buffer has room for it beyond
what another member has still to read (R236, R237). -/
def State.canArrive (s : State) (f q j : Nat) : Bool :=
  match s.streamReg f q with
  | none => true
  | some r =>
    match s.bindingOf r q with
    | none => true
    | some b =>
      b.started && (decide (j < b.base + b.buf.length) || !s.elementBusy b (b.base + b.buf.length)) && (s.readers r q).all fun g => g = f || ((s.streamReg g q).map fun x => decide (j < x.next + Binding.room b)).getD true

/-- What a read waits for before it performs its elements below `hi` (R197): that the last of them can arrive. -/
def streamBusy (q : Nat) (env : Env) (hi : Nat) (s : State) : Option Wait :=
  match s.streamReg env.f q with
  | none => none
  | some r =>
    let j := min (r.next + env.skipped + (hi - env.start)) (View.count r.desc) - 1
    if s.canArrive env.f q j then none else some (.element q j)

/-- One index of a read stream consumed by element i, which receives the element when it is active (R197). A started
binding fetches the element at this read if it has not arrived before. -/
def vsrdElem (d q : Nat) (active : Bool) (env : Env) (i : Nat) (s : State) : Res :=
  match s.streamReg env.f q with
  | none => .trap .stream i false s
  | some r =>
    if View.count r.desc ≤ r.next then .trap .stream i false s
    else
      match s.bindingOf r q with
      | none => .trap .stream i false s
      | some b =>
        match s.fetchUpTo r q r.next (r.next - b.base + 2) with
        | .error t => .trap t i false s
        | .ok none => .wait (.element q r.next) i s
        | .ok (some s1) =>
          let v := ((s1.bindingOf r q).map fun b => b.buf.getD (r.next - b.base) 0).getD 0
          let s2 := if active then s1.modCtx env.f fun c => c.setElem d (View.size r.desc) i v else s1
          .ok (s2.moveStream env.f q (r.next + 1))

/-- One index of a write stream consumed by element i, which is written when it is active (R197). A write is held until
the binding has started (R232), and behind the writes held before it. A device-class element is not written twice (R182). -/
def vswrElem (d q : Nat) (active : Bool) (env : Env) (i : Nat) (s : State) : Res :=
  match s.streamReg env.f q with
  | none => .trap .stream i false s
  | some r =>
    if View.count r.desc ≤ r.next then .trap .stream i false s
    else
      match s.bindingOf r q with
      | none => .trap .stream i false s
      | some b =>
        if !active then .ok (s.moveStream env.f q (r.next + 1))
        else if b.device && decide (r.next < b.top) then .trap .stream i false s
        else
          match s.streamLoc b r.next with
          | .error t => .trap t i false s
          | .ok l =>
            let v := (s.ctx env.f).elem d (View.size r.desc) i
            let s1 := s.modBinding r q fun b => { b with top := r.next + 1 }
            let s2 :=
              if b.started && b.pend.isEmpty && !s.locBusy l then s1.store l (View.size r.desc) v
              else s1.modBinding r q fun b => { b with pend := b.pend ++ [(r.next, v)] }
            .ok (s2.moveStream env.f q (r.next + 1))

/-- A stream transfer as a vector instruction (R196). -/
def streamOp (word : Word) (write : Bool) (d : BitVec 6) (q : BitVec 3) (x : BitVec 5) (p : BitVec 4) : VOp where
  word := word
  sa := x.toNat
  decode := fun _ c => firstTrap [(c.badGroups [d.toNat], .operand), (c.untagged [d.toNat], .tag)]
  issue := streamIssue write d.toNat q.toNat
  pm := p.toNat
  busy := if write then fun _ _ _ => none else streamBusy q.toNat
  begin' := streamBegin d.toNat q.toNat
  elem := if write then vswrElem d.toNat q.toNat true else vsrdElem d.toNat q.toNat true
  skip := if write then vswrElem d.toNat q.toNat false else vsrdElem d.toNat q.toNat false

/-- `vsrd vd, qn[sx]`. -/
def execVsrd (d : BitVec 6) (q : BitVec 3) (x : BitVec 5) (p : BitVec 4) (s : State) : Out :=
  .next (s.vector (streamOp (Instr.vsrd d q x p).word false d q x p))
/-- `vswr vd, qn[sx]`. -/
def execVswr (d : BitVec 6) (q : BitVec 3) (x : BitVec 5) (p : BitVec 4) (s : State) : Out :=
  .next (s.vector (streamOp (Instr.vswr d q x p).word true d q x p))

/-! ### Gangs -/

/-- TID order of the members joined (R234). -/
def rankIn (ms : List Nat) (f : Nat) : Nat := (ms.filter (· < f)).length

/-- The stated number have joined: the `gang` of every member that waits completes, with its rank (R234). One that joins where a member has left takes the
rank of its TID among those present, leaves the ranks of the others, is in no gang stream bound before, and counts its `setvl` from theirs (DESIGN
CHOICE, log entry 127). -/
def completeGang (ms : List Nat) (s : State) : State :=
  let pushed := ms.foldl (fun n m => max n (((s.ctx m).gang.map (·.pushes)).getD 0)) 0
  (ms.filter fun m => m < 65536 && !(s.ctx m).ganged).foldl (fun s m => s.modCtx m fun c =>
    let r := rankIn ms m
    let d := (c.gang.map (·.dest)).getD 0
    let c1 : Ctx := { c with gang := c.gang.map fun g => { g with rank := r, inside := true, pushes := pushed } }
    (c1.setS d (BitVec.ofNat 64 r)).retire (c.pc + 4)) s

/-- `gang sd, sa, sb` (R234). It joins, waits until the stated number have joined, and writes the rank. -/
def execGang (d a b : BitVec 5) (s : State) : Out :=
  .next (s.threadCertain [d.toNat, a.toNat, b.toNat] fun f c s =>
    match c.gang with
    | some g => if g.inside then s.trapHere f .operand else s.stall f .gang
    | none =>
      let number := (c.s a.toNat).toNat
      let count := (c.s b.toNat).toNat
      let ms := s.gangMembers (bayOf f) number
      let refused :=
        decide (16 ≤ number) || decide (count < 1) || decide (4 < count) ||
        ms.any fun m =>
          match s.memberTerms m with
          | some (n, nreg) => decide (n ≠ count) || decide (n ≤ ms.length) || decide (nreg ≠ c.nreg)
          | none => false
      if refused then s.trapHere f .operand
      else
        let s1 := s.setCtx f { c with gang := some ⟨number, count, 0, false, d.toNat, none, false, 0, []⟩ }
        if ms.length + 1 < count then s1.stall f .gang else completeGang (ms ++ [f]) s1)

/-- `ungang` (R234). -/
def execUngang (s : State) : Out :=
  .next (s.threadCertain [] fun f c s =>
    if c.lone then s.trapHere f .operand
    else if c.streams.any fun r =>
      match r with
      | some x => x.gang
      | none => false
    then s.trapHere f .stream
    else s.setCtx f ({ c with gang := none }.retire (c.pc + 4)))

end Sys2Proof.Machine
end

