-- ==== Sys2Proof/Machine/Sync.lean ====
section
/-! DEFINITION. Fences, sequence counters and `chapp` (OP 0x19, 0x1A, 0x1D; R164 to R167, R213 to R218, R223). -/

namespace Sys2Proof.Machine

/-! ### Fences -/

/-- A mask bit a matrix control core does not accept (R72, R214). -/
def coreMaskBad (f : Nat) (m : BitVec 16) : Bool := isCore f && decide (m &&& 0x7FFE ≠ 0)

/-- Whether an access went through a view in a mask. -/
def Via.inMask (m : BitVec 16) (v : Via) : Bool := bitAt m v.reg

/-- Whether earlier accesses that a fence names have yet to perform: those through a view in its mask, and for `fence.s` every entry of the external
queue and every stream transfer. Element blocks may go through any view. -/
def State.fenceWaits (s : State) (f : Nat) (whole : Bool) (m : BitVec 16) : Bool :=
  let c := s.ctx f
  State.fenceVector c whole m || (c.xq.any fun e => whole || Via.inMask m e.via) || (whole && s.streamWritesPending f) || (bitAt m 0 && !s.matIdle f)

/-- A fence (R164, R213): the context issues nothing later until it has completed. -/
def fence (whole : Bool) (m : BitVec 16) (s : State) : State :=
  if s.cur = .agent s.me && coreMaskBad s.me m then s.trapHere s.me .operand
  else
    s.scalar [] fun f c s =>
      if s.fenceWaits f whole m then s.stall f (.fence whole m) else s.setCtx f (c.retire (c.pc + 4))

/-- `fence.v #mask, scope`: every earlier access through a view in the mask performs first. One order of all accesses
holds in the model, so the scope makes no difference. -/
def execFenceV (_c : BitVec 3) (m : BitVec 16) (s : State) : Out := .next (fence false m s)
/-- `fence.s #mask, scope`: the external queue and the stream transfers too. -/
def execFenceS (_c : BitVec 3) (m : BitVec 16) (s : State) : Out := .next (fence true m s)

/-! ### Counters -/

/-- The value of a counter an agent names (R49). -/
def State.counterOf (s : State) (f n : Nat) : Dword := s.counter (bayOf f) (s.partOf f) n

/-- The access trap that a failed matrix operation leaves for the core's next `msig`, `mwait`, `signal`, `brk` or `halt`
(R376), or the instruction's own course. -/
def matChecked (f : Nat) (c : Ctx) (s : State) (k : State → State) : State :=
  match c.matErr with
  | some a =>
    if c.quiet && s.matIdle f then (s.setCtx f { c with matErr := none }).trapHere f (.access a)
    else s.stall f .earlier
  | none => k s

/-- The check of a counter number in a register (R49, R75). -/
def counterCheck (a : BitVec 5) (_f : Nat) (c : Ctx) : Option Trap := if 320 ≤ (c.s a.toNat).toNat then some .operand else none

/-- `waitseq sa, sb` (R216, R167). -/
def execWaitseq (a b : BitVec 5) (s : State) : Out :=
  .next (s.checked (counterCheck a) [a.toNat, b.toNat] fun f c s =>
    let n := (c.s a.toNat).toNat
    if s.counterOf f n < c.s b.toNat then s.stall f (.counter n (c.s b.toNat))
    else s.setCtx f (c.retire (c.pc + 4)))

/-- `signal sa, sb` (R216): the raise waits for the release conditions of R166. -/
def execSignal (a b : BitVec 5) (s : State) : Out :=
  .next (s.checked (counterCheck a) [a.toNat, b.toNat] fun f c s =>
    if !s.released f then s.stall f .release
    else
      matChecked f c s fun s =>
        (s.raise (bayOf f) (s.partOf f) (c.s a.toNat).toNat (c.s b.toNat).toNat).setCtx f (c.retire (c.pc + 4)))

/-- `tseq sd, sa` (R216). -/
def execTseq (d a : BitVec 5) (s : State) : Out :=
  .next (s.checked (fun f c => if isCore f then some .illegal else counterCheck a f c) [d.toNat, a.toNat] fun f c s =>
    s.setCtx f ((c.setS d.toNat (s.counterOf f (c.s a.toNat).toNat)).retire (c.pc + 4)))

/-! ### Appending a job card -/

/-- Registers of a chain (R219). -/
def chainReg (s : State) (part die ch off : Nat) : Nat := (s.reg (.chain part die ch) off).toNat

/-- The atomic step of R223: the card, whose own page is pinned at `loc`, joins the chain's tail. The state, and the new append count. The card at the
old tail is reached by a walk of its own; where that meets a fault its NEXT keeps what it held, and the append goes on (log entry 101). -/
def appendCard (s : State) (part die ch addr : Nat) (loc : Loc) (flat : Option Nat) (det : Bool) : State × Dword :=
  let w := Window.chain part die ch
  let tail := chainReg s part die ch 0x18
  let s1 := s.store loc 8 0
  let s2 := if tail ≠ 0 then (s1.ringStore part false tail 8 addr).getD s1 else s1
  let s3 := if chainReg s part die ch 0x10 = 0 then s2.setReg w 0x10 (BitVec.ofNat 64 addr) else s2
  let n := s.reg w 0x20 + 1
  let s4 := (s3.setReg w 0x18 (BitVec.ofNat 64 addr)).setReg w 0x20 n
  ({ s4 with appended := s4.appended ++ [⟨part, die, ch, addr, flat, flat, det, false⟩] }, n)

/-- `chapp sd, sa, sb` (R223). Its card's page stays pinned while it waits, and EN at the atomic step governs, as does a launch whose code the page has
come to hold meanwhile (R77). -/
def execChapp (d a b : BitVec 5) (s : State) : Out :=
  .next (s.threadCertain [d.toNat, a.toNat, b.toNat] fun f c s =>
    let ch := (c.s a.toNat).toNat
    let addr := (c.s b.toNat).toNat
    let part := s.partOf f
    let closed := !bitAt (s.reg (.chain part (dieOf f) ch) 0x00) 63
    let held := (s.pinAt (.append f) addr).toList
    if 64 ≤ ch then s.trapHere f .operand
    else if addr % 64 ≠ 0 then s.trapHere f (.align addr)
    else
      match (if held.isEmpty then s.coverRun part .write 2 addr (addr + 63) [] else .ok held) with
      | .error t => (s.noteWalk part addr).trapHere f t
      | .ok ps =>
        let pages := ps.map fun p => (p.page, p.size)
        if held.isEmpty && !s.pinRoom part (dieOf f) pages then s.stall f (.pin pages)
        else if held.isEmpty && closed then s.trapHere f (.access addr)
        else if !s.released f then (if held.isEmpty then s.addPins (.append f) (dieOf f) ps else s).stall f .release
        else if closed then s.trapHere f (.access addr)
        else
          let loc := (ps.head?.map fun p => locOf (p.phys + (addr - p.page)) p.device).getD (.dev 0 false)
          let code := match loc with
            | .dev x _ => s.codePage part x
            | _ => false
          if code then (s.dropPins (.append f)).trapHere f (.access addr)
          else
          let (s1, n) := appendCard (s.dropPins (.append f)) part (dieOf f) ch addr loc (some f) (bitAt c.detm 0)
          s1.setCtx f ((c.setS d.toNat n).retire (c.pc + 4)))

end Sys2Proof.Machine
end

