-- ==== Sys2Proof/Machine/ViewOps.lean ====
section
/-! DEFINITION. Loading and retiring views, and the tag table (OP 0x2D; R169, R202 to R208). -/

namespace Sys2Proof.Machine

/-! ### Views -/

/-- The descriptor a context of this package may load: R201. -/
def State.viewValid (s : State) (d : Line) : Bool := View.valid s.pkg d

/-- A view register set, or unset. -/
def Ctx.setView (c : Ctx) (n : Nat) (d : Option Line) : Ctx := { c with views := c.views.setIfInBounds n d }

/-- The draining entries of a mill's live-view directory that count accesses (R163). -/
def State.draining (s : State) (mill : Nat) : List Nat :=
  (millContexts mill).flatMap fun f =>
    let c := s.ctx f
    (c.xq.filterMap fun e => e.via.drain) ++ c.vq.filterMap fun e => if e.done then none else e.via.bind (·.drain)

/-- The lowest draining entry of a mill that is free. -/
def State.freeDraining (s : State) (mill : Nat) : Option Nat := (List.range 32).find? fun k => !(s.draining mill).contains k

/-- The outstanding accesses through the view now in w[n] counted by a draining entry (R163). -/
def Ctx.drainView (c : Ctx) (n k : Nat) : Ctx :=
  let move (v : Via) : Via := if v.isNow n then { v with drain := some k } else v
  { c with
    xq := c.xq.map fun e => { e with via := move e.via }
    vq := c.vq.map fun e => { e with via := e.via.map move } }

/-- The trap of a `vwset` of a fixed view (R202). -/
def vwsetBad (n : BitVec 4) (_f : Nat) (_c : Ctx) : Option Trap := if n = 0 || n = 15 then some .operand else none

/-- `vwset wn, wv[sa]` (R202): the descriptor is read as an `ldx` of 64 bytes is, and the context waits for it. Accesses still outstanding through wn
move to a draining entry, and go on through the view they named (R163). -/
def execVwset (n : BitVec 4) (a : BitVec 5) (v : BitVec 4) (s : State) : Out :=
  .next (
    s.threadOnlyChecked (vwsetBad n) [a.toNat] fun f c s =>
      match c.view false v.toNat with
      | none => s.trapHere f (.access 0)
      | some d =>
        match externalCheck s f d (c.s a.toNat) 64 64 .read false with
        | .error t => (s.noteAccess f d (c.s a.toNat) 64).trapHere f t
        | .ok (at', l) =>
          let x : Line := BitVec.ofNat 512 (s.load l 64)
          let hit := s.watched f d at' 64 true false
          let busy := State.viewCount c n.toNat ≠ 0
          if s.orderHeld f v.toNat true then s.stall f (.order v.toNat true)
          else if s.xqMeets f d then s.stall f (.meets d)
          else if State.viewCount c v.toNat = 4095 then s.stall f (.viewCount v.toNat)
          else if s.locBusy l then s.stall f .externalQueue
          else if s.unreachable l || s.struck l 64 then s.trapHere f (.access at')
          else if !s.viewValid x then s.trapHere f { cause := 0x02, faddr := at' % 2 ^ 64 }
          else
            let set (c : Ctx) : State :=
              ((s.noteAccess f d (c.s a.toNat) 64).setCtx f ((c.setView n.toNat (some x)).retire (c.pc + 4))).watchScalar f c.pc at' hit
            if !busy then set c
            else
              match s.freeDraining (millOf f) with
              | none => s.stall f .draining
              | some k => set (c.drainView n.toNat k))

/-- Whether an access of a context through w[n] has yet to perform. The element threads of a `vfetch` may go through any scratchpad view. -/
def Ctx.viaOpen (c : Ctx) (n : Nat) : Bool :=
  (c.xq.any fun e => e.via.reg = n) || (c.vq.any fun e => !e.done && (e.via.map fun v => decide (v.reg = n)).getD false) ||
    (c.fetching && ((c.view false n).map fun d => decide (View.space d ≤ 1)).getD false)

/-- `vwret wn` (R203, R165): every earlier access through wn performs, and wn is unset. The held writes of a stream that was bound through wn are
accesses of the stream, and `vwret` does not wait for them (log entry 102). -/
def execVwret (n : BitVec 4) (s : State) : Out :=
  .next (s.threadOnlyChecked (vwsetBad n) [] fun f c s =>
    if s.orderHeld f n.toNat true then s.stall f (.order n.toNat true)
    else if c.viaOpen n.toNat then s.stall f (.views n.toNat)
    else s.setCtx f ((c.setView n.toNat none).retire (c.pc + 4)))

/-- Part k of a view (R204), with the outstanding count of its directory entry in part 6. -/
def viewPart (c : Ctx) (n k : Nat) : Dword :=
  match c.view false n with
  | none => 0
  | some d =>
    if k ≤ 5 then BitVec.ofNat 64 (bitsAt d (64 * k) 64)
    else if k = 6 then BitVec.ofNat 64 (2 ^ 63 + State.viewCount c n)
    else 0

/-- `vwget sd, wn, #k` (R204). -/
def execVwget (d : BitVec 5) (n : BitVec 4) (k : BitVec 3) (s : State) : Out :=
  .next (s.threadOnly [d.toNat] fun f c s =>
    s.setCtx f ((c.setS d.toNat (viewPart c n.toNat k.toNat)).retire (c.pc + 4)))

/-! ### The tag table -/

/-- The tag value of entry `slot` of a mill's table: key in [63:10], V in bit 1, P in bit 0 (R206). -/
def State.tagValue (s : State) (m slot : Nat) : Dword := s.tags.getD (m * 4096 + slot) 0
def State.setTagValue (s : State) (m slot : Nat) (v : Dword) : State := { s with tags := s.tags.put (m * 4096 + slot) v }

/-- Whether an entry holds a key: V or P set, and the key equal. -/
def tagHolds (v : Dword) (key : Nat) : Bool := decide (bitsAt v 0 2 ≠ 0) && decide (bitsAt v 10 54 = key)

/-- Slots of the set of a key. -/
def setSlots (key : Nat) : List Nat := (List.range 16).map (16 * (key % 256) + ·)

/-- What `tlook` answers for a key (R207). -/
def tlookValue (s : State) (m key : Nat) : Dword :=
  match (setSlots key).find? fun sl => tagHolds (s.tagValue m sl) key with
  | none => -1
  | some sl => if bitAt (s.tagValue m sl) 0 then -2 else BitVec.ofNat 64 sl

/-- `tlook sd, sa`. -/
def execTlook (d a : BitVec 5) (s : State) : Out :=
  .next (s.threadOnly [d.toNat, a.toNat] fun f c s =>
    let v := tlookValue s (millOf f) (bitsAt (c.s a.toNat) 10 54)
    s.setCtx f ((c.setS d.toNat v).retire (c.pc + 4)))

/-- `tset sd, sa, sb`: with P = 0 it is a release at mill scope of every earlier access, stream writes included (R169, R173). An entry it empties gives the
tag value 0 from then on (log entry 103). -/
def execTset (d a b : BitVec 5) (s : State) : Out :=
  .next (s.threadCertain [d.toNat, a.toNat, b.toNat] fun f c s =>
    let key := bitsAt (c.s a.toNat) 10 54
    let p := bitsAt (c.s a.toNat) 0 1
    let slot := (c.s b.toNat).toNat
    let m := millOf f
    if 4096 ≤ slot || slot / 16 ≠ key % 256 then s.trapHere f .operand
    else if p = 0 && !s.released f then s.stall f .release
    else
      let old := s.tagValue m slot
      let s1 := (setSlots key).foldl (fun s sl =>
        if sl ≠ slot && tagHolds (s.tagValue m sl) key then s.setTagValue m sl 0 else s) s
      let s2 := s1.setTagValue m slot (BitVec.ofNat 64 (key * 1024 + (1 - p) * 2 + p))
      s2.setCtx f ((c.setS d.toNat old).retire (c.pc + 4)))

/-- `tinv sd, sa`. An emptied entry gives the tag value 0 from then on (log entry 103). -/
def execTinv (d a : BitVec 5) (s : State) : Out :=
  .next (s.threadCertain [d.toNat, a.toNat] fun f c s =>
    let slot := (c.s a.toNat).toNat
    let m := millOf f
    if 4096 ≤ slot then s.trapHere f .operand
    else
      (s.setTagValue m slot 0).setCtx f ((c.setS d.toNat (s.tagValue m slot)).retire (c.pc + 4)))

end Sys2Proof.Machine
end

