-- ==== Sys2Proof/Machine/Grant.lean ====
section
/-! DEFINITION. Configuration and the grant (OP 0x1E; R38, R39, R129 to R145, R235). -/

namespace Sys2Proof.Machine

/-! ### Folding and voiding -/

/-- FoldOp of R139: 0 add, 1 max, 2 min, 3 or. -/
def foldOp (t : Tag) (rm : RM) (op a x : Nat) : Nat × Flags :=
  if op % 4 = 3 then (a ||| x, 0)
  else if t.isFloat then
    let (v, fl) :=
      match op % 4 with
      | 0 => fAdd rm (t.read a).flt? (t.read x).flt?
      | 1 => fMinMax true (t.read a).flt? (t.read x).flt?
      | _ => fMinMax false (t.read a).flt? (t.read x).flt?
    let (b, fr) := t.roundTo rm (.flt v)
    (b, fl ||| fr)
  else
    let i := t.readInt a
    let j := t.readInt x
    match op % 4 with
    | 0 => (t.intBits (i + j), 0)
    | 1 => (t.intBits (max i j), 0)
    | _ => (t.intBits (min i j), 0)

/-- RawElem and RawSet of R139: bytes of a group, with no test against VL. -/
def Ctx.raw (c : Ctx) (n b k : Nat) : Nat := sliceBytes c.slice (n * c.regBytes + k * b) b
def Ctx.setRaw (c : Ctx) (n b k v : Nat) : Ctx :=
  { c with slice := setSliceBytes c.slice (n * c.regBytes + k * b) b v }

/-- The bytes of the group at `n` from byte `lo` become void (R31). -/
def Ctx.voidGroup (c : Ctx) (n lo : Nat) : Ctx :=
  if lo < c.groupBytes then
    { c with slice := setSliceBytes c.slice (n * c.regBytes + lo) (c.groupBytes - lo) 0 }
  else c

/-- The fold loop of R139 for source elements j to j + k − 1. -/
def foldLoop (n : Nat) (t : Tag) (op gf : Nat) : Nat → Nat → Ctx → Ctx
  | 0, _, c => c
  | k + 1, j, c =>
    let (v, fl) := foldOp t c.vrm op (c.raw n t.bytes (j % gf)) (c.raw n t.bytes j)
    foldLoop n t op gf k (j + 1) ((c.setRaw n t.bytes (j % gf) v).accrue fl)

/-- Fold(n, oldvl, gf) of R139. -/
def Ctx.fold (c : Ctx) (n oldvl gf : Nat) : Ctx :=
  let t := c.tag n
  let top := min oldvl (c.groupBytes / t.bytes)
  foldLoop n t (bitsAt c.vfoldop (2 * n) 2) gf (top - gf) gf c

/-- Bases of the register groups (R29). -/
def Ctx.groupBases (c : Ctx) : List Nat := (List.range (c.nreg / c.g)).map (c.g * ·)

/-- Whether a group base is carried (R42, R138). -/
def Ctx.carries (c : Ctx) (n : Nat) : Bool := decide (n < 32) && bitAt c.vcarry n

/-- Element bytes of a group for voiding: its tag's, or the given ones when it is untagged (R31). -/
def Ctx.voidBytes (c : Ctx) (n eb : Nat) : Nat := if c.tag n = .none then eb else (c.tag n).bytes

/-- The predicates p1 to p15 with every bit at or above `n` cleared (R33). -/
def Ctx.cutPreds (c : Ctx) (n : Nat) : Ctx := { c with preds := c.preds.map fun p => setBits p n (65536 - n) 0 }

/-- ApplyGrant of R138, under the configuration the instruction was pushed with. -/
def applyGrant (g pad ew : Nat) (c : Ctx) : Ctx :=
  let oldvl := c.reals
  let gf := max (g - pad) 1
  let carried := c.groupBases.filter c.carries
  let plain := c.groupBases.filter fun n => !c.carries n
  let c1 := carried.foldl (fun c n => (c.fold n oldvl gf).voidGroup n (gf * c.voidBytes n (2 ^ ew))) c
  let c2 := plain.foldl (fun c n => c.voidGroup n ((g - pad) * c.voidBytes n (2 ^ ew))) c1
  { (c2.cutPreds (g - pad)) with
    vtype := setBits c2.vtype 4 2 ew, vlmax := c.vlmaxFor (2 ^ ew), vl := g, vpad := pad, vstart := 0 }

/-- A change of VTYPE.G (R39), with the new value in VTYPE already. -/
def Ctx.regroup (c : Ctx) : Ctx :=
  let m := c.vlmaxFor c.eb
  if c.vl ≤ m then { c with vlmax := m }
  else
    let c1 := c.groupBases.foldl (fun c n => c.voidGroup n (m * c.voidBytes n c.eb)) c
    { c1 with vlmax := m, vpad := c.vpad - (c.vl - m), vl := m }

/-! ### Execution at push (R130) -/

/-- What a member of OP 0x1E does as the thread core pushes it: a trap, a wait, the context with its scalar and
configuration effects and the grant of a `setvl` or `setvl.b`, or, in a gang, its push together with its members'. -/
inductive Plan where
  | trap (t : Trap)
  | wait (w : Wait) (s : State)
  | push (s : State) (c : Ctx) (grant : Option (Nat × Nat))
  | pushed (s : State)

namespace State

/-- The head entry is a member of OP 0x1E, and its effect on vector state takes place (R130). VSTART stays as the effect leaves it (log entry 104). VLMAX
stays that of a G which a later `vconfig` in the queue has set (R39). -/
def runConfig (apply : VqEntry → Ctx → Ctx) (f : Nat) (s : State) : State :=
  let now := s.ctx f
  match now.vq with
  | [] => s
  | e :: _ =>
    underEntry e f (fun s => (s.sample f 0 e 0).modCtx f fun c =>
      let c1 := Ctx.popEntry (apply e c)
      { c1.vretire with vstart := c1.vstart, vlmax := if c1.g = now.g then c1.vlmax else now.vlmax }) s

/-- A member of OP 0x1E enters the queue of a context that stood at `c`, which its effects at push have made `c1` (R130). Its k12 field is its second
scalar operand in an image (R456). -/
def pushConfig (word : Word) (sa : Nat) (apply : VqEntry → Ctx → Ctx) (f : Nat) (c c1 : Ctx) (grant : Option (Nat × Nat))
    (s : State) : State :=
  let (g, pad) := grant.getD (0, 0)
  let e : VqEntry :=
    { VOp.entry { word := word, sa := sa } c with
      sb := BitVec.ofNat 64 (bitsAt word 4 12), grant := g, pad := pad, granted := grant.isSome }
  let s2 := s.setCtx f { pushEntry { c1 with vq := c.vq } e with pc := c.pc + 4 }
  if s.defer || !c.quiet then s2 else runConfig apply f s2

/-- A member of OP 0x1E, with its checks at decode. -/
def configure (word : Word) (rs : List Nat) (sa : Nat) (decode : Ctx → Option Trap) (plan : Nat → Ctx → State → Plan)
    (apply : VqEntry → Ctx → Ctx) (s : State) : State :=
  match s.cur with
  | .entry f _ => runConfig apply f s
  | _ =>
    if isCore s.me then s.trapHere s.me .illegal
    else
      s.checked (fun _ c => if c.latchBad none then some .operand else decode c) rs fun f c s =>
        if c.late.isSome then s.stopLate f
        else if c.fetching then s.stall f .blocks
        else
          match plan f c s with
          | .trap t => s.trapHere f t
          | .wait w s' => s'.stall f w
          | .push s1 c1 grant => s1.pushConfig word sa apply f c c1 grant
          | .pushed s1 => s1

end State

/-! ### vconfig, vtag and vcarry -/

/-- The writable fields of VTYPE set (R131). -/
def setVtype (v : Dword) (tshape slices rm g : Nat) : Dword :=
  setBits (setBits (setBits (setBits v 13 2 tshape) 9 4 slices) 6 3 rm) 2 2 g

/-- TSHAPE, SLICES, RM and G of a CONFIG immediate, or of a register in VTYPE's positions (R131). -/
def configFields (imm : Bool) (x : Nat) : Nat × Nat × Nat × Nat :=
  if imm then (x / 2 ^ 9 % 4, x / 2 ^ 5 % 16, x / 4 % 8, x % 4)
  else (x / 2 ^ 13 % 4, x / 2 ^ 9 % 16, x / 2 ^ 6 % 8, x / 4 % 4)

/-- SLICES outside 4 to 9, or RM at 5 to 7 (R131). -/
def configBad (fs : Nat × Nat × Nat × Nat) : Bool := decide (fs.2.1 < 4) || decide (9 < fs.2.1) || decide (4 < fs.2.2.1)

/-- `vconfig` (R131) with its fields: the trap on a bad SLICES or RM, VTYPE, VLMAX at once where G changes (R39), and the new VLMAX in s[sd]. -/
def vconfigPlan (d : Nat) (fs : Ctx → Nat × Nat × Nat × Nat) (_f : Nat) (c : Ctx) (s : State) : Plan :=
  let (tshape, slices, rm, g) := fs c
  if configBad (fs c) then .trap .operand
  else
    let c0 := { c with vtype := setVtype c.vtype tshape slices rm g }
    let c1 : Ctx := { c0 with vlmax := if c0.g = c.g then c.vlmax else c0.vlmaxFor c0.eb }
    .push s (c1.setS d (BitVec.ofNat 64 (c1.vlmaxFor c1.eb))) none

/-- The effect of a `vconfig` on vector state. -/
def vconfigApply (fs : VqEntry → Nat × Nat × Nat × Nat) (e : VqEntry) (c : Ctx) : Ctx :=
  let (tshape, slices, rm, g) := fs e
  let c1 := { c with vtype := setVtype c.vtype tshape slices rm g }
  if c1.g = c.g then c1 else c1.regroup

/-- `vconfig sd, #config`. -/
def execVconfigImm (d : BitVec 5) (k : BitVec 11) (s : State) : Out :=
  .next (s.configure (Instr.vconfigImm d k).word [d.toNat] 0
    (fun _ => if configBad (configFields true k.toNat) then some .operand else none)
    (vconfigPlan d.toNat fun _ => configFields true k.toNat) (vconfigApply fun _ => configFields true k.toNat))
/-- `vconfig sd, sa`. -/
def execVconfigReg (d a : BitVec 5) (s : State) : Out :=
  .next (s.configure (Instr.vconfigReg d a).word [d.toNat, a.toNat] a.toNat (fun _ => none)
    (vconfigPlan d.toNat fun c => configFields false (c.s a.toNat).toNat)
    (vconfigApply fun e => configFields false e.sa.toNat))

/-- `vtag vn, tag, #k` (R132). -/
def execVtag (k : BitVec 2) (v : BitVec 6) (t : BitVec 4) (s : State) : Out :=
  .next (s.configure (Instr.vtag k v t).word [] 0
    (fun c => if v.toNat % c.g ≠ 0 || c.nreg < v.toNat + 2 ^ k.toNat * c.g then some .operand else none)
    (fun _ c s => .push s ((List.range (2 ^ k.toNat)).foldl (fun c j => c.setTag (v.toNat + j * c.g) (Tag.ofCode t.toNat)) c) none)
    (fun _ c => c))

/-- `vcarry vn, op` (R133). -/
def execVcarrySet (o : BitVec 2) (n : BitVec 5) (s : State) : Out :=
  .next (s.configure (Instr.vcarrySet o n).word [] 0
    (fun c => if n.toNat % c.g ≠ 0 || c.nreg ≤ n.toNat then some .operand else none)
    (fun _ c s => .push s { c with
      vcarry := setBits c.vcarry n.toNat 1 1, vfoldop := setBits c.vfoldop (2 * n.toNat) 2 o.toNat } none)
    (fun _ c => c))
/-- `vcarry sa` (R133). -/
def execVcarryReg (a : BitVec 5) (s : State) : Out :=
  .next (s.configure (Instr.vcarryReg a).word [a.toNat] a.toNat (fun _ => none)
    (fun _ c s => .push s { c with vcarry := (c.s a.toNat).setWidth 32 } none)
    (fun _ c => c))

/-! ### The grant -/

/-- SampleCap (R135): the cap, and the context with a replayed cap consumed. -/
def sampleCap (c : Ctx) : Nat × Ctx :=
  match c.replay with
  | x :: rest => (x, { c with replay := rest })
  | [] => (if c.pinned then 64 * 2 ^ c.pincap else c.cap, c)

/-- The grant of `setvl` (b = 0, R134) or of `setvl.b` with blocks of b (R136), for a cap. -/
def grantFor (c : Ctx) (avl ew b cap : Nat) : Nat :=
  let eb := 2 ^ ew
  let vlmax := c.vlmaxFor eb
  let capE := max 1 (cap * 4 / eb)
  if b = 0 then min avl (min vlmax capE)
  else min ((avl + b - 1) / b) (max 1 (min vlmax capE / b)) * b

/-- The pad of a grant (R136): when the grant holds every block that is needed, the elements beyond AVL. -/
def padFor (avl b g : Nat) : Nat := if b ≠ 0 && g / b = (avl + b - 1) / b then g - avl else 0

/-- A carried group with a tag that does not fold (R140). -/
def carryTagBad (c : Ctx) : Bool :=
  c.groupBases.any fun n => c.carries n && [Tag.none, Tag.d8b, Tag.e8, Tag.p32].contains (c.tag n)

/-- The context after a grant at push: s[sd] := g − pad, and the element width that later instructions decode under. -/
def granted (d avl ew b g : Nat) (c : Ctx) : Ctx :=
  { (c.setS d (BitVec.ofNat 64 (g - padFor avl b g))) with vtype := setBits c.vtype 4 2 ew }

/-- What member m of a gang has pushed as its `setvl` number `n` since the `gang` (R235): the one that waits, with the grant that its own cap gives, or one
that it has been granted before, while another member executes its own again. One whose debug stop is due pushes nothing (R493). -/
def State.pushOf (s : State) (m n : Nat) : Option (GangPush × Nat) :=
  let c := s.ctx m
  c.gang.bind fun g =>
    if n < g.pushes then g.grants[g.pushes - 1 - n]?
    else if n = g.pushes && !c.barred then g.push.map fun p => (p, grantFor c p.avl p.ew p.b (sampleCap c).1)
    else none

/-- A context's ganged `setvl` is granted `g` elements: the gang remembers what its own cap gave. -/
def Ctx.drawn (c : Ctx) (own : GangPush × Nat) : Ctx :=
  { c with gang := c.gang.map fun x => { x with push := none, pushes := x.pushes + 1, grants := (own :: x.grants).take 32 } }

/-- `setvl` number `n` of a gang once every member has pushed it (R235): each member takes the least of the grants that the members' own
caps give, and consumes its own replayed cap. Every member's cap is sampled here, as the last of them pushes (log entry 105). -/
def settleGang (ms : List Nat) (n : Nat) (s : State) : State :=
  let all := ms.map fun m => (m, s.pushOf m n)
  let g := all.foldl (fun acc x => min acc ((x.2.map (·.2)).getD 65536)) 65536
  (all.filter fun x => ((s.ctx x.1).gang.map (·.pushes)) = some n).foldl (fun s x =>
    match x.2 with
    | none => s
    | some own =>
      let p := own.1
      let c := s.ctx x.1
      let c1 := Ctx.drawn (sampleCap c).2 own
      s.pushConfig p.word p.a (fun x c => applyGrant x.grant x.pad p.ew c) x.1 c (granted p.d p.avl p.ew p.b g c1)
        (some (g, padFor p.avl p.b g))) s

/-- The plan of `setvl` and `setvl.b` for an element width and a block length, after their decode checks. -/
def setvlPlan (word : Word) (d a : Nat) (ew b : Nat) (f : Nat) (c : Ctx) (s : State) : Plan :=
  let avl := (c.s a).toNat
  match (if c.ganged then c.gang else none) with
  | none =>
    let (cap, c1) := sampleCap c
    let g := grantFor c avl ew b cap
    .push s (granted d avl ew b g c1) (some (g, padFor avl b g))
  | some x =>
    if x.lone then .trap .operand
    else
    let mine : GangPush := ⟨word, d, a, ew, b, bitsAt c.vtype 2 2, avl⟩
    let s1 := s.setCtx f { c with gang := some { x with push := some mine } }
    let ms := s1.gangOf f
    let pushes := ms.map fun m => s1.pushOf m x.pushes
    if pushes.any (·.isNone) then .wait .gangSetvl s1
    else if pushes.any fun p =>
      match p with
      | some (p, _) => decide (p.ew ≠ mine.ew) || decide (p.b ≠ mine.b) || decide (p.g ≠ mine.g)
      | none => false
    then .trap .operand
    else .pushed (settleGang ms x.pushes s1)

/-- `setvl sd, sa, #w` (R134). -/
def execSetvl (d a : BitVec 5) (e : BitVec 2) (s : State) : Out :=
  .next (s.configure (Instr.setvl d a e).word [d.toNat, a.toNat] a.toNat
    (fun c => if carryTagBad c then some .tag else none)
    (fun f c s => setvlPlan (Instr.setvl d a e).word d.toNat a.toNat e.toNat 0 f c s)
    (fun x c => applyGrant x.grant x.pad e.toNat c))

/-- `setvl.b sd, sa, tag, #B` (R136). -/
def execSetvlB (d a : BitVec 5) (k : BitVec 3) (t : BitVec 4) (s : State) : Out :=
  let tg := Tag.ofCode t.toNat
  let ew := (tg.bytes).log2
  let b := 8 * 2 ^ k.toNat
  .next (s.configure (Instr.setvlB d a k t).word [d.toNat, a.toNat] a.toNat
    (fun c =>
      if 6 ≤ k.toNat || t = 0 || c.vlmaxFor tg.bytes < b then some .operand
      else if carryTagBad c then some .tag else none)
    (fun f c s => setvlPlan (Instr.setvlB d a k t).word d.toNat a.toNat ew b f c s)
    (fun x c => applyGrant x.grant x.pad ew c))

end Sys2Proof.Machine
end

