-- ==== Sys2Proof/Machine/Group.lean ====
section
/-! DEFINITION. The end of a context, groups, forking and thread numbers (OP 0x1B; R253, R254, R258 to R264). -/

namespace Sys2Proof.Machine

/-- A context that holds no thread: its registers stay as they were (R123), its views are retired, and it is in no launch, group or gang. It holds
no caps (R144). -/
def Ctx.emptied (c : Ctx) : Ctx :=
  { c with
    life := .free, launch := 0, code := Code.none, replay := [], views := .replicate 16 none, streams := .replicate 8 none, vq := [],
    convoyHead := 0, convoyCount := 0, convoyLeft := 0, slotted := 0, order := [], took := false, latch := none, reverted := false, scan := none, blocks := none, xq := [],
    xfail := [], wait := none, late := none, record := 0, groups := [], arrived := none, gang := none, parent := 0, children := [],
    exited := [], splice := [], passBreak := false, stepping := false, debugReq := 0, matched := 0, drafts := [], deficit := 0, raises := [], matErr := none }

namespace State

/-! ### Groups -/

/-- The members of a group of a partition (R260). A thread whose image is saved remains a member that has not arrived
(R444, R261); it is listed under a number beyond the contexts'. -/
def groupMembers (s : State) (part g : Nat) : List Nat :=
  ((s.agents.filter fun (f, c) => s.partOf f = part && c.groups.contains g).map (·.1)) ++
  ((s.away.filter fun a => a.part = part && a.groups.contains g).map fun a => 65536 + a.flat)

/-- Completion of an episode (R261): when a member has arrived and every current member has, each member's `gbar`
completes. -/
def settleGroup (s : State) (part g : Nat) : State :=
  let ms := s.groupMembers part g
  if !ms.isEmpty && ms.all fun m => (s.ctx m).arrived = some g then
    ms.foldl (fun s m => s.modCtx m fun c => { c with arrived := none }.retire (c.pc + 4)) s
  else s

/-- A context leaves a group. -/
def leaveGroup (s : State) (f g : Nat) : State :=
  (s.modCtx f fun c => { c with groups := c.groups.erase g }).settleGroup (s.partOf f) g

/-! ### The end of a context -/

/-- Every bound stream of a context is unbound (R123 step 3). -/
def unbindAll (s : State) (f : Nat) : State :=
  (List.range 8).foldl (fun s q =>
    match s.streamReg f q with
    | some r => s.unbind r q
    | none => s) s

/-- The jobs of a thread that ends are no longer any context's. -/
def disown (s : State) (f : Nat) : State :=
  { s with
    jobs := s.jobs.map fun j => if j.by' = some f then { j with by' := none } else j
    appended := s.appended.map fun a => if a.by' = some f then { a with by' := none } else a }

/-- A context becomes free (R254): it leaves every group and its gang, and holds no thread. -/
def freeContext (s : State) (f : Nat) : State :=
  let s1 := (s.ctx f).groups.foldl (fun s g => s.leaveGroup f g) ((s.unbindAll f).disown f)
  s1.modCtx f Ctx.emptied

/-- A thread or core program ends with an exit code (R123): its launch keeps the largest code, and its parent learns of
it (R264). -/
def endThread (s : State) (f code : Nat) : State :=
  let c := s.ctx f
  let s1 :=
    match s.launchOf c.launch with
    | some l => s.setLaunch c.launch { l with exit := max l.exit code, ended := l.ended ++ [millOf f] }
    | none => s
  let s2 :=
    if c.parent = 0 || 65536 ≤ c.parent then s1 else s1.modCtx (c.parent - 1) fun p => { p with exited := p.exited ++ [f + 1] }
  (s2.modCtx f fun c => { c with exitCode := code }).freeContext f

end State

/-! ### Groups -/

/-- `gjoin sd, sa`. -/
def execGjoin (d a : BitVec 5) (s : State) : Out :=
  .next (s.threadCertain [d.toNat, a.toNat] fun f c s =>
    let g := (c.s a.toNat).toNat
    if 256 ≤ g || c.groups.contains g || 4 ≤ c.groups.length then s.trapHere f .operand
    else
      let n := (s.groupMembers (s.partOf f) g).length + 1
      s.setCtx f (({ c with groups := c.groups ++ [g] }.setS d.toNat (BitVec.ofNat 64 n)).retire (c.pc + 4)))

/-- `gleave sa`. -/
def execGleave (a : BitVec 5) (s : State) : Out :=
  .next (s.threadCertain [a.toNat] fun f c s =>
    let g := (c.s a.toNat).toNat
    if 256 ≤ g || !c.groups.contains g then s.trapHere f .operand
    else (s.leaveGroup f g).modCtx f fun c => c.retire (c.pc + 4))

/-- `gsize sd, sa`. -/
def execGsize (d a : BitVec 5) (s : State) : Out :=
  .next (s.threadOnly [d.toNat, a.toNat] fun f c s =>
    let g := (c.s a.toNat).toNat
    if 256 ≤ g then s.trapHere f .operand
    else
      s.setCtx f ((c.setS d.toNat (BitVec.ofNat 64 (s.groupMembers (s.partOf f) g).length)).retire (c.pc + 4)))

/-- `gbar sa` (R261, R262): the arrival is a release, and the `gbar` completes with its episode. -/
def execGbar (a : BitVec 5) (s : State) : Out :=
  .next (s.threadCertain [a.toNat] fun f c s =>
    let g := (c.s a.toNat).toNat
    if 256 ≤ g || !c.groups.contains g then s.trapHere f .operand
    else if !s.released f then s.stall f .release
    else (s.setCtx f { c with arrived := some g, wait := some .gbar }).settleGroup (s.partOf f) g)

/-! ### Threads -/

/-- `tid sd` (R259). -/
def execTid (d : BitVec 5) (s : State) : Out :=
  .next (s.threadOnly [d.toNat] fun f c s => s.setCtx f ((c.setS d.toNat (BitVec.ofNat 64 f)).retire (c.pc + 4)))

/-- `yield`: the context's turn at the arbiter ends (R259, R274). -/
def execYield (s : State) : Out :=
  .next (s.threadOnly [] fun f c s =>
    let s1 := s.setCtx f ({ c with deficit := 0 }.retire (c.pc + 4))
    if (s.mill (millOf f)).pointer = f % 16 then
      s1.modMill (millOf f) fun m => { m with pointer := (f + 1) % 16, fresh := true }
    else s1)

/-! ### Forking -/

/-- The lowest-numbered free context of a mill (R263). -/
def State.freeIn (s : State) (m : Nat) : Option Nat := (millContexts m).find? fun g => (s.ctx g).life = .free

/-- The child of a `forkl` (R263). -/
def forkChild (f : Nat) (c old : Ctx) (d pc : Nat) : Ctx :=
  { Ctx.reset with
    life := .running, sregs := (c.setS d 0).sregs, pc := pc, launch := c.launch, code := c.code, frm := c.frm,
    vtype := c.vtype, vlmax := c.vlmax, vcarry := c.vcarry, vfoldop := c.vfoldop, vtag := c.vtag, pinned := c.pinned,
    pincap := if c.pinned then c.pincap - 1 else c.pincap, cap := old.cap, detm := c.detm, share := c.share / 2,
    rngkey0 := c.rngkey0, rngkey1 := c.rngkey1, tileen := c.tileen, launchid := c.launchid, lindex := c.lindex,
    views := c.views, splice := c.splice, parent := f + 1 }

/-- `forkl sd, sa` (R263). -/
def execForkl (d a : BitVec 5) (s : State) : Out :=
  .next (s.threadCertain [d.toNat, a.toNat] fun f c s =>
    let pc := (c.s a.toNat).toNat
    let failed := s.setCtx f ((c.setS d.toNat 0).retire (c.pc + 4))
    if pc % 4 ≠ 0 then s.trapHere f (.align pc)
    else if c.share = 1 || (c.pinned && c.pincap = 0) then failed
    else
      match s.freeIn (millOf f) with
      | none => failed
      | some k =>
        if !s.released f then s.stall f .release
        else
          let child := forkChild f c (s.ctx k) d.toNat pc
          let c1 : Ctx :=
            { c with
              share := c.share - c.share / 2, pincap := if c.pinned then c.pincap - 1 else c.pincap,
              children := c.children ++ [(k + 1, c.share / 2)] }
          (s.setCtx k child).setCtx f ((c1.setS d.toNat (BitVec.ofNat 64 (k + 1))).retire (c.pc + 4)))

/-- An ended child joined (R264): its weight, and in pinned mode one PINCAP, come back. -/
def joinChild (c : Ctx) (h w : Nat) : Ctx :=
  { c with
    share := c.share + w, pincap := if c.pinned then c.pincap + 1 else c.pincap,
    children := c.children.erase (h, w), exited := c.exited.erase h }

/-- `joinl sa` (R264). -/
def execJoinl (a : BitVec 5) (s : State) : Out :=
  .next (s.threadCertain [a.toNat] fun f c s =>
    let h := (c.s a.toNat).toNat
    if h = 0 then
      if c.parent = 0 || 65536 ≤ c.parent || !c.children.isEmpty then s.trapHere f .operand
      else if !s.released f then s.stall f .release
      else
        match c.xfail with
        | x :: rest => (s.setCtx f { c with xfail := rest }).trapHere f (.access x.addr)
        | [] => (s.setCtx f (c.retire c.pc)).endThread f 0
    else
      match c.children.find? fun e => e.1 = h with
      | none => s.trapHere f .operand
      | some (_, w) =>
        if c.exited.contains h then s.setCtx f ((joinChild c h w).retire (c.pc + 4)) else s.stall f (.joinl h))

end Sys2Proof.Machine
end

