-- ==== Sys2Proof/Machine/System.lean ====
section
/-! DEFINITION. System instructions (OP 0x1C; R119 to R124) and the control and status registers (R35, R37, R38, R40, R42, R50 to R52, R54). -/

namespace Sys2Proof.Machine

/-! ### The registers -/

/-- Lane groups in service: count in [20:16], mask in [15:0] (R50). -/
def lremap (m : Mill) : Dword := BitVec.ofNat 64 (m.lgmask.toNat + 2 ^ 16 * (bitsOf m.lgmask))
where
  /-- Bits set in a mask of 16. -/
  bitsOf (x : BitVec 16) : Nat := ((List.range 16).filter fun i => bitAt x i).length

/-- TID (R50, R51). -/
def tidOf (s : State) (f : Nat) : Dword :=
  let bay := bayOf f
  let low := if f < 2304 then f % 64 else 0
  BitVec.ofNat 64 (s.pkg * 2 ^ 16 + bay / 9 * 2 ^ 10 + bay % 9 * 2 ^ 6 + low)

/-- GPROF (R50). -/
def gprof (c : Ctx) : Dword :=
  BitVec.ofNat 64 (b2n c.pinned * 2 ^ 36 + b2n (!c.replay.isEmpty) * 2 ^ 35 + c.pincap % 8 * 2 ^ 32 + c.cap % 2 ^ 17)

/-- GREPLAY (R50). -/
def greplay (c : Ctx) : Dword := BitVec.ofNat 64 (c.replay.headD 0 * 2 ^ 16 + c.replay.length)

/-- The value of a register an agent holds; `none` for a number it does not hold (R52). -/
def csrRead (s : State) (f : Nat) (c : Ctx) (k : Nat) : Option Dword :=
  let w {n : Nat} (x : BitVec n) : Option Dword := some (x.setWidth 64)
  let n (x : Nat) : Option Dword := some (BitVec.ofNat 64 x)
  let core := isCore f
  match k with
  | 0x000 => w c.fflags
  | 0x001 => w c.frm
  | 0x010 => if core then none else some c.vtype
  | 0x011 => if core then none else n c.vl
  | 0x012 => if core then none else n c.vlmax
  | 0x013 => if core then none else n c.vstart
  | 0x014 => if core then none else n c.vff
  | 0x015 => if core then none else n c.vpad
  | 0x016 => if core then none else w c.vcarry
  | 0x017 => if core then none else some c.vfoldop
  | 0x018 => if core then none else n (bitsAt c.vtag 0 64)
  | 0x019 => if core then none else n (bitsAt c.vtag 64 64)
  | 0x01A => if core then none else n (bitsAt c.vtag 128 64)
  | 0x01B => if core then none else n (bitsAt c.vtag 192 64)
  | 0x020 => if core then none else some (gprof c)
  | 0x021 => if core then none else w c.detm
  | 0x022 => if core then none else some (lremap (s.mill (millOf f)))
  | 0x023 => if core then none else n c.share
  | 0x024 => if core then none else some (greplay c)
  | 0x030 => if core then none else some c.rngkey0
  | 0x031 => if core then none else some c.rngkey1
  | 0x040 => if core then none else some c.acarry
  | 0x041 => if core then none else w c.xqin
  | 0x042 => if core then none else w c.xqout
  | 0x050 => if core then none else w c.tileen
  | 0x060 => some (s.mill (millOf f)).cycle
  | 0x061 => some s.gtime
  | 0x062 => some c.instret
  | 0x070 => some (tidOf s f)
  | 0x071 => if core then none else if c.splice = [] then w c.launchid else n (s.origin c c.pc).2.2
  | 0x072 => if core then none else w c.lindex
  | 0x080 => if core then some c.mcfg else none
  | _ => none

/-- A write of VTYPE's writable fields (R37 to R39): one that would leave SLICES outside 4 to 9 or RM at 5 to 7 changes
nothing. -/
def writeVtype (c : Ctx) (v : Dword) : Ctx :=
  if bitsAt v 9 4 < 4 || 9 < bitsAt v 9 4 || 4 < bitsAt v 6 3 then c
  else
    let c1 := { c with vtype := setVtype c.vtype (bitsAt v 13 2) (bitsAt v 9 4) (bitsAt v 6 3) (bitsAt v 2 2) }
    if c1.g = c.g then c1 else c1.regroup

/-- Whether an MCFG value leaves a tile mode of 3, a bad rounding mode or a bad slice count (R51). -/
def mcfgBad (v : Dword) : Bool :=
  ((List.range 4).any fun n => bitsAt v (8 + 2 * n) 2 = 3) || 4 < bitsAt v 4 3 || bitsAt v 0 4 < 4 || 9 < bitsAt v 0 4

/-- MCFG with TMODE, RM and SLICES of a value (R365). -/
def setMcfg (old v : Dword) : Dword :=
  setBits (setBits (setBits old 8 8 (bitsAt v 8 8)) 4 3 (bitsAt v 4 3)) 0 4 (bitsAt v 0 4)

/-- A write to a register: RW fields only (R7, R120). -/
def csrWrite (c : Ctx) (k : Nat) (v : Dword) : Ctx :=
  match k with
  | 0x000 => { c with fflags := v.setWidth 5 }
  | 0x001 => if 4 < bitsAt v 0 3 then c else { c with frm := v.setWidth 3 }
  | 0x010 => writeVtype c v
  | 0x013 => { c with vstart := bitsAt v 0 17 }
  | 0x016 => { c with vcarry := v.setWidth 32 }
  | 0x017 => { c with vfoldop := v }
  | 0x018 => { c with vtag := setBits c.vtag 0 64 v.toNat }
  | 0x019 => { c with vtag := setBits c.vtag 64 64 v.toNat }
  | 0x01A => { c with vtag := setBits c.vtag 128 64 v.toNat }
  | 0x01B => { c with vtag := setBits c.vtag 192 64 v.toNat }
  | 0x030 => { c with rngkey0 := v }
  | 0x031 => { c with rngkey1 := v }
  | 0x040 => { c with acarry := v }
  | 0x041 => { c with xqin := v.setWidth 33 }
  | 0x042 => { c with xqout := v.setWidth 33 }
  | 0x080 => if mcfgBad v then c else { c with mcfg := setMcfg c.mcfg v }
  | _ => c

/-- The registers whose accesses wait for earlier vector instructions (R54). -/
def csrWaits (k : Nat) : Bool :=
  [0x000, 0x010, 0x011, 0x013, 0x014, 0x015, 0x016, 0x017, 0x018, 0x019, 0x01A, 0x01B, 0x040, 0x041, 0x042].contains k

/-- A read of a register, and a write for the members other than `csrr` (R120). FFLAGS of a matrix control core does not wait for its queued matrix
operations: R54 names vector instructions alone (DESIGN CHOICE, log entry 129). A number that the agent does not hold fails before all else, in an
element thread too (R52, R75). A write of MCFG waits for the core's
matrix operations (R365). -/
def csrAccess (write : Bool) (new : Dword → Dword → Dword) (d a : BitVec 5) (k : BitVec 12) (s : State) : State :=
  let unheld (f : Nat) (c : Ctx) : Bool := (csrRead s f c k.toNat).isNone
  match s.cur with
  | .group f => s.trapGroup f (if unheld f (s.ctx f) then .illegal else .block)
  | _ =>
  s.checked (fun f c => if unheld f c then some .illegal else none) [d.toNat, a.toNat] fun f c s =>
    match csrRead s f c k.toNat with
    | none => s
    | some old =>
      if csrWaits k.toNat && !c.quiet then s.stall f .earlier
      else if write && k = 0x080 && !s.matIdle f then s.stall f .earlier
      else
        let c1 := if write then csrWrite c k.toNat (new old (c.s a.toNat)) else c
        s.setCtx f ((c1.setS d.toNat old).retire (c.pc + 4))

/-- `csrr sd, CSR`. -/
def execCsrr (d : BitVec 5) (k : BitVec 12) (s : State) : Out := .next (csrAccess false (fun o _ => o) d 0 k s)
/-- `csrw sd, CSR, sa`. -/
def execCsrw (d a : BitVec 5) (k : BitVec 12) (s : State) : Out := .next (csrAccess true (fun _ x => x) d a k s)
/-- `csrs sd, CSR, sa`. -/
def execCsrs (d a : BitVec 5) (k : BitVec 12) (s : State) : Out := .next (csrAccess true (fun o x => o ||| x) d a k s)
/-- `csrc sd, CSR, sa`. -/
def execCsrc (d a : BitVec 5) (k : BitVec 12) (s : State) : Out := .next (csrAccess true (fun o x => o &&& ~~~x) d a k s)

/-! ### Stops and waits -/

/-- `trap #k` (R121): the context stops with cause 0x0C once every earlier instruction has completed. -/
def execTrap (k : BitVec 12) (s : State) : Out :=
  .next (s.scalar [] fun f c s =>
    if c.quiet && s.matIdle f then s.takeTrap f { cause := 0x0C } c.pc c.vstart k.toNat false
    else s.stall f .earlier)

/-- `sleep sa, #k` (R122). -/
def execSleep (a : BitVec 5) (k : BitVec 12) (s : State) : Out :=
  .next (s.scalar [a.toNat] fun f c s =>
    if s.gtime < c.s a.toNat + k.setWidth 64 then s.stall f (.sleep (c.s a.toNat + k.setWidth 64)) else s.setCtx f (c.retire (c.pc + 4)))

/-- `brk #k` (R124): a debug stop at a convoy boundary. -/
def execBrk (k : BitVec 12) (s : State) : Out :=
  .next (s.scalar [] fun f c s =>
    if c.quiet && s.matIdle f then matChecked f c s fun s => s.debugStop f 1 0 k.toNat
    else s.stall f .brk)

/-- The end of a context by `halt` or at the exit address (R110, R123): it waits for its accesses, its stream writes and its
children, and an error found is reported by R118. -/
def haltContext (code : Nat) (s : State) : State :=
  s.scalar [] fun f c s =>
    if !s.released f then s.stall f .release
    else
      match c.xfail with
      | x :: rest => (s.setCtx f { c with xfail := rest }).trapHere f (.access x.addr)
      | [] =>
        matChecked f c s fun s =>
          if c.children.all fun e => c.exited.contains e.1 then (s.setCtx f (c.retire c.pc)).endThread f code
          else s.stall f (.joinl 0)

/-- `halt #k` (R123). -/
def execHalt (k : BitVec 12) (s : State) : Out := .next (haltContext k.toNat s)

end Sys2Proof.Machine
end

