-- ==== Sys2Proof/Machine/VArith.lean ====
section
/-! DEFINITION. Element-wise arithmetic, logic and comparisons (OP 0x20 to 0x23; R313 to R320). -/

namespace Sys2Proof.Machine

/-! ### The operations of R316 -/

/-- The members of OP 0x20 and 0x21. -/
inductive Arith where
  | vadd | vsub | vmul | vfma | vfms | vfnma | vdiv | vmin | vmax | vabs | vneg | vsadd | vssub | vmulh | vavg
deriving DecidableEq, Repr

/-- `vfma`, `vfms` and `vfnma`, which read the old element of vd. -/
def Arith.fused : Arith → Bool
  | .vfma | .vfms | .vfnma => true
  | _ => false
/-- `vabs` and `vneg`. -/
def Arith.unary : Arith → Bool
  | .vabs | .vneg => true
  | _ => false
/-- Members that take no float common type (R317). -/
def Arith.integerOnly : Arith → Bool
  | .vsadd | .vssub | .vmulh => true
  | _ => false

/-- Halving of a finite value. -/
def halve (x : FVal) : FVal :=
  match x with
  | .fin n m e => .fin n m (e - 1)
  | y => y

/-- Op under a float C (R316), on operands already in C. -/
def Arith.float (op : Arith) (rm : RM) (a b c : FVal) : FVal × Flags :=
  match op with
  | .vadd => fAdd rm a b
  | .vsub => fSub rm a b
  | .vmul => fMul a b
  | .vfma => fFma rm false false a b c
  | .vfms => fFma rm false true a b c
  | .vfnma => fFma rm true false a b c
  | .vdiv => fDiv a b
  | .vmin => fMinMax false a b
  | .vmax => fMinMax true a b
  | .vavg => let (x, fl) := fAdd rm a b; (halve x, fl)
  | _ => (a, 0)

/-- Op under an integer C (R316): the exact or wrapped value; RoundTo clamps a saturating member. -/
def Arith.int (op : Arith) (C : Tag) (a b c : Int) : Int :=
  match op with
  | .vadd => C.wrap (a + b)
  | .vsub => C.wrap (a - b)
  | .vmul => C.wrap (a * b)
  | .vfma => C.wrap (a * b + c)
  | .vfms => C.wrap (a * b - c)
  | .vfnma => C.wrap (c - a * b)
  | .vdiv => if b = 0 then C.wrap (-1) else C.wrap (a.tdiv b)
  | .vmin => min a b
  | .vmax => max a b
  | .vabs => C.wrap a.natAbs
  | .vneg => C.wrap (-a)
  | .vsadd => a + b
  | .vssub => a - b
  | .vmulh => C.wrap ((a * b).fdiv (2 ^ C.width))
  | .vavg => (a + b + 1).fdiv 2

/-- `vabs` and `vneg` under a float C: the sign bit alone, with no flag, then a conversion where td differs (R316). -/
def signOnly (neg : Bool) (ta C td : Tag) (rm : RM) (bits : Nat) : Nat × Flags :=
  let F := C.fmt
  let raw := if ta = .d8 then (F.roundTo .nearestEven (d8Decode (bits % 256))).1 else bits % 2 ^ F.bits
  let y := if neg then (if raw < F.mag then raw + F.mag else raw - F.mag) else raw % F.mag
  if td = C then (y, 0) else td.roundTo rm (C.read y)

/-- The common type of a member's operands (R306, R316). -/
def Arith.common (op : Arith) (ta tb td : Tag) : Tag :=
  if op.unary then soleTag ta
  else
    let C := commonTag ta tb
    if op.fused then commonTag C td else C

/-- One element of a member (R314, R316): its operands' bits under their tags, and the destination's bits and flags. -/
def Arith.element (op : Arith) (ta tb td : Tag) (rm : RM) (a b c : Nat) : Nat × Flags :=
  let C := op.common ta tb td
  if op.unary && C.isFloat then signOnly (op = .vneg) ta C td rm a
  else
    let (x, fx) := toCommon C rm (ta.read a)
    let (y, fy) := if op.unary then (x, 0) else toCommon C rm (tb.read b)
    let (z, fz) := if op.fused then toCommon C rm (td.read c) else (x, 0)
    if C.isFloat then
      let (r, fr) := op.float rm x.flt? y.flt? z.flt?
      let (bits, fl) := toDest C td rm (.flt r)
      (bits, fx ||| fy ||| fz ||| fr ||| fl)
    else toDest C td rm (.int (op.int C x.int? y.int? z.int?))

/-- Tags an arithmetic operand may carry (R306, R317). -/
def arithTag (t : Tag) : Bool := t.isNum

/-- The tag checks of a member (R313, R317). -/
def Arith.tagsBad (op : Arith) (ta tb td : Tag) : Bool :=
  !arithTag ta || !arithTag tb || !arithTag td || (op.integerOnly && (op.common ta tb td).isFloat)

/-- The bits an element instruction writes and the flags it raises, put into the context. -/
def Ctx.putFlags (c : Ctx) (d i : Nat) (r : Nat × Flags) : Ctx := (c.put d i r.1).accrue r.2

/-- An element-wise instruction whose element i is a function of the context: sources `ns`, destination `d`. -/
def elementwise (word : Word) (sa : Nat) (p : BitVec 4) (d : Nat) (ns : List Nat) (tagsBad : Ctx → Bool)
    (f : Env → Nat → Ctx → Nat × Flags) : VOp where
  word := word
  sa := sa
  decode := fun _ c => firstTrap [(c.badGroups (d :: ns), .operand), (c.untagged (d :: ns) || tagsBad c, .tag)]
  issue := fitTrap (d :: ns)
  pm := p.toNat
  elem := fun env i s =>
    let c := s.ctx env.f
    .ok (s.setCtx env.f (c.putFlags d i (f env i c)))
  inBlock := true

/-- The bits of element i of a group under its tag. -/
def Ctx.bits (c : Ctx) (n i : Nat) : Nat := c.elem n (c.tag n).bytes i

/-- A vector form of OP 0x20. -/
def arithVv (op : Arith) (word : Word) (d a b : BitVec 6) (p : BitVec 4) : VOp :=
  elementwise word 0 p d.toNat [a.toNat, b.toNat] (fun c => op.tagsBad (c.tagOf a) (c.tagOf b) (c.tagOf d))
    fun _ i c => op.element (c.tagOf a) (c.tagOf b) (c.tagOf d) c.vrm (c.bits a.toNat i) (c.bits b.toNat i) (c.bits d.toNat i)

/-- A unary vector form of OP 0x20. -/
def arithV (op : Arith) (word : Word) (d a : BitVec 6) (p : BitVec 4) : VOp :=
  elementwise word 0 p d.toNat [a.toNat] (fun c => op.tagsBad (c.tagOf a) (c.tagOf a) (c.tagOf d))
    fun _ i c => op.element (c.tagOf a) (c.tagOf a) (c.tagOf d) c.vrm (c.bits a.toNat i) 0 0

/-- A scalar as the bits of an element under a tag (R313). -/
def scalarBits (t : Tag) (x : Dword) : Nat := x.toNat % 2 ^ t.width

/-- A scalar form of OP 0x21: the scalar stands in place of vb and is read under ta (R315). -/
def arithVs (op : Arith) (word : Word) (d a : BitVec 6) (x : BitVec 5) (p : BitVec 4) : VOp :=
  elementwise word x.toNat p d.toNat [a.toNat] (fun c => op.tagsBad (c.tagOf a) (c.tagOf a) (c.tagOf d))
    fun env i c => op.element (c.tagOf a) (c.tagOf a) (c.tagOf d) c.vrm (c.bits a.toNat i)
      (scalarBits (c.tagOf a) env.sa) (c.bits d.toNat i)

/-- A unary scalar form of OP 0x21: the scalar is read under td (R315). -/
def arithS (op : Arith) (word : Word) (d : BitVec 6) (x : BitVec 5) (p : BitVec 4) : VOp :=
  elementwise word x.toNat p d.toNat [] (fun c => op.tagsBad (c.tagOf d) (c.tagOf d) (c.tagOf d))
    fun env _ c => op.element (c.tagOf d) (c.tagOf d) (c.tagOf d) c.vrm (scalarBits (c.tagOf d) env.sa) 0 0

/-! ### OP 0x20 and 0x21 -/


/-- `vadd vd, va, vb` (R316). -/
def execVaddVv (d a b : BitVec 6) (p : BitVec 4) (s : State) : Out :=
  .next (s.vector (arithVv .vadd (Instr.vaddVv d a b p).word d a b p))

/-- `vsub vd, va, vb` (R316). -/
def execVsubVv (d a b : BitVec 6) (p : BitVec 4) (s : State) : Out :=
  .next (s.vector (arithVv .vsub (Instr.vsubVv d a b p).word d a b p))

/-- `vmul vd, va, vb` (R316). -/
def execVmulVv (d a b : BitVec 6) (p : BitVec 4) (s : State) : Out :=
  .next (s.vector (arithVv .vmul (Instr.vmulVv d a b p).word d a b p))

/-- `vfma vd, va, vb` (R316). -/
def execVfmaVv (d a b : BitVec 6) (p : BitVec 4) (s : State) : Out :=
  .next (s.vector (arithVv .vfma (Instr.vfmaVv d a b p).word d a b p))

/-- `vfms vd, va, vb` (R316). -/
def execVfmsVv (d a b : BitVec 6) (p : BitVec 4) (s : State) : Out :=
  .next (s.vector (arithVv .vfms (Instr.vfmsVv d a b p).word d a b p))

/-- `vfnma vd, va, vb` (R316). -/
def execVfnmaVv (d a b : BitVec 6) (p : BitVec 4) (s : State) : Out :=
  .next (s.vector (arithVv .vfnma (Instr.vfnmaVv d a b p).word d a b p))

/-- `vdiv vd, va, vb` (R316). -/
def execVdivVv (d a b : BitVec 6) (p : BitVec 4) (s : State) : Out :=
  .next (s.vector (arithVv .vdiv (Instr.vdivVv d a b p).word d a b p))

/-- `vmin vd, va, vb` (R316). -/
def execVminVv (d a b : BitVec 6) (p : BitVec 4) (s : State) : Out :=
  .next (s.vector (arithVv .vmin (Instr.vminVv d a b p).word d a b p))

/-- `vmax vd, va, vb` (R316). -/
def execVmaxVv (d a b : BitVec 6) (p : BitVec 4) (s : State) : Out :=
  .next (s.vector (arithVv .vmax (Instr.vmaxVv d a b p).word d a b p))

/-- `vabs vd, va` (R316). -/
def execVabsVv (d a : BitVec 6) (p : BitVec 4) (s : State) : Out :=
  .next (s.vector (arithV .vabs (Instr.vabsVv d a p).word d a p))

/-- `vneg vd, va` (R316). -/
def execVnegVv (d a : BitVec 6) (p : BitVec 4) (s : State) : Out :=
  .next (s.vector (arithV .vneg (Instr.vnegVv d a p).word d a p))

/-- `vsadd vd, va, vb` (R316). -/
def execVsaddVv (d a b : BitVec 6) (p : BitVec 4) (s : State) : Out :=
  .next (s.vector (arithVv .vsadd (Instr.vsaddVv d a b p).word d a b p))

/-- `vssub vd, va, vb` (R316). -/
def execVssubVv (d a b : BitVec 6) (p : BitVec 4) (s : State) : Out :=
  .next (s.vector (arithVv .vssub (Instr.vssubVv d a b p).word d a b p))

/-- `vmulh vd, va, vb` (R316). -/
def execVmulhVv (d a b : BitVec 6) (p : BitVec 4) (s : State) : Out :=
  .next (s.vector (arithVv .vmulh (Instr.vmulhVv d a b p).word d a b p))

/-- `vavg vd, va, vb` (R316). -/
def execVavgVv (d a b : BitVec 6) (p : BitVec 4) (s : State) : Out :=
  .next (s.vector (arithVv .vavg (Instr.vavgVv d a b p).word d a b p))

/-- `vadd vd, va, sb` (R316). -/
def execVaddVs (d a : BitVec 6) (x : BitVec 5) (p : BitVec 4) (s : State) : Out :=
  .next (s.vector (arithVs .vadd (Instr.vaddVs d a x p).word d a x p))

/-- `vsub vd, va, sb` (R316). -/
def execVsubVs (d a : BitVec 6) (x : BitVec 5) (p : BitVec 4) (s : State) : Out :=
  .next (s.vector (arithVs .vsub (Instr.vsubVs d a x p).word d a x p))

/-- `vmul vd, va, sb` (R316). -/
def execVmulVs (d a : BitVec 6) (x : BitVec 5) (p : BitVec 4) (s : State) : Out :=
  .next (s.vector (arithVs .vmul (Instr.vmulVs d a x p).word d a x p))

/-- `vfma vd, va, sb` (R316). -/
def execVfmaVs (d a : BitVec 6) (x : BitVec 5) (p : BitVec 4) (s : State) : Out :=
  .next (s.vector (arithVs .vfma (Instr.vfmaVs d a x p).word d a x p))

/-- `vfms vd, va, sb` (R316). -/
def execVfmsVs (d a : BitVec 6) (x : BitVec 5) (p : BitVec 4) (s : State) : Out :=
  .next (s.vector (arithVs .vfms (Instr.vfmsVs d a x p).word d a x p))

/-- `vfnma vd, va, sb` (R316). -/
def execVfnmaVs (d a : BitVec 6) (x : BitVec 5) (p : BitVec 4) (s : State) : Out :=
  .next (s.vector (arithVs .vfnma (Instr.vfnmaVs d a x p).word d a x p))

/-- `vdiv vd, va, sb` (R316). -/
def execVdivVs (d a : BitVec 6) (x : BitVec 5) (p : BitVec 4) (s : State) : Out :=
  .next (s.vector (arithVs .vdiv (Instr.vdivVs d a x p).word d a x p))

/-- `vmin vd, va, sb` (R316). -/
def execVminVs (d a : BitVec 6) (x : BitVec 5) (p : BitVec 4) (s : State) : Out :=
  .next (s.vector (arithVs .vmin (Instr.vminVs d a x p).word d a x p))

/-- `vmax vd, va, sb` (R316). -/
def execVmaxVs (d a : BitVec 6) (x : BitVec 5) (p : BitVec 4) (s : State) : Out :=
  .next (s.vector (arithVs .vmax (Instr.vmaxVs d a x p).word d a x p))

/-- `vabs vd, sb` (R316). -/
def execVabsVs (d : BitVec 6) (x : BitVec 5) (p : BitVec 4) (s : State) : Out :=
  .next (s.vector (arithS .vabs (Instr.vabsVs d x p).word d x p))

/-- `vneg vd, sb` (R316). -/
def execVnegVs (d : BitVec 6) (x : BitVec 5) (p : BitVec 4) (s : State) : Out :=
  .next (s.vector (arithS .vneg (Instr.vnegVs d x p).word d x p))

/-- `vsadd vd, va, sb` (R316). -/
def execVsaddVs (d a : BitVec 6) (x : BitVec 5) (p : BitVec 4) (s : State) : Out :=
  .next (s.vector (arithVs .vsadd (Instr.vsaddVs d a x p).word d a x p))

/-- `vssub vd, va, sb` (R316). -/
def execVssubVs (d a : BitVec 6) (x : BitVec 5) (p : BitVec 4) (s : State) : Out :=
  .next (s.vector (arithVs .vssub (Instr.vssubVs d a x p).word d a x p))

/-- `vmulh vd, va, sb` (R316). -/
def execVmulhVs (d a : BitVec 6) (x : BitVec 5) (p : BitVec 4) (s : State) : Out :=
  .next (s.vector (arithVs .vmulh (Instr.vmulhVs d a x p).word d a x p))

/-- `vavg vd, va, sb` (R316). -/
def execVavgVs (d a : BitVec 6) (x : BitVec 5) (p : BitVec 4) (s : State) : Out :=
  .next (s.vector (arithVs .vavg (Instr.vavgVs d a x p).word d a x p))

/-! ### OP 0x22: logic, shifts and counts (R318) -/

/-- A raw-bit instruction of two vector sources: equal byte widths, no conversion, no flag. -/
def rawVv (f : Nat → Nat → Nat → Nat) (word : Word) (d a b : BitVec 6) (p : BitVec 4) : VOp :=
  elementwise word 0 p d.toNat [a.toNat, b.toNat]
    (fun c => (c.tagOf a).bytes ≠ (c.tagOf d).bytes || (c.tagOf b).bytes ≠ (c.tagOf d).bytes)
    fun _ i c => (f (c.tagOf d).width (c.bits a.toNat i) (c.bits b.toNat i), 0)

/-- A shift: va and vd integer of equal width, vb any integer; the low log2(w) bits of b's element give the amount. -/
def shiftVv (f : Nat → Nat → Nat → Nat) (word : Word) (d a b : BitVec 6) (p : BitVec 4) : VOp :=
  elementwise word 0 p d.toNat [a.toNat, b.toNat]
    (fun c => !(c.tagOf a).isInt || !(c.tagOf d).isInt || !(c.tagOf b).isInt || (c.tagOf a).bytes ≠ (c.tagOf d).bytes)
    fun _ i c =>
      let w := (c.tagOf a).width
      (f w (c.bits a.toNat i) (c.bits b.toNat i % w), 0)

/-- A count of a's bits, written by RoundTo(td, count, rm). -/
def countV (f : Nat → Nat → Nat) (word : Word) (d a : BitVec 6) (p : BitVec 4) : VOp :=
  elementwise word 0 p d.toNat [a.toNat] (fun c => !(c.tagOf a).isInt || !(c.tagOf d).isNum)
    fun _ i c =>
      let ta := c.tagOf a
      ((c.tagOf d).roundTo c.vrm (.int (f ta.width (c.bits a.toNat i))))

/-- Leading zeros of the low n bits of an element. -/
def elementClz (n x : Nat) : Nat := if x = 0 then n else n - 1 - x.log2
/-- Set bits among the low n of an element. -/
def elementPopc : Nat → Nat → Nat
  | 0, _ => 0
  | n + 1, x => x % 2 + elementPopc n (x / 2)

/-- `vand vd, va, vb`. -/
def execVand (d a b : BitVec 6) (p : BitVec 4) (s : State) : Out :=
  .next (s.vector (rawVv (fun _ x y => x &&& y) (Instr.vand d a b p).word d a b p))
/-- `vor vd, va, vb`. -/
def execVor (d a b : BitVec 6) (p : BitVec 4) (s : State) : Out :=
  .next (s.vector (rawVv (fun _ x y => x ||| y) (Instr.vor d a b p).word d a b p))
/-- `vxor vd, va, vb`. -/
def execVxor (d a b : BitVec 6) (p : BitVec 4) (s : State) : Out :=
  .next (s.vector (rawVv (fun _ x y => x ^^^ y) (Instr.vxor d a b p).word d a b p))
/-- `vnot vd, va`. -/
def execVnot (d a : BitVec 6) (p : BitVec 4) (s : State) : Out :=
  .next (s.vector (elementwise (Instr.vnot d a p).word 0 p d.toNat [a.toNat]
    (fun c => (c.tagOf a).bytes ≠ (c.tagOf d).bytes)
    fun _ i c => (2 ^ (c.tagOf d).width - 1 - c.bits a.toNat i, 0)))
/-- `vshl vd, va, vb`. -/
def execVshl (d a b : BitVec 6) (p : BitVec 4) (s : State) : Out :=
  .next (s.vector (shiftVv (fun w x n => x * 2 ^ n % 2 ^ w) (Instr.vshl d a b p).word d a b p))
/-- `vshr vd, va, vb`. -/
def execVshr (d a b : BitVec 6) (p : BitVec 4) (s : State) : Out :=
  .next (s.vector (shiftVv (fun _ x n => x / 2 ^ n) (Instr.vshr d a b p).word d a b p))
/-- `vsha vd, va, vb`. -/
def execVsha (d a b : BitVec 6) (p : BitVec 4) (s : State) : Out :=
  .next (s.vector (shiftVv (fun w x n => ((BitVec.ofNat w x).sshiftRight n).toNat) (Instr.vsha d a b p).word d a b p))
/-- `vclz vd, va`. -/
def execVclz (d a : BitVec 6) (p : BitVec 4) (s : State) : Out :=
  .next (s.vector (countV elementClz (Instr.vclz d a p).word d a p))
/-- `vpopc vd, va`. -/
def execVpopc (d a : BitVec 6) (p : BitVec 4) (s : State) : Out :=
  .next (s.vector (countV elementPopc (Instr.vpopc d a p).word d a p))

/-! ### OP 0x23: comparisons (R319, R320) -/

/-- The comparisons into predicates. -/
inductive Cmp where
  | eq | ne | lt | le | un
deriving DecidableEq, Repr

/-- The bit a comparison writes and the flags it raises, for floats. -/
def Cmp.float (op : Cmp) (x y : FVal) : Bool × Flags :=
  match op with
  | .eq => (floatEq x y, compareFlags false x y)
  | .ne => (!floatEq x y, compareFlags false x y)
  | .lt => (floatLt x y, compareFlags true x y)
  | .le => (floatLe x y, compareFlags true x y)
  | .un => (x.isNan || y.isNan, compareFlags false x y)

/-- The bit a comparison writes for integers. -/
def Cmp.int (op : Cmp) (x y : Int) : Bool :=
  match op with
  | .eq => x = y
  | .ne => x ≠ y
  | .lt => x < y
  | .le => x ≤ y
  | .un => false

/-- The comparison of two elements in their common type (R320). -/
def Cmp.element (op : Cmp) (ta tb : Tag) (rm : RM) (a b : Nat) : Bool × Flags :=
  let C := commonTag ta tb
  let (x, fx) := toCommon C rm (ta.read a)
  let (y, fy) := toCommon C rm (tb.read b)
  if C.isFloat then
    let (r, fl) := op.float x.flt? y.flt?
    (r, fx ||| fy ||| fl)
  else (op.int x.int? y.int?, fx ||| fy)

/-- An instruction that writes one bit of a predicate for each active element. -/
def intoPredicate (word : Word) (q : BitVec 4) (ns : List Nat) (p : BitVec 4) (operandBad : Bool) (tagsBad : Ctx → Bool)
    (f : Nat → Ctx → Bool × Flags) : VOp where
  word := word
  decode := fun _ c =>
    firstTrap [(c.badGroups ns || q = 0 || operandBad, .operand), (c.untagged ns || tagsBad c, .tag)]
  issue := fitTrap ns
  pm := p.toNat
  elem := fun env i s =>
    let c := s.ctx env.f
    let (r, fl) := f i c
    .ok (s.setCtx env.f ((c.setPbit q.toNat i r).accrue fl))
  inBlock := true

/-- A comparison instruction. -/
def compareOp (op : Cmp) (word : Word) (q : BitVec 4) (a b : BitVec 6) (p : BitVec 4) : VOp :=
  intoPredicate word q [a.toNat, b.toNat] p false (fun c => !arithTag (c.tagOf a) || !arithTag (c.tagOf b))
    fun i c => op.element (c.tagOf a) (c.tagOf b) c.vrm (c.bits a.toNat i) (c.bits b.toNat i)


/-- `vceq pd, va, vb`. -/
def execVceq (q : BitVec 4) (a b : BitVec 6) (p : BitVec 4) (s : State) : Out :=
  .next (s.vector (compareOp .eq (Instr.vceq q a b p).word q a b p))

/-- `vcne pd, va, vb`. -/
def execVcne (q : BitVec 4) (a b : BitVec 6) (p : BitVec 4) (s : State) : Out :=
  .next (s.vector (compareOp .ne (Instr.vcne q a b p).word q a b p))

/-- `vclt pd, va, vb`. -/
def execVclt (q : BitVec 4) (a b : BitVec 6) (p : BitVec 4) (s : State) : Out :=
  .next (s.vector (compareOp .lt (Instr.vclt q a b p).word q a b p))

/-- `vcle pd, va, vb`. -/
def execVcle (q : BitVec 4) (a b : BitVec 6) (p : BitVec 4) (s : State) : Out :=
  .next (s.vector (compareOp .le (Instr.vcle q a b p).word q a b p))

/-- `vcun pd, va, vb`. -/
def execVcun (q : BitVec 4) (a b : BitVec 6) (p : BitVec 4) (s : State) : Out :=
  .next (s.vector (compareOp .un (Instr.vcun q a b p).word q a b p))

/-- `vclass pd, va, #k`: a class number of R106; 10 to 63 raise the illegal-operand trap. -/
def execVclass (q : BitVec 4) (a k : BitVec 6) (p : BitVec 4) (s : State) : Out :=
  .next (s.vector (intoPredicate (Instr.vclass q a k p).word q [a.toNat] p (decide (10 ≤ k.toNat))
    (fun c => !(c.tagOf a).isFloat)
    fun i c => (decide ((c.tagOf a).fmt.classOf (c.val a.toNat i).flt? = k.toNat), 0)))

end Sys2Proof.Machine
end

