-- ==== Sys2Proof/Machine/Blocks.lean ====
section
/-! DEFINITION. Element blocks (OP 0x1F; R265 to R270, R451). -/

namespace Sys2Proof.Machine

/-! ### vfetch -/

namespace State

/-- The `vfetch` at a queue's head begins (R265): one element thread for each active index from VSTART below VL − VPAD.
With none it completes at once. -/
def startBlocks (s : State) (f block pm : Nat) : State :=
  let c := s.ctx f
  match c.vq with
  | [] => s
  | e :: _ =>
    if e.begun then s
    else
      let es := ((List.range (c.reals - c.vstart)).map (c.vstart + ·)).filter fun i => c.pbit pm i
      if c.vl ≤ c.vstart || es.isEmpty then
        ((s.setCtx f (goOn (Ctx.beginConvoy c))).sample f 0 { e with first := c.reals } c.eb).modCtx f fun c => (Ctx.popEntry c).vretire
      else
        let b : Blocks := ⟨e.pc, e.regs.getD c.sregs, e.sees.getD c.views, e.keys, es.map fun i => ⟨i, 128 * block, true, none⟩⟩
        s.setCtx f { (goOn (Ctx.keepAt (Ctx.beginConvoy c) 0 c.vstart c.vstart)) with blocks := some b }

end State

/-- `vfetch b ?pm` (R265). Its element threads read the scalar registers, and go through the views, as they stand at its push (R195), and so it waits for every pending one (R116). -/
def execVfetch (b : BitVec 6) (p : BitVec 4) (s : State) : Out :=
  .next (
    match s.cur with
    | .entry f _ => s.startBlocks f b.toNat p.toNat
    | .group f => s.trapGroup f .block
    | _ =>
      if isCore s.me then s.trapHere s.me .illegal
      else
      s.checked (fun _ c => if c.code.nblk ≤ b.toNat || c.latchBad none then some .operand else none) (List.range 32) fun f c s =>
        if c.late.isSome then s.stopLate f
        else if c.fetching then s.stall f .blocks
        else
          let e := { VOp.entry { word := (Instr.vfetch b p).word } c with regs := some c.sregs, sees := some c.views }
          let s1 := s.setCtx f (State.pushEntry c e)
          if s.defer || !c.quiet then s1 else s1.startBlocks f b.toNat p.toNat)

/-! ### The instructions of element threads -/

/-- An element thread's record changed. -/
def Blocks.set (b : Blocks) (t : EThread) : Blocks :=
  { b with threads := b.threads.map fun x => if x.elem = t.elem then t else x }

/-- The element threads of a context changed. -/
def State.setThread (s : State) (f : Nat) (t : EThread) : State :=
  s.modCtx f fun c => { c with blocks := c.blocks.map fun b => b.set t }

/-- The members of an issue group execute a block instruction one after another (R269). -/
def blockMembers (f off : Nat) (k : Blocks → EThread → Ctx → State → Except Trap State) : List Nat → State → State
  | [], s => s
  | e :: rest, s =>
    let c := s.ctx f
    match c.blocks with
    | none => s
    | some b =>
      match b.threads.find? fun t => t.elem = e with
      | none => s
      | some t =>
        match k b t c s with
        | .error tr => s.groupTrap f e off tr
        | .ok s' => blockMembers f off k rest s'

/-- Bytes of the widest of some registers' elements, VTYPE.EW where there are none (R18). -/
def Ctx.widestIn (c : Ctx) (ns : List Nat) : Nat := if ns.isEmpty then c.eb else ns.foldl (fun m n => max m (c.tag n).bytes) 1

/-- A block instruction, which exists only in element threads (R267, R73). `ns` are its registers; `tag` refuses a tag. Its issue group executes it once
it has been allotted its slots (R269). -/
def blockInstr (ns : List Nat) (tagBad : Ctx → Bool) (k : Nat → Blocks → EThread → Ctx → State → Except Trap State)
    (s : State) : State :=
  match s.cur with
  | .agent f => s.trapHere f .illegal
  | .group f =>
    let c := s.ctx f
    match c.blocks with
    | none => s
    | some b =>
      match firstTrap [(c.badGroups ns, .operand), (c.untagged ns || tagBad c, .tag)] with
      | some t => s.trapGroup f t
      | none =>
        let (off, ms) := s.issueGroup f b
        let es := ms.map (·.elem)
        s.withSlots f (State.groupSlots (256 / c.widestIn ns) es) (blockMembers f off (k f) es)
  | _ => s

/-- A thread that goes on to the next word; at the last word of its block it raises the element-block trap (R267). -/
def nextWord (f : Nat) (t : EThread) (s : State) : Except Trap State :=
  if t.off % 128 = 124 then .error .block else .ok (s.setThread f { t with off := t.off + 4 })

/-- `efetch b`. -/
def execEfetch (b : BitVec 6) (s : State) : Out :=
  .next (blockInstr [] (fun _ => false) (fun f _ t c s =>
    if c.code.nblk ≤ b.toNat then .error .operand else .ok (s.setThread f { t with off := 128 * b.toNat })) s)

/-- Whether element e of a group is zero under its tag (R267): ±0 under a float tag. -/
def elementZero (c : Ctx) (n e : Nat) : Bool :=
  if (c.tag n).isFloat then (c.val n e).flt?.isZero else c.bits n e = 0

/-- `ebz` and `ebnz`: the branch of one element thread. A target outside its block traps, taken or not (R267). -/
def blockBranch (onZero : Bool) (o a : BitVec 6) (s : State) : State :=
  blockInstr [a.toNat] (fun c => !(c.tagOf a).isNum || c.tagOf a = .d8b) (fun f _ t c s =>
    let target : Int := t.off + o.toInt * 4
    if target.fdiv 128 ≠ t.off / 128 then .error .block
    else if elementZero c a.toNat t.elem = onZero then .ok (s.setThread f { t with off := target.toNat })
    else nextWord f t s) s

/-- `ebz va, target`. -/
def execEbz (o a : BitVec 6) (s : State) : Out := .next (blockBranch true o a s)
/-- `ebnz va, target`. -/
def execEbnz (o a : BitVec 6) (s : State) : Out := .next (blockBranch false o a s)

/-- `eend`. -/
def execEend (s : State) : Out :=
  .next (blockInstr [] (fun _ => false) (fun f _ t _ s => .ok (s.setThread f { t with live := false })) s)

/-- A tag that the cross-element queues do not carry (R268). -/
def queueTagBad (t : Tag) : Bool := !([1, 2, 4].contains t.bytes)

/-- `xqsend va` (R268). -/
def execXqsend (a : BitVec 6) (s : State) : Out :=
  .next (blockInstr [a.toNat] (fun c => queueTagBad (c.tagOf a)) (fun f b t c s =>
    let v := c.bits a.toNat t.elem
    match State.successor b.threads t.elem with
    | none => nextWord f t (s.modCtx f fun c => { c with xqout := BitVec.ofNat 33 (2 ^ 32 + v) })
    | some _ =>
      if t.link.isSome then .error .block else nextWord f { t with link := some (BitVec.ofNat 32 v) } s) s)

/-- `xqrecv vd` (R268). -/
def execXqrecv (d : BitVec 6) (s : State) : Out :=
  .next (blockInstr [d.toNat] (fun c => queueTagBad (c.tagOf d)) (fun f b t c s =>
    match State.predecessor b.threads t.elem with
    | none =>
      if !bitAt c.xqin 32 then .error .block
      else
        nextWord f t (s.setCtx f { (c.put d.toNat t.elem (bitsAt c.xqin 0 32)) with xqin := setBits c.xqin 32 1 0 })
    | some p =>
      match p.link with
      | none => .error .block
      | some v => nextWord f t ((s.setThread f { p with link := none }).modCtx f fun c => c.put d.toNat t.elem v.toNat)) s)

end Sys2Proof.Machine
end

