-- ==== Sys2Proof/Machine/VFunc.lean ====
section
/-! DEFINITION. Functions, conversions, moves and selection (OP 0x24; R321 to R327). -/

namespace Sys2Proof.Machine

/-- Element function of a float member: C is ta, with d8 read as f32 (R322, R323). -/
def floatElement (f : RM → FVal → FVal × Flags) (ta td : Tag) (rm : RM) (a : Nat) : Nat × Flags :=
  let (r, fr) := f rm (ta.read a).flt?
  let (b, fl) := toDest (soleTag ta) td rm (.flt r)
  (b, fr ||| fl)

/-- Tags a float source may carry: f32, f64, f16, bf16 and d8. -/
def floatTag (t : Tag) : Bool := t.isFloat && t ≠ .d8b

/-- A member of func 0 to 6. -/
def functionOp (f : RM → FVal → FVal × Flags) (word : Word) (d a : BitVec 6) (p : BitVec 4) : VOp :=
  elementwise word 0 p d.toNat [a.toNat] (fun c => !floatTag (c.tagOf a) || !arithTag (c.tagOf d))
    fun _ i c => floatElement f (c.tagOf a) (c.tagOf d) c.vrm (c.bits a.toNat i)

/-- `vsqrt vd, va`. -/
def execVsqrt (d a : BitVec 6) (p : BitVec 4) (s : State) : Out :=
  .next (s.vector (functionOp (fun _ => fSqrt) (Instr.vsqrt d a p).word d a p))

/-- `vrcp vd, va`. -/
def execVrcp (d a : BitVec 6) (p : BitVec 4) (s : State) : Out :=
  .next (s.vector (functionOp (fun _ => fRcp) (Instr.vrcp d a p).word d a p))

/-- `vrsq vd, va`. -/
def execVrsq (d a : BitVec 6) (p : BitVec 4) (s : State) : Out :=
  .next (s.vector (functionOp (fun _ => fRsq) (Instr.vrsq d a p).word d a p))

/-- `vexp2f vd, va`: 2^a for −1 ≤ a ≤ 1. -/
def execVexp2f (d a : BitVec 6) (p : BitVec 4) (s : State) : Out :=
  .next (s.vector (functionOp (fun _ => fExp2) (Instr.vexp2f d a p).word d a p))

/-- `vlog2f vd, va`. -/
def execVlog2f (d a : BitVec 6) (p : BitVec 4) (s : State) : Out :=
  .next (s.vector (functionOp (fun _ => fLog2) (Instr.vlog2f d a p).word d a p))

/-- `vrndi vd, va`. -/
def execVrndi (d a : BitVec 6) (p : BitVec 4) (s : State) : Out :=
  .next (s.vector (functionOp (fRndi) (Instr.vrndi d a p).word d a p))

/-- `vgetexp vd, va`. -/
def execVgetexp (d a : BitVec 6) (p : BitVec 4) (s : State) : Out :=
  .next (s.vector (functionOp (fun _ => fGetexp) (Instr.vgetexp d a p).word d a p))

/-! ### vcvt -/

/-- An element of a source that may be the latch (R331). -/
def Ctx.latched (c : Ctx) (n i : Nat) : Nat :=
  match c.latch with
  | some l => if l.name = n && i < c.reals then l.elems.getD i 0 else c.bits n i
  | none => c.bits n i

/-- The overlap rule of a latch reader, or of an instruction whose destination may not be its source (R313, R331). -/
def Ctx.readerClash (c : Ctx) (d a : Nat) : Bool :=
  if c.latchNext.isSome then decide (c.chainSource = some d) else decide (d = a)

/-- The reader of a latch has completed (R331). -/
def dropLatch (env : Env) (s : State) : State := s.modCtx env.f fun c => { c with latch := none }

/-- `vcvt vd, va, T` (R324): each element converted in one step, and the vd group retagged in program order. -/
def execVcvt (d a : BitVec 6) (t p : BitVec 4) (s : State) : Out :=
  let T := Tag.ofCode t.toNat
  .next (s.vector
    { word := (Instr.vcvt d a t p).word
      decode := fun _ c =>
        firstTrap [(c.badGroups [d.toNat, a.toNat] || T = .none || T = .d8b || T = .p32 || c.readerClash d.toNat a.toNat,
            .operand),
          (c.untagged [a.toNat] || c.tagOf a = .d8b || c.tagOf a = .p32, .tag)]
      issue := fun env s =>
        let c := s.ctx env.f
        if c.fits (c.tagOf a).bytes && c.fits T.bytes then none else some .operand
      pm := p.toNat
      elem := fun env i s =>
        let c := s.ctx env.f
        let (b, fl) := T.roundTo c.vrm ((c.tagOf a).read (c.latched a.toNat i))
        .ok (s.setCtx env.f ((c.setElem d.toNat T.bytes i b).accrue fl))
      finish := dropLatch
      idle := dropLatch
      push := fun c => c.setTag d.toNat T
      reader := some a.toNat
      inBlock := true })

/-! ### Moves -/

/-- `vmov vd, va` (R325). -/
def execVmov (d a : BitVec 6) (p : BitVec 4) (s : State) : Out :=
  .next (s.vector (elementwise (Instr.vmov d a p).word 0 p d.toNat [a.toNat]
    (fun c => (c.tagOf a).bytes ≠ (c.tagOf d).bytes) fun _ i c => (c.bits a.toNat i, 0)))

/-- `vsel vd, va, vb ?pm` (R325): pm selects, and every element is written. -/
def execVsel (d a b : BitVec 6) (p : BitVec 4) (s : State) : Out :=
  .next (s.vector (elementwise (Instr.vsel d a b p).word 0 0 d.toNat [a.toNat, b.toNat]
    (fun c => (c.tagOf a).bytes ≠ (c.tagOf d).bytes || (c.tagOf b).bytes ≠ (c.tagOf d).bytes)
    fun _ i c => (c.bits (if c.pbit p.toNat i then a.toNat else b.toNat) i, 0)))

/-- `vscale vd, va, vb` (R326). -/
def execVscale (d a b : BitVec 6) (p : BitVec 4) (s : State) : Out :=
  .next (s.vector (elementwise (Instr.vscale d a b p).word 0 p d.toNat [a.toNat, b.toNat]
    (fun c => !floatTag (c.tagOf a) || c.tagOf b = .d8b || c.tagOf b = .p32 || !arithTag (c.tagOf d))
    fun _ i c =>
      let (r, fr) := fScale (c.val a.toNat i).flt? (c.val b.toNat i)
      let (x, fl) := toDest (soleTag (c.tagOf a)) (c.tagOf d) c.vrm (.flt r)
      (x, fr ||| fl)))

end Sys2Proof.Machine
end

