-- ==== Sys2Proof/Machine/VCross.lean ====
section
/-! DEFINITION. Cross-lane instructions, gathers, insert and extract, and predicate instructions (OP 0x25, 0x26, 0x29, 0x2A; R328 to R339). -/

namespace Sys2Proof.Machine

/-! ### OP 0x25 -/

/-- A cross-lane instruction: it may not name its source as its destination (R313). -/
def crossLane (word : Word) (x : BitVec 5) (p : BitVec 4) (d a : BitVec 6) (tagsBad : Ctx → Bool) (only : Env → Nat → Bool)
    (f : Env → Nat → Ctx → Nat × Flags) : VOp where
  word := word
  sa := x.toNat
  decode := fun _ c =>
    firstTrap [(c.badGroups [d.toNat, a.toNat] || decide (d = a), .operand),
      (c.untagged [d.toNat, a.toNat] || tagsBad c, .tag)]
  issue := fitTrap [d.toNat, a.toNat]
  pm := p.toNat
  elem := fun env i s =>
    let c := s.ctx env.f
    if only env i then .ok (s.setCtx env.f (c.putFlags d.toNat i (f env i c))) else .ok s

/-- `vslideup vd, va, sb` (R329): elements below s are unchanged. -/
def execVslideup (d a : BitVec 6) (x : BitVec 5) (p : BitVec 4) (s : State) : Out :=
  .next (s.vector (crossLane (Instr.vslideup d a x p).word x p d a (fun c => (c.tagOf a).bytes ≠ (c.tagOf d).bytes)
    (fun env i => decide (env.sa.toNat ≤ i)) fun env i c => (c.bits a.toNat (i - env.sa.toNat), 0)))

/-- `vslidedn vd, va, sb` (R329). -/
def execVslidedn (d a : BitVec 6) (x : BitVec 5) (p : BitVec 4) (s : State) : Out :=
  .next (s.vector (crossLane (Instr.vslidedn d a x p).word x p d a (fun c => (c.tagOf a).bytes ≠ (c.tagOf d).bytes)
    (fun _ _ => true) fun env i c => (c.bits a.toNat (i + env.sa.toNat), 0)))

/-- `vid vd` (R329). -/
def execVid (d : BitVec 6) (p : BitVec 4) (s : State) : Out :=
  .next (s.vector { elementwise (Instr.vid d p).word 0 p d.toNat [] (fun c => !arithTag (c.tagOf d))
      (fun _ i c => (c.tagOf d).roundTo c.vrm (.int i)) with inBlock := false })

/-- `vbcast vd, sb` (R329). -/
def execVbcast (d : BitVec 6) (x : BitVec 5) (p : BitVec 4) (s : State) : Out :=
  .next (s.vector { elementwise (Instr.vbcast d x p).word x.toNat p d.toNat [] (fun _ => false)
      (fun env _ c => (scalarBits (c.tagOf d) env.sa, 0)) with inBlock := false })

/-- A butterfly distance: a power of two from 1 to 32,768 (R330). -/
def distanceBad (x : Dword) : Bool := !((List.range 16).any fun k => x.toNat = 2 ^ k)

/-- One element of a Hadamard stage (R330), of elements read by `src`. Where both are NaNs, the first operand is that of the written expression (DESIGN CHOICE,
log entry 132: both come from va, so R304's order of operands does not settle it). -/
def butterfly (t : Tag) (rm : RM) (d : Nat) (src : Nat → Nat) (i : Nat) : Nat × Flags :=
  let x := t.read (src i)
  let y := t.read (src (i ^^^ d))
  let first := i &&& d = 0
  if t.isFloat then
    let (r, fr) := if first then fAdd rm x.flt? y.flt? else fSub rm y.flt? x.flt?
    let (b, fl) := t.roundTo rm (.flt r)
    (b, fr ||| fl)
  else (t.intBits (if first then x.int? + y.int? else y.int? - x.int?), 0)

/-- The checks of `vbfly` and `vbfly.c` (R330, R331). -/
def bflyDecode (chain : Bool) (d a : BitVec 6) (x : BitVec 5) (c : Ctx) : Option Trap :=
  firstTrap [(c.badGroups [d.toNat, a.toNat] || distanceBad (c.s x.toNat) ||
      (!chain && c.readerClash d.toNat a.toNat), .operand),
    (c.untagged [d.toNat, a.toNat] || c.tagOf a ≠ c.tagOf d || !arithTag (c.tagOf a), .tag)]

/-- `vbfly vd, va, sb` (R330). -/
def execVbfly (d a : BitVec 6) (x : BitVec 5) (p : BitVec 4) (s : State) : Out :=
  .next (s.vector { crossLane (Instr.vbfly d a x p).word x p d a (fun _ => false) (fun _ _ => true)
      (fun env i c => butterfly (c.tagOf a) c.vrm env.sa.toNat (c.latched a.toNat) i) with
    decode := fun _ c => bflyDecode false d a x c
    finish := dropLatch
    idle := dropLatch
    reader := some a.toNat })

/-- Elements of the latch that a `vbfly.c` leaves (R331), and the flags raised. -/
def latchElements (c : Ctx) (d a pm dist lo : Nat) : List (Nat × Flags) :=
  (List.range c.reals).map fun i =>
    if lo ≤ i && c.pbit pm i then butterfly (c.tag a) c.vrm dist (c.latched a) i else (c.bits d i, 0)

/-- `vbfly.c vd, va, sb` (R331): the result goes to the convoy latch. -/
def execVbflyC (d a : BitVec 6) (x : BitVec 5) (p : BitVec 4) (s : State) : Out :=
  .next (s.vector { crossLane (Instr.vbflyC d a x p).word x p d a (fun _ => false) (fun _ _ => true)
      (fun _ _ _ => (0, 0)) with
    decode := fun _ c => bflyDecode true d a x c
    whole := some fun env lo s =>
      let c := s.ctx env.f
      let es := latchElements c d.toNat a.toNat p.toNat env.sa.toNat lo
      .ok (s.setCtx env.f ({ c with latch := some ⟨d.toNat, es.map Prod.fst⟩ }.accrue (es.foldl (fun (fl : Flags) (e : Nat × Flags) => fl ||| e.2) 0)))
    idle := fun env s => s.modCtx env.f fun c =>
      { c with latch := some ⟨d.toNat, (latchElements c d.toNat a.toNat p.toNat env.sa.toNat c.reals).map Prod.fst⟩ }
    reader := some a.toNat })

/-! ### OP 0x26 -/

/-- A start index inside the strip, which a member that completes as a whole refuses (R333). -/
def midStart (c : Ctx) (start : Nat) : Bool := decide (0 < start) && decide (start < c.vl)

/-- An instruction that completes as a whole (R333), its effect a function of the context. -/
def wholeOp (word : Word) (d : Nat) (ns : List Nat) (p : BitVec 4) (operandBad tagsBad : Ctx → Bool) (f : Ctx → Ctx) : VOp where
  word := word
  decode := fun _ c =>
    firstTrap [(c.badGroups (d :: ns) || ns.contains d || operandBad c, .operand),
      (c.untagged (d :: ns) || tagsBad c, .tag)]
  issue := fun env s => if midStart (s.ctx env.f) env.start then some .operand else fitTrap (d :: ns) env s
  pm := p.toNat
  whole := some fun env _ s => .ok (s.modCtx env.f f)

/-- A context written element by element from values read before. -/
def putAll (d : Nat) (vs : List (Nat × Nat)) (c : Ctx) : Ctx := vs.foldl (fun c v => c.put d v.1 v.2) c

/-- Active indices of the strip, in ascending order. -/
def Ctx.active (c : Ctx) (pm : Nat) : List Nat := (List.range c.reals).filter fun i => c.pbit pm i

/-- `vxg vd, va, vb` (R334). -/
def execVxg (d a b : BitVec 6) (p : BitVec 4) (s : State) : Out :=
  .next (s.vector (wholeOp (Instr.vxg d a b p).word d.toNat [a.toNat, b.toNat] p (fun _ => false)
    (fun c => (c.tagOf a).bytes ≠ (c.tagOf d).bytes || !(c.tagOf b).isInt)
    fun c => putAll d.toNat ((c.active p.toNat).map fun i =>
      let k := (c.tagOf b).readInt (c.bits b.toNat i)
      (i, if k < 0 then 0 else c.bits a.toNat k.toNat)) c))

/-- `vcomp vd, va ?pm` (R335). -/
def execVcomp (d a : BitVec 6) (p : BitVec 4) (s : State) : Out :=
  .next (s.vector (wholeOp (Instr.vcomp d a p).word d.toNat [a.toNat] p (fun _ => false)
    (fun c => (c.tagOf a).bytes ≠ (c.tagOf d).bytes)
    fun c =>
      let xs := (c.active p.toNat).map (c.bits a.toNat)
      putAll d.toNat ((List.range c.reals).map fun k => (k, xs.getD k 0)) c))

/-- `vexpd vd, va ?pm` (R335). -/
def execVexpd (d a : BitVec 6) (p : BitVec 4) (s : State) : Out :=
  .next (s.vector (wholeOp (Instr.vexpd d a p).word d.toNat [a.toNat] p (fun _ => false)
    (fun c => (c.tagOf a).bytes ≠ (c.tagOf d).bytes)
    fun c => putAll d.toNat ((c.active p.toNat).zipIdx.map fun e => (e.1, c.bits a.toNat e.2)) c))

/-! ### OP 0x2A -/

/-- `vins vd, sb, sx` (R337). -/
def execVins (d : BitVec 6) (x b : BitVec 5) (s : State) : Out :=
  .next (s.vector
    { word := (Instr.vins d x b).word
      sa := b.toNat
      sb := x.toNat
      decode := fun _ c => firstTrap [(c.badGroups [d.toNat], .operand), (c.untagged [d.toNat], .tag)]
      issue := fitTrap [d.toNat]
      whole := some fun env _ s => .ok (s.modCtx env.f fun c =>
        c.put d.toNat env.sb.toNat (scalarBits (c.tagOf d) env.sa)) })

/-- The value `vext` writes (R337). -/
def extValue (c : Ctx) (a k : Nat) : Dword :=
  let t := c.tag a
  if t.isSigned then BitVec.ofInt 64 (t.readInt (c.bits a k)) else BitVec.ofNat 64 (c.bits a k)

/-- `vext sd, va, sx` (R337). -/
def execVext (x : BitVec 5) (a : BitVec 6) (d : BitVec 5) (s : State) : Out :=
  .next (s.vector
    { word := (Instr.vext x a d).word
      sa := x.toNat
      dest := d.toNat
      decode := fun _ c => firstTrap [(c.badGroups [a.toNat], .operand), (c.untagged [a.toNat], .tag)]
      issue := fitTrap [a.toNat]
      whole := some fun env _ s => .ok (s.modCtx env.f fun c => c.arrive d.toNat (extValue c a.toNat env.sa.toNat)) })

/-! ### OP 0x29 -/

/-- The bits of a predicate; p0 reads as all ones (R338). -/
def Ctx.predBits (c : Ctx) (n : Nat) : BitVec 65536 := if n = 0 then BitVec.allOnes 65536 else c.preds.toList.getD n 0

/-- Bits VSTART to VL − VPAD − 1 of a predicate written, every other bit unchanged (R338). -/
def Ctx.writePred (c : Ctx) (n start : Nat) (v : BitVec 65536) : Ctx :=
  c.setPred n (setBits (c.predBits n) start (c.reals - start) (bitsAt v start (c.reals - start)))

/-- A member that writes a predicate. -/
def predicateOp (word : Word) (d : BitVec 4) (x : BitVec 5) (f : Env → Ctx → BitVec 65536) : VOp where
  word := word
  sa := x.toNat
  decode := fun _ _ => if d = 0 then some .operand else none
  whole := some fun env _ s => .ok (s.modCtx env.f fun c => c.writePred d.toNat env.start (f env c))

/-- `pand pd, pa, pb`. -/
def execPand (d a b : BitVec 4) (s : State) : Out :=
  .next (s.vector (predicateOp (Instr.pand d a b).word d 0 fun _ c => c.predBits a.toNat &&& c.predBits b.toNat))
/-- `por pd, pa, pb`. -/
def execPor (d a b : BitVec 4) (s : State) : Out :=
  .next (s.vector (predicateOp (Instr.por d a b).word d 0 fun _ c => c.predBits a.toNat ||| c.predBits b.toNat))
/-- `pxor pd, pa, pb`. -/
def execPxor (d a b : BitVec 4) (s : State) : Out :=
  .next (s.vector (predicateOp (Instr.pxor d a b).word d 0 fun _ c => c.predBits a.toNat ^^^ c.predBits b.toNat))
/-- `pnot pd, pa`. -/
def execPnot (d a : BitVec 4) (s : State) : Out :=
  .next (s.vector (predicateOp (Instr.pnot d a).word d 0 fun _ c => ~~~c.predBits a.toNat))
/-- `pandn pd, pa, pb`: pa and not pb. -/
def execPandn (d a b : BitVec 4) (s : State) : Out :=
  .next (s.vector (predicateOp (Instr.pandn d a b).word d 0 fun _ c => c.predBits a.toNat &&& ~~~c.predBits b.toNat))
/-- `pwhile pd, sx`: bit i is 1 when i < s[sx]. -/
def execPwhile (d : BitVec 4) (x : BitVec 5) (s : State) : Out :=
  .next (s.vector (predicateOp (Instr.pwhile d x).word d x fun env _ =>
    BitVec.ofNat 65536 (2 ^ min 65536 env.sa.toNat - 1)))

/-- Indices of the strip from VSTART with both predicates set (R338). -/
def Ctx.bothSet (c : Ctx) (start a b : Nat) : List Nat :=
  ((List.range (c.reals - start)).map (start + ·)).filter fun i => c.pbit a i && c.pbit b i

/-- A member with a scalar result, which is pending until it completes. -/
def countOp (word : Word) (d : BitVec 5) (f : Env → Ctx → Nat) : VOp where
  word := word
  dest := d.toNat
  whole := some fun env _ s => .ok (s.modCtx env.f fun c => c.arrive d.toNat (BitVec.ofNat 64 (f env c)))

/-- `pcnt sd, pa ?pb`. -/
def execPcnt (a b : BitVec 4) (x : BitVec 5) (s : State) : Out :=
  .next (s.vector (countOp (Instr.pcnt a b x).word x fun env c => (c.bothSet env.start a.toNat b.toNat).length))
/-- `pfirst sd, pa ?pb`: VL when there is none. -/
def execPfirst (a b : BitVec 4) (x : BitVec 5) (s : State) : Out :=
  .next (s.vector (countOp (Instr.pfirst a b x).word x fun env c => (c.bothSet env.start a.toNat b.toNat).headD c.vl))

/-- `pset pd, vx`: bit i is 1 when element i of vx is not zero. -/
def execPset (d : BitVec 4) (v : BitVec 6) (s : State) : Out :=
  .next (s.vector { predicateOp (Instr.pset d v).word d 0 (fun _ c =>
      BitVec.ofNat 65536 ((List.range c.reals).foldl (fun m i =>
        if elementZero c v.toNat i then m else m + 2 ^ i) 0)) with
    decode := fun _ c =>
      firstTrap [(c.badGroups [v.toNat] || d = 0, .operand), (c.untagged [v.toNat] || !arithTag (c.tagOf v), .tag)]
    issue := fitTrap [v.toNat] })

end Sys2Proof.Machine
end

