-- ==== Sys2Proof/Machine/VReduce.lean ====
section
/-! DEFINITION. Reductions, tree stacks, scans and the generator (OP 0x27, 0x28, 0x2E; R307 to R309, R340 to R358). -/

namespace Sys2Proof.Machine

/-! ### The tree (R307) -/

/-- A combination of two partials on element bits; `none` is the identity leaf, which no combination evaluates (R340). -/
def combine (op : Nat → Nat → Nat × Flags) : Option Nat → Option Nat → Option Nat × Flags
  | some l, some r => let (x, fl) := op l r; (some x, fl)
  | some l, none => (some l, 0)
  | none, r => (r, 0)

/-- What happens to a partial that completes a level: nothing, but for the block scales of R309. -/
abbrev Hook := Nat → Option Nat → Option Nat × Flags

/-- No block scales. -/
def noHook : Hook := fun _ p => (p, 0)

/-- The carry of a leaf up the levels from level k: level k is full when bit k of the count of leaves is set. -/
def carryUp (op : Nat → Nat → Nat × Flags) (hook : Hook) (count : Nat) :
    Nat → Nat → List (Option Nat) → Option Nat → List (Option Nat) × Flags
  | 0, _, ls, _ => (ls, 0)
  | n + 1, k, ls, p =>
    if bitAt (BitVec.ofNat 32 count) k then
      let (q, f1) := combine op (ls.getD k none) p
      let (q', f2) := hook (k + 1) q
      let (ls', f3) := carryUp op hook count n (k + 1) (ls.set k none) q'
      (ls', f1 ||| f2 ||| f3)
    else (ls.set k p, 0)

/-- The combination of the ragged right edge, lowest level first. `cut` is applied to the partial of a cut block before a
level at or above the block's is combined (R309). -/
def edge (op : Nat → Nat → Nat × Flags) (cut : Nat → Option Nat → Option Nat × Flags) (count : Nat) (ls : List (Option Nat)) :
    Option Nat × Flags :=
  (List.range 32).foldl (fun (acc : Option Nat × Flags) k =>
    if bitAt (BitVec.ofNat 32 count) k then
      let (r, f0) := cut k acc.1
      let (r', f1) := combine op (ls.getD k none) r
      (r', acc.2 ||| f0 ||| f1)
    else acc) (none, 0)

/-- Empty levels. -/
def noLevels : List (Option Nat) := List.replicate 32 none

/-- Leaves added in ascending index. -/
def addLeaves (op : Nat → Nat → Nat × Flags) (hook : Nat → Hook) :
    List (Option Nat) → Nat → List (Option Nat) → Flags → List (Option Nat) × Flags
  | [], _, ls, fl => (ls, fl)
  | p :: rest, j, ls, fl =>
    let (ls', f) := carryUp op (hook j) j 32 0 ls p
    addLeaves op hook rest (j + 1) ls' (fl ||| f)

/-- TreeReduce of R307 over leaves on element bits. -/
def treeReduce (op : Nat → Nat → Nat × Flags) (leaves : List (Option Nat)) : Option Nat × Flags :=
  let (ls, fl) := addLeaves op (fun _ => noHook) leaves 0 noLevels 0
  let (r, fe) := edge op (fun _ p => (p, 0)) leaves.length ls
  (r, fl ||| fe)

/-! ### Reductions (R342 to R344) -/

/-- The operators of the reductions. -/
inductive Red where
  | sum | max | min | and | or | xor
deriving DecidableEq, Repr

/-- `vredand`, `vredor` and `vredxor`, which work on raw bits. -/
def Red.bitwise : Red → Bool
  | .and | .or | .xor => true
  | _ => false

/-- Op(l, r) of R343 on element bits of C. -/
def Red.op (r : Red) (C : Tag) (rm : RM) (x y : Nat) : Nat × Flags :=
  match r with
  | .sum => foldOp C rm 0 x y
  | .max => foldOp C rm 1 x y
  | .min => foldOp C rm 2 x y
  | .and => (x &&& y, 0)
  | .or => (x ||| y, 0)
  | .xor => (x ^^^ y, 0)

/-- The common type of R343, with d8b counted as d8. -/
def reduceTag (ta td : Tag) : Tag := commonTag (if ta = .d8b then .d8 else ta) td

/-- An element converted to bits of C, with the flags of the conversion. -/
def leafBits (C : Tag) (rm : RM) (t : Tag) (bits : Nat) : Nat × Flags :=
  if C.isFloat then C.roundTo rm (t.read bits) else (C.intBits (t.readInt bits), 0)

/-- Leaves of a reduction (R340): indices 0 to VL − 1, pad elements as zero, an inactive one as the identity. -/
def reductionLeaves (r : Red) (c : Ctx) (C : Tag) (a pm : Nat) : List (Option Nat) × Flags :=
  let xs := (List.range c.vl).map fun i =>
    if c.pbit pm i then
      let (b, fl) := if r.bitwise then (c.bits a i, 0) else leafBits C c.vrm (c.tag a) (c.bits a i)
      (some b, fl)
    else ((none : Option Nat), (0 : Flags))
  (xs.map (·.1), xs.foldl (fun (fl : Flags) (x : Option Nat × Flags) => fl ||| x.2) 0)

/-- A block partial of a d8b reduction multiplied by 2^s, s the scale of its block (R309, R344). -/
def scaled (c : Ctx) (C : Tag) (scales block : Nat) (p : Option Nat) : Option Nat × Flags :=
  match p with
  | none => (none, 0)
  | some b =>
    let s := Tag.e8.readInt (c.elem scales 1 block)
    let (x, _) := fScale (C.read b).flt? (.int s)
    let (y, fl) := C.roundTo c.vrm (.flt x)
    (some y, fl)

/-- The reduction of a group of d8b elements with blocks of 2^lb leaves (R309, R344). -/
def blockReduce (op : Nat → Nat → Nat × Flags) (c : Ctx) (C : Tag) (scales lb : Nat) (leaves : List (Option Nat)) :
    Option Nat × Flags :=
  let n := leaves.length
  let hook (j : Nat) : Hook := fun k p => if k = lb then scaled c C scales (j / 2 ^ lb) p else (p, 0)
  let (ls, fl) := addLeaves op hook leaves 0 noLevels 0
  -- the partial of the cut block is complete when the first level at or above the block's is met
  let first := ((List.range 32).find? fun k => decide (lb ≤ k) && bitAt (BitVec.ofNat 32 n) k).getD 32
  let (r, fe) := edge op (fun k p => if k = first && n % 2 ^ lb ≠ 0 then scaled c C scales (n / 2 ^ lb) p else (p, 0)) n ls
  (r, fl ||| fe)

/-- Element 0 of vd after a reduction (R343). -/
def reduceInto (r : Red) (d a pm : Nat) (blk : Option Nat) (c : Ctx) : Ctx :=
  let ta := c.tag a
  let td := c.tag d
  let C := if r.bitwise then ta else reduceTag ta td
  let (leaves, fl) := reductionLeaves r c C a pm
  let (t, ft) :=
    match blk with
    | none => treeReduce (r.op C c.vrm) leaves
    | some lb => blockReduce (r.op C c.vrm) c C (a + c.g) lb leaves
  -- Op(c, I) = c
  let op (x : Nat) : Nat × Flags :=
    match t with
    | none => (x, 0)
    | some y => r.op C c.vrm x y
  if r.bitwise then (c.put d 0 (op (c.bits d 0)).1).accrue (fl ||| ft)
  else
    let (o, fo) := leafBits C c.vrm td (c.bits d 0)
    let (y, fy) := op o
    let (z, fz) := toDest C td c.vrm (C.read y)
    (c.put d 0 z).accrue (fl ||| ft ||| fo ||| fy ||| fz)

/-- The tag checks of R343 and R344. -/
def Red.tagsBad (r : Red) (c : Ctx) (d a blk : Nat) : Bool :=
  let ta := c.tag a
  let td := c.tag d
  if r.bitwise then !ta.isInt || !td.isInt || ta.bytes ≠ td.bytes || blk ≠ 0
  else
    !(arithTag ta || ta = .d8b) || !arithTag td || (ta ≠ .d8b && blk ≠ 0) ||
    (ta = .d8b && c.tag (a + c.g) ≠ .e8)

/-- A reduction as a vector instruction. -/
def reduction (r : Red) (word : Word) (d a : BitVec 6) (k : BitVec 3) (p : BitVec 4) : VOp where
  word := word
  decode := fun _ c =>
    let blocked := c.tagOf a = .d8b
    let scales := a.toNat + c.g
    firstTrap [(c.badGroups [d.toNat, a.toNat] || decide (d = a) ||
        (blocked && (6 ≤ k.toNat || c.nreg ≤ scales || d.toNat = scales)), .operand),
      (c.untagged [d.toNat, a.toNat] || r.tagsBad c d.toNat a.toNat k.toNat, .tag)]
  issue := fun env s =>
    let c := s.ctx env.f
    if midStart c env.start || (c.tagOf a = .d8b && c.vl < 8 * 2 ^ k.toNat) then some .operand
    else fitTrap [d.toNat, a.toNat] env s
  pm := p.toNat
  whole := some fun env _ s => .ok (s.modCtx env.f fun c =>
    reduceInto r d.toNat a.toNat p.toNat (if c.tagOf a = .d8b then some (3 + k.toNat) else none) c)

/-- `vredsum vd, va ?pm`. -/
def execVredsum (d a : BitVec 6) (b : BitVec 3) (p : BitVec 4) (s : State) : Out :=
  .next (s.vector (reduction .sum (Instr.vredsum d a b p).word d a b p))
/-- `vredmax vd, va ?pm`. -/
def execVredmax (d a : BitVec 6) (b : BitVec 3) (p : BitVec 4) (s : State) : Out :=
  .next (s.vector (reduction .max (Instr.vredmax d a b p).word d a b p))
/-- `vredmin vd, va ?pm`. -/
def execVredmin (d a : BitVec 6) (b : BitVec 3) (p : BitVec 4) (s : State) : Out :=
  .next (s.vector (reduction .min (Instr.vredmin d a b p).word d a b p))
/-- `vredand vd, va ?pm`. -/
def execVredand (d a : BitVec 6) (b : BitVec 3) (p : BitVec 4) (s : State) : Out :=
  .next (s.vector (reduction .and (Instr.vredand d a b p).word d a b p))
/-- `vredor vd, va ?pm`. -/
def execVredor (d a : BitVec 6) (b : BitVec 3) (p : BitVec 4) (s : State) : Out :=
  .next (s.vector (reduction .or (Instr.vredor d a b p).word d a b p))
/-- `vredxor vd, va ?pm`. -/
def execVredxor (d a : BitVec 6) (b : BitVec 3) (p : BitVec 4) (s : State) : Out :=
  .next (s.vector (reduction .xor (Instr.vredxor d a b p).word d a b p))

/-! ### Tree stacks (R345 to R350) -/

/-- f32 addition of two partials, the lower-indexed one on the left. -/
def addF32 (rm : RM) (x y : Nat) : Nat × Flags := foldOp .f32 rm 0 x y

/-- The levels of a stack; one whose mask bit is clear holds no partial. -/
def Tree.partials (y : Tree) : List (Option Nat) :=
  (List.range 32).map fun k => if bitAt y.mask k then some (y.levels.toList.getD k 0).toNat else none

/-- A stack with the given partials and count; the occupancy mask equals bits [31:0] of the count (R347). -/
def Tree.ofPartials (ls : List (Option Nat)) (base : Dword) (count : Nat) : Tree where
  levels := Vector.ofFn fun k => BitVec.ofNat 32 ((ls.getD k.val none).getD 0)
  mask := BitVec.ofNat 32 count
  base := base
  count := BitVec.ofNat 64 count

def Ctx.tree (c : Ctx) (y : Nat) : Tree := c.trees.toList.getD y Tree.empty
def Ctx.setTree (c : Ctx) (y : Nat) (t : Tree) : Ctx := { c with trees := c.trees.setIfInBounds y t }

/-- Tags a leaf of `vtree` may carry: converted exactly to f32. -/
def leafTag (t : Tag) : Bool := t = .f32 || t = .f16 || t = .bf16 || t = .d8

/-- `vtree yd, va ?pm` (R347). -/
def execVtree (y : BitVec 2) (a : BitVec 6) (p : BitVec 4) (s : State) : Out :=
  .next (s.vector
    { word := (Instr.vtree y a p).word
      decode := fun _ c =>
        firstTrap [(c.badGroups [a.toNat], .operand), (c.untagged [a.toNat] || !leafTag (c.tagOf a), .tag)]
      issue := fun env s =>
        let c := s.ctx env.f
        if midStart c env.start || 2 ^ 32 ≤ (c.tree y.toNat).count.toNat + c.reals then some .operand else fitTrap [a.toNat] env s
      pm := p.toNat
      whole := some fun env _ s => .ok (s.modCtx env.f fun c =>
        let t := c.tree y.toNat
        let leaves := (List.range c.reals).map fun i =>
          if c.pbit p.toNat i then leafBits .f32 c.vrm (c.tagOf a) (c.bits a.toNat i)
          else (((0x80000000 : Nat), (0 : Flags)))
        let fl := leaves.foldl (fun (fl : Flags) (x : Nat × Flags) => fl ||| x.2) 0
        let (ls, ft) := addLeaves (addF32 c.vrm) (fun _ => noHook) (leaves.map fun x => some x.1) t.count.toNat t.partials 0
        (c.setTree y.toNat (Tree.ofPartials ls t.base (t.count.toNat + c.reals))).accrue (fl ||| ft)) })

/-- `tclear yd, sb` (R346): it takes effect whatever VL and VSTART hold. -/
def execTclear (y : BitVec 2) (x : BitVec 5) (s : State) : Out :=
  .next (s.vector
    { word := (Instr.tclear y x).word
      sa := x.toNat
      always := true
      whole := some fun env _ s => .ok (s.modCtx env.f fun c =>
        c.setTree y.toNat { Tree.empty with base := env.sa }) })

/-- Element j of a stack's image (R349). -/
def Tree.image (t : Tree) (j : Nat) : Nat :=
  if j < 32 then (if bitAt t.mask j then (t.levels.toList.getD j 0).toNat else 0)
  else if j = 32 then t.mask.toNat
  else if j = 34 then bitsAt t.base 0 32
  else if j = 35 then bitsAt t.base 32 32
  else if j = 36 then bitsAt t.count 0 32
  else if j = 37 then bitsAt t.count 32 32
  else 0

/-- The stack read by `tread` (R348): its occupied levels combined, lowest first. -/
def Tree.finish (t : Tree) (rm : RM) : Nat × Flags :=
  let (r, fl) := edge (addF32 rm) (fun _ p => (p, 0)) t.mask.toNat t.partials
  (r.getD 0, fl)

/-- `tread vd, ys` and `tread vd, ys, #1` (R348, R349). -/
def execTread (d : BitVec 6) (y : BitVec 2) (i : BitVec 1) (s : State) : Out :=
  .next (s.vector
    { word := (Instr.tread d y i).word
      decode := fun _ c =>
        firstTrap [(c.badGroups [d.toNat], .operand),
          (c.untagged [d.toNat] || (if i = 1 then (c.tagOf d).bytes ≠ 4 else !floatTag (c.tagOf d)), .tag)]
      issue := fun env s =>
        let c := s.ctx env.f
        if midStart c env.start || (i = 1 && c.reals < 40) then some .operand else fitTrap [d.toNat] env s
      whole := some fun env _ s => .ok (s.modCtx env.f fun c =>
        let t := c.tree y.toNat
        if i = 1 then (List.range 40).foldl (fun c j => c.put d.toNat j (t.image j)) c
        else
          let (r, fr) := t.finish c.vrm
          let (b, fl) := toDest .f32 (c.tagOf d) c.vrm (Tag.f32.read r)
          (c.put d.toNat 0 b).accrue (fr ||| fl)) })

/-- The image in elements 0 to 39 of a group (R349), as a stack. -/
def imageTree (c : Ctx) (a : Nat) : Tree :=
  let w (j : Nat) : Nat := c.elem a 4 j
  { levels := Vector.ofFn fun k => BitVec.ofNat 32 (w k.val)
    mask := BitVec.ofNat 32 (w 32)
    base := BitVec.ofNat 64 (w 34 + 2 ^ 32 * w 35)
    count := BitVec.ofNat 64 (w 36 + 2 ^ 32 * w 37) }

/-- The least K with 2^K ≥ a count. -/
def ceilLog2 (n : Nat) : Nat := if n ≤ 1 then 0 else (n - 1).log2 + 1

/-- What `tmerge` refuses (R350). -/
def mergeBad (c : Ctx) (a : Nat) (A B : Tree) : Bool :=
  let n := A.count.toNat
  let m := B.count.toNat
  c.elem a 4 33 ≠ 0 || c.elem a 4 38 ≠ 0 || c.elem a 4 39 ≠ 0 || 2 ^ 32 ≤ m || B.mask.toNat ≠ m ||
  (m ≠ 0 && n ≠ 0 && (B.base ≠ A.base + A.count || n % 2 ^ ceilLog2 m ≠ 0 || 2 ^ 32 ≤ n + m))

/-- The stack A joined with the stack B that follows it (R350). -/
def mergeTrees (rm : RM) (A B : Tree) : Tree × Flags :=
  let n := A.count.toNat
  let m := B.count.toNat
  if m = 0 then (A, 0)
  else if n = 0 then (B, 0)
  else
    let k := ceilLog2 m
    if m = 2 ^ k then
      let (ls, fl) := carryUp (addF32 rm) noHook n (33 - k) k A.partials (B.partials.getD k none)
      (Tree.ofPartials ls A.base (n + m), fl)
    else
      let ls := (List.range 32).map fun j => if bitAt B.mask j then B.partials.getD j none else A.partials.getD j none
      (Tree.ofPartials ls A.base (n + m), 0)

/-- `tmerge yd, va` (R350). -/
def execTmerge (y : BitVec 2) (a : BitVec 6) (s : State) : Out :=
  .next (s.vector
    { word := (Instr.tmerge y a).word
      decode := fun _ c =>
        firstTrap [(c.badGroups [a.toNat], .operand), (c.untagged [a.toNat] || (c.tagOf a).bytes ≠ 4, .tag)]
      issue := fun env s =>
        let c := s.ctx env.f
        if midStart c env.start || c.reals < 40 || mergeBad c a.toNat (c.tree y.toNat) (imageTree c a.toNat) then some .operand
        else fitTrap [a.toNat] env s
      whole := some fun env _ s => .ok (s.modCtx env.f fun c =>
        let (t, fl) := mergeTrees c.vrm (c.tree y.toNat) (imageTree c a.toNat)
        (c.setTree y.toNat t).accrue fl) })

/-! ### Scans (R352 to R355) -/

/-- The scans: sum, maximum, and composition of affine pairs. -/
inductive Scan where
  | sum | max | affine
deriving DecidableEq, Repr

/-- Op(l, r) of R353 on element bits. -/
def Scan.op (k : Scan) (t : Tag) (rm : RM) (l r : Nat) : Nat × Flags :=
  match k with
  | .sum => foldOp t rm 0 l r
  | .max => foldOp t rm 1 l r
  | .affine => compose rm (r / 2 ^ 32) (r % 2 ^ 32) (l / 2 ^ 32) (l % 2 ^ 32)

/-- The identity value for an empty carry-out (R353). -/
def Scan.identity (k : Scan) (t : Tag) : Nat :=
  match k with
  | .sum => 0
  | .max => if t.isFloat then (t.fmt.roundTo .nearestEven (.inf true)).1 else t.intBits t.minInt
  | .affine => 0x3F80000000000000

/-- Tags a scan takes (R353). -/
def Scan.tagOk (k : Scan) (t : Tag) : Bool :=
  match k with
  | .affine => t = .p32
  | _ => arithTag t && t ≠ .d8

/-- The levels of a scan in progress. A level is full by the count of leaves; the mask says which hold a partial other than
the identity. -/
def ScanState.partials (x : ScanState) : List (Option Nat) :=
  (List.range 32).map fun k => if bitAt x.mask k then some (x.levels.toList.getD k 0).toNat else none

def ScanState.setPartials (x : ScanState) (ls : List (Option Nat)) : ScanState :=
  { x with
    mask := BitVec.ofNat 32 ((List.range 32).foldl (fun m k => if (ls.getD k none).isSome then m + 2 ^ k else m) 0)
    levels := Vector.ofFn fun k => BitVec.ofNat 64 ((ls.getD k.val none).getD 0) }

/-- The scan of a context, or a fresh one with the carry read from ACARRY. -/
def Ctx.scanState (c : Ctx) : ScanState := c.scan.getD ⟨c.acarry, 0, .replicate 32 0⟩

/-- Op(c, T) with the carry of the scan, the identity when CIN is 0. -/
def scanWith (k : Scan) (cin : Bool) (c : Ctx) (d : Nat) (x : ScanState) (t : Option Nat) : Option Nat × Flags :=
  let b := (c.tag d).bytes
  combine (k.op (c.tag d) c.vrm) (if cin then some (x.carry.toNat % 2 ^ (8 * b)) else none) t

/-- Leaf i joins the prefix tree, and an active element receives its result (R353). -/
def scanElem (k : Scan) (cin active : Bool) (d a : Nat) (env : Env) (i : Nat) (s : State) : Res :=
  let c := s.ctx env.f
  let t := c.tag d
  let x := c.scanState
  let (ls, f1) := carryUp (k.op t c.vrm) noHook i 32 0 x.partials (if active then some (c.bits a i) else none)
  let x' := x.setPartials ls
  if active then
    let (T, f2) := edge (k.op t c.vrm) (fun _ p => (p, 0)) (i + 1) ls
    let (r, f3) := scanWith k cin c d x T
    .ok (s.setCtx env.f (({ c with scan := some x' }.put d i (r.getD 0)).accrue (f1 ||| f2 ||| f3)))
  else .ok (s.setCtx env.f ({ c with scan := some x' }.accrue f1))

/-- The carry-out (R353), and the end of the scan. -/
def scanFinish (k : Scan) (cin cout : Bool) (d : Nat) (env : Env) (s : State) : State :=
  let c := s.ctx env.f
  let x := c.scanState
  if !cout then s.setCtx env.f { c with scan := none }
  else
    let (T, f1) := edge (k.op (c.tag d) c.vrm) (fun _ p => (p, 0)) c.reals x.partials
    let (r, f2) := scanWith k cin c d x T
    let v := r.getD (k.identity (c.tag d))
    s.setCtx env.f ({ c with scan := none, acarry := BitVec.ofNat 64 v }.accrue (f1 ||| f2))

/-- A scan as a vector instruction. -/
def scanOp (k : Scan) (word : Word) (d a : BitVec 6) (o i : BitVec 1) (p : BitVec 4) : VOp where
  word := word
  decode := fun _ c =>
    firstTrap [(c.badGroups [d.toNat, a.toNat] || decide (d = a), .operand),
      (c.untagged [d.toNat, a.toNat] || c.tagOf a ≠ c.tagOf d || !k.tagOk (c.tagOf a), .tag)]
  issue := fun env s => if midStart (s.ctx env.f) env.start then some .operand else fitTrap [d.toNat, a.toNat] env s
  pm := p.toNat
  begin' := fun env s => s.modCtx env.f fun c => { c with scan := some ⟨c.acarry, 0, .replicate 32 0⟩ }
  elem := scanElem k (i = 1) true d.toNat a.toNat
  skip := scanElem k (i = 1) false d.toNat a.toNat
  finish := scanFinish k (i = 1) (o = 1) d.toNat

/-- `vscan vd, va, #m ?pm`. -/
def execVscan (d a : BitVec 6) (o i : BitVec 1) (p : BitVec 4) (s : State) : Out :=
  .next (s.vector (scanOp .sum (Instr.vscan d a o i p).word d a o i p))
/-- `vscana vd, va, #m ?pm`. -/
def execVscana (d a : BitVec 6) (o i : BitVec 1) (p : BitVec 4) (s : State) : Out :=
  .next (s.vector (scanOp .affine (Instr.vscana d a o i p).word d a o i p))
/-- `vscanmax vd, va, #m ?pm`. -/
def execVscanmax (d a : BitVec 6) (o i : BitVec 1) (p : BitVec 4) (s : State) : Out :=
  .next (s.vector (scanOp .max (Instr.vscanmax d a o i p).word d a o i p))

/-! ### The generator (R356 to R358) -/

/-- One round of TCG-8 with a key word. -/
def tcgRound (k : Word) (x : Word × Word × Word × Word) : Word × Word × Word × Word :=
  let t := (x.1 ^^^ k).toNat * 0xCB2D5A93
  let lo := BitVec.ofNat 32 t
  (x.2.1 ^^^ BitVec.ofNat 32 (t / 2 ^ 32), x.2.2.1 + lo, x.2.2.2.rotateLeft 9, lo)

/-- TCG8 of a 128-bit counter under a key (R357). -/
def tcg8 (keys : Dword × Dword) (ctr : Nat) : Word :=
  let w (n : Nat) : Word := BitVec.ofNat 32 n
  let k0 := w keys.1.toNat
  let k1 := w (keys.1.toNat / 2 ^ 32)
  let k2 := w keys.2.toNat
  let k3 := w (keys.2.toNat / 2 ^ 32)
  let x := (w ctr, w (ctr / 2 ^ 32), w (ctr / 2 ^ 64), w (ctr / 2 ^ 96))
  ([k0, k1, k2, k3, k0, k1, k2, k3].foldl (fun x k => tcgRound k x) x).1

/-- `vrng vd, sb ?pm` (R356): element i receives TCG-8 of base + i. No fit rule binds it: an element outside its group is not written (R9). -/
def execVrng (d : BitVec 6) (x : BitVec 5) (p : BitVec 4) (s : State) : Out :=
  .next (s.vector
    { word := (Instr.vrng d x p).word
      sa := x.toNat
      sb := x.toNat + 1
      decode := fun _ c =>
        firstTrap [(c.badGroups [d.toNat] || decide (x.toNat % 2 = 1), .operand),
          (c.untagged [d.toNat] || (c.tagOf d).bytes ≠ 4, .tag)]
      pm := p.toNat
      elem := fun env i s =>
        let base := env.sa.toNat + 2 ^ 64 * env.sb.toNat
        .ok (s.modCtx env.f fun c => c.put d.toNat i (tcg8 env.keys ((base + i) % 2 ^ 128)).toNat)
      inBlock := true })

end Sys2Proof.Machine
end

