-- ==== Sys2Proof/Machine/TileMove.lean ====
section
/-! DEFINITION. Tile-slice moves between a thread's registers and its mill's matrix array (OP 0x2F; R46, R47, R379 to R382). -/

namespace Sys2Proof.Machine

/-! ### Tiles (R46) -/

/-- Element bytes of a tile mode. -/
def modeBytes (mode : Nat) : Nat := if mode = 0 then 4 else 8

/-- Where element (row, col) of a tile stands: rows of 512 bytes. -/
def tileByte (eb row col : Nat) : Nat := 512 * row + eb * col

namespace Mill

/-- Tile n. -/
def tile (m : Mill) (n : Nat) : BitVec 524288 := m.tiles.toList.getD n 0
def setTile (m : Mill) (n : Nat) (v : BitVec 524288) : Mill := { m with tiles := m.tiles.setIfInBounds n v }
/-- Tile(t, row, col) as an element of `eb` bytes. -/
def tileElem (m : Mill) (n eb row col : Nat) : Nat := sliceBytes (m.tile n) (tileByte eb row col) eb
def setTileElem (m : Mill) (n eb row col v : Nat) : Mill := m.setTile n (setSliceBytes (m.tile n) (tileByte eb row col) eb v)

/-- The 64 pairs of cc n. -/
def carry (m : Mill) (n : Nat) : BitVec 4096 := m.carries.toList.getD n 0
def setCarry (m : Mill) (n : Nat) (v : BitVec 4096) : Mill := { m with carries := m.carries.setIfInBounds n v }
def pair (m : Mill) (n k : Nat) : Nat := bitsAt (m.carry n) (64 * k) 64
def setPair (m : Mill) (n k v : Nat) : Mill := m.setCarry n (setBits (m.carry n) (64 * k) 64 v)

end Mill

/-- MCFG.TMODE of a tile in a bay, which its matrix control core holds (R51). -/
def State.tileMode (s : State) (bay t : Nat) : Nat := bitsAt (s.ctx (2304 + bay)).mcfg (8 + 2 * t) 2

/-! ### The moves -/

/-- Line length and line count (R380). -/
def lineLength (mode ax : Nat) : Nat := if ax = 0 && mode ≠ 0 then 64 else 128
def lineCount (mode ax : Nat) : Nat := if ax = 1 && mode ≠ 0 then 64 else 128

/-- Row and column of element i of a move from line `line` (R380). -/
def lineCell (mode ax line i : Nat) : Nat × Nat :=
  let ln := line + i / lineLength mode ax
  let p := i % lineLength mode ax
  if ax = 0 then (ln, p) else (p, ln)

/-- Element i of `mtv` or `mvt`, or its omission when it is inactive: the mode in force is compared with the tag first (R382). -/
def tileMoveElem (toTile active : Bool) (d t ax : Nat) (env : Env) (i : Nat) (s : State) : Res :=
  let c := s.ctx env.f
  let mode := s.tileMode (bayOf env.f) t
  let eb := (c.tag d).bytes
  if c.tshape * lineLength mode ax ≤ i then .ok s
  else if eb ≠ modeBytes mode then .trap .tag i false s
  else if !active then .ok s
  else
    let (row, col) := lineCell mode ax env.sa.toNat i
    if toTile then .ok (s.modMill (millOf env.f) fun m => m.setTileElem t eb row col (c.elem d eb i))
    else .ok (s.setCtx env.f (c.setElem d eb i ((s.mill (millOf env.f)).tileElem t eb row col)))

/-- The tile-disabled check of R382. -/
def tileOff (c : Ctx) (t : BitVec 2) : Bool := !bitAt c.tileen t.toNat

/-- `mtv` and `mvt` as vector instructions. -/
def tileMove (word : Word) (toTile : Bool) (d : BitVec 6) (t : BitVec 2) (x : BitVec 1) (a : BitVec 5) (p : BitVec 4) : VOp where
  word := word
  sa := a.toNat
  decode := fun _ c => firstTrap [(c.badGroups [d.toNat], .operand), (c.untagged [d.toNat], .tag), (tileOff c t, .tile)]
  issue := fun env s =>
    let c := s.ctx env.f
    if lineCount (s.tileMode (bayOf env.f) t.toNat) x.toNat < env.sa.toNat + c.tshape then some .operand else none
  pm := p.toNat
  limit := fun c => min c.reals (c.tshape * 128)
  elem := tileMoveElem toTile true d.toNat t.toNat x.toNat
  skip := tileMoveElem toTile false d.toNat t.toNat x.toNat

/-- `mtv vd, tat[sa], row` and `…, col`. -/
def execMtv (d : BitVec 6) (t : BitVec 2) (x : BitVec 1) (a : BitVec 5) (p : BitVec 4) (s : State) : Out :=
  .next (s.vector (tileMove (Instr.mtv d t x a p).word false d t x a p))
/-- `mvt tat[sa], vd, row` and `…, col`. -/
def execMvt (d : BitVec 6) (t : BitVec 2) (x : BitVec 1) (a : BitVec 5) (p : BitVec 4) (s : State) : Out :=
  .next (s.vector (tileMove (Instr.mvt d t x a p).word true d t x a p))

/-- Element i of `mtvc` (R381). -/
def carryMoveElem (toCarry : Bool) (d t : Nat) (env : Env) (i : Nat) (s : State) : Res :=
  let c := s.ctx env.f
  if toCarry then .ok (s.modMill (millOf env.f) fun m => m.setPair t i (c.elem d 8 i))
  else .ok (s.setCtx env.f (c.setElem d 8 i ((s.mill (millOf env.f)).pair t i)))

/-- `mtvc` as a vector instruction. -/
def carryMove (word : Word) (d : BitVec 6) (t : BitVec 2) (x : BitVec 1) (p : BitVec 4) : VOp where
  word := word
  decode := fun _ c =>
    firstTrap [(c.badGroups [d.toNat], .operand),
      (c.untagged [d.toNat] || decide ((c.tagOf d).bytes ≠ 8), .tag), (tileOff c t, .tile)]
  pm := p.toNat
  limit := fun c => min c.reals 64
  elem := carryMoveElem (x = 1) d.toNat t.toNat

/-- `mtvc vd, cct` and `mtvc cct, vd`. -/
def execMtvc (d : BitVec 6) (t : BitVec 2) (x : BitVec 1) (p : BitVec 4) (s : State) : Out :=
  .next (s.vector (carryMove (Instr.mtvc d t x p).word d t x p))

end Sys2Proof.Machine
end

