-- ==== Sys2Proof/Machine/MatrixMath.lean ====
section
/-! DEFINITION. The arithmetic of the matrix array: operand types, block sums, slices and scans (R310, R311, R366 to R372), on the state of one
array. -/

namespace Sys2Proof.Machine

/-! ### Planes (R361, R366) -/

/-- Tag of the operands of a plane type. -/
def planeTag : Nat → Tag
  | 0 => .bf16
  | 1 => .d8
  | 2 => .i8
  | 3 => .n8
  | _ => .f64

/-- K rows of a plane type. -/
def planeK : Nat → Nat
  | 0 => 128
  | 4 => 64
  | _ => 256

/-- Bytes of one row of a plane. -/
def planeRow : Nat → Nat
  | 0 => 256
  | 4 => 512
  | _ => 128

namespace Mill

def atype (m : Mill) : Nat := bitsAt m.planes 0 3
def stype (m : Mill) : Nat := bitsAt m.planes 4 3
def rowsM (m : Mill) : Nat := bitsAt m.rowpred 0 9
def kp (m : Mill) : Nat := bitsAt m.rowpred 16 9
def nc (m : Mill) : Nat := bitsAt m.colpred 0 9

/-- Weight W[k][col] of the active plane. -/
def weight (m : Mill) (k col : Nat) : Val :=
  let t := planeTag m.atype
  t.read (bitsAt m.active (8 * (planeRow m.atype * k + t.bytes * col)) t.width)

/-- K indices taken (R369). -/
def kTaken (m : Mill) : Nat := if m.kp = 0 then planeK m.atype else min m.kp (planeK m.atype)

end Mill

/-! ### Block sums (R370) -/

/-- An exact sum of finite values (R301): an exact zero is +0, except under down, where it is −0. -/
def exactSum (rm : RM) (xs : List (Bool × Nat × Int)) : FVal :=
  let nz := xs.filter fun x => x.2.1 ≠ 0
  match nz with
  | [] => .fin (rm = .down) 0 0
  | y :: ys =>
    let e := ys.foldl (fun e x => min e x.2.2) y.2.2
    let t : Int := nz.foldl (fun acc x => acc + scaledInt x.1 x.2.1 x.2.2 e) 0
    if t = 0 then .fin (rm = .down) 0 0 else .fin (decide (t < 0)) t.natAbs e

/-- The product of one pair as finite values; `none` when it is not finite. -/
def exactProduct : FVal × FVal → Option (Bool × Nat × Int)
  | (.fin n1 m1 e1, .fin n2 m2 e2) => some (n1 != n2, m1 * m2, e1 + e2)
  | _ => none

/-- The sign of a product that is infinite, and whether a product is 0 × ∞. -/
def infiniteProduct (p : FVal × FVal) : Option Bool :=
  if (p.1.isInf && !p.2.isZero && !p.2.isNan) || (p.2.isInf && !p.1.isZero && !p.1.isNan) then
    some (p.1.neg? != p.2.neg?)
  else none
def invalidProduct (p : FVal × FVal) : Bool := (p.1.isInf && p.2.isZero) || (p.1.isZero && p.2.isInf)

/-- BlockSum over the pairs (activation, weight) of a block in ascending k, with the sum of its finite products given. -/
def blockSum (ps : List (FVal × FVal)) (finite : List (FVal × FVal) → FVal) : FVal × Flags :=
  let ops := ps.flatMap fun p => [p.1, p.2]
  let bad := ps.any invalidProduct
  let infs := ps.filterMap infiniteProduct
  match firstNan ops with
  | some n => (n, snanFlag ops ||| (if bad then Flags.nv else 0))
  | none =>
    if bad || (infs.contains true && infs.contains false) then (.dnan, Flags.nv)
    else
      match infs with
      | n :: _ => (.inf n, 0)
      | [] => (finite ps, 0)

/-- The slices of a significand (R371), most significant first: P = 7 × S bits of it. -/
def sliceList (S m : Nat) : List Nat :=
  let P := 7 * S
  let mp := if 53 ≤ P then m * 2 ^ (P - 53) else m / 2 ^ (53 - P)
  (List.range S).map fun i => mp / 2 ^ (7 * (S - 1 - i)) % 128

/-- An f64 as the significand below 2^53 and the exponent that R371 slices. -/
def sliceForm (m : Nat) (e : Int) : Nat × Int :=
  if m = 0 then (0, 0)
  else
    let up : Int := min (52 - (m.log2 : Int)) (e + 1074)
    if up ≥ 0 then (m * 2 ^ up.toNat, e - up) else (m / 2 ^ (-up).toNat, e - up)

/-- The estimate of one f64 product (R371). -/
def estimate (S : Nat) (p : FVal × FVal) : Option (Bool × Nat × Int) :=
  match p with
  | (.fin n1 m1 e1, .fin n2 m2 e2) =>
    let (a, qa) := sliceForm m1 e1
    let (b, qb) := sliceForm m2 e2
    let as := sliceList S a
    let bs := sliceList S b
    let t := (List.range S).foldl (fun acc i =>
      (List.range (S - i)).foldl (fun acc j => acc + as.getD i 0 * bs.getD j 0 * 2 ^ (7 * (2 * S - 2 - i - j))) acc) 0
    let P : Int := 7 * (S : Int)
    some (n1 != n2, t, qa + qb - 2 * (P - 53))
  | _ => none

/-! ### mma and mma.f64 (R369 to R371) -/

/-- Whether tiles are f64 (`mma.f64`), with the rounding mode and the slice count of the operation. -/
structure MmaMode where
  f64 : Bool
  rm : RM
  slices : Nat

/-- The K-block sum rounded to the tile's format. -/
def MmaMode.block (o : MmaMode) (ps : List (FVal × FVal)) : Nat × Flags :=
  if o.f64 then
    let (x, fl) := blockSum ps fun ps => exactSum .nearestEven (ps.filterMap (estimate o.slices))
    let (b, fb) := Fmt.f64.roundTo .nearestEven x
    (b, fl ||| fb)
  else
    let (x, fl) := blockSum ps fun ps => exactSum o.rm (ps.filterMap exactProduct)
    let (b, fb) := Fmt.f32.roundTo o.rm x
    (b, fl ||| fb)

/-- The tile element after one more block. Where both are NaNs the element held before counts first (DESIGN CHOICE, log entry 132: R304 puts an accumulated
operand last, and R369 writes the sum with the tile's element first). -/
def MmaMode.add (o : MmaMode) (old b : Nat) : Nat × Flags :=
  let F := if o.f64 then Fmt.f64 else Fmt.f32
  let (x, fl) := fAdd o.rm (F.decode old) (F.decode b)
  let (r, fr) := F.roundTo o.rm x
  (r, fl ||| fr)

/-- One tile element through the K-blocks in ascending order: `acc` is absent before the first block of a Z form. -/
def mmaElement (o : MmaMode) (pair : Nat → FVal × FVal) (kt : Nat) (start : Option Nat) : Option Nat × Flags :=
  (List.range ((kt + 15) / 16)).foldl (fun (acc : Option Nat × Flags) blk =>
    let ks := (List.range (min 16 (kt - 16 * blk))).map (16 * blk + ·)
    let (b, fb) := o.block (ks.map pair)
    match acc.1 with
    | none => (some b, acc.2 ||| fb)
    | some x =>
      let (r, fr) := o.add x b
      (some r, acc.2 ||| fb ||| fr)) (start, 0)

/-- The elements of one row that `mma` or `mma.f64` updates in an array, those that `skip` names apart; its activations are given by K index. -/
def mmaRow (o : MmaMode) (t : Nat) (z : Bool) (row : Nat) (skip : Nat → Bool) (act : Nat → Val) (m : Mill) : Mill × Flags :=
  let eb := if o.f64 then 8 else 4
  let cols := if o.f64 then min m.nc 64 else m.nc
  ((List.range cols).filter fun col => !skip col).foldl (fun (acc : Mill × Flags) col =>
    let pair (k : Nat) : FVal × FVal := ((act k).flt?, (m.weight k col).flt?)
    let (r, fl) := mmaElement o pair m.kTaken (if z then none else some (acc.1.tileElem t eb row col))
    match r with
    | some v => (acc.1.setTileElem t eb row col v, acc.2 ||| fl)
    | none => acc) (m, 0)

/-! ### mscan (R372) -/

/-- Op(left, right) of R372 on 64-bit pairs: the later row applied after the earlier. -/
def pairOp (rm : RM) (l r : Nat) : Nat × Flags := compose rm (r / 2 ^ 32) (r % 2 ^ 32) (l / 2 ^ 32) (l % 2 ^ 32)

/-- The results of one column: the trees over the pairs held before, each with the carry before it. -/
def scanColumn (rm : RM) (carry : Option Nat) (xs : List Nat) : List (Nat × Flags) :=
  (List.range xs.length).map fun row =>
    let (p, fl) := treeReduce (pairOp rm) ((xs.take (row + 1)).map some)
    let v := p.getD 0
    match carry with
    | none => (v, fl)
    | some c =>
      let (r, fr) := pairOp rm c v
      (r, fl ||| fr)

/-- The results of a column of an `mscan`: those it has computed already, or those of the elements as they stand, with their flags. -/
def Mill.scanned (m : Mill) (rm : RM) (t : Nat) (cin : Bool) (c : Nat) : List Nat × Flags :=
  match Assoc.find m.scans c with
  | some rs => (rs, 0)
  | none =>
    let rs := scanColumn rm (if cin then some (m.pair t c) else none) ((List.range m.rowsM).map fun row => m.tileElem t 8 row c)
    (rs.map (·.1), rs.foldl (fun fl r => fl ||| r.2) 0)

/-- The columns of an `mscan`. -/
def Mill.scanCols (m : Mill) : List Nat := (List.range 64).filter fun c => 2 * c < m.nc && m.rowsM ≠ 0

/-- The rest of an `mscan` in one array: every element it has not written yet, and the carries. -/
def scanTile (rm : RM) (t : Nat) (cout cin : Bool) (m : Mill) : Mill × Flags :=
  m.scanCols.foldl (fun (acc : Mill × Flags) c =>
    let (rs, fl) := m.scanned rm t cin c
    let m1 := ((List.range m.rowsM).filter fun row => !m.drawn.contains (row, c)).foldl (fun a row => a.setTileElem t 8 row c (rs.getD row 0)) acc.1
    (if cout then m1.setPair t c (rs.getD (m.rowsM - 1) 0) else m1, acc.2 ||| fl)) (m, 0)

/-- A tile with the elements that an operation has updated already put back as they stand. -/
def Mill.keepDrawn (m' m : Mill) (t eb : Nat) : Mill :=
  (m.drawn.filter fun e => e.1 < 128 && e.2 < 512 / eb).foldl (fun x e => x.setTileElem t eb e.1 e.2 (m.tileElem t eb e.1 e.2)) m'

end Sys2Proof.Machine
end

