-- ==== Sys2Proof/Machine/Matrix.lean ====
section
/-! DEFINITION. The matrix instructions of a matrix control core (OP 0x38; R359 to R377): their checks and queuing, and what an array does with the
operation at the head of its queue. -/

namespace Sys2Proof.Machine

/-! ### Issue -/

/-- An instruction of OP 0x38, with its checks: illegal on a thread core (R71), and so in an element thread. -/
def State.coreOnly (bad : Ctx → Option Trap) (rs : List Nat) (k : Nat → Ctx → State → State) (s : State) : State :=
  match s.cur with
  | .agent f => if isCore f then s.checked (fun _ c => bad c) rs k else s.trapHere f .illegal
  | .group f => s.trapGroup f .illegal
  | _ => s

/-- Arrays that `am` addresses. -/
def arraysOf (am : BitVec 4) : List Nat := (List.range 4).filter fun n => bitAt am n

namespace Ctx

/-- The core's issue-order values of an array (R363). -/
def issueOf (c : Ctx) (a : Nat) : Issue := c.issue.toList.getD a Issue.reset

/-- Fields of MCFG (R51). -/
def ten (c : Ctx) (t : Nat) : Bool := bitAt c.mcfg (16 + t)
def tmode (c : Ctx) (t : Nat) : Nat := bitsAt c.mcfg (8 + 2 * t) 2
def mrm (c : Ctx) : RM := RM.ofCode (bitsAt c.mcfg 4 3)
def mslices (c : Ctx) : Nat := bitsAt c.mcfg 0 4

end Ctx

/-- The alignment and access checks of R363 for a scratch offset and the sizes in the arrays addressed. -/
def offsetChecks (off : Nat) (sizes : List Nat) : List (Bool × Trap) :=
  [(decide (off % 64 ≠ 0), .align off), (sizes.any fun n => decide (n ≠ 0) && decide (0x400000 < off + n), .access off)]

/-- A matrix operation: its checks in order (R363), which see the issue-order values of the arrays addressed, then room in
every queue addressed (R359), and its place in each of them. `upd` is what it will leave of the issue-order values. -/
def matrixOp (am : BitVec 4) (a : Nat) (checks : Ctx → List Issue → List (Bool × Trap)) (kind : Ctx → MatKind)
    (upd : Ctx → Issue → Issue) (s : State) : State :=
  let as := arraysOf am
  s.coreOnly (fun c => firstTrap ((decide (am = 0), .operand) :: checks c (as.map c.issueOf))) [a] fun f c s =>
    if as.any fun n => decide (16 ≤ (s.mill (millOf f + n)).queue.length) then s.stall f (.arrays as)
    else
      let op : MatOp := ⟨kind c, c.mrm, c.mslices⟩
      let s1 := as.foldl (fun s n => s.modMill (millOf f + n) fun m => { m with queue := m.queue ++ [op] }) s
      let c1 : Ctx := as.foldl (fun (c : Ctx) n =>
        { c with
          issue := c.issue.setIfInBounds n (upd c (c.issueOf n)),
          issued := c.issued.setIfInBounds n (c.issued.toList.getD n 0 + 1) }) c
      s1.setCtx f (c1.retire (c.pc + 4))

/-- The check of a tile or carry number against MCFG.TEN (R47). -/
def tileCheck (c : Ctx) (t : BitVec 2) : Bool × Trap := (!c.ten t.toNat, .tile)

/-- The offset operand s[sa]. -/
def offOf (c : Ctx) (a : BitVec 5) : Nat := (c.s a.toNat).toNat

/-- `mten #mask` (R364). -/
def execMten (m : BitVec 4) (s : State) : Out :=
  .next (s.coreOnly (fun _ => none) [] fun f c s => s.setCtx f ({ c with mcfg := setBits c.mcfg 16 4 m.toNat }.retire (c.pc + 4)))

/-- `mzero tat, #am` and `mzero cct, #am` (R373). -/
def execMzero (t : BitVec 2) (a : BitVec 4) (cc : BitVec 1) (s : State) : Out :=
  .next (matrixOp a 0 (fun c _ => [tileCheck c t]) (fun _ => .zero t.toNat (cc = 1)) (fun _ x => x) s)

/-- `mldw #am, w0[sa], type` (R366). -/
def execMldw (a : BitVec 4) (o : BitVec 5) (y : BitVec 3) (s : State) : Out :=
  .next (matrixOp a o.toNat (fun c xs => (decide (5 ≤ y.toNat), .operand) :: offsetChecks (offOf c o) (xs.map fun _ => 32768))
    (fun c => .loadPlane (offOf c o) y.toNat) (fun _ x => { x with shadow := y.toNat }) s)

/-- `mswap #am` (R367). -/
def execMswap (a : BitVec 4) (s : State) : Out :=
  .next (matrixOp a 0 (fun _ _ => []) (fun _ => .swap) (fun _ x => { x with active := x.shadow, shadow := x.active }) s)

/-- `mma tat, #am, w0[sa]` and `…, z` (R369). -/
def execMma (t : BitVec 2) (a : BitVec 4) (o : BitVec 5) (z : BitVec 1) (s : State) : Out :=
  .next (matrixOp a o.toNat
    (fun c xs => (decide (c.tmode t.toNat = 2) || (xs.any fun x => decide (x.active = 4)), .operand) :: tileCheck c t ::
      offsetChecks (offOf c o) (xs.map fun x => x.m * 256))
    (fun c => .mma t.toNat (offOf c o) (z = 1)) (fun _ x => x) s)

/-- `mma.f64 tat, #am, w0[sa]` and `…, z` (R371). -/
def execMmaF64 (t : BitVec 2) (a : BitVec 4) (o : BitVec 5) (z : BitVec 1) (s : State) : Out :=
  .next (matrixOp a o.toNat
    (fun c xs => (decide (c.tmode t.toNat ≠ 2) || (xs.any fun x => decide (x.active ≠ 4)), .operand) :: tileCheck c t ::
      offsetChecks (offOf c o) (xs.map fun x => x.m * 512))
    (fun c => .mma64 t.toNat (offOf c o) (z = 1)) (fun _ x => x) s)

/-- `mscan tat, #am, #m` (R372). -/
def execMscan (t : BitVec 2) (a : BitVec 4) (o i : BitVec 1) (s : State) : Out :=
  .next (matrixOp a 0 (fun c _ => [(decide (c.tmode t.toNat ≠ 1), .operand), tileCheck c t])
    (fun _ => .scan t.toNat (o = 1) (i = 1)) (fun _ x => x) s)

/-- `mcld cct, #am, w0[sa]` (R373). -/
def execMcld (t : BitVec 2) (a : BitVec 4) (o : BitVec 5) (s : State) : Out :=
  .next (matrixOp a o.toNat (fun c xs => tileCheck c t :: offsetChecks (offOf c o) (xs.map fun _ => 512))
    (fun c => .carryIn t.toNat (offOf c o)) (fun _ x => x) s)
/-- `mcst cct, #am, w0[sa]` (R373). -/
def execMcst (t : BitVec 2) (a : BitVec 4) (o : BitVec 5) (s : State) : Out :=
  .next (matrixOp a o.toNat (fun c xs => tileCheck c t :: offsetChecks (offOf c o) (xs.map fun _ => 512))
    (fun c => .carryOut t.toNat (offOf c o)) (fun _ x => x) s)
/-- `mst tat, #am, w0[sa]` (R373). -/
def execMst (t : BitVec 2) (a : BitVec 4) (o : BitVec 5) (s : State) : Out :=
  .next (matrixOp a o.toNat (fun c xs => tileCheck c t :: offsetChecks (offOf c o) (xs.map fun x => x.m * 512))
    (fun c => .tileOut t.toNat (offOf c o)) (fun _ x => x) s)
/-- `mld tat, #am, w0[sa]` (R373). -/
def execMld (t : BitVec 2) (a : BitVec 4) (o : BitVec 5) (s : State) : Out :=
  .next (matrixOp a o.toNat (fun c xs => tileCheck c t :: offsetChecks (offOf c o) (xs.map fun x => x.m * 512))
    (fun c => .tileIn t.toNat (offOf c o)) (fun _ x => x) s)

/-- `mrow #am, sa` (R368). -/
def execMrow (a : BitVec 4) (o : BitVec 5) (s : State) : Out :=
  .next (matrixOp a o.toNat
    (fun c _ => [(decide (128 < bitsAt (c.s o.toNat) 0 9) || decide (256 < bitsAt (c.s o.toNat) 16 9), .operand)])
    (fun c => .rows (bitsAt (c.s o.toNat) 0 9) (bitsAt (c.s o.toNat) 16 9))
    (fun c x => { x with m := bitsAt (c.s o.toNat) 0 9, kp := bitsAt (c.s o.toNat) 16 9 }) s)
/-- `mcol #am, sa` (R368). -/
def execMcol (a : BitVec 4) (o : BitVec 5) (s : State) : Out :=
  .next (matrixOp a o.toNat (fun c _ => [(decide (128 < bitsAt (c.s o.toNat) 0 9), .operand)])
    (fun c => .cols (bitsAt (c.s o.toNat) 0 9)) (fun c x => { x with nc := bitsAt (c.s o.toNat) 0 9 }) s)

/-! ### Counters and configuration -/

/-- `msig sa, #inc` (R374): the raise is queued, and MSIG_RAISE performs it. -/
def execMsig (a : BitVec 5) (i : BitVec 6) (s : State) : Out :=
  .next (s.coreOnly (counterCheck a 0) [a.toNat] fun f c s =>
    matChecked f c s fun s =>
      s.setCtx f ({ c with raises := c.raises ++ [Raise.mk c.issued.toList c.xq.length (c.s a.toNat).toNat i.toNat] }.retire (c.pc + 4)))

/-- `mwait sa` (R375). -/
def execMwait (a : BitVec 5) (s : State) : Out :=
  .next (s.coreOnly (fun c => if a.toNat % 2 = 1 || 320 ≤ (c.s a.toNat).toNat then some .operand else none)
    [a.toNat, a.toNat + 1] fun f c s =>
      let n := (c.s a.toNat).toNat
      matChecked f c s fun s =>
        if s.counterOf f n < c.s (a.toNat + 1) then s.stall f (.counter n (c.s (a.toNat + 1))) else s.setCtx f (c.retire (c.pc + 4)))

/-- `mcfg sa` (R365). -/
def execMcfg (a : BitVec 5) (s : State) : Out :=
  .next (s.coreOnly (fun c => if mcfgBad (c.s a.toNat) then some .operand else none) [a.toNat] fun f c s =>
    if !s.matIdle f then s.stall f .earlier
    else s.setCtx f ({ c with mcfg := setMcfg c.mcfg (c.s a.toNat) }.retire (c.pc + 4)))

/-! ### The array -/

/-- Where byte `off` of a mill's own scratchpad stands. -/
def ownScratch (mill off : Nat) : Nat := State.scrAddr (mill / 4) (mill % 4 * 0x400000 + off)

/-- Bytes of an array's operand row at a scratch offset. -/
def scratchRow (s : State) (mill off n : Nat) : BitVec 4096 := BitVec.ofNat 4096 (s.scr.read (ownScratch mill off) n)

/-- Elements of a row of `mma` or `mma.f64`, those that `skip` names apart, with the activations that the scratchpad holds. -/
def State.mmaAt (s : State) (o : MmaMode) (t off : Nat) (z : Bool) (mill row : Nat) (skip : Nat → Bool) (m : Mill) : Mill × Flags :=
  let rb := if o.f64 then 512 else 256
  let bits := scratchRow s mill (off + rb * row) rb
  let tg := planeTag m.atype
  mmaRow o t z row skip (fun k => tg.read (bitsAt bits (tg.width * k) tg.width)) m

/-- Rows of `mma` or `mma.f64` in ascending order, but for the elements already updated. -/
def mmaRows (o : MmaMode) (t off : Nat) (z : Bool) (mill n : Nat) (s : State) : State × Flags :=
  let skip (row col : Nat) : Bool := (s.mill mill).drawn.contains (row, col)
  let (m, fl) := (List.range n).foldl (fun (acc : Mill × Flags) row =>
    let (m1, f1) := s.mmaAt o t off z mill row (skip row) acc.1
    (m1, acc.2 ||| f1)) (s.mill mill, 0)
  (s.setMill mill m, fl)

/-- Bytes of an element of a tile under its core's MCFG (R47). -/
def State.tileBytes (s : State) (mill t : Nat) : Nat := if (s.ctx (2304 + mill / 4)).tmode t = 0 then 4 else 8

/-- What a matrix operation still has to do in an array, with its rows limited to those below `top` (R366 to R373): elements of its tile that it has
updated already keep what they hold (R377). -/
def runMatrix (op : MatOp) (mill top : Nat) (s : State) : State × Flags :=
  let m := s.mill mill
  match op.kind with
  | .zero t cc =>
    (s.setMill mill
      (if cc then (List.range 64).foldl (fun m c => m.setPair t c 0x3F80000000000000) m else (m.setTile t 0).keepDrawn m t (s.tileBytes mill t)), 0)
  | .loadPlane off ty =>
    let n := min top (planeK ty)
    let b := planeRow ty * n
    let v := setBits m.shadow 0 (8 * b) (s.scr.read (ownScratch mill off) b)
    (s.setMill mill { m with shadow := v, planes := if n = planeK ty then setBits m.planes 4 3 ty else m.planes }, 0)
  | .swap =>
    (s.setMill mill { m with active := m.shadow, shadow := m.active,
                             planes := setBits (setBits m.planes 0 3 m.stype) 4 3 m.atype }, 0)
  | .mma t off z => mmaRows ⟨false, op.rm, op.slices⟩ t off z mill (min top m.rowsM) s
  | .mma64 t off z => mmaRows ⟨true, op.rm, op.slices⟩ t off z mill (min top m.rowsM) s
  | .scan t cout cin =>
    let (m1, fl) := scanTile op.rm t cout cin m
    (s.setMill mill m1, fl)
  | .carryIn t off => if top = 0 then (s, 0) else (s.setMill mill (m.setCarry t (scratchRow s mill off 512)), 0)
  | .carryOut t off =>
    if top = 0 then (s, 0) else ({ s with scr := s.scr.write (ownScratch mill off) 512 (m.carry t).toNat }, 0)
  | .tileOut t off =>
    let n := 512 * min top m.rowsM
    ({ s with scr := s.scr.write (ownScratch mill off) n (sliceBytes (m.tile t) 0 n) }, 0)
  | .tileIn t off =>
    let n := 512 * min top m.rowsM
    (s.setMill mill ((m.setTile t (setSliceBytes (m.tile t) 0 n (s.scr.read (ownScratch mill off) n))).keepDrawn m t (s.tileBytes mill t)), 0)
  | .rows r kp => (s.setMill mill { m with rowpred := BitVec.ofNat 64 (r + kp * 2 ^ 16) }, 0)
  | .cols nc => (s.setMill mill { m with colpred := BitVec.ofNat 64 nc }, 0)

/-- The failing address of row r of an operation that reads or writes the scratchpad (R376). -/
def failAddress (op : MatOp) (r : Nat) : Option Nat :=
  match op.kind with
  | .loadPlane off ty => some (off + planeRow ty * r)
  | .mma _ off _ => some (off + 256 * r)
  | .mma64 _ off _ => some (off + 512 * r)
  | .carryIn _ off => some off
  | .carryOut _ off => some off
  | .tileOut _ off => some (off + 512 * r)
  | .tileIn _ off => some (off + 512 * r)
  | _ => none

/-- Rows of an operation that reads or writes the scratchpad, and the bytes of each. -/
def Mill.rowsOf (m : Mill) (op : MatOp) : Nat × Nat :=
  match op.kind with
  | .loadPlane _ ty => (planeK ty, planeRow ty)
  | .mma _ _ _ => (m.rowsM, 256)
  | .mma64 _ _ _ | .tileOut _ _ | .tileIn _ _ => (m.rowsM, 512)
  | .carryIn _ _ | .carryOut _ _ => (1, 512)
  | _ => (0, 0)

/-- The first row of an operation that meets a byte struck by an uncorrectable error. -/
def State.struckRow (s : State) (mill : Nat) (op : MatOp) : Option Nat :=
  let (n, b) := (s.mill mill).rowsOf op
  (List.range n).find? fun r => ((failAddress op r).map fun a => s.struck (.scr (ownScratch mill a)) b).getD false

/-- Whether the operation at the head of a queue waits for the core's earlier accesses through its view 0 (R161). -/
def State.matrixHeld (s : State) (mill : Nat) (op : MatOp) : Bool := op.kind.memory && s.xqMeets (2304 + mill / 4) View.bay0

/-- The issue-order values an array will have once its queue is empty. -/
def Mill.asIssue (m : Mill) : Issue := ⟨m.rowsM, m.kp, m.nc, m.atype, m.stype⟩

/-- The tile that an operation updates, with its element's bytes and its rows and columns in an array. -/
def State.drawing (s : State) (mill : Nat) (op : MatOp) : Option (Nat × Nat × Nat × Nat) :=
  let m := s.mill mill
  match op.kind with
  | .zero t false => some (t, s.tileBytes mill t, 128, 512 / s.tileBytes mill t)
  | .mma t _ _ => some (t, 4, m.rowsM, m.nc)
  | .mma64 t _ _ => some (t, 8, m.rowsM, min m.nc 64)
  | .scan t _ _ => some (t, 8, m.rowsM, (m.nc + 1) / 2)
  | .tileIn t _ => some (t, s.tileBytes mill t, m.rowsM, 512 / s.tileBytes mill t)
  | _ => none

/-- The operation at the head of an array's queue updates one element of its tile, in one indivisible step and in any order among its elements (R377):
where it has not yet, nothing holds it (R161) and no byte of its is struck. -/
def State.drawElement (s : State) (mill row col : Nat) : State :=
  match (s.mill mill).queue with
  | [] => s
  | op :: _ =>
    let m := s.mill mill
    match s.drawing mill op with
    | none => s
    | some (t, eb, rows, cols) =>
      if s.matrixHeld mill op || (s.struckRow mill op).isSome || rows ≤ row || cols ≤ col || m.drawn.contains (row, col) then s
      else
        let (m1, fl) : Mill × Flags := match op.kind with
          | .mma t off z => s.mmaAt ⟨false, op.rm, op.slices⟩ t off z mill row (· ≠ col) m
          | .mma64 t off z => s.mmaAt ⟨true, op.rm, op.slices⟩ t off z mill row (· ≠ col) m
          | .scan t _ cin =>
            let (rs, fl) := m.scanned op.rm t cin col
            ({ m with scans := m.scans.put col rs }.setTileElem t 8 row col (rs.getD row 0), fl)
          | .tileIn t off => (m.setTileElem t eb row col (s.scr.read (ownScratch mill (off + 512 * row + eb * col)) eb), 0)
          | _ => (m.setTileElem t eb row col 0, 0)
        (s.setMill mill { m1 with drawn := (row, col) :: m.drawn }).raiseFlags (2304 + mill / 4) fl

/-- A completion in an array (R359, R360): the operation at the head of an array's queue runs to its end. With `fail`, or where a byte of its has been
struck, an uncorrectable error strikes at that row (R376): the operations behind it are discarded, no raise that waited for them takes
place, and the core learns of it. -/
def State.completeMatrix (s : State) (mill : Nat) (fail : Option Nat) : State :=
    let core := 2304 + mill / 4
    match (s.mill mill).queue with
    | [] => s
    | op :: rest =>
      if s.matrixHeld mill op then s
      else
      match (fail.or (s.struckRow mill op)).bind fun r => (failAddress op r).map fun a => (r, a) with
      | none =>
        let (s1, fl) := runMatrix op mill 256 s
        (s1.modMill mill fun m => { m with queue := rest, drawn := [], scans := [], completed := m.completed + 1, samples := m.samples + 1 }).raiseFlags core fl
      | some (r, a) =>
        let before := (s.mill mill).completed
        let (s1, fl) := runMatrix op mill r s
        let s2 := s1.modMill mill fun m => { m with queue := [], drawn := [], scans := [], completed := m.completed + 1 + rest.length, samples := m.samples + 1 }
        (s2.modCtx core fun c =>
          { c with
            matErr := c.matErr.or (some a),
            raises := c.raises.filter fun x => x.after.getD (mill % 4) 0 ≤ before,
            issue := c.issue.setIfInBounds (mill % 4) (s2.mill mill).asIssue }).raiseFlags core fl

/-- MATRIX_OP_COMPLETE. -/
def execMatrixOpComplete (mill : Nat) (fail : Option Nat) (s : State) : Out := .next (s.completeMatrix mill fail)

/-- MSIG_RAISE. -/
def execMsigRaise (flat : Nat) (s : State) : Out := .next (s.raiseNext flat)

end Sys2Proof.Machine
end

