-- ==== Sys2Proof/Machine/Queue.lean ====
section
/-! DEFINITION. Queue slots of the command front ends: binding, the control block, fetching, stopping and completion (R416 to R418, R423, R426 to
R428, R433 to R436). -/

namespace Sys2Proof.Machine

/-! ### Registers and memory of a partition -/

namespace State

/-- STATE of a partition: 0 free, 1 creating, 2 live, 3 destroying (R402). -/
def partState (s : State) (n : Nat) : Nat := bitsAt (s.reg (.part n) 0x00) 0 2

/-- `n` bytes at a virtual address of a partition, page by page. -/
def readVirtual (s : State) (part : Nat) : Nat → Nat → Nat → Except Trap (List Byte)
  | 0, _, _ => .ok []
  | fuel + 1, va, n =>
    if n = 0 then .ok []
    else
      match s.translate part va .read with
      | .error t => .error t
      | .ok x =>
        let k := min n (65536 - va % 65536)
        match readVirtual s part fuel (va + k) (n - k) with
        | .error t => .error t
        | .ok rest => .ok (s.dev.readBytes x.phys k ++ rest)

/-- `n` bytes at a virtual address of a partition, within one page, as a number. -/
def readWord (s : State) (part va n : Nat) : Except Trap Nat :=
  match s.translate part va .read with
  | .error t => .error t
  | .ok x => .ok (s.dev.read x.phys n)

end State

/-- FCODE of a failed translation or access (R427). -/
def fcodeOf (t : Trap) : Nat := if t.cause = 0x05 then 2 else 3

/-! ### The control block (R434) -/

/-- Positions of one segment (R435). -/
def segmentBytes : Nat := 65520

namespace Queue

/-- Address of the next command (R426, R435). -/
def at' (q : Queue) : Nat :=
  if q.stack.isEmpty then q.segment.getD 0 + (if q.atLink then segmentBytes else q.pos % segmentBytes) else q.pc

/-- Command registers; c0 reads as zero (R423). -/
def c (q : Queue) (n : Nat) : Dword := if n = 0 then 0 else q.cregs.toList.getD n 0
def setC (q : Queue) (n : Nat) (v : Dword) : Queue :=
  if n = 0 then q else { q with cregs := q.cregs.setIfInBounds n v }

/-- The next position or address after a command of `len` bytes. A command that runs to the end of the segment's command
area is followed by the segment's link. -/
def advance (q : Queue) (len : Nat) : Queue :=
  if !q.stack.isEmpty then { q with pc := q.pc + len }
  else
    let e := (q.pos / segmentBytes + 1) * segmentBytes
    if e ≤ q.pos + len then { q with pos := e, atLink := true } else { q with pos := q.pos + len }

/-- One command issued; `complete` says that it has completed as well (R433). -/
def count (q : Queue) (complete : Bool) : Queue :=
  { q with issued := q.issued + 1, openCmds := if complete then q.openCmds else q.openCmds ++ [q.issued] }

/-- The longest prefix of commands that have all completed (R433). -/
def donePrefix (q : Queue) : Nat := q.openCmds.foldl min q.issued

end Queue

namespace State

/-- A dword of a slot's control block written, unless the write meets a fault. -/
def writeBlock (s : State) (die slot off v : Nat) : State :=
  (s.ringStore (s.queue die slot).part false ((s.reg (.queue die slot) 0x08).toNat + off) 8 v).getD s

/-- DONE brought up to date (R433). -/
def settleDone (s : State) (die slot : Nat) : State :=
  let q := s.queue die slot
  let d := q.donePrefix
  if q.live && decide (q.done < d) then
    (s.setQueue die slot { q with done := d }).writeBlock die slot 56 d
  else s

/-- The slot whose queue is a partition's with its control block at an address. -/
def slotOf (s : State) (part block : Nat) : Option (Nat × Nat) :=
  (s.queues.find? fun (e : Nat × Queue) => e.2.live && e.2.part = part && e.2.block = block).map fun e => (e.1 / 64, e.1 % 64)

/-- The book of a queue that has left its slot. -/
def book (s : State) (part block : Nat) : Option Book := s.books.find? fun b => b.part = part && b.block = block

/-- The book of a queue changed. -/
def setBook (s : State) (b : Book) : State :=
  { s with books := s.books.map fun x => if x.part = b.part && x.block = b.block then b else x }

/-- Commands that a queue has executed, in a slot or not. -/
def issuedOf (s : State) (part block : Nat) : Nat :=
  match s.slotOf part block with
  | some (die, slot) => (s.queue die slot).issued
  | none => (s.book part block).elim 0 (·.issued)

/-- A command of a queue completes (R433), whether a slot executes the queue or not. -/
def completeCommand (s : State) (part block cmd : Nat) : State :=
  match s.slotOf part block with
  | some (die, slot) => (s.modQueue die slot fun q => { q with openCmds := q.openCmds.erase cmd }).settleDone die slot
  | none =>
    match s.book part block with
    | none => s
    | some b =>
      let b1 := { b with openCmds := b.openCmds.erase cmd }
      let d := b1.openCmds.foldl min b1.issued
      if b.openCmds.foldl min b.issued < d then ((s.setBook b1).ringStore part false (block + 56) 8 d).getD (s.setBook b1)
      else s.setBook b1

/-- A fault found at a completion: the queue stops at its next command boundary (R432). -/
def pendFault (s : State) (part block : Nat) (t : Trap) : State :=
  match s.slotOf part block with
  | some (die, slot) => s.modQueue die slot fun q => { q with pendFault := some t }
  | none => (s.book part block).elim s fun b => s.setBook { b with fault := some t }

/-- The saved state written to the control block at a stop (R428). -/
def saveBlock (s : State) (die slot : Nat) : State :=
  let q := s.queue die slot
  let s1 := (List.range 15).foldl (fun s n => s.writeBlock die slot (136 + 8 * n) (q.c (n + 1)).toNat) s
  let s2 := (List.range 4).foldl (fun s n => s.writeBlock die slot (96 + 8 * n) (q.stack.getD n 0)) s1
  let word := q.fcode + q.qstate * 2 ^ 8 + q.stack.length * 2 ^ 12 + q.hcode * 2 ^ 16
  let s3 := ((s2.writeBlock die slot 80 (if q.stack.isEmpty then 0 else q.pc)).writeBlock die slot 48 q.pos)
  (s3.writeBlock die slot 64 q.faddr).writeBlock die slot 72 word

/-- A queue stops (R428) with its state as set before. -/
def stopQueue (s : State) (die slot : Nat) : State :=
  (s.modQueue die slot fun q => { q with running := false }).saveBlock die slot

/-- The fields of a shadow (R416). -/
def shadowFields (q : Queue) (shadow : Nat) : Queue :=
  { q with part := shadow / 2 ^ 8 % 256, prio := shadow % 8, lo := shadow / 2 ^ 128 % 2 ^ 64, hi := shadow / 2 ^ 192 % 2 ^ 64 }

/-- A command boundary: a hold of the slot or of the device that came while the command was in execution takes effect (R418, R428). -/
def boundary (s : State) (die slot : Nat) : State :=
  let s1 := s.modQueue die slot fun q => { q with busy := false, reachedAt := none }
  let q := s1.queue die slot
  let s2 := if q.running && (q.hold || q.toStop) then s1.stopQueue die slot else s1
  s2.modQueue die slot fun q => { (q.toHold.elim q (shadowFields q)) with toHold := none, toStop := false }

/-- A command fails: the queue stops before the command has any effect, and the resident kernel is signalled; a stage-2
fault signals the hypervisor as well (R427). -/
def faultQueue (s : State) (die slot code : Nat) (stage2 : Bool) : State :=
  let q := s.queue die slot
  let s1 := (s.setQueue die slot { q with qstate := 2, fcode := code, faddr := q.at', pendFault := none }).stopQueue die slot |>.boundary die slot
  let s2 := s1.interrupt (.queueFault q.part)
  if stage2 then s2.interrupt (.stage2Queue q.part) else s2

/-- A slot is held (R418). Its queue stops at the command boundary, with STATE unchanged, and caches then the fields of a shadow that a rebind
has read. -/
def holdQueue (s : State) (die slot reason : Nat) (shadow : Option Nat) : State :=
  let s1 := s.modQueue die slot fun q => { q with hold := true, reason := reason, toHold := shadow }
  if (s1.queue die slot).busy then s1 else s1.boundary die slot

/-! ### Binding (R416 to R418) -/

/-- The saved state of a control block taken up at a bind, with what the queue left open in another slot (R433); a fault on the block stops the queue. -/
def loadBlock (s : State) (die slot : Nat) (first : Bool) : State :=
  let q := s.queue die slot
  match s.readVirtual q.part 3 (s.reg (.queue die slot) 0x08).toNat 256 with
  | .error t => s.setQueue die slot { q with qstate := 2, fcode := fcodeOf t, running := false }
  | .ok bytes =>
    let d (off : Nat) : Nat := (bytes.drop off).take 8 |>.foldr (fun b acc => b.toNat + 256 * acc) 0
    let depth := d 72 / 2 ^ 12 % 8
    let pos := d 48
    let keep := decide (pos = q.pos) && !first
    let block := (s.reg (.queue die slot) 0x08).toNat
    let b := (s.book q.part block).getD
      ⟨q.part, block, if first then d 56 else q.issued, if first then [] else q.openCmds, q.splicing, q.pendFault⟩
    let t : State := { s with books := s.books.filter fun x => x.part ≠ q.part || x.block ≠ block }
    t.setQueue die slot
      { q with
        block := block, splicing := b.splicing, pendFault := b.fault,
        cregs := Vector.ofFn fun n => if n.val = 0 then 0 else BitVec.ofNat 64 (d (128 + 8 * n.val)),
        stack := (List.range (min depth 4)).map fun n => d (96 + 8 * n), pc := d 80, pos := pos,
        segment := if keep then q.segment else none, atLink := keep && q.atLink, running := true, qstate := 0, fcode := 0,
        faddr := d 64, hcode := d 72 / 2 ^ 16 % 2 ^ 16,
        issued := b.issued, done := if first then d 56 else q.done, openCmds := b.openCmds }

/-- Whether a queue moves to this slot from another die's front end (R418): the guest's control block is the same. -/
def movedQueue (s : State) (die slot part : Nat) : Bool :=
  (s.queues.any fun (k, o) => k / 64 ≠ die && o.live && o.part = part &&
    decide (s.reg (.queue (k / 64) (k % 64)) 0x08 = s.reg (.queue die slot) 0x08)) ||
  (s.book part (s.reg (.queue die slot) 0x08).toNat).isSome

/-- A slot unbound, as destroying its partition does (R404). Its launch ordinal and its window's registers stay. -/
def unbindQueue (s : State) (die slot : Nat) : State :=
  s.modQueue die slot fun q => { Queue.reset with ordinal := q.ordinal }

/-- The launch that a queue's command in execution waits for, as the queue leaves its slot: one that has started leaves its command executed, and one that
no mill has received goes with its command, which the next binding executes again (log entry 113). -/
def settleLaunching (s : State) (die slot : Nat) : State :=
  let q := s.queue die slot
  match q.launching with
  | none => s
  | some key =>
    let passed (complete : Bool) : State :=
      s.setQueue die slot { (((q.advance 4).count complete)) with launching := none }
    match s.launchOf key with
    | none => passed (decide (q.splicing ≠ Splicing.joined))
    | some l =>
      if l.state = .waiting then
        ({ s with launches := s.launches.erase key } : State).setQueue die slot
          { q with launching := none, splicing := if q.splicing = .joined then .armed else q.splicing }
      else passed false

/-- A queue leaves its slot: what it has open is kept in its book, and its front end, unless its die is fenced, writes its control block. -/
def leaveSlot (s : State) (die slot : Nat) : State :=
  if !(s.queue die slot).live then s
  else
    let s1 := s.settleLaunching die slot
    let s2 := if (s1.queue die slot).running && !s1.fenced.contains die then s1.stopQueue die slot else s1
    let q := s2.queue die slot
    let t : State := { s2 with
      books := (s2.books.filter fun b => b.part ≠ q.part || b.block ≠ q.block) ++
        [⟨q.part, q.block, q.issued, q.openCmds, q.splicing, q.pendFault⟩] }
    t.unbindQueue die slot

/-- The slot that a queue moves from lets it go. -/
def leaveOther (s : State) (die slot part : Nat) : State :=
  match s.slotOf part (s.reg (.queue die slot) 0x08).toNat with
  | some (d, k) => if d = die && k = slot then s else s.leaveSlot d k
  | none => s

/-- BIND (R418): the shadow is checked and its fields cached; a rebind, or the bind of a queue moved from another die, compares the guest's copy with it. -/
def bindQueue (s : State) (die slot : Nat) : State :=
  let q := s.queue die slot
  let shadow := s.dev.read (bitsAt (s.reg (.queue die slot) 0x00) 5 47 * 32) 32
  let part := shadow / 2 ^ 8 % 256
  let bad := shadow / 2 ^ 16 % 2 ^ 112 ≠ 0 || shadow / 8 % 32 ≠ 0 || part = 0 || 36 < part || s.partState part ≠ 2
  if bad then s.holdQueue die slot 3 none
  else
    let cached := shadowFields q shadow
    let same :=
      match s.readVirtual (if q.live then q.part else part) 2 (s.reg (.queue die slot) 0x08).toNat 32 with
      | .ok bytes => decide (bytes.foldr (fun b acc => b.toNat + 256 * acc) 0 = shadow)
      | .error _ => false
    if !q.live && (same || !s.movedQueue die slot part) then
      ((s.leaveOther die slot part).setQueue die slot { cached with live := true }).loadBlock die slot true
    else if !q.live then
      ((s.leaveOther die slot part).setQueue die slot { cached with live := true, hold := true, reason := 1 }).interrupt (.queueHold die slot)
    else if !same then (s.holdQueue die slot 1 (some shadow)).interrupt (.queueHold die slot)
    else if q.running then s.setQueue die slot cached
    else (s.setQueue die slot cached).loadBlock die slot false

/-- A write of 1 to HOLD (R418): fetching resumes under the fields now cached; a slot that no bind has taken up yet takes up its control block. -/
def clearHold (s : State) (die slot : Nat) : State :=
  let q := s.queue die slot
  if !q.hold then s
  else
    let s1 := s.setQueue die slot { q with hold := false, running := q.live && decide (q.qstate = 0) }
    if q.live && q.segment.isNone && q.issued = 0 && !q.running then s1.loadBlock die slot true else s1

end State

/-! ### Fetching (R426, R435) -/

/-- What a queue's turn finds: nothing to execute, the words of a command with the segment they stand in known, or a stop. -/
inductive Fetched where
  | idle
  | word (s : State) (w lo hi : Word)
  | stopped (s : State)

namespace State

/-- Whether the segment at an address lies within the ring (R418, R435). -/
def segmentOk (q : Queue) (a : Nat) : Bool := decide (a % 65536 = 0) && decide (q.lo ≤ a) && decide (a + 65536 ≤ q.hi)

/-- The segment that holds a position, by the table of the control block; `none` while its entry's tag does not match. -/
def findSegment (s : State) (die slot : Nat) : Except Trap (Option Nat) :=
  let q := s.queue die slot
  let i := q.pos / segmentBytes
  match s.readWord q.part ((s.reg (.queue die slot) 0x08).toNat + 256 + 8 * (i % 8)) 8 with
  | .error t => .error t
  | .ok e => .ok (if e % 65536 = i % 65536 then some (e / 65536 * 65536) else none)

/-- The words at an address, with the literal where the first word takes one. -/
def commandWords (s : State) (part a : Nat) : Except Trap (Word × Word × Word) :=
  match s.readVirtual part 2 a 4 with
  | .error t => .error t
  | .ok b =>
    let word (b : List Byte) (k : Nat) : Word :=
      BitVec.ofNat 32 (((b.drop (4 * k)).take 4).foldr (fun x acc => x.toNat + 256 * acc) 0)
    let w := word b 0
    if takesLiteral w then
      match s.readVirtual part 2 (a + 4) 8 with
      | .error t => .error t
      | .ok l => .ok (w, word l 0, word l 1)
    else .ok (w, 0, 0)

/-- Length of a command in bytes (R423). -/
def commandLength (w : Word) : Nat := if takesLiteral w then 12 else 4

/-- The words of a command at an address, or the fault of their fetch. A fetch from a stack that is not ready waits (R481). -/
def fetchCommand (s : State) (die slot a : Nat) : Fetched :=
  let part := (s.queue die slot).part
  if s.rangeBusy part a 12 then .idle
  else
    match s.commandWords part a with
    | .error t => .stopped (s.faultQueue die slot (fcodeOf t) t.stage2)
    | .ok (w, lo, hi) => .word ((s.noteWalk part (s.reg (.queue die slot) 0x08).toNat).noteWalk part a) w lo hi

/-- The command a running queue executes next, if it has one: in ring mode only what producers have published. A command in execution that waits is executed
again, whatever hold has come meanwhile (R428). -/
def nextCommand (s : State) (die slot : Nat) : Fetched :=
  let q := s.queue die slot
  if !q.live || !q.running || s.fenced.contains die || s.asleep || (!q.busy && (q.hold || s.holdState ≠ 0)) ||
      s.rangeBusy q.part (s.reg (.queue die slot) 0x08).toNat 320 then .idle
  else
    match (if q.busy then none else q.pendFault) with
    | some t => .stopped (s.faultQueue die slot (fcodeOf t) t.stage2)
    | none =>
      if !q.stack.isEmpty then s.fetchCommand die slot q.pc
      else
        match (match q.segment with
          | some a => (.ok (some a) : Except Trap (Option Nat))
          | none => s.findSegment die slot) with
        | .error t => .stopped (s.faultQueue die slot (fcodeOf t) t.stage2)
        | .ok none => .idle
        | .ok (some a) =>
          let s1 := s.setQueue die slot { q with segment := some a }
          let q1 := s1.queue die slot
          if !segmentOk q a then .stopped (s1.holdQueue die slot 2 none)
          else
            match s.readWord q.part ((s.reg (.queue die slot) 0x08).toNat + 32) 8 with
            | .error t => .stopped (s1.faultQueue die slot (fcodeOf t) t.stage2)
            | .ok prod =>
              if !q.atLink && prod < q.pos + 4 then .idle
              else
                match s1.fetchCommand die slot q1.at' with
                | .word s2 w lo hi => if !q.atLink && prod < q.pos + commandLength w then .idle else .word s2 w lo hi
                | r => r

end State

/-! ### Commands -/

/-- How a command ends: it has executed, as a completed command or as one that completes later; it continues elsewhere; it
waits, perhaps with a change of its own; it fails; it meets a segment outside the ring bounds; or it halts the queue. -/
inductive CmdEnd where
  | done (s : State)
  | running (s : State)
  | jump (s : State)
  | wait (s : State)
  | fault (code : Nat) (stage2 : Bool)
  | outside
  | halt (code : Nat)

/-- A COMMAND of `len` bytes, executed by the queue whose turn it is. An agent that is not a queue has no commands: to a
thread context or a core the word is an illegal instruction (R73). -/
def command (len : Nat) (k : Nat → Nat → Queue → State → CmdEnd) (s : State) : State :=
  match s.cur with
  | .queue die slot =>
    match k die slot (s.queue die slot) s with
    | .done s1 => ((s1.modQueue die slot fun q => (q.advance len).count true).settleDone die slot).boundary die slot
    | .running s1 => ((s1.modQueue die slot fun q => (q.advance len).count false).settleDone die slot).boundary die slot
    | .jump s1 => ((s1.modQueue die slot fun q => q.count true).settleDone die slot).boundary die slot
    | .wait s1 => s1.modQueue die slot fun q => { q with busy := true }
    | .fault c g => s.faultQueue die slot c g
    | .outside => (s.modQueue die slot fun q => { q with busy := false }).holdQueue die slot 2 none
    | .halt c =>
      -- FADDR names the halt, and the queue will continue after it
      let s1 := s.modQueue die slot fun q =>
        { ((q.advance len).count true) with qstate := 1, hcode := c, faddr := q.at' }
      ((s1.settleDone die slot).stopQueue die slot).boundary die slot
  | .agent f => s.trapHere f .illegal
  | .group f => s.trapGroup f .illegal
  | _ => s

end Sys2Proof.Machine
end

