-- ==== Sys2Proof/Machine/Engines.lean ====
section
/-! DEFINITION. Copy and collective engines: cards, jobs, completion records and fold slots (R174 to R176, R219 to R222, R224 to R230). -/

namespace Sys2Proof.Machine

/-! ### The job card (R220) -/

namespace Card

def kind (d : Line) : Nat := bitsAt d 64 4
def fold (d : Line) : Nat := bitsAt d 68 2
def fop (d : Line) : Nat := bitsAt d 70 2
def tag (d : Line) : Tag := Tag.ofCode (bitsAt d 72 4)
def recorded (d : Line) : Bool := bitAt d 76
def ctr (d : Line) : Nat := bitsAt d 80 9
def inc (d : Line) : Nat := bitsAt d 96 16
def fp (d : Line) (k : Nat) : Nat := bitsAt d (128 + 64 * k) 64
def fpValid (d : Line) (k : Nat) : Bool := bitAt d (128 + 64 * k)
def fpWrite (d : Line) (k : Nat) : Bool := bitAt d (129 + 64 * k)
def fpAddr (d : Line) (k : Nat) : Nat := fp d k / 64 * 64
def param (d : Line) : Nat := bitsAt d 384 64
/-- RANK of a send, or N of a receive. -/
def rank (d : Line) : Nat := bitsAt d 384 8
def slot (d : Line) : Nat := bitsAt d 392 4

/-- A nonzero must-be-zero field, a value marked invalid, or a footprint missing or mis-marked (R221). A receive with a valid FP0 counts as mis-marked
(log entry 108). -/
def fieldsBad (d : Line) (eng : Nat) (det : Bool) : Bool :=
  let k := kind d
  let src := k = 0 || k = 2 || k = 3
  bitsAt d 77 3 ≠ 0 || bitsAt d 89 7 ≠ 0 || bitsAt d 112 16 ≠ 0 || bitsAt d 496 15 ≠ 0 ||
  ((List.range 4).any fun n => bitsAt d (130 + 64 * n) 4 ≠ 0) ||
  4 < k || fold d = 3 || 320 ≤ ctr d ||
  fpValid d 0 ≠ src || (src && fpWrite d 0) || !fpValid d 1 || !fpWrite d 1 ||
  ((k = 0 || k = 2) && param d ≠ 0) || ((k = 3 || k = 4) && 2 ^ 12 ≤ param d) || (k = 4 && rank d = 0) ||
  ((k = 3 || k = 4) && eng ≠ 8) || (fold d = 2 && det) ||
  (2 ≤ k && (!([Tag.f32, .f64, .f16, .bf16, .i32, .i64, .n32].contains (tag d)) || (fold d = 1 && tag d ≠ .f32)))

/-- What R221 says of the footprints' descriptors, given with their numbers. -/
def viewsBad (d : Line) (vs : List (Nat × Line × Bool)) (own : Nat) (queue : Bool) : Bool :=
  let k := kind d
  let at' (n : Nat) : Line := ((vs.find? fun v => v.1 = n).map fun v => v.2.1).getD 0
  (vs.any fun v =>
    !View.valid own v.2.1 || (View.space v.2.1 = 4 && !(k = 3 && v.1 = 1)) || (View.space v.2.1 ≤ 1 && queue)) ||
  (2 ≤ k && (tag d).bytes ≠ View.size (at' 1)) ||
  (fpValid d 0 && (View.count (at' 0) ≠ View.count (at' 1) || View.size (at' 0) ≠ View.size (at' 1))) ||
  2 ^ 40 ≤ View.count (at' 1) * View.size (at' 1)

end Card

namespace Job

/-- The view of footprint n. -/
def view (j : Job) (n : Nat) : Line := ((j.foot.find? fun v => v.1 = n).map fun v => v.2.1).getD 0
/-- Elements of the destination. -/
def count (j : Job) : Nat := View.count (j.view 1)
def size (j : Job) : Nat := View.size (j.view 1)
/-- Mill whose scratchpads its footprints name; a job of the command front end names none. -/
def mill (j : Job) : Nat := (j.flat.map millOf).getD 0

/-- Whether two footprints meet, one of them written (R155, R176, R222). Jobs of two partitions share host memory, which is named by host address, and
peer memory, named by package and address there (R147). -/
def footMeet (a b : Job) (x y : Nat × Line × Bool) : Bool :=
  (x.2.2 || y.2.2) && (a.part = b.part || (3 ≤ View.space x.2.1 && 3 ≤ View.space y.2.1)) &&
  !(View.space x.2.1 ≤ 1 && View.space y.2.1 ≤ 1 && a.mill / 4 ≠ b.mill / 4) &&
  View.meet (a.mill % 4) (b.mill % 4) x.2.1 y.2.1

/-- Whether job a, which reached the scheduler first, holds back job b (R176). -/
def holdsBack (a b : Job) : Bool := a.die = b.die && a.foot.any fun x => b.foot.any fun y => footMeet a b x y

/-- The location that a fold slot is known by (R229): the space and address of the destination's first element, a scratchpad byte by its place
in the package. -/
def first (j : Job) : Nat × Nat :=
  let d := j.view 1
  let a := (View.addr d 0).toNat
  if View.space d ≤ 1 then (1, State.scrAddr (j.mill / 4) (View.bayByte (j.mill % 4) d a)) else (View.space d, a)

end Job

namespace State

/-! ### Completion (R226, R227) -/

def job (s : State) (id : Nat) : Option Job := s.jobs.find? fun j => j.id = id
def setJob (s : State) (j : Job) : State := { s with jobs := s.jobs.map fun x => if x.id = j.id then j else x }

/-- The bay whose counters 0 to 63 a card names: CHCFG.BAY of the die. -/
def cardBay (s : State) (j : Job) : Nat := 9 * j.die + bitsAt (s.reg (.chain j.part j.die j.chain) 0x00) 8 4

/-- Whether a card's counter is one of its partition's: of another partition's bay no counter is raised or read (R401; log entry 110). -/
def cardCounter (s : State) (j : Job) : Bool :=
  decide (Card.ctr j.card < 320) && (decide (64 ≤ Card.ctr j.card) || decide (s.ownerOf (s.cardBay j) = j.part))

/-- A completion record (R227) in the chain's ring; a fault on the ring drops it (R441). -/
def writeRecord (s : State) (j : Job) (status fault bytes seq : Nat) : State :=
  let w := Window.chain j.part j.die j.chain
  let cfg := s.reg w 0x00
  if Card.recorded j.card && bitAt cfg 0 then
    let done := (s.reg w 0x28).toNat
    let r := seq % 2 ^ 64 + status * 2 ^ 64 + j.addr / 64 * 2 ^ 70 + bytes % 2 ^ 40 * 2 ^ 128 + done % 2 ^ 16 * 2 ^ 168 +
      fault * 2 ^ 184 + s.gtime.toNat * 2 ^ 192
    match s.ringStore j.part false ((s.reg w 0x08).toNat + 32 * (done % (16 * 2 ^ bitsAt cfg 4 4))) 32 r with
    | some s1 => s1
    | none => s.setField w 0x30 1 1 1
  else s

/-- A job completes, once (R226): its record, its counter, and the chain's count. -/
def completeJob (s : State) (j : Job) (status fault bytes : Nat) : State :=
  let n := Card.ctr j.card
  let (s1, seq) :=
    if s.cardCounter j then
      (s.raise (s.cardBay j) j.part n (Card.inc j.card),
        (min (2 ^ 64 - 1) ((s.counter (s.cardBay j) j.part n).toNat + Card.inc j.card)))
    else
      let (k, s1) := s.freshNumber
      (s1, Config.unstated k)
  let s2 := (s1.writeRecord j status fault bytes seq).bump (.chain j.part j.die j.chain) 0x28
  { (s2.dropPins (.job j.id)) with
    jobs := s2.jobs.filter fun x => x.id ≠ j.id, held := s2.held.filter fun c => c.job ≠ some j.id }

/-! ### Starting (R224, R225) -/

/-- The chain stops at an unreadable card (R225), and the resident kernel is signalled. -/
def stopChain (s : State) (part die ch : Nat) : State :=
  (s.setField (.chain part die ch) 0x30 0 1 1).interrupt (.chainStop part die ch)

/-- The descriptors of a card's valid footprints, by number. -/
def readFootprints (s : State) (part : Nat) (card : Line) : List Nat → Except Trap (List (Nat × Line × Bool))
  | [] => .ok []
  | n :: rest =>
    match readFootprints s part card rest with
    | .error t => .error t
    | .ok l =>
      if Card.fpValid card n then
        match s.readWord part (Card.fpAddr card n) 64 with
        | .error t => .error t
        | .ok d => .ok ((n, BitVec.ofNat 512 d, Card.fpWrite card n) :: l)
      else .ok l

/-- The distinct pages of a job's footprints in device memory. A code page is found when an element would write to it
(R227), so the images of the launches are set aside here; written footprints come first, for the permission they need. -/
def jobPages (s : State) (part : Nat) (vs : List (Nat × Line × Bool)) : Except Trap (List Pin) :=
  let t := { s with launches := [] }
  let go (w : Bool) (acc : Except Trap (List Pin)) : Except Trap (List Pin) :=
    vs.foldl (fun acc v =>
      match acc with
      | .error t => .error t
      | .ok l =>
        if View.space v.2.1 = 2 && v.2.2 = w then
          t.coverDim part (if w then .write else .read) v.2.1 (View.rank v.2.1) (View.base v.2.1) l
        else .ok l) acc
  go false (go true (.ok []))

/-- Whether every element of a footprint in host space lies in an enabled window (R410). -/
def hostFootOk (s : State) (part : Nat) (d : Line) : Bool :=
  View.space d ≠ 3 ||
  (List.range (View.count d)).all fun j => s.hostAllowed part (View.addr d j).toNat (View.size d)

/-- Jobs an engine of a die has in its four places. -/
def placesTaken (s : State) (die eng : Nat) : Nat := (s.jobs.filter fun j => j.die = die && j.eng = eng).length

/-- The next card of a chain leaves it: CHHEAD moves to NEXT, or to 0 behind the last card appended. -/
def popCard (s : State) (part die ch addr : Nat) (card : Line) : State :=
  let w := Window.chain part die ch
  let next := if addr = (s.reg w 0x18).toNat then 0 else bitsAt card 0 64
  { (s.setReg w 0x10 (BitVec.ofNat 64 next)) with
    appended := s.appended.eraseP fun a => a.part = part && a.die = die && a.chain = ch && a.addr = addr }

/-- The hypervisor is signalled of a stage-2 fault (R407). -/
def signalled (s : State) (part : Nat) (t : Trap) : State := if t.stage2 then s.interrupt (.stage2Queue part) else s

/-- Whether a card or a descriptor that it names stands in a stack that is not ready (R481). -/
def cardBusy (s : State) (part addr : Nat) : Bool :=
  s.rangeBusy part addr 64 ||
  match s.readWord part addr 64 with
  | .error _ => false
  | .ok bits =>
    let card : Line := BitVec.ofNat 512 bits
    (List.range 4).any fun n => Card.fpValid card n && s.rangeBusy part (Card.fpAddr card n) 64

/-- An engine reads the card at CHHEAD, its descriptors and its pages, and offers the job to the task scheduler (R224). The card is read whole here, once: of
the mixes of old and new dwords that R223 allows, the model's choice (log entry 109). -/
def startJob (s : State) (part die ch : Nat) : State :=
  let w := Window.chain part die ch
  let addr := (s.reg w 0x10).toNat
  let eng := bitsAt (s.reg w 0x00) 12 4
  if addr = 0 || bitAt (s.reg w 0x30) 0 || 4 ≤ s.placesTaken die eng || s.fenced.contains die || s.asleep ||
      s.partState part ≠ 2 || s.cardBusy part addr then s
  else
    match s.readWord part addr 64 with
    | .error _ => s.stopChain part die ch
    | .ok bits =>
      let card : Line := BitVec.ofNat 512 bits
      match s.readFootprints part card [0, 1, 2, 3] with
      | .error _ => s.stopChain part die ch
      | .ok vs =>
        let a := (s.appended.find? fun a => a.part = part && a.die = die && a.chain = ch && a.addr = addr).getD
          ⟨part, die, ch, addr, none, none, false, false⟩
        let base : Job := ⟨s.nextJob, part, die, ch, eng, card, addr, a.flat, a.by', vs, 0, none, false, false⟩
        let walks := (List.range 4).filterMap fun n => if Card.fpValid card n then some (Card.fpAddr card n) else none
        let s0 := (addr :: walks).foldl (fun s a => s.noteWalk part a) s
        let s1 := { (s0.popCard part die ch addr card) with nextJob := s.nextJob + 1 }
        let add (j : Job) (s : State) : State := { s with jobs := s.jobs ++ [j] }
        let failed (st fault : Nat) : State := add { base with status := some (st, fault) } s1
        if a.killed then failed 5 0
        else if Card.fieldsBad card eng a.det || Card.viewsBad card vs s.pkg a.flat.isNone then failed 6 0
        else
          match s.jobPages part vs with
          | .error t =>
            (failed (if t.cause = 0x05 then 2 else 1) t.cause).signalled part t
          | .ok ps =>
            if 1024 < ps.length || s.pinLimit part die < ps.length then failed 6 0
            else if vs.any fun v => !s.hostFootOk part v.2.1 then failed 1 0x06
            else if !s.pinRoom part die (ps.map fun p => (p.page, p.size)) then s
            else
              (add { base with waiting := decide (Card.kind card = 4) } s1).addPins (.job base.id) die ps

/-! ### Performing (R175, R221) -/

/-- Where element k of a footprint lands, or the status and cause its job completes with: a page by the job's pin, a scratchpad byte by the context that
appended its card (R222), host memory by the windows of the job's partition (R410). An uncorrectable error gives status 7. -/
def jobLoc (s : State) (j : Job) (d : Line) (k : Nat) (write : Bool) : Except (Nat × Nat) Loc :=
  let a := (View.addr d k).toNat
  let r : Except (Nat × Nat) Loc :=
    match View.space d with
    | 2 =>
      match s.pinAt (.job j.id) a with
      | none => .error (2, 5)
      | some p =>
        let phys := p.phys + (a - p.page)
        if write && s.codePage j.part phys then .error (1, 6) else .ok (locOf phys p.device)
    | 3 => if s.hostAllowed j.part a (View.size d) then .ok (.host a) else .error (1, 6)
    | 4 => .ok (.peer (View.pkg d * 2 ^ 72 + a))
    | _ => .ok (.scr (scrAddr (j.mill / 4) (View.bayByte (j.mill % 4) d a)))
  match r with
  | .error e => .error e
  | .ok l => if s.struck l (View.size d) then .error (7, 0) else .ok l

/-- Whether an element of a job stands in a stack that is not ready: the job waits for it (R481, R482). -/
def jobBusy (s : State) (j : Job) (from' n : Nat) : Bool :=
  (List.range n).any fun i => j.foot.any fun v =>
    match s.jobLoc j v.2.1 (from' + i) v.2.2 with
    | .ok l => decide (v.1 < 2) && s.locBusy l
    | .error _ => false

/-- Elements of a copy, fill or fold copy from index k, `n` of them: the state, the index reached, and the status. -/
def runElements (j : Job) : Nat → Nat → State → State × Nat × Nat × Nat
  | 0, k, s => (s, k, 0, 0)
  | n + 1, k, s =>
    let z := j.size
    let c := j.card
    let value : Except (Nat × Nat) Nat :=
      if Card.kind c = 1 then .ok (Card.param c % 2 ^ (8 * z))
      else
        match s.jobLoc j (j.view 0) k false with
        | .error e => .error e
        | .ok l => .ok (s.load l z)
    match value, s.jobLoc j (j.view 1) k true with
    | .error (st, f), _ => (s, k, st, f)
    | _, .error (st, f) => (s, k, st, f)
    | .ok v, .ok l =>
      let w := if Card.kind c = 2 then (foldOp (Card.tag c) .nearestEven (Card.fop c) (s.load l z) v).1 else v
      runElements j n (k + 1) (s.store l z w)

/-! ### Fold slots (R229, R230) -/

/-- The open slot a contribution is addressed to. -/
def slotFor (s : State) (c : Contribution) : Option FoldSlot :=
  s.folds.find? fun x => x.part = c.part && x.slot = c.slot && x.space = c.space && x.addr = c.addr

/-- Whether a contribution matches its slot. -/
def slotMatches (s : State) (x : FoldSlot) (c : Contribution) : Bool :=
  match s.job x.job with
  | none => false
  | some r =>
    c.rank < x.n && (x.got.all fun g => g.rank ≠ c.rank) && c.fold = Card.fold r.card && c.fop = Card.fop r.card &&
    c.tag = bitsAt r.card 72 4 && c.elems.length = r.count && c.size = r.size

/-- The outcome of a send becomes certain; a peer's is answered. -/
def settleSend (s : State) (c : Contribution) (st : Nat) : State :=
  match c.job with
  | none => s.answer (.status st)
  | some id =>
    match s.job id with
    | some j => s.setJob { j with status := some (st, 0) }
    | none => s

/-- A contribution reaches an open slot: it is accepted, or discarded with status 6 for its send. -/
def deliver (s : State) (x : FoldSlot) (c : Contribution) : State :=
  if s.slotMatches x c then
    ({ s with folds := s.folds.map fun (y : FoldSlot) => if y.job = x.job then { y with got := y.got ++ [c] } else y }).settleSend c 0
  else s.settleSend c 6

/-- Whether an earlier job of its die holds a job back (R176). -/
def jobBlocked (s : State) (j : Job) : Bool := (s.jobs.takeWhile fun x => x.id ≠ j.id).any fun x => x.holdsBack j

/-- A receive opens its slot, unless an earlier job holds it back, that slot number is open on its own engine, or it is open elsewhere
with its first location. -/
def openSlot (s : State) (j : Job) : State :=
  let n := Card.slot j.card
  let (space, a) := j.first
  if !j.waiting || Card.kind j.card ≠ 4 || s.jobBlocked j ||
      s.folds.any fun x => x.slot = n && (x.die = j.die || (x.part = j.part && x.space = space && x.addr = a)) then s
  else
    let x : FoldSlot := ⟨j.id, j.die, n, space, a, j.part, Card.rank j.card, []⟩
    let s1 := { (s.setJob { j with waiting := false }) with folds := s.folds ++ [x] }
    let his (c : Contribution) : Bool := c.part = j.part && c.slot = n && c.space = space && c.addr = a
    let s2 := { s1 with held := s1.held.filter fun c => !his c }
    (s1.held.filter his).foldl (fun s c =>
      match s.slotFor c with
      | some y => s.deliver y c
      | none => s) s2

/-- Every waiting receive opens its slot if it can, in the order of the scheduler. -/
def openSlots (s : State) : State := s.jobs.foldl (fun s j => s.openSlot j) s

/-- The new value of destination element k of a receive (R230), from its old value. -/
def foldResult (j : Job) (got : List Contribution) (k old : Nat) : Nat :=
  let op (x y : Nat) : Nat × Flags := foldOp (Card.tag j.card) .nearestEven (Card.fop j.card) x y
  let byRank := (List.range (Card.rank j.card)).filterMap fun r => got.find? fun c => c.rank = r
  match Card.fold j.card with
  | 0 => byRank.foldl (fun d c => (op d (c.elems.getD k 0)).1) old
  | 1 => (treeReduce op (byRank.map fun c => some (c.elems.getD k 0))).1.getD 0
  | _ => got.foldl (fun d c => (op d (c.elems.getD k 0)).1) old

/-- Destination elements of a complete receive from index k, `n` of them. -/
def runReceive (j : Job) (got : List Contribution) : Nat → Nat → State → State × Nat × Nat × Nat
  | 0, k, s => (s, k, 0, 0)
  | n + 1, k, s =>
    match s.jobLoc j (j.view 1) k true with
    | .error (st, f) => (s, k, st, f)
    | .ok l => runReceive j got n (k + 1) (s.store l j.size (foldResult j got k (s.load l j.size)))

/-- The elements a send contributes, or its status. -/
def sendElems (s : State) (j : Job) : Except (Nat × Nat) (List Nat) :=
  (List.range j.count).foldr (fun k acc =>
    match s.jobLoc j (j.view 0) k false, acc with
    | .error e, _ => .error e
    | _, .error e => .error e
    | .ok l, .ok vs => .ok (s.load l j.size :: vs)) (.ok [])

/-- A job that was parked pins its pages again before any further element performs (R179, R409): the state to go on from, the state with an
outcome, or a wait for room. -/
def pinAgain (s : State) (j : Job) : Except (Option (State × Nat × Nat)) State :=
  if s.pins.any fun p => p.holder = .job j.id then .ok s
  else
    match s.jobPages j.part j.foot with
    | .error t => .error (some (s.signalled j.part t, if t.cause = 0x05 then 2 else 1, t.cause))
    | .ok ps =>
      if 1024 < ps.length || s.pinLimit j.part j.die < ps.length then .error (some (s, 6, 0))
      else if !s.pinRoom j.part j.die (ps.map fun p => (p.page, p.size)) then .error none
      else .ok (s.addPins (.job j.id) j.die ps)

/-- The outcome of a send whose contribution a peer has taken in (R227, R229, R410), by the peer's answer: 1 the tags differ, 6 no match, 7 an
uncorrectable error, 8 unreachable, any other accepted. -/
def peerAnswer (n : Nat) : Nat × Nat := if n = 1 then (1, 6) else if n = 6 || n = 7 || n = 8 then (n, 0) else (0, 0)

/-- A copy, fill or fold copy performs `n` further elements at most (R221). One that meets a fault or an error has its outcome from then on. -/
def performSome (s : State) (j : Job) (n : Nat) : State :=
  if j.parked || s.asleep || j.status.isSome || s.jobBlocked j || 3 ≤ Card.kind j.card then s
  else
    match s.pinAgain j with
    | .error none => s
    | .error (some (t, e)) => t.setJob { j with status := some e }
    | .ok t =>
      if t.jobBusy j j.off (min n (j.count - j.off)) then s else
      let (u, k, st, f) := runElements j (min n (j.count - j.off)) j.off t
      u.setJob { j with off := k, status := if st = 0 then none else some (st, f) }

/-- A job runs to its end. `outcome` 0 is undisturbed; k + 1 says that an uncorrectable memory error strikes at element k; for a send on its way to a peer
it is the peer's answer. -/
def finishJob (s : State) (j : Job) (outcome : Nat) : State :=
  let top := if outcome = 0 then j.count else min j.count (outcome - 1)
  let close (r : State × Nat × Nat × Nat) : State :=
    let (s1, k, st, f) := r
    let (st, f) := if st = 0 && outcome ≠ 0 && k < j.count then (7, 0) else (st, f)
    s1.completeJob j st f (k * j.size)
  match j.status with
  | some (st, f) => s.completeJob j st f (j.off * j.size)
  | none =>
    if s.jobBlocked j then s
    else if Card.kind j.card = 3 then
      if j.waiting then
        let (st, f) := peerAnswer outcome
        s.completeJob j st f 0
      else if outcome ≠ 0 && outcome ≤ j.count then s.completeJob j 7 0 0
      else s
    else
    match s.pinAgain j with
    | .error none => s
    | .error (some (t, e)) => t.completeJob j e.1 e.2 (j.off * j.size)
    | .ok t =>
    if t.jobBusy j j.off (j.count - j.off) then s else
    let s := t
    if Card.kind j.card = 4 then
      match s.folds.find? fun x => x.job = j.id with
      | none => s
      | some x =>
        if x.got.length < x.n then s
        else { (close (runReceive j x.got top 0 s)) with folds := s.folds.filter fun y => y.job ≠ j.id }
    else close (runElements j (top - j.off) j.off s)

end State

/-! ### Events -/

/-- ENGINE_JOB_START. A waiting receive opens its slot at once if it can. -/
def execEngineJobStart (part die chain : Nat) (s : State) : Out := .next ((s.startJob part die chain).openSlots)

/-- JOB_COMPLETE. A parked job waits for its resumption (R228). -/
def execJobComplete (job outcome : Nat) (s : State) : Out :=
  .next (
    match s.job job with
    | none => s
    | some j => if j.parked || s.asleep then s else (s.finishJob j outcome).openSlots)

/-- FOLD_CONTRIBUTION (R229): a send's contribution reaches its slot, is held until the slot opens, or waits for room. To a
peer it goes over PML, and the send completes with the peer's answer (R410, R227; log entry 11). -/
def execFoldContribution (job : Nat) (s : State) : Out :=
  .next (
    match s.job job with
    | none => s
    | some j =>
      let settle (st f : Nat) : State := s.setJob { j with status := some (st, f) }
      if Card.kind j.card ≠ 3 || j.status.isSome || j.waiting || j.parked || s.asleep || s.jobBlocked j ||
          s.held.any fun c => c.job = some job then s
      else
        match s.pinAgain j with
        | .error none => s
        | .error (some (t, e)) => t.setJob { j with status := some e }
        | .ok t =>
        if t.jobBusy j 0 j.count then s else
        let s := t
        match s.sendElems j with
        | .error (st, f) => settle st f
        | .ok elems =>
          let d := j.view 1
          if View.space d = 4 then
            if bitsAt (s.reg (.part j.part) 0x28) 0 16 = 0 then settle 1 0x06
            else if !s.peerReachable then settle 8 0
            else s.setJob { j with waiting := true }
          else
            let c : Contribution := ⟨Card.slot j.card, j.first.1, j.first.2, j.part, Card.rank j.card, Card.fold j.card,
              Card.fop j.card, bitsAt j.card 72 4, j.size, elems, some job⟩
            match s.slotFor c with
            | some x => s.deliver x c
            | none =>
              if 16 ≤ (s.held.filter fun h => h.slot = c.slot).length then s else { s with held := s.held ++ [c] })

/-- CHSTAT_STOP_CLEAR (R225): the engine reads the card at CHHEAD again. -/
def execChstatStopClear (part die chain : Nat) (s : State) : Out :=
  .next (s.setField (.chain part die chain) 0x30 0 1 0)

end Sys2Proof.Machine
end

