-- ==== Sys2Proof/Machine/Images.lean ====
section
/-! DEFINITION. Context images (R454 to R458, R460): the dwords a stopped context shows, what makes an image valid, and a context taken from one. -/

namespace Sys2Proof.Machine

/-- An image as it is read: its dwords by number. -/
abbrev Image := Nat → Nat

/-- A field of a dword. -/
def cut (v lo n : Nat) : Nat := v / 2 ^ lo % 2 ^ n

/-- Eight bytes of a list from a byte offset, least significant first. -/
def dwordOf (bytes : List Byte) (k : Nat) : Nat := ((bytes.drop (8 * k)).take 8).foldr (fun b acc => b.toNat + 256 * acc) 0

/-- The low `n` bytes of a number. -/
def bytesOfNat (n v : Nat) : List Byte := (List.range n).map fun k => BitVec.ofNat 8 (v / 256 ^ k)

/-- The byte at an offset of an image. -/
def Image.byte (i : Image) (a : Nat) : Nat := cut (i (a / 8)) (8 * (a % 8)) 8
/-- `n` bytes of an image as a number. -/
def Image.bytes (i : Image) (a : Nat) : Nat → Nat
  | 0 => 0
  | n + 1 => i.byte a + 256 * i.bytes (a + 1) n
/-- Bits of `n` dwords of an image from dword k. -/
def Image.wide (i : Image) (k : Nat) : Nat → Nat
  | 0 => 0
  | n + 1 => i k + 2 ^ 64 * i.wide (k + 1) n

/-! ### Settling before an image (R453) -/

namespace State

/-- Everything that a core has queued completes or is discarded (R376, R452), each part in the order that the others keep it to (R161, R374), in at most
`n` steps: raises, matrix operations, and entries of the external queue. -/
def settleCore (f : Nat) : Nat → State → State
  | 0, s => s
  | n + 1, s =>
    if s.raiseReady f then settleCore f n (s.raiseNext f)
    else
      match (List.range 4).find? fun a => ((s.mill (millOf f + a)).queue.head?.map fun o => !s.matrixHeld (millOf f + a) o).getD false with
      | some a => settleCore f n (s.completeMatrix (millOf f + a) none)
      | none => if (s.ctx f).xq.isEmpty then s else settleCore f n (s.completeEntry f false)

/-- What must hold before an image is taken (R453). -/
def settleImage (s : State) (f : Nat) : State :=
  let c := s.ctx f
  let s1 :=
    if isCore f then
      settleCore f (c.xq.length + c.raises.length + ((List.range 4).map fun a => (s.mill (millOf f + a)).queue.length).sum) s
    else s.drainXq f
  s1.settleStreams f

/-- Arrived elements of a read stream that a context has not read, which its image holds: those of a device-class stream or
of a gang's. -/
def imageBuffer (s : State) (r : StreamReg) (q : Nat) : List Nat :=
  if r.write then []
  else
    match s.bindingOf r q with
    | none => []
    | some b => if r.gang || b.device then b.buf.drop (r.next - b.base) else []

end State

/-! ### The image of a thread (R454 to R457) -/

/-- The registers of the CSR dwords, in ascending number. -/
def imageCsrs : List Nat :=
  [0x000, 0x001, 0x010, 0x011, 0x012, 0x013, 0x014, 0x015, 0x016, 0x017, 0x018, 0x019, 0x01A, 0x01B, 0x020, 0x021, 0x022,
   0x023, 0x024, 0x030, 0x031, 0x040, 0x041, 0x042, 0x050, 0x060, 0x061, 0x062, 0x070, 0x071, 0x072]

/-- The registers of a core's image. -/
def coreCsrs : List Nat := [0x000, 0x001, 0x060, 0x061, 0x062, 0x070, 0x080]

/-- The context with the configuration its oldest queue entry decodes under (R36), which its image shows, and with the start
index of the oldest kept instruction in VSTART. -/
def Ctx.shown (c : Ctx) : Ctx :=
  let start := ((c.vq.find? (·.begun)).map (·.start)).getD 0
  match c.vq with
  | [] => { c with vstart := start }
  | e :: _ =>
    { c with vtype := e.vtype, vtag := e.vtag, vcarry := e.vcarry, vfoldop := e.vfoldop, vstart := start }

/-- The element-thread section: one dword per element below VL. A thread that has ended keeps its offset. -/
def etWords (c : Ctx) : List Nat :=
  match c.blocks with
  | none => []
  | some b =>
    (List.range c.vl).map fun e =>
      match b.threads.find? fun t => t.elem = e with
      | none => 0
      | some t => b2n t.live * 2 ^ 63 + b2n t.link.isSome * 2 ^ 62 + t.off / 4 % 2048 * 2 ^ 32 + (t.link.getD 0).toNat

/-- A queue entry (R456), dword j. -/
def entryDword (e : VqEntry) (j : Nat) : Nat :=
  match j with
  | 0 => e.word.toNat + e.pc % 2 ^ 32 * 2 ^ 32
  | 1 => e.start % 2 ^ 17 * 2 ^ 32 + b2n e.begun * 2 ^ 53 + b2n e.chain * 2 ^ 54 + b2n e.granted * 2 ^ 55
  | 2 => e.sa.toNat
  | 3 => e.sb.toNat
  | 4 => e.grant
  | 5 => e.pad
  | _ => 0

/-- A stream entry (R457), dword j. -/
def streamDword (r : Option StreamReg) (arrived j : Nat) : Nat :=
  match r with
  | none => 0
  | some r =>
    if j < 8 then bitsAt r.desc (64 * j) 64
    else if j = 8 then r.next
    else if j = 9 then
      arrived % 2 ^ 32 + r.port * 2 ^ 32 + b2n r.write * 2 ^ 37 + b2n r.gang * 2 ^ 38 + 2 ^ 39
    else 0

namespace State

/-- The sections behind the fixed layout: element threads, stream elements, and the splice map. -/
def imageTail (s : State) (f : Nat) : List Byte × List Byte × List Byte :=
  let c := s.ctx f
  ((etWords c).flatMap (bytesOfNat 8),
    (List.range 8).flatMap fun q =>
      match s.streamReg f q with
      | none => []
      | some r => (s.imageBuffer r q).flatMap (bytesOfNat (View.size r.desc)),
    c.splice.flatMap fun w => bytesOfNat 4 w.toNat)

/-- Header dword k (R455), for the sizes of the sections. PC has 32 bits, so an image does not tell the exit address of R110 from the address
0xFFFF_FFF0 (log entry 111). -/
def headerDword (s : State) (f : Nat) (et sb sm k : Nat) : Nat :=
  let c := s.ctx f
  let core := isCore f
  match k with
  | 0 => 0x4947594D + 2 ^ 32 + b2n core * 2 ^ 40 + b2n c.blocks.isSome * 2 ^ 42 + b2n c.scan.isSome * 2 ^ 43
  | 1 => if core then 0x145000 else 0x2F800 + et + sb + sm
  | 2 => c.pc % 2 ^ 32
  | 3 => if core then Config.unstated (bayOf f) % 2 ^ 21 else (lremap (s.mill (millOf f))).toNat
  | 4 => et + sb * 2 ^ 32
  | 5 => sm + c.vq.length * 2 ^ 32
  | 6 =>
    ((List.range 14).foldl (fun m n => m + b2n (c.views.toList.getD (n + 1) none).isSome * 2 ^ (n + 1)) 0) +
    (match c.gang with
      | some g => if g.inside then g.number * 2 ^ 32 + g.rank * 2 ^ 36 + g.count * 2 ^ 38 else 0
      | none => 0) + c.parent % 65536 * 2 ^ 48
  | 7 => (List.range 4).foldl (fun m n =>
      match c.groups[n]? with
      | some g => m + (g + 256) * 2 ^ (9 * n)
      | none => m) 0
  | _ => if k < 16 then bitsAt c.record (64 * (k - 8)) 64 else 0

/-- Dword k of the image of a thread context. -/
def threadDword (s : State) (f k : Nat) : Nat :=
  let c := (s.ctx f).shown
  if k < 32 then
    let (et, sb, sm) := s.imageTail f
    s.headerDword f et.length sb.length sm.length k
  else if k < 64 then (c.s (k - 32)).toNat
  else if k < 96 then
    match imageCsrs[k - 64]? with
    | some 0x071 => c.launchid.toNat
    | some n => ((csrRead s f c n).getD 0).toNat
    | none => 0
  else if k < 112 then c.replay.getD (k - 96) 0
  else if k < 224 then
    match c.views.toList.getD ((k - 112) / 8 + 1) none with
    | some d => bitsAt d (64 * ((k - 112) % 8)) 64
    | none => (c.drafts.getD k 0).toNat
  else if k < 304 then
    let t := c.tree ((k - 224) / 20)
    t.image (2 * ((k - 224) % 20)) + 2 ^ 32 * t.image (2 * ((k - 224) % 20) + 1)
  else if k < 338 then
    match c.scan with
    | none => 0
    | some x => if k = 304 then x.carry.toNat else if k = 305 then x.mask.toNat else (x.levels.toList.getD (k - 306) 0).toNat
  else if k < 384 then 0
  else if k < 512 then
    let q := (k - 384) / 16
    match s.streamReg f q with
    | some r => streamDword (some r) (s.imageBuffer r q).length ((k - 384) % 16)
    | none => (c.drafts.getD k 0).toNat
  else if k < 768 then
    match c.vq[(k - 512) / 8]? with
    | some e => entryDword e ((k - 512) % 8)
    | none => 0
  else if k < 16128 then bitsAt (c.preds.toList.getD ((k - 768) / 1024 + 1) 0) (64 * ((k - 768) % 1024)) 64
  else if k < 24320 then bitsAt c.slice (64 * (k - 16128)) 64
  else
    let (et, sb, sm) := s.imageTail f
    dwordOf (et ++ sb ++ sm) (k - 24320)

/-- Dword k of the image of a matrix control core (R460). -/
def coreDword (s : State) (f k : Nat) : Nat :=
  let c := s.ctx f
  if k < 32 then s.headerDword f 0 0 0 k
  else if k < 64 then (c.s (k - 32)).toNat
  else if k < 512 then
    match coreCsrs[k - 64]? with
    | some n => ((csrRead s f c n).getD 0).toNat
    | none => 0
  else
    let a := (k - 512) / 0xA200
    let j := (k - 512) % 0xA200
    let m := s.mill (millOf f + a)
    if 4 ≤ a then 0
    else if j = 0 then m.rowpred.toNat
    else if j = 1 then m.colpred.toNat
    else if j = 2 then m.planes.toNat
    else if j < 8 then 0
    else if j < 264 then bitsAt (m.carries.toList.getD ((j - 8) / 64) 0) (64 * ((j - 8) % 64)) 64
    else if j < 0x200 then 0
    else if j < 0x1200 then bitsAt m.active (64 * (j - 0x200)) 64
    else if j < 0x2200 then bitsAt m.shadow (64 * (j - 0x1200)) 64
    else bitsAt (m.tiles.toList.getD ((j - 0x2200) / 0x2000) 0) (64 * ((j - 0x2200) % 0x2000)) 64

/-- The image of an agent as it stands. -/
def image (s : State) (f : Nat) : Image := fun k => if isCore f then s.coreDword f k else s.threadDword f k

/-- Its size in bytes. -/
def imageSize (s : State) (f : Nat) : Nat := s.image f 1 % 2 ^ 32

end State

/-! ### What a restore accepts (R458) -/

namespace Image

def kind (i : Image) : Nat := cut (i 0) 40 2
def et (i : Image) : Bool := cut (i 0) 42 1 = 1
def size (i : Image) : Nat := cut (i 1) 0 32
def etLen (i : Image) : Nat := cut (i 4) 0 32
def sbLen (i : Image) : Nat := cut (i 4) 32 32
def smLen (i : Image) : Nat := cut (i 5) 0 32
def qLen (i : Image) : Nat := cut (i 5) 32 6
def csr (i : Image) (n : Nat) : Nat := i (64 + n)
def view (i : Image) (n : Nat) : Line := BitVec.ofNat 512 (i.wide (112 + 8 * (n - 1)) 8)
def wset (i : Image) (n : Nat) : Bool := cut (i 6) n 1 = 1
def streamDesc (i : Image) (q : Nat) : Line := BitVec.ofNat 512 (i.wide (384 + 16 * q) 8)
def streamWord (i : Image) (q : Nat) : Nat := i (393 + 16 * q)
def bound (i : Image) (q : Nat) : Bool := cut (i.streamWord q) 39 1 = 1
def arrived (i : Image) (q : Nat) : Nat := if i.bound q then cut (i.streamWord q) 0 32 else 0

/-- Bytes of stream elements before those of register q. -/
def sbBefore (i : Image) (q : Nat) : Nat :=
  (List.range q).foldl (fun n p => n + i.arrived p * View.size (i.streamDesc p)) 0

/-- The bits of a CSR dword that are not resv. -/
def csrMask (n : Nat) : Nat :=
  match n with
  | 0 => 0x1F
  | 1 => 7
  | 2 => 0x7FFF
  | 3 | 4 | 5 | 6 | 7 => 0x1FFFF
  | 8 => 0xFFFFFFFF
  | 14 => fieldMask 36 32 + fieldMask 16 0
  | 15 => 3
  | 16 => fieldMask 20 0
  | 17 => 15
  | 18 => fieldMask 32 16 + fieldMask 4 0
  | 22 | 23 => fieldMask 32 0
  | 24 => 15
  | 28 => fieldMask 27 16 + fieldMask 11 0
  | 29 | 30 => 0xFFFFFFFF
  | 31 => 0
  | _ => fieldMask 63 0

/-- Whether a dword has no bit outside a mask. -/
def within (v m : Nat) : Bool := v &&& m = v

/-- Resv fields of the header and the trap record (R442, R455). -/
def headerOk (i : Image) : Bool :=
  within (i 0) (fieldMask 43 42 + fieldMask 41 0) && within (i 1) (fieldMask 31 0) && within (i 2) (fieldMask 31 0) &&
  within (i 3) (fieldMask 20 0) && within (i 5) (fieldMask 37 0) &&
  within (i 6) (fieldMask 14 1 + fieldMask 40 32 + fieldMask 63 48) && within (i 7) (fieldMask 35 0) &&
  i 8 = 0 && i 9 = 0 && within (i 10) (fieldMask 63 36 + fieldMask 31 20) && within (i 13) (fieldMask 63 12) &&
  (List.range 16).all fun k => i (16 + k) = 0

/-- A CSR set that a context could hold: its widths, and VL, VSTART and the queue's start indices within R29 and R40. -/
def csrsOk (i : Image) : Bool :=
  let vtype := i.csr 2
  let vlmax := 65536 / (8 * 2 ^ cut vtype 0 2) * 2 ^ cut vtype 2 2 / 2 ^ cut vtype 4 2
  ((List.range 32).all fun n => within (i.csr n) (csrMask n)) &&
  4 ≤ cut vtype 9 4 && cut vtype 9 4 ≤ 9 && cut vtype 6 3 ≤ 4 && i.csr 1 ≤ 4 &&
  i.csr 3 ≤ vlmax && i.csr 7 ≤ i.csr 3 && i.csr 5 ≤ i.csr 3 &&
  cut (i.csr 14) 32 3 ≤ 5 && 1 ≤ i.csr 17 && cut (i.csr 18) 0 5 ≤ 16 &&
  (List.range 16).all fun k => i (96 + k) ≤ 65536

/-- A queue entry's resv fields, its word and its start index. -/
def entryOk (i : Image) (n : Nat) : Bool :=
  let k := 512 + 8 * n
  if n < i.qLen then
    within (i (k + 1)) (fieldMask 55 53 + fieldMask 48 32) && i (k + 6) = 0 && i (k + 7) = 0 &&
    cut (i (k + 1)) 32 17 ≤ i.csr 3 && (decodeVector (BitVec.ofNat 32 (i k))).toOption.isSome
  else (List.range 8).all fun j => i (k + j) = 0

/-- A stream entry's resv fields and descriptor. -/
def streamOk (i : Image) (pkg q : Nat) : Bool :=
  (List.range 6).all (fun j => i (394 + 16 * q + j) = 0) && within (i.streamWord q) (fieldMask 39 0) &&
  (!i.bound q || View.valid pkg (i.streamDesc q))

/-- The resv bits of the scan state and of the tree stacks' images (R349, R454). -/
def treesOk (i : Image) : Bool :=
  within (i 305) (fieldMask 31 0) &&
  (List.range 4).all fun y => within (i (240 + 20 * y)) (fieldMask 31 0) && i (243 + 20 * y) = 0

/-- R458 for a thread image. -/
def threadOk (i : Image) (pkg : Nat) : Bool :=
  i.headerOk && i.csrsOk && i.treesOk && i.qLen ≤ 32 &&
  i.size = 0x2F800 + i.etLen + i.sbLen + i.smLen && i.etLen = (if i.et then 8 * i.csr 3 else 0) &&
  i.sbLen = i.sbBefore 8 && i.smLen % 4 = 0 &&
  ((List.range 14).all fun n => !i.wset (n + 1) || View.valid pkg (i.view (n + 1))) &&
  ((List.range 46).all fun n => i (338 + n) = 0) && ((List.range 32).all fun n => i.entryOk n) &&
  ((List.range 8).all fun q => i.streamOk pkg q) &&
  (!i.et || (List.range (i.csr 3)).all fun e => within (i (24320 + e)) (fieldMask 63 62 + fieldMask 42 0))

/-- The resv bits of array a of a core image (R361, R460). -/
def arrayOk (i : Image) (a : Nat) : Bool :=
  let o := 512 + 0xA200 * a
  within (i o) (fieldMask 24 16 + fieldMask 8 0) && within (i (o + 1)) (fieldMask 8 0) &&
  within (i (o + 2)) (fieldMask 6 4 + fieldMask 2 0) && ((List.range 5).all fun n => i (o + 3 + n) = 0) &&
  (List.range 248).all fun n => i (o + 264 + n) = 0

/-- R458 for a core image. -/
def coreOk (i : Image) : Bool :=
  let mcfg := i 70
  i.headerOk && i 4 = 0 && i 5 = 0 && i 6 = 0 && i 7 = 0 && i.size = 0x145000 &&
  within (i 64) 0x1F && i 65 ≤ 4 && within mcfg (fieldMask 19 8 + fieldMask 6 0) && !mcfgBad (BitVec.ofNat 64 mcfg) &&
  within (i 69) (csrMask 28) && ((List.range 441).all fun n => i (71 + n) = 0) && (List.range 4).all fun a => i.arrayOk a

/-- R458 for an agent. -/
def ok (i : Image) (pkg : Nat) (core : Bool) : Bool :=
  cut (i 0) 0 32 = 0x4947594D && cut (i 0) 32 8 = 1 && i.kind = b2n core && (if core then i.coreOk else i.threadOk pkg)

end Image

/-! ### A context taken from an image -/

/-- What a queued word changes for the decoding of the words after it (R36, R130, R324). -/
def retag (w : Word) (sa : Dword) (c : Ctx) : Ctx :=
  let set (fs : Nat × Nat × Nat × Nat) : Ctx := { c with vtype := setVtype c.vtype fs.1 fs.2.1 fs.2.2.1 fs.2.2.2 }
  match decodeVector w with
  | .ok (.vconfigImm _ k) => set (configFields true k.toNat)
  | .ok (.vconfigReg _ _) => set (configFields false sa.toNat)
  | .ok (.vtag k v t) =>
    (List.range (2 ^ k.toNat)).foldl (fun c j => c.setTag (v.toNat + j * c.g) (Tag.ofCode t.toNat)) c
  | .ok (.setvl _ _ e) => { c with vtype := setBits c.vtype 4 2 e.toNat }
  | .ok (.setvlB _ _ _ t) => { c with vtype := setBits c.vtype 4 2 (Tag.ofCode t.toNat).bytes.log2 }
  | .ok (.vcarrySet o n) =>
    { c with vcarry := setBits c.vcarry n.toNat 1 1, vfoldop := setBits c.vfoldop (2 * n.toNat) 2 o.toNat }
  | .ok (.vcarryReg _) => { c with vcarry := sa.setWidth 32 }
  | .ok (.vcvt d _ t _) => c.setTag d.toNat (Tag.ofCode t.toNat)
  | _ => c

/-- The scalar register that a queued word will write. -/
def queuedDest (w : Word) : Nat :=
  match decodeVector w with
  | .ok (.vext _ _ d) => d.toNat
  | .ok (.pcnt _ _ d) => d.toNat
  | .ok (.pfirst _ _ d) => d.toNat
  | _ => 0

/-- The view that a queued vector access names. -/
def queuedView (w : Word) : Option Nat :=
  if opOf w = 0x2B then ((regFields w).find? fun f => f.cls = .w).map (RField.num w) else none

/-- Entry k of an image's queue, in a context that decodes it under its configuration. What the image does not hold of it is that of the entry `was`
which stood at its place, when that is the same instruction; otherwise the view is the one now in its register (log entry 116), the registers and views of a
`vfetch` and the keys are the image's, it counts as begun at its start index, and a discard has nothing to restore at it (log entry 44). -/
def Image.entry (i : Image) (was : Option VqEntry) (k : Nat) (c : Ctx) : VqEntry :=
  let o := 512 + 8 * k
  let word : Word := BitVec.ofNat 32 (i o)
  let pc := cut (i o) 32 32
  let same := was.filter fun x => x.pc = pc && x.word = word
  { word := word, pc := pc, sa := BitVec.ofNat 64 (i (o + 2)), sb := BitVec.ofNat 64 (i (o + 3)), grant := i (o + 4),
    pad := i (o + 5), granted := cut (i (o + 1)) 55 1 = 1, chain := cut (i (o + 1)) 54 1 = 1,
    begun := cut (i (o + 1)) 53 1 = 1, done := false, start := cut (i (o + 1)) 32 17,
    keys := (same.map (·.keys)).getD (c.rngkey0, c.rngkey1),
    vtype := c.vtype, vtag := c.vtag, vcarry := c.vcarry, vfoldop := c.vfoldop, dest := queuedDest word,
    via := match same with
      | some x => x.via
      | none => (queuedView word).bind fun n => (c.view false n).map fun d => ⟨n, d, none⟩
    regs := match same with
      | some x => x.regs
      | none => if opOf word = 0x1F then some c.sregs else none
    sees := match same with
      | some x => x.sees
      | none => if opOf word = 0x1F then some c.views else none
    first := (same.map (·.first)).getD (cut (i (o + 1)) 32 17)
    holds := (same.map (·.holds)).getD []
    check := same.bind (·.check) }

/-- The context with the queue entries of an image, each decoding under the configuration the entries before it leave. A `vcvt` that
begins with VSTART at or above VL retags nothing (R41). -/
def Image.entries (i : Image) (old : List VqEntry) : Nat → Nat → Ctx → Ctx
  | 0, _, c => c
  | n + 1, k, c =>
    let e := i.entry old[k]? k c
    let c1 := if opOf e.word = 0x24 && c.idleNext then c else retag e.word e.sa c
    i.entries old n (k + 1) { c1 with vq := c.vq ++ [e] }

/-- The scan state, tree stacks and element threads of an image. -/
def Image.scan (i : Image) : Option ScanState :=
  if cut (i 0) 43 1 = 1 then
    some ⟨BitVec.ofNat 64 (i 304), BitVec.ofNat 32 (i 305), Vector.ofFn fun k => BitVec.ofNat 64 (i (306 + k.val))⟩
  else none
def Image.tree (i : Image) (y : Nat) : Tree :=
  let w (j : Nat) : Nat := cut (i (224 + 20 * y + j / 2)) (32 * (j % 2)) 32
  { levels := Vector.ofFn fun k => BitVec.ofNat 32 (w k.val), mask := BitVec.ofNat 32 (w 32)
    base := BitVec.ofNat 64 (w 34 + 2 ^ 32 * w 35), count := BitVec.ofNat 64 (w 36 + 2 ^ 32 * w 37) }
def Image.blocks (i : Image) (pc : Nat) (c : Ctx) (old : Option Blocks) : Option Blocks :=
  if i.et then
    some
      { pc := pc
        sregs := (old.map (·.sregs)).getD c.sregs
        views := (old.map (·.views)).getD c.views
        keys := (old.map (·.keys)).getD (c.rngkey0, c.rngkey1)
        threads := (List.range (i.csr 3)).filterMap fun e =>
          let d := i (24320 + e)
          if d = 0 then none
          else some ⟨e, 4 * cut d 32 11, cut d 63 1 = 1, if cut d 62 1 = 1 then some (BitVec.ofNat 32 d) else none⟩ }
  else none

/-- The groups of an image (R455). -/
def Image.groups (i : Image) : List Nat :=
  (List.range 4).filterMap fun n => if cut (i 7) (9 * n + 8) 1 = 1 then some (cut (i 7) (9 * n) 8) else none

/-- The gang membership of an image (R455), alone until the set has been restored whole (R453). -/
def Image.gang (i : Image) (old : Option Gang) : Option Gang :=
  if cut (i 6) 38 3 = 0 then none
  else
    some ⟨cut (i 6) 32 4, cut (i 6) 38 3, cut (i 6) 36 2, true, 0, old.bind (·.push), (old.map (·.lone)).getD true,
      (old.map (·.pushes)).getD 0, (old.map (·.grants)).getD []⟩

/-- The dwords of an image that describe an unset view or an unbound stream, kept as they are until the context goes on (R461). -/
def Image.drafts (i : Image) : Assoc Dword :=
  ((List.range 112).map (112 + ·) ++ (List.range 128).map (384 + ·)).filterMap fun k =>
    let unused := if k < 224 then !i.wset ((k - 112) / 8 + 1) else !i.bound ((k - 384) / 16)
    if unused && i k ≠ 0 then some (k, BitVec.ofNat 64 (i k)) else none

/-- A thread context taken from an image, over what it held before; its streams are bound by `restoreStreams`. The program counter is
the 32 bits that the image holds (log entry 111). -/
def Image.thread (i : Image) (old : Ctx) : Ctx :=
  let n (k : Nat) : Nat := i.csr k
  let d (k : Nat) : Dword := BitVec.ofNat 64 (i.csr k)
  let c : Ctx :=
    { old with
      life := .stopped
      sregs := Vector.ofFn fun k => if k.val = 0 then 0 else BitVec.ofNat 64 (i (32 + k.val))
      pc := cut (i 2) 0 32
      fflags := (d 0).setWidth 5
      frm := (d 1).setWidth 3
      vtype := d 2
      vl := n 3
      vlmax := n 4
      vstart := n 5
      vff := n 6
      vpad := n 7
      vcarry := (d 8).setWidth 32
      vfoldop := d 9
      vtag := BitVec.ofNat 256 (i.wide 74 4)
      pinned := cut (n 14) 36 1 = 1
      pincap := cut (n 14) 32 3
      cap := cut (n 14) 0 17
      detm := (d 15).setWidth 2
      share := cut (n 17) 0 4
      replay := (List.range (cut (n 18) 0 5)).map fun k => i (96 + k)
      rngkey0 := d 19
      rngkey1 := d 20
      acarry := d 21
      xqin := (d 22).setWidth 33
      xqout := (d 23).setWidth 33
      tileen := (d 24).setWidth 4
      instret := d 27
      launchid := (d 29).setWidth 32
      lindex := (d 30).setWidth 32
      preds := Vector.ofFn fun p => if p.val = 0 then 0 else BitVec.ofNat 65536 (i.wide (768 + 1024 * (p.val - 1)) 1024)
      views := Vector.ofFn fun w => if 1 ≤ w.val ∧ w.val ≤ 14 ∧ i.wset w.val then some (i.view w.val) else none
      trees := Vector.ofFn fun y => i.tree y.val
      slice := BitVec.ofNat 524288 (i.wide 16128 8192)
      scan := i.scan
      record := BitVec.ofNat 512 (i.wide 8 8)
      drafts := i.drafts
      gang := i.gang old.gang
      groups := i.groups
      splice := (List.range (i.smLen / 4)).map fun k => BitVec.ofNat 32 (i.bytes (0x2F800 + i.etLen + i.sbLen + 4 * k) 4) }
  let c1 := i.entries old.vq i.qLen 0 { c with vq := [] }
  { c1 with
    vstart := (c1.vq.head?.map (·.start)).getD (n 5), blocks := i.blocks ((c1.vq.head?.map (·.pc)).getD 0) c old.blocks }

end Sys2Proof.Machine
end

