-- ==== Sys2Proof/Machine/Launch.lean ====
section
/-! DEFINITION. Launch descriptors, starting threads and matrix control core programs, placement and completion (R56, R85, R126, R127, R255, R256,
R429 to R433, R475). -/

namespace Sys2Proof.Machine

/-! ### The descriptor (R429) -/

namespace Desc

def code (d : Line) : Nat := bitsAt d 0 64
def mcode (d : Line) : Nat := bitsAt d 64 64
def blocks (d : Line) : Nat := bitsAt d 128 64
def spld (d : Line) : Nat := bitsAt d 192 64
def codelen (d : Line) : Nat := bitsAt d 256 32
def mcodelen (d : Line) : Nat := bitsAt d 288 32
def entry (d : Line) : Nat := bitsAt d 320 32
def mentry (d : Line) : Nat := bitsAt d 352 32
def count (d : Line) : Nat := bitsAt d 384 32
def bays (d : Line) : List Nat := (List.range 36).filter fun b => bitAt d (416 + b)
def millMask (d : Line) : Nat := bitsAt d 452 4
def nblk (d : Line) : Nat := bitsAt d 456 7
def plen (d : Line) : Nat := bitsAt d 464 12
def nreg (d : Line) : Nat := bitsAt d 476 2
def weight (d : Line) : Nat := bitsAt d 478 4
def pinned (d : Line) : Bool := bitAt d 482
def pincap (d : Line) : Nat := bitsAt d 483 3
def det (d : Line) : Bool := bitAt d 486
def splice (d : Line) : Bool := bitAt d 487
def reissue (d : Line) : Bool := bitAt d 488
def scrlen (d : Line) : Nat := 64 * bitsAt d 489 16

/-- Where the `.scr` image stands. -/
def scr (d : Line) : Nat := (code d + codelen d + 63) / 64 * 64

/-- Mills of the placement, in ascending order of die, bay and mill (R255). -/
def mills (d : Line) : List Nat :=
  (bays d).flatMap fun b => ((List.range 4).filter fun m => bitAt d (452 + m)).map (4 * b + ·)

/-- Whether a descriptor fails R431, for a partition of the given bays. An ENTRY or MENTRY that is no multiple of 4 does not fail it: the fetch there traps
(log entry 106). -/
def bad (d : Line) (matrix : Bool) (own : List Nat) : Bool :=
  bitsAt d 505 7 ≠ 0 || bitAt d 463 || weight d = 0 || 5 < pincap d || 3840 < plen d || (det d && !pinned d) ||
  (bays d).isEmpty || (bays d).any (fun b => !own.contains b) || millMask d = 0 || (matrix && mcode d = 0) ||
  64 < nblk d || (nblk d ≠ 0 && blocks d = 0) ||
  (if matrix then mcodelen d ≤ mentry d else codelen d ≤ entry d) || 0x400000 - 0x1000 < scrlen d

end Desc

/-! ### Starting (R56, R127) -/

/-- Exit address (R110, R127). -/
def exitAddress : Dword := 0xFFFFFFFFFFFFFFF0

/-- The registers s1 to s5 at a start. -/
def startRegs (s2 s3 s4 : Nat) : Vector Dword 32 :=
  ((((Ctx.reset.sregs.set 1 exitAddress).set 2 (BitVec.ofNat 64 s2)).set 3 (BitVec.ofNat 64 s3)).set 4
    (BitVec.ofNat 64 s4)).set 5 0x100

/-- A thread as a launch creates it in a context that was `old` (R56, R127, R144, R430). -/
def threadStart (key : Nat) (l : Launch) (f idx : Nat) (old : Ctx) : Ctx :=
  let d := l.desc
  { Ctx.reset with
    life := .running
    sregs := startRegs (0x400000 - 0x4000 * (f % 16)) idx (Desc.count d)
    pc := Desc.entry d
    launch := key
    code := l.code
    vtype := setBits Ctx.reset.vtype 0 2 (Desc.nreg d)
    vlmax := vlmaxReset (Desc.nreg d)
    pinned := Desc.pinned d
    pincap := Desc.pincap d
    cap := old.cap
    detm := BitVec.ofNat 2 (b2n (Desc.det d) + 2 * b2n (Desc.splice d))
    share := Desc.weight d
    replay := old.replay
    launchid := BitVec.ofNat 32 l.id
    lindex := BitVec.ofNat 32 idx
    splice := l.splice }

/-- A matrix control core program as `launchm` starts it: the n-th of `total` bays (R51, R56, R127). -/
def coreStart (key : Nat) (l : Launch) (n total : Nat) (issue : Vector Issue 4) (issued : Vector Nat 4) : Ctx :=
  { Ctx.reset with
    life := .running
    sregs := startRegs 0x3C0000 n total
    pc := Desc.mentry l.desc
    launch := key
    code := ⟨Desc.mcode l.desc, Desc.mcodelen l.desc, 0, 0, 0⟩
    launchid := BitVec.ofNat 32 l.id
    issue := issue
    issued := issued }

namespace State

/-- Bytes of a partition's memory copied into a scratchpad, page by page; a page that cannot be read is left out. -/
def copyIn (s : State) (part : Nat) : Nat → Nat → Nat → Nat → State
  | 0, _, _, _ => s
  | fuel + 1, va, n, dst =>
    if n = 0 then s
    else
      let k := min n (65536 - va % 65536)
      let s1 :=
        match s.translate part va .read with
        | .error _ => s
        | .ok x => { s with scr := (s.scr.clear dst (dst + k)).writeBytes dst (s.dev.readBytes x.phys k) }
      copyIn s1 part fuel (va + k) (n - k) (dst + k)

/-- The launch page and the `.scr` image of a mill (R85, R126). -/
def fillMill (s : State) (l : Launch) (mill lowest placed : Nat) : State :=
  let at0 := ownScratch mill 0
  let s1 := s.copyIn l.part 66 l.image.1 l.image.2 (at0 + 0x1000)
  let m := s1.scr.clear at0 (at0 + 0x1000)
  let m1 := ((((m.write at0 8 l.descAddr).write (at0 + 8) 8 l.id).write (at0 + 16) 8 (Desc.count l.desc)).write
    (at0 + 24) 8 lowest).write (at0 + 32) 8 placed
  { s1 with scr := m1.writeBytes (at0 + 0x100) l.params }

/-! ### Placement (R255, R256, R430) -/

/-- Whether a launch has indices that it has yet to place. -/
def Launch.left (l : Launch) : Bool := decide (l.next < Desc.count l.desc) || !l.redo.isEmpty

/-- Free contexts of a mill for a launch: none while another launch's thread stands there (R256), or while a later range of another launch, whose image
and page the mill holds, is due there (R255 step 3, R126). -/
def freeFor (s : State) (key mill : Nat) : List Nat :=
  let cs := millContexts mill
  let owed := s.launches.any fun (k, o) => k ≠ key && o.state = .placed && o.kind ≠ 4 && Launch.left o && o.ended.contains mill
  if owed || cs.any fun f => (s.ctx f).life ≠ .free && (s.ctx f).launch ≠ key then []
  else cs.filter fun f => (s.ctx f).life = .free

/-- Whether a lease is valid (R473, R475), by the replica of the lowest die that is not fenced. -/
def leaseDie (s : State) : Nat := ((List.range 4).find? fun d => !s.fenced.contains d).getD 0
def leaseValid (s : State) : Bool :=
  bitAt (s.reg (.lease s.leaseDie) 0x00) 0 && decide (s.gtime.toNat < (s.reg (.lease s.leaseDie) 0x08).toNat)
def epoch (s : State) : Nat := bitsAt (s.reg (.lease s.leaseDie) 0x00) 32 32

/-- Whether every bay of a launch's placement is ready (R481). -/
def baysReady (s : State) (d : Line) : Bool := (Desc.bays d).all fun b => bitAt (s.reg .ready 0x00) b

/-- Whether a waiting launch holds back another on some mill of its placement (R430). -/
def heldBack (s : State) (l : Launch) : Bool :=
  s.launches.any fun (_, o) =>
    o.state = .waiting && !o.matrix && (decide (l.prio < o.prio) || (decide (o.prio = l.prio) && decide (o.reached < l.reached))) &&
    (Desc.mills o.desc).any fun m => (Desc.mills l.desc).contains m

/-- Indices that a launch has yet to place: those to be reissued first (R477), then the next ones. -/
def Launch.takeIndices (l : Launch) (n : Nat) : List Nat × Launch :=
  let a := l.redo.take n
  let k := min (n - a.length) (Desc.count l.desc - l.next)
  (a ++ (List.range k).map (l.next + ·), { l with redo := l.redo.drop n, next := l.next + k })

/-- Threads of some indices started in contexts of a mill, lowest index in the lowest context (R255 step 4). -/
def startThreads (s : State) (key : Nat) (l : Launch) (pairs : List (Nat × Nat)) : State :=
  pairs.foldl (fun s p => s.modCtx p.1 (threadStart key l p.1 p.2)) s

/-- Mills that a launch has filled hold no other launch's image and page any longer (R256). -/
def takeMills (s : State) (key : Nat) (ms : List Nat) : State :=
  { s with launches := s.launches.map fun (e : Nat × Launch) =>
      if e.1 = key then e else (e.1, { e.2 with mills := e.2.mills.filter fun m => !ms.contains m }) }

/-- The first placement pass (R255 step 2): each mill receives its range. Pages are in place before any thread starts. -/
def placeFirst (s : State) (key : Nat) (l : Launch) : State :=
  let ms := Desc.mills l.desc
  let per := (Desc.count l.desc + ms.length - 1) / ms.length
  let (l1, ranges) := ms.foldl (fun (acc : Launch × List (Nat × List (Nat × Nat))) m =>
    let fs := (s.freeFor key m).take per
    let (is, l') := Launch.takeIndices acc.1 fs.length
    if is.isEmpty then acc else (l', acc.2 ++ [(m, fs.zip is)])) (l, [])
  let l2 := { l1 with state := .placed, mills := ranges.map (·.1) }
  let s1 := ranges.foldl (fun s r => s.fillMill l r.1 ((r.2.map (·.2)).headD 0) r.2.length) s
  ((ranges.foldl (fun s r => s.startThreads key l2 r.2) s1).takeMills key l2.mills).setLaunch key l2

/-- The mill that has waited longest for a later range and can take one. -/
def nextMill (s : State) (key : Nat) (l : Launch) : Option Nat :=
  l.ended.find? fun m => bitAt (s.reg .ready 0x00) (m / 4) && !(s.freeFor key m).isEmpty

/-- A later range (R255 step 3), or a range reissued after a die was fenced (R477). A mill that had no range has its page filled
first. -/
def placeNext (s : State) (key : Nat) (l : Launch) : State :=
  match s.nextMill key l with
  | none => s
  | some m =>
    let fs := s.freeFor key m
    let (is, l1) := Launch.takeIndices l fs.length
    let l2 := { l1 with ended := l.ended.erase m, mills := if is.isEmpty || l.mills.contains m then l.mills else l.mills ++ [m] }
    let s1 := if is.isEmpty || l.mills.contains m then s else (s.fillMill l m (is.headD 0) is.length).takeMills key [m]
    (s1.startThreads key l2 (fs.zip is)).setLaunch key l2

/-- Whether LAUNCH_PLACE_RANGE has something to do for a launch. -/
def canPlace (s : State) (key : Nat) (l : Launch) : Bool :=
  s.holdState = 0 && s.leaseValid && !l.matrix &&
  match l.state with
  | .waiting =>
    s.baysReady l.desc && !s.heldBack l && !s.rangeBusy l.part l.image.1 l.image.2 && (Desc.mills l.desc).any fun m => !(s.freeFor key m).isEmpty
  | .placed => l.kind ≠ 4 && (s.nextMill key l).isSome && Launch.left l

/-! ### Completion (R432, R433) -/

/-- Whether a context or core of a launch, of a die that is not fenced, is not free, or the image of one is saved. -/
def launchAlive (s : State) (key : Nat) : Bool :=
  (s.agents.any fun (f, c) => c.launch = key && c.life ≠ .free && !s.fenced.contains (dieOf f)) || s.away.any fun a => a.launch = key

/-- Whether a launch is complete: every index placed, and every context ended. -/
def launchOver (s : State) (key : Nat) (l : Launch) : Bool :=
  l.state = .placed && !s.launchAlive key && (l.matrix || l.kind = 4 || !Launch.left l)

/-- A status dword (R432). A fault on it stops the queue at its next command boundary. -/
def writeStatus (s : State) (l : Launch) (addr : Option Nat) : State :=
  match addr with
  | none => s
  | some a =>
    let bad (t : Trap) : State := s.pendFault l.part l.block t
    if a % 8 ≠ 0 then bad { cause := 0x06 }
    else
      match s.translate l.part a .write with
      | .error t => bad t
      | .ok x =>
        if s.codePage l.part x.phys then bad { cause := 0x06 }
        else { s.noteWalk l.part a with dev := s.dev.write x.phys 8 (l.exit % 2 ^ 32 + l.kind * 2 ^ 56) }

/-- A launch completes: its status is written, its commands complete, and its record goes. The two commands of a spliced pair complete together: where the
queue has not reached the second yet, its turn there completes both (R239). -/
def finishLaunch (s : State) (key : Nat) (l : Launch) : State :=
  let s0 := { s with launches := s.launches.erase key }
  let s1 := s0.writeStatus l l.status
  match l.second with
  | none => s1.completeCommand l.part l.block l.command
  | some (_, a) =>
    let s2 := s1.writeStatus l a
    if s2.issuedOf l.part l.block ≤ l.command + 1 then s2
    else (s2.completeCommand l.part l.block (l.command + 1)).completeCommand l.part l.block l.command

end State

/-! ### Events -/

/-- LAUNCH_PLACE_RANGE: the distributor places a launch's first pass, or its next range (R255, R475), an act of authority (R474). The low 32 bits of
the parameter are the launch's LAUNCHID, and what stands above says how many epochs its actor is behind: 0 for the holder of the lease. -/
def execLaunchPlaceRange (lid : Nat) (s : State) : Out :=
  .next (
    if 2 ^ 32 ≤ lid then s.answer (.refused s.epoch)
    else
      match s.launchOf (lid + 1) with
      | none => s
      | some l =>
        if !s.canPlace (lid + 1) l then s
        else
          match l.state with
          | .waiting => s.placeFirst (lid + 1) l
          | .placed => s.placeNext (lid + 1) l)

/-- LAUNCH_COMPLETE (R432, R433). -/
def execLaunchComplete (lid : Nat) (s : State) : Out :=
  .next (
    match s.launchOf (lid + 1) with
    | none => s
    | some l => if s.launchOver (lid + 1) l then s.finishLaunch (lid + 1) l else s)

end Sys2Proof.Machine
end

