-- ==== Sys2Proof/Machine/Contexts.lean ====
section
/-! DEFINITION. The context access window: stopping, saving, restoring and resuming a context, CXDATA, debug stops, and `kill` (R419, R420, R443,
R444, R450, R453, R456 to R461, R489, R492 to R494). -/

namespace Sys2Proof.Machine

namespace State

/-! ### The window (R443) -/

/-- The agent in CXSEL. -/
def selected (s : State) (part : Nat) : Nat := bitsAt (s.reg (.cx part) 0x00) 0 12
/-- CXSTAT.ERR. -/
def setErr (s : State) (part err : Nat) : State := s.setField (.cx part) 0x10 0 2 err
def cxBusy (s : State) (part : Nat) : Bool := bitAt (s.reg (.cx part) 0x10) 63
/-- Whether an agent is one of a partition's. -/
def belongs (s : State) (part f : Nat) : Bool := decide (f < 2340) && decide (part ≠ 0) && decide (s.partOf f = part)

/-- What becomes of a command of the window: refused with an ERR code, done, or under way with BUSY 1 (R444). -/
inductive CxEnd where
  | refused (err : Nat) | done (s : State) | later (s : State)
deriving DecidableEq, Repr

/-- The command that goes on while BUSY is 1, with its agent: kept under the offset of CXCMD, which reads as zero. -/
def cxPending (s : State) (part : Nat) : Nat × Nat :=
  let v := s.reg (.cx part) 0x08
  (bitsAt v 0 3, bitsAt v 3 12)
def setPending (s : State) (part op f : Nat) : State := s.setReg (.cx part) 0x08 (BitVec.ofNat 64 (op + 8 * f))

/-- BUSY. -/
def setBusy (s : State) (part v : Nat) : State := s.setField (.cx part) 0x10 63 1 v

/-- A command of the window on an agent, with its end: ERR, BUSY, and what goes on. One that is refused sets ERR and changes nothing else (R444, R492). -/
def cxEnd (s : State) (part op f : Nat) (r : CxEnd) : State :=
  match r with
  | .refused e => s.setErr part e
  | .done s1 => (s1.setErr part 0).setBusy part 1
  | .later s1 => ((s1.setErr part 0).setBusy part 1).setPending part op f

/-- A command of the window on the agent in CXSEL: BUSY is 1 until CX_COMMAND_COMPLETE, and a command given meanwhile has no
effect (log entry 50). -/
def cxCommand (s : State) (part op : Nat) (k : Nat → Ctx → CxEnd) : State :=
  if s.cxBusy part then s
  else
    let f := s.selected part
    s.cxEnd part op f (if s.belongs part f then k f (s.ctx f) else .refused 3)

/-- Whether an agent stands stopped, and no kill is about to free it. -/
def standing (s : State) (f : Nat) : Bool := decide ((s.ctx f).life = .stopped) && !s.kills.contains f

/-! ### Stopping (R444, R450) -/

/-- A pre-emption (R450): the context stops between two element groups with cause 0x10. It discards nothing, and no ring
record is written. -/
def preempt (s : State) (f : Nat) : State :=
  if (s.ctx f).late.isSome then s.stopLate f
  else
    let s1 := s.settleImage f
    let c := s1.ctx f
    (s1.setCtx f (stopAs (Ctx.withdraw c.settleQueue) (s1.recordOf f { cause := 0x10 } c.pc c.vstart 0 false))).releasePins f

/-- A stop command on an agent whose own stop is under way is met by that one (R447, R494): a debug stop that drains, or a vector trap that waits for its
scalar instructions, unless the agent waits for something there (log entry 125). -/
def stopsItself (c : Ctx) : Bool := decide (c.life = .running) && (decide (c.debugReq ≠ 0) || (c.late.isSome && c.wait.isNone))

/-! ### Saving and restoring (R444, R453, R458) -/

/-- Whether an image can be accessed at a virtual address: each of its pages is translated and readable or writable, and no uncorrectable error has
struck it there. -/
def imagePages (s : State) (part va size : Nat) (u : Use) : Bool :=
  (List.range (size / 65536 + 2)).all fun n =>
    let page := va / 65536 * 65536 + 65536 * n
    let lo := max va page
    let hi := min (va + size) (page + 65536)
    decide (hi ≤ lo) ||
      match s.translate part lo u with
      | .error _ => false
      | .ok x => (u ≠ .write || !s.codePage part x.phys) && !s.struck (.dev x.phys x.dev) (hi - lo)

/-- Bytes of an image written at a virtual or physical address, eight at a time and the last ones singly. -/
def writeImage (s : State) (part : Nat) (physical : Bool) (va : Nat) (i : Image) (size : Nat) : State :=
  let put (a n v : Nat) (s : State) : State := (s.ringStore part physical a n v).getD s
  let s1 := (List.range (size / 8)).foldl (fun s k => put (va + 8 * k) 8 (i k) s) s
  (List.range (size % 8)).foldl (fun s k => put (va + size / 8 * 8 + k) 1 (i.byte (size / 8 * 8 + k)) s) s1

/-- The image at a virtual address. A page that faults is found by `imagePages`. -/
def readImage (s : State) (part va : Nat) : Image := fun k => ((s.readWord part (va + 8 * k) 8).toOption).getD 0

/-- A context freed by a save: it leaves no group and no gang (R444), its image keeps its place in its launch, and its jobs are those of the image, not of
whoever stands in its place next. A stream of a gang stays bound while another member holds it. `held` marks a save in the region of a hold (R471). -/
def freeSaved (s : State) (f : Nat) : State :=
  let c := s.ctx f
  let s1 := (List.range 8).foldl (fun s q =>
    match s.streamReg f q with
    | some r => if (s.readers r q).all (· = f) then s.unbind r q else s.setStreamReg f q none
    | none => s) s
  let (id, s2) := s1.freshNumber
  let held := decide (s.holdState = 1)
  { (s2.modCtx f Ctx.emptied) with
    away := s.away ++ [⟨id, s.partOf f, f, c.launch, c.groups, c.gang.map fun g => (g.number, g.count, c.nreg), held, c.vq⟩]
    jobs := s2.jobs.map fun j => if j.by' = some f then { j with by' := some (65536 + id) } else j
    appended := s2.appended.map fun a => if a.by' = some f then { a with by' := some (65536 + id) } else a }

/-- A save: the image at an address, then the context freed. -/
def saveAt (s : State) (part f va : Nat) : Option State :=
  let s1 := s.settleImage f
  let size := s1.imageSize f
  if !s1.imagePages part va size .write then none
  else some ((s1.writeImage part false va (s1.image f) size).freeSaved f)

/-- A stream register of an image bound in a context (R457). The vd that the first reader of a gang stream fixed (R236) is in no image, so the next reader
fixes it anew (DESIGN CHOICE, log entry 130). Its elements before NEXT and those that the image holds having performed (R182). A gang's
stream joins the binding that another member holds, or is bound afresh. -/
def restoreStream (s : State) (f : Nat) (i : Image) (q : Nat) : State :=
  let w := i.streamWord q
  let d := i.streamDesc q
  let z := View.size d
  let next := i (392 + 16 * q)
  let at0 := 0x2F800 + i.etLen + i.sbBefore q
  let elems := (List.range (i.arrived q)).map fun k => i.bytes (at0 + z * k) z
  let r : StreamReg := ⟨f, cut w 32 5, d, cut w 37 1 = 1, cut w 38 1 = 1, next⟩
  let fresh : Binding := ⟨f, q, d, r.write, r.gang, false, none, next, elems, [], [], View.device d, next + elems.length⟩
  let bind (s : State) : State :=
    (s.setPort (millOf f) r.port (s.port (millOf f) r.port ++ [fresh])).setStreamReg f q (some r)
  if !i.bound q then s
  else if r.gang then
    let number := (s.ctx f).gang.map (·.number)
    match (bayContexts (bayOf f)).findSome? fun g =>
        if g = f || (s.ctx g).gang.map (·.number) ≠ number then none
        else (s.streamReg g q).filter (·.gang) with
    | some x =>
      (s.setStreamReg f q (some { x with next := next })).modBinding x q fun b =>
        if next < b.base then { b with base := next, buf := elems } else b
    | none => bind s
  else bind s

/-- A stream register as CXDATA has changed it: moved on in its binding, or bound afresh. -/
def rewriteStream (s : State) (f : Nat) (i : Image) (q : Nat) : State :=
  match s.streamReg f q with
  | none => s.restoreStream f i q
  | some r =>
    let w := i.streamWord q
    if i.bound q && i.streamDesc q = r.desc && cut w 32 5 = r.port && (cut w 37 1 = 1) = r.write &&
        (cut w 38 1 = 1) = r.gang then
      let next := i (392 + 16 * q)
      let at0 := 0x2F800 + i.etLen + i.sbBefore q
      let z := View.size r.desc
      let elems := (List.range (i.arrived q)).map fun k => i.bytes (at0 + z * k) z
      (s.setStreamReg f q (some { r with next := next })).modBinding r q fun b =>
        if r.write then b
        else if r.gang then (if next = r.next then { b with buf := b.buf.take (next - b.base) ++ elems } else b)
        else { b with base := next, buf := elems }
    else (s.unbind r q).restoreStream f i q

/-- Parent and children of a set that is restored member by member (R453): each member knows the others by the flat numbers
in their records. A child whose parent is not there yet carries its old handle above 65,535. -/
def relink (s : State) (f old : Nat) (handle : Nat) : State :=
  let mates := (millContexts (millOf f)).filter fun g => g ≠ f && decide ((s.ctx g).life ≠ .free)
  let s1 :=
    if handle = 0 then s
    else
      match mates.find? fun g => bitsAt (s.ctx g).record 180 12 + 1 = handle with
      | some g =>
        (s.modCtx g fun p => { p with children := p.children ++ [(f + 1, (s.ctx f).share)] }).modCtx f fun c =>
          { c with parent := g + 1 }
      | none => s.modCtx f fun c => { c with parent := 65536 + handle }
  let kids := mates.filter fun g =>
    (s.ctx g).parent = 65536 + (old + 1) || ((s.ctx g).parent = f + 1 && decide (old = f))
  kids.foldl (fun s g =>
    (s.modCtx g fun c => { c with parent := f + 1 }).modCtx f fun p =>
      { p with children := p.children ++ [(g + 1, (s.ctx g).share)] }) s1

/-- The launch of a partition that an identifier names. -/
def launchNamed (s : State) (part id : Nat) : Option (Nat × Launch) :=
  s.launches.find? fun (_, l) => l.part = part && (l.id = id || (match l.second with
    | some (j, _) => j = id
    | none => false))

/-- The claim that a saved image of an agent keeps, of a launch where two images of its place are away. -/
def claimOf (s : State) (part old launch : Nat) : Option Away :=
  let mine := s.away.filter fun a => a.part = part && a.flat = old
  (mine.find? fun a => a.launch = launch).or mine.head?

/-- The claims of a saved image are taken up by the context that receives it, the jobs it appended among them. -/
def reclaim (s : State) (claim : Option Away) (f : Nat) : State :=
  match claim with
  | none => s
  | some a =>
    let own (b : Option Nat) : Option Nat := if b = some (65536 + a.id) then some f else b
    { s with
      away := s.away.erase a
      jobs := s.jobs.map fun j => { j with by' := own j.by' }
      appended := s.appended.map fun x => { x with by' := own x.by' } }

/-- The `setvl` that a restored member of a gang counts from: those of the members that stand in its bay (R235). -/
def alignGang (s : State) (f : Nat) : State :=
  let number := (s.ctx f).gang.map (·.number)
  let n := (bayContexts (bayOf f)).foldl (fun n m =>
    if (s.ctx m).gang.map (·.number) = number then max n (((s.ctx m).gang.map (·.pushes)).getD 0) else n) 0
  s.modCtx f fun c => { c with gang := c.gang.map fun g => { g with pushes := n } }

/-- The streams bound in a restored context start behind the kept instructions that precede their first transfer and may meet them (R173). -/
def holdRestored (s : State) (f : Nat) : State :=
  (List.range 8).foldl (fun s q =>
    match s.streamReg f q with
    | none => s
    | some r =>
      s.modCtx f fun c =>
        let n := (c.vq.takeWhile fun e => !(opOf e.word = 0x2C && bitsAt e.word 16 3 = q)).length
        { c with vq := c.vq.mapIdx fun k e =>
            let meets := (e.via.map fun v => View.meet (millOf f % 4) (millOf f % 4) v.desc r.desc).getD false
            if k < n && meets && decide (n < c.vq.length) then { e with holds := e.holds ++ [q] } else e }) s

/-- A gang that is restored whole: no member is still away, or as many stand in the bay as GCNT says. Its ranks are those of the new placement, and
its members are alone no longer (R453; log entry 47). `bay` is the bay that a member was saved in. -/
def completeSet (s : State) (f : Nat) (bay : Option Nat) : State :=
  match (s.ctx f).gang with
  | none => s
  | some g =>
    let ms := (bayContexts (bayOf f)).filter fun m => (s.ctx m).gang.map (·.number) = some g.number
    let missing := s.away.any fun a => a.part = s.partOf f && a.gang.map (·.1) = some g.number && some (bayOf a.flat) = bay
    if g.lone && !missing && (bay.isSome || decide (ms.length = g.count)) then
      ms.foldl (fun s m => s.modCtx m fun c =>
        { c with gang := c.gang.map fun x => { x with rank := rankIn ms m, lone := false } }) s
    else s

/-- The vector queue that a claim keeps, for a context: accesses that a draining entry counted are counted apart from those of the mill's directory. -/
def Away.queueFor (a : Away) (f : Nat) : List VqEntry :=
  a.queue.map fun e => { e with via := e.via.map fun v => { v with drain := v.drain.map fun k => 32 + 32 * f + k % 32 } }

/-- A thread restored into a context. Its convoy in flight begins as it is resumed (R459). An instruction that its image holds and that the saved context's
queue held at the same place is that of the queue (R142). -/
def restoreThread (s : State) (part f : Nat) (i : Image) : Option State :=
  let l := s.launchNamed part (i.csr 29)
  let key := (l.map (·.1)).getD 0
  if (millContexts (millOf f)).any fun g => decide ((s.ctx g).life ≠ .free) && decide ((s.ctx g).launch ≠ key) then none
  else
    let old := bitsAt (BitVec.ofNat 512 (i.wide 8 8)) 180 12
    let claim := s.claimOf part old key
    let c := i.thread
      { Ctx.reset with launch := key, code := (l.map fun x => x.2.code).getD Code.none, vq := (claim.map fun a => Away.queueFor a f).getD [] }
    let s1 := ((List.range 8).foldl (fun s q => s.restoreStream f i q) ((s.setCtx f c).alignGang f)).holdRestored f
    some (((s1.relink f old (cut (i 6) 48 16)).reclaim claim f).completeSet f (claim.map fun a => bayOf a.flat))

/-- Array a of a core's image (R460). -/
def loadArray (m : Mill) (i : Image) (a : Nat) : Mill :=
  let o := 512 + 0xA200 * a
  { m with
    rowpred := BitVec.ofNat 64 (i o), colpred := BitVec.ofNat 64 (i (o + 1)), planes := BitVec.ofNat 64 (i (o + 2))
    carries := Vector.ofFn fun t => BitVec.ofNat 4096 (i.wide (o + 8 + 64 * t.val) 64)
    active := BitVec.ofNat 262144 (i.wide (o + 0x200) 4096)
    shadow := BitVec.ofNat 262144 (i.wide (o + 0x1200) 4096)
    tiles := Vector.ofFn fun t => BitVec.ofNat 524288 (i.wide (o + 0x2200 + 0x2000 * t.val) 8192) }

/-- A core's context and the arrays of its bay taken from an image. -/
def loadCore (s : State) (f : Nat) (i : Image) (base : Ctx) : State :=
  let s1 := (List.range 4).foldl (fun s a => s.modMill (millOf f + a) fun m => loadArray m i a) s
  let m (a : Nat) : Mill := s1.mill (millOf f + a)
  s1.setCtx f
    { base with
      life := .stopped
      sregs := Vector.ofFn fun k => if k.val = 0 then 0 else BitVec.ofNat 64 (i (32 + k.val))
      pc := cut (i 2) 0 32
      fflags := (BitVec.ofNat 64 (i 64)).setWidth 5
      frm := (BitVec.ofNat 64 (i 65)).setWidth 3
      instret := BitVec.ofNat 64 (i 68)
      mcfg := BitVec.ofNat 64 (i 70)
      record := BitVec.ofNat 512 (i.wide 8 8)
      issue := Vector.ofFn fun a => (m a.val).asIssue
      issued := Vector.ofFn fun a => (m a.val).completed }

/-- A core program restored into a core. The bay's mills may hold no running context with a TILEEN bit set (R460). -/
def restoreCore (s : State) (part f : Nat) (i : Image) : Option State :=
  if (List.range 64).any fun n =>
      let c := s.ctx (64 * bayOf f + n)
      decide (c.life = .running) && decide (c.tileen ≠ 0) then none
  else
    let l := s.launchNamed part (cut (i 11) 0 32)
    let code := (l.map fun x => (⟨Desc.mcode x.2.desc, Desc.mcodelen x.2.desc, 0, 0, 0⟩ : Code)).getD Code.none
    let s1 := s.loadCore f i { Ctx.reset with launch := (l.map (·.1)).getD 0, code := code, launchid := BitVec.ofNat 32 (i 11) }
    some (s1.reclaim (s.claimOf part (bitsAt (s1.ctx f).record 180 12) ((l.map (·.1)).getD 0)) f)

/-- A restore of an image (R444, R458): the state, or its ERR code. -/
def restoreImage (s : State) (part f : Nat) (i : Image) : Except Nat State :=
  if !i.ok s.pkg (isCore f) then .error 2
  else
    match (if isCore f then s.restoreCore part f i else s.restoreThread part f i) with
    | some s1 => .ok s1
    | none => .error 1

/-- A restore from a virtual address. -/
def restoreAt (s : State) (part f va : Nat) : Except Nat State :=
  let i := s.readImage part va
  if !s.imagePages part va 64 .read then .error 3
  else if !s.imagePages part va (min i.size (2 ^ 24)) .read then .error 3
  else s.restoreImage part f i

/-! ### Resuming (R459) -/

/-- The pages of the streams bound in a context that no member's resumption has pinned again: the pins of each stream register, or the first fault. -/
def streamPins (s : State) (f : Nat) : Except Trap (List (StreamReg × Nat × List Pin)) :=
  (List.range 8).foldr (fun q acc =>
    match acc, s.streamReg f q with
    | .error t, _ => .error t
    | .ok l, none => .ok l
    | .ok l, some r =>
      if s.pins.any fun p => p.holder = .stream r.owner q then .ok l
      else
        match s.pagesOf (s.partOf f) (if r.write then .write else .read) r.desc with
        | .error t => .error t
        | .ok ps => .ok ((r, q, ps) :: l)) (.ok [])

/-- A stream pinned again: it is of the device class by its view or by a page (R148, R407). -/
def repin (s : State) (die : Nat) (x : StreamReg × Nat × List Pin) : State :=
  let (r, q, ps) := x
  (s.addPins (.stream r.owner q) die ps).modBinding r q fun b => { b with device := View.device r.desc || ps.any (·.device) }

/-- A stopped context continues from its kept state (R459): what it kept in the middle forms one new convoy. A page that cannot be pinned stops it
again, at the image's program counter; pins that do not fit are waited for (log entry 51). -/
def resume (s : State) (f : Nat) (stepping : Bool) : CxEnd :=
  let c := s.ctx f
  match s.streamPins f with
  | .error t =>
    let t1 := { t with faddr := t.faddr / 65536 * 65536 }
    let r := s.recordOf f t1 c.pc c.vstart 0 false
    .done ((s.setCtx f { c with record := r }).ringTrap (s.partOf f) t1.stage2 r)
  | .ok ps =>
    if !s.pinRoom (s.partOf f) (dieOf f) ((ps.flatMap (·.2.2)).map fun p => (p.page, p.size)) then .later s
    else
      let s1 := ps.foldl (fun s x => s.repin (dieOf f) x) s
      let same := bitsAt c.record 152 8 = 0x0D && bitsAt c.record 288 32 = (s.origin c c.pc).2.1 % 2 ^ 32
      let c1 : Ctx := { c.resumeConvoy with life := .running, wait := none, record := 0, passBreak := same, stepping := stepping, drafts := [] }
      .done { (s1.setCtx f c1) with
        jobs := s1.jobs.map fun (j : Job) => if j.by' = some f then { j with parked := false } else j }

/-! ### CXDATA (R461) -/

/-- The caps that a write of the GREPLAY dword (82) or of a GREPLAY value leaves held (R144). Each write loads one dword: the other values held stay, a
write of value n raises COUNT to n + 1 at least, and a larger COUNT takes zeros for the values not given (log entry 112). -/
def loadReplay (old : List Nat) (k : Nat) (v : Dword) : List Nat :=
  let padded := old ++ List.replicate 16 0
  if k = 82 then (bitsAt v 16 17 :: padded.drop 1).take (bitsAt v 0 5)
  else (padded.set (k - 96) v.toNat).take (max old.length (k - 95))

/-- Whether a dword is GREPLAY or one of its values. -/
def isReplay (k : Nat) : Bool := k = 82 || (96 ≤ k && k < 112)
/-- Whether the value written there is one R144 allows. -/
def replayOk (k : Nat) (v : Dword) : Bool :=
  if k = 82 then bitsAt v 0 5 ≤ 16 && bitsAt v 16 17 ≤ 65536 && Image.within v.toNat (Image.csrMask 18) else v.toNat ≤ 65536

/-- A dword with the fields that cannot be changed as they were; a write that would change one is refused. -/
def keptFields (k old v : Nat) : Nat :=
  match k with
  | 0 => old % 2 ^ 42 + v / 2 ^ 42 * 2 ^ 42
  | 1 => old
  | 4 => old
  | 5 => old % 2 ^ 32 + v / 2 ^ 32 * 2 ^ 32
  | 66 => old % 4 + v / 4 * 4
  | _ => v

/-- A write of dword k of a stopped thread, whose image with the new value is `i`. VSTART, dword 69, is that of the oldest kept instruction (R448). -/
def writeThread (s : State) (f k : Nat) (i : Image) (v : Dword) : State :=
  let c := s.ctx f
  let c1 := i.thread c
  let c2 : Ctx :=
    if isReplay k then { c1 with replay := loadReplay c.replay k v }
    else if k = 67 && v.toNat < c.vl then
      c1.groupBases.foldl (fun x n => x.voidGroup n (v.toNat * x.voidBytes n x.eb)) c1
    else if k = 6 then { c1 with parent := cut v.toNat 48 16 }
    else c1
  let c3 : Ctx :=
    if k = 69 then
      match c2.vq.findIdx? (·.begun) with
      | none => { c2 with vstart := v.toNat }
      | some j => { (c2.atPlace j fun e => { e with start := v.toNat }) with vstart := if j = 0 then v.toNat else c.vstart }
    else { c2 with vstart := if 512 ≤ k && k < 768 && !c2.vq.isEmpty then c2.vstart else c.vstart }
  let s1 := s.setCtx f { c3 with pc := if k = 2 then c3.pc else c.pc }
  if k = 6 then s1.completeSet f none
  else if (384 ≤ k && k < 512) || 24320 ≤ k then (List.range 8).foldl (fun s q => s.rewriteStream f i q) s1
  else s1

/-- A CXDATA write. -/
def cxWrite (s : State) (part : Nat) (v : Dword) : State :=
  let f := s.selected part
  let k := bitsAt (s.reg (.cx part) 0x20) 3 29
  if !s.belongs part f then s.setErr part 3
  else
    match (s.ctx f).life with
    | .running => s.setErr part 1
    | .free =>
      if isCore f || !isReplay k then s.setErr part 1
      else if !replayOk k v then s.setErr part 2
      else (s.modCtx f fun c => { c with replay := loadReplay c.replay k v }).setErr part 0
    | .stopped =>
      let s1 := s.settleImage f
      let old := s1.image f
      let w := v.toNat
      let i : Image := fun j => if j = k then w else old j
      if (old.size ≤ 8 * k) || keptFields k (old k) w ≠ w || !i.ok s.pkg (isCore f) || (isReplay k && !isCore f && !replayOk k v) then s1.setErr part 2
      else
        let s2 :=
          if isCore f then (s1.loadCore f i (s1.ctx f)).modCtx f fun c => { c with pc := if k = 2 then c.pc else (s1.ctx f).pc }
          else s1.writeThread f k i (BitVec.ofNat 64 w)
        s2.setErr part 0

/-- A CXDATA read. -/
def cxRead (s : State) (part : Nat) : State :=
  let f := s.selected part
  let k := bitsAt (s.reg (.cx part) 0x20) 3 29
  if !s.belongs part f then s.setErr part 3
  else
    match (s.ctx f).life with
    | .running => s.setErr part 1
    | .free =>
      if isCore f || !isReplay k then s.setErr part 1 else (s.answer (.data (s.threadDword f k))).setErr part 0
    | .stopped =>
      let s1 := s.settleImage f
      if s1.imageSize f ≤ 8 * k then s1.setErr part 2 else (s1.answer (.data (s1.image f k))).setErr part 0

/-! ### Debug stops (R489, R493) -/

/-- Whether breakpoint n of a context's partition matches the word the context is about to execute. -/
def breakMatch (s : State) (f n : Nat) : Bool :=
  let b := s.reg (.cx (s.partOf f)) (0x80 + 8 * n)
  let c := s.ctx f
  let (tag, pc, _) := s.origin c c.pc
  bitAt b 63 && bitAt b 62 = isCore f && (bitAt b 60 || bitsAt b 32 12 = f) && bitsAt b 0 32 = pc &&
  (c.splice.isEmpty || bitsAt b 61 1 = tag)

/-- The lowest breakpoint that matches. -/
def breakAt (s : State) (f : Nat) : Option Nat := (List.range 8).find? fun n => s.breakMatch f n

/-- Whether the convoy in flight of an agent has drained, no `vfetch` of it runs, and no matrix operation of a core is
queued. After a step, every instruction pushed has completed. A drain that has met a trap is over (R494). -/
def drained (s : State) (f : Nat) : Bool :=
  let c := s.ctx f
  (c.late.isSome && decide (c.debugReq ≠ 0)) ||
    (decide (c.convoyLeft = 0) && c.blocks.isNone && (c.quiet || c.debugReq ≠ 3) && s.matIdle f)

/-- The debug stop that is due takes place. -/
def debugDrained (s : State) (f : Nat) : State :=
  let c := s.ctx f
  if c.life = .running && c.debugReq ≠ 0 && s.drained f then
    s.debugStop f c.debugReq (if c.debugReq = 4 then c.matched else 0) 0
  else s

/-! ### Kill (R419, R420) -/

/-- A job that a kill or a destroy ends: it stops at an element boundary and completes with status 5 (R228), and its fold slot closes. -/
def cancelJob (s : State) (j : Job) : State :=
  let s1 := s.completeJob j 5 0 (j.off * j.size)
  { s1 with folds := s1.folds.filter fun x => x.job ≠ j.id }

/-- The jobs a context appended complete with status 5, and its cards not yet read will (R228). -/
def killJobs (s : State) (f : Nat) : State :=
  let s1 := (s.jobs.filter fun j => j.by' = some f).foldl cancelJob s
  State.openSlots
    { s1 with appended := s1.appended.map fun (a : Appended) => if a.by' = some f then { a with killed := true } else a }

/-- A context stops and loses its work, and its unjoined children with it; it is freed by KILL_DONE. -/
def killContext (s : State) : Nat → Nat → State
  | 0, _ => s
  | n + 1, f =>
    if (s.ctx f).life = .free then s
    else
      let kids := (millContexts (millOf f)).filter fun g =>
        !isCore f && g ≠ f && (s.ctx g).life ≠ .free && (s.ctx g).parent = f + 1
      let s1 := kids.foldl (fun s g => killContext s n g) s
      let s2 :=
        if isCore f then (List.range 4).foldl (fun s a => s.modMill (millOf f + a) fun m =>
          { m with queue := [], completed := m.completed + m.queue.length }) s1
        else s1
      let s3 := s2.modCtx f fun c =>
        { c with
          life := .stopped, vq := [], convoyLeft := 0, convoyHead := 0, convoyCount := 0, slotted := 0, order := [], blocks := none, latch := none,
          scan := none, xq := [], xfail := [], raises := [], matErr := none, wait := none, late := none, arrived := none, debugReq := 0 }
      let s4 := ((s3.unbindAll f).killJobs f).releasePins f
      let s5 := s4.modCtx f fun c => { c with views := .replicate 16 none }
      if s5.kills.contains f then s5 else { s5 with kills := s5.kills ++ [f] }

/-- A killed context is freed: its launch is marked (R432), and a parent that waits for it goes on. A context that was free when it was killed stands
among `kills` under its number above 4,095, and stays as it is. -/
def freeKilled (s : State) (f : Nat) : State :=
  let s0 := { s with kills := s.kills.filter (· ≠ f) }
  if 4096 ≤ f then s0
  else
    let c := s0.ctx f
    let s1 :=
      match s0.launchOf c.launch with
      | some l => s0.setLaunch c.launch { l with kind := if l.kind = 0 then 5 else l.kind, ended := l.ended ++ [millOf f] }
      | none => s0
    let s2 :=
      if c.parent = 0 || 65536 ≤ c.parent then s1
      else s1.modCtx (c.parent - 1) fun p => { p with exited := p.exited ++ [f + 1] }
    s2.freeContext f

/-- The kills of a partition under way. -/
def killsOf (s : State) (part : Nat) : List Nat := s.kills.filter fun f => s.partOf (f % 4096) = part

/-- Whether every job a killed context appended has completed. -/
def killSettled (s : State) (f : Nat) : Bool :=
  !(s.appended.any fun a => a.by' = some f) && !(s.jobs.any fun j => j.by' = some f)

end State

/-! ### Events -/

/-- Whether the saves of a hold wait for the kills under way (R466). -/
def State.savesWait (s : State) : Bool := s.holdState = 1 && !s.kills.isEmpty

/-- A save of the agent `f` (R444 OP 2, R453, R454). -/
def State.cxSave (s : State) (part f : Nat) : CxEnd :=
  if !s.standing f then .refused 1
  else if s.savesWait || s.rangeBusy part (s.reg (.cx part) 0x18).toNat (s.imageSize f) then .later s
  else
    match s.saveAt part f (s.reg (.cx part) 0x18).toNat with
    | none => .refused 3
    | some s1 => .done s1

/-- A resumption of the agent `f`, or a step of it (R444 OP 4, R459, R493). -/
def State.cxResume (s : State) (f : Nat) (stepping : Bool) : CxEnd := if s.standing f then s.resume f stepping else .refused 1

open State

/-- CX_STOP (R444 OP 1, R450). A stop that arrives while the agent's own stop is under way completes with it (R447, R494). -/
def execCxStop (part : Nat) (s : State) : Out :=
  .next (s.cxCommand part 1 fun f c =>
    if c.life ≠ .running then .refused 1 else if stopsItself c then .later s else .done (s.preempt f))

/-- CX_SAVE (R444 OP 2). -/
def execCxSave (part : Nat) (s : State) : Out := .next (s.cxCommand part 2 fun f _ => s.cxSave part f)

/-- CX_RESTORE (R444 OP 3, R458). -/
def execCxRestore (part : Nat) (s : State) : Out :=
  .next (s.cxCommand part 3 fun f c =>
    if c.life ≠ .free then .refused 1
    else
      match s.restoreAt part f (s.reg (.cx part) 0x18).toNat with
      | .error e => .refused e
      | .ok s1 => .done s1)

/-- CX_RESUME (R444 OP 4). -/
def execCxResume (part : Nat) (s : State) : Out := .next (s.cxCommand part 4 fun f _ => s.cxResume f false)

/-- CX_COMMAND_COMPLETE (R444): BUSY falls once the command is done. A stop that met a drain waits for its end, a save for the kills of a hold, and a
resumption for room for its pins. -/
def execCxCommandComplete (part : Nat) (s : State) : Out :=
  .next (
    let (op, f) := s.cxPending part
    let again (r : CxEnd) : State :=
      match r with
      | .later _ => s
      | .refused e => ((s.setErr part e).setPending part 0 0).setBusy part 0
      | .done s1 => (s1.setPending part 0 0).setBusy part 0
    match op with
    | 1 =>
      if stopsItself (s.ctx f) then s
      else again (.done (if (s.ctx f).life = .running && (s.ctx f).late.isSome then s.stopLate f else s))
    | 2 => again (s.cxSave part f)
    | 4 => again (s.cxResume f false)
    | 5 => again (s.cxResume f true)
    | _ => s.setBusy part 0)

/-- CXDATA_READ (R461). -/
def execCxdataRead (part : Nat) (s : State) : Out := .next (s.cxRead part)
/-- CXDATA_WRITE (R461, R144). -/
def execCxdataWrite (part : Nat) (v : Dword) (s : State) : Out := .next (s.cxWrite part v)

/-- DEBUG_STOP_CMD (R492, R493): the agent issues nothing further, and stops when its convoy has drained. An agent whose own stop is under way stops by
that one (R494). -/
def execDebugStopCmd (part : Nat) (s : State) : Out :=
  .next (
    let f := s.selected part
    if !s.belongs part f then s.setErr part 3
    else if (s.ctx f).life ≠ .running then s.setErr part 1
    else if stopsItself (s.ctx f) then s
    else if (s.ctx f).late.isSome then s.stopLate f
    else s.modCtx f fun c => { c with debugReq := 2 })

/-- DEBUG_STEP (R492, R493): a resumption that ends in a debug stop after one instruction. -/
def execDebugStep (part : Nat) (s : State) : Out := .next (s.cxCommand part 5 fun f _ => s.cxResume f true)

/-- DEBUG_STOP_DRAINED (R493). -/
def execDebugStopDrained (flat : Nat) (s : State) : Out := .next (s.debugDrained flat)

/-- BREAKPOINT_HIT (R489): the agent issues nothing further, and stops once its convoy has drained. Where a vector trap waits for its stop, that stop
satisfies this one (R494), and the scalar instructions before it go on (R449). -/
def execBreakpointHit (flat : Nat) (s : State) : Out :=
  .next (
    let c := s.ctx flat
    match s.breakAt flat with
    | some n =>
      if c.life = .running && c.debugReq = 0 && !c.passBreak then
        if c.late.isSome then s.setCtx flat { c with passBreak := true }
        else (s.setCtx flat { c with debugReq := 4, matched := n }).debugDrained flat
      else s
    | none => s)

/-- KILL (R419, steps 1 to 5), of a context and its descendants, at most the 16 contexts of its mill. A free context has nothing to lose. -/
def execKill (part flat : Nat) (s : State) : Out :=
  .next (
    if !s.belongs part flat then s
    else
      let s1 := s.setReg (.trans part) 0x30 (BitVec.ofNat 64 flat)
      if (s.ctx flat).life = .free then { s1 with kills := s1.kills ++ [4096 + flat] } else s1.killContext 17 flat)

/-- KILL_DONE (R419, steps 6 and 7): each killed context is freed once its jobs have completed, and DONE is set with the
last of them. -/
def execKillDone (part : Nat) (s : State) : Out :=
  .next (
    let s1 := ((s.killsOf part).filter s.killSettled).foldl (fun s f => s.freeKilled f) s
    if (s.killsOf part).isEmpty || !(s1.killsOf part).isEmpty then s1 else s1.setField (.trans part) 0x30 62 1 1)

end Sys2Proof.Machine
end

