-- ==== Sys2Proof/Machine/Platform.lean ====
section
/-! DEFINITION. The windows of the hypervisor and the resident kernels: writes and reads of registers, partitions, shoot-downs and their log, queue
slots, and the regulator map (R6, R21, R280, R400 to R404, R409, R411, R413 to R418, R436, R487, R488, R498). -/

namespace Sys2Proof.Machine

/-- Whether a window exists. -/
def Window.valid (w : Window) (granules : Nat) : Bool :=
  let isPart (n : Nat) : Bool := 1 ≤ n && n ≤ 36
  match w with
  | .part n => isPart n
  | .trans n => isPart n
  | .cx n => isPart n
  | .chain n die ch => isPart n && decide (die < 4) && decide (ch < 64)
  | .splice n die => isPart n && decide (die < 4)
  | .queue die slot => decide (die < 4) && decide (slot < 64)
  | .hold => true
  | .lease die => decide (die < 4)
  | .regmap => true
  | .dsense d => decide (d < 4)
  | .dtarget d => decide (d < 4)
  | .millcal m => decide (m < 144)
  | .energy n => decide (n ≤ 36)
  | .ready => true
  | .start n => decide (n < 64)
  | .tier g => decide (g < granules)

namespace State

/-- 64 KiB granules of the installed capacity (R411). -/
def granules (s : State) : Nat := s.installed / 65536
/-- Frames of HBM4, which come first: 64 GiB for each stack that the start has trained (R411, R480). -/
def hbmFrames (s : State) : Nat := 2 ^ 20 * s.fitted.length
/-- A tier-map entry (R411): before any migration a granule stands in the frame of its own number. -/
def granule (s : State) (g : Nat) : Granule := s.tiers.getD g ⟨0, decide (s.hbmFrames ≤ g), g⟩

/-! ### Partitions that hold bays -/

/-- Partitions whose STATE is not 0. -/
def parts (s : State) : List Nat := ((List.range 36).map (· + 1)).filter fun n => s.partState n ≠ 0
/-- Bays in PBAYS. -/
def wantedBays (s : State) (n : Nat) : List Nat := (List.range 36).filter fun b => bitAt (s.reg (.part n) 0x08) b

/-- Σ LIMd over the partitions whose STATE is not 0, with one PPIN replaced (R409). -/
def pinSum (s : State) (n : Nat) (v : Dword) (die : Nat) : Nat :=
  s.parts.foldl (fun t k => t + bitsAt (if k = n then v else s.reg (.part k) 0x18) (16 * die) 13) 0

/-! ### The regulator map (R498) -/

/-- Regulator of a bay by the map. -/
def mapOf (s : State) (bay : Nat) : Nat := bitsAt (s.reg .regmap (if bay < 32 then 0x00 else 0x08)) (2 * (bay % 32)) 2
/-- Regulator that a bay is connected to. -/
def regulatorOf (s : State) (bay : Nat) : Nat := s.regulators.getD bay (bay / 9)

/-- Whether a domain would hold bays of two partitions while at most four hold bays (R21). -/
def mapShares (s : State) : Bool :=
  let owned := (List.range 36).filter fun b => s.ownerOf b ≠ 0
  decide ((owned.map s.ownerOf).eraseDups.length ≤ 4) &&
  owned.any fun a => owned.any fun b => s.ownerOf a ≠ s.ownerOf b && s.mapOf a = s.mapOf b

/-- A write of the map: taken in, or ignored whole. -/
def writeRegmap (s : State) (hi : Bool) (v : Dword) : State :=
  let off := if hi then 0x08 else 0x00
  let s1 := s.setReg .regmap off (maskedWrite (s.reg .regmap off) (Window.info .regmap off) v)
  if s1.mapShares then s else s1

/-- Whether every context of a bay and its matrix control core are free or stopped. -/
def bayStill (s : State) (bay : Nat) : Bool :=
  (bayContexts bay ++ [2304 + bay]).all fun f => (s.ctx f).life ≠ .running

/-- The switch matrix moves a bay to the regulator that the map names (R280). -/
def moveBay (s : State) (bay : Nat) : State :=
  if bay < 36 && s.regulatorOf bay ≠ s.mapOf bay && s.bayStill bay then
    { s with regulators := s.regulators.put bay (s.mapOf bay) }
  else s

/-! ### Writing a register (R6) -/

/-- A field that keeps its old value when the one written is not allowed. -/
def keepUnless (ok : Bool) (old v : Dword) (lo n : Nat) : Dword := if ok then v else setBits v lo n (bitsAt old lo n)

/-- A ring's LOGN: a write of 9 to 15 is ignored. -/
def ringWrite (old v : Dword) : Dword := keepUnless (bitsAt v 0 4 < 9) old v 0 4

/-- CHCFG (R219). -/
def chainWrite (busy : Bool) (old v : Dword) : Dword :=
  let v1 := keepUnless (bitsAt v 12 4 < 9) old v 12 4
  let v2 := keepUnless (bitsAt v 8 4 < 9) old v1 8 4
  let v3 := keepUnless (bitsAt v 4 4 < 13) old v2 4 4
  keepUnless (!busy) old v3 4 12

/-- The value that a write leaves to be masked: fields whose maps withhold it keep their own. -/
def writable (s : State) (w : Window) (off : Nat) (v : Dword) : Dword :=
  let old := s.reg w off
  match w, off with
  | .cx _, 0x30 => ringWrite old v
  | .cx _, 0x68 => ringWrite old v
  | .part _, 0x100 => ringWrite old v
  | .part _, 0xC0 => ringWrite old v
  | .trans _, 0x40 => ringWrite old v
  | .splice _ _, 0x10 => ringWrite old v
  | .chain n die ch, 0x00 => chainWrite (s.reg (.chain n die ch) 0x10 ≠ 0) old v
  | .dtarget _, 0x00 =>
    keepUnless (600 ≤ bitsAt v 32 12 && bitsAt v 32 12 ≤ 1450) old
      (keepUnless (420 ≤ bitsAt v 22 10 && bitsAt v 22 10 ≤ 620) old v 22 10) 32 12
  | .millcal _, 0x00 => keepUnless (bitsAt v 32 32 ≠ 0) old v 32 32
  | .hold, 0x00 =>
    keepUnless (bitsAt v 48 8 ≠ 0) old (keepUnless (1 ≤ bitsAt v 16 6 && bitsAt v 16 6 ≤ 50) old v 16 6) 48 8
  | _, _ => v

/-- Whether a write is ignored whole. -/
def writeIgnored (s : State) (w : Window) (off : Nat) (v : Dword) : Bool :=
  match w, off with
  | .part n, 0x08 => s.partState n ≠ 0
  | .part n, 0x18 => s.partState n ≠ 0 && (List.range 4).any fun d => 4096 < s.pinSum n v d
  | .chain n die ch, 0x08 => s.reg (.chain n die ch) 0x10 ≠ 0
  | .splice n _, o => (o = 0x00 || o = 0x08) && s.launches.any fun e => e.2.part = n && e.2.state = .placed && e.2.splice ≠ []
  | _, _ => false

/-- Whether a write is an act of authority (R474). -/
def actOfAuthority (s : State) (w : Window) (v : Dword) : Bool :=
  match w with
  | .hold => true
  | .millcal _ => true
  | .dtarget d => bitsAt v 44 20 ≠ bitsAt (s.reg (.dtarget d) 0x00) 44 20
  | _ => false

/-- The target in force in a domain: TGT, or the floor while none has been written since the cold boot or for 3 ms (R283). -/
def targetOf (s : State) (d : Nat) : Nat :=
  let t := s.reg (.dtarget d) 0x00
  let old := (s.targetTimes.find d).any fun x => x.toNat + 3000000 ≤ s.gtime.toNat
  if s.noTarget.contains d || old then bitsAt t 44 20 else bitsAt t 0 22

/-- The bounds of R281 on a target, at a set point. -/
def clampTarget (s : State) (d vmv want : Nat) : Nat :=
  let ima := bitsAt (s.reg (.dsense d) 0x00) 0 24
  let t := min want (1100 * vmv / 100)
  min (if 11000 < ima then min t (s.targetOf d * 11000 / ima) else t) (2 ^ 22 - 1)

/-- A BIND of a slot (R417, R418), by a front end in service. -/
def bindSlot (s : State) (die slot : Nat) : State :=
  if 4 ≤ die || 64 ≤ slot || s.fenced.contains die || s.asleep then s else s.bindQueue die slot

/-- A write to a register. A TGT keeps the bounds of R281. -/
def registerWrite (s : State) (w : Window) (off : Nat) (v : Dword) (epoch : Nat) : State :=
  if !w.valid s.granules || s.writeIgnored w off v then s
  else if s.actOfAuthority w v && epoch ≠ s.epoch then s.answer (.refused s.epoch)
  else
    match w with
    | .regmap => s.writeRegmap (off = 0x08) v
    | .tier g => if v.toNat ≤ 36 then { s with tiers := s.tiers.put g { s.granule g with owner := v.toNat } } else s
    | .queue die slot =>
      if off = 0x20 then (if bitAt v 7 then s.modQueue die slot fun q => { q with ovf := false } else s)
      else if off = 0x10 then
        -- HOLD is cleared before a bind that the same write asks for (log entry 94)
        let s1 := if bitAt v 1 then s.clearHold die slot else s
        if bitAt v 63 then s1.bindSlot die slot else s1
      else s.setReg w off (maskedWrite (s.reg w off) (w.info off) v)
    | .dtarget d =>
      let x := maskedWrite (s.reg w off) (w.info off) (s.writable w off v)
      s.setReg w off (if off = 0 then setBits x 0 22 (s.clampTarget d (bitsAt x 22 10) (bitsAt x 0 22)) else x)
    | w => s.setReg w off (maskedWrite (s.reg w off) (w.info off) (s.writable w off v))

/-! ### Shoot-down (R413 to R415, R179) -/

/-- Whether a request names a pinned translation: by its virtual page, or at stage 2 by an intermediate page it was built
through. -/
def names (i : Inval) (p : Pin) : Bool :=
  p.part = i.part && (if i.stage2 then inRange i p.ipa p.size || p.tables.any fun a => inRange i a 8
    else inRange i p.page p.size)

/-- A pin that a request waits for from now on. -/
def markPin (i : Inval) (p : Pin) : Pin := if names i p then { p with inval := true } else p

/-- Pin holders that a request waits for. -/
def blockers (s : State) (i : Inval) : Nat :=
  ((s.pins.filter fun p => p.inval && names i p).map (·.holder)).eraseDups.length +
  (s.agents.flatMap fun e => (e.2.xq.filterMap (·.pin)).filter fun p => p.inval && names i p).length

/-- Requests queued and not complete. -/
def invalsOf (s : State) (part : Nat) (stage2 : Bool) : List Inval :=
  s.invals.filter fun i => i.part = part && i.stage2 = stage2

/-- The window and the offset of INVADDR. -/
def invWindow (part : Nat) (stage2 : Bool) : Window × Nat := if stage2 then (.part part, 0x80) else (.trans part, 0x10)

/-- A request is queued, and begins: what is pinned now is waited for, and every later walk reads the tables afresh. -/
def beginInval (s : State) (i : Inval) : State :=
  { s with
    invals := s.invals ++ [i]
    pins := s.pins.map (markPin i)
    agents := s.agents.map fun e => (e.1, { e.2 with xq := e.2.xq.map fun (x : XqEntry) => { x with pin := x.pin.map (markPin i) } }) }

/-- GO: the request of INVADDR and INVCNT is queued. While eight are pending the write waits until PEND falls (R414). -/
def invalidate (s : State) (part : Nat) (stage2 : Bool) (die core : Nat) : State :=
  let (w, o) := invWindow part stage2
  let i : Inval := ⟨part, stage2, (s.reg w o).toNat, (s.reg w (o + 8)).toNat, die, core⟩
  if 8 ≤ (s.invalsOf part stage2).length then { s with invalWaits := s.invalWaits ++ [i] } else s.beginInval i

/-- The first write of GO that waits is taken. -/
def takeInval (s : State) (part : Nat) (stage2 : Bool) : State :=
  match s.invalWaits.find? fun i => i.part = part && i.stage2 = stage2 with
  | none => s
  | some i => ({ s with invalWaits := s.invalWaits.erase i } : State).beginInval i

/-- A record of the page-table log (R488). -/
def logRecord (s : State) (shoot stage2 : Bool) (page pages die core stall : Nat) : Nat :=
  b2n shoot + b2n stage2 * 2 + core % 4 * 2 ^ 4 + die % 4 * 2 ^ 6 + pages % 2 ^ 33 * 2 ^ 39 + page % 2 ^ 56 * 2 ^ 72 +
  stall % 2 ^ 64 * 2 ^ 128 + s.gtime.toNat * 2 ^ 192

/-- A record written into the page-table log (R487). -/
def logPut (s : State) (part : Nat) (stage2 : Bool) (r : Nat) : State :=
  let (w, o) := if stage2 then (Window.part part, 0xC0) else (Window.trans part, 0x40)
  let base := s.reg w o
  let cnt := (s.reg w (o + 0x08)).toNat
  let size := ringSize base
  match s.ringStore part stage2 (bitsAt base 12 52 * 4096 + 32 * (cnt % size)) 32 r with
  | some s1 => (if overwrites cnt size (s.reg w (o + 0x10)).toNat then s1.setField w (o + 0x18) 0 1 1 else s1).bump w (o + 0x08)
  | none => s.setField w (o + 0x18) 0 1 1

/-- Whether a request covers a word that a walk has read: every page that the word mapped in that walk. -/
def covers (i : Inval) (w : Walked) : Bool :=
  w.part = i.part && w.stage2 = i.stage2 && (i.pages = 0 || (i.page ≤ w.page && w.page + w.pages ≤ i.page + i.pages))

/-- The oldest request completes once no holder of a pin it named is left. The system core that issued it is interrupted. -/
def completeInval (s : State) (part : Nat) (stage2 : Bool) : State :=
  match s.invalsOf part stage2 with
  | [] => s
  | i :: _ =>
    if s.blockers i ≠ 0 then s
    else
      let (w, o) := invWindow part stage2
      let s1 := { s with invals := s.invals.erase i, walked := s.walked.filter fun x => !covers i x }
      let (n, s2) := ((s1.bump w (o + 0x18)).interrupt (.invalidated part stage2 i.die i.core)).freshNumber
      (s2.logPut part stage2 (s2.logRecord true stage2 i.page i.pages i.die i.core (Config.timing n))).takeInval part stage2

/-- What a walk since the last shoot-down that covers it has read as a table entry at an address: of several ranges that it mapped, the one named, or the
oldest (log entry 121). -/
def walkedAt (s : State) (part : Nat) (stage2 : Bool) (addr page pages : Nat) : Option Walked :=
  let ws := s.walked.filter fun w => w.part = part && w.stage2 = stage2 && w.word = addr
  (ws.find? fun w => w.page = page && w.pages = pages).or ws.head?

/-- A system core's write to a table entry performs, and is logged where a walk has read the word (R488). -/
def editTable (s : State) (part : Nat) (stage2 : Bool) (addr : Nat) (v : Dword) (page pages die core : Nat) : State :=
  let log (s : State) : State :=
    match s.walkedAt part stage2 addr page pages with
    | none => s
    | some w => s.logPut part stage2 (s.logRecord false stage2 w.page w.pages die core 0)
  if addr % 8 ≠ 0 then s
  else if stage2 then (if s.installed ≤ addr then s else log { s with dev := s.dev.write addr 8 v.toNat })
  else
    match s.stage2 part addr .write with
    | .error _ => s
    | .ok (pa, _) => if s.granuleOwner pa ≠ part then s else log { s with dev := s.dev.write pa 8 v.toNat }

/-! ### Reading a register -/

/-- The READY1 register: LEASE shows whether a lease is valid now (R481). -/
def ready1 (s : State) : Dword := setBits (s.reg .ready 0x08) 26 1 (b2n s.leaseValid)

/-- Whether a die's firmware core has written its heartbeat within the last 1 ms (R473). -/
def heard (s : State) (d : Nat) : Bool := decide (s.gtime.toNat < (s.heartbeats.getD d 0).toNat + 1000000)

/-- The HEALTH register of a replica, as it shows now. -/
def healthNow (s : State) (d : Nat) : Dword :=
  (List.range 4).foldl (fun v x => if s.heard x then v else setBits v x 1 0) (s.reg (.lease d) 0x10)

/-- What a read of a register returns (R6), with the fields that show the state of other parts of the device. QFREE and CXDATA
are read by events of their own. -/
def readRegister (s : State) (w : Window) (off : Nat) : Dword :=
  let invctl (part : Nat) (stage2 : Bool) : Dword :=
    let l := s.invalsOf part stage2
    BitVec.ofNat 64 (l.length * 2 ^ 32 + ((l.head?.map s.blockers).getD 0))
  match w, off with
  | .trans n, 0x20 => invctl n false
  | .part n, 0x90 => invctl n true
  | .cx _, 0x08 => 0
  | .cx n, 0x108 => BitVec.ofNat 64 (s.ctx (s.selected n)).dbgstat
  | .cx n, 0x10 =>
    let f := s.selected n
    let life := if !s.belongs n f then 0 else
      match (s.ctx f).life with
      | .free => 0
      | .running => 1
      | .stopped => 2
    setBits (s.reg w off) 2 2 life
  | .queue die slot, 0x10 =>
    let q := s.queue die slot
    BitVec.ofNat 64 (q.reason * 2 ^ 8 + b2n q.hold * 2 + b2n q.live)
  | .queue die slot, 0x20 =>
    let q := s.queue die slot
    BitVec.ofNat 64 (b2n q.ovf * 2 ^ 7 + q.free.length)
  | .ready, 0x08 => s.ready1
  | .lease d, 0x10 => s.healthNow d
  | .tier g, _ => BitVec.ofNat 64 (s.granule g).owner
  | _, _ => s.reg w off

/-! ### Partitions (R402 to R404) -/

/-- A mill with the array state of its Reset values (R361, R403). What it counts and how it is built stay. -/
def clearMill (x : Mill) : Mill :=
  { x with
    tiles := Mill.reset.tiles, carries := Mill.reset.carries, active := 0, shadow := 0, rowpred := Mill.reset.rowpred,
    colpred := Mill.reset.colpred, planes := 0, queue := [], completed := 0, ports := [] }

/-- Step 2 of R403 on one bay: scratchpads, tag tables, vector files and arrays. -/
def clearBay (s : State) (bay : Nat) : State :=
  let s1 := { s with
    scr := s.scr.clear (scrAddr bay 0) (scrAddr (bay + 1) 0)
    tags := s.tags.filter fun e => e.1 / 16384 ≠ bay
    agents := s.agents.filter fun e => bayOf e.1 ≠ bay }
  (List.range 4).foldl (fun s m => s.modMill (4 * bay + m) clearMill) s1

/-- Step 3 of R403: counters and ENERGY. -/
def clearCounters (s : State) (n : Nat) (bays : List Nat) : State :=
  { s with counters := s.counters.filter fun e =>
      if e.1 < 2304 then !bays.contains (e.1 / 64) else (e.1 - 2304) / 256 ≠ n }.setReg (.energy n) 0 0

/-- Step 4 of R403: every chain and splice window of a partition at its reset values. -/
def clearChains (s : State) (n : Nat) : State :=
  let mine (k : Nat) : Bool :=
    (List.range 4).any fun die =>
      k = (Window.splice n die).key || (decide ((Window.chain n die 0).key ≤ k) && decide (k < (Window.chain n die 0).key + 64))
  { s with regs := s.regs.filter fun e => !mine (e.1 / 4096), appended := s.appended.filter fun a => a.part ≠ n }

/-- LIMd for a set of bays (R403 step 5). -/
def pinLimits (bays : List Nat) : Nat :=
  (List.range 4).foldl (fun t d => t + 455 * (bays.filter fun b => b / 9 = d).length * 2 ^ (16 * d)) 0

/-- PARTITION_CREATE (R403). The bays of a partition whose STATE is not 0 belong to a partition already. -/
def createPart (s : State) (n : Nat) : State :=
  let w := Window.part n
  let bays := s.wantedBays n
  if n = 0 || 36 < n then s
  else if bays.isEmpty then s.setField w 0x00 8 2 2
  else if s.partState n ≠ 0 || bays.any fun b => s.ownerOf b ≠ 0 then s.setField w 0x00 8 2 1
  else
    let s1 := { s with owners := bays.foldl (fun o b => o.put b n) s.owners }
    let s2 := bays.foldl (fun s b => s.moveBay b) s1
    let s3 := (bays.foldl (fun s b => s.clearBay b) s2).clearCounters n bays
    let s4 := (s3.clearChains n).setReg w 0x18 (BitVec.ofNat 64 (pinLimits bays))
    let mask := bays.foldl (fun t b => t + 2 ^ b) 0
    { s4 with keys := s4.keys.put n ⟨s4.creates + 1, mask, s4.gtime⟩, creates := s4.creates + 1 }.setField w 0x00 0 2 2

/-- Every context and core program of a partition killed and freed (R404 step 1); a launch that ends so completes. -/
def killPart (s : State) (n : Nat) : State :=
  let fs := (s.agents.filter fun e => s.partOf e.1 = n && e.2.life ≠ .free).map (·.1)
  let s1 := fs.foldl (fun s f => s.killContext 17 f) s
  let s2 := fs.foldl (fun s f => if (s.ctx f).life = .free then s else s.freeKilled f) { s1 with away := s1.away.filter (·.part ≠ n) }
  s2.launches.foldl (fun s e =>
    if e.2.part ≠ n then s
    else if s.launchOver e.1 e.2 then s.finishLaunch e.1 e.2
    else { s with launches := s.launches.erase e.1 }) s2

/-- An appended card that no engine has read completes as a job with status 5 (log entry 42). One that cannot be read is no job (R225). -/
def cancelCard (s : State) (a : Appended) : State :=
  match s.readWord a.part a.addr 64 with
  | .error _ => s
  | .ok bits =>
    let card : Line := BitVec.ofNat 512 bits
    let eng := bitsAt (s.reg (.chain a.part a.die a.chain) 0x00) 12 4
    let s1 := { (s.popCard a.part a.die a.chain a.addr card) with nextJob := s.nextJob + 1 }
    s1.completeJob ⟨s.nextJob, a.part, a.die, a.chain, eng, card, a.addr, a.flat, a.by', [], 0, none, false, false⟩ 5 0 0

/-- Every request of a partition completes (R414): its holders are gone. -/
def endInvals (s : State) (n : Nat) : State :=
  [false, true].foldl (fun s g =>
    (List.range ((s.invals ++ s.invalWaits).filter fun i => i.part = n && i.stage2 = g).length).foldl (fun s _ => s.completeInval n g) s) s

/-- Step 2 of R404: every job of a partition completes with status 5, its queue slots and translations go, and its shoot-downs complete. A peer's
contribution that is held finds no partition of its tag. -/
def releasePart (s : State) (n : Nat) : State :=
  let s1 := (s.jobs.filter fun j => j.part = n).foldl cancelJob s
  let s2 := (s1.appended.filter fun a => a.part = n).foldl cancelCard s1
  let s3 := s2.queues.foldl (fun s e => if e.2.part = n && e.2.live then s.unbindQueue (e.1 / 64) (e.1 % 64) else s) s2
  let s4 := (s3.held.filter fun c => c.part = n).foldl (fun s c => s.settleSend c 1) s3
  let s5 : State := { s4 with
    held := s4.held.filter (·.part ≠ n), appended := s4.appended.filter (·.part ≠ n), pins := s4.pins.filter (·.part ≠ n)
    books := s4.books.filter (·.part ≠ n) }
  s5.endInvals n

/-- PARTITION_DESTROY (R404). -/
def destroyPart (s : State) (n : Nat) : State :=
  if n = 0 || 36 < n || s.partState n ≠ 2 then s
  else
    let bays := s.baysOf n
    let s1 := (s.killPart n).releasePart n
    let s2 := (bays.foldl (fun s b => s.clearBay b) s1).clearCounters n bays
    { s2 with
      owners := bays.foldl (fun o b => o.erase b) s2.owners, keys := s2.keys.erase n,
      kills := s2.kills.filter fun f => !bays.contains (bayOf (f % 4096)) }.setField (.part n) 0x00 0 2 0

end State

/-! ### Events -/

/-- REGISTER_WRITE (R6, R7). -/
def execRegisterWrite (w : Window) (off : Nat) (v : Dword) (epoch : Nat) (s : State) : Out :=
  .next (s.registerWrite w off v epoch)

/-- PARTITION_CREATE (R403). -/
def execPartitionCreate (part : Nat) (s : State) : Out := .next (s.createPart part)
/-- PARTITION_DESTROY (R404). -/
def execPartitionDestroy (part : Nat) (s : State) : Out := .next (s.destroyPart part)

/-- INVALIDATE_GO (R414). -/
def execInvalidateGo (part : Nat) (stage2 : Bool) (die core : Nat) (s : State) : Out :=
  .next (s.invalidate part stage2 die core)
/-- INVALIDATION_COMPLETE (R179, R414). -/
def execInvalidationComplete (part : Nat) (stage2 : Bool) (s : State) : Out := .next (s.completeInval part stage2)
/-- PT_EDIT_RECORD (R488). -/
def execPtEditRecord (part : Nat) (stage2 : Bool) (addr : Nat) (v : Dword) (page pages die core : Nat) (s : State) : Out :=
  .next (s.editTable part stage2 addr v page pages die core)

/-- QUEUE_BIND (R418). -/
def execQueueBind (die slot : Nat) (s : State) : Out :=
  .next (s.bindSlot die slot)
/-- QUEUE_HOLD_CLEAR (R418). -/
def execQueueHoldClear (die slot : Nat) (s : State) : Out := .next (s.clearHold die slot)
/-- QFREE_POP (R436): the oldest entry, or 0. -/
def execQfreePop (die slot : Nat) (s : State) : Out :=
  .next ((s.popFree die slot).answer (.data ((s.queue die slot).free.headD 0)))
/-- QFREE_PUSH (R436). -/
def execQfreePush (die slot : Nat) (v : Dword) (s : State) : Out :=
  .next (s.pushFree die slot (v.toNat / 65536 * 65536))

/-- REGMAP_WRITE (R498). -/
def execRegmapWrite (hi : Bool) (v : Dword) (s : State) : Out := .next (s.writeRegmap hi v)
/-- BAY_REGULATOR_MOVE (R280). -/
def execBayRegulatorMove (bay : Nat) (s : State) : Out := .next (s.moveBay bay)

end Sys2Proof.Machine
end

