-- ==== Sys2Proof/Machine/Power.lean ====
section
/-! DEFINITION. Targets, caps, droops, ballast, energy and tier migration (R281 to R290, R411, R412). -/

namespace Sys2Proof.Machine

namespace State

/-! ### Targets (R281 to R283) -/

/-- A target written by the Chandler. -/
def writeTarget (s : State) (d t : Nat) : State :=
  { s.setField (.dtarget d) 0x00 0 22 t with
    noTarget := s.noTarget.filter (· ≠ d), targetTimes := s.targetTimes.put d s.gtime }

/-! ### Caps (R284) -/

/-- Whether a mill is in service: its bay's READY bit is set, and nothing has mapped it out. -/
def inService (s : State) (m : Nat) : Bool := bitAt (s.reg .ready 0x00) (m / 4) && !s.mapped.contains (m / 4)

/-- MillsInService of a domain. -/
def millsInService (s : State) (d : Nat) : Nat :=
  ((List.range 144).filter fun m => s.regulatorOf (m / 4) = d && s.inService m).length

/-- E of a mill. -/
def millBudget (s : State) (m : Nat) : Nat :=
  let d := s.regulatorOf (m / 4)
  let cal := s.reg (.millcal m) 0x00
  (s.targetOf d * 100 / s.millsInService d - bitsAt cal 0 32) * 1000 / bitsAt cal 32 32

/-- Running contexts of a mill. -/
def runningIn (s : State) (m : Nat) : List Nat := (millContexts m).filter fun f => (s.ctx f).life = .running

/-- The caps that a mill's running contexts should hold. -/
def millCaps (s : State) (m : Nat) : List (Nat × Nat) :=
  let fs := s.runningIn m
  let e := s.millBudget m
  let w := fs.foldl (fun t f => t + (s.ctx f).share) 0
  fs.map fun f => (f, min 65536 (e * (s.ctx f).share / w))

/-- Whether E has fallen by more than a quarter since the last loop (R287). -/
def needsBallast (s : State) (m : Nat) : Bool := decide (s.millBudget m * 4 < (s.mill m).loopE * 3)

/-- Whether a mill has caps to rewrite. -/
def capsStale (s : State) (m : Nat) : Bool :=
  s.inService m && decide (s.millsInService (s.regulatorOf (m / 4)) ≠ 0) &&
  ((s.millCaps m).any (fun p => decide ((s.ctx p.1).cap ≠ p.2)) || decide ((s.mill m).lastE ≠ s.millBudget m))

/-- A mill rewrites the caps of its contexts; a fall of E by more than a quarter since the last loop adds ballast (R287). -/
def updateCaps (s : State) (m : Nat) : State :=
  if !s.capsStale m then s
  else
    let e := s.millBudget m
    let s1 := (s.millCaps m).foldl (fun s p => s.modCtx p.1 fun c => { c with cap := p.2 }) s
    s1.modMill m fun x => { x with lastE := e, ballast := x.ballast || s.needsBallast m }

/-! ### The Chandler's loop (R282, R289, R290) -/

/-- E of a mill at this loop, with the ballast that its fall since the last one adds (R287). -/
def loopMill (s : State) (m : Nat) : State :=
  if s.inService m && decide (s.millsInService (s.regulatorOf (m / 4)) ≠ 0) then
    let b := s.needsBallast m
    let e := s.millBudget m
    s.modMill m fun x => { x with loopE := e, ballast := x.ballast || b }
  else s

/-- Energy charged to a partition, or to the platform as partition 0 and in place of a partition that is not there (R290). -/
def charge (s : State) (n uj : Nat) : State :=
  let k := if s.partState n = 0 then 0 else n
  s.setReg (.energy k) 0x00 (s.reg (.energy k) 0x00 + BitVec.ofNat 64 uj)

/-- The energies that a loop measured, charged by R290: the platform's own, then for each partition the traffic of the cards its queues appended, then
for each bay its static draw with all that its contexts, their jobs and their images have used, to whoever holds the bay (log entry 118). -/
def chargeAll (s : State) (energies : List Nat) : State :=
  let s1 := (List.range 37).foldl (fun s n => s.charge n (energies.getD n 0)) s
  (List.range 36).foldl (fun s b => s.charge (s.ownerOf b) (energies.getD (37 + b) 0)) s1

/-- One loop (R282), where a Chandler image has been verified and started (R478): the sensors of every domain are read, which clears DROOPS, and every target is written. During an entry to
the hold state the targets written are 0 (R466). -/
def chandlerLoop (s : State) (targets sensors energies : List Nat) : State :=
  if s.asleep || s.failed.contains 2 then s
  else
    let s1 := (List.range 4).foldl (fun s d =>
      s.setReg (.dsense d) 0x00 (BitVec.ofNat 64 (sensors.getD d 0 % 2 ^ 48))) s
    let vmv (d : Nat) : Nat := bitsAt (s1.reg (.dtarget d) 0x00) 22 10
    let ts := (List.range 4).map fun d => if s.holdState = 0 then s1.clampTarget d (vmv d) (targets.getD d 0) else 0
    let s2 := (List.range 4).foldl (fun s d => s.writeTarget d (ts.getD d 0)) s1
    ((List.range 144).foldl loopMill s2).chargeAll energies

/-! ### Droops (R286) -/

/-- A droop: the bay stretches its clock and lowers its issue slots, and its domain counts the event. -/
def droop (s : State) (bay slots : Nat) : State :=
  let d := s.regulatorOf bay
  let n := bitsAt (s.reg (.dsense d) 0x00) 48 16
  let s1 := (List.range 4).foldl (fun s k => s.modMill (4 * bay + k) fun x => { x with slots := some slots }) s
  { s1 with stretched := s1.stretched.put bay true }.setField (.dsense d) 0x00 48 16 (min 65535 (n + 1))

/-- The supply has stood near the set point for 1 µs. -/
def droopEnd (s : State) (bay : Nat) : State :=
  let s1 := (List.range 4).foldl (fun s k => s.modMill (4 * bay + k) fun x => { x with slots := none }) s
  { s1 with stretched := s1.stretched.erase bay }

/-! ### Migration (R411, R412) -/

/-- Granules of a partition in HBM4. -/
def hbmGranules (s : State) (part : Nat) : Nat :=
  (s.tiers.filter fun e => decide (e.2.owner = part) && !e.2.lpddr).length

/-- Whether a granule may move into HBM4. -/
def quotaRoom (s : State) (g : Granule) : Bool :=
  g.owner = 0 || !g.lpddr || s.hbmGranules g.owner < bitsAt (s.reg (.part g.owner) 0x20) 0 32

/-- The HBM4 stack of a frame; `none` for LPDDR-6. -/
def stackOfFrame (s : State) (fr : Nat) : Option Nat := s.fitted[fr / 2 ^ 20]?

/-- Whether no granule holds a frame: the granule of its number stands elsewhere, no other has moved there, and its stack is not mapped out. -/
def frameFree (s : State) (fr : Nat) : Bool :=
  decide (fr < s.granules) && !((s.stackOfFrame fr).any fun k => s.mapped.contains (48 + k)) && decide ((s.granule fr).frame ≠ fr) && s.tiers.all fun e => decide (e.2.frame ≠ fr)

/-- A migration: two granules of one owner exchange frames, or a granule moves to a free frame. It changes no value. -/
def migrate (s : State) (g target : Nat) (exchange : Bool) : State :=
  let a := s.granule g
  if !s.capacityTier || s.asleep || s.granules ≤ g then s
  else if exchange then
    let b := s.granule target
    if s.granules ≤ target || a.owner ≠ b.owner || (a.lpddr && !b.lpddr && !s.quotaRoom a) ||
        (b.lpddr && !a.lpddr && !s.quotaRoom b) then s
    else
      let a' : Granule := { a with lpddr := b.lpddr, frame := b.frame }
      let b' : Granule := { b with lpddr := a.lpddr, frame := a.frame }
      { s with tiers := (s.tiers.put g a').put target b' }
  else
    let low := decide (s.hbmFrames ≤ target)
    if !s.frameFree target || (a.lpddr && !low && !s.quotaRoom a) then s
    else { s with tiers := s.tiers.put g { a with lpddr := low, frame := target } }

end State

/-! ### Events -/

/-- DROOP (R286). -/
def execDroop (bay slots : Nat) (s : State) : Out := .next (if bay < 36 then s.droop bay slots else s)
/-- DROOP_END (R286). -/
def execDroopEnd (bay : Nat) (s : State) : Out := .next (if bay < 36 then s.droopEnd bay else s)
/-- CHANDLER_LOOP (R281, R282, R289, R290). -/
def execChandlerLoop (targets sensors energies : List Nat) (s : State) : Out :=
  .next (s.chandlerLoop targets sensors energies)
/-- TARGET_TIMEOUT (R283): no target for 3 ms. -/
def execTargetTimeout (domain : Nat) (s : State) : Out :=
  .next (
    match s.targetTimes.find domain with
    | some t =>
      if decide (t.toNat + 3000000 ≤ s.gtime.toNat) && !s.noTarget.contains domain then
        { s with noTarget := s.noTarget ++ [domain] }
      else s
    | none => s)
/-- MILL_CAP_UPDATE (R284, R287). -/
def execMillCapUpdate (mill : Nat) (s : State) : Out := .next (if mill < 144 then s.updateCaps mill else s)
/-- BALLAST_END (R287). -/
def execBallastEnd (mill : Nat) (s : State) : Out := .next (s.modMill mill fun m => { m with ballast := false })
/-- TIER_MIGRATION (R411). -/
def execTierMigration (g target : Nat) (exchange : Bool) (s : State) : Out := .next (s.migrate g target exchange)

end Sys2Proof.Machine
end

