-- ==== Sys2Proof/Machine/Recovery.lean ====
section
/-! DEFINITION. The firmware lease, fencing, the hold state, the start sequence, and parts that come and go (R20, R118, R463 to R482). -/

namespace Sys2Proof.Machine

namespace State

/-! ### The lease (R473, R474) -/

/-- Dies that are not fenced. -/
def liveDies (s : State) : List Nat := (List.range 4).filter fun d => !s.fenced.contains d

/-- A lease register written in every replica of the dies that are not fenced. -/
def setLease (s : State) (off : Nat) (v : Dword) : State := s.liveDies.foldl (fun s d => s.setReg (.lease d) off v) s

def expiry (s : State) : Nat := (s.reg (.lease s.leaseDie) 0x08).toNat
def holder (s : State) : Nat := bitsAt (s.reg (.lease s.leaseDie) 0x00) 2 2
def leased (s : State) : Bool := bitAt (s.reg (.lease s.leaseDie) 0x00) 0
def healthy (s : State) (d : Nat) : Bool := d < 4 && bitAt (s.reg (.lease s.leaseDie) 0x10) d && s.heard d

/-- EXPIRY := GTIME + 10,000,000. -/
def extendLease (s : State) : State := s.setLease 0x08 (s.gtime + 10000000)

/-- The effect of a take for a die. -/
def takeLease (s : State) (d : Nat) : State :=
  (s.setLease 0x00 (BitVec.ofNat 64 ((s.epoch + 1) % 2 ^ 32 * 2 ^ 32 + d * 4 + 1))).extendLease

/-- A HEALTH bit set or cleared in every replica. -/
def setHealth (s : State) (d v : Nat) : State :=
  s.setLease 0x10 (setBits (s.reg (.lease s.leaseDie) 0x10) d 1 v)

/-! ### Fencing (R476, R477) -/

/-- An agent of a fenced die: it stops, and what it has not performed is discarded. It writes no record. -/
def loseAgent (c : Ctx) : Ctx :=
  if c.life = .free then c
  else
    { Ctx.withdraw c with
      life := .stopped, vq := [], convoyLeft := 0, convoyHead := 0, convoyCount := 0, slotted := 0, order := [], took := false, blocks := none, latch := none, late := none,
      scan := none, xq := [], xfail := [], raises := [], wait := none, debugReq := 0 }

/-- A mill of a fenced die: queued matrix operations and stream writes not performed are discarded. -/
def loseMill (m : Mill) : Mill :=
  { m with queue := [], ports := m.ports.map fun (p : Nat × List Binding) => (p.1, p.2.map fun (b : Binding) => { b with pend := [] }) }

/-- Launch indices of a launch that stand unended on a die, its forked children apart. -/
def lostIndices (s : State) (key die : Nat) : List Nat :=
  s.agents.filterMap fun e =>
    if dieOf e.1 = die && e.1 < 2304 && e.2.launch = key && e.2.life ≠ .free && e.2.parent = 0 then some e.2.lindex.toNat
    else none

/-- What becomes of a launch with placements on a fenced die. -/
def loseLaunch (s : State) (key die : Nat) (l : Launch) : State :=
  let there := if l.matrix then (Desc.bays l.desc).any fun b => b / 9 = die else l.mills.any fun m => m / 36 = die
  let ok (b : Nat) : Bool := !s.fenced.contains (b / 9)
  let own := (Desc.bays l.desc).filter ok
  let bays := if own.isEmpty then (s.baysOf l.part).filter ok else own
  if l.state ≠ .placed || !there then s
  else if l.matrix || !Desc.reissue l.desc || bays.isEmpty then s.setLaunch key { l with kind := 4 }
  else
    let d := setBits l.desc 416 36 (bays.foldl (fun t b => t + 2 ^ b) 0)
    s.setLaunch key { l with desc := d, redo := l.redo ++ s.lostIndices key die, ended := Desc.mills d }

/-- DIE_FENCE: the die stops, its jobs complete with status 4, its queues leave their slots with nothing written (log entry 57), and its launches are
reissued or lost. -/
def fenceDie (s : State) (die : Nat) : State :=
  if 4 ≤ die || s.fenced.contains die then s
  else
    let s0 := s.setHealth die 0
    let s1 : State :=
      { s0 with
        fenced := s0.fenced ++ [die]
        agents := s0.agents.map fun (e : Nat × Ctx) => if dieOf e.1 = die then (e.1, loseAgent e.2) else e
        mills := s0.mills.map fun (e : Nat × Mill) => if e.1 / 36 = die then (e.1, loseMill e.2) else e
        pins := s0.pins.filter fun (p : Pin) => p.die ≠ die
        kills := s0.kills.filter fun f => dieOf (f % 4096) ≠ die }
    let s2 := (s1.jobs.filter fun j => j.die = die).foldl (fun s j => s.completeJob j 4 0 (j.off * j.size)) s1
    let s3 := { s2 with folds := s2.folds.filter fun x => x.die ≠ die }
    let s4 := (s3.reg .ready 0x00)
    let s5 := (s3.setReg .ready 0x00 (setBits s4 (9 * die) 9 0)).setField .ready 0x08 (31 + die) 1 0
    let s6 := s5.setField .ready 0x08 (27 + die) 1 0
    let s7 := (List.range 64).foldl (fun s k => s.leaveSlot die k) s6
    s7.launches.foldl (fun s e => s.loseLaunch e.1 die e.2) s7

/-! ### Entering the hold state (R466) -/

/-- A queue stops at its next command boundary: at once, or as the command in execution ends (R428, R438). -/
def holdBack (s : State) (die slot : Nat) : State :=
  let q := s.queue die slot
  if !q.live || !q.running then s
  else if q.busy then s.setQueue die slot { q with toStop := true }
  else s.stopQueue die slot

/-- The images that a resumption cut short has left for firmware to restore at the next one (R471). -/
def unrestored (s : State) : State :=
  if s.resumeStep = 0 then s
  else
    let left := (s.away.filter fun a => a.held && s.firmwareSaved.all fun e => e.1 ≠ a.flat).map fun a => (a.flat, false)
    { s with firmwareSaved := s.firmwareSaved ++ left, resumeStep := 0 }

/-- Step 1: STATE, PWARN and every target; the queues stop with their STATE unchanged, and the kernels are interrupted. During a resumption a new entry begins
(R471). -/
def enterHold (s : State) : State :=
  let w := Window.hold
  if s.holdState = 0 || s.holdState = 3 then
    let s1 := (s.unrestored.setField w 0x00 40 2 1).setField w 0x00 0 1 1
    let s2 := (List.range 4).foldl (fun s d => s.writeTarget d 0) s1
    let s3 := s2.queues.foldl (fun s e => s.holdBack (e.1 / 64) (e.1 % 64)) s2
    { s3.interrupt .holdEntry with
      holdTimer := some (s.gtime.toNat + bitsAt (s.reg w 0x00) 16 6 * 1000000) }
  else if s.holdState = 2 then { s.setField w 0x00 0 1 1 with holdTimer := none }
  else s.setField w 0x00 0 1 1

/-- Whether the hold's next step is due. -/
def holdDue (s : State) : Bool :=
  match s.holdTimer with
  | some t => t ≤ s.gtime.toNat
  | none => false

/-- Physical address of the fallback slot of an agent (R464). -/
def fallbackSlot (s : State) (f : Nat) : Nat :=
  bitsAt (s.reg .hold 0x08) 30 22 * 2 ^ 30 + 0x40000000 + 0x200000 * f

/-- Virtual address of an agent's slot in its partition's hold region, when the region is in force (R465). -/
def regionSlot (s : State) (f : Nat) : Option Nat :=
  let part := s.partOf f
  let r := s.reg (.cx part) 0x58
  let position := ((List.range f).filter fun g => s.partOf g = part).length
  if bitAt r 0 then some (bitsAt r 21 43 * 0x200000 + 0x200000 * position) else none

/-- Step 3 for one agent: it is stopped and saved in its region's slot, or in the fallback slot. -/
def firmwareSave (s : State) (f : Nat) : State :=
  let part := s.partOf f
  let s1 := if (s.ctx f).life = .running then s.preempt f else s
  match (s1.regionSlot f).bind fun va => s1.saveAt part f va with
  | some s2 => { s2 with firmwareSaved := s2.firmwareSaved ++ [(f, false)] }
  | none =>
    let s2 := s1.settleImage f
    let s3 := (s2.writeImage part true (s2.fallbackSlot f) (s2.image f) (s2.imageSize f)).freeSaved f
    { s3 with firmwareSaved := s3.firmwareSaved ++ [(f, true)] }

/-- Whether a job has a footprint of the device class. -/
def jobDevice (s : State) (j : Job) : Bool :=
  (j.foot.any fun v => View.device v.2.1) || s.pins.any fun p => decide (p.holder = .job j.id) && p.device

/-- Step 4 for one job (R228): an idempotent one is parked, with its offset in its card; a device-class one completes. -/
def parkJob (s : State) (j : Job) : State :=
  if j.status.isSome || j.parked then s
  else if s.jobDevice j then
    { (s.completeJob j 3 0 (j.off * j.size)) with folds := s.folds.filter fun x => x.job ≠ j.id }
  else
    let s1 := (s.ringStore j.part false (j.addr + 56) 8 (2 ^ 63 + j.off % 2 ^ 48)).getD s
    s1.setJob { j with parked := true }

/-! ### The platform hold area (R464) -/

/-- What a queue slot keeps on the die, as dwords. -/
def queueDwords (q : Queue) : List Nat :=
  [b2n q.live + b2n q.hold * 2 + b2n q.running * 4 + b2n q.atLink * 8 + b2n q.ovf * 16 + q.reason * 2 ^ 8 + q.prio * 2 ^ 16 + q.part * 2 ^ 24 +
    q.qstate * 2 ^ 32 + q.fcode * 2 ^ 40 + q.hcode * 2 ^ 48,
   q.lo, q.hi, q.segment.elim 0 (· + 1), q.pos, q.pc, q.faddr, q.issued, q.done, q.ordinal, q.stack.length, q.free.length] ++
  q.stack ++ q.free ++ q.cregs.toList.map (·.toNat)

/-- The state of an array, as byte offset, size and value of each of its parts, in the order of its place in a core's image (R460). -/
def arrayParts (m : Mill) : List (Nat × Nat × Nat) :=
  [(0, 8, m.rowpred.toNat), (8, 8, m.colpred.toNat), (16, 8, m.planes.toNat), (0x1000, 32768, m.active.toNat), (0x9000, 32768, m.shadow.toNat)] ++
  ((List.range 4).map fun t => (0x40 + 512 * t, 512, (m.carries.toList.getD t 0).toNat)) ++
  (List.range 4).map fun t => (0x11000 + 65536 * t, 65536, (m.tiles.toList.getD t 0).toNat)

/-- Where the registers of a window stand in the area: partition, chain, splice and queue windows. -/
def windowOffset (key : Nat) : Option Nat :=
  let at' (n : Nat) : Option Nat := some (0x25000000 + n * 0x800000 + key % 0x100000 * 0x200)
  match key / 0x100000 with
  | 1 => at' 0
  | 4 => at' 1
  | 5 => at' 2
  | 6 => at' 3
  | _ => none

/-- The on-die state that no image holds, as byte offset, size and value: scratchpads, tag tables, sequence counters, windows, queue slots with their
free lists, and arrays. The layout is the model's (log entry 117). -/
def onDie (s : State) : List (Nat × Nat × Nat) :=
  (s.scr.map fun c => (c.1, 1, c.2.toNat)) ++ (s.tags.map fun e => (0x24000000 + 8 * e.1, 8, e.2.toNat)) ++
  (s.counters.map fun e => (0x24800000 + 8 * e.1, 8, e.2.toNat)) ++
  (s.regs.filterMap fun e => (windowOffset (e.1 / 4096)).map fun o => (o + e.1 % 4096, 8, e.2.toNat)) ++
  (s.queues.flatMap fun e => (queueDwords e.2).mapIdx fun j v => (0x28000000 + 0x1000 * e.1 + 8 * j, 8, v)) ++
  s.mills.flatMap fun e => (arrayParts e.2).map fun (o, n, v) => (0x30000000 + 0x51000 * e.1 + o, n, v)

/-- The on-die state written to the platform hold area (R466 step 5), which is zero elsewhere below its slots. -/
def writeOnDie (s : State) : State :=
  let base := bitsAt (s.reg .hold 0x08) 30 22 * 2 ^ 30
  { s with dev := s.onDie.foldl (fun m (o, n, v) => if v = 0 then m else m.write (base + o) n v) (s.dev.clear base (base + 2 ^ 30)) }

/-- A queue whose command in execution has not ended by the deadline stops with it unfinished (log entry 114). -/
def stopUnfinished (s : State) (die slot : Nat) : State :=
  let q := s.queue die slot
  if q.live && q.running then ((s.setQueue die slot { q with toStop := false }).stopQueue die slot).boundary die slot else s

/-- Steps 3 to 6. -/
def sleepNow (s : State) : State :=
  let w := Window.hold
  let s0 := s.queues.foldl (fun s e => s.stopUnfinished (e.1 / 64) (e.1 % 64)) s
  let fs := (s0.agents.filter fun e => e.2.life ≠ .free && !s0.fenced.contains (dieOf e.1)).map (·.1)
  let s1 := fs.foldl (fun s f => s.firmwareSave f) s0
  let s2 := s1.jobs.foldl (fun s j => s.parkJob j) s1
  let s3 := ({ s2 with pins := [] }.writeOnDie.setField w 0x00 40 2 2).bump w 0x10
  { s3 with holdTimer := if bitAt (s.reg w 0x00) 0 then none else some s.gtime.toNat }

/-- PWARN falls: in the hold state the dwell begins; during an entry the fall is found at its end. -/
def pwarnFall (s : State) : State :=
  let w := Window.hold
  let s1 := s.setField w 0x00 0 1 0
  if s.holdState = 2 && bitAt (s.reg w 0x00) 0 then
    { s1 with holdTimer := some (s.gtime.toNat + bitsAt (s.reg w 0x00) 48 8 * 10000000) }
  else s1

/-! ### Resuming (R469, R471) -/

/-- An image that fails: its context stays free, and its launch completes with KIND 5. -/
def failRestore (s : State) (part f : Nat) : State :=
  match (s.away.find? fun a => a.part = part && a.flat = f && a.held).or (s.away.find? fun a => a.part = part && a.flat = f) with
  | none => s
  | some a =>
    let s1 := { s with away := s.away.erase a }
    match s1.launchOf a.launch with
    | some l => s1.setLaunch a.launch { l with kind := if l.kind = 0 then 5 else l.kind, ended := l.ended ++ [millOf f] }
    | none => s1

/-- Step 3 for one agent saved by firmware: it is restored into its place and left stopped. -/
def firmwareRestore (s : State) (f : Nat) (fallback : Bool) : State :=
  let part := s.partOf f
  let r : Except Nat State :=
    if fallback then s.restoreImage part f fun k => s.dev.read (s.fallbackSlot f + 8 * k) 8
    else
      match s.regionSlot f with
      | some va => s.restoreAt part f va
      | none => .error 3
  match r with
  | .ok s1 => s1
  | .error _ => s.failRestore part f

/-- Step 5 for one slot: a rebind. A queue that had stopped by itself stays stopped. -/
def rebindQueue (s : State) (die slot : Nat) : State :=
  let q := s.queue die slot
  let s1 := s.bindQueue die slot
  if q.qstate = 0 then s1 else s1.modQueue die slot fun x => { x with running := false, qstate := q.qstate, fcode := q.fcode }

/-- A step of the start record reached, with its outcome (R479). -/
def recordStep (s : State) (n outcome detail : Nat) : State :=
  let r := s.reg (.start n) 0x00
  s.setReg (.start n) 0x00
    (setBits (setBits (setBits r 24 8 (min 255 (bitsAt r 24 8 + 1))) 16 8 outcome) 0 16 detail)

/-- Step 11, "hold survived", with its outcome; its DETAIL is not stated (log entry 69). -/
def recordSurvived (s : State) (outcome : Nat) : State :=
  let (k, s1) := s.freshNumber
  s1.recordStep 11 outcome (Config.unstated k)

/-- The cells of a range of device memory, by their distance from its beginning. -/
def cellsIn (s : State) (lo n : Nat) : Mem :=
  (s.dev.filter fun c => lo ≤ c.1 && c.1 < lo + n).map fun c => (c.1 - lo, c.2)

/-- The value of some cells, least significant first. -/
def cellValue (m : Mem) : Nat := m.foldl (fun t c => t + c.2.toNat * 256 ^ c.1) 0

/-- Bytes of the platform hold area as a number. -/
def areaAt (s : State) (o n : Nat) : Nat := cellValue (s.cellsIn (bitsAt (s.reg .hold 0x08) 30 22 * 2 ^ 30 + o) n)

/-- The dwords of a table in the hold area that are not zero, by number. -/
def areaTable (s : State) (o n : Nat) : List (Nat × Dword) :=
  let cells := s.cellsIn (bitsAt (s.reg .hold 0x08) 30 22 * 2 ^ 30 + o) n
  ((cells.map fun c => c.1 / 8).eraseDups).map fun k =>
    (k, BitVec.ofNat 64 (cellValue ((cells.filter fun c => c.1 / 8 = k).map fun c => (c.1 % 8, c.2))))

/-- A queue slot as its dwords in the hold area have it; what a slot knows of its open commands is no part of them (log entry 117). -/
def queueFrom (d : Nat → Nat) (q : Queue) : Queue :=
  let w := d 0
  let depth := d 10
  { q with
    live := bitAt (BitVec.ofNat 64 w) 0, hold := bitAt (BitVec.ofNat 64 w) 1, running := bitAt (BitVec.ofNat 64 w) 2
    atLink := bitAt (BitVec.ofNat 64 w) 3, ovf := bitAt (BitVec.ofNat 64 w) 4, reason := w / 2 ^ 8 % 2 ^ 8, prio := w / 2 ^ 16 % 2 ^ 8
    part := w / 2 ^ 24 % 2 ^ 8, qstate := w / 2 ^ 32 % 2 ^ 8, fcode := w / 2 ^ 40 % 2 ^ 8, hcode := w / 2 ^ 48
    lo := d 1, hi := d 2, segment := if d 3 = 0 then none else some (d 3 - 1), pos := d 4, pc := d 5, faddr := d 6, issued := d 7, done := d 8
    ordinal := d 9, stack := (List.range depth).map fun k => d (12 + k), free := (List.range (d 11)).map fun k => d (12 + depth + k)
    cregs := Vector.ofFn fun k => BitVec.ofNat 64 (d (12 + depth + d 11 + k.val)) }

/-- An array as its part of the hold area has it. -/
def arrayFrom (rd : Nat → Nat → Nat) (m : Mill) : Mill :=
  { m with
    rowpred := BitVec.ofNat 64 (rd 0 8), colpred := BitVec.ofNat 64 (rd 8 8), planes := BitVec.ofNat 64 (rd 16 8)
    active := BitVec.ofNat 262144 (rd 0x1000 32768), shadow := BitVec.ofNat 262144 (rd 0x9000 32768)
    carries := Vector.ofFn fun t => BitVec.ofNat 4096 (rd (0x40 + 512 * t.val) 512)
    tiles := Vector.ofFn fun t => BitVec.ofNat 524288 (rd (0x11000 + 65536 * t.val) 65536) }

/-- Step 2 of R469: the on-die state restored from the platform hold area. An array or a slot that nothing has changed since the start stands at its Reset
values on both sides, and is left so. -/
def readOnDie (s : State) : State :=
  let base := bitsAt (s.reg .hold 0x08) 30 22 * 2 ^ 30
  let regs := (s.regs.filter fun e => (windowOffset (e.1 / 4096)).isSome).map fun e =>
    (e.1, BitVec.ofNat 64 (s.areaAt ((windowOffset (e.1 / 4096)).getD 0 + e.1 % 4096) 8))
  { s with
    scr := s.cellsIn base 0x24000000
    tags := (s.areaTable 0x24000000 0x800000).foldl (fun t e => t.put e.1 e.2) []
    counters := (s.areaTable 0x24800000 0x800000).foldl (fun t e => t.put e.1 e.2) []
    regs := regs.foldl (fun t e => t.put e.1 e.2) s.regs
    queues := s.queues.map fun (e : Nat × Queue) => (e.1, queueFrom (fun k => s.areaAt (0x28000000 + 0x1000 * e.1 + 8 * k) 8) e.2)
    mills := s.mills.map fun (e : Nat × Mill) => (e.1, arrayFrom (fun o n => s.areaAt (0x30000000 + 0x51000 * e.1 + o) n) e.2) }

/-- Steps 1 and 2 of R469. -/
def resumeDie (s : State) : State := { (s.setField .hold 0x00 40 2 3).readOnDie with holdTimer := none, resumeStep := 3 }

/-- Steps 3 and 4 of R469: the agents that firmware saved are restored, and the resident kernels interrupted. -/
def resumeAgents (s : State) : State :=
  let s1 := s.firmwareSaved.foldl (fun s e => s.firmwareRestore e.1 e.2) { s with firmwareSaved := [] }
  { ((s1.setField .hold 0x00 40 2 0).recordSurvived 1).interrupt .holdResume with resumeStep := 5 }

/-- Step 5 of R469, behind the restores of step 4: every queue is rebound, and the jobs that queues have appended go on. -/
def resumeQueues (s : State) : State :=
  let s1 := s.queues.foldl (fun s e =>
    if e.2.live && !s.fenced.contains (e.1 / 64) then s.rebindQueue (e.1 / 64) (e.1 % 64) else s) s
  State.openSlots { s1 with
    resumeStep := 0, jobs := s1.jobs.map fun (j : Job) => if j.by'.isNone then { j with parked := false } else j }

/-- The next steps of a resumption: from the hold state once the dwell has passed, then the agents, then the queues once every image that the hold saved is
restored. -/
def resumeHold (s : State) : State :=
  if s.asleep then (if !bitAt (s.reg .hold 0x00) 0 && s.holdDue then s.resumeDie else s)
  else if s.holdState = 3 then s.resumeAgents
  else if s.holdState = 0 && s.resumeStep = 5 && s.away.all fun a => !a.held then s.resumeQueues
  else s

/-! ### Starting (R478 to R481) -/

/-- The package with its power removed: memory and every register are lost, but for the start record and the global timer. What
stands outside the package stays. -/
def powerOff (s : State) : State :=
  { State.reset with
    gtime := s.gtime, host := s.host, peer := s.peer, pkg := s.pkg, capacityTier := s.capacityTier, fresh := s.fresh,
    creates := s.creates, agenda := s.agenda, cur := s.cur, defer := s.defer, last := s.last, round := s.round, images := s.images, interrupts := s.interrupts,
    answers := s.answers, installed := 512 * 2 ^ 30 + (if s.capacityTier then 2 ^ 41 else 0)
    regs := s.regs.filter fun e => decide ((Window.start 0).key ≤ e.1 / 4096) && decide (e.1 / 4096 < (Window.start 64).key) }

/-- Whether a step has an alternate that can be tried again (R480). -/
def hasAlternate (n : Nat) : Bool := [1, 2, 9, 10].contains n

/-- Whether an image is verified (R24, R478): the SHA-256 digest of its bytes is signed, by ECDSA on P-256, by the key whose SHA-256 is fused into the
device, and its security version is at least the fused one. The image of step n is number 2n, and its alternate, image B, number 2n + 1. -/
def verified (s : State) (k : Nat) : Bool :=
  (s.images.find k).any fun x =>
    decide (Config.sha256 (bytesOfNat 64 x.key.toNat) = Config.fusedKey) && Config.signedBy x.key (Config.sha256 x.bytes) x.sig &&
    decide (Config.fusedVersion ≤ x.version)

/-- Whether a step runs an image that has to be verified first. -/
def runsImage (n : Nat) : Bool := [1, 2, 10].contains n

/-- The outcome of a step at this start, from its last outcome and whether its action and its alternate succeed. An image that fails its verification is
not run, and its step fails. -/
def stepOutcome (s : State) (n : Nat) (pass alt : BitVec 12) : Nat :=
  let last := bitsAt (s.reg (.start n) 0x00) 16 8
  let good (k : Nat) : Bool := !runsImage n || s.verified k
  if last = 5 || (last = 2 && !hasAlternate n) then 3
  else if last = 2 then (if bitAt alt n && good (2 * n + 1) then 4 else 5)
  else if bitAt pass n && good (2 * n) then 1 else 2

/-- Units that a step finds failed: none when it passes, those of its record when it is skipped. -/
def failedUnits (s : State) (n : Nat) (pass alt : BitVec 12) (details : List Nat) : Nat :=
  match s.stepOutcome n pass alt with
  | 2 => details.getD n 0
  | 3 => if [4, 5, 6, 8].contains n then bitsAt (s.reg (.start n) 0x00) 0 16 else details.getD n 0
  | _ => 0

/-- Whether a bit of a number is set. -/
def unit (mask k : Nat) : Bool := mask / 2 ^ k % 2 = 1

/-- The bays of a failed regulator go to the others; which of them each goes to is not stated. Those beyond a regulator's 1,100 A, named by bits
4 + bay of the units of step 3, are mapped out. -/
def reassign (s : State) (failed : Nat) : State :=
  let working := (List.range 4).filter fun r => !unit failed r
  (List.range 36).foldl (fun s b =>
    if !unit failed (b / 9) then s
    else if working.isEmpty || unit failed (4 + b) then { s with mapped := s.mapped ++ [b] }
    else
      let (k, s1) := s.freshNumber
      let r := working.getD (Config.unstated k % working.length) 0
      { s1.setField .regmap (if b < 32 then 0x00 else 0x08) (2 * (b % 32)) 2 r with regulators := s1.regulators.put b r }) s

/-- Lane groups fused off: bit 64 + 16 × mill + group of the units of step 7. -/
def fuse (s : State) (failed : Nat) : State :=
  (List.range 144).foldl (fun s m =>
    let bad := failed / 2 ^ (64 + 16 * m) % 2 ^ 16
    if bad = 0 then s else s.modMill m fun x => { x with lgmask := x.lgmask &&& ~~~(BitVec.ofNat 16 bad) }) s

/-- The record of every step from 1 to 10 that this start reaches: without verified firmware, none after the first. A passed
step's detail, and that of a step whose detail is no mask of units, is not stated. -/
def recordStart (s : State) (pass alt : BitVec 12) (details : List Nat) : List Nat → State → State
  | [], t => t
  | n :: rest, t =>
    let (k, t1) := t.freshNumber
    let o := s.stepOutcome n pass alt
    let d := if [4, 5, 6, 8].contains n then s.failedUnits n pass alt details else Config.unstated k
    let t2 := if n = 5 && !s.capacityTier then t else t1.recordStep n o d
    if n = 1 && o ≠ 1 && o ≠ 4 then t2 else recordStart s pass alt details rest t2

/-- Sum of the units of a mask below `n`. -/
def unitCount (mask n : Nat) : Nat := ((List.range n).filter fun k => unit mask k).length

/-- The READY bits of a mask, as numbers from a first one. -/
def bitsFrom (mask first : Nat) : List Nat := ((List.range 64).filter fun k => unit mask k).map (first + ·)

/-- COLD_BOOT: the start sequence of R480. `pass` and `alt` say which actions and alternates succeed, `details` which units fail. What becomes usable sets
its READY bit by a turn of its own (R481). -/
def coldBoot (s : State) (pass alt : BitVec 12) (details : List Nat) : State :=
  let bad (n : Nat) : Nat := s.failedUnits n pass alt details
  let ran (n : Nat) : Bool := s.stepOutcome n pass alt = 1 || s.stepOutcome n pass alt = 4
  let s1 := s.recordStart pass alt details ((List.range 10).map (· + 1)) s.powerOff
  let s2 : State := { (if bitsAt (s.reg (.start 11) 0x00) 16 8 = 2 then s1.recordSurvived 4 else s1) with
    failed := if ran 1 then [2, 10].filter fun n => !ran n else [1, 2, 10] }
  if !ran 1 then s2
  else
    let s3 := (s2.reassign (bad 3)).fuse (bad 7)
    let dies := (List.range 4).filter fun d => unit (bad 6) d
    let lostBays := (List.range 36).filter fun b => unit (bad 7) b
    let halves := if s.capacityTier then unitCount (bad 5) 2 else 0
    let s4 := { s3 with
      installed := s3.installed - unitCount (bad 4) 8 * 2 ^ 36 - halves * 2 ^ 40
      fenced := dies
      mapped := (s3.mapped ++ lostBays).eraseDups ++ ((List.range 12).filter fun p => unit (bad 8) p).map (36 + ·) ++
        ((List.range 8).filter fun k => unit (bad 4) k).map (48 + ·) }
    let (k, s5) := s4.freshNumber
    let bays := ((List.range 36).filter fun b => !dies.contains (b / 9) && !s5.mapped.contains b).foldl (fun t b => t + 2 ^ b) 0
    let up := ((List.range 4).filter fun d => !dies.contains d).foldl (fun t d => t + 2 ^ (31 + d) + 2 ^ (27 + d)) 0
    let low := ((List.range 8).filter fun x => !unit (bad 4) x).foldl (fun t x => t + 2 ^ x) 0
    let lpddr := if s.capacityTier then ((List.range 2).filter fun x => !unit (bad 5) x).foldl (fun t x => t + 2 ^ (8 + x)) 0 else 0
    let rest := up + low + lpddr + b2n (ran 2) * 2 ^ 25 + b2n (ran 9) * 2 ^ 24 + Config.unstated k % 4 * 2 ^ 22
    { s5 with starting := bitsFrom bays 0 ++ bitsFrom rest 64 }

/-- A function of the package has become usable and sets its READY bit (R481): bit k of READY0, or bit k − 64 of READY1. -/
def setReady (s : State) (k : Nat) : State :=
  if !s.starting.contains k then s
  else
    let s1 := { s with starting := s.starting.erase k }
    if k < 64 then s1.setField .ready 0x00 k 1 1 else s1.setField .ready 0x08 (k - 64) 1 1

/-- The recalibration of an HBM4 stack begins or ends (R482). -/
def calibrate (s : State) (stack : Nat) (on : Bool) : State :=
  let rest := s.calibrating.filter (· ≠ stack)
  { s with calibrating := if on then rest ++ [stack] else rest }

/-! ### Live changes (R482) -/

/-- Whether every context of a mill is free or stopped. -/
def millStill (s : State) (m : Nat) : Bool := (millContexts m).all fun f => (s.ctx f).life ≠ .running

/-- The granule that holds a frame. -/
def holderOf (s : State) (fr : Nat) : Nat := ((s.tiers.find? fun e => e.2.frame = fr).map (·.1)).getD fr

/-- An HBM4 stack mapped out: its granules first move to free frames, and while there are too few of them it waits. A frame is free only where a granule
has moved from it (R411; log entry 79). -/
def mapOutStack (s : State) (stack : Nat) : State :=
  match s.fitted.idxOf? stack with
  | none => s
  | some i =>
    let inside (fr : Nat) : Bool := fr / 2 ^ 20 = i
    let free := (s.tiers.map (·.1)).filter fun fr => s.frameFree fr
    let out := free.filter fun fr => !inside fr
    let held := 2 ^ 20 - (free.filter inside).length
    if out.length < held || s.mapped.contains (48 + stack) then s
    else
      let frames := ((List.range (2 ^ 20)).map (2 ^ 20 * i + ·)).filter fun fr => !free.contains fr
      let s1 := (frames.zip out).foldl (fun s p =>
        let g := s.holderOf p.1
        { s with tiers := s.tiers.put g { s.granule g with lpddr := decide (s.hbmFrames ≤ p.2), frame := p.2 } }) s
      { s1.setField .ready 0x08 stack 1 0 with mapped := s1.mapped ++ [48 + stack] }

/-- A unit mapped out: bays 0 to 35, PML ports from 36, stacks from 48, lane groups from 64. -/
def mapOut (s : State) (u : Nat) : State :=
  let gone (s : State) : State := { s with mapped := if s.mapped.contains u then s.mapped else s.mapped ++ [u] }
  if u < 36 then (if s.bayStill u then gone (s.setField .ready 0x00 u 1 0) else s)
  else if u < 48 then gone (s.setField .ready 0x08 (10 + (u - 36)) 1 0)
  else if u < 56 then s.mapOutStack (u - 48)
  else if u < 64 then s
  else
    let m := (u - 64) / 16
    let mask := setBits (s.mill m).lgmask ((u - 64) % 16) 1 0
    if m < 144 && s.millStill m && mask ≠ 0 then s.modMill m fun x => { x with lgmask := mask } else s

end State

/-! ### Events -/

/-- LEASE_RENEW (R474), by a die with an epoch. -/
def execLeaseRenew (die epoch : Nat) (s : State) : Out :=
  .next (
    if s.leased && die = s.holder && epoch = s.epoch && decide (s.gtime.toNat < s.expiry + 1000000) then s.extendLease
    else s.answer (.refused s.epoch))
/-- LEASE_TAKE (R474). -/
def execLeaseTake (die : Nat) (s : State) : Out :=
  .next (
    if (!s.leased || decide (s.expiry + 1000000 ≤ s.gtime.toNat)) && (List.range 4).find? s.healthy = some die then
      s.takeLease die
    else s.answer (.refused s.epoch))
/-- LEASE_HAND (R474). -/
def execLeaseHand (die dst epoch : Nat) (s : State) : Out :=
  .next (
    if s.leased && die = s.holder && epoch = s.epoch && s.healthy dst then s.takeLease dst else s.answer (.refused s.epoch))

/-- FW_HEARTBEAT (R473). -/
def execFwHeartbeat (die : Nat) (s : State) : Out :=
  .next (
    if 4 ≤ die || s.fenced.contains die then s
    else { s.setHealth die 1 with heartbeats := s.heartbeats.put die s.gtime })
/-- HEALTH_TIMEOUT (R473): no heartbeat for 1 ms. -/
def execHealthTimeout (die : Nat) (s : State) : Out :=
  .next (
    if die < 4 && !s.heard die then s.setHealth die 0 else s)
/-- DIE_FENCE (R476, R477). -/
def execDieFence (die : Nat) (s : State) : Out := .next (s.fenceDie die)

/-- HOLD_ENTRY (R466 step 1). -/
def execHoldEntry (s : State) : Out := .next s.enterHold
/-- HOLD_DEADLINE (R466 steps 3 to 6), an act of authority. It waits for kills under way. -/
def execHoldDeadline (epoch : Nat) (s : State) : Out :=
  .next (
    if epoch ≠ s.epoch then s.answer (.refused s.epoch)
    else if s.holdState = 1 && s.kills.isEmpty && s.holdDue then s.sleepNow else s)
/-- PWARN_FALL (R469). -/
def execPwarnFall (s : State) : Out := .next s.pwarnFall
/-- HOLD_RESUME (R469), an act of authority. -/
def execHoldResume (epoch : Nat) (s : State) : Out :=
  .next (
    if epoch ≠ s.epoch then s.answer (.refused s.epoch)
    else s.resumeHold)
/-- HOLD_SUPPLY_LOSS (R472). -/
def execHoldSupplyLoss (s : State) : Out := .next (if s.asleep then s.powerOff.recordSurvived 2 else s)

/-- START_RECORD_CLEAR (R479). -/
def execStartRecordClear (n : Nat) (s : State) : Out :=
  .next (if n < 64 then s.setField (.start n) 0x00 16 8 0 else s)
/-- COLD_BOOT (R480, R481). -/
def execColdBoot (pass alt : BitVec 12) (details : List Nat) (s : State) : Out := .next (s.coldBoot pass alt details)
/-- UNIT_MAP_OUT (R482). -/
def execUnitMapOut (u : Nat) (s : State) : Out := .next (s.mapOut u)
/-- PML_LINK_UP (R20, R481). -/
def execPmlLinkUp (port : Nat) (s : State) : Out :=
  .next (if port < 12 && !s.mapped.contains (36 + port) && !s.asleep then s.setField .ready 0x08 (10 + port) 1 1 else s)
/-- PML_LINK_DOWN (R118). -/
def execPmlLinkDown (port : Nat) (s : State) : Out :=
  .next (if port < 12 then s.setField .ready 0x08 (10 + port) 1 0 else s)

end Sys2Proof.Machine
end

