-- ==== Sys2Proof/Machine/Outside.lean ====
section
/-! DEFINITION. Requests from the host and from peers, and SPDM (R170, R229, R410, R421, R422, R468, R481). What the requests carry beyond the spec's
words is PRESUMED or a DESIGN CHOICE (log entries 10, 11). -/

namespace Sys2Proof.Machine

namespace State

/-- A list of bytes written at a virtual address of a partition. -/
def writeVirtual (s : State) (part : Nat) : Nat → List Byte → State
  | _, [] => s
  | va, b :: rest => writeVirtual ((s.ringStore part false va 1 b.toNat).getD s) part (va + 1) rest

/-- The value of some bytes, least significant first. -/
def bytesValue (l : List Byte) : Nat := l.foldr (fun b acc => b.toNat + 256 * acc) 0

/-- Whether a host memory request can be served (R468): the endpoint is ready, and the package is not in the hold state. -/
def hostReady (s : State) : Bool := !s.asleep && bitAt (s.reg .ready 0x08) 24

/-- Whether some bytes at a virtual address stand in an HBM4 stack that is not ready (R481), or, with `calibrating`, in one that is recalibrated (R482). -/
def stackDown (s : State) (calibrating : Bool) (part addr n : Nat) : Bool :=
  (List.range (n / 65536 + 2)).any fun k =>
    let a := if k = 0 then addr else (addr / 65536 + k) * 65536
    decide (a < addr + n) &&
      match s.translate part a .read with
      | .error _ => false
      | .ok x => (s.stackOf x.phys).any fun k => if calibrating then s.calibrating.contains k else !bitAt (s.reg .ready 0x08) k

/-- A request from the host on some bytes of a partition: aborted where the endpoint or a stack is not ready, and held back, with no answer yet, while a
stack is recalibrated (R481, R482). -/
def served (s : State) (part addr n : Nat) (k : State → State) : State :=
  if !s.hostReady || s.partState part ≠ 2 || s.stackDown false part addr n then s.answer .abort
  else if s.stackDown true part addr n then s
  else k s

/-- HOST_WRITE (R170): in device memory of a partition, in the order the endpoint receives them; all of it or none. -/
def hostWrite (s : State) (part addr : Nat) (bytes : List Byte) : State :=
  s.served part addr bytes.length fun s =>
    if !s.imagePages part addr bytes.length .write then s.answer .abort else s.writeVirtual part addr bytes

/-- HOST_READ (R170). -/
def hostRead (s : State) (part addr n : Nat) : State :=
  s.served part addr n fun s =>
    match s.readVirtual part (n / 65536 + 2) addr n with
    | .error _ => s.answer .abort
    | .ok l => s.answer (.data (bytesValue l))

/-- An atomic from outside on device memory of a partition, by op of R210, with its operand and compared value: the old value is the answer. -/
def outsideAtomic (s : State) (part addr op : Nat) (bytes : List Byte) (cmp : Nat) : State :=
  let n := bytes.length
  if (n ≠ 4 && n ≠ 8) || addr % n ≠ 0 || !s.imagePages part addr n .write then s.answer .abort
  else
    match s.readWord part addr n with
    | .error _ => s.answer .abort
    | .ok old => ((s.ringStore part false addr n (atomicNew (8 * n) op old (bytesValue bytes) cmp)).getD s).answer (.data old)

/-- A PCIe AtomicOp of the host, FetchAdd, Swap or CAS by op of R210 (R211, R437). -/
def hostAtomic (s : State) (part addr op : Nat) (bytes cmp : List Byte) : State :=
  if !([0, 8, 9].contains op) then s.answer .abort
  else s.served part addr bytes.length fun s => s.outsideAtomic part addr op bytes (bytesValue cmp)

/-! ### Peers (R410) -/

/-- The live partition whose fabric tag an access carries; a tag of 0 matches none. -/
def tagged (s : State) (tag : Nat) : Option Nat :=
  if tag = 0 then none
  else s.parts.find? fun n => decide (s.partState n = 2) && decide (bitsAt (s.reg (.part n) 0x28) 0 16 = tag)

/-- Bytes cut into elements of a size. -/
def elementsOf (size : Nat) (bytes : List Byte) : List Nat :=
  (List.range (bytes.length / size)).map fun k => bytesValue ((bytes.drop (size * k)).take size)

/-- A contribution that arrives over PML (R229): accepted or discarded, which answers it, or held until its slot opens; with no room it is not taken
yet. -/
def peerContribution (s : State) (part addr : Nat) (args : List Nat) (bytes : List Byte) : State :=
  let size := args.getD 5 0
  let c : Contribution :=
    ⟨args.getD 0 0, 2, addr, part, args.getD 1 0, args.getD 2 0, args.getD 3 0, args.getD 4 0, size, elementsOf size bytes, none⟩
  match s.slotFor c with
  | some x => s.deliver x c
  | none => if 16 ≤ (s.held.filter fun h => h.slot = c.slot).length then s else { s with held := s.held ++ [c] }

/-- PEER_REQUEST: op 0 reads `args[0]` bytes, 1 writes, 2 + k performs atomic k of R210 with its compared value in `args[0]`, and 12
is a contribution with slot, rank, FOLD, FOP, TAG and element size. -/
def peerRequest (s : State) (tag addr op : Nat) (args : List Nat) (bytes : List Byte) : State :=
  match (if s.asleep || !s.peerReachable then none else s.tagged tag) with
  | none => s.answer (if op = 12 then .status 1 else .abort)
  | some part =>
    if s.rangeBusy part addr (if op = 0 then args.getD 0 0 else bytes.length) then s
    else if op = 0 then
      match s.readVirtual part (args.getD 0 0 / 65536 + 2) addr (args.getD 0 0) with
      | .error _ => s.answer .abort
      | .ok l => s.answer (.data (bytesValue l))
    else if op = 1 then
      if !s.imagePages part addr bytes.length .write then s.answer .abort else (s.writeVirtual part addr bytes).answer .done
    else if op < 12 then
      s.outsideAtomic part addr (op - 2) bytes (args.getD 0 0)
    else if op = 12 then s.peerContribution part addr args bytes
    else s.answer .abort

/-! ### Attestation (R421, R422) -/

/-- The configuration that block 4 measures, in the order R422 lists it, each field as eight bytes. -/
def configBytes (s : State) (part : Nat) : List Byte :=
  let w := Window.part part
  let regulators := (s.baysOf part).foldl (fun t b => t + s.regulatorOf b * 4 ^ b) 0
  bytesOfNat 8 (s.reg w 0x08).toNat ++ bytesOfNat 16 regulators ++
  (([0x18, 0x20, 0x28] ++ (List.range 8).map fun k => 0x30 + 8 * k).flatMap fun o => bytesOfNat 8 (s.reg w o).toNat)

/-- Measurement block 1 to 4 of a partition. -/
def measurement (s : State) (part index : Nat) : BitVec 256 :=
  match index with
  | 4 => Config.sha256 (s.configBytes part)
  | 3 => Config.measured 3 ((s.keys.find part).map (·.key) |>.getD 0)
  | n => Config.measured n 0

/-- A partition's certificate, before its signature (R421): its public key, number and BAYS, the measurements, TID.PKG and the time of
creation. -/
def certBody (s : State) (part : Nat) (k : Certified) : List Byte :=
  bytesOfNat 64 (Config.publicKey k.key).toNat ++ bytesOfNat 1 part ++ bytesOfNat 8 k.bays ++
  ((List.range 4).flatMap fun i => bytesOfNat 32 (s.measurement part (i + 1)).toNat) ++ bytesOfNat 8 s.pkg ++
  bytesOfNat 8 k.time.toNat

/-- The certificate, signed by the device identity key. -/
def certificate (s : State) (part : Nat) (k : Certified) : List Byte :=
  s.certBody part k ++ bytesOfNat 64 (Config.sign 0 (Config.sha256 (s.certBody part k))).toNat

/-- A request for a live partition, answered by the lease holder under its epoch; without a lease none answers (R422, R474). -/
def attest (s : State) (part epoch : Nat) (k : Certified → Answer) : State :=
  if !s.leased || epoch ≠ s.epoch then s.answer (.refused s.epoch)
  else
    match s.keys.find part with
    | none => s.answer (.spdm 0x7F [1])
    | some c => s.answer (k c)

/-- A number signed by a partition's key. -/
def signed (c : Certified) (bytes : List Byte) : Nat := (Config.sign c.key (Config.sha256 bytes)).toNat

/-- Bytes as numbers. -/
def asNumbers (l : List Byte) : List Nat := l.map (·.toNat)

end State

/-! ### Events -/

/-- HOST_WRITE. -/
def execHostWrite (part addr : Nat) (bytes : List Byte) (s : State) : Out := .next (s.hostWrite part addr bytes)
/-- HOST_READ. -/
def execHostRead (part addr n : Nat) (s : State) : Out := .next (s.hostRead part addr n)
/-- HOST_CONFIG_REQUEST (R468): served in every state. -/
def execHostConfigRequest (reg : Nat) (s : State) : Out := .next (s.answer (.data (Config.configSpace reg)))
/-- PEER_REQUEST. -/
def execPeerRequest (tag addr op : Nat) (args : List Nat) (bytes : List Byte) (s : State) : Out :=
  .next (s.peerRequest tag addr op args bytes)

/-- SPDM_GET_VERSION: SPDM 1.3. -/
def execSpdmGetVersion (part epoch : Nat) (s : State) : Out :=
  .next (s.attest part epoch fun _ => .spdm 0x04 [0x1300])
/-- SPDM_GET_CAPABILITIES: certificates, challenges and signed measurements, and no session. -/
def execSpdmGetCapabilities (part epoch : Nat) (s : State) : Out :=
  .next (s.attest part epoch fun _ => .spdm 0x61 [0x16])
/-- SPDM_NEGOTIATE_ALGORITHMS: ECDSA P-256 and SHA-256 only. -/
def execSpdmNegotiateAlgorithms (part epoch asym hash : Nat) (s : State) : Out :=
  .next (s.attest part epoch fun _ => .spdm 0x63 [asym &&& 0x10, hash &&& 1])
/-- SPDM_GET_DIGESTS. -/
def execSpdmGetDigests (part epoch : Nat) (s : State) : Out :=
  .next (s.attest part epoch fun c => .spdm 0x01 [(Config.sha256 (s.certificate part c)).toNat])
/-- SPDM_GET_CERTIFICATE. -/
def execSpdmGetCertificate (part epoch off len : Nat) (s : State) : Out :=
  .next (s.attest part epoch fun c => .spdm 0x02 (State.asNumbers (((s.certificate part c).drop off).take len)))
/-- SPDM_CHALLENGE. -/
def execSpdmChallenge (part epoch nonce : Nat) (s : State) : Out :=
  .next (s.attest part epoch fun c =>
    let digest := (Config.sha256 (s.certificate part c)).toNat
    .spdm 0x03 [digest, nonce, State.signed c (bytesOfNat 32 digest ++ bytesOfNat 32 nonce)])
/-- SPDM_GET_MEASUREMENTS: the number of blocks, one block, or with 0xFF all of them, signed over the nonce. -/
def execSpdmGetMeasurements (part epoch index nonce : Nat) (s : State) : Out :=
  .next (s.attest part epoch fun c =>
    let blocks (l : List Nat) : Answer :=
      let ms := l.map fun n => (s.measurement part n).toNat
      .spdm 0x60 (ms ++ [nonce, State.signed c (ms.flatMap (bytesOfNat 32) ++ bytesOfNat 32 nonce)])
    if index = 0 then .spdm 0x60 [4]
    else if index ≤ 4 then blocks [index]
    else if index = 0xFF then blocks [1, 2, 3, 4]
    else .spdm 0x7F [1])

end Sys2Proof.Machine
end

