-- ==== Sys2Proof/Machine/ScalarFloat.lean ====
section
/-! DEFINITION. The scalar floating-point instructions (OP 0x0A; R105 to R107). -/

namespace Sys2Proof.Machine

/-- Rounding mode of the scalar side (FRM, R50). -/
def Ctx.srm (c : Ctx) : RM := RM.ofCode c.frm.toNat

/-- A float instruction of two operands and one rounded result (R106). -/
def fop2 (op : RM → FVal → FVal → FVal × Flags) (d a b : BitVec 5) (f : BitVec 3) (s : State) : State :=
  s.simple [a.toNat, b.toNat] d.toNat fun c =>
    let F := fmtOf f
    roundScalar F c.srm (op c.srm (F.ofReg (c.s a.toNat)) (F.ofReg (c.s b.toNat)))

/-- A comparison of two operands into 1 or 0 (R106, R107). -/
def fcmp (ordered : Bool) (op : FVal → FVal → Bool) (d a b : BitVec 5) (f : BitVec 3) (s : State) : State :=
  s.simple [a.toNat, b.toNat] d.toNat fun c =>
    let F := fmtOf f
    let x := F.ofReg (c.s a.toNat)
    let y := F.ofReg (c.s b.toNat)
    truth (op x y) (compareFlags ordered x y)

/-- `fmin` and `fmax`: the bits of an operand, a NaN quieted, with no rounding (R106, R107). -/
def fpick (isMax : Bool) (d a b : BitVec 5) (f : BitVec 3) (s : State) : State :=
  fop2 (fun _ x y => fMinMax isMax x y) d a b f s

/-- `fadd.F sd, sa, sb` (R106). -/
def execFadd (d a b : BitVec 5) (f : BitVec 3) (s : State) : Out :=
  .next (fop2 (fun rm x y => fAdd rm x y) d a b f s)

/-- `fsub.F sd, sa, sb` (R106). -/
def execFsub (d a b : BitVec 5) (f : BitVec 3) (s : State) : Out :=
  .next (fop2 (fun rm x y => fSub rm x y) d a b f s)

/-- `fmul.F sd, sa, sb` (R106). -/
def execFmul (d a b : BitVec 5) (f : BitVec 3) (s : State) : Out :=
  .next (fop2 (fun _ x y => fMul x y) d a b f s)

/-- `fdiv.F sd, sa, sb` (R106). -/
def execFdiv (d a b : BitVec 5) (f : BitVec 3) (s : State) : Out :=
  .next (fop2 (fun _ x y => fDiv x y) d a b f s)

/-- `ffma.F sd, sa, sb` (R106): a × b + c with one rounding, c the old s[sd]. -/
def execFfma (d a b : BitVec 5) (f : BitVec 3) (s : State) : Out :=
  .next (s.simple [a.toNat, b.toNat] d.toNat fun c =>
    let F := fmtOf f
    roundScalar F c.srm
      (fFma c.srm false false (F.ofReg (c.s a.toNat)) (F.ofReg (c.s b.toNat)) (F.ofReg (c.s d.toNat))))

/-- `fsqrt.F sd, sa` (R106). -/
def execFsqrt (d a : BitVec 5) (f : BitVec 3) (s : State) : Out :=
  .next (s.simple [a.toNat] d.toNat fun c =>
    let F := fmtOf f
    roundScalar F c.srm (fSqrt (F.ofReg (c.s a.toNat))))

/-- `fmin.F sd, sa, sb` (R106). -/
def execFmin (d a b : BitVec 5) (f : BitVec 3) (s : State) : Out := .next (fpick false d a b f s)
/-- `fmax.F sd, sa, sb` (R106). -/
def execFmax (d a b : BitVec 5) (f : BitVec 3) (s : State) : Out := .next (fpick true d a b f s)
/-- `feq.F sd, sa, sb` (R106). -/
def execFeq (d a b : BitVec 5) (f : BitVec 3) (s : State) : Out := .next (fcmp false floatEq d a b f s)
/-- `flt.F sd, sa, sb` (R106). -/
def execFlt (d a b : BitVec 5) (f : BitVec 3) (s : State) : Out := .next (fcmp true floatLt d a b f s)
/-- `fle.F sd, sa, sb` (R106). -/
def execFle (d a b : BitVec 5) (f : BitVec 3) (s : State) : Out := .next (fcmp true floatLe d a b f s)

/-- `fclass.F sd, sa` (R106): one bit set. -/
def execFclass (d a : BitVec 5) (f : BitVec 3) (s : State) : Out :=
  .next (s.simple [a.toNat] d.toNat fun c =>
    let F := fmtOf f
    (BitVec.ofNat 64 (2 ^ F.classOf (F.ofReg (c.s a.toNat))), 0))

/-- `fcvt.i.F sd, sa` (R106, R107): to a signed 64-bit integer, saturating. -/
def execFcvtI (d a : BitVec 5) (f : BitVec 3) (s : State) : Out :=
  .next (s.simple [a.toNat] d.toNat fun c =>
    let (r, fl) := floatToInt c.srm (-(2 ^ 63)) (2 ^ 63 - 1) ((fmtOf f).ofReg (c.s a.toNat))
    (BitVec.ofInt 64 r, fl))

/-- `fcvt.n.F sd, sa` (R106, R107): to an unsigned 64-bit integer, saturating. -/
def execFcvtN (d a : BitVec 5) (f : BitVec 3) (s : State) : Out :=
  .next (s.simple [a.toNat] d.toNat fun c =>
    let (r, fl) := floatToInt c.srm 0 (2 ^ 64 - 1) ((fmtOf f).ofReg (c.s a.toNat))
    (BitVec.ofInt 64 r, fl))

/-- `fcvt.fi.F sd, sa` (R106): a signed 64-bit integer rounded to F. -/
def execFcvtFi (d a : BitVec 5) (f : BitVec 3) (s : State) : Out :=
  .next (s.simple [a.toNat] d.toNat fun c => roundScalar (fmtOf f) c.srm (.ofInt (c.s a.toNat).toInt, 0))

/-- `fcvt.fn.F sd, sa` (R106): an unsigned 64-bit integer rounded to F. -/
def execFcvtFn (d a : BitVec 5) (f : BitVec 3) (s : State) : Out :=
  .next (s.simple [a.toNat] d.toNat fun c => roundScalar (fmtOf f) c.srm (.ofInt (c.s a.toNat).toNat, 0))

/-- `fcvt.ff.F.S sd, sa` (R106): read in source format S, rounded to F. -/
def execFcvtFf (d a : BitVec 5) (src : BitVec 2) (f : BitVec 3) (s : State) : Out :=
  .next (s.simple [a.toNat] d.toNat fun c =>
    roundScalar (fmtOf f) c.srm ((Fmt.ofCode src.toNat).ofReg (c.s a.toNat), 0))

end Sys2Proof.Machine
end

