-- ==== Sys2Proof/Machine/Arbiter.lean ====
section
/-! DEFINITION. What a mill does beside its thread cores: the arbiter and the element groups it issues, grants, element threads, waits that end, the
external queues and the stream ports (R115, R122, R173, R231, R265, R269, R273, R274, R276), and words that are no instruction or command (R73, R110, R427). -/

namespace Sys2Proof.Machine

/-! ### The vector instructions that the arbiter and the sequencer run -/

/-- The meaning of a vector instruction, for the queue entry or issue group that `s.cur` names. A word that is no vector instruction is
not permitted in an element block (R266); a CSR number that does not exist fails before that (R75). -/
def vectorMeaning (i : Instr) (s : State) : Out :=
  match i with
  | .vconfigImm d c => execVconfigImm d c s
  | .vconfigReg d a => execVconfigReg d a s
  | .vtag c v t => execVtag c v t s
  | .setvl d a e => execSetvl d a e s
  | .setvlB d a b t => execSetvlB d a b t s
  | .vcarrySet o n => execVcarrySet o n s
  | .vcarryReg a => execVcarryReg a s
  | .vfetch b p => execVfetch b p s
  | .efetch b => execEfetch b s
  | .ebz o a => execEbz o a s
  | .ebnz o a => execEbnz o a s
  | .eend => execEend s
  | .xqsend a => execXqsend a s
  | .xqrecv d => execXqrecv d s
  | .vaddVv d a b p => execVaddVv d a b p s
  | .vsubVv d a b p => execVsubVv d a b p s
  | .vmulVv d a b p => execVmulVv d a b p s
  | .vfmaVv d a b p => execVfmaVv d a b p s
  | .vfmsVv d a b p => execVfmsVv d a b p s
  | .vfnmaVv d a b p => execVfnmaVv d a b p s
  | .vdivVv d a b p => execVdivVv d a b p s
  | .vminVv d a b p => execVminVv d a b p s
  | .vmaxVv d a b p => execVmaxVv d a b p s
  | .vabsVv d a p => execVabsVv d a p s
  | .vnegVv d a p => execVnegVv d a p s
  | .vsaddVv d a b p => execVsaddVv d a b p s
  | .vssubVv d a b p => execVssubVv d a b p s
  | .vmulhVv d a b p => execVmulhVv d a b p s
  | .vavgVv d a b p => execVavgVv d a b p s
  | .vaddVs d a r p => execVaddVs d a r p s
  | .vsubVs d a r p => execVsubVs d a r p s
  | .vmulVs d a r p => execVmulVs d a r p s
  | .vfmaVs d a r p => execVfmaVs d a r p s
  | .vfmsVs d a r p => execVfmsVs d a r p s
  | .vfnmaVs d a r p => execVfnmaVs d a r p s
  | .vdivVs d a r p => execVdivVs d a r p s
  | .vminVs d a r p => execVminVs d a r p s
  | .vmaxVs d a r p => execVmaxVs d a r p s
  | .vabsVs d r p => execVabsVs d r p s
  | .vnegVs d r p => execVnegVs d r p s
  | .vsaddVs d a r p => execVsaddVs d a r p s
  | .vssubVs d a r p => execVssubVs d a r p s
  | .vmulhVs d a r p => execVmulhVs d a r p s
  | .vavgVs d a r p => execVavgVs d a r p s
  | .vand d a b p => execVand d a b p s
  | .vor d a b p => execVor d a b p s
  | .vxor d a b p => execVxor d a b p s
  | .vnot d a p => execVnot d a p s
  | .vshl d a b p => execVshl d a b p s
  | .vshr d a b p => execVshr d a b p s
  | .vsha d a b p => execVsha d a b p s
  | .vclz d a p => execVclz d a p s
  | .vpopc d a p => execVpopc d a p s
  | .vceq q a b p => execVceq q a b p s
  | .vcne q a b p => execVcne q a b p s
  | .vclt q a b p => execVclt q a b p s
  | .vcle q a b p => execVcle q a b p s
  | .vcun q a b p => execVcun q a b p s
  | .vclass q a k p => execVclass q a k p s
  | .vsqrt d a p => execVsqrt d a p s
  | .vrcp d a p => execVrcp d a p s
  | .vrsq d a p => execVrsq d a p s
  | .vexp2f d a p => execVexp2f d a p s
  | .vlog2f d a p => execVlog2f d a p s
  | .vrndi d a p => execVrndi d a p s
  | .vgetexp d a p => execVgetexp d a p s
  | .vcvt d a t p => execVcvt d a t p s
  | .vmov d a p => execVmov d a p s
  | .vsel d a b p => execVsel d a b p s
  | .vscale d a b p => execVscale d a b p s
  | .vslideup d a r p => execVslideup d a r p s
  | .vslidedn d a r p => execVslidedn d a r p s
  | .vbfly d a r p => execVbfly d a r p s
  | .vid d p => execVid d p s
  | .vbcast d r p => execVbcast d r p s
  | .vbflyC d a r p => execVbflyC d a r p s
  | .vxg d a b p => execVxg d a b p s
  | .vcomp d a p => execVcomp d a p s
  | .vexpd d a p => execVexpd d a p s
  | .vredsum d a b p => execVredsum d a b p s
  | .vredmax d a b p => execVredmax d a b p s
  | .vredmin d a b p => execVredmin d a b p s
  | .vredand d a b p => execVredand d a b p s
  | .vredor d a b p => execVredor d a b p s
  | .vredxor d a b p => execVredxor d a b p s
  | .vtree y a p => execVtree y a p s
  | .tmerge y a => execTmerge y a s
  | .tread d y i => execTread d y i s
  | .tclear y r => execTclear y r s
  | .vscan d a o i p => execVscan d a o i p s
  | .vscana d a o i p => execVscana d a o i p s
  | .vscanmax d a o i p => execVscanmax d a o i p s
  | .pand d a b => execPand d a b s
  | .por d a b => execPor d a b s
  | .pxor d a b => execPxor d a b s
  | .pnot d a => execPnot d a s
  | .pandn d a b => execPandn d a b s
  | .pwhile d r => execPwhile d r s
  | .pcnt a b r => execPcnt a b r s
  | .pfirst a b r => execPfirst a b r s
  | .pset d v => execPset d v s
  | .vins d x b => execVins d x b s
  | .vext x a d => execVext x a d s
  | .vld d w r p => execVld d w r p s
  | .vst d w r p => execVst d w r p s
  | .vldx d w x p => execVldx d w x p s
  | .vstx d w x p => execVstx d w x p s
  | .vldff d w r p => execVldff d w r p s
  | .vgb d w x p => execVgb d w x p s
  | .vsb d w x p => execVsb d w x p s
  | .vaadd d w x p => execVaadd d w x p s
  | .vsrd d q r p => execVsrd d q r p s
  | .vswr d q r p => execVswr d q r p s
  | .vrng d r p => execVrng d r p s
  | .mtv d t x a p => execMtv d t x a p s
  | .mvt d t x a p => execMvt d t x a p s
  | .mtvc d t x p => execMtvc d t x p s
  | .csrr d k => execCsrr d k s
  | .csrw d a k => execCsrw d a k s
  | .csrs d a k => execCsrs d a k s
  | .csrc d a k => execCsrc d a k s
  | _ =>
    match s.cur with
    | .group f => .next (s.trapGroup f .block)
    | _ => .next s

namespace State

/-- The state that a meaning leaves; every vector meaning leaves one. -/
def after (s : State) (o : Out) : State :=
  match o with
  | .next t => t
  | _ => s

/-- The entry at place `k` of a context's vector queue runs one element group, or takes place whole. -/
def issueEntry (s : State) (f k : Nat) : State :=
  match (s.ctx f).vq[k]? with
  | none => s
  | some e =>
    match decodeVector e.word with
    | .ok i =>
      let t := { s with cur := .entry f k }
      t.after (vectorMeaning i t)
    | .error _ => s

/-- The issue group of a context's element threads executes its word (R269). -/
def issueBlocks (s : State) (f : Nat) : State :=
  match (s.ctx f).blocks with
  | none => s
  | some b =>
    match s.issueGroup f b with
    | (_, []) => s
    | (off, m :: _) =>
      match s.blockFetch f off with
      | .error t => s.groupTrap f m.elem off t
      | .ok w =>
        let t := { s with cur := .group f }
        match decodeThread w with
        | .ok i => t.after (vectorMeaning i t)
        | .error .gangWrite => t.trapGroup f .block
        | .error _ => t.trapGroup f .illegal

/-! ### The arbiter (R273, R274) -/

/-- Issue slots of a mill: one for each lane group in service, fewer while a droop throttles it (R286) or ballast takes some (R287; log entry 56). -/
def issueSlots (s : State) (m : Nat) : Nat :=
  let x := s.mill m
  let all := ((List.range 16).filter fun i => bitAt x.lgmask i).length
  max 1 (min all (x.slots.getD all) - if x.ballast then Config.ballast m s.gtime.toNat else 0)

/-- Whether an agent can act: it runs, on a die in service, outside the hold state. -/
def acts (s : State) (f : Nat) : Bool :=
  (s.ctx f).life = .running && !s.asleep && !s.fenced.contains (dieOf f)

/-- Whether accesses of an agent go on: those of a stopped one perform as well (R277). -/
def accessing (s : State) (f : Nat) : Bool :=
  (s.ctx f).life ≠ .free && !s.asleep && !s.fenced.contains (dieOf f)

/-- Whether a context has an element group to issue, waits of its instructions apart. A debug stop that is due lets only the convoy in
flight go on. -/
def hasWork (s : State) (f : Nat) : Bool :=
  let c := s.ctx f
  s.acts f && c.late.isNone &&
  match c.blocks with
  | some b => !(s.issueGroup f b).2.isEmpty
  | none =>
    match c.vq with
    | [] => false
    | e :: _ => opOf e.word ≠ 0x1E && (!c.barred || decide (c.convoyLeft ≠ 0))

/-- Whether a context that stood at `c` has made progress: performed an element group, received a slot of several, or completed an instruction. -/
def moved (t : State) (f : Nat) (c : Ctx) : Bool := decide ({ t.ctx f with wait := c.wait } ≠ c)

/-- The first of some members of a convoy that no wait holds goes on. Where every one waits the state keeps what is waited
for. -/
def issueFirst (f : Nat) : List Nat → State → Except State State
  | [], s => .error s
  | k :: rest, s =>
    let s1 := s.modCtx f fun c => { c with order := c.order.erase k }
    let t := s1.issueEntry f k
    if t.moved f (s1.ctx f) then .ok t else issueFirst f rest t

/-- The members of the convoy that have an element group to issue: those that the agenda has asked for, then as `ready` lists them. -/
def candidates (f : Nat) (c : Ctx) : List Nat :=
  let ready := c.ready f
  c.order.filter ready.contains ++ ready

/-- What a context does with one issue slot (R269, R272, R273): an element group of its convoy, or a slot of its issue group. What takes no slot comes first:
an instruction with no element group completes, a `vfetch` begins, and a failed check traps. A wait of R276 takes no slot. -/
def issueWithin (f : Nat) : Nat → State → Except State State
  | 0, s => .error s
  | n + 1, s =>
    if !s.hasWork f then .error s
    else if (s.ctx f).blocks.isSome then
      let t := s.issueBlocks f
      if t.moved f (s.ctx f) then .ok t else .error s
    else
      let s1 := s.modCtx f Ctx.beginConvoy
      match issueFirst f (candidates f (s1.ctx f)) s1 with
      | .error t => .error t
      | .ok t => if (t.ctx f).took then .ok (t.modCtx f fun c => { c with took := false }) else issueWithin f n t

/-- The same, within the instructions that a queue holds. -/
def issueOne (s : State) (f : Nat) : Except State State := issueWithin f 64 s

/-- A turn of the agenda that asks for the member at place `k` of a context's convoy: the next slot that the context is granted goes to it, if it may
begin by then (log entry 98). -/
def askMember (s : State) (f k : Nat) : State := s.modCtx f fun c => { c with order := (c.order ++ [k]).take 32 }

/-- The loop of R274 for one cycle. -/
def arbitrate (m : Nat) : Nat → Nat → Nat → State → State
  | 0, _, _, s => s
  | n + 1, free, idle, s =>
    if free = 0 || 16 ≤ idle then s
    else
      let mill := s.mill m
      let f := 16 * m + mill.pointer
      let next (s : State) : State := s.modMill m fun x => { x with pointer := (x.pointer + 1) % 16, fresh := true }
      match s.issueOne f with
      | .error t => arbitrate m n free (idle + 1) (next (t.modCtx f fun c => { c with deficit := 0 }))
      | .ok t =>
        let d := (s.ctx f).deficit + (if mill.fresh then 4 * (s.ctx f).share else 0) - 1
        let t1 := (t.modCtx f fun c => { c with deficit := d }).modMill m fun x => { x with fresh := false }
        arbitrate m n (free - 1) 0 (if d = 0 then next t1 else t1)

/-- One arithmetic cycle of a mill's arbiter. -/
def arbiterCycle (s : State) (m : Nat) : State :=
  let k := s.issueSlots m
  s.arbitrate m (17 * k + 16) k 0

/-- A grant, or another member of OP 0x1E, at a queue's head takes place (R130, R138). -/
def applyHead (s : State) (f : Nat) : State :=
  let c := s.ctx f
  match c.vq with
  | [] => s
  | e :: _ => if s.acts f && c.late.isNone && opOf e.word = 0x1E && !c.barred then s.issueEntry f 0 else s

/-- Whether every element thread of a `vfetch` has ended. -/
def blocksOver (s : State) (f : Nat) : Bool :=
  match (s.ctx f).blocks with
  | some b => b.threads.all fun t => !t.live
  | none => false

/-- A `vfetch` completes: what is left in the links is discarded (R265, R268). -/
def endBlocks (s : State) (f : Nat) : State :=
  match (s.ctx f).vq with
  | [] => s
  | e :: _ =>
    if s.acts f && (s.ctx f).late.isNone && s.blocksOver f then
      (s.sample f 0 e (s.ctx f).eb).modCtx f fun c => (Ctx.popEntry { c with blocks := none }).vretire
    else s

/-! ### Waits (R276) -/

/-- Whether the condition of a wait holds. A gang, a ganged `setvl` and a `gbar` complete for every member at once, with the last one's
own step. -/
def waitOver (s : State) (f : Nat) (w : Wait) : Bool :=
  let c := s.ctx f
  match w with
  | .vectorQueue => decide (c.vq.length < 32)
  | .externalQueue => decide (c.xq.length < 16)
  | .pendingRegister rs => !rs.any c.pending
  | .waitx n => decide (c.xq.length ≤ n)
  | .earlier | .brk => c.quiet && s.matIdle f
  | .certain => c.quiet || c.certain
  | .sleep t => decide (t ≤ s.gtime)
  | .counter n v => decide (v ≤ s.counterOf f n) || (isCore f && c.matErr.isSome)
  | .release => s.released f
  | .fence whole m => !s.fenceWaits f whole m
  | .views n => !c.viaOpen n
  | .meets d => !s.xqMeets f d
  | .pin ps => s.pinRoom (s.partOf f) (dieOf f) ps
  | .port p => decide ((s.port (millOf f) p).length < 4)
  | .element q j => s.canArrive f q j
  | .order w seen => !s.orderHeld f w seen
  | .viewCount n => decide (viewCount c n < 4095)
  | .draining => (s.freeDraining (millOf f)).isSome
  | .streamCount q t => !transferQueued c q && ((s.streamTally f q t).map (·.2)).getD true
  | .unbind q =>
    !transferQueued c q &&
    match s.streamReg f q with
    | none => true
    | some r =>
      match s.bindingOf r q with
      | none => true
      | some b => b.pend.isEmpty && !(r.gang && s.readingNow r q f)
  | .gang => c.ganged
  | .gangSetvl => (s.gangOf f).all fun m => (s.pushOf m ((c.gang.map (·.pushes)).getD 0)).isSome
  | .gbar => c.arrived.isNone
  | .joinl h => if h = 0 then c.children.all fun e => c.exited.contains e.1 else c.exited.contains h
  | .blocks => !c.fetching
  | .arrays as => as.all fun n => decide ((s.mill (millOf f + n)).queue.length < 16)

/-- A context goes on once the condition of its wait holds: its instruction is executed again at its next turn. -/
def endWait (s : State) (f : Nat) : State :=
  match (s.ctx f).wait with
  | none => s
  | some w => if s.acts f && s.waitOver f w then s.modCtx f fun c => { c with wait := none } else s

/-! ### Stream ports (R173, R231) -/

/-- The binding in force at a port starts. -/
def startBinding (s : State) (m p : Nat) : State :=
  match s.port m p with
  | [] => s
  | b :: rest =>
    if s.asleep || !s.streamLive b || !s.canStart b then s else s.setPort m p ({ b with started := true } :: rest)

/-- Whether a read binding can fetch ahead: an idempotent stream with room, and an element left. -/
def canFetch (b : Binding) : Bool :=
  b.started && !b.write && !b.device && decide (b.buf.length < Binding.room b) &&
  decide (b.base + b.buf.length < View.count b.desc)

/-- The binding in force moves one element: a write held performs, or an element arrives. A fault is left to the read that meets
it. -/
def moveElement (s : State) (m p : Nat) : State :=
  match s.port m p with
  | [] => s
  | b :: rest =>
    if s.asleep || !b.started || !s.streamLive b then s
    else if !b.pend.isEmpty then (if s.elementBusy b ((b.pend.head?.map (·.1)).getD 0) then s else s.performPending m p b rest)
    else if canFetch b && !s.elementBusy b (b.base + b.buf.length) then
      match s.fetchNext ⟨b.flat, p, b.desc, b.write, b.gang, 0⟩ b.q b with
      | .ok t => t
      | .error _ => s
    else s

/-! ### Words that are no instruction (R73, R110, R232) -/

/-- The trap of a word that an agent's decoder rejects. -/
def rejectTrap (core : Bool) (w : Word) : Trap :=
  if core then (if matrixView w then .operand else .illegal)
  else
    match decodeThread w with
    | .error .gangWrite => .operand
    | _ => .illegal

end State

/-! ### Events -/

/-- ARBITER_CYCLE (R274). -/
def execArbiterCycle (mill : Nat) (s : State) : Out := .next (if mill < 144 then s.arbiterCycle mill else s)
/-- GRANT_APPLY (R138). -/
def execGrantApply (flat : Nat) (s : State) : Out := .next (s.applyHead flat)
/-- VFETCH_COMPLETE (R265). -/
def execVfetchComplete (flat : Nat) (s : State) : Out := .next (s.endBlocks flat)
/-- WAIT_END (R276). -/
def execWaitEnd (flat : Nat) (s : State) : Out := .next (s.endWait flat)
/-- SLEEP_EXPIRY (R122). -/
def execSleepExpiry (flat : Nat) (s : State) : Out :=
  .next (
    match (s.ctx flat).wait with
    | some (.sleep t) => if s.acts flat && decide (t ≤ s.gtime) then s.modCtx flat fun c => { c with wait := none } else s
    | _ => s)
/-- XQ_ENTRY_COMPLETE (R115, R118): the oldest entry completes, or fails. A turn `access` of the agenda completes any other that nothing before it holds (R159). -/
def execXqEntryComplete (flat : Nat) (failed : Bool) (s : State) : Out :=
  .next (if s.accessing flat then s.accessTurn flat 0 failed else s)
/-- STREAM_BINDING_START (R173, R231). -/
def execStreamBindingStart (mill port : Nat) (s : State) : Out := .next (s.startBinding mill port)
/-- STREAM_FETCH (R231). -/
def execStreamFetch (mill port : Nat) (s : State) : Out := .next (s.moveElement mill port)

/-- ILLEGAL_INSTRUCTION (R73): met by the agent whose turn it is. -/
def execIllegalInstruction (word : Word) (s : State) : Out :=
  .next (
    match s.cur with
    | .agent f => s.trapHere f (State.rejectTrap (isCore f) word)
    | .group f => s.trapGroup f .illegal
    | _ => s)
/-- FETCH_OUTSIDE_IMAGE (R110). -/
def execFetchOutsideImage (s : State) : Out :=
  .next (
    match s.cur with
    | .agent f =>
      if (s.ctx f).pc = exitAddress.toNat then haltContext 0 s else s.trapHere f (.access (s.ctx f).pc)
    | _ => s)
/-- ILLEGAL_COMMAND (R427). -/
def execIllegalCommand (_word : Word) (s : State) : Out :=
  .next (
    match s.cur with
    | .queue die slot => s.faultQueue die slot 1 false
    | _ => s)

end Sys2Proof.Machine
end

