-- ==== Sys2Proof/Machine/Branch.lean ====
section
/-! DEFINITION. Branches and jumps (OP 0x0B to 0x12; R58, R108, R109). -/

namespace Sys2Proof.Machine

/-- A branch: to pc + SExt(off16, 64) × 4 when the comparison holds, else to pc + 4 (R108). -/
def branch (cmp : Dword → Dword → Bool) (a b : BitVec 5) (o : BitVec 16) (s : State) : State :=
  s.scalar [a.toNat, b.toNat] fun f c s =>
    s.setCtx f (c.retire (if cmp (c.s a.toNat) (c.s b.toNat) then target c.pc o else c.pc + 4))

/-- `beq sa, sb, target` (R108). -/
def execBeq (a b : BitVec 5) (o : BitVec 16) (s : State) : Out := .next (branch (fun x y => x = y) a b o s)
/-- `bne sa, sb, target` (R108). -/
def execBne (a b : BitVec 5) (o : BitVec 16) (s : State) : Out := .next (branch (fun x y => x ≠ y) a b o s)
/-- `blt sa, sb, target` (R108): signed. -/
def execBlt (a b : BitVec 5) (o : BitVec 16) (s : State) : Out := .next (branch (fun x y => x.toInt < y.toInt) a b o s)
/-- `bge sa, sb, target` (R108): signed. -/
def execBge (a b : BitVec 5) (o : BitVec 16) (s : State) : Out := .next (branch (fun x y => y.toInt ≤ x.toInt) a b o s)
/-- `bltn sa, sb, target` (R108): unsigned. -/
def execBltn (a b : BitVec 5) (o : BitVec 16) (s : State) : Out := .next (branch (fun x y => x.toNat < y.toNat) a b o s)
/-- `bgen sa, sb, target` (R108): unsigned. -/
def execBgen (a b : BitVec 5) (o : BitVec 16) (s : State) : Out := .next (branch (fun x y => y.toNat ≤ x.toNat) a b o s)

/-- `jal sd, target` (R109). -/
def execJal (d : BitVec 5) (o : BitVec 21) (s : State) : Out :=
  .next (s.scalar [d.toNat] fun f c s =>
    s.setCtx f ((c.setS d.toNat (BitVec.ofNat 64 (c.pc + 4))).retire (target c.pc o)))

/-- `jalr sd, sa, #imm` (R109). A target that is no multiple of 4 raises the alignment trap, with the target as the
faulting address, and no register is written (R58). -/
def execJalr (d a : BitVec 5) (i : BitVec 16) (s : State) : Out :=
  .next (s.scalar [d.toNat, a.toNat] fun f c s =>
    let t := c.s a.toNat + sext i
    if t.toNat % 4 ≠ 0 then s.trapHere f (.align t.toNat)
    else s.setCtx f ((c.setS d.toNat (BitVec.ofNat 64 (c.pc + 4))).retire t.toNat))

end Sys2Proof.Machine
end

