-- ==== Sys2Proof/Machine/Tailor.lean ====
section
/-! DEFINITION. The Tailor: what a kernel names and where, the tests of a pair, and the spliced kernel, as functions of the words, blocks and
descriptors of the two kernels (R238 to R252). -/

namespace Sys2Proof.Machine

/-! ### What a linear reading of a kernel knows (R243) -/

/-- Constants of scalar registers, descriptor addresses of views, tags of registers, and log2 G, in text order. -/
structure Known where
  consts : Assoc Nat
  views : Assoc Nat
  tags : Assoc Nat
  g : Nat

/-- What is known at a launch's entry: s0 is 0, every tag none, and G is 1 (R56). -/
def Known.start : Known := ⟨[(0, 0)], [], [], 0⟩

namespace Known

/-- A scalar register after a word, where the word computes it from known values. -/
def result (k : Known) (pc : Nat) (w : Word) : Option Nat :=
  let a := Assoc.find k.consts (bitsAt w 16 5)
  let b := Assoc.find k.consts (bitsAt w 11 5)
  let imm := (BitVec.ofNat 64 (bitsAt w 0 16)).toNat
  let simm := ((BitVec.ofNat 16 imm).signExtend 64).toNat
  let m (x : Nat) : Nat := x % 2 ^ 64
  match opOf w with
  | 0x02 => a.map fun x => m (x + simm)
  | 0x03 => a.map fun x => x &&& simm
  | 0x04 => a.map fun x => x ||| simm
  | 0x05 => a.map fun x => x ^^^ simm
  | 0x07 =>
    match bitsAt w 6 2 with
    | 0 => a.map fun x => m (x * 2 ^ bitsAt w 0 6)
    | 1 => a.map fun x => x / 2 ^ bitsAt w 0 6
    | _ => a.map fun x => ((BitVec.ofNat 64 x).sshiftRight (bitsAt w 0 6)).toNat
  | 0x08 => some (((BitVec.ofNat 21 (bitsAt w 0 21)).signExtend 64 <<< 16).toNat)
  | 0x09 => some (m (pc + ((BitVec.ofNat 21 (bitsAt w 0 21)).signExtend 64).toNat * 4))
  | 0x01 =>
    match a, b with
    | some x, some y =>
      match bitsAt w 0 11 with
      | 0 => some (m (x + y))
      | 1 => some (m (x + 2 ^ 64 - y))
      | 2 => some (x &&& y)
      | 3 => some (x ||| y)
      | 4 => some (x ^^^ y)
      | 5 => some (m (x * 2 ^ (y % 64)))
      | _ => none
    | _, _ => none
  | _ => none

/-- What is known after a word. -/
def after (k : Known) (pc : Nat) (w : Word) : Known :=
  let c1 := (regFields w).foldl (fun (cs : Assoc Nat) f =>
    if f.cls = .s && f.wr then (List.range f.span).foldl (fun cs j => if f.num w + j = 0 then cs else Assoc.erase cs (f.num w + j)) cs
    else cs) k.consts
  let d := bitsAt w 21 5
  let c2 :=
    match k.result pc w with
    | some v => if d = 0 then c1 else Assoc.put c1 d v
    | none => c1
  let views :=
    if opOf w = 0x2D && bitsAt w 0 11 = 3 then
      match Assoc.find k.consts (bitsAt w 16 5) with
      | some a => if bitsAt w 11 4 = 15 then Assoc.put k.views (bitsAt w 21 4) a else Assoc.erase k.views (bitsAt w 21 4)
      | none => Assoc.erase k.views (bitsAt w 21 4)
    else if opOf w = 0x2D && bitsAt w 0 11 = 4 then Assoc.erase k.views (bitsAt w 21 4)
    else k.views
  let tags :=
    if opOf w = 0x1E && bitsAt w 0 4 = 1 then
      (List.range (2 ^ bitsAt w 14 2)).foldl (fun (t : Assoc Nat) j =>
        Assoc.put t (bitsAt w 8 6 + j * 2 ^ k.g) (bitsAt w 4 4)) k.tags
    else if opOf w = 0x24 && bitsAt w 0 4 = 7 then Assoc.put k.tags (bitsAt w 20 6) (bitsAt w 8 4)
    else k.tags
  let g := if opOf w = 0x1E && bitsAt w 0 4 = 0 && !bitAt w 15 then bitsAt w 4 2 else k.g
  ⟨c2, views, tags, g⟩

end Known

/-- The words of a kernel with their byte offsets from the entry and what is known before each. -/
def reading (entry : Nat) : Known → Nat → List Word → List (Nat × Word × Known)
  | _, _, [] => []
  | k, off, w :: rest => (off, w, k) :: reading entry (k.after (entry + off) w) (off + 4) rest

/-! ### A kernel and its computed descriptor (R240 to R243) -/

/-- A kernel: its launch descriptor, the words from the entry that its splice descriptor counts, all the words of its code image from there, its element
blocks, and its splice descriptor. -/
structure Kernel where
  desc : Line
  words : List Word
  image : List Word
  blocks : List Word
  hdr : Line
  entries : List Nat

namespace Kernel

def codelen (k : Kernel) : Nat := bitsAt k.hdr 256 32
def head (k : Kernel) : Nat := bitsAt k.hdr 0 32
def tail (k : Kernel) : Nat := bitsAt k.hdr 32 32
/-- The word at a byte offset from the entry. -/
def word (k : Kernel) (off : Nat) : Word := k.words.getD (off / 4) 0

/-- The words with what is known before each. -/
def read (k : Kernel) : List (Nat × Word × Known) := reading (Desc.entry k.desc) Known.start 0 k.words

/-- Registers of a class that a word names. -/
def namesIn (cls : Cls) (kn : Known) (w : Word) : List Nat :=
  let plain := (regFields w).flatMap fun f =>
    if f.cls = cls then (List.range f.span).map (f.num w + ·) else []
  let more :=
    if cls = .v && opOf w = 0x1E && bitsAt w 0 4 = 1 then
      (List.range (2 ^ bitsAt w 14 2)).map fun j => bitsAt w 8 6 + j * 2 ^ kn.g
    else if cls = .v && opOf w = 0x27 && bitsAt w 0 4 ≤ 2 && Assoc.getD kn.tags (bitsAt w 14 6) 0 = Tag.code .d8b then
      [bitsAt w 14 6 + 2 ^ kn.g]
    else if cls = .w && opOf w = 0x19 then (List.range 16).filter fun n => bitAt w n
    else []
  plain ++ more

/-- Registers of a class that the kernel names in its words and blocks. -/
def named (k : Kernel) (cls : Cls) : List Nat :=
  (k.read.flatMap fun (x : Nat × Word × Known) => namesIn cls x.2.2 x.2.1) ++
  (k.blocks.flatMap fun w => namesIn cls Known.start w)

/-- A mask with the bits of some numbers, from `lo` to `hi`. -/
def maskOf (ns : List Nat) (lo hi : Nat) : Nat :=
  (List.range (hi + 1)).foldl (fun acc n => if lo ≤ n && ns.contains n then acc + 2 ^ n else acc) 0

/-- Octets named. -/
def voct (k : Kernel) : Nat := maskOf ((k.named .v).map (· / 8)) 0 7

/-- USES (R240). -/
def uses (k : Kernel) : Nat :=
  let ws := k.words ++ k.blocks
  let csr (ns : List Nat) : Bool := ws.any fun w =>
    opOf w = 0x1C && [1, 2, 3, 4].contains (bitsAt w 0 4) && ns.contains (bitsAt w 4 12)
  b2n (csr [0x40] || ws.any fun w => opOf w = 0x28 && bitsAt w 8 2 ≠ 0) +
  2 * b2n (csr [0x30, 0x31] || ws.any fun w => opOf w = 0x2E) +
  4 * b2n (csr [0x41, 0x42] || ws.any fun w => opOf w = 0x1F && [5, 6].contains (bitsAt w 0 4)) +
  8 * b2n (ws.any fun w => opOf w = 0x2F)

/-- A branch of OP 0x0B to 0x10, and its target from its own offset (R60). -/
def isBranch (w : Word) : Bool := decide (0x0B ≤ opOf w) && decide (opOf w ≤ 0x10)
def target (off : Nat) (w : Word) : Int := off + (BitVec.ofNat 16 (bitsAt w 0 16)).toInt * 4

/-- The region of an offset: prologue, loop, epilogue, or outside the kernel (R241). -/
def region (k : Kernel) (x : Int) : Nat :=
  if x < 0 || (k.codelen : Int) ≤ x then 3 else if x < k.head then 0 else if x ≤ k.tail then 1 else 2

/-- `jalr s0, s1, #0` and `halt #0` (R241). -/
def returnWord : Word := 0x48010000
def haltWord : Word := 0x70000006

/-- The CONFIG operands of the kernel's `vconfig` instructions. -/
def configs (k : Kernel) : List Nat :=
  (k.words.filter fun w => opOf w = 0x1E && bitsAt w 0 4 = 0 && !bitAt w 15).map fun w => bitsAt w 4 11

/-- The matched accesses: `vst` and `vld` of the loop through a view whose descriptor has a MATCH, with TAG, DIR, MATCH,
OFFSET and DESC as in an entry. -/
def matched (k : Kernel) (line : Nat → Line) : List (Nat × Word × Nat) :=
  k.read.filterMap fun (x : Nat × Word × Known) =>
    let (off, w, kn) := x
    if k.head ≤ off && off ≤ k.tail && opOf w = 0x2B && bitsAt w 0 6 ≤ 1 then
      match Assoc.find kn.views (bitsAt w 16 4) with
      | none => none
      | some a =>
        let m := bitsAt (line a) 120 8
        if m = 0 then none
        else
          let tag := Assoc.getD kn.tags (bitsAt w 20 6) 0
          let dir := 1 - bitsAt w 0 6
          some (off, w, a + off * 2 ^ 64 + m * 2 ^ 96 + dir * 2 ^ 104 + tag * 2 ^ 105)
    else none

/-- Whether the words at two offsets are the head and the back branch of a canonical loop (R242). -/
def loopForm (k : Kernel) (head tail : Nat) : Bool :=
  let h := k.word head
  let t := k.word tail
  let b := k.word (tail - 4)
  let sx := bitsAt t 21 5
  opOf h = 0x1E && [2, 3].contains (bitsAt h 0 4) && bitsAt h 21 5 ≠ 0 &&
  opOf t = 0x0C && bitsAt t 16 5 = 0 && target tail t = (head : Int) &&
  opOf b = 0x01 && bitsAt b 0 11 = 1 && bitsAt b 21 5 = sx && bitsAt b 16 5 = sx && bitsAt b 11 5 = bitsAt h 21 5

/-- Whether a word ends what runs on from it: `halt`, or a jump that links nothing. -/
def ends (w : Word) : Bool := (opOf w = 0x1C && bitsAt w 0 4 = 6) || ((opOf w = 0x11 || opOf w = 0x12) && bitsAt w 21 5 = 0)

/-- Bytes of the kernel that begins a list of words: up to the first word that ends it with no branch or jump before it that goes further. `top` is the
furthest target met (log entry 38). -/
def extent : Nat → Int → List Word → Nat
  | off, _, [] => off
  | off, top, w :: rest =>
    let jump : Int := off + (BitVec.ofNat 21 (bitsAt w 0 21)).toInt * 4
    let top := if isBranch w then max top (target off w) else if opOf w = 0x11 then max top jump else top
    if ends w && top ≤ off then off + 4 else extent (off + 4) top rest

/-- The loop that the words of a kernel give (R243): of its backward branches in text order, those of a canonical form before the others, the first that
encloses an access of a view with a MATCH, or the first (log entry 38). -/
def loop (k : Kernel) (line : Nat → Line) : Option (Nat × Nat) :=
  let backs := k.read.filterMap fun (x : Nat × Word × Known) =>
    if isBranch x.2.1 && 0 ≤ target x.1 x.2.1 && target x.1 x.2.1 ≤ x.1 then some ((target x.1 x.2.1).toNat, x.1) else none
  let tile (l : Nat × Nat) : Bool := k.read.any fun (x : Nat × Word × Known) =>
    l.1 ≤ x.1 && x.1 ≤ l.2 && opOf x.2.1 = 0x2B && bitsAt x.2.1 0 6 ≤ 1 &&
    (Assoc.find x.2.2.views (bitsAt x.2.1 16 4)).any fun a => bitsAt (line a) 120 8 ≠ 0
  let forms := backs.filter fun l => k.loopForm l.1 l.2
  (forms.find? tile).or (forms.head?.or ((backs.find? tile).or backs.head?))

/-- Whether the loop is canonical (R242). -/
def canonical (k : Kernel) (line : Nat → Line) : Bool :=
  k.loopForm k.head k.tail &&
  (k.read.all fun (x : Nat × Word × Known) =>
    !(k.head ≤ x.1 && x.1 ≤ k.tail && isBranch x.2.1) || k.region (target x.1 x.2.1) = 1) &&
  ((k.matched line).all fun x => bitsAt x.2.1 6 4 = 0) && (k.configs.eraseDups.length ≤ 1)

/-- FLAGS (R241). -/
def flags (k : Kernel) (line : Nat → Line) : Nat :=
  let last := k.words.getLast?.getD 0
  let body := k.words.dropLast
  let ends (w : Word) : Bool := decide (w = returnWord) || (opOf w = 0x1C && bitsAt w 0 4 = 6)
  let wrote (n : Nat) : Bool := k.words.any fun w =>
    (fieldsOf .s true w).contains n
  b2n ((k.named .s).contains 2) +
  2 * b2n (wrote 1 || wrote 3 || wrote 4) +
  4 * b2n ((k.words.any fun w => opOf w = 0x11) || (body.any fun w => opOf w = 0x12) ||
    (opOf last = 0x12 && last ≠ returnWord)) +
  8 * b2n (k.read.any fun (x : Nat × Word × Known) =>
    isBranch x.2.1 && k.region (target x.1 x.2.1) ≠ k.region x.1) +
  16 * b2n (k.words.any fun w =>
    (opOf w = 0x1E && [0, 4].contains (bitsAt w 0 4) && bitAt w 15) ||
    (opOf w = 0x1C && [2, 3, 4].contains (bitsAt w 0 4) &&
      [0x10, 0x16, 0x17, 0x18, 0x19, 0x1A, 0x1B].contains (bitsAt w 4 12))) +
  32 * b2n ((last ≠ haltWord && last ≠ returnWord) || body.any ends) +
  64 * b2n (!k.canonical line)

/-- Whether the descriptor is well formed, and agrees with what the Tailor computes (R243). How CODELEN, HEAD and TAIL are computed from the words the spec
does not say; `extent` and `loop` do it (log entry 38). -/
def agrees (k : Kernel) (line : Nat → Line) : Bool :=
  let d := k.desc
  let h := k.hdr
  bitsAt h 288 224 = 0 && bitsAt h 212 44 = 0 && bitsAt h 188 4 = 0 && bitsAt h 83 5 = 0 && bitsAt h 92 4 = 0 &&
  bitsAt h 64 8 ≤ 16 &&
  k.codelen % 4 = 0 && k.codelen ≠ 0 && Desc.entry d + k.codelen ≤ Desc.codelen d &&
  k.codelen = extent 0 0 k.image && ((k.loop line).all fun l => l = (k.head, k.tail)) &&
  k.head % 4 = 0 && k.tail % 4 = 0 && k.head < k.tail && k.tail < k.codelen &&
  bitsAt h 200 12 = Desc.plen d && bitsAt h 192 8 = Desc.nblk d &&
  bitsAt h 184 4 = maskOf (k.named .y) 0 3 && bitsAt h 176 8 = maskOf (k.named .q) 0 7 &&
  bitsAt h 160 16 = maskOf (k.named .w) 1 14 && bitsAt h 128 32 = maskOf (k.named .s) 5 31 &&
  bitsAt h 112 16 = maskOf (k.named .p) 1 15 && bitsAt h 104 8 = k.voct &&
  bitsAt h 96 8 = k.flags line && bitsAt h 88 8 = k.uses && bitsAt h 72 11 = k.configs.headD 0 &&
  (k.entries.all fun e => e % 64 = 0) && bitsAt h 64 8 = (k.matched line).length && decide (k.entries = (k.matched line).map fun x => x.2.2)

end Kernel

/-! ### Renumbering (R246) -/

/-- The consumer's new register numbers by class. -/
abbrev Renumber := Cls → Nat → Nat

/-- A list of old numbers mapped in order onto a list of new ones. -/
def mapInOrder (olds news : List Nat) (n : Nat) : Nat := ((olds.zip news).find? fun p => p.1 = n).elim n (·.2)

/-- Registers of a class that may be renumbered, and those the producer leaves free. -/
def classOld (k : Kernel) (cls : Cls) : List Nat :=
  match cls with
  | .v => (List.range 8).filter fun n => ((k.named .v).map (· / 8)).contains n
  | .s => ((List.range 32).drop 5).filter fun n => (k.named .s).contains n
  | .p => ((List.range 16).drop 1).filter fun n => (k.named .p).contains n
  | .w => ((List.range 15).drop 1).filter fun n => (k.named .w).contains n
  | .q => (List.range 8).filter fun n => (k.named .q).contains n
  | .y => (List.range 4).filter fun n => (k.named .y).contains n
def classFree (k : Kernel) (cls : Cls) : List Nat :=
  let all : List Nat :=
    match cls with
    | .v => List.range 8
    | .s => (List.range 32).drop 6
    | .p => (List.range 16).drop 1
    | .w => (List.range 15).drop 1
    | .q => List.range 8
    | .y => List.range 4
  all.filter fun n => !(classOld k cls).contains n

/-- The renumbering of a consumer beside a producer. -/
def renumbering (k0 k1 : Kernel) : Renumber := fun cls n =>
  match cls with
  | .v => 8 * mapInOrder (classOld k1 .v) (classFree k0 .v) (n / 8) + n % 8
  | c => mapInOrder (classOld k1 c) (classFree k0 c) n

/-- A consumer's word renumbered, its block numbers raised by the producer's NBLK. A number of 32 or above keeps its low 5 bits in the field of a `vcarry`
(DESIGN CHOICE, log entry 131). -/
def renumber (r : Renumber) (nblk : Nat) (w : Word) : Word :=
  let w1 := (regFields w).foldl (fun (x : Word) f => setBits x f.lo f.width (r f.cls (f.num w))) w
  if opOf w = 0x19 then
    setBits w1 0 16 ((List.range 16).foldl (fun acc n =>
      if bitAt w n then acc ||| 2 ^ (if n = 0 || n = 15 then n else r .w n) else acc) 0)
  else if opOf w = 0x1F && bitsAt w 0 4 ≤ 1 then setBits w1 20 6 (bitsAt w 20 6 + nblk)
  else w1

/-! ### The tests of a pair (R244) -/

/-- Set bits of a mask. -/
def popcount (x n : Nat) : Nat := ((List.range n).filter fun k => x / 2 ^ k % 2 = 1).length

/-- Fields of a matched access's entry. -/
def entryDesc (e : Nat) : Nat := e % 2 ^ 64
def entryMatch (e : Nat) : Nat := e / 2 ^ 96 % 256
def entryLoad (e : Nat) : Bool := e / 2 ^ 104 % 2 = 1
def entryTag (e : Nat) : Nat := e / 2 ^ 105 % 16

/-- Match numbers of two kernels, in ascending order. -/
def matchNumbers (e0 e1 : List (Nat × Word × Nat)) : List Nat :=
  (List.range 256).filter fun m => (e0 ++ e1).any fun x => entryMatch x.2.2 = m

/-- Condition 0x06 for a match number. -/
def matchBad (line : Nat → Line) (e0 e1 : List (Nat × Word × Nat)) (m : Nat) : Bool :=
  let of (l : List (Nat × Word × Nat)) (load : Bool) := l.filter fun x => entryMatch x.2.2 = m && entryLoad x.2.2 = load
  let lone (a b : List (Nat × Word × Nat)) (load : Bool) : Bool := !(of a load).isEmpty && (of b (!load)).isEmpty
  lone e0 e1 true || lone e0 e1 false || lone e1 e0 true || lone e1 e0 false ||
  1 < (of e0 true).length || 1 < (of e0 false).length || 1 < (of e1 true).length || 1 < (of e1 false).length ||
  (((e0 ++ e1).filter fun x => entryMatch x.2.2 = m).map fun x => line (entryDesc x.2.2)).eraseDups.length > 1

/-- The words of a kernel's element block. -/
def Kernel.block (k : Kernel) (b : Nat) : List Word := (k.blocks.drop (32 * b)).take 32

/-- The blocks that `efetch` reaches from some blocks, in at most `n` steps. -/
def Kernel.reached (k : Kernel) : Nat → List Nat → List Nat
  | 0, bs => bs
  | n + 1, bs =>
    reached k n (bs ++ bs.flatMap fun b =>
      ((k.block b).filter fun w => opOf w = 0x1F && bitsAt w 0 4 = 1).map fun w => bitsAt w 20 6).eraseDups

/-- Whether a word writes vector register v: a `vbfly.c` writes none (R331), and a `vfetch` what its element threads write. -/
def Kernel.writesV (k : Kernel) (v : Nat) (w : Word) : Bool :=
  let own (w : Word) : Bool := !isChain w && (fieldsOf .v true w).contains v
  own w || (opOf w = 0x1F && bitsAt w 0 4 = 0 && (k.reached 64 [bitsAt w 20 6]).any fun b => (k.block b).any own)

/-- Condition 0x07 for a match number. -/
def pairBad (k0 : Kernel) (e0 e1 : List (Nat × Word × Nat)) (m : Nat) : Bool :=
  let tags (l : List (Nat × Word × Nat)) (load : Bool) : List Nat :=
    (l.filter fun x => entryMatch x.2.2 = m && entryLoad x.2.2 = load).map fun x => entryTag x.2.2
  let unequal (xs ys : List Nat) : Bool := xs.any fun x => ys.any fun y => x ≠ y
  unequal (tags e0 false) (tags e1 true) || unequal (tags e1 false) (tags e0 true) ||
  (e0.any fun x => entryMatch x.2.2 = m && !entryLoad x.2.2 &&
    k0.read.any fun (y : Nat × Word × Known) =>
      decide (x.1 < y.1) && decide (y.1 < k0.tail) && k0.writesV (bitsAt x.2.1 20 6) y.2.1)

/-- The classes of condition 0x05 with their codes. -/
def shortClass (k0 k1 : Kernel) : Option Nat :=
  ([(Cls.s, 0), (.p, 1), (.w, 2), (.q, 3), (.y, 4)].find? fun c =>
    (classFree k0 c.1).length < (classOld k1 c.1).length).map (·.2)

/-- Parameter offset of the consumer (R247). -/
def paramStep (d : Line) : Nat := (Desc.plen d + 63) / 64 * 64

/-- Head differences of condition 0x08: member, EW, BLK or TAG. -/
def headsDiffer (a b : Word) : Bool :=
  bitsAt a 0 11 ≠ bitsAt b 0 11

/-- Conditions 0x03 to 0x0C, in order: code and DETAIL of the first that holds. -/
def pairRefusal (line : Nat → Line) (k0 k1 : Kernel) : Option (Nat × Nat) :=
  let d0 := k0.desc
  let d1 := k1.desc
  let e0 := k0.matched line
  let e1 := k1.matched line
  let f0 := bitsAt k0.hdr 96 8
  let f1 := bitsAt k1.hdr 96 8
  let u := bitsAt k0.hdr 88 8 &&& bitsAt k1.hdr 88 8
  let octets := popcount k0.voct 8 + popcount k1.voct 8
  let ms := matchNumbers e0 e1
  if Desc.count d0 ≠ Desc.count d1 || Desc.bays d0 ≠ Desc.bays d1 || Desc.millMask d0 ≠ Desc.millMask d1 ||
      Desc.nreg d0 ≠ Desc.nreg d1 || Desc.weight d0 ≠ Desc.weight d1 || Desc.pinned d0 ≠ Desc.pinned d1 ||
      Desc.pincap d0 ≠ Desc.pincap d1 || Desc.det d0 ≠ Desc.det d1 || Desc.reissue d0 ≠ Desc.reissue d1 ||
      decide (Desc.blocks d0 = 0) ≠ decide (Desc.blocks d1 = 0) then some (0x03, 0)
  else if 2 ^ Desc.nreg d0 < octets then some (0x04, octets)
  else
    match shortClass k0 k1 with
    | some c => some (0x05, c)
    | none =>
      match ms.find? (matchBad line e0 e1) with
      | some m => some (0x06, m)
      | none =>
        match ms.find? (pairBad k0 e0 e1) with
        | some m => some (0x07, m)
        | none =>
          if f0 / 64 % 2 = 1 || f1 / 64 % 2 = 1 || bitsAt k0.hdr 72 11 ≠ bitsAt k1.hdr 72 11 ||
              headsDiffer (k0.word k0.head) (k1.word k1.head) then some (0x08, 0)
          else if f0 % 32 ≠ 0 then some (0x09, f0)
          else if f1 % 32 ≠ 0 then some (0x09, f1)
          else if u ≠ 0 then some (0x09, u)
          else if Desc.det d0 && (!Desc.splice d0 || !Desc.splice d1) then some (0x0A, 0)
          else if 64 < Desc.nblk d0 + Desc.nblk d1 || 3840 < paramStep d0 + Desc.plen d1 then some (0x0B, 0)
          else if f0 / 32 % 2 = 1 || f1 / 32 % 2 = 1 then some (0x0C, 0)
          else none

/-! ### The spliced kernel (R247, R251) -/

/-- A word of the spliced code, with its kernel tag and the byte offset from that kernel's entry of the word it stands for. -/
structure Piece where
  word : Word
  tag : Nat
  orig : Nat
  branch : Bool

/-- Where the parts of the spliced code begin, as word indices, and the producer's stores that are left out. -/
structure Layout where
  c3 : Nat
  c4 : Nat
  c5 : Nat
  c6 : Nat
  c7 : Nat
  c8 : Nat
  omitted : List Nat

/-- Word index in the spliced code of a byte offset of a kernel, for the target of a branch. The producer's TAIL, met from
inside its loop, is where the consumer's body begins. -/
def Layout.place (l : Layout) (k0 k1 : Kernel) (tag off : Nat) : Nat :=
  if tag = 0 then
    if off < k0.head then off / 4
    else if off < k0.tail then l.c4 + (off - k0.head) / 4 - (l.omitted.filter (· < off)).length
    else if off = k0.tail then l.c5
    else l.c7 + (off - k0.tail) / 4 - 1
  else
    if off < k1.head then l.c3 + off / 4
    else if off < k1.tail then l.c5 + (off - k1.head) / 4
    else if off = k1.tail then l.c6
    else l.c8 + (off - k1.tail) / 4 - 1

/-- The spliced words, with their map. A store that is left out writes nothing, so that its granule shows what it held before the launch: of the two
contents that R184 allows, the model's choice (log entry 107). A consumer that never names s5 has no sc, and the word of item 2 writes s0 (DESIGN CHOICE,
log entry 131). -/
def spliceCode (line : Nat → Line) (k0 k1 : Kernel) : List Word × List Word :=
  let r := renumbering k0 k1
  let nb := Desc.nblk k0.desc
  let e0 := k0.matched line
  let e1 := k1.matched line
  let stores := e0.filter fun x => !entryLoad x.2.2 && e1.any fun y => entryMatch y.2.2 = entryMatch x.2.2 && entryLoad y.2.2
  let omitted := (stores.filter fun x => View.transient (line (entryDesc x.2.2))).map (·.1)
  let part (k : Kernel) (lo hi : Nat) : List (Nat × Word) :=
    (k.read.filter fun (x : Nat × Word × Known) => lo ≤ x.1 && x.1 < hi).map fun x => (x.1, x.2.1)
  let mine (x : Nat × Word) : Piece := ⟨x.2, 0, x.1, Kernel.isBranch x.2⟩
  let his (x : Nat × Word) : Piece := ⟨renumber r nb x.2, 1, x.1, Kernel.isBranch x.2⟩
  let sc := if (k1.named .s).contains 5 then r .s 5 else 0
  let addi (d a imm : Nat) : Word := asm 0x08000000 [(d, 21), (a, 16), (imm % 2 ^ 16, 0)]
  let body (x : Nat × Word) : Piece :=
    if x.1 = k1.head then ⟨addi (r .s (bitsAt x.2 21 5)) (bitsAt (k0.word k0.head) 21 5) 0, 1, x.1, false⟩
    else
      match e1.find? fun y => y.1 = x.1 && entryLoad y.2.2 with
      | some y =>
        match stores.find? fun z => entryMatch z.2.2 = entryMatch y.2.2 with
        | some z => ⟨asm 0x90000008 [(r .v (bitsAt x.2 20 6), 20), (bitsAt z.2.1 20 6, 14)], 1, x.1, false⟩
        | none => his x
      | none => his x
  let p1 := (part k0 0 k0.head).map mine
  let p2 : List Piece := [⟨addi sc 0 (0x100 + paramStep k0.desc), 1, 0, false⟩]
  let p3 := (part k1 0 k1.head).map his
  let p4 := ((part k0 k0.head k0.tail).filter fun x => !omitted.contains x.1).map mine
  let p5 := (part k1 k1.head k1.tail).map body
  let p6 := (part k0 k0.tail (k0.tail + 4)).map mine
  let p7 := ((part k0 (k0.tail + 4) k0.codelen).dropLast).map mine
  let p8 := (part k1 (k1.tail + 4) k1.codelen).map his
  let c3 := p1.length + 1
  let c4 := c3 + p3.length
  let c5 := c4 + p4.length
  let c6 := c5 + p5.length
  let l : Layout := ⟨c3, c4, c5, c6, c6 + 1, c6 + 1 + p7.length, omitted⟩
  let ps := p1 ++ p2 ++ p3 ++ p4 ++ p5 ++ p6 ++ p7 ++ p8
  let code := ps.zipIdx.map fun (x : Piece × Nat) =>
    let (p, i) := x
    if !p.branch then p.word
    else
      let dst : Nat :=
        if p.tag = 0 && p.orig = k0.tail then l.c4
        else l.place k0 k1 p.tag (Kernel.target p.orig (if p.tag = 0 then k0.word p.orig else k1.word p.orig)).toNat
      setBits p.word 0 16 (BitVec.ofInt 16 ((dst : Int) - i)).toNat
  let entry (t : Nat) : Nat := Desc.entry (if t = 0 then k0.desc else k1.desc)
  (code, ps.map fun p => BitVec.ofNat 32 (p.tag * 2 ^ 31 + (entry p.tag + p.orig) % 2 ^ 31))

/-- The blocks of the spliced kernel: the producer's, then the consumer's renumbered. -/
def spliceBlocks (k0 k1 : Kernel) : List Word :=
  k0.blocks ++ k1.blocks.map (renumber (renumbering k0 k1) (Desc.nblk k0.desc))

end Sys2Proof.Machine
end

