-- ==== Sys2Proof/Machine/Command.lean ====
section
/-! DEFINITION. The commands of the queue language (R238, R239, R244, R245, R424 to R426, R430, R431, R435). -/

namespace Sys2Proof.Machine

/-! ### Registers and memory (R424, R425) -/

/-- A command that sets one register. -/
def setCommand (len : Nat) (a : BitVec 4) (val : Queue → Dword) (s : State) : State :=
  command len (fun die slot q s => .done (s.setQueue die slot (q.setC a.toNat (val q)))) s

/-- `nop`. -/
def execCmdNop (s : State) : Out := .next (command 4 (fun _ _ _ s => .done s) s)
/-- `halt #k` (R428). -/
def execCmdHalt (k : BitVec 16) (s : State) : Out := .next (command 4 (fun _ _ _ _ => .halt k.toNat) s)
/-- `li ca, #imm`. -/
def execCmdLi (a : BitVec 4) (i : BitVec 16) (s : State) : Out := .next (setCommand 4 a (fun _ => sext i) s)
/-- `lil ca, #lit`. -/
def execCmdLil (a : BitVec 4) (lit : BitVec 64) (s : State) : Out := .next (setCommand 12 a (fun _ => lit) s)
/-- `addi ca, cb, #imm`. -/
def execCmdAddi (a b : BitVec 4) (i : BitVec 16) (s : State) : Out :=
  .next (setCommand 4 a (fun q => q.c b.toNat + sext i) s)
/-- `add ca, cb`. -/
def execCmdAdd (a b : BitVec 4) (s : State) : Out := .next (setCommand 4 a (fun q => q.c a.toNat + q.c b.toNat) s)
/-- `sub ca, cb`. -/
def execCmdSub (a b : BitVec 4) (s : State) : Out := .next (setCommand 4 a (fun q => q.c a.toNat - q.c b.toNat) s)
/-- `and ca, cb`. -/
def execCmdAnd (a b : BitVec 4) (s : State) : Out := .next (setCommand 4 a (fun q => q.c a.toNat &&& q.c b.toNat) s)
/-- `or ca, cb`. -/
def execCmdOr (a b : BitVec 4) (s : State) : Out := .next (setCommand 4 a (fun q => q.c a.toNat ||| q.c b.toNat) s)
/-- `shli ca, cb, #n`. -/
def execCmdShli (a b : BitVec 4) (n : BitVec 6) (s : State) : Out :=
  .next (setCommand 4 a (fun q => q.c b.toNat <<< n.toNat) s)

/-- A fault of the partition's translation as a command's failure. -/
def CmdEnd.of (t : Trap) : CmdEnd := .fault (fcodeOf t) t.stage2

/-- `ld ca, cb, #imm` (R425). -/
def execCmdLd (a b : BitVec 4) (i : BitVec 16) (s : State) : Out :=
  .next (command 4 (fun die slot q s =>
    let addr := (q.c b.toNat + sext i).toNat
    if addr % 8 ≠ 0 then .fault 4 false
    else
      match s.translate q.part addr .read with
      | .error t => .of t
      | .ok x =>
        let l := locOf x.phys x.dev
        if s.locBusy l then .wait s
        else
          let s1 := (s.noteWalk q.part addr).popped l
          .done (s1.modQueue die slot fun z => z.setC a.toNat (BitVec.ofNat 64 (s.load l 8)))) s)
/-- `st ca, cb, #imm` (R425). -/
def execCmdSt (a b : BitVec 4) (i : BitVec 16) (s : State) : Out :=
  .next (command 4 (fun _ _ q s =>
    let addr := (q.c b.toNat + sext i).toNat
    if addr % 8 ≠ 0 then .fault 4 false
    else
      match s.translate q.part addr .write with
      | .error t => .of t
      | .ok x =>
        let l := locOf x.phys x.dev
        if s.codePage q.part x.phys then .fault 3 false
        else if s.locBusy l then .wait s
        else .done ((s.noteWalk q.part addr).store l 8 (q.c a.toNat).toNat)) s)

/-! ### Branches, calls and links (R424, R426, R435) -/

/-- A branch by a word offset from the command's own address. In ring mode it stays within the segment. -/
def branchTo (die slot : Nat) (q : Queue) (o : BitVec 16) (s : State) : CmdEnd :=
  if !q.stack.isEmpty then .jump (s.setQueue die slot { q with pc := target q.pc o })
  else
    let cur := q.pos % segmentBytes
    let t : Int := cur + o.toInt * 4
    if q.atLink || t < 0 || (segmentBytes : Int) ≤ t then .fault 7 false
    else .jump (s.setQueue die slot { q with pos := q.pos - cur + t.toNat })

/-- A conditional branch. -/
def branchCommand (taken : Dword → Dword → Bool) (a b : BitVec 4) (o : BitVec 16) (s : State) : State :=
  command 4 (fun die slot q s => if taken (q.c a.toNat) (q.c b.toNat) then branchTo die slot q o s else .done s) s

/-- `beq ca, cb, off`. -/
def execCmdBeq (a b : BitVec 4) (o : BitVec 16) (s : State) : Out := .next (branchCommand (fun x y => x == y) a b o s)
/-- `bne ca, cb, off`. -/
def execCmdBne (a b : BitVec 4) (o : BitVec 16) (s : State) : Out := .next (branchCommand (fun x y => x != y) a b o s)
/-- `blt ca, cb, off`, signed. -/
def execCmdBlt (a b : BitVec 4) (o : BitVec 16) (s : State) : Out := .next (branchCommand (fun x y => x.slt y) a b o s)

/-- `loop ca, off`. A `ca` of c0 reads as zero after the discarded write, and falls through. -/
def execCmdLoop (a : BitVec 4) (o : BitVec 16) (s : State) : Out :=
  .next (command 4 (fun die slot q s =>
    let q1 := q.setC a.toNat (q.c a.toNat - 1)
    if q1.c a.toNat = 0 then .done (s.setQueue die slot q1) else branchTo die slot q1 o s) s)

/-- `call #lit`. -/
def execCmdCall (lit : BitVec 64) (s : State) : Out :=
  .next (command 12 (fun die slot q s =>
    if 4 ≤ q.stack.length then .fault 6 false
    else if lit.toNat % 4 ≠ 0 then .fault 4 false
    else
      let ret := q.at' + 12
      let q1 := if q.stack.isEmpty then q.advance 12 else q
      .jump (s.setQueue die slot { q1 with stack := q.stack ++ [ret], pc := lit.toNat })) s)

/-- `ret`: in ring mode again when the depth comes back to 0, at the position after the call. -/
def execCmdRet (s : State) : Out :=
  .next (command 4 (fun die slot q s =>
    match q.stack.getLast? with
    | none => .fault 6 false
    | some a => .jump (s.setQueue die slot { q with stack := q.stack.dropLast, pc := a })) s)

/-- `link #lit` (R435). -/
def execCmdLink (lit : BitVec 64) (s : State) : Out :=
  .next (command 12 (fun die slot q s =>
    if !q.stack.isEmpty || !q.atLink then .fault 7 false
    else
      let s1 := (s.setQueue die slot { q with segment := some lit.toNat, atLink := false }).pushFree die slot (q.segment.getD 0)
      .jump (s1.writeBlock die slot 48 q.pos)) s)

/-! ### Counters, chains and fences -/

/-- The bay and number of a counter that `wait` or `signal` names, or the failure (R424, R427). -/
def counterOperand (s : State) (die : Nat) (q : Queue) (y : BitVec 4) (c : BitVec 9) : Except Nat (Nat × Nat) :=
  if 320 ≤ c.toNat then .error 8
  else if 64 ≤ c.toNat then (if y = 0 then .ok (9 * die, c.toNat) else .error 1)
  else if 8 < y.toNat || s.ownerOf (9 * die + y.toNat) ≠ q.part then .error 8
  else .ok (9 * die + y.toNat, c.toNat)

/-- `wait cb, #c` and `wait cb, #c, #b`. -/
def execCmdWait (b y : BitVec 4) (c : BitVec 9) (s : State) : Out :=
  .next (command 4 (fun die _ q s =>
    match counterOperand s die q y c with
    | .error e => .fault e false
    | .ok (bay, n) => if s.counter bay q.part n < q.c b.toNat then .wait s else .done s) s)
/-- `signal cb, #c` and `signal cb, #c, #b`. -/
def execCmdSignal (b y : BitVec 4) (c : BitVec 9) (s : State) : Out :=
  .next (command 4 (fun die _ q s =>
    match counterOperand s die q y c with
    | .error e => .fault e false
    | .ok (bay, n) => .done (s.raise bay q.part n (q.c b.toNat).toNat)) s)
/-- `fence`. -/
def execCmdFence (s : State) : Out :=
  .next (command 4 (fun _ _ q s => if q.openCmds.isEmpty then .done s else .wait s) s)

/-- `chapp ca, cb, #n`. -/
def execCmdChapp (a b : BitVec 4) (n : BitVec 6) (s : State) : Out :=
  .next (command 4 (fun die slot q s =>
    let addr := (q.c b.toNat).toNat
    if addr % 64 ≠ 0 then .fault 4 false
    else
      match s.translate q.part addr .write with
      | .error t => .of t
      | .ok x =>
        if s.codePage q.part x.phys then .fault 3 false
        else if s.stackBusy x.phys then .wait s
        else if !bitAt (s.reg (.chain q.part die n.toNat) 0x00) 63 then .fault 8 false
        else
          let (s1, count) := appendCard (s.noteWalk q.part addr) q.part die n.toNat addr (locOf x.phys x.dev) none false
          .done (s1.modQueue die slot fun q => q.setC a.toNat count)) s)

/-! ### Splicing (R238, R239, R244, R245) -/

/-- What is found at a command position ahead: a word, nothing published yet, a fault, or a segment outside the ring bounds. -/
inductive Peeked where
  | word (w : Word) | unpublished | fault (t : Trap) | outside

/-- The word `n` command positions on from a `splice` or a `launch`. Positions of
one ring follow one another over a segment's link. No word of a segment outside the ring bounds is read (R418). -/
def peekCommand (s : State) (die slot : Nat) (q : Queue) (n : Nat) : Peeked :=
  let get (a : Nat) : Peeked :=
    match s.readWord q.part a 4 with
    | .error t => .fault t
    | .ok v => .word (BitVec.ofNat 32 v)
  if !q.stack.isEmpty then get (q.pc + 4 * n)
  else
    match s.readWord q.part ((s.reg (.queue die slot) 0x08).toNat + 32) 8 with
    | .error t => .fault t
    | .ok prod =>
      let p := q.pos + 4 * n
      if prod < p + 4 then .unpublished
      else if p / segmentBytes = q.pos / segmentBytes then get (q.segment.getD 0 + p % segmentBytes)
      else
        match s.readWord q.part (q.segment.getD 0 + segmentBytes + 4) 8 with
        | .error t => .fault t
        | .ok next => if State.segmentOk q next then get (next + p % segmentBytes) else .outside

/-- Whether a word is a `launch` command (R424). -/
def isLaunch (w : Word) : Bool := bitsAt w 24 8 = 0x20 && bitsAt w 11 5 = 0 && bitsAt w 1 7 = 0

/-- A refusal record (R245), through the partition's translation; one that meets a fault is dropped (R441). -/
def refuse (s : State) (part die code detail prod cons : Nat) : State :=
  let w := Window.splice part die
  let base := s.reg w 0x10
  let slot := (s.reg w 0x18).toNat % State.ringSize base
  let r := code + detail % 2 ^ 64 * 2 ^ 64 + prod % 2 ^ 32 * 2 ^ 128 + cons % 2 ^ 32 * 2 ^ 160 + s.gtime.toNat * 2 ^ 192
  let s1 :=
    match s.ringStore part false (bitsAt base 12 52 * 4096 + 32 * slot) 32 r with
    | some s' => s'
    | none => s.setField w 0x10 4 1 1
  s1.bump w 0x18

/-- `splice` (R238): the two commands after it must be `launch`, or the pair is refused with code 0x02. The second is looked at only where the first is. -/
def execCmdSplice (s : State) : Out :=
  .next (command 4 (fun die slot q s =>
    let refused : CmdEnd :=
      let (n, s1) := s.freshNumber
      .done (refuse s1 q.part die 0x02 0 (Config.unstated (2 * n)) (Config.unstated (2 * n + 1)))
    let look (n : Nat) (k : CmdEnd) : CmdEnd :=
      match peekCommand s die slot q n with
      | .fault t => .of t
      | .outside => .outside
      | .unpublished => .wait s
      | .word w => if isLaunch w then k else refused
    look 1 (look 2 (.done (s.setQueue die slot { q with splicing := .armed })))) s)

/-- A number as the bytes of a line. -/
def lineOf (bs : List Byte) : Line := BitVec.ofNat 512 (bs.foldr (fun b acc => b.toNat + 256 * acc) 0)

/-- Bytes as words. -/
def wordsOf (n : Nat) (bs : List Byte) : List Word :=
  (List.range n).map fun k => BitVec.ofNat 32 (((bs.drop (4 * k)).take 4).foldr (fun b acc => b.toNat + 256 * acc) 0)

/-- A kernel read from memory; `none` when it has no descriptor, or one that cannot be read or bounds too much. -/
def readKernel (s : State) (part : Nat) (d : Line) : Option Kernel :=
  let get (a n : Nat) : Option (List Byte) := (s.readVirtual part (n / 65536 + 2) a n).toOption
  if Desc.spld d = 0 then none
  else
    match get (Desc.spld d) 64 with
    | none => none
    | some h =>
      let hdr := lineOf h
      let count := bitsAt hdr 64 8
      let len := bitsAt hdr 256 32
      if 16 < count || Desc.codelen d < Desc.entry d + len then none
      else
        let rest := Desc.codelen d - Desc.entry d
        match get (Desc.spld d + 64) (16 * count), get (Desc.code d + Desc.entry d) len,
            get (Desc.blocks d) (128 * Desc.nblk d) with
        | some e, some ws, some bs =>
          some ⟨d, wordsOf (len / 4) ws, wordsOf (rest / 4) ((get (Desc.code d + Desc.entry d) rest).getD ws), wordsOf (32 * Desc.nblk d) bs, hdr,
            (List.range count).map fun k => ((e.drop (16 * k)).take 16).foldr (fun b acc => b.toNat + 256 * acc) 0⟩
        | _, _, _ => none

/-- What the Tailor answers: a refusal, or the code, its map and its blocks. -/
inductive Tailored where
  | refused (code detail : Nat)
  | spliced (code map blocks : List Word)

/-- The Tailor on two launches of a partition, but for the arena (R244). -/
def tailor (s : State) (part : Nat) (d0 d1 : Line) : Tailored :=
  let line (a : Nat) : Line := ((s.readVirtual part 2 a 64).toOption.map lineOf).getD 0
  match readKernel s part d0, readKernel s part d1 with
  | some k0, some k1 =>
    if !k0.agrees line || !k1.agrees line then .refused 0x01 0
    else
      match pairRefusal line k0 k1 with
      | some (c, x) => .refused c x
      | none =>
        let (code, map) := spliceCode line k0 k1
        .spliced code map (spliceBlocks k0 k1)
  | _, _ => .refused 0x01 0

/-- Bytes the spliced code takes in the arena: the code, then the blocks at a multiple of 128. -/
def arenaBytes (code blocks : List Word) : Nat := (4 * code.length + 127) / 128 * 128 + 4 * blocks.length

/-- Whether some page of a range is read-only because it holds a running launch's code (R77). -/
def holdsCode (s : State) (part a n : Nat) : Bool :=
  (List.range (n / 65536 + 2)).any fun k =>
    let page := (a / 65536 + k) * 65536
    decide (page < a + n) &&
      match s.translate part page .write with
      | .error _ => false
      | .ok x => s.codePage part x.phys

/-- The lowest room of `n` bytes in the arena that no spliced launch's code has, and no page that a running launch's code makes read-only: it begins
where a page begins, or behind other code. -/
def arenaRoom (s : State) (part die n : Nat) : Option Nat :=
  let w := Window.splice part die
  let base := bitsAt (s.reg w 0x00) 16 48 * 65536
  let size := bitsAt (s.reg w 0x08) 0 8
  let held := s.launches.filterMap fun (_, l) =>
    if l.part = part && !l.splice.isEmpty then
      some (l.code.base, max (l.code.base + l.code.len) (l.code.blocks + 128 * l.code.nblk))
    else none
  let starts := ((List.range size).map fun k => base + 65536 * k) ++ held.map fun h => (h.2 + 127) / 128 * 128
  (starts.filter fun a => decide (base ≤ a) && decide (a + n ≤ base + size * 65536) && !holdsCode s part a n &&
    held.all fun h => decide (a + n ≤ h.1) || decide (h.2 ≤ a)).foldl (fun m a => some (m.elim a (min a))) none

/-- Words written at a virtual address of a partition; `none` at a fault. -/
def storeWords (part a : Nat) : List Word → Nat → State → Option State
  | [], _, s => some s
  | w :: rest, k, s =>
    match s.ringStore part false (a + 4 * k) 4 w.toNat with
    | none => none
    | some s1 => storeWords part a rest (k + 1) s1

/-- Condition 0x0E: both kernels carry `.scr` images, and they differ. -/
def imagesDiffer (s : State) (part : Nat) (d0 d1 : Line) : Bool :=
  let get (d : Line) : Option (List Byte) := (s.readVirtual part 66 (Desc.scr d) (Desc.scrlen d)).toOption
  Desc.scrlen d0 ≠ 0 && Desc.scrlen d1 ≠ 0 && (Desc.scrlen d0 ≠ Desc.scrlen d1 || get d0 ≠ get d1)

/-! ### Launching (R430, R431) -/

/-- LAUNCHID of the launch command a slot executes with an ordinal (R430). -/
def launchId (die slot ordinal : Nat) : Nat := die * 2 ^ 30 + slot * 2 ^ 24 + ordinal % 2 ^ 24

/-- The launch of a descriptor by a command that a queue is about to register. -/
def newLaunch (die slot : Nat) (q : Queue) (matrix : Bool) (d : Line) (addr : Nat) (status : Option Nat)
    (p reached : Nat) (params : List Byte) : Launch where
  id := launchId die slot q.ordinal
  part := q.part
  die := die
  slot := slot
  block := q.block
  command := q.issued
  desc := d
  descAddr := addr
  status := status
  second := none
  prio := min p q.prio
  reached := reached
  matrix := matrix
  next := 0
  redo := []
  state := .waiting
  kind := 0
  exit := 0
  mills := []
  ended := []
  params := params
  image := (Desc.scr d, Desc.scrlen d)
  splice := []
  code := if matrix then ⟨Desc.mcode d, Desc.mcodelen d, 0, 0, 0⟩ else ⟨Desc.code d, Desc.codelen d, Desc.blocks d, Desc.nblk d, 0⟩

/-- Whether a descriptor, or what is read with it, stands in a stack that is not ready (R481). -/
def descriptorBusy (s : State) (q : Queue) (addr : Nat) : Bool :=
  s.rangeBusy q.part addr 64 ||
  match s.readVirtual q.part 2 addr 64 with
  | .error _ => false
  | .ok bs => s.rangeBusy q.part (addr + 64) (Desc.plen (lineOf bs)) || s.rangeBusy q.part (Desc.scr (lineOf bs)) (Desc.scrlen (lineOf bs))

/-- A descriptor read and checked for a command (R427, R431), with its parameter block. -/
def readDescriptor (s : State) (q : Queue) (matrix : Bool) (addr : Nat) : Except (Nat × Bool) (Line × List Byte) :=
  let err (t : Trap) : Nat × Bool := (fcodeOf t, t.stage2)
  if addr % 64 ≠ 0 then .error (4, false)
  else
    match s.readVirtual q.part 2 addr 64 with
    | .error t => .error (err t)
    | .ok bs =>
      let d := lineOf bs
      if Desc.bad d matrix (s.baysOf q.part) then .error (5, false)
      else
        match s.readVirtual q.part 2 (addr + 64) (Desc.plen d), s.readVirtual q.part 66 (Desc.scr d) (if matrix then 0 else Desc.scrlen d) with
        | .error t, _ => .error (err t)
        | _, .error t => .error (err t)
        | .ok ps, .ok _ => .ok (d, ps)

/-- A launch registered: the command waits until it has started. One with no index has nothing to place, and is complete at once (R255). -/
def register (die slot : Nat) (l : Launch) (splicing : Splicing) (s : State) : State :=
  let s1 := (s.noteWalk l.part l.descAddr).setLaunch (l.id + 1) { l with state := if Desc.count l.desc = 0 then .placed else l.state }
  s1.modQueue die slot fun q =>
    { q with launching := some (l.id + 1), ordinal := q.ordinal + 1, splicing := splicing }

/-- The spliced launch of a pair (R239, R247), once its code stands in the arena at `a`. -/
def splicedLaunch (l : Launch) (d1 : Line) (second : Nat × Option Nat) (params : List Byte) (a : Nat)
    (code map blocks : List Word) : Launch :=
  let b := a + (4 * code.length + 127) / 128 * 128
  let d := setBits (setBits (setBits l.desc 0 64 a) 256 32 (4 * code.length)) 320 32 0
  { l with
    desc := setBits (setBits d 128 64 (if blocks.isEmpty then 0 else b)) 456 7 (blocks.length / 32)
    second := some second
    params := l.params ++ List.replicate (paramStep l.desc - l.params.length) 0 ++ params
    image := if l.image.2 ≠ 0 then l.image else (Desc.scr d1, Desc.scrlen d1)
    splice := map
    code := ⟨a, 4 * code.length, b, blocks.length / 32, Desc.nblk l.desc⟩ }

/-- The producer's launch of a pair marked by `splice`: spliced with the consumer, or refused with a record (R239). A fault while the code is written
into the arena refuses it as one that has no room (DESIGN CHOICE, log entry 131). -/
def launchPair (die slot : Nat) (q : Queue) (l : Launch) (s : State) : CmdEnd :=
  match peekCommand s die slot q 1 with
  | .fault t => .of t
  | .outside => .outside
  | .unpublished => .wait s
  | .word w =>
    let a1 := (q.c (bitsAt w 16 4)).toNat
    let ca := bitsAt w 20 4
    let alone := register die slot l (.after q.issued)
    match (if isLaunch w then (readDescriptor s q false a1).toOption else none) with
    | none => .wait (alone s)
    | some (d1, ps1) =>
      let id1 := launchId die slot (q.ordinal + 1)
      let no (c x : Nat) (s : State) : State := alone (refuse s q.part die c x l.id id1)
      match tailor s q.part l.desc d1 with
      | .refused c x => .wait (no c x s)
      | .spliced code map blocks =>
        let n := arenaBytes code blocks
        match arenaRoom s q.part die n with
        | none => .wait (no 0x0D n s)
        | some a =>
          if imagesDiffer s q.part l.desc d1 then .wait (no 0x0E 0 s)
          else
            match (storeWords q.part a code 0 s).bind
                (storeWords q.part (a + (4 * code.length + 127) / 128 * 128) blocks 0) with
            | none => .wait (no 0x0D n s)
            | some s1 =>
              let l1 := splicedLaunch l d1 (id1, if ca = 0 then none else some (q.c ca).toNat) ps1 a code map blocks
              .wait (register die slot l1 .joined (s1.bump (.splice q.part die) 0x20))

/-- The cores of a `launchm` started (R127, R430): s3 is the bay's index among its bays, s4 their number. -/
def startCores (l : Launch) (s : State) : State :=
  let bs := Desc.bays l.desc
  let key := l.id + 1
  (bs.zipIdx.foldl (fun s (x : Nat × Nat) =>
    let f := 2304 + x.1
    let m (a : Nat) : Mill := s.mill (4 * x.1 + a)
    s.setCtx f (coreStart key l x.2 bs.length (Vector.ofFn fun a => (m a.val).asIssue)
      (Vector.ofFn fun a => (m a.val).completed))) s).setLaunch key { l with state := .placed, next := Desc.count l.desc }

/-- The state in which a queue has reached its command: at the first turn of the command its place in the order of commands is taken (R430). -/
def reach (die slot : Nat) (s : State) : State :=
  if (s.queue die slot).reachedAt.isSome then s
  else (s.freshNumber).2.modQueue die slot fun q => { q with reachedAt := some s.fresh }

/-- `launch` and `launchm` (R430). -/
def launchCommand (matrix : Bool) (a b : BitVec 4) (p : BitVec 3) (dep : BitVec 1) (s : State) : State :=
  command 4 (fun die slot _ s0 =>
    let s := reach die slot s0
    let q := s.queue die slot
    match q.launching with
    | some key =>
      let s1 := s.setQueue die slot { q with launching := none }
      match s.launchOf key with
      | none => if q.splicing = .joined then .running s1 else .done s1
      | some l => if l.state = .waiting then .wait s else .running s1
    | none =>
      if q.splicing = .joined && !matrix then
        -- the consumer of a spliced pair runs within the producer's launch; behind its end the two complete together
        let q1 := { q with splicing := .none, ordinal := q.ordinal + 1 }
        if s.launches.any fun (_, l) => l.part = q.part && l.block = q.block && l.second.isSome && l.command + 1 = q.issued then
          .running (s.setQueue die slot q1)
        else .done (s.setQueue die slot { q1 with openCmds := q.openCmds.erase (q.issued - 1) })
      else if descriptorBusy s q (q.c b.toNat).toNat then .wait s
      else
        match readDescriptor s q matrix (q.c b.toNat).toNat with
        | .error (c, g) => .fault c g
        | .ok (d, ps) =>
          let status := if a = 0 then none else some (q.c a.toNat).toNat
          let l := newLaunch die slot q matrix d (q.c b.toNat).toNat status p.toNat (q.reachedAt.getD 0) ps
          let held : Bool :=
            match q.splicing with
            | .after c => q.openCmds.contains c
            | _ => false
          if held || (dep = 1 && !q.openCmds.isEmpty) then .wait s
          else if matrix then
            -- no launch starts once the device enters the hold state (R466)
            if s.holdState = 0 && (Desc.bays d).all fun x => (s.ctx (2304 + x)).life = .free && bitAt (s.reg .ready 0x00) x then
              let s1 := startCores l s
              .running ((s1.noteWalk q.part l.descAddr).modQueue die slot fun q => { q with ordinal := q.ordinal + 1 })
            else .wait s
          else if q.splicing = .armed then launchPair die slot q l s
          else .wait (register die slot l (if q.splicing = .after q.issued then q.splicing else .none) s)) s

/-- `launch ca, cb, #f`. -/
def execCmdLaunch (a b : BitVec 4) (p : BitVec 3) (d : BitVec 1) (s : State) : Out := .next (launchCommand false a b p d s)
/-- `launchm ca, cb, #f`. -/
def execCmdLaunchm (a b : BitVec 4) (p : BitVec 3) (d : BitVec 1) (s : State) : Out := .next (launchCommand true a b p d s)

end Sys2Proof.Machine
end

