-- ==== Sys2Proof/Machine/Scalar.lean ====
section
/-! DEFINITION. The scalar integer instructions (OP 0x01 to 0x09; R100 to R104). -/

namespace Sys2Proof.Machine

/-! ### The values (R100) -/


/-- `add` of R100. -/
def valAdd (a b : Dword) : Dword := a + b

/-- `sub` of R100. -/
def valSub (a b : Dword) : Dword := a - b

/-- `and` of R100. -/
def valAnd (a b : Dword) : Dword := a &&& b

/-- `or` of R100. -/
def valOr (a b : Dword) : Dword := a ||| b

/-- `xor` of R100. -/
def valXor (a b : Dword) : Dword := a ^^^ b

/-- `shl` of R100. -/
def valShl (a b : Dword) : Dword := a <<< (b.toNat % 64)

/-- `shr` of R100. -/
def valShr (a b : Dword) : Dword := a >>> (b.toNat % 64)

/-- `sha` of R100. -/
def valSha (a b : Dword) : Dword := a.sshiftRight (b.toNat % 64)

/-- `mul` of R100. -/
def valMul (a b : Dword) : Dword := a * b

/-- `mulh` of R100. -/
def valMulh (a b : Dword) : Dword := BitVec.ofInt 64 (a.toInt * b.toInt / 2 ^ 64)

/-- `mulhn` of R100. -/
def valMulhn (a b : Dword) : Dword := BitVec.ofNat 64 (a.toNat * b.toNat / 2 ^ 64)

/-- `div` of R100. -/
def valDiv (a b : Dword) : Dword := if b = 0 then BitVec.allOnes 64 else BitVec.ofInt 64 (a.toInt.tdiv b.toInt)

/-- `divn` of R100. -/
def valDivn (a b : Dword) : Dword := if b = 0 then BitVec.allOnes 64 else BitVec.ofNat 64 (a.toNat / b.toNat)

/-- `rem` of R100. -/
def valRem (a b : Dword) : Dword := if b = 0 then a else BitVec.ofInt 64 (a.toInt.tmod b.toInt)

/-- `remn` of R100. -/
def valRemn (a b : Dword) : Dword := if b = 0 then a else BitVec.ofNat 64 (a.toNat % b.toNat)

/-- `min` of R100. -/
def valMin (a b : Dword) : Dword := if a.toInt ≤ b.toInt then a else b

/-- `max` of R100. -/
def valMax (a b : Dword) : Dword := if a.toInt ≤ b.toInt then b else a

/-- `minn` of R100. -/
def valMinn (a b : Dword) : Dword := if a.toNat ≤ b.toNat then a else b

/-- `maxn` of R100. -/
def valMaxn (a b : Dword) : Dword := if a.toNat ≤ b.toNat then b else a

/-- `slt` of R100. -/
def valSlt (a b : Dword) : Dword := BitVec.ofNat 64 (b2n (decide (a.toInt < b.toInt)))

/-- `sltn` of R100. -/
def valSltn (a b : Dword) : Dword := BitVec.ofNat 64 (b2n (decide (a.toNat < b.toNat)))

/-- `seq` of R100. -/
def valSeq (a b : Dword) : Dword := BitVec.ofNat 64 (b2n (decide (a = b)))


/-- Leading zeros of the low n bits. -/
def leadingZeros (n x : Nat) : Nat := if x = 0 then n else n - 1 - x.log2
/-- Trailing zeros; 64 for 0 in 64 bits. -/
def trailingZeros : Nat → Nat → Nat
  | 0, _ => 0
  | n + 1, x => if x % 2 = 1 then 0 else 1 + trailingZeros n (x / 2)
/-- Set bits among the low n. -/
def popCount : Nat → Nat → Nat
  | 0, _ => 0
  | n + 1, x => x % 2 + popCount n (x / 2)

/-- `clz`, `ctz` and `popc` of R100. -/
def valClz (a : Dword) : Dword := BitVec.ofNat 64 (leadingZeros 64 a.toNat)
def valCtz (a : Dword) : Dword := BitVec.ofNat 64 (trailingZeros 64 a.toNat)
def valPopc (a : Dword) : Dword := BitVec.ofNat 64 (popCount 64 a.toNat)

/-- A register instruction: s[d] := v(s[a], s[b]), no flag. -/
def regOp (v : Dword → Dword → Dword) (d a b : BitVec 5) (s : State) : State :=
  s.simple [a.toNat, b.toNat] d.toNat fun c => (v (c.s a.toNat) (c.s b.toNat), 0)

/-- A register instruction of one source. -/
def regOp1 (v : Dword → Dword) (d a : BitVec 5) (s : State) : State :=
  s.simple [a.toNat] d.toNat fun c => (v (c.s a.toNat), 0)

/-- An immediate instruction: s[d] := v(s[a], SExt(imm16, 64)) (R102). -/
def immOp (v : Dword → Dword → Dword) (d a : BitVec 5) (i : BitVec 16) (s : State) : State :=
  s.simple [a.toNat] d.toNat fun c => (v (c.s a.toNat) (sext i), 0)

/-- An immediate shift (R103). -/
def shiftOp (v : Dword → Dword → Dword) (d a : BitVec 5) (n : BitVec 6) (s : State) : State :=
  s.simple [a.toNat] d.toNat fun c => (v (c.s a.toNat) (n.setWidth 64), 0)

/-! ### The instructions -/


/-- `add sd, sa, sb` (R100). -/
def execAdd (d a b : BitVec 5) (s : State) : Out :=
  .next (regOp valAdd d a b s)

/-- `sub sd, sa, sb` (R100). -/
def execSub (d a b : BitVec 5) (s : State) : Out :=
  .next (regOp valSub d a b s)

/-- `and sd, sa, sb` (R100). -/
def execAnd (d a b : BitVec 5) (s : State) : Out :=
  .next (regOp valAnd d a b s)

/-- `or sd, sa, sb` (R100). -/
def execOr (d a b : BitVec 5) (s : State) : Out :=
  .next (regOp valOr d a b s)

/-- `xor sd, sa, sb` (R100). -/
def execXor (d a b : BitVec 5) (s : State) : Out :=
  .next (regOp valXor d a b s)

/-- `shl sd, sa, sb` (R100). -/
def execShl (d a b : BitVec 5) (s : State) : Out :=
  .next (regOp valShl d a b s)

/-- `shr sd, sa, sb` (R100). -/
def execShr (d a b : BitVec 5) (s : State) : Out :=
  .next (regOp valShr d a b s)

/-- `sha sd, sa, sb` (R100). -/
def execSha (d a b : BitVec 5) (s : State) : Out :=
  .next (regOp valSha d a b s)

/-- `mul sd, sa, sb` (R100). -/
def execMul (d a b : BitVec 5) (s : State) : Out :=
  .next (regOp valMul d a b s)

/-- `mulh sd, sa, sb` (R100). -/
def execMulh (d a b : BitVec 5) (s : State) : Out :=
  .next (regOp valMulh d a b s)

/-- `mulhn sd, sa, sb` (R100). -/
def execMulhn (d a b : BitVec 5) (s : State) : Out :=
  .next (regOp valMulhn d a b s)

/-- `div sd, sa, sb` (R100). -/
def execDiv (d a b : BitVec 5) (s : State) : Out :=
  .next (regOp valDiv d a b s)

/-- `divn sd, sa, sb` (R100). -/
def execDivn (d a b : BitVec 5) (s : State) : Out :=
  .next (regOp valDivn d a b s)

/-- `rem sd, sa, sb` (R100). -/
def execRem (d a b : BitVec 5) (s : State) : Out :=
  .next (regOp valRem d a b s)

/-- `remn sd, sa, sb` (R100). -/
def execRemn (d a b : BitVec 5) (s : State) : Out :=
  .next (regOp valRemn d a b s)

/-- `min sd, sa, sb` (R100). -/
def execMin (d a b : BitVec 5) (s : State) : Out :=
  .next (regOp valMin d a b s)

/-- `max sd, sa, sb` (R100). -/
def execMax (d a b : BitVec 5) (s : State) : Out :=
  .next (regOp valMax d a b s)

/-- `minn sd, sa, sb` (R100). -/
def execMinn (d a b : BitVec 5) (s : State) : Out :=
  .next (regOp valMinn d a b s)

/-- `maxn sd, sa, sb` (R100). -/
def execMaxn (d a b : BitVec 5) (s : State) : Out :=
  .next (regOp valMaxn d a b s)

/-- `slt sd, sa, sb` (R100). -/
def execSlt (d a b : BitVec 5) (s : State) : Out :=
  .next (regOp valSlt d a b s)

/-- `sltn sd, sa, sb` (R100). -/
def execSltn (d a b : BitVec 5) (s : State) : Out :=
  .next (regOp valSltn d a b s)

/-- `seq sd, sa, sb` (R100). -/
def execSeq (d a b : BitVec 5) (s : State) : Out :=
  .next (regOp valSeq d a b s)

/-- `clz sd, sa` (R100). -/
def execClz (d a : BitVec 5) (s : State) : Out :=
  .next (regOp1 valClz d a s)

/-- `ctz sd, sa` (R100). -/
def execCtz (d a : BitVec 5) (s : State) : Out :=
  .next (regOp1 valCtz d a s)

/-- `popc sd, sa` (R100). -/
def execPopc (d a : BitVec 5) (s : State) : Out :=
  .next (regOp1 valPopc d a s)

/-- The pair s[n]:s[n+1] as a number (R101). -/
def Ctx.pair (c : Ctx) (n : Nat) : Nat := (c.s n).toNat + 2 ^ 64 * (c.s (n + 1)).toNat

/-- `qadd sd, sa, sb` (R101): an odd register number raises the illegal-operand trap. -/
def execQadd (d a b : BitVec 5) (s : State) : Out :=
  .next (
    if s.cur = .agent s.me && (d.toNat % 2 = 1 || a.toNat % 2 = 1 || b.toNat % 2 = 1) then s.trapHere s.me .operand
    else
      s.scalar [d.toNat, d.toNat + 1, a.toNat, a.toNat + 1, b.toNat, b.toNat + 1] fun f c s =>
        let x := c.pair a.toNat + c.pair b.toNat
        s.setCtx f (((c.setS d.toNat (BitVec.ofNat 64 x)).setS (d.toNat + 1) (BitVec.ofNat 64 (x / 2 ^ 64))).retire
          (c.pc + 4)))

/-- `addi sd, sa, #imm` (R102). -/
def execAddi (d a : BitVec 5) (i : BitVec 16) (s : State) : Out :=
  .next (immOp valAdd d a i s)

/-- `andi sd, sa, #imm` (R102). -/
def execAndi (d a : BitVec 5) (i : BitVec 16) (s : State) : Out :=
  .next (immOp valAnd d a i s)

/-- `ori sd, sa, #imm` (R102). -/
def execOri (d a : BitVec 5) (i : BitVec 16) (s : State) : Out :=
  .next (immOp valOr d a i s)

/-- `xori sd, sa, #imm` (R102). -/
def execXori (d a : BitVec 5) (i : BitVec 16) (s : State) : Out :=
  .next (immOp valXor d a i s)

/-- `slti sd, sa, #imm` (R102). -/
def execSlti (d a : BitVec 5) (i : BitVec 16) (s : State) : Out :=
  .next (immOp valSlt d a i s)

/-- `shli sd, sa, #n` (R103). -/
def execShli (d a : BitVec 5) (n : BitVec 6) (s : State) : Out :=
  .next (shiftOp valShl d a n s)

/-- `shri sd, sa, #n` (R103). -/
def execShri (d a : BitVec 5) (n : BitVec 6) (s : State) : Out :=
  .next (shiftOp valShr d a n s)

/-- `shai sd, sa, #n` (R103). -/
def execShai (d a : BitVec 5) (n : BitVec 6) (s : State) : Out :=
  .next (shiftOp valSha d a n s)

/-- `lui sd, #imm` (R104): SExt(imm21, 64) << 16. -/
def execLui (d : BitVec 5) (i : BitVec 21) (s : State) : Out :=
  .next (s.simple [] d.toNat fun _ => (sext i <<< 16, 0))
/-- `addpc sd, target` (R104): the byte offset of the `addpc` in its code image, plus SExt(imm21, 64) × 4. -/
def execAddpc (d : BitVec 5) (i : BitVec 21) (s : State) : Out :=
  .next (s.simple [] d.toNat fun c => (BitVec.ofNat 64 c.pc + sext i * 4, 0))

end Sys2Proof.Machine
end

