-- ==== Sys2Proof/Machine/Dispatch.lean ====
section
/-! DEFINITION. The meaning of every instruction, command and event: one arm per constructor, each a call of its meaning. -/

namespace Sys2Proof.Machine

/-- What an instruction does. A thread's or core's instruction acts for the agent `s.cur` names, a command for its queue. -/
def exec (i : Instr) (s : State) : Host.Outcome State Fault Refusal :=
  match i with
  | .add d a b => Sys2Proof.Machine.execAdd d a b s
  | .sub d a b => Sys2Proof.Machine.execSub d a b s
  | .and d a b => Sys2Proof.Machine.execAnd d a b s
  | .or d a b => Sys2Proof.Machine.execOr d a b s
  | .xor d a b => Sys2Proof.Machine.execXor d a b s
  | .shl d a b => Sys2Proof.Machine.execShl d a b s
  | .shr d a b => Sys2Proof.Machine.execShr d a b s
  | .sha d a b => Sys2Proof.Machine.execSha d a b s
  | .mul d a b => Sys2Proof.Machine.execMul d a b s
  | .mulh d a b => Sys2Proof.Machine.execMulh d a b s
  | .mulhn d a b => Sys2Proof.Machine.execMulhn d a b s
  | .div d a b => Sys2Proof.Machine.execDiv d a b s
  | .divn d a b => Sys2Proof.Machine.execDivn d a b s
  | .rem d a b => Sys2Proof.Machine.execRem d a b s
  | .remn d a b => Sys2Proof.Machine.execRemn d a b s
  | .min d a b => Sys2Proof.Machine.execMin d a b s
  | .max d a b => Sys2Proof.Machine.execMax d a b s
  | .minn d a b => Sys2Proof.Machine.execMinn d a b s
  | .maxn d a b => Sys2Proof.Machine.execMaxn d a b s
  | .slt d a b => Sys2Proof.Machine.execSlt d a b s
  | .sltn d a b => Sys2Proof.Machine.execSltn d a b s
  | .seq d a b => Sys2Proof.Machine.execSeq d a b s
  | .clz d a => Sys2Proof.Machine.execClz d a s
  | .ctz d a => Sys2Proof.Machine.execCtz d a s
  | .popc d a => Sys2Proof.Machine.execPopc d a s
  | .qadd d a b => Sys2Proof.Machine.execQadd d a b s
  | .addi d a im => Sys2Proof.Machine.execAddi d a im s
  | .andi d a im => Sys2Proof.Machine.execAndi d a im s
  | .ori d a im => Sys2Proof.Machine.execOri d a im s
  | .xori d a im => Sys2Proof.Machine.execXori d a im s
  | .slti d a im => Sys2Proof.Machine.execSlti d a im s
  | .shli d a n => Sys2Proof.Machine.execShli d a n s
  | .shri d a n => Sys2Proof.Machine.execShri d a n s
  | .shai d a n => Sys2Proof.Machine.execShai d a n s
  | .lui d im => Sys2Proof.Machine.execLui d im s
  | .addpc d im => Sys2Proof.Machine.execAddpc d im s
  | .fadd d a b f => Sys2Proof.Machine.execFadd d a b f s
  | .fsub d a b f => Sys2Proof.Machine.execFsub d a b f s
  | .fmul d a b f => Sys2Proof.Machine.execFmul d a b f s
  | .ffma d a b f => Sys2Proof.Machine.execFfma d a b f s
  | .fdiv d a b f => Sys2Proof.Machine.execFdiv d a b f s
  | .fsqrt d a f => Sys2Proof.Machine.execFsqrt d a f s
  | .fmin d a b f => Sys2Proof.Machine.execFmin d a b f s
  | .fmax d a b f => Sys2Proof.Machine.execFmax d a b f s
  | .feq d a b f => Sys2Proof.Machine.execFeq d a b f s
  | .flt d a b f => Sys2Proof.Machine.execFlt d a b f s
  | .fle d a b f => Sys2Proof.Machine.execFle d a b f s
  | .fclass d a f => Sys2Proof.Machine.execFclass d a f s
  | .fcvtI d a f => Sys2Proof.Machine.execFcvtI d a f s
  | .fcvtN d a f => Sys2Proof.Machine.execFcvtN d a f s
  | .fcvtFi d a f => Sys2Proof.Machine.execFcvtFi d a f s
  | .fcvtFn d a f => Sys2Proof.Machine.execFcvtFn d a f s
  | .fcvtFf d a r f => Sys2Proof.Machine.execFcvtFf d a r f s
  | .beq a b o => Sys2Proof.Machine.execBeq a b o s
  | .bne a b o => Sys2Proof.Machine.execBne a b o s
  | .blt a b o => Sys2Proof.Machine.execBlt a b o s
  | .bge a b o => Sys2Proof.Machine.execBge a b o s
  | .bltn a b o => Sys2Proof.Machine.execBltn a b o s
  | .bgen a b o => Sys2Proof.Machine.execBgen a b o s
  | .jal d o => Sys2Proof.Machine.execJal d o s
  | .jalr d a im => Sys2Proof.Machine.execJalr d a im s
  | .ld r a w z im => Sys2Proof.Machine.execLd r a w z im s
  | .ldn r a w z im => Sys2Proof.Machine.execLdn r a w z im s
  | .st r a w z im => Sys2Proof.Machine.execSt r a w z im s
  | .ldx r a w z im => Sys2Proof.Machine.execLdx r a w z im s
  | .stx r a w z im => Sys2Proof.Machine.execStx r a w z im s
  | .aadd a b w z => Sys2Proof.Machine.execAadd a b w z s
  | .aand a b w z => Sys2Proof.Machine.execAand a b w z s
  | .aor a b w z => Sys2Proof.Machine.execAor a b w z s
  | .axor a b w z => Sys2Proof.Machine.execAxor a b w z s
  | .amin a b w z => Sys2Proof.Machine.execAmin a b w z s
  | .amax a b w z => Sys2Proof.Machine.execAmax a b w z s
  | .aminn a b w z => Sys2Proof.Machine.execAminn a b w z s
  | .amaxn a b w z => Sys2Proof.Machine.execAmaxn a b w z s
  | .aaddRet d a b w z => Sys2Proof.Machine.execAaddRet d a b w z s
  | .aandRet d a b w z => Sys2Proof.Machine.execAandRet d a b w z s
  | .aorRet d a b w z => Sys2Proof.Machine.execAorRet d a b w z s
  | .axorRet d a b w z => Sys2Proof.Machine.execAxorRet d a b w z s
  | .aminRet d a b w z => Sys2Proof.Machine.execAminRet d a b w z s
  | .amaxRet d a b w z => Sys2Proof.Machine.execAmaxRet d a b w z s
  | .aminnRet d a b w z => Sys2Proof.Machine.execAminnRet d a b w z s
  | .amaxnRet d a b w z => Sys2Proof.Machine.execAmaxnRet d a b w z s
  | .aswap d a b w z => Sys2Proof.Machine.execAswap d a b w z s
  | .acas d a b w z => Sys2Proof.Machine.execAcas d a b w z s
  | .fenceV c m => Sys2Proof.Machine.execFenceV c m s
  | .fenceS c m => Sys2Proof.Machine.execFenceS c m s
  | .waitseq a b => Sys2Proof.Machine.execWaitseq a b s
  | .signal a b => Sys2Proof.Machine.execSignal a b s
  | .waitx a => Sys2Proof.Machine.execWaitx a s
  | .sqwait d q b => Sys2Proof.Machine.execSqwait d q b s
  | .tseq d a => Sys2Proof.Machine.execTseq d a s
  | .gjoin d a => Sys2Proof.Machine.execGjoin d a s
  | .gleave a => Sys2Proof.Machine.execGleave a s
  | .gbar a => Sys2Proof.Machine.execGbar a s
  | .forkl d a => Sys2Proof.Machine.execForkl d a s
  | .joinl a => Sys2Proof.Machine.execJoinl a s
  | .yield => Sys2Proof.Machine.execYield s
  | .tid d => Sys2Proof.Machine.execTid d s
  | .gsize d a => Sys2Proof.Machine.execGsize d a s
  | .trap k => Sys2Proof.Machine.execTrap k s
  | .csrr d k => Sys2Proof.Machine.execCsrr d k s
  | .csrw d a k => Sys2Proof.Machine.execCsrw d a k s
  | .csrs d a k => Sys2Proof.Machine.execCsrs d a k s
  | .csrc d a k => Sys2Proof.Machine.execCsrc d a k s
  | .sleep a k => Sys2Proof.Machine.execSleep a k s
  | .halt k => Sys2Proof.Machine.execHalt k s
  | .brk k => Sys2Proof.Machine.execBrk k s
  | .chapp d a b => Sys2Proof.Machine.execChapp d a b s
  | .strmR q w p => Sys2Proof.Machine.execStrmR q w p s
  | .strmW q w p => Sys2Proof.Machine.execStrmW q w p s
  | .strmRg q w p => Sys2Proof.Machine.execStrmRg q w p s
  | .sunb q => Sys2Proof.Machine.execSunb q s
  | .gang d a b => Sys2Proof.Machine.execGang d a b s
  | .ungang => Sys2Proof.Machine.execUngang s
  | .vconfigImm d c => Sys2Proof.Machine.execVconfigImm d c s
  | .vconfigReg d a => Sys2Proof.Machine.execVconfigReg d a s
  | .vtag c v t => Sys2Proof.Machine.execVtag c v t s
  | .setvl d a e => Sys2Proof.Machine.execSetvl d a e s
  | .setvlB d a b t => Sys2Proof.Machine.execSetvlB d a b t s
  | .vcarrySet o n => Sys2Proof.Machine.execVcarrySet o n s
  | .vcarryReg a => Sys2Proof.Machine.execVcarryReg a s
  | .vfetch b p => Sys2Proof.Machine.execVfetch b p s
  | .efetch b => Sys2Proof.Machine.execEfetch b s
  | .ebz o a => Sys2Proof.Machine.execEbz o a s
  | .ebnz o a => Sys2Proof.Machine.execEbnz o a s
  | .eend => Sys2Proof.Machine.execEend s
  | .xqsend a => Sys2Proof.Machine.execXqsend a s
  | .xqrecv d => Sys2Proof.Machine.execXqrecv d s
  | .vaddVv d a b p => Sys2Proof.Machine.execVaddVv d a b p s
  | .vsubVv d a b p => Sys2Proof.Machine.execVsubVv d a b p s
  | .vmulVv d a b p => Sys2Proof.Machine.execVmulVv d a b p s
  | .vfmaVv d a b p => Sys2Proof.Machine.execVfmaVv d a b p s
  | .vfmsVv d a b p => Sys2Proof.Machine.execVfmsVv d a b p s
  | .vfnmaVv d a b p => Sys2Proof.Machine.execVfnmaVv d a b p s
  | .vdivVv d a b p => Sys2Proof.Machine.execVdivVv d a b p s
  | .vminVv d a b p => Sys2Proof.Machine.execVminVv d a b p s
  | .vmaxVv d a b p => Sys2Proof.Machine.execVmaxVv d a b p s
  | .vabsVv d a p => Sys2Proof.Machine.execVabsVv d a p s
  | .vnegVv d a p => Sys2Proof.Machine.execVnegVv d a p s
  | .vsaddVv d a b p => Sys2Proof.Machine.execVsaddVv d a b p s
  | .vssubVv d a b p => Sys2Proof.Machine.execVssubVv d a b p s
  | .vmulhVv d a b p => Sys2Proof.Machine.execVmulhVv d a b p s
  | .vavgVv d a b p => Sys2Proof.Machine.execVavgVv d a b p s
  | .vaddVs d a r p => Sys2Proof.Machine.execVaddVs d a r p s
  | .vsubVs d a r p => Sys2Proof.Machine.execVsubVs d a r p s
  | .vmulVs d a r p => Sys2Proof.Machine.execVmulVs d a r p s
  | .vfmaVs d a r p => Sys2Proof.Machine.execVfmaVs d a r p s
  | .vfmsVs d a r p => Sys2Proof.Machine.execVfmsVs d a r p s
  | .vfnmaVs d a r p => Sys2Proof.Machine.execVfnmaVs d a r p s
  | .vdivVs d a r p => Sys2Proof.Machine.execVdivVs d a r p s
  | .vminVs d a r p => Sys2Proof.Machine.execVminVs d a r p s
  | .vmaxVs d a r p => Sys2Proof.Machine.execVmaxVs d a r p s
  | .vabsVs d r p => Sys2Proof.Machine.execVabsVs d r p s
  | .vnegVs d r p => Sys2Proof.Machine.execVnegVs d r p s
  | .vsaddVs d a r p => Sys2Proof.Machine.execVsaddVs d a r p s
  | .vssubVs d a r p => Sys2Proof.Machine.execVssubVs d a r p s
  | .vmulhVs d a r p => Sys2Proof.Machine.execVmulhVs d a r p s
  | .vavgVs d a r p => Sys2Proof.Machine.execVavgVs d a r p s
  | .vand d a b p => Sys2Proof.Machine.execVand d a b p s
  | .vor d a b p => Sys2Proof.Machine.execVor d a b p s
  | .vxor d a b p => Sys2Proof.Machine.execVxor d a b p s
  | .vnot d a p => Sys2Proof.Machine.execVnot d a p s
  | .vshl d a b p => Sys2Proof.Machine.execVshl d a b p s
  | .vshr d a b p => Sys2Proof.Machine.execVshr d a b p s
  | .vsha d a b p => Sys2Proof.Machine.execVsha d a b p s
  | .vclz d a p => Sys2Proof.Machine.execVclz d a p s
  | .vpopc d a p => Sys2Proof.Machine.execVpopc d a p s
  | .vceq q a b p => Sys2Proof.Machine.execVceq q a b p s
  | .vcne q a b p => Sys2Proof.Machine.execVcne q a b p s
  | .vclt q a b p => Sys2Proof.Machine.execVclt q a b p s
  | .vcle q a b p => Sys2Proof.Machine.execVcle q a b p s
  | .vcun q a b p => Sys2Proof.Machine.execVcun q a b p s
  | .vclass q a k p => Sys2Proof.Machine.execVclass q a k p s
  | .vsqrt d a p => Sys2Proof.Machine.execVsqrt d a p s
  | .vrcp d a p => Sys2Proof.Machine.execVrcp d a p s
  | .vrsq d a p => Sys2Proof.Machine.execVrsq d a p s
  | .vexp2f d a p => Sys2Proof.Machine.execVexp2f d a p s
  | .vlog2f d a p => Sys2Proof.Machine.execVlog2f d a p s
  | .vrndi d a p => Sys2Proof.Machine.execVrndi d a p s
  | .vgetexp d a p => Sys2Proof.Machine.execVgetexp d a p s
  | .vcvt d a t p => Sys2Proof.Machine.execVcvt d a t p s
  | .vmov d a p => Sys2Proof.Machine.execVmov d a p s
  | .vsel d a b p => Sys2Proof.Machine.execVsel d a b p s
  | .vscale d a b p => Sys2Proof.Machine.execVscale d a b p s
  | .vslideup d a r p => Sys2Proof.Machine.execVslideup d a r p s
  | .vslidedn d a r p => Sys2Proof.Machine.execVslidedn d a r p s
  | .vbfly d a r p => Sys2Proof.Machine.execVbfly d a r p s
  | .vid d p => Sys2Proof.Machine.execVid d p s
  | .vbcast d r p => Sys2Proof.Machine.execVbcast d r p s
  | .vbflyC d a r p => Sys2Proof.Machine.execVbflyC d a r p s
  | .vxg d a b p => Sys2Proof.Machine.execVxg d a b p s
  | .vcomp d a p => Sys2Proof.Machine.execVcomp d a p s
  | .vexpd d a p => Sys2Proof.Machine.execVexpd d a p s
  | .vredsum d a b p => Sys2Proof.Machine.execVredsum d a b p s
  | .vredmax d a b p => Sys2Proof.Machine.execVredmax d a b p s
  | .vredmin d a b p => Sys2Proof.Machine.execVredmin d a b p s
  | .vredand d a b p => Sys2Proof.Machine.execVredand d a b p s
  | .vredor d a b p => Sys2Proof.Machine.execVredor d a b p s
  | .vredxor d a b p => Sys2Proof.Machine.execVredxor d a b p s
  | .vtree y a p => Sys2Proof.Machine.execVtree y a p s
  | .tmerge y a => Sys2Proof.Machine.execTmerge y a s
  | .tread d y im => Sys2Proof.Machine.execTread d y im s
  | .tclear y r => Sys2Proof.Machine.execTclear y r s
  | .vscan d a o im p => Sys2Proof.Machine.execVscan d a o im p s
  | .vscana d a o im p => Sys2Proof.Machine.execVscana d a o im p s
  | .vscanmax d a o im p => Sys2Proof.Machine.execVscanmax d a o im p s
  | .pand d a b => Sys2Proof.Machine.execPand d a b s
  | .por d a b => Sys2Proof.Machine.execPor d a b s
  | .pxor d a b => Sys2Proof.Machine.execPxor d a b s
  | .pnot d a => Sys2Proof.Machine.execPnot d a s
  | .pandn d a b => Sys2Proof.Machine.execPandn d a b s
  | .pwhile d r => Sys2Proof.Machine.execPwhile d r s
  | .pcnt a b r => Sys2Proof.Machine.execPcnt a b r s
  | .pfirst a b r => Sys2Proof.Machine.execPfirst a b r s
  | .pset d v => Sys2Proof.Machine.execPset d v s
  | .vins d x b => Sys2Proof.Machine.execVins d x b s
  | .vext x a d => Sys2Proof.Machine.execVext x a d s
  | .vld d w r p => Sys2Proof.Machine.execVld d w r p s
  | .vst d w r p => Sys2Proof.Machine.execVst d w r p s
  | .vldx d w x p => Sys2Proof.Machine.execVldx d w x p s
  | .vstx d w x p => Sys2Proof.Machine.execVstx d w x p s
  | .vldff d w r p => Sys2Proof.Machine.execVldff d w r p s
  | .vgb d w x p => Sys2Proof.Machine.execVgb d w x p s
  | .vsb d w x p => Sys2Proof.Machine.execVsb d w x p s
  | .vaadd d w x p => Sys2Proof.Machine.execVaadd d w x p s
  | .vsrd d q r p => Sys2Proof.Machine.execVsrd d q r p s
  | .vswr d q r p => Sys2Proof.Machine.execVswr d q r p s
  | .tlook d a => Sys2Proof.Machine.execTlook d a s
  | .tset d a b => Sys2Proof.Machine.execTset d a b s
  | .tinv d a => Sys2Proof.Machine.execTinv d a s
  | .vwset n a v => Sys2Proof.Machine.execVwset n a v s
  | .vwret n => Sys2Proof.Machine.execVwret n s
  | .vwget d n k => Sys2Proof.Machine.execVwget d n k s
  | .vrng d r p => Sys2Proof.Machine.execVrng d r p s
  | .mtv d t x a p => Sys2Proof.Machine.execMtv d t x a p s
  | .mvt d t x a p => Sys2Proof.Machine.execMvt d t x a p s
  | .mtvc d t x p => Sys2Proof.Machine.execMtvc d t x p s
  | .mten m => Sys2Proof.Machine.execMten m s
  | .mzero t a c => Sys2Proof.Machine.execMzero t a c s
  | .mldw a r y => Sys2Proof.Machine.execMldw a r y s
  | .mswap a => Sys2Proof.Machine.execMswap a s
  | .mma t a r z => Sys2Proof.Machine.execMma t a r z s
  | .mmaF64 t a r z => Sys2Proof.Machine.execMmaF64 t a r z s
  | .mscan t a o im => Sys2Proof.Machine.execMscan t a o im s
  | .mcld t a r => Sys2Proof.Machine.execMcld t a r s
  | .mcst t a r => Sys2Proof.Machine.execMcst t a r s
  | .mst t a r => Sys2Proof.Machine.execMst t a r s
  | .mld t a r => Sys2Proof.Machine.execMld t a r s
  | .mrow a r => Sys2Proof.Machine.execMrow a r s
  | .mcol a r => Sys2Proof.Machine.execMcol a r s
  | .msig r im => Sys2Proof.Machine.execMsig r im s
  | .mwait r => Sys2Proof.Machine.execMwait r s
  | .mcfg r => Sys2Proof.Machine.execMcfg r s
  | .cmdNop => Sys2Proof.Machine.execCmdNop s
  | .cmdHalt k => Sys2Proof.Machine.execCmdHalt k s
  | .cmdLi a im => Sys2Proof.Machine.execCmdLi a im s
  | .cmdLil a lit => Sys2Proof.Machine.execCmdLil a lit s
  | .cmdAddi a b im => Sys2Proof.Machine.execCmdAddi a b im s
  | .cmdAdd a b => Sys2Proof.Machine.execCmdAdd a b s
  | .cmdSub a b => Sys2Proof.Machine.execCmdSub a b s
  | .cmdAnd a b => Sys2Proof.Machine.execCmdAnd a b s
  | .cmdOr a b => Sys2Proof.Machine.execCmdOr a b s
  | .cmdShli a b n => Sys2Proof.Machine.execCmdShli a b n s
  | .cmdLd a b im => Sys2Proof.Machine.execCmdLd a b im s
  | .cmdSt a b im => Sys2Proof.Machine.execCmdSt a b im s
  | .cmdBeq a b o => Sys2Proof.Machine.execCmdBeq a b o s
  | .cmdBne a b o => Sys2Proof.Machine.execCmdBne a b o s
  | .cmdBlt a b o => Sys2Proof.Machine.execCmdBlt a b o s
  | .cmdLoop a o => Sys2Proof.Machine.execCmdLoop a o s
  | .cmdCall lit => Sys2Proof.Machine.execCmdCall lit s
  | .cmdRet => Sys2Proof.Machine.execCmdRet s
  | .cmdLink lit => Sys2Proof.Machine.execCmdLink lit s
  | .cmdLaunch a b p d => Sys2Proof.Machine.execCmdLaunch a b p d s
  | .cmdLaunchm a b p d => Sys2Proof.Machine.execCmdLaunchm a b p d s
  | .cmdSplice => Sys2Proof.Machine.execCmdSplice s
  | .cmdChapp a b n => Sys2Proof.Machine.execCmdChapp a b n s
  | .cmdWait b y c => Sys2Proof.Machine.execCmdWait b y c s
  | .cmdSignal b y c => Sys2Proof.Machine.execCmdSignal b y c s
  | .cmdFence => Sys2Proof.Machine.execCmdFence s
  | .launchPlaceRange lid => Sys2Proof.Machine.execLaunchPlaceRange lid s
  | .launchComplete lid => Sys2Proof.Machine.execLaunchComplete lid s
  | .registerWrite w off v epoch => Sys2Proof.Machine.execRegisterWrite w off v epoch s
  | .cxStop part => Sys2Proof.Machine.execCxStop part s
  | .cxSave part => Sys2Proof.Machine.execCxSave part s
  | .cxRestore part => Sys2Proof.Machine.execCxRestore part s
  | .cxResume part => Sys2Proof.Machine.execCxResume part s
  | .cxCommandComplete part => Sys2Proof.Machine.execCxCommandComplete part s
  | .cxdataRead part => Sys2Proof.Machine.execCxdataRead part s
  | .cxdataWrite part v => Sys2Proof.Machine.execCxdataWrite part v s
  | .debugStopCmd part => Sys2Proof.Machine.execDebugStopCmd part s
  | .debugStep part => Sys2Proof.Machine.execDebugStep part s
  | .breakpointHit flat => Sys2Proof.Machine.execBreakpointHit flat s
  | .debugStopDrained flat => Sys2Proof.Machine.execDebugStopDrained flat s
  | .kill part flat => Sys2Proof.Machine.execKill part flat s
  | .killDone part => Sys2Proof.Machine.execKillDone part s
  | .partitionCreate part => Sys2Proof.Machine.execPartitionCreate part s
  | .partitionDestroy part => Sys2Proof.Machine.execPartitionDestroy part s
  | .invalidateGo part stage2 die core => Sys2Proof.Machine.execInvalidateGo part stage2 die core s
  | .invalidationComplete part stage2 => Sys2Proof.Machine.execInvalidationComplete part stage2 s
  | .ptEditRecord part stage2 addr v page pages die core => Sys2Proof.Machine.execPtEditRecord part stage2 addr v page pages die core s
  | .queueBind die slot => Sys2Proof.Machine.execQueueBind die slot s
  | .queueHoldClear die slot => Sys2Proof.Machine.execQueueHoldClear die slot s
  | .qfreePop die slot => Sys2Proof.Machine.execQfreePop die slot s
  | .qfreePush die slot v => Sys2Proof.Machine.execQfreePush die slot v s
  | .leaseRenew die epoch => Sys2Proof.Machine.execLeaseRenew die epoch s
  | .leaseTake die => Sys2Proof.Machine.execLeaseTake die s
  | .leaseHand die dst epoch => Sys2Proof.Machine.execLeaseHand die dst epoch s
  | .fwHeartbeat die => Sys2Proof.Machine.execFwHeartbeat die s
  | .healthTimeout die => Sys2Proof.Machine.execHealthTimeout die s
  | .dieFence die => Sys2Proof.Machine.execDieFence die s
  | .regmapWrite hi v => Sys2Proof.Machine.execRegmapWrite hi v s
  | .bayRegulatorMove bay => Sys2Proof.Machine.execBayRegulatorMove bay s
  | .chstatStopClear part die chain => Sys2Proof.Machine.execChstatStopClear part die chain s
  | .startRecordClear n => Sys2Proof.Machine.execStartRecordClear n s
  | .coldBoot pass alt details => Sys2Proof.Machine.execColdBoot pass alt details s
  | .unitMapOut unit => Sys2Proof.Machine.execUnitMapOut unit s
  | .pmlLinkUp port => Sys2Proof.Machine.execPmlLinkUp port s
  | .holdEntry => Sys2Proof.Machine.execHoldEntry s
  | .holdDeadline epoch => Sys2Proof.Machine.execHoldDeadline epoch s
  | .pwarnFall => Sys2Proof.Machine.execPwarnFall s
  | .holdResume epoch => Sys2Proof.Machine.execHoldResume epoch s
  | .holdSupplyLoss => Sys2Proof.Machine.execHoldSupplyLoss s
  | .droop bay slots => Sys2Proof.Machine.execDroop bay slots s
  | .droopEnd bay => Sys2Proof.Machine.execDroopEnd bay s
  | .chandlerLoop targets sensors energies => Sys2Proof.Machine.execChandlerLoop targets sensors energies s
  | .targetTimeout domain => Sys2Proof.Machine.execTargetTimeout domain s
  | .millCapUpdate mill => Sys2Proof.Machine.execMillCapUpdate mill s
  | .ballastEnd mill => Sys2Proof.Machine.execBallastEnd mill s
  | .tierMigration g target exchange => Sys2Proof.Machine.execTierMigration g target exchange s
  | .arbiterCycle mill => Sys2Proof.Machine.execArbiterCycle mill s
  | .grantApply flat => Sys2Proof.Machine.execGrantApply flat s
  | .vfetchComplete flat => Sys2Proof.Machine.execVfetchComplete flat s
  | .waitEnd flat => Sys2Proof.Machine.execWaitEnd flat s
  | .sleepExpiry flat => Sys2Proof.Machine.execSleepExpiry flat s
  | .xqEntryComplete flat failed => Sys2Proof.Machine.execXqEntryComplete flat failed s
  | .streamBindingStart mill port => Sys2Proof.Machine.execStreamBindingStart mill port s
  | .streamFetch mill port => Sys2Proof.Machine.execStreamFetch mill port s
  | .engineJobStart part die chain => Sys2Proof.Machine.execEngineJobStart part die chain s
  | .jobComplete job outcome => Sys2Proof.Machine.execJobComplete job outcome s
  | .foldContribution job => Sys2Proof.Machine.execFoldContribution job s
  | .matrixOpComplete mill fail => Sys2Proof.Machine.execMatrixOpComplete mill fail s
  | .msigRaise flat => Sys2Proof.Machine.execMsigRaise flat s
  | .hostWrite part addr bytes => Sys2Proof.Machine.execHostWrite part addr bytes s
  | .hostRead part addr n => Sys2Proof.Machine.execHostRead part addr n s
  | .peerRequest tag addr op args bytes => Sys2Proof.Machine.execPeerRequest tag addr op args bytes s
  | .spdmGetVersion part epoch => Sys2Proof.Machine.execSpdmGetVersion part epoch s
  | .spdmGetCapabilities part epoch => Sys2Proof.Machine.execSpdmGetCapabilities part epoch s
  | .spdmNegotiateAlgorithms part epoch asym hash => Sys2Proof.Machine.execSpdmNegotiateAlgorithms part epoch asym hash s
  | .spdmGetDigests part epoch => Sys2Proof.Machine.execSpdmGetDigests part epoch s
  | .spdmGetCertificate part epoch off len => Sys2Proof.Machine.execSpdmGetCertificate part epoch off len s
  | .spdmChallenge part epoch nonce => Sys2Proof.Machine.execSpdmChallenge part epoch nonce s
  | .spdmGetMeasurements part epoch index nonce => Sys2Proof.Machine.execSpdmGetMeasurements part epoch index nonce s
  | .illegalInstruction word => Sys2Proof.Machine.execIllegalInstruction word s
  | .fetchOutsideImage => Sys2Proof.Machine.execFetchOutsideImage s
  | .illegalCommand word => Sys2Proof.Machine.execIllegalCommand word s
  | .pmlLinkDown port => Sys2Proof.Machine.execPmlLinkDown port s
  | .hostConfigRequest reg => Sys2Proof.Machine.execHostConfigRequest reg s

end Sys2Proof.Machine
end

