-- ==== Sys2Proof/WellFormed.lean ====
section
/-! DEFINITION. Which terms of `Instr` name something the device has: a format code of 0 to 3 (R68, R73), a scope of 0 to 5 (R68, R73), and, in
an event, partitions 1 to 36 (R400), contexts and cores 0 to 2,339 (R442), mills 0 to 143, bays 0 to 35 (R16), dies 0 to 3, queue slots 0 to 63
(R417), chains 0 to 63 (R219), ports 0 to 31 of a mill (R231), PML ports 0 to 11 (R19), domains 0 to 3 (R280) start steps 0 to 63 (R479), and the units of R482 that can be mapped out. -/

namespace Sys2Proof

open Sys2Proof.Machine (Window)

/-- Partition numbers (R400). -/
def partOk (n : Nat) : Bool := decide (1 ≤ n) && decide (n ≤ 36)
/-- Flat numbers (R253, R442). -/
def flatOk (f : Nat) : Bool := decide (f < 2340)

/-- Windows whose owner exists. -/
def Machine.Window.ok : Window → Bool
  | .part n => partOk n
  | .trans n => partOk n
  | .cx n => partOk n
  | .chain n die ch => partOk n && decide (die < 4) && decide (ch < 64)
  | .splice n die => partOk n && decide (die < 4)
  | .queue die slot => decide (die < 4) && decide (slot < 64)
  | .hold => true
  | .lease die => decide (die < 4)
  | .regmap => true
  | .dsense d => decide (d < 4)
  | .dtarget d => decide (d < 4)
  | .millcal m => decide (m < 144)
  | .energy n => decide (n ≤ 36)
  | .ready => true
  | .start n => decide (n < 64)
  | .tier g => decide (g < 2 ^ 36)

/-- Whether a term names something the device has. -/
def Instr.wf : Instr → Bool
  | .fadd _ _ _ f => decide (f.toNat < 4)
  | .fsub _ _ _ f => decide (f.toNat < 4)
  | .fmul _ _ _ f => decide (f.toNat < 4)
  | .ffma _ _ _ f => decide (f.toNat < 4)
  | .fdiv _ _ _ f => decide (f.toNat < 4)
  | .fsqrt _ _ f => decide (f.toNat < 4)
  | .fmin _ _ _ f => decide (f.toNat < 4)
  | .fmax _ _ _ f => decide (f.toNat < 4)
  | .feq _ _ _ f => decide (f.toNat < 4)
  | .flt _ _ _ f => decide (f.toNat < 4)
  | .fle _ _ _ f => decide (f.toNat < 4)
  | .fclass _ _ f => decide (f.toNat < 4)
  | .fcvtI _ _ f => decide (f.toNat < 4)
  | .fcvtN _ _ f => decide (f.toNat < 4)
  | .fcvtFi _ _ f => decide (f.toNat < 4)
  | .fcvtFn _ _ f => decide (f.toNat < 4)
  | .fcvtFf _ _ _ f => decide (f.toNat < 4)
  | .fenceV c _ => decide (c.toNat < 6)
  | .fenceS c _ => decide (c.toNat < 6)
  | .registerWrite w off _ _ => w.ok && decide (off % 8 = 0) && decide (off < 4096)
  | .cxStop part => partOk part
  | .cxSave part => partOk part
  | .cxRestore part => partOk part
  | .cxResume part => partOk part
  | .cxCommandComplete part => partOk part
  | .cxdataRead part => partOk part
  | .cxdataWrite part _ => partOk part
  | .debugStopCmd part => partOk part
  | .debugStep part => partOk part
  | .breakpointHit flat => flatOk flat
  | .debugStopDrained flat => flatOk flat
  | .kill part flat => partOk part && flatOk flat
  | .killDone part => partOk part
  | .partitionCreate part => partOk part
  | .partitionDestroy part => partOk part
  | .invalidateGo part _ die core => partOk part && decide (die < 4) && decide (core < 4)
  | .invalidationComplete part _ => partOk part
  | .ptEditRecord part _ _ _ _ _ die core => partOk part && decide (die < 4) && decide (core < 4)
  | .queueBind die slot => decide (die < 4) && decide (slot < 64)
  | .queueHoldClear die slot => decide (die < 4) && decide (slot < 64)
  | .qfreePop die slot => decide (die < 4) && decide (slot < 64)
  | .qfreePush die slot _ => decide (die < 4) && decide (slot < 64)
  | .leaseRenew die _ => decide (die < 4)
  | .leaseTake die => decide (die < 4)
  | .leaseHand die dst _ => decide (die < 4) && decide (dst < 4)
  | .fwHeartbeat die => decide (die < 4)
  | .healthTimeout die => decide (die < 4)
  | .dieFence die => decide (die < 4)
  | .bayRegulatorMove bay => decide (bay < 36)
  | .chstatStopClear part die chain => partOk part && decide (die < 4) && decide (chain < 64)
  | .startRecordClear n => decide (n < 64)
  | .unitMapOut unit => decide (unit < 2368)
  | .pmlLinkUp port => decide (port < 12)
  | .droop bay _ => decide (bay < 36)
  | .droopEnd bay => decide (bay < 36)
  | .targetTimeout domain => decide (domain < 4)
  | .millCapUpdate mill => decide (mill < 144)
  | .ballastEnd mill => decide (mill < 144)
  | .arbiterCycle mill => decide (mill < 144)
  | .grantApply flat => flatOk flat
  | .vfetchComplete flat => flatOk flat
  | .waitEnd flat => flatOk flat
  | .sleepExpiry flat => flatOk flat
  | .xqEntryComplete flat _ => flatOk flat
  | .streamBindingStart mill port => decide (mill < 144) && decide (port < 32)
  | .streamFetch mill port => decide (mill < 144) && decide (port < 32)
  | .engineJobStart part die chain => partOk part && decide (die < 4) && decide (chain < 64)
  | .matrixOpComplete mill _ => decide (mill < 144)
  | .msigRaise flat => flatOk flat
  | .hostWrite part _ _ => partOk part
  | .hostRead part _ _ => partOk part
  | .spdmGetVersion part _ => partOk part
  | .spdmGetCapabilities part _ => partOk part
  | .spdmNegotiateAlgorithms part _ _ _ => partOk part
  | .spdmGetDigests part _ => partOk part
  | .spdmGetCertificate part _ _ _ => partOk part
  | .spdmChallenge part _ _ => partOk part
  | .spdmGetMeasurements part _ _ _ => partOk part
  | .pmlLinkDown port => decide (port < 12)
  | _ => true

end Sys2Proof
end

