-- ==== Sys2Proof/Machine/Turn.lean ====
section
/-! DEFINITION. What a turn of the agenda executes: an agent's fetch (R76, R104, R110), a queue's fetch (R426, R435), an event, or the passing of time
(R50, R288), and what happens next when the agenda is empty (log entry 3). -/

namespace Sys2Proof.Machine

/-- What a turn comes to: an instruction to execute, a state in which nothing is executed, or an agent that the device does not
have. -/
inductive Action where
  | exec (i : Instr) (s : State)
  | still (s : State)
  | absent

namespace State

/-! ### Fetching -/

/-- The four bytes that an agent fetches at its program counter, or the fault of the fetch (R110, R407). The base of a code image may be any address: what
one that is no multiple of 4 does the spec does not say (DESIGN CHOICE, log entry 106). -/
def fetchWord (s : State) (f : Nat) : Except Trap Word :=
  let c := s.ctx f
  match s.translate (s.partOf f) (c.code.base + c.pc) .fetch with
  | .error t => .error t
  | .ok x => .ok (BitVec.ofNat 32 (s.dev.read x.phys 4))

/-- Whether the word at an agent's program counter stands in a stack that is not ready (R481): its fetch waits. -/
def fetchBusy (s : State) (f : Nat) : Bool := s.rangeBusy (s.partOf f) ((s.ctx f).code.base + (s.ctx f).pc) 4

/-- The state once the fetch of an agent's word has walked the tables (R488). -/
def fetched (s : State) (f : Nat) : State := s.noteWalk (s.partOf f) ((s.ctx f).code.base + (s.ctx f).pc)

/-- Whether the program counter stands at a word of the code image (R110). -/
def insideImage (c : Ctx) : Bool := decide (c.pc + 4 ≤ c.code.len)

/-- Whether a context waits for elements of a stream, and so issues nothing (R197, R276). -/
def awaitsStream (s : State) (f : Nat) : Bool :=
  match (s.ctx f).wait with
  | some (.element q j) => !s.canArrive f q j
  | _ => false

/-- An agent's turn: it executes the word at its program counter, unless it cannot act, is about to stop for debug, or meets a
breakpoint there. A program counter that an image or a descriptor set to no multiple of 4 raises the alignment trap (R58; log entry 106). -/
noncomputable def agentTurn (s : State) (f : Nat) : Action :=
  if 2340 ≤ f then .absent
  else
    let c := s.ctx f
    let t : State := { s with cur := .agent f }
    if !s.acts f || c.debugReq ≠ 0 || s.awaitsStream f then .still t
    else if !c.passBreak && (s.breakAt f).isSome then .exec (.breakpointHit f) t
    else if c.pc % 4 ≠ 0 then .still (t.trapHere f (.align c.pc))
    else if !insideImage c then .exec .fetchOutsideImage t
    else if s.fetchBusy f then .still t
    else
      match s.fetchWord f with
      | .error tr => .still ((t.fetched f).trapHere f tr)
      | .ok w =>
        match decode w with
        | .ok i => .exec i (t.fetched f)
        | .error _ => .exec (.illegalInstruction w) (t.fetched f)

/-- A queue's turn: it executes its next command. Behind the last command of a segment only its link may stand (R435). -/
noncomputable def queueTurn (s : State) (die slot : Nat) : Action :=
  if 4 ≤ die || 64 ≤ slot then .absent
  else
    let t : State := { s with cur := .queue die slot }
    match t.nextCommand die slot with
    | .idle => .still t
    | .stopped t1 => .still t1
    | .word t1 w lo hi =>
      match decodeCommand w lo hi with
      | .ok i =>
        if (t1.queue die slot).atLink && (t1.queue die slot).stack.isEmpty && bitsAt w 24 8 ≠ 0x1E then
          .exec (.illegalCommand w) t1
        else .exec i t1
      | .error _ => .exec (.illegalCommand w) t1

/-! ### Time -/

/-- Cycles that a bay's clock counts among those of a turn of time: its domain's, or its own while it stretches its clock (R286). -/
def bayCycles (s : State) (cycles : List Nat) (bay : Nat) : Nat :=
  cycles.getD (if s.stretched.getD bay false then 4 + bay else s.regulatorOf bay) 0

/-- Time passes: GTIME counts nanoseconds, and CYCLE the arithmetic cycles of its mill's clock, but not in the hold state. -/
def tick (s : State) (ns : Nat) (cycles : List Nat) : State :=
  let s1 := { s with gtime := s.gtime + BitVec.ofNat 64 ns }
  if s.asleep || cycles.all (· = 0) then s1
  else
    (List.range 144).foldl (fun s m => s.modMill m fun x =>
      { x with cycle := x.cycle + BitVec.ofNat 64 (s.bayCycles cycles (m / 4)) }) s1

/-! ### The course of the device when the agenda names nothing -/

/-- A list begun at another place, so that each of its members comes first in its turn. -/
def turned {α : Type} (l : List α) (n : Nat) : List α := l.drop (n % l.length) ++ l.take (n % l.length)

/-- How often the device has gone through all kinds of work that may be due. -/
def cycleNow (s : State) : Nat := s.round / 7

/-- Events of launches, windows and partitions that are due. -/
noncomputable def dueService (s : State) : Option Instr :=
  let ls := (turned s.launches s.cycleNow).findSome? fun e =>
    if s.canPlace e.1 e.2 then some (Instr.launchPlaceRange (e.1 - 1))
    else if s.launchOver e.1 e.2 then some (Instr.launchComplete (e.1 - 1)) else none
  let parts := (turned s.parts s.cycleNow).findSome? fun n =>
    if s.cxBusy n && !(s.after (execCxCommandComplete n s)).cxBusy n then some (Instr.cxCommandComplete n)
    else if (s.killsOf n).any s.killSettled then some (Instr.killDone n)
    else [false, true].findSome? fun g =>
      match s.invalsOf n g with
      | i :: _ => if s.blockers i = 0 then some (Instr.invalidationComplete n g) else none
      | [] => none
  let bays := (List.range 36).findSome? fun b =>
    if s.regulatorOf b ≠ s.mapOf b && s.bayStill b then some (Instr.bayRegulatorMove b) else none
  let caps := (List.range 144).findSome? fun m => if s.capsStale m then some (Instr.millCapUpdate m) else none
  let targets := (List.range 4).findSome? fun d =>
    if (s.after (execTargetTimeout d s)).noTarget ≠ s.noTarget then some (Instr.targetTimeout d) else none
  let silent := (List.range 4).findSome? fun d =>
    if bitAt (s.reg (.lease s.leaseDie) 0x10) d && !s.heard d then some (Instr.healthTimeout d) else none
  ls.or (parts.or (bays.or (targets.or (silent.or caps))))

/-- Whether a context's next issue slot would change it: an element group, an instruction with none, or a check that fails (R274). -/
noncomputable def issueDue (s : State) (f : Nat) : Bool :=
  match s.issueOne f with
  | .ok _ => true
  | .error t => t.moved f (s.ctx f)

/-- Events of agents that are due. -/
noncomputable def dueAgent (s : State) : Option Instr :=
  (turned s.agents s.cycleNow).findSome? fun e =>
    let f := e.1
    if !s.acts f then none
    else if e.2.debugReq ≠ 0 && s.drained f then some (Instr.debugStopDrained f)
    else if e.2.late.isNone && s.blocksOver f then some (Instr.vfetchComplete f)
    else
      match e.2.vq with
      | x :: _ =>
        if opOf x.word = 0x1E && !e.2.barred && e.2.late.isNone then some (Instr.grantApply f)
        else if s.issueDue f then some (Instr.arbiterCycle (millOf f)) else none
      | [] => none

/-- External accesses that are due. -/
noncomputable def dueAccess (s : State) : Option Instr :=
  (turned s.agents s.cycleNow).findSome? fun e =>
    if s.accessing e.1 && ((s.accessTurn e.1 0 false).ctx e.1).xq ≠ e.2.xq then some (Instr.xqEntryComplete e.1 false) else none

/-- Events of arrays and stream ports that are due. -/
noncomputable def dueMill (s : State) : Option Instr :=
  (turned s.mills s.cycleNow).findSome? fun e =>
    let array := (e.2.queue.head?.filter fun op => !s.matrixHeld e.1 op).map fun _ => Instr.matrixOpComplete e.1 none
    let ports := (turned e.2.ports s.cycleNow).findSome? fun p =>
      match p.2 with
      | b :: _ =>
        if s.streamLive b && s.canStart b && !b.started then some (Instr.streamBindingStart e.1 p.1)
        else if (s.moveElement e.1 p.1).port e.1 p.1 ≠ p.2 then some (Instr.streamFetch e.1 p.1) else none
      | [] => none
    if s.cycleNow % 2 = 0 then array.or ports else ports.or array

/-- Raises of matrix control cores that are due. -/
noncomputable def dueRaise (s : State) : Option Instr :=
  (turned s.agents s.cycleNow).findSome? fun e => if isCore e.1 && s.raiseReady e.1 then some (Instr.msigRaise e.1) else none

/-- Events of engines that are due. -/
noncomputable def dueEngine (s : State) : Option Instr :=
  let starts := (turned s.appended s.cycleNow).findSome? fun a =>
    let t := s.startJob a.part a.die a.chain
    if t.nextJob ≠ s.nextJob || t.interrupts ≠ s.interrupts then some (Instr.engineJobStart a.part a.die a.chain) else none
  let jobs := (turned s.jobs s.cycleNow).findSome? fun j =>
    if j.parked then none
    else if j.status.isNone && Card.kind j.card = 3 && !j.waiting then
      let t := s.after (execFoldContribution j.id s)
      if t.jobs ≠ s.jobs || t.held ≠ s.held then some (Instr.foldContribution j.id) else none
    else if (s.finishJob j 0).jobs ≠ s.jobs then some (Instr.jobComplete j.id 0) else none
  if s.cycleNow % 2 = 0 then starts.or jobs else jobs.or starts

/-- Turns that could make progress, in rising order: agents, then queues. -/
def movers (s : State) : List Nat :=
  let agents := s.agents.filterMap fun e =>
    let c := e.2
    if s.acts e.1 && c.debugReq = 0 && (c.wait.isNone || (c.wait.map (s.waitOver e.1)).getD true) then some e.1 else none
  let queues := s.queues.filterMap fun e => if e.2.live && e.2.running then some (2340 + e.1) else none
  agents ++ queues

/-- The turn of the next agent or queue; when all have had theirs, time passes. -/
noncomputable def nextMover (s : State) : Action :=
  match s.movers.find? fun n => s.last < n + 1 with
  | some n =>
    let t : State := { s with defer := false }
    let a := if n < 2340 then t.agentTurn n else t.queueTurn ((n - 2340) / 64) ((n - 2340) % 64)
    match a with
    | .exec i u => .exec i { u with last := n + 1 }
    | .still u => .still { u with last := n + 1 }
    | .absent => .absent
  | none => .still { s.tick 1 (List.replicate 40 1) with last := 0 }

/-- Work of a kind, if any is due: of the six kinds of events, or a function of the package that becomes usable; the seventh kind is the turn of an agent
or a queue, or time, of which there is always some. -/
noncomputable def dueOf (s : State) (kind : Nat) : Option Action :=
  let event (i : Instr) : Action := .exec i { s with cur := .nobody, defer := false }
  match kind with
  | 0 =>
    match s.starting with
    | k :: _ => some (.still (s.setReady k))
    | [] => (if s.asleep then none else s.dueService).map event
  | 1 => (if s.asleep then none else s.dueAgent).map event
  | 2 => (if s.asleep then none else s.dueAccess).map event
  | 3 => (if s.asleep then none else s.dueMill).map event
  | 4 => (if s.asleep then none else s.dueRaise).map event
  | 5 => (if s.asleep then none else s.dueEngine).map event
  | _ => some s.nextMover

/-- The first of some kinds of work, by their numbers on a count that never falls, of which something is due. -/
noncomputable def firstDue (s : State) : List Nat → Action
  | [] => .still s
  | n :: rest => (dueOf { s with round := n + 1 } (n % 7)).getD (firstDue s rest)

/-- What happens next when the agenda names nothing: the kinds of work take turns, so that none that is due waits for ever for another (R277, R278). -/
noncomputable def idleTurn (s : State) : Action := s.firstDue ((List.range 7).map (s.round + ·))

/-- The core whose image an event needs, by the step that starts it (R478): 1 a firmware core, 10 a system core; 0 for an event that needs
none (log entry 133). -/
def imageFor (i : Instr) : Nat :=
  match i with
  | .leaseRenew _ _ | .leaseTake _ | .leaseHand _ _ _ | .fwHeartbeat _ | .dieFence _ | .launchPlaceRange _ | .holdDeadline _ | .holdResume _ |
    .unitMapOut _ | .spdmGetVersion _ _ | .spdmGetCapabilities _ _ | .spdmNegotiateAlgorithms _ _ _ _ | .spdmGetDigests _ _ |
    .spdmGetCertificate _ _ _ _ | .spdmChallenge _ _ _ | .spdmGetMeasurements _ _ _ _ => 1
  | .registerWrite _ _ _ _ | .cxStop _ | .cxSave _ | .cxRestore _ | .cxResume _ | .cxdataRead _ | .cxdataWrite _ _ | .debugStopCmd _ | .debugStep _ |
    .kill _ _ | .partitionCreate _ | .partitionDestroy _ | .invalidateGo _ _ _ _ | .ptEditRecord _ _ _ _ _ _ _ _ | .queueBind _ _ |
    .queueHoldClear _ _ | .qfreePop _ _ | .qfreePush _ _ _ | .regmapWrite _ _ | .chstatStopClear _ _ _ => 10
  | _ => 0

/-- An uncorrectable error strikes a byte of a space, or it is good again (log entry 95). -/
def strike (s : State) (space a : Nat) (bad : Bool) : State :=
  let others := s.errors.filter (· ≠ (space, a))
  { s with errors := if bad then others ++ [(space, a)] else others }

/-- What the next step executes. An event that only a core could make whose image has failed its verification is none (R478). -/
noncomputable def nextAction (s : State) : Action :=
  match s.agenda with
  | [] => s.idleTurn
  | t :: rest =>
    let s1 := { s with agenda := rest }
    match t with
    | .run f => { s1 with defer := false }.agentTurn f
    | .push f => { s1 with defer := true }.agentTurn f
    | .queue die slot => { s1 with defer := false }.queueTurn die slot
    | .event i =>
      if i.isWord || i.isCommand || !i.wf then .absent
      else if s.failed.contains (imageFor i) then .still s1
      else .exec i { s1 with cur := .nobody, defer := false }
    | .member f k => if 2304 ≤ f then .absent else .still (s1.askMember f k)
    | .access f k => if 2340 ≤ f then .absent else .still (if s1.accessing f then s1.accessTurn f k false else s1)
    | .element m row col => if 144 ≤ m then .absent else .still (s1.drawElement m row col)
    | .job id n =>
      match s1.job id with
      | some j => .still (s1.performSome j n)
      | none => .absent
    | .memory space a bad => .still (s1.strike space a bad)
    | .hostAtomic part addr op bytes cmp => .still (s1.hostAtomic part addr op bytes cmp)
    | .windowWrite w off v =>
      match w with
      | .queue _ _ => .still (s1.registerWrite w off v 0)
      | _ => .absent
    | .walk part va => .still (s1.noteWalk part va)
    | .image k x => .still { s1 with images := s1.images.put k x }
    | .ready k => .still (s1.setReady k)
    | .calibrate stack on => if 8 ≤ stack then .absent else .still (s1.calibrate stack on)
    | .time ns cycles => .still (s1.tick ns cycles)

end State

end Sys2Proof.Machine
end

