-- ==== Sys2Proof/Machine/Place.lean ====
section
/-! DEFINITION. How one word is put where the next step fetches it (log entry 2): a live partition with tables that map an address to itself, and
the word in the code image of a thread context, in the matrix code image of a core, or in a queue's segment. -/

namespace Sys2Proof.Machine

namespace State

/-- Address of the code image, and of the queue's control block and segment. -/
def placeCode : Nat := 0x100000
def placeBlock : Nat := 0x110000
def placeSegment : Nat := 0x120000

/-- Partition 1 live on bay 0 of a package that runs: both stages map the first GiB to itself with every permission, and the granules
used belong to the partition. -/
def placePartition (s : State) : State :=
  let own (g : Nat) (s : State) : State := { s with tiers := s.tiers.put g { s.granule g with owner := 1 } }
  let entry (a v : Nat) (s : State) : State := { s with dev := s.dev.write a 8 v }
  let s1 := { s with owners := s.owners.put 0 1, fenced := s.fenced.filter (· ≠ 0) }
  let s2 := (s1.setField .hold 0x00 40 2 0).setReg (.part 1) 0x00 2
  let s3 := ((s2.setReg (.part 1) 0x08 1).setReg (.part 1) 0x10 0x10000).setReg (.part 1) 0x18 455
  let s4 := s3.setReg (.trans 1) 0x00 0x80000
  let s5 := entry 0x20000 0xF (entry 0x10000 0x20001 s4)
  let s6 := entry 0xB0000 0xF (entry 0xA0000 0xB0001 (entry 0x80000 0xA0001 s5))
  own (placeSegment / 65536) (own (placeBlock / 65536) (own (placeCode / 65536) s6))

/-- A word in the image of an agent of bay 0 that runs from there. -/
def placeAgent (s : State) (f w : Nat) : State :=
  let s1 := s.placePartition
  let s2 := { s1 with dev := s1.dev.write placeCode 4 w, agenda := Turn.run f :: s1.agenda }
  s2.modCtx f fun c =>
    { c with
      life := .running, pc := 0, code := ⟨placeCode, 4, 0, 0, 0⟩, wait := none, debugReq := 0, passBreak := true }

/-- A command of `nbits` bits in a segment of slot 0 of die 0, published and next to be executed. A `link` stands at the segment's
end. -/
def placeCommand (s : State) (nbits w : Nat) : State :=
  let s1 := s.placePartition
  let link := decide (w / 2 ^ 24 % 256 = 0x1E)
  let at' := placeSegment + (if link then segmentBytes else 0)
  let s2 := { s1 with
    dev := (s1.dev.write at' 12 (w % 2 ^ nbits)).write (placeBlock + 32) 8 segmentBytes
    agenda := Turn.queue 0 0 :: s1.agenda }
  (s2.setReg (.queue 0 0) 0x08 (BitVec.ofNat 64 placeBlock)).modQueue 0 0 fun q =>
    { q with
      live := true, hold := false, part := 1, lo := placeSegment, hi := placeSegment + 65536, segment := some placeSegment,
      atLink := link, pos := if link then segmentBytes else 0, stack := [], running := true, pendFault := none }

/-- Whether a word of a table row is one of a thread or core, and not read as a command. -/
noncomputable def isAgentWord (nbits w : Nat) : Bool :=
  let x := BitVec.ofNat 32 (w % 2 ^ nbits)
  nbits ≤ 32 && !commandFirst x && (bitsAt x 26 6 = 0x38 || (decodeThread x).toOption.isSome)

end State

end Sys2Proof.Machine
end

