-- ==== Sys2Proof/Machine/Step.lean ====
section
/-! DEFINITION. One step of the machine: the next action of the agenda, and the meaning of the instruction it executes. -/

namespace Sys2Proof.Machine

/-- One step. -/
noncomputable def step (s : State) : Host.Outcome State Fault Refusal :=
  match s.nextAction with
  | .exec i t => exec i t
  | .still t => .next t
  | .absent => .fault .noSuchAgent

/-- The state with an instruction of a table row where the next step fetches it: a word of a core in the matrix code of core 2,304, a
word of a thread in the code of context 0, and any other word as a command of queue slot 0 (log entry 2). -/
noncomputable def State.withFetchWord (s : State) (nbits w : Nat) : State :=
  if State.isAgentWord nbits w then
    s.placeAgent (if bitsAt (BitVec.ofNat 32 w) 26 6 = 0x38 then 2304 else 0) w
  else s.placeCommand nbits w

end Sys2Proof.Machine
end

