-- ==== Sys2Proof/Safety.lean ====
section
/-! DEFINITION. What a safe state is, and when an instruction may take effect, in the terms that the statements use. -/

namespace Sys2Proof.Safety

open Sys2Proof.Machine

/-- Every memory is in its canonical form: addresses strictly rising and no cell zero. -/
abbrev memoriesOk (s : State) : Prop := s.dev.wf = true ∧ s.host.wf = true ∧ s.peer.wf = true ∧ s.scr.wf = true

/-- Every memory is canonical, and the table of agents has each agent once. -/
abbrev Inv (s : State) : Prop := memoriesOk s ∧ (s.agents.map (·.1)).Pairwise (· < ·)

/-! ### Scalar instructions -/

/-- It is agent f's turn and an instruction that names the scalar registers `rs` may take effect: none of them is pending (R116) or
owed by a failed access (R118), no trap of a vector instruction waits for its stop (R449), and the vector queue has room (R271). -/
abbrev Ready (s : State) (f : Nat) (rs : List Nat) : Prop :=
  s.cur = .agent f ∧ rs.any (s.ctx f).pending = false ∧ State.failureOf (s.ctx f) rs = none ∧ (s.ctx f).late = none ∧
  (s.ctx f).vq.length < 32

/-- The same for an instruction that only a thread has (R71) and whose effect others may observe, while it is not provisional: every earlier vector instruction of
the context has completed, or none is queued behind the convoy in flight (R449). -/
abbrev ThreadReady (s : State) (f : Nat) (rs : List Nat) : Prop :=
  Ready s f rs ∧ f < 2304 ∧ ((s.ctx f).quiet = true ∨ (s.ctx f).certain = true)

/-- The state in which the instruction at an agent's program counter has completed with the context `c`: the next word follows. -/
abbrev next (s : State) (f : Nat) (c : Ctx) : State := s.setCtx f (c.retire ((s.ctx f).pc + 4))

/-- The state in which it has completed and written v to s[d], and nothing else. -/
abbrev wrote (s : State) (f : Nat) (d : BitVec 5) (v : Dword) : State := next s f ((s.ctx f).setS d.toNat v)

/-- The same with flags raised. -/
abbrev wroteFlags (s : State) (f : Nat) (d : BitVec 5) (r : Dword × Flags) : State :=
  next s f (((s.ctx f).raiseFlags r.2).setS d.toNat r.1)

/-- The state in which thread or core f has taken an exception at its program counter (R440): stopped, with its record. -/
abbrev stopped (s : State) (f : Nat) (t : Trap) : State := s.stopContext f t (s.ctx f).pc (s.ctx f).vstart 0 false

/-- The state in which it waits for a condition (R276): nothing else has changed. -/
abbrev waiting (s : State) (f : Nat) (w : Wait) : State := s.setCtx f { s.ctx f with wait := some w }

/-- An exception of the instruction at the program counter stops the agent at once: nothing before it is still under way (R76, R376). -/
abbrev Settled (s : State) (f : Nat) : Prop := (s.ctx f).quiet = true ∧ s.matIdle f = true

/-! ### Memory accesses of the scalar unit -/

/-- Where byte `a` of the scratchpad view v stands for agent f (R147). -/
def scrByte (f : Nat) (v : Line) (a : Nat) : Nat := State.scrAddr (bayOf f) (View.bayByte (millOf f % 4) v a)

/-- An access through view w waits for nothing: no earlier access through a view that may meet it is queued (R157, R161), what another agent could
observe is not provisional (R449), and the view's count has room (R163). -/
abbrev InOrder (s : State) (f : Nat) (w : BitVec 4) (seen : Bool) : Prop :=
  s.orderHeld f w.toNat seen = false ∧ State.viewCount (s.ctx f) w.toNat < 4095

/-- A scratch access of `n` bytes at offset B of view w, a store if `seen`, passes the checks of R112, waits for no other access (R113), and meets no
byte that an uncorrectable error has struck. -/
def ScratchOk (s : State) (f : Nat) (rs : List Nat) (w : BitVec 4) (v : Line) (B : Dword) (n : Nat) (seen : Bool) : Prop :=
  Ready s f rs ∧ InOrder s f w seen ∧ coreViewBad f w.toNat = false ∧ (s.ctx f).view (isCore f) w.toNat = some v ∧
  View.space v ≤ 1 ∧ View.rank v = 1 ∧ View.stride v 0 = 1 ∧ View.whole v = false ∧ 0 ≤ B.toInt ∧
  B.toInt + n ≤ View.ext v 0 * View.size v ∧ (View.base v + B.toNat) % n = 0 ∧ s.xqMeets f v = false ∧
  s.struck (.scr (scrByte f v (View.base v + B.toNat))) n = false

/-- Offset B of an external access of `n` bytes lies within view v, and A is its byte address (R114). -/
def ExternalBounds (v : Line) (B : Dword) (n A : Nat) : Prop :=
  if View.whole v then A = B.toNat ∧ A + n ≤ 2 ^ 64
  else
    (A : Int) = View.base v + B.toInt ∧ A < 2 ^ 72 ∧
    if View.rank v = 1 ∧ View.stride v 0 = 1 then 0 ≤ B.toInt ∧ B.toInt + n ≤ View.ext v 0 * View.size v
    else View.lo v ≤ A ∧ (A : Int) + n - 1 ≤ View.hi v

/-- The new value of an atomic step (R210), by its op number. -/
def atomicResult {k : Nat} (op : Nat) (old v cmp : BitVec k) : BitVec k :=
  match op with
  | 0 => old + v
  | 1 => old &&& v
  | 2 => old ||| v
  | 3 => old ^^^ v
  | 4 => if v.slt old then v else old
  | 5 => if v.slt old then old else v
  | 6 => if v.ult old then v else old
  | 7 => if v.ult old then old else v
  | 8 => v
  | _ => if old = cmp then v else old

/-- The page that an external access at address A holds pinned where its location is translated (R177). -/
def accessPin (s : State) (f A : Nat) (u : Use) (l : Loc) : Option Pin :=
  match l with
  | .dev _ _ | .slot _ _ _ => s.pinFor f A u
  | _ => none

/-- The state in which the walk of an external access has read the tables: those of an access that holds a page pinned (R177, R488). -/
def accessWalk (s : State) (f A : Nat) (p : Option Pin) : State := if p.isSome then s.noteWalk (s.partOf f) A else s

/-- The raises that a core has queued, once the oldest entry of its external queue has completed (R374). -/
def raisesPast (c : Ctx) : List Raise := c.raises.map fun x => { x with xq := x.xq - 1 }

/-- The entries of two vector queues are the same but for what a discard at each would restore (R449). -/
def SameQueue (q q' : List VqEntry) : Prop :=
  q.map (fun e => { e with check := none }) = q'.map fun e => { e with check := none }

/-- The state in which an external queue entry's access has performed, its register apart (R115, R210); a load of QFREE pops it (R436). -/
def entryMemory (s : State) (e : XqEntry) : State :=
  let old : BitVec (8 * e.size) := BitVec.ofNat _ (s.load e.loc e.size)
  match e.kind with
  | .load =>
    match e.loc with
    | .slot die slot off => if off / 8 = 3 then s.popFree die slot else s
    | _ => s
  | .store v => s.store e.loc e.size v
  | .atomic op v cmp => s.store e.loc e.size (atomicResult op old (BitVec.ofNat _ v) (BitVec.ofNat _ cmp)).toNat

/-- What its register receives: the old bytes, sign-extended; nothing is read by a store, which names s0. -/
def entryValue (s : State) (e : XqEntry) : Dword :=
  match e.kind with
  | .store _ => 0
  | _ => (BitVec.ofNat (8 * e.size) (s.load e.loc e.size)).signExtend 64

/-- A location can be reached, and no uncorrectable error has struck a byte of it (R118). -/
def reachable (s : State) (l : Loc) (n : Nat) : Prop := (∀ a, l = .peer a → s.peerReachable = true) ∧ s.struck l n = false

/-- An entry of the external queue performs when its turn comes (R77, R118): its location can be reached, and no launch that runs has its code where the
entry writes. -/
def Succeeds (s : State) (f : Nat) (e : XqEntry) : Prop :=
  reachable s e.loc e.size ∧ ∀ a x, e.loc = .dev a x → e.kind.writes = true → s.codePage (s.partOf f) a = false

/-! ### Float values -/

/-- The number a finite value stands for (0 for an infinity and a NaN, of which it is not asked). -/
def ratOf : FVal → ℚ
  | .fin neg m e => (if neg then -1 else 1) * m * (2 : ℚ) ^ e
  | _ => 0

/-- A value that is neither an infinity nor a NaN. -/
def isFinite (x : FVal) : Bool := !x.isNan && !x.isInf

/-- A finite value x rounds as the number q does in a format (R300): it equals q, or both lie strictly between the same two
neighbouring multiples of a power of two that is smaller than a quarter of the last place of q. -/
def StandsFor (F : Fmt) (x : FVal) (q : ℚ) : Prop :=
  isFinite x = true ∧
  (ratOf x = q ∨ ∃ n k : ℤ, n * (2 : ℚ) ^ k < ratOf x ∧ ratOf x < (n + 1) * (2 : ℚ) ^ k ∧
    n * (2 : ℚ) ^ k < q ∧ q < (n + 1) * (2 : ℚ) ^ k ∧ (2 : ℚ) ^ k * 2 ^ (F.fbits + 2) ≤ |q|)

/-- The integer n is what q rounds to under a mode (R302). -/
def RoundsTo (rm : RM) (q : ℚ) (n : ℤ) : Prop :=
  match rm with
  | .towardZero => |(n : ℚ)| ≤ |q| ∧ |q| < |(n : ℚ)| + 1 ∧ 0 ≤ q * n
  | .up => q ≤ n ∧ (n : ℚ) < q + 1
  | .down => (n : ℚ) ≤ q ∧ q < n + 1
  | .nearestEven => |q - n| ≤ 1 / 2 ∧ (|q - n| = 1 / 2 → n % 2 = 0)
  | .nearestAway => |q - n| ≤ 1 / 2 ∧ (|q - n| = 1 / 2 → |q| < |(n : ℚ)|)

/-- Bits of a format that encode a NaN, and a signalling one (R291). -/
def nanBits (F : Fmt) (b : Nat) : Bool := decide (b / 2 ^ F.fbits % 2 ^ F.ebits = 2 ^ F.ebits - 1) && decide (b % 2 ^ F.fbits ≠ 0)
def snanBits (F : Fmt) (b : Nat) : Bool := nanBits F b && decide (b / 2 ^ (F.fbits - 1) % 2 = 0)
/-- The bits of the NaN quieted, its sign and payload kept. -/
def quietBits (F : Fmt) (b : Nat) : Nat := b ||| 2 ^ (F.fbits - 1)
/-- The bits of a NaN of format G converted to format F (R304): its sign, the high bits of its payload, and the quiet bit. -/
def convertedNan (G F : Fmt) (b : Nat) : Nat :=
  let fr := b % 2 ^ G.fbits
  b / 2 ^ (G.bits - 1) % 2 * 2 ^ (F.bits - 1) + (2 ^ F.ebits - 1) * 2 ^ F.fbits +
    ((if F.fbits ≤ G.fbits then fr / 2 ^ (G.fbits - F.fbits) else fr * 2 ^ (F.fbits - G.fbits)) ||| 2 ^ (F.fbits - 1))
/-- The default NaN of a format (R291), and an infinity with a sign. -/
def defaultNan (F : Fmt) : Nat := (2 ^ F.ebits - 1) * 2 ^ F.fbits + 2 ^ (F.fbits - 1)
def infBits (F : Fmt) (neg : Bool) : Nat := b2n neg * 2 ^ (F.ebits + F.fbits) + (2 ^ F.ebits - 1) * 2 ^ F.fbits

/-! ### Vector instructions -/

/-- It is thread f's turn, and a vector instruction that names the scalar registers `rs` is pushed and begins at once: nothing is ahead
of it in the queue, no convoy is in flight and no chain latch open, the turn leaves nothing queued (R53, R271, R331), no samples are
taken (R485), no other context of the mill has a vector instruction queued or is owed a slot (R273, R274; log entry 99), and the external queue
holds at most its 16 entries (R115). -/
abbrev VectorReady (s : State) (f : Nat) (rs : List Nat) : Prop :=
  Ready s f rs ∧ f < 2304 ∧ (s.ctx f).vq = [] ∧ (s.ctx f).convoyLeft = 0 ∧ (s.ctx f).blocks = none ∧ (s.ctx f).latch = none ∧
  s.defer = false ∧ bitAt (s.reg (.cx (s.partOf f)) 0x60) 63 = false ∧ s.millQuiet f = true ∧ (s.ctx f).xq.length ≤ 16 ∧
  (s.ctx f).order = []

/-- Elements below which vector instruction i of a context performs: the real elements of the strip, of which a tile or carry move takes those its
lines have (R380, R381); a `vfetch` performs none itself (R265). -/
def elementsOf (i : Instr) (c : Ctx) : Nat :=
  match i with
  | .mtv .. | .mvt .. => min c.reals (c.tshape * 128)
  | .mtvc .. => min c.reals 64
  | .vfetch .. => 0
  | _ => c.reals

/-- The state in which the element groups of instruction i, from VSTART up to element `top`, have been issued to thread f, in a mill whose other
contexts ask for none: where they leave the pointer of its arbiter (R18, R274). -/
def charged (s : State) (f : Nat) (i : Instr) (top : Nat) : State :=
  s.chargeAlone f (State.groupsBetween (max 1 (256 / (s.ctx f).widestOf i.word)) (s.ctx f).vstart top)

/-- The state in which thread f has completed the vector instruction at its program counter with the context c: the next word
follows, VSTART is 0 and one more instruction has retired (R41, R50), its element groups have been issued (R274) and its mill has counted one
instruction more (R485), and a debug stop that a single step asked for is due. -/
def vnext (s : State) (f : Nat) (i : Instr) (c : Ctx) : State :=
  let stop := if (s.ctx f).stepping then 3 else (s.ctx f).debugReq
  ((charged s f i (elementsOf i (s.ctx f))).modMill (millOf f) fun m => { m with samples := m.samples + 1 }).setCtx f
    { c with
      pc := (s.ctx f).pc + 4, vq := [], vstart := 0, instret := c.instret + 1, wait := none, passBreak := false,
      stepping := false, debugReq := stop, reverted := false, convoyLeft := 0, slotted := 0,
      convoyHead := if stop = 0 then 0 else (s.ctx f).pc, convoyCount := if stop = 0 then 0 else 1 }

/-- The state in which thread f has completed a member of OP 0x1E with the context c (R130): as `vnext`, but it issues no element group, and
VSTART is as c has it. -/
def gnext (s : State) (f : Nat) (c : Ctx) : State :=
  let stop := if (s.ctx f).stepping then 3 else (s.ctx f).debugReq
  (s.modMill (millOf f) fun m => { m with samples := m.samples + 1 }).setCtx f
    { c with
      pc := (s.ctx f).pc + 4, vq := [], instret := c.instret + 1, wait := none, passBreak := false, stepping := false,
      debugReq := stop, reverted := false, convoyLeft := 0, convoyHead := if stop = 0 then 0 else c.convoyHead,
      convoyCount := if stop = 0 then 0 else c.convoyCount }

/-- Vector instruction i of thread f, pushed and in flight, has met trap t before any effect (R445): it stays at the head of the queue, in its
convoy and with its start index (R448), and the thread core runs on to the next vector instruction, where the context stops (R447, R449). No
debug stop is due. -/
def MeetsTrap (s : State) (f : Nat) (i : Instr) (t : Trap) : Prop :=
  (s.ctx f).stepping = false → (s.ctx f).debugReq = 0 →
    ∃ q : VqEntry, q.pc = (s.ctx f).pc ∧ q.begun = decide ((s.ctx f).vstart ≠ 0) ∧ q.start = (s.ctx f).vstart ∧ q.done = false ∧
      exec i s = .next (s.setCtx f
      { s.ctx f with
        pc := (s.ctx f).pc + 4, vq := [q], wait := none, passBreak := false, reverted := false, convoyHead := (s.ctx f).pc,
        convoyCount := 1, convoyLeft := 1, late := some ⟨t, (s.ctx f).pc, (s.ctx f).vstart, false⟩ })

/-- Vector instruction i of thread f has met trap t at element k, which with every element above it has not performed, and nothing below
it is active: the element groups up to its own have been issued, VSTART is k, and the stop comes as in `MeetsTrap` (R447, R448). -/
def FaultsAt (s : State) (f : Nat) (i : Instr) (t : Trap) (k : Nat) : Prop :=
  (s.ctx f).stepping = false → (s.ctx f).debugReq = 0 →
    ∃ q : VqEntry, q.pc = (s.ctx f).pc ∧ q.begun = true ∧ q.start = k ∧ q.done = false ∧ exec i s = .next ((charged s f i (k + 1)).setCtx f
      { s.ctx f with
        pc := (s.ctx f).pc + 4, vq := [q], vstart := k, wait := none, passBreak := false, reverted := false, slotted := 0,
        convoyHead := (s.ctx f).pc, convoyCount := 1, convoyLeft := 1, late := some ⟨t, (s.ctx f).pc, k, false⟩ })

/-- The strip has an element from VSTART up (R41). -/
abbrev HasStrip (c : Ctx) : Prop := c.vstart < c.vl

/-- The elements of a group under its tag, from VSTART up to the real elements of the strip, hold `r` where predicate pm is set, and
keep what they held where it is not; every other byte of the vector file is as before (R9, R314). `sl` is the file after. -/
def GroupWritten (c : Ctx) (sl : BitVec 524288) (d b pm : Nat) (r : Nat → Nat) : Prop :=
  (∀ i, c.vstart ≤ i → i < c.reals →
    sliceBytes sl (d * c.regBytes + i * b) b =
      if c.pbit pm i then r i % 2 ^ (8 * b) else sliceBytes c.slice (d * c.regBytes + i * b) b) ∧
  ∀ k, k < d * c.regBytes + c.vstart * b ∨ d * c.regBytes + c.reals * b ≤ k → sliceBytes sl k 1 = sliceBytes c.slice k 1

/-- The flags of the active elements from VSTART up, joined (R305). -/
def activeFlags (c : Ctx) (pm : Nat) (fl : Nat → Flags) : Flags :=
  (((List.range c.reals).filter fun i => decide (c.vstart ≤ i) && c.pbit pm i).map fl).foldl (· ||| ·) 0

/-- Bits of one predicate, from VSTART up to the real elements of the strip, take `r` where predicate pm is set; every other bit of every
predicate is as before (R320). -/
def PredWritten (c : Ctx) (ps : Vector (BitVec 65536) 16) (q pm : Nat) (r : Nat → Bool) : Prop :=
  ∀ n < 16, ∀ k < 65536, bitAt (ps.toList.getD n 0) k =
    if n = q ∧ c.vstart ≤ k ∧ k < c.reals ∧ c.pbit pm k = true then r k else bitAt (c.preds.toList.getD n 0) k

/-- Vector instruction i completes for thread f: the active elements of group d take the bits r, their flags join FFLAGS, and nothing
else changes (R305, R314). -/
def WritesGroup (s : State) (f : Nat) (i : Instr) (d : BitVec 6) (p : BitVec 4) (r : Nat → Nat × Flags) : Prop :=
  ∃ sl, exec i s = .next (vnext s f i
      { s.ctx f with slice := sl, fflags := (s.ctx f).fflags ||| activeFlags (s.ctx f) p.toNat fun k => (r k).2 }) ∧
    GroupWritten (s.ctx f) sl d.toNat ((s.ctx f).tag d.toNat).bytes p.toNat fun k => (r k).1

/-- The same for a predicate q. -/
def WritesPredicate (s : State) (f : Nat) (i : Instr) (q p : BitVec 4) (r : Nat → Bool × Flags) : Prop :=
  ∃ ps, exec i s = .next (vnext s f i
      { s.ctx f with preds := ps, fflags := (s.ctx f).fflags ||| activeFlags (s.ctx f) p.toNat fun k => (r k).2 }) ∧
    PredWritten (s.ctx f) ps q.toNat p.toNat fun k => (r k).1

/-- One element of a Hadamard stage of distance n over group a (R330); a float value there is one exact sum or difference in its tag, as R301
and R304 give it. -/
def hadamard (c : Ctx) (a : BitVec 6) (n i : Nat) : Nat × Flags :=
  let ta := c.tag a.toNat
  let u := ta.read (c.bits a.toNat i)
  let v := ta.read (c.bits a.toNat (i ^^^ n))
  if ta.isInt then (ta.intBits (if i &&& n = 0 then u.int? + v.int? else v.int? - u.int?), 0)
  else
    let r := if i &&& n = 0 then fAdd c.vrm u.flt? v.flt? else fSub c.vrm v.flt? u.flt?
    let y := ta.roundTo c.vrm (.flt r.1)
    (y.1, r.2 ||| y.2)

/-! ### Vector memory accesses -/

/-- Elements that a vector instruction performs: active, from VSTART up to the real elements, in ascending order. -/
def performed (c : Ctx) (pm : Nat) : List Nat := (List.range c.reals).filter fun i => decide (c.vstart ≤ i) && c.pbit pm i

/-- View v serves a vector access of elements of b bytes: of a space in the list, and of their size, or of rank 1 and stride 1 with
smaller elements (R186, R187); no earlier access of the context's external queue may meet it (R157). -/
def VectorView (s : State) (f : Nat) (w : BitVec 4) (v : Line) (spaces : List Nat) (b : Nat) : Prop :=
  (s.ctx f).view false w.toNat = some v ∧ View.space v ∈ spaces ∧ View.whole v = false ∧ View.size v ≤ b ∧
  (View.size v = b ∨ View.rank v = 1 ∧ View.stride v 0 = 1) ∧ s.xqMeets f v = false

/-- View index j is that of an element of b bytes inside the domain, its address a multiple of b (R190). -/
def Accessible (v : Line) (b : Nat) (j : Int) : Prop :=
  0 ≤ j ∧ j + (b / View.size v : Nat) ≤ View.count v ∧ (View.addr v j.toNat).toNat % b = 0

/-- The scratchpad byte of view index j (R147, R154). -/
def elementByte (f : Nat) (v : Line) (j : Int) : Nat := scrByte f v (View.addr v j.toNat).toNat

/-- The element of b bytes at view index j can be accessed: no uncorrectable error has struck a byte of it (R445). -/
def Performs (s : State) (f : Nat) (v : Line) (b : Nat) (j : Int) : Prop :=
  Accessible v b j ∧ s.struck (.scr (elementByte f v j)) b = false

/-- The trap of element j of thread f that cannot be accessed (R190, R445): an uncorrectable error comes before the alignment. -/
def elementTrap (s : State) (f : Nat) (v : Line) (b : Nat) (j : Int) : Trap :=
  let a := (View.addr v j.toNat).toNat
  if 0 ≤ j ∧ j + (b / View.size v : Nat) ≤ View.count v then
    (if s.struck (.scr (elementByte f v j)) b then .access a else .align a)
  else .access (View.base v)

/-! ### The grant -/

/-- The context after VTYPE's writable fields are set (R37, R131): no other bit of VTYPE changes, and a change of G applies R39. -/
def Reconfigured (c c' : Ctx) (tshape slices rm g : Nat) : Prop :=
  ∃ (vt : Dword) (sl : BitVec 524288),
    (bitsAt vt 0 2 = bitsAt c.vtype 0 2 ∧ bitsAt vt 2 2 = g ∧ bitsAt vt 4 2 = bitsAt c.vtype 4 2 ∧ bitsAt vt 6 3 = rm ∧
      bitsAt vt 9 4 = slices ∧ bitsAt vt 13 2 = tshape ∧ bitsAt vt 15 49 = bitsAt c.vtype 15 49) ∧
    let top := c.regBytes * 2 ^ g / c.eb
    c' = (if g = bitsAt c.vtype 2 2 then { c with vtype := vt }
      else if c.vl ≤ top then { c with vtype := vt, vlmax := top }
      else { c with vtype := vt, vlmax := top, vl := top, vpad := c.vpad - (c.vl - top), slice := sl }) ∧
    (g ≠ bitsAt c.vtype 2 2 → top < c.vl → ∀ r < c.nreg, r % 2 ^ g = 0 →
      let w := top * if c.tag r = .none then c.eb else (c.tag r).bytes
      ∀ j, r * c.regBytes ≤ j → j < r * c.regBytes + c.regBytes * 2 ^ g →
        sliceBytes sl j 1 = if j < r * c.regBytes + w then sliceBytes c.slice j 1 else 0)

/-- The cap that a grant reads (R135): a replayed one, the pinned one, or the mill's. -/
def capOf (c : Ctx) : Nat :=
  match c.replay with
  | x :: _ => x
  | [] => if c.pinned then 64 * 2 ^ c.pincap else c.cap

/-- Source elements that a fold into element k of a group takes, in ascending order (R139): those of the old strip's real elements that
the group holds, at or above gf, which k names modulo gf. -/
def foldSources (c : Ctx) (b gf k : Nat) : List Nat :=
  (List.range (min c.reals (c.groupBytes / b))).filter fun j => decide (gf ≤ j) && decide (j % gf = k)

/-- The file after a grant of `real` real elements at `eb` bytes (R138): in every group the bytes above them are void; below, a carried
group holds its folded elements and any other group what it held. -/
def Granted (c : Ctx) (sl : BitVec 524288) (real eb : Nat) : Prop :=
  ∀ n < c.nreg, n % c.g = 0 →
    let carried := n < 32 ∧ c.vcarry.getLsbD n = true
    let b := if c.tag n = .none then eb else (c.tag n).bytes
    let gf := if carried then max real 1 else real
    (∀ j, n * c.regBytes + gf * b ≤ j → j < n * c.regBytes + c.groupBytes → sliceBytes sl j 1 = 0) ∧
    (¬ carried → ∀ j, n * c.regBytes ≤ j → j < n * c.regBytes + min (gf * b) c.groupBytes →
      sliceBytes sl j 1 = sliceBytes c.slice j 1) ∧
    (carried → ∀ k < gf, (k + 1) * b ≤ c.groupBytes → sliceBytes sl (n * c.regBytes + k * b) b =
      (foldSources c b gf k).foldl (fun a j =>
        (foldOp (c.tag n) c.vrm (bitsAt c.vfoldop (2 * n) 2) a (sliceBytes c.slice (n * c.regBytes + j * b) b)).1 % 2 ^ (8 * b))
        (sliceBytes c.slice (n * c.regBytes + k * b) b))

/-! ### Trees of combinations (R307) -/

/-- Two partials combined; `none` is the identity leaf, which nothing combines with (R340). -/
def join (op : Nat → Nat → Nat × Flags) (l r : Option Nat × Flags) : Option Nat × Flags :=
  match l.1, r.1 with
  | some x, some y => let z := op x y; (some z.1, l.2 ||| r.2 ||| z.2)
  | some x, none => (some x, l.2 ||| r.2)
  | none, y => (y, l.2 ||| r.2)

/-- The partial of the aligned block of 2^k leaves with number j: its lower half, then its upper half. A complete block of 2^lb leaves
is multiplied by its scale, `scale j`, where there are scales (R309). -/
def blockOf (op : Nat → Nat → Nat × Flags) (lb : Nat) (scale : Nat → Nat → Nat × Flags) (x : Nat → Option Nat) :
    Nat → Nat → Option Nat × Flags
  | 0, j => mend 0 j (x j, 0)
  | k + 1, j => mend (k + 1) j (join op (blockOf op lb scale x k (2 * j)) (blockOf op lb scale x k (2 * j + 1)))
where
  /-- The scale of a block of 2^lb leaves; an identity partial takes none. -/
  mend (k j : Nat) (p : Option Nat × Flags) : Option Nat × Flags :=
    match p.1 with
    | some v => if k = lb then (some (scale j v).1, p.2 ||| (scale j v).2) else p
    | none => p

/-- The tree of leaves 0 to n - 1: the blocks of the binary digits of n, the ragged right edge combined lowest first; the block that
the edge cuts takes its scale when its partial is complete. -/
def treeOf (op : Nat → Nat → Nat × Flags) (lb : Nat) (scale : Nat → Nat → Nat × Flags) (x : Nat → Option Nat) (n : Nat) :
    Option Nat × Flags :=
  (List.range 32).foldl (fun r k =>
    if n.testBit k then
      let r' := if lb ≤ k ∧ n % 2 ^ lb ≠ 0 ∧ n % 2 ^ k = n % 2 ^ lb then blockOf.mend lb scale lb (n / 2 ^ lb) r else r
      join op (blockOf op lb scale x k (n / 2 ^ k - 1)) r'
    else r) (none, 0)

/-- No scales: no block has 2^33 leaves. -/
def plainTree (op : Nat → Nat → Nat × Flags) (x : Nat → Option Nat) (n : Nat) : Option Nat × Flags :=
  treeOf op 33 (fun _ v => (v, 0)) x n
def plainBlock (op : Nat → Nat → Nat × Flags) (x : Nat → Option Nat) (k j : Nat) : Option Nat × Flags :=
  blockOf op 33 (fun _ v => (v, 0)) x k j

/-- A sum of two element values, rounded once or wrapping (R343). -/
def sumOp (C : Tag) (rm : RM) (l r : Nat) : Nat × Flags :=
  if C.isFloat then
    let v := fAdd rm (C.read l).flt? (C.read r).flt?
    ((C.roundTo rm (.flt v.1)).1, v.2 ||| (C.roundTo rm (.flt v.1)).2)
  else (C.intBits (C.readInt l + C.readInt r), 0)

/-- The greater or the lesser, of floats as `fmax` and `fmin` of R106 give it. -/
def extremeOp (greater : Bool) (C : Tag) (rm : RM) (l r : Nat) : Nat × Flags :=
  if C.isFloat then
    let v := fMinMax greater (C.read l).flt? (C.read r).flt?
    ((C.roundTo rm (.flt v.1)).1, v.2 ||| (C.roundTo rm (.flt v.1)).2)
  else (C.intBits (if greater then max (C.readInt l) (C.readInt r) else min (C.readInt l) (C.readInt r)), 0)

/-- A tree stack that holds leaves 0 to n - 1 of x over f32 addition (R347, R351): a partial for each binary digit of n. -/
def Holds (rm : RM) (y : Tree) (x : Nat → Nat) (n : Nat) : Prop :=
  y.count.toNat = n ∧ y.mask.toNat = n ∧ n < 2 ^ 32 ∧
  ∀ k < 32, n.testBit k = true →
    some (y.levels.toList.getD k 0).toNat = (plainBlock (sumOp .f32 rm) (fun i => some (x i)) k (n / 2 ^ k - 1)).1

/-! ### Commands -/

/-- A command register's value (R423). -/
def creg (q : Queue) (n : BitVec 4) : Dword := if n = 0 then 0 else q.cregs.toList.getD n.toNat 0

/-- The queue after a write of a command register: c0 discards it (R423). -/
def setCreg (q : Queue) (n : BitVec 4) (v : Dword) : Queue :=
  if n = 0 then q else { q with cregs := q.cregs.setIfInBounds n.toNat v }

/-- Address of the command that a queue executes (R426, R435). -/
def commandAddr (q : Queue) : Nat :=
  if q.stack = [] then q.segment.getD 0 + (if q.atLink then 65520 else q.pos % 65520) else q.pc

/-- The queue past a command of `len` bytes: the next address, or the next position, or the segment's link behind its last command
(R426, R435); one more command has been issued. -/
def passed (q : Queue) (len : Nat) : Queue :=
  let e := 65520 * (q.pos / 65520 + 1)
  if q.stack ≠ [] then { q with pc := q.pc + len, issued := q.issued + 1 }
  else if e ≤ q.pos + len then { q with pos := e, atLink := true, issued := q.issued + 1 }
  else { q with pos := q.pos + len, issued := q.issued + 1 }

/-- The state in which a queue's command of `len` bytes has executed and completed, its own effect on the queue being q: DONE has
been brought up to date (R433), and the queue stands at a command boundary, where a hold that came meanwhile takes effect (R428). -/
abbrev commandDone (s : State) (die slot : Nat) (q : Queue) (len : Nat) : State :=
  ((s.setQueue die slot (passed q len)).settleDone die slot).boundary die slot

/-- The state in which it has executed and completes later. -/
abbrev commandRuns (s : State) (die slot : Nat) (q : Queue) (len : Nat) : State :=
  ((s.setQueue die slot { passed q len with openCmds := q.openCmds ++ [q.issued] }).settleDone die slot).boundary die slot

/-- The state in which it has continued elsewhere, as q says. -/
abbrev commandJumps (s : State) (die slot : Nat) (q : Queue) : State :=
  ((s.setQueue die slot { q with issued := q.issued + 1 }).settleDone die slot).boundary die slot

/-- The state in which it waits, and executes again at the queue's next turn: it is in execution, and has had no effect but what q says. -/
abbrev commandWaits (s : State) (die slot : Nat) (q : Queue) : State := s.setQueue die slot { q with busy := true }

/-- A queue at a command boundary at which it does not go on: the fields of a shadow that a rebind has read meanwhile are cached (R418). -/
def atBoundary (q : Queue) : Queue :=
  let z := { q with busy := false, reachedAt := none }
  { (z.toHold.elim z (State.shadowFields z)) with toHold := none, toStop := false }

/-! ### The matrix array -/

/-- The value x of a block sum over pairs (activation, weight) in ascending k (R370), before its rounding: `part` gives what each finite
pair contributes to the exact sum, and `down` says that an exact zero is −0. -/
def BlockSum (ps : List (FVal × FVal)) (part : FVal × FVal → ℚ) (down : Bool) (x : FVal) : Prop :=
  let invalid (p : FVal × FVal) : Prop := (p.1.isInf = true ∧ p.2.isZero = true) ∨ (p.1.isZero = true ∧ p.2.isInf = true)
  let infinite (p : FVal × FVal) (neg : Bool) : Prop :=
    ¬ invalid p ∧ (p.1.isInf = true ∨ p.2.isInf = true) ∧ (p.1.neg? != p.2.neg?) = neg
  match (ps.flatMap fun p => [p.1, p.2]).find? (·.isNan) with
  | some n => x = n.quiet
  | none =>
    ((∃ p ∈ ps, invalid p) ∨ (∃ p ∈ ps, ∃ q ∈ ps, infinite p true ∧ infinite q false) → x = .dnan) ∧
    (¬ (∃ p ∈ ps, invalid p) → ¬ (∃ p ∈ ps, ∃ q ∈ ps, infinite p true ∧ infinite q false) →
      (∀ p ∈ ps, ∀ neg, infinite p neg → x = .inf neg) ∧
      ((∀ p ∈ ps, isFinite p.1 = true ∧ isFinite p.2 = true) →
        isFinite x = true ∧ ratOf x = (ps.map part).sum ∧ (ratOf x = 0 → x.neg? = down)))

/-- Slice i of S of a significand (R371), most significant first. -/
def sliceDigit (S m i : Nat) : Nat :=
  (if 53 ≤ 7 * S then m * 2 ^ (7 * S - 53) else m / 2 ^ (53 - 7 * S)) / 2 ^ (7 * (S - 1 - i)) % 128

/-- The magnitude that the slice products of m × 2^q and m' × 2^q' add up to (R371). -/
def sliceEstimate (S m : Nat) (q : Int) (m' : Nat) (q' : Int) : ℚ :=
  (((List.range S).map fun i => ((List.range (S - i)).map fun j =>
    sliceDigit S m i * sliceDigit S m' j * 2 ^ (7 * (2 * S - 2 - i - j))).sum).sum : Nat) *
    (2 : ℚ) ^ (q + q' - 2 * (7 * (S : Int) - 53))

/-- m and q are the significand and the exponent of x that R371 slices. -/
def Significand (x : FVal) (m : Nat) (q : Int) : Prop :=
  |ratOf x| = m * (2 : ℚ) ^ q ∧ m < 2 ^ 53 ∧ -1074 ≤ q ∧ (2 ^ 52 ≤ m ∨ q = -1074)

/-- `e` is the estimate of a product (R371): 0 when an operand is zero. -/
def EstimateOf (S : Nat) (p : FVal × FVal) (e : ℚ) : Prop :=
  ((p.1.isZero = true ∨ p.2.isZero = true) → e = 0) ∧
  ∀ m q m' q', p.1.isZero = false → p.2.isZero = false → Significand p.1 m q → Significand p.2 m' q' →
    e = (if p.1.neg? != p.2.neg? then -1 else 1) * sliceEstimate S m q m' q'

/-- A tile element after the block results b of `n` blocks, in ascending order, each added to it with one rounding; with no element
to begin from, the first is written (R369). -/
def accumulate (F : Fmt) (rm : RM) (b : Nat → Nat) (start : Option Nat) (n : Nat) : Option Nat :=
  (List.range n).foldl (fun acc k =>
    match acc with
    | none => some (b k)
    | some x => some (F.roundTo rm (fAdd rm (F.decode x) (F.decode (b k))).1).1) start

/-- The operands of a vector instruction, by group number: each a group of the context with a tag, and VL elements fit in it (R29, R35,
R313). -/
def GroupsOk (c : Ctx) (ns : List Nat) : Prop := ∀ n ∈ ns, c.groupOk n = true ∧ c.tag n ≠ .none ∧ c.fits (c.tag n).bytes = true

end Sys2Proof.Safety
end

