-- ==== Sys2Proof/Certificates/Slice0/Obligations.lean ====
section
/-! DEFINITION. The statements for the provers, family by family of the opcode table. -/

open Sys2Proof Sys2Proof.Machine Sys2Proof.Safety

/-! ### Scalar integer instructions -/

/-- R100 and R101, with every operand value; `wrote` says that the rest of the machine is as before. The unary members are said by what
their count means. -/
def Obligations.RegisterArithmeticWritesTheTableValue : Prop :=
  (∀ (s : State) (f : Nat) (d a b : BitVec 5), Ready s f [d.toNat, a.toNat, b.toNat] →
    let x := (s.ctx f).s a.toNat
    let y := (s.ctx f).s b.toNat
    let n := (y.extractLsb' 0 6).toNat
    exec (.add d a b) s = .next (wrote s f d (x + y)) ∧
    exec (.sub d a b) s = .next (wrote s f d (x - y)) ∧
    exec (.and d a b) s = .next (wrote s f d (x &&& y)) ∧
    exec (.or d a b) s = .next (wrote s f d (x ||| y)) ∧
    exec (.xor d a b) s = .next (wrote s f d (x ^^^ y)) ∧
    exec (.shl d a b) s = .next (wrote s f d (x <<< n)) ∧
    exec (.shr d a b) s = .next (wrote s f d (x >>> n)) ∧
    exec (.sha d a b) s = .next (wrote s f d (x.sshiftRight n)) ∧
    exec (.mul d a b) s = .next (wrote s f d ((x.signExtend 128 * y.signExtend 128).extractLsb' 0 64)) ∧
    exec (.mulh d a b) s = .next (wrote s f d ((x.signExtend 128 * y.signExtend 128).extractLsb' 64 64)) ∧
    exec (.mulhn d a b) s = .next (wrote s f d ((x.setWidth 128 * y.setWidth 128).extractLsb' 64 64)) ∧
    exec (.div d a b) s = .next (wrote s f d (if y = 0 then BitVec.allOnes 64 else x.sdiv y)) ∧
    exec (.divn d a b) s = .next (wrote s f d (if y = 0 then BitVec.allOnes 64 else x.udiv y)) ∧
    exec (.rem d a b) s = .next (wrote s f d (if y = 0 then x else x.srem y)) ∧
    exec (.remn d a b) s = .next (wrote s f d (if y = 0 then x else x.umod y)) ∧
    exec (.min d a b) s = .next (wrote s f d (if x.slt y then x else y)) ∧
    exec (.max d a b) s = .next (wrote s f d (if x.slt y then y else x)) ∧
    exec (.minn d a b) s = .next (wrote s f d (if x.ult y then x else y)) ∧
    exec (.maxn d a b) s = .next (wrote s f d (if x.ult y then y else x)) ∧
    exec (.slt d a b) s = .next (wrote s f d (if x.slt y then 1 else 0)) ∧
    exec (.sltn d a b) s = .next (wrote s f d (if x.ult y then 1 else 0)) ∧
    exec (.seq d a b) s = .next (wrote s f d (if x = y then 1 else 0))) ∧
  (∀ (s : State) (f : Nat) (d a : BitVec 5), Ready s f [d.toNat, a.toNat] →
    let x := (s.ctx f).s a.toNat
    (∃ n, exec (.clz d a) s = .next (wrote s f d (BitVec.ofNat 64 n)) ∧ n ≤ 64 ∧
      (∀ i, 64 - n ≤ i → i < 64 → x.getLsbD i = false) ∧ (n < 64 → x.getLsbD (63 - n) = true)) ∧
    (∃ n, exec (.ctz d a) s = .next (wrote s f d (BitVec.ofNat 64 n)) ∧ n ≤ 64 ∧
      (∀ i, i < n → x.getLsbD i = false) ∧ (n < 64 → x.getLsbD n = true)) ∧
    exec (.popc d a) s =
      .next (wrote s f d (BitVec.ofNat 64 ((List.range 64).filter fun i => x.getLsbD i).length))) ∧
  (∀ (s : State) (f : Nat) (d a b : BitVec 5),
    d.toNat % 2 = 0 → a.toNat % 2 = 0 → b.toNat % 2 = 0 →
    Ready s f [d.toNat, d.toNat + 1, a.toNat, a.toNat + 1, b.toNat, b.toNat + 1] →
    let c := s.ctx f
    let x : BitVec 128 := (c.s (a.toNat + 1) ++ c.s a.toNat) + (c.s (b.toNat + 1) ++ c.s b.toNat)
    exec (.qadd d a b) s =
      .next (next s f ((c.setS d.toNat (x.extractLsb' 0 64)).setS (d.toNat + 1) (x.extractLsb' 64 64)))) ∧
  (∀ (s : State) (f : Nat) (d a b : BitVec 5), s.cur = .agent f → d.toNat % 2 = 1 ∨ a.toNat % 2 = 1 ∨ b.toNat % 2 = 1 →
    (s.ctx f).late = none → Settled s f → exec (.qadd d a b) s = .next (stopped s f .operand)) ∧
  ∀ (c : Ctx) (d : Nat) (v : Dword), c.s 0 = 0 ∧ c.setS 0 v = c ∧
    (0 < d → d < 32 → (c.setS d v).s d = v ∧ (∀ e, e ≠ d → (c.setS d v).s e = c.s e) ∧ c.setS d v = { c with sregs := (c.setS d v).sregs })

/-- R102 to R104: every immediate and shift amount. -/
def Obligations.ImmediateFormsComputeTheirCounterparts : Prop :=
  ∀ (s : State) (f : Nat) (d a : BitVec 5) (i : BitVec 16) (n : BitVec 6) (u : BitVec 21), Ready s f [d.toNat, a.toNat] →
    let x := (s.ctx f).s a.toNat
    let y := i.signExtend 64
    exec (.addi d a i) s = .next (wrote s f d (x + y)) ∧
    exec (.andi d a i) s = .next (wrote s f d (x &&& y)) ∧
    exec (.ori d a i) s = .next (wrote s f d (x ||| y)) ∧
    exec (.xori d a i) s = .next (wrote s f d (x ^^^ y)) ∧
    exec (.slti d a i) s = .next (wrote s f d (if x.slt y then 1 else 0)) ∧
    exec (.shli d a n) s = .next (wrote s f d (x <<< n.toNat)) ∧
    exec (.shri d a n) s = .next (wrote s f d (x >>> n.toNat)) ∧
    exec (.shai d a n) s = .next (wrote s f d (x.sshiftRight n.toNat)) ∧
    exec (.lui d u) s = .next (wrote s f d (u.signExtend 64 <<< 16)) ∧
    exec (.addpc d u) s = .next (wrote s f d (BitVec.ofNat 64 (s.ctx f).pc + u.signExtend 64 * 4))

/-! ### Branches and jumps -/

/-- R108 and R109, with R58 for a misaligned `jalr`. `goTo` moves the program counter and retires the instruction. -/
def Obligations.BranchesAndJumpsContinueAtTheirTargets : Prop :=
  ∀ (s : State) (f : Nat) (d a b : BitVec 5) (o : BitVec 16) (j : BitVec 21) (i : BitVec 16),
    let c := s.ctx f
    let x := c.s a.toNat
    let y := c.s b.toNat
    let goTo (c' : Ctx) (p : Nat) : State := s.setCtx f (c'.retire p)
    let pick (taken : Bool) : Host.Outcome State Fault Refusal :=
      .next (goTo c (if taken then (BitVec.ofNat 64 c.pc + o.signExtend 64 * 4).toNat else c.pc + 4))
    let linked := c.setS d.toNat (BitVec.ofNat 64 (c.pc + 4))
    let t := x + i.signExtend 64
    (Ready s f [a.toNat, b.toNat] →
      exec (.beq a b o) s = pick (x = y) ∧ exec (.bne a b o) s = pick (x ≠ y) ∧
      exec (.blt a b o) s = pick (x.slt y) ∧ exec (.bge a b o) s = pick (!x.slt y) ∧
      exec (.bltn a b o) s = pick (x.ult y) ∧ exec (.bgen a b o) s = pick (!x.ult y)) ∧
    (Ready s f [d.toNat] →
      exec (.jal d j) s = .next (goTo linked (BitVec.ofNat 64 c.pc + j.signExtend 64 * 4).toNat)) ∧
    (Ready s f [d.toNat, a.toNat] →
      (t.toNat % 4 = 0 → exec (.jalr d a i) s = .next (goTo linked t.toNat)) ∧
      (t.toNat % 4 ≠ 0 → c.quiet = true → s.matIdle f = true →
        exec (.jalr d a i) s = .next (s.stopContext f (.align t.toNat) c.pc c.vstart 0 false) ∧
        ((s.stopContext f (.align t.toNat) c.pc c.vstart 0 false).ctx f).s d.toNat = c.s d.toNat))

/-! ### Scalar floating point -/

/-- R106: each of the instructions completes, whatever its operands. The results here are those of the instructions that write a float, of finite operands, in every
format and rounding mode (`FloatSpecialsFollowTheTable` has the two that write an integer). `roundScalar` is RoundTo of R300 with its flags, which
`RoundingIsCorrect` states; `StandsFor` says that a value rounds as an exact number does. -/
def Obligations.FloatResultsRoundTheExactResult : Prop :=
  ∀ (s : State) (f : Nat) (d a b : BitVec 5) (k : BitVec 3) (src : BitVec 2), Ready s f [d.toNat, a.toNat, b.toNat] →
    let c := s.ctx f
    let F := fmtOf k
    let x := F.ofReg (c.s a.toNat)
    let y := F.ofReg (c.s b.toNat)
    let z := F.ofReg (c.s d.toNat)
    let rounds (i : Instr) (q : ℚ) : Prop :=
      ∃ r, StandsFor F r q ∧ exec i s = .next (wroteFlags s f d (roundScalar F c.srm (r, 0)))
    (∀ i ∈ ([.fadd d a b k, .fsub d a b k, .fmul d a b k, .fdiv d a b k, .ffma d a b k, .fsqrt d a k, .fcvtI d a k, .fcvtN d a k, .fcvtFi d a k,
        .fcvtFn d a k, .fcvtFf d a src k] : List Instr), ∃ v fl, exec i s = .next (wroteFlags s f d (v, fl))) ∧
    (isFinite x = true → isFinite y = true →
      rounds (.fadd d a b k) (ratOf x + ratOf y) ∧ rounds (.fsub d a b k) (ratOf x - ratOf y) ∧
      rounds (.fmul d a b k) (ratOf x * ratOf y) ∧
      (isFinite z = true → rounds (.ffma d a b k) (ratOf x * ratOf y + ratOf z)) ∧
      (ratOf y ≠ 0 → rounds (.fdiv d a b k) (ratOf x / ratOf y))) ∧
    (isFinite x = true → 0 < ratOf x →
      ∃ r q, exec (.fsqrt d a k) s = .next (wroteFlags s f d (roundScalar F c.srm (r, 0))) ∧ isFinite r = true ∧
        (ratOf r ^ 2 = ratOf x ∨ ∃ n j : ℤ, 0 ≤ n ∧ q = n * (2 : ℚ) ^ j ∧ q < ratOf r ∧ ratOf r < q + 2 ^ j ∧
          q ^ 2 < ratOf x ∧ ratOf x < (q + 2 ^ j) ^ 2 ∧ (2 : ℚ) ^ j * 2 ^ (F.fbits + 2) ≤ q)) ∧
    (isFinite ((Fmt.ofCode src.toNat).ofReg (c.s a.toNat)) = true →
      rounds (.fcvtFf d a src k) (ratOf ((Fmt.ofCode src.toNat).ofReg (c.s a.toNat)))) ∧
    rounds (.fcvtFi d a k) ((c.s a.toNat).toInt : ℚ) ∧ rounds (.fcvtFn d a k) ((c.s a.toNat).toNat : ℚ)

/-- R300, with the inexact flag of R301: the arithmetic promise for one rounding. -/
def Obligations.RoundingIsCorrect : Prop :=
  ∀ (F : Fmt), F ∈ [Fmt.f32, Fmt.f64, Fmt.bf16, Fmt.f16] → ∀ (rm : RM) (neg : Bool) (m : Nat) (e : Int), m ≠ 0 →
    let x := ratOf (.fin neg m e)
    let b := (F.roundTo rm (.fin neg m e)).1
    let fl := (F.roundTo rm (.fin neg m e)).2
    let y := ratOf (F.decode b)
    let Rep (v : ℚ) : Prop := ∃ b' < 2 ^ F.bits, isFinite (F.decode b') = true ∧ v = ratOf (F.decode b')
    fl &&& Flags.of = 0 →
      b < 2 ^ F.bits ∧ isFinite (F.decode b) = true ∧ (F.decode b).neg? = neg ∧ (fl &&& Flags.nx ≠ 0 ↔ y ≠ x) ∧
      match rm with
      | .towardZero => |y| ≤ |x| ∧ ∀ v, Rep v → |v| ≤ |x| → |v| ≤ |y|
      | .up => x ≤ y ∧ ∀ v, Rep v → x ≤ v → y ≤ v
      | .down => y ≤ x ∧ ∀ v, Rep v → v ≤ x → v ≤ y
      | .nearestEven => ∀ v, Rep v → |x - y| ≤ |x - v| ∧ (|x - y| = |x - v| → v = y ∨ b % 2 = 0)
      | .nearestAway => ∀ v, Rep v → |x - y| ≤ |x - v| ∧ (|x - y| = |x - v| → v = y ∨ |v| < |y|)

/-- R107, with R304 for a NaN converted to another format and R302 for the integer that FRM.RM names. `wr` writes bits of format F and raises flags; `nv` is
NV when some operand is a signalling NaN. -/
def Obligations.FloatSpecialsFollowTheTable : Prop :=
  ∀ (s : State) (f : Nat) (d a b : BitVec 5) (k : BitVec 3), k.toNat < 4 → Ready s f [d.toNat, a.toNat, b.toNat] →
    let c := s.ctx f
    let F := fmtOf k
    let x := (c.s a.toNat).toNat % 2 ^ F.bits
    let y := (c.s b.toNat).toNat % 2 ^ F.bits
    let z := (c.s d.toNat).toNat % 2 ^ F.bits
    let X := F.decode x
    let Y := F.decode y
    let wr (v : Nat) (fl : Flags) : Host.Outcome State Fault Refusal := .next (wroteFlags s f d (BitVec.ofNat 64 v, fl))
    let nv (bs : List Nat) : Flags := if bs.any (snanBits F) then Flags.nv else 0
    let binary : List Instr :=
      [.fadd d a b k, .fsub d a b k, .fmul d a b k, .fdiv d a b k, .fmin d a b k, .fmax d a b k]
    let product0inf := (X.isZero && Y.isInf) || (X.isInf && Y.isZero)
    (nanBits F x = true →
      (∀ i ∈ binary, exec i s = wr (quietBits F x) (nv [x, y])) ∧ exec (.fsqrt d a k) s = wr (quietBits F x) (nv [x]) ∧
      exec (.fcvtFf d a (k.setWidth 2) k) s = wr (quietBits F x) (nv [x]) ∧
      exec (.ffma d a b k) s = wr (quietBits F x) (nv [x, y, z])) ∧
    (∀ g : BitVec 2,
      let G := Fmt.ofCode g.toNat
      let u := (c.s a.toNat).toNat % 2 ^ G.bits
      nanBits G u = true → exec (.fcvtFf d a g k) s = wr (convertedNan G F u) (if snanBits G u then Flags.nv else 0)) ∧
    (nanBits F x = false → nanBits F y = true →
      (∀ i ∈ binary, exec i s = wr (quietBits F y) (nv [x, y])) ∧ exec (.ffma d a b k) s = wr (quietBits F y) (nv [x, y, z])) ∧
    (nanBits F x = false → nanBits F y = false → nanBits F z = true →
      exec (.ffma d a b k) s = wr (quietBits F z) (if product0inf then Flags.nv else nv [z])) ∧
    (nanBits F x = false → nanBits F y = false →
      (X.isInf = true → Y.isInf = true →
        exec (if X.neg? = Y.neg? then .fsub d a b k else .fadd d a b k) s = wr (defaultNan F) Flags.nv ∧
        exec (.fdiv d a b k) s = wr (defaultNan F) Flags.nv) ∧
      (product0inf = true → exec (.fmul d a b k) s = wr (defaultNan F) Flags.nv) ∧
      (product0inf = true → nanBits F z = false → exec (.ffma d a b k) s = wr (defaultNan F) Flags.nv) ∧
      (X.isZero = true → Y.isZero = true → exec (.fdiv d a b k) s = wr (defaultNan F) Flags.nv) ∧
      (X.neg? = true → X.isZero = false → exec (.fsqrt d a k) s = wr (defaultNan F) Flags.nv) ∧
      (isFinite X = true → X.isZero = false → Y.isZero = true →
        exec (.fdiv d a b k) s = wr (infBits F (X.neg? != Y.neg?)) Flags.dz)) ∧
    (nanBits F x = true ∨ nanBits F y = true →
      exec (.feq d a b k) s = wr 0 (nv [x, y]) ∧ exec (.flt d a b k) s = wr 0 Flags.nv ∧
      exec (.fle d a b k) s = wr 0 Flags.nv) ∧
    ∀ (lo hi : Int) (i : Instr),
      (i = .fcvtI d a k ∧ lo = -2 ^ 63 ∧ hi = 2 ^ 63 - 1) ∨ (i = .fcvtN d a k ∧ lo = 0 ∧ hi = 2 ^ 64 - 1) →
      let wi (v : Int) (fl : Flags) : Host.Outcome State Fault Refusal := .next (wroteFlags s f d (BitVec.ofInt 64 v, fl))
      (nanBits F x = true → exec i s = wi hi Flags.nv) ∧
      (X.isInf = true → exec i s = wi (if X.neg? then lo else hi) Flags.nv) ∧
      (isFinite X = true → ∃ v : Int, RoundsTo c.srm (ratOf X) v ∧
        ((v < lo ∧ exec i s = wi lo Flags.nv) ∨ (hi < v ∧ exec i s = wi hi Flags.nv) ∨
          (lo ≤ v ∧ v ≤ hi ∧ exec i s = wi v (if (v : ℚ) = ratOf X then 0 else Flags.nx))))

/-- R106: comparisons by the numbers compared, an infinity standing above or below every finite value. `rank` orders two
operands; a tie of two zeros is broken by the sign for `fmin` and `fmax`. -/
def Obligations.FloatComparisonsAndClasses : Prop :=
  ∀ (s : State) (f : Nat) (d a b : BitVec 5) (k : BitVec 3), k.toNat < 4 → Ready s f [d.toNat, a.toNat, b.toNat] →
    let c := s.ctx f
    let F := fmtOf k
    let x := (c.s a.toNat).toNat % 2 ^ F.bits
    let y := (c.s b.toNat).toNat % 2 ^ F.bits
    let X := F.decode x
    let Y := F.decode y
    let key (v : FVal) : ℚ := if v.isInf then (if v.neg? then -(2 ^ 1100) else 2 ^ 1100) else ratOf v
    let lt := key X < key Y
    let eq := key X = key Y
    let put (v : Nat) : Host.Outcome State Fault Refusal := .next (wrote s f d (BitVec.ofNat 64 v))
    let ex := x / 2 ^ F.fbits % 2 ^ F.ebits
    let fr := x % 2 ^ F.fbits
    let neg := x / F.mag % 2 = 1
    (nanBits F x = false → nanBits F y = false →
      (exec (.feq d a b k) s = put 1 ∧ eq ∨ exec (.feq d a b k) s = put 0 ∧ ¬ eq) ∧
      (exec (.flt d a b k) s = put 1 ∧ lt ∨ exec (.flt d a b k) s = put 0 ∧ ¬ lt) ∧
      (exec (.fle d a b k) s = put 1 ∧ (lt ∨ eq) ∨ exec (.fle d a b k) s = put 0 ∧ ¬ (lt ∨ eq)) ∧
      (lt ∨ (eq ∧ X.neg? = true ∧ Y.neg? = false) → exec (.fmin d a b k) s = put x ∧ exec (.fmax d a b k) s = put y) ∧
      (¬ lt ∧ ¬ (eq ∧ X.neg? = true ∧ Y.neg? = false) →
        exec (.fmin d a b k) s = put y ∧ exec (.fmax d a b k) s = put x)) ∧
    ∃ n, exec (.fclass d a k) s = put (2 ^ n) ∧
      n = if ex = 2 ^ F.ebits - 1 then
            (if fr = 0 then (if neg then 0 else 7) else if fr / 2 ^ (F.fbits - 1) = 0 then 8 else 9)
          else if ex = 0 then (if fr = 0 then (if neg then 3 else 4) else (if neg then 2 else 5))
          else (if neg then 1 else 6)

/-! ### Scalar memory -/

/-- R111 and R112. `scrByte` is where the byte of the view stands among the device's scratchpads. -/
def Obligations.ScratchAccessesMoveTheirBytes : Prop :=
  ∀ (s : State) (f : Nat) (d a : BitVec 5) (w : BitVec 4) (z : BitVec 2) (i : BitVec 10) (v : Line),
    let c := s.ctx f
    let n := 2 ^ z.toNat
    let B := c.s a.toNat + (i.signExtend 64 <<< z.toNat)
    let A := View.base v + B.toNat
    let P := scrByte f v A
    (ScratchOk s f [d.toNat, a.toNat] w v B n false → s.watched f v A n true false = false →
      exec (.ld d a w z i) s = .next (wrote s f d ((BitVec.ofNat (8 * n) (s.scr.read P n)).signExtend 64)) ∧
      exec (.ldn d a w z i) s = .next (wrote s f d ((BitVec.ofNat (8 * n) (s.scr.read P n)).setWidth 64))) ∧
    (ScratchOk s f [d.toNat, a.toNat] w v B n true → s.watched f v A n false true = false →
      ∃ m, exec (.st d a w z i) s = .next (next { s with scr := m } f c) ∧
        (∀ k, k < n → Mem.get m (P + k) = (c.s d.toNat).extractLsb' (8 * k) 8) ∧
        ∀ x, x < P ∨ P + n ≤ x → Mem.get m x = Mem.get s.scr x)

/-- R112, steps 1 to 4, with R445 for a byte that an uncorrectable error has struck. `traps` says which exception the three instructions take, with no
access of its own: an access that was queued before performs at the stop (R453). That FADDR is 0 for a view of another space, rank or stride is the model's
choice (log entry 90). -/
def Obligations.ScratchChecksTrapInOrder : Prop :=
  ∀ (s : State) (f : Nat) (d a : BitVec 5) (w : BitVec 4) (z : BitVec 2) (i : BitVec 10),
    let c := s.ctx f
    let n : Nat := 2 ^ z.toNat
    let B := (c.s a.toNat + (i.signExtend 64 <<< z.toNat)).toInt
    let traps (t : Trap) : Prop :=
      (∀ j ∈ ([.ld d a w z i, .ldn d a w z i, .st d a w z i] : List Instr), exec j s = .next (stopped s f t)) ∧
      (c.vq = [] → c.xq = [] → s.streamWritesPending f = false →
        ((stopped s f t).ctx f).sregs = c.sregs ∧ (stopped s f t).scr = s.scr)
    Ready s f [d.toNat, a.toNat] → Settled s f → InOrder s f w true → coreViewBad f w.toNat = false →
    (c.view (isCore f) w.toNat = none → traps (.access 0)) ∧
    ∀ v, c.view (isCore f) w.toNat = some v →
      let plain := View.space v ≤ 1 ∧ View.rank v = 1 ∧ View.stride v 0 = 1 ∧ View.whole v = false
      let inside := 0 ≤ B ∧ B + n ≤ View.ext v 0 * View.size v
      let a := View.base v + B.toNat
      let struck := s.struck (.scr (scrByte f v a)) n = true
      (¬ plain → traps (.access 0)) ∧
      (plain → ¬ inside → traps (.access ((View.base v + B) % 2 ^ 64).toNat)) ∧
      (plain → inside → struck → traps (.access a)) ∧ (plain → inside → ¬ struck → a % n ≠ 0 → traps (.align a))

/-- R114, R115, R210 and R211. `enters` says what an instruction with an access of `n` bytes at offset B does; `entryMemory` and `entryValue` are the
access performed, which `entryHeld` holds back where a raise queued before it must come first or its stack is not ready (R161, R481). -/
def Obligations.ExternalAccessesEnterTheQueue : Prop :=
  ∀ (s : State) (f : Nat) (d a b : BitVec 5) (w : BitVec 4) (z : BitVec 2) (i : BitVec 10) (y : BitVec 1) (v : Line)
    (A : Nat) (l : Loc),
    let c := s.ctx f
    let B := c.s a.toNat + (i.signExtend 64 <<< z.toNat)
    let m : Nat := 4 * 2 ^ y.toNat
    let arg (x : BitVec 5) : Nat := (c.s x.toNat).toNat % 2 ^ (8 * m)
    let enters (j : Instr) (rs : List Nat) (B : Dword) (n : Nat) (u : Use) (kind : XKind) (dest : Nat) (isRead : Bool) : Prop :=
      let pin := accessPin s f A u l
      let e : XqEntry := ⟨kind, ⟨w.toNat, v, none⟩, A, l, pin, n, dest, []⟩
      let s0 := accessWalk s f A pin
      Ready s f rs → InOrder s f w true → coreViewBad f w.toNat = false → c.view (isCore f) w.toNat = some v →
      ExternalBounds v B n A → s.locate f v A n u = .ok l → A % n = 0 → c.xq.length < 16 → reachable s l n →
      s.pinRoom (s.partOf f) (dieOf f) (pin.toList.map fun p => (p.page, p.size)) = true →
      s.watched f v A n isRead (u = .write) = false →
      if s.defer = true ∨ c.xq ≠ [] ∨ s.entryHeld f 0 e = true then exec j s = .next (s0.setCtx f ({ c.retire (c.pc + 4) with xq := c.xq ++ [e] }))
      else ∃ q : List VqEntry, SameQueue q c.vq ∧
        exec j s = .next ((entryMemory s0 e).setCtx f
          { (c.setS dest (entryValue s e)).retire (c.pc + 4) with vq := q, raises := raisesPast c })
    let atomics : List (Instr × Nat) :=
      [(.aadd a b w y, 0), (.aand a b w y, 1), (.aor a b w y, 2), (.axor a b w y, 3), (.amin a b w y, 4),
       (.amax a b w y, 5), (.aminn a b w y, 6), (.amaxn a b w y, 7)]
    let returning : List (Instr × Nat) :=
      [(.aaddRet d a b w y, 0), (.aandRet d a b w y, 1), (.aorRet d a b w y, 2), (.axorRet d a b w y, 3),
       (.aminRet d a b w y, 4), (.amaxRet d a b w y, 5), (.aminnRet d a b w y, 6), (.amaxnRet d a b w y, 7),
       (.aswap d a b w y, 8), (.acas d a b w y, 9)]
    enters (.ldx d a w z i) [d.toNat, a.toNat] B (2 ^ z.toNat) .read .load d.toNat true ∧
    enters (.stx d a w z i) [d.toNat, a.toNat] B (2 ^ z.toNat) .write (.store (c.s d.toNat).toNat) 0 false ∧
    (∀ p ∈ atomics, (View.space v = 3 → p.2 = 0) →
      enters p.1 [0, a.toNat, b.toNat] (c.s a.toNat) m .write (.atomic p.2 (arg b) 0) 0 true) ∧
    (∀ p ∈ returning, (View.space v = 3 → p.2 ∈ [0, 8, 9]) → bitAt c.detm 0 = false →
      enters p.1 [d.toNat, a.toNat, b.toNat] (c.s a.toNat) m .write (.atomic p.2 (arg b) (arg d)) d.toNat true)

/-- R115 and R118, with R77 for a write to a page that has come to hold a running launch's code. The vector queue keeps its entries but for what a discard would
restore; a raise that a core queued behind the entry waits for one access less (R374). An entry that a raise or a stack that is not ready holds
back (R161, R481) stays as it is. -/
def Obligations.QueueEntriesCompleteOldestFirst : Prop :=
  ∀ (s : State) (f : Nat) (e : XqEntry) (rest : List XqEntry),
    let c := s.ctx f
    c.xq = e :: rest → s.accessing f = true →
    (s.entryHeld f 0 e = true → ∀ failed, exec (.xqEntryComplete f failed) s = .next s) ∧
    (s.entryHeld f 0 e = false → Succeeds s f e →
      ∃ q : List VqEntry, SameQueue q c.vq ∧
        exec (.xqEntryComplete f false) s =
          .next ((entryMemory s e).setCtx f { c.setS e.dest (entryValue s e) with xq := rest, vq := q, raises := raisesPast c })) ∧
    (s.entryHeld f 0 e = false → ∀ failed : Bool, failed = true ∨ ¬ Succeeds s f e →
      exec (.xqEntryComplete f failed) s =
        .next (s.setCtx f { c with xq := rest, raises := raisesPast c, xfail := c.xfail ++ [⟨e.dest, e.addr⟩] }))

/-! ### Fences, counters and waits -/

/-- R117, R164, R213, for every scope (one order of all accesses holds in the model, so a scope changes nothing); R215 and R216, with
R49's limit on counter numbers. `viewOpen` is an earlier access through a view of the mask that has not performed; a `vfetch` (OP 0x1F) may access
through any view (log entry 96). -/
def Obligations.FencesAndCountersOrderTheirAgent : Prop :=
  (∀ (s : State) (f : Nat) (k : BitVec 3) (m : BitVec 16) (a : BitVec 5),
    let c := s.ctx f
    let named (x : Via) : Prop := m.getLsbD x.reg = true
    let viewOpen := (∃ e ∈ c.vq, e.done = false ∧ ∃ x, e.via = some x ∧ named x) ∨ (∃ e ∈ c.xq, named e.via) ∨
      (m.getLsbD 0 = true ∧ s.matIdle f = false)
    let holds (ops : List Nat) := ∃ e ∈ c.vq, e.done = false ∧ opOf e.word ∈ ops
    let restOpen := holds [0x1F, 0x2C] ∨ c.xq ≠ [] ∨ s.streamWritesPending f = true
    let n := (c.s a.toNat).toNat
    (Ready s f [] → coreMaskBad f m = false →
      (¬ (viewOpen ∨ (m ≠ 0 ∧ holds [0x1F])) → exec (.fenceV k m) s = .next (next s f c)) ∧
      (viewOpen ∨ (m ≠ 0 ∧ holds [0x1F]) → exec (.fenceV k m) s = .next (waiting s f (.fence false m))) ∧
      (¬ (viewOpen ∨ restOpen) → exec (.fenceS k m) s = .next (next s f c)) ∧
      (viewOpen ∨ restOpen → exec (.fenceS k m) s = .next (waiting s f (.fence true m)))) ∧
    (Ready s f [a.toNat] →
      (c.xq.length ≤ n → c.xfail = [] → exec (.waitx a) s = .next (next s f c)) ∧
      (n < c.xq.length → exec (.waitx a) s = .next (waiting s f (.waitx n))))) ∧
  (∀ (s : State) (f : Nat) (d a b : BitVec 5),
    let c := s.ctx f
    let n := (c.s a.toNat).toNat
    let x := c.s b.toNat
    let value (t : State) (k : Nat) : Dword := t.counter (bayOf f) (s.partOf f) k
    (Ready s f [a.toNat, b.toNat] →
      (n < 320 →
        (x ≤ value s n → exec (.waitseq a b) s = .next (next s f c)) ∧
        (value s n < x → exec (.waitseq a b) s = .next (waiting s f (.counter n x))) ∧
        (s.released f = true → c.matErr = none →
          ∃ k, exec (.signal a b) s = .next (next { s with counters := k } f c) ∧
            value { s with counters := k } n = BitVec.ofNat 64 (min (2 ^ 64 - 1) ((value s n).toNat + x.toNat)) ∧
            ∀ y p j, State.counterKey y p j ≠ State.counterKey (bayOf f) (s.partOf f) n →
              State.counter { s with counters := k } y p j = s.counter y p j) ∧
        (s.released f = false → exec (.signal a b) s = .next (waiting s f .release))) ∧
      (320 ≤ n → Settled s f →
        exec (.waitseq a b) s = .next (stopped s f .operand) ∧ exec (.signal a b) s = .next (stopped s f .operand))) ∧
    (Ready s f [d.toNat, a.toNat] → f < 2304 →
      (n < 320 → exec (.tseq d a) s = .next (wrote s f d (value s n))) ∧
      (320 ≤ n → Settled s f → exec (.tseq d a) s = .next (stopped s f .operand))))

/-! ### Vector arithmetic, logic and comparisons -/

/-- R314, R315: all thirty members at every operand. `Arith.element` is the value of one element, which
`ArithmeticElementsOfIntegers` and `ArithmeticElementsOfFloats` state by R316's table. -/
def Obligations.VectorArithmeticWritesActiveElements : Prop :=
  ∀ (s : State) (f : Nat) (d a b : BitVec 6) (x : BitVec 5) (p : BitVec 4),
    let c := s.ctx f
    let e (op : Arith) (v w : Nat) (i : Nat) : Nat × Flags :=
      op.element (c.tagOf a) (c.tagOf b) (c.tagOf d) c.vrm v w (c.bits d.toNat i)
    let es (op : Arith) (i : Nat) : Nat × Flags :=
      op.element (c.tagOf a) (c.tagOf a) (c.tagOf d) c.vrm (c.bits a.toNat i) ((c.s x.toNat).toNat % 2 ^ (c.tagOf a).width)
        (c.bits d.toNat i)
    HasStrip c →
    (∀ m ∈ [(Arith.vadd, Instr.vaddVv d a b p, Instr.vaddVs d a x p), (.vsub, .vsubVv d a b p, .vsubVs d a x p),
        (.vmul, .vmulVv d a b p, .vmulVs d a x p), (.vfma, .vfmaVv d a b p, .vfmaVs d a x p),
        (.vfms, .vfmsVv d a b p, .vfmsVs d a x p), (.vfnma, .vfnmaVv d a b p, .vfnmaVs d a x p),
        (.vdiv, .vdivVv d a b p, .vdivVs d a x p), (.vmin, .vminVv d a b p, .vminVs d a x p),
        (.vmax, .vmaxVv d a b p, .vmaxVs d a x p), (.vsadd, .vsaddVv d a b p, .vsaddVs d a x p),
        (.vssub, .vssubVv d a b p, .vssubVs d a x p), (.vmulh, .vmulhVv d a b p, .vmulhVs d a x p),
        (.vavg, .vavgVv d a b p, .vavgVs d a x p)],
      (VectorReady s f [0, 0, 0] → GroupsOk c [d.toNat, a.toNat, b.toNat] →
        m.1.tagsBad (c.tagOf a) (c.tagOf b) (c.tagOf d) = false →
        WritesGroup s f m.2.1 d p fun i => e m.1 (c.bits a.toNat i) (c.bits b.toNat i) i) ∧
      (VectorReady s f [x.toNat, 0, 0] → GroupsOk c [d.toNat, a.toNat] →
        m.1.tagsBad (c.tagOf a) (c.tagOf a) (c.tagOf d) = false → WritesGroup s f m.2.2 d p (es m.1))) ∧
    ∀ m ∈ [(Arith.vabs, Instr.vabsVv d a p, Instr.vabsVs d x p), (.vneg, .vnegVv d a p, .vnegVs d x p)],
      (VectorReady s f [0, 0, 0] → GroupsOk c [d.toNat, a.toNat] →
        m.1.tagsBad (c.tagOf a) (c.tagOf a) (c.tagOf d) = false →
        WritesGroup s f m.2.1 d p fun i =>
          m.1.element (c.tagOf a) (c.tagOf a) (c.tagOf d) c.vrm (c.bits a.toNat i) 0 0) ∧
      (VectorReady s f [x.toNat, 0, 0] → GroupsOk c [d.toNat] →
        m.1.tagsBad (c.tagOf d) (c.tagOf d) (c.tagOf d) = false →
        WritesGroup s f m.2.2 d p fun _ =>
          m.1.element (c.tagOf d) (c.tagOf d) (c.tagOf d) c.vrm ((c.s x.toNat).toNat % 2 ^ (c.tagOf d).width) 0 0)

/-- R316 under an integer C. `v` is the value in C; C's range and congruence modulo 2^w say what wrapping is. -/
def Obligations.ArithmeticElementsOfIntegers : Prop :=
  ∀ (op : Arith) (ta tb td : Tag) (rm : RM) (a b e : Nat), ta.isInt = true → tb.isInt = true → td.isNum = true →
    let C := if op.unary then ta else if op.fused then commonTag (commonTag ta tb) td else commonTag ta tb
    let x := ta.readInt a
    let y := tb.readInt b
    let z := td.readInt e
    let wraps (v w : Int) : Prop := C.minInt ≤ v ∧ v ≤ C.maxInt ∧ (2 ^ C.width : Int) ∣ v - w
    let clamps (v w : Int) : Prop := v = max C.minInt (min C.maxInt w)
    C.isInt = true → op.tagsBad ta tb td = false →
      ∃ v : Int, op.element ta tb td rm a b e = (if td = C then ((v % 2 ^ C.width).toNat, 0) else td.roundTo rm (.int v)) ∧
        match op with
        | .vadd => wraps v (x + y)
        | .vsub => wraps v (x - y)
        | .vmul => wraps v (x * y)
        | .vfma => wraps v (x * y + z)
        | .vfms => wraps v (x * y - z)
        | .vfnma => wraps v (z - x * y)
        | .vabs => wraps v |x|
        | .vneg => wraps v (-x)
        | .vsadd => clamps v (x + y)
        | .vssub => clamps v (x - y)
        | .vdiv => if y = 0 then wraps v (-1) else wraps v (x.tdiv y)
        | .vmulh => wraps v (x * y / 2 ^ C.width)
        | .vavg => v = (x + y + 1) / 2
        | .vmin => v = min x y
        | .vmax => v = max x y

/-- R316 under a float C, infinities and NaNs as in R107 and R304. `toDest` rounds to C and then, where td differs, to td (R314); `StandsFor` says that a
value rounds as an exact number does, `rank` orders infinities with the numbers, and `sums` is a sum of which a term is infinite. -/
def Obligations.ArithmeticElementsOfFloats : Prop :=
  ∀ (op : Arith) (ta tb td : Tag) (rm : RM) (a b e : Nat), op.unary = false → ta.isNum = true → tb.isNum = true → td.isNum = true →
    let C := if op.fused then commonTag (commonTag ta tb) td else commonTag ta tb
    let (x, fx) := toCommon C rm (ta.read a)
    let (y, fy) := toCommon C rm (tb.read b)
    let (z, fz) := if op.fused then toCommon C rm (td.read e) else (x, 0)
    let X := x.flt?
    let Y := y.flt?
    let Z := z.flt?
    let gives (r : FVal) (fl : Flags) : Prop :=
      op.element ta tb td rm a b e =
        ((toDest C td rm (.flt r)).1, fx ||| fy ||| fz ||| fl ||| (toDest C td rm (.flt r)).2)
    let rounds (q : ℚ) : Prop := ∃ r, StandsFor C.fmt r q ∧ gives r 0
    let operands := if op.fused then [X, Y, Z] else [X, Y]
    let invalid := op.fused && ((X.isZero && Y.isInf) || (X.isInf && Y.isZero))
    let neg := X.neg? != Y.neg?
    let product : FVal := if X.isInf || Y.isInf then .inf neg else .zero
    let rank (v : FVal) : ℚ := if v.isInf then (if v.neg? then -(2 ^ 1100) else 2 ^ 1100) else ratOf v
    let sums (u v : FVal) : Prop :=
      if u.isInf && v.isInf then (if u.neg? = v.neg? then gives (.inf u.neg?) 0 else gives .dnan Flags.nv)
      else gives (.inf (if u.isInf then u.neg? else v.neg?)) 0
    C.isFloat = true → op.tagsBad ta tb td = false →
      (∀ v, operands.find? (·.isNan) = some v →
        gives v.quiet ((if operands.any (·.isSnan) then Flags.nv else 0) ||| if invalid then Flags.nv else 0)) ∧
      (operands.all isFinite = true →
        match op with
        | .vadd => rounds (ratOf X + ratOf Y)
        | .vsub => rounds (ratOf X - ratOf Y)
        | .vmul => rounds (ratOf X * ratOf Y)
        | .vfma => rounds (ratOf X * ratOf Y + ratOf Z)
        | .vfms => rounds (ratOf X * ratOf Y - ratOf Z)
        | .vfnma => rounds (ratOf Z - ratOf X * ratOf Y)
        | .vdiv => if ratOf Y ≠ 0 then rounds (ratOf X / ratOf Y)
            else if ratOf X = 0 then gives .dnan Flags.nv else gives (.inf (X.neg? != Y.neg?)) Flags.dz
        | .vmin => ∃ r, (r = X ∨ r = Y) ∧ ratOf r = min (ratOf X) (ratOf Y) ∧ gives r 0
        | .vmax => ∃ r, (r = X ∨ r = Y) ∧ ratOf r = max (ratOf X) (ratOf Y) ∧ gives r 0
        | .vavg => rounds ((ratOf X + ratOf Y) / 2)
        | _ => True) ∧
      (X.isZero = true → Y.isZero = true →
        (op = .vmin → ∃ r, r.isZero = true ∧ r.neg? = (X.neg? || Y.neg?) ∧ gives r 0) ∧
        (op = .vmax → ∃ r, r.isZero = true ∧ r.neg? = (X.neg? && Y.neg?) ∧ gives r 0)) ∧
      (operands.all (fun v => !v.isNan) = true → operands.any (·.isInf) = true →
        match op with
        | .vadd => sums X Y
        | .vsub => sums X Y.negate
        | .vmul => if X.isZero || Y.isZero then gives .dnan Flags.nv else gives (.inf neg) 0
        | .vfma => if invalid then gives .dnan Flags.nv else sums product Z
        | .vfms => if invalid then gives .dnan Flags.nv else sums product Z.negate
        | .vfnma => if invalid then gives .dnan Flags.nv else sums product.negate Z
        | .vdiv => if X.isInf && Y.isInf then gives .dnan Flags.nv
            else if X.isInf then gives (.inf neg) 0 else ∃ r, r.isZero = true ∧ r.neg? = neg ∧ gives r 0
        | .vmin => ∃ r, (r = X ∨ r = Y) ∧ rank r = min (rank X) (rank Y) ∧ gives r 0
        | .vmax => ∃ r, (r = X ∨ r = Y) ∧ rank r = max (rank X) (rank Y) ∧ gives r 0
        | .vavg => sums X Y
        | _ => True) ∧
      ∀ t ∈ [Tag.f64, .f32, .f16, .bf16], ∀ u : Tag, u.isNum = true → ∀ bits < 2 ^ t.width,
        let into (v : Nat) : Nat × Flags := if u = t then (v, 0) else u.roundTo rm (t.read v)
        Arith.element .vabs t t u rm bits 0 0 = into (bits % 2 ^ (t.width - 1)) ∧
        Arith.element .vneg t t u rm bits 0 0 = into (bits ^^^ 2 ^ (t.width - 1))

/-- R318: the nine members; `w` is the element width in bits. -/
def Obligations.LogicShiftsAndCounts : Prop :=
  ∀ (s : State) (f : Nat) (d a b : BitVec 6) (p : BitVec 4), VectorReady s f [0, 0, 0] →
    let c := s.ctx f
    let A := c.bits a.toNat
    let B := c.bits b.toNat
    let w := (c.tagOf d).width
    let count (i : Nat) : Nat × Flags → Prop := fun r => ∃ n, r = (c.tagOf d).roundTo c.vrm (.int n) ∧ n = i
    let tagTrap (i : Instr) : Prop := Settled s f → exec i s = .next (stopped s f .tag)
    let raw (i : Instr) (v : Nat → Nat) : Prop := WritesGroup s f i d p fun k => (v k, 0)
    HasStrip c →
    (GroupsOk c [d.toNat, a.toNat, b.toNat] →
      let same := (c.tagOf a).bytes = (c.tagOf d).bytes ∧ (c.tagOf b).bytes = (c.tagOf d).bytes
      let ints := (c.tagOf a).isInt = true ∧ (c.tagOf b).isInt = true ∧ (c.tagOf d).isInt = true ∧
        (c.tagOf a).bytes = (c.tagOf d).bytes
      (if same then
        raw (.vand d a b p) (fun i => A i &&& B i) ∧ raw (.vor d a b p) (fun i => A i ||| B i) ∧
        raw (.vxor d a b p) (fun i => A i ^^^ B i)
      else tagTrap (.vand d a b p) ∧ tagTrap (.vor d a b p) ∧ tagTrap (.vxor d a b p)) ∧
      (if ints then
        raw (.vshl d a b p) (fun i => A i * 2 ^ (B i % w)) ∧ raw (.vshr d a b p) (fun i => A i / 2 ^ (B i % w)) ∧
        WritesGroup s f (.vsha d a b p) d p fun i =>
          (((if A i < 2 ^ (w - 1) then (A i : Int) else A i - 2 ^ w) / 2 ^ (B i % w) % 2 ^ w).toNat, 0)
      else tagTrap (.vshl d a b p) ∧ tagTrap (.vshr d a b p) ∧ tagTrap (.vsha d a b p))) ∧
    (GroupsOk c [d.toNat, a.toNat] →
      (if (c.tagOf a).bytes = (c.tagOf d).bytes then raw (.vnot d a p) fun i => 2 ^ w - 1 - A i else tagTrap (.vnot d a p)) ∧
      if (c.tagOf a).isInt = true ∧ (c.tagOf d).isNum = true then
        (∃ r, WritesGroup s f (.vclz d a p) d p r ∧ ∀ i, c.vstart ≤ i → i < c.reals →
          ∃ n ≤ (c.tagOf a).width, count n (r i) ∧ A i < 2 ^ ((c.tagOf a).width - n) ∧
            (n < (c.tagOf a).width → 2 ^ ((c.tagOf a).width - n - 1) ≤ A i)) ∧
        ∃ r, WritesGroup s f (.vpopc d a p) d p r ∧ ∀ i, c.vstart ≤ i → i < c.reals →
          count ((List.range (c.tagOf a).width).filter fun k => (A i).testBit k).length (r i)
      else tagTrap (.vclz d a p) ∧ tagTrap (.vpopc d a p))

/-- R319, R320. `key` orders the values: an infinity stands above or below every finite number. -/
def Obligations.ComparisonsWritePredicateBits : Prop :=
  ∀ (s : State) (f : Nat) (q : BitVec 4) (a b : BitVec 6) (p : BitVec 4), VectorReady s f [0, 0, 0] →
    let c := s.ctx f
    let C := commonTag (c.tagOf a) (c.tagOf b)
    let X (i : Nat) := toCommon C c.vrm ((c.tagOf a).read (c.bits a.toNat i))
    let Y (i : Nat) := toCommon C c.vrm ((c.tagOf b).read (c.bits b.toNat i))
    let key (v : Val) : ℚ := match v with
      | .int n => n
      | .flt x => if x.isInf then (if x.neg? then -(2 ^ 1100) else 2 ^ 1100) else ratOf x
    let isNaN (v : Val) : Bool := match v with | .flt x => x.isNan | .int _ => false
    let snan (v : Val) : Bool := match v with | .flt x => x.isSnan | .int _ => false
    let nan (i : Nat) : Bool := isNaN (X i).1 || isNaN (Y i).1
    let conv (i : Nat) : Flags := (X i).2 ||| (Y i).2
    let quietNv (i : Nat) : Flags := if snan (X i).1 || snan (Y i).1 then Flags.nv else 0
    let orderNv (i : Nat) : Flags := if nan i then Flags.nv else 0
    let bits (i : Instr) (r : Nat → Prop) (fl : Nat → Flags) : Prop :=
      ∃ v : Nat → Bool, (∀ k, v k = true ↔ r k) ∧ WritesPredicate s f i q p fun k => (v k, conv k ||| fl k)
    let pair : List Instr := [.vceq q a b p, .vcne q a b p, .vclt q a b p, .vcle q a b p, .vcun q a b p]
    HasStrip c →
    (GroupsOk c [a.toNat, b.toNat] → q ≠ 0 → (c.tagOf a).isNum = true → (c.tagOf b).isNum = true →
      bits (.vceq q a b p) (fun i => nan i = false ∧ key (X i).1 = key (Y i).1) quietNv ∧
      bits (.vcne q a b p) (fun i => ¬ (nan i = false ∧ key (X i).1 = key (Y i).1)) quietNv ∧
      bits (.vclt q a b p) (fun i => nan i = false ∧ key (X i).1 < key (Y i).1) orderNv ∧
      bits (.vcle q a b p) (fun i => nan i = false ∧ key (X i).1 ≤ key (Y i).1) orderNv ∧
      bits (.vcun q a b p) (fun i => nan i = true) quietNv) ∧
    (GroupsOk c [a.toNat] → q ≠ 0 → b.toNat ≤ 9 → (c.tagOf a).isFloat = true →
      WritesPredicate s f (.vclass q a b p) q p fun i =>
        (decide ((c.tagOf a).fmt.classOf ((c.tagOf a).read (c.bits a.toNat i)).flt? = b.toNat), 0)) ∧
    (Settled s f →
      (∀ i ∈ pair ++ [.vclass q a b p], q = 0 → exec i s = .next (stopped s f .operand)) ∧
      (10 ≤ b.toNat → exec (.vclass q a b p) s = .next (stopped s f .operand)) ∧
      (GroupsOk c [a.toNat, b.toNat] → q ≠ 0 → ((c.tagOf a).isNum && (c.tagOf b).isNum) = false →
        ∀ i ∈ pair, exec i s = .next (stopped s f .tag)) ∧
      (GroupsOk c [a.toNat] → q ≠ 0 → b.toNat ≤ 9 → (c.tagOf a).isFloat = false →
        exec (.vclass q a b p) s = .next (stopped s f .tag)))

/-! ### Functions, conversions, moves and cross-lane instructions -/

/-- R322, R323: each member completes, and for each some function g of the source value gives the result, and g has the rules' values. -/
def Obligations.FunctionsFollowTheirTables : Prop :=
  ∀ (s : State) (f : Nat) (d a : BitVec 6) (p : BitVec 4), VectorReady s f [0, 0, 0] →
    let c := s.ctx f
    let ta := c.tagOf a
    let td := c.tagOf d
    let C := soleTag ta
    HasStrip c → GroupsOk c [d.toNat, a.toNat] → ta.isFloat = true → td.isNum = true →
    let via (i : Instr) (table : (FVal → FVal × Flags) → Prop) : Prop :=
      ∃ g : FVal → FVal × Flags, table g ∧ (∀ x, x.isNan = true → g x = (x.quiet, if x.isSnan then Flags.nv else 0)) ∧
        WritesGroup s f i d p fun k =>
          let r := g (ta.read (c.bits a.toNat k)).flt?
          let y := toDest C td c.vrm (.flt r.1)
          (y.1, r.2 ||| y.2)
    let invalid : FVal × Flags := (.dnan, Flags.nv)
    (∀ i ∈ [Instr.vsqrt d a p, .vrcp d a p, .vrsq d a p, .vexp2f d a p, .vlog2f d a p, .vrndi d a p, .vgetexp d a p],
      ∃ sl fl, exec i s = .next (vnext s f i { c with slice := sl, fflags := c.fflags ||| fl })) ∧
    let between (r : FVal) (j n : ℤ) : Prop :=
      0 ≤ n ∧ n * (2 : ℚ) ^ j < ratOf r ∧ ratOf r < (n + 1) * (2 : ℚ) ^ j ∧ (2 : ℚ) ^ (C.fmt.fbits + 2) ≤ n
    via (.vsqrt d a p) (fun g =>
      g (.inf true) = invalid ∧ g (.inf false) = (.inf false, 0) ∧
      ∀ neg m e, let x := FVal.fin neg m e
        (m = 0 → g x = (x, 0)) ∧ (m ≠ 0 → neg = true → g x = invalid) ∧
        (m ≠ 0 → neg = false → (g x).2 = 0 ∧ isFinite (g x).1 = true ∧ (ratOf (g x).1 ^ 2 = ratOf x ∨
          ∃ j n : ℤ, between (g x).1 j n ∧ (n * (2 : ℚ) ^ j) ^ 2 < ratOf x ∧ ratOf x < ((n + 1) * (2 : ℚ) ^ j) ^ 2))) ∧
    via (.vrcp d a p) (fun g =>
      (∀ neg, (g (.inf neg)).1.isZero = true ∧ (g (.inf neg)).1.neg? = neg ∧ (g (.inf neg)).2 = 0) ∧
      ∀ neg m e, let x := FVal.fin neg m e
        (m = 0 → g x = (.inf neg, Flags.dz)) ∧ (m ≠ 0 → (g x).2 = 0 ∧ StandsFor C.fmt (g x).1 (1 / ratOf x))) ∧
    via (.vrsq d a p) (fun g =>
      g (.inf true) = invalid ∧ (g (.inf false)).1.isZero = true ∧ (g (.inf false)).1.neg? = false ∧ (g (.inf false)).2 = 0 ∧
      ∀ neg m e, let x := FVal.fin neg m e
        (m = 0 → g x = (.inf neg, Flags.dz)) ∧ (m ≠ 0 → neg = true → g x = invalid) ∧
        (m ≠ 0 → neg = false → (g x).2 = 0 ∧ isFinite (g x).1 = true ∧ (ratOf (g x).1 ^ 2 * ratOf x = 1 ∨
          ∃ j n : ℤ, between (g x).1 j n ∧ (n * (2 : ℚ) ^ j) ^ 2 * ratOf x < 1 ∧ 1 < ((n + 1) * (2 : ℚ) ^ j) ^ 2 * ratOf x))) ∧
    via (.vexp2f d a p) (fun g =>
      (∀ neg, g (.inf neg) = invalid) ∧
      ∀ x, isFinite x = true →
        (1 < |ratOf x| → g x = invalid) ∧
        (ratOf x = 0 ∨ |ratOf x| = 1 → (g x).2 = 0 ∧ isFinite (g x).1 = true ∧
          ratOf (g x).1 = if ratOf x = 0 then 1 else if ratOf x = 1 then 2 else 1 / 2)) ∧
    via (.vlog2f d a p) (fun g =>
      g (.inf true) = invalid ∧ g (.inf false) = (.inf false, 0) ∧
      ∀ neg m e, let x := FVal.fin neg m e
        (m = 0 → g x = (.inf true, Flags.dz)) ∧ (m ≠ 0 → neg = true → g x = invalid) ∧
        ∀ k : ℤ, neg = false → ratOf x = (2 : ℚ) ^ k → (g x).2 = 0 ∧ isFinite (g x).1 = true ∧ ratOf (g x).1 = k) ∧
    via (.vrndi d a p) (fun g =>
      (∀ neg, g (.inf neg) = (.inf neg, 0)) ∧
      ∀ neg m e, let x := FVal.fin neg m e
        ∃ n : ℤ, (g x).2 = 0 ∧ isFinite (g x).1 = true ∧ (g x).1.neg? = neg ∧ ratOf (g x).1 = n ∧
          RoundsTo c.vrm (ratOf x) n) ∧
    via (.vgetexp d a p) (fun g =>
      (∀ neg, g (.inf neg) = (.inf false, 0)) ∧
      ∀ neg m e, let x := FVal.fin neg m e
        (m = 0 → g x = (.inf true, Flags.dz)) ∧
        (m ≠ 0 → ∃ n : ℤ, (g x).2 = 0 ∧ isFinite (g x).1 = true ∧ ratOf (g x).1 = n ∧ (2 : ℚ) ^ n ≤ |ratOf x| ∧
          |ratOf x| < (2 : ℚ) ^ (n + 1)))

/-- R324 to R326. -/
def Obligations.ConversionsMovesAndScaling : Prop :=
  ∀ (s : State) (f : Nat) (d a b : BitVec 6) (t p : BitVec 4), VectorReady s f [0, 0, 0] →
    let c := s.ctx f
    let ta := c.tagOf a
    let tb := c.tagOf b
    let td := c.tagOf d
    let T := Tag.ofCode t.toNat
    let traps (i : Instr) (k : Trap) : Prop := Settled s f → exec i s = .next (stopped s f k)
    HasStrip c →
    -- every one of the four completes
    (T ≠ .none → T ≠ .d8b → T ≠ .p32 → d ≠ a → c.groupOk d.toNat = true → c.groupOk a.toNat = true → ta ≠ .none → ta ≠ .d8b → ta ≠ .p32 →
      c.fits ta.bytes = true → c.fits T.bytes = true →
        ∃ sl fl, exec (.vcvt d a t p) s = .next (vnext s f (.vcvt d a t p) { c.setTag d.toNat T with slice := sl, fflags := c.fflags ||| fl })) ∧
    (GroupsOk c [d.toNat, a.toNat] → ta.bytes = td.bytes → ∃ sl, exec (.vmov d a p) s = .next (vnext s f (.vmov d a p) { c with slice := sl })) ∧
    (GroupsOk c [d.toNat, a.toNat, b.toNat] →
      (ta.bytes = td.bytes → tb.bytes = td.bytes → ∃ sl, exec (.vsel d a b p) s = .next (vnext s f (.vsel d a b p) { c with slice := sl })) ∧
      (ta.isFloat = true → tb ≠ .d8b → tb ≠ .p32 → td.isNum = true →
        ∃ sl fl, exec (.vscale d a b p) s = .next (vnext s f (.vscale d a b p) { c with slice := sl, fflags := c.fflags ||| fl }))) ∧
    (if T = .none ∨ T = .d8b ∨ T = .p32 ∨ d = a then traps (.vcvt d a t p) .operand
    else c.groupOk d.toNat = true → c.groupOk a.toNat = true → ta ≠ .none →
      if ta = .d8b ∨ ta = .p32 then traps (.vcvt d a t p) .tag
      else c.fits ta.bytes = true → c.fits T.bytes = true →
        let r (i : Nat) := T.roundTo c.vrm (ta.read (c.bits a.toNat i))
        ∃ sl, exec (.vcvt d a t p) s = .next (vnext s f (.vcvt d a t p)
            { c.setTag d.toNat T with slice := sl, fflags := c.fflags ||| activeFlags c p.toNat fun i => (r i).2 }) ∧
          (∀ k < c.g, (c.setTag d.toNat T).tag (d.toNat + k) = T) ∧
          GroupWritten c sl d.toNat T.bytes p.toNat fun i => (r i).1) ∧
    (GroupsOk c [d.toNat, a.toNat] →
      if ta.bytes = td.bytes then WritesGroup s f (.vmov d a p) d p fun i => (c.bits a.toNat i, 0)
      else traps (.vmov d a p) .tag) ∧
    (GroupsOk c [d.toNat, a.toNat, b.toNat] →
      (if ta.bytes = td.bytes ∧ tb.bytes = td.bytes then
        WritesGroup s f (.vsel d a b p) d 0 fun i => (c.bits (if c.pbit p.toNat i then a.toNat else b.toNat) i, 0)
      else traps (.vsel d a b p) .tag) ∧
      if ta.isFloat = false ∨ tb = .d8b ∨ tb = .p32 ∨ td.isNum = false then traps (.vscale d a b p) .tag
      else ∃ g : Nat → FVal × Flags,
        (∀ i, let x := (ta.read (c.bits a.toNat i)).flt?
          let y := tb.read (c.bits b.toNat i)
          let by2 (n : ℤ) (r : Nat × Flags) : Prop :=
            match x with
            | .fin neg m e => r = toDest (soleTag ta) td c.vrm (.flt (.fin neg m (e + n)))
            | .inf neg => r = toDest (soleTag ta) td c.vrm (.flt (.inf neg))
            | .nan _ _ => True
          let res : Nat × Flags :=
            ((toDest (soleTag ta) td c.vrm (.flt (g i).1)).1, (g i).2 ||| (toDest (soleTag ta) td c.vrm (.flt (g i).1)).2)
          (x.isNan = true → g i = (x.quiet, if x.isSnan || y.toF.isSnan then Flags.nv else 0)) ∧
          (x.isNan = false → match y with
            | .int n => by2 n res
            | .flt z =>
              if z.isNan then g i = (z.quiet, if z.isSnan then Flags.nv else 0)
              else match z with
                | .inf false => if x.isZero then g i = (.dnan, Flags.nv) else g i = (.inf x.neg?, 0)
                | .inf true => if x.isInf then g i = (.dnan, Flags.nv)
                    else (g i).1.isZero = true ∧ (g i).1.neg? = x.neg? ∧ (g i).2 = 0
                | z => by2 (if 0 ≤ ratOf z then ⌊ratOf z⌋ else ⌈ratOf z⌉) res)) ∧
        WritesGroup s f (.vscale d a b p) d p fun i =>
          ((toDest (soleTag ta) td c.vrm (.flt (g i).1)).1, (g i).2 ||| (toDest (soleTag ta) td c.vrm (.flt (g i).1)).2))

/-- R328 to R331. A `vbfly.c` may name its own source as the latch (log entry 88). Pushed into an empty queue outside a debug step it waits there for a reader
that has not been pushed (log entry 97); with its reader behind it in its convoy and its slots allotted it completes, and stays in the queue until
its reader has completed (R331). -/
def Obligations.SlidesButterfliesAndBroadcasts : Prop :=
  (∀ (s : State) (f : Nat) (d a : BitVec 6) (x : BitVec 5) (p : BitVec 4), VectorReady s f [x.toNat, 0, 0] →
    let c := s.ctx f
    let ta := c.tagOf a
    let td := c.tagOf d
    let n := (c.s x.toNat).toNat
    let A := c.bits a.toNat
    let traps (i : Instr) (k : Trap) : Prop := Settled s f → exec i s = .next (stopped s f k)
    let power := ∃ k < 16, n = 2 ^ k
    HasStrip c →
    (GroupsOk c [d.toNat] →
      (td.isNum = true → WritesGroup s f (.vid d p) d p fun i => td.roundTo c.vrm (.int i)) ∧
      (td.isNum = false → traps (.vid d p) .tag) ∧
      WritesGroup s f (.vbcast d x p) d p fun _ => (n, 0)) ∧
    (d = a → traps (.vslideup d a x p) .operand ∧ traps (.vslidedn d a x p) .operand ∧ traps (.vbfly d a x p) .operand) ∧
    (¬ power → traps (.vbfly d a x p) .operand ∧ traps (.vbflyC d a x p) .operand) ∧
    (GroupsOk c [d.toNat, a.toNat] → d ≠ a →
      (if ta.bytes = td.bytes then
        WritesGroup s f (.vslideup d a x p) d p (fun i => (if n ≤ i then A (i - n) else c.bits d.toNat i, 0)) ∧
        WritesGroup s f (.vslidedn d a x p) d p (fun i => (A (i + n), 0))
      else traps (.vslideup d a x p) .tag ∧ traps (.vslidedn d a x p) .tag) ∧
      (power → if ta = td ∧ ta.isNum = true then WritesGroup s f (.vbfly d a x p) d p (hadamard c a n) else traps (.vbfly d a x p) .tag)) ∧
    (GroupsOk c [d.toNat, a.toNat] → power →
        if ta = td ∧ ta.isNum = true then
          c.stepping = false → c.debugReq ≠ 3 →
          ∃ e : VqEntry, e.word = (Instr.vbflyC d a x p).word ∧ e.pc = c.pc ∧ e.sa = c.s x.toNat ∧ e.begun = false ∧ e.done = false ∧
            exec (.vbflyC d a x p) s = .next (s.setCtx f { c with vq := [e], pc := c.pc + 4, wait := none, passBreak := false })
        else traps (.vbflyC d a x p) .tag)) ∧
  ∀ (s : State) (f : Nat) (d a : BitVec 6) (x : BitVec 5) (p : BitVec 4) (e r : VqEntry),
    let c := s.ctx f
    let n := e.sa.toNat
    s.cur = .entry f 0 → c.vq = [e, r] → c.convoyLeft = 2 → c.latch = none → HasStrip c → GroupsOk c [d.toNat, a.toNat] →
    (c.tag a.toNat).isNum = true → e.word = (Instr.vbflyC d a x p).word → e.begun = false → e.done = false → e.vtype = c.vtype → e.vtag = c.vtag →
    r.done = false → isChain r.word = false → State.groupsBetween (c.groupOf e) c.vstart c.reals ≤ c.slotted + 1 →
      ∃ t l, exec (.vbflyC d a x p) s = .next t ∧ (t.ctx f).latch = some l ∧ l.name = d.toNat ∧ l.elems.length = c.reals ∧
        (∀ i < c.reals, l.elems.getD i 0 =
          if c.vstart ≤ i ∧ c.pbit p.toNat i = true then (hadamard c a n i).1 else c.bits d.toNat i) ∧
        (t.ctx f).slice = c.slice ∧ (t.ctx f).preds = c.preds ∧ (t.ctx f).sregs = c.sregs ∧ (t.ctx f).slotted = 0 ∧
        (t.ctx f).fflags = c.fflags ||| activeFlags c p.toNat (fun i => (hadamard c a n i).2) ∧
        (t.ctx f).vq.map (·.word) = [e.word, r.word] ∧ (t.ctx f).vq.map (·.done) = [true, false] ∧
        t.scr = s.scr ∧ ∀ g, g ≠ f → t.ctx g = s.ctx g

/-- R333 to R337. -/
def Obligations.GatherCompressExpandAndElements : Prop :=
  ∀ (s : State) (f : Nat) (d a b : BitVec 6) (x y : BitVec 5) (p : BitVec 4),
    let c := s.ctx f
    let A := c.bits a.toNat
    let w := (c.tagOf d).bytes
    let chosen := (List.range c.reals).filter fun i => c.pbit p.toNat i
    let traps (i : Instr) (k : Trap) : Prop := Settled s f → exec i s = .next (stopped s f k)
    let members : List Instr := [.vxg d a b p, .vcomp d a p, .vexpd d a p]
    (VectorReady s f [0, 0, 0] → GroupsOk c [d.toNat, a.toNat] → (c.tagOf a).bytes = w → c.vstart = 0 → c.vl ≠ 0 → d ≠ a →
      (GroupsOk c [b.toNat] → d ≠ b → (c.tagOf b).isInt = true →
        WritesGroup s f (.vxg d a b p) d p fun i =>
          let k := (c.tagOf b).readInt (c.bits b.toNat i)
          (if 0 ≤ k ∧ k < c.reals then A k.toNat else 0, 0)) ∧
      WritesGroup s f (.vcomp d a p) d 0 (fun i => (if i < chosen.length then A (chosen.getD i 0) else 0, 0)) ∧
      WritesGroup s f (.vexpd d a p) d p fun i => (A ((List.range i).filter fun j => c.pbit p.toNat j).length, 0)) ∧
    (VectorReady s f [0, 0, 0] → HasStrip c → GroupsOk c [d.toNat, a.toNat, b.toNat] →
      (c.vstart ≠ 0 → (c.tagOf a).bytes = w → (c.tagOf b).isInt = true → d ≠ a → d ≠ b →
        ∀ i ∈ members, MeetsTrap s f i .operand) ∧
      (d = a → ∀ i ∈ members, traps i .operand) ∧
      (d ≠ a → d ≠ b → (c.tagOf b).isInt = false → traps (.vxg d a b p) .tag)) ∧
    (HasStrip c → GroupsOk c [d.toNat] → VectorReady s f [y.toNat, x.toNat, 0] →
      let k := (c.s x.toNat).toNat
      ∃ sl, exec (.vins d x y) s = .next (vnext s f (.vins d x y) { c with slice := sl }) ∧
        (k < c.reals → sliceBytes sl (d.toNat * c.regBytes + k * w) w = (c.s y.toNat).toNat % 2 ^ (8 * w)) ∧
        ∀ j, (k < c.reals → j < d.toNat * c.regBytes + k * w ∨ d.toNat * c.regBytes + (k + 1) * w ≤ j) →
          sliceBytes sl j 1 = sliceBytes c.slice j 1) ∧
    (HasStrip c → GroupsOk c [a.toNat] → VectorReady s f [x.toNat, 0, y.toNat] →
      let k := (c.s x.toNat).toNat
      let v : Dword := if k < c.reals then
          (if (c.tagOf a).isSigned then BitVec.ofInt 64 ((c.tagOf a).readInt (A k)) else BitVec.ofNat 64 (A k)) else 0
      exec (.vext x a y) s = .next (vnext s f (.vext x a y) (c.setS y.toNat v)))

/-- R338, with the zero test of R267 for `pset`. -/
def Obligations.PredicateInstructions : Prop :=
  ∀ (s : State) (f : Nat) (q a b : BitVec 4) (x : BitVec 5) (v : BitVec 6),
    let c := s.ctx f
    let P (i : Nat) : Bool := c.pbit a.toNat i
    let Q (i : Nat) : Bool := c.pbit b.toNat i
    let nonzero (i : Nat) : Bool := match (c.tagOf v).read (c.bits v.toNat i) with
      | .int n => n ≠ 0
      | .flt y => !y.isZero
    let writes (i : Instr) (r : Nat → Bool) : Prop :=
      ∃ ps, exec i s = .next (vnext s f i { c with preds := ps }) ∧ PredWritten c ps q.toNat 0 r
    let both := (List.range c.reals).filter fun i => decide (c.vstart ≤ i) && (P i && Q i)
    HasStrip c →
    (VectorReady s f [0, 0, 0] →
      (q ≠ 0 →
        writes (.pand q a b) (fun i => P i && Q i) ∧ writes (.por q a b) (fun i => P i || Q i) ∧
        writes (.pxor q a b) (fun i => P i != Q i) ∧ writes (.pnot q a) (fun i => !P i) ∧
        writes (.pandn q a b) (fun i => P i && !Q i) ∧
        (GroupsOk c [v.toNat] → (c.tagOf v).isNum = true → writes (.pset q v) nonzero) ∧
        (GroupsOk c [v.toNat] → (c.tagOf v).isNum = false → Settled s f →
          exec (.pset q v) s = .next (stopped s f .tag))) ∧
      (q = 0 → Settled s f → ∀ i ∈ [Instr.pand q a b, .por q a b, .pxor q a b, .pnot q a, .pandn q a b, .pset q v],
        exec i s = .next (stopped s f .operand))) ∧
    (VectorReady s f [x.toNat, 0, 0] →
      (q ≠ 0 → writes (.pwhile q x) fun i => decide (i < (c.s x.toNat).toNat)) ∧
      (q = 0 → Settled s f → exec (.pwhile q x) s = .next (stopped s f .operand))) ∧
    (VectorReady s f [0, 0, x.toNat] →
      exec (.pcnt a b x) s = .next (vnext s f (.pcnt a b x) (c.setS x.toNat (BitVec.ofNat 64 both.length))) ∧
      exec (.pfirst a b x) s = .next (vnext s f (.pfirst a b x) (c.setS x.toNat (BitVec.ofNat 64 (both.headD c.vl)))))

/-! ### Reductions, tree stacks, scans and the generator -/

/-- R340, R343, R309: `treeOf` is the tree over aligned blocks, said without the procedure of R307. With every leaf inactive element 0 goes through C and
back to its own tag (log entry 89: R343 has it rewritten unchanged). -/
def Obligations.ReductionsCombineInTreeOrder : Prop :=
  ∀ (s : State) (f : Nat) (d a : BitVec 6) (k : BitVec 3) (p : BitVec 4), VectorReady s f [0, 0, 0] →
    let c := s.ctx f
    let ta := c.tagOf a
    let td := c.tagOf d
    let C := commonTag (if ta = .d8b then .d8 else ta) td
    let bits := 3 + k.toNat
    GroupsOk c [d.toNat, a.toNat] → d ≠ a → c.vstart = 0 → c.vl ≠ 0 →
    let folds : Prop := ta.isNum = true ∧ k = 0 ∨ ta = .d8b ∧ k.toNat < 6 ∧ a.toNat + c.g < c.nreg ∧ d.toNat ≠ a.toNat + c.g ∧
      c.tag (a.toNat + c.g) = .e8 ∧ 2 ^ bits ≤ c.vl
    (∀ i ∈ [Instr.vredsum d a k p, .vredmax d a k p, .vredmin d a k p], folds → td.isNum = true →
      ∃ sl fl, exec i s = .next (vnext s f i { c with slice := sl, fflags := c.fflags ||| fl })) ∧
    (∀ i ∈ [Instr.vredand d a k p, .vredor d a k p, .vredxor d a k p], ta.isInt = true → td.isInt = true → ta.bytes = td.bytes → k = 0 →
      ∃ sl fl, exec i s = .next (vnext s f i { c with slice := sl, fflags := c.fflags ||| fl })) ∧
    let writes0 (i : Instr) (t : Option Nat × Flags) (r : Option Nat → Nat × Flags) : Prop :=
      ∃ sl fl, exec i s = .next (vnext s f i { c with slice := sl, fflags := c.fflags ||| fl }) ∧
        (∀ j, j < d.toNat * c.regBytes ∨ d.toNat * c.regBytes + td.bytes ≤ j ∨ c.reals = 0 → sliceBytes sl j 1 = sliceBytes c.slice j 1) ∧
        fl = t.2 ||| (r t.1).2 ∧ (c.reals ≠ 0 → sliceBytes sl (d.toNat * c.regBytes) td.bytes = (r t.1).1 % 2 ^ td.width)
    -- Op(old, T), which is old when T is the identity
    let joined (op : Nat → Nat → Nat × Flags) (x : Nat) (v : Option Nat) : Nat × Flags :=
      match v with
      | none => (x, 0)
      | some y => op x y
    -- the leaves in C, with the flags of their conversions
    let conv (t : Tag) (b : Nat) : Nat × Flags := if C.isFloat then C.roundTo c.vrm (t.read b) else (C.intBits (t.readInt b), 0)
    let leaf (i : Nat) : Option Nat := if c.pbit p.toNat i then some (conv ta (c.bits a.toNat i)).1 else none
    let leafFlags : Flags := (((List.range c.vl).filter fun i => c.pbit p.toNat i).map fun i =>
      (conv ta (c.bits a.toNat i)).2).foldl (· ||| ·) 0
    let scale (j v : Nat) : Nat × Flags :=
      let y := C.roundTo c.vrm (.flt (fScale (C.read v).flt? (.int (Tag.e8.readInt (c.elem (a.toNat + c.g) 1 j)))).1)
      (y.1, y.2)
    let tree (op : Nat → Nat → Nat × Flags) : Option Nat × Flags :=
      let t := if ta = .d8b then treeOf op bits scale leaf c.vl else plainTree op leaf c.vl
      (t.1, leafFlags ||| t.2)
    let into (op : Nat → Nat → Nat × Flags) (v : Option Nat) : Nat × Flags :=
      let o := conv td (c.bits d.toNat 0)
      let y := joined op o.1 v
      let z := toDest C td c.vrm (C.read y.1)
      (z.1, o.2 ||| y.2 ||| z.2)
    let raw (op : Nat → Nat → Nat) : Option Nat × Flags :=
      plainTree (fun x y => (op x y, 0)) (fun i => if c.pbit p.toNat i then some (c.bits a.toNat i) else none) c.vl
    (td.isNum = true → folds →
      writes0 (.vredsum d a k p) (tree (sumOp C c.vrm)) (into (sumOp C c.vrm)) ∧
      writes0 (.vredmax d a k p) (tree (extremeOp true C c.vrm)) (into (extremeOp true C c.vrm)) ∧
      writes0 (.vredmin d a k p) (tree (extremeOp false C c.vrm)) (into (extremeOp false C c.vrm))) ∧
    (ta.isInt = true → td.isInt = true → ta.bytes = td.bytes → k = 0 →
      let o := c.bits d.toNat 0
      writes0 (.vredand d a k p) (raw (· &&& ·)) (joined (fun x y => (x &&& y, 0)) o) ∧
      writes0 (.vredor d a k p) (raw (· ||| ·)) (joined (fun x y => (x ||| y, 0)) o) ∧
      writes0 (.vredxor d a k p) (raw (· ^^^ ·)) (joined (fun x y => (x ^^^ y, 0)) o))

/-- R307: the model's procedure (`treeReduce`) and the tree it builds. -/
def Obligations.TreeReductionCombinesAlignedBlocks : Prop :=
  ∀ (op : Nat → Nat → Nat × Flags) (leaves : List (Option Nat)), leaves.length < 2 ^ 32 →
    treeReduce op leaves = plainTree op (fun i => leaves.getD i none) leaves.length

/-- R346 to R351. `Holds` says that a stack's levels are the aligned blocks of a sequence of leaves. -/
def Obligations.TreeStacksJoinWithoutChangingTheSum : Prop :=
  ∀ (s : State) (f : Nat) (y : BitVec 2) (d a : BitVec 6) (b : BitVec 5) (p : BitVec 4),
    let c := s.ctx f
    let old := c.trees.toList.getD y.toNat Tree.empty
    let changes (i : Instr) (t : Tree → Prop) : Prop :=
      ∃ new fl, t new ∧ exec i s = .next (vnext s f i
        { c with trees := c.trees.setIfInBounds y.toNat new, fflags := c.fflags ||| fl })
    (VectorReady s f [b.toNat, 0, 0] →
      let new : Tree := ⟨.replicate 32 0, 0, c.s b.toNat, 0⟩
      exec (.tclear y b) s = .next (vnext s f (.tclear y b) { c with trees := c.trees.setIfInBounds y.toNat new })) ∧
    (VectorReady s f [0, 0, 0] → c.vstart = 0 → c.vl ≠ 0 →
      (GroupsOk c [a.toNat] → c.tagOf a ∈ [Tag.f32, .f16, .bf16, .d8] →
        (2 ^ 32 ≤ old.count.toNat + c.reals → MeetsTrap s f (.vtree y a p) .operand) ∧
        ∀ x n, Holds c.vrm old x n → n + c.reals < 2 ^ 32 →
          changes (.vtree y a p) fun new => new.base = old.base ∧
            Holds c.vrm new (fun i => if i < n then x i
              else if c.pbit p.toNat (i - n) then
                (Tag.f32.roundTo c.vrm ((c.tagOf a).read (c.bits a.toNat (i - n)))).1 else 0x80000000) (n + c.reals)) ∧
      (GroupsOk c [a.toNat] → (c.tagOf a).bytes = 4 → 40 ≤ c.reals →
        let w (j : Nat) : Nat := c.elem a.toNat 4 j
        let B : Tree := ⟨Vector.ofFn fun k => BitVec.ofNat 32 (w k.val), BitVec.ofNat 32 (w 32),
          BitVec.ofNat 64 (w 34 + 2 ^ 32 * w 35), BitVec.ofNat 64 (w 36 + 2 ^ 32 * w 37)⟩
        w 33 = 0 → w 38 = 0 → w 39 = 0 →
        ∀ x n m K, Holds c.vrm old x n → Holds c.vrm B (fun i => x (n + i)) m → n + m < 2 ^ 32 →
          m ≤ 2 ^ K → (∀ k, m ≤ 2 ^ k → K ≤ k) →
          (m ≠ 0 → n ≠ 0 → n % 2 ^ K = 0 ∧ B.base = old.base + old.count) →
            changes (.tmerge y a) fun new => Holds c.vrm new x (n + m) ∧
              new.base = if n = 0 ∧ m ≠ 0 then B.base else old.base) ∧
      (GroupsOk c [d.toNat] → (c.tagOf d).isFloat = true → 0 < c.reals → ∀ x n, Holds c.vrm old x n →
        let v := ((plainTree (sumOp .f32 c.vrm) (fun i => some (x i)) n).1).getD 0
        let r := toDest .f32 (c.tagOf d) c.vrm (Tag.f32.read v)
        ∃ sl fl, exec (.tread d y 0) s = .next (vnext s f (.tread d y 0) { c with slice := sl, fflags := c.fflags ||| fl }) ∧
          sliceBytes sl (d.toNat * c.regBytes) (c.tagOf d).bytes = r.1 ∧
          ∀ j, j < d.toNat * c.regBytes ∨ d.toNat * c.regBytes + (c.tagOf d).bytes ≤ j → sliceBytes sl j 1 = sliceBytes c.slice j 1) ∧
      (GroupsOk c [d.toNat] → (c.tagOf d).bytes = 4 → 40 ≤ c.reals →
        ∃ sl, exec (.tread d y 1) s = .next (vnext s f (.tread d y 1) { c with slice := sl }) ∧
          (∀ j, j < d.toNat * c.regBytes ∨ d.toNat * c.regBytes + 160 ≤ j → sliceBytes sl j 1 = sliceBytes c.slice j 1) ∧
          ∀ j < 40, sliceBytes sl (d.toNat * c.regBytes + 4 * j) 4 =
            if j < 32 then (if old.mask.toNat.testBit j then (old.levels.toList.getD j 0).toNat else 0)
            else if j = 32 then old.mask.toNat
            else if j = 34 then old.base.toNat % 2 ^ 32 else if j = 35 then old.base.toNat / 2 ^ 32
            else if j = 36 then old.count.toNat % 2 ^ 32 else if j = 37 then old.count.toNat / 2 ^ 32 else 0))

/-- R308, R352, R353: `op` is addition, maximum, or Compose with the later pair applied after the earlier one (R297, R299; the second half
says what Compose gives on finite operands). -/
def Obligations.ScansWriteEveryPrefix : Prop :=
  (∀ (s : State) (f : Nat) (d a : BitVec 6) (o i : BitVec 1) (p : BitVec 4), VectorReady s f [0, 0, 0] →
    let c := s.ctx f
    let t := c.tagOf d
    GroupsOk c [d.toNat, a.toNat] → c.tagOf a = t → d ≠ a → c.vstart = 0 → c.vl ≠ 0 →
    let leaf (k : Nat) : Option Nat := if c.pbit p.toNat k then some (c.bits a.toNat k) else none
    let scans (w : Instr) (op : Nat → Nat → Nat × Flags) (empty : Nat) : Prop :=
      let carry : Option Nat := if i = 1 then some (c.acarry.toNat % 2 ^ t.width) else none
      let at' (n : Nat) : Option Nat × Flags := join op (carry, 0) (plainTree op leaf n)
      ∃ sl fl, exec w s = .next (vnext s f w
          { c with
            slice := sl, scan := none, fflags := c.fflags ||| fl
            acarry := if o = 1 then BitVec.ofNat 64 ((at' c.reals).1.getD empty) else c.acarry }) ∧
        GroupWritten c sl d.toNat t.bytes p.toNat (fun k => ((at' (k + 1)).1).getD 0) ∧
        ∀ k < c.reals, c.pbit p.toNat k = true → (at' (k + 1)).2 &&& fl = (at' (k + 1)).2
    (t.isNum = true → t ≠ .d8 →
      scans (.vscan d a o i p) (sumOp t c.vrm) 0 ∧
      scans (.vscanmax d a o i p) (extremeOp true t c.vrm)
        (if t.isInt then t.intBits t.minInt else infBits t.fmt true)) ∧
    (t = .p32 →
      scans (.vscana d a o i p)
        (fun l r => compose c.vrm (r / 2 ^ 32) (r % 2 ^ 32) (l / 2 ^ 32) (l % 2 ^ 32)) 0x3F80000000000000)) ∧
  (∀ (rm : RM) (a2 b2 a1 b1 : Nat), a2 < 2 ^ 32 → b2 < 2 ^ 32 → a1 < 2 ^ 32 → b1 < 2 ^ 32 →
    let D := Fmt.f32.decode
    isFinite (D a2) = true → isFinite (D b2) = true → isFinite (D a1) = true → isFinite (D b1) = true →
    let gain (b : Nat) : ℚ := if |ratOf (D b)| < (2 : ℚ) ^ (-126 : ℤ) then 0 else ratOf (D b)
    let out := compose rm a2 b2 a1 b1
    ∃ g o : FVal, isFinite g = true ∧ isFinite o = true ∧ ratOf g = gain a2 * gain a1 ∧
      g.neg? = ((D a2).neg? != (D a1).neg?) ∧ ratOf o = gain a2 * ratOf (D b1) + ratOf (D b2) ∧
      let G := Fmt.f32.roundTo rm g
      let O := Fmt.f32.roundTo rm o
      let flushed := G.1 % 2 ^ 31 ≠ 0 ∧ G.1 % 2 ^ 31 < 2 ^ 23
      out.1 / 2 ^ 32 = (if flushed then G.1 / 2 ^ 31 * 2 ^ 31 else G.1) ∧ out.1 % 2 ^ 32 = O.1 ∧
      out.2 = G.2 ||| O.2 ||| if flushed then Flags.uf ||| Flags.nx else 0)

/-- R356, R357: the eight rounds written out as a fold over the round number. -/
def Obligations.GeneratorIsAFunctionOfCounterAndKey : Prop :=
  ∀ (s : State) (f : Nat) (d : BitVec 6) (b : BitVec 5) (p : BitVec 4),
    let c := s.ctx f
    let base : BitVec 128 := c.s (b.toNat + 1) ++ c.s b.toNat
    let key : Nat → Word := fun r => (c.rngkey1 ++ c.rngkey0).extractLsb' (32 * (r % 4)) 32
    let out (n : BitVec 128) : Word :=
      ((List.range 8).foldl (fun (x : Word × Word × Word × Word) r =>
        let t : Dword := (x.1 ^^^ key r).setWidth 64 * 0xCB2D5A93
        (x.2.1 ^^^ t.extractLsb' 32 32, x.2.2.1 + t.extractLsb' 0 32, x.2.2.2.rotateLeft 9, t.extractLsb' 0 32))
        (n.extractLsb' 0 32, n.extractLsb' 32 32, n.extractLsb' 64 32, n.extractLsb' 96 32)).1
    VectorReady s f [b.toNat, b.toNat + 1, 0] → HasStrip c → c.groupOk d.toNat = true → c.tagOf d ≠ .none →
      (b.toNat % 2 = 0 → (c.tagOf d).bytes = 4 →
        (c.fits 4 = true → WritesGroup s f (.vrng d b p) d p fun i => ((out (base + BitVec.ofNat 128 i)).toNat, 0)) ∧
        ∃ sl, exec (.vrng d b p) s = .next (vnext s f (.vrng d b p) { c with slice := sl })) ∧
      (b.toNat % 2 = 1 → Settled s f → exec (.vrng d b p) s = .next (stopped s f .operand)) ∧
      (b.toNat % 2 = 0 → (c.tagOf d).bytes ≠ 4 → Settled s f → exec (.vrng d b p) s = .next (stopped s f .tag))

/-! ### Vector memory -/

/-- R186 to R192 for loads. `J` is the view index of an element: linear from s[sx], or by the index group. -/
def Obligations.VectorLoadsReadTheirElements : Prop :=
  ∀ (s : State) (f : Nat) (d x : BitVec 6) (w p : BitVec 4) (y : BitVec 5) (v : Line),
    let c := s.ctx f
    let b := (c.tagOf d).bytes
    let quietly (J : Nat → Int) : Prop := ∀ i ∈ performed c p.toNat, 0 ≤ J i →
      s.watched f v (View.addr v (J i).toNat).toNat b true false = false
    let value (J : Nat → Int) (i : Nat) : Nat := s.scr.read (elementByte f v (J i)) b
    let ok (J : Nat → Int) (i : Nat) : Prop := Performs s f v b (J i)
    let loads (i : Instr) (J : Nat → Int) : Prop := quietly J →
      ((∀ k ∈ performed c p.toNat, ok J k) → WritesGroup s f i d p fun k => (value J k, 0)) ∧
      ∀ k, (performed c p.toNat).head? = some k → ¬ ok J k → FaultsAt s f i (elementTrap s f v b (J k)) k
    let linear (i : Nat) : Int := (c.s y.toNat).toInt + (i * (b / View.size v) : Nat)
    let indexed (i : Nat) : Int := (c.tagOf x).readInt (c.elem x.toNat (c.tagOf x).bytes i)
    HasStrip c → GroupsOk c [d.toNat] →
    (VectorReady s f [y.toNat, 0, 0] →
      (VectorView s f w v [0] b → loads (.vld d w y p) linear) ∧
      (VectorView s f w v [0] b → bitAt c.detm 0 = false → quietly linear →
        ((∀ k ∈ performed c p.toNat, ok linear k) →
          ∃ sl, exec (.vldff d w y p) s = .next (vnext s f (.vldff d w y p) { c with slice := sl, vff := c.vl }) ∧
            GroupWritten c sl d.toNat b p.toNat (value linear)) ∧
        ∀ k ∈ performed c p.toNat, ¬ ok linear k → (∀ i ∈ performed c p.toNat, i < k → ok linear i) →
          ∃ sl, exec (.vldff d w y p) s = .next (vnext s f (.vldff d w y p) { c with slice := sl, vff := k }) ∧
            (∀ i, c.vstart ≤ i → i < c.reals → sliceBytes sl (d.toNat * c.regBytes + i * b) b =
              if k ≤ i then 0 else if c.pbit p.toNat i then value linear i % 2 ^ (8 * b)
              else sliceBytes c.slice (d.toNat * c.regBytes + i * b) b) ∧
            ∀ j, j < d.toNat * c.regBytes + c.vstart * b ∨ d.toNat * c.regBytes + c.reals * b ≤ j →
              sliceBytes sl j 1 = sliceBytes c.slice j 1) ∧
      (VectorView s f w v [0] b → bitAt c.detm 0 = true → Settled s f →
        exec (.vldff d w y p) s = .next (stopped s f .determinism)) ∧
      (c.view false w.toNat = none → MeetsTrap s f (.vld d w y p) (.access 0))) ∧
    (VectorReady s f [0, 0, 0] → GroupsOk c [x.toNat] → indexTag (c.tagOf x) = true → c.tagOf d ≠ .p32 →
      (VectorView s f w v [0] b → loads (.vldx d w x p) indexed) ∧
      (VectorView s f w v [1] b → loads (.vgb d w x p) indexed) ∧
      (c.view false w.toNat = none → MeetsTrap s f (.vldx d w x p) (.access 0) ∧ MeetsTrap s f (.vgb d w x p) (.access 0)))

/-- R186 to R190, R193, R194 for stores. -/
def Obligations.VectorStoresWriteTheirElements : Prop :=
  ∀ (s : State) (f : Nat) (d x : BitVec 6) (w p : BitVec 4) (y : BitVec 5) (v : Line),
    let c := s.ctx f
    let b := (c.tagOf d).bytes
    let stores (i : Instr) (J : Nat → Int) (add : Bool) : Prop :=
      (∀ k ∈ performed c p.toNat, 0 ≤ J k → s.watched f v (View.addr v (J k).toNat).toNat b add true = false) →
      ((∀ k ∈ performed c p.toNat, Performs s f v b (J k)) →
        ∃ m : Mem, exec i s = .next (vnext { s with scr := m } f i c) ∧
          m = (performed c p.toNat).foldl (fun m k =>
            m.write (elementByte f v (J k)) b ((if add then m.read (elementByte f v (J k)) b else 0) + c.elem d.toNat b k)) s.scr ∧
          ∀ a, (∀ k ∈ performed c p.toNat, a < elementByte f v (J k) ∨ elementByte f v (J k) + b ≤ a) → m.get a = s.scr.get a) ∧
      ∀ k, (performed c p.toNat).head? = some k → ¬ Performs s f v b (J k) → FaultsAt s f i (elementTrap s f v b (J k)) k
    let linear (i : Nat) : Int := (c.s y.toNat).toInt + (i * (b / View.size v) : Nat)
    let indexed (i : Nat) : Int := (c.tagOf x).readInt (c.elem x.toNat (c.tagOf x).bytes i)
    HasStrip c → GroupsOk c [d.toNat] →
    (VectorReady s f [y.toNat, 0, 0] → VectorView s f w v [0] b → stores (.vst d w y p) linear false) ∧
    (VectorReady s f [0, 0, 0] → GroupsOk c [x.toNat] → indexTag (c.tagOf x) = true → c.tagOf d ≠ .p32 → d ≠ x →
      (VectorView s f w v [0] b → stores (.vstx d w x p) indexed false) ∧
      (VectorView s f w v [1] b → stores (.vsb d w x p) indexed false) ∧
      (c.tagOf d ∈ [Tag.i32, .n32, .i64] → VectorView s f w v [0, 1] b → stores (.vaadd d w x p) indexed true))

/-- R29, R35, R41, R71, R313, on `vadd` and `vld`. -/
def Obligations.VectorChecksComeInOrder : Prop :=
  ∀ (s : State) (f : Nat) (d a b : BitVec 6) (w p : BitVec 4) (x : BitVec 5),
    let c := s.ctx f
    let good (n : BitVec 6) : Prop := n.toNat < c.nreg ∧ n.toNat % c.g = 0
    let tagged (n : BitVec 6) : Prop := c.tagOf n ≠ .none
    (VectorReady s f [0, 0, 0] →
      (¬ (good d ∧ good a ∧ good b) → Settled s f → exec (.vaddVv d a b p) s = .next (stopped s f .operand)) ∧
      (good d → good a → good b → ¬ (tagged d ∧ tagged a ∧ tagged b) → Settled s f →
        exec (.vaddVv d a b p) s = .next (stopped s f .tag)) ∧
      (good d → good a → good b → (c.tagOf d).isNum = true → (c.tagOf a).isNum = true → (c.tagOf b).isNum = true →
        (HasStrip c → (∃ n ∈ [d, a, b], c.groupBytes < c.vl * (c.tagOf n).bytes) →
          MeetsTrap s f (.vaddVv d a b p) .operand) ∧
        (¬ HasStrip c → exec (.vaddVv d a b p) s = .next (vnext s f (.vaddVv d a b p) c)))) ∧
    (VectorReady s f [x.toNat, 0, 0] →
      (¬ good d → Settled s f → exec (.vld d w x p) s = .next (stopped s f .operand)) ∧
      (good d → ¬ tagged d → Settled s f → exec (.vld d w x p) s = .next (stopped s f .tag)) ∧
      (good d → tagged d → c.view false w.toNat = none → ¬ HasStrip c → exec (.vld d w x p) s = .next (vnext s f (.vld d w x p) c))) ∧
    (2304 ≤ f → s.cur = .agent f → c.late = none → Settled s f →
      exec (.vaddVv d a b p) s = .next (stopped s f .illegal) ∧ exec (.vld d w x p) s = .next (stopped s f .illegal))

/-! ### Configuration, grants, views, the tag table and tile slices -/

/-- R39, R131 to R133. Bits of VTYPE: G [3:2], RM [8:6], SLICES [12:9], TSHAPE [14:13]. That `vconfig`, `vtag` and `vcarry` leave VSTART as it is is the
model's choice (log entry 104: R41 sets it to 0 as a vector instruction completes). -/
def Obligations.VectorConfigurationSetsItsFields : Prop :=
  ∀ (s : State) (f : Nat) (d a : BitVec 5) (k : BitVec 11) (n : BitVec 2) (v : BitVec 6) (t : BitVec 4) (o : BitVec 2)
    (m : BitVec 5),
    let c := s.ctx f
    let configures (i : Instr) (tshape slices rm g : Nat) : Prop :=
      (slices < 4 ∨ 9 < slices ∨ 4 < rm → Settled s f → exec i s = .next (stopped s f .operand)) ∧
      (4 ≤ slices → slices ≤ 9 → rm ≤ 4 →
        ∃ c', Reconfigured c c' tshape slices rm g ∧
          exec i s = .next (gnext s f (c'.setS d.toNat (BitVec.ofNat 64 (c.regBytes * 2 ^ g / c.eb)))))
    let x := c.s a.toNat
    (VectorReady s f [d.toNat] →
      configures (.vconfigImm d k) (bitsAt k 9 2) (bitsAt k 5 4) (bitsAt k 2 3) (bitsAt k 0 2)) ∧
    (VectorReady s f [d.toNat, a.toNat] →
      configures (.vconfigReg d a) (bitsAt x 13 2) (bitsAt x 9 4) (bitsAt x 6 3) (bitsAt x 2 2)) ∧
    (VectorReady s f [] →
      (if v.toNat % c.g = 0 ∧ v.toNat + 2 ^ n.toNat * c.g ≤ c.nreg then
        ∃ tags : BitVec 256, exec (.vtag n v t) s = .next (gnext s f { c with vtag := tags }) ∧
          ∀ r < 64, Tag.ofCode (bitsAt tags (4 * r) 4) =
            if v.toNat ≤ r ∧ r < v.toNat + 2 ^ n.toNat * c.g then Tag.ofCode t.toNat else c.tag r
      else Settled s f → exec (.vtag n v t) s = .next (stopped s f .operand)) ∧
      (if m.toNat % c.g = 0 ∧ m.toNat < c.nreg then
        ∃ carry op, exec (.vcarrySet o m) s = .next (gnext s f { c with vcarry := carry, vfoldop := op }) ∧
          (∀ j < 32, carry.getLsbD j = (decide (j = m.toNat) || c.vcarry.getLsbD j)) ∧
          ∀ j < 32, bitsAt op (2 * j) 2 = if j = m.toNat then o.toNat else bitsAt c.vfoldop (2 * j) 2
      else Settled s f → exec (.vcarrySet o m) s = .next (stopped s f .operand))) ∧
    (VectorReady s f [a.toNat] →
      exec (.vcarryReg a) s = .next (gnext s f { c with vcarry := (c.s a.toNat).setWidth 32 }))

/-- R134 to R140. -/
def Obligations.GrantFollowsTheCap : Prop :=
  ∀ (s : State) (f : Nat) (d a : BitVec 5) (w : BitVec 2) (k : BitVec 3) (t : BitVec 4), VectorReady s f [d.toNat, a.toNat] →
    let c := s.ctx f
    let avl := (c.s a.toNat).toNat
    let grants (i : Instr) (ew g pad : Nat) : Prop :=
      ∃ sl ps fl, exec i s = .next (gnext s f
          { c.setS d.toNat (BitVec.ofNat 64 (g - pad)) with
            vtype := setBits c.vtype 4 2 ew, vl := g, vpad := pad, vlmax := c.groupBytes / 2 ^ ew, vstart := 0, slice := sl,
            preds := ps, fflags := c.fflags ||| fl, replay := c.replay.tail }) ∧
        Granted c sl (g - pad) (2 ^ ew) ∧
        ∀ n, 0 < n → n < 16 → ∀ j < 65536, bitAt (ps.toList.getD n 0) j =
          (decide (j < g - pad) && bitAt (c.preds.toList.getD n 0) j)
    let foldable := ∀ n < c.nreg, n % c.g = 0 → n < 32 → c.vcarry.getLsbD n = true → c.tag n ∉ [Tag.none, .d8b, .e8, .p32]
    let most (ew : Nat) : Nat := min (c.groupBytes / 2 ^ ew) (max 1 (capOf c * 4 / 2 ^ ew))
    let tg := Tag.ofCode t.toNat
    let ew := if tg.bytes = 1 then 0 else if tg.bytes = 2 then 1 else if tg.bytes = 4 then 2 else 3
    let B := 8 * 2 ^ k.toNat
    let need := (avl + B - 1) / B
    let nb := min need (max 1 (most ew / B))
    let bad := 6 ≤ k.toNat ∨ t = 0 ∨ c.groupBytes / tg.bytes < B
    c.ganged = false →
      (foldable → grants (.setvl d a w) w.toNat (min avl (most w.toNat)) 0) ∧
      (foldable → ¬ bad → grants (.setvlB d a k t) ew (nb * B) (if nb = need then nb * B - avl else 0)) ∧
      (Settled s f →
        (¬ foldable → exec (.setvl d a w) s = .next (stopped s f .tag)) ∧
        (bad → exec (.setvlB d a k t) s = .next (stopped s f .operand)) ∧
        (¬ foldable → ¬ bad → exec (.setvlB d a k t) s = .next (stopped s f .tag)))

/-- R202 to R204, R162, R163. `count` is what stands against w[n] in the live-view directory; where no grant and no change of VTYPE is queued it is the accesses of
the external queue and the element groups left of the queued vector accesses, the oldest from VSTART. A walk of the descriptor's address reads
the tables (R488). That a `vfetch` in the queue counts as an access through every scratchpad view is the model's choice (log entry 96), as is that `vwret`
waits for no held write of a stream (log entry 102). -/
def Obligations.ViewsLoadRetireAndReport : Prop :=
  ∀ (s : State) (f : Nat) (n m : BitVec 4) (d a : BitVec 5) (k : BitVec 3) (v : Line) (A : Nat) (l : Loc),
    let c := s.ctx f
    let fixed := n = 0 ∨ n = 15
    let x : Line := BitVec.ofNat 512 (s.load l 64)
    let named (x : Via) : Bool := decide (x.reg = n.toNat) && x.drain.isNone
    let count := State.viewCount c n.toNat
    let start (j : Nat) (e : VqEntry) : Nat := if e.begun then e.start else if (c.vq.take j).all (·.done) then c.vstart else 0
    let left (j : Nat) : Nat :=
      match c.vq[j]? with
      | some e => if (e.via.map named).getD false && !e.done then State.groupsBetween (c.groupOf e) (start j e) c.reals else 0
      | none => 0
    let walked := if View.space v = 2 then s.noteWalk (s.partOf f) A else s
    let set (c' : Ctx) : State := next walked f { c' with views := c.views.setIfInBounds n.toNat (some x) }
    ((∀ e ∈ c.vq, opOf e.word ≠ 0x1E ∧ e.granted = false) →
      count = min 4095 ((c.xq.filter fun e => named e.via).length + ((List.range c.vq.length).map left).sum)) ∧
    (Ready s f [a.toNat] → f < 2304 →
      (fixed → Settled s f → exec (.vwset n a m) s = .next (stopped s f .operand)) ∧
      (¬ fixed → c.view false m.toNat = none → Settled s f →
        exec (.vwset n a m) s = .next (stopped s f (.access 0))) ∧
      (¬ fixed → c.view false m.toNat = some v → ExternalBounds v (c.s a.toNat) 64 A →
        s.locate f v A 64 .read = .ok l → A % 64 = 0 → InOrder s f m true → s.xqMeets f v = false → s.locBusy l = false → reachable s l 64 →
        s.watched f v A 64 true false = false →
        (View.valid s.pkg x = false → Settled s f →
          exec (.vwset n a m) s = .next (stopped s f { cause := 0x02, faddr := A % 2 ^ 64 })) ∧
        (View.valid s.pkg x = true →
          (count = 0 → exec (.vwset n a m) s = .next (set c)) ∧
          (count ≠ 0 → s.freeDraining (millOf f) = none → exec (.vwset n a m) s = .next (waiting s f .draining)) ∧
          ∀ k, count ≠ 0 → s.freeDraining (millOf f) = some k →
            let moved (x : Via) : Via := if named x then { x with drain := some k } else x
            exec (.vwset n a m) s = .next (set { c with
              xq := c.xq.map fun e => { e with via := moved e.via }, vq := c.vq.map fun e => { e with via := e.via.map moved } })))) ∧
    (Ready s f [] → f < 2304 →
      let open' := (∃ e ∈ c.xq, e.via.reg = n.toNat) ∨ (∃ e ∈ c.vq, e.done = false ∧ ∃ x, e.via = some x ∧ x.reg = n.toNat) ∨
        (c.fetching = true ∧ ∃ u, c.view false n.toNat = some u ∧ View.space u ≤ 1)
      (fixed → Settled s f → exec (.vwret n) s = .next (stopped s f .operand)) ∧
      (¬ fixed → s.orderHeld f n.toNat true = true →
        exec (.vwret n) s = .next (waiting s f (.order n.toNat true))) ∧
      (¬ fixed → s.orderHeld f n.toNat true = false →
        (open' → exec (.vwret n) s = .next (waiting s f (.views n.toNat))) ∧
        (¬ open' → exec (.vwret n) s = .next (next s f { c with views := c.views.setIfInBounds n.toNat none })))) ∧
    (Ready s f [d.toNat] → f < 2304 →
      exec (.vwget d n k) s = .next (wrote s f d (
        match c.view false n.toNat with
        | none => 0
        | some u => if k.toNat ≤ 5 then BitVec.ofNat 64 (bitsAt u (64 * k.toNat) 64)
            else if k = 6 then BitVec.ofNat 64 (2 ^ 63 + count)
            else 0)))

/-- R206, R207. Key in [63:10], V in bit 1, P in bit 0; the set of key K is the sixteen slots from 16 × K[7:0]. That an
emptied entry's whole value is 0 is the model's choice (log entry 103). -/
def Obligations.TagTableActsOnOneSet : Prop :=
  ∀ (s : State) (f : Nat) (d a b : BitVec 5),
    let c := s.ctx f
    let m := millOf f
    let key := bitsAt (c.s a.toNat) 10 54
    let p := bitsAt (c.s a.toNat) 0 1
    let entry (u : State) (mill slot : Nat) : Dword := u.tags.getD (mill * 4096 + slot) 0
    let holds (v : Dword) : Prop := bitsAt v 0 2 ≠ 0 ∧ bitsAt v 10 54 = key
    let changes (i : Instr) (old : Dword) (after : Nat → Dword) : Prop :=
      ∃ ts, exec i s = .next (next { s with tags := ts } f (c.setS d.toNat old)) ∧
        ∀ j, ts.getD j 0 = if m * 4096 ≤ j ∧ j < (m + 1) * 4096 then after (j - m * 4096) else s.tags.getD j 0
    (Ready s f [d.toNat, a.toNat] → f < 2304 →
      ∃ v, exec (.tlook d a) s = .next (wrote s f d v) ∧
        ((v = -1 ∧ ∀ i < 16, ¬ holds (entry s m (16 * (key % 256) + i))) ∨
          ∃ i < 16, holds (entry s m (16 * (key % 256) + i)) ∧
            (∀ j < i, ¬ holds (entry s m (16 * (key % 256) + j))) ∧
            v = if bitAt (entry s m (16 * (key % 256) + i)) 0 then -2 else BitVec.ofNat 64 (16 * (key % 256) + i))) ∧
    (ThreadReady s f [d.toNat, a.toNat, b.toNat] →
      let slot := (c.s b.toNat).toNat
      if 4096 ≤ slot ∨ slot / 16 ≠ key % 256 then c.quiet = true → exec (.tset d a b) s = .next (stopped s f .operand)
      else if p = 0 ∧ s.released f = false then exec (.tset d a b) s = .next (waiting s f .release)
      else changes (.tset d a b) (entry s m slot) fun j =>
        if j = slot then BitVec.ofNat 64 (key * 1024 + if p = 0 then 2 else 1)
        else if j / 16 = key % 256 ∧ bitsAt (entry s m j) 0 2 ≠ 0 ∧ bitsAt (entry s m j) 10 54 = key then 0 else entry s m j) ∧
    (ThreadReady s f [d.toNat, a.toNat] →
      let slot := (c.s a.toNat).toNat
      if 4096 ≤ slot then c.quiet = true → exec (.tinv d a) s = .next (stopped s f .operand)
      else changes (.tinv d a) (entry s m slot) fun j => if j = slot then 0 else entry s m j)

/-- R379 to R382. A tile's rows are 512 bytes; its mode is MCFG.TMODE of the bay's matrix control core (R46, R51). -/
def Obligations.TileSlicesMoveLines : Prop :=
  ∀ (s : State) (f : Nat) (d : BitVec 6) (t : BitVec 2) (ax : BitVec 1) (a : BitVec 5) (p : BitVec 4),
    let c := s.ctx f
    let m := millOf f
    let mode := bitsAt (s.ctx (2304 + bayOf f)).mcfg (8 + 2 * t.toNat) 2
    let eb := if mode = 0 then 4 else 8
    let L := if ax = 0 ∧ mode ≠ 0 then 64 else 128
    let NL := if ax = 1 ∧ mode ≠ 0 then 64 else 128
    let nl := 2 ^ bitsAt c.vtype 13 2
    let line := (c.s a.toNat).toNat
    let cell (i : Nat) : Nat :=
      if ax = 0 then 512 * (line + i / L) + eb * (i % L) else 512 * (i % L) + eb * (line + i / L)
    let tile := (s.mill m).tiles.toList.getD t.toNat 0
    let cc := (s.mill m).carries.toList.getD t.toNat 0
    let moved := (performed c p.toNat).filter fun i => decide (i < nl * L)
    let pairs := (performed c p.toNat).filter fun i => decide (i < 64)
    HasStrip c → GroupsOk c [d.toNat] → c.tileen.getLsbD t.toNat = true →
    (VectorReady s f [a.toNat, 0, 0] → line + nl ≤ NL →
      ((c.tagOf d).bytes = eb →
        WritesGroup s f (.mtv d t ax a p) d p (fun i =>
          (if i < nl * L then sliceBytes tile (cell i) eb else c.bits d.toNat i, 0)) ∧
        ∃ T, exec (.mvt d t ax a p) s = .next (vnext (s.modMill m fun x => { x with tiles := x.tiles.setIfInBounds t.toNat T }) f (.mvt d t ax a p) c) ∧
          (∀ i ∈ moved, sliceBytes T (cell i) eb = c.elem d.toNat eb i) ∧
          ∀ j < 65536, (∀ i ∈ moved, j < cell i ∨ cell i + eb ≤ j) → sliceBytes T j 1 = sliceBytes tile j 1) ∧
      ((c.tagOf d).bytes ≠ eb → c.vstart < min c.reals (nl * L) →
        FaultsAt s f (.mtv d t ax a p) .tag c.vstart ∧ FaultsAt s f (.mvt d t ax a p) .tag c.vstart)) ∧
    (VectorReady s f [a.toNat, 0, 0] → NL < line + nl →
      MeetsTrap s f (.mtv d t ax a p) .operand ∧ MeetsTrap s f (.mvt d t ax a p) .operand) ∧
    (VectorReady s f [0, 0, 0] → (c.tagOf d).bytes = 8 →
      WritesGroup s f (.mtvc d t 0 p) d p (fun i => (if i < 64 then bitsAt cc (64 * i) 64 else c.bits d.toNat i, 0)) ∧
      ∃ C, exec (.mtvc d t 1 p) s = .next (vnext (s.modMill m fun x => { x with carries := x.carries.setIfInBounds t.toNat C }) f (.mtvc d t 1 p) c) ∧
        ∀ i < 64, bitsAt C (64 * i) 64 = if i ∈ pairs then c.elem d.toNat 8 i else bitsAt cc (64 * i) 64) ∧
    (VectorReady s f [0, 0, 0] → (c.tagOf d).bytes ≠ 8 → Settled s f →
      exec (.mtvc d t ax p) s = .next (stopped s f .tag)) ∧
    ∀ u : BitVec 2, c.tileen.getLsbD u.toNat = false → Settled s f →
      (VectorReady s f [a.toNat, 0, 0] →
        exec (.mtv d u ax a p) s = .next (stopped s f .tile) ∧ exec (.mvt d u ax a p) s = .next (stopped s f .tile)) ∧
      (VectorReady s f [0, 0, 0] → (c.tagOf d).bytes = 8 → exec (.mtvc d u ax p) s = .next (stopped s f .tile))

/-! ### Groups, forks, control registers, stops, streams and element blocks -/

/-- R259 to R264, and R274 for the turn that `yield` gives up. That the child of a `forkl` keeps the CAP of the context it is started in is the model's choice
(log entry 52). -/
def Obligations.GroupsForksAndThreadNumbers : Prop :=
  ∀ (s : State) (f : Nat) (d a : BitVec 5), Inv s →
    let c := s.ctx f
    let g := (c.s a.toNat).toNat
    let part := s.partOf f
    let ms := s.groupMembers part g
    let opens (i : Instr) (t : Trap) : Prop := c.quiet = true → exec i s = .next (stopped s f t)
    let onward (m : Nat) : Ctx := { s.ctx m with arrived := none }.retire ((s.ctx m).pc + 4)
    -- every one of the eight completes: the next word follows, and one more instruction has retired
    let goes (i : Instr) : Prop := ∃ t, exec i s = .next t ∧ (t.ctx f).pc = c.pc + 4 ∧ (t.ctx f).instret = c.instret + 1
    (ThreadReady s f [d.toNat, a.toNat] → g < 256 → g ∉ c.groups → c.groups.length < 4 → goes (.gjoin d a)) ∧
    (ThreadReady s f [a.toNat] → g < 256 → g ∈ c.groups → c.groups.Nodup → goes (.gleave a)) ∧
    (ThreadReady s f [a.toNat] → g < 256 → g ∈ c.groups → s.released f = true → (∀ m ∈ ms, m ≠ f → (s.ctx m).arrived = some g) →
      goes (.gbar a)) ∧
    (ThreadReady s f [d.toNat, a.toNat] → g % 4 = 0 → c.life = .running → s.released f = true → goes (.forkl d a)) ∧
    (ThreadReady s f [a.toNat] → g ≠ 0 → (∃ w, (g, w) ∈ c.children) → g ∈ c.exited → goes (.joinl a)) ∧
    (Ready s f [] → f < 2304 → goes .yield) ∧
    (Ready s f [d.toNat] → f < 2304 → goes (.tid d)) ∧
    (Ready s f [d.toNat, a.toNat] → f < 2304 → g < 256 → goes (.gsize d a)) ∧
    (ThreadReady s f [d.toNat, a.toNat] →
      (256 ≤ g ∨ g ∈ c.groups ∨ 4 ≤ c.groups.length → opens (.gjoin d a) .operand) ∧
      (g < 256 → g ∉ c.groups → c.groups.length < 4 →
        exec (.gjoin d a) s = .next (next s f ({ c with groups := c.groups ++ [g] }.setS d.toNat (BitVec.ofNat 64 (ms.length + 1))))) ∧
      (g % 4 ≠ 0 → opens (.forkl d a) (.align g)) ∧
      (g % 4 = 0 → (c.share = 1 ∨ (c.pinned = true ∧ c.pincap = 0) ∨ s.freeIn (millOf f) = none) →
        exec (.forkl d a) s = .next (wrote s f d 0)) ∧
      ∀ k, c.life = .running → g % 4 = 0 → c.share ≠ 1 → ¬ (c.pinned = true ∧ c.pincap = 0) → s.freeIn (millOf f) = some k → s.released f = true →
        let cap := if c.pinned then c.pincap - 1 else c.pincap
        let child : Ctx :=
          { Ctx.reset with
            life := .running, sregs := (c.setS d.toNat 0).sregs, pc := g, launch := c.launch, code := c.code, frm := c.frm,
            vtype := c.vtype, vlmax := c.vlmax, vcarry := c.vcarry, vfoldop := c.vfoldop, vtag := c.vtag, pinned := c.pinned,
            pincap := cap, cap := (s.ctx k).cap, detm := c.detm, share := c.share / 2, rngkey0 := c.rngkey0,
            rngkey1 := c.rngkey1, tileen := c.tileen, launchid := c.launchid, lindex := c.lindex, views := c.views,
            splice := c.splice, parent := f + 1 }
        exec (.forkl d a) s = .next (next (s.setCtx k child) f
          ({ c with share := c.share - c.share / 2, pincap := cap, children := c.children ++ [(k + 1, c.share / 2)] }.setS d.toNat
            (BitVec.ofNat 64 (k + 1))))) ∧
    (Ready s f [d.toNat, a.toNat] → f < 2304 →
      exec (.gsize d a) s = .next (if 256 ≤ g then s.trapHere f .operand else wrote s f d (BitVec.ofNat 64 ms.length))) ∧
    (Ready s f [d.toNat] → f < 2304 → exec (.tid d) s = .next (wrote s f d (BitVec.ofNat 64 f))) ∧
    (Ready s f [] → f < 2304 →
      let m := s.mill (millOf f)
      exec .yield s = .next (if m.pointer = f % 16 then
          (next s f { c with deficit := 0 }).setMill (millOf f) { m with pointer := (f + 1) % 16, fresh := true }
        else next s f { c with deficit := 0 })) ∧
    (ThreadReady s f [a.toNat] →
      (256 ≤ g ∨ g ∉ c.groups → opens (.gleave a) .operand ∧ opens (.gbar a) .operand) ∧
      (g < 256 → g ∈ c.groups → c.groups.Nodup → ms.Nodup →
        (s.released f = false → exec (.gbar a) s = .next (waiting s f .release)) ∧
        (s.released f = true → ((∃ m ∈ ms, m ≠ f ∧ (s.ctx m).arrived ≠ some g) →
            exec (.gbar a) s = .next (s.setCtx f { c with arrived := some g, wait := some .gbar })) ∧
          ((∀ m ∈ ms, m ≠ f → (s.ctx m).arrived = some g) →
            ∃ ag, exec (.gbar a) s = .next { s with agents := ag } ∧
              ∀ m, State.ctx { s with agents := ag } m = if m ∈ ms then onward m else s.ctx m)) ∧
        ∃ ag, exec (.gleave a) s = .next { s with agents := ag } ∧
          ∀ m, State.ctx { s with agents := ag } m =
            if m = f then { c with groups := c.groups.erase g }.retire (c.pc + 4)
            else if m ∈ ms ∧ ∀ k ∈ ms, k ≠ f → (s.ctx k).arrived = some g then onward m else s.ctx m) ∧
      (g ≠ 0 → (∀ w, (g, w) ∉ c.children) → opens (.joinl a) .operand) ∧
      ∀ w, g ≠ 0 → (c.children.find? fun e => decide (e.1 = g)) = some (g, w) →
        exec (.joinl a) s = .next (
          if g ∈ c.exited then
            next s f { c with
              share := c.share + w, pincap := if c.pinned then c.pincap + 1 else c.pincap,
              children := c.children.erase (g, w), exited := c.exited.erase g }
          else waiting s f (.joinl g)))

/-- R35 to R42, R50 to R52, R54, R120. `held` lists the registers with their values and what a write of v makes of the context. -/
def Obligations.ControlRegistersReadAndWrite : Prop :=
  ∀ (s : State) (f : Nat) (d a : BitVec 5) (k : BitVec 12),
    let c := s.ctx f
    let n (x : Nat) : Dword := BitVec.ofNat 64 x
    let mill := s.mill (millOf f)
    let fixed (_v : Dword) (c' : Ctx) : Prop := c' = c
    let both : List (Nat × Dword × (Dword → Ctx → Prop)) :=
      [(0x000, c.fflags.setWidth 64, fun v c' => c' = { c with fflags := v.setWidth 5 }),
       (0x001, c.frm.setWidth 64, fun v c' => c' = if bitsAt v 0 3 ≤ 4 then { c with frm := v.setWidth 3 } else c),
       (0x060, mill.cycle, fixed), (0x061, s.gtime, fixed), (0x062, c.instret, fixed),
       (0x070, n (s.pkg * 2 ^ 16 + bayOf f / 9 * 2 ^ 10 + bayOf f % 9 * 2 ^ 6 + if f < 2304 then f % 64 else 0), fixed)]
    let threads : List (Nat × Dword × (Dword → Ctx → Prop)) :=
      [(0x010, c.vtype, fun v c' =>
          if 4 ≤ bitsAt v 9 4 ∧ bitsAt v 9 4 ≤ 9 ∧ bitsAt v 6 3 ≤ 4 then
            Reconfigured c c' (bitsAt v 13 2) (bitsAt v 9 4) (bitsAt v 6 3) (bitsAt v 2 2)
          else c' = c),
       (0x011, n c.vl, fixed), (0x012, n c.vlmax, fixed), (0x013, n c.vstart, fun v c' => c' = { c with vstart := bitsAt v 0 17 }),
       (0x014, n c.vff, fixed), (0x015, n c.vpad, fixed),
       (0x016, c.vcarry.setWidth 64, fun v c' => c' = { c with vcarry := v.setWidth 32 }),
       (0x017, c.vfoldop, fun v c' => c' = { c with vfoldop := v }),
       (0x018, n (bitsAt c.vtag 0 64), fun v c' => c' = { c with vtag := setBits c.vtag 0 64 v.toNat }),
       (0x019, n (bitsAt c.vtag 64 64), fun v c' => c' = { c with vtag := setBits c.vtag 64 64 v.toNat }),
       (0x01A, n (bitsAt c.vtag 128 64), fun v c' => c' = { c with vtag := setBits c.vtag 128 64 v.toNat }),
       (0x01B, n (bitsAt c.vtag 192 64), fun v c' => c' = { c with vtag := setBits c.vtag 192 64 v.toNat }),
       (0x020, n (b2n c.pinned * 2 ^ 36 + b2n (!c.replay.isEmpty) * 2 ^ 35 + c.pincap % 8 * 2 ^ 32 + c.cap % 2 ^ 17), fixed),
       (0x021, c.detm.setWidth 64, fixed),
       (0x022, n (mill.lgmask.toNat + 2 ^ 16 * ((List.range 16).filter fun i => bitAt mill.lgmask i).length), fixed),
       (0x023, n c.share, fixed), (0x024, n (c.replay.headD 0 * 2 ^ 16 + c.replay.length), fixed),
       (0x030, c.rngkey0, fun v c' => c' = { c with rngkey0 := v }), (0x031, c.rngkey1, fun v c' => c' = { c with rngkey1 := v }),
       (0x040, c.acarry, fun v c' => c' = { c with acarry := v }),
       (0x041, c.xqin.setWidth 64, fun v c' => c' = { c with xqin := v.setWidth 33 }),
       (0x042, c.xqout.setWidth 64, fun v c' => c' = { c with xqout := v.setWidth 33 }),
       (0x050, c.tileen.setWidth 64, fixed),
       (0x071, if c.splice = [] then c.launchid.setWidth 64 else n (s.origin c c.pc).2.2, fixed), (0x072, c.lindex.setWidth 64, fixed)]
    let mcfgOk (v : Dword) : Bool :=
      decide (bitsAt v 8 2 ≠ 3 ∧ bitsAt v 10 2 ≠ 3 ∧ bitsAt v 12 2 ≠ 3 ∧ bitsAt v 14 2 ≠ 3 ∧ bitsAt v 4 3 ≤ 4 ∧ 4 ≤ bitsAt v 0 4 ∧
        bitsAt v 0 4 ≤ 9)
    let cores : List (Nat × Dword × (Dword → Ctx → Prop)) :=
      [(0x080, c.mcfg, fun v c' => ∃ m : Dword, c' = (if mcfgOk v then { c with mcfg := m } else c) ∧
        bitsAt m 0 4 = bitsAt v 0 4 ∧ bitsAt m 4 3 = bitsAt v 4 3 ∧ bitAt m 7 = bitAt c.mcfg 7 ∧ bitsAt m 8 8 = bitsAt v 8 8 ∧
          bitsAt m 16 48 = bitsAt c.mcfg 16 48)]
    let held := both ++ if f < 2304 then threads else cores
    let plain (c' : Ctx) (old : Dword) : Host.Outcome State Fault Refusal := .next (next s f (c'.setS d.toNat old))
    (Ready s f [d.toNat, a.toNat] → c.quiet = true → (k = 0x080 → s.matIdle f = true) → ∀ e ∈ held, e.1 = k.toNat →
      let x := c.s a.toNat
      (∃ c', e.2.2 x c' ∧ exec (.csrw d a k) s = plain c' e.2.1) ∧
      (∃ c', e.2.2 (e.2.1 ||| x) c' ∧ exec (.csrs d a k) s = plain c' e.2.1) ∧
      (∃ c', e.2.2 (e.2.1 &&& ~~~x) c' ∧ exec (.csrc d a k) s = plain c' e.2.1)) ∧
    (Ready s f [d.toNat, 0] → c.quiet = true → ∀ e ∈ held, e.1 = k.toNat → exec (.csrr d k) s = plain c e.2.1) ∧
    (Settled s f → (∀ e ∈ held, e.1 ≠ k.toNat) →
      (Ready s f [d.toNat, 0] → exec (.csrr d k) s = .next (stopped s f .illegal)) ∧
      (Ready s f [d.toNat, a.toNat] → ∀ i ∈ [Instr.csrw d a k, .csrs d a k, .csrc d a k], exec i s = .next (stopped s f .illegal)))

/-- R121 to R124, R254, R264, and R492 for the source that `brk` gives in DBGSTAT. A context that ends is in no launch, group or gang; that it keeps its registers,
its vector file and its flags is the model's choice (log entry 66: R123 is silent). -/
def Obligations.StopsSleepsAndEnds : Prop :=
  ∀ (s : State) (f : Nat) (a : BitVec 5) (k : BitVec 12),
    let c := s.ctx f
    let ends (i : Instr) (code : Nat) : Prop :=
      ∃ t, exec i s = .next t ∧
        t.ctx f = Ctx.emptied ({ c with exitCode := code }.retire c.pc) ∧
        (t.ctx f).life = .free ∧ (t.ctx f).sregs = c.sregs ∧ (t.ctx f).slice = c.slice ∧ (t.ctx f).fflags = c.fflags ∧
        (t.ctx f).exitCode = code ∧ (t.ctx f).groups = [] ∧ (∀ n < 16, 0 < n → n < 15 → (t.ctx f).view false n = none) ∧
        (∀ l, s.launchOf c.launch = some l → ∃ l', t.launchOf c.launch = some l' ∧ l'.exit = max l.exit code) ∧
        (∀ p, c.parent = p + 1 → p < 65535 → p ≠ f → (s.ctx p).groups = [] → (∀ q < 8, s.streamReg p q = none) →
          (∀ q < 8, ∀ r, s.streamReg f q = some r → r.owner ≠ p) →
          t.ctx p = { s.ctx p with exited := (s.ctx p).exited ++ [f + 1] }) ∧
        t.dev = s.dev ∧ t.host = s.host ∧ t.peer = s.peer ∧ t.scr = s.scr ∧ t.regs = s.regs
    (Ready s f [] → Settled s f →
      exec (.trap k) s = .next (s.stopContext f { cause := 0x0C } c.pc c.vstart k.toNat false) ∧
      (c.matErr = none →
        exec (.brk k) s = .next (((s.setCtx f { c with dbgstat := 16 }).stopContext f { cause := 0x0D } c.pc c.vstart k.toNat false).modCtx f
          fun c => { c with debugReq := 0, convoyHead := 0, convoyCount := 0 }))) ∧
    (Ready s f [a.toNat] →
      let v := c.s a.toNat + k.setWidth 64
      exec (.sleep a k) s = .next (if v ≤ s.gtime then next s f c else waiting s f (.sleep v))) ∧
    (Ready s f [] →
      (s.released f = false → exec (.halt k) s = .next (waiting s f .release)) ∧
      (s.released f = true →
        (∀ x rest, c.xfail = x :: rest →
          exec (.halt k) s = .next ((s.setCtx f { c with xfail := rest }).trapHere f (.access x.addr))) ∧
        (c.xfail = [] → c.matErr = none → (∀ e ∈ c.children, e.1 ∈ c.exited) → ends (.halt k) k.toNat) ∧
        (c.xfail = [] → c.matErr = none → (∃ e ∈ c.children, e.1 ∉ c.exited) →
          exec (.halt k) s = .next (waiting s f (.joinl 0))))) ∧
    (ThreadReady s f [a.toNat] → c.s a.toNat = 0 →
      (c.quiet = true → c.parent = 0 ∨ 65536 ≤ c.parent ∨ c.children ≠ [] → exec (.joinl a) s = .next (stopped s f .operand)) ∧
      (c.parent ≠ 0 → c.parent < 65536 → c.children = [] → s.released f = true → c.xfail = [] → ends (.joinl a) 0))

/-- R217, R232 to R234. `holdStart` marks the accesses that the start of a stream waits for (R173), and the walks of its pages have read the tables (R488). The
model's choices: FADDR is 0 for a view of another space (log entry 90); a member of a gang that is not whole again after a restore may not bind
(log entry 47); `sqwait` counts once the transfers before it have completed (log entry 126); and one who joins where a member has left takes the
rank of its TID among those present and counts its `setvl` from theirs (log entry 127). -/
def Obligations.StreamsAndGangsBindAndCount : Prop :=
  ∀ (s : State) (f : Nat) (q : BitVec 3) (w : BitVec 4) (p : BitVec 5) (d a b : BitVec 5),
    let c := s.ctx f
    let qn := q.toNat
    let part := s.partOf f
    let line := s.port (millOf f) p.toNat
    let opens (i : Instr) (t : Trap) : Prop := c.quiet = true → exec i s = .next (stopped s f t)
    let binds (i : Instr) (write gang : Bool) (who : List Nat) : Prop :=
      ((∃ g ∈ who, (s.streamReg g qn).isSome = true) → opens i .stream) ∧
      ((∀ g ∈ who, s.streamReg g qn = none) →
        (c.view false w.toNat = none → opens i (.access 0)) ∧
        ∀ v, c.view false w.toNat = some v →
          (View.space v = 1 → opens i (.access 0)) ∧
          ∀ ps, View.space v ≠ 1 → s.pagesOf part (if write then .write else .read) v = .ok ps →
            let pages := ps.map fun x => (x.page, x.size)
            (512 < ps.length ∨ s.pinLimit part (dieOf f) < ps.length → opens i .stream) ∧
            (ps.length ≤ 512 → ps.length ≤ s.pinLimit part (dieOf f) →
              (4 ≤ line.length → exec i s = .next (waiting s f (.port p.toNat))) ∧
              (line.length < 4 → s.pinRoom part (dieOf f) pages = false → exec i s = .next (waiting s f (.pin pages))) ∧
              (line.length < 4 → s.pinRoom part (dieOf f) pages = true →
                let pins := s.pins ++ ps.map fun x => { x with holder := .stream f qn, die := dieOf f }
                let line' := line ++ [⟨f, qn, v, write, gang, false, none, 0, [], [], s.earlierWrites f v, View.device v || ps.any (·.device), 0⟩]
                let mill : Mill := { s.mill (millOf f) with ports := (s.mill (millOf f)).ports.put p.toNat line' }
                let walked := (ps.foldl (fun t x => t.noteWalk x.part x.page) s).walked
                let marked := s.holdStart f qn v
                (∀ (j : Nat) (e : XqEntry), c.xq[j]? = some e → (marked.ctx f).xq[j]? =
                  some (if View.meet (millOf f % 4) (millOf f % 4) e.via.desc v then { e with holds := e.holds ++ [qn] } else e)) ∧
                ∃ ag, exec i s = .next { s with agents := ag, pins := pins, walked := walked, mills := s.mills.put (millOf f) mill } ∧
                  ∀ g, State.ctx { s with agents := ag } g =
                    let r := some ⟨f, p.toNat, v, write, gang, 0⟩
                    let cg := if g ∈ who then { marked.ctx g with streams := (s.ctx g).streams.setIfInBounds qn r } else marked.ctx g
                    if g = f then cg.retire (c.pc + 4) else cg)))
    (ThreadReady s f [] →
      binds (.strmR q w p) false false [f] ∧ binds (.strmW q w p) true false [f] ∧
      (if c.ganged = true ∧ c.lone = false then binds (.strmRg q w p) false true ((s.gangOf f).filter (· < 65536))
       else opens (.strmRg q w p) .operand) ∧
      (s.streamReg f qn = none → exec (.sunb q) s = .next (next s f c)) ∧
      -- behind a transfer of the stream that has not completed `sunb` waits, and `sqwait` too
      (s.streamReg f qn ≠ none → State.transferQueued c qn = true → exec (.sunb q) s = .next (waiting s f (.unbind qn))) ∧
      (∀ r x, s.streamReg f qn = some r → State.transferQueued c qn = false → s.bindingOf r qn = some x →
        (x.pend ≠ [] ∨ (r.gang = true ∧ s.readingNow r qn f = true) → exec (.sunb q) s = .next (waiting s f (.unbind qn))) ∧
        (x.pend = [] → (r.gang = true → s.readingNow r qn f = false) →
          ∃ t, exec (.sunb q) s = .next t ∧ (∀ g ∈ s.readers r qn, t.streamReg g qn = none) ∧
            t.port (millOf r.owner) r.port = ((s.port (millOf r.owner) r.port).filter fun y => !Binding.isOf y r qn).map (fun y =>
              if y.flat = r.owner then { y with after := y.after.filter (· ≠ qn) } else y) ∧
            t.pins = s.pins.filter (fun y => y.holder ≠ .stream r.owner qn) ∧ (t.ctx f).pc = c.pc + 4 ∧
            t.dev = s.dev ∧ t.host = s.host ∧ t.peer = s.peer ∧ t.scr = s.scr ∧ t.regs = s.regs)) ∧
      (if c.lone = true then opens .ungang .operand
       else if ∃ r ∈ c.streams.toList, r.any (·.gang) = true then opens .ungang .stream
       else exec .ungang s = .next (next s f { c with gang := none }))) ∧
    (Ready s f [d.toNat, b.toNat] → f < 2304 →
      let t := (c.s b.toNat).toNat
      (s.streamReg f qn = none → opens (.sqwait d q b) .stream) ∧
      (State.transferQueued c qn = true → exec (.sqwait d q b) s = .next (waiting s f (.streamCount qn t))) ∧
      ∀ r x, s.streamReg f qn = some r → State.transferQueued c qn = false → s.bindingOf r qn = some x →
        let n := if r.write then x.pend.length else x.base + x.buf.length - r.next
        let left := View.count r.desc - r.next
        let holds := if r.write then n ≤ t else t ≤ n ∨ (left < t ∧ n = left)
        exec (.sqwait d q b) s = .next (
          if holds then wrote s f d (BitVec.ofNat 64 n) else waiting s f (.streamCount qn t))) ∧
    (ThreadReady s f [d.toNat, a.toNat, b.toNat] → c.gang = none →
      let number := (c.s a.toNat).toNat
      let count := (c.s b.toNat).toNat
      let ms := s.gangMembers (bayOf f) number
      let fits (m : Nat) : Prop := ∀ stated nreg, s.memberTerms m = some (stated, nreg) → stated = count ∧ ms.length < stated ∧ nreg = c.nreg
      let pushed := ms.foldl (fun n m => max n (((s.ctx m).gang.map (·.pushes)).getD 0)) 0
      let ok := number < 16 ∧ 1 ≤ count ∧ count ≤ 4 ∧ ∀ m ∈ ms, fits m
      (¬ ok → opens (.gang d a b) .operand) ∧
      (ok → ms.length + 1 < count →
        exec (.gang d a b) s = .next (s.setCtx f { c with gang := some ⟨number, count, 0, false, d.toNat, none, false, 0, []⟩, wait := some .gang })) ∧
      (ok → ms.length + 1 = count → bayOf f < 36 →
        ∃ ag, exec (.gang d a b) s = .next { s with agents := ag } ∧
          ∀ m, State.ctx { s with agents := ag } m =
            if (m ∈ ms ∧ m < 65536 ∧ (s.ctx m).ganged = false) ∨ m = f then
              let cm := if m = f then { c with gang := some ⟨number, count, 0, false, d.toNat, none, false, 0, []⟩ } else s.ctx m
              let rank := ((ms ++ [f]).filter fun k => decide (k < m)).length
              let dest := (cm.gang.map (·.dest)).getD 0
              let seated : Ctx := { cm with gang := cm.gang.map fun g => { g with rank := rank, inside := true, pushes := pushed } }
              (seated.setS dest (BitVec.ofNat 64 rank)).retire (cm.pc + 4)
            else s.ctx m))

/-- R196 to R198, on a binding of the context's own at whose base the next index stands; of a device-class stream, none of the elements has
performed before (R182), and no stack that an element stands in is still to be ready (R481). Of the mills nothing but the binding and, as for every
vector instruction, the arbiter's pointer and the count of `vnext` changes. -/
def Obligations.StreamTransfersConsumeIndices : Prop :=
  ∀ (s : State) (f : Nat) (d : BitVec 6) (q : BitVec 3) (x : BitVec 5) (p : BitVec 4), VectorReady s f [x.toNat, 0, 0] →
    let c := s.ctx f
    let qn := q.toNat
    HasStrip c → GroupsOk c [d.toNat] →
    (s.streamReg f qn = none →
      MeetsTrap s f (.vsrd d q x p) .stream ∧ MeetsTrap s f (.vswr d q x p) .stream) ∧
    ∀ (r : StreamReg) (b : Binding), s.streamReg f qn = some r → s.bindingOf r qn = some b → r.gang = false → r.owner = f →
      (MeetsTrap s f (if r.write then .vsrd d q x p else .vswr d q x p) .stream) ∧
      let z := View.size r.desc
      ((c.tagOf d).bytes ≠ z → MeetsTrap s f (if r.write then .vswr d q x p else .vsrd d q x p) .tag) ∧
      let first := r.next + if c.vstart = 0 then (c.s x.toNat).toNat else 0
      let index (i : Nat) : Nat := first + (i - c.vstart)
      let after : Ctx := { c with streams := c.streams.setIfInBounds qn (some { r with next := index (max c.reals c.vstart) }) }
      (c.tagOf d).bytes = z → b.desc = r.desc → b.base = r.next → index c.reals ≤ View.count r.desc → c.vstart ≤ c.reals →
      let queued := s.port (millOf f) r.port
      -- of the mills, the binding alone changes, as `y` says
      let onlyBinding (ms : List (Nat × Mill)) (y : Binding → Prop) : Prop := ∃ line' : List Binding,
        ms = s.mills.put (millOf f) { s.mill (millOf f) with ports := (s.mill (millOf f)).ports.put r.port line' } ∧ line'.length = queued.length ∧
          (∀ (j : Nat) (x : Binding), queued[j]? = some x → Binding.isOf x r qn = false → line'[j]? = some x) ∧ ∃ b', line'.find? (fun x => Binding.isOf x r qn) = some b' ∧ y b'
      let moved (b' : Binding) : Prop := ∃ base buf top, b' = { b with base := base, buf := buf, top := top }
      (r.write = false → b.write = false → b.started = true → 0 < Binding.room b → (b.device = true → b.top ≤ b.base + b.buf.length) → ∀ loc : Nat → Loc,
        (∀ j, first ≤ j → j < index c.reals → s.streamLoc b j = .ok (loc j)) →
        (∀ j, b.base + b.buf.length ≤ j → j < index c.reals → s.elementBusy b j = false) →
        (∃ i, c.vstart ≤ i ∧ i < c.reals) →
        ∃ sl ms, exec (.vsrd d q x p) s = .next (vnext { s with mills := ms } f (.vsrd d q x p) { after with slice := sl }) ∧ onlyBinding ms moved ∧
          GroupWritten c sl d.toNat z p.toNat fun i =>
            if index i < b.base + b.buf.length then b.buf.getD (index i - b.base) 0 else s.load (loc (index i)) z) ∧
      (r.write = true → b.write = true → (b.device = true → b.top ≤ r.next) → (∃ i, c.vstart ≤ i ∧ i < c.reals) → ∀ loc : Nat → Loc,
        (b.started = true → b.pend = [] →
          (∀ i ∈ performed c p.toNat,
            let u := ((performed c p.toNat).filter (· < i)).foldl (fun u k => u.store (loc (index k)) z (c.elem d.toNat z k)) s
            u.streamLoc b (index i) = .ok (loc (index i)) ∧ u.locBusy (loc (index i)) = false) →
          ∃ ms, onlyBinding ms moved ∧ exec (.vswr d q x p) s = .next (vnext
            { (performed c p.toNat).foldl (fun u i => u.store (loc (index i)) z (c.elem d.toNat z i)) s with mills := ms } f (.vswr d q x p) after)) ∧
        (b.started = false → (∀ i ∈ performed c p.toNat, s.streamLoc b (index i) = .ok (loc (index i))) →
          ∃ ms, exec (.vswr d q x p) s = .next (vnext { s with mills := ms } f (.vswr d q x p) after) ∧
            onlyBinding ms fun b' => moved { b' with pend := b.pend } ∧
              b'.pend = b.pend ++ (performed c p.toNat).map fun i => (index i, c.elem d.toNat z i)))


/-- R265 to R269. `ms` is the issue group, of any number of members, which executes once it has received its slots (log entry 63 says which elements one slot
holds, by VTYPE.EW where an instruction names no register); each member's record is changed by `u` and nothing else of the context. -/
def Obligations.ElementBlocksRunTheirThreads : Prop :=
  ∀ (s : State) (f : Nat) (k : BitVec 6) (p : BitVec 4) (o a : BitVec 6),
    let c := s.ctx f
    (VectorReady s f (List.range 32) →
      (c.code.nblk ≤ k.toNat → Settled s f → exec (.vfetch k p) s = .next (stopped s f .operand)) ∧
      (k.toNat < c.code.nblk → HasStrip c →
        (performed c p.toNat = [] → c.reverted = false → exec (.vfetch k p) s = .next (vnext s f (.vfetch k p) c)) ∧
        (performed c p.toNat ≠ [] →
          ∃ t b, exec (.vfetch k p) s = .next t ∧ (t.ctx f).blocks = some b ∧ b.pc = c.pc ∧ b.sregs = c.sregs ∧ b.views = c.views ∧
            b.threads = (performed c p.toNat).map (fun e => ⟨e, 128 * k.toNat, true, none⟩) ∧
            (t.ctx f).pc = c.pc + 4 ∧ (t.ctx f).slice = c.slice ∧ (t.ctx f).sregs = c.sregs ∧
            (∀ g, g ≠ f → t.ctx g = s.ctx g) ∧ t.dev = s.dev ∧ t.scr = s.scr ∧ t.regs = s.regs))) ∧
    (∀ (b : Blocks) (off : Nat) (ms : List EThread), s.cur = .group f → c.blocks = some b → s.issueGroup f b = (off, ms) →
      (b.threads.map (·.elem)).Pairwise (· < ·) →
      let moved (u : EThread → EThread) : Ctx :=
        { c with slotted := 0, blocks := some { b with threads := b.threads.map fun t => if t ∈ ms then u t else t } }
      -- the slots of the issue group, for elements of w bytes, and the course of one that has not received them all
      let slots (w : Nat) : Nat := (ms.map fun t => t.elem / (256 / w)).eraseDups.length
      let course (i : Instr) (w : Nat) (r : Ctx) : Prop :=
        exec i s = .next (s.setCtx f (if c.slotted + 1 < slots w then { c with slotted := c.slotted + 1 } else r))
      let zero (e : Nat) : Bool := match (c.tagOf a).read (c.bits a.toNat e) with
        | .int n => n = 0
        | .flt x => x.isZero
      let branch (i : Instr) (onZero : Bool) : Prop :=
        c.groupOk a.toNat = true → (c.tagOf a).isNum = true → c.tagOf a ≠ .d8b → 0 ≤ (off : Int) + o.toInt * 4 →
        ((off : Int) + o.toInt * 4) / 128 = off / 128 → off % 128 ≠ 124 →
          course i (c.tagOf a).bytes (moved fun t =>
            { t with off := if zero t.elem = onZero then ((off : Int) + o.toInt * 4).toNat else off + 4 })
      (k.toNat < c.code.nblk → course (.efetch k) c.eb (moved fun t => { t with off := 128 * k.toNat })) ∧
      course .eend c.eb (moved fun t => { t with live := false }) ∧
      branch (.ebz o a) true ∧ branch (.ebnz o a) false ∧
      (c.groupOk a.toNat = true → c.tagOf a ≠ .none → (c.tagOf a).bytes ≤ 4 → off % 128 ≠ 124 →
        let w := (c.tagOf a).bytes
        let v (t : EThread) : Nat := c.bits a.toNat t.elem
        let last (t : EThread) : Bool := b.threads.all fun x => decide (x.elem ≤ t.elem)
        let before (t : EThread) : Option EThread := (b.threads.filter fun x => decide (x.elem < t.elem)).getLast?
        -- each member sends to the thread behind it, the last thread into XQOUT
        ((∀ t ∈ ms, last t = false → t.link = none) →
          course (.xqsend a) w
            { moved (fun t => { t with off := off + 4, link := if last t then t.link else some (BitVec.ofNat 32 (v t)) }) with
              xqout := match ms.find? last with
                | some t => BitVec.ofNat 33 (2 ^ 32 + v t)
                | none => c.xqout }) ∧
        -- and receives from the one before it, the first from XQIN
        let got (t : EThread) : Option Nat := match before t with
          | none => if c.xqin.getLsbD 32 then some (bitsAt c.xqin 0 32) else none
          | some y => y.link.map (·.toNat)
        ((∀ t ∈ ms, (got t).isSome = true) →
          let threads := b.threads.map fun x =>
            { x with off := if x ∈ ms then off + 4 else x.off, link := if ms.any fun t => decide (before t = some x) then none else x.link }
          let ahead : Ctx :=
            { c with slotted := 0, blocks := some { b with threads := threads }
                     xqin := if ms.any fun t => decide (before t = none) then BitVec.ofNat 33 (bitsAt c.xqin 0 32) else c.xqin }
          course (.xqrecv a) w (ms.foldl (fun r t => r.setElem a.toNat w t.elem ((got t).getD 0)) ahead)))) ∧
    (∀ i ∈ [Instr.efetch k, .ebz o a, .ebnz o a, .eend, .xqsend a, .xqrecv a],
      s.cur = .agent f → c.late = none → Settled s f → exec i s = .next (stopped s f .illegal))

/-! ### Matrix instructions and arrays -/

/-- R359, R362 to R375. `obeys` is the course that all queued members share. An operand of size 0 passes the range check wherever it begins (log entry 26, the model's
choice), and a raise waits for the operations and the accesses queued before it (R374). -/
def Obligations.MatrixInstructionsCheckAndQueue : Prop :=
  ∀ (s : State) (f : Nat) (t : BitVec 2) (m : BitVec 4) (o : BitVec 5) (y : BitVec 3) (z u : BitVec 1) (k : BitVec 6),
    let c := s.ctx f
    let n := t.toNat
    let off := (c.s o.toNat).toNat
    let low := bitsAt (c.s o.toNat) 0 9
    let kp := bitsAt (c.s o.toNat) 16 9
    let tmode := bitsAt c.mcfg (8 + 2 * n) 2
    let as := (List.range 4).filter fun a => m.getLsbD a
    let queue (a : Nat) : List MatOp := (s.mill (millOf f + a)).queue
    let some' (p : Issue → Prop) : Prop := ∃ a ∈ as, p (c.issueOf a)
    let obeys (i : Instr) (own : Prop) (tile : Bool) (size : Option (Issue → Nat)) (kind : MatKind) (upd : Issue → Issue) : Prop :=
      let past (x : Issue) : Prop := ∃ w, size = some w ∧ w x ≠ 0 ∧ 0x400000 < off + w x
      let opens (x : Trap) : Prop := Settled s f → exec i s = .next (stopped s f x)
      (m = 0 ∨ own → opens .operand) ∧
      (m ≠ 0 → ¬ own →
        (tile = true → c.mcfg.getLsbD (16 + n) = false → opens .tile) ∧
        ((tile = true → c.mcfg.getLsbD (16 + n) = true) →
          (size ≠ none → off % 64 ≠ 0 → opens (.align off)) ∧
          ((size ≠ none → off % 64 = 0) → some' past → opens (.access off)) ∧
          ((size ≠ none → off % 64 = 0) → ¬ some' past →
            ((∃ a ∈ as, 16 ≤ (queue a).length) → exec i s = .next (waiting s f (.arrays as))) ∧
            ((∀ a ∈ as, (queue a).length < 16) →
              ∃ ms is ns, exec i s = .next (next { s with mills := ms } f { c with issue := is, issued := ns }) ∧
                (∀ g, State.mill { s with mills := ms } g =
                  if ∃ a ∈ as, g = millOf f + a then
                    { s.mill g with queue := (s.mill g).queue ++ [⟨kind, RM.ofCode (bitsAt c.mcfg 4 3), bitsAt c.mcfg 0 4⟩] }
                  else s.mill g) ∧
                ∀ a < 4, is.toList.getD a Issue.reset = (if a ∈ as then upd (c.issueOf a) else c.issueOf a) ∧
                  ns.toList.getD a 0 = (if a ∈ as then c.issued.toList.getD a 0 + 1 else c.issued.toList.getD a 0)))))
    (Ready s f [o.toNat] → 2304 ≤ f → f < 2340 →
      obeys (.mzero t m z) False true none (.zero n (z = 1)) id ∧
      obeys (.mldw m o y) (5 ≤ y.toNat) false (some fun _ => 32768) (.loadPlane off y.toNat) (fun x => { x with shadow := y.toNat }) ∧
      obeys (.mswap m) False false none .swap (fun x => { x with active := x.shadow, shadow := x.active }) ∧
      obeys (.mma t m o z) (tmode = 2 ∨ some' fun x => x.active = 4) true (some fun x => x.m * 256) (.mma n off (z = 1)) id ∧
      obeys (.mmaF64 t m o z) (tmode ≠ 2 ∨ some' fun x => x.active ≠ 4) true (some fun x => x.m * 512) (.mma64 n off (z = 1)) id ∧
      obeys (.mscan t m z u) (tmode ≠ 1) true none (.scan n (z = 1) (u = 1)) id ∧
      obeys (.mcld t m o) False true (some fun _ => 512) (.carryIn n off) id ∧
      obeys (.mcst t m o) False true (some fun _ => 512) (.carryOut n off) id ∧
      obeys (.mst t m o) False true (some fun x => x.m * 512) (.tileOut n off) id ∧
      obeys (.mld t m o) False true (some fun x => x.m * 512) (.tileIn n off) id ∧
      obeys (.mrow m o) (128 < low ∨ 256 < kp) false none (.rows low kp) (fun x => { x with m := low, kp := kp }) ∧
      obeys (.mcol m o) (128 < low) false none (.cols low) (fun x => { x with nc := low }) ∧
      exec (.mten m) s = .next (next s f { c with mcfg := setBits c.mcfg 16 4 m.toNat }) ∧
      (let v := c.s o.toNat
       let bad : Prop := (∃ a < 4, bitsAt v (8 + 2 * a) 2 = 3) ∨ 4 < bitsAt v 4 3 ∨ bitsAt v 0 4 < 4 ∨ 9 < bitsAt v 0 4
       (bad → Settled s f → exec (.mcfg o) s = .next (stopped s f .operand)) ∧
       (¬ bad → s.matIdle f = false → exec (.mcfg o) s = .next (waiting s f .earlier)) ∧
       (¬ bad → s.matIdle f = true → ∃ g, exec (.mcfg o) s = .next (next s f { c with mcfg := g }) ∧ bitsAt g 0 4 = bitsAt v 0 4 ∧
         bitsAt g 4 3 = bitsAt v 4 3 ∧ bitAt g 7 = bitAt c.mcfg 7 ∧ bitsAt g 8 8 = bitsAt v 8 8 ∧ bitsAt g 16 48 = bitsAt c.mcfg 16 48)) ∧
      (320 ≤ off → Settled s f → exec (.msig o k) s = .next (stopped s f .operand)) ∧
      (off < 320 → c.matErr = none →
        exec (.msig o k) s = .next (next s f { c with raises := c.raises ++ [⟨c.issued.toList, c.xq.length, off, k.toNat⟩] })) ∧
      (∀ a, c.matErr = some a → off < 320 → Settled s f →
        exec (.msig o k) s = .next ((s.setCtx f { c with matErr := none }).stopContext f (.access a) c.pc c.vstart 0 false))) ∧
    (Ready s f [o.toNat, o.toNat + 1] → 2304 ≤ f → f < 2340 →
      let v := c.s (o.toNat + 1)
      let now := s.counter (bayOf f) (s.partOf f) off
      (o.toNat % 2 = 1 ∨ 320 ≤ off → Settled s f → exec (.mwait o) s = .next (stopped s f .operand)) ∧
      (o.toNat % 2 = 0 → off < 320 → c.matErr = none →
        (v ≤ now → exec (.mwait o) s = .next (next s f c)) ∧
        (now < v → exec (.mwait o) s = .next (waiting s f (.counter off v))))) ∧
    ∀ i ∈ [Instr.mten m, .mzero t m z, .mldw m o y, .mswap m, .mma t m o z, .mmaF64 t m o z, .mscan t m z u, .mcld t m o, .mcst t m o,
        .mst t m o, .mld t m o, .mrow m o, .mcol m o, .msig o k, .mwait o, .mcfg o],
      s.cur = .agent f → f < 2304 → c.late = none → Settled s f → exec i s = .next (stopped s f .illegal)

/-- R360, R366 to R374, R376, R377 for the elements of a tile that the operation has updated by turns of their own (`drawn`, with the results of a
column of `mscan` in `scans`), and R161 for an operation through view 0 with an access of its core still queued; `x.xq` counts the accesses that a raise
still waits for. The model's choices: the block sum of `mma.f64` rounds to nearest even (log entry 27), and an error drops the operations behind it, with the raises
that wait for them (log entry 28). -/
def Obligations.ArraysCarryOutTheirOperations : Prop :=
  ∀ (s : State) (g : Nat) (op : MatOp) (rest : List MatOp), (s.mill g).queue = op :: rest → (s.mill g).rowsM ≤ 128 → (s.mill g).nc ≤ 128 →
    let m := s.mill g
    let core := 2304 + g / 4
    let own (a n : Nat) : Nat := s.scr.read (g / 4 * 0x1000000 + g % 4 * 0x400000 + a) n
    let ends (m' : Mill) (scr : Mem) : Prop := ∃ fl : Flags, exec (.matrixOpComplete g none) s = .next
      ((({ s with scr := scr }.setMill g { m' with queue := rest, drawn := [], scans := [], completed := m.completed + 1, samples := m.samples + 1 })).modCtx core
        fun c => { c with fflags := c.fflags ||| fl })
    let tileOf (m' : Mill) (n : Nat) : BitVec 524288 := m'.tiles.toList.getD n 0
    let carryOf (m' : Mill) (n : Nat) : BitVec 4096 := m'.carries.toList.getD n 0
    let onlyTile (t : Nat) (p : BitVec 524288 → Prop) : Prop := ∃ v, p v ∧ ends { m with tiles := m.tiles.setIfInBounds t v } s.scr
    let scratch (off n v : Nat) : Prop := ends m (s.scr.write (g / 4 * 0x1000000 + g % 4 * 0x400000 + off) n v)
    let planeTag' : Nat → Tag := fun ty => [Tag.bf16, .d8, .i8, .n8].getD ty .f64
    let rowBytes : Nat → Nat := fun ty => [256, 128, 128, 128].getD ty 512
    let planeRows : Nat → Nat := fun ty => [128, 256, 256, 256].getD ty 64
    let ty := bitsAt m.planes 0 3
    let kt := if m.kp = 0 then planeRows ty else min m.kp (planeRows ty)
    let value (n : Nat) : FVal := ((planeTag' ty).read n).flt?
    let at' (eb : Nat) (w : BitVec 524288) (row col : Nat) : Nat := sliceBytes w (512 * row + eb * col) eb
    let width (t : Nat) : Nat := if bitsAt (s.ctx core).mcfg (8 + 2 * t) 2 = 0 then 4 else 8
    -- one element of an mma: the K-blocks in ascending order onto what the element holds
    let cell (t off : Nat) (z : Bool) (F : Fmt) (round : FVal → Nat) (part : FVal × FVal → ℚ → Prop) (down : Bool) (row col v : Nat) : Prop :=
      let eb := (F.ebits + F.fbits + 1) / 8
      let old := at' eb (tileOf m t) row col
      let pair (k : Nat) : FVal × FVal :=
        let b := (planeTag' ty).bytes
        (value (own (off + eb * 64 * row + b * k) b), value (bitsAt m.active (8 * (rowBytes ty * k + b * col)) (8 * b)))
      ∃ (x : Nat → FVal) (e : FVal × FVal → ℚ), (∀ p, part p (e p)) ∧
        (∀ blk < (kt + 15) / 16, BlockSum ((List.range (min 16 (kt - 16 * blk))).map fun j => pair (16 * blk + j)) e down (x blk)) ∧
        v = (accumulate F op.rm (fun blk => round (x blk)) (if z then none else some old) ((kt + 15) / 16)).getD old
    let mmaCell (t off : Nat) (z : Bool) : Nat → Nat → Nat → Prop := cell t off z .f32 (fun x => (Fmt.f32.roundTo op.rm x).1)
      (fun p e => isFinite p.1 = true → isFinite p.2 = true → e = ratOf p.1 * ratOf p.2) (op.rm = .down)
    let mma64Cell (t off : Nat) (z : Bool) : Nat → Nat → Nat → Prop := cell t off z .f64 (fun x => (Fmt.f64.roundTo .nearestEven x).1)
      (fun p e => isFinite p.1 = true → isFinite p.2 = true → EstimateOf op.slices p e) false
    -- at completion, every element of the operation that has not had its turn
    let draws (t eb rows cols : Nat) (is : Nat → Nat → Nat → Prop) : Prop := onlyTile t fun v => ∀ row < 128, ∀ col < 512 / eb,
      if row < rows ∧ col < cols ∧ (row, col) ∉ m.drawn then is row col (at' eb v row col) else at' eb v row col = at' eb (tileOf m t) row col
    -- a turn of one element
    let turn (t eb rows cols : Nat) (is : Nat → Nat → Nat → Prop) : Prop :=
      ∀ row < rows, ∀ col < cols, (row, col) ∉ m.drawn → ∀ ag, g < 144 → s.agenda = .element g row col :: ag →
        ∃ (v : BitVec 524288) (fl : Flags), step s = .next
          (({ s with agenda := ag }.setMill g { m with tiles := m.tiles.setIfInBounds t v, drawn := (row, col) :: m.drawn }).modCtx core
            fun c => { c with fflags := c.fflags ||| fl }) ∧
          is row col (at' eb v row col) ∧
          ∀ r < 128, ∀ k < 512 / eb, (r, k) ≠ (row, col) → at' eb v r k = at' eb (tileOf m t) r k
    (op.kind.memory = true → s.xqMeets core View.bay0 = true → ∀ fail, exec (.matrixOpComplete g fail) s = .next s) ∧
    ((op.kind.memory = true → s.xqMeets core View.bay0 = false) →
     (∀ row, s.struckRow g op = some row → exec (.matrixOpComplete g none) s = exec (.matrixOpComplete g (some row)) s) ∧
     (s.struckRow g op = none → ∀ t < 4, ∀ off,
      (op.kind = .zero t false → let eb := width t
        draws t eb 128 128 (fun _ _ v => v = 0) ∧ turn t eb 128 (512 / eb) (fun _ _ v => v = 0)) ∧
      (op.kind = .zero t true → ∃ v : BitVec 4096, (∀ k < 64, bitsAt v (64 * k) 64 = 0x3F80000000000000) ∧
        ends { m with carries := m.carries.setIfInBounds t v } s.scr) ∧
      (∀ w < 5, op.kind = .loadPlane off w →
        ends { m with shadow := BitVec.ofNat 262144 (own off 32768), planes := setBits m.planes 4 3 w } s.scr) ∧
      (op.kind = .swap → ∃ p, bitsAt p 0 3 = bitsAt m.planes 4 3 ∧ bitsAt p 4 3 = bitsAt m.planes 0 3 ∧ bitAt p 3 = bitAt m.planes 3 ∧
        bitsAt p 7 57 = bitsAt m.planes 7 57 ∧ ends { m with active := m.shadow, shadow := m.active, planes := p } s.scr) ∧
      (∀ z, ty < 4 → op.kind = .mma t off z →
        draws t 4 m.rowsM m.nc (mmaCell t off z) ∧ turn t 4 m.rowsM m.nc (mmaCell t off z)) ∧
      (∀ z, ty = 4 → op.kind = .mma64 t off z →
        draws t 8 m.rowsM (min m.nc 64) (mma64Cell t off z) ∧ turn t 8 m.rowsM (min m.nc 64) (mma64Cell t off z)) ∧
      (∀ cout cin, op.kind = .scan t cout cin → ∃ v cs,
        ends { m with tiles := m.tiles.setIfInBounds t v, carries := m.carries.setIfInBounds t cs } s.scr ∧
        let op' (l r : Nat) : Nat × Flags := compose op.rm (r / 2 ^ 32) (r % 2 ^ 32) (l / 2 ^ 32) (l % 2 ^ 32)
        -- what a turn of the column has computed, or the tree over the pairs as they stand
        let result (row col : Nat) : Nat := match Assoc.find m.scans col with
          | some rs => rs.getD row 0
          | none =>
            let tree := ((plainTree op' (fun r => some (at' 8 (tileOf m t) r col)) (row + 1)).1).getD 0
            if cin then (op' (bitsAt (carryOf m t) (64 * col) 64) tree).1 else tree
        ∀ col < 64,
          (∀ row < 128, at' 8 v row col =
            if row < m.rowsM ∧ 2 * col < m.nc ∧ (row, col) ∉ m.drawn then result row col else at' 8 (tileOf m t) row col) ∧
          bitsAt cs (64 * col) 64 =
            if cout = true ∧ 2 * col < m.nc ∧ 0 < m.rowsM then result (m.rowsM - 1) col else bitsAt (carryOf m t) (64 * col) 64) ∧
      (op.kind = .carryIn t off → ends { m with carries := m.carries.setIfInBounds t (BitVec.ofNat 4096 (own off 512)) } s.scr) ∧
      (op.kind = .carryOut t off → scratch off 512 (carryOf m t).toNat) ∧
      (op.kind = .tileOut t off → scratch off (512 * m.rowsM) (sliceBytes (tileOf m t) 0 (512 * m.rowsM))) ∧
      (op.kind = .tileIn t off → let eb := width t
        let loaded (row col v : Nat) : Prop := v = own (off + 512 * row + eb * col) eb
        draws t eb m.rowsM 128 loaded ∧ turn t eb m.rowsM (512 / eb) loaded)) ∧
     (∀ r k, r ≤ 128 → k ≤ 256 → op.kind = .rows r k → ∃ p : Dword, bitsAt p 0 9 = r ∧ bitsAt p 9 7 = 0 ∧ bitsAt p 16 9 = k ∧
      bitsAt p 25 39 = 0 ∧ ends { m with rowpred := p } s.scr) ∧
     (∀ n, n ≤ 128 → op.kind = .cols n → ends { m with colpred := BitVec.ofNat 64 n } s.scr) ∧
     (∀ t < 4, ∀ off row, op.kind = .tileIn t off → ∃ v u, exec (.matrixOpComplete g (some row)) s = .next u ∧
      (∀ r < 128, ∀ k < 512 / width t, at' (width t) v r k =
        if r < m.rowsM ∧ r < row ∧ (r, k) ∉ m.drawn then own (off + 512 * r + width t * k) (width t) else at' (width t) (tileOf m t) r k) ∧
      u.mill g = { m with
        tiles := m.tiles.setIfInBounds t v, queue := [], drawn := [], scans := [], completed := m.completed + 1 + rest.length, samples := m.samples + 1 } ∧
      (u.ctx core).matErr = (s.ctx core).matErr.or (some (off + 512 * row)) ∧
      (u.ctx core).raises = ((s.ctx core).raises.filter fun x => x.after.getD (g % 4) 0 ≤ m.completed) ∧ u.scr = s.scr)) ∧
    (∀ x more, (s.ctx core).raises = x :: more →
      let due : Prop := x.xq = 0 ∧ ∀ a < 4, x.after.getD a 0 ≤ (s.mill (g / 4 * 4 + a)).completed
      (¬ due → exec (.msigRaise core) s = .next s) ∧
      (due → exec (.msigRaise core) s = .next ((s.raise (g / 4) (s.partOf core) x.counter x.inc).setCtx core
        { s.ctx core with raises := more })))

/-! ### Commands of a queue -/

/-- R423 to R426, R433, R435, and R428 for the command boundary behind each; an address in a mapped slot window reaches that slot's registers (R436).
That a misaligned address fails with FCODE 4 whatever its translation would give is the model's choice (log entry 33). -/
def Obligations.QueueCommandsComputeAndBranch : Prop :=
  ∀ (s : State) (die slot : Nat) (a b : BitVec 4) (imm : BitVec 16) (n : BitVec 6) (lit : BitVec 64), s.cur = .queue die slot →
    let q := s.queue die slot
    let x := creg q a
    let y := creg q b
    let sets (i : Instr) (len : Nat) (v : Dword) : Prop := exec i s = .next (commandDone s die slot (setCreg q a v) len)
    let fails (i : Instr) (code : Nat) (g : Bool) : Prop := exec i s = .next (s.faultQueue die slot code g)
    let at' := (y + imm.signExtend 64).toNat
    let code (t : Trap) : Nat := if t.cause = 5 then 2 else 3
    let goes (i : Instr) (q' : Queue) : Prop :=
      let t : Int := (q.pos % 65520 : Nat) + imm.toInt * 4
      (q.stack ≠ [] → exec i s = .next (commandJumps s die slot { q' with pc := (BitVec.ofNat 64 q.pc + imm.signExtend 64 * 4).toNat })) ∧
      (q.stack = [] → q.atLink = true ∨ t < 0 ∨ 65520 ≤ t → fails i 7 false) ∧
      (q.stack = [] → q.atLink = false → 0 ≤ t → t < 65520 →
        exec i s = .next (commandJumps s die slot { q' with pos := q.pos - q.pos % 65520 + t.toNat }))
    let branch (i : Instr) (taken : Prop) : Prop := (¬ taken → exec i s = .next (commandDone s die slot q 4)) ∧ (taken → goes i q)
    exec .cmdNop s = .next (commandDone s die slot q 4) ∧
    sets (.cmdLi a imm) 4 (imm.signExtend 64) ∧ sets (.cmdLil a lit) 12 lit ∧ sets (.cmdAddi a b imm) 4 (y + imm.signExtend 64) ∧
    sets (.cmdAdd a b) 4 (x + y) ∧ sets (.cmdSub a b) 4 (x - y) ∧ sets (.cmdAnd a b) 4 (x &&& y) ∧ sets (.cmdOr a b) 4 (x ||| y) ∧
    sets (.cmdShli a b n) 4 (y <<< n.toNat) ∧
    (at' % 8 ≠ 0 → fails (.cmdLd a b imm) 4 false ∧ fails (.cmdSt a b imm) 4 false) ∧
    (at' % 8 = 0 →
      (∀ t, s.translate q.part at' .read = .error t → fails (.cmdLd a b imm) (code t) t.stage2) ∧
      (∀ p, s.translate q.part at' .read = .ok p →
        let l := locOf p.phys p.dev
        let u := (s.noteWalk q.part at').popped l
        (s.locBusy l = true → exec (.cmdLd a b imm) s = .next (commandWaits s die slot q)) ∧
        (s.locBusy l = false → exec (.cmdLd a b imm) s =
          .next (commandDone u die slot (setCreg (u.queue die slot) a (BitVec.ofNat 64 (s.load l 8))) 4))) ∧
      (∀ t, s.translate q.part at' .write = .error t → fails (.cmdSt a b imm) (code t) t.stage2) ∧
      ∀ p, s.translate q.part at' .write = .ok p →
        (s.codePage q.part p.phys = true → fails (.cmdSt a b imm) 3 false) ∧
        (s.codePage q.part p.phys = false →
          let l := locOf p.phys p.dev
          let u := (s.noteWalk q.part at').store l 8 x.toNat
          (s.locBusy l = true → exec (.cmdSt a b imm) s = .next (commandWaits s die slot q)) ∧
          (s.locBusy l = false → exec (.cmdSt a b imm) s = .next (commandDone u die slot (u.queue die slot) 4)))) ∧
    branch (.cmdBeq a b imm) (x = y) ∧ branch (.cmdBne a b imm) (x ≠ y) ∧ branch (.cmdBlt a b imm) (x.toInt < y.toInt) ∧
    (let left := if a = 0 then (0 : Dword) else x - 1
     (left = 0 → sets (.cmdLoop a imm) 4 left) ∧ (left ≠ 0 → goes (.cmdLoop a imm) (setCreg q a left))) ∧
    (4 ≤ q.stack.length → fails (.cmdCall lit) 6 false) ∧
    (q.stack.length < 4 → lit.toNat % 4 ≠ 0 → fails (.cmdCall lit) 4 false) ∧
    (q.stack.length < 4 → lit.toNat % 4 = 0 →
      let from' := if q.stack = [] then { passed q 12 with issued := q.issued } else q
      exec (.cmdCall lit) s = .next (commandJumps s die slot
        { from' with stack := q.stack ++ [commandAddr q + 12], pc := lit.toNat })) ∧
    (q.stack = [] → fails .cmdRet 6 false) ∧
    (∀ r p, q.stack = r ++ [p] → exec .cmdRet s = .next (commandJumps s die slot { q with stack := r, pc := p })) ∧
    (q.stack ≠ [] ∨ q.atLink = false → fails (.cmdLink lit) 7 false) ∧
    (q.stack = [] → q.atLink = true →
      let old := q.segment.getD 0
      let q1 := { q with
        segment := some lit.toNat, atLink := false, issued := q.issued + 1, ovf := q.ovf || decide (64 ≤ q.free.length),
        free := if 64 ≤ q.free.length then q.free else q.free ++ [old] }
      exec (.cmdLink lit) s = .next ((((s.setQueue die slot q1).writeBlock die slot 48 q.pos).settleDone die slot).boundary die slot)) ∧
    ∀ u : State, let z := u.queue die slot; let d := z.openCmds.foldl min z.issued
      (z.live = true → z.done < d → (u.settleDone die slot).queue die slot = { z with done := d } ∧
        ∀ p, u.translate z.part ((u.reg (.queue die slot) 0x08).toNat + 56) .write = .ok p → u.codePage z.part p.phys = false →
          u.struck (.dev p.phys p.dev) 8 = false → (u.settleDone die slot).dev = u.dev.write p.phys 8 d) ∧
      (u.boundary die slot).queue die slot =
        { atBoundary z with running := z.running && !(z.hold || z.toStop) } ∧
      (z.running = false ∨ (z.hold = false ∧ z.toStop = false) → u.boundary die slot = u.setQueue die slot (atBoundary z))

/-- R223, R238, R424, R427. The model's choices: that a write of NEXT that meets a fault is dropped (log entry 101), the order of the failures (33), that
a card's page must be writable and hold no running launch's code (16), and that `splice` waits for words not yet published (36). -/
def Obligations.CommandsSynchroniseAndAppendCards : Prop :=
  ∀ (s : State) (die slot : Nat) (a b k : BitVec 4) (c : BitVec 9) (n : BitVec 6) (d e g : BitVec 5),
    let q := s.queue die slot
    let y := creg q b
    let fails (i : Instr) (code : Nat) (st : Bool) : Prop := exec i s = .next (s.faultQueue die slot code st)
    let both (code : Nat) : Prop := fails (.cmdWait b k c) code false ∧ fails (.cmdSignal b k c) code false
    let bay := if 64 ≤ c.toNat then 9 * die else 9 * die + k.toNat
    -- the card at `addr`, which stands at `phys`, is appended by `who` in the state `v`
    let appended (part die ch addr phys : Nat) (device : Bool) (who : Option Nat) (det : Bool) (v u : State) : Prop :=
      let w := Window.chain part die ch
      let tail := (s.reg w 0x18).toNat
      (locOf phys device = .dev phys device → ∃ s2 : State,
        (let s1 : State := { v with dev := v.dev.write phys 8 0 }
         (tail = 0 → s2 = s1) ∧
         (tail ≠ 0 →
          (∀ t, s1.translate part tail .write = .error t → s2 = s1) ∧
          ∀ x, s1.translate part tail .write = .ok x →
            s2 = if s1.codePage part x.phys || s1.struck (.dev x.phys x.dev) 8 then s1
              else { s1.noteWalk part tail with dev := s1.dev.write x.phys 8 addr })) ∧
        u = { s2 with regs := u.regs, appended := u.appended }) ∧
      u.reg w 0x18 = BitVec.ofNat 64 addr ∧ u.reg w 0x20 = s.reg w 0x20 + 1 ∧
      u.reg w 0x10 = (if s.reg w 0x10 = 0 then BitVec.ofNat 64 addr else s.reg w 0x10) ∧
      u.appended = s.appended ++ [⟨part, die, ch, addr, who, who, det, false⟩]
    (s.cur = .queue die slot →
      (320 ≤ c.toNat → both 8) ∧
      (64 ≤ c.toNat → c.toNat < 320 → k ≠ 0 → both 1) ∧
      (c.toNat < 64 → 8 < k.toNat ∨ s.ownerOf (9 * die + k.toNat) ≠ q.part → both 8) ∧
      ((64 ≤ c.toNat ∧ c.toNat < 320 ∧ k = 0) ∨ (c.toNat < 64 ∧ k.toNat ≤ 8 ∧ s.ownerOf (9 * die + k.toNat) = q.part) →
        let v := s.counter bay q.part c.toNat
        exec (.cmdWait b k c) s = .next (if y ≤ v then commandDone s die slot q 4 else commandWaits s die slot q) ∧
        ∃ cs, exec (.cmdSignal b k c) s = .next (commandDone { s with counters := cs } die slot q 4) ∧
          State.counter { s with counters := cs } bay q.part c.toNat = BitVec.ofNat 64 (min (2 ^ 64 - 1) (v.toNat + y.toNat))) ∧
      exec .cmdFence s = .next (if q.openCmds = [] then commandDone s die slot q 4 else commandWaits s die slot q) ∧
      (let refused : Prop := ∃ t : State, exec .cmdSplice s = .next (commandDone t die slot q 4) ∧
          t.reg (.splice q.part die) 0x18 = s.reg (.splice q.part die) 0x18 + 1 ∧
          t = { s with dev := t.dev, regs := t.regs, walked := t.walked, fresh := s.fresh + 1 }
       let after (p : Peeked) (launch : Prop) : Prop := match p with
         | .word u => if isLaunch u then launch else refused
         | .unpublished => exec .cmdSplice s = .next (commandWaits s die slot q)
         | .fault t => fails .cmdSplice (if t.cause = 5 then 2 else 3) t.stage2
         | .outside => exec .cmdSplice s = .next ((s.setQueue die slot { q with busy := false }).holdQueue die slot 2 none)
       after (peekCommand s die slot q 1) (after (peekCommand s die slot q 2)
         (exec .cmdSplice s = .next (commandDone s die slot { q with splicing := .armed } 4)))) ∧
      (let addr := y.toNat
       let i := Instr.cmdChapp a b n
       let off : Prop := bitAt (s.reg (.chain q.part die n.toNat) 0x00) 63 = false
       (addr % 64 ≠ 0 → fails i 4 false) ∧
       (addr % 64 = 0 →
         (∀ t, s.translate q.part addr .write = .error t → fails i (if t.cause = 5 then 2 else 3) t.stage2) ∧
         ∀ x, s.translate q.part addr .write = .ok x →
           (s.codePage q.part x.phys = true → fails i 3 false) ∧
           (s.codePage q.part x.phys = false → s.stackBusy x.phys = true → exec i s = .next (commandWaits s die slot q)) ∧
           (s.codePage q.part x.phys = false → s.stackBusy x.phys = false → off → fails i 8 false) ∧
           (s.codePage q.part x.phys = false → s.stackBusy x.phys = false → ¬ off →
             ∃ u, appended q.part die n.toNat addr x.phys x.dev none false (s.noteWalk q.part addr) u ∧
               exec i s = .next (commandDone u die slot
                 (setCreg (u.queue die slot) a (s.reg (.chain q.part die n.toNat) 0x20 + 1)) 4))))) ∧
    ∀ f, ThreadReady s f [d.toNat, e.toNat, g.toNat] →
      let x := s.ctx f
      let ch := (x.s e.toNat).toNat
      let addr := (x.s g.toNat).toNat
      let part := s.partOf f
      let i := Instr.chapp d e g
      let opensIn (u : State) (t : Trap) : Prop := x.quiet = true → exec i s = .next (stopped u f t)
      let opens (t : Trap) : Prop := opensIn s t
      let on := bitAt (s.reg (.chain part (dieOf f) ch) 0x00) 63
      let waits (u : State) : Prop := exec i s = .next (waiting u f .release)
      let free : State := { s with pins := s.pins.filter fun p => p.holder ≠ .append f }
      -- the atomic step, for a card that stands at `phys`: not in a page that has come to hold code meanwhile
      let appends (phys : Nat) (device : Bool) : Prop :=
        let code : Prop := locOf phys device = .dev phys device ∧ s.codePage part phys = true
        (code → opensIn free (.access addr)) ∧
        (¬ code → ∃ u, appended part (dieOf f) ch addr phys device (some f) (bitAt x.detm 0) free u ∧
          exec i s = .next (u.setCtx f ((x.setS d.toNat (s.reg (.chain part (dieOf f) ch) 0x20 + 1)).retire (x.pc + 4))))
      (64 ≤ ch → opens .operand) ∧
      (ch < 64 → addr % 64 ≠ 0 → opens (.align addr)) ∧
      -- at its first turn the card's page is translated and pinned
      (ch < 64 → addr % 64 = 0 → s.pinAt (.append f) addr = none →
        let walked := s.noteWalk part addr
        (∀ t, s.translate part addr .write = .error t → opensIn walked t) ∧
        ∀ p, s.translate part addr .write = .ok p →
          (s.codePage part p.phys = true → opensIn walked (.access addr)) ∧
          (s.codePage part p.phys = false →
            let size := if p.big then 2 ^ 30 else 65536
            let off := addr % size
            let pin : Pin := ⟨.append f, part, dieOf f, addr - off, size, p.ipa - off, p.phys - off, p.dev, p.tables, false⟩
            (s.pinRoom part (dieOf f) [(addr - off, size)] = false → exec i s = .next (waiting s f (.pin [(addr - off, size)]))) ∧
            (s.pinRoom part (dieOf f) [(addr - off, size)] = true →
              (on = false → opens (.access addr)) ∧
              (on = true → s.released f = false → waits { s.noteWalk part (addr - off) with pins := s.pins ++ [pin] }) ∧
              (on = true → s.released f = true → appends (p.phys - off + off) p.dev)))) ∧
      -- behind its wait it goes on with the page it holds pinned
      (ch < 64 → addr % 64 = 0 → ∀ p, s.pinAt (.append f) addr = some p →
        (s.released f = false → waits s) ∧
        (s.released f = true → on = false → opens (.access addr)) ∧
        (s.released f = true → on = true → appends (p.phys + (addr - p.page)) p.device))

/-- R56, R126, R127, R255, R430 to R433. The model's choices: how many epochs behind its actor a placement is (log entry 123), that a misaligned
descriptor fails before its checks (33), and that a started context keeps its CAP (52). -/
def Obligations.LaunchesAreRegisteredPlacedAndCompleted : Prop :=
  (∀ (s : State) (die slot : Nat) (a b : BitVec 4) (p : BitVec 3) (dep : BitVec 1), s.cur = .queue die slot →
    let q := s.queue die slot
    let addr := (creg q b).toNat
    let fails (i : Instr) (code : Nat) : Prop := exec i s = .next (s.faultQueue die slot code false)
    let id := die * 2 ^ 30 + slot * 2 ^ 24 + q.ordinal % 2 ^ 24
    let status := if a = 0 then none else some (creg q a).toNat
    let scr (d : Line) : Nat := (bitsAt d 0 64 + bitsAt d 256 32 + 63) / 64 * 64
    let code (d : Line) (m : Bool) : Code :=
      if m then ⟨bitsAt d 64 64, bitsAt d 288 32, 0, 0, 0⟩ else ⟨bitsAt d 0 64, bitsAt d 256 32, bitsAt d 128 64, bitsAt d 456 7, 0⟩
    -- the command's place in the order of commands, which its first turn takes (R430)
    let place := q.reachedAt.getD s.fresh
    let s0 : State := { s with fresh := if q.reachedAt.isSome then s.fresh else s.fresh + 1 }
    let q0 : Queue := { q with reachedAt := some place }
    let made (d : Line) (ps : List Byte) (m : Bool) (reached : Nat) (st : LaunchState) (next : Nat) : Launch :=
      ⟨id, q.part, die, slot, q.block, q.issued, d, addr, status, none, min p.toNat q.prio, reached, m, next, [], st, 0, 0, [], [], ps,
        (scr d, 64 * bitsAt d 489 16), [], code d m⟩
    (q.launching = none → q.splicing = .none →
      (descriptorBusy s q addr = true → exec (.cmdLaunch a b p dep) s = .next (commandWaits s0 die slot q0) ∧
        exec (.cmdLaunchm a b p dep) s = .next (commandWaits s0 die slot q0)) ∧
      (descriptorBusy s q addr = false →
      (addr % 64 ≠ 0 → fails (.cmdLaunch a b p dep) 4 ∧ fails (.cmdLaunchm a b p dep) 4) ∧
      (∀ bs m, addr % 64 = 0 → s.readVirtual q.part 2 addr 64 = .ok bs →
        let d : Line := BitVec.ofNat 512 (bs.foldr (fun x acc => x.toNat + 256 * acc) 0)
        let bays := (List.range 36).filter fun x => bitAt d (416 + x)
        let entry := if m then bitsAt d 352 32 else bitsAt d 320 32
        let len := if m then bitsAt d 288 32 else bitsAt d 256 32
        bitsAt d 505 7 ≠ 0 ∨ bitAt d 463 = true ∨ bitsAt d 478 4 = 0 ∨ 5 < bitsAt d 483 3 ∨ 3840 < bitsAt d 464 12 ∨
          (bitAt d 486 = true ∧ bitAt d 482 = false) ∨ bays = [] ∨ (∃ x ∈ bays, s.ownerOf x ≠ q.part) ∨ bitsAt d 452 4 = 0 ∨
          (m = true ∧ bitsAt d 64 64 = 0) ∨ 64 < bitsAt d 456 7 ∨ (bitsAt d 456 7 ≠ 0 ∧ bitsAt d 128 64 = 0) ∨ len ≤ entry ∨
          0x3FF000 < 64 * bitsAt d 489 16 →
        fails (if m then .cmdLaunchm a b p dep else .cmdLaunch a b p dep) 5) ∧
      ∀ d ps,
        (readDescriptor s q false addr = .ok (d, ps) →
          (dep = 1 → q.openCmds ≠ [] → exec (.cmdLaunch a b p dep) s = .next (commandWaits s0 die slot q0)) ∧
          (dep = 0 ∨ q.openCmds = [] →
            let s1 : State := { s0.noteWalk q.part addr with
              launches := s.launches.put (id + 1) (made d ps false place (if bitsAt d 384 32 = 0 then .placed else .waiting) 0) }
            exec (.cmdLaunch a b p dep) s =
              .next (commandWaits s1 die slot { q0 with launching := some (id + 1), ordinal := q.ordinal + 1, splicing := .none }))) ∧
        (readDescriptor s q true addr = .ok (d, ps) → (dep = 0 ∨ q.openCmds = []) →
          let bays := (List.range 36).filter fun x => bitAt d (416 + x)
          let free : Prop := s.holdState = 0 ∧ ∀ x ∈ bays, (s.ctx (2304 + x)).life = .free ∧ bitAt (s.reg .ready 0x00) x = true
          (¬ free → exec (.cmdLaunchm a b p dep) s = .next (commandWaits s0 die slot q0)) ∧
          (free → ∃ ag, let s1 : State :=
              { s0.noteWalk q.part addr with
                agents := ag, launches := s.launches.put (id + 1) (made d ps true place .placed (bitsAt d 384 32)) }
            exec (.cmdLaunchm a b p dep) s = .next (commandRuns s1 die slot { q0 with ordinal := q.ordinal + 1 } 4) ∧
            (∀ f, (∀ x ∈ bays, f ≠ 2304 + x) → s1.ctx f = s.ctx f) ∧
            ∀ i x, bays[i]? = some x →
              let c := s1.ctx (2304 + x)
              c.life = .running ∧ c.pc = bitsAt d 352 32 ∧ c.code = code d true ∧ c.launch = id + 1 ∧ c.launchid = BitVec.ofNat 32 id ∧
              c.mcfg = 8 ∧ ∀ r < 32, c.sregs.toList.getD r 0 =
                [0, 0xFFFFFFFFFFFFFFF0, 0x3C0000, BitVec.ofNat 64 i, BitVec.ofNat 64 bays.length, 0x100].getD r 0)))) ∧
    ∀ key, q.launching = some key →
      -- a launch that has ended: its command has completed, but that of a spliced pair's producer completes with the consumer's (R239)
      (s.launchOf key = none → q.splicing ≠ .joined →
        exec (.cmdLaunch a b p dep) s = .next (commandDone s0 die slot { q0 with launching := none } 4)) ∧
      (s.launchOf key = none → q.splicing = .joined →
        exec (.cmdLaunch a b p dep) s = .next (commandRuns s0 die slot { q0 with launching := none } 4)) ∧
      ∀ l, s.launchOf key = some l →
        (l.state = .waiting → exec (.cmdLaunch a b p dep) s = .next (commandWaits s0 die slot q0)) ∧
        (l.state = .placed → exec (.cmdLaunch a b p dep) s = .next (commandRuns s0 die slot { q0 with launching := none } 4))) ∧
  ∀ (s : State) (lid : Nat) (l : Launch), s.launchOf (lid + 1) = some l →
    let d := l.desc
    let epoch := bitsAt (s.reg (.lease s.leaseDie) 0x00) 32 32
    (∀ behind, behind ≠ 0 →
      exec (.launchPlaceRange (lid + behind * 2 ^ 32)) s = .next { s with answers := s.answers ++ [.refused epoch] }) ∧
    (∀ g, lid < 2 ^ 32 → l.state = .waiting → s.canPlace (lid + 1) l = true → l.redo = [] → l.next = 0 → Desc.mills d = [g] →
      let free := (millContexts g).filter fun f => (s.ctx f).life = .free
      let k := min free.length (bitsAt d 384 32)
      let page := g / 4 * 0x1000000 + g % 4 * 0x400000
      0 < k → s.asleep = false →
        ∃ t, exec (.launchPlaceRange lid) s = .next t ∧
          t.launchOf (lid + 1) = some { l with state := .placed, next := k, mills := [g] } ∧
          (∀ f, f ∉ free.take k → t.ctx f = s.ctx f) ∧
          (∀ i < k, t.ctx (free.getD i 0) =
            let f := free.getD i 0
            { Ctx.reset with
              life := .running, pc := bitsAt d 320 32, launch := lid + 1, code := l.code, vtype := setBits Ctx.reset.vtype 0 2 (bitsAt d 476 2),
              vlmax := 65536 / (8 * 2 ^ bitsAt d 476 2) / 4, pinned := bitAt d 482, pincap := bitsAt d 483 3, cap := (s.ctx f).cap,
              detm := BitVec.ofNat 2 (bitsAt d 486 2), share := bitsAt d 478 4, replay := (s.ctx f).replay,
              launchid := BitVec.ofNat 32 l.id, lindex := BitVec.ofNat 32 i, splice := l.splice,
              sregs := ((((Ctx.reset.sregs.set 1 0xFFFFFFFFFFFFFFF0).set 2 (BitVec.ofNat 64 (0x400000 - 0x4000 * (f % 16)))).set 3
                (BitVec.ofNat 64 i)).set 4 (BitVec.ofNat 64 (bitsAt d 384 32))).set 5 0x100 }) ∧
          (s.scr.wf = true → l.params = [] → t.scr.read page 8 = l.descAddr % 2 ^ 64 ∧ t.scr.read (page + 8) 8 = l.id % 2 ^ 64 ∧
            t.scr.read (page + 16) 8 = bitsAt d 384 32 ∧ t.scr.read (page + 24) 8 = 0 ∧ t.scr.read (page + 32) 8 = k) ∧
          t.dev = s.dev) ∧
    (l.state = .placed → s.away = [] → (∀ e ∈ s.agents, e.2.launch = lid + 1 → e.2.life = .free) → bitsAt d 384 32 ≤ l.next → l.redo = [] →
      l.second = none → ∃ t, exec (.launchComplete lid) s = .next t ∧ t.launchOf (lid + 1) = none ∧
        -- its command completes, in the slot that executes the queue or in the book of a queue that has left its slot
        (∀ d k, s.slotOf l.part l.block = some (d, k) → (t.queue d k).openCmds = (s.queue d k).openCmds.erase l.command) ∧
        (∀ y, s.slotOf l.part l.block = none → s.book l.part l.block = some y →
          ∃ y', t.book l.part l.block = some y' ∧ y'.openCmds = y.openCmds.erase l.command) ∧
        ∀ x y, l.status = some x → x % 8 = 0 → s.translate l.part x .write = .ok y →
          State.codePage { s with launches := s.launches.erase (lid + 1) } l.part y.phys = false →
          s.slotOf l.part l.block = none → s.book l.part l.block = none →
          t.dev = s.dev.write y.phys 8 (l.exit % 2 ^ 32 + l.kind * 2 ^ 56))

/-- R418, R427, R428, R434, R436. -/
def Obligations.QueuesStopBindAndRecycle : Prop :=
  ∀ (s : State) (die slot : Nat) (k : BitVec 16) (w : Word) (v : Dword), die < 4 → slot < 64 →
    let q := s.queue die slot
    let free := if 64 ≤ q.free.length then q.free else q.free ++ [v.toNat / 65536 * 65536]
    (s.cur = .queue die slot → q.launching = none →
      (∃ t, exec (.cmdHalt k) s = .next t ∧ t = { s with dev := t.dev, walked := t.walked, queues := t.queues } ∧
        ∃ n, t.queue die slot =
          atBoundary { passed q 4 with running := false, qstate := 1, hcode := k.toNat, faddr := commandAddr q, done := n }) ∧
      ∃ t, exec (.illegalCommand w) s = .next t ∧
        t.queue die slot = atBoundary { q with running := false, qstate := 2, fcode := 1, faddr := commandAddr q, pendFault := none } ∧
        t.interrupts = s.interrupts ++ [.queueFault q.part] ∧ t.agents = s.agents) ∧
    (s.asleep = false → die ∉ s.fenced →
      let block := (s.reg (.queue die slot) 0x08).toNat
      let shadow := s.dev.read (bitsAt (s.reg (.queue die slot) 0x00) 5 47 * 32) 32
      let part := shadow / 2 ^ 8 % 256
      let bad : Prop := shadow / 2 ^ 16 % 2 ^ 112 ≠ 0 ∨ shadow / 8 % 32 ≠ 0 ∨ part = 0 ∨ 36 < part ∨ bitsAt (s.reg (.part part) 0x00) 0 2 ≠ 2
      let held := { q with hold := true, reason := 3, toHold := none }
      (bad → q.running = false ∨ q.busy = true →
        exec (.queueBind die slot) s = .next (s.setQueue die slot (if q.busy then held else atBoundary held))) ∧
      (¬ bad → q.live = false → s.movedQueue die slot part = true → ∀ bytes, s.readVirtual part 2 block 32 = .ok bytes →
        bytes.foldr (fun x acc => x.toNat + 256 * acc) 0 ≠ shadow →
        exec (.queueBind die slot) s = .next (((s.leaveOther die slot part).setQueue die slot { q with
          part := part, prio := shadow % 8, lo := shadow / 2 ^ 128 % 2 ^ 64, hi := shadow / 2 ^ 192 % 2 ^ 64, live := true, hold := true,
          reason := 1 }).interrupt (.queueHold die slot))) ∧
      (¬ bad → q.live = false → s.movedQueue die slot part = false → s.slotOf part block = none →
        ∀ bytes, s.readVirtual part 3 block 256 = .ok bytes →
        let d (off : Nat) : Nat := ((bytes.drop off).take 8).foldr (fun x acc => x.toNat + 256 * acc) 0
        let depth := min (d 72 / 2 ^ 12 % 8) 4
        ∃ cs : Vector Dword 16, (∀ n < 16, cs.toList.getD n 0 = if n = 0 then 0 else BitVec.ofNat 64 (d (128 + 8 * n))) ∧
          exec (.queueBind die slot) s = .next (s.setQueue die slot
            { q with
              part := part, prio := shadow % 8, lo := shadow / 2 ^ 128 % 2 ^ 64, hi := shadow / 2 ^ 192 % 2 ^ 64, live := true, cregs := cs,
              stack := (List.range depth).map fun n => d (96 + 8 * n), pc := d 80, pos := d 48, segment := none, atLink := false,
              running := true, qstate := 0, fcode := 0, faddr := d 64, hcode := d 72 / 2 ^ 16 % 2 ^ 16, issued := d 56, done := d 56,
              openCmds := [], block := block })) ∧
      -- the queue of a slot that leaves it between two commands: its book keeps what it has open
      (q.live = true → q.launching = none → q.running = false → let t := s.leaveSlot die slot
        t.dev = s.dev ∧ (t.queue die slot).live = false ∧ (t.queue die slot).ordinal = q.ordinal ∧
        t.book q.part q.block = some ⟨q.part, q.block, q.issued, q.openCmds, q.splicing, q.pendFault⟩) ∧
      -- a slot takes up what the book of a moved queue has open
      ∀ b, q.live = true → s.book q.part block = some b → ∀ bytes, s.readVirtual q.part 3 block 256 = .ok bytes →
        let t := s.loadBlock die slot true
        (t.queue die slot).issued = b.issued ∧ (t.queue die slot).openCmds = b.openCmds ∧ (t.queue die slot).splicing = b.splicing ∧
          (t.queue die slot).pendFault = b.fault ∧ t.book q.part block = none) ∧
    (let goes := s.setQueue die slot { q with hold := false, running := q.live && decide (q.qstate = 0) }
     -- a slot that no bind has taken up yet takes up its control block
     let first : Prop := q.live = true ∧ q.segment = none ∧ q.issued = 0 ∧ q.running = false
     (q.hold = false → exec (.queueHoldClear die slot) s = .next s) ∧
     (q.hold = true → ¬ first → exec (.queueHoldClear die slot) s = .next goes) ∧
     (q.hold = true → first → exec (.queueHoldClear die slot) s = .next (goes.loadBlock die slot true))) ∧
    (q.free = [] → exec (.qfreePop die slot) s = .next { s with answers := s.answers ++ [.data 0] }) ∧
    (∀ x rest, q.free = x :: rest →
      exec (.qfreePop die slot) s = .next ((s.setQueue die slot { q with free := rest }).answer (.data x))) ∧
    exec (.qfreePush die slot v) s = .next (s.setQueue die slot
      { q with free := free, ovf := q.ovf || decide (64 ≤ q.free.length) })

/-! ### Traps, waits, ports and the arbiter -/

/-- R73, R110, R440 to R443, R448. -/
def Obligations.TrapsStopTheContextAndWriteARecord : Prop :=
  ∀ (s : State) (f : Nat) (w : Word), f < 2340 →
    let c := s.ctx f
    let part := s.partOf f
    (∀ (t : Trap) (pc elem code : Nat) (ethr : Bool),
      c.vq = [] → c.latch = none → c.splice = [] → c.xq = [] → c.raises = [] → s.streamWritesPending f = false →
      t.cause < 256 → pc < 2 ^ 32 → elem < 2 ^ 32 →
      let u := s.stopContext f t pc elem code ethr
      let r := (u.ctx f).record
      let ring := if t.stage2 then Window.part part else Window.cx part
      let o := if t.stage2 then 0x100 else 0x30
      let base := s.reg ring o
      let slot := bitsAt base 12 52 * 4096 + 64 * ((s.reg ring (o + 8)).toNat % (16 * 2 ^ bitsAt base 0 4))
      u.ctx f =
        { c with
          life := .stopped, record := r, wait := none, late := none, passBreak := false, stepping := false, debugReq := 0,
          slotted := 0, order := [], convoyHead := 0, convoyCount := 0, convoyLeft := 0, arrived := none, gang := c.gang.bind fun g => if g.inside then some { g with push := none } else none } ∧
      (bitsAt r 448 64 = s.gtime.toNat ∧ bitsAt r 384 64 = t.faddr % 2 ^ 64 ∧ bitsAt r 332 52 = t.ipa % 2 ^ 52 ∧ bitsAt r 320 12 = 0 ∧
        bitsAt r 288 32 = pc ∧ bitsAt r 256 32 = elem ∧ bitsAt r 224 32 = c.convoyHead % 2 ^ 32 ∧
        bitsAt r 192 32 = c.launchid.toNat ∧ bitsAt r 180 12 = f ∧ bitsAt r 176 4 = c.convoyCount % 16 ∧
        bitsAt r 164 12 = code % 4096 ∧ bitsAt r 160 4 = 0 ∧ bitsAt r 152 8 = t.cause ∧ bitAt r 151 = false ∧ bitAt r 150 = t.stage2 ∧
        bitAt r 149 = ethr ∧ bitsAt r 0 149 = 0) ∧
      u.pins = (s.pins.filter fun p =>
        match p.holder with
        | .stream g q =>
          match s.streamReg f q with
          | some r => !(r.owner = g && (s.readers r q).all fun x => x = f || (s.ctx x).life ≠ .running)
          | none => true
        | .append g => g ≠ f
        | .job _ | .access _ => true) ∧
      u.interrupts = s.interrupts ++ [.trap part t.stage2 (bitsAt (s.reg ring (o + 0x10)) 0 4)] ∧
      u.reg ring (o + 8) = s.reg ring (o + 8) + 1 ∧ (∀ g, g ≠ f → u.ctx g = s.ctx g) ∧
      (let dropped : Prop := u.dev = s.dev ∧ bitAt (u.reg ring (o + 0x18)) 1 = true
       (t.stage2 = true → if s.struck (.dev slot false) 64 then dropped else u.dev = s.dev.write slot 64 r.toNat) ∧
       (t.stage2 = false → ∀ e, s.translate part slot .write = .error e → dropped) ∧
       (t.stage2 = false → ∀ x, s.translate part slot .write = .ok x →
         if s.codePage part x.phys || s.struck (.dev x.phys x.dev) 64 then dropped else u.dev = s.dev.write x.phys 64 r.toNat))) ∧
    (s.cur = .agent f → c.late = none → Settled s f →
      (f < 2304 →
        (decodeThread w = .error .gangWrite → exec (.illegalInstruction w) s = .next (stopped s f .operand)) ∧
        (decodeThread w ≠ .error .gangWrite → exec (.illegalInstruction w) s = .next (stopped s f .illegal))) ∧
      (2304 ≤ f → exec (.illegalInstruction w) s = .next (stopped s f (if matrixView w then .operand else .illegal))) ∧
      (c.pc ≠ 0xFFFFFFFFFFFFFFF0 → exec .fetchOutsideImage s = .next (stopped s f (.access c.pc))) ∧
      (c.pc = 0xFFFFFFFFFFFFFFF0 → exec .fetchOutsideImage s = exec (.halt 0) s))

/-- R122, R138, R173, R231, R265, R273, R274, R276; what becomes of a held write that fails is the model's choice (log entry 100). -/
def Obligations.WaitsPortsAndArbitersGoOn : Prop :=
  ∀ (s : State) (f m p : Nat),
    let c := s.ctx f
    let acts : Prop := c.life = .running ∧ s.asleep = false ∧ dieOf f ∉ s.fenced
    (acts → ∀ w, c.wait = some w →
      exec (.waitEnd f) s = .next (if s.waitOver f w then s.setCtx f { c with wait := none } else s)) ∧
    (acts → ∀ n v, c.wait = some (.counter n v) → v ≤ s.counter (bayOf f) (s.partOf f) n →
      exec (.waitEnd f) s = .next (s.setCtx f { c with wait := none })) ∧
    (acts → ∀ t, c.wait = some (.sleep t) →
      exec (.sleepExpiry f) s = .next (if t ≤ s.gtime then s.setCtx f { c with wait := none } else s)) ∧
    (acts → c.late = none → c.debugReq = 0 → c.wait ≠ some .brk → bitAt (s.reg (.cx (s.partOf f)) 0x60) 63 = false →
      ∀ b e, c.vq = [e] → c.blocks = some b → (∀ t ∈ b.threads, t.live = false) →
        exec (.vfetchComplete f) s = .next ((s.modMill (millOf f) fun x => { x with samples := x.samples + 1 }).setCtx f
          { c with
            blocks := none, vq := [], vstart := 0, instret := c.instret + 1, order := [], convoyLeft := 0, convoyHead := 0,
            convoyCount := 0 })) ∧
    (acts → c.late = none → c.debugReq = 0 → ∀ e rest i, c.vq = e :: rest → bitsAt e.word 26 6 = 0x1E → decodeVector e.word = .ok i →
      -- the head member of OP 0x1E takes place: it leaves the queue, and a grant gives VL and VPAD what was granted as it was pushed
      ∃ t, exec (.grantApply f) s = .next t ∧ exec i { s with cur := .entry f 0 } = .next t ∧
        (t.ctx f).vq.map (·.word) = rest.map (·.word) ∧ (t.ctx f).instret = c.instret + 1 ∧
        ((∃ d a w, i = .setvl d a w) ∨ (∃ d a b k, i = .setvlB d a b k) →
          (t.ctx f).vl = e.grant ∧ (t.ctx f).vpad = e.pad ∧ (t.ctx f).vstart = 0) ∧
        (∀ g, g ≠ f → t.ctx g = s.ctx g) ∧ t.dev = s.dev ∧ t.scr = s.scr ∧ t.regs = s.regs) ∧
    (∀ b rest, s.port m p = b :: rest → s.asleep = false → s.streamLive b = true →
      (b.started = false → b.after = [] →
        exec (.streamBindingStart m p) s = .next (if State.streamHeld (s.ctx b.flat) b.q then s else s.setPort m p ({ b with started := true } :: rest))) ∧
      (b.started = true → ∀ j v more, b.pend = (j, v) :: more →
        let u := s.setPort m p ({ b with pend := more } :: rest)
        (∀ l, s.streamLoc b j = .ok l → s.locBusy l = true → exec (.streamFetch m p) s = .next s) ∧
        (∀ l, s.streamLoc b j = .ok l → s.locBusy l = false → exec (.streamFetch m p) s = .next (u.store l (View.size b.desc) v)) ∧
        ∀ t, s.streamLoc b j = .error t → exec (.streamFetch m p) s = .next (u.setCtx b.flat
          { u.ctx b.flat with xfail := (u.ctx b.flat).xfail ++ [⟨0, t.faddr⟩] })) ∧
      (b.started = true → b.pend = [] → b.write = false → b.device = false → b.buf.length < Binding.room b →
        b.base + b.buf.length < View.count b.desc → m = millOf b.flat → (∀ x ∈ rest, ¬ (x.flat = b.flat ∧ x.q = b.q)) →
        ∀ l, s.streamLoc b (b.base + b.buf.length) = .ok l → s.locBusy l = false → exec (.streamFetch m p) s =
          .next (s.setPort m p ({ b with
            buf := b.buf ++ [s.load l (View.size b.desc)], top := b.base + b.buf.length + 1 } :: rest)))) ∧
    (m < 144 → (s.mill m).pointer < 16 →
      ((∀ g ∈ millContexts m, s.hasWork g = false) → ∃ ag,
        exec (.arbiterCycle m) s = .next ({ s with agents := ag }.setMill m { s.mill m with fresh := true }) ∧
        ∀ g, State.ctx { s with agents := ag } g = if g ∈ millContexts m then { s.ctx g with deficit := 0 } else s.ctx g) ∧
      (((s.mill m).slots = some 1 ∨ ((List.range 16).filter fun i => (s.mill m).lgmask.getLsbD i).length ≤ 1) →
        let g := 16 * m + (s.mill m).pointer
        ∀ t, s.issueOne g = .ok t →
          let d := (s.ctx g).deficit + (if (s.mill m).fresh then 4 * (s.ctx g).share else 0) - 1
          let mill := t.mill m
          exec (.arbiterCycle m) s = .next ((t.setCtx g { t.ctx g with deficit := d }).setMill m
            { mill with fresh := decide (d = 0), pointer := if d = 0 then (mill.pointer + 1) % 16 else mill.pointer })))

/-- R280 to R284, R286, R287, R289, R290, R411, R498; which parameter of the event carries which energy is the model's (log entry 118). -/
def Obligations.PowerEventsSetCapsTargetsAndSlots : Prop :=
  ∀ (s : State) (m bay slots d g h : Nat) (targets sensors energies : List Nat) (hi : Bool) (v : Dword),
    let reg (w : Window) : Dword := s.reg w 0x00
    let tgt (d : Nat) : Nat :=
      let old := (s.targetTimes.find d).any fun x => decide (x.toNat + 3000000 ≤ s.gtime.toNat)
      if d ∈ s.noTarget ∨ old = true then bitsAt (reg (.dtarget d)) 44 20 else bitsAt (reg (.dtarget d)) 0 22
    let service (k : Nat) : Bool := bitAt (reg .ready) (k / 4) && !s.mapped.contains (k / 4)
    -- E of a mill under a target of its domain
    let budget (k target : Nat) : Nat :=
      let n := ((List.range 144).filter fun j => decide (s.regulatorOf (j / 4) = s.regulatorOf (k / 4)) && service j).length
      (target * 100 / n - bitsAt (reg (.millcal k)) 0 32) * 1000 / bitsAt (reg (.millcal k)) 32 32
    let fallen (k e : Nat) : Bool := (s.mill k).ballast || decide (e * 4 < (s.mill k).loopE * 3)
    let bounded (d target amps : Nat) (t : State) : Prop :=
      let now := t.reg (.dtarget d) 0x00
      let u := min target (1100 * bitsAt now 22 10 / 100)
      bitsAt now 0 22 = min (if 11000 < amps then min u (tgt d * 11000 / amps) else u) (2 ^ 22 - 1)
    -- no Chandler image has been verified: no loop (R478)
    (2 ∈ s.failed → exec (.chandlerLoop targets sensors energies) s = .next s) ∧
    (s.asleep = false → 2 ∉ s.failed → ∃ t, exec (.chandlerLoop targets sensors energies) s = .next t ∧
      (∀ d < 4, let amps := sensors.getD d 0 % 2 ^ 24
        t.reg (.dsense d) 0x00 = BitVec.ofNat 64 (sensors.getD d 0 % 2 ^ 48) ∧ d ∉ t.noTarget ∧ t.targetTimes.find d = some s.gtime ∧
        bitsAt (t.reg (.dtarget d) 0x00) 22 42 = bitsAt (reg (.dtarget d)) 22 42 ∧
        (if s.holdState = 0 then bounded d (targets.getD d 0) amps t else bitsAt (t.reg (.dtarget d) 0x00) 0 22 = 0)) ∧
      (let payer (n : Nat) : Nat := if bitsAt (reg (.part n)) 0 2 = 0 then 0 else n
       ∀ n < 37, t.reg (.energy n) 0x00 = reg (.energy n) + BitVec.ofNat 64
        ((((List.range 37).filter fun k => payer k = n).map fun k => energies.getD k 0).sum +
          (((List.range 36).filter fun b => payer (s.ownerOf b) = n).map fun b => energies.getD (37 + b) 0).sum)) ∧
      (∀ k < 144, s.regulatorOf (k / 4) < 4 → let e := budget k (bitsAt (t.reg (.dtarget (s.regulatorOf (k / 4))) 0x00) 0 22)
        t.mill k = if service k then { s.mill k with loopE := e, ballast := fallen k e } else s.mill k) ∧
      t.dev = s.dev ∧ t.agents = s.agents) ∧
    (d < 4 → ∃ t, exec (.registerWrite (.dtarget d) 0x00 v s.epoch) s = .next t ∧
      bounded d (bitsAt v 0 22) (bitsAt (reg (.dsense d)) 0 24) t) ∧
    (∀ t, s.targetTimes.find d = some t → t.toNat + 3000000 ≤ s.gtime.toNat → d ∉ s.noTarget →
      exec (.targetTimeout d) s = .next { s with noTarget := s.noTarget ++ [d] }) ∧
    (m < 144 → service m = true →
      let e := budget m (tgt (s.regulatorOf (m / 4)))
      let run := (millContexts m).filter fun f => (s.ctx f).life = .running
      let sum := run.foldl (fun t f => t + (s.ctx f).share) 0
      let cap (f : Nat) : Nat := min 65536 (e * (s.ctx f).share / sum)
      let stale : Prop := (∃ f ∈ run, (s.ctx f).cap ≠ cap f) ∨ (s.mill m).lastE ≠ e
      (¬ stale → exec (.millCapUpdate m) s = .next s) ∧
      (stale → ∃ t, exec (.millCapUpdate m) s = .next t ∧
        (∀ f, t.ctx f = if f ∈ run then { s.ctx f with cap := cap f } else s.ctx f) ∧
        t.mill m = { s.mill m with lastE := e, ballast := fallen m e } ∧ t.dev = s.dev ∧ t.regs = s.regs)) ∧
    exec (.ballastEnd m) s = .next (s.setMill m { s.mill m with ballast := false }) ∧
    (bay < 36 →
      let dom := s.regulatorOf bay
      let n := bitsAt (s.reg (.dsense dom) 0x00) 48 16
      let mills (x : Option Nat) (t : State) : Prop :=
        ∀ k, t.mill k = if k / 4 = bay then { s.mill k with slots := x } else s.mill k
      (∃ t, exec (.droop bay slots) s = .next t ∧ mills (some slots) t ∧ t.stretched = s.stretched.put bay true ∧
        bitsAt (t.reg (.dsense dom) 0x00) 48 16 = min 65535 (n + 1) ∧
        bitsAt (t.reg (.dsense dom) 0x00) 0 48 = bitsAt (s.reg (.dsense dom) 0x00) 0 48 ∧ t.agents = s.agents) ∧
      ∃ t, exec (.droopEnd bay) s = .next t ∧ mills none t ∧ t.stretched = s.stretched.erase bay ∧ t.regs = s.regs ∧ t.agents = s.agents) ∧
    (let a := s.granule g; let b := s.granule h
      s.capacityTier = true → s.asleep = false → g < s.granules → h < s.granules → g ≠ h → a.owner = b.owner → a.lpddr = b.lpddr →
        exec (.tierMigration g h true) s =
          .next { s with tiers := (s.tiers.put g { a with frame := b.frame }).put h { b with frame := a.frame } }) ∧
    (let a := s.granule g
     -- the stacks that the last start has trained
     let fitted := (List.range 8).filter fun k => !bitAt (s.reg (.start 4) 0x00) k
     let low := decide (2 ^ 20 * fitted.length ≤ h)
     s.capacityTier = true → s.asleep = false → g < s.granules → h < s.granules → (∀ k < s.granules, (s.granule k).frame ≠ h) →
       (∀ e ∈ s.tiers, e.2.frame ≠ h) → a.lpddr = low → (∀ k, fitted[h / 2 ^ 20]? = some k → 48 + k ∉ s.mapped) →
         exec (.tierMigration g h false) s = .next { s with tiers := s.tiers.put g { a with frame := h } }) ∧
    (let off := if hi then 0x08 else 0x00
      ∃ x : Dword, bitsAt x 0 8 = bitsAt v 0 8 ∧
        bitsAt x 8 56 = (if hi then bitsAt (s.reg .regmap off) 8 56 else bitsAt v 8 56) ∧
        let s1 := s.setReg .regmap off x
        exec (.regmapWrite hi v) s = .next (if s1.mapShares then s else s1)) ∧
    (bay < 36 → s.regulatorOf bay ≠ s.mapOf bay →
      ((∀ f, bayOf f = bay → (s.ctx f).life ≠ .running) →
        exec (.bayRegulatorMove bay) s = .next { s with regulators := s.regulators.put bay (s.mapOf bay) }) ∧
      (∀ f, f < 2340 → bayOf f = bay → (s.ctx f).life = .running → exec (.bayRegulatorMove bay) s = .next s))

/-! ### Partitions, contexts, engines, recovery and the outside -/

/-- R6, R7, R402 to R404, R413, R414, R474, R487, R488. Of several ranges that a table word mapped in walks, which one a record names is the model's choice
(log entry 121). -/
def Obligations.PartitionsAreCreatedDestroyedAndConfigured : Prop :=
  ∀ (s : State) (n off epoch page pages die core addr : Nat) (stage2 : Bool) (v : Dword), 1 ≤ n → n ≤ 36 →
    let state (t : State) : Nat := bitsAt (t.reg (.part n) 0x00) 0 2
    let cleared (bays : List Nat) (t : State) : Prop :=
      (∀ f, bayOf f ∈ bays → t.ctx f = Ctx.reset) ∧
      (∀ b ∈ bays, ∀ a, b * 0x1000000 ≤ a → a < (b + 1) * 0x1000000 → t.scr.get a = 0) ∧
      (∀ b ∈ bays, ∀ k < 320, t.counter b n k = 0) ∧ t.reg (.energy n) 0x00 = 0 ∧
      (∀ b ∈ bays, ∀ k < 4, ∃ x : Mill, t.mill (4 * b + k) = { x with
        tiles := Mill.reset.tiles, carries := Mill.reset.carries, active := 0, shadow := 0, rowpred := Mill.reset.rowpred,
        colpred := Mill.reset.colpred, planes := 0, queue := [], completed := 0, ports := [] })
    let bays := (List.range 36).filter fun b => bitAt (s.reg (.part n) 0x08) b
    (bays = [] → exec (.partitionCreate n) s = .next (s.setField (.part n) 0x00 8 2 2)) ∧
    (bays ≠ [] → state s ≠ 0 ∨ (∃ b ∈ bays, s.ownerOf b ≠ 0) → exec (.partitionCreate n) s = .next (s.setField (.part n) 0x00 8 2 1)) ∧
    (state s = 0 → bays ≠ [] → (∀ b ∈ bays, s.ownerOf b = 0) → ∃ t, exec (.partitionCreate n) s = .next t ∧ state t = 2 ∧
      (∀ b, t.ownerOf b = if b ∈ bays then n else s.ownerOf b) ∧ cleared bays t ∧ t.dev = s.dev ∧
      ∀ d < 4, bitsAt (t.reg (.part n) 0x18) (16 * d) 16 = 455 * (bays.filter fun b => b / 9 = d).length) ∧
    (state s = 2 → ∃ t, exec (.partitionDestroy n) s = .next t ∧ state t = 0 ∧ cleared (s.baysOf n) t ∧
      (∀ b ∈ s.baysOf n, t.ownerOf b = 0) ∧ t.keys.find n = none) ∧
    (∀ w, (w = .cx n ∧ off ≠ 0x30 ∧ off ≠ 0x68) ∨ (w = .trans n ∧ off ≠ 0x40) → ∃ x,
      exec (.registerWrite w off v epoch) s = .next (s.setReg w off x) ∧
      ∀ i < 64, let old := bitAt (s.reg w off) i
        bitAt x i = if (w.info off).rw.testBit i then bitAt v i else old && !((w.info off).w1c.testBit i && bitAt v i)) ∧
    (state s ≠ 0 → exec (.registerWrite (.part n) 0x08 v epoch) s = .next s) ∧
    (epoch ≠ s.epoch → exec (.registerWrite .hold off v epoch) s = .next { s with answers := s.answers ++ [.refused s.epoch] }) ∧
    (let w := if stage2 then Window.part n else .trans n
     let o := if stage2 then 0x80 else 0x10
     let mine := s.invals.filter fun i => i.part = n && i.stage2 = stage2
     let new : Inval := ⟨n, stage2, (s.reg w o).toNat, (s.reg w (o + 8)).toNat, die, core⟩
     let within (i : Inval) (a size : Nat) : Bool :=
       decide (i.pages = 0) || (decide (i.page * 65536 < a + size) && decide (a < (i.page + i.pages) * 65536))
     let mark (i : Inval) (p : Pin) : Pin :=
       if p.part = n ∧ (if stage2 then within i p.ipa p.size || p.tables.any fun a => within i a 8 else within i p.page p.size) = true then
         { p with inval := true } else p
     -- i is queued, and what holds a pin that it names is waited for from now on
     let begun (i : Inval) (t : State) : Prop := t.pins = s.pins.map (mark i) ∧
       ∀ f, t.ctx f = { s.ctx f with xq := (s.ctx f).xq.map fun (x : XqEntry) => { x with pin := x.pin.map (mark i) } }
     (8 ≤ mine.length → exec (.invalidateGo n stage2 die core) s = .next { s with invalWaits := s.invalWaits ++ [new] }) ∧
     (mine.length < 8 → ∃ t, exec (.invalidateGo n stage2 die core) s = .next t ∧ t.invals = s.invals ++ [new] ∧ begun new t ∧
       t.dev = s.dev ∧ t.regs = s.regs) ∧
     ∀ i rest, mine = i :: rest →
       (s.blockers i ≠ 0 → exec (.invalidationComplete n stage2) s = .next s) ∧
       (s.blockers i = 0 → ∃ t, exec (.invalidationComplete n stage2) s = .next t ∧
         t.reg w (o + 0x18) = s.reg w (o + 0x18) + 1 ∧ t.interrupts = s.interrupts ++ [.invalidated n stage2 i.die i.core] ∧
         -- what walks have read of the pages named is forgotten; a log of stage 1 walks the tables itself
         (stage2 = true → t.walked = s.walked.filter fun x => !(x.part = n && x.stage2 && (decide (i.pages = 0) ||
           (decide (i.page ≤ x.page) && decide (x.page + x.pages ≤ i.page + i.pages))))) ∧
         match s.invalWaits.find? fun j => j.part = n && j.stage2 = stage2 with
         | none => t.invals = s.invals.erase i ∧ t.invalWaits = s.invalWaits
         | some j => t.invals = s.invals.erase i ++ [j] ∧ t.invalWaits = s.invalWaits.erase j ∧ begun j t)) ∧
    (addr % 8 = 0 → addr < s.installed →
      let base := s.reg (.part n) 0xC0
      let d := s.dev.write addr 8 v.toNat
      let slot := bitsAt base 12 52 * 4096 + 32 * ((s.reg (.part n) 0xC8).toNat % (16 * 2 ^ bitsAt base 0 4))
      let i := Instr.ptEditRecord n true addr v page pages die core
      -- the walks that have read the word as a table entry since a shoot-down that covers what it mapped
      let read := s.walked.filter fun x => x.part = n && x.stage2 = true && x.word = addr
      let named (x : Walked) : Prop := x.page = page ∧ x.pages = pages
      (read = [] → exec i s = .next { s with dev := d }) ∧
      ∀ x ∈ read, (named x ∨ (read.head? = some x ∧ ∀ y ∈ read, ¬ named y)) →
        (s.struck (.dev slot false) 32 = true → ∃ t, exec i s = .next t ∧ t.dev = d ∧ bitAt (t.reg (.part n) 0xD8) 0 = true) ∧
        (s.struck (.dev slot false) 32 = false → ∃ t, exec i s = .next t ∧ t.reg (.part n) 0xC8 = s.reg (.part n) 0xC8 + 1 ∧
          ∃ r, bitsAt r 0 1 = 0 ∧ bitsAt r 1 1 = 1 ∧ bitsAt r 4 2 = core % 4 ∧ bitsAt r 6 2 = die % 4 ∧ bitsAt r 39 33 = x.pages % 2 ^ 33 ∧
            bitsAt r 72 56 = x.page % 2 ^ 56 ∧ bitsAt r 192 64 = s.gtime.toNat ∧
            t.dev = d.write slot 32 (BitVec.toNat (r : BitVec 256))))

/-- R419, R444, R450, R453, R459, R461, R489, R492, R493. The model's choices: a command while BUSY is 1 has no effect (log entry 50), a resumption without
room for its pins stays under way (51), CXDATA's dword 78 holds CAP (52), and the mark that passes a breakpoint is a field of the context (80). -/
def Obligations.ContextCommandsStopSaveAndResume : Prop :=
  ∀ (s : State) (part : Nat) (v : Dword), 1 ≤ part → part ≤ 36 →
    let cx := Window.cx part
    let f := bitsAt (s.reg cx 0x00) 0 12
    let c := s.ctx f
    let here : Prop := f < 2340 ∧ s.partOf f = part
    let done (u : State) (e : Nat) : Host.Outcome State Fault Refusal := .next ((u.setField cx 0x10 0 2 e).setField cx 0x10 63 1 1)
    let err (e : Nat) : Host.Outcome State Fault Refusal := .next (s.setField cx 0x10 0 2 e)
    let img := (s.reg cx 0x18).toNat
    let busy (f : Nat) : Prop := s.rangeBusy part img (s.imageSize f) = true
    let cmds := [Instr.cxStop part, .cxSave part, .cxRestore part, .cxResume part]
    let later (op : Nat) : Host.Outcome State Fault Refusal :=
      .next (((s.setField cx 0x10 0 2 0).setField cx 0x10 63 1 1).setReg cx 0x08 (BitVec.ofNat 64 (op + 8 * f)))
    -- the members that the stop kept in the middle form one new convoy
    let running (f : Nat) (stepping : Bool) : State :=
      let c := s.ctx f
      let same := bitsAt c.record 152 8 = 0x0D && bitsAt c.record 288 32 = (s.origin c c.pc).2.1 % 2 ^ 32
      let n := (((List.range c.vq.length).filter fun k => (c.vq[k]?.map (·.begun)).getD false).getLast?.map (· + 1)).getD 0
      let c1 : Ctx :=
        { c with
          life := .running, wait := none, record := 0, passBreak := same, stepping := stepping, drafts := [], convoyLeft := n, convoyCount := n,
          convoyHead := if n = 0 then 0 else (c.vq.head?.map (·.pc)).getD 0 }
      let jobs := s.jobs.map fun (j : Job) => if j.by' = some f then { j with parked := false } else j
      { s.setCtx f c1 with jobs := jobs }
    let unbound (f : Nat) : Prop := ∀ q < 8, s.streamReg f q = none
    let waits : Prop := s.holdState = 1 ∧ s.kills ≠ []
    let debugged (r b : Nat) : State :=
      ((s.setCtx f { c with dbgstat := r * 16 + b }).stopContext f { cause := 0x0D } c.pc c.vstart 0 false).modCtx f
        fun c => { c with debugReq := 0, convoyHead := 0, convoyCount := 0 }
    -- the agent g is about to stop by itself (R447, R494)
    let stops (g : Nat) : Prop := (s.ctx g).life = .running ∧ ((s.ctx g).debugReq ≠ 0 ∨ ((s.ctx g).late ≠ none ∧ (s.ctx g).wait = none))
    let drained : Prop := c.convoyLeft = 0 ∧ c.blocks = none ∧ s.matIdle f = true
    (bitAt (s.reg cx 0x10) 63 = true → ∀ i ∈ cmds, exec i s = .next s) ∧
    (bitAt (s.reg cx 0x10) 63 = false → ¬ here → ∀ i ∈ cmds, exec i s = err 3) ∧
    (bitAt (s.reg cx 0x10) 63 = false → here →
      (c.life ≠ .running → exec (.cxStop part) s = err 1) ∧
      (c.life ≠ .stopped ∨ f ∈ s.kills →
        exec (.cxSave part) s = err 1 ∧ exec (.cxResume part) s = err 1 ∧ exec (.debugStep part) s = err 1) ∧
      (c.life ≠ .free → exec (.cxRestore part) s = err 1) ∧
      (stops f → exec (.cxStop part) s = later 1) ∧
      (c.life = .running → c.debugReq = 0 → c.late = none → ∃ t, exec (.cxStop part) s = .next t ∧ (t.ctx f).life = .stopped ∧
        bitsAt (t.ctx f).record 152 8 = 0x10 ∧ bitsAt (t.reg cx 0x10) 0 2 = 0 ∧ bitAt (t.reg cx 0x10) 63 = true) ∧
      (c.life = .stopped → f ∉ s.kills →
        (waits ∨ busy f → exec (.cxSave part) s = later 2) ∧
        (¬ waits → ¬ busy f → s.saveAt part f img = none → exec (.cxSave part) s = err 3) ∧
        (¬ waits → ¬ busy f → ∀ t, s.saveAt part f img = some t → exec (.cxSave part) s = done t 0 ∧ (t.ctx f).life = .free) ∧
        (∀ ps, s.streamPins f = .ok ps → s.pinRoom part (dieOf f) ((ps.flatMap (·.2.2)).map fun p => (p.page, p.size)) = false →
          exec (.cxResume part) s = later 4 ∧ exec (.debugStep part) s = later 5) ∧
        (unbound f → exec (.cxResume part) s = done (running f false) 0 ∧ exec (.debugStep part) s = done (running f true) 0)) ∧
      (c.life = .free → (∀ e, s.restoreAt part f img = .error e → exec (.cxRestore part) s = err e) ∧
        ∀ t, s.restoreAt part f img = .ok t → exec (.cxRestore part) s = done t 0)) ∧
    -- the end of a command: of one that went on, with its agent g
    (let p := bitsAt (s.reg cx 0x08) 0 3
     let g := bitsAt (s.reg cx 0x08) 3 12
     let ended (u : State) : Host.Outcome State Fault Refusal := .next ((u.setReg cx 0x08 0).setField cx 0x10 63 1 0)
     (p ∉ [1, 2, 4, 5] → exec (.cxCommandComplete part) s = .next (s.setField cx 0x10 63 1 0)) ∧
     (p = 1 → stops g → exec (.cxCommandComplete part) s = .next s) ∧
     (p = 1 → ¬ stops g → (s.ctx g).late = none → exec (.cxCommandComplete part) s = ended s) ∧
     (p = 2 → (s.ctx g).life = .stopped → g ∉ s.kills →
       (waits ∨ busy g → exec (.cxCommandComplete part) s = .next s) ∧
       (¬ waits → ¬ busy g → s.saveAt part g img = none → exec (.cxCommandComplete part) s = ended (s.setField cx 0x10 0 2 3)) ∧
       (¬ waits → ¬ busy g → ∀ t, s.saveAt part g img = some t → exec (.cxCommandComplete part) s = ended t)) ∧
     (p = 4 ∨ p = 5 → (s.ctx g).life = .stopped → g ∉ s.kills → unbound g →
       exec (.cxCommandComplete part) s = ended (running g (p = 5)))) ∧
    (here →
      let k := bitsAt (s.reg cx 0x20) 3 29
      let u := s.settleImage f
      (c.life = .running → exec (.cxdataRead part) s = err 1 ∧ exec (.cxdataWrite part v) s = err 1) ∧
      (c.life = .stopped → 8 * k < u.imageSize f →
        exec (.cxdataRead part) s = .next ((u.answer (.data (u.image f k))).setField cx 0x10 0 2 0) ∧
        (∀ r, 0 < r → r < 32 → u.image f (32 + r) = ((u.ctx f).sregs.toList.getD r 0).toNat) ∧
        (let i : Image := fun j => if j = k then v.toNat else u.image f j
         f < 2304 → 33 ≤ k → k < 64 → i.ok s.pkg (isCore f) = true → ∃ t, exec (.cxdataWrite part v) s = .next t ∧
           (t.ctx f).sregs.toList.getD (k - 32) 0 = v ∧ bitsAt (t.reg cx 0x10) 0 2 = 0) ∧
        (let i : Image := fun j => if j = k then v.toNat else u.image f j
         f < 2304 → k = 78 → i.ok s.pkg (isCore f) = true → ∃ t, exec (.cxdataWrite part v) s = .next t ∧
           (t.ctx f).cap = bitsAt v 0 17 ∧ bitsAt (t.reg cx 0x10) 0 2 = 0)) ∧
      (c.life = .running → c.late = none → c.debugReq = 0 →
        exec (.debugStopCmd part) s = .next (s.setCtx f { c with debugReq := 2 })) ∧
      (c.life = .running → c.late = none → c.debugReq ≠ 0 → c.debugReq ≠ 4 → drained → (c.debugReq = 3 → ∀ e ∈ c.vq, e.done = true) →
        exec (.debugStopDrained f) s = .next (debugged c.debugReq 0)) ∧
      (c.life = .running → c.late = none → c.debugReq = 4 → drained → exec (.debugStopDrained f) s = .next (debugged 4 c.matched)) ∧
      (c.life = .running → c.late = none → c.debugReq = 0 → c.passBreak = false → ∀ b, s.breakAt f = some b →
        (c.convoyLeft ≠ 0 → exec (.breakpointHit f) s = .next (s.setCtx f { c with debugReq := 4, matched := b })) ∧
        (drained → ∃ t, exec (.breakpointHit f) s = .next t ∧ (t.ctx f).life = .stopped ∧ bitsAt (t.ctx f).record 152 8 = 0x0D ∧
          (t.ctx f).dbgstat = 64 + b ∧ t.readRegister cx 0x108 = BitVec.ofNat 64 (64 + b))) ∧
      (c.life ≠ .free → (∀ g ∈ millContexts (millOf f), g ≠ f → (s.ctx g).life ≠ .free → (s.ctx g).parent ≠ f + 1) →
        ∃ t, exec (.kill part f) s = .next t ∧ (t.ctx f).life = .stopped ∧ (t.ctx f).vq = [] ∧ (t.ctx f).xq = [] ∧
          (t.ctx f).wait = none ∧ (t.ctx f).views = .replicate 16 none ∧ f ∈ t.kills ∧
          t.reg (.trans part) 0x30 = BitVec.ofNat 64 f) ∧
      (c.life = .free → exec (.kill part f) s =
        .next { s.setReg (.trans part) 0x30 (BitVec.ofNat 64 f) with kills := s.kills ++ [4096 + f] }) ∧
      (s.kills = [f] →
        let open' : Prop := (∃ j ∈ s.jobs, j.by' = some f) ∨ ∃ a ∈ s.appended, a.by' = some f
        (open' → exec (.killDone part) s = .next s) ∧
        (¬ open' → ∃ t, exec (.killDone part) s = .next t ∧ (t.ctx f).life = .free ∧ t.kills = [] ∧
          bitAt (t.reg (.trans part) 0x30) 62 = true)) ∧
      (s.kills = [4096 + f] → (∀ a ∈ s.appended, a.by' ≠ some (4096 + f)) → (∀ j ∈ s.jobs, j.by' ≠ some (4096 + f)) →
        exec (.killDone part) s = .next ({ s with kills := [] }.setField (.trans part) 0x30 62 1 1)) ∧
      (s.kills = [] → exec (.killDone part) s = .next s))

/-- R175, R221, R224 to R229, R401, R410, R481, on chains and jobs of which no receive waits for its slot. What a peer answers to a send, and where a
memory error strikes, are the events' (log entries 11 and 95); that a card of a killed context which no engine has read yet completes with status 5 when it
is read is log entry 42, and that a card names no counter of another partition's bay 110. -/
def Obligations.EnginesStartRunAndCompleteJobs : Prop :=
  ∀ (s : State) (part die ch : Nat), (∀ j ∈ s.jobs, Card.kind j.card = 4 → j.waiting = false) →
    let w := Window.chain part die ch
    let addr := (s.reg w 0x10).toNat
    let eng := bitsAt (s.reg w 0x00) 12 4
    exec (.chstatStopClear part die ch) s = .next (s.setReg w 0x30 (setBits (s.reg w 0x30) 0 1 0)) ∧
    (addr ≠ 0 → bitAt (s.reg w 0x30) 0 = false → (s.jobs.filter fun j => j.die = die && j.eng = eng).length < 4 → die ∉ s.fenced →
      s.asleep = false → bitsAt (s.reg (.part part) 0x00) 0 2 = 2 →
      (s.cardBusy part addr = true → exec (.engineJobStart part die ch) s = .next s) ∧
      (s.cardBusy part addr = false →
      (∀ t, s.readWord part addr 64 = .error t → exec (.engineJobStart part die ch) s =
        .next ((s.setReg w 0x30 (setBits (s.reg w 0x30) 0 1 1)).interrupt (.chainStop part die ch))) ∧
      ∀ bits vs, s.readWord part addr 64 = .ok bits →
        let card : Line := BitVec.ofNat 512 bits
        let own := (s.appended.find? fun a => a.part = part && a.die = die && a.chain = ch && a.addr = addr).getD
          ⟨part, die, ch, addr, none, none, false, false⟩
        let bad := Card.fieldsBad card eng own.det || Card.viewsBad card vs s.pkg own.flat.isNone
        s.readFootprints part card [0, 1, 2, 3] = .ok vs → Card.kind card ≠ 4 →
        let job (st : Option (Nat × Nat)) : Job :=
          ⟨s.nextJob, part, die, ch, eng, card, addr, own.flat, own.by', vs, 0, st, false, false⟩
        let head := if addr = (s.reg w 0x18).toNat then 0 else bitsAt card 0 64
        let starts (st : Option (Nat × Nat)) (pins : List Pin) : Prop :=
          ∃ t, exec (.engineJobStart part die ch) s = .next t ∧ t.jobs = s.jobs ++ [job st] ∧ t.reg w 0x10 = BitVec.ofNat 64 head ∧
            t.pins = pins
        (own.killed = true → starts (some (5, 0)) s.pins) ∧
        (own.killed = false → bad = true → starts (some (6, 0)) s.pins) ∧
        (own.killed = false → bad = false → ∀ t, s.jobPages part vs = .error t →
          starts (some (if t.cause = 0x05 then 2 else 1, t.cause)) s.pins) ∧
        (own.killed = false → bad = false → ∀ ps, s.jobPages part vs = .ok ps →
          (1024 < ps.length ∨ s.pinLimit part die < ps.length → starts (some (6, 0)) s.pins) ∧
          (ps.length ≤ 1024 → ps.length ≤ s.pinLimit part die →
            ((∃ x ∈ vs, s.hostFootOk part x.2.1 = false) → starts (some (1, 6)) s.pins) ∧
            ((∀ x ∈ vs, s.hostFootOk part x.2.1 = true) →
              (s.pinRoom part die (ps.map fun p => (p.page, p.size)) = false → exec (.engineJobStart part die ch) s = .next s) ∧
              (s.pinRoom part die (ps.map fun p => (p.page, p.size)) = true →
                starts none (s.pins ++ ps.map fun p => { p with holder := .job s.nextJob, die := die }))))))) ∧
    (∀ j rest, s.jobs = j :: rest → (∀ x ∈ rest, x.id ≠ j.id) → j.parked = false → s.asleep = false →
      (∀ st fl, j.status = some (st, fl) → exec (.jobComplete j.id 0) s = .next (s.completeJob j st fl (j.off * j.size))) ∧
      -- an element whose stack is not ready is waited for (R481)
      (j.status = none → (∃ p ∈ s.pins, p.holder = .job j.id) → Card.kind j.card ≠ 3 → s.jobBusy j j.off (j.count - j.off) = true → ∀ m,
        exec (.jobComplete j.id m) s = .next s) ∧
      (j.status = none → (∃ p ∈ s.pins, p.holder = .job j.id) → Card.kind j.card ≠ 3 → Card.kind j.card ≠ 4 →
        s.jobBusy j j.off (j.count - j.off) = false →
        (∀ u k st fl, State.runElements j (j.count - j.off) j.off s = (u, k, st, fl) →
          exec (.jobComplete j.id 0) s = .next (u.completeJob j st fl (k * j.size))) ∧
        ∀ m u fl, j.off ≤ m → m < j.count → State.runElements j (m - j.off) j.off s = (u, m, 0, fl) →
          exec (.jobComplete j.id (m + 1)) s = .next (u.completeJob j 7 0 (m * j.size))) ∧
      (j.status = none → Card.kind j.card = 3 → j.waiting = true → ∀ answer,
        exec (.jobComplete j.id answer) s = .next (
          if answer = 1 then s.completeJob j 1 6 0 else s.completeJob j (if answer ∈ [6, 7, 8] then answer else 0) 0 0)) ∧
      (j.status = none → (∃ p ∈ s.pins, p.holder = .job j.id) → Card.kind j.card = 3 → j.waiting = false →
        (∀ c ∈ s.held, c.job ≠ some j.id) → s.jobBusy j 0 j.count = false →
        let d := j.view 1
        let a := (View.addr d 0).toNat
        let place := if View.space d ≤ 1 then (1, State.scrAddr (j.mill / 4) (View.bayByte (j.mill % 4) d a)) else (View.space d, a)
        let sends (t : State) : Prop := exec (.foldContribution j.id) s = .next t
        let settled (st fl : Nat) : State := { s with jobs := { j with status := some (st, fl) } :: rest }
        (∀ st fl, s.sendElems j = .error (st, fl) → sends (settled st fl)) ∧
        ∀ elems, s.sendElems j = .ok elems →
          let c : Contribution := ⟨Card.slot j.card, place.1, place.2, j.part, Card.rank j.card, Card.fold j.card, Card.fop j.card,
            bitsAt j.card 72 4, j.size, elems, some j.id⟩
          (View.space d = 4 →
            (bitsAt (s.reg (.part j.part) 0x28) 0 16 = 0 → sends (settled 1 6)) ∧
            (bitsAt (s.reg (.part j.part) 0x28) 0 16 ≠ 0 → s.peerReachable = false → sends (settled 8 0)) ∧
            (bitsAt (s.reg (.part j.part) 0x28) 0 16 ≠ 0 → s.peerReachable = true →
              sends { s with jobs := { j with waiting := true } :: rest })) ∧
          (View.space d ≠ 4 →
            (∀ x, s.slotFor c = some x → s.slotMatches x c = true → sends { s with
              folds := s.folds.map fun y => if y.job = x.job then { y with got := y.got ++ [c] } else y
              jobs := { j with status := some (0, 0) } :: rest }) ∧
            (∀ x, s.slotFor c = some x → s.slotMatches x c = false → sends (settled 6 0)) ∧
            (s.slotFor c = none → (s.held.filter fun h => h.slot = c.slot).length < 16 →
              sends { s with held := s.held ++ [c] }) ∧
            (s.slotFor c = none → 16 ≤ (s.held.filter fun h => h.slot = c.slot).length → sends s)))) ∧
    (∀ (j : Job) n k v l, Card.kind j.card ≤ 1 →
      (Card.kind j.card = 1 → v = Card.param j.card % 2 ^ (8 * j.size)) →
      (Card.kind j.card = 0 → ∃ m, s.jobLoc j (j.view 0) k false = .ok m ∧ v = s.load m j.size) →
      s.jobLoc j (j.view 1) k true = .ok l →
      State.runElements j (n + 1) k s = State.runElements j n (k + 1) (s.store l j.size v)) ∧
    ∀ (j : Job) (st fl bytes : Nat), let u := s.completeJob j st fl bytes
      let cw := Window.chain j.part j.die j.chain
      let n := Card.ctr j.card
      u.reg cw 0x28 = s.reg cw 0x28 + 1 ∧ u.jobs = s.jobs.filter (fun x => x.id ≠ j.id) ∧
      let bay := 9 * j.die + bitsAt (s.reg cw 0x00) 8 4
      (n < 320 → (64 ≤ n ∨ s.ownerOf bay = j.part) → u.counter bay j.part n =
        BitVec.ofNat 64 (min (2 ^ 64 - 1) ((s.counter bay j.part n).toNat + Card.inc j.card))) ∧
      (n < 64 → s.ownerOf bay ≠ j.part → u.counters = s.counters)

/-- R118, R463, R466, R469, R472 to R474, R476 to R482. The model's choices: that memory is empty after a loss of the supply or a cold boot (log entry 1),
what step 11 records (69), and when a unit that is still is mapped out (79). -/
def Obligations.LeasesHoldsAndStarts : Prop :=
  ∀ (s : State) (die dst epoch port n : Nat),
    let live (d : Nat) : Prop := d < 4 ∧ d ∉ s.fenced
    let r := s.reg (.lease s.leaseDie)
    let held := bitAt (r 0x00) 0
    let holder := bitsAt (r 0x00) 2 2
    let now := s.gtime.toNat
    let expiry := (r 0x08).toNat
    let ep := bitsAt (r 0x00) 32 32
    let health (d : Nat) : Bool := bitAt (r 0x10) d && decide (now < (s.heartbeats.getD d 0).toNat + 1000000)
    let refused : Host.Outcome State Fault Refusal := .next { s with answers := s.answers ++ [.refused ep] }
    let hold := s.reg .hold 0x00
    let taken (i : Instr) (d : Nat) : Prop := ∃ t, exec i s = .next t ∧ ∀ x, live x →
      t.reg (.lease x) 0x08 = s.gtime + 10000000 ∧ bitAt (t.reg (.lease x) 0x00) 0 = true ∧
        bitsAt (t.reg (.lease x) 0x00) 2 2 = d ∧ bitsAt (t.reg (.lease x) 0x00) 32 32 = (ep + 1) % 2 ^ 32
    (let ok : Prop := held = true ∧ die = holder ∧ epoch = ep ∧ now < expiry + 1000000
     (¬ ok → exec (.leaseRenew die epoch) s = refused) ∧
     (ok → ∃ t, exec (.leaseRenew die epoch) s = .next t ∧ ∀ x, live x →
       t.reg (.lease x) 0x08 = s.gtime + 10000000 ∧ t.reg (.lease x) 0x00 = s.reg (.lease x) 0x00)) ∧
    (let ok : Prop := (held = false ∨ expiry + 1000000 ≤ now) ∧ die < 4 ∧ health die = true ∧ ∀ d < die, health d = false
     (¬ ok → exec (.leaseTake die) s = refused) ∧ (ok → taken (.leaseTake die) die)) ∧
    (let ok : Prop := held = true ∧ die = holder ∧ epoch = ep ∧ dst < 4 ∧ health dst = true
     (¬ ok → exec (.leaseHand die dst epoch) s = refused) ∧ (ok → taken (.leaseHand die dst epoch) dst)) ∧
    (live die → ∃ t, exec (.fwHeartbeat die) s = .next t ∧ t.heartbeats = s.heartbeats.put die s.gtime ∧
      ∀ x, live x → bitAt (t.reg (.lease x) 0x10) die = true) ∧
    (die < 4 → (s.heartbeats.getD die 0).toNat + 1000000 ≤ now →
      ∃ t, exec (.healthTimeout die) s = .next t ∧ ∀ x, live x → bitAt (t.reg (.lease x) 0x10) die = false) ∧
    (live die → ∃ t, exec (.dieFence die) s = .next t ∧ t.fenced = s.fenced ++ [die] ∧ bitsAt (t.reg .ready 0x00) (9 * die) 9 = 0 ∧
      (∀ f, dieOf f = die → (s.ctx f).life ≠ .free → (t.ctx f).life = .stopped) ∧ (∀ j ∈ t.jobs, j.die ≠ die) ∧
      (∀ p ∈ t.pins, p.die ≠ die) ∧ (∀ k < 64, (s.queue die k).live = true → (t.queue die k).live = false) ∧
      -- nothing of the die writes memory any more
      ((∀ j ∈ s.jobs, j.die ≠ die) → t.dev = s.dev)) ∧
    (s.holdState = 0 ∨ s.holdState = 3 → ∃ t, exec .holdEntry s = .next t ∧ t.holdState = 1 ∧ bitAt (t.reg .hold 0x00) 0 = true ∧
      t.holdTimer = some (now + bitsAt hold 16 6 * 1000000) ∧ t.interrupts = s.interrupts ++ [.holdEntry] ∧ t.agents = s.agents ∧
      ∀ d < 4, bitsAt (t.reg (.dtarget d) 0x00) 0 22 = 0) ∧
    (epoch ≠ ep → exec (.holdDeadline epoch) s = refused ∧ exec (.holdResume epoch) s = refused) ∧
    (∀ x, epoch = ep → s.holdTimer = some x → x ≤ now →
      (s.holdState = 1 → s.kills = [] → ∃ t, exec (.holdDeadline epoch) s = .next t ∧ t.holdState = 2 ∧ t.pins = [] ∧
        (∀ f, dieOf f ∉ s.fenced → (t.ctx f).life = .free) ∧
        ∀ d k, k < 64 → (t.queue d k).live = true → (t.queue d k).running = false) ∧
      -- steps 1 and 2 of a resumption: the dies, and what the hold area has of them
      (s.holdState = 2 → bitAt hold 0 = false → ∃ t, exec (.holdResume epoch) s = .next t ∧ t.holdState = 3 ∧ t.resumeStep = 3 ∧
        t.agents = s.agents ∧ t.dev = s.dev)) ∧
    -- steps 3 and 4: the agents that firmware saved; then step 5, behind the restores of the kernels
    (epoch = ep → s.holdState = 3 → ∃ t, exec (.holdResume epoch) s = .next t ∧ t.holdState = 0 ∧ t.resumeStep = 5 ∧
      bitsAt (t.reg (.start 11) 0x00) 16 8 = 1 ∧ (s.firmwareSaved = [] → t.interrupts = s.interrupts ++ [.holdResume] ∧ t.agents = s.agents)) ∧
    (epoch = ep → s.holdState = 0 → s.resumeStep = 5 →
      ((∃ a ∈ s.away, a.held = true) → exec (.holdResume epoch) s = .next s) ∧
      ((∀ a ∈ s.away, a.held = false) → s.queues = [] → (∀ j ∈ s.jobs, Card.kind j.card ≠ 4) →
        exec (.holdResume epoch) s = .next { s with
          resumeStep := 0, jobs := s.jobs.map fun (j : Job) => if j.by'.isNone then { j with parked := false } else j })) ∧
    (∃ t, exec .pwarnFall s = .next t ∧ bitAt (t.reg .hold 0x00) 0 = false ∧
      t.holdTimer = if s.holdState = 2 ∧ bitAt hold 0 = true then some (now + bitsAt hold 48 8 * 10000000) else s.holdTimer) ∧
    (s.holdState = 2 → ∃ t, exec .holdSupplyLoss s = .next t ∧ t.dev = [] ∧ t.scr = [] ∧ t.agents = [] ∧ t.gtime = s.gtime ∧
      bitsAt (t.reg (.start 11) 0x00) 16 8 = 2) ∧
    (n < 64 → exec (.startRecordClear n) s = .next (s.setReg (.start n) 0x00 (setBits (s.reg (.start n) 0x00) 16 8 0))) ∧
    -- a start at which every step's action succeeds and every image is verified, and one whose firmware is not
    ((∀ k < 12, bitsAt (s.reg (.start k) 0x00) 16 8 = 0) →
      (s.verified 2 = true → s.verified 4 = true → s.verified 20 = true → ∃ t, exec (.coldBoot 0xFFF 0 []) s = .next t ∧ t.dev = [] ∧
        t.agents = [] ∧ t.fenced = [] ∧ t.failed = [] ∧ t.reg .ready 0x00 = 0 ∧ (∀ k < 36, k ∈ t.starting) ∧ (∀ k < 8, 64 + k ∈ t.starting) ∧
        ∀ k, 1 ≤ k → k ≤ 4 → bitsAt (t.reg (.start k) 0x00) 16 8 = 1) ∧
      (s.verified 2 = false → ∃ t, exec (.coldBoot 0xFFF 0 []) s = .next t ∧ t.failed = [1, 2, 10] ∧ t.starting = [] ∧
        t.reg .ready 0x00 = 0 ∧ bitsAt (t.reg (.start 1) 0x00) 16 8 = 2)) ∧
    (∀ k x, s.verified k = true → s.images.find k = some x → Config.sha256 (bytesOfNat 64 x.key.toNat) = Config.fusedKey ∧
      Config.signedBy x.key (Config.sha256 x.bytes) x.sig = true ∧ Config.fusedVersion ≤ x.version) ∧
    (∀ k rest, s.agenda = .ready k :: rest → k ∈ s.starting → k < 36 → ∃ t, step s = .next t ∧ bitAt (t.reg .ready 0x00) k = true ∧
      t.starting = s.starting.erase k) ∧
    (n < 36 → (∀ f < 2340, bayOf f = n → (s.ctx f).life ≠ .running) → ∃ t, exec (.unitMapOut n) s = .next t ∧ n ∈ t.mapped ∧
      bitAt (t.reg .ready 0x00) n = false) ∧
    (port < 12 → 36 + port ∉ s.mapped → s.holdState ≠ 2 →
      exec (.pmlLinkUp port) s = .next (s.setReg .ready 0x08 (setBits (s.reg .ready 0x08) (10 + port) 1 1))) ∧
    (port < 12 → exec (.pmlLinkDown port) s = .next (s.setReg .ready 0x08 (setBits (s.reg .ready 0x08) (10 + port) 1 0)))

/-- R170, R229, R410, R421, R422, R468, R474, R481, R482; codes and configuration space are the model's (log entry 10), as is that a write from outside
that faults anywhere has no effect (log entry 61). -/
def Obligations.OutsideRequestsAndAttestationAreAnswered : Prop :=
  ∀ (s : State) (part addr n tag epoch reg off nonce asym hash : Nat) (b : Byte) (bytes : List Byte),
    let gives (i : Instr) (a : Answer) : Prop := exec i s = .next { s with answers := s.answers ++ [a] }
    let up : Prop := s.asleep = false ∧ bitAt (s.reg .ready 0x08) 24 = true
    -- some of the bytes stand in a stack that is not ready, or in one under recalibration
    let down (k : Nat) : Prop := s.stackDown false part addr k = true
    let recal (k : Nat) : Prop := s.stackDown true part addr k = true
    let alive : Prop := bitsAt (s.reg (.part part) 0x00) 0 2 = 2
    let value (l : List Byte) : Nat := l.foldr (fun x acc => x.toNat + 256 * acc) 0
    -- an atomic of R210 on device memory: its old value is the answer
    let atomically (p k cmp : Nat) (u : State) (r : Host.Outcome State Fault Refusal) : Prop :=
      ∀ x, bytes.length = 8 → addr % 8 = 0 → s.translate p addr .read = .ok x → s.translate p addr .write = .ok x →
        s.codePage p x.phys = false → s.struck (.dev x.phys x.dev) 8 = false →
          let old := s.dev.read x.phys 8
          let new := (Safety.atomicResult k (BitVec.ofNat 64 old) (BitVec.ofNat 64 (value bytes)) (BitVec.ofNat 64 cmp)).toNat
          r = .next { u.noteWalk p addr with dev := s.dev.write x.phys 8 new, answers := s.answers ++ [.data old] }
    (¬ up ∨ ¬ alive ∨ down bytes.length → gives (.hostWrite part addr bytes) .abort) ∧
    (¬ up ∨ ¬ alive ∨ down n → gives (.hostRead part addr n) .abort) ∧
    (up → alive → ¬ down bytes.length → recal bytes.length → exec (.hostWrite part addr bytes) s = .next s) ∧
    (up → alive → ¬ down n → recal n → exec (.hostRead part addr n) s = .next s) ∧
    (up → alive → ¬ down bytes.length → ¬ recal bytes.length →
      (s.imagePages part addr bytes.length .write = false → gives (.hostWrite part addr bytes) .abort) ∧
      (s.imagePages part addr bytes.length .write = true →
        exec (.hostWrite part addr bytes) s = .next (s.writeVirtual part addr bytes))) ∧
    (up → alive → ¬ down n → ¬ recal n →
      (∀ l, s.readVirtual part (n / 65536 + 2) addr n = .ok l → gives (.hostRead part addr n) (.data (value l))) ∧
      ∀ e, s.readVirtual part (n / 65536 + 2) addr n = .error e → gives (.hostRead part addr n) .abort) ∧
    (∀ x, s.translate part addr .write = .ok x → s.codePage part x.phys = false → s.struck (.dev x.phys x.dev) 1 = false →
      s.writeVirtual part addr (b :: bytes) = ({ s.noteWalk part addr with dev := s.dev.write x.phys 1 b.toNat } : State).writeVirtual part (addr + 1) bytes) ∧
    (∀ x, s.translate part addr .read = .ok x → 0 < n → addr % 65536 + n ≤ 65536 →
      s.readVirtual part (n / 65536 + 2) addr n = .ok (s.dev.readBytes x.phys n)) ∧
    gives (.hostConfigRequest reg) (.data (Config.configSpace reg)) ∧
    (let linked : Prop := s.asleep = false ∧ bitsAt (s.reg .ready 0x08) 10 12 ≠ 0 ∧ tag ≠ 0
     let mine (p : Nat) : Prop := 1 ≤ p ∧ p ≤ 36 ∧ bitsAt (s.reg (.part p) 0x00) 0 2 = 2 ∧ bitsAt (s.reg (.part p) 0x28) 0 16 = tag
     (¬ linked ∨ ¬ (∃ p, mine p) → ∀ op args, gives (.peerRequest tag addr op args bytes) (if op = 12 then .status 1 else .abort)) ∧
     ∀ p, linked → mine p → (∀ q < p, ¬ mine q) →
       -- a request on a stack that is not ready, or recalibrated, is held back
       (s.rangeBusy p addr n = true → exec (.peerRequest tag addr 0 [n] []) s = .next s) ∧
       (s.rangeBusy p addr bytes.length = true → ∀ op args, op ≠ 0 → exec (.peerRequest tag addr op args bytes) s = .next s) ∧
       (s.rangeBusy p addr n = false → ∀ l, s.readVirtual p (n / 65536 + 2) addr n = .ok l → gives (.peerRequest tag addr 0 [n] []) (.data (value l))) ∧
       (s.rangeBusy p addr bytes.length = false →
       (s.imagePages p addr bytes.length .write = true →
         exec (.peerRequest tag addr 1 [] bytes) s = .next ((s.writeVirtual p addr bytes).answer .done)) ∧
       (s.imagePages p addr bytes.length .write = false → gives (.peerRequest tag addr 1 [] bytes) .abort) ∧
       (∀ k, k < 10 → atomically p k n s (exec (.peerRequest tag addr (2 + k) [n] bytes) s)) ∧
       -- a contribution to a fold slot: accepted or not by its open slot, which answers it, or held without an answer until the slot opens (R229)
       ∀ slot rank fold fop k size,
         let c : Contribution := ⟨slot, 2, addr, p, rank, fold, fop, k, size, State.elementsOf size bytes, none⟩
         let sends (t : State) : Prop := exec (.peerRequest tag addr 12 [slot, rank, fold, fop, k, size] bytes) s = .next t
         (∀ x, s.slotFor c = some x → s.slotMatches x c = true → sends { s with
           folds := s.folds.map fun y => if y.job = x.job then { y with got := y.got ++ [c] } else y
           answers := s.answers ++ [.status 0] }) ∧
         (∀ x, s.slotFor c = some x → s.slotMatches x c = false → sends { s with answers := s.answers ++ [.status 6] }) ∧
         (s.slotFor c = none → sends (if 16 ≤ (s.held.filter fun h => h.slot = slot).length then s else { s with held := s.held ++ [c] })))) ∧
    (∀ k cmp rest, s.agenda = .hostAtomic part addr k bytes cmp :: rest → up → alive → ¬ down bytes.length → ¬ recal bytes.length → k ∈ [0, 8, 9] →
      atomically part k (value cmp) { s with agenda := rest } (step s)) ∧
    (let asks := [Instr.spdmGetVersion part epoch, .spdmGetCapabilities part epoch, .spdmNegotiateAlgorithms part epoch asym hash,
        .spdmGetDigests part epoch, .spdmGetCertificate part epoch off n, .spdmChallenge part epoch nonce,
        .spdmGetMeasurements part epoch n nonce]
     let held : Prop := bitAt (s.reg (.lease s.leaseDie) 0x00) 0 = true ∧ epoch = s.epoch
     (¬ held → ∀ i ∈ asks, gives i (.refused s.epoch)) ∧
     (held → s.keys.find part = none → ∀ i ∈ asks, gives i (.spdm 0x7F [1])) ∧
     ∀ k, held → s.keys.find part = some k →
       let cert := s.certificate part k
       let digest := (Config.sha256 cert).toNat
       let block (i : Nat) : Nat := (s.measurement part i).toNat
       let measured (l : List Nat) : Prop := gives (.spdmGetMeasurements part epoch n nonce) (.spdm 0x60 (l.map block ++
         [nonce, (Config.sign k.key (Config.sha256 (l.flatMap (fun i => bytesOfNat 32 (block i)) ++ bytesOfNat 32 nonce))).toNat]))
       gives (.spdmGetVersion part epoch) (.spdm 0x04 [0x1300]) ∧ gives (.spdmGetCapabilities part epoch) (.spdm 0x61 [0x16]) ∧
       gives (.spdmNegotiateAlgorithms part epoch asym hash) (.spdm 0x63 [asym &&& 0x10, hash &&& 1]) ∧
       gives (.spdmGetDigests part epoch) (.spdm 0x01 [digest]) ∧
       gives (.spdmGetCertificate part epoch off n) (.spdm 0x02 (((cert.drop off).take n).map (·.toNat))) ∧
       gives (.spdmChallenge part epoch nonce) (.spdm 0x03 [digest, nonce,
         (Config.sign k.key (Config.sha256 (bytesOfNat 32 digest ++ bytesOfNat 32 nonce))).toNat]) ∧
       (n = 0 → gives (.spdmGetMeasurements part epoch n nonce) (.spdm 0x60 [4])) ∧
       (1 ≤ n → n ≤ 4 → measured [n]) ∧ (n = 0xFF → measured [1, 2, 3, 4]) ∧
       (4 < n → n ≠ 0xFF → gives (.spdmGetMeasurements part epoch n nonce) (.spdm 0x7F [1])))

/-! ### The whole machine -/

/-- R5, R73, R110 (and R426, R435 for queues): what a step runs. Which turn comes next is the agenda's (log entry 3), and a
program counter that is no multiple of 4 traps by the model's choice (log entry 106), as is which core's image an event needs (log entry 133). -/
def Obligations.StepRunsTheDecodedInstruction : Prop :=
  (∀ (s : State) (rest : List Turn) (f : Nat) (push : Bool), s.agenda = (if push then Turn.push f else Turn.run f) :: rest →
    let u : State := { s with agenda := rest, defer := push }
    let t : State := { u with cur := .agent f }
    let c := u.ctx f
    f < 2340 →
    (u.acts f = false ∨ c.debugReq ≠ 0 ∨ u.awaitsStream f = true → step s = .next t) ∧
    (u.acts f = true → c.debugReq = 0 → u.awaitsStream f = false →
      (c.passBreak = false → u.breakAt f ≠ none → step s = exec (.breakpointHit f) t) ∧
      (c.passBreak = true ∨ u.breakAt f = none →
        (c.pc % 4 ≠ 0 → step s = .next (t.trapHere f (.align c.pc))) ∧
        (c.pc % 4 = 0 → c.code.len < c.pc + 4 → step s = exec .fetchOutsideImage t) ∧
        (c.pc % 4 = 0 → c.pc + 4 ≤ c.code.len →
          -- the fetch walks the tables, and waits for a stack that is not ready (R481, R488)
          let w := t.noteWalk (u.partOf f) (c.code.base + c.pc)
          let busy := u.rangeBusy (u.partOf f) (c.code.base + c.pc) 4
          (busy = true → step s = .next t) ∧
          (busy = false →
          (∀ e, u.translate (u.partOf f) (c.code.base + c.pc) .fetch = .error e → step s = .next (w.trapHere f e)) ∧
          ∀ x, u.translate (u.partOf f) (c.code.base + c.pc) .fetch = .ok x →
            let byte (k : Nat) : Byte := u.dev.get (x.phys + k)
            let word := wordOfBytes (byte 0) (byte 1) (byte 2) (byte 3)
            (∀ i, decode word = .ok i → step s = exec i w) ∧
            (∀ r, decode word = .error r → step s = exec (.illegalInstruction word) w)))))) ∧
  (∀ (s : State) (rest : List Turn) (die slot : Nat), s.agenda = .queue die slot :: rest → die < 4 → slot < 64 →
    let t : State := { s with agenda := rest, defer := false, cur := .queue die slot }
    let q := t.queue die slot
    -- a command in execution goes on whatever hold or fault has come meanwhile
    q.live = true → q.running = true → t.fenced.contains die = false → t.holdState ≠ 2 →
    q.busy = true ∨ q.hold = false ∧ t.holdState = 0 ∧ q.pendFault = none →
      let block := (t.reg (.queue die slot) 0x08).toNat
      -- the control block and the command's words stand in stacks that are ready
      let free (a : Nat) : Prop := t.rangeBusy q.part block 320 = false ∧ t.rangeBusy q.part a 12 = false
      let walked (u : State) (a : Nat) : State := (u.noteWalk q.part block).noteWalk q.part a
      (q.stack ≠ [] → ∀ w lo hi i, free q.pc → t.commandWords q.part q.pc = .ok (w, lo, hi) → decodeCommand w lo hi = .ok i →
        step s = exec i (walked t q.pc)) ∧
      (q.stack = [] → q.atLink = false → ∀ a prod w lo hi i, q.segment = some a → State.segmentOk q a = true →
        free (a + q.pos % 65520) → t.readWord q.part (block + 32) 8 = .ok prod →
        q.pos + 4 ≤ prod → q.pos + State.commandLength w ≤ prod →
        t.commandWords q.part (a + q.pos % 65520) = .ok (w, lo, hi) → decodeCommand w lo hi = .ok i →
          step s = exec i (walked (t.setQueue die slot q) (a + q.pos % 65520)))) ∧
  (∀ (s : State) (rest : List Turn) (i : Instr), s.agenda = .event i :: rest →
    i.isWord = false → i.isCommand = false → i.wf = true →
      -- nothing runs on a core whose image has failed its verification (R478)
      step s = if State.imageFor i ∈ s.failed then .next { s with agenda := rest }
        else exec i { s with agenda := rest, cur := .nobody, defer := false })

/-- Each word is written as its fields, highest first. -/
def Obligations.WordsOfTheSpecDecode : Prop :=
  decode (0b000001#6 ++ 0b00011#5 ++ 0b00100#5 ++ 0b00101#5 ++ 0b00000000000#11) = .ok (.add 3 4 5) ∧
  decode (0b000010#6 ++ 0b00110#5 ++ 0b00000#5 ++ 0b0000000000000011#16) = .ok (.addi 6 0 3) ∧
  decode (0b001100#6 ++ 0b00110#5 ++ 0b00000#5 ++ 0b1111111111111101#16) = .ok (.bne 6 0 (-3)) ∧
  decode (0b010001#6 ++ 0b00001#5 ++ 0b000000000000000001000#21) = .ok (.jal 1 8) ∧
  decode (0b001000#6 ++ 0b01001#5 ++ 0b111111111111111111110#21) = .ok (.lui 9 (-2)) ∧
  decode (0b010011#6 ++ 0b00111#5 ++ 0b00010#5 ++ 0b0000#4 ++ 0b11#2 ++ 0b0000000010#10) = .ok (.ld 7 2 0 3 2) ∧
  decode (0b011100#6 ++ 0b00111#5 ++ 0b00000#5 ++ 0b000001100001#12 ++ 0b0001#4) = .ok (.csrr 7 0x061) ∧
  decode (0b100000#6 ++ 0b000100#6 ++ 0b000010#6 ++ 0b000110#6 ++ 0b0000#4 ++ 0b0000#4) = .ok (.vaddVv 4 2 6 0) ∧
  decode (0b100101#6 ++ 0b000100#6 ++ 0b000010#6 ++ 0b00111#5 ++ 0b0011#4 ++ 0b00000#5) = .ok (.vslideup 4 2 7 3) ∧
  decode (0b101011#6 ++ 0b000010#6 ++ 0b0011#4 ++ 0b00101#5 ++ 0b0#1 ++ 0b0000#4 ++ 0b000000#6) = .ok (.vld 2 3 5 0) ∧
  decode (0b101001#6 ++ 0b0001#4 ++ 0b0010#4 ++ 0b0011#4 ++ 0b000000#6 ++ 0b00000000#8) = .ok (.pand 1 2 3) ∧
  decode (0b101111#6 ++ 0b001000#6 ++ 0b01#2 ++ 0b1#1 ++ 0b00101#5 ++ 0b0000#4 ++ 0b00000000#8) = .ok (.mtv 8 1 1 5 0) ∧
  decode (0b111000#6 ++ 0b00100#5 ++ 0b10#2 ++ 0b1001#4 ++ 0b0000#4 ++ 0b00110#5 ++ 0b000000#6) = .ok (.mma 2 9 6 0) ∧
  decodeCommand (0b00001010#8 ++ 0b0011#4 ++ 0b0100#4 ++ 0b1111111111111111#16) 0 0 = .ok (.cmdAddi 3 4 (-1)) ∧
  decodeCommand (0b00001001#8 ++ 0b0101#4 ++ 0#20) 0x89ABCDEF 0x01234567 = .ok (.cmdLil 5 0x0123456789ABCDEF) ∧
  decode 0x1C0000C0 = .error .unassigned ∧ decode 0x1C000141 = .error .unassigned ∧ decode 0x8040860F = .error .unassigned ∧
  decode 0x8D408600 = .error .unassigned ∧ decodeThread 0xE0000000 = .error .reserved ∧ decode 0 = .error .neverAssigned

/-- Both directions, for all instructions and commands. -/
def Obligations.DecodingAndEncodingAgree : Prop :=
  (∀ i : Instr, i.wf = true → i.isWord = true → decode i.word = .ok i) ∧
  (∀ i : Instr, i.wf = true → i.isCommand = true →
    decodeCommand ((encode i).getD 0 0) ((encode i).getD 1 0) ((encode i).getD 2 0) = .ok i) ∧
  (∀ (w : Word) (i : Instr), decode w = .ok i → i.isWord = true ∧ i.wf = true ∧ encode i = [w]) ∧
  (∀ (w lo hi : Word) (i : Instr), decodeCommand w lo hi = .ok i →
    i.isCommand = true ∧ i.wf = true ∧ encode i = if takesLiteral w then [w, lo, hi] else [w])

/-- The reset values of memory are the model's (log entry 1), as is the form of the tables. -/
def Obligations.ResetMeetsTheInvariant : Prop :=
  Inv State.reset ∧
  (∀ a, State.reset.dev.get a = 0 ∧ State.reset.host.get a = 0 ∧ State.reset.peer.get a = 0 ∧ State.reset.scr.get a = 0) ∧
  (∀ f, (State.reset.ctx f).life = .free ∧ State.reset.acts f = false) ∧
  ∀ die slot, (State.reset.queue die slot).live = false

/-- The invariant `Inv`, over every state and every step. -/
def Obligations.EveryStepKeepsTheInvariant : Prop :=
  ∀ s t : State, Inv s → step s = .next t → Inv t
end

