-- ==== Sys2Proof/Laws/Bits.lean ====
section
/-! SUPPORT. Laws of bit fields: a field reads back what is written to it, and every other bit stays. -/

namespace Sys2Proof.Laws

open Sys2Proof

theorem bitsAt_lt {k : Nat} (w : BitVec k) (lo n : Nat) : bitsAt w lo n < 2 ^ n := Nat.mod_lt _ (Nat.two_pow_pos n)

theorem testBit_bitsAt {k : Nat} (w : BitVec k) (lo n i : Nat) :
    (bitsAt w lo n).testBit i = (decide (i < n) && w.getLsbD (lo + i)) := by
  simp [bitsAt, Nat.testBit_mod_two_pow, Nat.testBit_div_two_pow, Nat.add_comm, BitVec.getLsbD]

/-- The number under `setBits`, bit by bit. -/
theorem testBit_splice (x lo n v i : Nat) :
    (x % 2 ^ lo + 2 ^ lo * (v % 2 ^ n) + 2 ^ (lo + n) * (x / 2 ^ (lo + n))).testBit i =
      if i < lo then x.testBit i else if i < lo + n then v.testBit (i - lo) else x.testBit i := by
  have h1 : x % 2 ^ lo < 2 ^ lo := Nat.mod_lt _ (Nat.two_pow_pos lo)
  have h2 : v % 2 ^ n < 2 ^ n := Nat.mod_lt _ (Nat.two_pow_pos n)
  have h3 : x % 2 ^ lo + 2 ^ lo * (v % 2 ^ n) < 2 ^ (lo + n) := by
    rw [Nat.pow_add]
    calc x % 2 ^ lo + 2 ^ lo * (v % 2 ^ n) < 2 ^ lo + 2 ^ lo * (v % 2 ^ n) := by omega
      _ = 2 ^ lo * (v % 2 ^ n + 1) := by ring
      _ ≤ 2 ^ lo * 2 ^ n := Nat.mul_le_mul_left _ h2
  rw [Nat.add_comm (x % 2 ^ lo + _), Nat.testBit_two_pow_mul_add _ h3]
  by_cases h0 : i < lo + n
  · rw [if_pos h0, Nat.add_comm, Nat.testBit_two_pow_mul_add _ h1]
    by_cases hb : i < lo
    · simp [hb, Nat.testBit_mod_two_pow]
    · rw [if_neg hb, if_neg hb, if_pos h0, Nat.testBit_mod_two_pow]
      simp [show i - lo < n by omega]
  · rw [if_neg h0, if_neg (by omega), if_neg h0, Nat.testBit_div_two_pow]
    congr 1; omega

theorem getLsbD_setBits {k : Nat} (w : BitVec k) (lo n v i : Nat) :
    (setBits w lo n v).getLsbD i =
      (decide (i < k) && if i < lo then w.getLsbD i else if i < lo + n then v.testBit (i - lo) else w.getLsbD i) := by
  rw [setBits, BitVec.getLsbD_ofNat, testBit_splice]
  rfl

/-- A field reads back what is written to it. -/
theorem bitsAt_setBits_same {k : Nat} (w : BitVec k) (lo n v : Nat) (h : lo + n ≤ k) :
    bitsAt (setBits w lo n v) lo n = v % 2 ^ n := by
  apply Nat.eq_of_testBit_eq
  intro i
  rw [testBit_bitsAt, getLsbD_setBits, Nat.testBit_mod_two_pow]
  by_cases hi : i < n
  · have : ¬ lo + i < lo := by omega
    simp [hi, this, show lo + i < k by omega]
  · simp [hi]

/-- A field that does not meet the one written reads as before. -/
theorem bitsAt_setBits_apart {k : Nat} (w : BitVec k) (lo n v lo' n' : Nat) (h : lo' + n' ≤ lo ∨ lo + n ≤ lo') :
    bitsAt (setBits w lo n v) lo' n' = bitsAt w lo' n' := by
  apply Nat.eq_of_testBit_eq
  intro i
  rw [testBit_bitsAt, testBit_bitsAt, getLsbD_setBits]
  by_cases hi : i < n'
  · by_cases hk : lo' + i < k
    · rcases h with h | h
      · simp [hi, hk, show lo' + i < lo by omega]
      · simp [hi, hk, show ¬ lo' + i < lo by omega, show ¬ lo' + i < lo + n by omega]
    · simp [hk, BitVec.getLsbD_of_ge w (lo' + i) (by omega)]
  · simp [hi]

end Sys2Proof.Laws
end

