-- ==== Sys2Proof/Laws/Memory.lean ====
section
/-! SUPPORT. Laws of the memories and tables: a read after a write, what a write leaves alone, and that every memory operation keeps the
canonical form. -/

namespace Sys2Proof.Laws

open Sys2Proof.Machine

/-! ### Tables -/

theorem find_put_same {α : Type} (t : Assoc α) (k : Nat) (v : α) : Assoc.find (t.put k v) k = some v := by
  induction t with
  | nil => simp [Assoc.put, Assoc.find]
  | cons e t ih => grind [Assoc.put, Assoc.find]

theorem find_put_other {α : Type} (t : Assoc α) (j k : Nat) (v : α) (h : j ≠ k) :
    Assoc.find (t.put k v) j = Assoc.find t j := by
  induction t with
  | nil => simp [Assoc.put, Assoc.find, Ne.symm h]
  | cons e t ih => grind [Assoc.put, Assoc.find]

@[simp] theorem getD_put_same {α : Type} (t : Assoc α) (k : Nat) (v d : α) : (t.put k v).getD k d = v := by
  simp [Assoc.getD, find_put_same]

theorem getD_put_other {α : Type} (t : Assoc α) (j k : Nat) (v d : α) (h : j ≠ k) :
    (t.put k v).getD j d = t.getD j d := by
  simp [Assoc.getD, find_put_other t j k v h]

theorem put_put {α : Type} (t : Assoc α) (k : Nat) (v w : α) : (t.put k v).put k w = t.put k w := by
  induction t with
  | nil => simp [Assoc.put]
  | cons e t ih => grind [Assoc.put]

/-! ### One byte -/

/-- Every cell of a memory lies above an address. -/
def above (a : Nat) (m : Mem) : Prop := ∀ c ∈ m, a < c.1

theorem wf_cons {a : Nat} {b : Byte} {m : Mem} :
    Mem.wf ((a, b) :: m) = true ↔ b ≠ 0 ∧ above a m ∧ Mem.wf m = true := by
  induction m generalizing a b with
  | nil => simp [Mem.wf, above]
  | cons e m ih =>
    obtain ⟨a', b'⟩ := e
    have h := @ih a' b'
    simp only [Mem.wf, Bool.and_eq_true, decide_eq_true_eq, above, List.mem_cons, forall_eq_or_imp] at h ⊢
    constructor
    · rintro ⟨⟨hb, ha⟩, hw⟩
      exact ⟨hb, ⟨ha, fun c hc => Nat.lt_trans ha ((h.1 hw).2.1 c hc)⟩, hw⟩
    · rintro ⟨hb, ⟨ha, -⟩, hw⟩
      exact ⟨⟨hb, ha⟩, hw⟩

theorem get_above {m : Mem} {a : Nat} (h : above a m) : Mem.get m a = 0 := by
  induction m with
  | nil => rfl
  | cons e m ih =>
    obtain ⟨j, v⟩ := e
    have h1 : a < j := h (j, v) (by simp)
    have h2 : above a m := fun c hc => h c (by simp [hc])
    simp [Mem.get, Nat.ne_of_gt h1, ih h2]

theorem get_set_other (m : Mem) (a x : Nat) (b : Byte) (h : x ≠ a) : Mem.get (Mem.set m a b) x = Mem.get m x := by
  induction m with
  | nil => simp only [Mem.set]; split <;> simp [Mem.get, Ne.symm h]
  | cons e m ih => grind [Mem.set, Mem.get]

theorem above_set {m : Mem} {x a : Nat} {b : Byte} (h : above x m) (hx : x < a) : above x (Mem.set m a b) := by
  induction m with
  | nil => simp only [Mem.set]; split <;> simp [above, hx]
  | cons e m ih =>
    obtain ⟨j, v⟩ := e
    have h1 : x < j := h (j, v) (by simp)
    have h2 : above x m := fun c hc => h c (by simp [hc])
    simp only [Mem.set]
    split_ifs <;> intro c hc <;> grind [above]

theorem wf_set {m : Mem} (a : Nat) (b : Byte) (h : Mem.wf m = true) : Mem.wf (Mem.set m a b) = true := by
  induction m with
  | nil => simp only [Mem.set]; split <;> simp_all [Mem.wf]
  | cons e m ih =>
    obtain ⟨j, v⟩ := e
    obtain ⟨hv, hj, hm⟩ := wf_cons.1 h
    simp only [Mem.set]
    split_ifs with h1 h2 h3 h4
    · exact hm
    · subst h1; exact wf_cons.2 ⟨h2, hj, hm⟩
    · exact h
    · exact wf_cons.2 ⟨h4, by
        intro c hc
        rcases List.mem_cons.1 hc with rfl | hc
        · exact h3
        · exact Nat.lt_trans h3 (hj c hc), h⟩
    · exact wf_cons.2 ⟨hv, above_set hj (by omega), ih hm⟩

theorem get_set_same {m : Mem} (a : Nat) (b : Byte) (h : Mem.wf m = true) : Mem.get (Mem.set m a b) a = b := by
  induction m with
  | nil => simp only [Mem.set]; split <;> simp_all [Mem.get]
  | cons e m ih =>
    obtain ⟨j, v⟩ := e
    obtain ⟨-, hj, hm⟩ := wf_cons.1 h
    simp only [Mem.set]
    split_ifs with h1 h2 h3 h4
    · subst h1 h2; exact get_above hj
    · simp [Mem.get]
    · subst h4
      exact get_above (m := (j, v) :: m) (by
        intro c hc
        rcases List.mem_cons.1 hc with rfl | hc
        · exact h3
        · exact Nat.lt_trans h3 (hj c hc))
    · simp [Mem.get]
    · simp [Mem.get, h1, ih hm]

/-! ### Numbers and lists of bytes -/

theorem wf_write {m : Mem} (a n v : Nat) (h : Mem.wf m = true) : Mem.wf (Mem.write m a n v) = true := by
  induction n generalizing m a v with
  | zero => exact h
  | succ n ih => exact ih _ _ (wf_set _ _ h)

theorem wf_writeBytes {m : Mem} (a : Nat) (bs : List Byte) (h : Mem.wf m = true) : Mem.wf (Mem.writeBytes m a bs) = true := by
  induction bs generalizing m a with
  | nil => exact h
  | cons b bs ih => exact ih _ (wf_set _ _ h)

theorem above_filter {m : Mem} {x : Nat} (p : Host.Cell → Bool) (h : above x m) : above x (m.filter p) :=
  fun c hc => h c (List.mem_filter.1 hc).1

theorem wf_filter {m : Mem} (p : Host.Cell → Bool) (h : Mem.wf m = true) : Mem.wf (m.filter p) = true := by
  induction m with
  | nil => exact h
  | cons e m ih =>
    obtain ⟨hv, hj, hm⟩ := wf_cons.1 h
    simp only [List.filter_cons]
    split
    · exact wf_cons.2 ⟨hv, above_filter p hj, ih hm⟩
    · exact ih hm

theorem wf_clear {m : Mem} (lo hi : Nat) (h : Mem.wf m = true) : Mem.wf (Mem.clear m lo hi) = true := wf_filter _ h

/-- A write leaves every byte outside the bytes written alone. -/
theorem get_write_outside (m : Mem) (a n v x : Nat) (h : x < a ∨ a + n ≤ x) : Mem.get (Mem.write m a n v) x = Mem.get m x := by
  induction n generalizing m a v with
  | zero => rfl
  | succ n ih =>
    rw [Mem.write, ih _ _ _ (by omega), get_set_other]
    omega

theorem get_writeBytes_outside (m : Mem) (a x : Nat) (bs : List Byte) (h : x < a ∨ a + bs.length ≤ x) :
    Mem.get (Mem.writeBytes m a bs) x = Mem.get m x := by
  induction bs generalizing m a with
  | nil => rfl
  | cons b bs ih =>
    simp only [List.length_cons] at h
    rw [Mem.writeBytes, ih _ _ (by omega), get_set_other]
    omega

/-- Byte k of a number written reads back. -/
theorem get_write_inside {m : Mem} (a n v k : Nat) (h : Mem.wf m = true) (hk : k < n) :
    Mem.get (Mem.write m a n v) (a + k) = BitVec.ofNat 8 (v / 256 ^ k) := by
  induction n generalizing m a v k with
  | zero => omega
  | succ n ih =>
    rw [Mem.write]
    cases k with
    | zero =>
      rw [get_write_outside _ _ _ _ _ (by omega), Nat.add_zero, get_set_same _ _ h]
      simp
    | succ k =>
      have := ih (m := Mem.set m a (BitVec.ofNat 8 v)) (a + 1) (v / 256) k (wf_set _ _ h) (by omega)
      rw [show a + (k + 1) = a + 1 + k by omega, this, Nat.div_div_eq_div_mul, Nat.pow_succ, Nat.mul_comm]

/-- A read after a write of the same bytes gives the value written. -/
theorem read_write {m : Mem} (a n v : Nat) (h : Mem.wf m = true) : Mem.read (Mem.write m a n v) a n = v % 256 ^ n := by
  induction n generalizing m a v with
  | zero => simp [Mem.read, Nat.mod_one]
  | succ n ih =>
    have h1 : Mem.get (Mem.write m a (n + 1) v) a = BitVec.ofNat 8 v := by
      simpa using get_write_inside a (n + 1) v 0 h (by omega)
    have h2 := ih (m := Mem.set m a (BitVec.ofNat 8 v)) (a + 1) (v / 256) (wf_set _ _ h)
    rw [Mem.read, h1, Mem.write, h2, BitVec.toNat_ofNat, show 256 ^ (n + 1) = 256 * 256 ^ n by ring, Nat.mod_mul]

/-- Bytes that a write does not touch read as before. -/
theorem read_write_apart (m : Mem) (a n v x k : Nat) (h : x + k ≤ a ∨ a + n ≤ x) :
    Mem.read (Mem.write m a n v) x k = Mem.read m x k := by
  induction k generalizing x with
  | zero => rfl
  | succ k ih => rw [Mem.read, Mem.read, get_write_outside _ _ _ _ _ (by omega), ih _ (by omega)]

theorem read_lt (m : Mem) (a n : Nat) : Mem.read m a n < 256 ^ n := by
  induction n generalizing a with
  | zero => simp [Mem.read]
  | succ n ih =>
    have h1 := ih (a + 1)
    have h2 := (Mem.get m a).isLt
    rw [Mem.read, Nat.pow_succ]
    omega

end Sys2Proof.Laws
end

