-- ==== Sys2Proof/Laws/State.lean ====
section
/-! SUPPORT. One lemma for each field and each update of the state and of a context: what an update leaves alone, and what it writes. -/

namespace Sys2Proof.Laws

open Sys2Proof.Machine

/-! ### `State.setCtx` -/

@[simp] theorem setCtx_agenda (s : State) (f : Nat) (c : Ctx) : (s.setCtx f c).agenda = s.agenda := rfl
@[simp] theorem setCtx_cur (s : State) (f : Nat) (c : Ctx) : (s.setCtx f c).cur = s.cur := rfl
@[simp] theorem setCtx_defer (s : State) (f : Nat) (c : Ctx) : (s.setCtx f c).defer = s.defer := rfl
@[simp] theorem setCtx_last (s : State) (f : Nat) (c : Ctx) : (s.setCtx f c).last = s.last := rfl
@[simp] theorem setCtx_round (s : State) (f : Nat) (c : Ctx) : (s.setCtx f c).round = s.round := rfl
@[simp] theorem setCtx_fresh (s : State) (f : Nat) (c : Ctx) : (s.setCtx f c).fresh = s.fresh := rfl
@[simp] theorem setCtx_gtime (s : State) (f : Nat) (c : Ctx) : (s.setCtx f c).gtime = s.gtime := rfl
@[simp] theorem setCtx_mills (s : State) (f : Nat) (c : Ctx) : (s.setCtx f c).mills = s.mills := rfl
@[simp] theorem setCtx_stretched (s : State) (f : Nat) (c : Ctx) : (s.setCtx f c).stretched = s.stretched := rfl
@[simp] theorem setCtx_regulators (s : State) (f : Nat) (c : Ctx) : (s.setCtx f c).regulators = s.regulators := rfl
@[simp] theorem setCtx_counters (s : State) (f : Nat) (c : Ctx) : (s.setCtx f c).counters = s.counters := rfl
@[simp] theorem setCtx_regs (s : State) (f : Nat) (c : Ctx) : (s.setCtx f c).regs = s.regs := rfl
@[simp] theorem setCtx_tags (s : State) (f : Nat) (c : Ctx) : (s.setCtx f c).tags = s.tags := rfl
@[simp] theorem setCtx_dev (s : State) (f : Nat) (c : Ctx) : (s.setCtx f c).dev = s.dev := rfl
@[simp] theorem setCtx_host (s : State) (f : Nat) (c : Ctx) : (s.setCtx f c).host = s.host := rfl
@[simp] theorem setCtx_peer (s : State) (f : Nat) (c : Ctx) : (s.setCtx f c).peer = s.peer := rfl
@[simp] theorem setCtx_scr (s : State) (f : Nat) (c : Ctx) : (s.setCtx f c).scr = s.scr := rfl
@[simp] theorem setCtx_errors (s : State) (f : Nat) (c : Ctx) : (s.setCtx f c).errors = s.errors := rfl
@[simp] theorem setCtx_installed (s : State) (f : Nat) (c : Ctx) : (s.setCtx f c).installed = s.installed := rfl
@[simp] theorem setCtx_tiers (s : State) (f : Nat) (c : Ctx) : (s.setCtx f c).tiers = s.tiers := rfl
@[simp] theorem setCtx_owners (s : State) (f : Nat) (c : Ctx) : (s.setCtx f c).owners = s.owners := rfl
@[simp] theorem setCtx_launches (s : State) (f : Nat) (c : Ctx) : (s.setCtx f c).launches = s.launches := rfl
@[simp] theorem setCtx_queues (s : State) (f : Nat) (c : Ctx) : (s.setCtx f c).queues = s.queues := rfl
@[simp] theorem setCtx_books (s : State) (f : Nat) (c : Ctx) : (s.setCtx f c).books = s.books := rfl
@[simp] theorem setCtx_appended (s : State) (f : Nat) (c : Ctx) : (s.setCtx f c).appended = s.appended := rfl
@[simp] theorem setCtx_jobs (s : State) (f : Nat) (c : Ctx) : (s.setCtx f c).jobs = s.jobs := rfl
@[simp] theorem setCtx_nextJob (s : State) (f : Nat) (c : Ctx) : (s.setCtx f c).nextJob = s.nextJob := rfl
@[simp] theorem setCtx_folds (s : State) (f : Nat) (c : Ctx) : (s.setCtx f c).folds = s.folds := rfl
@[simp] theorem setCtx_held (s : State) (f : Nat) (c : Ctx) : (s.setCtx f c).held = s.held := rfl
@[simp] theorem setCtx_invals (s : State) (f : Nat) (c : Ctx) : (s.setCtx f c).invals = s.invals := rfl
@[simp] theorem setCtx_invalWaits (s : State) (f : Nat) (c : Ctx) : (s.setCtx f c).invalWaits = s.invalWaits := rfl
@[simp] theorem setCtx_pins (s : State) (f : Nat) (c : Ctx) : (s.setCtx f c).pins = s.pins := rfl
@[simp] theorem setCtx_walked (s : State) (f : Nat) (c : Ctx) : (s.setCtx f c).walked = s.walked := rfl
@[simp] theorem setCtx_images (s : State) (f : Nat) (c : Ctx) : (s.setCtx f c).images = s.images := rfl
@[simp] theorem setCtx_failed (s : State) (f : Nat) (c : Ctx) : (s.setCtx f c).failed = s.failed := rfl
@[simp] theorem setCtx_starting (s : State) (f : Nat) (c : Ctx) : (s.setCtx f c).starting = s.starting := rfl
@[simp] theorem setCtx_calibrating (s : State) (f : Nat) (c : Ctx) : (s.setCtx f c).calibrating = s.calibrating := rfl
@[simp] theorem setCtx_resumeStep (s : State) (f : Nat) (c : Ctx) : (s.setCtx f c).resumeStep = s.resumeStep := rfl
@[simp] theorem setCtx_fenced (s : State) (f : Nat) (c : Ctx) : (s.setCtx f c).fenced = s.fenced := rfl
@[simp] theorem setCtx_mapped (s : State) (f : Nat) (c : Ctx) : (s.setCtx f c).mapped = s.mapped := rfl
@[simp] theorem setCtx_kills (s : State) (f : Nat) (c : Ctx) : (s.setCtx f c).kills = s.kills := rfl
@[simp] theorem setCtx_noTarget (s : State) (f : Nat) (c : Ctx) : (s.setCtx f c).noTarget = s.noTarget := rfl
@[simp] theorem setCtx_targetTimes (s : State) (f : Nat) (c : Ctx) : (s.setCtx f c).targetTimes = s.targetTimes := rfl
@[simp] theorem setCtx_pkg (s : State) (f : Nat) (c : Ctx) : (s.setCtx f c).pkg = s.pkg := rfl
@[simp] theorem setCtx_capacityTier (s : State) (f : Nat) (c : Ctx) : (s.setCtx f c).capacityTier = s.capacityTier := rfl
@[simp] theorem setCtx_heartbeats (s : State) (f : Nat) (c : Ctx) : (s.setCtx f c).heartbeats = s.heartbeats := rfl
@[simp] theorem setCtx_holdTimer (s : State) (f : Nat) (c : Ctx) : (s.setCtx f c).holdTimer = s.holdTimer := rfl
@[simp] theorem setCtx_firmwareSaved (s : State) (f : Nat) (c : Ctx) : (s.setCtx f c).firmwareSaved = s.firmwareSaved := rfl
@[simp] theorem setCtx_away (s : State) (f : Nat) (c : Ctx) : (s.setCtx f c).away = s.away := rfl
@[simp] theorem setCtx_creates (s : State) (f : Nat) (c : Ctx) : (s.setCtx f c).creates = s.creates := rfl
@[simp] theorem setCtx_keys (s : State) (f : Nat) (c : Ctx) : (s.setCtx f c).keys = s.keys := rfl
@[simp] theorem setCtx_interrupts (s : State) (f : Nat) (c : Ctx) : (s.setCtx f c).interrupts = s.interrupts := rfl
@[simp] theorem setCtx_answers (s : State) (f : Nat) (c : Ctx) : (s.setCtx f c).answers = s.answers := rfl

/-! ### `State.modCtx` -/

@[simp] theorem modCtx_agenda (s : State) (f : Nat) (g : Ctx → Ctx) : (s.modCtx f g).agenda = s.agenda := rfl
@[simp] theorem modCtx_cur (s : State) (f : Nat) (g : Ctx → Ctx) : (s.modCtx f g).cur = s.cur := rfl
@[simp] theorem modCtx_defer (s : State) (f : Nat) (g : Ctx → Ctx) : (s.modCtx f g).defer = s.defer := rfl
@[simp] theorem modCtx_last (s : State) (f : Nat) (g : Ctx → Ctx) : (s.modCtx f g).last = s.last := rfl
@[simp] theorem modCtx_round (s : State) (f : Nat) (g : Ctx → Ctx) : (s.modCtx f g).round = s.round := rfl
@[simp] theorem modCtx_fresh (s : State) (f : Nat) (g : Ctx → Ctx) : (s.modCtx f g).fresh = s.fresh := rfl
@[simp] theorem modCtx_gtime (s : State) (f : Nat) (g : Ctx → Ctx) : (s.modCtx f g).gtime = s.gtime := rfl
@[simp] theorem modCtx_mills (s : State) (f : Nat) (g : Ctx → Ctx) : (s.modCtx f g).mills = s.mills := rfl
@[simp] theorem modCtx_stretched (s : State) (f : Nat) (g : Ctx → Ctx) : (s.modCtx f g).stretched = s.stretched := rfl
@[simp] theorem modCtx_regulators (s : State) (f : Nat) (g : Ctx → Ctx) : (s.modCtx f g).regulators = s.regulators := rfl
@[simp] theorem modCtx_counters (s : State) (f : Nat) (g : Ctx → Ctx) : (s.modCtx f g).counters = s.counters := rfl
@[simp] theorem modCtx_regs (s : State) (f : Nat) (g : Ctx → Ctx) : (s.modCtx f g).regs = s.regs := rfl
@[simp] theorem modCtx_tags (s : State) (f : Nat) (g : Ctx → Ctx) : (s.modCtx f g).tags = s.tags := rfl
@[simp] theorem modCtx_dev (s : State) (f : Nat) (g : Ctx → Ctx) : (s.modCtx f g).dev = s.dev := rfl
@[simp] theorem modCtx_host (s : State) (f : Nat) (g : Ctx → Ctx) : (s.modCtx f g).host = s.host := rfl
@[simp] theorem modCtx_peer (s : State) (f : Nat) (g : Ctx → Ctx) : (s.modCtx f g).peer = s.peer := rfl
@[simp] theorem modCtx_scr (s : State) (f : Nat) (g : Ctx → Ctx) : (s.modCtx f g).scr = s.scr := rfl
@[simp] theorem modCtx_errors (s : State) (f : Nat) (g : Ctx → Ctx) : (s.modCtx f g).errors = s.errors := rfl
@[simp] theorem modCtx_installed (s : State) (f : Nat) (g : Ctx → Ctx) : (s.modCtx f g).installed = s.installed := rfl
@[simp] theorem modCtx_tiers (s : State) (f : Nat) (g : Ctx → Ctx) : (s.modCtx f g).tiers = s.tiers := rfl
@[simp] theorem modCtx_owners (s : State) (f : Nat) (g : Ctx → Ctx) : (s.modCtx f g).owners = s.owners := rfl
@[simp] theorem modCtx_launches (s : State) (f : Nat) (g : Ctx → Ctx) : (s.modCtx f g).launches = s.launches := rfl
@[simp] theorem modCtx_queues (s : State) (f : Nat) (g : Ctx → Ctx) : (s.modCtx f g).queues = s.queues := rfl
@[simp] theorem modCtx_books (s : State) (f : Nat) (g : Ctx → Ctx) : (s.modCtx f g).books = s.books := rfl
@[simp] theorem modCtx_appended (s : State) (f : Nat) (g : Ctx → Ctx) : (s.modCtx f g).appended = s.appended := rfl
@[simp] theorem modCtx_jobs (s : State) (f : Nat) (g : Ctx → Ctx) : (s.modCtx f g).jobs = s.jobs := rfl
@[simp] theorem modCtx_nextJob (s : State) (f : Nat) (g : Ctx → Ctx) : (s.modCtx f g).nextJob = s.nextJob := rfl
@[simp] theorem modCtx_folds (s : State) (f : Nat) (g : Ctx → Ctx) : (s.modCtx f g).folds = s.folds := rfl
@[simp] theorem modCtx_held (s : State) (f : Nat) (g : Ctx → Ctx) : (s.modCtx f g).held = s.held := rfl
@[simp] theorem modCtx_invals (s : State) (f : Nat) (g : Ctx → Ctx) : (s.modCtx f g).invals = s.invals := rfl
@[simp] theorem modCtx_invalWaits (s : State) (f : Nat) (g : Ctx → Ctx) : (s.modCtx f g).invalWaits = s.invalWaits := rfl
@[simp] theorem modCtx_pins (s : State) (f : Nat) (g : Ctx → Ctx) : (s.modCtx f g).pins = s.pins := rfl
@[simp] theorem modCtx_walked (s : State) (f : Nat) (g : Ctx → Ctx) : (s.modCtx f g).walked = s.walked := rfl
@[simp] theorem modCtx_images (s : State) (f : Nat) (g : Ctx → Ctx) : (s.modCtx f g).images = s.images := rfl
@[simp] theorem modCtx_failed (s : State) (f : Nat) (g : Ctx → Ctx) : (s.modCtx f g).failed = s.failed := rfl
@[simp] theorem modCtx_starting (s : State) (f : Nat) (g : Ctx → Ctx) : (s.modCtx f g).starting = s.starting := rfl
@[simp] theorem modCtx_calibrating (s : State) (f : Nat) (g : Ctx → Ctx) : (s.modCtx f g).calibrating = s.calibrating := rfl
@[simp] theorem modCtx_resumeStep (s : State) (f : Nat) (g : Ctx → Ctx) : (s.modCtx f g).resumeStep = s.resumeStep := rfl
@[simp] theorem modCtx_fenced (s : State) (f : Nat) (g : Ctx → Ctx) : (s.modCtx f g).fenced = s.fenced := rfl
@[simp] theorem modCtx_mapped (s : State) (f : Nat) (g : Ctx → Ctx) : (s.modCtx f g).mapped = s.mapped := rfl
@[simp] theorem modCtx_kills (s : State) (f : Nat) (g : Ctx → Ctx) : (s.modCtx f g).kills = s.kills := rfl
@[simp] theorem modCtx_noTarget (s : State) (f : Nat) (g : Ctx → Ctx) : (s.modCtx f g).noTarget = s.noTarget := rfl
@[simp] theorem modCtx_targetTimes (s : State) (f : Nat) (g : Ctx → Ctx) : (s.modCtx f g).targetTimes = s.targetTimes := rfl
@[simp] theorem modCtx_pkg (s : State) (f : Nat) (g : Ctx → Ctx) : (s.modCtx f g).pkg = s.pkg := rfl
@[simp] theorem modCtx_capacityTier (s : State) (f : Nat) (g : Ctx → Ctx) : (s.modCtx f g).capacityTier = s.capacityTier := rfl
@[simp] theorem modCtx_heartbeats (s : State) (f : Nat) (g : Ctx → Ctx) : (s.modCtx f g).heartbeats = s.heartbeats := rfl
@[simp] theorem modCtx_holdTimer (s : State) (f : Nat) (g : Ctx → Ctx) : (s.modCtx f g).holdTimer = s.holdTimer := rfl
@[simp] theorem modCtx_firmwareSaved (s : State) (f : Nat) (g : Ctx → Ctx) : (s.modCtx f g).firmwareSaved = s.firmwareSaved := rfl
@[simp] theorem modCtx_away (s : State) (f : Nat) (g : Ctx → Ctx) : (s.modCtx f g).away = s.away := rfl
@[simp] theorem modCtx_creates (s : State) (f : Nat) (g : Ctx → Ctx) : (s.modCtx f g).creates = s.creates := rfl
@[simp] theorem modCtx_keys (s : State) (f : Nat) (g : Ctx → Ctx) : (s.modCtx f g).keys = s.keys := rfl
@[simp] theorem modCtx_interrupts (s : State) (f : Nat) (g : Ctx → Ctx) : (s.modCtx f g).interrupts = s.interrupts := rfl
@[simp] theorem modCtx_answers (s : State) (f : Nat) (g : Ctx → Ctx) : (s.modCtx f g).answers = s.answers := rfl

/-! ### `State.setMill` -/

@[simp] theorem setMill_agenda (s : State) (m : Nat) (v : Mill) : (s.setMill m v).agenda = s.agenda := rfl
@[simp] theorem setMill_cur (s : State) (m : Nat) (v : Mill) : (s.setMill m v).cur = s.cur := rfl
@[simp] theorem setMill_defer (s : State) (m : Nat) (v : Mill) : (s.setMill m v).defer = s.defer := rfl
@[simp] theorem setMill_last (s : State) (m : Nat) (v : Mill) : (s.setMill m v).last = s.last := rfl
@[simp] theorem setMill_round (s : State) (m : Nat) (v : Mill) : (s.setMill m v).round = s.round := rfl
@[simp] theorem setMill_fresh (s : State) (m : Nat) (v : Mill) : (s.setMill m v).fresh = s.fresh := rfl
@[simp] theorem setMill_gtime (s : State) (m : Nat) (v : Mill) : (s.setMill m v).gtime = s.gtime := rfl
@[simp] theorem setMill_agents (s : State) (m : Nat) (v : Mill) : (s.setMill m v).agents = s.agents := rfl
@[simp] theorem setMill_stretched (s : State) (m : Nat) (v : Mill) : (s.setMill m v).stretched = s.stretched := rfl
@[simp] theorem setMill_regulators (s : State) (m : Nat) (v : Mill) : (s.setMill m v).regulators = s.regulators := rfl
@[simp] theorem setMill_counters (s : State) (m : Nat) (v : Mill) : (s.setMill m v).counters = s.counters := rfl
@[simp] theorem setMill_regs (s : State) (m : Nat) (v : Mill) : (s.setMill m v).regs = s.regs := rfl
@[simp] theorem setMill_tags (s : State) (m : Nat) (v : Mill) : (s.setMill m v).tags = s.tags := rfl
@[simp] theorem setMill_dev (s : State) (m : Nat) (v : Mill) : (s.setMill m v).dev = s.dev := rfl
@[simp] theorem setMill_host (s : State) (m : Nat) (v : Mill) : (s.setMill m v).host = s.host := rfl
@[simp] theorem setMill_peer (s : State) (m : Nat) (v : Mill) : (s.setMill m v).peer = s.peer := rfl
@[simp] theorem setMill_scr (s : State) (m : Nat) (v : Mill) : (s.setMill m v).scr = s.scr := rfl
@[simp] theorem setMill_errors (s : State) (m : Nat) (v : Mill) : (s.setMill m v).errors = s.errors := rfl
@[simp] theorem setMill_installed (s : State) (m : Nat) (v : Mill) : (s.setMill m v).installed = s.installed := rfl
@[simp] theorem setMill_tiers (s : State) (m : Nat) (v : Mill) : (s.setMill m v).tiers = s.tiers := rfl
@[simp] theorem setMill_owners (s : State) (m : Nat) (v : Mill) : (s.setMill m v).owners = s.owners := rfl
@[simp] theorem setMill_launches (s : State) (m : Nat) (v : Mill) : (s.setMill m v).launches = s.launches := rfl
@[simp] theorem setMill_queues (s : State) (m : Nat) (v : Mill) : (s.setMill m v).queues = s.queues := rfl
@[simp] theorem setMill_books (s : State) (m : Nat) (v : Mill) : (s.setMill m v).books = s.books := rfl
@[simp] theorem setMill_appended (s : State) (m : Nat) (v : Mill) : (s.setMill m v).appended = s.appended := rfl
@[simp] theorem setMill_jobs (s : State) (m : Nat) (v : Mill) : (s.setMill m v).jobs = s.jobs := rfl
@[simp] theorem setMill_nextJob (s : State) (m : Nat) (v : Mill) : (s.setMill m v).nextJob = s.nextJob := rfl
@[simp] theorem setMill_folds (s : State) (m : Nat) (v : Mill) : (s.setMill m v).folds = s.folds := rfl
@[simp] theorem setMill_held (s : State) (m : Nat) (v : Mill) : (s.setMill m v).held = s.held := rfl
@[simp] theorem setMill_invals (s : State) (m : Nat) (v : Mill) : (s.setMill m v).invals = s.invals := rfl
@[simp] theorem setMill_invalWaits (s : State) (m : Nat) (v : Mill) : (s.setMill m v).invalWaits = s.invalWaits := rfl
@[simp] theorem setMill_pins (s : State) (m : Nat) (v : Mill) : (s.setMill m v).pins = s.pins := rfl
@[simp] theorem setMill_walked (s : State) (m : Nat) (v : Mill) : (s.setMill m v).walked = s.walked := rfl
@[simp] theorem setMill_images (s : State) (m : Nat) (v : Mill) : (s.setMill m v).images = s.images := rfl
@[simp] theorem setMill_failed (s : State) (m : Nat) (v : Mill) : (s.setMill m v).failed = s.failed := rfl
@[simp] theorem setMill_starting (s : State) (m : Nat) (v : Mill) : (s.setMill m v).starting = s.starting := rfl
@[simp] theorem setMill_calibrating (s : State) (m : Nat) (v : Mill) : (s.setMill m v).calibrating = s.calibrating := rfl
@[simp] theorem setMill_resumeStep (s : State) (m : Nat) (v : Mill) : (s.setMill m v).resumeStep = s.resumeStep := rfl
@[simp] theorem setMill_fenced (s : State) (m : Nat) (v : Mill) : (s.setMill m v).fenced = s.fenced := rfl
@[simp] theorem setMill_mapped (s : State) (m : Nat) (v : Mill) : (s.setMill m v).mapped = s.mapped := rfl
@[simp] theorem setMill_kills (s : State) (m : Nat) (v : Mill) : (s.setMill m v).kills = s.kills := rfl
@[simp] theorem setMill_noTarget (s : State) (m : Nat) (v : Mill) : (s.setMill m v).noTarget = s.noTarget := rfl
@[simp] theorem setMill_targetTimes (s : State) (m : Nat) (v : Mill) : (s.setMill m v).targetTimes = s.targetTimes := rfl
@[simp] theorem setMill_pkg (s : State) (m : Nat) (v : Mill) : (s.setMill m v).pkg = s.pkg := rfl
@[simp] theorem setMill_capacityTier (s : State) (m : Nat) (v : Mill) : (s.setMill m v).capacityTier = s.capacityTier := rfl
@[simp] theorem setMill_heartbeats (s : State) (m : Nat) (v : Mill) : (s.setMill m v).heartbeats = s.heartbeats := rfl
@[simp] theorem setMill_holdTimer (s : State) (m : Nat) (v : Mill) : (s.setMill m v).holdTimer = s.holdTimer := rfl
@[simp] theorem setMill_firmwareSaved (s : State) (m : Nat) (v : Mill) : (s.setMill m v).firmwareSaved = s.firmwareSaved := rfl
@[simp] theorem setMill_away (s : State) (m : Nat) (v : Mill) : (s.setMill m v).away = s.away := rfl
@[simp] theorem setMill_creates (s : State) (m : Nat) (v : Mill) : (s.setMill m v).creates = s.creates := rfl
@[simp] theorem setMill_keys (s : State) (m : Nat) (v : Mill) : (s.setMill m v).keys = s.keys := rfl
@[simp] theorem setMill_interrupts (s : State) (m : Nat) (v : Mill) : (s.setMill m v).interrupts = s.interrupts := rfl
@[simp] theorem setMill_answers (s : State) (m : Nat) (v : Mill) : (s.setMill m v).answers = s.answers := rfl

/-! ### `State.modMill` -/

@[simp] theorem modMill_agenda (s : State) (m : Nat) (g : Mill → Mill) : (s.modMill m g).agenda = s.agenda := rfl
@[simp] theorem modMill_cur (s : State) (m : Nat) (g : Mill → Mill) : (s.modMill m g).cur = s.cur := rfl
@[simp] theorem modMill_defer (s : State) (m : Nat) (g : Mill → Mill) : (s.modMill m g).defer = s.defer := rfl
@[simp] theorem modMill_last (s : State) (m : Nat) (g : Mill → Mill) : (s.modMill m g).last = s.last := rfl
@[simp] theorem modMill_round (s : State) (m : Nat) (g : Mill → Mill) : (s.modMill m g).round = s.round := rfl
@[simp] theorem modMill_fresh (s : State) (m : Nat) (g : Mill → Mill) : (s.modMill m g).fresh = s.fresh := rfl
@[simp] theorem modMill_gtime (s : State) (m : Nat) (g : Mill → Mill) : (s.modMill m g).gtime = s.gtime := rfl
@[simp] theorem modMill_agents (s : State) (m : Nat) (g : Mill → Mill) : (s.modMill m g).agents = s.agents := rfl
@[simp] theorem modMill_stretched (s : State) (m : Nat) (g : Mill → Mill) : (s.modMill m g).stretched = s.stretched := rfl
@[simp] theorem modMill_regulators (s : State) (m : Nat) (g : Mill → Mill) : (s.modMill m g).regulators = s.regulators := rfl
@[simp] theorem modMill_counters (s : State) (m : Nat) (g : Mill → Mill) : (s.modMill m g).counters = s.counters := rfl
@[simp] theorem modMill_regs (s : State) (m : Nat) (g : Mill → Mill) : (s.modMill m g).regs = s.regs := rfl
@[simp] theorem modMill_tags (s : State) (m : Nat) (g : Mill → Mill) : (s.modMill m g).tags = s.tags := rfl
@[simp] theorem modMill_dev (s : State) (m : Nat) (g : Mill → Mill) : (s.modMill m g).dev = s.dev := rfl
@[simp] theorem modMill_host (s : State) (m : Nat) (g : Mill → Mill) : (s.modMill m g).host = s.host := rfl
@[simp] theorem modMill_peer (s : State) (m : Nat) (g : Mill → Mill) : (s.modMill m g).peer = s.peer := rfl
@[simp] theorem modMill_scr (s : State) (m : Nat) (g : Mill → Mill) : (s.modMill m g).scr = s.scr := rfl
@[simp] theorem modMill_errors (s : State) (m : Nat) (g : Mill → Mill) : (s.modMill m g).errors = s.errors := rfl
@[simp] theorem modMill_installed (s : State) (m : Nat) (g : Mill → Mill) : (s.modMill m g).installed = s.installed := rfl
@[simp] theorem modMill_tiers (s : State) (m : Nat) (g : Mill → Mill) : (s.modMill m g).tiers = s.tiers := rfl
@[simp] theorem modMill_owners (s : State) (m : Nat) (g : Mill → Mill) : (s.modMill m g).owners = s.owners := rfl
@[simp] theorem modMill_launches (s : State) (m : Nat) (g : Mill → Mill) : (s.modMill m g).launches = s.launches := rfl
@[simp] theorem modMill_queues (s : State) (m : Nat) (g : Mill → Mill) : (s.modMill m g).queues = s.queues := rfl
@[simp] theorem modMill_books (s : State) (m : Nat) (g : Mill → Mill) : (s.modMill m g).books = s.books := rfl
@[simp] theorem modMill_appended (s : State) (m : Nat) (g : Mill → Mill) : (s.modMill m g).appended = s.appended := rfl
@[simp] theorem modMill_jobs (s : State) (m : Nat) (g : Mill → Mill) : (s.modMill m g).jobs = s.jobs := rfl
@[simp] theorem modMill_nextJob (s : State) (m : Nat) (g : Mill → Mill) : (s.modMill m g).nextJob = s.nextJob := rfl
@[simp] theorem modMill_folds (s : State) (m : Nat) (g : Mill → Mill) : (s.modMill m g).folds = s.folds := rfl
@[simp] theorem modMill_held (s : State) (m : Nat) (g : Mill → Mill) : (s.modMill m g).held = s.held := rfl
@[simp] theorem modMill_invals (s : State) (m : Nat) (g : Mill → Mill) : (s.modMill m g).invals = s.invals := rfl
@[simp] theorem modMill_invalWaits (s : State) (m : Nat) (g : Mill → Mill) : (s.modMill m g).invalWaits = s.invalWaits := rfl
@[simp] theorem modMill_pins (s : State) (m : Nat) (g : Mill → Mill) : (s.modMill m g).pins = s.pins := rfl
@[simp] theorem modMill_walked (s : State) (m : Nat) (g : Mill → Mill) : (s.modMill m g).walked = s.walked := rfl
@[simp] theorem modMill_images (s : State) (m : Nat) (g : Mill → Mill) : (s.modMill m g).images = s.images := rfl
@[simp] theorem modMill_failed (s : State) (m : Nat) (g : Mill → Mill) : (s.modMill m g).failed = s.failed := rfl
@[simp] theorem modMill_starting (s : State) (m : Nat) (g : Mill → Mill) : (s.modMill m g).starting = s.starting := rfl
@[simp] theorem modMill_calibrating (s : State) (m : Nat) (g : Mill → Mill) : (s.modMill m g).calibrating = s.calibrating := rfl
@[simp] theorem modMill_resumeStep (s : State) (m : Nat) (g : Mill → Mill) : (s.modMill m g).resumeStep = s.resumeStep := rfl
@[simp] theorem modMill_fenced (s : State) (m : Nat) (g : Mill → Mill) : (s.modMill m g).fenced = s.fenced := rfl
@[simp] theorem modMill_mapped (s : State) (m : Nat) (g : Mill → Mill) : (s.modMill m g).mapped = s.mapped := rfl
@[simp] theorem modMill_kills (s : State) (m : Nat) (g : Mill → Mill) : (s.modMill m g).kills = s.kills := rfl
@[simp] theorem modMill_noTarget (s : State) (m : Nat) (g : Mill → Mill) : (s.modMill m g).noTarget = s.noTarget := rfl
@[simp] theorem modMill_targetTimes (s : State) (m : Nat) (g : Mill → Mill) : (s.modMill m g).targetTimes = s.targetTimes := rfl
@[simp] theorem modMill_pkg (s : State) (m : Nat) (g : Mill → Mill) : (s.modMill m g).pkg = s.pkg := rfl
@[simp] theorem modMill_capacityTier (s : State) (m : Nat) (g : Mill → Mill) : (s.modMill m g).capacityTier = s.capacityTier := rfl
@[simp] theorem modMill_heartbeats (s : State) (m : Nat) (g : Mill → Mill) : (s.modMill m g).heartbeats = s.heartbeats := rfl
@[simp] theorem modMill_holdTimer (s : State) (m : Nat) (g : Mill → Mill) : (s.modMill m g).holdTimer = s.holdTimer := rfl
@[simp] theorem modMill_firmwareSaved (s : State) (m : Nat) (g : Mill → Mill) : (s.modMill m g).firmwareSaved = s.firmwareSaved := rfl
@[simp] theorem modMill_away (s : State) (m : Nat) (g : Mill → Mill) : (s.modMill m g).away = s.away := rfl
@[simp] theorem modMill_creates (s : State) (m : Nat) (g : Mill → Mill) : (s.modMill m g).creates = s.creates := rfl
@[simp] theorem modMill_keys (s : State) (m : Nat) (g : Mill → Mill) : (s.modMill m g).keys = s.keys := rfl
@[simp] theorem modMill_interrupts (s : State) (m : Nat) (g : Mill → Mill) : (s.modMill m g).interrupts = s.interrupts := rfl
@[simp] theorem modMill_answers (s : State) (m : Nat) (g : Mill → Mill) : (s.modMill m g).answers = s.answers := rfl

/-! ### `State.setQueue` -/

@[simp] theorem setQueue_agenda (s : State) (die slot : Nat) (q : Queue) : (s.setQueue die slot q).agenda = s.agenda := rfl
@[simp] theorem setQueue_cur (s : State) (die slot : Nat) (q : Queue) : (s.setQueue die slot q).cur = s.cur := rfl
@[simp] theorem setQueue_defer (s : State) (die slot : Nat) (q : Queue) : (s.setQueue die slot q).defer = s.defer := rfl
@[simp] theorem setQueue_last (s : State) (die slot : Nat) (q : Queue) : (s.setQueue die slot q).last = s.last := rfl
@[simp] theorem setQueue_round (s : State) (die slot : Nat) (q : Queue) : (s.setQueue die slot q).round = s.round := rfl
@[simp] theorem setQueue_fresh (s : State) (die slot : Nat) (q : Queue) : (s.setQueue die slot q).fresh = s.fresh := rfl
@[simp] theorem setQueue_gtime (s : State) (die slot : Nat) (q : Queue) : (s.setQueue die slot q).gtime = s.gtime := rfl
@[simp] theorem setQueue_agents (s : State) (die slot : Nat) (q : Queue) : (s.setQueue die slot q).agents = s.agents := rfl
@[simp] theorem setQueue_mills (s : State) (die slot : Nat) (q : Queue) : (s.setQueue die slot q).mills = s.mills := rfl
@[simp] theorem setQueue_stretched (s : State) (die slot : Nat) (q : Queue) : (s.setQueue die slot q).stretched = s.stretched := rfl
@[simp] theorem setQueue_regulators (s : State) (die slot : Nat) (q : Queue) : (s.setQueue die slot q).regulators = s.regulators := rfl
@[simp] theorem setQueue_counters (s : State) (die slot : Nat) (q : Queue) : (s.setQueue die slot q).counters = s.counters := rfl
@[simp] theorem setQueue_regs (s : State) (die slot : Nat) (q : Queue) : (s.setQueue die slot q).regs = s.regs := rfl
@[simp] theorem setQueue_tags (s : State) (die slot : Nat) (q : Queue) : (s.setQueue die slot q).tags = s.tags := rfl
@[simp] theorem setQueue_dev (s : State) (die slot : Nat) (q : Queue) : (s.setQueue die slot q).dev = s.dev := rfl
@[simp] theorem setQueue_host (s : State) (die slot : Nat) (q : Queue) : (s.setQueue die slot q).host = s.host := rfl
@[simp] theorem setQueue_peer (s : State) (die slot : Nat) (q : Queue) : (s.setQueue die slot q).peer = s.peer := rfl
@[simp] theorem setQueue_scr (s : State) (die slot : Nat) (q : Queue) : (s.setQueue die slot q).scr = s.scr := rfl
@[simp] theorem setQueue_errors (s : State) (die slot : Nat) (q : Queue) : (s.setQueue die slot q).errors = s.errors := rfl
@[simp] theorem setQueue_installed (s : State) (die slot : Nat) (q : Queue) : (s.setQueue die slot q).installed = s.installed := rfl
@[simp] theorem setQueue_tiers (s : State) (die slot : Nat) (q : Queue) : (s.setQueue die slot q).tiers = s.tiers := rfl
@[simp] theorem setQueue_owners (s : State) (die slot : Nat) (q : Queue) : (s.setQueue die slot q).owners = s.owners := rfl
@[simp] theorem setQueue_launches (s : State) (die slot : Nat) (q : Queue) : (s.setQueue die slot q).launches = s.launches := rfl
@[simp] theorem setQueue_books (s : State) (die slot : Nat) (q : Queue) : (s.setQueue die slot q).books = s.books := rfl
@[simp] theorem setQueue_appended (s : State) (die slot : Nat) (q : Queue) : (s.setQueue die slot q).appended = s.appended := rfl
@[simp] theorem setQueue_jobs (s : State) (die slot : Nat) (q : Queue) : (s.setQueue die slot q).jobs = s.jobs := rfl
@[simp] theorem setQueue_nextJob (s : State) (die slot : Nat) (q : Queue) : (s.setQueue die slot q).nextJob = s.nextJob := rfl
@[simp] theorem setQueue_folds (s : State) (die slot : Nat) (q : Queue) : (s.setQueue die slot q).folds = s.folds := rfl
@[simp] theorem setQueue_held (s : State) (die slot : Nat) (q : Queue) : (s.setQueue die slot q).held = s.held := rfl
@[simp] theorem setQueue_invals (s : State) (die slot : Nat) (q : Queue) : (s.setQueue die slot q).invals = s.invals := rfl
@[simp] theorem setQueue_invalWaits (s : State) (die slot : Nat) (q : Queue) : (s.setQueue die slot q).invalWaits = s.invalWaits := rfl
@[simp] theorem setQueue_pins (s : State) (die slot : Nat) (q : Queue) : (s.setQueue die slot q).pins = s.pins := rfl
@[simp] theorem setQueue_walked (s : State) (die slot : Nat) (q : Queue) : (s.setQueue die slot q).walked = s.walked := rfl
@[simp] theorem setQueue_images (s : State) (die slot : Nat) (q : Queue) : (s.setQueue die slot q).images = s.images := rfl
@[simp] theorem setQueue_failed (s : State) (die slot : Nat) (q : Queue) : (s.setQueue die slot q).failed = s.failed := rfl
@[simp] theorem setQueue_starting (s : State) (die slot : Nat) (q : Queue) : (s.setQueue die slot q).starting = s.starting := rfl
@[simp] theorem setQueue_calibrating (s : State) (die slot : Nat) (q : Queue) : (s.setQueue die slot q).calibrating = s.calibrating := rfl
@[simp] theorem setQueue_resumeStep (s : State) (die slot : Nat) (q : Queue) : (s.setQueue die slot q).resumeStep = s.resumeStep := rfl
@[simp] theorem setQueue_fenced (s : State) (die slot : Nat) (q : Queue) : (s.setQueue die slot q).fenced = s.fenced := rfl
@[simp] theorem setQueue_mapped (s : State) (die slot : Nat) (q : Queue) : (s.setQueue die slot q).mapped = s.mapped := rfl
@[simp] theorem setQueue_kills (s : State) (die slot : Nat) (q : Queue) : (s.setQueue die slot q).kills = s.kills := rfl
@[simp] theorem setQueue_noTarget (s : State) (die slot : Nat) (q : Queue) : (s.setQueue die slot q).noTarget = s.noTarget := rfl
@[simp] theorem setQueue_targetTimes (s : State) (die slot : Nat) (q : Queue) : (s.setQueue die slot q).targetTimes = s.targetTimes := rfl
@[simp] theorem setQueue_pkg (s : State) (die slot : Nat) (q : Queue) : (s.setQueue die slot q).pkg = s.pkg := rfl
@[simp] theorem setQueue_capacityTier (s : State) (die slot : Nat) (q : Queue) : (s.setQueue die slot q).capacityTier = s.capacityTier := rfl
@[simp] theorem setQueue_heartbeats (s : State) (die slot : Nat) (q : Queue) : (s.setQueue die slot q).heartbeats = s.heartbeats := rfl
@[simp] theorem setQueue_holdTimer (s : State) (die slot : Nat) (q : Queue) : (s.setQueue die slot q).holdTimer = s.holdTimer := rfl
@[simp] theorem setQueue_firmwareSaved (s : State) (die slot : Nat) (q : Queue) : (s.setQueue die slot q).firmwareSaved = s.firmwareSaved := rfl
@[simp] theorem setQueue_away (s : State) (die slot : Nat) (q : Queue) : (s.setQueue die slot q).away = s.away := rfl
@[simp] theorem setQueue_creates (s : State) (die slot : Nat) (q : Queue) : (s.setQueue die slot q).creates = s.creates := rfl
@[simp] theorem setQueue_keys (s : State) (die slot : Nat) (q : Queue) : (s.setQueue die slot q).keys = s.keys := rfl
@[simp] theorem setQueue_interrupts (s : State) (die slot : Nat) (q : Queue) : (s.setQueue die slot q).interrupts = s.interrupts := rfl
@[simp] theorem setQueue_answers (s : State) (die slot : Nat) (q : Queue) : (s.setQueue die slot q).answers = s.answers := rfl

/-! ### `State.modQueue` -/

@[simp] theorem modQueue_agenda (s : State) (die slot : Nat) (g : Queue → Queue) : (s.modQueue die slot g).agenda = s.agenda := rfl
@[simp] theorem modQueue_cur (s : State) (die slot : Nat) (g : Queue → Queue) : (s.modQueue die slot g).cur = s.cur := rfl
@[simp] theorem modQueue_defer (s : State) (die slot : Nat) (g : Queue → Queue) : (s.modQueue die slot g).defer = s.defer := rfl
@[simp] theorem modQueue_last (s : State) (die slot : Nat) (g : Queue → Queue) : (s.modQueue die slot g).last = s.last := rfl
@[simp] theorem modQueue_round (s : State) (die slot : Nat) (g : Queue → Queue) : (s.modQueue die slot g).round = s.round := rfl
@[simp] theorem modQueue_fresh (s : State) (die slot : Nat) (g : Queue → Queue) : (s.modQueue die slot g).fresh = s.fresh := rfl
@[simp] theorem modQueue_gtime (s : State) (die slot : Nat) (g : Queue → Queue) : (s.modQueue die slot g).gtime = s.gtime := rfl
@[simp] theorem modQueue_agents (s : State) (die slot : Nat) (g : Queue → Queue) : (s.modQueue die slot g).agents = s.agents := rfl
@[simp] theorem modQueue_mills (s : State) (die slot : Nat) (g : Queue → Queue) : (s.modQueue die slot g).mills = s.mills := rfl
@[simp] theorem modQueue_stretched (s : State) (die slot : Nat) (g : Queue → Queue) : (s.modQueue die slot g).stretched = s.stretched := rfl
@[simp] theorem modQueue_regulators (s : State) (die slot : Nat) (g : Queue → Queue) : (s.modQueue die slot g).regulators = s.regulators := rfl
@[simp] theorem modQueue_counters (s : State) (die slot : Nat) (g : Queue → Queue) : (s.modQueue die slot g).counters = s.counters := rfl
@[simp] theorem modQueue_regs (s : State) (die slot : Nat) (g : Queue → Queue) : (s.modQueue die slot g).regs = s.regs := rfl
@[simp] theorem modQueue_tags (s : State) (die slot : Nat) (g : Queue → Queue) : (s.modQueue die slot g).tags = s.tags := rfl
@[simp] theorem modQueue_dev (s : State) (die slot : Nat) (g : Queue → Queue) : (s.modQueue die slot g).dev = s.dev := rfl
@[simp] theorem modQueue_host (s : State) (die slot : Nat) (g : Queue → Queue) : (s.modQueue die slot g).host = s.host := rfl
@[simp] theorem modQueue_peer (s : State) (die slot : Nat) (g : Queue → Queue) : (s.modQueue die slot g).peer = s.peer := rfl
@[simp] theorem modQueue_scr (s : State) (die slot : Nat) (g : Queue → Queue) : (s.modQueue die slot g).scr = s.scr := rfl
@[simp] theorem modQueue_errors (s : State) (die slot : Nat) (g : Queue → Queue) : (s.modQueue die slot g).errors = s.errors := rfl
@[simp] theorem modQueue_installed (s : State) (die slot : Nat) (g : Queue → Queue) : (s.modQueue die slot g).installed = s.installed := rfl
@[simp] theorem modQueue_tiers (s : State) (die slot : Nat) (g : Queue → Queue) : (s.modQueue die slot g).tiers = s.tiers := rfl
@[simp] theorem modQueue_owners (s : State) (die slot : Nat) (g : Queue → Queue) : (s.modQueue die slot g).owners = s.owners := rfl
@[simp] theorem modQueue_launches (s : State) (die slot : Nat) (g : Queue → Queue) : (s.modQueue die slot g).launches = s.launches := rfl
@[simp] theorem modQueue_books (s : State) (die slot : Nat) (g : Queue → Queue) : (s.modQueue die slot g).books = s.books := rfl
@[simp] theorem modQueue_appended (s : State) (die slot : Nat) (g : Queue → Queue) : (s.modQueue die slot g).appended = s.appended := rfl
@[simp] theorem modQueue_jobs (s : State) (die slot : Nat) (g : Queue → Queue) : (s.modQueue die slot g).jobs = s.jobs := rfl
@[simp] theorem modQueue_nextJob (s : State) (die slot : Nat) (g : Queue → Queue) : (s.modQueue die slot g).nextJob = s.nextJob := rfl
@[simp] theorem modQueue_folds (s : State) (die slot : Nat) (g : Queue → Queue) : (s.modQueue die slot g).folds = s.folds := rfl
@[simp] theorem modQueue_held (s : State) (die slot : Nat) (g : Queue → Queue) : (s.modQueue die slot g).held = s.held := rfl
@[simp] theorem modQueue_invals (s : State) (die slot : Nat) (g : Queue → Queue) : (s.modQueue die slot g).invals = s.invals := rfl
@[simp] theorem modQueue_invalWaits (s : State) (die slot : Nat) (g : Queue → Queue) : (s.modQueue die slot g).invalWaits = s.invalWaits := rfl
@[simp] theorem modQueue_pins (s : State) (die slot : Nat) (g : Queue → Queue) : (s.modQueue die slot g).pins = s.pins := rfl
@[simp] theorem modQueue_walked (s : State) (die slot : Nat) (g : Queue → Queue) : (s.modQueue die slot g).walked = s.walked := rfl
@[simp] theorem modQueue_images (s : State) (die slot : Nat) (g : Queue → Queue) : (s.modQueue die slot g).images = s.images := rfl
@[simp] theorem modQueue_failed (s : State) (die slot : Nat) (g : Queue → Queue) : (s.modQueue die slot g).failed = s.failed := rfl
@[simp] theorem modQueue_starting (s : State) (die slot : Nat) (g : Queue → Queue) : (s.modQueue die slot g).starting = s.starting := rfl
@[simp] theorem modQueue_calibrating (s : State) (die slot : Nat) (g : Queue → Queue) : (s.modQueue die slot g).calibrating = s.calibrating := rfl
@[simp] theorem modQueue_resumeStep (s : State) (die slot : Nat) (g : Queue → Queue) : (s.modQueue die slot g).resumeStep = s.resumeStep := rfl
@[simp] theorem modQueue_fenced (s : State) (die slot : Nat) (g : Queue → Queue) : (s.modQueue die slot g).fenced = s.fenced := rfl
@[simp] theorem modQueue_mapped (s : State) (die slot : Nat) (g : Queue → Queue) : (s.modQueue die slot g).mapped = s.mapped := rfl
@[simp] theorem modQueue_kills (s : State) (die slot : Nat) (g : Queue → Queue) : (s.modQueue die slot g).kills = s.kills := rfl
@[simp] theorem modQueue_noTarget (s : State) (die slot : Nat) (g : Queue → Queue) : (s.modQueue die slot g).noTarget = s.noTarget := rfl
@[simp] theorem modQueue_targetTimes (s : State) (die slot : Nat) (g : Queue → Queue) : (s.modQueue die slot g).targetTimes = s.targetTimes := rfl
@[simp] theorem modQueue_pkg (s : State) (die slot : Nat) (g : Queue → Queue) : (s.modQueue die slot g).pkg = s.pkg := rfl
@[simp] theorem modQueue_capacityTier (s : State) (die slot : Nat) (g : Queue → Queue) : (s.modQueue die slot g).capacityTier = s.capacityTier := rfl
@[simp] theorem modQueue_heartbeats (s : State) (die slot : Nat) (g : Queue → Queue) : (s.modQueue die slot g).heartbeats = s.heartbeats := rfl
@[simp] theorem modQueue_holdTimer (s : State) (die slot : Nat) (g : Queue → Queue) : (s.modQueue die slot g).holdTimer = s.holdTimer := rfl
@[simp] theorem modQueue_firmwareSaved (s : State) (die slot : Nat) (g : Queue → Queue) : (s.modQueue die slot g).firmwareSaved = s.firmwareSaved := rfl
@[simp] theorem modQueue_away (s : State) (die slot : Nat) (g : Queue → Queue) : (s.modQueue die slot g).away = s.away := rfl
@[simp] theorem modQueue_creates (s : State) (die slot : Nat) (g : Queue → Queue) : (s.modQueue die slot g).creates = s.creates := rfl
@[simp] theorem modQueue_keys (s : State) (die slot : Nat) (g : Queue → Queue) : (s.modQueue die slot g).keys = s.keys := rfl
@[simp] theorem modQueue_interrupts (s : State) (die slot : Nat) (g : Queue → Queue) : (s.modQueue die slot g).interrupts = s.interrupts := rfl
@[simp] theorem modQueue_answers (s : State) (die slot : Nat) (g : Queue → Queue) : (s.modQueue die slot g).answers = s.answers := rfl

/-! ### `State.setReg` -/

@[simp] theorem setReg_agenda (s : State) (w : Window) (off : Nat) (v : Dword) : (s.setReg w off v).agenda = s.agenda := rfl
@[simp] theorem setReg_cur (s : State) (w : Window) (off : Nat) (v : Dword) : (s.setReg w off v).cur = s.cur := rfl
@[simp] theorem setReg_defer (s : State) (w : Window) (off : Nat) (v : Dword) : (s.setReg w off v).defer = s.defer := rfl
@[simp] theorem setReg_last (s : State) (w : Window) (off : Nat) (v : Dword) : (s.setReg w off v).last = s.last := rfl
@[simp] theorem setReg_round (s : State) (w : Window) (off : Nat) (v : Dword) : (s.setReg w off v).round = s.round := rfl
@[simp] theorem setReg_fresh (s : State) (w : Window) (off : Nat) (v : Dword) : (s.setReg w off v).fresh = s.fresh := rfl
@[simp] theorem setReg_gtime (s : State) (w : Window) (off : Nat) (v : Dword) : (s.setReg w off v).gtime = s.gtime := rfl
@[simp] theorem setReg_agents (s : State) (w : Window) (off : Nat) (v : Dword) : (s.setReg w off v).agents = s.agents := rfl
@[simp] theorem setReg_mills (s : State) (w : Window) (off : Nat) (v : Dword) : (s.setReg w off v).mills = s.mills := rfl
@[simp] theorem setReg_stretched (s : State) (w : Window) (off : Nat) (v : Dword) : (s.setReg w off v).stretched = s.stretched := rfl
@[simp] theorem setReg_regulators (s : State) (w : Window) (off : Nat) (v : Dword) : (s.setReg w off v).regulators = s.regulators := rfl
@[simp] theorem setReg_counters (s : State) (w : Window) (off : Nat) (v : Dword) : (s.setReg w off v).counters = s.counters := rfl
@[simp] theorem setReg_tags (s : State) (w : Window) (off : Nat) (v : Dword) : (s.setReg w off v).tags = s.tags := rfl
@[simp] theorem setReg_dev (s : State) (w : Window) (off : Nat) (v : Dword) : (s.setReg w off v).dev = s.dev := rfl
@[simp] theorem setReg_host (s : State) (w : Window) (off : Nat) (v : Dword) : (s.setReg w off v).host = s.host := rfl
@[simp] theorem setReg_peer (s : State) (w : Window) (off : Nat) (v : Dword) : (s.setReg w off v).peer = s.peer := rfl
@[simp] theorem setReg_scr (s : State) (w : Window) (off : Nat) (v : Dword) : (s.setReg w off v).scr = s.scr := rfl
@[simp] theorem setReg_errors (s : State) (w : Window) (off : Nat) (v : Dword) : (s.setReg w off v).errors = s.errors := rfl
@[simp] theorem setReg_installed (s : State) (w : Window) (off : Nat) (v : Dword) : (s.setReg w off v).installed = s.installed := rfl
@[simp] theorem setReg_tiers (s : State) (w : Window) (off : Nat) (v : Dword) : (s.setReg w off v).tiers = s.tiers := rfl
@[simp] theorem setReg_owners (s : State) (w : Window) (off : Nat) (v : Dword) : (s.setReg w off v).owners = s.owners := rfl
@[simp] theorem setReg_launches (s : State) (w : Window) (off : Nat) (v : Dword) : (s.setReg w off v).launches = s.launches := rfl
@[simp] theorem setReg_queues (s : State) (w : Window) (off : Nat) (v : Dword) : (s.setReg w off v).queues = s.queues := rfl
@[simp] theorem setReg_books (s : State) (w : Window) (off : Nat) (v : Dword) : (s.setReg w off v).books = s.books := rfl
@[simp] theorem setReg_appended (s : State) (w : Window) (off : Nat) (v : Dword) : (s.setReg w off v).appended = s.appended := rfl
@[simp] theorem setReg_jobs (s : State) (w : Window) (off : Nat) (v : Dword) : (s.setReg w off v).jobs = s.jobs := rfl
@[simp] theorem setReg_nextJob (s : State) (w : Window) (off : Nat) (v : Dword) : (s.setReg w off v).nextJob = s.nextJob := rfl
@[simp] theorem setReg_folds (s : State) (w : Window) (off : Nat) (v : Dword) : (s.setReg w off v).folds = s.folds := rfl
@[simp] theorem setReg_held (s : State) (w : Window) (off : Nat) (v : Dword) : (s.setReg w off v).held = s.held := rfl
@[simp] theorem setReg_invals (s : State) (w : Window) (off : Nat) (v : Dword) : (s.setReg w off v).invals = s.invals := rfl
@[simp] theorem setReg_invalWaits (s : State) (w : Window) (off : Nat) (v : Dword) : (s.setReg w off v).invalWaits = s.invalWaits := rfl
@[simp] theorem setReg_pins (s : State) (w : Window) (off : Nat) (v : Dword) : (s.setReg w off v).pins = s.pins := rfl
@[simp] theorem setReg_walked (s : State) (w : Window) (off : Nat) (v : Dword) : (s.setReg w off v).walked = s.walked := rfl
@[simp] theorem setReg_images (s : State) (w : Window) (off : Nat) (v : Dword) : (s.setReg w off v).images = s.images := rfl
@[simp] theorem setReg_failed (s : State) (w : Window) (off : Nat) (v : Dword) : (s.setReg w off v).failed = s.failed := rfl
@[simp] theorem setReg_starting (s : State) (w : Window) (off : Nat) (v : Dword) : (s.setReg w off v).starting = s.starting := rfl
@[simp] theorem setReg_calibrating (s : State) (w : Window) (off : Nat) (v : Dword) : (s.setReg w off v).calibrating = s.calibrating := rfl
@[simp] theorem setReg_resumeStep (s : State) (w : Window) (off : Nat) (v : Dword) : (s.setReg w off v).resumeStep = s.resumeStep := rfl
@[simp] theorem setReg_fenced (s : State) (w : Window) (off : Nat) (v : Dword) : (s.setReg w off v).fenced = s.fenced := rfl
@[simp] theorem setReg_mapped (s : State) (w : Window) (off : Nat) (v : Dword) : (s.setReg w off v).mapped = s.mapped := rfl
@[simp] theorem setReg_kills (s : State) (w : Window) (off : Nat) (v : Dword) : (s.setReg w off v).kills = s.kills := rfl
@[simp] theorem setReg_noTarget (s : State) (w : Window) (off : Nat) (v : Dword) : (s.setReg w off v).noTarget = s.noTarget := rfl
@[simp] theorem setReg_targetTimes (s : State) (w : Window) (off : Nat) (v : Dword) : (s.setReg w off v).targetTimes = s.targetTimes := rfl
@[simp] theorem setReg_pkg (s : State) (w : Window) (off : Nat) (v : Dword) : (s.setReg w off v).pkg = s.pkg := rfl
@[simp] theorem setReg_capacityTier (s : State) (w : Window) (off : Nat) (v : Dword) : (s.setReg w off v).capacityTier = s.capacityTier := rfl
@[simp] theorem setReg_heartbeats (s : State) (w : Window) (off : Nat) (v : Dword) : (s.setReg w off v).heartbeats = s.heartbeats := rfl
@[simp] theorem setReg_holdTimer (s : State) (w : Window) (off : Nat) (v : Dword) : (s.setReg w off v).holdTimer = s.holdTimer := rfl
@[simp] theorem setReg_firmwareSaved (s : State) (w : Window) (off : Nat) (v : Dword) : (s.setReg w off v).firmwareSaved = s.firmwareSaved := rfl
@[simp] theorem setReg_away (s : State) (w : Window) (off : Nat) (v : Dword) : (s.setReg w off v).away = s.away := rfl
@[simp] theorem setReg_creates (s : State) (w : Window) (off : Nat) (v : Dword) : (s.setReg w off v).creates = s.creates := rfl
@[simp] theorem setReg_keys (s : State) (w : Window) (off : Nat) (v : Dword) : (s.setReg w off v).keys = s.keys := rfl
@[simp] theorem setReg_interrupts (s : State) (w : Window) (off : Nat) (v : Dword) : (s.setReg w off v).interrupts = s.interrupts := rfl
@[simp] theorem setReg_answers (s : State) (w : Window) (off : Nat) (v : Dword) : (s.setReg w off v).answers = s.answers := rfl

/-! ### `State.setField` -/

@[simp] theorem setField_agenda (s : State) (w : Window) (off lo n v : Nat) : (s.setField w off lo n v).agenda = s.agenda := rfl
@[simp] theorem setField_cur (s : State) (w : Window) (off lo n v : Nat) : (s.setField w off lo n v).cur = s.cur := rfl
@[simp] theorem setField_defer (s : State) (w : Window) (off lo n v : Nat) : (s.setField w off lo n v).defer = s.defer := rfl
@[simp] theorem setField_last (s : State) (w : Window) (off lo n v : Nat) : (s.setField w off lo n v).last = s.last := rfl
@[simp] theorem setField_round (s : State) (w : Window) (off lo n v : Nat) : (s.setField w off lo n v).round = s.round := rfl
@[simp] theorem setField_fresh (s : State) (w : Window) (off lo n v : Nat) : (s.setField w off lo n v).fresh = s.fresh := rfl
@[simp] theorem setField_gtime (s : State) (w : Window) (off lo n v : Nat) : (s.setField w off lo n v).gtime = s.gtime := rfl
@[simp] theorem setField_agents (s : State) (w : Window) (off lo n v : Nat) : (s.setField w off lo n v).agents = s.agents := rfl
@[simp] theorem setField_mills (s : State) (w : Window) (off lo n v : Nat) : (s.setField w off lo n v).mills = s.mills := rfl
@[simp] theorem setField_stretched (s : State) (w : Window) (off lo n v : Nat) : (s.setField w off lo n v).stretched = s.stretched := rfl
@[simp] theorem setField_regulators (s : State) (w : Window) (off lo n v : Nat) : (s.setField w off lo n v).regulators = s.regulators := rfl
@[simp] theorem setField_counters (s : State) (w : Window) (off lo n v : Nat) : (s.setField w off lo n v).counters = s.counters := rfl
@[simp] theorem setField_tags (s : State) (w : Window) (off lo n v : Nat) : (s.setField w off lo n v).tags = s.tags := rfl
@[simp] theorem setField_dev (s : State) (w : Window) (off lo n v : Nat) : (s.setField w off lo n v).dev = s.dev := rfl
@[simp] theorem setField_host (s : State) (w : Window) (off lo n v : Nat) : (s.setField w off lo n v).host = s.host := rfl
@[simp] theorem setField_peer (s : State) (w : Window) (off lo n v : Nat) : (s.setField w off lo n v).peer = s.peer := rfl
@[simp] theorem setField_scr (s : State) (w : Window) (off lo n v : Nat) : (s.setField w off lo n v).scr = s.scr := rfl
@[simp] theorem setField_errors (s : State) (w : Window) (off lo n v : Nat) : (s.setField w off lo n v).errors = s.errors := rfl
@[simp] theorem setField_installed (s : State) (w : Window) (off lo n v : Nat) : (s.setField w off lo n v).installed = s.installed := rfl
@[simp] theorem setField_tiers (s : State) (w : Window) (off lo n v : Nat) : (s.setField w off lo n v).tiers = s.tiers := rfl
@[simp] theorem setField_owners (s : State) (w : Window) (off lo n v : Nat) : (s.setField w off lo n v).owners = s.owners := rfl
@[simp] theorem setField_launches (s : State) (w : Window) (off lo n v : Nat) : (s.setField w off lo n v).launches = s.launches := rfl
@[simp] theorem setField_queues (s : State) (w : Window) (off lo n v : Nat) : (s.setField w off lo n v).queues = s.queues := rfl
@[simp] theorem setField_books (s : State) (w : Window) (off lo n v : Nat) : (s.setField w off lo n v).books = s.books := rfl
@[simp] theorem setField_appended (s : State) (w : Window) (off lo n v : Nat) : (s.setField w off lo n v).appended = s.appended := rfl
@[simp] theorem setField_jobs (s : State) (w : Window) (off lo n v : Nat) : (s.setField w off lo n v).jobs = s.jobs := rfl
@[simp] theorem setField_nextJob (s : State) (w : Window) (off lo n v : Nat) : (s.setField w off lo n v).nextJob = s.nextJob := rfl
@[simp] theorem setField_folds (s : State) (w : Window) (off lo n v : Nat) : (s.setField w off lo n v).folds = s.folds := rfl
@[simp] theorem setField_held (s : State) (w : Window) (off lo n v : Nat) : (s.setField w off lo n v).held = s.held := rfl
@[simp] theorem setField_invals (s : State) (w : Window) (off lo n v : Nat) : (s.setField w off lo n v).invals = s.invals := rfl
@[simp] theorem setField_invalWaits (s : State) (w : Window) (off lo n v : Nat) : (s.setField w off lo n v).invalWaits = s.invalWaits := rfl
@[simp] theorem setField_pins (s : State) (w : Window) (off lo n v : Nat) : (s.setField w off lo n v).pins = s.pins := rfl
@[simp] theorem setField_walked (s : State) (w : Window) (off lo n v : Nat) : (s.setField w off lo n v).walked = s.walked := rfl
@[simp] theorem setField_images (s : State) (w : Window) (off lo n v : Nat) : (s.setField w off lo n v).images = s.images := rfl
@[simp] theorem setField_failed (s : State) (w : Window) (off lo n v : Nat) : (s.setField w off lo n v).failed = s.failed := rfl
@[simp] theorem setField_starting (s : State) (w : Window) (off lo n v : Nat) : (s.setField w off lo n v).starting = s.starting := rfl
@[simp] theorem setField_calibrating (s : State) (w : Window) (off lo n v : Nat) : (s.setField w off lo n v).calibrating = s.calibrating := rfl
@[simp] theorem setField_resumeStep (s : State) (w : Window) (off lo n v : Nat) : (s.setField w off lo n v).resumeStep = s.resumeStep := rfl
@[simp] theorem setField_fenced (s : State) (w : Window) (off lo n v : Nat) : (s.setField w off lo n v).fenced = s.fenced := rfl
@[simp] theorem setField_mapped (s : State) (w : Window) (off lo n v : Nat) : (s.setField w off lo n v).mapped = s.mapped := rfl
@[simp] theorem setField_kills (s : State) (w : Window) (off lo n v : Nat) : (s.setField w off lo n v).kills = s.kills := rfl
@[simp] theorem setField_noTarget (s : State) (w : Window) (off lo n v : Nat) : (s.setField w off lo n v).noTarget = s.noTarget := rfl
@[simp] theorem setField_targetTimes (s : State) (w : Window) (off lo n v : Nat) : (s.setField w off lo n v).targetTimes = s.targetTimes := rfl
@[simp] theorem setField_pkg (s : State) (w : Window) (off lo n v : Nat) : (s.setField w off lo n v).pkg = s.pkg := rfl
@[simp] theorem setField_capacityTier (s : State) (w : Window) (off lo n v : Nat) : (s.setField w off lo n v).capacityTier = s.capacityTier := rfl
@[simp] theorem setField_heartbeats (s : State) (w : Window) (off lo n v : Nat) : (s.setField w off lo n v).heartbeats = s.heartbeats := rfl
@[simp] theorem setField_holdTimer (s : State) (w : Window) (off lo n v : Nat) : (s.setField w off lo n v).holdTimer = s.holdTimer := rfl
@[simp] theorem setField_firmwareSaved (s : State) (w : Window) (off lo n v : Nat) : (s.setField w off lo n v).firmwareSaved = s.firmwareSaved := rfl
@[simp] theorem setField_away (s : State) (w : Window) (off lo n v : Nat) : (s.setField w off lo n v).away = s.away := rfl
@[simp] theorem setField_creates (s : State) (w : Window) (off lo n v : Nat) : (s.setField w off lo n v).creates = s.creates := rfl
@[simp] theorem setField_keys (s : State) (w : Window) (off lo n v : Nat) : (s.setField w off lo n v).keys = s.keys := rfl
@[simp] theorem setField_interrupts (s : State) (w : Window) (off lo n v : Nat) : (s.setField w off lo n v).interrupts = s.interrupts := rfl
@[simp] theorem setField_answers (s : State) (w : Window) (off lo n v : Nat) : (s.setField w off lo n v).answers = s.answers := rfl

/-! ### `State.setLaunch` -/

@[simp] theorem setLaunch_agenda (s : State) (key : Nat) (l : Launch) : (s.setLaunch key l).agenda = s.agenda := rfl
@[simp] theorem setLaunch_cur (s : State) (key : Nat) (l : Launch) : (s.setLaunch key l).cur = s.cur := rfl
@[simp] theorem setLaunch_defer (s : State) (key : Nat) (l : Launch) : (s.setLaunch key l).defer = s.defer := rfl
@[simp] theorem setLaunch_last (s : State) (key : Nat) (l : Launch) : (s.setLaunch key l).last = s.last := rfl
@[simp] theorem setLaunch_round (s : State) (key : Nat) (l : Launch) : (s.setLaunch key l).round = s.round := rfl
@[simp] theorem setLaunch_fresh (s : State) (key : Nat) (l : Launch) : (s.setLaunch key l).fresh = s.fresh := rfl
@[simp] theorem setLaunch_gtime (s : State) (key : Nat) (l : Launch) : (s.setLaunch key l).gtime = s.gtime := rfl
@[simp] theorem setLaunch_agents (s : State) (key : Nat) (l : Launch) : (s.setLaunch key l).agents = s.agents := rfl
@[simp] theorem setLaunch_mills (s : State) (key : Nat) (l : Launch) : (s.setLaunch key l).mills = s.mills := rfl
@[simp] theorem setLaunch_stretched (s : State) (key : Nat) (l : Launch) : (s.setLaunch key l).stretched = s.stretched := rfl
@[simp] theorem setLaunch_regulators (s : State) (key : Nat) (l : Launch) : (s.setLaunch key l).regulators = s.regulators := rfl
@[simp] theorem setLaunch_counters (s : State) (key : Nat) (l : Launch) : (s.setLaunch key l).counters = s.counters := rfl
@[simp] theorem setLaunch_regs (s : State) (key : Nat) (l : Launch) : (s.setLaunch key l).regs = s.regs := rfl
@[simp] theorem setLaunch_tags (s : State) (key : Nat) (l : Launch) : (s.setLaunch key l).tags = s.tags := rfl
@[simp] theorem setLaunch_dev (s : State) (key : Nat) (l : Launch) : (s.setLaunch key l).dev = s.dev := rfl
@[simp] theorem setLaunch_host (s : State) (key : Nat) (l : Launch) : (s.setLaunch key l).host = s.host := rfl
@[simp] theorem setLaunch_peer (s : State) (key : Nat) (l : Launch) : (s.setLaunch key l).peer = s.peer := rfl
@[simp] theorem setLaunch_scr (s : State) (key : Nat) (l : Launch) : (s.setLaunch key l).scr = s.scr := rfl
@[simp] theorem setLaunch_errors (s : State) (key : Nat) (l : Launch) : (s.setLaunch key l).errors = s.errors := rfl
@[simp] theorem setLaunch_installed (s : State) (key : Nat) (l : Launch) : (s.setLaunch key l).installed = s.installed := rfl
@[simp] theorem setLaunch_tiers (s : State) (key : Nat) (l : Launch) : (s.setLaunch key l).tiers = s.tiers := rfl
@[simp] theorem setLaunch_owners (s : State) (key : Nat) (l : Launch) : (s.setLaunch key l).owners = s.owners := rfl
@[simp] theorem setLaunch_queues (s : State) (key : Nat) (l : Launch) : (s.setLaunch key l).queues = s.queues := rfl
@[simp] theorem setLaunch_books (s : State) (key : Nat) (l : Launch) : (s.setLaunch key l).books = s.books := rfl
@[simp] theorem setLaunch_appended (s : State) (key : Nat) (l : Launch) : (s.setLaunch key l).appended = s.appended := rfl
@[simp] theorem setLaunch_jobs (s : State) (key : Nat) (l : Launch) : (s.setLaunch key l).jobs = s.jobs := rfl
@[simp] theorem setLaunch_nextJob (s : State) (key : Nat) (l : Launch) : (s.setLaunch key l).nextJob = s.nextJob := rfl
@[simp] theorem setLaunch_folds (s : State) (key : Nat) (l : Launch) : (s.setLaunch key l).folds = s.folds := rfl
@[simp] theorem setLaunch_held (s : State) (key : Nat) (l : Launch) : (s.setLaunch key l).held = s.held := rfl
@[simp] theorem setLaunch_invals (s : State) (key : Nat) (l : Launch) : (s.setLaunch key l).invals = s.invals := rfl
@[simp] theorem setLaunch_invalWaits (s : State) (key : Nat) (l : Launch) : (s.setLaunch key l).invalWaits = s.invalWaits := rfl
@[simp] theorem setLaunch_pins (s : State) (key : Nat) (l : Launch) : (s.setLaunch key l).pins = s.pins := rfl
@[simp] theorem setLaunch_walked (s : State) (key : Nat) (l : Launch) : (s.setLaunch key l).walked = s.walked := rfl
@[simp] theorem setLaunch_images (s : State) (key : Nat) (l : Launch) : (s.setLaunch key l).images = s.images := rfl
@[simp] theorem setLaunch_failed (s : State) (key : Nat) (l : Launch) : (s.setLaunch key l).failed = s.failed := rfl
@[simp] theorem setLaunch_starting (s : State) (key : Nat) (l : Launch) : (s.setLaunch key l).starting = s.starting := rfl
@[simp] theorem setLaunch_calibrating (s : State) (key : Nat) (l : Launch) : (s.setLaunch key l).calibrating = s.calibrating := rfl
@[simp] theorem setLaunch_resumeStep (s : State) (key : Nat) (l : Launch) : (s.setLaunch key l).resumeStep = s.resumeStep := rfl
@[simp] theorem setLaunch_fenced (s : State) (key : Nat) (l : Launch) : (s.setLaunch key l).fenced = s.fenced := rfl
@[simp] theorem setLaunch_mapped (s : State) (key : Nat) (l : Launch) : (s.setLaunch key l).mapped = s.mapped := rfl
@[simp] theorem setLaunch_kills (s : State) (key : Nat) (l : Launch) : (s.setLaunch key l).kills = s.kills := rfl
@[simp] theorem setLaunch_noTarget (s : State) (key : Nat) (l : Launch) : (s.setLaunch key l).noTarget = s.noTarget := rfl
@[simp] theorem setLaunch_targetTimes (s : State) (key : Nat) (l : Launch) : (s.setLaunch key l).targetTimes = s.targetTimes := rfl
@[simp] theorem setLaunch_pkg (s : State) (key : Nat) (l : Launch) : (s.setLaunch key l).pkg = s.pkg := rfl
@[simp] theorem setLaunch_capacityTier (s : State) (key : Nat) (l : Launch) : (s.setLaunch key l).capacityTier = s.capacityTier := rfl
@[simp] theorem setLaunch_heartbeats (s : State) (key : Nat) (l : Launch) : (s.setLaunch key l).heartbeats = s.heartbeats := rfl
@[simp] theorem setLaunch_holdTimer (s : State) (key : Nat) (l : Launch) : (s.setLaunch key l).holdTimer = s.holdTimer := rfl
@[simp] theorem setLaunch_firmwareSaved (s : State) (key : Nat) (l : Launch) : (s.setLaunch key l).firmwareSaved = s.firmwareSaved := rfl
@[simp] theorem setLaunch_away (s : State) (key : Nat) (l : Launch) : (s.setLaunch key l).away = s.away := rfl
@[simp] theorem setLaunch_creates (s : State) (key : Nat) (l : Launch) : (s.setLaunch key l).creates = s.creates := rfl
@[simp] theorem setLaunch_keys (s : State) (key : Nat) (l : Launch) : (s.setLaunch key l).keys = s.keys := rfl
@[simp] theorem setLaunch_interrupts (s : State) (key : Nat) (l : Launch) : (s.setLaunch key l).interrupts = s.interrupts := rfl
@[simp] theorem setLaunch_answers (s : State) (key : Nat) (l : Launch) : (s.setLaunch key l).answers = s.answers := rfl

/-! ### `State.interrupt` -/

@[simp] theorem interrupt_agenda (s : State) (i : Interrupt) : (s.interrupt i).agenda = s.agenda := rfl
@[simp] theorem interrupt_cur (s : State) (i : Interrupt) : (s.interrupt i).cur = s.cur := rfl
@[simp] theorem interrupt_defer (s : State) (i : Interrupt) : (s.interrupt i).defer = s.defer := rfl
@[simp] theorem interrupt_last (s : State) (i : Interrupt) : (s.interrupt i).last = s.last := rfl
@[simp] theorem interrupt_round (s : State) (i : Interrupt) : (s.interrupt i).round = s.round := rfl
@[simp] theorem interrupt_fresh (s : State) (i : Interrupt) : (s.interrupt i).fresh = s.fresh := rfl
@[simp] theorem interrupt_gtime (s : State) (i : Interrupt) : (s.interrupt i).gtime = s.gtime := rfl
@[simp] theorem interrupt_agents (s : State) (i : Interrupt) : (s.interrupt i).agents = s.agents := rfl
@[simp] theorem interrupt_mills (s : State) (i : Interrupt) : (s.interrupt i).mills = s.mills := rfl
@[simp] theorem interrupt_stretched (s : State) (i : Interrupt) : (s.interrupt i).stretched = s.stretched := rfl
@[simp] theorem interrupt_regulators (s : State) (i : Interrupt) : (s.interrupt i).regulators = s.regulators := rfl
@[simp] theorem interrupt_counters (s : State) (i : Interrupt) : (s.interrupt i).counters = s.counters := rfl
@[simp] theorem interrupt_regs (s : State) (i : Interrupt) : (s.interrupt i).regs = s.regs := rfl
@[simp] theorem interrupt_tags (s : State) (i : Interrupt) : (s.interrupt i).tags = s.tags := rfl
@[simp] theorem interrupt_dev (s : State) (i : Interrupt) : (s.interrupt i).dev = s.dev := rfl
@[simp] theorem interrupt_host (s : State) (i : Interrupt) : (s.interrupt i).host = s.host := rfl
@[simp] theorem interrupt_peer (s : State) (i : Interrupt) : (s.interrupt i).peer = s.peer := rfl
@[simp] theorem interrupt_scr (s : State) (i : Interrupt) : (s.interrupt i).scr = s.scr := rfl
@[simp] theorem interrupt_errors (s : State) (i : Interrupt) : (s.interrupt i).errors = s.errors := rfl
@[simp] theorem interrupt_installed (s : State) (i : Interrupt) : (s.interrupt i).installed = s.installed := rfl
@[simp] theorem interrupt_tiers (s : State) (i : Interrupt) : (s.interrupt i).tiers = s.tiers := rfl
@[simp] theorem interrupt_owners (s : State) (i : Interrupt) : (s.interrupt i).owners = s.owners := rfl
@[simp] theorem interrupt_launches (s : State) (i : Interrupt) : (s.interrupt i).launches = s.launches := rfl
@[simp] theorem interrupt_queues (s : State) (i : Interrupt) : (s.interrupt i).queues = s.queues := rfl
@[simp] theorem interrupt_books (s : State) (i : Interrupt) : (s.interrupt i).books = s.books := rfl
@[simp] theorem interrupt_appended (s : State) (i : Interrupt) : (s.interrupt i).appended = s.appended := rfl
@[simp] theorem interrupt_jobs (s : State) (i : Interrupt) : (s.interrupt i).jobs = s.jobs := rfl
@[simp] theorem interrupt_nextJob (s : State) (i : Interrupt) : (s.interrupt i).nextJob = s.nextJob := rfl
@[simp] theorem interrupt_folds (s : State) (i : Interrupt) : (s.interrupt i).folds = s.folds := rfl
@[simp] theorem interrupt_held (s : State) (i : Interrupt) : (s.interrupt i).held = s.held := rfl
@[simp] theorem interrupt_invals (s : State) (i : Interrupt) : (s.interrupt i).invals = s.invals := rfl
@[simp] theorem interrupt_invalWaits (s : State) (i : Interrupt) : (s.interrupt i).invalWaits = s.invalWaits := rfl
@[simp] theorem interrupt_pins (s : State) (i : Interrupt) : (s.interrupt i).pins = s.pins := rfl
@[simp] theorem interrupt_walked (s : State) (i : Interrupt) : (s.interrupt i).walked = s.walked := rfl
@[simp] theorem interrupt_images (s : State) (i : Interrupt) : (s.interrupt i).images = s.images := rfl
@[simp] theorem interrupt_failed (s : State) (i : Interrupt) : (s.interrupt i).failed = s.failed := rfl
@[simp] theorem interrupt_starting (s : State) (i : Interrupt) : (s.interrupt i).starting = s.starting := rfl
@[simp] theorem interrupt_calibrating (s : State) (i : Interrupt) : (s.interrupt i).calibrating = s.calibrating := rfl
@[simp] theorem interrupt_resumeStep (s : State) (i : Interrupt) : (s.interrupt i).resumeStep = s.resumeStep := rfl
@[simp] theorem interrupt_fenced (s : State) (i : Interrupt) : (s.interrupt i).fenced = s.fenced := rfl
@[simp] theorem interrupt_mapped (s : State) (i : Interrupt) : (s.interrupt i).mapped = s.mapped := rfl
@[simp] theorem interrupt_kills (s : State) (i : Interrupt) : (s.interrupt i).kills = s.kills := rfl
@[simp] theorem interrupt_noTarget (s : State) (i : Interrupt) : (s.interrupt i).noTarget = s.noTarget := rfl
@[simp] theorem interrupt_targetTimes (s : State) (i : Interrupt) : (s.interrupt i).targetTimes = s.targetTimes := rfl
@[simp] theorem interrupt_pkg (s : State) (i : Interrupt) : (s.interrupt i).pkg = s.pkg := rfl
@[simp] theorem interrupt_capacityTier (s : State) (i : Interrupt) : (s.interrupt i).capacityTier = s.capacityTier := rfl
@[simp] theorem interrupt_heartbeats (s : State) (i : Interrupt) : (s.interrupt i).heartbeats = s.heartbeats := rfl
@[simp] theorem interrupt_holdTimer (s : State) (i : Interrupt) : (s.interrupt i).holdTimer = s.holdTimer := rfl
@[simp] theorem interrupt_firmwareSaved (s : State) (i : Interrupt) : (s.interrupt i).firmwareSaved = s.firmwareSaved := rfl
@[simp] theorem interrupt_away (s : State) (i : Interrupt) : (s.interrupt i).away = s.away := rfl
@[simp] theorem interrupt_creates (s : State) (i : Interrupt) : (s.interrupt i).creates = s.creates := rfl
@[simp] theorem interrupt_keys (s : State) (i : Interrupt) : (s.interrupt i).keys = s.keys := rfl
@[simp] theorem interrupt_answers (s : State) (i : Interrupt) : (s.interrupt i).answers = s.answers := rfl

/-! ### `State.answer` -/

@[simp] theorem answer_agenda (s : State) (a : Answer) : (s.answer a).agenda = s.agenda := rfl
@[simp] theorem answer_cur (s : State) (a : Answer) : (s.answer a).cur = s.cur := rfl
@[simp] theorem answer_defer (s : State) (a : Answer) : (s.answer a).defer = s.defer := rfl
@[simp] theorem answer_last (s : State) (a : Answer) : (s.answer a).last = s.last := rfl
@[simp] theorem answer_round (s : State) (a : Answer) : (s.answer a).round = s.round := rfl
@[simp] theorem answer_fresh (s : State) (a : Answer) : (s.answer a).fresh = s.fresh := rfl
@[simp] theorem answer_gtime (s : State) (a : Answer) : (s.answer a).gtime = s.gtime := rfl
@[simp] theorem answer_agents (s : State) (a : Answer) : (s.answer a).agents = s.agents := rfl
@[simp] theorem answer_mills (s : State) (a : Answer) : (s.answer a).mills = s.mills := rfl
@[simp] theorem answer_stretched (s : State) (a : Answer) : (s.answer a).stretched = s.stretched := rfl
@[simp] theorem answer_regulators (s : State) (a : Answer) : (s.answer a).regulators = s.regulators := rfl
@[simp] theorem answer_counters (s : State) (a : Answer) : (s.answer a).counters = s.counters := rfl
@[simp] theorem answer_regs (s : State) (a : Answer) : (s.answer a).regs = s.regs := rfl
@[simp] theorem answer_tags (s : State) (a : Answer) : (s.answer a).tags = s.tags := rfl
@[simp] theorem answer_dev (s : State) (a : Answer) : (s.answer a).dev = s.dev := rfl
@[simp] theorem answer_host (s : State) (a : Answer) : (s.answer a).host = s.host := rfl
@[simp] theorem answer_peer (s : State) (a : Answer) : (s.answer a).peer = s.peer := rfl
@[simp] theorem answer_scr (s : State) (a : Answer) : (s.answer a).scr = s.scr := rfl
@[simp] theorem answer_errors (s : State) (a : Answer) : (s.answer a).errors = s.errors := rfl
@[simp] theorem answer_installed (s : State) (a : Answer) : (s.answer a).installed = s.installed := rfl
@[simp] theorem answer_tiers (s : State) (a : Answer) : (s.answer a).tiers = s.tiers := rfl
@[simp] theorem answer_owners (s : State) (a : Answer) : (s.answer a).owners = s.owners := rfl
@[simp] theorem answer_launches (s : State) (a : Answer) : (s.answer a).launches = s.launches := rfl
@[simp] theorem answer_queues (s : State) (a : Answer) : (s.answer a).queues = s.queues := rfl
@[simp] theorem answer_books (s : State) (a : Answer) : (s.answer a).books = s.books := rfl
@[simp] theorem answer_appended (s : State) (a : Answer) : (s.answer a).appended = s.appended := rfl
@[simp] theorem answer_jobs (s : State) (a : Answer) : (s.answer a).jobs = s.jobs := rfl
@[simp] theorem answer_nextJob (s : State) (a : Answer) : (s.answer a).nextJob = s.nextJob := rfl
@[simp] theorem answer_folds (s : State) (a : Answer) : (s.answer a).folds = s.folds := rfl
@[simp] theorem answer_held (s : State) (a : Answer) : (s.answer a).held = s.held := rfl
@[simp] theorem answer_invals (s : State) (a : Answer) : (s.answer a).invals = s.invals := rfl
@[simp] theorem answer_invalWaits (s : State) (a : Answer) : (s.answer a).invalWaits = s.invalWaits := rfl
@[simp] theorem answer_pins (s : State) (a : Answer) : (s.answer a).pins = s.pins := rfl
@[simp] theorem answer_walked (s : State) (a : Answer) : (s.answer a).walked = s.walked := rfl
@[simp] theorem answer_images (s : State) (a : Answer) : (s.answer a).images = s.images := rfl
@[simp] theorem answer_failed (s : State) (a : Answer) : (s.answer a).failed = s.failed := rfl
@[simp] theorem answer_starting (s : State) (a : Answer) : (s.answer a).starting = s.starting := rfl
@[simp] theorem answer_calibrating (s : State) (a : Answer) : (s.answer a).calibrating = s.calibrating := rfl
@[simp] theorem answer_resumeStep (s : State) (a : Answer) : (s.answer a).resumeStep = s.resumeStep := rfl
@[simp] theorem answer_fenced (s : State) (a : Answer) : (s.answer a).fenced = s.fenced := rfl
@[simp] theorem answer_mapped (s : State) (a : Answer) : (s.answer a).mapped = s.mapped := rfl
@[simp] theorem answer_kills (s : State) (a : Answer) : (s.answer a).kills = s.kills := rfl
@[simp] theorem answer_noTarget (s : State) (a : Answer) : (s.answer a).noTarget = s.noTarget := rfl
@[simp] theorem answer_targetTimes (s : State) (a : Answer) : (s.answer a).targetTimes = s.targetTimes := rfl
@[simp] theorem answer_pkg (s : State) (a : Answer) : (s.answer a).pkg = s.pkg := rfl
@[simp] theorem answer_capacityTier (s : State) (a : Answer) : (s.answer a).capacityTier = s.capacityTier := rfl
@[simp] theorem answer_heartbeats (s : State) (a : Answer) : (s.answer a).heartbeats = s.heartbeats := rfl
@[simp] theorem answer_holdTimer (s : State) (a : Answer) : (s.answer a).holdTimer = s.holdTimer := rfl
@[simp] theorem answer_firmwareSaved (s : State) (a : Answer) : (s.answer a).firmwareSaved = s.firmwareSaved := rfl
@[simp] theorem answer_away (s : State) (a : Answer) : (s.answer a).away = s.away := rfl
@[simp] theorem answer_creates (s : State) (a : Answer) : (s.answer a).creates = s.creates := rfl
@[simp] theorem answer_keys (s : State) (a : Answer) : (s.answer a).keys = s.keys := rfl
@[simp] theorem answer_interrupts (s : State) (a : Answer) : (s.answer a).interrupts = s.interrupts := rfl

/-! ### Reads of tables after an update -/

@[simp] theorem ctx_setCtx_same (s : State) (f : Nat) (c : Ctx) : (s.setCtx f c).ctx f = c := by
  simp [State.ctx, State.setCtx]
theorem ctx_setCtx_other (s : State) (f g : Nat) (c : Ctx) (h : g ≠ f) : (s.setCtx f c).ctx g = s.ctx g := by
  simp [State.ctx, State.setCtx, getD_put_other _ _ _ _ _ h]
@[simp] theorem ctx_modCtx_same (s : State) (f : Nat) (k : Ctx → Ctx) : (s.modCtx f k).ctx f = k (s.ctx f) := by
  simp [State.modCtx]
theorem ctx_modCtx_other (s : State) (f g : Nat) (k : Ctx → Ctx) (h : g ≠ f) : (s.modCtx f k).ctx g = s.ctx g := by
  simp [State.modCtx, ctx_setCtx_other _ _ _ _ h]
@[simp] theorem setCtx_setCtx (s : State) (f : Nat) (c d : Ctx) : (s.setCtx f c).setCtx f d = s.setCtx f d := by
  simp [State.setCtx, put_put]
@[simp] theorem modCtx_setCtx (s : State) (f : Nat) (c : Ctx) (k : Ctx → Ctx) :
    (s.setCtx f c).modCtx f k = s.setCtx f (k c) := by
  simp [State.modCtx]
@[simp] theorem mill_setMill_same (s : State) (m : Nat) (v : Mill) : (s.setMill m v).mill m = v := by
  simp [State.mill, State.setMill]
theorem mill_setMill_other (s : State) (m n : Nat) (v : Mill) (h : n ≠ m) : (s.setMill m v).mill n = s.mill n := by
  simp [State.mill, State.setMill, getD_put_other _ _ _ _ _ h]
@[simp] theorem mill_modMill_same (s : State) (m : Nat) (k : Mill → Mill) : (s.modMill m k).mill m = k (s.mill m) := by
  simp [State.modMill]
@[simp] theorem queue_setQueue_same (s : State) (die slot : Nat) (q : Queue) : (s.setQueue die slot q).queue die slot = q := by
  simp [State.queue, State.setQueue]
@[simp] theorem queue_modQueue_same (s : State) (die slot : Nat) (k : Queue → Queue) :
    (s.modQueue die slot k).queue die slot = k (s.queue die slot) := by
  simp [State.modQueue]
@[simp] theorem reg_setReg_same (s : State) (w : Window) (off : Nat) (v : Dword) : (s.setReg w off v).reg w off = v := by
  simp [State.reg, State.setReg]
theorem reg_setReg_other (s : State) (w w' : Window) (off off' : Nat) (v : Dword) (h : w'.regKey off' ≠ w.regKey off) :
    (s.setReg w off v).reg w' off' = s.reg w' off' := by
  simp [State.reg, State.setReg, getD_put_other _ _ _ _ _ h]

@[simp] theorem mill_setCtx (s : State) (f : Nat) (c : Ctx) (k : Nat) : (s.setCtx f c).mill k = s.mill k := rfl
@[simp] theorem queue_setCtx (s : State) (f : Nat) (c : Ctx) (d k : Nat) : (s.setCtx f c).queue d k = s.queue d k := rfl
@[simp] theorem reg_setCtx (s : State) (f : Nat) (c : Ctx) (x : Window) (y : Nat) : (s.setCtx f c).reg x y = s.reg x y := rfl
@[simp] theorem launchOf_setCtx (s : State) (f : Nat) (c : Ctx) (k : Nat) : (s.setCtx f c).launchOf k = s.launchOf k := rfl
@[simp] theorem ownerOf_setCtx (s : State) (f : Nat) (c : Ctx) (k : Nat) : (s.setCtx f c).ownerOf k = s.ownerOf k := rfl
@[simp] theorem partOf_setCtx (s : State) (f : Nat) (c : Ctx) (k : Nat) : (s.setCtx f c).partOf k = s.partOf k := rfl
@[simp] theorem counter_setCtx (s : State) (f : Nat) (c : Ctx) (x y k : Nat) : (s.setCtx f c).counter x y k = s.counter x y k := rfl
@[simp] theorem mill_modCtx (s : State) (f : Nat) (g : Ctx → Ctx) (k : Nat) : (s.modCtx f g).mill k = s.mill k := rfl
@[simp] theorem queue_modCtx (s : State) (f : Nat) (g : Ctx → Ctx) (d k : Nat) : (s.modCtx f g).queue d k = s.queue d k := rfl
@[simp] theorem reg_modCtx (s : State) (f : Nat) (g : Ctx → Ctx) (x : Window) (y : Nat) : (s.modCtx f g).reg x y = s.reg x y := rfl
@[simp] theorem launchOf_modCtx (s : State) (f : Nat) (g : Ctx → Ctx) (k : Nat) : (s.modCtx f g).launchOf k = s.launchOf k := rfl
@[simp] theorem ownerOf_modCtx (s : State) (f : Nat) (g : Ctx → Ctx) (k : Nat) : (s.modCtx f g).ownerOf k = s.ownerOf k := rfl
@[simp] theorem partOf_modCtx (s : State) (f : Nat) (g : Ctx → Ctx) (k : Nat) : (s.modCtx f g).partOf k = s.partOf k := rfl
@[simp] theorem counter_modCtx (s : State) (f : Nat) (g : Ctx → Ctx) (x y k : Nat) : (s.modCtx f g).counter x y k = s.counter x y k := rfl
@[simp] theorem ctx_setMill (s : State) (m : Nat) (v : Mill) (k : Nat) : (s.setMill m v).ctx k = s.ctx k := rfl
@[simp] theorem queue_setMill (s : State) (m : Nat) (v : Mill) (d k : Nat) : (s.setMill m v).queue d k = s.queue d k := rfl
@[simp] theorem reg_setMill (s : State) (m : Nat) (v : Mill) (x : Window) (y : Nat) : (s.setMill m v).reg x y = s.reg x y := rfl
@[simp] theorem launchOf_setMill (s : State) (m : Nat) (v : Mill) (k : Nat) : (s.setMill m v).launchOf k = s.launchOf k := rfl
@[simp] theorem ownerOf_setMill (s : State) (m : Nat) (v : Mill) (k : Nat) : (s.setMill m v).ownerOf k = s.ownerOf k := rfl
@[simp] theorem partOf_setMill (s : State) (m : Nat) (v : Mill) (k : Nat) : (s.setMill m v).partOf k = s.partOf k := rfl
@[simp] theorem counter_setMill (s : State) (m : Nat) (v : Mill) (x y k : Nat) : (s.setMill m v).counter x y k = s.counter x y k := rfl
@[simp] theorem ctx_modMill (s : State) (m : Nat) (g : Mill → Mill) (k : Nat) : (s.modMill m g).ctx k = s.ctx k := rfl
@[simp] theorem queue_modMill (s : State) (m : Nat) (g : Mill → Mill) (d k : Nat) : (s.modMill m g).queue d k = s.queue d k := rfl
@[simp] theorem reg_modMill (s : State) (m : Nat) (g : Mill → Mill) (x : Window) (y : Nat) : (s.modMill m g).reg x y = s.reg x y := rfl
@[simp] theorem launchOf_modMill (s : State) (m : Nat) (g : Mill → Mill) (k : Nat) : (s.modMill m g).launchOf k = s.launchOf k := rfl
@[simp] theorem ownerOf_modMill (s : State) (m : Nat) (g : Mill → Mill) (k : Nat) : (s.modMill m g).ownerOf k = s.ownerOf k := rfl
@[simp] theorem partOf_modMill (s : State) (m : Nat) (g : Mill → Mill) (k : Nat) : (s.modMill m g).partOf k = s.partOf k := rfl
@[simp] theorem counter_modMill (s : State) (m : Nat) (g : Mill → Mill) (x y k : Nat) : (s.modMill m g).counter x y k = s.counter x y k := rfl
@[simp] theorem ctx_setQueue (s : State) (die slot : Nat) (q : Queue) (k : Nat) : (s.setQueue die slot q).ctx k = s.ctx k := rfl
@[simp] theorem mill_setQueue (s : State) (die slot : Nat) (q : Queue) (k : Nat) : (s.setQueue die slot q).mill k = s.mill k := rfl
@[simp] theorem reg_setQueue (s : State) (die slot : Nat) (q : Queue) (x : Window) (y : Nat) : (s.setQueue die slot q).reg x y = s.reg x y := rfl
@[simp] theorem launchOf_setQueue (s : State) (die slot : Nat) (q : Queue) (k : Nat) : (s.setQueue die slot q).launchOf k = s.launchOf k := rfl
@[simp] theorem ownerOf_setQueue (s : State) (die slot : Nat) (q : Queue) (k : Nat) : (s.setQueue die slot q).ownerOf k = s.ownerOf k := rfl
@[simp] theorem partOf_setQueue (s : State) (die slot : Nat) (q : Queue) (k : Nat) : (s.setQueue die slot q).partOf k = s.partOf k := rfl
@[simp] theorem counter_setQueue (s : State) (die slot : Nat) (q : Queue) (x y k : Nat) : (s.setQueue die slot q).counter x y k = s.counter x y k := rfl
@[simp] theorem ctx_modQueue (s : State) (die slot : Nat) (g : Queue → Queue) (k : Nat) : (s.modQueue die slot g).ctx k = s.ctx k := rfl
@[simp] theorem mill_modQueue (s : State) (die slot : Nat) (g : Queue → Queue) (k : Nat) : (s.modQueue die slot g).mill k = s.mill k := rfl
@[simp] theorem reg_modQueue (s : State) (die slot : Nat) (g : Queue → Queue) (x : Window) (y : Nat) : (s.modQueue die slot g).reg x y = s.reg x y := rfl
@[simp] theorem launchOf_modQueue (s : State) (die slot : Nat) (g : Queue → Queue) (k : Nat) : (s.modQueue die slot g).launchOf k = s.launchOf k := rfl
@[simp] theorem ownerOf_modQueue (s : State) (die slot : Nat) (g : Queue → Queue) (k : Nat) : (s.modQueue die slot g).ownerOf k = s.ownerOf k := rfl
@[simp] theorem partOf_modQueue (s : State) (die slot : Nat) (g : Queue → Queue) (k : Nat) : (s.modQueue die slot g).partOf k = s.partOf k := rfl
@[simp] theorem counter_modQueue (s : State) (die slot : Nat) (g : Queue → Queue) (x y k : Nat) : (s.modQueue die slot g).counter x y k = s.counter x y k := rfl
@[simp] theorem ctx_setReg (s : State) (w : Window) (off : Nat) (v : Dword) (k : Nat) : (s.setReg w off v).ctx k = s.ctx k := rfl
@[simp] theorem mill_setReg (s : State) (w : Window) (off : Nat) (v : Dword) (k : Nat) : (s.setReg w off v).mill k = s.mill k := rfl
@[simp] theorem queue_setReg (s : State) (w : Window) (off : Nat) (v : Dword) (d k : Nat) : (s.setReg w off v).queue d k = s.queue d k := rfl
@[simp] theorem launchOf_setReg (s : State) (w : Window) (off : Nat) (v : Dword) (k : Nat) : (s.setReg w off v).launchOf k = s.launchOf k := rfl
@[simp] theorem ownerOf_setReg (s : State) (w : Window) (off : Nat) (v : Dword) (k : Nat) : (s.setReg w off v).ownerOf k = s.ownerOf k := rfl
@[simp] theorem partOf_setReg (s : State) (w : Window) (off : Nat) (v : Dword) (k : Nat) : (s.setReg w off v).partOf k = s.partOf k := rfl
@[simp] theorem counter_setReg (s : State) (w : Window) (off : Nat) (v : Dword) (x y k : Nat) : (s.setReg w off v).counter x y k = s.counter x y k := rfl
@[simp] theorem ctx_setField (s : State) (w : Window) (off lo n v : Nat) (k : Nat) : (s.setField w off lo n v).ctx k = s.ctx k := rfl
@[simp] theorem mill_setField (s : State) (w : Window) (off lo n v : Nat) (k : Nat) : (s.setField w off lo n v).mill k = s.mill k := rfl
@[simp] theorem queue_setField (s : State) (w : Window) (off lo n v : Nat) (d k : Nat) : (s.setField w off lo n v).queue d k = s.queue d k := rfl
@[simp] theorem launchOf_setField (s : State) (w : Window) (off lo n v : Nat) (k : Nat) : (s.setField w off lo n v).launchOf k = s.launchOf k := rfl
@[simp] theorem ownerOf_setField (s : State) (w : Window) (off lo n v : Nat) (k : Nat) : (s.setField w off lo n v).ownerOf k = s.ownerOf k := rfl
@[simp] theorem partOf_setField (s : State) (w : Window) (off lo n v : Nat) (k : Nat) : (s.setField w off lo n v).partOf k = s.partOf k := rfl
@[simp] theorem counter_setField (s : State) (w : Window) (off lo n v : Nat) (x y k : Nat) : (s.setField w off lo n v).counter x y k = s.counter x y k := rfl
@[simp] theorem ctx_setLaunch (s : State) (key : Nat) (l : Launch) (k : Nat) : (s.setLaunch key l).ctx k = s.ctx k := rfl
@[simp] theorem mill_setLaunch (s : State) (key : Nat) (l : Launch) (k : Nat) : (s.setLaunch key l).mill k = s.mill k := rfl
@[simp] theorem queue_setLaunch (s : State) (key : Nat) (l : Launch) (d k : Nat) : (s.setLaunch key l).queue d k = s.queue d k := rfl
@[simp] theorem reg_setLaunch (s : State) (key : Nat) (l : Launch) (x : Window) (y : Nat) : (s.setLaunch key l).reg x y = s.reg x y := rfl
@[simp] theorem ownerOf_setLaunch (s : State) (key : Nat) (l : Launch) (k : Nat) : (s.setLaunch key l).ownerOf k = s.ownerOf k := rfl
@[simp] theorem partOf_setLaunch (s : State) (key : Nat) (l : Launch) (k : Nat) : (s.setLaunch key l).partOf k = s.partOf k := rfl
@[simp] theorem counter_setLaunch (s : State) (key : Nat) (l : Launch) (x y k : Nat) : (s.setLaunch key l).counter x y k = s.counter x y k := rfl
@[simp] theorem ctx_interrupt (s : State) (i : Interrupt) (k : Nat) : (s.interrupt i).ctx k = s.ctx k := rfl
@[simp] theorem mill_interrupt (s : State) (i : Interrupt) (k : Nat) : (s.interrupt i).mill k = s.mill k := rfl
@[simp] theorem queue_interrupt (s : State) (i : Interrupt) (d k : Nat) : (s.interrupt i).queue d k = s.queue d k := rfl
@[simp] theorem reg_interrupt (s : State) (i : Interrupt) (x : Window) (y : Nat) : (s.interrupt i).reg x y = s.reg x y := rfl
@[simp] theorem launchOf_interrupt (s : State) (i : Interrupt) (k : Nat) : (s.interrupt i).launchOf k = s.launchOf k := rfl
@[simp] theorem ownerOf_interrupt (s : State) (i : Interrupt) (k : Nat) : (s.interrupt i).ownerOf k = s.ownerOf k := rfl
@[simp] theorem partOf_interrupt (s : State) (i : Interrupt) (k : Nat) : (s.interrupt i).partOf k = s.partOf k := rfl
@[simp] theorem counter_interrupt (s : State) (i : Interrupt) (x y k : Nat) : (s.interrupt i).counter x y k = s.counter x y k := rfl
@[simp] theorem ctx_answer (s : State) (a : Answer) (k : Nat) : (s.answer a).ctx k = s.ctx k := rfl
@[simp] theorem mill_answer (s : State) (a : Answer) (k : Nat) : (s.answer a).mill k = s.mill k := rfl
@[simp] theorem queue_answer (s : State) (a : Answer) (d k : Nat) : (s.answer a).queue d k = s.queue d k := rfl
@[simp] theorem reg_answer (s : State) (a : Answer) (x : Window) (y : Nat) : (s.answer a).reg x y = s.reg x y := rfl
@[simp] theorem launchOf_answer (s : State) (a : Answer) (k : Nat) : (s.answer a).launchOf k = s.launchOf k := rfl
@[simp] theorem ownerOf_answer (s : State) (a : Answer) (k : Nat) : (s.answer a).ownerOf k = s.ownerOf k := rfl
@[simp] theorem partOf_answer (s : State) (a : Answer) (k : Nat) : (s.answer a).partOf k = s.partOf k := rfl
@[simp] theorem counter_answer (s : State) (a : Answer) (x y k : Nat) : (s.answer a).counter x y k = s.counter x y k := rfl

/-! ### `Ctx.raiseFlags` -/

@[simp] theorem raiseFlags_life (c : Ctx) (x : Flags) : (c.raiseFlags x).life = c.life := rfl
@[simp] theorem raiseFlags_sregs (c : Ctx) (x : Flags) : (c.raiseFlags x).sregs = c.sregs := rfl
@[simp] theorem raiseFlags_pc (c : Ctx) (x : Flags) : (c.raiseFlags x).pc = c.pc := rfl
@[simp] theorem raiseFlags_launch (c : Ctx) (x : Flags) : (c.raiseFlags x).launch = c.launch := rfl
@[simp] theorem raiseFlags_code (c : Ctx) (x : Flags) : (c.raiseFlags x).code = c.code := rfl
@[simp] theorem raiseFlags_frm (c : Ctx) (x : Flags) : (c.raiseFlags x).frm = c.frm := rfl
@[simp] theorem raiseFlags_vtype (c : Ctx) (x : Flags) : (c.raiseFlags x).vtype = c.vtype := rfl
@[simp] theorem raiseFlags_vl (c : Ctx) (x : Flags) : (c.raiseFlags x).vl = c.vl := rfl
@[simp] theorem raiseFlags_vlmax (c : Ctx) (x : Flags) : (c.raiseFlags x).vlmax = c.vlmax := rfl
@[simp] theorem raiseFlags_vstart (c : Ctx) (x : Flags) : (c.raiseFlags x).vstart = c.vstart := rfl
@[simp] theorem raiseFlags_vff (c : Ctx) (x : Flags) : (c.raiseFlags x).vff = c.vff := rfl
@[simp] theorem raiseFlags_vpad (c : Ctx) (x : Flags) : (c.raiseFlags x).vpad = c.vpad := rfl
@[simp] theorem raiseFlags_vcarry (c : Ctx) (x : Flags) : (c.raiseFlags x).vcarry = c.vcarry := rfl
@[simp] theorem raiseFlags_vfoldop (c : Ctx) (x : Flags) : (c.raiseFlags x).vfoldop = c.vfoldop := rfl
@[simp] theorem raiseFlags_vtag (c : Ctx) (x : Flags) : (c.raiseFlags x).vtag = c.vtag := rfl
@[simp] theorem raiseFlags_pinned (c : Ctx) (x : Flags) : (c.raiseFlags x).pinned = c.pinned := rfl
@[simp] theorem raiseFlags_pincap (c : Ctx) (x : Flags) : (c.raiseFlags x).pincap = c.pincap := rfl
@[simp] theorem raiseFlags_cap (c : Ctx) (x : Flags) : (c.raiseFlags x).cap = c.cap := rfl
@[simp] theorem raiseFlags_detm (c : Ctx) (x : Flags) : (c.raiseFlags x).detm = c.detm := rfl
@[simp] theorem raiseFlags_share (c : Ctx) (x : Flags) : (c.raiseFlags x).share = c.share := rfl
@[simp] theorem raiseFlags_replay (c : Ctx) (x : Flags) : (c.raiseFlags x).replay = c.replay := rfl
@[simp] theorem raiseFlags_rngkey0 (c : Ctx) (x : Flags) : (c.raiseFlags x).rngkey0 = c.rngkey0 := rfl
@[simp] theorem raiseFlags_rngkey1 (c : Ctx) (x : Flags) : (c.raiseFlags x).rngkey1 = c.rngkey1 := rfl
@[simp] theorem raiseFlags_acarry (c : Ctx) (x : Flags) : (c.raiseFlags x).acarry = c.acarry := rfl
@[simp] theorem raiseFlags_xqin (c : Ctx) (x : Flags) : (c.raiseFlags x).xqin = c.xqin := rfl
@[simp] theorem raiseFlags_xqout (c : Ctx) (x : Flags) : (c.raiseFlags x).xqout = c.xqout := rfl
@[simp] theorem raiseFlags_tileen (c : Ctx) (x : Flags) : (c.raiseFlags x).tileen = c.tileen := rfl
@[simp] theorem raiseFlags_instret (c : Ctx) (x : Flags) : (c.raiseFlags x).instret = c.instret := rfl
@[simp] theorem raiseFlags_launchid (c : Ctx) (x : Flags) : (c.raiseFlags x).launchid = c.launchid := rfl
@[simp] theorem raiseFlags_lindex (c : Ctx) (x : Flags) : (c.raiseFlags x).lindex = c.lindex := rfl
@[simp] theorem raiseFlags_preds (c : Ctx) (x : Flags) : (c.raiseFlags x).preds = c.preds := rfl
@[simp] theorem raiseFlags_views (c : Ctx) (x : Flags) : (c.raiseFlags x).views = c.views := rfl
@[simp] theorem raiseFlags_streams (c : Ctx) (x : Flags) : (c.raiseFlags x).streams = c.streams := rfl
@[simp] theorem raiseFlags_trees (c : Ctx) (x : Flags) : (c.raiseFlags x).trees = c.trees := rfl
@[simp] theorem raiseFlags_slice (c : Ctx) (x : Flags) : (c.raiseFlags x).slice = c.slice := rfl
@[simp] theorem raiseFlags_vq (c : Ctx) (x : Flags) : (c.raiseFlags x).vq = c.vq := rfl
@[simp] theorem raiseFlags_convoyHead (c : Ctx) (x : Flags) : (c.raiseFlags x).convoyHead = c.convoyHead := rfl
@[simp] theorem raiseFlags_convoyCount (c : Ctx) (x : Flags) : (c.raiseFlags x).convoyCount = c.convoyCount := rfl
@[simp] theorem raiseFlags_convoyLeft (c : Ctx) (x : Flags) : (c.raiseFlags x).convoyLeft = c.convoyLeft := rfl
@[simp] theorem raiseFlags_slotted (c : Ctx) (x : Flags) : (c.raiseFlags x).slotted = c.slotted := rfl
@[simp] theorem raiseFlags_order (c : Ctx) (x : Flags) : (c.raiseFlags x).order = c.order := rfl
@[simp] theorem raiseFlags_took (c : Ctx) (x : Flags) : (c.raiseFlags x).took = c.took := rfl
@[simp] theorem raiseFlags_latch (c : Ctx) (x : Flags) : (c.raiseFlags x).latch = c.latch := rfl
@[simp] theorem raiseFlags_reverted (c : Ctx) (x : Flags) : (c.raiseFlags x).reverted = c.reverted := rfl
@[simp] theorem raiseFlags_scan (c : Ctx) (x : Flags) : (c.raiseFlags x).scan = c.scan := rfl
@[simp] theorem raiseFlags_blocks (c : Ctx) (x : Flags) : (c.raiseFlags x).blocks = c.blocks := rfl
@[simp] theorem raiseFlags_xq (c : Ctx) (x : Flags) : (c.raiseFlags x).xq = c.xq := rfl
@[simp] theorem raiseFlags_xfail (c : Ctx) (x : Flags) : (c.raiseFlags x).xfail = c.xfail := rfl
@[simp] theorem raiseFlags_wait (c : Ctx) (x : Flags) : (c.raiseFlags x).wait = c.wait := rfl
@[simp] theorem raiseFlags_late (c : Ctx) (x : Flags) : (c.raiseFlags x).late = c.late := rfl
@[simp] theorem raiseFlags_record (c : Ctx) (x : Flags) : (c.raiseFlags x).record = c.record := rfl
@[simp] theorem raiseFlags_groups (c : Ctx) (x : Flags) : (c.raiseFlags x).groups = c.groups := rfl
@[simp] theorem raiseFlags_arrived (c : Ctx) (x : Flags) : (c.raiseFlags x).arrived = c.arrived := rfl
@[simp] theorem raiseFlags_gang (c : Ctx) (x : Flags) : (c.raiseFlags x).gang = c.gang := rfl
@[simp] theorem raiseFlags_parent (c : Ctx) (x : Flags) : (c.raiseFlags x).parent = c.parent := rfl
@[simp] theorem raiseFlags_children (c : Ctx) (x : Flags) : (c.raiseFlags x).children = c.children := rfl
@[simp] theorem raiseFlags_exited (c : Ctx) (x : Flags) : (c.raiseFlags x).exited = c.exited := rfl
@[simp] theorem raiseFlags_exitCode (c : Ctx) (x : Flags) : (c.raiseFlags x).exitCode = c.exitCode := rfl
@[simp] theorem raiseFlags_splice (c : Ctx) (x : Flags) : (c.raiseFlags x).splice = c.splice := rfl
@[simp] theorem raiseFlags_passBreak (c : Ctx) (x : Flags) : (c.raiseFlags x).passBreak = c.passBreak := rfl
@[simp] theorem raiseFlags_stepping (c : Ctx) (x : Flags) : (c.raiseFlags x).stepping = c.stepping := rfl
@[simp] theorem raiseFlags_debugReq (c : Ctx) (x : Flags) : (c.raiseFlags x).debugReq = c.debugReq := rfl
@[simp] theorem raiseFlags_matched (c : Ctx) (x : Flags) : (c.raiseFlags x).matched = c.matched := rfl
@[simp] theorem raiseFlags_dbgstat (c : Ctx) (x : Flags) : (c.raiseFlags x).dbgstat = c.dbgstat := rfl
@[simp] theorem raiseFlags_drafts (c : Ctx) (x : Flags) : (c.raiseFlags x).drafts = c.drafts := rfl
@[simp] theorem raiseFlags_deficit (c : Ctx) (x : Flags) : (c.raiseFlags x).deficit = c.deficit := rfl
@[simp] theorem raiseFlags_mcfg (c : Ctx) (x : Flags) : (c.raiseFlags x).mcfg = c.mcfg := rfl
@[simp] theorem raiseFlags_issue (c : Ctx) (x : Flags) : (c.raiseFlags x).issue = c.issue := rfl
@[simp] theorem raiseFlags_raises (c : Ctx) (x : Flags) : (c.raiseFlags x).raises = c.raises := rfl
@[simp] theorem raiseFlags_issued (c : Ctx) (x : Flags) : (c.raiseFlags x).issued = c.issued := rfl
@[simp] theorem raiseFlags_matErr (c : Ctx) (x : Flags) : (c.raiseFlags x).matErr = c.matErr := rfl

/-! ### `Ctx.retire` -/

@[simp] theorem retire_life (c : Ctx) (x : Nat) : (c.retire x).life = c.life := rfl
@[simp] theorem retire_sregs (c : Ctx) (x : Nat) : (c.retire x).sregs = c.sregs := rfl
@[simp] theorem retire_launch (c : Ctx) (x : Nat) : (c.retire x).launch = c.launch := rfl
@[simp] theorem retire_code (c : Ctx) (x : Nat) : (c.retire x).code = c.code := rfl
@[simp] theorem retire_fflags (c : Ctx) (x : Nat) : (c.retire x).fflags = c.fflags := rfl
@[simp] theorem retire_frm (c : Ctx) (x : Nat) : (c.retire x).frm = c.frm := rfl
@[simp] theorem retire_vtype (c : Ctx) (x : Nat) : (c.retire x).vtype = c.vtype := rfl
@[simp] theorem retire_vl (c : Ctx) (x : Nat) : (c.retire x).vl = c.vl := rfl
@[simp] theorem retire_vlmax (c : Ctx) (x : Nat) : (c.retire x).vlmax = c.vlmax := rfl
@[simp] theorem retire_vstart (c : Ctx) (x : Nat) : (c.retire x).vstart = c.vstart := rfl
@[simp] theorem retire_vff (c : Ctx) (x : Nat) : (c.retire x).vff = c.vff := rfl
@[simp] theorem retire_vpad (c : Ctx) (x : Nat) : (c.retire x).vpad = c.vpad := rfl
@[simp] theorem retire_vcarry (c : Ctx) (x : Nat) : (c.retire x).vcarry = c.vcarry := rfl
@[simp] theorem retire_vfoldop (c : Ctx) (x : Nat) : (c.retire x).vfoldop = c.vfoldop := rfl
@[simp] theorem retire_vtag (c : Ctx) (x : Nat) : (c.retire x).vtag = c.vtag := rfl
@[simp] theorem retire_pinned (c : Ctx) (x : Nat) : (c.retire x).pinned = c.pinned := rfl
@[simp] theorem retire_pincap (c : Ctx) (x : Nat) : (c.retire x).pincap = c.pincap := rfl
@[simp] theorem retire_cap (c : Ctx) (x : Nat) : (c.retire x).cap = c.cap := rfl
@[simp] theorem retire_detm (c : Ctx) (x : Nat) : (c.retire x).detm = c.detm := rfl
@[simp] theorem retire_share (c : Ctx) (x : Nat) : (c.retire x).share = c.share := rfl
@[simp] theorem retire_replay (c : Ctx) (x : Nat) : (c.retire x).replay = c.replay := rfl
@[simp] theorem retire_rngkey0 (c : Ctx) (x : Nat) : (c.retire x).rngkey0 = c.rngkey0 := rfl
@[simp] theorem retire_rngkey1 (c : Ctx) (x : Nat) : (c.retire x).rngkey1 = c.rngkey1 := rfl
@[simp] theorem retire_acarry (c : Ctx) (x : Nat) : (c.retire x).acarry = c.acarry := rfl
@[simp] theorem retire_xqin (c : Ctx) (x : Nat) : (c.retire x).xqin = c.xqin := rfl
@[simp] theorem retire_xqout (c : Ctx) (x : Nat) : (c.retire x).xqout = c.xqout := rfl
@[simp] theorem retire_tileen (c : Ctx) (x : Nat) : (c.retire x).tileen = c.tileen := rfl
@[simp] theorem retire_launchid (c : Ctx) (x : Nat) : (c.retire x).launchid = c.launchid := rfl
@[simp] theorem retire_lindex (c : Ctx) (x : Nat) : (c.retire x).lindex = c.lindex := rfl
@[simp] theorem retire_preds (c : Ctx) (x : Nat) : (c.retire x).preds = c.preds := rfl
@[simp] theorem retire_views (c : Ctx) (x : Nat) : (c.retire x).views = c.views := rfl
@[simp] theorem retire_streams (c : Ctx) (x : Nat) : (c.retire x).streams = c.streams := rfl
@[simp] theorem retire_trees (c : Ctx) (x : Nat) : (c.retire x).trees = c.trees := rfl
@[simp] theorem retire_slice (c : Ctx) (x : Nat) : (c.retire x).slice = c.slice := rfl
@[simp] theorem retire_vq (c : Ctx) (x : Nat) : (c.retire x).vq = c.vq := rfl
@[simp] theorem retire_convoyHead (c : Ctx) (x : Nat) : (c.retire x).convoyHead = c.convoyHead := rfl
@[simp] theorem retire_convoyCount (c : Ctx) (x : Nat) : (c.retire x).convoyCount = c.convoyCount := rfl
@[simp] theorem retire_convoyLeft (c : Ctx) (x : Nat) : (c.retire x).convoyLeft = c.convoyLeft := rfl
@[simp] theorem retire_slotted (c : Ctx) (x : Nat) : (c.retire x).slotted = c.slotted := rfl
@[simp] theorem retire_order (c : Ctx) (x : Nat) : (c.retire x).order = c.order := rfl
@[simp] theorem retire_took (c : Ctx) (x : Nat) : (c.retire x).took = c.took := rfl
@[simp] theorem retire_latch (c : Ctx) (x : Nat) : (c.retire x).latch = c.latch := rfl
@[simp] theorem retire_reverted (c : Ctx) (x : Nat) : (c.retire x).reverted = c.reverted := rfl
@[simp] theorem retire_scan (c : Ctx) (x : Nat) : (c.retire x).scan = c.scan := rfl
@[simp] theorem retire_blocks (c : Ctx) (x : Nat) : (c.retire x).blocks = c.blocks := rfl
@[simp] theorem retire_xq (c : Ctx) (x : Nat) : (c.retire x).xq = c.xq := rfl
@[simp] theorem retire_xfail (c : Ctx) (x : Nat) : (c.retire x).xfail = c.xfail := rfl
@[simp] theorem retire_record (c : Ctx) (x : Nat) : (c.retire x).record = c.record := rfl
@[simp] theorem retire_groups (c : Ctx) (x : Nat) : (c.retire x).groups = c.groups := rfl
@[simp] theorem retire_arrived (c : Ctx) (x : Nat) : (c.retire x).arrived = c.arrived := rfl
@[simp] theorem retire_gang (c : Ctx) (x : Nat) : (c.retire x).gang = c.gang := rfl
@[simp] theorem retire_parent (c : Ctx) (x : Nat) : (c.retire x).parent = c.parent := rfl
@[simp] theorem retire_children (c : Ctx) (x : Nat) : (c.retire x).children = c.children := rfl
@[simp] theorem retire_exited (c : Ctx) (x : Nat) : (c.retire x).exited = c.exited := rfl
@[simp] theorem retire_exitCode (c : Ctx) (x : Nat) : (c.retire x).exitCode = c.exitCode := rfl
@[simp] theorem retire_splice (c : Ctx) (x : Nat) : (c.retire x).splice = c.splice := rfl
@[simp] theorem retire_matched (c : Ctx) (x : Nat) : (c.retire x).matched = c.matched := rfl
@[simp] theorem retire_dbgstat (c : Ctx) (x : Nat) : (c.retire x).dbgstat = c.dbgstat := rfl
@[simp] theorem retire_drafts (c : Ctx) (x : Nat) : (c.retire x).drafts = c.drafts := rfl
@[simp] theorem retire_deficit (c : Ctx) (x : Nat) : (c.retire x).deficit = c.deficit := rfl
@[simp] theorem retire_mcfg (c : Ctx) (x : Nat) : (c.retire x).mcfg = c.mcfg := rfl
@[simp] theorem retire_issue (c : Ctx) (x : Nat) : (c.retire x).issue = c.issue := rfl
@[simp] theorem retire_raises (c : Ctx) (x : Nat) : (c.retire x).raises = c.raises := rfl
@[simp] theorem retire_issued (c : Ctx) (x : Nat) : (c.retire x).issued = c.issued := rfl
@[simp] theorem retire_matErr (c : Ctx) (x : Nat) : (c.retire x).matErr = c.matErr := rfl

/-! ### `Ctx.vretire` -/

@[simp] theorem vretire_life (c : Ctx) : (c.vretire).life = c.life := rfl
@[simp] theorem vretire_sregs (c : Ctx) : (c.vretire).sregs = c.sregs := rfl
@[simp] theorem vretire_pc (c : Ctx) : (c.vretire).pc = c.pc := rfl
@[simp] theorem vretire_launch (c : Ctx) : (c.vretire).launch = c.launch := rfl
@[simp] theorem vretire_code (c : Ctx) : (c.vretire).code = c.code := rfl
@[simp] theorem vretire_fflags (c : Ctx) : (c.vretire).fflags = c.fflags := rfl
@[simp] theorem vretire_frm (c : Ctx) : (c.vretire).frm = c.frm := rfl
@[simp] theorem vretire_vtype (c : Ctx) : (c.vretire).vtype = c.vtype := rfl
@[simp] theorem vretire_vl (c : Ctx) : (c.vretire).vl = c.vl := rfl
@[simp] theorem vretire_vlmax (c : Ctx) : (c.vretire).vlmax = c.vlmax := rfl
@[simp] theorem vretire_vff (c : Ctx) : (c.vretire).vff = c.vff := rfl
@[simp] theorem vretire_vpad (c : Ctx) : (c.vretire).vpad = c.vpad := rfl
@[simp] theorem vretire_vcarry (c : Ctx) : (c.vretire).vcarry = c.vcarry := rfl
@[simp] theorem vretire_vfoldop (c : Ctx) : (c.vretire).vfoldop = c.vfoldop := rfl
@[simp] theorem vretire_vtag (c : Ctx) : (c.vretire).vtag = c.vtag := rfl
@[simp] theorem vretire_pinned (c : Ctx) : (c.vretire).pinned = c.pinned := rfl
@[simp] theorem vretire_pincap (c : Ctx) : (c.vretire).pincap = c.pincap := rfl
@[simp] theorem vretire_cap (c : Ctx) : (c.vretire).cap = c.cap := rfl
@[simp] theorem vretire_detm (c : Ctx) : (c.vretire).detm = c.detm := rfl
@[simp] theorem vretire_share (c : Ctx) : (c.vretire).share = c.share := rfl
@[simp] theorem vretire_replay (c : Ctx) : (c.vretire).replay = c.replay := rfl
@[simp] theorem vretire_rngkey0 (c : Ctx) : (c.vretire).rngkey0 = c.rngkey0 := rfl
@[simp] theorem vretire_rngkey1 (c : Ctx) : (c.vretire).rngkey1 = c.rngkey1 := rfl
@[simp] theorem vretire_acarry (c : Ctx) : (c.vretire).acarry = c.acarry := rfl
@[simp] theorem vretire_xqin (c : Ctx) : (c.vretire).xqin = c.xqin := rfl
@[simp] theorem vretire_xqout (c : Ctx) : (c.vretire).xqout = c.xqout := rfl
@[simp] theorem vretire_tileen (c : Ctx) : (c.vretire).tileen = c.tileen := rfl
@[simp] theorem vretire_launchid (c : Ctx) : (c.vretire).launchid = c.launchid := rfl
@[simp] theorem vretire_lindex (c : Ctx) : (c.vretire).lindex = c.lindex := rfl
@[simp] theorem vretire_preds (c : Ctx) : (c.vretire).preds = c.preds := rfl
@[simp] theorem vretire_views (c : Ctx) : (c.vretire).views = c.views := rfl
@[simp] theorem vretire_streams (c : Ctx) : (c.vretire).streams = c.streams := rfl
@[simp] theorem vretire_trees (c : Ctx) : (c.vretire).trees = c.trees := rfl
@[simp] theorem vretire_slice (c : Ctx) : (c.vretire).slice = c.slice := rfl
@[simp] theorem vretire_convoyHead (c : Ctx) : (c.vretire).convoyHead = c.convoyHead := rfl
@[simp] theorem vretire_convoyCount (c : Ctx) : (c.vretire).convoyCount = c.convoyCount := rfl
@[simp] theorem vretire_convoyLeft (c : Ctx) : (c.vretire).convoyLeft = c.convoyLeft := rfl
@[simp] theorem vretire_slotted (c : Ctx) : (c.vretire).slotted = c.slotted := rfl
@[simp] theorem vretire_order (c : Ctx) : (c.vretire).order = c.order := rfl
@[simp] theorem vretire_took (c : Ctx) : (c.vretire).took = c.took := rfl
@[simp] theorem vretire_latch (c : Ctx) : (c.vretire).latch = c.latch := rfl
@[simp] theorem vretire_reverted (c : Ctx) : (c.vretire).reverted = c.reverted := rfl
@[simp] theorem vretire_scan (c : Ctx) : (c.vretire).scan = c.scan := rfl
@[simp] theorem vretire_blocks (c : Ctx) : (c.vretire).blocks = c.blocks := rfl
@[simp] theorem vretire_xq (c : Ctx) : (c.vretire).xq = c.xq := rfl
@[simp] theorem vretire_xfail (c : Ctx) : (c.vretire).xfail = c.xfail := rfl
@[simp] theorem vretire_wait (c : Ctx) : (c.vretire).wait = c.wait := rfl
@[simp] theorem vretire_late (c : Ctx) : (c.vretire).late = c.late := rfl
@[simp] theorem vretire_record (c : Ctx) : (c.vretire).record = c.record := rfl
@[simp] theorem vretire_groups (c : Ctx) : (c.vretire).groups = c.groups := rfl
@[simp] theorem vretire_arrived (c : Ctx) : (c.vretire).arrived = c.arrived := rfl
@[simp] theorem vretire_gang (c : Ctx) : (c.vretire).gang = c.gang := rfl
@[simp] theorem vretire_parent (c : Ctx) : (c.vretire).parent = c.parent := rfl
@[simp] theorem vretire_children (c : Ctx) : (c.vretire).children = c.children := rfl
@[simp] theorem vretire_exited (c : Ctx) : (c.vretire).exited = c.exited := rfl
@[simp] theorem vretire_exitCode (c : Ctx) : (c.vretire).exitCode = c.exitCode := rfl
@[simp] theorem vretire_splice (c : Ctx) : (c.vretire).splice = c.splice := rfl
@[simp] theorem vretire_passBreak (c : Ctx) : (c.vretire).passBreak = c.passBreak := rfl
@[simp] theorem vretire_stepping (c : Ctx) : (c.vretire).stepping = c.stepping := rfl
@[simp] theorem vretire_debugReq (c : Ctx) : (c.vretire).debugReq = c.debugReq := rfl
@[simp] theorem vretire_matched (c : Ctx) : (c.vretire).matched = c.matched := rfl
@[simp] theorem vretire_dbgstat (c : Ctx) : (c.vretire).dbgstat = c.dbgstat := rfl
@[simp] theorem vretire_drafts (c : Ctx) : (c.vretire).drafts = c.drafts := rfl
@[simp] theorem vretire_deficit (c : Ctx) : (c.vretire).deficit = c.deficit := rfl
@[simp] theorem vretire_mcfg (c : Ctx) : (c.vretire).mcfg = c.mcfg := rfl
@[simp] theorem vretire_issue (c : Ctx) : (c.vretire).issue = c.issue := rfl
@[simp] theorem vretire_raises (c : Ctx) : (c.vretire).raises = c.raises := rfl
@[simp] theorem vretire_issued (c : Ctx) : (c.vretire).issued = c.issued := rfl
@[simp] theorem vretire_matErr (c : Ctx) : (c.vretire).matErr = c.matErr := rfl

/-! ### `Ctx.accrue` -/

@[simp] theorem accrue_life (c : Ctx) (x : Flags) : (c.accrue x).life = c.life := rfl
@[simp] theorem accrue_sregs (c : Ctx) (x : Flags) : (c.accrue x).sregs = c.sregs := rfl
@[simp] theorem accrue_pc (c : Ctx) (x : Flags) : (c.accrue x).pc = c.pc := rfl
@[simp] theorem accrue_launch (c : Ctx) (x : Flags) : (c.accrue x).launch = c.launch := rfl
@[simp] theorem accrue_code (c : Ctx) (x : Flags) : (c.accrue x).code = c.code := rfl
@[simp] theorem accrue_frm (c : Ctx) (x : Flags) : (c.accrue x).frm = c.frm := rfl
@[simp] theorem accrue_vtype (c : Ctx) (x : Flags) : (c.accrue x).vtype = c.vtype := rfl
@[simp] theorem accrue_vl (c : Ctx) (x : Flags) : (c.accrue x).vl = c.vl := rfl
@[simp] theorem accrue_vlmax (c : Ctx) (x : Flags) : (c.accrue x).vlmax = c.vlmax := rfl
@[simp] theorem accrue_vstart (c : Ctx) (x : Flags) : (c.accrue x).vstart = c.vstart := rfl
@[simp] theorem accrue_vff (c : Ctx) (x : Flags) : (c.accrue x).vff = c.vff := rfl
@[simp] theorem accrue_vpad (c : Ctx) (x : Flags) : (c.accrue x).vpad = c.vpad := rfl
@[simp] theorem accrue_vcarry (c : Ctx) (x : Flags) : (c.accrue x).vcarry = c.vcarry := rfl
@[simp] theorem accrue_vfoldop (c : Ctx) (x : Flags) : (c.accrue x).vfoldop = c.vfoldop := rfl
@[simp] theorem accrue_vtag (c : Ctx) (x : Flags) : (c.accrue x).vtag = c.vtag := rfl
@[simp] theorem accrue_pinned (c : Ctx) (x : Flags) : (c.accrue x).pinned = c.pinned := rfl
@[simp] theorem accrue_pincap (c : Ctx) (x : Flags) : (c.accrue x).pincap = c.pincap := rfl
@[simp] theorem accrue_cap (c : Ctx) (x : Flags) : (c.accrue x).cap = c.cap := rfl
@[simp] theorem accrue_detm (c : Ctx) (x : Flags) : (c.accrue x).detm = c.detm := rfl
@[simp] theorem accrue_share (c : Ctx) (x : Flags) : (c.accrue x).share = c.share := rfl
@[simp] theorem accrue_replay (c : Ctx) (x : Flags) : (c.accrue x).replay = c.replay := rfl
@[simp] theorem accrue_rngkey0 (c : Ctx) (x : Flags) : (c.accrue x).rngkey0 = c.rngkey0 := rfl
@[simp] theorem accrue_rngkey1 (c : Ctx) (x : Flags) : (c.accrue x).rngkey1 = c.rngkey1 := rfl
@[simp] theorem accrue_acarry (c : Ctx) (x : Flags) : (c.accrue x).acarry = c.acarry := rfl
@[simp] theorem accrue_xqin (c : Ctx) (x : Flags) : (c.accrue x).xqin = c.xqin := rfl
@[simp] theorem accrue_xqout (c : Ctx) (x : Flags) : (c.accrue x).xqout = c.xqout := rfl
@[simp] theorem accrue_tileen (c : Ctx) (x : Flags) : (c.accrue x).tileen = c.tileen := rfl
@[simp] theorem accrue_instret (c : Ctx) (x : Flags) : (c.accrue x).instret = c.instret := rfl
@[simp] theorem accrue_launchid (c : Ctx) (x : Flags) : (c.accrue x).launchid = c.launchid := rfl
@[simp] theorem accrue_lindex (c : Ctx) (x : Flags) : (c.accrue x).lindex = c.lindex := rfl
@[simp] theorem accrue_preds (c : Ctx) (x : Flags) : (c.accrue x).preds = c.preds := rfl
@[simp] theorem accrue_views (c : Ctx) (x : Flags) : (c.accrue x).views = c.views := rfl
@[simp] theorem accrue_streams (c : Ctx) (x : Flags) : (c.accrue x).streams = c.streams := rfl
@[simp] theorem accrue_trees (c : Ctx) (x : Flags) : (c.accrue x).trees = c.trees := rfl
@[simp] theorem accrue_slice (c : Ctx) (x : Flags) : (c.accrue x).slice = c.slice := rfl
@[simp] theorem accrue_convoyHead (c : Ctx) (x : Flags) : (c.accrue x).convoyHead = c.convoyHead := rfl
@[simp] theorem accrue_convoyCount (c : Ctx) (x : Flags) : (c.accrue x).convoyCount = c.convoyCount := rfl
@[simp] theorem accrue_convoyLeft (c : Ctx) (x : Flags) : (c.accrue x).convoyLeft = c.convoyLeft := rfl
@[simp] theorem accrue_slotted (c : Ctx) (x : Flags) : (c.accrue x).slotted = c.slotted := rfl
@[simp] theorem accrue_order (c : Ctx) (x : Flags) : (c.accrue x).order = c.order := rfl
@[simp] theorem accrue_took (c : Ctx) (x : Flags) : (c.accrue x).took = c.took := rfl
@[simp] theorem accrue_latch (c : Ctx) (x : Flags) : (c.accrue x).latch = c.latch := rfl
@[simp] theorem accrue_reverted (c : Ctx) (x : Flags) : (c.accrue x).reverted = c.reverted := rfl
@[simp] theorem accrue_scan (c : Ctx) (x : Flags) : (c.accrue x).scan = c.scan := rfl
@[simp] theorem accrue_blocks (c : Ctx) (x : Flags) : (c.accrue x).blocks = c.blocks := rfl
@[simp] theorem accrue_xq (c : Ctx) (x : Flags) : (c.accrue x).xq = c.xq := rfl
@[simp] theorem accrue_xfail (c : Ctx) (x : Flags) : (c.accrue x).xfail = c.xfail := rfl
@[simp] theorem accrue_wait (c : Ctx) (x : Flags) : (c.accrue x).wait = c.wait := rfl
@[simp] theorem accrue_late (c : Ctx) (x : Flags) : (c.accrue x).late = c.late := rfl
@[simp] theorem accrue_record (c : Ctx) (x : Flags) : (c.accrue x).record = c.record := rfl
@[simp] theorem accrue_groups (c : Ctx) (x : Flags) : (c.accrue x).groups = c.groups := rfl
@[simp] theorem accrue_arrived (c : Ctx) (x : Flags) : (c.accrue x).arrived = c.arrived := rfl
@[simp] theorem accrue_gang (c : Ctx) (x : Flags) : (c.accrue x).gang = c.gang := rfl
@[simp] theorem accrue_parent (c : Ctx) (x : Flags) : (c.accrue x).parent = c.parent := rfl
@[simp] theorem accrue_children (c : Ctx) (x : Flags) : (c.accrue x).children = c.children := rfl
@[simp] theorem accrue_exited (c : Ctx) (x : Flags) : (c.accrue x).exited = c.exited := rfl
@[simp] theorem accrue_exitCode (c : Ctx) (x : Flags) : (c.accrue x).exitCode = c.exitCode := rfl
@[simp] theorem accrue_splice (c : Ctx) (x : Flags) : (c.accrue x).splice = c.splice := rfl
@[simp] theorem accrue_passBreak (c : Ctx) (x : Flags) : (c.accrue x).passBreak = c.passBreak := rfl
@[simp] theorem accrue_stepping (c : Ctx) (x : Flags) : (c.accrue x).stepping = c.stepping := rfl
@[simp] theorem accrue_debugReq (c : Ctx) (x : Flags) : (c.accrue x).debugReq = c.debugReq := rfl
@[simp] theorem accrue_matched (c : Ctx) (x : Flags) : (c.accrue x).matched = c.matched := rfl
@[simp] theorem accrue_dbgstat (c : Ctx) (x : Flags) : (c.accrue x).dbgstat = c.dbgstat := rfl
@[simp] theorem accrue_drafts (c : Ctx) (x : Flags) : (c.accrue x).drafts = c.drafts := rfl
@[simp] theorem accrue_deficit (c : Ctx) (x : Flags) : (c.accrue x).deficit = c.deficit := rfl
@[simp] theorem accrue_mcfg (c : Ctx) (x : Flags) : (c.accrue x).mcfg = c.mcfg := rfl
@[simp] theorem accrue_issue (c : Ctx) (x : Flags) : (c.accrue x).issue = c.issue := rfl
@[simp] theorem accrue_raises (c : Ctx) (x : Flags) : (c.accrue x).raises = c.raises := rfl
@[simp] theorem accrue_issued (c : Ctx) (x : Flags) : (c.accrue x).issued = c.issued := rfl
@[simp] theorem accrue_matErr (c : Ctx) (x : Flags) : (c.accrue x).matErr = c.matErr := rfl

/-! ### `Ctx.setS` -/

@[simp] theorem setS_life (c : Ctx) (n : Nat) (v : Dword) : (c.setS n v).life = c.life := by unfold Ctx.setS; split <;> rfl
@[simp] theorem setS_pc (c : Ctx) (n : Nat) (v : Dword) : (c.setS n v).pc = c.pc := by unfold Ctx.setS; split <;> rfl
@[simp] theorem setS_launch (c : Ctx) (n : Nat) (v : Dword) : (c.setS n v).launch = c.launch := by unfold Ctx.setS; split <;> rfl
@[simp] theorem setS_code (c : Ctx) (n : Nat) (v : Dword) : (c.setS n v).code = c.code := by unfold Ctx.setS; split <;> rfl
@[simp] theorem setS_fflags (c : Ctx) (n : Nat) (v : Dword) : (c.setS n v).fflags = c.fflags := by unfold Ctx.setS; split <;> rfl
@[simp] theorem setS_frm (c : Ctx) (n : Nat) (v : Dword) : (c.setS n v).frm = c.frm := by unfold Ctx.setS; split <;> rfl
@[simp] theorem setS_vtype (c : Ctx) (n : Nat) (v : Dword) : (c.setS n v).vtype = c.vtype := by unfold Ctx.setS; split <;> rfl
@[simp] theorem setS_vl (c : Ctx) (n : Nat) (v : Dword) : (c.setS n v).vl = c.vl := by unfold Ctx.setS; split <;> rfl
@[simp] theorem setS_vlmax (c : Ctx) (n : Nat) (v : Dword) : (c.setS n v).vlmax = c.vlmax := by unfold Ctx.setS; split <;> rfl
@[simp] theorem setS_vstart (c : Ctx) (n : Nat) (v : Dword) : (c.setS n v).vstart = c.vstart := by unfold Ctx.setS; split <;> rfl
@[simp] theorem setS_vff (c : Ctx) (n : Nat) (v : Dword) : (c.setS n v).vff = c.vff := by unfold Ctx.setS; split <;> rfl
@[simp] theorem setS_vpad (c : Ctx) (n : Nat) (v : Dword) : (c.setS n v).vpad = c.vpad := by unfold Ctx.setS; split <;> rfl
@[simp] theorem setS_vcarry (c : Ctx) (n : Nat) (v : Dword) : (c.setS n v).vcarry = c.vcarry := by unfold Ctx.setS; split <;> rfl
@[simp] theorem setS_vfoldop (c : Ctx) (n : Nat) (v : Dword) : (c.setS n v).vfoldop = c.vfoldop := by unfold Ctx.setS; split <;> rfl
@[simp] theorem setS_vtag (c : Ctx) (n : Nat) (v : Dword) : (c.setS n v).vtag = c.vtag := by unfold Ctx.setS; split <;> rfl
@[simp] theorem setS_pinned (c : Ctx) (n : Nat) (v : Dword) : (c.setS n v).pinned = c.pinned := by unfold Ctx.setS; split <;> rfl
@[simp] theorem setS_pincap (c : Ctx) (n : Nat) (v : Dword) : (c.setS n v).pincap = c.pincap := by unfold Ctx.setS; split <;> rfl
@[simp] theorem setS_cap (c : Ctx) (n : Nat) (v : Dword) : (c.setS n v).cap = c.cap := by unfold Ctx.setS; split <;> rfl
@[simp] theorem setS_detm (c : Ctx) (n : Nat) (v : Dword) : (c.setS n v).detm = c.detm := by unfold Ctx.setS; split <;> rfl
@[simp] theorem setS_share (c : Ctx) (n : Nat) (v : Dword) : (c.setS n v).share = c.share := by unfold Ctx.setS; split <;> rfl
@[simp] theorem setS_replay (c : Ctx) (n : Nat) (v : Dword) : (c.setS n v).replay = c.replay := by unfold Ctx.setS; split <;> rfl
@[simp] theorem setS_rngkey0 (c : Ctx) (n : Nat) (v : Dword) : (c.setS n v).rngkey0 = c.rngkey0 := by unfold Ctx.setS; split <;> rfl
@[simp] theorem setS_rngkey1 (c : Ctx) (n : Nat) (v : Dword) : (c.setS n v).rngkey1 = c.rngkey1 := by unfold Ctx.setS; split <;> rfl
@[simp] theorem setS_acarry (c : Ctx) (n : Nat) (v : Dword) : (c.setS n v).acarry = c.acarry := by unfold Ctx.setS; split <;> rfl
@[simp] theorem setS_xqin (c : Ctx) (n : Nat) (v : Dword) : (c.setS n v).xqin = c.xqin := by unfold Ctx.setS; split <;> rfl
@[simp] theorem setS_xqout (c : Ctx) (n : Nat) (v : Dword) : (c.setS n v).xqout = c.xqout := by unfold Ctx.setS; split <;> rfl
@[simp] theorem setS_tileen (c : Ctx) (n : Nat) (v : Dword) : (c.setS n v).tileen = c.tileen := by unfold Ctx.setS; split <;> rfl
@[simp] theorem setS_instret (c : Ctx) (n : Nat) (v : Dword) : (c.setS n v).instret = c.instret := by unfold Ctx.setS; split <;> rfl
@[simp] theorem setS_launchid (c : Ctx) (n : Nat) (v : Dword) : (c.setS n v).launchid = c.launchid := by unfold Ctx.setS; split <;> rfl
@[simp] theorem setS_lindex (c : Ctx) (n : Nat) (v : Dword) : (c.setS n v).lindex = c.lindex := by unfold Ctx.setS; split <;> rfl
@[simp] theorem setS_preds (c : Ctx) (n : Nat) (v : Dword) : (c.setS n v).preds = c.preds := by unfold Ctx.setS; split <;> rfl
@[simp] theorem setS_views (c : Ctx) (n : Nat) (v : Dword) : (c.setS n v).views = c.views := by unfold Ctx.setS; split <;> rfl
@[simp] theorem setS_streams (c : Ctx) (n : Nat) (v : Dword) : (c.setS n v).streams = c.streams := by unfold Ctx.setS; split <;> rfl
@[simp] theorem setS_trees (c : Ctx) (n : Nat) (v : Dword) : (c.setS n v).trees = c.trees := by unfold Ctx.setS; split <;> rfl
@[simp] theorem setS_slice (c : Ctx) (n : Nat) (v : Dword) : (c.setS n v).slice = c.slice := by unfold Ctx.setS; split <;> rfl
@[simp] theorem setS_vq (c : Ctx) (n : Nat) (v : Dword) : (c.setS n v).vq = c.vq := by unfold Ctx.setS; split <;> rfl
@[simp] theorem setS_convoyHead (c : Ctx) (n : Nat) (v : Dword) : (c.setS n v).convoyHead = c.convoyHead := by unfold Ctx.setS; split <;> rfl
@[simp] theorem setS_convoyCount (c : Ctx) (n : Nat) (v : Dword) : (c.setS n v).convoyCount = c.convoyCount := by unfold Ctx.setS; split <;> rfl
@[simp] theorem setS_convoyLeft (c : Ctx) (n : Nat) (v : Dword) : (c.setS n v).convoyLeft = c.convoyLeft := by unfold Ctx.setS; split <;> rfl
@[simp] theorem setS_slotted (c : Ctx) (n : Nat) (v : Dword) : (c.setS n v).slotted = c.slotted := by unfold Ctx.setS; split <;> rfl
@[simp] theorem setS_order (c : Ctx) (n : Nat) (v : Dword) : (c.setS n v).order = c.order := by unfold Ctx.setS; split <;> rfl
@[simp] theorem setS_took (c : Ctx) (n : Nat) (v : Dword) : (c.setS n v).took = c.took := by unfold Ctx.setS; split <;> rfl
@[simp] theorem setS_latch (c : Ctx) (n : Nat) (v : Dword) : (c.setS n v).latch = c.latch := by unfold Ctx.setS; split <;> rfl
@[simp] theorem setS_reverted (c : Ctx) (n : Nat) (v : Dword) : (c.setS n v).reverted = c.reverted := by unfold Ctx.setS; split <;> rfl
@[simp] theorem setS_scan (c : Ctx) (n : Nat) (v : Dword) : (c.setS n v).scan = c.scan := by unfold Ctx.setS; split <;> rfl
@[simp] theorem setS_blocks (c : Ctx) (n : Nat) (v : Dword) : (c.setS n v).blocks = c.blocks := by unfold Ctx.setS; split <;> rfl
@[simp] theorem setS_xq (c : Ctx) (n : Nat) (v : Dword) : (c.setS n v).xq = c.xq := by unfold Ctx.setS; split <;> rfl
@[simp] theorem setS_xfail (c : Ctx) (n : Nat) (v : Dword) : (c.setS n v).xfail = c.xfail := by unfold Ctx.setS; split <;> rfl
@[simp] theorem setS_wait (c : Ctx) (n : Nat) (v : Dword) : (c.setS n v).wait = c.wait := by unfold Ctx.setS; split <;> rfl
@[simp] theorem setS_late (c : Ctx) (n : Nat) (v : Dword) : (c.setS n v).late = c.late := by unfold Ctx.setS; split <;> rfl
@[simp] theorem setS_record (c : Ctx) (n : Nat) (v : Dword) : (c.setS n v).record = c.record := by unfold Ctx.setS; split <;> rfl
@[simp] theorem setS_groups (c : Ctx) (n : Nat) (v : Dword) : (c.setS n v).groups = c.groups := by unfold Ctx.setS; split <;> rfl
@[simp] theorem setS_arrived (c : Ctx) (n : Nat) (v : Dword) : (c.setS n v).arrived = c.arrived := by unfold Ctx.setS; split <;> rfl
@[simp] theorem setS_gang (c : Ctx) (n : Nat) (v : Dword) : (c.setS n v).gang = c.gang := by unfold Ctx.setS; split <;> rfl
@[simp] theorem setS_parent (c : Ctx) (n : Nat) (v : Dword) : (c.setS n v).parent = c.parent := by unfold Ctx.setS; split <;> rfl
@[simp] theorem setS_children (c : Ctx) (n : Nat) (v : Dword) : (c.setS n v).children = c.children := by unfold Ctx.setS; split <;> rfl
@[simp] theorem setS_exited (c : Ctx) (n : Nat) (v : Dword) : (c.setS n v).exited = c.exited := by unfold Ctx.setS; split <;> rfl
@[simp] theorem setS_exitCode (c : Ctx) (n : Nat) (v : Dword) : (c.setS n v).exitCode = c.exitCode := by unfold Ctx.setS; split <;> rfl
@[simp] theorem setS_splice (c : Ctx) (n : Nat) (v : Dword) : (c.setS n v).splice = c.splice := by unfold Ctx.setS; split <;> rfl
@[simp] theorem setS_passBreak (c : Ctx) (n : Nat) (v : Dword) : (c.setS n v).passBreak = c.passBreak := by unfold Ctx.setS; split <;> rfl
@[simp] theorem setS_stepping (c : Ctx) (n : Nat) (v : Dword) : (c.setS n v).stepping = c.stepping := by unfold Ctx.setS; split <;> rfl
@[simp] theorem setS_debugReq (c : Ctx) (n : Nat) (v : Dword) : (c.setS n v).debugReq = c.debugReq := by unfold Ctx.setS; split <;> rfl
@[simp] theorem setS_matched (c : Ctx) (n : Nat) (v : Dword) : (c.setS n v).matched = c.matched := by unfold Ctx.setS; split <;> rfl
@[simp] theorem setS_dbgstat (c : Ctx) (n : Nat) (v : Dword) : (c.setS n v).dbgstat = c.dbgstat := by unfold Ctx.setS; split <;> rfl
@[simp] theorem setS_drafts (c : Ctx) (n : Nat) (v : Dword) : (c.setS n v).drafts = c.drafts := by unfold Ctx.setS; split <;> rfl
@[simp] theorem setS_deficit (c : Ctx) (n : Nat) (v : Dword) : (c.setS n v).deficit = c.deficit := by unfold Ctx.setS; split <;> rfl
@[simp] theorem setS_mcfg (c : Ctx) (n : Nat) (v : Dword) : (c.setS n v).mcfg = c.mcfg := by unfold Ctx.setS; split <;> rfl
@[simp] theorem setS_issue (c : Ctx) (n : Nat) (v : Dword) : (c.setS n v).issue = c.issue := by unfold Ctx.setS; split <;> rfl
@[simp] theorem setS_raises (c : Ctx) (n : Nat) (v : Dword) : (c.setS n v).raises = c.raises := by unfold Ctx.setS; split <;> rfl
@[simp] theorem setS_issued (c : Ctx) (n : Nat) (v : Dword) : (c.setS n v).issued = c.issued := by unfold Ctx.setS; split <;> rfl
@[simp] theorem setS_matErr (c : Ctx) (n : Nat) (v : Dword) : (c.setS n v).matErr = c.matErr := by unfold Ctx.setS; split <;> rfl

/-! ### `Ctx.put` -/

@[simp] theorem put_life (c : Ctx) (n i v : Nat) : (c.put n i v).life = c.life := by unfold Ctx.put Ctx.setElem; split <;> rfl
@[simp] theorem put_sregs (c : Ctx) (n i v : Nat) : (c.put n i v).sregs = c.sregs := by unfold Ctx.put Ctx.setElem; split <;> rfl
@[simp] theorem put_pc (c : Ctx) (n i v : Nat) : (c.put n i v).pc = c.pc := by unfold Ctx.put Ctx.setElem; split <;> rfl
@[simp] theorem put_launch (c : Ctx) (n i v : Nat) : (c.put n i v).launch = c.launch := by unfold Ctx.put Ctx.setElem; split <;> rfl
@[simp] theorem put_code (c : Ctx) (n i v : Nat) : (c.put n i v).code = c.code := by unfold Ctx.put Ctx.setElem; split <;> rfl
@[simp] theorem put_fflags (c : Ctx) (n i v : Nat) : (c.put n i v).fflags = c.fflags := by unfold Ctx.put Ctx.setElem; split <;> rfl
@[simp] theorem put_frm (c : Ctx) (n i v : Nat) : (c.put n i v).frm = c.frm := by unfold Ctx.put Ctx.setElem; split <;> rfl
@[simp] theorem put_vtype (c : Ctx) (n i v : Nat) : (c.put n i v).vtype = c.vtype := by unfold Ctx.put Ctx.setElem; split <;> rfl
@[simp] theorem put_vl (c : Ctx) (n i v : Nat) : (c.put n i v).vl = c.vl := by unfold Ctx.put Ctx.setElem; split <;> rfl
@[simp] theorem put_vlmax (c : Ctx) (n i v : Nat) : (c.put n i v).vlmax = c.vlmax := by unfold Ctx.put Ctx.setElem; split <;> rfl
@[simp] theorem put_vstart (c : Ctx) (n i v : Nat) : (c.put n i v).vstart = c.vstart := by unfold Ctx.put Ctx.setElem; split <;> rfl
@[simp] theorem put_vff (c : Ctx) (n i v : Nat) : (c.put n i v).vff = c.vff := by unfold Ctx.put Ctx.setElem; split <;> rfl
@[simp] theorem put_vpad (c : Ctx) (n i v : Nat) : (c.put n i v).vpad = c.vpad := by unfold Ctx.put Ctx.setElem; split <;> rfl
@[simp] theorem put_vcarry (c : Ctx) (n i v : Nat) : (c.put n i v).vcarry = c.vcarry := by unfold Ctx.put Ctx.setElem; split <;> rfl
@[simp] theorem put_vfoldop (c : Ctx) (n i v : Nat) : (c.put n i v).vfoldop = c.vfoldop := by unfold Ctx.put Ctx.setElem; split <;> rfl
@[simp] theorem put_vtag (c : Ctx) (n i v : Nat) : (c.put n i v).vtag = c.vtag := by unfold Ctx.put Ctx.setElem; split <;> rfl
@[simp] theorem put_pinned (c : Ctx) (n i v : Nat) : (c.put n i v).pinned = c.pinned := by unfold Ctx.put Ctx.setElem; split <;> rfl
@[simp] theorem put_pincap (c : Ctx) (n i v : Nat) : (c.put n i v).pincap = c.pincap := by unfold Ctx.put Ctx.setElem; split <;> rfl
@[simp] theorem put_cap (c : Ctx) (n i v : Nat) : (c.put n i v).cap = c.cap := by unfold Ctx.put Ctx.setElem; split <;> rfl
@[simp] theorem put_detm (c : Ctx) (n i v : Nat) : (c.put n i v).detm = c.detm := by unfold Ctx.put Ctx.setElem; split <;> rfl
@[simp] theorem put_share (c : Ctx) (n i v : Nat) : (c.put n i v).share = c.share := by unfold Ctx.put Ctx.setElem; split <;> rfl
@[simp] theorem put_replay (c : Ctx) (n i v : Nat) : (c.put n i v).replay = c.replay := by unfold Ctx.put Ctx.setElem; split <;> rfl
@[simp] theorem put_rngkey0 (c : Ctx) (n i v : Nat) : (c.put n i v).rngkey0 = c.rngkey0 := by unfold Ctx.put Ctx.setElem; split <;> rfl
@[simp] theorem put_rngkey1 (c : Ctx) (n i v : Nat) : (c.put n i v).rngkey1 = c.rngkey1 := by unfold Ctx.put Ctx.setElem; split <;> rfl
@[simp] theorem put_acarry (c : Ctx) (n i v : Nat) : (c.put n i v).acarry = c.acarry := by unfold Ctx.put Ctx.setElem; split <;> rfl
@[simp] theorem put_xqin (c : Ctx) (n i v : Nat) : (c.put n i v).xqin = c.xqin := by unfold Ctx.put Ctx.setElem; split <;> rfl
@[simp] theorem put_xqout (c : Ctx) (n i v : Nat) : (c.put n i v).xqout = c.xqout := by unfold Ctx.put Ctx.setElem; split <;> rfl
@[simp] theorem put_tileen (c : Ctx) (n i v : Nat) : (c.put n i v).tileen = c.tileen := by unfold Ctx.put Ctx.setElem; split <;> rfl
@[simp] theorem put_instret (c : Ctx) (n i v : Nat) : (c.put n i v).instret = c.instret := by unfold Ctx.put Ctx.setElem; split <;> rfl
@[simp] theorem put_launchid (c : Ctx) (n i v : Nat) : (c.put n i v).launchid = c.launchid := by unfold Ctx.put Ctx.setElem; split <;> rfl
@[simp] theorem put_lindex (c : Ctx) (n i v : Nat) : (c.put n i v).lindex = c.lindex := by unfold Ctx.put Ctx.setElem; split <;> rfl
@[simp] theorem put_preds (c : Ctx) (n i v : Nat) : (c.put n i v).preds = c.preds := by unfold Ctx.put Ctx.setElem; split <;> rfl
@[simp] theorem put_views (c : Ctx) (n i v : Nat) : (c.put n i v).views = c.views := by unfold Ctx.put Ctx.setElem; split <;> rfl
@[simp] theorem put_streams (c : Ctx) (n i v : Nat) : (c.put n i v).streams = c.streams := by unfold Ctx.put Ctx.setElem; split <;> rfl
@[simp] theorem put_trees (c : Ctx) (n i v : Nat) : (c.put n i v).trees = c.trees := by unfold Ctx.put Ctx.setElem; split <;> rfl
@[simp] theorem put_vq (c : Ctx) (n i v : Nat) : (c.put n i v).vq = c.vq := by unfold Ctx.put Ctx.setElem; split <;> rfl
@[simp] theorem put_convoyHead (c : Ctx) (n i v : Nat) : (c.put n i v).convoyHead = c.convoyHead := by unfold Ctx.put Ctx.setElem; split <;> rfl
@[simp] theorem put_convoyCount (c : Ctx) (n i v : Nat) : (c.put n i v).convoyCount = c.convoyCount := by unfold Ctx.put Ctx.setElem; split <;> rfl
@[simp] theorem put_convoyLeft (c : Ctx) (n i v : Nat) : (c.put n i v).convoyLeft = c.convoyLeft := by unfold Ctx.put Ctx.setElem; split <;> rfl
@[simp] theorem put_slotted (c : Ctx) (n i v : Nat) : (c.put n i v).slotted = c.slotted := by unfold Ctx.put Ctx.setElem; split <;> rfl
@[simp] theorem put_order (c : Ctx) (n i v : Nat) : (c.put n i v).order = c.order := by unfold Ctx.put Ctx.setElem; split <;> rfl
@[simp] theorem put_took (c : Ctx) (n i v : Nat) : (c.put n i v).took = c.took := by unfold Ctx.put Ctx.setElem; split <;> rfl
@[simp] theorem put_latch (c : Ctx) (n i v : Nat) : (c.put n i v).latch = c.latch := by unfold Ctx.put Ctx.setElem; split <;> rfl
@[simp] theorem put_reverted (c : Ctx) (n i v : Nat) : (c.put n i v).reverted = c.reverted := by unfold Ctx.put Ctx.setElem; split <;> rfl
@[simp] theorem put_scan (c : Ctx) (n i v : Nat) : (c.put n i v).scan = c.scan := by unfold Ctx.put Ctx.setElem; split <;> rfl
@[simp] theorem put_blocks (c : Ctx) (n i v : Nat) : (c.put n i v).blocks = c.blocks := by unfold Ctx.put Ctx.setElem; split <;> rfl
@[simp] theorem put_xq (c : Ctx) (n i v : Nat) : (c.put n i v).xq = c.xq := by unfold Ctx.put Ctx.setElem; split <;> rfl
@[simp] theorem put_xfail (c : Ctx) (n i v : Nat) : (c.put n i v).xfail = c.xfail := by unfold Ctx.put Ctx.setElem; split <;> rfl
@[simp] theorem put_wait (c : Ctx) (n i v : Nat) : (c.put n i v).wait = c.wait := by unfold Ctx.put Ctx.setElem; split <;> rfl
@[simp] theorem put_late (c : Ctx) (n i v : Nat) : (c.put n i v).late = c.late := by unfold Ctx.put Ctx.setElem; split <;> rfl
@[simp] theorem put_record (c : Ctx) (n i v : Nat) : (c.put n i v).record = c.record := by unfold Ctx.put Ctx.setElem; split <;> rfl
@[simp] theorem put_groups (c : Ctx) (n i v : Nat) : (c.put n i v).groups = c.groups := by unfold Ctx.put Ctx.setElem; split <;> rfl
@[simp] theorem put_arrived (c : Ctx) (n i v : Nat) : (c.put n i v).arrived = c.arrived := by unfold Ctx.put Ctx.setElem; split <;> rfl
@[simp] theorem put_gang (c : Ctx) (n i v : Nat) : (c.put n i v).gang = c.gang := by unfold Ctx.put Ctx.setElem; split <;> rfl
@[simp] theorem put_parent (c : Ctx) (n i v : Nat) : (c.put n i v).parent = c.parent := by unfold Ctx.put Ctx.setElem; split <;> rfl
@[simp] theorem put_children (c : Ctx) (n i v : Nat) : (c.put n i v).children = c.children := by unfold Ctx.put Ctx.setElem; split <;> rfl
@[simp] theorem put_exited (c : Ctx) (n i v : Nat) : (c.put n i v).exited = c.exited := by unfold Ctx.put Ctx.setElem; split <;> rfl
@[simp] theorem put_exitCode (c : Ctx) (n i v : Nat) : (c.put n i v).exitCode = c.exitCode := by unfold Ctx.put Ctx.setElem; split <;> rfl
@[simp] theorem put_splice (c : Ctx) (n i v : Nat) : (c.put n i v).splice = c.splice := by unfold Ctx.put Ctx.setElem; split <;> rfl
@[simp] theorem put_passBreak (c : Ctx) (n i v : Nat) : (c.put n i v).passBreak = c.passBreak := by unfold Ctx.put Ctx.setElem; split <;> rfl
@[simp] theorem put_stepping (c : Ctx) (n i v : Nat) : (c.put n i v).stepping = c.stepping := by unfold Ctx.put Ctx.setElem; split <;> rfl
@[simp] theorem put_debugReq (c : Ctx) (n i v : Nat) : (c.put n i v).debugReq = c.debugReq := by unfold Ctx.put Ctx.setElem; split <;> rfl
@[simp] theorem put_matched (c : Ctx) (n i v : Nat) : (c.put n i v).matched = c.matched := by unfold Ctx.put Ctx.setElem; split <;> rfl
@[simp] theorem put_dbgstat (c : Ctx) (n i v : Nat) : (c.put n i v).dbgstat = c.dbgstat := by unfold Ctx.put Ctx.setElem; split <;> rfl
@[simp] theorem put_drafts (c : Ctx) (n i v : Nat) : (c.put n i v).drafts = c.drafts := by unfold Ctx.put Ctx.setElem; split <;> rfl
@[simp] theorem put_deficit (c : Ctx) (n i v : Nat) : (c.put n i v).deficit = c.deficit := by unfold Ctx.put Ctx.setElem; split <;> rfl
@[simp] theorem put_mcfg (c : Ctx) (n i v : Nat) : (c.put n i v).mcfg = c.mcfg := by unfold Ctx.put Ctx.setElem; split <;> rfl
@[simp] theorem put_issue (c : Ctx) (n i v : Nat) : (c.put n i v).issue = c.issue := by unfold Ctx.put Ctx.setElem; split <;> rfl
@[simp] theorem put_raises (c : Ctx) (n i v : Nat) : (c.put n i v).raises = c.raises := by unfold Ctx.put Ctx.setElem; split <;> rfl
@[simp] theorem put_issued (c : Ctx) (n i v : Nat) : (c.put n i v).issued = c.issued := by unfold Ctx.put Ctx.setElem; split <;> rfl
@[simp] theorem put_matErr (c : Ctx) (n i v : Nat) : (c.put n i v).matErr = c.matErr := by unfold Ctx.put Ctx.setElem; split <;> rfl

/-! ### `Ctx.setPbit` -/

@[simp] theorem setPbit_life (c : Ctx) (n i : Nat) (b : Bool) : (c.setPbit n i b).life = c.life := by unfold Ctx.setPbit Ctx.setPred; split <;> rfl
@[simp] theorem setPbit_sregs (c : Ctx) (n i : Nat) (b : Bool) : (c.setPbit n i b).sregs = c.sregs := by unfold Ctx.setPbit Ctx.setPred; split <;> rfl
@[simp] theorem setPbit_pc (c : Ctx) (n i : Nat) (b : Bool) : (c.setPbit n i b).pc = c.pc := by unfold Ctx.setPbit Ctx.setPred; split <;> rfl
@[simp] theorem setPbit_launch (c : Ctx) (n i : Nat) (b : Bool) : (c.setPbit n i b).launch = c.launch := by unfold Ctx.setPbit Ctx.setPred; split <;> rfl
@[simp] theorem setPbit_code (c : Ctx) (n i : Nat) (b : Bool) : (c.setPbit n i b).code = c.code := by unfold Ctx.setPbit Ctx.setPred; split <;> rfl
@[simp] theorem setPbit_fflags (c : Ctx) (n i : Nat) (b : Bool) : (c.setPbit n i b).fflags = c.fflags := by unfold Ctx.setPbit Ctx.setPred; split <;> rfl
@[simp] theorem setPbit_frm (c : Ctx) (n i : Nat) (b : Bool) : (c.setPbit n i b).frm = c.frm := by unfold Ctx.setPbit Ctx.setPred; split <;> rfl
@[simp] theorem setPbit_vtype (c : Ctx) (n i : Nat) (b : Bool) : (c.setPbit n i b).vtype = c.vtype := by unfold Ctx.setPbit Ctx.setPred; split <;> rfl
@[simp] theorem setPbit_vl (c : Ctx) (n i : Nat) (b : Bool) : (c.setPbit n i b).vl = c.vl := by unfold Ctx.setPbit Ctx.setPred; split <;> rfl
@[simp] theorem setPbit_vlmax (c : Ctx) (n i : Nat) (b : Bool) : (c.setPbit n i b).vlmax = c.vlmax := by unfold Ctx.setPbit Ctx.setPred; split <;> rfl
@[simp] theorem setPbit_vstart (c : Ctx) (n i : Nat) (b : Bool) : (c.setPbit n i b).vstart = c.vstart := by unfold Ctx.setPbit Ctx.setPred; split <;> rfl
@[simp] theorem setPbit_vff (c : Ctx) (n i : Nat) (b : Bool) : (c.setPbit n i b).vff = c.vff := by unfold Ctx.setPbit Ctx.setPred; split <;> rfl
@[simp] theorem setPbit_vpad (c : Ctx) (n i : Nat) (b : Bool) : (c.setPbit n i b).vpad = c.vpad := by unfold Ctx.setPbit Ctx.setPred; split <;> rfl
@[simp] theorem setPbit_vcarry (c : Ctx) (n i : Nat) (b : Bool) : (c.setPbit n i b).vcarry = c.vcarry := by unfold Ctx.setPbit Ctx.setPred; split <;> rfl
@[simp] theorem setPbit_vfoldop (c : Ctx) (n i : Nat) (b : Bool) : (c.setPbit n i b).vfoldop = c.vfoldop := by unfold Ctx.setPbit Ctx.setPred; split <;> rfl
@[simp] theorem setPbit_vtag (c : Ctx) (n i : Nat) (b : Bool) : (c.setPbit n i b).vtag = c.vtag := by unfold Ctx.setPbit Ctx.setPred; split <;> rfl
@[simp] theorem setPbit_pinned (c : Ctx) (n i : Nat) (b : Bool) : (c.setPbit n i b).pinned = c.pinned := by unfold Ctx.setPbit Ctx.setPred; split <;> rfl
@[simp] theorem setPbit_pincap (c : Ctx) (n i : Nat) (b : Bool) : (c.setPbit n i b).pincap = c.pincap := by unfold Ctx.setPbit Ctx.setPred; split <;> rfl
@[simp] theorem setPbit_cap (c : Ctx) (n i : Nat) (b : Bool) : (c.setPbit n i b).cap = c.cap := by unfold Ctx.setPbit Ctx.setPred; split <;> rfl
@[simp] theorem setPbit_detm (c : Ctx) (n i : Nat) (b : Bool) : (c.setPbit n i b).detm = c.detm := by unfold Ctx.setPbit Ctx.setPred; split <;> rfl
@[simp] theorem setPbit_share (c : Ctx) (n i : Nat) (b : Bool) : (c.setPbit n i b).share = c.share := by unfold Ctx.setPbit Ctx.setPred; split <;> rfl
@[simp] theorem setPbit_replay (c : Ctx) (n i : Nat) (b : Bool) : (c.setPbit n i b).replay = c.replay := by unfold Ctx.setPbit Ctx.setPred; split <;> rfl
@[simp] theorem setPbit_rngkey0 (c : Ctx) (n i : Nat) (b : Bool) : (c.setPbit n i b).rngkey0 = c.rngkey0 := by unfold Ctx.setPbit Ctx.setPred; split <;> rfl
@[simp] theorem setPbit_rngkey1 (c : Ctx) (n i : Nat) (b : Bool) : (c.setPbit n i b).rngkey1 = c.rngkey1 := by unfold Ctx.setPbit Ctx.setPred; split <;> rfl
@[simp] theorem setPbit_acarry (c : Ctx) (n i : Nat) (b : Bool) : (c.setPbit n i b).acarry = c.acarry := by unfold Ctx.setPbit Ctx.setPred; split <;> rfl
@[simp] theorem setPbit_xqin (c : Ctx) (n i : Nat) (b : Bool) : (c.setPbit n i b).xqin = c.xqin := by unfold Ctx.setPbit Ctx.setPred; split <;> rfl
@[simp] theorem setPbit_xqout (c : Ctx) (n i : Nat) (b : Bool) : (c.setPbit n i b).xqout = c.xqout := by unfold Ctx.setPbit Ctx.setPred; split <;> rfl
@[simp] theorem setPbit_tileen (c : Ctx) (n i : Nat) (b : Bool) : (c.setPbit n i b).tileen = c.tileen := by unfold Ctx.setPbit Ctx.setPred; split <;> rfl
@[simp] theorem setPbit_instret (c : Ctx) (n i : Nat) (b : Bool) : (c.setPbit n i b).instret = c.instret := by unfold Ctx.setPbit Ctx.setPred; split <;> rfl
@[simp] theorem setPbit_launchid (c : Ctx) (n i : Nat) (b : Bool) : (c.setPbit n i b).launchid = c.launchid := by unfold Ctx.setPbit Ctx.setPred; split <;> rfl
@[simp] theorem setPbit_lindex (c : Ctx) (n i : Nat) (b : Bool) : (c.setPbit n i b).lindex = c.lindex := by unfold Ctx.setPbit Ctx.setPred; split <;> rfl
@[simp] theorem setPbit_views (c : Ctx) (n i : Nat) (b : Bool) : (c.setPbit n i b).views = c.views := by unfold Ctx.setPbit Ctx.setPred; split <;> rfl
@[simp] theorem setPbit_streams (c : Ctx) (n i : Nat) (b : Bool) : (c.setPbit n i b).streams = c.streams := by unfold Ctx.setPbit Ctx.setPred; split <;> rfl
@[simp] theorem setPbit_trees (c : Ctx) (n i : Nat) (b : Bool) : (c.setPbit n i b).trees = c.trees := by unfold Ctx.setPbit Ctx.setPred; split <;> rfl
@[simp] theorem setPbit_slice (c : Ctx) (n i : Nat) (b : Bool) : (c.setPbit n i b).slice = c.slice := by unfold Ctx.setPbit Ctx.setPred; split <;> rfl
@[simp] theorem setPbit_vq (c : Ctx) (n i : Nat) (b : Bool) : (c.setPbit n i b).vq = c.vq := by unfold Ctx.setPbit Ctx.setPred; split <;> rfl
@[simp] theorem setPbit_convoyHead (c : Ctx) (n i : Nat) (b : Bool) : (c.setPbit n i b).convoyHead = c.convoyHead := by unfold Ctx.setPbit Ctx.setPred; split <;> rfl
@[simp] theorem setPbit_convoyCount (c : Ctx) (n i : Nat) (b : Bool) : (c.setPbit n i b).convoyCount = c.convoyCount := by unfold Ctx.setPbit Ctx.setPred; split <;> rfl
@[simp] theorem setPbit_convoyLeft (c : Ctx) (n i : Nat) (b : Bool) : (c.setPbit n i b).convoyLeft = c.convoyLeft := by unfold Ctx.setPbit Ctx.setPred; split <;> rfl
@[simp] theorem setPbit_slotted (c : Ctx) (n i : Nat) (b : Bool) : (c.setPbit n i b).slotted = c.slotted := by unfold Ctx.setPbit Ctx.setPred; split <;> rfl
@[simp] theorem setPbit_order (c : Ctx) (n i : Nat) (b : Bool) : (c.setPbit n i b).order = c.order := by unfold Ctx.setPbit Ctx.setPred; split <;> rfl
@[simp] theorem setPbit_took (c : Ctx) (n i : Nat) (b : Bool) : (c.setPbit n i b).took = c.took := by unfold Ctx.setPbit Ctx.setPred; split <;> rfl
@[simp] theorem setPbit_latch (c : Ctx) (n i : Nat) (b : Bool) : (c.setPbit n i b).latch = c.latch := by unfold Ctx.setPbit Ctx.setPred; split <;> rfl
@[simp] theorem setPbit_reverted (c : Ctx) (n i : Nat) (b : Bool) : (c.setPbit n i b).reverted = c.reverted := by unfold Ctx.setPbit Ctx.setPred; split <;> rfl
@[simp] theorem setPbit_scan (c : Ctx) (n i : Nat) (b : Bool) : (c.setPbit n i b).scan = c.scan := by unfold Ctx.setPbit Ctx.setPred; split <;> rfl
@[simp] theorem setPbit_blocks (c : Ctx) (n i : Nat) (b : Bool) : (c.setPbit n i b).blocks = c.blocks := by unfold Ctx.setPbit Ctx.setPred; split <;> rfl
@[simp] theorem setPbit_xq (c : Ctx) (n i : Nat) (b : Bool) : (c.setPbit n i b).xq = c.xq := by unfold Ctx.setPbit Ctx.setPred; split <;> rfl
@[simp] theorem setPbit_xfail (c : Ctx) (n i : Nat) (b : Bool) : (c.setPbit n i b).xfail = c.xfail := by unfold Ctx.setPbit Ctx.setPred; split <;> rfl
@[simp] theorem setPbit_wait (c : Ctx) (n i : Nat) (b : Bool) : (c.setPbit n i b).wait = c.wait := by unfold Ctx.setPbit Ctx.setPred; split <;> rfl
@[simp] theorem setPbit_late (c : Ctx) (n i : Nat) (b : Bool) : (c.setPbit n i b).late = c.late := by unfold Ctx.setPbit Ctx.setPred; split <;> rfl
@[simp] theorem setPbit_record (c : Ctx) (n i : Nat) (b : Bool) : (c.setPbit n i b).record = c.record := by unfold Ctx.setPbit Ctx.setPred; split <;> rfl
@[simp] theorem setPbit_groups (c : Ctx) (n i : Nat) (b : Bool) : (c.setPbit n i b).groups = c.groups := by unfold Ctx.setPbit Ctx.setPred; split <;> rfl
@[simp] theorem setPbit_arrived (c : Ctx) (n i : Nat) (b : Bool) : (c.setPbit n i b).arrived = c.arrived := by unfold Ctx.setPbit Ctx.setPred; split <;> rfl
@[simp] theorem setPbit_gang (c : Ctx) (n i : Nat) (b : Bool) : (c.setPbit n i b).gang = c.gang := by unfold Ctx.setPbit Ctx.setPred; split <;> rfl
@[simp] theorem setPbit_parent (c : Ctx) (n i : Nat) (b : Bool) : (c.setPbit n i b).parent = c.parent := by unfold Ctx.setPbit Ctx.setPred; split <;> rfl
@[simp] theorem setPbit_children (c : Ctx) (n i : Nat) (b : Bool) : (c.setPbit n i b).children = c.children := by unfold Ctx.setPbit Ctx.setPred; split <;> rfl
@[simp] theorem setPbit_exited (c : Ctx) (n i : Nat) (b : Bool) : (c.setPbit n i b).exited = c.exited := by unfold Ctx.setPbit Ctx.setPred; split <;> rfl
@[simp] theorem setPbit_exitCode (c : Ctx) (n i : Nat) (b : Bool) : (c.setPbit n i b).exitCode = c.exitCode := by unfold Ctx.setPbit Ctx.setPred; split <;> rfl
@[simp] theorem setPbit_splice (c : Ctx) (n i : Nat) (b : Bool) : (c.setPbit n i b).splice = c.splice := by unfold Ctx.setPbit Ctx.setPred; split <;> rfl
@[simp] theorem setPbit_passBreak (c : Ctx) (n i : Nat) (b : Bool) : (c.setPbit n i b).passBreak = c.passBreak := by unfold Ctx.setPbit Ctx.setPred; split <;> rfl
@[simp] theorem setPbit_stepping (c : Ctx) (n i : Nat) (b : Bool) : (c.setPbit n i b).stepping = c.stepping := by unfold Ctx.setPbit Ctx.setPred; split <;> rfl
@[simp] theorem setPbit_debugReq (c : Ctx) (n i : Nat) (b : Bool) : (c.setPbit n i b).debugReq = c.debugReq := by unfold Ctx.setPbit Ctx.setPred; split <;> rfl
@[simp] theorem setPbit_matched (c : Ctx) (n i : Nat) (b : Bool) : (c.setPbit n i b).matched = c.matched := by unfold Ctx.setPbit Ctx.setPred; split <;> rfl
@[simp] theorem setPbit_dbgstat (c : Ctx) (n i : Nat) (b : Bool) : (c.setPbit n i b).dbgstat = c.dbgstat := by unfold Ctx.setPbit Ctx.setPred; split <;> rfl
@[simp] theorem setPbit_drafts (c : Ctx) (n i : Nat) (b : Bool) : (c.setPbit n i b).drafts = c.drafts := by unfold Ctx.setPbit Ctx.setPred; split <;> rfl
@[simp] theorem setPbit_deficit (c : Ctx) (n i : Nat) (b : Bool) : (c.setPbit n i b).deficit = c.deficit := by unfold Ctx.setPbit Ctx.setPred; split <;> rfl
@[simp] theorem setPbit_mcfg (c : Ctx) (n i : Nat) (b : Bool) : (c.setPbit n i b).mcfg = c.mcfg := by unfold Ctx.setPbit Ctx.setPred; split <;> rfl
@[simp] theorem setPbit_issue (c : Ctx) (n i : Nat) (b : Bool) : (c.setPbit n i b).issue = c.issue := by unfold Ctx.setPbit Ctx.setPred; split <;> rfl
@[simp] theorem setPbit_raises (c : Ctx) (n i : Nat) (b : Bool) : (c.setPbit n i b).raises = c.raises := by unfold Ctx.setPbit Ctx.setPred; split <;> rfl
@[simp] theorem setPbit_issued (c : Ctx) (n i : Nat) (b : Bool) : (c.setPbit n i b).issued = c.issued := by unfold Ctx.setPbit Ctx.setPred; split <;> rfl
@[simp] theorem setPbit_matErr (c : Ctx) (n i : Nat) (b : Bool) : (c.setPbit n i b).matErr = c.matErr := by unfold Ctx.setPbit Ctx.setPred; split <;> rfl

@[simp] theorem retire_pc (c : Ctx) (x : Nat) : (c.retire x).pc = x := rfl
@[simp] theorem retire_instret (c : Ctx) (x : Nat) : (c.retire x).instret = c.instret + 1 := rfl
@[simp] theorem retire_wait (c : Ctx) (x : Nat) : (c.retire x).wait = none := rfl
@[simp] theorem vretire_vstart (c : Ctx) : c.vretire.vstart = 0 := rfl
@[simp] theorem vretire_instret (c : Ctx) : c.vretire.instret = c.instret + 1 := rfl
@[simp] theorem raiseFlags_fflags (c : Ctx) (x : Flags) : (c.raiseFlags x).fflags = c.fflags ||| x := rfl
@[simp] theorem accrue_fflags (c : Ctx) (x : Flags) : (c.accrue x).fflags = c.fflags ||| x := rfl

/-! ### Scalar registers (R27) -/

@[simp] theorem s_zero (c : Ctx) : c.s 0 = 0 := rfl
@[simp] theorem setS_zero (c : Ctx) (v : Dword) : c.setS 0 v = c := rfl
@[simp] theorem s_retire (c : Ctx) (x n : Nat) : (c.retire x).s n = c.s n := rfl
@[simp] theorem s_raiseFlags (c : Ctx) (x : Flags) (n : Nat) : (c.raiseFlags x).s n = c.s n := rfl

/-- A register that is not s0 reads back what is written to it. -/
theorem s_setS_same (c : Ctx) (n : Nat) (v : Dword) (h : n ≠ 0) (hn : n < 32) : (c.setS n v).s n = v := by
  simp [Ctx.s, Ctx.setS, h, Vector.toList_setIfInBounds, List.getD_eq_getElem?_getD, hn]

/-- Every other register reads as before. -/
theorem s_setS_other (c : Ctx) (n m : Nat) (v : Dword) (h : m ≠ n) : (c.setS n v).s m = c.s m := by
  simp only [Ctx.s, Ctx.setS]
  split_ifs <;> simp [Vector.toList_setIfInBounds, List.getD_eq_getElem?_getD, Ne.symm h]

/-- R27 in one line: s[n] := v read at m. -/
theorem s_setS (c : Ctx) (n m : Nat) (v : Dword) (hn : n < 32) :
    (c.setS n v).s m = if m = n ∧ n ≠ 0 then v else c.s m := by
  split_ifs with h
  · obtain ⟨rfl, h0⟩ := h; exact s_setS_same c m v h0 hn
  · by_cases hm : m = n
    · subst hm; simp only [true_and, not_not] at h; subst h; rfl
    · exact s_setS_other c n m v hm

end Sys2Proof.Laws
end

