-- ==== Sys2Proof/Laws/Ops.lean ====
section
/-! SUPPORT. What the shared operations come to: a scalar instruction that may take effect, a vector instruction that runs to its end, and
what sampling leaves alone. -/

namespace Sys2Proof.Laws

open Sys2Proof.Machine Sys2Proof.Safety

/-! ### Scalar instructions -/

/-- An instruction that may take effect takes it. -/
theorem scalar_ready {s : State} {f : Nat} {rs : List Nat} (k : Nat → Ctx → State → State) (h : Ready s f rs) :
    s.scalar rs k = k f (s.ctx f) s := by
  obtain ⟨hc, hp, hf, -, hv⟩ := h
  unfold State.scalar Ctx.queueFull
  simp [hc, hf, hp, hv]

/-- The same for one whose word passes the checks that come before. -/
theorem checked_ready {s : State} {f : Nat} {rs : List Nat} {bad : Nat → Ctx → Option Trap} (k : Nat → Ctx → State → State)
    (h : Ready s f rs) (hb : bad f (s.ctx f) = none) : s.checked bad rs k = k f (s.ctx f) s := by
  unfold State.checked
  simp only [h.1, h.2.1, Bool.false_eq_true, if_false, hb]
  exact scalar_ready k h

theorem simple_ready {s : State} {f d : Nat} {rs : List Nat} (val : Ctx → Dword × Flags) (h : Ready s f (d :: rs)) :
    s.simple rs d val = next s f (((s.ctx f).raiseFlags (val (s.ctx f)).2).setS d (val (s.ctx f)).1) := by
  unfold State.simple
  rw [scalar_ready _ h]

theorem me_agent {s : State} {f : Nat} (h : s.cur = .agent f) : s.me = f := by simp [State.me, h]

theorem not_core {f : Nat} (h : f < 2304) : isCore f = false := by simp [isCore]; omega

theorem threadOnly_ready {s : State} {f : Nat} {rs : List Nat} (k : Nat → Ctx → State → State) (h : Ready s f rs)
    (hf : f < 2304) : s.threadOnly rs k = k f (s.ctx f) s := by
  unfold State.threadOnly
  rw [me_agent h.1, not_core hf]
  simp [scalar_ready k h]

theorem threadOnlyChecked_ready {s : State} {f : Nat} {rs : List Nat} {bad : Nat → Ctx → Option Trap} (k : Nat → Ctx → State → State)
    (h : Ready s f rs) (hf : f < 2304) (hb : bad f (s.ctx f) = none) : s.threadOnlyChecked bad rs k = k f (s.ctx f) s := by
  unfold State.threadOnlyChecked
  rw [me_agent h.1, not_core hf]
  simp [checked_ready k h hb]

/-- An effect that another context could observe takes place where nothing of the context is provisional (R449). -/
theorem threadCertain_ready {s : State} {f : Nat} {rs : List Nat} (k : Nat → Ctx → State → State) (h : ThreadReady s f rs) :
    s.threadCertain rs k = k f (s.ctx f) s := by
  unfold State.threadCertain
  rw [me_agent h.1.1, not_core h.2.1]
  simp [scalar_ready _ h.1, h.2.2]

theorem ordered_ready {s : State} {f : Nat} {w : BitVec 4} {seen : Bool} {rs : List Nat} (k : Nat → Ctx → State → State) (h : Ready s f rs)
    (ho : InOrder s f w seen) : s.ordered w.toNat seen rs k = k f (s.ctx f) s := by
  unfold State.ordered
  rw [scalar_ready _ h]
  simp [ho.1, Nat.ne_of_lt ho.2]

/-- No flag raised. -/
@[simp] theorem raiseFlags_none (c : Ctx) : c.raiseFlags 0 = c := by
  have h : c.fflags ||| 0 = c.fflags := by simp
  unfold Ctx.raiseFlags
  rw [h]

/-- An exception of an instruction with nothing before it under way stops the agent at once (R76). -/
theorem trapHere_settled {s : State} {f : Nat} (t : Trap) (hl : (s.ctx f).late = none) (h : Settled s f) :
    s.trapHere f t = stopped s f t := by
  unfold State.trapHere
  simp [h.1, h.2, State.takeTrap, hl]

/-- A wait changes nothing but what is waited for (R276). -/
theorem stall_waits {s : State} {f : Nat} (w : Wait) (hl : (s.ctx f).late = none) : s.stall f w = waiting s f w := by
  unfold State.stall waiting
  simp [hl]

/-- An access of a scratchpad view needs no translation (R177). -/
theorem locate_scratch {s : State} {f : Nat} {v : Line} (a n : Nat) (u : Use) (h : View.space v ≤ 1) :
    s.locate f v a n u = .ok (.scr (scrByte f v a)) := by
  unfold State.locate scrByte View.bayByte
  rcases Nat.le_one_iff_eq_zero_or_eq_one.mp h with h | h <;> simp [h]

/-! ### Sampling -/

/-- A walk changes only what the tables have been read for. -/
theorem noteWalk_frame (s : State) (part va : Nat) : ∃ w, s.noteWalk part va = { s with walked := w } := by
  unfold State.noteWalk
  exact ⟨_, rfl⟩

/-- A store of a ring changes device memory alone, and its walk what the tables have been read for. -/
theorem ringStore_frame {s t : State} {part addr n v : Nat} {p : Bool} (h : s.ringStore part p addr n v = some t) :
    ∃ d w, t = { s with dev := d, walked := w } := by
  unfold State.ringStore at h
  split at h
  · split at h
    · cases h
    · exact ⟨_, s.walked, (Option.some.inj h).symm⟩
  · split at h
    · cases h
    · split at h
      · cases h
      · obtain ⟨w, hw⟩ := noteWalk_frame s part addr
        rw [hw] at h
        exact ⟨_, w, (Option.some.inj h).symm⟩

/-- A sample record changes device memory, the words walked and registers alone. -/
theorem putSample_frame (s : State) (part : Nat) (r : Line) :
    ∃ d w g, s.putSample part r = { s with dev := d, walked := w, regs := g } := by
  unfold State.putSample
  dsimp only
  split
  · rename_i s1 h
    obtain ⟨d, w, rfl⟩ := ringStore_frame h
    split <;> exact ⟨_, _, _, rfl⟩
  · exact ⟨_, s.walked, _, rfl⟩

/-- Records of several lane groups. -/
theorem putSamples_frame {α : Type} (l : List α) (part : State → Nat) (g : State → Nat → α → Line) (s : State) :
    ∃ d w r n, l.foldl (fun s a => State.putSample (State.freshNumber s).2 (part s) (g s (State.freshNumber s).1 a)) s =
      { s with dev := d, walked := w, regs := r, fresh := n } := by
  induction l generalizing s with
  | nil => exact ⟨s.dev, s.walked, s.regs, s.fresh, rfl⟩
  | cons a l ih =>
    obtain ⟨d, w, r, n, h⟩ := ih (State.putSample (State.freshNumber s).2 (part s) (g s (State.freshNumber s).1 a))
    obtain ⟨d', w', r', h'⟩ := putSample_frame (State.freshNumber s).2 (part s) (g s (State.freshNumber s).1 a)
    refine ⟨d, w, r, n, ?_⟩
    rw [List.foldl_cons, h, h']
    rfl

/-- Sampling changes the mill's count, device memory, the words walked, registers and the counter of free values alone. -/
theorem sample_frame (s : State) (f k : Nat) (e : VqEntry) (b : Nat) :
    ∃ m d w r n, s.sample f k e b = { s with mills := m, dev := d, walked := w, regs := r, fresh := n } := by
  unfold State.sample
  dsimp only
  split
  · exact ⟨_, _, s.walked, _, _, rfl⟩
  · obtain ⟨d, w, r, n, h⟩ := putSamples_frame
      (State.laneElems ((s.mill (millOf f)).lgmask)
        (State.freshNumber (s.modMill (millOf f) fun x => { x with samples := x.samples + 1 })).1 (256 / b) e.first (s.ctx f).reals)
      (fun t => t.partOf f) (fun t j le => t.sampleRecord f k e le.1 le.2 j)
      (State.freshNumber (s.modMill (millOf f) fun x => { x with samples := x.samples + 1 })).2
    exact ⟨(s.modMill (millOf f) fun x => { x with samples := x.samples + 1 }).mills, d, w, r, n, h⟩

@[simp] theorem sample_ctx (s : State) (f k g : Nat) (e : VqEntry) (b : Nat) : (s.sample f k e b).ctx g = s.ctx g := by
  obtain ⟨_, _, _, _, _, h⟩ := sample_frame s f k e b
  rw [h]; rfl

/-- Element groups issued move the arbiter of the mill, and no context. -/
@[simp] theorem chargeAlone_ctx (s : State) (f n g : Nat) : (s.chargeAlone f n).ctx g = s.ctx g := by
  unfold State.chargeAlone
  split <;> rfl

theorem chargeAlone_setCtx {s : State} {f n : Nat} {c : Ctx} (h : c.share = (s.ctx f).share) :
    (s.setCtx f c).chargeAlone f n = (s.chargeAlone f n).setCtx f c := by
  unfold State.chargeAlone
  split
  · rfl
  · simp only [ctx_setCtx_same, h]; rfl

theorem chargeAlone_frame (s : State) (f n : Nat) : ∃ m, s.chargeAlone f n = { s with mills := m } := by
  unfold State.chargeAlone
  split
  · exact ⟨s.mills, rfl⟩
  · exact ⟨_, rfl⟩

/-! ### Vector instructions -/

/-- The context of a thread with a vector instruction pushed. -/
def pushedCtx (op : VOp) (c : Ctx) : Ctx :=
  if c.idleNext then State.pushEntry c (op.entry c) else op.push (State.pushEntry c (op.entry c))

/-- The context in which its element loop begins (R36, R272). -/
def loopCtx (op : VOp) (c : Ctx) : Ctx :=
  { (pushedCtx op c).beginConvoy with
    vtype := c.vtype, vtag := c.vtag, vcarry := c.vcarry, vfoldop := c.vfoldop, reverted := false }

/-- The state in which its checks are made, and the one in which its element loop begins. -/
def checkState (op : VOp) (f : Nat) (s : State) : State := s.setCtx f (loopCtx op (s.ctx f))
def loopState (op : VOp) (f : Nat) (s : State) : State := s.setCtx f (State.goOn (loopCtx op (s.ctx f)))

/-- Its completion, from the state in which its last element has performed. -/
def vectorEnd (op : VOp) (f : Nat) (c : Ctx) (s : State) : State :=
  ((op.finish ((op.entry c).env f c.vstart) s).endMember f 0 { op.entry c with first := c.vstart }).modCtx f fun c' =>
    if c'.reverted then { c' with reverted := false }
    else { c' with
      vtype := (pushedCtx op c).beginConvoy.vtype, vtag := (pushedCtx op c).beginConvoy.vtag,
      vcarry := (pushedCtx op c).beginConvoy.vcarry, vfoldop := (pushedCtx op c).beginConvoy.vfoldop }

/-- The element groups that it issues (R18). -/
def groupsIssued (op : VOp) (c : Ctx) : Nat :=
  State.groupsBetween ((loopCtx op c).groupOf (op.entry c)) c.vstart (op.limit (loopCtx op c))

/-- A pushed instruction begins at once. -/
abbrev Begins (s : State) (f : Nat) (op : VOp) : Prop :=
  Ready s f [op.sa, op.sb, op.dest] ∧ f < 2304 ∧ (s.ctx f).vq = [] ∧ (s.ctx f).blocks = none ∧ s.defer = false ∧
  s.millQuiet f = true ∧ (op.view.map (State.viewCount (s.ctx f))).getD 0 < 4095

/-- A vector instruction that passes its checks is pushed and begins. -/
theorem vector_begins {s : State} {f : Nat} {op : VOp} (h : Begins s f op) (hd : op.decode f (s.ctx f) = none) :
    s.vector op = State.runAll op f 0 (op.entry (s.ctx f)) (s.setCtx f (pushedCtx op (s.ctx f))) := by
  obtain ⟨hr, hf, hq, hb, hdf, hm, hv⟩ := h
  unfold State.vector
  simp only [hr.1, not_core hf, Bool.false_eq_true, if_false]
  have hlb : (s.ctx f).latchBad op.reader = false := by simp [Ctx.latchBad, Ctx.latchNext, hq]
  rw [checked_ready _ hr (by simp [hlb, hd])]
  simp [hr.2.2.2.1, hq, Ctx.fetching, hdf, Ctx.quiet, hb, hm, pushedCtx, Nat.ne_of_lt hv]

/-- A vector instruction that passes its checks, waits for nothing, and meets no fault at an element, completes. -/
theorem vector_completes {s t : State} {f : Nat} {op : VOp} (h : Begins s f op)
    (hd : op.decode f (s.ctx f) = none) (hc : (loopCtx op (s.ctx f)).convoyLeft ≠ 0) (hs : (loopCtx op (s.ctx f)).startAt 0 (op.entry (s.ctx f)) = (s.ctx f).vstart)
    (hv : (s.ctx f).vstart < (loopCtx op (s.ctx f)).vl ∨ op.always = true)
    (hi : op.issue ((op.entry (s.ctx f)).env f (s.ctx f).vstart) (checkState op f s) = none)
    (hb : op.busy ((op.entry (s.ctx f)).env f (s.ctx f).vstart) (op.limit (loopCtx op (s.ctx f))) (checkState op f s) = none)
    (hr : op.run ((op.entry (s.ctx f)).env f (s.ctx f).vstart) (s.ctx f).vstart (op.limit (loopCtx op (s.ctx f)))
      (if (s.ctx f).vstart = 0 then op.begin' ((op.entry (s.ctx f)).env f (s.ctx f).vstart) (loopState op f s) else loopState op f s) = .ok t) :
    s.vector op = vectorEnd op f (s.ctx f) (t.chargeAlone f (groupsIssued op (s.ctx f))) := by
  rw [vector_begins h hd]
  unfold State.runAll State.underEntry
  simp only [State.modCtx, ctx_setCtx_same, setCtx_setCtx]
  rw [if_neg (show ¬ (pushedCtx op (s.ctx f)).beginConvoy.convoyLeft = 0 from hc)]
  have hl : { (pushedCtx op (s.ctx f)).beginConvoy with
      vtype := (op.entry (s.ctx f)).vtype, vtag := (op.entry (s.ctx f)).vtag, vcarry := (op.entry (s.ctx f)).vcarry,
      vfoldop := (op.entry (s.ctx f)).vfoldop, reverted := false } = loopCtx op (s.ctx f) := rfl
  rw [hl]
  have hve : ¬ ((loopCtx op (s.ctx f)).vl ≤ (s.ctx f).vstart ∧ op.always = false) := by
    rintro ⟨h1, h2⟩
    rcases hv with hv | hv
    · omega
    · simp [hv] at h2
  have hgo : (s.setCtx f (loopCtx op (s.ctx f))).modCtx f State.goOn = loopState op f s := by
    unfold loopState State.modCtx
    simp only [ctx_setCtx_same, setCtx_setCtx]
  have he : (op.entry (s.ctx f)).begun = false := rfl
  unfold checkState at hi hb
  unfold vectorEnd State.modCtx
  unfold State.runMember
  simp only [ctx_setCtx_same, hs, he, Bool.false_eq_true, if_false, hi, hb, Nat.min_self, decide_eq_true_eq,
    Bool.not_false, Bool.true_and, Bool.and_eq_true, Bool.not_eq_true', hve, Bool.false_and, hgo]
  have hfr : ((op.entry (s.ctx f)).env f (s.ctx f).vstart).fresh = decide ((s.ctx f).vstart = 0) := rfl
  rw [hfr]
  simp only [decide_eq_true_eq]
  rw [hr]
  simp only [Nat.le_refl, decide_true, Bool.true_or, if_true, State.issued, Bool.false_eq_true, if_false]
  rfl

end Sys2Proof.Laws
end

