-- ==== Sys2Proof/Laws/PerInstr.lean ====
section
/-! SUPPORT. Encoding and decoding agree, instruction by instruction: the word that `encode` gives decodes to the instruction it stands for. -/

namespace Sys2Proof.Laws

open Sys2Proof.Machine (Window)

/-- A well-formed instruction decodes from its word, and a well-formed command from its words. -/
def Encoding.Statement (i : Instr) : Prop :=
  (i.wf = true → i.isWord = true → decode i.word = .ok i) ∧
  (i.wf = true → i.isCommand = true →
    decodeCommand ((encode i).getD 0 0) ((encode i).getD 1 0) ((encode i).getD 2 0) = .ok i)

/-! ### Words made of fields -/

/-- The fields (value, place, width) lie below bit 32, apart from one another, and k is zero there. -/
def Encoding.free (k : Nat) : List (Nat × Nat) → Bool
  | [] => true
  | f :: r => decide (f.1 + f.2 ≤ 32) && decide (k / 2 ^ f.1 % 2 ^ f.2 = 0) && r.all (fun g =>
      decide (f.1 + f.2 ≤ g.1) || decide (g.1 + g.2 ≤ f.1)) && Encoding.free k r

def Encoding.bounded : List (Nat × Nat × Nat) → Prop
  | [] => True
  | f :: r => f.1 < 2 ^ f.2.2 ∧ Encoding.bounded r

def Encoding.reads (x : Nat) : List (Nat × Nat × Nat) → Prop
  | [] => True
  | f :: r => x / 2 ^ f.2.1 % 2 ^ f.2.2 = f.1 ∧ Encoding.reads x r

def Encoding.apart (lo n : Nat) (fs : List (Nat × Nat)) : Bool :=
  fs.all fun f => decide (f.1 + f.2 ≤ lo) || decide (lo + n ≤ f.1)


/-- A number with m zeros from bit l, and the same number with v there, in three parts. -/
theorem Encoding.parts (y l m : Nat) (hy : y / 2 ^ l % 2 ^ m = 0) : y = y / 2 ^ (l + m) * 2 ^ (l + m) + y % 2 ^ l := by
  have h1 := Nat.div_add_mod y (2 ^ l)
  have h2 := Nat.div_add_mod (y / 2 ^ l) (2 ^ m)
  rw [hy, Nat.add_zero, Nat.div_div_eq_div_mul, ← pow_add] at h2
  calc y = 2 ^ l * (y / 2 ^ l) + y % 2 ^ l := h1.symm
    _ = 2 ^ l * (2 ^ m * (y / 2 ^ (l + m))) + y % 2 ^ l := by rw [h2]
    _ = _ := by rw [pow_add]; ring

theorem Encoding.add_high (y v l m : Nat) (hv : v < 2 ^ m) (hy : y / 2 ^ l % 2 ^ m = 0) :
    (y + v * 2 ^ l) / 2 ^ (l + m) = y / 2 ^ (l + m) := by
  have hr : v * 2 ^ l + y % 2 ^ l < 2 ^ (l + m) := by
    have := Nat.mod_lt y (Nat.two_pow_pos l)
    calc v * 2 ^ l + y % 2 ^ l < v * 2 ^ l + 2 ^ l := by omega
      _ = (v + 1) * 2 ^ l := by ring
      _ ≤ 2 ^ m * 2 ^ l := Nat.mul_le_mul_right _ hv
      _ = 2 ^ (l + m) := by rw [pow_add]; ring
  have e : y + v * 2 ^ l = (v * 2 ^ l + y % 2 ^ l) + y / 2 ^ (l + m) * 2 ^ (l + m) := by
    conv_lhs => rw [Encoding.parts y l m hy]
    ring
  rw [e, Nat.add_mul_div_right _ _ (Nat.two_pow_pos _), Nat.div_eq_of_lt hr, Nat.zero_add]

theorem Encoding.add_at (y v l m : Nat) (hv : v < 2 ^ m) (hy : y / 2 ^ l % 2 ^ m = 0) : (y + v * 2 ^ l) / 2 ^ l % 2 ^ m = v := by
  rw [Nat.add_mul_div_right _ _ (Nat.two_pow_pos _), Nat.add_mod, hy, Nat.zero_add, Nat.mod_mod, Nat.mod_eq_of_lt hv]

theorem Encoding.add_apart (y v l m lo n : Nat) (hv : v < 2 ^ m) (hy : y / 2 ^ l % 2 ^ m = 0) (h : l + m ≤ lo ∨ lo + n ≤ l) :
    (y + v * 2 ^ l) / 2 ^ lo % 2 ^ n = y / 2 ^ lo % 2 ^ n := by
  rcases h with h | h
  · obtain ⟨k, rfl⟩ := Nat.exists_eq_add_of_le h
    rw [pow_add, ← Nat.div_div_eq_div_mul, ← Nat.div_div_eq_div_mul, Encoding.add_high y v l m hv hy]
  · obtain ⟨k, rfl⟩ := Nat.exists_eq_add_of_le h
    have e : v * 2 ^ (lo + n + k) = 2 ^ lo * (v * 2 ^ k * 2 ^ n) := by rw [pow_add, pow_add]; ring
    rw [e, Nat.add_mul_div_left _ _ (Nat.two_pow_pos _), Nat.add_mul_mod_self_right]

theorem Encoding.add_lt (y v l m : Nat) (hv : v < 2 ^ m) (hy : y / 2 ^ l % 2 ^ m = 0) (h : l + m ≤ 32) (hlt : y < 2 ^ 32) :
    y + v * 2 ^ l < 2 ^ 32 := by
  obtain ⟨k, hk⟩ := Nat.exists_eq_add_of_le h
  have e := Encoding.add_high y v l m hv hy
  rw [hk, pow_add] at hlt ⊢
  rw [Nat.mul_comm (2 ^ (l + m))]
  apply (Nat.div_lt_iff_lt_mul (Nat.two_pow_pos (l + m))).1
  rw [e]
  exact Nat.div_lt_of_lt_mul (by rwa [Nat.mul_comm] at hlt ⊢)

/-- The places and widths of fields fit below bit 32, apart from one another. -/
def Encoding.spread : List (Nat × Nat × Nat) → Prop
  | [] => True
  | f :: r => f.2.1 + f.2.2 ≤ 32 ∧ (∀ g ∈ r, f.2.1 + f.2.2 ≤ g.2.1 ∨ g.2.1 + g.2.2 ≤ f.2.1) ∧ Encoding.spread r

theorem Encoding.spread_of (k : Nat) (fs : List (Nat × Nat × Nat)) (h : Encoding.free k (fs.map (·.2)) = true) :
    Encoding.spread fs ∧ ∀ f ∈ fs, k / 2 ^ f.2.1 % 2 ^ f.2.2 = 0 := by
  induction fs with
  | nil => exact ⟨trivial, by simp⟩
  | cons f r ih =>
    simp only [List.map_cons, Encoding.free, Bool.and_eq_true, decide_eq_true_eq, List.all_eq_true, Bool.or_eq_true] at h
    obtain ⟨⟨⟨h1, h2⟩, h3⟩, h4⟩ := h
    exact ⟨⟨h1, fun g hg => h3 g.2 (List.mem_map_of_mem hg), (ih h4).1⟩, by simpa using ⟨h2, fun a b c hm => (ih h4).2 (a, b, c) hm⟩⟩

/-- What the sum of a constant and its fields holds: each field, and the constant where no field stands. -/
theorem Encoding.sum_reads (fs : List (Nat × Nat × Nat)) : ∀ k, k < 2 ^ 32 → Encoding.spread fs → Encoding.bounded fs →
    (∀ f ∈ fs, k / 2 ^ f.2.1 % 2 ^ f.2.2 = 0) →
    let x := fs.foldl (fun acc f => acc + f.1 * 2 ^ f.2.1) k
    x < 2 ^ 32 ∧ Encoding.reads x fs ∧ ∀ lo n, (∀ f ∈ fs, f.2.1 + f.2.2 ≤ lo ∨ lo + n ≤ f.2.1) → x / 2 ^ lo % 2 ^ n = k / 2 ^ lo % 2 ^ n := by
  induction fs with
  | nil => exact fun k hk _ _ _ => ⟨hk, trivial, fun _ _ _ => rfl⟩
  | cons f r ih =>
    intro k hk hs hb hz
    have z := hz f (by simp)
    obtain ⟨h1, h2, h3⟩ := ih (k + f.1 * 2 ^ f.2.1) (Encoding.add_lt _ _ _ _ hb.1 z hs.1 hk) hs.2.2 hb.2 fun g hg => by
      rw [Encoding.add_apart _ _ _ _ _ _ hb.1 z (hs.2.1 g hg)]
      exact hz g (by simp [hg])
    refine ⟨h1, ⟨?_, h2⟩, fun lo n ha => ?_⟩
    · exact (h3 _ _ fun g hg => (hs.2.1 g hg).symm).trans (Encoding.add_at _ _ _ _ hb.1 z)
    · exact (h3 lo n fun g hg => ha g (by simp [hg])).trans
        (Encoding.add_apart _ _ _ _ _ _ hb.1 z (ha f (by simp)))

/-- The same of the word that `asm` makes. -/
theorem Encoding.asm_reads (k : Nat) (fs : List (Nat × Nat × Nat)) (gs L : List (Nat × Nat))
    (hg : fs.map (fun f => (f.1, f.2.1)) = gs) (hL : fs.map (·.2) = L)
    (hk : (decide (k < 2 ^ 32) && Encoding.free k L) = true)
    (hb : Encoding.bounded fs) :
    ∃ W, asm k gs = W ∧ Encoding.reads W.toNat fs ∧ ∀ lo n v, (Encoding.apart lo n L && Nat.beq (k / 2 ^ lo % 2 ^ n) v) = true → bitsAt W lo n = v := by
  subst hL hg
  simp only [Bool.and_eq_true, decide_eq_true_eq] at hk
  obtain ⟨hs, hz⟩ := Encoding.spread_of k fs hk.2
  obtain ⟨h1, h2, h3⟩ := Encoding.sum_reads fs k hk.1 hs hb hz
  have e : (asm k (fs.map fun f => (f.1, f.2.1))).toNat = fs.foldl (fun acc f => acc + f.1 * 2 ^ f.2.1) k := by
    rw [asm, List.foldl_map]
    simpa using h1
  refine ⟨_, rfl, by rw [e]; exact h2, fun lo n v ha => ?_⟩
  simp only [Bool.and_eq_true, Nat.beq_eq] at ha
  rw [bitsAt, e, ← ha.2]
  refine h3 lo n fun f hf => ?_
  simpa using (List.all_eq_true.mp ha.1) f.2 (List.mem_map_of_mem hf)

theorem Encoding.field_of {w : Word} {lo n : Nat} {v : BitVec n} (e : w.toNat / 2 ^ lo % 2 ^ n = v.toNat) : field w lo n = v := by
  apply BitVec.eq_of_toNat_eq
  simp [field, e]

theorem Encoding.not_zero {w : Word} {lo n : Nat} (k : Nat) (hk : k < n) (h : bitsAt w (lo + k) 1 = 1) : bitsAt w lo n ≠ 0 := by
  intro e
  unfold bitsAt at h e
  obtain ⟨q, hq⟩ := Nat.dvd_of_mod_eq_zero e
  obtain ⟨r, rfl⟩ := Nat.exists_eq_add_of_lt hk
  rw [pow_add, ← Nat.div_div_eq_div_mul, hq, pow_succ, pow_add] at h
  rw [show 2 ^ k * 2 ^ r * 2 * q = 2 ^ k * (2 * (2 ^ r * q)) by ring, Nat.mul_div_cancel_left _ (Nat.two_pow_pos _)] at h
  omega

theorem Encoding.literal_halves {v : BitVec 64} : literal (BitVec.ofNat 32 v.toNat) (BitVec.ofNat 32 (v.toNat / 2 ^ 32)) = v := by
  have := v.isLt
  apply BitVec.eq_of_toNat_eq
  simp [literal]
  omega


/-! ### The decoder of each major opcode -/

theorem Encoding.to01 {w : Word} (h : bitsAt w 26 6 = 1) : decode w = decode01 w := by
  rw [decode, decodeThread, h]
  rfl

theorem Encoding.to07 {w : Word} (h : bitsAt w 26 6 = 7) : decode w = decode07 w := by
  rw [decode, decodeThread, h]
  rfl

theorem Encoding.to0A {w : Word} (h : bitsAt w 26 6 = 10) : decode w = decode0A w := by
  rw [decode, decodeThread, h]
  rfl

theorem Encoding.to18 {w : Word} (h : bitsAt w 26 6 = 24) : decode w = decode18 w := by
  rw [decode, decodeThread, h]
  rfl

theorem Encoding.to19 {w : Word} (h : bitsAt w 26 6 = 25) : decode w = decode19 w := by
  rw [decode, decodeThread, h]
  rfl

theorem Encoding.to1A {w : Word} (h : bitsAt w 26 6 = 26) : decode w = decode1A w := by
  rw [decode, decodeThread, h]
  rfl

theorem Encoding.to1B {w : Word} (h : bitsAt w 26 6 = 27) : decode w = decode1B w := by
  rw [decode, decodeThread, h]
  rfl

theorem Encoding.to1C {w : Word} (h : bitsAt w 26 6 = 28) : decode w = decode1C w := by
  rw [decode, decodeThread, h]
  rfl

theorem Encoding.to1D {w : Word} (h : bitsAt w 26 6 = 29) : decode w = decode1D w := by
  rw [decode, decodeThread, h]
  rfl

theorem Encoding.to1E {w : Word} (h : bitsAt w 26 6 = 30) : decode w = decode1E w := by
  rw [decode, decodeThread, h]
  rfl

theorem Encoding.to1F {w : Word} (h : bitsAt w 26 6 = 31) : decode w = decode1F w := by
  rw [decode, decodeThread, h]
  rfl

theorem Encoding.to20 {w : Word} (h : bitsAt w 26 6 = 32) : decode w = decode20 w := by
  rw [decode, decodeThread, h]
  rfl

theorem Encoding.to21 {w : Word} (h : bitsAt w 26 6 = 33) : decode w = decode21 w := by
  rw [decode, decodeThread, h]
  rfl

theorem Encoding.to22 {w : Word} (h : bitsAt w 26 6 = 34) : decode w = decode22 w := by
  rw [decode, decodeThread, h]
  rfl

theorem Encoding.to23 {w : Word} (h : bitsAt w 26 6 = 35) : decode w = decode23 w := by
  rw [decode, decodeThread, h]
  rfl

theorem Encoding.to24 {w : Word} (h : bitsAt w 26 6 = 36) : decode w = decode24 w := by
  rw [decode, decodeThread, h]
  rfl

theorem Encoding.to25 {w : Word} (h : bitsAt w 26 6 = 37) : decode w = decode25 w := by
  rw [decode, decodeThread, h]
  rfl

theorem Encoding.to26 {w : Word} (h : bitsAt w 26 6 = 38) : decode w = decode26 w := by
  rw [decode, decodeThread, h]
  rfl

theorem Encoding.to27 {w : Word} (h : bitsAt w 26 6 = 39) : decode w = decode27 w := by
  rw [decode, decodeThread, h]
  rfl

theorem Encoding.to28 {w : Word} (h : bitsAt w 26 6 = 40) : decode w = decode28 w := by
  rw [decode, decodeThread, h]
  rfl

theorem Encoding.to29 {w : Word} (h : bitsAt w 26 6 = 41) : decode w = decode29 w := by
  rw [decode, decodeThread, h]
  rfl

theorem Encoding.to2A {w : Word} (h : bitsAt w 26 6 = 42) : decode w = decode2A w := by
  rw [decode, decodeThread, h]
  rfl

theorem Encoding.to2B {w : Word} (h : bitsAt w 26 6 = 43) : decode w = decode2B w := by
  rw [decode, decodeThread, h]
  rfl

theorem Encoding.to2C {w : Word} (h : bitsAt w 26 6 = 44) : decode w = decode2C w := by
  rw [decode, decodeThread, h]
  rfl

theorem Encoding.to2D {w : Word} (h : bitsAt w 26 6 = 45) : decode w = decode2D w := by
  rw [decode, decodeThread, h]
  rfl

theorem Encoding.to2E {w : Word} (h : bitsAt w 26 6 = 46) : decode w = decode2E w := by
  rw [decode, decodeThread, h]
  rfl

theorem Encoding.to2F {w : Word} (h : bitsAt w 26 6 = 47) : decode w = decode2F w := by
  rw [decode, decodeThread, h]
  rfl

/-- The arms of OP 0x38, behind the check of the view. -/
noncomputable def Encoding.arms38 (w : Word) : Except Reject Instr :=
  match bitsAt w 21 5 with
    | 0 =>
        if bitsAt w 4 17 = 0 then .ok (.mten (field w 0 4))
        else .error .unassigned
    | 1 =>
        if bitsAt w 1 14 = 0 then .ok (.mzero (field w 19 2) (field w 15 4) (field w 0 1))
        else .error .unassigned
    | 2 =>
        if bitsAt w 19 2 = 0 ∧ bitsAt w 11 4 = 0 ∧ bitsAt w 3 3 = 0 then .ok (.mldw (field w 15 4) (field w 6 5) (field w 0 3))
        else .error .unassigned
    | 3 =>
        if bitsAt w 19 2 = 0 ∧ bitsAt w 0 15 = 0 then .ok (.mswap (field w 15 4))
        else .error .unassigned
    | 4 =>
        if bitsAt w 11 4 = 0 ∧ bitsAt w 1 5 = 0 then .ok (.mma (field w 19 2) (field w 15 4) (field w 6 5) (field w 0 1))
        else .error .unassigned
    | 5 =>
        if bitsAt w 11 4 = 0 ∧ bitsAt w 1 5 = 0 then .ok (.mmaF64 (field w 19 2) (field w 15 4) (field w 6 5) (field w 0 1))
        else .error .unassigned
    | 6 =>
        if bitsAt w 2 13 = 0 then .ok (.mscan (field w 19 2) (field w 15 4) (field w 1 1) (field w 0 1))
        else .error .unassigned
    | 7 =>
        if bitsAt w 11 4 = 0 ∧ bitsAt w 0 6 = 0 then .ok (.mcld (field w 19 2) (field w 15 4) (field w 6 5))
        else .error .unassigned
    | 8 =>
        if bitsAt w 11 4 = 0 ∧ bitsAt w 0 6 = 0 then .ok (.mcst (field w 19 2) (field w 15 4) (field w 6 5))
        else .error .unassigned
    | 9 =>
        if bitsAt w 11 4 = 0 ∧ bitsAt w 0 6 = 0 then .ok (.mst (field w 19 2) (field w 15 4) (field w 6 5))
        else .error .unassigned
    | 10 =>
        if bitsAt w 11 4 = 0 ∧ bitsAt w 0 6 = 0 then .ok (.mld (field w 19 2) (field w 15 4) (field w 6 5))
        else .error .unassigned
    | 11 =>
        if bitsAt w 19 2 = 0 ∧ bitsAt w 11 4 = 0 ∧ bitsAt w 0 6 = 0 then .ok (.mrow (field w 15 4) (field w 6 5))
        else .error .unassigned
    | 12 =>
        if bitsAt w 19 2 = 0 ∧ bitsAt w 11 4 = 0 ∧ bitsAt w 0 6 = 0 then .ok (.mcol (field w 15 4) (field w 6 5))
        else .error .unassigned
    | 13 =>
        if bitsAt w 11 10 = 0 then .ok (.msig (field w 6 5) (field w 0 6))
        else .error .unassigned
    | 14 =>
        if bitsAt w 11 10 = 0 ∧ bitsAt w 0 6 = 0 then .ok (.mwait (field w 6 5))
        else .error .unassigned
    | 15 =>
        if bitsAt w 11 10 = 0 ∧ bitsAt w 0 6 = 0 then .ok (.mcfg (field w 6 5))
        else .error .unassigned
    | _ => .error .unassigned

theorem Encoding.to38 {w : Word} (h : bitsAt w 26 6 = 56) (hv : bitsAt w 11 4 = 0) :
    decode w = Encoding.arms38 w := by
  have hm : matrixView w = false := by simp [matrixView, hv]
  rw [decode, h]
  refine (if_pos rfl).trans ?_
  rw [decode38, hm]
  rfl

/-! ### Every instruction -/

section

set_option Elab.async false

theorem Encoding.add (d : BitVec 5) (a : BitVec 5) (b : BitVec 5) : Statement (.add d a b) := by
  refine ⟨fun _ _ => ?_, fun _ h => (Bool.false_ne_true h).elim⟩
  obtain ⟨W, e, ⟨g0, g1, g2, -⟩, t⟩ := asm_reads 0x04000000 [(d.toNat, 21, 5), (a.toNat, 16, 5), (b.toNat, 11, 5)] [(d.toNat, 21), (a.toNat, 16), (b.toNat, 11)] [(21, 5), (16, 5), (11, 5)] rfl rfl (by decide +kernel) ⟨d.isLt, a.isLt, b.isLt, trivial⟩
  refine (congrArg decode e).trans ((to01 (t 26 6 1 (by decide))).trans ?_)
  rw [decode01, t 0 11 0 (by decide)]
  change Except.ok _ = _
  rw [field_of g0, field_of g1, field_of g2]

theorem Encoding.sub (d : BitVec 5) (a : BitVec 5) (b : BitVec 5) : Statement (.sub d a b) := by
  refine ⟨fun _ _ => ?_, fun _ h => (Bool.false_ne_true h).elim⟩
  obtain ⟨W, e, ⟨g0, g1, g2, -⟩, t⟩ := asm_reads 0x04000001 [(d.toNat, 21, 5), (a.toNat, 16, 5), (b.toNat, 11, 5)] [(d.toNat, 21), (a.toNat, 16), (b.toNat, 11)] [(21, 5), (16, 5), (11, 5)] rfl rfl (by decide +kernel) ⟨d.isLt, a.isLt, b.isLt, trivial⟩
  refine (congrArg decode e).trans ((to01 (t 26 6 1 (by decide))).trans ?_)
  rw [decode01, t 0 11 1 (by decide)]
  change Except.ok _ = _
  rw [field_of g0, field_of g1, field_of g2]

theorem Encoding.and (d : BitVec 5) (a : BitVec 5) (b : BitVec 5) : Statement (.and d a b) := by
  refine ⟨fun _ _ => ?_, fun _ h => (Bool.false_ne_true h).elim⟩
  obtain ⟨W, e, ⟨g0, g1, g2, -⟩, t⟩ := asm_reads 0x04000002 [(d.toNat, 21, 5), (a.toNat, 16, 5), (b.toNat, 11, 5)] [(d.toNat, 21), (a.toNat, 16), (b.toNat, 11)] [(21, 5), (16, 5), (11, 5)] rfl rfl (by decide +kernel) ⟨d.isLt, a.isLt, b.isLt, trivial⟩
  refine (congrArg decode e).trans ((to01 (t 26 6 1 (by decide))).trans ?_)
  rw [decode01, t 0 11 2 (by decide)]
  change Except.ok _ = _
  rw [field_of g0, field_of g1, field_of g2]

theorem Encoding.or (d : BitVec 5) (a : BitVec 5) (b : BitVec 5) : Statement (.or d a b) := by
  refine ⟨fun _ _ => ?_, fun _ h => (Bool.false_ne_true h).elim⟩
  obtain ⟨W, e, ⟨g0, g1, g2, -⟩, t⟩ := asm_reads 0x04000003 [(d.toNat, 21, 5), (a.toNat, 16, 5), (b.toNat, 11, 5)] [(d.toNat, 21), (a.toNat, 16), (b.toNat, 11)] [(21, 5), (16, 5), (11, 5)] rfl rfl (by decide +kernel) ⟨d.isLt, a.isLt, b.isLt, trivial⟩
  refine (congrArg decode e).trans ((to01 (t 26 6 1 (by decide))).trans ?_)
  rw [decode01, t 0 11 3 (by decide)]
  change Except.ok _ = _
  rw [field_of g0, field_of g1, field_of g2]

theorem Encoding.xor (d : BitVec 5) (a : BitVec 5) (b : BitVec 5) : Statement (.xor d a b) := by
  refine ⟨fun _ _ => ?_, fun _ h => (Bool.false_ne_true h).elim⟩
  obtain ⟨W, e, ⟨g0, g1, g2, -⟩, t⟩ := asm_reads 0x04000004 [(d.toNat, 21, 5), (a.toNat, 16, 5), (b.toNat, 11, 5)] [(d.toNat, 21), (a.toNat, 16), (b.toNat, 11)] [(21, 5), (16, 5), (11, 5)] rfl rfl (by decide +kernel) ⟨d.isLt, a.isLt, b.isLt, trivial⟩
  refine (congrArg decode e).trans ((to01 (t 26 6 1 (by decide))).trans ?_)
  rw [decode01, t 0 11 4 (by decide)]
  change Except.ok _ = _
  rw [field_of g0, field_of g1, field_of g2]

theorem Encoding.shl (d : BitVec 5) (a : BitVec 5) (b : BitVec 5) : Statement (.shl d a b) := by
  refine ⟨fun _ _ => ?_, fun _ h => (Bool.false_ne_true h).elim⟩
  obtain ⟨W, e, ⟨g0, g1, g2, -⟩, t⟩ := asm_reads 0x04000005 [(d.toNat, 21, 5), (a.toNat, 16, 5), (b.toNat, 11, 5)] [(d.toNat, 21), (a.toNat, 16), (b.toNat, 11)] [(21, 5), (16, 5), (11, 5)] rfl rfl (by decide +kernel) ⟨d.isLt, a.isLt, b.isLt, trivial⟩
  refine (congrArg decode e).trans ((to01 (t 26 6 1 (by decide))).trans ?_)
  rw [decode01, t 0 11 5 (by decide)]
  change Except.ok _ = _
  rw [field_of g0, field_of g1, field_of g2]

theorem Encoding.shr (d : BitVec 5) (a : BitVec 5) (b : BitVec 5) : Statement (.shr d a b) := by
  refine ⟨fun _ _ => ?_, fun _ h => (Bool.false_ne_true h).elim⟩
  obtain ⟨W, e, ⟨g0, g1, g2, -⟩, t⟩ := asm_reads 0x04000006 [(d.toNat, 21, 5), (a.toNat, 16, 5), (b.toNat, 11, 5)] [(d.toNat, 21), (a.toNat, 16), (b.toNat, 11)] [(21, 5), (16, 5), (11, 5)] rfl rfl (by decide +kernel) ⟨d.isLt, a.isLt, b.isLt, trivial⟩
  refine (congrArg decode e).trans ((to01 (t 26 6 1 (by decide))).trans ?_)
  rw [decode01, t 0 11 6 (by decide)]
  change Except.ok _ = _
  rw [field_of g0, field_of g1, field_of g2]

theorem Encoding.sha (d : BitVec 5) (a : BitVec 5) (b : BitVec 5) : Statement (.sha d a b) := by
  refine ⟨fun _ _ => ?_, fun _ h => (Bool.false_ne_true h).elim⟩
  obtain ⟨W, e, ⟨g0, g1, g2, -⟩, t⟩ := asm_reads 0x04000007 [(d.toNat, 21, 5), (a.toNat, 16, 5), (b.toNat, 11, 5)] [(d.toNat, 21), (a.toNat, 16), (b.toNat, 11)] [(21, 5), (16, 5), (11, 5)] rfl rfl (by decide +kernel) ⟨d.isLt, a.isLt, b.isLt, trivial⟩
  refine (congrArg decode e).trans ((to01 (t 26 6 1 (by decide))).trans ?_)
  rw [decode01, t 0 11 7 (by decide)]
  change Except.ok _ = _
  rw [field_of g0, field_of g1, field_of g2]

theorem Encoding.mul (d : BitVec 5) (a : BitVec 5) (b : BitVec 5) : Statement (.mul d a b) := by
  refine ⟨fun _ _ => ?_, fun _ h => (Bool.false_ne_true h).elim⟩
  obtain ⟨W, e, ⟨g0, g1, g2, -⟩, t⟩ := asm_reads 0x04000008 [(d.toNat, 21, 5), (a.toNat, 16, 5), (b.toNat, 11, 5)] [(d.toNat, 21), (a.toNat, 16), (b.toNat, 11)] [(21, 5), (16, 5), (11, 5)] rfl rfl (by decide +kernel) ⟨d.isLt, a.isLt, b.isLt, trivial⟩
  refine (congrArg decode e).trans ((to01 (t 26 6 1 (by decide))).trans ?_)
  rw [decode01, t 0 11 8 (by decide)]
  change Except.ok _ = _
  rw [field_of g0, field_of g1, field_of g2]

theorem Encoding.mulh (d : BitVec 5) (a : BitVec 5) (b : BitVec 5) : Statement (.mulh d a b) := by
  refine ⟨fun _ _ => ?_, fun _ h => (Bool.false_ne_true h).elim⟩
  obtain ⟨W, e, ⟨g0, g1, g2, -⟩, t⟩ := asm_reads 0x04000009 [(d.toNat, 21, 5), (a.toNat, 16, 5), (b.toNat, 11, 5)] [(d.toNat, 21), (a.toNat, 16), (b.toNat, 11)] [(21, 5), (16, 5), (11, 5)] rfl rfl (by decide +kernel) ⟨d.isLt, a.isLt, b.isLt, trivial⟩
  refine (congrArg decode e).trans ((to01 (t 26 6 1 (by decide))).trans ?_)
  rw [decode01, t 0 11 9 (by decide)]
  change Except.ok _ = _
  rw [field_of g0, field_of g1, field_of g2]

theorem Encoding.mulhn (d : BitVec 5) (a : BitVec 5) (b : BitVec 5) : Statement (.mulhn d a b) := by
  refine ⟨fun _ _ => ?_, fun _ h => (Bool.false_ne_true h).elim⟩
  obtain ⟨W, e, ⟨g0, g1, g2, -⟩, t⟩ := asm_reads 0x0400000A [(d.toNat, 21, 5), (a.toNat, 16, 5), (b.toNat, 11, 5)] [(d.toNat, 21), (a.toNat, 16), (b.toNat, 11)] [(21, 5), (16, 5), (11, 5)] rfl rfl (by decide +kernel) ⟨d.isLt, a.isLt, b.isLt, trivial⟩
  refine (congrArg decode e).trans ((to01 (t 26 6 1 (by decide))).trans ?_)
  rw [decode01, t 0 11 10 (by decide)]
  change Except.ok _ = _
  rw [field_of g0, field_of g1, field_of g2]

theorem Encoding.div (d : BitVec 5) (a : BitVec 5) (b : BitVec 5) : Statement (.div d a b) := by
  refine ⟨fun _ _ => ?_, fun _ h => (Bool.false_ne_true h).elim⟩
  obtain ⟨W, e, ⟨g0, g1, g2, -⟩, t⟩ := asm_reads 0x0400000B [(d.toNat, 21, 5), (a.toNat, 16, 5), (b.toNat, 11, 5)] [(d.toNat, 21), (a.toNat, 16), (b.toNat, 11)] [(21, 5), (16, 5), (11, 5)] rfl rfl (by decide +kernel) ⟨d.isLt, a.isLt, b.isLt, trivial⟩
  refine (congrArg decode e).trans ((to01 (t 26 6 1 (by decide))).trans ?_)
  rw [decode01, t 0 11 11 (by decide)]
  change Except.ok _ = _
  rw [field_of g0, field_of g1, field_of g2]

theorem Encoding.divn (d : BitVec 5) (a : BitVec 5) (b : BitVec 5) : Statement (.divn d a b) := by
  refine ⟨fun _ _ => ?_, fun _ h => (Bool.false_ne_true h).elim⟩
  obtain ⟨W, e, ⟨g0, g1, g2, -⟩, t⟩ := asm_reads 0x0400000C [(d.toNat, 21, 5), (a.toNat, 16, 5), (b.toNat, 11, 5)] [(d.toNat, 21), (a.toNat, 16), (b.toNat, 11)] [(21, 5), (16, 5), (11, 5)] rfl rfl (by decide +kernel) ⟨d.isLt, a.isLt, b.isLt, trivial⟩
  refine (congrArg decode e).trans ((to01 (t 26 6 1 (by decide))).trans ?_)
  rw [decode01, t 0 11 12 (by decide)]
  change Except.ok _ = _
  rw [field_of g0, field_of g1, field_of g2]

theorem Encoding.rem (d : BitVec 5) (a : BitVec 5) (b : BitVec 5) : Statement (.rem d a b) := by
  refine ⟨fun _ _ => ?_, fun _ h => (Bool.false_ne_true h).elim⟩
  obtain ⟨W, e, ⟨g0, g1, g2, -⟩, t⟩ := asm_reads 0x0400000D [(d.toNat, 21, 5), (a.toNat, 16, 5), (b.toNat, 11, 5)] [(d.toNat, 21), (a.toNat, 16), (b.toNat, 11)] [(21, 5), (16, 5), (11, 5)] rfl rfl (by decide +kernel) ⟨d.isLt, a.isLt, b.isLt, trivial⟩
  refine (congrArg decode e).trans ((to01 (t 26 6 1 (by decide))).trans ?_)
  rw [decode01, t 0 11 13 (by decide)]
  change Except.ok _ = _
  rw [field_of g0, field_of g1, field_of g2]

theorem Encoding.remn (d : BitVec 5) (a : BitVec 5) (b : BitVec 5) : Statement (.remn d a b) := by
  refine ⟨fun _ _ => ?_, fun _ h => (Bool.false_ne_true h).elim⟩
  obtain ⟨W, e, ⟨g0, g1, g2, -⟩, t⟩ := asm_reads 0x0400000E [(d.toNat, 21, 5), (a.toNat, 16, 5), (b.toNat, 11, 5)] [(d.toNat, 21), (a.toNat, 16), (b.toNat, 11)] [(21, 5), (16, 5), (11, 5)] rfl rfl (by decide +kernel) ⟨d.isLt, a.isLt, b.isLt, trivial⟩
  refine (congrArg decode e).trans ((to01 (t 26 6 1 (by decide))).trans ?_)
  rw [decode01, t 0 11 14 (by decide)]
  change Except.ok _ = _
  rw [field_of g0, field_of g1, field_of g2]

theorem Encoding.min (d : BitVec 5) (a : BitVec 5) (b : BitVec 5) : Statement (.min d a b) := by
  refine ⟨fun _ _ => ?_, fun _ h => (Bool.false_ne_true h).elim⟩
  obtain ⟨W, e, ⟨g0, g1, g2, -⟩, t⟩ := asm_reads 0x0400000F [(d.toNat, 21, 5), (a.toNat, 16, 5), (b.toNat, 11, 5)] [(d.toNat, 21), (a.toNat, 16), (b.toNat, 11)] [(21, 5), (16, 5), (11, 5)] rfl rfl (by decide +kernel) ⟨d.isLt, a.isLt, b.isLt, trivial⟩
  refine (congrArg decode e).trans ((to01 (t 26 6 1 (by decide))).trans ?_)
  rw [decode01, t 0 11 15 (by decide)]
  change Except.ok _ = _
  rw [field_of g0, field_of g1, field_of g2]

theorem Encoding.max (d : BitVec 5) (a : BitVec 5) (b : BitVec 5) : Statement (.max d a b) := by
  refine ⟨fun _ _ => ?_, fun _ h => (Bool.false_ne_true h).elim⟩
  obtain ⟨W, e, ⟨g0, g1, g2, -⟩, t⟩ := asm_reads 0x04000010 [(d.toNat, 21, 5), (a.toNat, 16, 5), (b.toNat, 11, 5)] [(d.toNat, 21), (a.toNat, 16), (b.toNat, 11)] [(21, 5), (16, 5), (11, 5)] rfl rfl (by decide +kernel) ⟨d.isLt, a.isLt, b.isLt, trivial⟩
  refine (congrArg decode e).trans ((to01 (t 26 6 1 (by decide))).trans ?_)
  rw [decode01, t 0 11 16 (by decide)]
  change Except.ok _ = _
  rw [field_of g0, field_of g1, field_of g2]

theorem Encoding.minn (d : BitVec 5) (a : BitVec 5) (b : BitVec 5) : Statement (.minn d a b) := by
  refine ⟨fun _ _ => ?_, fun _ h => (Bool.false_ne_true h).elim⟩
  obtain ⟨W, e, ⟨g0, g1, g2, -⟩, t⟩ := asm_reads 0x04000011 [(d.toNat, 21, 5), (a.toNat, 16, 5), (b.toNat, 11, 5)] [(d.toNat, 21), (a.toNat, 16), (b.toNat, 11)] [(21, 5), (16, 5), (11, 5)] rfl rfl (by decide +kernel) ⟨d.isLt, a.isLt, b.isLt, trivial⟩
  refine (congrArg decode e).trans ((to01 (t 26 6 1 (by decide))).trans ?_)
  rw [decode01, t 0 11 17 (by decide)]
  change Except.ok _ = _
  rw [field_of g0, field_of g1, field_of g2]

theorem Encoding.maxn (d : BitVec 5) (a : BitVec 5) (b : BitVec 5) : Statement (.maxn d a b) := by
  refine ⟨fun _ _ => ?_, fun _ h => (Bool.false_ne_true h).elim⟩
  obtain ⟨W, e, ⟨g0, g1, g2, -⟩, t⟩ := asm_reads 0x04000012 [(d.toNat, 21, 5), (a.toNat, 16, 5), (b.toNat, 11, 5)] [(d.toNat, 21), (a.toNat, 16), (b.toNat, 11)] [(21, 5), (16, 5), (11, 5)] rfl rfl (by decide +kernel) ⟨d.isLt, a.isLt, b.isLt, trivial⟩
  refine (congrArg decode e).trans ((to01 (t 26 6 1 (by decide))).trans ?_)
  rw [decode01, t 0 11 18 (by decide)]
  change Except.ok _ = _
  rw [field_of g0, field_of g1, field_of g2]

theorem Encoding.slt (d : BitVec 5) (a : BitVec 5) (b : BitVec 5) : Statement (.slt d a b) := by
  refine ⟨fun _ _ => ?_, fun _ h => (Bool.false_ne_true h).elim⟩
  obtain ⟨W, e, ⟨g0, g1, g2, -⟩, t⟩ := asm_reads 0x04000013 [(d.toNat, 21, 5), (a.toNat, 16, 5), (b.toNat, 11, 5)] [(d.toNat, 21), (a.toNat, 16), (b.toNat, 11)] [(21, 5), (16, 5), (11, 5)] rfl rfl (by decide +kernel) ⟨d.isLt, a.isLt, b.isLt, trivial⟩
  refine (congrArg decode e).trans ((to01 (t 26 6 1 (by decide))).trans ?_)
  rw [decode01, t 0 11 19 (by decide)]
  change Except.ok _ = _
  rw [field_of g0, field_of g1, field_of g2]

theorem Encoding.sltn (d : BitVec 5) (a : BitVec 5) (b : BitVec 5) : Statement (.sltn d a b) := by
  refine ⟨fun _ _ => ?_, fun _ h => (Bool.false_ne_true h).elim⟩
  obtain ⟨W, e, ⟨g0, g1, g2, -⟩, t⟩ := asm_reads 0x04000014 [(d.toNat, 21, 5), (a.toNat, 16, 5), (b.toNat, 11, 5)] [(d.toNat, 21), (a.toNat, 16), (b.toNat, 11)] [(21, 5), (16, 5), (11, 5)] rfl rfl (by decide +kernel) ⟨d.isLt, a.isLt, b.isLt, trivial⟩
  refine (congrArg decode e).trans ((to01 (t 26 6 1 (by decide))).trans ?_)
  rw [decode01, t 0 11 20 (by decide)]
  change Except.ok _ = _
  rw [field_of g0, field_of g1, field_of g2]

theorem Encoding.seq (d : BitVec 5) (a : BitVec 5) (b : BitVec 5) : Statement (.seq d a b) := by
  refine ⟨fun _ _ => ?_, fun _ h => (Bool.false_ne_true h).elim⟩
  obtain ⟨W, e, ⟨g0, g1, g2, -⟩, t⟩ := asm_reads 0x04000015 [(d.toNat, 21, 5), (a.toNat, 16, 5), (b.toNat, 11, 5)] [(d.toNat, 21), (a.toNat, 16), (b.toNat, 11)] [(21, 5), (16, 5), (11, 5)] rfl rfl (by decide +kernel) ⟨d.isLt, a.isLt, b.isLt, trivial⟩
  refine (congrArg decode e).trans ((to01 (t 26 6 1 (by decide))).trans ?_)
  rw [decode01, t 0 11 21 (by decide)]
  change Except.ok _ = _
  rw [field_of g0, field_of g1, field_of g2]

theorem Encoding.clz (d : BitVec 5) (a : BitVec 5) : Statement (.clz d a) := by
  refine ⟨fun _ _ => ?_, fun _ h => (Bool.false_ne_true h).elim⟩
  obtain ⟨W, e, ⟨g0, g1, -⟩, t⟩ := asm_reads 0x04000016 [(d.toNat, 21, 5), (a.toNat, 16, 5)] [(d.toNat, 21), (a.toNat, 16)] [(21, 5), (16, 5)] rfl rfl (by decide +kernel) ⟨d.isLt, a.isLt, trivial⟩
  refine (congrArg decode e).trans ((to01 (t 26 6 1 (by decide))).trans ?_)
  rw [decode01, t 0 11 22 (by decide)]
  refine (if_pos (t 11 5 0 (by decide))).trans ?_
  rw [field_of g0, field_of g1]

theorem Encoding.ctz (d : BitVec 5) (a : BitVec 5) : Statement (.ctz d a) := by
  refine ⟨fun _ _ => ?_, fun _ h => (Bool.false_ne_true h).elim⟩
  obtain ⟨W, e, ⟨g0, g1, -⟩, t⟩ := asm_reads 0x04000017 [(d.toNat, 21, 5), (a.toNat, 16, 5)] [(d.toNat, 21), (a.toNat, 16)] [(21, 5), (16, 5)] rfl rfl (by decide +kernel) ⟨d.isLt, a.isLt, trivial⟩
  refine (congrArg decode e).trans ((to01 (t 26 6 1 (by decide))).trans ?_)
  rw [decode01, t 0 11 23 (by decide)]
  refine (if_pos (t 11 5 0 (by decide))).trans ?_
  rw [field_of g0, field_of g1]

theorem Encoding.popc (d : BitVec 5) (a : BitVec 5) : Statement (.popc d a) := by
  refine ⟨fun _ _ => ?_, fun _ h => (Bool.false_ne_true h).elim⟩
  obtain ⟨W, e, ⟨g0, g1, -⟩, t⟩ := asm_reads 0x04000018 [(d.toNat, 21, 5), (a.toNat, 16, 5)] [(d.toNat, 21), (a.toNat, 16)] [(21, 5), (16, 5)] rfl rfl (by decide +kernel) ⟨d.isLt, a.isLt, trivial⟩
  refine (congrArg decode e).trans ((to01 (t 26 6 1 (by decide))).trans ?_)
  rw [decode01, t 0 11 24 (by decide)]
  refine (if_pos (t 11 5 0 (by decide))).trans ?_
  rw [field_of g0, field_of g1]

theorem Encoding.qadd (d : BitVec 5) (a : BitVec 5) (b : BitVec 5) : Statement (.qadd d a b) := by
  refine ⟨fun _ _ => ?_, fun _ h => (Bool.false_ne_true h).elim⟩
  obtain ⟨W, e, ⟨g0, g1, g2, -⟩, t⟩ := asm_reads 0x04000019 [(d.toNat, 21, 5), (a.toNat, 16, 5), (b.toNat, 11, 5)] [(d.toNat, 21), (a.toNat, 16), (b.toNat, 11)] [(21, 5), (16, 5), (11, 5)] rfl rfl (by decide +kernel) ⟨d.isLt, a.isLt, b.isLt, trivial⟩
  refine (congrArg decode e).trans ((to01 (t 26 6 1 (by decide))).trans ?_)
  rw [decode01, t 0 11 25 (by decide)]
  change Except.ok _ = _
  rw [field_of g0, field_of g1, field_of g2]

theorem Encoding.addi (d : BitVec 5) (a : BitVec 5) (i : BitVec 16) : Statement (.addi d a i) := by
  refine ⟨fun _ _ => ?_, fun _ h => (Bool.false_ne_true h).elim⟩
  obtain ⟨W, e, ⟨g0, g1, g2, -⟩, t⟩ := asm_reads 0x08000000 [(d.toNat, 21, 5), (a.toNat, 16, 5), (i.toNat, 0, 16)] [(d.toNat, 21), (a.toNat, 16), (i.toNat, 0)] [(21, 5), (16, 5), (0, 16)] rfl rfl (by decide +kernel) ⟨d.isLt, a.isLt, i.isLt, trivial⟩
  refine (congrArg decode e).trans ?_
  rw [decode, decodeThread, t 26 6 2 (by decide)]
  change Except.ok _ = _
  rw [field_of g0, field_of g1, field_of g2]

theorem Encoding.andi (d : BitVec 5) (a : BitVec 5) (i : BitVec 16) : Statement (.andi d a i) := by
  refine ⟨fun _ _ => ?_, fun _ h => (Bool.false_ne_true h).elim⟩
  obtain ⟨W, e, ⟨g0, g1, g2, -⟩, t⟩ := asm_reads 0x0C000000 [(d.toNat, 21, 5), (a.toNat, 16, 5), (i.toNat, 0, 16)] [(d.toNat, 21), (a.toNat, 16), (i.toNat, 0)] [(21, 5), (16, 5), (0, 16)] rfl rfl (by decide +kernel) ⟨d.isLt, a.isLt, i.isLt, trivial⟩
  refine (congrArg decode e).trans ?_
  rw [decode, decodeThread, t 26 6 3 (by decide)]
  change Except.ok _ = _
  rw [field_of g0, field_of g1, field_of g2]

theorem Encoding.ori (d : BitVec 5) (a : BitVec 5) (i : BitVec 16) : Statement (.ori d a i) := by
  refine ⟨fun _ _ => ?_, fun _ h => (Bool.false_ne_true h).elim⟩
  obtain ⟨W, e, ⟨g0, g1, g2, -⟩, t⟩ := asm_reads 0x10000000 [(d.toNat, 21, 5), (a.toNat, 16, 5), (i.toNat, 0, 16)] [(d.toNat, 21), (a.toNat, 16), (i.toNat, 0)] [(21, 5), (16, 5), (0, 16)] rfl rfl (by decide +kernel) ⟨d.isLt, a.isLt, i.isLt, trivial⟩
  refine (congrArg decode e).trans ?_
  rw [decode, decodeThread, t 26 6 4 (by decide)]
  change Except.ok _ = _
  rw [field_of g0, field_of g1, field_of g2]

theorem Encoding.xori (d : BitVec 5) (a : BitVec 5) (i : BitVec 16) : Statement (.xori d a i) := by
  refine ⟨fun _ _ => ?_, fun _ h => (Bool.false_ne_true h).elim⟩
  obtain ⟨W, e, ⟨g0, g1, g2, -⟩, t⟩ := asm_reads 0x14000000 [(d.toNat, 21, 5), (a.toNat, 16, 5), (i.toNat, 0, 16)] [(d.toNat, 21), (a.toNat, 16), (i.toNat, 0)] [(21, 5), (16, 5), (0, 16)] rfl rfl (by decide +kernel) ⟨d.isLt, a.isLt, i.isLt, trivial⟩
  refine (congrArg decode e).trans ?_
  rw [decode, decodeThread, t 26 6 5 (by decide)]
  change Except.ok _ = _
  rw [field_of g0, field_of g1, field_of g2]

theorem Encoding.slti (d : BitVec 5) (a : BitVec 5) (i : BitVec 16) : Statement (.slti d a i) := by
  refine ⟨fun _ _ => ?_, fun _ h => (Bool.false_ne_true h).elim⟩
  obtain ⟨W, e, ⟨g0, g1, g2, -⟩, t⟩ := asm_reads 0x18000000 [(d.toNat, 21, 5), (a.toNat, 16, 5), (i.toNat, 0, 16)] [(d.toNat, 21), (a.toNat, 16), (i.toNat, 0)] [(21, 5), (16, 5), (0, 16)] rfl rfl (by decide +kernel) ⟨d.isLt, a.isLt, i.isLt, trivial⟩
  refine (congrArg decode e).trans ?_
  rw [decode, decodeThread, t 26 6 6 (by decide)]
  change Except.ok _ = _
  rw [field_of g0, field_of g1, field_of g2]

theorem Encoding.shli (d : BitVec 5) (a : BitVec 5) (n : BitVec 6) : Statement (.shli d a n) := by
  refine ⟨fun _ _ => ?_, fun _ h => (Bool.false_ne_true h).elim⟩
  obtain ⟨W, e, ⟨g0, g1, g2, -⟩, t⟩ := asm_reads 0x1C000000 [(d.toNat, 21, 5), (a.toNat, 16, 5), (n.toNat, 0, 6)] [(d.toNat, 21), (a.toNat, 16), (n.toNat, 0)] [(21, 5), (16, 5), (0, 6)] rfl rfl (by decide +kernel) ⟨d.isLt, a.isLt, n.isLt, trivial⟩
  refine (congrArg decode e).trans ((to07 (t 26 6 7 (by decide))).trans ?_)
  rw [decode07, t 6 2 0 (by decide)]
  refine (if_pos (t 8 8 0 (by decide))).trans ?_
  rw [field_of g0, field_of g1, field_of g2]

theorem Encoding.shri (d : BitVec 5) (a : BitVec 5) (n : BitVec 6) : Statement (.shri d a n) := by
  refine ⟨fun _ _ => ?_, fun _ h => (Bool.false_ne_true h).elim⟩
  obtain ⟨W, e, ⟨g0, g1, g2, -⟩, t⟩ := asm_reads 0x1C000040 [(d.toNat, 21, 5), (a.toNat, 16, 5), (n.toNat, 0, 6)] [(d.toNat, 21), (a.toNat, 16), (n.toNat, 0)] [(21, 5), (16, 5), (0, 6)] rfl rfl (by decide +kernel) ⟨d.isLt, a.isLt, n.isLt, trivial⟩
  refine (congrArg decode e).trans ((to07 (t 26 6 7 (by decide))).trans ?_)
  rw [decode07, t 6 2 1 (by decide)]
  refine (if_pos (t 8 8 0 (by decide))).trans ?_
  rw [field_of g0, field_of g1, field_of g2]

theorem Encoding.shai (d : BitVec 5) (a : BitVec 5) (n : BitVec 6) : Statement (.shai d a n) := by
  refine ⟨fun _ _ => ?_, fun _ h => (Bool.false_ne_true h).elim⟩
  obtain ⟨W, e, ⟨g0, g1, g2, -⟩, t⟩ := asm_reads 0x1C000080 [(d.toNat, 21, 5), (a.toNat, 16, 5), (n.toNat, 0, 6)] [(d.toNat, 21), (a.toNat, 16), (n.toNat, 0)] [(21, 5), (16, 5), (0, 6)] rfl rfl (by decide +kernel) ⟨d.isLt, a.isLt, n.isLt, trivial⟩
  refine (congrArg decode e).trans ((to07 (t 26 6 7 (by decide))).trans ?_)
  rw [decode07, t 6 2 2 (by decide)]
  refine (if_pos (t 8 8 0 (by decide))).trans ?_
  rw [field_of g0, field_of g1, field_of g2]

theorem Encoding.lui (d : BitVec 5) (i : BitVec 21) : Statement (.lui d i) := by
  refine ⟨fun _ _ => ?_, fun _ h => (Bool.false_ne_true h).elim⟩
  obtain ⟨W, e, ⟨g0, g1, -⟩, t⟩ := asm_reads 0x20000000 [(d.toNat, 21, 5), (i.toNat, 0, 21)] [(d.toNat, 21), (i.toNat, 0)] [(21, 5), (0, 21)] rfl rfl (by decide +kernel) ⟨d.isLt, i.isLt, trivial⟩
  refine (congrArg decode e).trans ?_
  rw [decode, decodeThread, t 26 6 8 (by decide)]
  change Except.ok _ = _
  rw [field_of g0, field_of g1]

theorem Encoding.addpc (d : BitVec 5) (i : BitVec 21) : Statement (.addpc d i) := by
  refine ⟨fun _ _ => ?_, fun _ h => (Bool.false_ne_true h).elim⟩
  obtain ⟨W, e, ⟨g0, g1, -⟩, t⟩ := asm_reads 0x24000000 [(d.toNat, 21, 5), (i.toNat, 0, 21)] [(d.toNat, 21), (i.toNat, 0)] [(21, 5), (0, 21)] rfl rfl (by decide +kernel) ⟨d.isLt, i.isLt, trivial⟩
  refine (congrArg decode e).trans ?_
  rw [decode, decodeThread, t 26 6 9 (by decide)]
  change Except.ok _ = _
  rw [field_of g0, field_of g1]

theorem Encoding.fadd (d : BitVec 5) (a : BitVec 5) (b : BitVec 5) (f : BitVec 3) : Statement (.fadd d a b f) := by
  refine ⟨fun hw _ => ?_, fun _ h => (Bool.false_ne_true h).elim⟩
  obtain ⟨W, e, ⟨g0, g1, g2, g3, -⟩, t⟩ := asm_reads 0x28000000 [(d.toNat, 21, 5), (a.toNat, 16, 5), (b.toNat, 11, 5), (f.toNat, 8, 3)] [(d.toNat, 21), (a.toNat, 16), (b.toNat, 11), (f.toNat, 8)] [(21, 5), (16, 5), (11, 5), (8, 3)] rfl rfl (by decide +kernel) ⟨d.isLt, a.isLt, b.isLt, f.isLt, trivial⟩
  refine (congrArg decode e).trans ((to0A (t 26 6 10 (by decide))).trans ?_)
  rw [decode0A, t 0 8 0 (by decide)]
  refine (if_pos (by rw [show bitsAt W 8 3 = f.toNat from g3]; exact of_decide_eq_true hw)).trans ?_
  rw [field_of g0, field_of g1, field_of g2, field_of g3]

theorem Encoding.fsub (d : BitVec 5) (a : BitVec 5) (b : BitVec 5) (f : BitVec 3) : Statement (.fsub d a b f) := by
  refine ⟨fun hw _ => ?_, fun _ h => (Bool.false_ne_true h).elim⟩
  obtain ⟨W, e, ⟨g0, g1, g2, g3, -⟩, t⟩ := asm_reads 0x28000001 [(d.toNat, 21, 5), (a.toNat, 16, 5), (b.toNat, 11, 5), (f.toNat, 8, 3)] [(d.toNat, 21), (a.toNat, 16), (b.toNat, 11), (f.toNat, 8)] [(21, 5), (16, 5), (11, 5), (8, 3)] rfl rfl (by decide +kernel) ⟨d.isLt, a.isLt, b.isLt, f.isLt, trivial⟩
  refine (congrArg decode e).trans ((to0A (t 26 6 10 (by decide))).trans ?_)
  rw [decode0A, t 0 8 1 (by decide)]
  refine (if_pos (by rw [show bitsAt W 8 3 = f.toNat from g3]; exact of_decide_eq_true hw)).trans ?_
  rw [field_of g0, field_of g1, field_of g2, field_of g3]

theorem Encoding.fmul (d : BitVec 5) (a : BitVec 5) (b : BitVec 5) (f : BitVec 3) : Statement (.fmul d a b f) := by
  refine ⟨fun hw _ => ?_, fun _ h => (Bool.false_ne_true h).elim⟩
  obtain ⟨W, e, ⟨g0, g1, g2, g3, -⟩, t⟩ := asm_reads 0x28000002 [(d.toNat, 21, 5), (a.toNat, 16, 5), (b.toNat, 11, 5), (f.toNat, 8, 3)] [(d.toNat, 21), (a.toNat, 16), (b.toNat, 11), (f.toNat, 8)] [(21, 5), (16, 5), (11, 5), (8, 3)] rfl rfl (by decide +kernel) ⟨d.isLt, a.isLt, b.isLt, f.isLt, trivial⟩
  refine (congrArg decode e).trans ((to0A (t 26 6 10 (by decide))).trans ?_)
  rw [decode0A, t 0 8 2 (by decide)]
  refine (if_pos (by rw [show bitsAt W 8 3 = f.toNat from g3]; exact of_decide_eq_true hw)).trans ?_
  rw [field_of g0, field_of g1, field_of g2, field_of g3]

theorem Encoding.ffma (d : BitVec 5) (a : BitVec 5) (b : BitVec 5) (f : BitVec 3) : Statement (.ffma d a b f) := by
  refine ⟨fun hw _ => ?_, fun _ h => (Bool.false_ne_true h).elim⟩
  obtain ⟨W, e, ⟨g0, g1, g2, g3, -⟩, t⟩ := asm_reads 0x28000003 [(d.toNat, 21, 5), (a.toNat, 16, 5), (b.toNat, 11, 5), (f.toNat, 8, 3)] [(d.toNat, 21), (a.toNat, 16), (b.toNat, 11), (f.toNat, 8)] [(21, 5), (16, 5), (11, 5), (8, 3)] rfl rfl (by decide +kernel) ⟨d.isLt, a.isLt, b.isLt, f.isLt, trivial⟩
  refine (congrArg decode e).trans ((to0A (t 26 6 10 (by decide))).trans ?_)
  rw [decode0A, t 0 8 3 (by decide)]
  refine (if_pos (by rw [show bitsAt W 8 3 = f.toNat from g3]; exact of_decide_eq_true hw)).trans ?_
  rw [field_of g0, field_of g1, field_of g2, field_of g3]

theorem Encoding.fdiv (d : BitVec 5) (a : BitVec 5) (b : BitVec 5) (f : BitVec 3) : Statement (.fdiv d a b f) := by
  refine ⟨fun hw _ => ?_, fun _ h => (Bool.false_ne_true h).elim⟩
  obtain ⟨W, e, ⟨g0, g1, g2, g3, -⟩, t⟩ := asm_reads 0x28000004 [(d.toNat, 21, 5), (a.toNat, 16, 5), (b.toNat, 11, 5), (f.toNat, 8, 3)] [(d.toNat, 21), (a.toNat, 16), (b.toNat, 11), (f.toNat, 8)] [(21, 5), (16, 5), (11, 5), (8, 3)] rfl rfl (by decide +kernel) ⟨d.isLt, a.isLt, b.isLt, f.isLt, trivial⟩
  refine (congrArg decode e).trans ((to0A (t 26 6 10 (by decide))).trans ?_)
  rw [decode0A, t 0 8 4 (by decide)]
  refine (if_pos (by rw [show bitsAt W 8 3 = f.toNat from g3]; exact of_decide_eq_true hw)).trans ?_
  rw [field_of g0, field_of g1, field_of g2, field_of g3]

theorem Encoding.fsqrt (d : BitVec 5) (a : BitVec 5) (f : BitVec 3) : Statement (.fsqrt d a f) := by
  refine ⟨fun hw _ => ?_, fun _ h => (Bool.false_ne_true h).elim⟩
  obtain ⟨W, e, ⟨g0, g1, g2, -⟩, t⟩ := asm_reads 0x28000005 [(d.toNat, 21, 5), (a.toNat, 16, 5), (f.toNat, 8, 3)] [(d.toNat, 21), (a.toNat, 16), (f.toNat, 8)] [(21, 5), (16, 5), (8, 3)] rfl rfl (by decide +kernel) ⟨d.isLt, a.isLt, f.isLt, trivial⟩
  refine (congrArg decode e).trans ((to0A (t 26 6 10 (by decide))).trans ?_)
  rw [decode0A, t 0 8 5 (by decide)]
  refine (if_pos ⟨t 11 5 0 (by decide), by rw [show bitsAt W 8 3 = f.toNat from g2]; exact of_decide_eq_true hw⟩).trans ?_
  rw [field_of g0, field_of g1, field_of g2]

theorem Encoding.fmin (d : BitVec 5) (a : BitVec 5) (b : BitVec 5) (f : BitVec 3) : Statement (.fmin d a b f) := by
  refine ⟨fun hw _ => ?_, fun _ h => (Bool.false_ne_true h).elim⟩
  obtain ⟨W, e, ⟨g0, g1, g2, g3, -⟩, t⟩ := asm_reads 0x28000006 [(d.toNat, 21, 5), (a.toNat, 16, 5), (b.toNat, 11, 5), (f.toNat, 8, 3)] [(d.toNat, 21), (a.toNat, 16), (b.toNat, 11), (f.toNat, 8)] [(21, 5), (16, 5), (11, 5), (8, 3)] rfl rfl (by decide +kernel) ⟨d.isLt, a.isLt, b.isLt, f.isLt, trivial⟩
  refine (congrArg decode e).trans ((to0A (t 26 6 10 (by decide))).trans ?_)
  rw [decode0A, t 0 8 6 (by decide)]
  refine (if_pos (by rw [show bitsAt W 8 3 = f.toNat from g3]; exact of_decide_eq_true hw)).trans ?_
  rw [field_of g0, field_of g1, field_of g2, field_of g3]

theorem Encoding.fmax (d : BitVec 5) (a : BitVec 5) (b : BitVec 5) (f : BitVec 3) : Statement (.fmax d a b f) := by
  refine ⟨fun hw _ => ?_, fun _ h => (Bool.false_ne_true h).elim⟩
  obtain ⟨W, e, ⟨g0, g1, g2, g3, -⟩, t⟩ := asm_reads 0x28000007 [(d.toNat, 21, 5), (a.toNat, 16, 5), (b.toNat, 11, 5), (f.toNat, 8, 3)] [(d.toNat, 21), (a.toNat, 16), (b.toNat, 11), (f.toNat, 8)] [(21, 5), (16, 5), (11, 5), (8, 3)] rfl rfl (by decide +kernel) ⟨d.isLt, a.isLt, b.isLt, f.isLt, trivial⟩
  refine (congrArg decode e).trans ((to0A (t 26 6 10 (by decide))).trans ?_)
  rw [decode0A, t 0 8 7 (by decide)]
  refine (if_pos (by rw [show bitsAt W 8 3 = f.toNat from g3]; exact of_decide_eq_true hw)).trans ?_
  rw [field_of g0, field_of g1, field_of g2, field_of g3]

theorem Encoding.feq (d : BitVec 5) (a : BitVec 5) (b : BitVec 5) (f : BitVec 3) : Statement (.feq d a b f) := by
  refine ⟨fun hw _ => ?_, fun _ h => (Bool.false_ne_true h).elim⟩
  obtain ⟨W, e, ⟨g0, g1, g2, g3, -⟩, t⟩ := asm_reads 0x28000008 [(d.toNat, 21, 5), (a.toNat, 16, 5), (b.toNat, 11, 5), (f.toNat, 8, 3)] [(d.toNat, 21), (a.toNat, 16), (b.toNat, 11), (f.toNat, 8)] [(21, 5), (16, 5), (11, 5), (8, 3)] rfl rfl (by decide +kernel) ⟨d.isLt, a.isLt, b.isLt, f.isLt, trivial⟩
  refine (congrArg decode e).trans ((to0A (t 26 6 10 (by decide))).trans ?_)
  rw [decode0A, t 0 8 8 (by decide)]
  refine (if_pos (by rw [show bitsAt W 8 3 = f.toNat from g3]; exact of_decide_eq_true hw)).trans ?_
  rw [field_of g0, field_of g1, field_of g2, field_of g3]

theorem Encoding.flt (d : BitVec 5) (a : BitVec 5) (b : BitVec 5) (f : BitVec 3) : Statement (.flt d a b f) := by
  refine ⟨fun hw _ => ?_, fun _ h => (Bool.false_ne_true h).elim⟩
  obtain ⟨W, e, ⟨g0, g1, g2, g3, -⟩, t⟩ := asm_reads 0x28000009 [(d.toNat, 21, 5), (a.toNat, 16, 5), (b.toNat, 11, 5), (f.toNat, 8, 3)] [(d.toNat, 21), (a.toNat, 16), (b.toNat, 11), (f.toNat, 8)] [(21, 5), (16, 5), (11, 5), (8, 3)] rfl rfl (by decide +kernel) ⟨d.isLt, a.isLt, b.isLt, f.isLt, trivial⟩
  refine (congrArg decode e).trans ((to0A (t 26 6 10 (by decide))).trans ?_)
  rw [decode0A, t 0 8 9 (by decide)]
  refine (if_pos (by rw [show bitsAt W 8 3 = f.toNat from g3]; exact of_decide_eq_true hw)).trans ?_
  rw [field_of g0, field_of g1, field_of g2, field_of g3]

theorem Encoding.fle (d : BitVec 5) (a : BitVec 5) (b : BitVec 5) (f : BitVec 3) : Statement (.fle d a b f) := by
  refine ⟨fun hw _ => ?_, fun _ h => (Bool.false_ne_true h).elim⟩
  obtain ⟨W, e, ⟨g0, g1, g2, g3, -⟩, t⟩ := asm_reads 0x2800000A [(d.toNat, 21, 5), (a.toNat, 16, 5), (b.toNat, 11, 5), (f.toNat, 8, 3)] [(d.toNat, 21), (a.toNat, 16), (b.toNat, 11), (f.toNat, 8)] [(21, 5), (16, 5), (11, 5), (8, 3)] rfl rfl (by decide +kernel) ⟨d.isLt, a.isLt, b.isLt, f.isLt, trivial⟩
  refine (congrArg decode e).trans ((to0A (t 26 6 10 (by decide))).trans ?_)
  rw [decode0A, t 0 8 10 (by decide)]
  refine (if_pos (by rw [show bitsAt W 8 3 = f.toNat from g3]; exact of_decide_eq_true hw)).trans ?_
  rw [field_of g0, field_of g1, field_of g2, field_of g3]

theorem Encoding.fclass (d : BitVec 5) (a : BitVec 5) (f : BitVec 3) : Statement (.fclass d a f) := by
  refine ⟨fun hw _ => ?_, fun _ h => (Bool.false_ne_true h).elim⟩
  obtain ⟨W, e, ⟨g0, g1, g2, -⟩, t⟩ := asm_reads 0x2800000B [(d.toNat, 21, 5), (a.toNat, 16, 5), (f.toNat, 8, 3)] [(d.toNat, 21), (a.toNat, 16), (f.toNat, 8)] [(21, 5), (16, 5), (8, 3)] rfl rfl (by decide +kernel) ⟨d.isLt, a.isLt, f.isLt, trivial⟩
  refine (congrArg decode e).trans ((to0A (t 26 6 10 (by decide))).trans ?_)
  rw [decode0A, t 0 8 11 (by decide)]
  refine (if_pos ⟨t 11 5 0 (by decide), by rw [show bitsAt W 8 3 = f.toNat from g2]; exact of_decide_eq_true hw⟩).trans ?_
  rw [field_of g0, field_of g1, field_of g2]

theorem Encoding.fcvtI (d : BitVec 5) (a : BitVec 5) (f : BitVec 3) : Statement (.fcvtI d a f) := by
  refine ⟨fun hw _ => ?_, fun _ h => (Bool.false_ne_true h).elim⟩
  obtain ⟨W, e, ⟨g0, g1, g2, -⟩, t⟩ := asm_reads 0x2800000C [(d.toNat, 21, 5), (a.toNat, 16, 5), (f.toNat, 8, 3)] [(d.toNat, 21), (a.toNat, 16), (f.toNat, 8)] [(21, 5), (16, 5), (8, 3)] rfl rfl (by decide +kernel) ⟨d.isLt, a.isLt, f.isLt, trivial⟩
  refine (congrArg decode e).trans ((to0A (t 26 6 10 (by decide))).trans ?_)
  rw [decode0A, t 0 8 12 (by decide)]
  refine (if_pos ⟨t 11 5 0 (by decide), by rw [show bitsAt W 8 3 = f.toNat from g2]; exact of_decide_eq_true hw⟩).trans ?_
  rw [field_of g0, field_of g1, field_of g2]

theorem Encoding.fcvtN (d : BitVec 5) (a : BitVec 5) (f : BitVec 3) : Statement (.fcvtN d a f) := by
  refine ⟨fun hw _ => ?_, fun _ h => (Bool.false_ne_true h).elim⟩
  obtain ⟨W, e, ⟨g0, g1, g2, -⟩, t⟩ := asm_reads 0x2800000D [(d.toNat, 21, 5), (a.toNat, 16, 5), (f.toNat, 8, 3)] [(d.toNat, 21), (a.toNat, 16), (f.toNat, 8)] [(21, 5), (16, 5), (8, 3)] rfl rfl (by decide +kernel) ⟨d.isLt, a.isLt, f.isLt, trivial⟩
  refine (congrArg decode e).trans ((to0A (t 26 6 10 (by decide))).trans ?_)
  rw [decode0A, t 0 8 13 (by decide)]
  refine (if_pos ⟨t 11 5 0 (by decide), by rw [show bitsAt W 8 3 = f.toNat from g2]; exact of_decide_eq_true hw⟩).trans ?_
  rw [field_of g0, field_of g1, field_of g2]

theorem Encoding.fcvtFi (d : BitVec 5) (a : BitVec 5) (f : BitVec 3) : Statement (.fcvtFi d a f) := by
  refine ⟨fun hw _ => ?_, fun _ h => (Bool.false_ne_true h).elim⟩
  obtain ⟨W, e, ⟨g0, g1, g2, -⟩, t⟩ := asm_reads 0x2800000E [(d.toNat, 21, 5), (a.toNat, 16, 5), (f.toNat, 8, 3)] [(d.toNat, 21), (a.toNat, 16), (f.toNat, 8)] [(21, 5), (16, 5), (8, 3)] rfl rfl (by decide +kernel) ⟨d.isLt, a.isLt, f.isLt, trivial⟩
  refine (congrArg decode e).trans ((to0A (t 26 6 10 (by decide))).trans ?_)
  rw [decode0A, t 0 8 14 (by decide)]
  refine (if_pos ⟨t 11 5 0 (by decide), by rw [show bitsAt W 8 3 = f.toNat from g2]; exact of_decide_eq_true hw⟩).trans ?_
  rw [field_of g0, field_of g1, field_of g2]

theorem Encoding.fcvtFn (d : BitVec 5) (a : BitVec 5) (f : BitVec 3) : Statement (.fcvtFn d a f) := by
  refine ⟨fun hw _ => ?_, fun _ h => (Bool.false_ne_true h).elim⟩
  obtain ⟨W, e, ⟨g0, g1, g2, -⟩, t⟩ := asm_reads 0x2800000F [(d.toNat, 21, 5), (a.toNat, 16, 5), (f.toNat, 8, 3)] [(d.toNat, 21), (a.toNat, 16), (f.toNat, 8)] [(21, 5), (16, 5), (8, 3)] rfl rfl (by decide +kernel) ⟨d.isLt, a.isLt, f.isLt, trivial⟩
  refine (congrArg decode e).trans ((to0A (t 26 6 10 (by decide))).trans ?_)
  rw [decode0A, t 0 8 15 (by decide)]
  refine (if_pos ⟨t 11 5 0 (by decide), by rw [show bitsAt W 8 3 = f.toNat from g2]; exact of_decide_eq_true hw⟩).trans ?_
  rw [field_of g0, field_of g1, field_of g2]

theorem Encoding.fcvtFf (d : BitVec 5) (a : BitVec 5) (s : BitVec 2) (f : BitVec 3) : Statement (.fcvtFf d a s f) := by
  refine ⟨fun hw _ => ?_, fun _ h => (Bool.false_ne_true h).elim⟩
  obtain ⟨W, e, ⟨g0, g1, g2, g3, -⟩, t⟩ := asm_reads 0x28000010 [(d.toNat, 21, 5), (a.toNat, 16, 5), (s.toNat, 11, 2), (f.toNat, 8, 3)] [(d.toNat, 21), (a.toNat, 16), (s.toNat, 11), (f.toNat, 8)] [(21, 5), (16, 5), (11, 2), (8, 3)] rfl rfl (by decide +kernel) ⟨d.isLt, a.isLt, s.isLt, f.isLt, trivial⟩
  refine (congrArg decode e).trans ((to0A (t 26 6 10 (by decide))).trans ?_)
  rw [decode0A, t 0 8 16 (by decide)]
  refine (if_pos ⟨t 13 3 0 (by decide), by rw [show bitsAt W 8 3 = f.toNat from g3]; exact of_decide_eq_true hw⟩).trans ?_
  rw [field_of g0, field_of g1, field_of g2, field_of g3]

theorem Encoding.beq (a : BitVec 5) (b : BitVec 5) (o : BitVec 16) : Statement (.beq a b o) := by
  refine ⟨fun _ _ => ?_, fun _ h => (Bool.false_ne_true h).elim⟩
  obtain ⟨W, e, ⟨g0, g1, g2, -⟩, t⟩ := asm_reads 0x2C000000 [(a.toNat, 21, 5), (b.toNat, 16, 5), (o.toNat, 0, 16)] [(a.toNat, 21), (b.toNat, 16), (o.toNat, 0)] [(21, 5), (16, 5), (0, 16)] rfl rfl (by decide +kernel) ⟨a.isLt, b.isLt, o.isLt, trivial⟩
  refine (congrArg decode e).trans ?_
  rw [decode, decodeThread, t 26 6 11 (by decide)]
  change Except.ok _ = _
  rw [field_of g0, field_of g1, field_of g2]

theorem Encoding.bne (a : BitVec 5) (b : BitVec 5) (o : BitVec 16) : Statement (.bne a b o) := by
  refine ⟨fun _ _ => ?_, fun _ h => (Bool.false_ne_true h).elim⟩
  obtain ⟨W, e, ⟨g0, g1, g2, -⟩, t⟩ := asm_reads 0x30000000 [(a.toNat, 21, 5), (b.toNat, 16, 5), (o.toNat, 0, 16)] [(a.toNat, 21), (b.toNat, 16), (o.toNat, 0)] [(21, 5), (16, 5), (0, 16)] rfl rfl (by decide +kernel) ⟨a.isLt, b.isLt, o.isLt, trivial⟩
  refine (congrArg decode e).trans ?_
  rw [decode, decodeThread, t 26 6 12 (by decide)]
  change Except.ok _ = _
  rw [field_of g0, field_of g1, field_of g2]

theorem Encoding.blt (a : BitVec 5) (b : BitVec 5) (o : BitVec 16) : Statement (.blt a b o) := by
  refine ⟨fun _ _ => ?_, fun _ h => (Bool.false_ne_true h).elim⟩
  obtain ⟨W, e, ⟨g0, g1, g2, -⟩, t⟩ := asm_reads 0x34000000 [(a.toNat, 21, 5), (b.toNat, 16, 5), (o.toNat, 0, 16)] [(a.toNat, 21), (b.toNat, 16), (o.toNat, 0)] [(21, 5), (16, 5), (0, 16)] rfl rfl (by decide +kernel) ⟨a.isLt, b.isLt, o.isLt, trivial⟩
  refine (congrArg decode e).trans ?_
  rw [decode, decodeThread, t 26 6 13 (by decide)]
  change Except.ok _ = _
  rw [field_of g0, field_of g1, field_of g2]

theorem Encoding.bge (a : BitVec 5) (b : BitVec 5) (o : BitVec 16) : Statement (.bge a b o) := by
  refine ⟨fun _ _ => ?_, fun _ h => (Bool.false_ne_true h).elim⟩
  obtain ⟨W, e, ⟨g0, g1, g2, -⟩, t⟩ := asm_reads 0x38000000 [(a.toNat, 21, 5), (b.toNat, 16, 5), (o.toNat, 0, 16)] [(a.toNat, 21), (b.toNat, 16), (o.toNat, 0)] [(21, 5), (16, 5), (0, 16)] rfl rfl (by decide +kernel) ⟨a.isLt, b.isLt, o.isLt, trivial⟩
  refine (congrArg decode e).trans ?_
  rw [decode, decodeThread, t 26 6 14 (by decide)]
  change Except.ok _ = _
  rw [field_of g0, field_of g1, field_of g2]

theorem Encoding.bltn (a : BitVec 5) (b : BitVec 5) (o : BitVec 16) : Statement (.bltn a b o) := by
  refine ⟨fun _ _ => ?_, fun _ h => (Bool.false_ne_true h).elim⟩
  obtain ⟨W, e, ⟨g0, g1, g2, -⟩, t⟩ := asm_reads 0x3C000000 [(a.toNat, 21, 5), (b.toNat, 16, 5), (o.toNat, 0, 16)] [(a.toNat, 21), (b.toNat, 16), (o.toNat, 0)] [(21, 5), (16, 5), (0, 16)] rfl rfl (by decide +kernel) ⟨a.isLt, b.isLt, o.isLt, trivial⟩
  refine (congrArg decode e).trans ?_
  rw [decode, decodeThread, t 26 6 15 (by decide)]
  change Except.ok _ = _
  rw [field_of g0, field_of g1, field_of g2]

theorem Encoding.bgen (a : BitVec 5) (b : BitVec 5) (o : BitVec 16) : Statement (.bgen a b o) := by
  refine ⟨fun _ _ => ?_, fun _ h => (Bool.false_ne_true h).elim⟩
  obtain ⟨W, e, ⟨g0, g1, g2, -⟩, t⟩ := asm_reads 0x40000000 [(a.toNat, 21, 5), (b.toNat, 16, 5), (o.toNat, 0, 16)] [(a.toNat, 21), (b.toNat, 16), (o.toNat, 0)] [(21, 5), (16, 5), (0, 16)] rfl rfl (by decide +kernel) ⟨a.isLt, b.isLt, o.isLt, trivial⟩
  refine (congrArg decode e).trans ?_
  rw [decode, decodeThread, t 26 6 16 (by decide)]
  change Except.ok _ = _
  rw [field_of g0, field_of g1, field_of g2]

theorem Encoding.jal (d : BitVec 5) (o : BitVec 21) : Statement (.jal d o) := by
  refine ⟨fun _ _ => ?_, fun _ h => (Bool.false_ne_true h).elim⟩
  obtain ⟨W, e, ⟨g0, g1, -⟩, t⟩ := asm_reads 0x44000000 [(d.toNat, 21, 5), (o.toNat, 0, 21)] [(d.toNat, 21), (o.toNat, 0)] [(21, 5), (0, 21)] rfl rfl (by decide +kernel) ⟨d.isLt, o.isLt, trivial⟩
  refine (congrArg decode e).trans ?_
  rw [decode, decodeThread, t 26 6 17 (by decide)]
  change Except.ok _ = _
  rw [field_of g0, field_of g1]

theorem Encoding.jalr (d : BitVec 5) (a : BitVec 5) (i : BitVec 16) : Statement (.jalr d a i) := by
  refine ⟨fun _ _ => ?_, fun _ h => (Bool.false_ne_true h).elim⟩
  obtain ⟨W, e, ⟨g0, g1, g2, -⟩, t⟩ := asm_reads 0x48000000 [(d.toNat, 21, 5), (a.toNat, 16, 5), (i.toNat, 0, 16)] [(d.toNat, 21), (a.toNat, 16), (i.toNat, 0)] [(21, 5), (16, 5), (0, 16)] rfl rfl (by decide +kernel) ⟨d.isLt, a.isLt, i.isLt, trivial⟩
  refine (congrArg decode e).trans ?_
  rw [decode, decodeThread, t 26 6 18 (by decide)]
  change Except.ok _ = _
  rw [field_of g0, field_of g1, field_of g2]

theorem Encoding.ld (s : BitVec 5) (a : BitVec 5) (w : BitVec 4) (z : BitVec 2) (i : BitVec 10) : Statement (.ld s a w z i) := by
  refine ⟨fun _ _ => ?_, fun _ h => (Bool.false_ne_true h).elim⟩
  obtain ⟨W, e, ⟨g0, g1, g2, g3, g4, -⟩, t⟩ := asm_reads 0x4C000000 [(s.toNat, 21, 5), (a.toNat, 16, 5), (w.toNat, 12, 4), (z.toNat, 10, 2), (i.toNat, 0, 10)] [(s.toNat, 21), (a.toNat, 16), (w.toNat, 12), (z.toNat, 10), (i.toNat, 0)] [(21, 5), (16, 5), (12, 4), (10, 2), (0, 10)] rfl rfl (by decide +kernel) ⟨s.isLt, a.isLt, w.isLt, z.isLt, i.isLt, trivial⟩
  refine (congrArg decode e).trans ?_
  rw [decode, decodeThread, t 26 6 19 (by decide)]
  change Except.ok _ = _
  rw [field_of g0, field_of g1, field_of g2, field_of g3, field_of g4]

theorem Encoding.ldn (s : BitVec 5) (a : BitVec 5) (w : BitVec 4) (z : BitVec 2) (i : BitVec 10) : Statement (.ldn s a w z i) := by
  refine ⟨fun _ _ => ?_, fun _ h => (Bool.false_ne_true h).elim⟩
  obtain ⟨W, e, ⟨g0, g1, g2, g3, g4, -⟩, t⟩ := asm_reads 0x50000000 [(s.toNat, 21, 5), (a.toNat, 16, 5), (w.toNat, 12, 4), (z.toNat, 10, 2), (i.toNat, 0, 10)] [(s.toNat, 21), (a.toNat, 16), (w.toNat, 12), (z.toNat, 10), (i.toNat, 0)] [(21, 5), (16, 5), (12, 4), (10, 2), (0, 10)] rfl rfl (by decide +kernel) ⟨s.isLt, a.isLt, w.isLt, z.isLt, i.isLt, trivial⟩
  refine (congrArg decode e).trans ?_
  rw [decode, decodeThread, t 26 6 20 (by decide)]
  change Except.ok _ = _
  rw [field_of g0, field_of g1, field_of g2, field_of g3, field_of g4]

theorem Encoding.st (s : BitVec 5) (a : BitVec 5) (w : BitVec 4) (z : BitVec 2) (i : BitVec 10) : Statement (.st s a w z i) := by
  refine ⟨fun _ _ => ?_, fun _ h => (Bool.false_ne_true h).elim⟩
  obtain ⟨W, e, ⟨g0, g1, g2, g3, g4, -⟩, t⟩ := asm_reads 0x54000000 [(s.toNat, 21, 5), (a.toNat, 16, 5), (w.toNat, 12, 4), (z.toNat, 10, 2), (i.toNat, 0, 10)] [(s.toNat, 21), (a.toNat, 16), (w.toNat, 12), (z.toNat, 10), (i.toNat, 0)] [(21, 5), (16, 5), (12, 4), (10, 2), (0, 10)] rfl rfl (by decide +kernel) ⟨s.isLt, a.isLt, w.isLt, z.isLt, i.isLt, trivial⟩
  refine (congrArg decode e).trans ?_
  rw [decode, decodeThread, t 26 6 21 (by decide)]
  change Except.ok _ = _
  rw [field_of g0, field_of g1, field_of g2, field_of g3, field_of g4]

theorem Encoding.ldx (s : BitVec 5) (a : BitVec 5) (w : BitVec 4) (z : BitVec 2) (i : BitVec 10) : Statement (.ldx s a w z i) := by
  refine ⟨fun _ _ => ?_, fun _ h => (Bool.false_ne_true h).elim⟩
  obtain ⟨W, e, ⟨g0, g1, g2, g3, g4, -⟩, t⟩ := asm_reads 0x58000000 [(s.toNat, 21, 5), (a.toNat, 16, 5), (w.toNat, 12, 4), (z.toNat, 10, 2), (i.toNat, 0, 10)] [(s.toNat, 21), (a.toNat, 16), (w.toNat, 12), (z.toNat, 10), (i.toNat, 0)] [(21, 5), (16, 5), (12, 4), (10, 2), (0, 10)] rfl rfl (by decide +kernel) ⟨s.isLt, a.isLt, w.isLt, z.isLt, i.isLt, trivial⟩
  refine (congrArg decode e).trans ?_
  rw [decode, decodeThread, t 26 6 22 (by decide)]
  change Except.ok _ = _
  rw [field_of g0, field_of g1, field_of g2, field_of g3, field_of g4]

theorem Encoding.stx (s : BitVec 5) (a : BitVec 5) (w : BitVec 4) (z : BitVec 2) (i : BitVec 10) : Statement (.stx s a w z i) := by
  refine ⟨fun _ _ => ?_, fun _ h => (Bool.false_ne_true h).elim⟩
  obtain ⟨W, e, ⟨g0, g1, g2, g3, g4, -⟩, t⟩ := asm_reads 0x5C000000 [(s.toNat, 21, 5), (a.toNat, 16, 5), (w.toNat, 12, 4), (z.toNat, 10, 2), (i.toNat, 0, 10)] [(s.toNat, 21), (a.toNat, 16), (w.toNat, 12), (z.toNat, 10), (i.toNat, 0)] [(21, 5), (16, 5), (12, 4), (10, 2), (0, 10)] rfl rfl (by decide +kernel) ⟨s.isLt, a.isLt, w.isLt, z.isLt, i.isLt, trivial⟩
  refine (congrArg decode e).trans ?_
  rw [decode, decodeThread, t 26 6 23 (by decide)]
  change Except.ok _ = _
  rw [field_of g0, field_of g1, field_of g2, field_of g3, field_of g4]

theorem Encoding.aadd (a : BitVec 5) (b : BitVec 5) (w : BitVec 4) (z : BitVec 1) : Statement (.aadd a b w z) := by
  refine ⟨fun _ _ => ?_, fun _ h => (Bool.false_ne_true h).elim⟩
  obtain ⟨W, e, ⟨g0, g1, g2, g3, -⟩, t⟩ := asm_reads 0x60000000 [(a.toNat, 16, 5), (b.toNat, 11, 5), (w.toNat, 6, 4), (z.toNat, 4, 1)] [(a.toNat, 16), (b.toNat, 11), (w.toNat, 6), (z.toNat, 4)] [(16, 5), (11, 5), (6, 4), (4, 1)] rfl rfl (by decide +kernel) ⟨a.isLt, b.isLt, w.isLt, z.isLt, trivial⟩
  refine (congrArg decode e).trans ((to18 (t 26 6 24 (by decide))).trans ?_)
  rw [decode18, t 0 4 0 (by decide)]
  refine (if_pos ⟨t 21 5 0 (by decide), t 10 1 0 (by decide), t 5 1 0 (by decide)⟩).trans ?_
  rw [field_of g0, field_of g1, field_of g2, field_of g3]

theorem Encoding.aand (a : BitVec 5) (b : BitVec 5) (w : BitVec 4) (z : BitVec 1) : Statement (.aand a b w z) := by
  refine ⟨fun _ _ => ?_, fun _ h => (Bool.false_ne_true h).elim⟩
  obtain ⟨W, e, ⟨g0, g1, g2, g3, -⟩, t⟩ := asm_reads 0x60000001 [(a.toNat, 16, 5), (b.toNat, 11, 5), (w.toNat, 6, 4), (z.toNat, 4, 1)] [(a.toNat, 16), (b.toNat, 11), (w.toNat, 6), (z.toNat, 4)] [(16, 5), (11, 5), (6, 4), (4, 1)] rfl rfl (by decide +kernel) ⟨a.isLt, b.isLt, w.isLt, z.isLt, trivial⟩
  refine (congrArg decode e).trans ((to18 (t 26 6 24 (by decide))).trans ?_)
  rw [decode18, t 0 4 1 (by decide)]
  refine (if_pos ⟨t 21 5 0 (by decide), t 10 1 0 (by decide), t 5 1 0 (by decide)⟩).trans ?_
  rw [field_of g0, field_of g1, field_of g2, field_of g3]

theorem Encoding.aor (a : BitVec 5) (b : BitVec 5) (w : BitVec 4) (z : BitVec 1) : Statement (.aor a b w z) := by
  refine ⟨fun _ _ => ?_, fun _ h => (Bool.false_ne_true h).elim⟩
  obtain ⟨W, e, ⟨g0, g1, g2, g3, -⟩, t⟩ := asm_reads 0x60000002 [(a.toNat, 16, 5), (b.toNat, 11, 5), (w.toNat, 6, 4), (z.toNat, 4, 1)] [(a.toNat, 16), (b.toNat, 11), (w.toNat, 6), (z.toNat, 4)] [(16, 5), (11, 5), (6, 4), (4, 1)] rfl rfl (by decide +kernel) ⟨a.isLt, b.isLt, w.isLt, z.isLt, trivial⟩
  refine (congrArg decode e).trans ((to18 (t 26 6 24 (by decide))).trans ?_)
  rw [decode18, t 0 4 2 (by decide)]
  refine (if_pos ⟨t 21 5 0 (by decide), t 10 1 0 (by decide), t 5 1 0 (by decide)⟩).trans ?_
  rw [field_of g0, field_of g1, field_of g2, field_of g3]

theorem Encoding.axor (a : BitVec 5) (b : BitVec 5) (w : BitVec 4) (z : BitVec 1) : Statement (.axor a b w z) := by
  refine ⟨fun _ _ => ?_, fun _ h => (Bool.false_ne_true h).elim⟩
  obtain ⟨W, e, ⟨g0, g1, g2, g3, -⟩, t⟩ := asm_reads 0x60000003 [(a.toNat, 16, 5), (b.toNat, 11, 5), (w.toNat, 6, 4), (z.toNat, 4, 1)] [(a.toNat, 16), (b.toNat, 11), (w.toNat, 6), (z.toNat, 4)] [(16, 5), (11, 5), (6, 4), (4, 1)] rfl rfl (by decide +kernel) ⟨a.isLt, b.isLt, w.isLt, z.isLt, trivial⟩
  refine (congrArg decode e).trans ((to18 (t 26 6 24 (by decide))).trans ?_)
  rw [decode18, t 0 4 3 (by decide)]
  refine (if_pos ⟨t 21 5 0 (by decide), t 10 1 0 (by decide), t 5 1 0 (by decide)⟩).trans ?_
  rw [field_of g0, field_of g1, field_of g2, field_of g3]

theorem Encoding.amin (a : BitVec 5) (b : BitVec 5) (w : BitVec 4) (z : BitVec 1) : Statement (.amin a b w z) := by
  refine ⟨fun _ _ => ?_, fun _ h => (Bool.false_ne_true h).elim⟩
  obtain ⟨W, e, ⟨g0, g1, g2, g3, -⟩, t⟩ := asm_reads 0x60000004 [(a.toNat, 16, 5), (b.toNat, 11, 5), (w.toNat, 6, 4), (z.toNat, 4, 1)] [(a.toNat, 16), (b.toNat, 11), (w.toNat, 6), (z.toNat, 4)] [(16, 5), (11, 5), (6, 4), (4, 1)] rfl rfl (by decide +kernel) ⟨a.isLt, b.isLt, w.isLt, z.isLt, trivial⟩
  refine (congrArg decode e).trans ((to18 (t 26 6 24 (by decide))).trans ?_)
  rw [decode18, t 0 4 4 (by decide)]
  refine (if_pos ⟨t 21 5 0 (by decide), t 10 1 0 (by decide), t 5 1 0 (by decide)⟩).trans ?_
  rw [field_of g0, field_of g1, field_of g2, field_of g3]

theorem Encoding.amax (a : BitVec 5) (b : BitVec 5) (w : BitVec 4) (z : BitVec 1) : Statement (.amax a b w z) := by
  refine ⟨fun _ _ => ?_, fun _ h => (Bool.false_ne_true h).elim⟩
  obtain ⟨W, e, ⟨g0, g1, g2, g3, -⟩, t⟩ := asm_reads 0x60000005 [(a.toNat, 16, 5), (b.toNat, 11, 5), (w.toNat, 6, 4), (z.toNat, 4, 1)] [(a.toNat, 16), (b.toNat, 11), (w.toNat, 6), (z.toNat, 4)] [(16, 5), (11, 5), (6, 4), (4, 1)] rfl rfl (by decide +kernel) ⟨a.isLt, b.isLt, w.isLt, z.isLt, trivial⟩
  refine (congrArg decode e).trans ((to18 (t 26 6 24 (by decide))).trans ?_)
  rw [decode18, t 0 4 5 (by decide)]
  refine (if_pos ⟨t 21 5 0 (by decide), t 10 1 0 (by decide), t 5 1 0 (by decide)⟩).trans ?_
  rw [field_of g0, field_of g1, field_of g2, field_of g3]

theorem Encoding.aminn (a : BitVec 5) (b : BitVec 5) (w : BitVec 4) (z : BitVec 1) : Statement (.aminn a b w z) := by
  refine ⟨fun _ _ => ?_, fun _ h => (Bool.false_ne_true h).elim⟩
  obtain ⟨W, e, ⟨g0, g1, g2, g3, -⟩, t⟩ := asm_reads 0x60000006 [(a.toNat, 16, 5), (b.toNat, 11, 5), (w.toNat, 6, 4), (z.toNat, 4, 1)] [(a.toNat, 16), (b.toNat, 11), (w.toNat, 6), (z.toNat, 4)] [(16, 5), (11, 5), (6, 4), (4, 1)] rfl rfl (by decide +kernel) ⟨a.isLt, b.isLt, w.isLt, z.isLt, trivial⟩
  refine (congrArg decode e).trans ((to18 (t 26 6 24 (by decide))).trans ?_)
  rw [decode18, t 0 4 6 (by decide)]
  refine (if_pos ⟨t 21 5 0 (by decide), t 10 1 0 (by decide), t 5 1 0 (by decide)⟩).trans ?_
  rw [field_of g0, field_of g1, field_of g2, field_of g3]

theorem Encoding.amaxn (a : BitVec 5) (b : BitVec 5) (w : BitVec 4) (z : BitVec 1) : Statement (.amaxn a b w z) := by
  refine ⟨fun _ _ => ?_, fun _ h => (Bool.false_ne_true h).elim⟩
  obtain ⟨W, e, ⟨g0, g1, g2, g3, -⟩, t⟩ := asm_reads 0x60000007 [(a.toNat, 16, 5), (b.toNat, 11, 5), (w.toNat, 6, 4), (z.toNat, 4, 1)] [(a.toNat, 16), (b.toNat, 11), (w.toNat, 6), (z.toNat, 4)] [(16, 5), (11, 5), (6, 4), (4, 1)] rfl rfl (by decide +kernel) ⟨a.isLt, b.isLt, w.isLt, z.isLt, trivial⟩
  refine (congrArg decode e).trans ((to18 (t 26 6 24 (by decide))).trans ?_)
  rw [decode18, t 0 4 7 (by decide)]
  refine (if_pos ⟨t 21 5 0 (by decide), t 10 1 0 (by decide), t 5 1 0 (by decide)⟩).trans ?_
  rw [field_of g0, field_of g1, field_of g2, field_of g3]

theorem Encoding.aaddRet (d : BitVec 5) (a : BitVec 5) (b : BitVec 5) (w : BitVec 4) (z : BitVec 1) : Statement (.aaddRet d a b w z) := by
  refine ⟨fun _ _ => ?_, fun _ h => (Bool.false_ne_true h).elim⟩
  obtain ⟨W, e, ⟨g0, g1, g2, g3, g4, -⟩, t⟩ := asm_reads 0x60000400 [(d.toNat, 21, 5), (a.toNat, 16, 5), (b.toNat, 11, 5), (w.toNat, 6, 4), (z.toNat, 4, 1)] [(d.toNat, 21), (a.toNat, 16), (b.toNat, 11), (w.toNat, 6), (z.toNat, 4)] [(21, 5), (16, 5), (11, 5), (6, 4), (4, 1)] rfl rfl (by decide +kernel) ⟨d.isLt, a.isLt, b.isLt, w.isLt, z.isLt, trivial⟩
  refine (congrArg decode e).trans ((to18 (t 26 6 24 (by decide))).trans ?_)
  rw [decode18, t 0 4 0 (by decide)]
  refine (if_neg fun h => (by rw [t 10 1 1 (by decide)]; decide : ¬ bitsAt W 10 1 = 0) h.2.1).trans ?_
  refine (if_pos ⟨t 10 1 1 (by decide), t 5 1 0 (by decide)⟩).trans ?_
  rw [field_of g0, field_of g1, field_of g2, field_of g3, field_of g4]

theorem Encoding.aandRet (d : BitVec 5) (a : BitVec 5) (b : BitVec 5) (w : BitVec 4) (z : BitVec 1) : Statement (.aandRet d a b w z) := by
  refine ⟨fun _ _ => ?_, fun _ h => (Bool.false_ne_true h).elim⟩
  obtain ⟨W, e, ⟨g0, g1, g2, g3, g4, -⟩, t⟩ := asm_reads 0x60000401 [(d.toNat, 21, 5), (a.toNat, 16, 5), (b.toNat, 11, 5), (w.toNat, 6, 4), (z.toNat, 4, 1)] [(d.toNat, 21), (a.toNat, 16), (b.toNat, 11), (w.toNat, 6), (z.toNat, 4)] [(21, 5), (16, 5), (11, 5), (6, 4), (4, 1)] rfl rfl (by decide +kernel) ⟨d.isLt, a.isLt, b.isLt, w.isLt, z.isLt, trivial⟩
  refine (congrArg decode e).trans ((to18 (t 26 6 24 (by decide))).trans ?_)
  rw [decode18, t 0 4 1 (by decide)]
  refine (if_neg fun h => (by rw [t 10 1 1 (by decide)]; decide : ¬ bitsAt W 10 1 = 0) h.2.1).trans ?_
  refine (if_pos ⟨t 10 1 1 (by decide), t 5 1 0 (by decide)⟩).trans ?_
  rw [field_of g0, field_of g1, field_of g2, field_of g3, field_of g4]

theorem Encoding.aorRet (d : BitVec 5) (a : BitVec 5) (b : BitVec 5) (w : BitVec 4) (z : BitVec 1) : Statement (.aorRet d a b w z) := by
  refine ⟨fun _ _ => ?_, fun _ h => (Bool.false_ne_true h).elim⟩
  obtain ⟨W, e, ⟨g0, g1, g2, g3, g4, -⟩, t⟩ := asm_reads 0x60000402 [(d.toNat, 21, 5), (a.toNat, 16, 5), (b.toNat, 11, 5), (w.toNat, 6, 4), (z.toNat, 4, 1)] [(d.toNat, 21), (a.toNat, 16), (b.toNat, 11), (w.toNat, 6), (z.toNat, 4)] [(21, 5), (16, 5), (11, 5), (6, 4), (4, 1)] rfl rfl (by decide +kernel) ⟨d.isLt, a.isLt, b.isLt, w.isLt, z.isLt, trivial⟩
  refine (congrArg decode e).trans ((to18 (t 26 6 24 (by decide))).trans ?_)
  rw [decode18, t 0 4 2 (by decide)]
  refine (if_neg fun h => (by rw [t 10 1 1 (by decide)]; decide : ¬ bitsAt W 10 1 = 0) h.2.1).trans ?_
  refine (if_pos ⟨t 10 1 1 (by decide), t 5 1 0 (by decide)⟩).trans ?_
  rw [field_of g0, field_of g1, field_of g2, field_of g3, field_of g4]

theorem Encoding.axorRet (d : BitVec 5) (a : BitVec 5) (b : BitVec 5) (w : BitVec 4) (z : BitVec 1) : Statement (.axorRet d a b w z) := by
  refine ⟨fun _ _ => ?_, fun _ h => (Bool.false_ne_true h).elim⟩
  obtain ⟨W, e, ⟨g0, g1, g2, g3, g4, -⟩, t⟩ := asm_reads 0x60000403 [(d.toNat, 21, 5), (a.toNat, 16, 5), (b.toNat, 11, 5), (w.toNat, 6, 4), (z.toNat, 4, 1)] [(d.toNat, 21), (a.toNat, 16), (b.toNat, 11), (w.toNat, 6), (z.toNat, 4)] [(21, 5), (16, 5), (11, 5), (6, 4), (4, 1)] rfl rfl (by decide +kernel) ⟨d.isLt, a.isLt, b.isLt, w.isLt, z.isLt, trivial⟩
  refine (congrArg decode e).trans ((to18 (t 26 6 24 (by decide))).trans ?_)
  rw [decode18, t 0 4 3 (by decide)]
  refine (if_neg fun h => (by rw [t 10 1 1 (by decide)]; decide : ¬ bitsAt W 10 1 = 0) h.2.1).trans ?_
  refine (if_pos ⟨t 10 1 1 (by decide), t 5 1 0 (by decide)⟩).trans ?_
  rw [field_of g0, field_of g1, field_of g2, field_of g3, field_of g4]

theorem Encoding.aminRet (d : BitVec 5) (a : BitVec 5) (b : BitVec 5) (w : BitVec 4) (z : BitVec 1) : Statement (.aminRet d a b w z) := by
  refine ⟨fun _ _ => ?_, fun _ h => (Bool.false_ne_true h).elim⟩
  obtain ⟨W, e, ⟨g0, g1, g2, g3, g4, -⟩, t⟩ := asm_reads 0x60000404 [(d.toNat, 21, 5), (a.toNat, 16, 5), (b.toNat, 11, 5), (w.toNat, 6, 4), (z.toNat, 4, 1)] [(d.toNat, 21), (a.toNat, 16), (b.toNat, 11), (w.toNat, 6), (z.toNat, 4)] [(21, 5), (16, 5), (11, 5), (6, 4), (4, 1)] rfl rfl (by decide +kernel) ⟨d.isLt, a.isLt, b.isLt, w.isLt, z.isLt, trivial⟩
  refine (congrArg decode e).trans ((to18 (t 26 6 24 (by decide))).trans ?_)
  rw [decode18, t 0 4 4 (by decide)]
  refine (if_neg fun h => (by rw [t 10 1 1 (by decide)]; decide : ¬ bitsAt W 10 1 = 0) h.2.1).trans ?_
  refine (if_pos ⟨t 10 1 1 (by decide), t 5 1 0 (by decide)⟩).trans ?_
  rw [field_of g0, field_of g1, field_of g2, field_of g3, field_of g4]

theorem Encoding.amaxRet (d : BitVec 5) (a : BitVec 5) (b : BitVec 5) (w : BitVec 4) (z : BitVec 1) : Statement (.amaxRet d a b w z) := by
  refine ⟨fun _ _ => ?_, fun _ h => (Bool.false_ne_true h).elim⟩
  obtain ⟨W, e, ⟨g0, g1, g2, g3, g4, -⟩, t⟩ := asm_reads 0x60000405 [(d.toNat, 21, 5), (a.toNat, 16, 5), (b.toNat, 11, 5), (w.toNat, 6, 4), (z.toNat, 4, 1)] [(d.toNat, 21), (a.toNat, 16), (b.toNat, 11), (w.toNat, 6), (z.toNat, 4)] [(21, 5), (16, 5), (11, 5), (6, 4), (4, 1)] rfl rfl (by decide +kernel) ⟨d.isLt, a.isLt, b.isLt, w.isLt, z.isLt, trivial⟩
  refine (congrArg decode e).trans ((to18 (t 26 6 24 (by decide))).trans ?_)
  rw [decode18, t 0 4 5 (by decide)]
  refine (if_neg fun h => (by rw [t 10 1 1 (by decide)]; decide : ¬ bitsAt W 10 1 = 0) h.2.1).trans ?_
  refine (if_pos ⟨t 10 1 1 (by decide), t 5 1 0 (by decide)⟩).trans ?_
  rw [field_of g0, field_of g1, field_of g2, field_of g3, field_of g4]

theorem Encoding.aminnRet (d : BitVec 5) (a : BitVec 5) (b : BitVec 5) (w : BitVec 4) (z : BitVec 1) : Statement (.aminnRet d a b w z) := by
  refine ⟨fun _ _ => ?_, fun _ h => (Bool.false_ne_true h).elim⟩
  obtain ⟨W, e, ⟨g0, g1, g2, g3, g4, -⟩, t⟩ := asm_reads 0x60000406 [(d.toNat, 21, 5), (a.toNat, 16, 5), (b.toNat, 11, 5), (w.toNat, 6, 4), (z.toNat, 4, 1)] [(d.toNat, 21), (a.toNat, 16), (b.toNat, 11), (w.toNat, 6), (z.toNat, 4)] [(21, 5), (16, 5), (11, 5), (6, 4), (4, 1)] rfl rfl (by decide +kernel) ⟨d.isLt, a.isLt, b.isLt, w.isLt, z.isLt, trivial⟩
  refine (congrArg decode e).trans ((to18 (t 26 6 24 (by decide))).trans ?_)
  rw [decode18, t 0 4 6 (by decide)]
  refine (if_neg fun h => (by rw [t 10 1 1 (by decide)]; decide : ¬ bitsAt W 10 1 = 0) h.2.1).trans ?_
  refine (if_pos ⟨t 10 1 1 (by decide), t 5 1 0 (by decide)⟩).trans ?_
  rw [field_of g0, field_of g1, field_of g2, field_of g3, field_of g4]

theorem Encoding.amaxnRet (d : BitVec 5) (a : BitVec 5) (b : BitVec 5) (w : BitVec 4) (z : BitVec 1) : Statement (.amaxnRet d a b w z) := by
  refine ⟨fun _ _ => ?_, fun _ h => (Bool.false_ne_true h).elim⟩
  obtain ⟨W, e, ⟨g0, g1, g2, g3, g4, -⟩, t⟩ := asm_reads 0x60000407 [(d.toNat, 21, 5), (a.toNat, 16, 5), (b.toNat, 11, 5), (w.toNat, 6, 4), (z.toNat, 4, 1)] [(d.toNat, 21), (a.toNat, 16), (b.toNat, 11), (w.toNat, 6), (z.toNat, 4)] [(21, 5), (16, 5), (11, 5), (6, 4), (4, 1)] rfl rfl (by decide +kernel) ⟨d.isLt, a.isLt, b.isLt, w.isLt, z.isLt, trivial⟩
  refine (congrArg decode e).trans ((to18 (t 26 6 24 (by decide))).trans ?_)
  rw [decode18, t 0 4 7 (by decide)]
  refine (if_neg fun h => (by rw [t 10 1 1 (by decide)]; decide : ¬ bitsAt W 10 1 = 0) h.2.1).trans ?_
  refine (if_pos ⟨t 10 1 1 (by decide), t 5 1 0 (by decide)⟩).trans ?_
  rw [field_of g0, field_of g1, field_of g2, field_of g3, field_of g4]

theorem Encoding.aswap (d : BitVec 5) (a : BitVec 5) (b : BitVec 5) (w : BitVec 4) (z : BitVec 1) : Statement (.aswap d a b w z) := by
  refine ⟨fun _ _ => ?_, fun _ h => (Bool.false_ne_true h).elim⟩
  obtain ⟨W, e, ⟨g0, g1, g2, g3, g4, -⟩, t⟩ := asm_reads 0x60000408 [(d.toNat, 21, 5), (a.toNat, 16, 5), (b.toNat, 11, 5), (w.toNat, 6, 4), (z.toNat, 4, 1)] [(d.toNat, 21), (a.toNat, 16), (b.toNat, 11), (w.toNat, 6), (z.toNat, 4)] [(21, 5), (16, 5), (11, 5), (6, 4), (4, 1)] rfl rfl (by decide +kernel) ⟨d.isLt, a.isLt, b.isLt, w.isLt, z.isLt, trivial⟩
  refine (congrArg decode e).trans ((to18 (t 26 6 24 (by decide))).trans ?_)
  rw [decode18, t 0 4 8 (by decide)]
  refine (if_pos ⟨t 10 1 1 (by decide), t 5 1 0 (by decide)⟩).trans ?_
  rw [field_of g0, field_of g1, field_of g2, field_of g3, field_of g4]

theorem Encoding.acas (d : BitVec 5) (a : BitVec 5) (b : BitVec 5) (w : BitVec 4) (z : BitVec 1) : Statement (.acas d a b w z) := by
  refine ⟨fun _ _ => ?_, fun _ h => (Bool.false_ne_true h).elim⟩
  obtain ⟨W, e, ⟨g0, g1, g2, g3, g4, -⟩, t⟩ := asm_reads 0x60000409 [(d.toNat, 21, 5), (a.toNat, 16, 5), (b.toNat, 11, 5), (w.toNat, 6, 4), (z.toNat, 4, 1)] [(d.toNat, 21), (a.toNat, 16), (b.toNat, 11), (w.toNat, 6), (z.toNat, 4)] [(21, 5), (16, 5), (11, 5), (6, 4), (4, 1)] rfl rfl (by decide +kernel) ⟨d.isLt, a.isLt, b.isLt, w.isLt, z.isLt, trivial⟩
  refine (congrArg decode e).trans ((to18 (t 26 6 24 (by decide))).trans ?_)
  rw [decode18, t 0 4 9 (by decide)]
  refine (if_pos ⟨t 10 1 1 (by decide), t 5 1 0 (by decide)⟩).trans ?_
  rw [field_of g0, field_of g1, field_of g2, field_of g3, field_of g4]

theorem Encoding.fenceV (c : BitVec 3) (m : BitVec 16) : Statement (.fenceV c m) := by
  refine ⟨fun hw _ => ?_, fun _ h => (Bool.false_ne_true h).elim⟩
  obtain ⟨W, e, ⟨g0, g1, -⟩, t⟩ := asm_reads 0x64000000 [(c.toNat, 21, 3), (m.toNat, 0, 16)] [(c.toNat, 21), (m.toNat, 0)] [(21, 3), (0, 16)] rfl rfl (by decide +kernel) ⟨c.isLt, m.isLt, trivial⟩
  refine (congrArg decode e).trans ((to19 (t 26 6 25 (by decide))).trans ?_)
  rw [decode19, t 24 1 0 (by decide)]
  refine (if_pos ⟨t 25 1 0 (by decide), t 16 5 0 (by decide), by rw [show bitsAt W 21 3 = c.toNat from g0]; exact of_decide_eq_true hw⟩).trans ?_
  rw [field_of g0, field_of g1]

theorem Encoding.fenceS (c : BitVec 3) (m : BitVec 16) : Statement (.fenceS c m) := by
  refine ⟨fun hw _ => ?_, fun _ h => (Bool.false_ne_true h).elim⟩
  obtain ⟨W, e, ⟨g0, g1, -⟩, t⟩ := asm_reads 0x65000000 [(c.toNat, 21, 3), (m.toNat, 0, 16)] [(c.toNat, 21), (m.toNat, 0)] [(21, 3), (0, 16)] rfl rfl (by decide +kernel) ⟨c.isLt, m.isLt, trivial⟩
  refine (congrArg decode e).trans ((to19 (t 26 6 25 (by decide))).trans ?_)
  rw [decode19, t 24 1 1 (by decide)]
  refine (if_pos ⟨t 25 1 0 (by decide), t 16 5 0 (by decide), by rw [show bitsAt W 21 3 = c.toNat from g0]; exact of_decide_eq_true hw⟩).trans ?_
  rw [field_of g0, field_of g1]

theorem Encoding.waitseq (a : BitVec 5) (b : BitVec 5) : Statement (.waitseq a b) := by
  refine ⟨fun _ _ => ?_, fun _ h => (Bool.false_ne_true h).elim⟩
  obtain ⟨W, e, ⟨g0, g1, -⟩, t⟩ := asm_reads 0x68000000 [(a.toNat, 16, 5), (b.toNat, 11, 5)] [(a.toNat, 16), (b.toNat, 11)] [(16, 5), (11, 5)] rfl rfl (by decide +kernel) ⟨a.isLt, b.isLt, trivial⟩
  refine (congrArg decode e).trans ((to1A (t 26 6 26 (by decide))).trans ?_)
  rw [decode1A, t 0 11 0 (by decide)]
  refine (if_pos (t 21 5 0 (by decide))).trans ?_
  rw [field_of g0, field_of g1]

theorem Encoding.signal (a : BitVec 5) (b : BitVec 5) : Statement (.signal a b) := by
  refine ⟨fun _ _ => ?_, fun _ h => (Bool.false_ne_true h).elim⟩
  obtain ⟨W, e, ⟨g0, g1, -⟩, t⟩ := asm_reads 0x68000001 [(a.toNat, 16, 5), (b.toNat, 11, 5)] [(a.toNat, 16), (b.toNat, 11)] [(16, 5), (11, 5)] rfl rfl (by decide +kernel) ⟨a.isLt, b.isLt, trivial⟩
  refine (congrArg decode e).trans ((to1A (t 26 6 26 (by decide))).trans ?_)
  rw [decode1A, t 0 11 1 (by decide)]
  refine (if_pos (t 21 5 0 (by decide))).trans ?_
  rw [field_of g0, field_of g1]

theorem Encoding.waitx (a : BitVec 5) : Statement (.waitx a) := by
  refine ⟨fun _ _ => ?_, fun _ h => (Bool.false_ne_true h).elim⟩
  obtain ⟨W, e, ⟨g0, -⟩, t⟩ := asm_reads 0x68000002 [(a.toNat, 16, 5)] [(a.toNat, 16)] [(16, 5)] rfl rfl (by decide +kernel) ⟨a.isLt, trivial⟩
  refine (congrArg decode e).trans ((to1A (t 26 6 26 (by decide))).trans ?_)
  rw [decode1A, t 0 11 2 (by decide)]
  refine (if_pos ⟨t 21 5 0 (by decide), t 11 5 0 (by decide)⟩).trans ?_
  rw [field_of g0]

theorem Encoding.sqwait (d : BitVec 5) (q : BitVec 3) (b : BitVec 5) : Statement (.sqwait d q b) := by
  refine ⟨fun _ _ => ?_, fun _ h => (Bool.false_ne_true h).elim⟩
  obtain ⟨W, e, ⟨g0, g1, g2, -⟩, t⟩ := asm_reads 0x68000003 [(d.toNat, 21, 5), (q.toNat, 16, 3), (b.toNat, 11, 5)] [(d.toNat, 21), (q.toNat, 16), (b.toNat, 11)] [(21, 5), (16, 3), (11, 5)] rfl rfl (by decide +kernel) ⟨d.isLt, q.isLt, b.isLt, trivial⟩
  refine (congrArg decode e).trans ((to1A (t 26 6 26 (by decide))).trans ?_)
  rw [decode1A, t 0 11 3 (by decide)]
  refine (if_pos (t 19 2 0 (by decide))).trans ?_
  rw [field_of g0, field_of g1, field_of g2]

theorem Encoding.tseq (d : BitVec 5) (a : BitVec 5) : Statement (.tseq d a) := by
  refine ⟨fun _ _ => ?_, fun _ h => (Bool.false_ne_true h).elim⟩
  obtain ⟨W, e, ⟨g0, g1, -⟩, t⟩ := asm_reads 0x68000004 [(d.toNat, 21, 5), (a.toNat, 16, 5)] [(d.toNat, 21), (a.toNat, 16)] [(21, 5), (16, 5)] rfl rfl (by decide +kernel) ⟨d.isLt, a.isLt, trivial⟩
  refine (congrArg decode e).trans ((to1A (t 26 6 26 (by decide))).trans ?_)
  rw [decode1A, t 0 11 4 (by decide)]
  refine (if_pos (t 11 5 0 (by decide))).trans ?_
  rw [field_of g0, field_of g1]

theorem Encoding.gjoin (d : BitVec 5) (a : BitVec 5) : Statement (.gjoin d a) := by
  refine ⟨fun _ _ => ?_, fun _ h => (Bool.false_ne_true h).elim⟩
  obtain ⟨W, e, ⟨g0, g1, -⟩, t⟩ := asm_reads 0x6C000000 [(d.toNat, 21, 5), (a.toNat, 16, 5)] [(d.toNat, 21), (a.toNat, 16)] [(21, 5), (16, 5)] rfl rfl (by decide +kernel) ⟨d.isLt, a.isLt, trivial⟩
  refine (congrArg decode e).trans ((to1B (t 26 6 27 (by decide))).trans ?_)
  rw [decode1B, t 0 11 0 (by decide)]
  refine (if_pos (t 11 5 0 (by decide))).trans ?_
  rw [field_of g0, field_of g1]

theorem Encoding.gleave (a : BitVec 5) : Statement (.gleave a) := by
  refine ⟨fun _ _ => ?_, fun _ h => (Bool.false_ne_true h).elim⟩
  obtain ⟨W, e, ⟨g0, -⟩, t⟩ := asm_reads 0x6C000001 [(a.toNat, 16, 5)] [(a.toNat, 16)] [(16, 5)] rfl rfl (by decide +kernel) ⟨a.isLt, trivial⟩
  refine (congrArg decode e).trans ((to1B (t 26 6 27 (by decide))).trans ?_)
  rw [decode1B, t 0 11 1 (by decide)]
  refine (if_pos ⟨t 21 5 0 (by decide), t 11 5 0 (by decide)⟩).trans ?_
  rw [field_of g0]

theorem Encoding.gbar (a : BitVec 5) : Statement (.gbar a) := by
  refine ⟨fun _ _ => ?_, fun _ h => (Bool.false_ne_true h).elim⟩
  obtain ⟨W, e, ⟨g0, -⟩, t⟩ := asm_reads 0x6C000002 [(a.toNat, 16, 5)] [(a.toNat, 16)] [(16, 5)] rfl rfl (by decide +kernel) ⟨a.isLt, trivial⟩
  refine (congrArg decode e).trans ((to1B (t 26 6 27 (by decide))).trans ?_)
  rw [decode1B, t 0 11 2 (by decide)]
  refine (if_pos ⟨t 21 5 0 (by decide), t 11 5 0 (by decide)⟩).trans ?_
  rw [field_of g0]

theorem Encoding.forkl (d : BitVec 5) (a : BitVec 5) : Statement (.forkl d a) := by
  refine ⟨fun _ _ => ?_, fun _ h => (Bool.false_ne_true h).elim⟩
  obtain ⟨W, e, ⟨g0, g1, -⟩, t⟩ := asm_reads 0x6C000003 [(d.toNat, 21, 5), (a.toNat, 16, 5)] [(d.toNat, 21), (a.toNat, 16)] [(21, 5), (16, 5)] rfl rfl (by decide +kernel) ⟨d.isLt, a.isLt, trivial⟩
  refine (congrArg decode e).trans ((to1B (t 26 6 27 (by decide))).trans ?_)
  rw [decode1B, t 0 11 3 (by decide)]
  refine (if_pos (t 11 5 0 (by decide))).trans ?_
  rw [field_of g0, field_of g1]

theorem Encoding.joinl (a : BitVec 5) : Statement (.joinl a) := by
  refine ⟨fun _ _ => ?_, fun _ h => (Bool.false_ne_true h).elim⟩
  obtain ⟨W, e, ⟨g0, -⟩, t⟩ := asm_reads 0x6C000004 [(a.toNat, 16, 5)] [(a.toNat, 16)] [(16, 5)] rfl rfl (by decide +kernel) ⟨a.isLt, trivial⟩
  refine (congrArg decode e).trans ((to1B (t 26 6 27 (by decide))).trans ?_)
  rw [decode1B, t 0 11 4 (by decide)]
  refine (if_pos ⟨t 21 5 0 (by decide), t 11 5 0 (by decide)⟩).trans ?_
  rw [field_of g0]

theorem Encoding.yield : Statement (.yield) := by
  refine ⟨fun _ _ => ?_, fun _ h => (Bool.false_ne_true h).elim⟩
  obtain ⟨W, e, -, t⟩ := asm_reads 0x6C000005 [] [] [] rfl rfl (by decide +kernel) trivial
  refine (congrArg decode e).trans ((to1B (t 26 6 27 (by decide))).trans ?_)
  rw [decode1B, t 0 11 5 (by decide)]
  refine (if_pos (t 11 15 0 (by decide))).trans ?_
  rfl

theorem Encoding.tid (d : BitVec 5) : Statement (.tid d) := by
  refine ⟨fun _ _ => ?_, fun _ h => (Bool.false_ne_true h).elim⟩
  obtain ⟨W, e, ⟨g0, -⟩, t⟩ := asm_reads 0x6C000006 [(d.toNat, 21, 5)] [(d.toNat, 21)] [(21, 5)] rfl rfl (by decide +kernel) ⟨d.isLt, trivial⟩
  refine (congrArg decode e).trans ((to1B (t 26 6 27 (by decide))).trans ?_)
  rw [decode1B, t 0 11 6 (by decide)]
  refine (if_pos (t 11 10 0 (by decide))).trans ?_
  rw [field_of g0]

theorem Encoding.gsize (d : BitVec 5) (a : BitVec 5) : Statement (.gsize d a) := by
  refine ⟨fun _ _ => ?_, fun _ h => (Bool.false_ne_true h).elim⟩
  obtain ⟨W, e, ⟨g0, g1, -⟩, t⟩ := asm_reads 0x6C000007 [(d.toNat, 21, 5), (a.toNat, 16, 5)] [(d.toNat, 21), (a.toNat, 16)] [(21, 5), (16, 5)] rfl rfl (by decide +kernel) ⟨d.isLt, a.isLt, trivial⟩
  refine (congrArg decode e).trans ((to1B (t 26 6 27 (by decide))).trans ?_)
  rw [decode1B, t 0 11 7 (by decide)]
  refine (if_pos (t 11 5 0 (by decide))).trans ?_
  rw [field_of g0, field_of g1]

theorem Encoding.trap (k : BitVec 12) : Statement (.trap k) := by
  refine ⟨fun _ _ => ?_, fun _ h => (Bool.false_ne_true h).elim⟩
  obtain ⟨W, e, ⟨g0, -⟩, t⟩ := asm_reads 0x70000000 [(k.toNat, 4, 12)] [(k.toNat, 4)] [(4, 12)] rfl rfl (by decide +kernel) ⟨k.isLt, trivial⟩
  refine (congrArg decode e).trans ((to1C (t 26 6 28 (by decide))).trans ?_)
  rw [decode1C, t 0 4 0 (by decide)]
  refine (if_pos (t 16 10 0 (by decide))).trans ?_
  rw [field_of g0]

theorem Encoding.csrr (d : BitVec 5) (k : BitVec 12) : Statement (.csrr d k) := by
  refine ⟨fun _ _ => ?_, fun _ h => (Bool.false_ne_true h).elim⟩
  obtain ⟨W, e, ⟨g0, g1, -⟩, t⟩ := asm_reads 0x70000001 [(d.toNat, 21, 5), (k.toNat, 4, 12)] [(d.toNat, 21), (k.toNat, 4)] [(21, 5), (4, 12)] rfl rfl (by decide +kernel) ⟨d.isLt, k.isLt, trivial⟩
  refine (congrArg decode e).trans ((to1C (t 26 6 28 (by decide))).trans ?_)
  rw [decode1C, t 0 4 1 (by decide)]
  refine (if_pos (t 16 5 0 (by decide))).trans ?_
  rw [field_of g0, field_of g1]

theorem Encoding.csrw (d : BitVec 5) (a : BitVec 5) (k : BitVec 12) : Statement (.csrw d a k) := by
  refine ⟨fun _ _ => ?_, fun _ h => (Bool.false_ne_true h).elim⟩
  obtain ⟨W, e, ⟨g0, g1, g2, -⟩, t⟩ := asm_reads 0x70000002 [(d.toNat, 21, 5), (a.toNat, 16, 5), (k.toNat, 4, 12)] [(d.toNat, 21), (a.toNat, 16), (k.toNat, 4)] [(21, 5), (16, 5), (4, 12)] rfl rfl (by decide +kernel) ⟨d.isLt, a.isLt, k.isLt, trivial⟩
  refine (congrArg decode e).trans ((to1C (t 26 6 28 (by decide))).trans ?_)
  rw [decode1C, t 0 4 2 (by decide)]
  change Except.ok _ = _
  rw [field_of g0, field_of g1, field_of g2]

theorem Encoding.csrs (d : BitVec 5) (a : BitVec 5) (k : BitVec 12) : Statement (.csrs d a k) := by
  refine ⟨fun _ _ => ?_, fun _ h => (Bool.false_ne_true h).elim⟩
  obtain ⟨W, e, ⟨g0, g1, g2, -⟩, t⟩ := asm_reads 0x70000003 [(d.toNat, 21, 5), (a.toNat, 16, 5), (k.toNat, 4, 12)] [(d.toNat, 21), (a.toNat, 16), (k.toNat, 4)] [(21, 5), (16, 5), (4, 12)] rfl rfl (by decide +kernel) ⟨d.isLt, a.isLt, k.isLt, trivial⟩
  refine (congrArg decode e).trans ((to1C (t 26 6 28 (by decide))).trans ?_)
  rw [decode1C, t 0 4 3 (by decide)]
  change Except.ok _ = _
  rw [field_of g0, field_of g1, field_of g2]

theorem Encoding.csrc (d : BitVec 5) (a : BitVec 5) (k : BitVec 12) : Statement (.csrc d a k) := by
  refine ⟨fun _ _ => ?_, fun _ h => (Bool.false_ne_true h).elim⟩
  obtain ⟨W, e, ⟨g0, g1, g2, -⟩, t⟩ := asm_reads 0x70000004 [(d.toNat, 21, 5), (a.toNat, 16, 5), (k.toNat, 4, 12)] [(d.toNat, 21), (a.toNat, 16), (k.toNat, 4)] [(21, 5), (16, 5), (4, 12)] rfl rfl (by decide +kernel) ⟨d.isLt, a.isLt, k.isLt, trivial⟩
  refine (congrArg decode e).trans ((to1C (t 26 6 28 (by decide))).trans ?_)
  rw [decode1C, t 0 4 4 (by decide)]
  change Except.ok _ = _
  rw [field_of g0, field_of g1, field_of g2]

theorem Encoding.sleep (a : BitVec 5) (k : BitVec 12) : Statement (.sleep a k) := by
  refine ⟨fun _ _ => ?_, fun _ h => (Bool.false_ne_true h).elim⟩
  obtain ⟨W, e, ⟨g0, g1, -⟩, t⟩ := asm_reads 0x70000005 [(a.toNat, 16, 5), (k.toNat, 4, 12)] [(a.toNat, 16), (k.toNat, 4)] [(16, 5), (4, 12)] rfl rfl (by decide +kernel) ⟨a.isLt, k.isLt, trivial⟩
  refine (congrArg decode e).trans ((to1C (t 26 6 28 (by decide))).trans ?_)
  rw [decode1C, t 0 4 5 (by decide)]
  refine (if_pos (t 21 5 0 (by decide))).trans ?_
  rw [field_of g0, field_of g1]

theorem Encoding.halt (k : BitVec 12) : Statement (.halt k) := by
  refine ⟨fun _ _ => ?_, fun _ h => (Bool.false_ne_true h).elim⟩
  obtain ⟨W, e, ⟨g0, -⟩, t⟩ := asm_reads 0x70000006 [(k.toNat, 4, 12)] [(k.toNat, 4)] [(4, 12)] rfl rfl (by decide +kernel) ⟨k.isLt, trivial⟩
  refine (congrArg decode e).trans ((to1C (t 26 6 28 (by decide))).trans ?_)
  rw [decode1C, t 0 4 6 (by decide)]
  refine (if_pos (t 16 10 0 (by decide))).trans ?_
  rw [field_of g0]

theorem Encoding.brk (k : BitVec 12) : Statement (.brk k) := by
  refine ⟨fun _ _ => ?_, fun _ h => (Bool.false_ne_true h).elim⟩
  obtain ⟨W, e, ⟨g0, -⟩, t⟩ := asm_reads 0x70000007 [(k.toNat, 4, 12)] [(k.toNat, 4)] [(4, 12)] rfl rfl (by decide +kernel) ⟨k.isLt, trivial⟩
  refine (congrArg decode e).trans ((to1C (t 26 6 28 (by decide))).trans ?_)
  rw [decode1C, t 0 4 7 (by decide)]
  refine (if_pos (t 16 10 0 (by decide))).trans ?_
  rw [field_of g0]

theorem Encoding.chapp (d : BitVec 5) (a : BitVec 5) (b : BitVec 5) : Statement (.chapp d a b) := by
  refine ⟨fun _ _ => ?_, fun _ h => (Bool.false_ne_true h).elim⟩
  obtain ⟨W, e, ⟨g0, g1, g2, -⟩, t⟩ := asm_reads 0x74000000 [(d.toNat, 21, 5), (a.toNat, 16, 5), (b.toNat, 11, 5)] [(d.toNat, 21), (a.toNat, 16), (b.toNat, 11)] [(21, 5), (16, 5), (11, 5)] rfl rfl (by decide +kernel) ⟨d.isLt, a.isLt, b.isLt, trivial⟩
  refine (congrArg decode e).trans ((to1D (t 26 6 29 (by decide))).trans ?_)
  rw [decode1D, t 0 11 0 (by decide)]
  change Except.ok _ = _
  rw [field_of g0, field_of g1, field_of g2]

theorem Encoding.strmR (q : BitVec 3) (w : BitVec 4) (p : BitVec 5) : Statement (.strmR q w p) := by
  refine ⟨fun _ _ => ?_, fun _ h => (Bool.false_ne_true h).elim⟩
  obtain ⟨W, e, ⟨g0, g1, g2, -⟩, t⟩ := asm_reads 0x74000001 [(q.toNat, 21, 3), (w.toNat, 16, 4), (p.toNat, 11, 5)] [(q.toNat, 21), (w.toNat, 16), (p.toNat, 11)] [(21, 3), (16, 4), (11, 5)] rfl rfl (by decide +kernel) ⟨q.isLt, w.isLt, p.isLt, trivial⟩
  refine (congrArg decode e).trans ((to1D (t 26 6 29 (by decide))).trans ?_)
  rw [decode1D, t 0 11 1 (by decide)]
  refine (if_neg fun h => (by rw [t 24 2 0 (by decide)]; decide : ¬ bitsAt W 24 2 = 3) h.2).trans ?_
  refine (if_pos ⟨t 24 2 0 (by decide), t 20 1 0 (by decide)⟩).trans ?_
  rw [field_of g0, field_of g1, field_of g2]

theorem Encoding.strmW (q : BitVec 3) (w : BitVec 4) (p : BitVec 5) : Statement (.strmW q w p) := by
  refine ⟨fun _ _ => ?_, fun _ h => (Bool.false_ne_true h).elim⟩
  obtain ⟨W, e, ⟨g0, g1, g2, -⟩, t⟩ := asm_reads 0x76000001 [(q.toNat, 21, 3), (w.toNat, 16, 4), (p.toNat, 11, 5)] [(q.toNat, 21), (w.toNat, 16), (p.toNat, 11)] [(21, 3), (16, 4), (11, 5)] rfl rfl (by decide +kernel) ⟨q.isLt, w.isLt, p.isLt, trivial⟩
  refine (congrArg decode e).trans ((to1D (t 26 6 29 (by decide))).trans ?_)
  rw [decode1D, t 0 11 1 (by decide)]
  refine (if_neg fun h => (by rw [t 24 2 2 (by decide)]; decide : ¬ bitsAt W 24 2 = 3) h.2).trans ?_
  refine (if_neg fun h => (by rw [t 24 2 2 (by decide)]; decide : ¬ bitsAt W 24 2 = 0) h.1).trans ?_
  refine (if_pos ⟨t 24 2 2 (by decide), t 20 1 0 (by decide)⟩).trans ?_
  rw [field_of g0, field_of g1, field_of g2]

theorem Encoding.strmRg (q : BitVec 3) (w : BitVec 4) (p : BitVec 5) : Statement (.strmRg q w p) := by
  refine ⟨fun _ _ => ?_, fun _ h => (Bool.false_ne_true h).elim⟩
  obtain ⟨W, e, ⟨g0, g1, g2, -⟩, t⟩ := asm_reads 0x75000001 [(q.toNat, 21, 3), (w.toNat, 16, 4), (p.toNat, 11, 5)] [(q.toNat, 21), (w.toNat, 16), (p.toNat, 11)] [(21, 3), (16, 4), (11, 5)] rfl rfl (by decide +kernel) ⟨q.isLt, w.isLt, p.isLt, trivial⟩
  refine (congrArg decode e).trans ((to1D (t 26 6 29 (by decide))).trans ?_)
  rw [decode1D, t 0 11 1 (by decide)]
  refine (if_neg fun h => (by rw [t 24 2 1 (by decide)]; decide : ¬ bitsAt W 24 2 = 3) h.2).trans ?_
  refine (if_neg fun h => (by rw [t 24 2 1 (by decide)]; decide : ¬ bitsAt W 24 2 = 0) h.1).trans ?_
  refine (if_neg fun h => (by rw [t 24 2 1 (by decide)]; decide : ¬ bitsAt W 24 2 = 2) h.1).trans ?_
  refine (if_pos ⟨t 24 2 1 (by decide), t 20 1 0 (by decide)⟩).trans ?_
  rw [field_of g0, field_of g1, field_of g2]

theorem Encoding.sunb (q : BitVec 3) : Statement (.sunb q) := by
  refine ⟨fun _ _ => ?_, fun _ h => (Bool.false_ne_true h).elim⟩
  obtain ⟨W, e, ⟨g0, -⟩, t⟩ := asm_reads 0x74000002 [(q.toNat, 21, 3)] [(q.toNat, 21)] [(21, 3)] rfl rfl (by decide +kernel) ⟨q.isLt, trivial⟩
  refine (congrArg decode e).trans ((to1D (t 26 6 29 (by decide))).trans ?_)
  rw [decode1D, t 0 11 2 (by decide)]
  refine (if_pos ⟨t 24 2 0 (by decide), t 11 10 0 (by decide)⟩).trans ?_
  rw [field_of g0]

theorem Encoding.gang (d : BitVec 5) (a : BitVec 5) (b : BitVec 5) : Statement (.gang d a b) := by
  refine ⟨fun _ _ => ?_, fun _ h => (Bool.false_ne_true h).elim⟩
  obtain ⟨W, e, ⟨g0, g1, g2, -⟩, t⟩ := asm_reads 0x74000003 [(d.toNat, 21, 5), (a.toNat, 16, 5), (b.toNat, 11, 5)] [(d.toNat, 21), (a.toNat, 16), (b.toNat, 11)] [(21, 5), (16, 5), (11, 5)] rfl rfl (by decide +kernel) ⟨d.isLt, a.isLt, b.isLt, trivial⟩
  refine (congrArg decode e).trans ((to1D (t 26 6 29 (by decide))).trans ?_)
  rw [decode1D, t 0 11 3 (by decide)]
  change Except.ok _ = _
  rw [field_of g0, field_of g1, field_of g2]

theorem Encoding.ungang : Statement (.ungang) := by
  refine ⟨fun _ _ => ?_, fun _ h => (Bool.false_ne_true h).elim⟩
  obtain ⟨W, e, -, t⟩ := asm_reads 0x74000004 [] [] [] rfl rfl (by decide +kernel) trivial
  refine (congrArg decode e).trans ((to1D (t 26 6 29 (by decide))).trans ?_)
  rw [decode1D, t 0 11 4 (by decide)]
  refine (if_pos (t 11 15 0 (by decide))).trans ?_
  rfl

theorem Encoding.vconfigImm (d : BitVec 5) (c : BitVec 11) : Statement (.vconfigImm d c) := by
  refine ⟨fun _ _ => ?_, fun _ h => (Bool.false_ne_true h).elim⟩
  obtain ⟨W, e, ⟨g0, g1, -⟩, t⟩ := asm_reads 0x78000000 [(d.toNat, 21, 5), (c.toNat, 4, 11)] [(d.toNat, 21), (c.toNat, 4)] [(21, 5), (4, 11)] rfl rfl (by decide +kernel) ⟨d.isLt, c.isLt, trivial⟩
  refine (congrArg decode e).trans ((to1E (t 26 6 30 (by decide))).trans ?_)
  rw [decode1E, t 0 4 0 (by decide)]
  refine (if_pos (t 15 6 0 (by decide))).trans ?_
  rw [field_of g0, field_of g1]

theorem Encoding.vconfigReg (d : BitVec 5) (a : BitVec 5) : Statement (.vconfigReg d a) := by
  refine ⟨fun _ _ => ?_, fun _ h => (Bool.false_ne_true h).elim⟩
  obtain ⟨W, e, ⟨g0, g1, -⟩, t⟩ := asm_reads 0x78008000 [(d.toNat, 21, 5), (a.toNat, 16, 5)] [(d.toNat, 21), (a.toNat, 16)] [(21, 5), (16, 5)] rfl rfl (by decide +kernel) ⟨d.isLt, a.isLt, trivial⟩
  refine (congrArg decode e).trans ((to1E (t 26 6 30 (by decide))).trans ?_)
  rw [decode1E, t 0 4 0 (by decide)]
  refine (if_neg fun h => not_zero 0 (by decide) (t 15 1 1 (by decide)) h).trans ?_
  refine (if_pos (t 4 12 2048 (by decide))).trans ?_
  rw [field_of g0, field_of g1]

theorem Encoding.vtag (c : BitVec 2) (v : BitVec 6) (t : BitVec 4) : Statement (.vtag c v t) := by
  refine ⟨fun _ _ => ?_, fun _ h => (Bool.false_ne_true h).elim⟩
  obtain ⟨W, e, ⟨g0, g1, g2, -⟩, t⟩ := asm_reads 0x78000001 [(c.toNat, 14, 2), (v.toNat, 8, 6), (t.toNat, 4, 4)] [(c.toNat, 14), (v.toNat, 8), (t.toNat, 4)] [(14, 2), (8, 6), (4, 4)] rfl rfl (by decide +kernel) ⟨c.isLt, v.isLt, t.isLt, trivial⟩
  refine (congrArg decode e).trans ((to1E (t 26 6 30 (by decide))).trans ?_)
  rw [decode1E, t 0 4 1 (by decide)]
  refine (if_pos (t 16 10 0 (by decide))).trans ?_
  rw [field_of g0, field_of g1, field_of g2]

theorem Encoding.setvl (d : BitVec 5) (a : BitVec 5) (e : BitVec 2) : Statement (.setvl d a e) := by
  refine ⟨fun _ _ => ?_, fun _ h => (Bool.false_ne_true h).elim⟩
  obtain ⟨W, e, ⟨g0, g1, g2, -⟩, t⟩ := asm_reads 0x78000002 [(d.toNat, 21, 5), (a.toNat, 16, 5), (e.toNat, 4, 2)] [(d.toNat, 21), (a.toNat, 16), (e.toNat, 4)] [(21, 5), (16, 5), (4, 2)] rfl rfl (by decide +kernel) ⟨d.isLt, a.isLt, e.isLt, trivial⟩
  refine (congrArg decode e).trans ((to1E (t 26 6 30 (by decide))).trans ?_)
  rw [decode1E, t 0 4 2 (by decide)]
  refine (if_pos (t 6 10 0 (by decide))).trans ?_
  rw [field_of g0, field_of g1, field_of g2]

theorem Encoding.setvlB (d : BitVec 5) (a : BitVec 5) (b : BitVec 3) (t : BitVec 4) : Statement (.setvlB d a b t) := by
  refine ⟨fun _ _ => ?_, fun _ h => (Bool.false_ne_true h).elim⟩
  obtain ⟨W, e, ⟨g0, g1, g2, g3, -⟩, t⟩ := asm_reads 0x78000003 [(d.toNat, 21, 5), (a.toNat, 16, 5), (b.toNat, 8, 3), (t.toNat, 4, 4)] [(d.toNat, 21), (a.toNat, 16), (b.toNat, 8), (t.toNat, 4)] [(21, 5), (16, 5), (8, 3), (4, 4)] rfl rfl (by decide +kernel) ⟨d.isLt, a.isLt, b.isLt, t.isLt, trivial⟩
  refine (congrArg decode e).trans ((to1E (t 26 6 30 (by decide))).trans ?_)
  rw [decode1E, t 0 4 3 (by decide)]
  refine (if_pos (t 11 5 0 (by decide))).trans ?_
  rw [field_of g0, field_of g1, field_of g2, field_of g3]

theorem Encoding.vcarrySet (o : BitVec 2) (n : BitVec 5) : Statement (.vcarrySet o n) := by
  refine ⟨fun _ _ => ?_, fun _ h => (Bool.false_ne_true h).elim⟩
  obtain ⟨W, e, ⟨g0, g1, -⟩, t⟩ := asm_reads 0x78000004 [(o.toNat, 9, 2), (n.toNat, 4, 5)] [(o.toNat, 9), (n.toNat, 4)] [(9, 2), (4, 5)] rfl rfl (by decide +kernel) ⟨o.isLt, n.isLt, trivial⟩
  refine (congrArg decode e).trans ((to1E (t 26 6 30 (by decide))).trans ?_)
  rw [decode1E, t 0 4 4 (by decide)]
  refine (if_pos (t 11 15 0 (by decide))).trans ?_
  rw [field_of g0, field_of g1]

theorem Encoding.vcarryReg (a : BitVec 5) : Statement (.vcarryReg a) := by
  refine ⟨fun _ _ => ?_, fun _ h => (Bool.false_ne_true h).elim⟩
  obtain ⟨W, e, ⟨g0, -⟩, t⟩ := asm_reads 0x78008004 [(a.toNat, 16, 5)] [(a.toNat, 16)] [(16, 5)] rfl rfl (by decide +kernel) ⟨a.isLt, trivial⟩
  refine (congrArg decode e).trans ((to1E (t 26 6 30 (by decide))).trans ?_)
  rw [decode1E, t 0 4 4 (by decide)]
  refine (if_neg fun h => not_zero 4 (by decide) (t 15 1 1 (by decide)) h).trans ?_
  refine (if_pos ⟨t 21 5 0 (by decide), t 4 12 2048 (by decide)⟩).trans ?_
  rw [field_of g0]

theorem Encoding.vfetch (b : BitVec 6) (p : BitVec 4) : Statement (.vfetch b p) := by
  refine ⟨fun _ _ => ?_, fun _ h => (Bool.false_ne_true h).elim⟩
  obtain ⟨W, e, ⟨g0, g1, -⟩, t⟩ := asm_reads 0x7C000000 [(b.toNat, 20, 6), (p.toNat, 4, 4)] [(b.toNat, 20), (p.toNat, 4)] [(20, 6), (4, 4)] rfl rfl (by decide +kernel) ⟨b.isLt, p.isLt, trivial⟩
  refine (congrArg decode e).trans ((to1F (t 26 6 31 (by decide))).trans ?_)
  rw [decode1F, t 0 4 0 (by decide)]
  refine (if_pos (t 8 12 0 (by decide))).trans ?_
  rw [field_of g0, field_of g1]

theorem Encoding.efetch (b : BitVec 6) : Statement (.efetch b) := by
  refine ⟨fun _ _ => ?_, fun _ h => (Bool.false_ne_true h).elim⟩
  obtain ⟨W, e, ⟨g0, -⟩, t⟩ := asm_reads 0x7C000001 [(b.toNat, 20, 6)] [(b.toNat, 20)] [(20, 6)] rfl rfl (by decide +kernel) ⟨b.isLt, trivial⟩
  refine (congrArg decode e).trans ((to1F (t 26 6 31 (by decide))).trans ?_)
  rw [decode1F, t 0 4 1 (by decide)]
  refine (if_pos (t 4 16 0 (by decide))).trans ?_
  rw [field_of g0]

theorem Encoding.ebz (o : BitVec 6) (a : BitVec 6) : Statement (.ebz o a) := by
  refine ⟨fun _ _ => ?_, fun _ h => (Bool.false_ne_true h).elim⟩
  obtain ⟨W, e, ⟨g0, g1, -⟩, t⟩ := asm_reads 0x7C000002 [(o.toNat, 20, 6), (a.toNat, 14, 6)] [(o.toNat, 20), (a.toNat, 14)] [(20, 6), (14, 6)] rfl rfl (by decide +kernel) ⟨o.isLt, a.isLt, trivial⟩
  refine (congrArg decode e).trans ((to1F (t 26 6 31 (by decide))).trans ?_)
  rw [decode1F, t 0 4 2 (by decide)]
  refine (if_pos (t 4 10 0 (by decide))).trans ?_
  rw [field_of g0, field_of g1]

theorem Encoding.ebnz (o : BitVec 6) (a : BitVec 6) : Statement (.ebnz o a) := by
  refine ⟨fun _ _ => ?_, fun _ h => (Bool.false_ne_true h).elim⟩
  obtain ⟨W, e, ⟨g0, g1, -⟩, t⟩ := asm_reads 0x7C000003 [(o.toNat, 20, 6), (a.toNat, 14, 6)] [(o.toNat, 20), (a.toNat, 14)] [(20, 6), (14, 6)] rfl rfl (by decide +kernel) ⟨o.isLt, a.isLt, trivial⟩
  refine (congrArg decode e).trans ((to1F (t 26 6 31 (by decide))).trans ?_)
  rw [decode1F, t 0 4 3 (by decide)]
  refine (if_pos (t 4 10 0 (by decide))).trans ?_
  rw [field_of g0, field_of g1]

theorem Encoding.eend : Statement (.eend) := by
  refine ⟨fun _ _ => ?_, fun _ h => (Bool.false_ne_true h).elim⟩
  obtain ⟨W, e, -, t⟩ := asm_reads 0x7C000004 [] [] [] rfl rfl (by decide +kernel) trivial
  refine (congrArg decode e).trans ((to1F (t 26 6 31 (by decide))).trans ?_)
  rw [decode1F, t 0 4 4 (by decide)]
  refine (if_pos (t 4 22 0 (by decide))).trans ?_
  rfl

theorem Encoding.xqsend (a : BitVec 6) : Statement (.xqsend a) := by
  refine ⟨fun _ _ => ?_, fun _ h => (Bool.false_ne_true h).elim⟩
  obtain ⟨W, e, ⟨g0, -⟩, t⟩ := asm_reads 0x7C000005 [(a.toNat, 14, 6)] [(a.toNat, 14)] [(14, 6)] rfl rfl (by decide +kernel) ⟨a.isLt, trivial⟩
  refine (congrArg decode e).trans ((to1F (t 26 6 31 (by decide))).trans ?_)
  rw [decode1F, t 0 4 5 (by decide)]
  refine (if_pos ⟨t 20 6 0 (by decide), t 4 10 0 (by decide)⟩).trans ?_
  rw [field_of g0]

theorem Encoding.xqrecv (d : BitVec 6) : Statement (.xqrecv d) := by
  refine ⟨fun _ _ => ?_, fun _ h => (Bool.false_ne_true h).elim⟩
  obtain ⟨W, e, ⟨g0, -⟩, t⟩ := asm_reads 0x7C000006 [(d.toNat, 20, 6)] [(d.toNat, 20)] [(20, 6)] rfl rfl (by decide +kernel) ⟨d.isLt, trivial⟩
  refine (congrArg decode e).trans ((to1F (t 26 6 31 (by decide))).trans ?_)
  rw [decode1F, t 0 4 6 (by decide)]
  refine (if_pos (t 4 16 0 (by decide))).trans ?_
  rw [field_of g0]

theorem Encoding.vaddVv (d : BitVec 6) (a : BitVec 6) (b : BitVec 6) (p : BitVec 4) : Statement (.vaddVv d a b p) := by
  refine ⟨fun _ _ => ?_, fun _ h => (Bool.false_ne_true h).elim⟩
  obtain ⟨W, e, ⟨g0, g1, g2, g3, -⟩, t⟩ := asm_reads 0x80000000 [(d.toNat, 20, 6), (a.toNat, 14, 6), (b.toNat, 8, 6), (p.toNat, 4, 4)] [(d.toNat, 20), (a.toNat, 14), (b.toNat, 8), (p.toNat, 4)] [(20, 6), (14, 6), (8, 6), (4, 4)] rfl rfl (by decide +kernel) ⟨d.isLt, a.isLt, b.isLt, p.isLt, trivial⟩
  refine (congrArg decode e).trans ((to20 (t 26 6 32 (by decide))).trans ?_)
  rw [decode20, t 0 4 0 (by decide)]
  change Except.ok _ = _
  rw [field_of g0, field_of g1, field_of g2, field_of g3]

theorem Encoding.vsubVv (d : BitVec 6) (a : BitVec 6) (b : BitVec 6) (p : BitVec 4) : Statement (.vsubVv d a b p) := by
  refine ⟨fun _ _ => ?_, fun _ h => (Bool.false_ne_true h).elim⟩
  obtain ⟨W, e, ⟨g0, g1, g2, g3, -⟩, t⟩ := asm_reads 0x80000001 [(d.toNat, 20, 6), (a.toNat, 14, 6), (b.toNat, 8, 6), (p.toNat, 4, 4)] [(d.toNat, 20), (a.toNat, 14), (b.toNat, 8), (p.toNat, 4)] [(20, 6), (14, 6), (8, 6), (4, 4)] rfl rfl (by decide +kernel) ⟨d.isLt, a.isLt, b.isLt, p.isLt, trivial⟩
  refine (congrArg decode e).trans ((to20 (t 26 6 32 (by decide))).trans ?_)
  rw [decode20, t 0 4 1 (by decide)]
  change Except.ok _ = _
  rw [field_of g0, field_of g1, field_of g2, field_of g3]

theorem Encoding.vmulVv (d : BitVec 6) (a : BitVec 6) (b : BitVec 6) (p : BitVec 4) : Statement (.vmulVv d a b p) := by
  refine ⟨fun _ _ => ?_, fun _ h => (Bool.false_ne_true h).elim⟩
  obtain ⟨W, e, ⟨g0, g1, g2, g3, -⟩, t⟩ := asm_reads 0x80000002 [(d.toNat, 20, 6), (a.toNat, 14, 6), (b.toNat, 8, 6), (p.toNat, 4, 4)] [(d.toNat, 20), (a.toNat, 14), (b.toNat, 8), (p.toNat, 4)] [(20, 6), (14, 6), (8, 6), (4, 4)] rfl rfl (by decide +kernel) ⟨d.isLt, a.isLt, b.isLt, p.isLt, trivial⟩
  refine (congrArg decode e).trans ((to20 (t 26 6 32 (by decide))).trans ?_)
  rw [decode20, t 0 4 2 (by decide)]
  change Except.ok _ = _
  rw [field_of g0, field_of g1, field_of g2, field_of g3]

theorem Encoding.vfmaVv (d : BitVec 6) (a : BitVec 6) (b : BitVec 6) (p : BitVec 4) : Statement (.vfmaVv d a b p) := by
  refine ⟨fun _ _ => ?_, fun _ h => (Bool.false_ne_true h).elim⟩
  obtain ⟨W, e, ⟨g0, g1, g2, g3, -⟩, t⟩ := asm_reads 0x80000003 [(d.toNat, 20, 6), (a.toNat, 14, 6), (b.toNat, 8, 6), (p.toNat, 4, 4)] [(d.toNat, 20), (a.toNat, 14), (b.toNat, 8), (p.toNat, 4)] [(20, 6), (14, 6), (8, 6), (4, 4)] rfl rfl (by decide +kernel) ⟨d.isLt, a.isLt, b.isLt, p.isLt, trivial⟩
  refine (congrArg decode e).trans ((to20 (t 26 6 32 (by decide))).trans ?_)
  rw [decode20, t 0 4 3 (by decide)]
  change Except.ok _ = _
  rw [field_of g0, field_of g1, field_of g2, field_of g3]

theorem Encoding.vfmsVv (d : BitVec 6) (a : BitVec 6) (b : BitVec 6) (p : BitVec 4) : Statement (.vfmsVv d a b p) := by
  refine ⟨fun _ _ => ?_, fun _ h => (Bool.false_ne_true h).elim⟩
  obtain ⟨W, e, ⟨g0, g1, g2, g3, -⟩, t⟩ := asm_reads 0x80000004 [(d.toNat, 20, 6), (a.toNat, 14, 6), (b.toNat, 8, 6), (p.toNat, 4, 4)] [(d.toNat, 20), (a.toNat, 14), (b.toNat, 8), (p.toNat, 4)] [(20, 6), (14, 6), (8, 6), (4, 4)] rfl rfl (by decide +kernel) ⟨d.isLt, a.isLt, b.isLt, p.isLt, trivial⟩
  refine (congrArg decode e).trans ((to20 (t 26 6 32 (by decide))).trans ?_)
  rw [decode20, t 0 4 4 (by decide)]
  change Except.ok _ = _
  rw [field_of g0, field_of g1, field_of g2, field_of g3]

theorem Encoding.vfnmaVv (d : BitVec 6) (a : BitVec 6) (b : BitVec 6) (p : BitVec 4) : Statement (.vfnmaVv d a b p) := by
  refine ⟨fun _ _ => ?_, fun _ h => (Bool.false_ne_true h).elim⟩
  obtain ⟨W, e, ⟨g0, g1, g2, g3, -⟩, t⟩ := asm_reads 0x80000005 [(d.toNat, 20, 6), (a.toNat, 14, 6), (b.toNat, 8, 6), (p.toNat, 4, 4)] [(d.toNat, 20), (a.toNat, 14), (b.toNat, 8), (p.toNat, 4)] [(20, 6), (14, 6), (8, 6), (4, 4)] rfl rfl (by decide +kernel) ⟨d.isLt, a.isLt, b.isLt, p.isLt, trivial⟩
  refine (congrArg decode e).trans ((to20 (t 26 6 32 (by decide))).trans ?_)
  rw [decode20, t 0 4 5 (by decide)]
  change Except.ok _ = _
  rw [field_of g0, field_of g1, field_of g2, field_of g3]

theorem Encoding.vdivVv (d : BitVec 6) (a : BitVec 6) (b : BitVec 6) (p : BitVec 4) : Statement (.vdivVv d a b p) := by
  refine ⟨fun _ _ => ?_, fun _ h => (Bool.false_ne_true h).elim⟩
  obtain ⟨W, e, ⟨g0, g1, g2, g3, -⟩, t⟩ := asm_reads 0x80000006 [(d.toNat, 20, 6), (a.toNat, 14, 6), (b.toNat, 8, 6), (p.toNat, 4, 4)] [(d.toNat, 20), (a.toNat, 14), (b.toNat, 8), (p.toNat, 4)] [(20, 6), (14, 6), (8, 6), (4, 4)] rfl rfl (by decide +kernel) ⟨d.isLt, a.isLt, b.isLt, p.isLt, trivial⟩
  refine (congrArg decode e).trans ((to20 (t 26 6 32 (by decide))).trans ?_)
  rw [decode20, t 0 4 6 (by decide)]
  change Except.ok _ = _
  rw [field_of g0, field_of g1, field_of g2, field_of g3]

theorem Encoding.vminVv (d : BitVec 6) (a : BitVec 6) (b : BitVec 6) (p : BitVec 4) : Statement (.vminVv d a b p) := by
  refine ⟨fun _ _ => ?_, fun _ h => (Bool.false_ne_true h).elim⟩
  obtain ⟨W, e, ⟨g0, g1, g2, g3, -⟩, t⟩ := asm_reads 0x80000007 [(d.toNat, 20, 6), (a.toNat, 14, 6), (b.toNat, 8, 6), (p.toNat, 4, 4)] [(d.toNat, 20), (a.toNat, 14), (b.toNat, 8), (p.toNat, 4)] [(20, 6), (14, 6), (8, 6), (4, 4)] rfl rfl (by decide +kernel) ⟨d.isLt, a.isLt, b.isLt, p.isLt, trivial⟩
  refine (congrArg decode e).trans ((to20 (t 26 6 32 (by decide))).trans ?_)
  rw [decode20, t 0 4 7 (by decide)]
  change Except.ok _ = _
  rw [field_of g0, field_of g1, field_of g2, field_of g3]

theorem Encoding.vmaxVv (d : BitVec 6) (a : BitVec 6) (b : BitVec 6) (p : BitVec 4) : Statement (.vmaxVv d a b p) := by
  refine ⟨fun _ _ => ?_, fun _ h => (Bool.false_ne_true h).elim⟩
  obtain ⟨W, e, ⟨g0, g1, g2, g3, -⟩, t⟩ := asm_reads 0x80000008 [(d.toNat, 20, 6), (a.toNat, 14, 6), (b.toNat, 8, 6), (p.toNat, 4, 4)] [(d.toNat, 20), (a.toNat, 14), (b.toNat, 8), (p.toNat, 4)] [(20, 6), (14, 6), (8, 6), (4, 4)] rfl rfl (by decide +kernel) ⟨d.isLt, a.isLt, b.isLt, p.isLt, trivial⟩
  refine (congrArg decode e).trans ((to20 (t 26 6 32 (by decide))).trans ?_)
  rw [decode20, t 0 4 8 (by decide)]
  change Except.ok _ = _
  rw [field_of g0, field_of g1, field_of g2, field_of g3]

theorem Encoding.vabsVv (d : BitVec 6) (a : BitVec 6) (p : BitVec 4) : Statement (.vabsVv d a p) := by
  refine ⟨fun _ _ => ?_, fun _ h => (Bool.false_ne_true h).elim⟩
  obtain ⟨W, e, ⟨g0, g1, g2, -⟩, t⟩ := asm_reads 0x80000009 [(d.toNat, 20, 6), (a.toNat, 14, 6), (p.toNat, 4, 4)] [(d.toNat, 20), (a.toNat, 14), (p.toNat, 4)] [(20, 6), (14, 6), (4, 4)] rfl rfl (by decide +kernel) ⟨d.isLt, a.isLt, p.isLt, trivial⟩
  refine (congrArg decode e).trans ((to20 (t 26 6 32 (by decide))).trans ?_)
  rw [decode20, t 0 4 9 (by decide)]
  refine (if_pos (t 8 6 0 (by decide))).trans ?_
  rw [field_of g0, field_of g1, field_of g2]

theorem Encoding.vnegVv (d : BitVec 6) (a : BitVec 6) (p : BitVec 4) : Statement (.vnegVv d a p) := by
  refine ⟨fun _ _ => ?_, fun _ h => (Bool.false_ne_true h).elim⟩
  obtain ⟨W, e, ⟨g0, g1, g2, -⟩, t⟩ := asm_reads 0x8000000A [(d.toNat, 20, 6), (a.toNat, 14, 6), (p.toNat, 4, 4)] [(d.toNat, 20), (a.toNat, 14), (p.toNat, 4)] [(20, 6), (14, 6), (4, 4)] rfl rfl (by decide +kernel) ⟨d.isLt, a.isLt, p.isLt, trivial⟩
  refine (congrArg decode e).trans ((to20 (t 26 6 32 (by decide))).trans ?_)
  rw [decode20, t 0 4 10 (by decide)]
  refine (if_pos (t 8 6 0 (by decide))).trans ?_
  rw [field_of g0, field_of g1, field_of g2]

theorem Encoding.vsaddVv (d : BitVec 6) (a : BitVec 6) (b : BitVec 6) (p : BitVec 4) : Statement (.vsaddVv d a b p) := by
  refine ⟨fun _ _ => ?_, fun _ h => (Bool.false_ne_true h).elim⟩
  obtain ⟨W, e, ⟨g0, g1, g2, g3, -⟩, t⟩ := asm_reads 0x8000000B [(d.toNat, 20, 6), (a.toNat, 14, 6), (b.toNat, 8, 6), (p.toNat, 4, 4)] [(d.toNat, 20), (a.toNat, 14), (b.toNat, 8), (p.toNat, 4)] [(20, 6), (14, 6), (8, 6), (4, 4)] rfl rfl (by decide +kernel) ⟨d.isLt, a.isLt, b.isLt, p.isLt, trivial⟩
  refine (congrArg decode e).trans ((to20 (t 26 6 32 (by decide))).trans ?_)
  rw [decode20, t 0 4 11 (by decide)]
  change Except.ok _ = _
  rw [field_of g0, field_of g1, field_of g2, field_of g3]

theorem Encoding.vssubVv (d : BitVec 6) (a : BitVec 6) (b : BitVec 6) (p : BitVec 4) : Statement (.vssubVv d a b p) := by
  refine ⟨fun _ _ => ?_, fun _ h => (Bool.false_ne_true h).elim⟩
  obtain ⟨W, e, ⟨g0, g1, g2, g3, -⟩, t⟩ := asm_reads 0x8000000C [(d.toNat, 20, 6), (a.toNat, 14, 6), (b.toNat, 8, 6), (p.toNat, 4, 4)] [(d.toNat, 20), (a.toNat, 14), (b.toNat, 8), (p.toNat, 4)] [(20, 6), (14, 6), (8, 6), (4, 4)] rfl rfl (by decide +kernel) ⟨d.isLt, a.isLt, b.isLt, p.isLt, trivial⟩
  refine (congrArg decode e).trans ((to20 (t 26 6 32 (by decide))).trans ?_)
  rw [decode20, t 0 4 12 (by decide)]
  change Except.ok _ = _
  rw [field_of g0, field_of g1, field_of g2, field_of g3]

theorem Encoding.vmulhVv (d : BitVec 6) (a : BitVec 6) (b : BitVec 6) (p : BitVec 4) : Statement (.vmulhVv d a b p) := by
  refine ⟨fun _ _ => ?_, fun _ h => (Bool.false_ne_true h).elim⟩
  obtain ⟨W, e, ⟨g0, g1, g2, g3, -⟩, t⟩ := asm_reads 0x8000000D [(d.toNat, 20, 6), (a.toNat, 14, 6), (b.toNat, 8, 6), (p.toNat, 4, 4)] [(d.toNat, 20), (a.toNat, 14), (b.toNat, 8), (p.toNat, 4)] [(20, 6), (14, 6), (8, 6), (4, 4)] rfl rfl (by decide +kernel) ⟨d.isLt, a.isLt, b.isLt, p.isLt, trivial⟩
  refine (congrArg decode e).trans ((to20 (t 26 6 32 (by decide))).trans ?_)
  rw [decode20, t 0 4 13 (by decide)]
  change Except.ok _ = _
  rw [field_of g0, field_of g1, field_of g2, field_of g3]

theorem Encoding.vavgVv (d : BitVec 6) (a : BitVec 6) (b : BitVec 6) (p : BitVec 4) : Statement (.vavgVv d a b p) := by
  refine ⟨fun _ _ => ?_, fun _ h => (Bool.false_ne_true h).elim⟩
  obtain ⟨W, e, ⟨g0, g1, g2, g3, -⟩, t⟩ := asm_reads 0x8000000E [(d.toNat, 20, 6), (a.toNat, 14, 6), (b.toNat, 8, 6), (p.toNat, 4, 4)] [(d.toNat, 20), (a.toNat, 14), (b.toNat, 8), (p.toNat, 4)] [(20, 6), (14, 6), (8, 6), (4, 4)] rfl rfl (by decide +kernel) ⟨d.isLt, a.isLt, b.isLt, p.isLt, trivial⟩
  refine (congrArg decode e).trans ((to20 (t 26 6 32 (by decide))).trans ?_)
  rw [decode20, t 0 4 14 (by decide)]
  change Except.ok _ = _
  rw [field_of g0, field_of g1, field_of g2, field_of g3]

theorem Encoding.vaddVs (d : BitVec 6) (a : BitVec 6) (s : BitVec 5) (p : BitVec 4) : Statement (.vaddVs d a s p) := by
  refine ⟨fun _ _ => ?_, fun _ h => (Bool.false_ne_true h).elim⟩
  obtain ⟨W, e, ⟨g0, g1, g2, g3, -⟩, t⟩ := asm_reads 0x84000000 [(d.toNat, 20, 6), (a.toNat, 14, 6), (s.toNat, 9, 5), (p.toNat, 5, 4)] [(d.toNat, 20), (a.toNat, 14), (s.toNat, 9), (p.toNat, 5)] [(20, 6), (14, 6), (9, 5), (5, 4)] rfl rfl (by decide +kernel) ⟨d.isLt, a.isLt, s.isLt, p.isLt, trivial⟩
  refine (congrArg decode e).trans ((to21 (t 26 6 33 (by decide))).trans ?_)
  rw [decode21, t 0 5 0 (by decide)]
  change Except.ok _ = _
  rw [field_of g0, field_of g1, field_of g2, field_of g3]

theorem Encoding.vsubVs (d : BitVec 6) (a : BitVec 6) (s : BitVec 5) (p : BitVec 4) : Statement (.vsubVs d a s p) := by
  refine ⟨fun _ _ => ?_, fun _ h => (Bool.false_ne_true h).elim⟩
  obtain ⟨W, e, ⟨g0, g1, g2, g3, -⟩, t⟩ := asm_reads 0x84000001 [(d.toNat, 20, 6), (a.toNat, 14, 6), (s.toNat, 9, 5), (p.toNat, 5, 4)] [(d.toNat, 20), (a.toNat, 14), (s.toNat, 9), (p.toNat, 5)] [(20, 6), (14, 6), (9, 5), (5, 4)] rfl rfl (by decide +kernel) ⟨d.isLt, a.isLt, s.isLt, p.isLt, trivial⟩
  refine (congrArg decode e).trans ((to21 (t 26 6 33 (by decide))).trans ?_)
  rw [decode21, t 0 5 1 (by decide)]
  change Except.ok _ = _
  rw [field_of g0, field_of g1, field_of g2, field_of g3]

theorem Encoding.vmulVs (d : BitVec 6) (a : BitVec 6) (s : BitVec 5) (p : BitVec 4) : Statement (.vmulVs d a s p) := by
  refine ⟨fun _ _ => ?_, fun _ h => (Bool.false_ne_true h).elim⟩
  obtain ⟨W, e, ⟨g0, g1, g2, g3, -⟩, t⟩ := asm_reads 0x84000002 [(d.toNat, 20, 6), (a.toNat, 14, 6), (s.toNat, 9, 5), (p.toNat, 5, 4)] [(d.toNat, 20), (a.toNat, 14), (s.toNat, 9), (p.toNat, 5)] [(20, 6), (14, 6), (9, 5), (5, 4)] rfl rfl (by decide +kernel) ⟨d.isLt, a.isLt, s.isLt, p.isLt, trivial⟩
  refine (congrArg decode e).trans ((to21 (t 26 6 33 (by decide))).trans ?_)
  rw [decode21, t 0 5 2 (by decide)]
  change Except.ok _ = _
  rw [field_of g0, field_of g1, field_of g2, field_of g3]

theorem Encoding.vfmaVs (d : BitVec 6) (a : BitVec 6) (s : BitVec 5) (p : BitVec 4) : Statement (.vfmaVs d a s p) := by
  refine ⟨fun _ _ => ?_, fun _ h => (Bool.false_ne_true h).elim⟩
  obtain ⟨W, e, ⟨g0, g1, g2, g3, -⟩, t⟩ := asm_reads 0x84000003 [(d.toNat, 20, 6), (a.toNat, 14, 6), (s.toNat, 9, 5), (p.toNat, 5, 4)] [(d.toNat, 20), (a.toNat, 14), (s.toNat, 9), (p.toNat, 5)] [(20, 6), (14, 6), (9, 5), (5, 4)] rfl rfl (by decide +kernel) ⟨d.isLt, a.isLt, s.isLt, p.isLt, trivial⟩
  refine (congrArg decode e).trans ((to21 (t 26 6 33 (by decide))).trans ?_)
  rw [decode21, t 0 5 3 (by decide)]
  change Except.ok _ = _
  rw [field_of g0, field_of g1, field_of g2, field_of g3]

theorem Encoding.vfmsVs (d : BitVec 6) (a : BitVec 6) (s : BitVec 5) (p : BitVec 4) : Statement (.vfmsVs d a s p) := by
  refine ⟨fun _ _ => ?_, fun _ h => (Bool.false_ne_true h).elim⟩
  obtain ⟨W, e, ⟨g0, g1, g2, g3, -⟩, t⟩ := asm_reads 0x84000004 [(d.toNat, 20, 6), (a.toNat, 14, 6), (s.toNat, 9, 5), (p.toNat, 5, 4)] [(d.toNat, 20), (a.toNat, 14), (s.toNat, 9), (p.toNat, 5)] [(20, 6), (14, 6), (9, 5), (5, 4)] rfl rfl (by decide +kernel) ⟨d.isLt, a.isLt, s.isLt, p.isLt, trivial⟩
  refine (congrArg decode e).trans ((to21 (t 26 6 33 (by decide))).trans ?_)
  rw [decode21, t 0 5 4 (by decide)]
  change Except.ok _ = _
  rw [field_of g0, field_of g1, field_of g2, field_of g3]

theorem Encoding.vfnmaVs (d : BitVec 6) (a : BitVec 6) (s : BitVec 5) (p : BitVec 4) : Statement (.vfnmaVs d a s p) := by
  refine ⟨fun _ _ => ?_, fun _ h => (Bool.false_ne_true h).elim⟩
  obtain ⟨W, e, ⟨g0, g1, g2, g3, -⟩, t⟩ := asm_reads 0x84000005 [(d.toNat, 20, 6), (a.toNat, 14, 6), (s.toNat, 9, 5), (p.toNat, 5, 4)] [(d.toNat, 20), (a.toNat, 14), (s.toNat, 9), (p.toNat, 5)] [(20, 6), (14, 6), (9, 5), (5, 4)] rfl rfl (by decide +kernel) ⟨d.isLt, a.isLt, s.isLt, p.isLt, trivial⟩
  refine (congrArg decode e).trans ((to21 (t 26 6 33 (by decide))).trans ?_)
  rw [decode21, t 0 5 5 (by decide)]
  change Except.ok _ = _
  rw [field_of g0, field_of g1, field_of g2, field_of g3]

theorem Encoding.vdivVs (d : BitVec 6) (a : BitVec 6) (s : BitVec 5) (p : BitVec 4) : Statement (.vdivVs d a s p) := by
  refine ⟨fun _ _ => ?_, fun _ h => (Bool.false_ne_true h).elim⟩
  obtain ⟨W, e, ⟨g0, g1, g2, g3, -⟩, t⟩ := asm_reads 0x84000006 [(d.toNat, 20, 6), (a.toNat, 14, 6), (s.toNat, 9, 5), (p.toNat, 5, 4)] [(d.toNat, 20), (a.toNat, 14), (s.toNat, 9), (p.toNat, 5)] [(20, 6), (14, 6), (9, 5), (5, 4)] rfl rfl (by decide +kernel) ⟨d.isLt, a.isLt, s.isLt, p.isLt, trivial⟩
  refine (congrArg decode e).trans ((to21 (t 26 6 33 (by decide))).trans ?_)
  rw [decode21, t 0 5 6 (by decide)]
  change Except.ok _ = _
  rw [field_of g0, field_of g1, field_of g2, field_of g3]

theorem Encoding.vminVs (d : BitVec 6) (a : BitVec 6) (s : BitVec 5) (p : BitVec 4) : Statement (.vminVs d a s p) := by
  refine ⟨fun _ _ => ?_, fun _ h => (Bool.false_ne_true h).elim⟩
  obtain ⟨W, e, ⟨g0, g1, g2, g3, -⟩, t⟩ := asm_reads 0x84000007 [(d.toNat, 20, 6), (a.toNat, 14, 6), (s.toNat, 9, 5), (p.toNat, 5, 4)] [(d.toNat, 20), (a.toNat, 14), (s.toNat, 9), (p.toNat, 5)] [(20, 6), (14, 6), (9, 5), (5, 4)] rfl rfl (by decide +kernel) ⟨d.isLt, a.isLt, s.isLt, p.isLt, trivial⟩
  refine (congrArg decode e).trans ((to21 (t 26 6 33 (by decide))).trans ?_)
  rw [decode21, t 0 5 7 (by decide)]
  change Except.ok _ = _
  rw [field_of g0, field_of g1, field_of g2, field_of g3]

theorem Encoding.vmaxVs (d : BitVec 6) (a : BitVec 6) (s : BitVec 5) (p : BitVec 4) : Statement (.vmaxVs d a s p) := by
  refine ⟨fun _ _ => ?_, fun _ h => (Bool.false_ne_true h).elim⟩
  obtain ⟨W, e, ⟨g0, g1, g2, g3, -⟩, t⟩ := asm_reads 0x84000008 [(d.toNat, 20, 6), (a.toNat, 14, 6), (s.toNat, 9, 5), (p.toNat, 5, 4)] [(d.toNat, 20), (a.toNat, 14), (s.toNat, 9), (p.toNat, 5)] [(20, 6), (14, 6), (9, 5), (5, 4)] rfl rfl (by decide +kernel) ⟨d.isLt, a.isLt, s.isLt, p.isLt, trivial⟩
  refine (congrArg decode e).trans ((to21 (t 26 6 33 (by decide))).trans ?_)
  rw [decode21, t 0 5 8 (by decide)]
  change Except.ok _ = _
  rw [field_of g0, field_of g1, field_of g2, field_of g3]

theorem Encoding.vabsVs (d : BitVec 6) (s : BitVec 5) (p : BitVec 4) : Statement (.vabsVs d s p) := by
  refine ⟨fun _ _ => ?_, fun _ h => (Bool.false_ne_true h).elim⟩
  obtain ⟨W, e, ⟨g0, g1, g2, -⟩, t⟩ := asm_reads 0x84000009 [(d.toNat, 20, 6), (s.toNat, 9, 5), (p.toNat, 5, 4)] [(d.toNat, 20), (s.toNat, 9), (p.toNat, 5)] [(20, 6), (9, 5), (5, 4)] rfl rfl (by decide +kernel) ⟨d.isLt, s.isLt, p.isLt, trivial⟩
  refine (congrArg decode e).trans ((to21 (t 26 6 33 (by decide))).trans ?_)
  rw [decode21, t 0 5 9 (by decide)]
  refine (if_pos (t 14 6 0 (by decide))).trans ?_
  rw [field_of g0, field_of g1, field_of g2]

theorem Encoding.vnegVs (d : BitVec 6) (s : BitVec 5) (p : BitVec 4) : Statement (.vnegVs d s p) := by
  refine ⟨fun _ _ => ?_, fun _ h => (Bool.false_ne_true h).elim⟩
  obtain ⟨W, e, ⟨g0, g1, g2, -⟩, t⟩ := asm_reads 0x8400000A [(d.toNat, 20, 6), (s.toNat, 9, 5), (p.toNat, 5, 4)] [(d.toNat, 20), (s.toNat, 9), (p.toNat, 5)] [(20, 6), (9, 5), (5, 4)] rfl rfl (by decide +kernel) ⟨d.isLt, s.isLt, p.isLt, trivial⟩
  refine (congrArg decode e).trans ((to21 (t 26 6 33 (by decide))).trans ?_)
  rw [decode21, t 0 5 10 (by decide)]
  refine (if_pos (t 14 6 0 (by decide))).trans ?_
  rw [field_of g0, field_of g1, field_of g2]

theorem Encoding.vsaddVs (d : BitVec 6) (a : BitVec 6) (s : BitVec 5) (p : BitVec 4) : Statement (.vsaddVs d a s p) := by
  refine ⟨fun _ _ => ?_, fun _ h => (Bool.false_ne_true h).elim⟩
  obtain ⟨W, e, ⟨g0, g1, g2, g3, -⟩, t⟩ := asm_reads 0x8400000B [(d.toNat, 20, 6), (a.toNat, 14, 6), (s.toNat, 9, 5), (p.toNat, 5, 4)] [(d.toNat, 20), (a.toNat, 14), (s.toNat, 9), (p.toNat, 5)] [(20, 6), (14, 6), (9, 5), (5, 4)] rfl rfl (by decide +kernel) ⟨d.isLt, a.isLt, s.isLt, p.isLt, trivial⟩
  refine (congrArg decode e).trans ((to21 (t 26 6 33 (by decide))).trans ?_)
  rw [decode21, t 0 5 11 (by decide)]
  change Except.ok _ = _
  rw [field_of g0, field_of g1, field_of g2, field_of g3]

theorem Encoding.vssubVs (d : BitVec 6) (a : BitVec 6) (s : BitVec 5) (p : BitVec 4) : Statement (.vssubVs d a s p) := by
  refine ⟨fun _ _ => ?_, fun _ h => (Bool.false_ne_true h).elim⟩
  obtain ⟨W, e, ⟨g0, g1, g2, g3, -⟩, t⟩ := asm_reads 0x8400000C [(d.toNat, 20, 6), (a.toNat, 14, 6), (s.toNat, 9, 5), (p.toNat, 5, 4)] [(d.toNat, 20), (a.toNat, 14), (s.toNat, 9), (p.toNat, 5)] [(20, 6), (14, 6), (9, 5), (5, 4)] rfl rfl (by decide +kernel) ⟨d.isLt, a.isLt, s.isLt, p.isLt, trivial⟩
  refine (congrArg decode e).trans ((to21 (t 26 6 33 (by decide))).trans ?_)
  rw [decode21, t 0 5 12 (by decide)]
  change Except.ok _ = _
  rw [field_of g0, field_of g1, field_of g2, field_of g3]

theorem Encoding.vmulhVs (d : BitVec 6) (a : BitVec 6) (s : BitVec 5) (p : BitVec 4) : Statement (.vmulhVs d a s p) := by
  refine ⟨fun _ _ => ?_, fun _ h => (Bool.false_ne_true h).elim⟩
  obtain ⟨W, e, ⟨g0, g1, g2, g3, -⟩, t⟩ := asm_reads 0x8400000D [(d.toNat, 20, 6), (a.toNat, 14, 6), (s.toNat, 9, 5), (p.toNat, 5, 4)] [(d.toNat, 20), (a.toNat, 14), (s.toNat, 9), (p.toNat, 5)] [(20, 6), (14, 6), (9, 5), (5, 4)] rfl rfl (by decide +kernel) ⟨d.isLt, a.isLt, s.isLt, p.isLt, trivial⟩
  refine (congrArg decode e).trans ((to21 (t 26 6 33 (by decide))).trans ?_)
  rw [decode21, t 0 5 13 (by decide)]
  change Except.ok _ = _
  rw [field_of g0, field_of g1, field_of g2, field_of g3]

theorem Encoding.vavgVs (d : BitVec 6) (a : BitVec 6) (s : BitVec 5) (p : BitVec 4) : Statement (.vavgVs d a s p) := by
  refine ⟨fun _ _ => ?_, fun _ h => (Bool.false_ne_true h).elim⟩
  obtain ⟨W, e, ⟨g0, g1, g2, g3, -⟩, t⟩ := asm_reads 0x8400000E [(d.toNat, 20, 6), (a.toNat, 14, 6), (s.toNat, 9, 5), (p.toNat, 5, 4)] [(d.toNat, 20), (a.toNat, 14), (s.toNat, 9), (p.toNat, 5)] [(20, 6), (14, 6), (9, 5), (5, 4)] rfl rfl (by decide +kernel) ⟨d.isLt, a.isLt, s.isLt, p.isLt, trivial⟩
  refine (congrArg decode e).trans ((to21 (t 26 6 33 (by decide))).trans ?_)
  rw [decode21, t 0 5 14 (by decide)]
  change Except.ok _ = _
  rw [field_of g0, field_of g1, field_of g2, field_of g3]

theorem Encoding.vand (d : BitVec 6) (a : BitVec 6) (b : BitVec 6) (p : BitVec 4) : Statement (.vand d a b p) := by
  refine ⟨fun _ _ => ?_, fun _ h => (Bool.false_ne_true h).elim⟩
  obtain ⟨W, e, ⟨g0, g1, g2, g3, -⟩, t⟩ := asm_reads 0x88000000 [(d.toNat, 20, 6), (a.toNat, 14, 6), (b.toNat, 8, 6), (p.toNat, 4, 4)] [(d.toNat, 20), (a.toNat, 14), (b.toNat, 8), (p.toNat, 4)] [(20, 6), (14, 6), (8, 6), (4, 4)] rfl rfl (by decide +kernel) ⟨d.isLt, a.isLt, b.isLt, p.isLt, trivial⟩
  refine (congrArg decode e).trans ((to22 (t 26 6 34 (by decide))).trans ?_)
  rw [decode22, t 0 4 0 (by decide)]
  change Except.ok _ = _
  rw [field_of g0, field_of g1, field_of g2, field_of g3]

theorem Encoding.vor (d : BitVec 6) (a : BitVec 6) (b : BitVec 6) (p : BitVec 4) : Statement (.vor d a b p) := by
  refine ⟨fun _ _ => ?_, fun _ h => (Bool.false_ne_true h).elim⟩
  obtain ⟨W, e, ⟨g0, g1, g2, g3, -⟩, t⟩ := asm_reads 0x88000001 [(d.toNat, 20, 6), (a.toNat, 14, 6), (b.toNat, 8, 6), (p.toNat, 4, 4)] [(d.toNat, 20), (a.toNat, 14), (b.toNat, 8), (p.toNat, 4)] [(20, 6), (14, 6), (8, 6), (4, 4)] rfl rfl (by decide +kernel) ⟨d.isLt, a.isLt, b.isLt, p.isLt, trivial⟩
  refine (congrArg decode e).trans ((to22 (t 26 6 34 (by decide))).trans ?_)
  rw [decode22, t 0 4 1 (by decide)]
  change Except.ok _ = _
  rw [field_of g0, field_of g1, field_of g2, field_of g3]

theorem Encoding.vxor (d : BitVec 6) (a : BitVec 6) (b : BitVec 6) (p : BitVec 4) : Statement (.vxor d a b p) := by
  refine ⟨fun _ _ => ?_, fun _ h => (Bool.false_ne_true h).elim⟩
  obtain ⟨W, e, ⟨g0, g1, g2, g3, -⟩, t⟩ := asm_reads 0x88000002 [(d.toNat, 20, 6), (a.toNat, 14, 6), (b.toNat, 8, 6), (p.toNat, 4, 4)] [(d.toNat, 20), (a.toNat, 14), (b.toNat, 8), (p.toNat, 4)] [(20, 6), (14, 6), (8, 6), (4, 4)] rfl rfl (by decide +kernel) ⟨d.isLt, a.isLt, b.isLt, p.isLt, trivial⟩
  refine (congrArg decode e).trans ((to22 (t 26 6 34 (by decide))).trans ?_)
  rw [decode22, t 0 4 2 (by decide)]
  change Except.ok _ = _
  rw [field_of g0, field_of g1, field_of g2, field_of g3]

theorem Encoding.vnot (d : BitVec 6) (a : BitVec 6) (p : BitVec 4) : Statement (.vnot d a p) := by
  refine ⟨fun _ _ => ?_, fun _ h => (Bool.false_ne_true h).elim⟩
  obtain ⟨W, e, ⟨g0, g1, g2, -⟩, t⟩ := asm_reads 0x88000003 [(d.toNat, 20, 6), (a.toNat, 14, 6), (p.toNat, 4, 4)] [(d.toNat, 20), (a.toNat, 14), (p.toNat, 4)] [(20, 6), (14, 6), (4, 4)] rfl rfl (by decide +kernel) ⟨d.isLt, a.isLt, p.isLt, trivial⟩
  refine (congrArg decode e).trans ((to22 (t 26 6 34 (by decide))).trans ?_)
  rw [decode22, t 0 4 3 (by decide)]
  refine (if_pos (t 8 6 0 (by decide))).trans ?_
  rw [field_of g0, field_of g1, field_of g2]

theorem Encoding.vshl (d : BitVec 6) (a : BitVec 6) (b : BitVec 6) (p : BitVec 4) : Statement (.vshl d a b p) := by
  refine ⟨fun _ _ => ?_, fun _ h => (Bool.false_ne_true h).elim⟩
  obtain ⟨W, e, ⟨g0, g1, g2, g3, -⟩, t⟩ := asm_reads 0x88000004 [(d.toNat, 20, 6), (a.toNat, 14, 6), (b.toNat, 8, 6), (p.toNat, 4, 4)] [(d.toNat, 20), (a.toNat, 14), (b.toNat, 8), (p.toNat, 4)] [(20, 6), (14, 6), (8, 6), (4, 4)] rfl rfl (by decide +kernel) ⟨d.isLt, a.isLt, b.isLt, p.isLt, trivial⟩
  refine (congrArg decode e).trans ((to22 (t 26 6 34 (by decide))).trans ?_)
  rw [decode22, t 0 4 4 (by decide)]
  change Except.ok _ = _
  rw [field_of g0, field_of g1, field_of g2, field_of g3]

theorem Encoding.vshr (d : BitVec 6) (a : BitVec 6) (b : BitVec 6) (p : BitVec 4) : Statement (.vshr d a b p) := by
  refine ⟨fun _ _ => ?_, fun _ h => (Bool.false_ne_true h).elim⟩
  obtain ⟨W, e, ⟨g0, g1, g2, g3, -⟩, t⟩ := asm_reads 0x88000005 [(d.toNat, 20, 6), (a.toNat, 14, 6), (b.toNat, 8, 6), (p.toNat, 4, 4)] [(d.toNat, 20), (a.toNat, 14), (b.toNat, 8), (p.toNat, 4)] [(20, 6), (14, 6), (8, 6), (4, 4)] rfl rfl (by decide +kernel) ⟨d.isLt, a.isLt, b.isLt, p.isLt, trivial⟩
  refine (congrArg decode e).trans ((to22 (t 26 6 34 (by decide))).trans ?_)
  rw [decode22, t 0 4 5 (by decide)]
  change Except.ok _ = _
  rw [field_of g0, field_of g1, field_of g2, field_of g3]

theorem Encoding.vsha (d : BitVec 6) (a : BitVec 6) (b : BitVec 6) (p : BitVec 4) : Statement (.vsha d a b p) := by
  refine ⟨fun _ _ => ?_, fun _ h => (Bool.false_ne_true h).elim⟩
  obtain ⟨W, e, ⟨g0, g1, g2, g3, -⟩, t⟩ := asm_reads 0x88000006 [(d.toNat, 20, 6), (a.toNat, 14, 6), (b.toNat, 8, 6), (p.toNat, 4, 4)] [(d.toNat, 20), (a.toNat, 14), (b.toNat, 8), (p.toNat, 4)] [(20, 6), (14, 6), (8, 6), (4, 4)] rfl rfl (by decide +kernel) ⟨d.isLt, a.isLt, b.isLt, p.isLt, trivial⟩
  refine (congrArg decode e).trans ((to22 (t 26 6 34 (by decide))).trans ?_)
  rw [decode22, t 0 4 6 (by decide)]
  change Except.ok _ = _
  rw [field_of g0, field_of g1, field_of g2, field_of g3]

theorem Encoding.vclz (d : BitVec 6) (a : BitVec 6) (p : BitVec 4) : Statement (.vclz d a p) := by
  refine ⟨fun _ _ => ?_, fun _ h => (Bool.false_ne_true h).elim⟩
  obtain ⟨W, e, ⟨g0, g1, g2, -⟩, t⟩ := asm_reads 0x88000007 [(d.toNat, 20, 6), (a.toNat, 14, 6), (p.toNat, 4, 4)] [(d.toNat, 20), (a.toNat, 14), (p.toNat, 4)] [(20, 6), (14, 6), (4, 4)] rfl rfl (by decide +kernel) ⟨d.isLt, a.isLt, p.isLt, trivial⟩
  refine (congrArg decode e).trans ((to22 (t 26 6 34 (by decide))).trans ?_)
  rw [decode22, t 0 4 7 (by decide)]
  refine (if_pos (t 8 6 0 (by decide))).trans ?_
  rw [field_of g0, field_of g1, field_of g2]

theorem Encoding.vpopc (d : BitVec 6) (a : BitVec 6) (p : BitVec 4) : Statement (.vpopc d a p) := by
  refine ⟨fun _ _ => ?_, fun _ h => (Bool.false_ne_true h).elim⟩
  obtain ⟨W, e, ⟨g0, g1, g2, -⟩, t⟩ := asm_reads 0x88000008 [(d.toNat, 20, 6), (a.toNat, 14, 6), (p.toNat, 4, 4)] [(d.toNat, 20), (a.toNat, 14), (p.toNat, 4)] [(20, 6), (14, 6), (4, 4)] rfl rfl (by decide +kernel) ⟨d.isLt, a.isLt, p.isLt, trivial⟩
  refine (congrArg decode e).trans ((to22 (t 26 6 34 (by decide))).trans ?_)
  rw [decode22, t 0 4 8 (by decide)]
  refine (if_pos (t 8 6 0 (by decide))).trans ?_
  rw [field_of g0, field_of g1, field_of g2]

theorem Encoding.vceq (q : BitVec 4) (a : BitVec 6) (b : BitVec 6) (p : BitVec 4) : Statement (.vceq q a b p) := by
  refine ⟨fun _ _ => ?_, fun _ h => (Bool.false_ne_true h).elim⟩
  obtain ⟨W, e, ⟨g0, g1, g2, g3, -⟩, t⟩ := asm_reads 0x8C000000 [(q.toNat, 20, 4), (a.toNat, 14, 6), (b.toNat, 8, 6), (p.toNat, 4, 4)] [(q.toNat, 20), (a.toNat, 14), (b.toNat, 8), (p.toNat, 4)] [(20, 4), (14, 6), (8, 6), (4, 4)] rfl rfl (by decide +kernel) ⟨q.isLt, a.isLt, b.isLt, p.isLt, trivial⟩
  refine (congrArg decode e).trans ((to23 (t 26 6 35 (by decide))).trans ?_)
  rw [decode23, t 0 4 0 (by decide)]
  refine (if_pos (t 24 2 0 (by decide))).trans ?_
  rw [field_of g0, field_of g1, field_of g2, field_of g3]

theorem Encoding.vcne (q : BitVec 4) (a : BitVec 6) (b : BitVec 6) (p : BitVec 4) : Statement (.vcne q a b p) := by
  refine ⟨fun _ _ => ?_, fun _ h => (Bool.false_ne_true h).elim⟩
  obtain ⟨W, e, ⟨g0, g1, g2, g3, -⟩, t⟩ := asm_reads 0x8C000001 [(q.toNat, 20, 4), (a.toNat, 14, 6), (b.toNat, 8, 6), (p.toNat, 4, 4)] [(q.toNat, 20), (a.toNat, 14), (b.toNat, 8), (p.toNat, 4)] [(20, 4), (14, 6), (8, 6), (4, 4)] rfl rfl (by decide +kernel) ⟨q.isLt, a.isLt, b.isLt, p.isLt, trivial⟩
  refine (congrArg decode e).trans ((to23 (t 26 6 35 (by decide))).trans ?_)
  rw [decode23, t 0 4 1 (by decide)]
  refine (if_pos (t 24 2 0 (by decide))).trans ?_
  rw [field_of g0, field_of g1, field_of g2, field_of g3]

theorem Encoding.vclt (q : BitVec 4) (a : BitVec 6) (b : BitVec 6) (p : BitVec 4) : Statement (.vclt q a b p) := by
  refine ⟨fun _ _ => ?_, fun _ h => (Bool.false_ne_true h).elim⟩
  obtain ⟨W, e, ⟨g0, g1, g2, g3, -⟩, t⟩ := asm_reads 0x8C000002 [(q.toNat, 20, 4), (a.toNat, 14, 6), (b.toNat, 8, 6), (p.toNat, 4, 4)] [(q.toNat, 20), (a.toNat, 14), (b.toNat, 8), (p.toNat, 4)] [(20, 4), (14, 6), (8, 6), (4, 4)] rfl rfl (by decide +kernel) ⟨q.isLt, a.isLt, b.isLt, p.isLt, trivial⟩
  refine (congrArg decode e).trans ((to23 (t 26 6 35 (by decide))).trans ?_)
  rw [decode23, t 0 4 2 (by decide)]
  refine (if_pos (t 24 2 0 (by decide))).trans ?_
  rw [field_of g0, field_of g1, field_of g2, field_of g3]

theorem Encoding.vcle (q : BitVec 4) (a : BitVec 6) (b : BitVec 6) (p : BitVec 4) : Statement (.vcle q a b p) := by
  refine ⟨fun _ _ => ?_, fun _ h => (Bool.false_ne_true h).elim⟩
  obtain ⟨W, e, ⟨g0, g1, g2, g3, -⟩, t⟩ := asm_reads 0x8C000003 [(q.toNat, 20, 4), (a.toNat, 14, 6), (b.toNat, 8, 6), (p.toNat, 4, 4)] [(q.toNat, 20), (a.toNat, 14), (b.toNat, 8), (p.toNat, 4)] [(20, 4), (14, 6), (8, 6), (4, 4)] rfl rfl (by decide +kernel) ⟨q.isLt, a.isLt, b.isLt, p.isLt, trivial⟩
  refine (congrArg decode e).trans ((to23 (t 26 6 35 (by decide))).trans ?_)
  rw [decode23, t 0 4 3 (by decide)]
  refine (if_pos (t 24 2 0 (by decide))).trans ?_
  rw [field_of g0, field_of g1, field_of g2, field_of g3]

theorem Encoding.vcun (q : BitVec 4) (a : BitVec 6) (b : BitVec 6) (p : BitVec 4) : Statement (.vcun q a b p) := by
  refine ⟨fun _ _ => ?_, fun _ h => (Bool.false_ne_true h).elim⟩
  obtain ⟨W, e, ⟨g0, g1, g2, g3, -⟩, t⟩ := asm_reads 0x8C000004 [(q.toNat, 20, 4), (a.toNat, 14, 6), (b.toNat, 8, 6), (p.toNat, 4, 4)] [(q.toNat, 20), (a.toNat, 14), (b.toNat, 8), (p.toNat, 4)] [(20, 4), (14, 6), (8, 6), (4, 4)] rfl rfl (by decide +kernel) ⟨q.isLt, a.isLt, b.isLt, p.isLt, trivial⟩
  refine (congrArg decode e).trans ((to23 (t 26 6 35 (by decide))).trans ?_)
  rw [decode23, t 0 4 4 (by decide)]
  refine (if_pos (t 24 2 0 (by decide))).trans ?_
  rw [field_of g0, field_of g1, field_of g2, field_of g3]

theorem Encoding.vclass (q : BitVec 4) (a : BitVec 6) (k : BitVec 6) (p : BitVec 4) : Statement (.vclass q a k p) := by
  refine ⟨fun _ _ => ?_, fun _ h => (Bool.false_ne_true h).elim⟩
  obtain ⟨W, e, ⟨g0, g1, g2, g3, -⟩, t⟩ := asm_reads 0x8C000005 [(q.toNat, 20, 4), (a.toNat, 14, 6), (k.toNat, 8, 6), (p.toNat, 4, 4)] [(q.toNat, 20), (a.toNat, 14), (k.toNat, 8), (p.toNat, 4)] [(20, 4), (14, 6), (8, 6), (4, 4)] rfl rfl (by decide +kernel) ⟨q.isLt, a.isLt, k.isLt, p.isLt, trivial⟩
  refine (congrArg decode e).trans ((to23 (t 26 6 35 (by decide))).trans ?_)
  rw [decode23, t 0 4 5 (by decide)]
  refine (if_pos (t 24 2 0 (by decide))).trans ?_
  rw [field_of g0, field_of g1, field_of g2, field_of g3]

theorem Encoding.vsqrt (d : BitVec 6) (a : BitVec 6) (p : BitVec 4) : Statement (.vsqrt d a p) := by
  refine ⟨fun _ _ => ?_, fun _ h => (Bool.false_ne_true h).elim⟩
  obtain ⟨W, e, ⟨g0, g1, g2, -⟩, t⟩ := asm_reads 0x90000000 [(d.toNat, 20, 6), (a.toNat, 14, 6), (p.toNat, 4, 4)] [(d.toNat, 20), (a.toNat, 14), (p.toNat, 4)] [(20, 6), (14, 6), (4, 4)] rfl rfl (by decide +kernel) ⟨d.isLt, a.isLt, p.isLt, trivial⟩
  refine (congrArg decode e).trans ((to24 (t 26 6 36 (by decide))).trans ?_)
  rw [decode24, t 0 4 0 (by decide)]
  refine (if_pos (t 8 6 0 (by decide))).trans ?_
  rw [field_of g0, field_of g1, field_of g2]

theorem Encoding.vrcp (d : BitVec 6) (a : BitVec 6) (p : BitVec 4) : Statement (.vrcp d a p) := by
  refine ⟨fun _ _ => ?_, fun _ h => (Bool.false_ne_true h).elim⟩
  obtain ⟨W, e, ⟨g0, g1, g2, -⟩, t⟩ := asm_reads 0x90000001 [(d.toNat, 20, 6), (a.toNat, 14, 6), (p.toNat, 4, 4)] [(d.toNat, 20), (a.toNat, 14), (p.toNat, 4)] [(20, 6), (14, 6), (4, 4)] rfl rfl (by decide +kernel) ⟨d.isLt, a.isLt, p.isLt, trivial⟩
  refine (congrArg decode e).trans ((to24 (t 26 6 36 (by decide))).trans ?_)
  rw [decode24, t 0 4 1 (by decide)]
  refine (if_pos (t 8 6 0 (by decide))).trans ?_
  rw [field_of g0, field_of g1, field_of g2]

theorem Encoding.vrsq (d : BitVec 6) (a : BitVec 6) (p : BitVec 4) : Statement (.vrsq d a p) := by
  refine ⟨fun _ _ => ?_, fun _ h => (Bool.false_ne_true h).elim⟩
  obtain ⟨W, e, ⟨g0, g1, g2, -⟩, t⟩ := asm_reads 0x90000002 [(d.toNat, 20, 6), (a.toNat, 14, 6), (p.toNat, 4, 4)] [(d.toNat, 20), (a.toNat, 14), (p.toNat, 4)] [(20, 6), (14, 6), (4, 4)] rfl rfl (by decide +kernel) ⟨d.isLt, a.isLt, p.isLt, trivial⟩
  refine (congrArg decode e).trans ((to24 (t 26 6 36 (by decide))).trans ?_)
  rw [decode24, t 0 4 2 (by decide)]
  refine (if_pos (t 8 6 0 (by decide))).trans ?_
  rw [field_of g0, field_of g1, field_of g2]

theorem Encoding.vexp2f (d : BitVec 6) (a : BitVec 6) (p : BitVec 4) : Statement (.vexp2f d a p) := by
  refine ⟨fun _ _ => ?_, fun _ h => (Bool.false_ne_true h).elim⟩
  obtain ⟨W, e, ⟨g0, g1, g2, -⟩, t⟩ := asm_reads 0x90000003 [(d.toNat, 20, 6), (a.toNat, 14, 6), (p.toNat, 4, 4)] [(d.toNat, 20), (a.toNat, 14), (p.toNat, 4)] [(20, 6), (14, 6), (4, 4)] rfl rfl (by decide +kernel) ⟨d.isLt, a.isLt, p.isLt, trivial⟩
  refine (congrArg decode e).trans ((to24 (t 26 6 36 (by decide))).trans ?_)
  rw [decode24, t 0 4 3 (by decide)]
  refine (if_pos (t 8 6 0 (by decide))).trans ?_
  rw [field_of g0, field_of g1, field_of g2]

theorem Encoding.vlog2f (d : BitVec 6) (a : BitVec 6) (p : BitVec 4) : Statement (.vlog2f d a p) := by
  refine ⟨fun _ _ => ?_, fun _ h => (Bool.false_ne_true h).elim⟩
  obtain ⟨W, e, ⟨g0, g1, g2, -⟩, t⟩ := asm_reads 0x90000004 [(d.toNat, 20, 6), (a.toNat, 14, 6), (p.toNat, 4, 4)] [(d.toNat, 20), (a.toNat, 14), (p.toNat, 4)] [(20, 6), (14, 6), (4, 4)] rfl rfl (by decide +kernel) ⟨d.isLt, a.isLt, p.isLt, trivial⟩
  refine (congrArg decode e).trans ((to24 (t 26 6 36 (by decide))).trans ?_)
  rw [decode24, t 0 4 4 (by decide)]
  refine (if_pos (t 8 6 0 (by decide))).trans ?_
  rw [field_of g0, field_of g1, field_of g2]

theorem Encoding.vrndi (d : BitVec 6) (a : BitVec 6) (p : BitVec 4) : Statement (.vrndi d a p) := by
  refine ⟨fun _ _ => ?_, fun _ h => (Bool.false_ne_true h).elim⟩
  obtain ⟨W, e, ⟨g0, g1, g2, -⟩, t⟩ := asm_reads 0x90000005 [(d.toNat, 20, 6), (a.toNat, 14, 6), (p.toNat, 4, 4)] [(d.toNat, 20), (a.toNat, 14), (p.toNat, 4)] [(20, 6), (14, 6), (4, 4)] rfl rfl (by decide +kernel) ⟨d.isLt, a.isLt, p.isLt, trivial⟩
  refine (congrArg decode e).trans ((to24 (t 26 6 36 (by decide))).trans ?_)
  rw [decode24, t 0 4 5 (by decide)]
  refine (if_pos (t 8 6 0 (by decide))).trans ?_
  rw [field_of g0, field_of g1, field_of g2]

theorem Encoding.vgetexp (d : BitVec 6) (a : BitVec 6) (p : BitVec 4) : Statement (.vgetexp d a p) := by
  refine ⟨fun _ _ => ?_, fun _ h => (Bool.false_ne_true h).elim⟩
  obtain ⟨W, e, ⟨g0, g1, g2, -⟩, t⟩ := asm_reads 0x90000006 [(d.toNat, 20, 6), (a.toNat, 14, 6), (p.toNat, 4, 4)] [(d.toNat, 20), (a.toNat, 14), (p.toNat, 4)] [(20, 6), (14, 6), (4, 4)] rfl rfl (by decide +kernel) ⟨d.isLt, a.isLt, p.isLt, trivial⟩
  refine (congrArg decode e).trans ((to24 (t 26 6 36 (by decide))).trans ?_)
  rw [decode24, t 0 4 6 (by decide)]
  refine (if_pos (t 8 6 0 (by decide))).trans ?_
  rw [field_of g0, field_of g1, field_of g2]

theorem Encoding.vcvt (d : BitVec 6) (a : BitVec 6) (t : BitVec 4) (p : BitVec 4) : Statement (.vcvt d a t p) := by
  refine ⟨fun _ _ => ?_, fun _ h => (Bool.false_ne_true h).elim⟩
  obtain ⟨W, e, ⟨g0, g1, g2, g3, -⟩, t⟩ := asm_reads 0x90000007 [(d.toNat, 20, 6), (a.toNat, 14, 6), (t.toNat, 8, 4), (p.toNat, 4, 4)] [(d.toNat, 20), (a.toNat, 14), (t.toNat, 8), (p.toNat, 4)] [(20, 6), (14, 6), (8, 4), (4, 4)] rfl rfl (by decide +kernel) ⟨d.isLt, a.isLt, t.isLt, p.isLt, trivial⟩
  refine (congrArg decode e).trans ((to24 (t 26 6 36 (by decide))).trans ?_)
  rw [decode24, t 0 4 7 (by decide)]
  refine (if_pos (t 12 2 0 (by decide))).trans ?_
  rw [field_of g0, field_of g1, field_of g2, field_of g3]

theorem Encoding.vmov (d : BitVec 6) (a : BitVec 6) (p : BitVec 4) : Statement (.vmov d a p) := by
  refine ⟨fun _ _ => ?_, fun _ h => (Bool.false_ne_true h).elim⟩
  obtain ⟨W, e, ⟨g0, g1, g2, -⟩, t⟩ := asm_reads 0x90000008 [(d.toNat, 20, 6), (a.toNat, 14, 6), (p.toNat, 4, 4)] [(d.toNat, 20), (a.toNat, 14), (p.toNat, 4)] [(20, 6), (14, 6), (4, 4)] rfl rfl (by decide +kernel) ⟨d.isLt, a.isLt, p.isLt, trivial⟩
  refine (congrArg decode e).trans ((to24 (t 26 6 36 (by decide))).trans ?_)
  rw [decode24, t 0 4 8 (by decide)]
  refine (if_pos (t 8 6 0 (by decide))).trans ?_
  rw [field_of g0, field_of g1, field_of g2]

theorem Encoding.vsel (d : BitVec 6) (a : BitVec 6) (b : BitVec 6) (p : BitVec 4) : Statement (.vsel d a b p) := by
  refine ⟨fun _ _ => ?_, fun _ h => (Bool.false_ne_true h).elim⟩
  obtain ⟨W, e, ⟨g0, g1, g2, g3, -⟩, t⟩ := asm_reads 0x90000009 [(d.toNat, 20, 6), (a.toNat, 14, 6), (b.toNat, 8, 6), (p.toNat, 4, 4)] [(d.toNat, 20), (a.toNat, 14), (b.toNat, 8), (p.toNat, 4)] [(20, 6), (14, 6), (8, 6), (4, 4)] rfl rfl (by decide +kernel) ⟨d.isLt, a.isLt, b.isLt, p.isLt, trivial⟩
  refine (congrArg decode e).trans ((to24 (t 26 6 36 (by decide))).trans ?_)
  rw [decode24, t 0 4 9 (by decide)]
  change Except.ok _ = _
  rw [field_of g0, field_of g1, field_of g2, field_of g3]

theorem Encoding.vscale (d : BitVec 6) (a : BitVec 6) (b : BitVec 6) (p : BitVec 4) : Statement (.vscale d a b p) := by
  refine ⟨fun _ _ => ?_, fun _ h => (Bool.false_ne_true h).elim⟩
  obtain ⟨W, e, ⟨g0, g1, g2, g3, -⟩, t⟩ := asm_reads 0x9000000A [(d.toNat, 20, 6), (a.toNat, 14, 6), (b.toNat, 8, 6), (p.toNat, 4, 4)] [(d.toNat, 20), (a.toNat, 14), (b.toNat, 8), (p.toNat, 4)] [(20, 6), (14, 6), (8, 6), (4, 4)] rfl rfl (by decide +kernel) ⟨d.isLt, a.isLt, b.isLt, p.isLt, trivial⟩
  refine (congrArg decode e).trans ((to24 (t 26 6 36 (by decide))).trans ?_)
  rw [decode24, t 0 4 10 (by decide)]
  change Except.ok _ = _
  rw [field_of g0, field_of g1, field_of g2, field_of g3]

theorem Encoding.vslideup (d : BitVec 6) (a : BitVec 6) (s : BitVec 5) (p : BitVec 4) : Statement (.vslideup d a s p) := by
  refine ⟨fun _ _ => ?_, fun _ h => (Bool.false_ne_true h).elim⟩
  obtain ⟨W, e, ⟨g0, g1, g2, g3, -⟩, t⟩ := asm_reads 0x94000000 [(d.toNat, 20, 6), (a.toNat, 14, 6), (s.toNat, 9, 5), (p.toNat, 5, 4)] [(d.toNat, 20), (a.toNat, 14), (s.toNat, 9), (p.toNat, 5)] [(20, 6), (14, 6), (9, 5), (5, 4)] rfl rfl (by decide +kernel) ⟨d.isLt, a.isLt, s.isLt, p.isLt, trivial⟩
  refine (congrArg decode e).trans ((to25 (t 26 6 37 (by decide))).trans ?_)
  rw [decode25, t 0 5 0 (by decide)]
  change Except.ok _ = _
  rw [field_of g0, field_of g1, field_of g2, field_of g3]

theorem Encoding.vslidedn (d : BitVec 6) (a : BitVec 6) (s : BitVec 5) (p : BitVec 4) : Statement (.vslidedn d a s p) := by
  refine ⟨fun _ _ => ?_, fun _ h => (Bool.false_ne_true h).elim⟩
  obtain ⟨W, e, ⟨g0, g1, g2, g3, -⟩, t⟩ := asm_reads 0x94000001 [(d.toNat, 20, 6), (a.toNat, 14, 6), (s.toNat, 9, 5), (p.toNat, 5, 4)] [(d.toNat, 20), (a.toNat, 14), (s.toNat, 9), (p.toNat, 5)] [(20, 6), (14, 6), (9, 5), (5, 4)] rfl rfl (by decide +kernel) ⟨d.isLt, a.isLt, s.isLt, p.isLt, trivial⟩
  refine (congrArg decode e).trans ((to25 (t 26 6 37 (by decide))).trans ?_)
  rw [decode25, t 0 5 1 (by decide)]
  change Except.ok _ = _
  rw [field_of g0, field_of g1, field_of g2, field_of g3]

theorem Encoding.vbfly (d : BitVec 6) (a : BitVec 6) (s : BitVec 5) (p : BitVec 4) : Statement (.vbfly d a s p) := by
  refine ⟨fun _ _ => ?_, fun _ h => (Bool.false_ne_true h).elim⟩
  obtain ⟨W, e, ⟨g0, g1, g2, g3, -⟩, t⟩ := asm_reads 0x94000002 [(d.toNat, 20, 6), (a.toNat, 14, 6), (s.toNat, 9, 5), (p.toNat, 5, 4)] [(d.toNat, 20), (a.toNat, 14), (s.toNat, 9), (p.toNat, 5)] [(20, 6), (14, 6), (9, 5), (5, 4)] rfl rfl (by decide +kernel) ⟨d.isLt, a.isLt, s.isLt, p.isLt, trivial⟩
  refine (congrArg decode e).trans ((to25 (t 26 6 37 (by decide))).trans ?_)
  rw [decode25, t 0 5 2 (by decide)]
  change Except.ok _ = _
  rw [field_of g0, field_of g1, field_of g2, field_of g3]

theorem Encoding.vid (d : BitVec 6) (p : BitVec 4) : Statement (.vid d p) := by
  refine ⟨fun _ _ => ?_, fun _ h => (Bool.false_ne_true h).elim⟩
  obtain ⟨W, e, ⟨g0, g1, -⟩, t⟩ := asm_reads 0x94000003 [(d.toNat, 20, 6), (p.toNat, 5, 4)] [(d.toNat, 20), (p.toNat, 5)] [(20, 6), (5, 4)] rfl rfl (by decide +kernel) ⟨d.isLt, p.isLt, trivial⟩
  refine (congrArg decode e).trans ((to25 (t 26 6 37 (by decide))).trans ?_)
  rw [decode25, t 0 5 3 (by decide)]
  refine (if_pos (t 9 11 0 (by decide))).trans ?_
  rw [field_of g0, field_of g1]

theorem Encoding.vbcast (d : BitVec 6) (s : BitVec 5) (p : BitVec 4) : Statement (.vbcast d s p) := by
  refine ⟨fun _ _ => ?_, fun _ h => (Bool.false_ne_true h).elim⟩
  obtain ⟨W, e, ⟨g0, g1, g2, -⟩, t⟩ := asm_reads 0x94000004 [(d.toNat, 20, 6), (s.toNat, 9, 5), (p.toNat, 5, 4)] [(d.toNat, 20), (s.toNat, 9), (p.toNat, 5)] [(20, 6), (9, 5), (5, 4)] rfl rfl (by decide +kernel) ⟨d.isLt, s.isLt, p.isLt, trivial⟩
  refine (congrArg decode e).trans ((to25 (t 26 6 37 (by decide))).trans ?_)
  rw [decode25, t 0 5 4 (by decide)]
  refine (if_pos (t 14 6 0 (by decide))).trans ?_
  rw [field_of g0, field_of g1, field_of g2]

theorem Encoding.vbflyC (d : BitVec 6) (a : BitVec 6) (s : BitVec 5) (p : BitVec 4) : Statement (.vbflyC d a s p) := by
  refine ⟨fun _ _ => ?_, fun _ h => (Bool.false_ne_true h).elim⟩
  obtain ⟨W, e, ⟨g0, g1, g2, g3, -⟩, t⟩ := asm_reads 0x94000005 [(d.toNat, 20, 6), (a.toNat, 14, 6), (s.toNat, 9, 5), (p.toNat, 5, 4)] [(d.toNat, 20), (a.toNat, 14), (s.toNat, 9), (p.toNat, 5)] [(20, 6), (14, 6), (9, 5), (5, 4)] rfl rfl (by decide +kernel) ⟨d.isLt, a.isLt, s.isLt, p.isLt, trivial⟩
  refine (congrArg decode e).trans ((to25 (t 26 6 37 (by decide))).trans ?_)
  rw [decode25, t 0 5 5 (by decide)]
  change Except.ok _ = _
  rw [field_of g0, field_of g1, field_of g2, field_of g3]

theorem Encoding.vxg (d : BitVec 6) (a : BitVec 6) (b : BitVec 6) (p : BitVec 4) : Statement (.vxg d a b p) := by
  refine ⟨fun _ _ => ?_, fun _ h => (Bool.false_ne_true h).elim⟩
  obtain ⟨W, e, ⟨g0, g1, g2, g3, -⟩, t⟩ := asm_reads 0x98000000 [(d.toNat, 20, 6), (a.toNat, 14, 6), (b.toNat, 8, 6), (p.toNat, 4, 4)] [(d.toNat, 20), (a.toNat, 14), (b.toNat, 8), (p.toNat, 4)] [(20, 6), (14, 6), (8, 6), (4, 4)] rfl rfl (by decide +kernel) ⟨d.isLt, a.isLt, b.isLt, p.isLt, trivial⟩
  refine (congrArg decode e).trans ((to26 (t 26 6 38 (by decide))).trans ?_)
  rw [decode26, t 0 4 0 (by decide)]
  change Except.ok _ = _
  rw [field_of g0, field_of g1, field_of g2, field_of g3]

theorem Encoding.vcomp (d : BitVec 6) (a : BitVec 6) (p : BitVec 4) : Statement (.vcomp d a p) := by
  refine ⟨fun _ _ => ?_, fun _ h => (Bool.false_ne_true h).elim⟩
  obtain ⟨W, e, ⟨g0, g1, g2, -⟩, t⟩ := asm_reads 0x98000001 [(d.toNat, 20, 6), (a.toNat, 14, 6), (p.toNat, 4, 4)] [(d.toNat, 20), (a.toNat, 14), (p.toNat, 4)] [(20, 6), (14, 6), (4, 4)] rfl rfl (by decide +kernel) ⟨d.isLt, a.isLt, p.isLt, trivial⟩
  refine (congrArg decode e).trans ((to26 (t 26 6 38 (by decide))).trans ?_)
  rw [decode26, t 0 4 1 (by decide)]
  refine (if_pos (t 8 6 0 (by decide))).trans ?_
  rw [field_of g0, field_of g1, field_of g2]

theorem Encoding.vexpd (d : BitVec 6) (a : BitVec 6) (p : BitVec 4) : Statement (.vexpd d a p) := by
  refine ⟨fun _ _ => ?_, fun _ h => (Bool.false_ne_true h).elim⟩
  obtain ⟨W, e, ⟨g0, g1, g2, -⟩, t⟩ := asm_reads 0x98000002 [(d.toNat, 20, 6), (a.toNat, 14, 6), (p.toNat, 4, 4)] [(d.toNat, 20), (a.toNat, 14), (p.toNat, 4)] [(20, 6), (14, 6), (4, 4)] rfl rfl (by decide +kernel) ⟨d.isLt, a.isLt, p.isLt, trivial⟩
  refine (congrArg decode e).trans ((to26 (t 26 6 38 (by decide))).trans ?_)
  rw [decode26, t 0 4 2 (by decide)]
  refine (if_pos (t 8 6 0 (by decide))).trans ?_
  rw [field_of g0, field_of g1, field_of g2]

theorem Encoding.vredsum (d : BitVec 6) (a : BitVec 6) (b : BitVec 3) (p : BitVec 4) : Statement (.vredsum d a b p) := by
  refine ⟨fun _ _ => ?_, fun _ h => (Bool.false_ne_true h).elim⟩
  obtain ⟨W, e, ⟨g0, g1, g2, g3, -⟩, t⟩ := asm_reads 0x9C000000 [(d.toNat, 20, 6), (a.toNat, 14, 6), (b.toNat, 11, 3), (p.toNat, 4, 4)] [(d.toNat, 20), (a.toNat, 14), (b.toNat, 11), (p.toNat, 4)] [(20, 6), (14, 6), (11, 3), (4, 4)] rfl rfl (by decide +kernel) ⟨d.isLt, a.isLt, b.isLt, p.isLt, trivial⟩
  refine (congrArg decode e).trans ((to27 (t 26 6 39 (by decide))).trans ?_)
  rw [decode27, t 0 4 0 (by decide)]
  refine (if_pos (t 8 3 0 (by decide))).trans ?_
  rw [field_of g0, field_of g1, field_of g2, field_of g3]

theorem Encoding.vredmax (d : BitVec 6) (a : BitVec 6) (b : BitVec 3) (p : BitVec 4) : Statement (.vredmax d a b p) := by
  refine ⟨fun _ _ => ?_, fun _ h => (Bool.false_ne_true h).elim⟩
  obtain ⟨W, e, ⟨g0, g1, g2, g3, -⟩, t⟩ := asm_reads 0x9C000001 [(d.toNat, 20, 6), (a.toNat, 14, 6), (b.toNat, 11, 3), (p.toNat, 4, 4)] [(d.toNat, 20), (a.toNat, 14), (b.toNat, 11), (p.toNat, 4)] [(20, 6), (14, 6), (11, 3), (4, 4)] rfl rfl (by decide +kernel) ⟨d.isLt, a.isLt, b.isLt, p.isLt, trivial⟩
  refine (congrArg decode e).trans ((to27 (t 26 6 39 (by decide))).trans ?_)
  rw [decode27, t 0 4 1 (by decide)]
  refine (if_pos (t 8 3 0 (by decide))).trans ?_
  rw [field_of g0, field_of g1, field_of g2, field_of g3]

theorem Encoding.vredmin (d : BitVec 6) (a : BitVec 6) (b : BitVec 3) (p : BitVec 4) : Statement (.vredmin d a b p) := by
  refine ⟨fun _ _ => ?_, fun _ h => (Bool.false_ne_true h).elim⟩
  obtain ⟨W, e, ⟨g0, g1, g2, g3, -⟩, t⟩ := asm_reads 0x9C000002 [(d.toNat, 20, 6), (a.toNat, 14, 6), (b.toNat, 11, 3), (p.toNat, 4, 4)] [(d.toNat, 20), (a.toNat, 14), (b.toNat, 11), (p.toNat, 4)] [(20, 6), (14, 6), (11, 3), (4, 4)] rfl rfl (by decide +kernel) ⟨d.isLt, a.isLt, b.isLt, p.isLt, trivial⟩
  refine (congrArg decode e).trans ((to27 (t 26 6 39 (by decide))).trans ?_)
  rw [decode27, t 0 4 2 (by decide)]
  refine (if_pos (t 8 3 0 (by decide))).trans ?_
  rw [field_of g0, field_of g1, field_of g2, field_of g3]

theorem Encoding.vredand (d : BitVec 6) (a : BitVec 6) (b : BitVec 3) (p : BitVec 4) : Statement (.vredand d a b p) := by
  refine ⟨fun _ _ => ?_, fun _ h => (Bool.false_ne_true h).elim⟩
  obtain ⟨W, e, ⟨g0, g1, g2, g3, -⟩, t⟩ := asm_reads 0x9C000003 [(d.toNat, 20, 6), (a.toNat, 14, 6), (b.toNat, 11, 3), (p.toNat, 4, 4)] [(d.toNat, 20), (a.toNat, 14), (b.toNat, 11), (p.toNat, 4)] [(20, 6), (14, 6), (11, 3), (4, 4)] rfl rfl (by decide +kernel) ⟨d.isLt, a.isLt, b.isLt, p.isLt, trivial⟩
  refine (congrArg decode e).trans ((to27 (t 26 6 39 (by decide))).trans ?_)
  rw [decode27, t 0 4 3 (by decide)]
  refine (if_pos (t 8 3 0 (by decide))).trans ?_
  rw [field_of g0, field_of g1, field_of g2, field_of g3]

theorem Encoding.vredor (d : BitVec 6) (a : BitVec 6) (b : BitVec 3) (p : BitVec 4) : Statement (.vredor d a b p) := by
  refine ⟨fun _ _ => ?_, fun _ h => (Bool.false_ne_true h).elim⟩
  obtain ⟨W, e, ⟨g0, g1, g2, g3, -⟩, t⟩ := asm_reads 0x9C000004 [(d.toNat, 20, 6), (a.toNat, 14, 6), (b.toNat, 11, 3), (p.toNat, 4, 4)] [(d.toNat, 20), (a.toNat, 14), (b.toNat, 11), (p.toNat, 4)] [(20, 6), (14, 6), (11, 3), (4, 4)] rfl rfl (by decide +kernel) ⟨d.isLt, a.isLt, b.isLt, p.isLt, trivial⟩
  refine (congrArg decode e).trans ((to27 (t 26 6 39 (by decide))).trans ?_)
  rw [decode27, t 0 4 4 (by decide)]
  refine (if_pos (t 8 3 0 (by decide))).trans ?_
  rw [field_of g0, field_of g1, field_of g2, field_of g3]

theorem Encoding.vredxor (d : BitVec 6) (a : BitVec 6) (b : BitVec 3) (p : BitVec 4) : Statement (.vredxor d a b p) := by
  refine ⟨fun _ _ => ?_, fun _ h => (Bool.false_ne_true h).elim⟩
  obtain ⟨W, e, ⟨g0, g1, g2, g3, -⟩, t⟩ := asm_reads 0x9C000005 [(d.toNat, 20, 6), (a.toNat, 14, 6), (b.toNat, 11, 3), (p.toNat, 4, 4)] [(d.toNat, 20), (a.toNat, 14), (b.toNat, 11), (p.toNat, 4)] [(20, 6), (14, 6), (11, 3), (4, 4)] rfl rfl (by decide +kernel) ⟨d.isLt, a.isLt, b.isLt, p.isLt, trivial⟩
  refine (congrArg decode e).trans ((to27 (t 26 6 39 (by decide))).trans ?_)
  rw [decode27, t 0 4 5 (by decide)]
  refine (if_pos (t 8 3 0 (by decide))).trans ?_
  rw [field_of g0, field_of g1, field_of g2, field_of g3]

theorem Encoding.vtree (y : BitVec 2) (a : BitVec 6) (p : BitVec 4) : Statement (.vtree y a p) := by
  refine ⟨fun _ _ => ?_, fun _ h => (Bool.false_ne_true h).elim⟩
  obtain ⟨W, e, ⟨g0, g1, g2, -⟩, t⟩ := asm_reads 0x9C000006 [(y.toNat, 20, 2), (a.toNat, 14, 6), (p.toNat, 4, 4)] [(y.toNat, 20), (a.toNat, 14), (p.toNat, 4)] [(20, 2), (14, 6), (4, 4)] rfl rfl (by decide +kernel) ⟨y.isLt, a.isLt, p.isLt, trivial⟩
  refine (congrArg decode e).trans ((to27 (t 26 6 39 (by decide))).trans ?_)
  rw [decode27, t 0 4 6 (by decide)]
  refine (if_pos ⟨t 22 4 0 (by decide), t 8 6 0 (by decide)⟩).trans ?_
  rw [field_of g0, field_of g1, field_of g2]

theorem Encoding.tmerge (y : BitVec 2) (a : BitVec 6) : Statement (.tmerge y a) := by
  refine ⟨fun _ _ => ?_, fun _ h => (Bool.false_ne_true h).elim⟩
  obtain ⟨W, e, ⟨g0, g1, -⟩, t⟩ := asm_reads 0x9C000007 [(y.toNat, 20, 2), (a.toNat, 14, 6)] [(y.toNat, 20), (a.toNat, 14)] [(20, 2), (14, 6)] rfl rfl (by decide +kernel) ⟨y.isLt, a.isLt, trivial⟩
  refine (congrArg decode e).trans ((to27 (t 26 6 39 (by decide))).trans ?_)
  rw [decode27, t 0 4 7 (by decide)]
  refine (if_pos ⟨t 22 4 0 (by decide), t 4 10 0 (by decide)⟩).trans ?_
  rw [field_of g0, field_of g1]

theorem Encoding.tread (d : BitVec 6) (y : BitVec 2) (i : BitVec 1) : Statement (.tread d y i) := by
  refine ⟨fun _ _ => ?_, fun _ h => (Bool.false_ne_true h).elim⟩
  obtain ⟨W, e, ⟨g0, g1, g2, -⟩, t⟩ := asm_reads 0x9C000008 [(d.toNat, 20, 6), (y.toNat, 14, 2), (i.toNat, 8, 1)] [(d.toNat, 20), (y.toNat, 14), (i.toNat, 8)] [(20, 6), (14, 2), (8, 1)] rfl rfl (by decide +kernel) ⟨d.isLt, y.isLt, i.isLt, trivial⟩
  refine (congrArg decode e).trans ((to27 (t 26 6 39 (by decide))).trans ?_)
  rw [decode27, t 0 4 8 (by decide)]
  refine (if_pos ⟨t 16 4 0 (by decide), t 9 5 0 (by decide), t 4 4 0 (by decide)⟩).trans ?_
  rw [field_of g0, field_of g1, field_of g2]

theorem Encoding.tclear (y : BitVec 2) (s : BitVec 5) : Statement (.tclear y s) := by
  refine ⟨fun _ _ => ?_, fun _ h => (Bool.false_ne_true h).elim⟩
  obtain ⟨W, e, ⟨g0, g1, -⟩, t⟩ := asm_reads 0x9C000009 [(y.toNat, 20, 2), (s.toNat, 8, 5)] [(y.toNat, 20), (s.toNat, 8)] [(20, 2), (8, 5)] rfl rfl (by decide +kernel) ⟨y.isLt, s.isLt, trivial⟩
  refine (congrArg decode e).trans ((to27 (t 26 6 39 (by decide))).trans ?_)
  rw [decode27, t 0 4 9 (by decide)]
  refine (if_pos ⟨t 22 4 0 (by decide), t 13 7 0 (by decide), t 4 4 0 (by decide)⟩).trans ?_
  rw [field_of g0, field_of g1]

theorem Encoding.vscan (d : BitVec 6) (a : BitVec 6) (o : BitVec 1) (i : BitVec 1) (p : BitVec 4) : Statement (.vscan d a o i p) := by
  refine ⟨fun _ _ => ?_, fun _ h => (Bool.false_ne_true h).elim⟩
  obtain ⟨W, e, ⟨g0, g1, g2, g3, g4, -⟩, t⟩ := asm_reads 0xA0000000 [(d.toNat, 20, 6), (a.toNat, 14, 6), (o.toNat, 9, 1), (i.toNat, 8, 1), (p.toNat, 4, 4)] [(d.toNat, 20), (a.toNat, 14), (o.toNat, 9), (i.toNat, 8), (p.toNat, 4)] [(20, 6), (14, 6), (9, 1), (8, 1), (4, 4)] rfl rfl (by decide +kernel) ⟨d.isLt, a.isLt, o.isLt, i.isLt, p.isLt, trivial⟩
  refine (congrArg decode e).trans ((to28 (t 26 6 40 (by decide))).trans ?_)
  rw [decode28, t 0 4 0 (by decide)]
  refine (if_pos (t 10 4 0 (by decide))).trans ?_
  rw [field_of g0, field_of g1, field_of g2, field_of g3, field_of g4]

theorem Encoding.vscana (d : BitVec 6) (a : BitVec 6) (o : BitVec 1) (i : BitVec 1) (p : BitVec 4) : Statement (.vscana d a o i p) := by
  refine ⟨fun _ _ => ?_, fun _ h => (Bool.false_ne_true h).elim⟩
  obtain ⟨W, e, ⟨g0, g1, g2, g3, g4, -⟩, t⟩ := asm_reads 0xA0000001 [(d.toNat, 20, 6), (a.toNat, 14, 6), (o.toNat, 9, 1), (i.toNat, 8, 1), (p.toNat, 4, 4)] [(d.toNat, 20), (a.toNat, 14), (o.toNat, 9), (i.toNat, 8), (p.toNat, 4)] [(20, 6), (14, 6), (9, 1), (8, 1), (4, 4)] rfl rfl (by decide +kernel) ⟨d.isLt, a.isLt, o.isLt, i.isLt, p.isLt, trivial⟩
  refine (congrArg decode e).trans ((to28 (t 26 6 40 (by decide))).trans ?_)
  rw [decode28, t 0 4 1 (by decide)]
  refine (if_pos (t 10 4 0 (by decide))).trans ?_
  rw [field_of g0, field_of g1, field_of g2, field_of g3, field_of g4]

theorem Encoding.vscanmax (d : BitVec 6) (a : BitVec 6) (o : BitVec 1) (i : BitVec 1) (p : BitVec 4) : Statement (.vscanmax d a o i p) := by
  refine ⟨fun _ _ => ?_, fun _ h => (Bool.false_ne_true h).elim⟩
  obtain ⟨W, e, ⟨g0, g1, g2, g3, g4, -⟩, t⟩ := asm_reads 0xA0000002 [(d.toNat, 20, 6), (a.toNat, 14, 6), (o.toNat, 9, 1), (i.toNat, 8, 1), (p.toNat, 4, 4)] [(d.toNat, 20), (a.toNat, 14), (o.toNat, 9), (i.toNat, 8), (p.toNat, 4)] [(20, 6), (14, 6), (9, 1), (8, 1), (4, 4)] rfl rfl (by decide +kernel) ⟨d.isLt, a.isLt, o.isLt, i.isLt, p.isLt, trivial⟩
  refine (congrArg decode e).trans ((to28 (t 26 6 40 (by decide))).trans ?_)
  rw [decode28, t 0 4 2 (by decide)]
  refine (if_pos (t 10 4 0 (by decide))).trans ?_
  rw [field_of g0, field_of g1, field_of g2, field_of g3, field_of g4]

theorem Encoding.pand (d : BitVec 4) (a : BitVec 4) (b : BitVec 4) : Statement (.pand d a b) := by
  refine ⟨fun _ _ => ?_, fun _ h => (Bool.false_ne_true h).elim⟩
  obtain ⟨W, e, ⟨g0, g1, g2, -⟩, t⟩ := asm_reads 0xA4000000 [(d.toNat, 22, 4), (a.toNat, 18, 4), (b.toNat, 14, 4)] [(d.toNat, 22), (a.toNat, 18), (b.toNat, 14)] [(22, 4), (18, 4), (14, 4)] rfl rfl (by decide +kernel) ⟨d.isLt, a.isLt, b.isLt, trivial⟩
  refine (congrArg decode e).trans ((to29 (t 26 6 41 (by decide))).trans ?_)
  rw [decode29, t 0 8 0 (by decide)]
  refine (if_pos (t 8 6 0 (by decide))).trans ?_
  rw [field_of g0, field_of g1, field_of g2]

theorem Encoding.por (d : BitVec 4) (a : BitVec 4) (b : BitVec 4) : Statement (.por d a b) := by
  refine ⟨fun _ _ => ?_, fun _ h => (Bool.false_ne_true h).elim⟩
  obtain ⟨W, e, ⟨g0, g1, g2, -⟩, t⟩ := asm_reads 0xA4000001 [(d.toNat, 22, 4), (a.toNat, 18, 4), (b.toNat, 14, 4)] [(d.toNat, 22), (a.toNat, 18), (b.toNat, 14)] [(22, 4), (18, 4), (14, 4)] rfl rfl (by decide +kernel) ⟨d.isLt, a.isLt, b.isLt, trivial⟩
  refine (congrArg decode e).trans ((to29 (t 26 6 41 (by decide))).trans ?_)
  rw [decode29, t 0 8 1 (by decide)]
  refine (if_pos (t 8 6 0 (by decide))).trans ?_
  rw [field_of g0, field_of g1, field_of g2]

theorem Encoding.pxor (d : BitVec 4) (a : BitVec 4) (b : BitVec 4) : Statement (.pxor d a b) := by
  refine ⟨fun _ _ => ?_, fun _ h => (Bool.false_ne_true h).elim⟩
  obtain ⟨W, e, ⟨g0, g1, g2, -⟩, t⟩ := asm_reads 0xA4000002 [(d.toNat, 22, 4), (a.toNat, 18, 4), (b.toNat, 14, 4)] [(d.toNat, 22), (a.toNat, 18), (b.toNat, 14)] [(22, 4), (18, 4), (14, 4)] rfl rfl (by decide +kernel) ⟨d.isLt, a.isLt, b.isLt, trivial⟩
  refine (congrArg decode e).trans ((to29 (t 26 6 41 (by decide))).trans ?_)
  rw [decode29, t 0 8 2 (by decide)]
  refine (if_pos (t 8 6 0 (by decide))).trans ?_
  rw [field_of g0, field_of g1, field_of g2]

theorem Encoding.pnot (d : BitVec 4) (a : BitVec 4) : Statement (.pnot d a) := by
  refine ⟨fun _ _ => ?_, fun _ h => (Bool.false_ne_true h).elim⟩
  obtain ⟨W, e, ⟨g0, g1, -⟩, t⟩ := asm_reads 0xA4000003 [(d.toNat, 22, 4), (a.toNat, 18, 4)] [(d.toNat, 22), (a.toNat, 18)] [(22, 4), (18, 4)] rfl rfl (by decide +kernel) ⟨d.isLt, a.isLt, trivial⟩
  refine (congrArg decode e).trans ((to29 (t 26 6 41 (by decide))).trans ?_)
  rw [decode29, t 0 8 3 (by decide)]
  refine (if_pos (t 8 10 0 (by decide))).trans ?_
  rw [field_of g0, field_of g1]

theorem Encoding.pandn (d : BitVec 4) (a : BitVec 4) (b : BitVec 4) : Statement (.pandn d a b) := by
  refine ⟨fun _ _ => ?_, fun _ h => (Bool.false_ne_true h).elim⟩
  obtain ⟨W, e, ⟨g0, g1, g2, -⟩, t⟩ := asm_reads 0xA4000004 [(d.toNat, 22, 4), (a.toNat, 18, 4), (b.toNat, 14, 4)] [(d.toNat, 22), (a.toNat, 18), (b.toNat, 14)] [(22, 4), (18, 4), (14, 4)] rfl rfl (by decide +kernel) ⟨d.isLt, a.isLt, b.isLt, trivial⟩
  refine (congrArg decode e).trans ((to29 (t 26 6 41 (by decide))).trans ?_)
  rw [decode29, t 0 8 4 (by decide)]
  refine (if_pos (t 8 6 0 (by decide))).trans ?_
  rw [field_of g0, field_of g1, field_of g2]

theorem Encoding.pwhile (d : BitVec 4) (s : BitVec 5) : Statement (.pwhile d s) := by
  refine ⟨fun _ _ => ?_, fun _ h => (Bool.false_ne_true h).elim⟩
  obtain ⟨W, e, ⟨g0, g1, -⟩, t⟩ := asm_reads 0xA4000005 [(d.toNat, 22, 4), (s.toNat, 9, 5)] [(d.toNat, 22), (s.toNat, 9)] [(22, 4), (9, 5)] rfl rfl (by decide +kernel) ⟨d.isLt, s.isLt, trivial⟩
  refine (congrArg decode e).trans ((to29 (t 26 6 41 (by decide))).trans ?_)
  rw [decode29, t 0 8 5 (by decide)]
  refine (if_pos ⟨t 14 8 0 (by decide), t 8 1 0 (by decide)⟩).trans ?_
  rw [field_of g0, field_of g1]

theorem Encoding.pcnt (a : BitVec 4) (b : BitVec 4) (s : BitVec 5) : Statement (.pcnt a b s) := by
  refine ⟨fun _ _ => ?_, fun _ h => (Bool.false_ne_true h).elim⟩
  obtain ⟨W, e, ⟨g0, g1, g2, -⟩, t⟩ := asm_reads 0xA4000006 [(a.toNat, 18, 4), (b.toNat, 14, 4), (s.toNat, 9, 5)] [(a.toNat, 18), (b.toNat, 14), (s.toNat, 9)] [(18, 4), (14, 4), (9, 5)] rfl rfl (by decide +kernel) ⟨a.isLt, b.isLt, s.isLt, trivial⟩
  refine (congrArg decode e).trans ((to29 (t 26 6 41 (by decide))).trans ?_)
  rw [decode29, t 0 8 6 (by decide)]
  refine (if_pos ⟨t 22 4 0 (by decide), t 8 1 0 (by decide)⟩).trans ?_
  rw [field_of g0, field_of g1, field_of g2]

theorem Encoding.pfirst (a : BitVec 4) (b : BitVec 4) (s : BitVec 5) : Statement (.pfirst a b s) := by
  refine ⟨fun _ _ => ?_, fun _ h => (Bool.false_ne_true h).elim⟩
  obtain ⟨W, e, ⟨g0, g1, g2, -⟩, t⟩ := asm_reads 0xA4000007 [(a.toNat, 18, 4), (b.toNat, 14, 4), (s.toNat, 9, 5)] [(a.toNat, 18), (b.toNat, 14), (s.toNat, 9)] [(18, 4), (14, 4), (9, 5)] rfl rfl (by decide +kernel) ⟨a.isLt, b.isLt, s.isLt, trivial⟩
  refine (congrArg decode e).trans ((to29 (t 26 6 41 (by decide))).trans ?_)
  rw [decode29, t 0 8 7 (by decide)]
  refine (if_pos ⟨t 22 4 0 (by decide), t 8 1 0 (by decide)⟩).trans ?_
  rw [field_of g0, field_of g1, field_of g2]

theorem Encoding.pset (d : BitVec 4) (v : BitVec 6) : Statement (.pset d v) := by
  refine ⟨fun _ _ => ?_, fun _ h => (Bool.false_ne_true h).elim⟩
  obtain ⟨W, e, ⟨g0, g1, -⟩, t⟩ := asm_reads 0xA4000008 [(d.toNat, 22, 4), (v.toNat, 8, 6)] [(d.toNat, 22), (v.toNat, 8)] [(22, 4), (8, 6)] rfl rfl (by decide +kernel) ⟨d.isLt, v.isLt, trivial⟩
  refine (congrArg decode e).trans ((to29 (t 26 6 41 (by decide))).trans ?_)
  rw [decode29, t 0 8 8 (by decide)]
  refine (if_pos (t 14 8 0 (by decide))).trans ?_
  rw [field_of g0, field_of g1]

theorem Encoding.vins (d : BitVec 6) (x : BitVec 5) (b : BitVec 5) : Statement (.vins d x b) := by
  refine ⟨fun _ _ => ?_, fun _ h => (Bool.false_ne_true h).elim⟩
  obtain ⟨W, e, ⟨g0, g1, g2, -⟩, t⟩ := asm_reads 0xA8000000 [(d.toNat, 20, 6), (x.toNat, 15, 5), (b.toNat, 9, 5)] [(d.toNat, 20), (x.toNat, 15), (b.toNat, 9)] [(20, 6), (15, 5), (9, 5)] rfl rfl (by decide +kernel) ⟨d.isLt, x.isLt, b.isLt, trivial⟩
  refine (congrArg decode e).trans ((to2A (t 26 6 42 (by decide))).trans ?_)
  rw [decode2A, t 0 5 0 (by decide)]
  refine (if_pos ⟨t 14 1 0 (by decide), t 5 4 0 (by decide)⟩).trans ?_
  rw [field_of g0, field_of g1, field_of g2]

theorem Encoding.vext (x : BitVec 5) (a : BitVec 6) (d : BitVec 5) : Statement (.vext x a d) := by
  refine ⟨fun _ _ => ?_, fun _ h => (Bool.false_ne_true h).elim⟩
  obtain ⟨W, e, ⟨g0, g1, g2, -⟩, t⟩ := asm_reads 0xA8000001 [(x.toNat, 21, 5), (a.toNat, 14, 6), (d.toNat, 9, 5)] [(x.toNat, 21), (a.toNat, 14), (d.toNat, 9)] [(21, 5), (14, 6), (9, 5)] rfl rfl (by decide +kernel) ⟨x.isLt, a.isLt, d.isLt, trivial⟩
  refine (congrArg decode e).trans ((to2A (t 26 6 42 (by decide))).trans ?_)
  rw [decode2A, t 0 5 1 (by decide)]
  refine (if_pos ⟨t 20 1 0 (by decide), t 5 4 0 (by decide)⟩).trans ?_
  rw [field_of g0, field_of g1, field_of g2]

theorem Encoding.vld (d : BitVec 6) (w : BitVec 4) (s : BitVec 5) (p : BitVec 4) : Statement (.vld d w s p) := by
  refine ⟨fun _ _ => ?_, fun _ h => (Bool.false_ne_true h).elim⟩
  obtain ⟨W, e, ⟨g0, g1, g2, g3, -⟩, t⟩ := asm_reads 0xAC000000 [(d.toNat, 20, 6), (w.toNat, 16, 4), (s.toNat, 11, 5), (p.toNat, 6, 4)] [(d.toNat, 20), (w.toNat, 16), (s.toNat, 11), (p.toNat, 6)] [(20, 6), (16, 4), (11, 5), (6, 4)] rfl rfl (by decide +kernel) ⟨d.isLt, w.isLt, s.isLt, p.isLt, trivial⟩
  refine (congrArg decode e).trans ((to2B (t 26 6 43 (by decide))).trans ?_)
  rw [decode2B, t 0 6 0 (by decide)]
  refine (if_pos (t 10 1 0 (by decide))).trans ?_
  rw [field_of g0, field_of g1, field_of g2, field_of g3]

theorem Encoding.vst (d : BitVec 6) (w : BitVec 4) (s : BitVec 5) (p : BitVec 4) : Statement (.vst d w s p) := by
  refine ⟨fun _ _ => ?_, fun _ h => (Bool.false_ne_true h).elim⟩
  obtain ⟨W, e, ⟨g0, g1, g2, g3, -⟩, t⟩ := asm_reads 0xAC000001 [(d.toNat, 20, 6), (w.toNat, 16, 4), (s.toNat, 11, 5), (p.toNat, 6, 4)] [(d.toNat, 20), (w.toNat, 16), (s.toNat, 11), (p.toNat, 6)] [(20, 6), (16, 4), (11, 5), (6, 4)] rfl rfl (by decide +kernel) ⟨d.isLt, w.isLt, s.isLt, p.isLt, trivial⟩
  refine (congrArg decode e).trans ((to2B (t 26 6 43 (by decide))).trans ?_)
  rw [decode2B, t 0 6 1 (by decide)]
  refine (if_pos (t 10 1 0 (by decide))).trans ?_
  rw [field_of g0, field_of g1, field_of g2, field_of g3]

theorem Encoding.vldx (d : BitVec 6) (w : BitVec 4) (x : BitVec 6) (p : BitVec 4) : Statement (.vldx d w x p) := by
  refine ⟨fun _ _ => ?_, fun _ h => (Bool.false_ne_true h).elim⟩
  obtain ⟨W, e, ⟨g0, g1, g2, g3, -⟩, t⟩ := asm_reads 0xAC000002 [(d.toNat, 20, 6), (w.toNat, 16, 4), (x.toNat, 10, 6), (p.toNat, 6, 4)] [(d.toNat, 20), (w.toNat, 16), (x.toNat, 10), (p.toNat, 6)] [(20, 6), (16, 4), (10, 6), (6, 4)] rfl rfl (by decide +kernel) ⟨d.isLt, w.isLt, x.isLt, p.isLt, trivial⟩
  refine (congrArg decode e).trans ((to2B (t 26 6 43 (by decide))).trans ?_)
  rw [decode2B, t 0 6 2 (by decide)]
  change Except.ok _ = _
  rw [field_of g0, field_of g1, field_of g2, field_of g3]

theorem Encoding.vstx (d : BitVec 6) (w : BitVec 4) (x : BitVec 6) (p : BitVec 4) : Statement (.vstx d w x p) := by
  refine ⟨fun _ _ => ?_, fun _ h => (Bool.false_ne_true h).elim⟩
  obtain ⟨W, e, ⟨g0, g1, g2, g3, -⟩, t⟩ := asm_reads 0xAC000003 [(d.toNat, 20, 6), (w.toNat, 16, 4), (x.toNat, 10, 6), (p.toNat, 6, 4)] [(d.toNat, 20), (w.toNat, 16), (x.toNat, 10), (p.toNat, 6)] [(20, 6), (16, 4), (10, 6), (6, 4)] rfl rfl (by decide +kernel) ⟨d.isLt, w.isLt, x.isLt, p.isLt, trivial⟩
  refine (congrArg decode e).trans ((to2B (t 26 6 43 (by decide))).trans ?_)
  rw [decode2B, t 0 6 3 (by decide)]
  change Except.ok _ = _
  rw [field_of g0, field_of g1, field_of g2, field_of g3]

theorem Encoding.vldff (d : BitVec 6) (w : BitVec 4) (s : BitVec 5) (p : BitVec 4) : Statement (.vldff d w s p) := by
  refine ⟨fun _ _ => ?_, fun _ h => (Bool.false_ne_true h).elim⟩
  obtain ⟨W, e, ⟨g0, g1, g2, g3, -⟩, t⟩ := asm_reads 0xAC000004 [(d.toNat, 20, 6), (w.toNat, 16, 4), (s.toNat, 11, 5), (p.toNat, 6, 4)] [(d.toNat, 20), (w.toNat, 16), (s.toNat, 11), (p.toNat, 6)] [(20, 6), (16, 4), (11, 5), (6, 4)] rfl rfl (by decide +kernel) ⟨d.isLt, w.isLt, s.isLt, p.isLt, trivial⟩
  refine (congrArg decode e).trans ((to2B (t 26 6 43 (by decide))).trans ?_)
  rw [decode2B, t 0 6 4 (by decide)]
  refine (if_pos (t 10 1 0 (by decide))).trans ?_
  rw [field_of g0, field_of g1, field_of g2, field_of g3]

theorem Encoding.vgb (d : BitVec 6) (w : BitVec 4) (x : BitVec 6) (p : BitVec 4) : Statement (.vgb d w x p) := by
  refine ⟨fun _ _ => ?_, fun _ h => (Bool.false_ne_true h).elim⟩
  obtain ⟨W, e, ⟨g0, g1, g2, g3, -⟩, t⟩ := asm_reads 0xAC000005 [(d.toNat, 20, 6), (w.toNat, 16, 4), (x.toNat, 10, 6), (p.toNat, 6, 4)] [(d.toNat, 20), (w.toNat, 16), (x.toNat, 10), (p.toNat, 6)] [(20, 6), (16, 4), (10, 6), (6, 4)] rfl rfl (by decide +kernel) ⟨d.isLt, w.isLt, x.isLt, p.isLt, trivial⟩
  refine (congrArg decode e).trans ((to2B (t 26 6 43 (by decide))).trans ?_)
  rw [decode2B, t 0 6 5 (by decide)]
  change Except.ok _ = _
  rw [field_of g0, field_of g1, field_of g2, field_of g3]

theorem Encoding.vsb (d : BitVec 6) (w : BitVec 4) (x : BitVec 6) (p : BitVec 4) : Statement (.vsb d w x p) := by
  refine ⟨fun _ _ => ?_, fun _ h => (Bool.false_ne_true h).elim⟩
  obtain ⟨W, e, ⟨g0, g1, g2, g3, -⟩, t⟩ := asm_reads 0xAC000006 [(d.toNat, 20, 6), (w.toNat, 16, 4), (x.toNat, 10, 6), (p.toNat, 6, 4)] [(d.toNat, 20), (w.toNat, 16), (x.toNat, 10), (p.toNat, 6)] [(20, 6), (16, 4), (10, 6), (6, 4)] rfl rfl (by decide +kernel) ⟨d.isLt, w.isLt, x.isLt, p.isLt, trivial⟩
  refine (congrArg decode e).trans ((to2B (t 26 6 43 (by decide))).trans ?_)
  rw [decode2B, t 0 6 6 (by decide)]
  change Except.ok _ = _
  rw [field_of g0, field_of g1, field_of g2, field_of g3]

theorem Encoding.vaadd (d : BitVec 6) (w : BitVec 4) (x : BitVec 6) (p : BitVec 4) : Statement (.vaadd d w x p) := by
  refine ⟨fun _ _ => ?_, fun _ h => (Bool.false_ne_true h).elim⟩
  obtain ⟨W, e, ⟨g0, g1, g2, g3, -⟩, t⟩ := asm_reads 0xAC000007 [(d.toNat, 20, 6), (w.toNat, 16, 4), (x.toNat, 10, 6), (p.toNat, 6, 4)] [(d.toNat, 20), (w.toNat, 16), (x.toNat, 10), (p.toNat, 6)] [(20, 6), (16, 4), (10, 6), (6, 4)] rfl rfl (by decide +kernel) ⟨d.isLt, w.isLt, x.isLt, p.isLt, trivial⟩
  refine (congrArg decode e).trans ((to2B (t 26 6 43 (by decide))).trans ?_)
  rw [decode2B, t 0 6 7 (by decide)]
  change Except.ok _ = _
  rw [field_of g0, field_of g1, field_of g2, field_of g3]

theorem Encoding.vsrd (d : BitVec 6) (q : BitVec 3) (s : BitVec 5) (p : BitVec 4) : Statement (.vsrd d q s p) := by
  refine ⟨fun _ _ => ?_, fun _ h => (Bool.false_ne_true h).elim⟩
  obtain ⟨W, e, ⟨g0, g1, g2, g3, -⟩, t⟩ := asm_reads 0xB0000000 [(d.toNat, 20, 6), (q.toNat, 16, 3), (s.toNat, 11, 5), (p.toNat, 6, 4)] [(d.toNat, 20), (q.toNat, 16), (s.toNat, 11), (p.toNat, 6)] [(20, 6), (16, 3), (11, 5), (6, 4)] rfl rfl (by decide +kernel) ⟨d.isLt, q.isLt, s.isLt, p.isLt, trivial⟩
  refine (congrArg decode e).trans ((to2C (t 26 6 44 (by decide))).trans ?_)
  rw [decode2C, t 0 6 0 (by decide)]
  refine (if_pos ⟨t 19 1 0 (by decide), t 10 1 0 (by decide)⟩).trans ?_
  rw [field_of g0, field_of g1, field_of g2, field_of g3]

theorem Encoding.vswr (d : BitVec 6) (q : BitVec 3) (s : BitVec 5) (p : BitVec 4) : Statement (.vswr d q s p) := by
  refine ⟨fun _ _ => ?_, fun _ h => (Bool.false_ne_true h).elim⟩
  obtain ⟨W, e, ⟨g0, g1, g2, g3, -⟩, t⟩ := asm_reads 0xB0000001 [(d.toNat, 20, 6), (q.toNat, 16, 3), (s.toNat, 11, 5), (p.toNat, 6, 4)] [(d.toNat, 20), (q.toNat, 16), (s.toNat, 11), (p.toNat, 6)] [(20, 6), (16, 3), (11, 5), (6, 4)] rfl rfl (by decide +kernel) ⟨d.isLt, q.isLt, s.isLt, p.isLt, trivial⟩
  refine (congrArg decode e).trans ((to2C (t 26 6 44 (by decide))).trans ?_)
  rw [decode2C, t 0 6 1 (by decide)]
  refine (if_pos ⟨t 19 1 0 (by decide), t 10 1 0 (by decide)⟩).trans ?_
  rw [field_of g0, field_of g1, field_of g2, field_of g3]

theorem Encoding.tlook (d : BitVec 5) (a : BitVec 5) : Statement (.tlook d a) := by
  refine ⟨fun _ _ => ?_, fun _ h => (Bool.false_ne_true h).elim⟩
  obtain ⟨W, e, ⟨g0, g1, -⟩, t⟩ := asm_reads 0xB4000000 [(d.toNat, 21, 5), (a.toNat, 16, 5)] [(d.toNat, 21), (a.toNat, 16)] [(21, 5), (16, 5)] rfl rfl (by decide +kernel) ⟨d.isLt, a.isLt, trivial⟩
  refine (congrArg decode e).trans ((to2D (t 26 6 45 (by decide))).trans ?_)
  rw [decode2D, t 0 11 0 (by decide)]
  refine (if_pos (t 11 5 0 (by decide))).trans ?_
  rw [field_of g0, field_of g1]

theorem Encoding.tset (d : BitVec 5) (a : BitVec 5) (b : BitVec 5) : Statement (.tset d a b) := by
  refine ⟨fun _ _ => ?_, fun _ h => (Bool.false_ne_true h).elim⟩
  obtain ⟨W, e, ⟨g0, g1, g2, -⟩, t⟩ := asm_reads 0xB4000001 [(d.toNat, 21, 5), (a.toNat, 16, 5), (b.toNat, 11, 5)] [(d.toNat, 21), (a.toNat, 16), (b.toNat, 11)] [(21, 5), (16, 5), (11, 5)] rfl rfl (by decide +kernel) ⟨d.isLt, a.isLt, b.isLt, trivial⟩
  refine (congrArg decode e).trans ((to2D (t 26 6 45 (by decide))).trans ?_)
  rw [decode2D, t 0 11 1 (by decide)]
  change Except.ok _ = _
  rw [field_of g0, field_of g1, field_of g2]

theorem Encoding.tinv (d : BitVec 5) (a : BitVec 5) : Statement (.tinv d a) := by
  refine ⟨fun _ _ => ?_, fun _ h => (Bool.false_ne_true h).elim⟩
  obtain ⟨W, e, ⟨g0, g1, -⟩, t⟩ := asm_reads 0xB4000002 [(d.toNat, 21, 5), (a.toNat, 16, 5)] [(d.toNat, 21), (a.toNat, 16)] [(21, 5), (16, 5)] rfl rfl (by decide +kernel) ⟨d.isLt, a.isLt, trivial⟩
  refine (congrArg decode e).trans ((to2D (t 26 6 45 (by decide))).trans ?_)
  rw [decode2D, t 0 11 2 (by decide)]
  refine (if_pos (t 11 5 0 (by decide))).trans ?_
  rw [field_of g0, field_of g1]

theorem Encoding.vwset (n : BitVec 4) (a : BitVec 5) (v : BitVec 4) : Statement (.vwset n a v) := by
  refine ⟨fun _ _ => ?_, fun _ h => (Bool.false_ne_true h).elim⟩
  obtain ⟨W, e, ⟨g0, g1, g2, -⟩, t⟩ := asm_reads 0xB4000003 [(n.toNat, 21, 4), (a.toNat, 16, 5), (v.toNat, 11, 4)] [(n.toNat, 21), (a.toNat, 16), (v.toNat, 11)] [(21, 4), (16, 5), (11, 4)] rfl rfl (by decide +kernel) ⟨n.isLt, a.isLt, v.isLt, trivial⟩
  refine (congrArg decode e).trans ((to2D (t 26 6 45 (by decide))).trans ?_)
  rw [decode2D, t 0 11 3 (by decide)]
  refine (if_pos ⟨t 25 1 0 (by decide), t 15 1 0 (by decide)⟩).trans ?_
  rw [field_of g0, field_of g1, field_of g2]

theorem Encoding.vwret (n : BitVec 4) : Statement (.vwret n) := by
  refine ⟨fun _ _ => ?_, fun _ h => (Bool.false_ne_true h).elim⟩
  obtain ⟨W, e, ⟨g0, -⟩, t⟩ := asm_reads 0xB4000004 [(n.toNat, 21, 4)] [(n.toNat, 21)] [(21, 4)] rfl rfl (by decide +kernel) ⟨n.isLt, trivial⟩
  refine (congrArg decode e).trans ((to2D (t 26 6 45 (by decide))).trans ?_)
  rw [decode2D, t 0 11 4 (by decide)]
  refine (if_pos ⟨t 25 1 0 (by decide), t 11 10 0 (by decide)⟩).trans ?_
  rw [field_of g0]

theorem Encoding.vwget (d : BitVec 5) (n : BitVec 4) (k : BitVec 3) : Statement (.vwget d n k) := by
  refine ⟨fun _ _ => ?_, fun _ h => (Bool.false_ne_true h).elim⟩
  obtain ⟨W, e, ⟨g0, g1, g2, -⟩, t⟩ := asm_reads 0xB4000005 [(d.toNat, 21, 5), (n.toNat, 16, 4), (k.toNat, 11, 3)] [(d.toNat, 21), (n.toNat, 16), (k.toNat, 11)] [(21, 5), (16, 4), (11, 3)] rfl rfl (by decide +kernel) ⟨d.isLt, n.isLt, k.isLt, trivial⟩
  refine (congrArg decode e).trans ((to2D (t 26 6 45 (by decide))).trans ?_)
  rw [decode2D, t 0 11 5 (by decide)]
  refine (if_pos ⟨t 20 1 0 (by decide), t 14 2 0 (by decide)⟩).trans ?_
  rw [field_of g0, field_of g1, field_of g2]

theorem Encoding.vrng (d : BitVec 6) (s : BitVec 5) (p : BitVec 4) : Statement (.vrng d s p) := by
  refine ⟨fun _ _ => ?_, fun _ h => (Bool.false_ne_true h).elim⟩
  obtain ⟨W, e, ⟨g0, g1, g2, -⟩, t⟩ := asm_reads 0xB8000000 [(d.toNat, 20, 6), (s.toNat, 9, 5), (p.toNat, 5, 4)] [(d.toNat, 20), (s.toNat, 9), (p.toNat, 5)] [(20, 6), (9, 5), (5, 4)] rfl rfl (by decide +kernel) ⟨d.isLt, s.isLt, p.isLt, trivial⟩
  refine (congrArg decode e).trans ((to2E (t 26 6 46 (by decide))).trans ?_)
  rw [decode2E, t 0 5 0 (by decide)]
  refine (if_pos (t 14 6 0 (by decide))).trans ?_
  rw [field_of g0, field_of g1, field_of g2]

theorem Encoding.mtv (d : BitVec 6) (t : BitVec 2) (x : BitVec 1) (a : BitVec 5) (p : BitVec 4) : Statement (.mtv d t x a p) := by
  refine ⟨fun _ _ => ?_, fun _ h => (Bool.false_ne_true h).elim⟩
  obtain ⟨W, e, ⟨g0, g1, g2, g3, g4, -⟩, t⟩ := asm_reads 0xBC000000 [(d.toNat, 20, 6), (t.toNat, 18, 2), (x.toNat, 17, 1), (a.toNat, 12, 5), (p.toNat, 8, 4)] [(d.toNat, 20), (t.toNat, 18), (x.toNat, 17), (a.toNat, 12), (p.toNat, 8)] [(20, 6), (18, 2), (17, 1), (12, 5), (8, 4)] rfl rfl (by decide +kernel) ⟨d.isLt, t.isLt, x.isLt, a.isLt, p.isLt, trivial⟩
  refine (congrArg decode e).trans ((to2F (t 26 6 47 (by decide))).trans ?_)
  rw [decode2F, t 0 8 0 (by decide)]
  change Except.ok _ = _
  rw [field_of g0, field_of g1, field_of g2, field_of g3, field_of g4]

theorem Encoding.mvt (d : BitVec 6) (t : BitVec 2) (x : BitVec 1) (a : BitVec 5) (p : BitVec 4) : Statement (.mvt d t x a p) := by
  refine ⟨fun _ _ => ?_, fun _ h => (Bool.false_ne_true h).elim⟩
  obtain ⟨W, e, ⟨g0, g1, g2, g3, g4, -⟩, t⟩ := asm_reads 0xBC000001 [(d.toNat, 20, 6), (t.toNat, 18, 2), (x.toNat, 17, 1), (a.toNat, 12, 5), (p.toNat, 8, 4)] [(d.toNat, 20), (t.toNat, 18), (x.toNat, 17), (a.toNat, 12), (p.toNat, 8)] [(20, 6), (18, 2), (17, 1), (12, 5), (8, 4)] rfl rfl (by decide +kernel) ⟨d.isLt, t.isLt, x.isLt, a.isLt, p.isLt, trivial⟩
  refine (congrArg decode e).trans ((to2F (t 26 6 47 (by decide))).trans ?_)
  rw [decode2F, t 0 8 1 (by decide)]
  change Except.ok _ = _
  rw [field_of g0, field_of g1, field_of g2, field_of g3, field_of g4]

theorem Encoding.mtvc (d : BitVec 6) (t : BitVec 2) (x : BitVec 1) (p : BitVec 4) : Statement (.mtvc d t x p) := by
  refine ⟨fun _ _ => ?_, fun _ h => (Bool.false_ne_true h).elim⟩
  obtain ⟨W, e, ⟨g0, g1, g2, g3, -⟩, t⟩ := asm_reads 0xBC000002 [(d.toNat, 20, 6), (t.toNat, 18, 2), (x.toNat, 17, 1), (p.toNat, 8, 4)] [(d.toNat, 20), (t.toNat, 18), (x.toNat, 17), (p.toNat, 8)] [(20, 6), (18, 2), (17, 1), (8, 4)] rfl rfl (by decide +kernel) ⟨d.isLt, t.isLt, x.isLt, p.isLt, trivial⟩
  refine (congrArg decode e).trans ((to2F (t 26 6 47 (by decide))).trans ?_)
  rw [decode2F, t 0 8 2 (by decide)]
  refine (if_pos (t 12 5 0 (by decide))).trans ?_
  rw [field_of g0, field_of g1, field_of g2, field_of g3]

theorem Encoding.mten (m : BitVec 4) : Statement (.mten m) := by
  refine ⟨fun _ _ => ?_, fun _ h => (Bool.false_ne_true h).elim⟩
  obtain ⟨W, e, ⟨g0, -⟩, t⟩ := asm_reads 0xE0000000 [(m.toNat, 0, 4)] [(m.toNat, 0)] [(0, 4)] rfl rfl (by decide +kernel) ⟨m.isLt, trivial⟩
  refine (congrArg decode e).trans ((to38 (t 26 6 56 (by decide)) (t 11 4 0 (by decide))).trans ?_)
  rw [arms38, t 21 5 0 (by decide)]
  refine (if_pos (t 4 17 0 (by decide))).trans ?_
  rw [field_of g0]

theorem Encoding.mzero (t : BitVec 2) (a : BitVec 4) (c : BitVec 1) : Statement (.mzero t a c) := by
  refine ⟨fun _ _ => ?_, fun _ h => (Bool.false_ne_true h).elim⟩
  obtain ⟨W, e, ⟨g0, g1, g2, -⟩, t⟩ := asm_reads 0xE0200000 [(t.toNat, 19, 2), (a.toNat, 15, 4), (c.toNat, 0, 1)] [(t.toNat, 19), (a.toNat, 15), (c.toNat, 0)] [(19, 2), (15, 4), (0, 1)] rfl rfl (by decide +kernel) ⟨t.isLt, a.isLt, c.isLt, trivial⟩
  refine (congrArg decode e).trans ((to38 (t 26 6 56 (by decide)) (t 11 4 0 (by decide))).trans ?_)
  rw [arms38, t 21 5 1 (by decide)]
  refine (if_pos (t 1 14 0 (by decide))).trans ?_
  rw [field_of g0, field_of g1, field_of g2]

theorem Encoding.mldw (a : BitVec 4) (s : BitVec 5) (y : BitVec 3) : Statement (.mldw a s y) := by
  refine ⟨fun _ _ => ?_, fun _ h => (Bool.false_ne_true h).elim⟩
  obtain ⟨W, e, ⟨g0, g1, g2, -⟩, t⟩ := asm_reads 0xE0400000 [(a.toNat, 15, 4), (s.toNat, 6, 5), (y.toNat, 0, 3)] [(a.toNat, 15), (s.toNat, 6), (y.toNat, 0)] [(15, 4), (6, 5), (0, 3)] rfl rfl (by decide +kernel) ⟨a.isLt, s.isLt, y.isLt, trivial⟩
  refine (congrArg decode e).trans ((to38 (t 26 6 56 (by decide)) (t 11 4 0 (by decide))).trans ?_)
  rw [arms38, t 21 5 2 (by decide)]
  refine (if_pos ⟨t 19 2 0 (by decide), t 11 4 0 (by decide), t 3 3 0 (by decide)⟩).trans ?_
  rw [field_of g0, field_of g1, field_of g2]

theorem Encoding.mswap (a : BitVec 4) : Statement (.mswap a) := by
  refine ⟨fun _ _ => ?_, fun _ h => (Bool.false_ne_true h).elim⟩
  obtain ⟨W, e, ⟨g0, -⟩, t⟩ := asm_reads 0xE0600000 [(a.toNat, 15, 4)] [(a.toNat, 15)] [(15, 4)] rfl rfl (by decide +kernel) ⟨a.isLt, trivial⟩
  refine (congrArg decode e).trans ((to38 (t 26 6 56 (by decide)) (t 11 4 0 (by decide))).trans ?_)
  rw [arms38, t 21 5 3 (by decide)]
  refine (if_pos ⟨t 19 2 0 (by decide), t 0 15 0 (by decide)⟩).trans ?_
  rw [field_of g0]

theorem Encoding.mma (t : BitVec 2) (a : BitVec 4) (s : BitVec 5) (z : BitVec 1) : Statement (.mma t a s z) := by
  refine ⟨fun _ _ => ?_, fun _ h => (Bool.false_ne_true h).elim⟩
  obtain ⟨W, e, ⟨g0, g1, g2, g3, -⟩, t⟩ := asm_reads 0xE0800000 [(t.toNat, 19, 2), (a.toNat, 15, 4), (s.toNat, 6, 5), (z.toNat, 0, 1)] [(t.toNat, 19), (a.toNat, 15), (s.toNat, 6), (z.toNat, 0)] [(19, 2), (15, 4), (6, 5), (0, 1)] rfl rfl (by decide +kernel) ⟨t.isLt, a.isLt, s.isLt, z.isLt, trivial⟩
  refine (congrArg decode e).trans ((to38 (t 26 6 56 (by decide)) (t 11 4 0 (by decide))).trans ?_)
  rw [arms38, t 21 5 4 (by decide)]
  refine (if_pos ⟨t 11 4 0 (by decide), t 1 5 0 (by decide)⟩).trans ?_
  rw [field_of g0, field_of g1, field_of g2, field_of g3]

theorem Encoding.mmaF64 (t : BitVec 2) (a : BitVec 4) (s : BitVec 5) (z : BitVec 1) : Statement (.mmaF64 t a s z) := by
  refine ⟨fun _ _ => ?_, fun _ h => (Bool.false_ne_true h).elim⟩
  obtain ⟨W, e, ⟨g0, g1, g2, g3, -⟩, t⟩ := asm_reads 0xE0A00000 [(t.toNat, 19, 2), (a.toNat, 15, 4), (s.toNat, 6, 5), (z.toNat, 0, 1)] [(t.toNat, 19), (a.toNat, 15), (s.toNat, 6), (z.toNat, 0)] [(19, 2), (15, 4), (6, 5), (0, 1)] rfl rfl (by decide +kernel) ⟨t.isLt, a.isLt, s.isLt, z.isLt, trivial⟩
  refine (congrArg decode e).trans ((to38 (t 26 6 56 (by decide)) (t 11 4 0 (by decide))).trans ?_)
  rw [arms38, t 21 5 5 (by decide)]
  refine (if_pos ⟨t 11 4 0 (by decide), t 1 5 0 (by decide)⟩).trans ?_
  rw [field_of g0, field_of g1, field_of g2, field_of g3]

theorem Encoding.mscan (t : BitVec 2) (a : BitVec 4) (o : BitVec 1) (i : BitVec 1) : Statement (.mscan t a o i) := by
  refine ⟨fun _ _ => ?_, fun _ h => (Bool.false_ne_true h).elim⟩
  obtain ⟨W, e, ⟨g0, g1, g2, g3, -⟩, t⟩ := asm_reads 0xE0C00000 [(t.toNat, 19, 2), (a.toNat, 15, 4), (o.toNat, 1, 1), (i.toNat, 0, 1)] [(t.toNat, 19), (a.toNat, 15), (o.toNat, 1), (i.toNat, 0)] [(19, 2), (15, 4), (1, 1), (0, 1)] rfl rfl (by decide +kernel) ⟨t.isLt, a.isLt, o.isLt, i.isLt, trivial⟩
  refine (congrArg decode e).trans ((to38 (t 26 6 56 (by decide)) (t 11 4 0 (by decide))).trans ?_)
  rw [arms38, t 21 5 6 (by decide)]
  refine (if_pos (t 2 13 0 (by decide))).trans ?_
  rw [field_of g0, field_of g1, field_of g2, field_of g3]

theorem Encoding.mcld (t : BitVec 2) (a : BitVec 4) (s : BitVec 5) : Statement (.mcld t a s) := by
  refine ⟨fun _ _ => ?_, fun _ h => (Bool.false_ne_true h).elim⟩
  obtain ⟨W, e, ⟨g0, g1, g2, -⟩, t⟩ := asm_reads 0xE0E00000 [(t.toNat, 19, 2), (a.toNat, 15, 4), (s.toNat, 6, 5)] [(t.toNat, 19), (a.toNat, 15), (s.toNat, 6)] [(19, 2), (15, 4), (6, 5)] rfl rfl (by decide +kernel) ⟨t.isLt, a.isLt, s.isLt, trivial⟩
  refine (congrArg decode e).trans ((to38 (t 26 6 56 (by decide)) (t 11 4 0 (by decide))).trans ?_)
  rw [arms38, t 21 5 7 (by decide)]
  refine (if_pos ⟨t 11 4 0 (by decide), t 0 6 0 (by decide)⟩).trans ?_
  rw [field_of g0, field_of g1, field_of g2]

theorem Encoding.mcst (t : BitVec 2) (a : BitVec 4) (s : BitVec 5) : Statement (.mcst t a s) := by
  refine ⟨fun _ _ => ?_, fun _ h => (Bool.false_ne_true h).elim⟩
  obtain ⟨W, e, ⟨g0, g1, g2, -⟩, t⟩ := asm_reads 0xE1000000 [(t.toNat, 19, 2), (a.toNat, 15, 4), (s.toNat, 6, 5)] [(t.toNat, 19), (a.toNat, 15), (s.toNat, 6)] [(19, 2), (15, 4), (6, 5)] rfl rfl (by decide +kernel) ⟨t.isLt, a.isLt, s.isLt, trivial⟩
  refine (congrArg decode e).trans ((to38 (t 26 6 56 (by decide)) (t 11 4 0 (by decide))).trans ?_)
  rw [arms38, t 21 5 8 (by decide)]
  refine (if_pos ⟨t 11 4 0 (by decide), t 0 6 0 (by decide)⟩).trans ?_
  rw [field_of g0, field_of g1, field_of g2]

theorem Encoding.mst (t : BitVec 2) (a : BitVec 4) (s : BitVec 5) : Statement (.mst t a s) := by
  refine ⟨fun _ _ => ?_, fun _ h => (Bool.false_ne_true h).elim⟩
  obtain ⟨W, e, ⟨g0, g1, g2, -⟩, t⟩ := asm_reads 0xE1200000 [(t.toNat, 19, 2), (a.toNat, 15, 4), (s.toNat, 6, 5)] [(t.toNat, 19), (a.toNat, 15), (s.toNat, 6)] [(19, 2), (15, 4), (6, 5)] rfl rfl (by decide +kernel) ⟨t.isLt, a.isLt, s.isLt, trivial⟩
  refine (congrArg decode e).trans ((to38 (t 26 6 56 (by decide)) (t 11 4 0 (by decide))).trans ?_)
  rw [arms38, t 21 5 9 (by decide)]
  refine (if_pos ⟨t 11 4 0 (by decide), t 0 6 0 (by decide)⟩).trans ?_
  rw [field_of g0, field_of g1, field_of g2]

theorem Encoding.mld (t : BitVec 2) (a : BitVec 4) (s : BitVec 5) : Statement (.mld t a s) := by
  refine ⟨fun _ _ => ?_, fun _ h => (Bool.false_ne_true h).elim⟩
  obtain ⟨W, e, ⟨g0, g1, g2, -⟩, t⟩ := asm_reads 0xE1400000 [(t.toNat, 19, 2), (a.toNat, 15, 4), (s.toNat, 6, 5)] [(t.toNat, 19), (a.toNat, 15), (s.toNat, 6)] [(19, 2), (15, 4), (6, 5)] rfl rfl (by decide +kernel) ⟨t.isLt, a.isLt, s.isLt, trivial⟩
  refine (congrArg decode e).trans ((to38 (t 26 6 56 (by decide)) (t 11 4 0 (by decide))).trans ?_)
  rw [arms38, t 21 5 10 (by decide)]
  refine (if_pos ⟨t 11 4 0 (by decide), t 0 6 0 (by decide)⟩).trans ?_
  rw [field_of g0, field_of g1, field_of g2]

theorem Encoding.mrow (a : BitVec 4) (s : BitVec 5) : Statement (.mrow a s) := by
  refine ⟨fun _ _ => ?_, fun _ h => (Bool.false_ne_true h).elim⟩
  obtain ⟨W, e, ⟨g0, g1, -⟩, t⟩ := asm_reads 0xE1600000 [(a.toNat, 15, 4), (s.toNat, 6, 5)] [(a.toNat, 15), (s.toNat, 6)] [(15, 4), (6, 5)] rfl rfl (by decide +kernel) ⟨a.isLt, s.isLt, trivial⟩
  refine (congrArg decode e).trans ((to38 (t 26 6 56 (by decide)) (t 11 4 0 (by decide))).trans ?_)
  rw [arms38, t 21 5 11 (by decide)]
  refine (if_pos ⟨t 19 2 0 (by decide), t 11 4 0 (by decide), t 0 6 0 (by decide)⟩).trans ?_
  rw [field_of g0, field_of g1]

theorem Encoding.mcol (a : BitVec 4) (s : BitVec 5) : Statement (.mcol a s) := by
  refine ⟨fun _ _ => ?_, fun _ h => (Bool.false_ne_true h).elim⟩
  obtain ⟨W, e, ⟨g0, g1, -⟩, t⟩ := asm_reads 0xE1800000 [(a.toNat, 15, 4), (s.toNat, 6, 5)] [(a.toNat, 15), (s.toNat, 6)] [(15, 4), (6, 5)] rfl rfl (by decide +kernel) ⟨a.isLt, s.isLt, trivial⟩
  refine (congrArg decode e).trans ((to38 (t 26 6 56 (by decide)) (t 11 4 0 (by decide))).trans ?_)
  rw [arms38, t 21 5 12 (by decide)]
  refine (if_pos ⟨t 19 2 0 (by decide), t 11 4 0 (by decide), t 0 6 0 (by decide)⟩).trans ?_
  rw [field_of g0, field_of g1]

theorem Encoding.msig (s : BitVec 5) (i : BitVec 6) : Statement (.msig s i) := by
  refine ⟨fun _ _ => ?_, fun _ h => (Bool.false_ne_true h).elim⟩
  obtain ⟨W, e, ⟨g0, g1, -⟩, t⟩ := asm_reads 0xE1A00000 [(s.toNat, 6, 5), (i.toNat, 0, 6)] [(s.toNat, 6), (i.toNat, 0)] [(6, 5), (0, 6)] rfl rfl (by decide +kernel) ⟨s.isLt, i.isLt, trivial⟩
  refine (congrArg decode e).trans ((to38 (t 26 6 56 (by decide)) (t 11 4 0 (by decide))).trans ?_)
  rw [arms38, t 21 5 13 (by decide)]
  refine (if_pos (t 11 10 0 (by decide))).trans ?_
  rw [field_of g0, field_of g1]

theorem Encoding.mwait (s : BitVec 5) : Statement (.mwait s) := by
  refine ⟨fun _ _ => ?_, fun _ h => (Bool.false_ne_true h).elim⟩
  obtain ⟨W, e, ⟨g0, -⟩, t⟩ := asm_reads 0xE1C00000 [(s.toNat, 6, 5)] [(s.toNat, 6)] [(6, 5)] rfl rfl (by decide +kernel) ⟨s.isLt, trivial⟩
  refine (congrArg decode e).trans ((to38 (t 26 6 56 (by decide)) (t 11 4 0 (by decide))).trans ?_)
  rw [arms38, t 21 5 14 (by decide)]
  refine (if_pos ⟨t 11 10 0 (by decide), t 0 6 0 (by decide)⟩).trans ?_
  rw [field_of g0]

theorem Encoding.mcfg (s : BitVec 5) : Statement (.mcfg s) := by
  refine ⟨fun _ _ => ?_, fun _ h => (Bool.false_ne_true h).elim⟩
  obtain ⟨W, e, ⟨g0, -⟩, t⟩ := asm_reads 0xE1E00000 [(s.toNat, 6, 5)] [(s.toNat, 6)] [(6, 5)] rfl rfl (by decide +kernel) ⟨s.isLt, trivial⟩
  refine (congrArg decode e).trans ((to38 (t 26 6 56 (by decide)) (t 11 4 0 (by decide))).trans ?_)
  rw [arms38, t 21 5 15 (by decide)]
  refine (if_pos ⟨t 11 10 0 (by decide), t 0 6 0 (by decide)⟩).trans ?_
  rw [field_of g0]

theorem Encoding.cmdNop : Statement (.cmdNop) := by
  refine ⟨fun _ h => (Bool.false_ne_true h).elim, fun _ _ => ?_⟩
  obtain ⟨W, e, -, t⟩ := asm_reads 0x01000000 [] [] [] rfl rfl (by decide +kernel) trivial
  refine (congrArg (decodeCommand · 0 0) e).trans ?_
  rw [decodeCommand, t 24 8 1 (by decide)]
  refine (if_pos (t 0 24 0 (by decide))).trans ?_
  rfl

theorem Encoding.cmdHalt (k : BitVec 16) : Statement (.cmdHalt k) := by
  refine ⟨fun _ h => (Bool.false_ne_true h).elim, fun _ _ => ?_⟩
  obtain ⟨W, e, ⟨g0, -⟩, t⟩ := asm_reads 0x02000000 [(k.toNat, 0, 16)] [(k.toNat, 0)] [(0, 16)] rfl rfl (by decide +kernel) ⟨k.isLt, trivial⟩
  refine (congrArg (decodeCommand · 0 0) e).trans ?_
  rw [decodeCommand, t 24 8 2 (by decide)]
  refine (if_pos (t 16 8 0 (by decide))).trans ?_
  rw [field_of g0]

theorem Encoding.cmdLi (a : BitVec 4) (i : BitVec 16) : Statement (.cmdLi a i) := by
  refine ⟨fun _ h => (Bool.false_ne_true h).elim, fun _ _ => ?_⟩
  obtain ⟨W, e, ⟨g0, g1, -⟩, t⟩ := asm_reads 0x08000000 [(a.toNat, 20, 4), (i.toNat, 0, 16)] [(a.toNat, 20), (i.toNat, 0)] [(20, 4), (0, 16)] rfl rfl (by decide +kernel) ⟨a.isLt, i.isLt, trivial⟩
  refine (congrArg (decodeCommand · 0 0) e).trans ?_
  rw [decodeCommand, t 24 8 8 (by decide)]
  refine (if_pos (t 16 4 0 (by decide))).trans ?_
  rw [field_of g0, field_of g1]

theorem Encoding.cmdLil (a : BitVec 4) (lit : BitVec 64) : Statement (.cmdLil a lit) := by
  refine ⟨fun _ h => (Bool.false_ne_true h).elim, fun _ _ => ?_⟩
  obtain ⟨W, e, ⟨g0, -⟩, t⟩ := asm_reads 0x09000000 [(a.toNat, 20, 4)] [(a.toNat, 20)] [(20, 4)] rfl rfl (by decide +kernel) ⟨a.isLt, trivial⟩
  refine (congrArg (fun x => decodeCommand x (BitVec.ofNat 32 lit.toNat) (BitVec.ofNat 32 (lit.toNat / 2 ^ 32))) e).trans ?_
  rw [decodeCommand, t 24 8 9 (by decide)]
  refine (if_pos (t 0 20 0 (by decide))).trans ?_
  rw [field_of g0, literal_halves]

theorem Encoding.cmdAddi (a : BitVec 4) (b : BitVec 4) (i : BitVec 16) : Statement (.cmdAddi a b i) := by
  refine ⟨fun _ h => (Bool.false_ne_true h).elim, fun _ _ => ?_⟩
  obtain ⟨W, e, ⟨g0, g1, g2, -⟩, t⟩ := asm_reads 0x0A000000 [(a.toNat, 20, 4), (b.toNat, 16, 4), (i.toNat, 0, 16)] [(a.toNat, 20), (b.toNat, 16), (i.toNat, 0)] [(20, 4), (16, 4), (0, 16)] rfl rfl (by decide +kernel) ⟨a.isLt, b.isLt, i.isLt, trivial⟩
  refine (congrArg (decodeCommand · 0 0) e).trans ?_
  rw [decodeCommand, t 24 8 10 (by decide)]
  change Except.ok _ = _
  rw [field_of g0, field_of g1, field_of g2]

theorem Encoding.cmdAdd (a : BitVec 4) (b : BitVec 4) : Statement (.cmdAdd a b) := by
  refine ⟨fun _ h => (Bool.false_ne_true h).elim, fun _ _ => ?_⟩
  obtain ⟨W, e, ⟨g0, g1, -⟩, t⟩ := asm_reads 0x0B000000 [(a.toNat, 20, 4), (b.toNat, 16, 4)] [(a.toNat, 20), (b.toNat, 16)] [(20, 4), (16, 4)] rfl rfl (by decide +kernel) ⟨a.isLt, b.isLt, trivial⟩
  refine (congrArg (decodeCommand · 0 0) e).trans ?_
  rw [decodeCommand, t 24 8 11 (by decide)]
  refine (if_pos (t 0 16 0 (by decide))).trans ?_
  rw [field_of g0, field_of g1]

theorem Encoding.cmdSub (a : BitVec 4) (b : BitVec 4) : Statement (.cmdSub a b) := by
  refine ⟨fun _ h => (Bool.false_ne_true h).elim, fun _ _ => ?_⟩
  obtain ⟨W, e, ⟨g0, g1, -⟩, t⟩ := asm_reads 0x0C000000 [(a.toNat, 20, 4), (b.toNat, 16, 4)] [(a.toNat, 20), (b.toNat, 16)] [(20, 4), (16, 4)] rfl rfl (by decide +kernel) ⟨a.isLt, b.isLt, trivial⟩
  refine (congrArg (decodeCommand · 0 0) e).trans ?_
  rw [decodeCommand, t 24 8 12 (by decide)]
  refine (if_pos (t 0 16 0 (by decide))).trans ?_
  rw [field_of g0, field_of g1]

theorem Encoding.cmdAnd (a : BitVec 4) (b : BitVec 4) : Statement (.cmdAnd a b) := by
  refine ⟨fun _ h => (Bool.false_ne_true h).elim, fun _ _ => ?_⟩
  obtain ⟨W, e, ⟨g0, g1, -⟩, t⟩ := asm_reads 0x0D000000 [(a.toNat, 20, 4), (b.toNat, 16, 4)] [(a.toNat, 20), (b.toNat, 16)] [(20, 4), (16, 4)] rfl rfl (by decide +kernel) ⟨a.isLt, b.isLt, trivial⟩
  refine (congrArg (decodeCommand · 0 0) e).trans ?_
  rw [decodeCommand, t 24 8 13 (by decide)]
  refine (if_pos (t 0 16 0 (by decide))).trans ?_
  rw [field_of g0, field_of g1]

theorem Encoding.cmdOr (a : BitVec 4) (b : BitVec 4) : Statement (.cmdOr a b) := by
  refine ⟨fun _ h => (Bool.false_ne_true h).elim, fun _ _ => ?_⟩
  obtain ⟨W, e, ⟨g0, g1, -⟩, t⟩ := asm_reads 0x0E000000 [(a.toNat, 20, 4), (b.toNat, 16, 4)] [(a.toNat, 20), (b.toNat, 16)] [(20, 4), (16, 4)] rfl rfl (by decide +kernel) ⟨a.isLt, b.isLt, trivial⟩
  refine (congrArg (decodeCommand · 0 0) e).trans ?_
  rw [decodeCommand, t 24 8 14 (by decide)]
  refine (if_pos (t 0 16 0 (by decide))).trans ?_
  rw [field_of g0, field_of g1]

theorem Encoding.cmdShli (a : BitVec 4) (b : BitVec 4) (n : BitVec 6) : Statement (.cmdShli a b n) := by
  refine ⟨fun _ h => (Bool.false_ne_true h).elim, fun _ _ => ?_⟩
  obtain ⟨W, e, ⟨g0, g1, g2, -⟩, t⟩ := asm_reads 0x0F000000 [(a.toNat, 20, 4), (b.toNat, 16, 4), (n.toNat, 0, 6)] [(a.toNat, 20), (b.toNat, 16), (n.toNat, 0)] [(20, 4), (16, 4), (0, 6)] rfl rfl (by decide +kernel) ⟨a.isLt, b.isLt, n.isLt, trivial⟩
  refine (congrArg (decodeCommand · 0 0) e).trans ?_
  rw [decodeCommand, t 24 8 15 (by decide)]
  refine (if_pos (t 6 10 0 (by decide))).trans ?_
  rw [field_of g0, field_of g1, field_of g2]

theorem Encoding.cmdLd (a : BitVec 4) (b : BitVec 4) (i : BitVec 16) : Statement (.cmdLd a b i) := by
  refine ⟨fun _ h => (Bool.false_ne_true h).elim, fun _ _ => ?_⟩
  obtain ⟨W, e, ⟨g0, g1, g2, -⟩, t⟩ := asm_reads 0x10000000 [(a.toNat, 20, 4), (b.toNat, 16, 4), (i.toNat, 0, 16)] [(a.toNat, 20), (b.toNat, 16), (i.toNat, 0)] [(20, 4), (16, 4), (0, 16)] rfl rfl (by decide +kernel) ⟨a.isLt, b.isLt, i.isLt, trivial⟩
  refine (congrArg (decodeCommand · 0 0) e).trans ?_
  rw [decodeCommand, t 24 8 16 (by decide)]
  change Except.ok _ = _
  rw [field_of g0, field_of g1, field_of g2]

theorem Encoding.cmdSt (a : BitVec 4) (b : BitVec 4) (i : BitVec 16) : Statement (.cmdSt a b i) := by
  refine ⟨fun _ h => (Bool.false_ne_true h).elim, fun _ _ => ?_⟩
  obtain ⟨W, e, ⟨g0, g1, g2, -⟩, t⟩ := asm_reads 0x11000000 [(a.toNat, 20, 4), (b.toNat, 16, 4), (i.toNat, 0, 16)] [(a.toNat, 20), (b.toNat, 16), (i.toNat, 0)] [(20, 4), (16, 4), (0, 16)] rfl rfl (by decide +kernel) ⟨a.isLt, b.isLt, i.isLt, trivial⟩
  refine (congrArg (decodeCommand · 0 0) e).trans ?_
  rw [decodeCommand, t 24 8 17 (by decide)]
  change Except.ok _ = _
  rw [field_of g0, field_of g1, field_of g2]

theorem Encoding.cmdBeq (a : BitVec 4) (b : BitVec 4) (o : BitVec 16) : Statement (.cmdBeq a b o) := by
  refine ⟨fun _ h => (Bool.false_ne_true h).elim, fun _ _ => ?_⟩
  obtain ⟨W, e, ⟨g0, g1, g2, -⟩, t⟩ := asm_reads 0x18000000 [(a.toNat, 20, 4), (b.toNat, 16, 4), (o.toNat, 0, 16)] [(a.toNat, 20), (b.toNat, 16), (o.toNat, 0)] [(20, 4), (16, 4), (0, 16)] rfl rfl (by decide +kernel) ⟨a.isLt, b.isLt, o.isLt, trivial⟩
  refine (congrArg (decodeCommand · 0 0) e).trans ?_
  rw [decodeCommand, t 24 8 24 (by decide)]
  change Except.ok _ = _
  rw [field_of g0, field_of g1, field_of g2]

theorem Encoding.cmdBne (a : BitVec 4) (b : BitVec 4) (o : BitVec 16) : Statement (.cmdBne a b o) := by
  refine ⟨fun _ h => (Bool.false_ne_true h).elim, fun _ _ => ?_⟩
  obtain ⟨W, e, ⟨g0, g1, g2, -⟩, t⟩ := asm_reads 0x19000000 [(a.toNat, 20, 4), (b.toNat, 16, 4), (o.toNat, 0, 16)] [(a.toNat, 20), (b.toNat, 16), (o.toNat, 0)] [(20, 4), (16, 4), (0, 16)] rfl rfl (by decide +kernel) ⟨a.isLt, b.isLt, o.isLt, trivial⟩
  refine (congrArg (decodeCommand · 0 0) e).trans ?_
  rw [decodeCommand, t 24 8 25 (by decide)]
  change Except.ok _ = _
  rw [field_of g0, field_of g1, field_of g2]

theorem Encoding.cmdBlt (a : BitVec 4) (b : BitVec 4) (o : BitVec 16) : Statement (.cmdBlt a b o) := by
  refine ⟨fun _ h => (Bool.false_ne_true h).elim, fun _ _ => ?_⟩
  obtain ⟨W, e, ⟨g0, g1, g2, -⟩, t⟩ := asm_reads 0x1A000000 [(a.toNat, 20, 4), (b.toNat, 16, 4), (o.toNat, 0, 16)] [(a.toNat, 20), (b.toNat, 16), (o.toNat, 0)] [(20, 4), (16, 4), (0, 16)] rfl rfl (by decide +kernel) ⟨a.isLt, b.isLt, o.isLt, trivial⟩
  refine (congrArg (decodeCommand · 0 0) e).trans ?_
  rw [decodeCommand, t 24 8 26 (by decide)]
  change Except.ok _ = _
  rw [field_of g0, field_of g1, field_of g2]

theorem Encoding.cmdLoop (a : BitVec 4) (o : BitVec 16) : Statement (.cmdLoop a o) := by
  refine ⟨fun _ h => (Bool.false_ne_true h).elim, fun _ _ => ?_⟩
  obtain ⟨W, e, ⟨g0, g1, -⟩, t⟩ := asm_reads 0x1B000000 [(a.toNat, 20, 4), (o.toNat, 0, 16)] [(a.toNat, 20), (o.toNat, 0)] [(20, 4), (0, 16)] rfl rfl (by decide +kernel) ⟨a.isLt, o.isLt, trivial⟩
  refine (congrArg (decodeCommand · 0 0) e).trans ?_
  rw [decodeCommand, t 24 8 27 (by decide)]
  refine (if_pos (t 16 4 0 (by decide))).trans ?_
  rw [field_of g0, field_of g1]

theorem Encoding.cmdCall (lit : BitVec 64) : Statement (.cmdCall lit) := by
  refine ⟨fun _ h => (Bool.false_ne_true h).elim, fun _ _ => ?_⟩
  obtain ⟨W, e, -, t⟩ := asm_reads 0x1C000000 [] [] [] rfl rfl (by decide +kernel) trivial
  refine (congrArg (fun x => decodeCommand x (BitVec.ofNat 32 lit.toNat) (BitVec.ofNat 32 (lit.toNat / 2 ^ 32))) e).trans ?_
  rw [decodeCommand, t 24 8 28 (by decide)]
  refine (if_pos (t 0 24 0 (by decide))).trans ?_
  rw [literal_halves]

theorem Encoding.cmdRet : Statement (.cmdRet) := by
  refine ⟨fun _ h => (Bool.false_ne_true h).elim, fun _ _ => ?_⟩
  obtain ⟨W, e, -, t⟩ := asm_reads 0x1D000000 [] [] [] rfl rfl (by decide +kernel) trivial
  refine (congrArg (decodeCommand · 0 0) e).trans ?_
  rw [decodeCommand, t 24 8 29 (by decide)]
  refine (if_pos (t 0 24 0 (by decide))).trans ?_
  rfl

theorem Encoding.cmdLink (lit : BitVec 64) : Statement (.cmdLink lit) := by
  refine ⟨fun _ h => (Bool.false_ne_true h).elim, fun _ _ => ?_⟩
  obtain ⟨W, e, -, t⟩ := asm_reads 0x1E000000 [] [] [] rfl rfl (by decide +kernel) trivial
  refine (congrArg (fun x => decodeCommand x (BitVec.ofNat 32 lit.toNat) (BitVec.ofNat 32 (lit.toNat / 2 ^ 32))) e).trans ?_
  rw [decodeCommand, t 24 8 30 (by decide)]
  refine (if_pos (t 0 24 0 (by decide))).trans ?_
  rw [literal_halves]

theorem Encoding.cmdLaunch (a : BitVec 4) (b : BitVec 4) (p : BitVec 3) (d : BitVec 1) : Statement (.cmdLaunch a b p d) := by
  refine ⟨fun _ h => (Bool.false_ne_true h).elim, fun _ _ => ?_⟩
  obtain ⟨W, e, ⟨g0, g1, g2, g3, -⟩, t⟩ := asm_reads 0x20000000 [(a.toNat, 20, 4), (b.toNat, 16, 4), (p.toNat, 8, 3), (d.toNat, 0, 1)] [(a.toNat, 20), (b.toNat, 16), (p.toNat, 8), (d.toNat, 0)] [(20, 4), (16, 4), (8, 3), (0, 1)] rfl rfl (by decide +kernel) ⟨a.isLt, b.isLt, p.isLt, d.isLt, trivial⟩
  refine (congrArg (decodeCommand · 0 0) e).trans ?_
  rw [decodeCommand, t 24 8 32 (by decide)]
  refine (if_pos ⟨t 11 5 0 (by decide), t 1 7 0 (by decide)⟩).trans ?_
  rw [field_of g0, field_of g1, field_of g2, field_of g3]

theorem Encoding.cmdLaunchm (a : BitVec 4) (b : BitVec 4) (p : BitVec 3) (d : BitVec 1) : Statement (.cmdLaunchm a b p d) := by
  refine ⟨fun _ h => (Bool.false_ne_true h).elim, fun _ _ => ?_⟩
  obtain ⟨W, e, ⟨g0, g1, g2, g3, -⟩, t⟩ := asm_reads 0x21000000 [(a.toNat, 20, 4), (b.toNat, 16, 4), (p.toNat, 8, 3), (d.toNat, 0, 1)] [(a.toNat, 20), (b.toNat, 16), (p.toNat, 8), (d.toNat, 0)] [(20, 4), (16, 4), (8, 3), (0, 1)] rfl rfl (by decide +kernel) ⟨a.isLt, b.isLt, p.isLt, d.isLt, trivial⟩
  refine (congrArg (decodeCommand · 0 0) e).trans ?_
  rw [decodeCommand, t 24 8 33 (by decide)]
  refine (if_pos ⟨t 11 5 0 (by decide), t 1 7 0 (by decide)⟩).trans ?_
  rw [field_of g0, field_of g1, field_of g2, field_of g3]

theorem Encoding.cmdSplice : Statement (.cmdSplice) := by
  refine ⟨fun _ h => (Bool.false_ne_true h).elim, fun _ _ => ?_⟩
  obtain ⟨W, e, -, t⟩ := asm_reads 0x22000000 [] [] [] rfl rfl (by decide +kernel) trivial
  refine (congrArg (decodeCommand · 0 0) e).trans ?_
  rw [decodeCommand, t 24 8 34 (by decide)]
  refine (if_pos (t 0 24 0 (by decide))).trans ?_
  rfl

theorem Encoding.cmdChapp (a : BitVec 4) (b : BitVec 4) (n : BitVec 6) : Statement (.cmdChapp a b n) := by
  refine ⟨fun _ h => (Bool.false_ne_true h).elim, fun _ _ => ?_⟩
  obtain ⟨W, e, ⟨g0, g1, g2, -⟩, t⟩ := asm_reads 0x23000000 [(a.toNat, 20, 4), (b.toNat, 16, 4), (n.toNat, 0, 6)] [(a.toNat, 20), (b.toNat, 16), (n.toNat, 0)] [(20, 4), (16, 4), (0, 6)] rfl rfl (by decide +kernel) ⟨a.isLt, b.isLt, n.isLt, trivial⟩
  refine (congrArg (decodeCommand · 0 0) e).trans ?_
  rw [decodeCommand, t 24 8 35 (by decide)]
  refine (if_pos (t 6 10 0 (by decide))).trans ?_
  rw [field_of g0, field_of g1, field_of g2]

theorem Encoding.cmdWait (b : BitVec 4) (y : BitVec 4) (c : BitVec 9) : Statement (.cmdWait b y c) := by
  refine ⟨fun _ h => (Bool.false_ne_true h).elim, fun _ _ => ?_⟩
  obtain ⟨W, e, ⟨g0, g1, g2, -⟩, t⟩ := asm_reads 0x24000000 [(b.toNat, 16, 4), (y.toNat, 9, 4), (c.toNat, 0, 9)] [(b.toNat, 16), (y.toNat, 9), (c.toNat, 0)] [(16, 4), (9, 4), (0, 9)] rfl rfl (by decide +kernel) ⟨b.isLt, y.isLt, c.isLt, trivial⟩
  refine (congrArg (decodeCommand · 0 0) e).trans ?_
  rw [decodeCommand, t 24 8 36 (by decide)]
  refine (if_pos ⟨t 20 4 0 (by decide), t 13 3 0 (by decide)⟩).trans ?_
  rw [field_of g0, field_of g1, field_of g2]

theorem Encoding.cmdSignal (b : BitVec 4) (y : BitVec 4) (c : BitVec 9) : Statement (.cmdSignal b y c) := by
  refine ⟨fun _ h => (Bool.false_ne_true h).elim, fun _ _ => ?_⟩
  obtain ⟨W, e, ⟨g0, g1, g2, -⟩, t⟩ := asm_reads 0x25000000 [(b.toNat, 16, 4), (y.toNat, 9, 4), (c.toNat, 0, 9)] [(b.toNat, 16), (y.toNat, 9), (c.toNat, 0)] [(16, 4), (9, 4), (0, 9)] rfl rfl (by decide +kernel) ⟨b.isLt, y.isLt, c.isLt, trivial⟩
  refine (congrArg (decodeCommand · 0 0) e).trans ?_
  rw [decodeCommand, t 24 8 37 (by decide)]
  refine (if_pos ⟨t 20 4 0 (by decide), t 13 3 0 (by decide)⟩).trans ?_
  rw [field_of g0, field_of g1, field_of g2]

theorem Encoding.cmdFence : Statement (.cmdFence) := by
  refine ⟨fun _ h => (Bool.false_ne_true h).elim, fun _ _ => ?_⟩
  obtain ⟨W, e, -, t⟩ := asm_reads 0x26000000 [] [] [] rfl rfl (by decide +kernel) trivial
  refine (congrArg (decodeCommand · 0 0) e).trans ?_
  rw [decodeCommand, t 24 8 38 (by decide)]
  refine (if_pos (t 0 24 0 (by decide))).trans ?_
  rfl

theorem Encoding.launchPlaceRange (lid : Nat) : Statement (.launchPlaceRange lid) := ⟨fun _ h => (Bool.false_ne_true h).elim, fun _ h => (Bool.false_ne_true h).elim⟩

theorem Encoding.launchComplete (lid : Nat) : Statement (.launchComplete lid) := ⟨fun _ h => (Bool.false_ne_true h).elim, fun _ h => (Bool.false_ne_true h).elim⟩

theorem Encoding.registerWrite (w : Window) (off : Nat) (v : Dword) (epoch : Nat) : Statement (.registerWrite w off v epoch) := ⟨fun _ h => (Bool.false_ne_true h).elim, fun _ h => (Bool.false_ne_true h).elim⟩

theorem Encoding.cxStop (part : Nat) : Statement (.cxStop part) := ⟨fun _ h => (Bool.false_ne_true h).elim, fun _ h => (Bool.false_ne_true h).elim⟩

theorem Encoding.cxSave (part : Nat) : Statement (.cxSave part) := ⟨fun _ h => (Bool.false_ne_true h).elim, fun _ h => (Bool.false_ne_true h).elim⟩

theorem Encoding.cxRestore (part : Nat) : Statement (.cxRestore part) := ⟨fun _ h => (Bool.false_ne_true h).elim, fun _ h => (Bool.false_ne_true h).elim⟩

theorem Encoding.cxResume (part : Nat) : Statement (.cxResume part) := ⟨fun _ h => (Bool.false_ne_true h).elim, fun _ h => (Bool.false_ne_true h).elim⟩

theorem Encoding.cxCommandComplete (part : Nat) : Statement (.cxCommandComplete part) := ⟨fun _ h => (Bool.false_ne_true h).elim, fun _ h => (Bool.false_ne_true h).elim⟩

theorem Encoding.cxdataRead (part : Nat) : Statement (.cxdataRead part) := ⟨fun _ h => (Bool.false_ne_true h).elim, fun _ h => (Bool.false_ne_true h).elim⟩

theorem Encoding.cxdataWrite (part : Nat) (v : Dword) : Statement (.cxdataWrite part v) := ⟨fun _ h => (Bool.false_ne_true h).elim, fun _ h => (Bool.false_ne_true h).elim⟩

theorem Encoding.debugStopCmd (part : Nat) : Statement (.debugStopCmd part) := ⟨fun _ h => (Bool.false_ne_true h).elim, fun _ h => (Bool.false_ne_true h).elim⟩

theorem Encoding.debugStep (part : Nat) : Statement (.debugStep part) := ⟨fun _ h => (Bool.false_ne_true h).elim, fun _ h => (Bool.false_ne_true h).elim⟩

theorem Encoding.breakpointHit (flat : Nat) : Statement (.breakpointHit flat) := ⟨fun _ h => (Bool.false_ne_true h).elim, fun _ h => (Bool.false_ne_true h).elim⟩

theorem Encoding.debugStopDrained (flat : Nat) : Statement (.debugStopDrained flat) := ⟨fun _ h => (Bool.false_ne_true h).elim, fun _ h => (Bool.false_ne_true h).elim⟩

theorem Encoding.kill (part : Nat) (flat : Nat) : Statement (.kill part flat) := ⟨fun _ h => (Bool.false_ne_true h).elim, fun _ h => (Bool.false_ne_true h).elim⟩

theorem Encoding.killDone (part : Nat) : Statement (.killDone part) := ⟨fun _ h => (Bool.false_ne_true h).elim, fun _ h => (Bool.false_ne_true h).elim⟩

theorem Encoding.partitionCreate (part : Nat) : Statement (.partitionCreate part) := ⟨fun _ h => (Bool.false_ne_true h).elim, fun _ h => (Bool.false_ne_true h).elim⟩

theorem Encoding.partitionDestroy (part : Nat) : Statement (.partitionDestroy part) := ⟨fun _ h => (Bool.false_ne_true h).elim, fun _ h => (Bool.false_ne_true h).elim⟩

theorem Encoding.invalidateGo (part : Nat) (stage2 : Bool) (die : Nat) (core : Nat) : Statement (.invalidateGo part stage2 die core) := ⟨fun _ h => (Bool.false_ne_true h).elim, fun _ h => (Bool.false_ne_true h).elim⟩

theorem Encoding.invalidationComplete (part : Nat) (stage2 : Bool) : Statement (.invalidationComplete part stage2) := ⟨fun _ h => (Bool.false_ne_true h).elim, fun _ h => (Bool.false_ne_true h).elim⟩

theorem Encoding.ptEditRecord (part : Nat) (stage2 : Bool) (addr : Nat) (v : Dword) (page : Nat) (pages : Nat) (die : Nat) (core : Nat) : Statement (.ptEditRecord part stage2 addr v page pages die core) := ⟨fun _ h => (Bool.false_ne_true h).elim, fun _ h => (Bool.false_ne_true h).elim⟩

theorem Encoding.queueBind (die : Nat) (slot : Nat) : Statement (.queueBind die slot) := ⟨fun _ h => (Bool.false_ne_true h).elim, fun _ h => (Bool.false_ne_true h).elim⟩

theorem Encoding.queueHoldClear (die : Nat) (slot : Nat) : Statement (.queueHoldClear die slot) := ⟨fun _ h => (Bool.false_ne_true h).elim, fun _ h => (Bool.false_ne_true h).elim⟩

theorem Encoding.qfreePop (die : Nat) (slot : Nat) : Statement (.qfreePop die slot) := ⟨fun _ h => (Bool.false_ne_true h).elim, fun _ h => (Bool.false_ne_true h).elim⟩

theorem Encoding.qfreePush (die : Nat) (slot : Nat) (v : Dword) : Statement (.qfreePush die slot v) := ⟨fun _ h => (Bool.false_ne_true h).elim, fun _ h => (Bool.false_ne_true h).elim⟩

theorem Encoding.leaseRenew (die : Nat) (epoch : Nat) : Statement (.leaseRenew die epoch) := ⟨fun _ h => (Bool.false_ne_true h).elim, fun _ h => (Bool.false_ne_true h).elim⟩

theorem Encoding.leaseTake (die : Nat) : Statement (.leaseTake die) := ⟨fun _ h => (Bool.false_ne_true h).elim, fun _ h => (Bool.false_ne_true h).elim⟩

theorem Encoding.leaseHand (die : Nat) (dst : Nat) (epoch : Nat) : Statement (.leaseHand die dst epoch) := ⟨fun _ h => (Bool.false_ne_true h).elim, fun _ h => (Bool.false_ne_true h).elim⟩

theorem Encoding.fwHeartbeat (die : Nat) : Statement (.fwHeartbeat die) := ⟨fun _ h => (Bool.false_ne_true h).elim, fun _ h => (Bool.false_ne_true h).elim⟩

theorem Encoding.healthTimeout (die : Nat) : Statement (.healthTimeout die) := ⟨fun _ h => (Bool.false_ne_true h).elim, fun _ h => (Bool.false_ne_true h).elim⟩

theorem Encoding.dieFence (die : Nat) : Statement (.dieFence die) := ⟨fun _ h => (Bool.false_ne_true h).elim, fun _ h => (Bool.false_ne_true h).elim⟩

theorem Encoding.regmapWrite (hi : Bool) (v : Dword) : Statement (.regmapWrite hi v) := ⟨fun _ h => (Bool.false_ne_true h).elim, fun _ h => (Bool.false_ne_true h).elim⟩

theorem Encoding.bayRegulatorMove (bay : Nat) : Statement (.bayRegulatorMove bay) := ⟨fun _ h => (Bool.false_ne_true h).elim, fun _ h => (Bool.false_ne_true h).elim⟩

theorem Encoding.chstatStopClear (part : Nat) (die : Nat) (chain : Nat) : Statement (.chstatStopClear part die chain) := ⟨fun _ h => (Bool.false_ne_true h).elim, fun _ h => (Bool.false_ne_true h).elim⟩

theorem Encoding.startRecordClear (n : Nat) : Statement (.startRecordClear n) := ⟨fun _ h => (Bool.false_ne_true h).elim, fun _ h => (Bool.false_ne_true h).elim⟩

theorem Encoding.coldBoot (pass : BitVec 12) (alt : BitVec 12) (details : List Nat) : Statement (.coldBoot pass alt details) := ⟨fun _ h => (Bool.false_ne_true h).elim, fun _ h => (Bool.false_ne_true h).elim⟩

theorem Encoding.unitMapOut (unit : Nat) : Statement (.unitMapOut unit) := ⟨fun _ h => (Bool.false_ne_true h).elim, fun _ h => (Bool.false_ne_true h).elim⟩

theorem Encoding.pmlLinkUp (port : Nat) : Statement (.pmlLinkUp port) := ⟨fun _ h => (Bool.false_ne_true h).elim, fun _ h => (Bool.false_ne_true h).elim⟩

theorem Encoding.holdEntry : Statement (.holdEntry) := ⟨fun _ h => (Bool.false_ne_true h).elim, fun _ h => (Bool.false_ne_true h).elim⟩

theorem Encoding.holdDeadline (epoch : Nat) : Statement (.holdDeadline epoch) := ⟨fun _ h => (Bool.false_ne_true h).elim, fun _ h => (Bool.false_ne_true h).elim⟩

theorem Encoding.pwarnFall : Statement (.pwarnFall) := ⟨fun _ h => (Bool.false_ne_true h).elim, fun _ h => (Bool.false_ne_true h).elim⟩

theorem Encoding.holdResume (epoch : Nat) : Statement (.holdResume epoch) := ⟨fun _ h => (Bool.false_ne_true h).elim, fun _ h => (Bool.false_ne_true h).elim⟩

theorem Encoding.holdSupplyLoss : Statement (.holdSupplyLoss) := ⟨fun _ h => (Bool.false_ne_true h).elim, fun _ h => (Bool.false_ne_true h).elim⟩

theorem Encoding.droop (bay : Nat) (slots : Nat) : Statement (.droop bay slots) := ⟨fun _ h => (Bool.false_ne_true h).elim, fun _ h => (Bool.false_ne_true h).elim⟩

theorem Encoding.droopEnd (bay : Nat) : Statement (.droopEnd bay) := ⟨fun _ h => (Bool.false_ne_true h).elim, fun _ h => (Bool.false_ne_true h).elim⟩

theorem Encoding.chandlerLoop (targets : List Nat) (sensors : List Nat) (energies : List Nat) : Statement (.chandlerLoop targets sensors energies) := ⟨fun _ h => (Bool.false_ne_true h).elim, fun _ h => (Bool.false_ne_true h).elim⟩

theorem Encoding.targetTimeout (domain : Nat) : Statement (.targetTimeout domain) := ⟨fun _ h => (Bool.false_ne_true h).elim, fun _ h => (Bool.false_ne_true h).elim⟩

theorem Encoding.millCapUpdate (mill : Nat) : Statement (.millCapUpdate mill) := ⟨fun _ h => (Bool.false_ne_true h).elim, fun _ h => (Bool.false_ne_true h).elim⟩

theorem Encoding.ballastEnd (mill : Nat) : Statement (.ballastEnd mill) := ⟨fun _ h => (Bool.false_ne_true h).elim, fun _ h => (Bool.false_ne_true h).elim⟩

theorem Encoding.tierMigration (g : Nat) (target : Nat) (exchange : Bool) : Statement (.tierMigration g target exchange) := ⟨fun _ h => (Bool.false_ne_true h).elim, fun _ h => (Bool.false_ne_true h).elim⟩

theorem Encoding.arbiterCycle (mill : Nat) : Statement (.arbiterCycle mill) := ⟨fun _ h => (Bool.false_ne_true h).elim, fun _ h => (Bool.false_ne_true h).elim⟩

theorem Encoding.grantApply (flat : Nat) : Statement (.grantApply flat) := ⟨fun _ h => (Bool.false_ne_true h).elim, fun _ h => (Bool.false_ne_true h).elim⟩

theorem Encoding.vfetchComplete (flat : Nat) : Statement (.vfetchComplete flat) := ⟨fun _ h => (Bool.false_ne_true h).elim, fun _ h => (Bool.false_ne_true h).elim⟩

theorem Encoding.waitEnd (flat : Nat) : Statement (.waitEnd flat) := ⟨fun _ h => (Bool.false_ne_true h).elim, fun _ h => (Bool.false_ne_true h).elim⟩

theorem Encoding.sleepExpiry (flat : Nat) : Statement (.sleepExpiry flat) := ⟨fun _ h => (Bool.false_ne_true h).elim, fun _ h => (Bool.false_ne_true h).elim⟩

theorem Encoding.xqEntryComplete (flat : Nat) (failed : Bool) : Statement (.xqEntryComplete flat failed) := ⟨fun _ h => (Bool.false_ne_true h).elim, fun _ h => (Bool.false_ne_true h).elim⟩

theorem Encoding.streamBindingStart (mill : Nat) (port : Nat) : Statement (.streamBindingStart mill port) := ⟨fun _ h => (Bool.false_ne_true h).elim, fun _ h => (Bool.false_ne_true h).elim⟩

theorem Encoding.streamFetch (mill : Nat) (port : Nat) : Statement (.streamFetch mill port) := ⟨fun _ h => (Bool.false_ne_true h).elim, fun _ h => (Bool.false_ne_true h).elim⟩

theorem Encoding.engineJobStart (part : Nat) (die : Nat) (chain : Nat) : Statement (.engineJobStart part die chain) := ⟨fun _ h => (Bool.false_ne_true h).elim, fun _ h => (Bool.false_ne_true h).elim⟩

theorem Encoding.jobComplete (job : Nat) (outcome : Nat) : Statement (.jobComplete job outcome) := ⟨fun _ h => (Bool.false_ne_true h).elim, fun _ h => (Bool.false_ne_true h).elim⟩

theorem Encoding.foldContribution (job : Nat) : Statement (.foldContribution job) := ⟨fun _ h => (Bool.false_ne_true h).elim, fun _ h => (Bool.false_ne_true h).elim⟩

theorem Encoding.matrixOpComplete (mill : Nat) (fail : Option Nat) : Statement (.matrixOpComplete mill fail) := ⟨fun _ h => (Bool.false_ne_true h).elim, fun _ h => (Bool.false_ne_true h).elim⟩

theorem Encoding.msigRaise (flat : Nat) : Statement (.msigRaise flat) := ⟨fun _ h => (Bool.false_ne_true h).elim, fun _ h => (Bool.false_ne_true h).elim⟩

theorem Encoding.hostWrite (part : Nat) (addr : Nat) (bytes : List Byte) : Statement (.hostWrite part addr bytes) := ⟨fun _ h => (Bool.false_ne_true h).elim, fun _ h => (Bool.false_ne_true h).elim⟩

theorem Encoding.hostRead (part : Nat) (addr : Nat) (n : Nat) : Statement (.hostRead part addr n) := ⟨fun _ h => (Bool.false_ne_true h).elim, fun _ h => (Bool.false_ne_true h).elim⟩

theorem Encoding.peerRequest (tag : Nat) (addr : Nat) (op : Nat) (args : List Nat) (bytes : List Byte) : Statement (.peerRequest tag addr op args bytes) := ⟨fun _ h => (Bool.false_ne_true h).elim, fun _ h => (Bool.false_ne_true h).elim⟩

theorem Encoding.spdmGetVersion (part : Nat) (epoch : Nat) : Statement (.spdmGetVersion part epoch) := ⟨fun _ h => (Bool.false_ne_true h).elim, fun _ h => (Bool.false_ne_true h).elim⟩

theorem Encoding.spdmGetCapabilities (part : Nat) (epoch : Nat) : Statement (.spdmGetCapabilities part epoch) := ⟨fun _ h => (Bool.false_ne_true h).elim, fun _ h => (Bool.false_ne_true h).elim⟩

theorem Encoding.spdmNegotiateAlgorithms (part : Nat) (epoch : Nat) (asym : Nat) (hash : Nat) : Statement (.spdmNegotiateAlgorithms part epoch asym hash) := ⟨fun _ h => (Bool.false_ne_true h).elim, fun _ h => (Bool.false_ne_true h).elim⟩

theorem Encoding.spdmGetDigests (part : Nat) (epoch : Nat) : Statement (.spdmGetDigests part epoch) := ⟨fun _ h => (Bool.false_ne_true h).elim, fun _ h => (Bool.false_ne_true h).elim⟩

theorem Encoding.spdmGetCertificate (part : Nat) (epoch : Nat) (off : Nat) (len : Nat) : Statement (.spdmGetCertificate part epoch off len) := ⟨fun _ h => (Bool.false_ne_true h).elim, fun _ h => (Bool.false_ne_true h).elim⟩

theorem Encoding.spdmChallenge (part : Nat) (epoch : Nat) (nonce : Nat) : Statement (.spdmChallenge part epoch nonce) := ⟨fun _ h => (Bool.false_ne_true h).elim, fun _ h => (Bool.false_ne_true h).elim⟩

theorem Encoding.spdmGetMeasurements (part : Nat) (epoch : Nat) (index : Nat) (nonce : Nat) : Statement (.spdmGetMeasurements part epoch index nonce) := ⟨fun _ h => (Bool.false_ne_true h).elim, fun _ h => (Bool.false_ne_true h).elim⟩

theorem Encoding.illegalInstruction (word : Word) : Statement (.illegalInstruction word) := ⟨fun _ h => (Bool.false_ne_true h).elim, fun _ h => (Bool.false_ne_true h).elim⟩

theorem Encoding.fetchOutsideImage : Statement (.fetchOutsideImage) := ⟨fun _ h => (Bool.false_ne_true h).elim, fun _ h => (Bool.false_ne_true h).elim⟩

theorem Encoding.illegalCommand (word : Word) : Statement (.illegalCommand word) := ⟨fun _ h => (Bool.false_ne_true h).elim, fun _ h => (Bool.false_ne_true h).elim⟩

theorem Encoding.pmlLinkDown (port : Nat) : Statement (.pmlLinkDown port) := ⟨fun _ h => (Bool.false_ne_true h).elim, fun _ h => (Bool.false_ne_true h).elim⟩

theorem Encoding.hostConfigRequest (reg : Nat) : Statement (.hostConfigRequest reg) := ⟨fun _ h => (Bool.false_ne_true h).elim, fun _ h => (Bool.false_ne_true h).elim⟩

end

end Sys2Proof.Laws
end

