-- ==== Sys2Proof/Laws/Slice.lean ====
section
/-! SUPPORT. The vector file: bytes read back as written, groups that do not meet, and what a partly finished loop has written. -/

namespace Sys2Proof.Laws

open Sys2Proof Sys2Proof.Machine Sys2Proof.Safety

/-! ### Bytes of the file -/

theorem sliceBytes_set_same (sl : BitVec 524288) (lo n v : Nat) (h : lo + n ≤ 65536) :
    sliceBytes (setSliceBytes sl lo n v) lo n = v % 2 ^ (8 * n) := bitsAt_setBits_same _ _ _ _ (by omega)

theorem sliceBytes_set_apart (sl : BitVec 524288) (lo n v lo' n' : Nat) (h : lo' + n' ≤ lo ∨ lo + n ≤ lo') :
    sliceBytes (setSliceBytes sl lo n v) lo' n' = sliceBytes sl lo' n' := bitsAt_setBits_apart _ _ _ _ _ _ (by omega)

/-- Some bytes are alike when each of them is. -/
theorem sliceBytes_ext {a b : BitVec 524288} {lo n : Nat}
    (h : ∀ k, lo ≤ k → k < lo + n → sliceBytes a k 1 = sliceBytes b k 1) : sliceBytes a lo n = sliceBytes b lo n := by
  apply Nat.eq_of_testBit_eq
  intro i
  unfold sliceBytes
  rw [testBit_bitsAt, testBit_bitsAt]
  by_cases hi : i < 8 * n
  · have hk := congrArg (fun x => x.testBit (i % 8)) (h (lo + i / 8) (by omega) (by omega))
    simp only [sliceBytes, testBit_bitsAt] at hk
    have e : 8 * (lo + i / 8) + i % 8 = 8 * lo + i := by omega
    simpa [hi, show i % 8 < 8 by omega, e] using hk
  · simp [hi]

/-! ### Groups -/

theorem g_dvd (c : Ctx) : ∃ k, k ≤ 3 ∧ c.g = 2 ^ k := ⟨bitsAt c.vtype 2 2, by have := bitsAt_lt c.vtype 2 2; omega, rfl⟩

theorem nreg_form (c : Ctx) : ∃ k, k ≤ 3 ∧ c.nreg = 2 ^ (3 + k) ∧ c.regBytes = 2 ^ (13 - k) := by
  refine ⟨c.nregCode, by have := bitsAt_lt c.vtype 0 2; unfold Ctx.nregCode; omega, ?_, ?_⟩
  · unfold Ctx.nreg; rw [pow_add]; rfl
  · have h : c.nregCode < 4 := bitsAt_lt c.vtype 0 2
    unfold Ctx.regBytes Ctx.nreg
    interval_cases c.nregCode <;> rfl

/-- A group lies within the file. -/
theorem group_inside {c : Ctx} {n : Nat} (h : c.groupOk n = true) : n * c.regBytes + c.groupBytes ≤ 65536 := by
  obtain ⟨k, hk, hg⟩ := g_dvd c
  obtain ⟨m, hm, hn, hr⟩ := nreg_form c
  simp only [Ctx.groupOk, Bool.and_eq_true, decide_eq_true_eq] at h
  obtain ⟨h1, h2⟩ := h
  unfold Ctx.groupBytes
  obtain ⟨q, rfl⟩ : c.g ∣ n := Nat.dvd_of_mod_eq_zero h2
  have h3 : c.g * q + c.g ≤ c.nreg := by
    rw [hn, hg] at *
    have : (2 : Nat) ^ k ∣ 2 ^ (3 + m) := pow_dvd_pow 2 (by omega)
    obtain ⟨r, hr'⟩ := this
    rw [hr'] at h1 ⊢
    have : q < r := Nat.lt_of_mul_lt_mul_left h1
    calc 2 ^ k * q + 2 ^ k = 2 ^ k * (q + 1) := by ring
      _ ≤ 2 ^ k * r := Nat.mul_le_mul_left _ this
  calc c.g * q * c.regBytes + c.regBytes * c.g = (c.g * q + c.g) * c.regBytes := by ring
    _ ≤ c.nreg * c.regBytes := Nat.mul_le_mul_right _ h3
    _ = 65536 := by
      rw [hn, hr, ← pow_add]
      have : 3 + m + (13 - m) = 16 := by omega
      rw [this]; rfl

/-- Two groups are the same or do not meet. -/
theorem groups_apart {c : Ctx} {n d : Nat} (hn : c.groupOk n = true) (hd : c.groupOk d = true) (h : n ≠ d) :
    n * c.regBytes + c.groupBytes ≤ d * c.regBytes ∨ d * c.regBytes + c.groupBytes ≤ n * c.regBytes := by
  simp only [Ctx.groupOk, Bool.and_eq_true, decide_eq_true_eq] at hn hd
  obtain ⟨k, hk, hg⟩ := g_dvd c
  have hpos : 0 < c.g := by rw [hg]; positivity
  obtain ⟨p, rfl⟩ : c.g ∣ n := Nat.dvd_of_mod_eq_zero hn.2
  obtain ⟨q, rfl⟩ : c.g ∣ d := Nat.dvd_of_mod_eq_zero hd.2
  unfold Ctx.groupBytes
  have hpq : p ≠ q := fun e => h (by rw [e])
  rcases Nat.lt_or_gt_of_ne hpq with hlt | hlt
  · left
    calc c.g * p * c.regBytes + c.regBytes * c.g = c.g * c.regBytes * (p + 1) := by ring
      _ ≤ c.g * c.regBytes * q := Nat.mul_le_mul_left _ hlt
      _ = c.g * q * c.regBytes := by ring
  · right
    calc c.g * q * c.regBytes + c.regBytes * c.g = c.g * c.regBytes * (q + 1) := by ring
      _ ≤ c.g * c.regBytes * p := Nat.mul_le_mul_left _ hlt
      _ = c.g * p * c.regBytes := by ring

/-! ### What a loop has written -/

/-- `GroupWritten` for a loop that has reached element `hi`. -/
def WrittenTo (c : Ctx) (sl : BitVec 524288) (d b pm : Nat) (r : Nat → Nat) (hi : Nat) : Prop :=
  (∀ i, c.vstart ≤ i → i < hi →
    sliceBytes sl (d * c.regBytes + i * b) b =
      if c.pbit pm i then r i % 2 ^ (8 * b) else sliceBytes c.slice (d * c.regBytes + i * b) b) ∧
  ∀ k, k < d * c.regBytes + c.vstart * b ∨ d * c.regBytes + hi * b ≤ k → sliceBytes sl k 1 = sliceBytes c.slice k 1

theorem writtenTo_start (c : Ctx) (d b pm : Nat) (r : Nat → Nat) : WrittenTo c c.slice d b pm r c.vstart :=
  ⟨fun i h1 h2 => absurd h2 (by omega), fun _ _ => rfl⟩

/-- The next element is written. -/
theorem writtenTo_active {c : Ctx} {sl : BitVec 524288} {d b pm i v : Nat} {r : Nat → Nat} (h : WrittenTo c sl d b pm r i)
    (hs : c.vstart ≤ i) (hin : d * c.regBytes + (i + 1) * b ≤ 65536) (hp : c.pbit pm i = true) (hv : v % 2 ^ (8 * b) = r i % 2 ^ (8 * b)) :
    WrittenTo c (setSliceBytes sl (d * c.regBytes + i * b) b v) d b pm r (i + 1) := by
  have hmul : (i + 1) * b = i * b + b := by ring
  refine ⟨fun j h1 h2 => ?_, fun k hk => ?_⟩
  · by_cases hj : j = i
    · subst hj
      rw [sliceBytes_set_same _ _ _ _ (by omega), if_pos hp, hv]
    · have hlt : j < i := by omega
      have : (j + 1) * b ≤ i * b := Nat.mul_le_mul_right _ hlt
      have e : (j + 1) * b = j * b + b := by ring
      rw [sliceBytes_set_apart _ _ _ _ _ _ (by omega)]
      exact h.1 j h1 hlt
  · have hle : c.vstart * b ≤ i * b := Nat.mul_le_mul_right _ hs
    rw [sliceBytes_set_apart _ _ _ _ _ _ (by omega)]
    exact h.2 k (by omega)

/-- The next element is inactive. -/
theorem writtenTo_inactive {c : Ctx} {sl : BitVec 524288} {d b pm i : Nat} {r : Nat → Nat} (h : WrittenTo c sl d b pm r i)
    (hs : c.vstart ≤ i) (hp : c.pbit pm i = false) : WrittenTo c sl d b pm r (i + 1) := by
  have hmul : (i + 1) * b = i * b + b := by ring
  refine ⟨fun j h1 h2 => ?_, fun k hk => h.2 k (by omega)⟩
  by_cases hj : j = i
  · subst hj
    rw [if_neg (by simp [hp])]
    exact sliceBytes_ext fun k h1 h2 => h.2 k (by omega)
  · exact h.1 j h1 (by omega)

/-- An element of a group that the loop has not written reads as before: of another group, or from element i of its own up. -/
theorem elem_kept {c c' : Ctx} {sl : BitVec 524288} {d b pm i : Nat} {r : Nat → Nat} (h : WrittenTo c sl d b pm r i)
    (hc : c'.slice = sl ∧ c'.vtype = c.vtype ∧ c'.vl = c.vl ∧ c'.vpad = c.vpad) (hd : c.groupOk d = true)
    (hfit : i * b ≤ c.groupBytes) {n : Nat} (hn : c.groupOk n = true) (m j : Nat) (hj : n = d → m = b ∧ i ≤ j) :
    c'.elem n m j = c.elem n m j := by
  obtain ⟨h1, h2, h3, h4⟩ := hc
  have hb : c'.groupBytes = c.groupBytes := by simp [Ctx.groupBytes, Ctx.regBytes, Ctx.nreg, Ctx.nregCode, Ctx.g, h2]
  have hr : c'.regBytes = c.regBytes := by simp [Ctx.regBytes, Ctx.nreg, Ctx.nregCode, h2]
  have hl : c'.reals = c.reals := by simp [Ctx.reals, h3, h4]
  unfold Ctx.elem
  rw [hb, hr, hl, h1]
  split
  · rename_i hlt
    apply sliceBytes_ext
    intro k hk1 hk2
    have e : (j + 1) * m = j * m + m := by ring
    apply h.2
    by_cases hnd : n = d
    · obtain ⟨rfl, hij⟩ := hj hnd
      subst hnd
      have := Nat.mul_le_mul_right m hij
      omega
    · have hbase : c.vstart * b ≤ i * b ∨ i * b < c.vstart * b := by omega
      rcases groups_apart hn hd hnd with ha | ha
      · left; omega
      · right; omega
  · rfl

end Sys2Proof.Laws
end

