-- ==== Sys2Proof/Laws/Vector.lean ====
section
/-! SUPPORT. The course of a vector instruction that a thread pushes into an empty queue: its loop, and the state it leaves. -/

namespace Sys2Proof.Laws

open Sys2Proof.Machine Sys2Proof.Safety

/-! ### The context while the instruction is in flight -/

/-- Context c with the instruction at its program counter, of queue entry q, in flight. -/
def inFlight (c0 : Ctx) (q : VqEntry) (c : Ctx) : Ctx :=
  { c with
    vq := [q], pc := c0.pc + 4, wait := none, passBreak := false, debugReq := if c0.stepping then 3 else c0.debugReq,
    stepping := false, reverted := false, slotted := 0, convoyHead := c0.pc, convoyCount := 1, convoyLeft := 1 }

/-- Two entries of one instruction, as far along. -/
def SameEntry (q' q : VqEntry) : Prop := q'.word = q.word ∧ q'.done = q.done

theorem SameEntry.refl (q : VqEntry) : SameEntry q q := ⟨rfl, rfl⟩
theorem SameEntry.trans {a b c : VqEntry} (h : SameEntry a b) (k : SameEntry b c) : SameEntry a c := ⟨h.1.trans k.1, h.2.trans k.2⟩

/-- The same before its first slot: what it waited for stands as it was. -/
def aboutTo (c0 : Ctx) (q : VqEntry) (c : Ctx) : Ctx := { inFlight c0 q c with slotted := c0.slotted }

/-- What an instruction changes as it is pushed is at most its VTYPE, tags, carry set and fold operators (R36). -/
def PushOnly (op : VOp) : Prop :=
  ∀ c : Ctx, op.push c = { c with
    vtype := (op.push c).vtype, vtag := (op.push c).vtag, vcarry := (op.push c).vcarry, vfoldop := (op.push c).vfoldop }

theorem pushOnly_id {op : VOp} (h : op.push = id) : PushOnly op := by
  intro c; rw [h]; rfl

/-- An instruction that is not one of OP 0x1E and leaves no result in the latch: it forms a convoy by itself (R272). -/
def Single (op : VOp) : Prop := isChain op.word = false ∧ opOf op.word ≠ 0x1E

theorem convoyAt_one {op : VOp} {c x : Ctx} (h : Single op) : x.convoyAt [op.entry c] = 1 := by
  obtain ⟨h1, h2⟩ := h
  have hw : (op.entry c).word = op.word := rfl
  unfold Ctx.convoyAt
  simp only [hw, h1, Bool.not_false, Bool.or_true, if_true]
  cases ha : aloneInConvoy op.word
  · simp [convoyLength, hw, ha, h1, h2]
  · rfl

theorem pushedCtx_fields {op : VOp} {c : Ctx} (hp : PushOnly op) : ∃ v t k o, pushedCtx op c = { State.pushEntry c (op.entry c) with
    vtype := v, vtag := t, vcarry := k, vfoldop := o } := by
  unfold pushedCtx
  split
  · exact ⟨_, _, _, _, rfl⟩
  · exact ⟨_, _, _, _, hp _⟩

theorem loopCtx_eq {op : VOp} {c : Ctx} (hp : PushOnly op) (h1 : Single op) (hq : c.vq = []) (hl : c.convoyLeft = 0) :
    loopCtx op c = aboutTo c (op.entry c) c := by
  obtain ⟨v, t, k, o, h⟩ := pushedCtx_fields (c := c) hp
  unfold loopCtx
  rw [h]
  unfold State.pushEntry Ctx.beginConvoy
  have hd : (op.entry c).done = false := rfl
  simp only [hl, hq, List.nil_append, ne_eq, not_true_eq_false, if_false, Ctx.doneAhead, List.takeWhile, hd, List.length_nil, List.drop_zero,
    convoyAt_one h1]
  rfl

/-- The convoy that begins changes nothing of the configuration. -/
theorem beginConvoy_config (c : Ctx) : c.beginConvoy.vtype = c.vtype ∧ c.beginConvoy.vtag = c.vtag ∧ c.beginConvoy.vcarry = c.vcarry ∧
    c.beginConvoy.vfoldop = c.vfoldop := by
  unfold Ctx.beginConvoy
  dsimp only
  split_ifs <;> exact ⟨rfl, rfl, rfl, rfl⟩

/-- The states in which the checks of an instruction are made, and in which its loop begins. -/
def readyState (op : VOp) (s : State) (f : Nat) : State := s.setCtx f (aboutTo (s.ctx f) (op.entry (s.ctx f)) (s.ctx f))
def beginState (op : VOp) (s : State) (f : Nat) : State := s.setCtx f (inFlight (s.ctx f) (op.entry (s.ctx f)) (s.ctx f))

/-- What the instruction read when it was pushed. -/
abbrev envOf (op : VOp) (s : State) (f : Nat) : Env := (op.entry (s.ctx f)).env f (s.ctx f).vstart

/-- The mill has counted the instruction, and no sample is taken. -/
theorem sample_off {s : State} {f k : Nat} (e : VqEntry) (b : Nat) (h : bitAt (s.reg (.cx (s.partOf f)) 0x60) 63 = false) :
    s.sample f k e b = s.modMill (millOf f) fun m => { m with samples := m.samples + 1 } := by
  unfold State.sample
  simp only [h, Bool.not_false, Bool.true_or, if_true]

theorem modMill_setCtx (s : State) (f m : Nat) (c : Ctx) (g : Mill → Mill) :
    (s.setCtx f c).modMill m g = (s.modMill m g).setCtx f c := rfl

/-- The one member of a convoy completes. -/
theorem complete_one {c : Ctx} {q : VqEntry} (h1 : isChain q.word = false) (hq : c.vq = [q]) (hd : q.done = false) (hl : c.convoyLeft = 1)
    (ho : c.order = []) (hw : c.wait = none) :
    c.complete 0 = { c with
      vq := [], convoyLeft := 0, convoyHead := if c.debugReq = 0 then 0 else c.convoyHead,
      convoyCount := if c.debugReq = 0 then 0 else c.convoyCount, vstart := 0, instret := c.instret + 1 } := by
  unfold Ctx.complete Ctx.atPlace Ctx.retireDone Ctx.behind
  simp [hq, hl, hd, ho, hw, retired, h1, headStart, Ctx.doneAhead]

theorem vector_begin {s : State} {f : Nat} {op : VOp} (h : VectorReady s f [op.sa, op.sb, op.dest]) : Begins s f op := by
  obtain ⟨hr, hf, hq, hl, hb, hla, hd, hs, hm, hx, -⟩ := h
  refine ⟨hr, hf, hq, hb, hd, hm, ?_⟩
  have h0 : ∀ n, State.viewCount (s.ctx f) n < 4095 := by
    intro n
    unfold State.viewCount
    have := List.length_filter_le (fun e : XqEntry => e.via.isNow n) (s.ctx f).xq
    have hst : (s.ctx f).stripsNow.1 = [] := by unfold Ctx.stripsNow; rw [hq]; rfl
    simp only [hst, List.filter_nil, List.map_nil, List.sum_nil]
    omega
  cases op.view with
  | none => simp
  | some n => exact h0 n

/-- With nothing ahead of it the instruction begins at VSTART. -/
theorem startAt_one {op : VOp} {c : Ctx} : (aboutTo c (op.entry c) c).startAt 0 (op.entry c) = c.vstart := rfl

/-- A vector instruction that passes its checks, waits for nothing and meets no fault at an element completes, and leaves what
its loop left. -/
theorem vector_next {s t u : State} {f : Nat} {i : Instr} {op : VOp} {c' : Ctx} {q : VqEntry} (h : VectorReady s f [op.sa, op.sb, op.dest])
    (hp : PushOnly op) (h1 : Single op) (hd : op.decode f (s.ctx f) = none) (hv : HasStrip (s.ctx f) ∨ op.always = true)
    (hi : op.issue (envOf op s f) (readyState op s f) = none)
    (hb : op.busy (envOf op s f) (op.limit (aboutTo (s.ctx f) (op.entry (s.ctx f)) (s.ctx f))) (readyState op s f) = none)
    (hr : op.run (envOf op s f) (s.ctx f).vstart (op.limit (aboutTo (s.ctx f) (op.entry (s.ctx f)) (s.ctx f)))
      (if (s.ctx f).vstart = 0 then op.begin' (envOf op s f) (beginState op s f) else beginState op s f) = .ok t)
    (hf : ∀ n, op.finish (envOf op s f) (t.chargeAlone f n) = (u.chargeAlone f n).setCtx f (inFlight (s.ctx f) q c'))
    (hq : q.word = op.word ∧ q.done = false) (ho : c'.order = [])
    (hu : u.ctx f = s.ctx f) (hs : bitAt (u.reg (.cx (u.partOf f)) 0x60) 63 = false) (hw : op.word = i.word)
    (hn : op.limit (aboutTo (s.ctx f) (op.entry (s.ctx f)) (s.ctx f)) = elementsOf i (s.ctx f)) :
    s.vector op = vnext u f i { c' with
      vtype := (pushedCtx op (s.ctx f)).vtype, vtag := (pushedCtx op (s.ctx f)).vtag,
      vcarry := (pushedCtx op (s.ctx f)).vcarry, vfoldop := (pushedCtx op (s.ctx f)).vfoldop } := by
  have hc := loopCtx_eq (op := op) hp h1 h.2.2.1 h.2.2.2.1
  have hst : checkState op f s = readyState op s f := by unfold checkState readyState; rw [hc]
  have hgo : loopState op f s = beginState op s f := by unfold loopState beginState; rw [hc]; rfl
  rw [vector_completes (vector_begin h) hd (by rw [hc]; exact Nat.one_ne_zero) (by rw [hc]; exact startAt_one) (by rw [hc]; exact hv)
    (by rw [hst]; exact hi) (by rw [hst, hc]; exact hb) (t := t) (by rw [hgo, hc]; exact hr)]
  have hg : groupsIssued op (s.ctx f) =
      State.groupsBetween (max 1 (256 / (s.ctx f).widestOf i.word)) (s.ctx f).vstart (elementsOf i (s.ctx f)) := by
    unfold groupsIssued
    rw [hc, hn, ← hw]
    rfl
  unfold vectorEnd State.endMember
  change State.modCtx (State.modCtx (State.sample (op.finish (envOf op s f) _) f _ _ _) f _) f _ = _
  rw [hf, hg]
  have hs' : ∀ n, bitAt (((u.chargeAlone f n).setCtx f (inFlight (s.ctx f) q c')).reg
      (.cx (((u.chargeAlone f n).setCtx f (inFlight (s.ctx f) q c')).partOf f)) 0x60) 63 = false := by
    intro n
    obtain ⟨m, hm⟩ := chargeAlone_frame u f n
    rw [hm]; exact hs
  rw [sample_off _ _ (hs' _)]
  unfold vnext charged
  rw [hu]
  have hpf := beginConvoy_config (pushedCtx op (s.ctx f))
  rw [hpf.1, hpf.2.1, hpf.2.2.1, hpf.2.2.2]
  simp only [State.modCtx, ctx_modMill, ctx_setCtx_same]
  rw [complete_one (c := inFlight (s.ctx f) q c') (q := q) (by rw [hq.1]; exact h1.1) rfl hq.2 rfl ho rfl]
  simp only [inFlight, Bool.false_eq_true, if_false, modMill_setCtx, setCtx_setCtx]
  rfl

/-! ### The element loop -/

/-- A loop each of whose elements answers a state of one shape keeps an invariant of the context it builds. -/
theorem elements_keep {u : State} {f pm B : Nat} {c0 : Ctx} {env : Env} {el sk : Env → Nat → State → Res} (hf : env.f = f)
    (I : Nat → Ctx → Prop) (hp : ∀ i c, I i c → ∀ j, c.pbit pm j = c0.pbit pm j ∨ j < i)
    (ha : ∀ i c q, i < B → I i c → c0.pbit pm i = true →
      ∃ q' c', SameEntry q' q ∧ el env i (u.setCtx f (inFlight c0 q c)) = .ok (u.setCtx f (inFlight c0 q' c')) ∧ I (i + 1) c')
    (hs : ∀ i c q, i < B → I i c → c0.pbit pm i = false →
      ∃ q' c', SameEntry q' q ∧ sk env i (u.setCtx f (inFlight c0 q c)) = .ok (u.setCtx f (inFlight c0 q' c')) ∧ I (i + 1) c') :
    ∀ n i c q, i + n ≤ B → I i c →
      ∃ q' c', SameEntry q' q ∧ elements pm env el sk n i (u.setCtx f (inFlight c0 q c)) = .ok (u.setCtx f (inFlight c0 q' c')) ∧ I (i + n) c' := by
  intro n
  induction n with
  | zero => intro i c q _ h; exact ⟨q, c, .refl q, rfl, h⟩
  | succ n ih =>
    intro i c q hB h
    have hpb : ((u.setCtx f (inFlight c0 q c)).ctx env.f).pbit pm i = c0.pbit pm i := by
      rw [hf, ctx_setCtx_same]
      rcases hp i c h i with h' | h'
      · exact h'
      · omega
    unfold elements
    rw [hpb]
    cases hb : c0.pbit pm i with
    | true =>
      obtain ⟨q', c', h0, h1, h2⟩ := ha i c q (by omega) h hb
      obtain ⟨q'', c'', h5, h3, h4⟩ := ih (i + 1) c' q' (by omega) h2
      refine ⟨q'', c'', h5.trans h0, ?_, by rw [show i + (n + 1) = i + 1 + n by omega]; exact h4⟩
      simp only [if_true, h1, h3]
    | false =>
      obtain ⟨q', c', h0, h1, h2⟩ := hs i c q (by omega) h hb
      obtain ⟨q'', c'', h5, h3, h4⟩ := ih (i + 1) c' q' (by omega) h2
      refine ⟨q'', c'', h5.trans h0, ?_, by rw [show i + (n + 1) = i + 1 + n by omega]; exact h4⟩
      simp only [Bool.false_eq_true, if_false, h1, h3]

/-- The entry in flight after flags were raised behind it. -/
theorem accrue_inFlight (c0 c : Ctx) (q : VqEntry) (fl : Flags) :
    ∃ q', SameEntry q' q ∧ (inFlight c0 q c).accrue fl = inFlight c0 q' (c.raiseFlags fl) :=
  ⟨{ q with check := q.check.map fun k => { k with fflags := k.fflags ||| fl } }, ⟨rfl, rfl⟩, rfl⟩

theorem setElem_inFlight (c0 c : Ctx) (q : VqEntry) (d b i v : Nat) :
    (inFlight c0 q c).setElem d b i v = inFlight c0 q (c.setElem d b i v) := by
  unfold Ctx.setElem
  have h : (inFlight c0 q c).reals = c.reals ∧ (inFlight c0 q c).groupBytes = c.groupBytes := ⟨rfl, rfl⟩
  rw [h.1, h.2]
  split <;> rfl

/-- Flags of the active elements below a bound, joined. -/
def flagsTo (c : Ctx) (pm : Nat) (fl : Nat → Flags) (hi : Nat) : Flags :=
  (((List.range hi).filter fun i => decide (c.vstart ≤ i) && c.pbit pm i).map fl).foldl (· ||| ·) 0

theorem flagsTo_start (c : Ctx) (pm : Nat) (fl : Nat → Flags) : flagsTo c pm fl c.vstart = 0 := by
  unfold flagsTo
  have : (List.range c.vstart).filter (fun i => decide (c.vstart ≤ i) && c.pbit pm i) = [] := by
    rw [List.filter_eq_nil_iff]
    intro a ha
    have := List.mem_range.mp ha
    simp; omega
  rw [this]; rfl

theorem flagsTo_succ (c : Ctx) (pm : Nat) (fl : Nat → Flags) (i : Nat) (h : c.vstart ≤ i) :
    flagsTo c pm fl (i + 1) = if c.pbit pm i then flagsTo c pm fl i ||| fl i else flagsTo c pm fl i := by
  unfold flagsTo
  rw [List.range_succ, List.filter_append, List.map_append, List.foldl_append]
  cases hp : c.pbit pm i <;> simp [h, hp]

/-- What an element reads of its context is unchanged by the elements before it: its groups, and fields other than the file, the
flags and the queue. -/
def ReadsGroups (c : Ctx) (d b : Nat) (ns : List Nat) (env : Env) (f : Env → Nat → Ctx → Nat × Flags) (r : Nat → Nat × Flags) : Prop :=
  ∀ i q sl fl, (∀ n ∈ ns, ∀ m j, (n = d → m = b ∧ i ≤ j) → ({ c with slice := sl } : Ctx).elem n m j = c.elem n m j) →
    f env i (inFlight c q { c with slice := sl, fflags := fl }) = r i

theorem firstTrap_none {l : List (Bool × Trap)} (h : ∀ x ∈ l, x.1 = false) : firstTrap l = none := by
  induction l with
  | nil => rfl
  | cons x l ih =>
    obtain ⟨b, t⟩ := x
    have hb : b = false := h _ (List.mem_cons_self ..)
    simp only [firstTrap, hb, Bool.false_eq_true, if_false]
    exact ih fun y hy => h y (List.mem_cons_of_mem _ hy)

theorem groupsOk_checks {c : Ctx} {ns : List Nat} (h : GroupsOk c ns) :
    c.badGroups ns = false ∧ c.untagged ns = false ∧ (ns.all fun n => c.fits (c.tag n).bytes) = true := by
  refine ⟨?_, ?_, ?_⟩
  · simp only [Ctx.badGroups, List.any_eq_false]
    intro n hn
    simp [(h n hn).1]
  · simp only [Ctx.untagged, List.any_eq_false]
    intro n hn
    simp [(h n hn).2.1]
  · rw [List.all_eq_true]
    exact fun n hn => (h n hn).2.2

theorem fits_bound {c : Ctx} {b i : Nat} (h : c.fits b = true) (hi : i < c.reals) : (i + 1) * b ≤ c.groupBytes := by
  simp only [Ctx.fits, decide_eq_true_eq] at h
  have : i + 1 ≤ c.vl := by unfold Ctx.reals at hi; omega
  exact (Nat.mul_le_mul_right b this).trans h

/-- An instruction each of whose active elements writes one element of a destination group and raises flags, and that does nothing
beside. -/
structure IsElementwise (op : VOp) (pm d : Nat) (F : Env → Nat → Ctx → Nat × Flags) : Prop where
  pm : op.pm = pm
  single : Single op
  elem : ∀ env i u c, op.elem env i (State.setCtx u env.f c) = .ok (u.setCtx env.f (c.putFlags d i (F env i c)))
  skip : ∀ env i u, op.skip env i u = .ok u
  whole : op.whole = none
  busy : ∀ env n u, op.busy env n u = none
  begin' : ∀ env u, op.begin' env u = u
  finish : ∀ env u, op.finish env u = u
  limit : ∀ c, op.limit c = c.reals
  push : op.push = id

theorem isElementwise (word : Word) (sa : Nat) (p : BitVec 4) (d : Nat) (ns : List Nat) (tb : Ctx → Bool)
    (F : Env → Nat → Ctx → Nat × Flags) (h : isChain word = false ∧ opOf word ≠ 0x1E) : IsElementwise (elementwise word sa p d ns tb F) p.toNat d F where
  pm := rfl
  single := h
  elem := fun env i u c => by simp only [elementwise, ctx_setCtx_same, setCtx_setCtx]
  skip := fun _ _ _ => rfl
  whole := rfl
  busy := fun _ _ _ => rfl
  begin' := fun _ _ => rfl
  finish := fun _ _ => rfl
  limit := fun _ => rfl
  push := rfl

theorem flagsTo_reals (c : Ctx) (pm : Nat) (fl : Nat → Flags) : flagsTo c pm fl c.reals = activeFlags c pm fl := rfl

theorem flagsTo_low (c : Ctx) (pm : Nat) (fl : Nat → Flags) (h : c.reals ≤ c.vstart) : activeFlags c pm fl = 0 := by
  unfold activeFlags
  have : (List.range c.reals).filter (fun i => decide (c.vstart ≤ i) && c.pbit pm i) = [] := by
    rw [List.filter_eq_nil_iff]
    intro a ha
    have := List.mem_range.mp ha
    simp; omega
  rw [this]; rfl

/-- An element-wise instruction that passes its checks writes its results into the destination group, raises their flags, and
changes nothing else. -/
theorem elementwise_next {s : State} {f : Nat} {op : VOp} {pm d : Nat} {ns : List Nat} {F : Env → Nat → Ctx → Nat × Flags}
    {r : Nat → Nat × Flags} {i : Instr} (ho : IsElementwise op pm d F) (hword : op.word = i.word) (he : elementsOf i (s.ctx f) = (s.ctx f).reals) (h : VectorReady s f [op.sa, op.sb, op.dest]) (hs : HasStrip (s.ctx f))
    (hd : op.decode f (s.ctx f) = none) (hi : op.issue (envOf op s f) (readyState op s f) = none) (hg : GroupsOk (s.ctx f) (d :: ns))
    (hr : ReadsGroups (s.ctx f) d ((s.ctx f).tag d).bytes ns (envOf op s f) F r) :
    ∃ sl, s.vector op = vnext s f i { s.ctx f with
        slice := sl, fflags := (s.ctx f).fflags ||| activeFlags (s.ctx f) pm fun i => (r i).2 } ∧
      GroupWritten (s.ctx f) sl d ((s.ctx f).tag d).bytes pm fun i => (r i).1 := by
  have hgd := (hg d (List.mem_cons_self ..))
  have hin := group_inside hgd.1
  have h' := h
  have hs0 := h.2.2.2.2.2.2.2.1
  have hord := h.2.2.2.2.2.2.2.2.2.2
  generalize hc : s.ctx f = c0 at hs hd hg hr hgd hin ⊢
  -- the loop
  let I : Nat → Ctx → Prop := fun i c => c0.vstart ≤ i ∧ ∃ sl,
    c = { c0 with slice := sl, fflags := c0.fflags ||| flagsTo c0 pm (fun i => (r i).2) i } ∧
    WrittenTo c0 sl d (c0.tag d).bytes pm (fun i => (r i).1) i
  have hloop := elements_keep (u := s) (f := f) (pm := pm) (B := c0.reals) (c0 := c0) (env := envOf op s f) (el := op.elem)
    (sk := op.skip) rfl I
    (by rintro i c ⟨_, sl, rfl, _⟩ j; left; rfl)
    (by
      rintro i c q hi ⟨hle, sl, rfl, hw⟩ hp
      have hfit := fits_bound hgd.2.2 hi
      have hread := hr i q sl (c0.fflags ||| flagsTo c0 pm (fun i => (r i).2) i) (by
        intro n hn m j hj
        refine elem_kept (c' := { c0 with slice := sl }) hw ⟨rfl, rfl, rfl, rfl⟩ hgd.1 ?_ (hg n (List.mem_cons_of_mem _ hn)).1 m j hj
        have : i * (c0.tag d).bytes ≤ (i + 1) * (c0.tag d).bytes := Nat.mul_le_mul_right _ (by omega)
        omega)
      obtain ⟨q', hw', hq'⟩ := accrue_inFlight c0
        (({ c0 with slice := sl, fflags := c0.fflags ||| flagsTo c0 pm (fun i => (r i).2) i } : Ctx).setElem d (c0.tag d).bytes i (r i).1) q (r i).2
      refine ⟨q', _, hw', ?_, by omega, setSliceBytes sl (d * c0.regBytes + i * (c0.tag d).bytes) (c0.tag d).bytes (r i).1, rfl,
        writtenTo_active hw hle (by omega) hp rfl⟩
      rw [show s.setCtx f = s.setCtx (envOf op s f).f from rfl, ho.elem, hread]
      refine congrArg (fun c => Res.ok (s.setCtx f c)) ?_
      unfold Ctx.putFlags Ctx.put
      rw [show (inFlight c0 q { c0 with slice := sl, fflags := c0.fflags ||| flagsTo c0 pm (fun i => (r i).2) i }).tag d = c0.tag d from rfl,
        setElem_inFlight, hq']
      refine congrArg (inFlight c0 q') ?_
      rw [flagsTo_succ _ _ _ _ hle, if_pos hp]
      unfold Ctx.setElem Ctx.raiseFlags
      rw [if_pos ⟨hi, hfit⟩]
      simp only [BitVec.or_assoc]
      rfl)
    (by
      rintro i c q hi ⟨hle, sl, rfl, hw⟩ hp
      refine ⟨q, _, .refl q, ho.skip _ _ _, by omega, sl, ?_, writtenTo_inactive hw hle hp⟩
      rw [flagsTo_succ _ _ _ _ hle, hp]; rfl)
  have hstart : I c0.vstart c0 := ⟨Nat.le_refl _, c0.slice, by rw [flagsTo_start]; simp, writtenTo_start ..⟩
  have hpc : pushedCtx op c0 = State.pushEntry c0 (op.entry c0) := by
    unfold pushedCtx
    rw [ho.push]
    exact ite_self _
  by_cases hle : c0.vstart ≤ c0.reals
  · obtain ⟨q', c', hw', hrun, _, sl, rfl, hw⟩ := hloop (c0.reals - c0.vstart) c0.vstart c0 (op.entry c0) (by omega) hstart
    refine ⟨sl, ?_, by rw [show c0.vstart + (c0.reals - c0.vstart) = c0.reals by omega] at hw; exact hw⟩
    rw [show c0.vstart + (c0.reals - c0.vstart) = c0.reals by omega] at hrun
    subst hc
    rw [vector_next (op := op) h (pushOnly_id ho.push) ho.single hd (Or.inl hs) hi (ho.busy _ _ _) (u := s)
      (c' := { s.ctx f with slice := sl, fflags := (s.ctx f).fflags ||| flagsTo (s.ctx f) pm (fun i => (r i).2) (s.ctx f).reals })
      (t := s.setCtx f _)
      (by
        rw [ho.begin', ho.limit, ite_self]
        unfold VOp.run; rw [ho.whole, ho.pm]
        exact hrun) (fun n => by rw [ho.finish]; exact chargeAlone_setCtx (by rfl)) hw' hord rfl hs0 hword (by rw [ho.limit, he]; rfl)]
    rw [hpc]
    rfl
  · refine ⟨c0.slice, ?_, fun i h1 h2 => absurd h2 (by omega), fun k _ => rfl⟩
    subst hc
    rw [vector_next (op := op) h (pushOnly_id ho.push) ho.single hd (Or.inl hs) hi (ho.busy _ _ _) (u := s) (c' := s.ctx f)
      (q := op.entry (s.ctx f)) (t := s.setCtx f _)
      (by
        rw [ho.begin', ho.limit, ite_self]
        unfold VOp.run; rw [ho.whole, ho.pm]
        rw [show (aboutTo (s.ctx f) (op.entry (s.ctx f)) (s.ctx f)).reals = (s.ctx f).reals from rfl, Nat.sub_eq_zero_of_le (by omega)]
        rfl) (fun n => by rw [ho.finish]; exact chargeAlone_setCtx (by rfl)) ⟨rfl, rfl⟩ hord rfl hs0 hword (by rw [ho.limit, he]; rfl)]
    rw [hpc, flagsTo_low _ _ _ (by omega),
      show (s.ctx f).fflags ||| 0 = (s.ctx f).fflags from BitVec.or_zero]
    rfl

end Sys2Proof.Laws
end

