-- ==== Sys2Proof/Tests/Slice0.lean ====
section
/-! SUPPORT. Tests: ill-formed terms are refused, words of every row decode, single steps against the spec's worked examples, and for every
statement with hypotheses a state that meets them. A test names the rule that its expected value comes from. -/

namespace Sys2Proof.Tests

open Sys2Proof Sys2Proof.Machine Sys2Proof.Safety

set_option Elab.async false

/-! ### Small states -/

/-- Scalar registers with the listed values. -/
def regs (l : List (Nat × Dword)) : Vector Dword 32 := l.foldl (fun v p => v.setIfInBounds p.1 p.2) (.replicate 32 0)

/-- A context that runs, with the listed scalar registers and an image of 4 KiB. -/
def running (l : List (Nat × Dword)) : Ctx :=
  { Ctx.reset with life := .running, share := 1, sregs := regs l, code := ⟨0x100000, 4096, 0x110000, 3, 0⟩ }

/-- It is the turn of agent f, which holds the context c; everything else is as after reset. -/
def on (f : Nat) (c : Ctx) : State := { State.reset.setCtx f c with cur := .agent f }

/-- The context with a strip of vl elements and the listed tags of its groups. -/
def strip (vl : Nat) (tags : List (Nat × Tag)) (c : Ctx) : Ctx :=
  tags.foldl (fun c t => c.setTag t.1 t.2) { c with vl := vl }

/-- The context with the listed elements of b bytes in group n. -/
def fill (n b : Nat) (vs : List Nat) (c : Ctx) : Ctx := (vs.zipIdx).foldl (fun c v => c.setElem n b v.2 v.1) c

/-- Context f after an outcome, and the state; both as after reset where there is no next state. -/
def after (o : Host.Outcome State Fault Refusal) : State :=
  match o with
  | .next t => t
  | _ => State.reset
def ctxAfter (f : Nat) (o : Host.Outcome State Fault Refusal) : Ctx := (after o).ctx f

/-- The bits of elements 0 to n - 1 of a group after an outcome for context 0. -/
def elems (g n : Nat) (o : Host.Outcome State Fault Refusal) : List Nat := (List.range n).map fun i => (ctxAfter 0 o).bits g i

/-- Partition 1 exists and has bay 0, 455 pins of die 0 and the device space mapped onto itself in pages of 1 GiB, the first granules its own. -/
def mapped (s : State) : State :=
  let entry (a v : Nat) (m : Mem) : Mem := m.write a 8 v
  let m := entry 0x80000 0x100001 <| entry 0x100000 0x110001 <| entry 0x110000 0xF <| entry 0x180000 0x190001 <| entry 0x190000 0xF s.dev
  let t := (List.range 4).foldl (fun t k => Assoc.put t (0x20 + k) ⟨1, false, 0x20 + k⟩) s.tiers
  ((({ s with dev := m, tiers := t, owners := s.owners.put 0 1 }.setReg (.trans 1) 0x00 0x80000).setReg (.part 1) 0x10 0x180000).setField
    (.part 1) 0x00 0 2 2).setReg (.part 1) 0x18 455

/-- A scratch view at a base, of n elements of 4 bytes. -/
def scr4 (base n : Nat) : Line := BitVec.ofNat 512 (base + 2 * 2 ^ 73 + n * 2 ^ 128 + 2 ^ 256)
/-- The same in the device space. -/
def dev4 (base n : Nat) : Line := BitVec.ofNat 512 (base + 2 * 2 ^ 64 + 2 * 2 ^ 73 + n * 2 ^ 128 + 2 ^ 256)
/-- The context with view n loaded. -/
def viewed (n : Nat) (v : Line) (c : Ctx) : Ctx := { c with views := c.views.setIfInBounds n (some v) }

/-! ### Well-formedness: a term for each check, which the check refuses -/

theorem test_illformed_words_are_refused : ∀ i ∈ ([.fadd 1 2 3 4, .fsub 1 2 3 5, .fmul 1 2 3 6, .ffma 1 2 3 7, .fdiv 1 2 3 4,
    .fsqrt 1 2 4, .fmin 1 2 3 4, .fmax 1 2 3 4, .feq 1 2 3 4, .flt 1 2 3 4, .fle 1 2 3 4, .fclass 1 2 4, .fcvtI 1 2 4, .fcvtN 1 2 4,
    .fcvtFi 1 2 4, .fcvtFn 1 2 4, .fcvtFf 1 2 3 4, .fenceV 6 1, .fenceS 7 1] : List Instr), i.wf = false := by decide +kernel

theorem test_illformed_windows_are_refused : ∀ w ∈ ([.part 0, .part 37, .trans 0, .cx 37, .chain 1 4 0, .chain 1 0 64, .chain 0 0 0,
    .splice 1 4, .splice 37 0, .queue 4 0, .queue 0 64, .lease 4, .dsense 4, .dtarget 4, .millcal 144, .energy 37, .start 64,
    .tier 0x1000000000] : List Window), (Instr.registerWrite w 0 0 0).wf = false := by decide +kernel

theorem test_illformed_events_are_refused : ∀ i ∈ ([.registerWrite .hold 4 0 0, .registerWrite .hold 4096 0 0, .cxStop 0, .cxSave 37,
    .cxRestore 0, .cxResume 37, .cxCommandComplete 0, .cxdataRead 0, .cxdataWrite 37 0, .debugStopCmd 0, .debugStep 37,
    .breakpointHit 2340, .debugStopDrained 2340, .kill 0 1, .kill 1 2340, .killDone 0, .partitionCreate 0, .partitionDestroy 37,
    .invalidateGo 0 true 0 0, .invalidateGo 1 true 4 0, .invalidateGo 1 true 0 4, .invalidationComplete 0 true,
    .ptEditRecord 0 true 0 0 0 0 0 0, .ptEditRecord 1 true 0 0 0 0 4 0, .ptEditRecord 1 true 0 0 0 0 0 4, .queueBind 4 0, .queueBind 0 64,
    .queueHoldClear 4 0, .qfreePop 0 64, .qfreePush 4 0 0, .leaseRenew 4 0, .leaseTake 4, .leaseHand 4 0 0, .leaseHand 0 4 0,
    .fwHeartbeat 4, .healthTimeout 4, .dieFence 4, .bayRegulatorMove 36, .chstatStopClear 0 0 0, .chstatStopClear 1 4 0,
    .chstatStopClear 1 0 64, .startRecordClear 64, .unitMapOut 2368, .pmlLinkUp 12, .pmlLinkDown 12, .droop 36 1, .droopEnd 36,
    .targetTimeout 4, .millCapUpdate 144, .ballastEnd 144, .arbiterCycle 144, .grantApply 2340, .vfetchComplete 2340, .waitEnd 2340,
    .sleepExpiry 2340, .xqEntryComplete 2340 false, .streamBindingStart 144 0, .streamBindingStart 0 32, .streamFetch 144 0,
    .streamFetch 0 32, .engineJobStart 0 0 0, .engineJobStart 1 4 0, .engineJobStart 1 0 64, .matrixOpComplete 144 none, .msigRaise 2340,
    .hostWrite 0 0 [], .hostRead 37 0 0, .spdmGetVersion 0 0, .spdmGetCapabilities 37 0, .spdmNegotiateAlgorithms 0 0 0 0,
    .spdmGetDigests 0 0, .spdmGetCertificate 0 0 0 0, .spdmChallenge 0 0 0, .spdmGetMeasurements 0 0 0 0] : List Instr),
    i.wf = false := by decide +kernel

/-! ### Decoding: a word of every row, its fields at values that differ, by the encoding tables of spec/ -/

theorem test_decode_op01_to_09_a : ∀ x ∈ ([
  (0x05542000, (.add 0xA 0x14 4)), (0x060FB801, (.sub 0x10 0xF 0x17)), (0x070D8802, (.and 0x18 0xD 0x11)),
  (0x04958803, (.or 4 0x15 0x11)), (0x07692804, (.xor 0x1B 9 5)), (0x04376005, (.shl 1 0x17 0xC)), (0x05574806, (.shr 0xA 0x17 9)),
  (0x05B7C007, (.sha 0xD 0x17 0x18)), (0x07772008, (.mul 0x1B 0x17 4)), (0x06F15809, (.mulh 0x17 0x11 0xB)),
  (0x063AC00A, (.mulhn 0x11 0x1A 0x18)), (0x06C8180B, (.div 0x16 8 3)), (0x06E3300C, (.divn 0x17 3 6)),
  (0x07D2880D, (.rem 0x1E 0x12 0x11)), (0x04BCF00E, (.remn 5 0x1C 0x1E)), (0x04EDD00F, (.min 7 0xD 0x1A)),
  (0x04785010, (.max 3 0x18 0xA)), (0x05682811, (.minn 0xB 8 5)), (0x06C47812, (.maxn 0x16 4 0xF)), (0x07845813, (.slt 0x1C 4 0xB)),
  (0x0716F814, (.sltn 0x18 0x16 0x1F)), (0x04913815, (.seq 4 0x11 7)), (0x057D0016, (.clz 0xB 0x1D)), (0x04550017, (.ctz 2 0x15))] : List (Word × Instr)),
    decode x.1 = .ok x.2 ∧ encode x.2 = [x.1] ∧ x.2.wf = true := by decide +kernel

theorem test_decode_op01_to_09_b : ∀ x ∈ ([
  (0x07910018, (.popc 0x1C 0x11)), (0x061A1019, (.qadd 0x10 0x1A 2)), (0x0AC7D89E, (.addi 0x16 7 0xD89E)),
  (0x0FA3624B, (.andi 0x1D 3 0x624B)), (0x13076B41, (.ori 0x18 7 0x6B41)), (0x153124D1, (.xori 9 0x11 0x24D1)),
  (0x18C2D270, (.slti 6 2 0xD270)), (0x1ECD0015, (.shli 0x16 0xD 0x15)), (0x1D060079, (.shri 8 6 0x39)),
  (0x1D1F00A8, (.shai 8 0x1F 0x28)), (0x2293582A, (.lui 0x14 0x13582A)), (0x264AC36C, (.addpc 0x12 0xAC36C))] : List (Word × Instr)),
    decode x.1 = .ok x.2 ∧ encode x.2 = [x.1] ∧ x.2.wf = true := by decide +kernel

theorem test_decode_op0A : ∀ x ∈ ([
  (0x2B0BF200, (.fadd 0x18 0xB 0x1E 2)), (0x29647A01, (.fsub 0xB 4 0xF 2)), (0x299B7B02, (.fmul 0xC 0x1B 0xF 3)),
  (0x2B152103, (.ffma 0x18 0x15 4 1)), (0x2838D204, (.fdiv 1 0x18 0x1A 2)), (0x29430105, (.fsqrt 0xA 3 1)),
  (0x2A650A06, (.fmin 0x13 5 1 2)), (0x282C4207, (.fmax 1 0xC 8 2)), (0x29F58A08, (.feq 0xF 0x15 0x11 2)),
  (0x2A9D7209, (.flt 0x14 0x1D 0xE 2)), (0x28EDBB0A, (.fle 7 0xD 0x17 3)), (0x2BDA010B, (.fclass 0x1E 0x1A 1)),
  (0x2BDF030C, (.fcvtI 0x1E 0x1F 3)), (0x2AD3020D, (.fcvtN 0x16 0x13 2)), (0x2B2A010E, (.fcvtFi 0x19 0xA 1)),
  (0x2AD5020F, (.fcvtFn 0x16 0x15 2)), (0x2B811A10, (.fcvtFf 0x1C 1 3 2))] : List (Word × Instr)),
    decode x.1 = .ok x.2 ∧ encode x.2 = [x.1] ∧ x.2.wf = true := by decide +kernel

theorem test_decode_op0B_to_13 : ∀ x ∈ ([
  (0x2FD6CFEB, (.beq 0x1E 0x16 0xCFEB)), (0x3173C11D, (.bne 0xB 0x13 0xC11D)), (0x34E459AF, (.blt 7 4 0x59AF)),
  (0x38746F9D, (.bge 3 0x14 0x6F9D)), (0x3D372ADD, (.bltn 9 0x17 0x2ADD)), (0x42A3A8D1, (.bgen 0x15 3 0xA8D1)),
  (0x4565E043, (.jal 0xB 0x5E043)), (0x4B654CC1, (.jalr 0x1B 5 0x4CC1)), (0x4DECB7CE, (.ld 0xF 0xC 0xB 1 0x3CE))] : List (Word × Instr)),
    decode x.1 = .ok x.2 ∧ encode x.2 = [x.1] ∧ x.2.wf = true := by decide +kernel

theorem test_decode_op14_to_18 : ∀ x ∈ ([
  (0x50BBBF4C, (.ldn 5 0x1B 0xB 3 0x34C)), (0x54561DC0, (.st 2 0x16 1 3 0x1C0)), (0x5B1A1CE7, (.ldx 0x18 0x1A 1 3 0xE7)),
  (0x5CBCBA70, (.stx 5 0x1C 0xB 2 0x270)), (0x6001A310, (.aadd 1 0x14 0xC 1)), (0x601BABD1, (.aand 0x1B 0x15 0xF 1)),
  (0x6001E1D2, (.aor 1 0x1C 7 1)), (0x60146993, (.axor 0x14 0xD 6 1)), (0x600EAA94, (.amin 0xE 0x15 0xA 1)),
  (0x60048155, (.amax 4 0x10 5 1)), (0x60187916, (.aminn 0x18 0xF 4 1)), (0x601733D7, (.amaxn 0x17 6 0xF 1)),
  (0x62EC6C50, (.aaddRet 0x17 0xC 0xD 1 1)), (0x63956DD1, (.aandRet 0x1C 0x15 0xD 7 1)), (0x63E527D2, (.aorRet 0x1F 5 4 0xF 1)),
  (0x6219AE93, (.axorRet 0x10 0x19 0x15 0xA 1)), (0x611D9C94, (.aminRet 8 0x1D 0x13 2 1)), (0x61519E55, (.amaxRet 0xA 0x11 0x13 9 1)),
  (0x634DDFD6, (.aminnRet 0x1A 0xD 0x1B 0xF 1)), (0x60704597, (.amaxnRet 3 0x10 8 6 1)), (0x6274BC58, (.aswap 0x13 0x14 0x17 1 1)),
  (0x6071E499, (.acas 3 0x11 0x1C 2 1))] : List (Word × Instr)),
    decode x.1 = .ok x.2 ∧ encode x.2 = [x.1] ∧ x.2.wf = true := by decide +kernel

theorem test_decode_op19_to_1D_a : ∀ x ∈ ([
  (0x64801AEC, (.fenceV 4 0x1AEC)), (0x65809FA0, (.fenceS 4 0x9FA0)), (0x6812F800, (.waitseq 0x12 0x1F)),
  (0x68047801, (.signal 4 0xF)), (0x680A0002, (.waitx 0xA)), (0x6A61C803, (.sqwait 0x13 1 0x19)), (0x6AFC0004, (.tseq 0x17 0x1C)),
  (0x6D810000, (.gjoin 0xC 1)), (0x6C090001, (.gleave 9)), (0x6C0E0002, (.gbar 0xE)), (0x6E410003, (.forkl 0x12 1)),
  (0x6C180004, (.joinl 0x18)), (0x6C000005, .yield), (0x6DC00006, (.tid 0xE)), (0x6DA60007, (.gsize 0xD 6)),
  (0x7000AAB0, (.trap 0xAAB)), (0x7060B721, (.csrr 3 0xB72)), (0x73F1B0A2, (.csrw 0x1F 0x11 0xB0A)), (0x709702E3, (.csrs 4 0x17 0x2E)),
  (0x72487C54, (.csrc 0x12 8 0x7C5)), (0x701F0F15, (.sleep 0x1F 0xF1)), (0x70008116, (.halt 0x811)), (0x7000DA77, (.brk 0xDA7)),
  (0x743F8800, (.chapp 1 0x1F 0x11))] : List (Word × Instr)),
    decode x.1 = .ok x.2 ∧ encode x.2 = [x.1] ∧ x.2.wf = true := by decide +kernel

theorem test_decode_op19_to_1D_b : ∀ x ∈ ([
  (0x74AFF801, (.strmR 5 0xF 0x1F)), (0x7646C001, (.strmW 2 6 0x18)), (0x7549C801, (.strmRg 2 9 0x19)), (0x74400002, (.sunb 2)),
  (0x756D4803, (.gang 0xB 0xD 9)), (0x74000004, .ungang)] : List (Word × Instr)),
    decode x.1 = .ok x.2 ∧ encode x.2 = [x.1] ∧ x.2.wf = true := by decide +kernel

theorem test_decode_op1E_to_1F : ∀ x ∈ ([
  (0x7A605620, (.vconfigImm 0x13 0x562)), (0x7A748000, (.vconfigReg 0x13 0x14)), (0x7800D011, (.vtag 3 0x10 1)),
  (0x7A470012, (.setvl 0x12 7 1)), (0x78B80383, (.setvlB 5 0x18 3 8)), (0x780005E4, (.vcarrySet 2 0x1E)),
  (0x78188004, (.vcarryReg 0x18)), (0x7D600080, (.vfetch 0x16 8)), (0x7EE00001, (.efetch 0x2E)), (0x7C5D4002, (.ebz 5 0x35)),
  (0x7F880003, (.ebnz 0x38 0x20)), (0x7C000004, .eend), (0x7C0C0005, (.xqsend 0x30)), (0x7FE00006, (.xqrecv 0x3E))] : List (Word × Instr)),
    decode x.1 = .ok x.2 ∧ encode x.2 = [x.1] ∧ x.2.wf = true := by decide +kernel

theorem test_decode_op20 : ∀ x ∈ ([
  (0x8391CD60, (.vaddVv 0x39 7 0xD 6)), (0x81BF3D61, (.vsubVv 0x1B 0x3C 0x3D 6)), (0x81F58C52, (.vmulVv 0x1F 0x16 0xC 5)),
  (0x81377863, (.vfmaVv 0x13 0x1D 0x38 6)), (0x83B16B64, (.vfmsVv 0x3B 5 0x2B 6)), (0x82D20BA5, (.vfnmaVv 0x2D 8 0xB 0xA)),
  (0x81FDEA76, (.vdivVv 0x1F 0x37 0x2A 7)), (0x8211FA87, (.vminVv 0x21 7 0x3A 8)), (0x821FD718, (.vmaxVv 0x21 0x3F 0x17 1)),
  (0x82A0C099, (.vabsVv 0x2A 3 9)), (0x80BCC07A, (.vnegVv 0xB 0x33 7)), (0x8025B4BB, (.vsaddVv 2 0x16 0x34 0xB)),
  (0x81D7AB8C, (.vssubVv 0x1D 0x1E 0x2B 8)), (0x816BB37D, (.vmulhVv 0x16 0x2E 0x33 7)), (0x81335EBE, (.vavgVv 0x13 0xD 0x1E 0xB))] : List (Word × Instr)),
    decode x.1 = .ok x.2 ∧ encode x.2 = [x.1] ∧ x.2.wf = true := by decide +kernel

theorem test_decode_op21 : ∀ x ∈ ([
  (0x857A89E0, (.vaddVs 0x17 0x2A 4 0xF)), (0x8638B301, (.vsubVs 0x23 0x22 0x19 8)), (0x85A842A2, (.vmulVs 0x1A 0x21 1 5)),
  (0x843230A3, (.vfmaVs 3 8 0x18 5)), (0x859BC8E4, (.vfmsVs 0x19 0x2F 4 7)), (0x86BA84E5, (.vfnmaVs 0x2B 0x2A 2 7)),
  (0x847B9B86, (.vdivVs 7 0x2E 0xD 0xC)), (0x866CD687, (.vminVs 0x26 0x33 0xB 4)), (0x86B3DB68, (.vmaxVs 0x2B 0xF 0xD 0xB)),
  (0x86F01EC9, (.vabsVs 0x2F 0xF 6)), (0x84E0042A, (.vnegVs 0xE 2 1)), (0x87DB2DEB, (.vsaddVs 0x3D 0x2C 0x16 0xF)),
  (0x860409EC, (.vssubVs 0x20 0x10 4 0xF)), (0x857FC4AD, (.vmulhVs 0x17 0x3F 2 5)), (0x8455F36E, (.vavgVs 5 0x17 0x19 0xB))] : List (Word × Instr)),
    decode x.1 = .ok x.2 ∧ encode x.2 = [x.1] ∧ x.2.wf = true := by decide +kernel

theorem test_decode_op22_to_25_a : ∀ x ∈ ([
  (0x8A1882B0, (.vand 0x21 0x22 2 0xB)), (0x8AD5E4B1, (.vor 0x2D 0x17 0x24 0xB)), (0x8A451D72, (.vxor 0x24 0x14 0x1D 7)),
  (0x8B1E0083, (.vnot 0x31 0x38 8)), (0x8A007394, (.vshl 0x20 1 0x33 9)), (0x8A6E5195, (.vshr 0x26 0x39 0x11 9)),
  (0x8B25B766, (.vsha 0x32 0x16 0x37 6)), (0x884C80D7, (.vclz 4 0x32 0xD)), (0x888A0068, (.vpopc 8 0x28 6)),
  (0x8C4F07F0, (.vceq 4 0x3C 7 0xF)), (0x8C342881, (.vcne 3 0x10 0x28 8)), (0x8CF29472, (.vclt 0xF 0xA 0x14 7)),
  (0x8CD194C3, (.vcle 0xD 6 0x14 0xC)), (0x8C6A24B4, (.vcun 6 0x28 0x24 0xB)), (0x8C2107E5, (.vclass 2 4 7 0xE)),
  (0x935E8020, (.vsqrt 0x35 0x3A 2)), (0x923440E1, (.vrcp 0x23 0x11 0xE)), (0x9109C0B2, (.vrsq 0x10 0x27 0xB)),
  (0x93368083, (.vexp2f 0x33 0x1A 8)), (0x9124C0D4, (.vlog2f 0x12 0x13 0xD)), (0x93F540A5, (.vrndi 0x3F 0x15 0xA)),
  (0x931F8086, (.vgetexp 0x31 0x3E 8)), (0x9150CD57, (.vcvt 0x15 3 0xD 5)), (0x91E4C0A8, (.vmov 0x1E 0x13 0xA))] : List (Word × Instr)),
    decode x.1 = .ok x.2 ∧ encode x.2 = [x.1] ∧ x.2.wf = true := by decide +kernel

theorem test_decode_op22_to_25_b : ∀ x ∈ ([
  (0x9373A689, (.vsel 0x37 0xE 0x26 8)), (0x910834CA, (.vscale 0x10 0x20 0x34 0xC)), (0x95433BC0, (.vslideup 0x14 0xC 0x1D 0xE)),
  (0x9474C541, (.vslidedn 7 0x13 2 0xA)), (0x95F2FDA2, (.vbfly 0x1F 0xB 0x1E 0xD)), (0x97000163, (.vid 0x30 0xB)),
  (0x95002EE4, (.vbcast 0x10 0x17 7)), (0x9725A285, (.vbflyC 0x32 0x16 0x11 4))] : List (Word × Instr)),
    decode x.1 = .ok x.2 ∧ encode x.2 = [x.1] ∧ x.2.wf = true := by decide +kernel

theorem test_decode_op26_to_29_a : ∀ x ∈ ([
  (0x987D02F0, (.vxg 7 0x34 2 0xF)), (0x9B864021, (.vcomp 0x38 0x19 2)), (0x99BEC052, (.vexpd 0x1B 0x3B 5)),
  (0x9E5CD040, (.vredsum 0x25 0x33 2 4)), (0x9DCDF8E1, (.vredmax 0x1C 0x37 7 0xE)), (0x9F813022, (.vredmin 0x38 4 6 2)),
  (0x9D8ED8D3, (.vredand 0x18 0x3B 3 0xD)), (0x9F60B094, (.vredor 0x36 2 6 9)), (0x9DB66815, (.vredxor 0x1B 0x19 5 1)),
  (0x9C2540E6, (.vtree 2 0x15 0xE)), (0x9C218007, (.tmerge 2 6)), (0x9E20C108, (.tread 0x22 3 1)), (0x9C100909, (.tclear 1 9)),
  (0xA1130390, (.vscan 0x11 0xC 1 1 9)), (0xA3374321, (.vscana 0x33 0x1D 1 1 2)), (0xA2F80322, (.vscanmax 0x2F 0x20 1 1 2)),
  (0xA4A04000, (.pand 2 8 1)), (0xA5790001, (.por 5 0xE 4)), (0xA72DC002, (.pxor 0xC 0xB 7)), (0xA63C0003, (.pnot 8 0xF)),
  (0xA564C004, (.pandn 5 9 3)), (0xA7400A05, (.pwhile 0xD 5)), (0xA42FAA06, (.pcnt 0xB 0xE 0x15)), (0xA427E207, (.pfirst 9 0xF 0x11))] : List (Word × Instr)),
    decode x.1 = .ok x.2 ∧ encode x.2 = [x.1] ∧ x.2.wf = true := by decide +kernel

theorem test_decode_op26_to_29_b : ∀ x ∈ ([
  (0xA6802308, (.pset 0xA 0x23))] : List (Word × Instr)),
    decode x.1 = .ok x.2 ∧ encode x.2 = [x.1] ∧ x.2.wf = true := by decide +kernel

theorem test_decode_op2A_to_37 : ∀ x ∈ ([
  (0xABDF2C00, (.vins 0x3D 0x1E 0x16)), (0xA9C6EA01, (.vext 0xE 0x1B 0x15)), (0xAEBC8140, (.vld 0x2B 0xC 0x10 5)),
  (0xADC14B41, (.vst 0x1C 1 9 0xD)), (0xAF49C182, (.vldx 0x34 9 0x30 6)), (0xAEE5BF43, (.vstx 0x2E 5 0x2F 0xD)),
  (0xAC980904, (.vldff 9 8 1 4)), (0xAD918AC5, (.vgb 0x19 1 0x22 0xB)), (0xAC212E46, (.vsb 2 1 0xB 9)),
  (0xAFC441C7, (.vaadd 0x3C 4 0x10 7)), (0xB3524380, (.vsrd 0x35 2 8 0xE)), (0xB0A53B01, (.vswr 0xA 5 7 0xC)),
  (0xB56A0000, (.tlook 0xB 0xA)), (0xB7D7F801, (.tset 0x1E 0x17 0x1F)), (0xB6410002, (.tinv 0x12 1)),
  (0xB57B5003, (.vwset 0xB 0x1B 0xA)), (0xB5600004, (.vwret 0xB)), (0xB4443005, (.vwget 2 4 6)), (0xBAE007E0, (.vrng 0x2E 3 0xF)),
  (0xBDCB4C00, (.mtv 0x1C 2 1 0x14 0xC)), (0xBE8B9501, (.mvt 0x28 2 1 0x19 5)), (0xBC4A0902, (.mtvc 4 2 1 9))] : List (Word × Instr)),
    decode x.1 = .ok x.2 ∧ encode x.2 = [x.1] ∧ x.2.wf = true := by decide +kernel

theorem test_decode_op38_to_3F : ∀ x ∈ ([
  (0xE000000F, (.mten 0xF)), (0xE02D0001, (.mzero 1 0xA 1)), (0xE0478143, (.mldw 0xF 5 3)), (0xE0628000, (.mswap 5)),
  (0xE08C8101, (.mma 1 9 4 1)), (0xE0B60041, (.mmaF64 2 0xC 1 1)), (0xE0DB0003, (.mscan 3 6 1 1)), (0xE0FA0440, (.mcld 3 4 0x11)),
  (0xE11C8380, (.mcst 3 9 0xE)), (0xE13283C0, (.mst 2 5 0xF)), (0xE14A0780, (.mld 1 4 0x1E)), (0xE1628100, (.mrow 5 4)),
  (0xE1818180, (.mcol 3 6)), (0xE1A0077E, (.msig 0x1D 0x3E)), (0xE1C00380, (.mwait 0xE)), (0xE1E00600, (.mcfg 0x18))] : List (Word × Instr)),
    decode x.1 = .ok x.2 ∧ encode x.2 = [x.1] ∧ x.2.wf = true := by decide +kernel

theorem test_decode_commands : ∀ x ∈ ([
  (0x01000000, .cmdNop), (0x02005F0E, (.cmdHalt 0x5F0E)), (0x0880C1EC, (.cmdLi 8 0xC1EC)), (0x0A96BE04, (.cmdAddi 9 6 0xBE04)),
  (0x0B430000, (.cmdAdd 4 3)), (0x0C8B0000, (.cmdSub 8 0xB)), (0x0D7E0000, (.cmdAnd 7 0xE)), (0x0ECA0000, (.cmdOr 0xC 0xA)),
  (0x0FC50018, (.cmdShli 0xC 5 0x18)), (0x10C9C6AC, (.cmdLd 0xC 9 0xC6AC)), (0x115B390F, (.cmdSt 5 0xB 0x390F)),
  (0x182F2B52, (.cmdBeq 2 0xF 0x2B52)), (0x198212AF, (.cmdBne 8 2 0x12AF)), (0x1A4BC954, (.cmdBlt 4 0xB 0xC954)),
  (0x1BB0F0C3, (.cmdLoop 0xB 0xF0C3)), (0x1D000000, .cmdRet), (0x20D80401, (.cmdLaunch 0xD 8 4 1)),
  (0x21720601, (.cmdLaunchm 7 2 6 1)), (0x22000000, .cmdSplice), (0x23F30036, (.cmdChapp 0xF 3 0x36)),
  (0x2404199D, (.cmdWait 4 0xC 0x19D)), (0x25051ADA, (.cmdSignal 5 0xD 0xDA)), (0x26000000, .cmdFence)] : List (Word × Instr)),
    decodeCommand x.1 0 0 = .ok x.2 ∧ encode x.2 = [x.1] ∧ x.2.wf = true := by decide +kernel

/-- Commands with a literal (R424): low half first. -/
theorem test_decode_literal_commands :
    decodeCommand 0x09500000 0x89ABCDEF 0x01234567 = .ok (.cmdLil 5 0x0123456789ABCDEF) ∧
    decodeCommand 0x1C000000 0x89ABCDEC 0x01234567 = .ok (.cmdCall 0x0123456789ABCDEC) ∧
    decodeCommand 0x1E000000 0x00010000 0x00000002 = .ok (.cmdLink 0x0000000200010000) := by decide +kernel

/-- Words that the spec's chapters write out beside their assembly. -/
theorem test_decode_words_of_the_chapters : ∀ x ∈ ([
  (0x04642800, .add 3 4 5), (0x14C00003, .xori 6 0 3), (0x4CE20C02, .ld 7 2 0 3 2), (0x58E6FC00, .ldx 7 6 15 3 0),
  (0x70E00611, .csrr 7 0x061), (0x700B0302, .csrw 0 11 0x030), (0x78E01000, .vconfigImm 7 0x100), (0x78098000, .vconfigReg 0 9),
  (0x78E60022, .setvl 7 6 2), (0x80408600, .vaddVv 4 2 6 0), (0xAC432801, .vst 4 3 5 0), (0xAC432002, .vldx 4 3 8 0),
  (0xAC232804, .vldff 2 3 5 0), (0xAC652085, .vgb 6 5 8 2), (0x98408600, .vxg 4 2 6 0), (0x98408031, .vcomp 4 2 3),
  (0x98408032, .vexpd 4 2 3), (0xA4C48000, .pand 3 1 2), (0xA4800C05, .pwhile 2 6), (0xA408CE06, .pcnt 2 3 7),
  (0xA408CE07, .pfirst 2 3 7), (0xA4800808, .pset 2 8), (0xE1678180, .mrow 15 6), (0xB8402400, .vrng 4 18 0)] : List (Word × Instr)),
    decode x.1 = .ok x.2 := by decide +kernel

/-- R73: unassigned values, a must-be-zero field that is not zero, and the class of word 0. -/
theorem test_decode_refuses :
    decode 0x1C0000C0 = .error .unassigned ∧ decode 0x1C000141 = .error .unassigned ∧ decode 0x8040860F = .error .unassigned ∧
    decode 0x8D408600 = .error .unassigned ∧ decodeThread 0xE0000000 = .error .reserved ∧ decode 0 = .error .neverAssigned := by decide +kernel

/-- A table row's word, a word read as a command and one that is none (log entry 2), and the step that runs a word first: 3 reaches s6, and the next word follows. -/
theorem test_table_word_and_first_step :
    decodeTableWord 32 0x14C00003 = some (.xori 6 0 3) ∧ decodeTableWord 96 0x09500000 = some (.cmdLil 5 0) ∧
    decodeTableWord 32 0x0C340000 = some (.cmdSub 3 4) ∧ decodeTableWord 32 0x0C345001 = some (.andi 1 20 0x5001) ∧
    (ctxAfter 0 (step (State.reset.withFetchWord 32 0x14C00003))).s 6 = 3 := by decide +kernel

/-- A command placed for the front end: `lil` of c3 (R424). -/
theorem test_first_step_of_a_command :
    ((after (step (State.reset.withFetchWord 96 0x0123456789ABCDEF09300000))).queue 0 0).cregs.toList.getD 3 0 = 0x0123456789ABCDEF := by decide +kernel

/-! ### Single steps against the spec's worked examples -/

/-- R100: the sum modulo 2^64, the corners of `div`, and `sha` by b[5:0]. -/
theorem test_scalar_corners :
    (ctxAfter 0 (exec (.add 1 1 2) (on 0 (running [(1, -1), (2, 1)])))).s 1 = 0 ∧
    (ctxAfter 0 (exec (.div 3 1 2) (on 0 (running [(1, 0x8000000000000000), (2, -1)])))).s 3 = 0x8000000000000000 ∧
    (ctxAfter 0 (exec (.rem 3 1 2) (on 0 (running [(1, -7), (2, 2)])))).s 3 = -1 ∧
    (ctxAfter 0 (exec (.sha 3 1 2) (on 0 (running [(1, -8), (2, 65)])))).s 3 = -4 := by decide +kernel

/-- R101's example. -/
theorem test_qadd_carries_into_the_upper_half :
    let c := ctxAfter 0 (exec (.qadd 8 8 10) (on 0 (running [(8, 0xFFFFFFFFFFFFFFF0), (10, 0x20)])))
    c.s 8 = 0x10 ∧ c.s 9 = 1 := by decide +kernel

/-- R109: a `jalr` whose source is its link register goes by the old value. -/
theorem test_jalr_reads_before_it_links :
    let c := ctxAfter 0 (exec (.jalr 1 1 8) (on 0 { running [(1, 0x100)] with pc := 0x40 }))
    c.pc = 0x108 ∧ c.s 1 = 0x44 := by decide +kernel

/-- R108: a backward branch, and one not taken. -/
theorem test_branches :
    (ctxAfter 0 (exec (.bne 6 0 (-3)) (on 0 { running [(6, 1)] with pc := 0x40 }))).pc = 0x34 ∧
    (ctxAfter 0 (exec (.bne 6 0 (-3)) (on 0 { running [] with pc := 0x40 }))).pc = 0x44 := by decide +kernel

/-- R111: a store of the top byte of the scratchpad view, and the sign-extending load of it. -/
theorem test_scratch_bytes :
    let s := after (exec (.st 5 6 0 0 (-1)) (on 0 (running [(5, 0x180), (6, 0x400000)])))
    s.scr = [(0x3FFFFF, 0x80)] ∧ (ctxAfter 0 (exec (.ld 7 6 0 0 (-1)) s)).s 7 = -128 ∧
    (ctxAfter 0 (exec (.ldn 7 6 0 0 (-1)) s)).s 7 = 128 := by decide +kernel

/-- R112: one byte further lies outside the view. -/
theorem test_scratch_access_outside_traps :
    let c := ctxAfter 0 (exec (.ld 7 6 0 0 0) (on 0 (running [(6, 0x400000)])))
    c.life = .stopped ∧ bitsAt c.record 152 8 = 0x06 ∧ bitsAt c.record 384 64 = 0x400000 := by decide +kernel

/-- R106, R300: the sum of 2^53 and 1 is a tie, which goes to even, with NX. -/
theorem test_fadd_ties_to_even :
    let c := ctxAfter 0 (exec (.fadd 3 1 2 1) (on 0 (running [(1, 0x4340000000000000), (2, 0x3FF0000000000000)])))
    c.s 3 = 0x4340000000000000 ∧ c.fflags = 1 := by decide +kernel

/-- R295's table, under nearest-even, toward zero and down: code and flags (NX 1, UF 2, OF 4). -/
theorem test_d8_rounding :
    Tag.d8.roundTo .nearestEven (.flt (.fin false 3 0)) = (0x4E, Flags.nx) ∧
    Tag.d8.roundTo .nearestEven (.flt (.fin true 3 0)) = (0xCE, Flags.nx) ∧
    Tag.d8.roundTo .nearestEven (.flt (.fin false 137 (-7))) = (0x40, Flags.nx) ∧
    Tag.d8.roundTo .nearestEven (.flt (.fin false 6000 0)) = (0x1E, Flags.nx) ∧
    Tag.d8.roundTo .nearestEven (.flt (.fin false 8875 0)) = (0x0C, Flags.nx) ∧
    Tag.d8.roundTo .towardZero (.flt (.fin false 8875 0)) = (0x1F, Flags.nx) ∧
    Tag.d8.roundTo .nearestEven (.flt (.fin false 20000000000 0)) = (0x03, Flags.of ||| Flags.nx) ∧
    Tag.d8.roundTo .nearestEven (.flt (.fin true 1 (-35))) = (0x00, Flags.uf ||| Flags.nx) ∧
    Tag.d8.roundTo .down (.flt (.fin true 1 (-35))) = (0x82, Flags.uf ||| Flags.nx) := by decide +kernel

/-- R306: n16 and i8 into f16 through i32. 65,535 − 1 rounds above the largest finite f16, with OF and NX. -/
theorem test_vadd_common_type :
    let c := fill 2 1 [0xFF] (fill 1 2 [0xFFFF] (strip 1 [(0, .f16), (1, .n16), (2, .i8)] (running [])))
    let o := exec (.vaddVv 0 1 2 0) (on 0 c)
    elems 0 1 o = [0x7C00] ∧ (ctxAfter 0 o).fflags = Flags.of ||| Flags.nx := by decide +kernel

/-- R314: an inactive element keeps its bits, and elements below VSTART are not performed. -/
theorem test_vadd_performs_active_elements :
    let c := fill 1 4 [1, 2, 3, 4] (fill 0 4 [9, 9, 9, 9] (strip 4 [(0, .i32), (1, .i32)] (running [])))
    let o := exec (.vaddVv 0 1 1 2) (on 0 { c.setPred 2 0b1011 with vstart := 1 })
    elems 0 4 o = [9, 4, 9, 8] ∧ (ctxAfter 0 o).vstart = 0 := by decide +kernel

/-- R138, R142: the grants 300, 0 and 5,000 of R144's loop, the first by replay with NREG 16: 300 of 2,000. -/
theorem test_setvl_takes_the_replayed_cap :
    let c := { running [(6, 2000)] with vtype := setBits Ctx.reset.vtype 0 2 1, cap := 900, replay := [300, 0, 5000] }
    let t := ctxAfter 0 (exec (.setvl 7 6 2) (on 0 c))
    t.s 7 = 300 ∧ t.vl = 300 ∧ t.vlmax = 1024 ∧ t.replay = [0, 5000] := by decide +kernel

/-- R137, R140: the three strips of the block grant's example, NREG 32 and G 2, width d8b, B 256. -/
theorem test_setvl_b_grants_whole_blocks :
    let c (avl : Dword) (cap : Nat) : Ctx :=
      { running [(6, avl)] with vtype := setBits (setBits Ctx.reset.vtype 0 2 2) 2 2 1, cap := cap }
    let grant (avl : Dword) (cap : Nat) : Dword × Nat × Nat :=
      let t := ctxAfter 0 (exec (.setvlB 7 6 5 Tag.d8b.code) (on 0 (c avl cap)))
      (t.s 7, t.vl, t.vpad)
    grant 1000 10 = (256, 256, 0) ∧ grant 744 100 = (256, 256, 0) ∧ grant 488 200 = (488, 512, 24) := by decide +kernel

/-- R338's table: VL 10, VPAD 2, p3 holding bits 1, 3, 6 and 9. -/
theorem test_predicates :
    let c := { (strip 10 [] (running [(6, 5)])).setPred 2 0b11100100101 with vpad := 2 }
    let c := c.setPred 3 0b1001001010
    (ctxAfter 0 (exec (.pwhile 2 6) (on 0 c))).preds.toList.getD 2 0 = 0b11100011111 ∧
    (ctxAfter 0 (exec (.pcnt 2 3 7) (on 0 (c.setPred 2 0b1011)))).s 7 = 2 ∧
    (ctxAfter 0 (exec (.pfirst 2 3 7) (on 0 (c.setPred 2 0b1011)))).s 7 = 1 ∧
    (ctxAfter 0 (exec (.pfirst 2 3 7) (on 0 ((c.setPred 2 (-1)).setPred 3 0b1000000000)))).s 7 = 10 := by decide +kernel

/-- R307's five leaves 2^24, 1, 1, 1 and 1: the reduction, and the tree stack that reads 0x4B800003 of the eight of R351. -/
theorem test_tree_reduction :
    let c := fill 1 4 [0x4B800000, 0x3F800000, 0x3F800000, 0x3F800000, 0x3F800000] (strip 5 [(0, .f32), (1, .f32)] (running []))
    elems 0 1 (exec (.vredsum 0 1 0 0) (on 0 c)) = [0x4B800002] := by decide +kernel

theorem test_tree_stack :
    let c := fill 1 4 (0x4B800000 :: List.replicate 7 0x3F800000) (strip 8 [(0, .f32), (1, .f32)] (running []))
    elems 0 1 (exec (.tread 0 2 0) (after (exec (.vtree 2 1 0) (on 0 c)))) = [0x4B800003] := by decide +kernel

/-- R357: draw 0 of the worked example is 0xBC3D374F. -/
theorem test_generator_draw :
    let c := strip 1 [(4, .n32)] (running [(18, 0x0000000200000001), (19, 0x92CB2D5ACB2D5A91)])
    elems 4 1 (exec (.vrng 4 18 0) (on 0 { c with rngkey0 := 0x0000000200000001, rngkey1 := 0x965AB525CB2D5A91 })) = [0xBC3D374F] := by
  decide +kernel

/-- R370's worked row, with one rounding per block of 16: 0x4B800002. -/
theorem test_matrix_row :
    let bf (n : Nat) : Nat := if n = 0 then 0 else if n = 1 then 0x3F80 else 0x4580
    let scr := (((Mem.write [] 0 2 (bf 4096)).write 2 2 (bf 1)).write 4 2 (bf 1)).write 32 2 (bf 1)
    let plane : BitVec 262144 := BitVec.ofNat _ (bf 4096 + bf 1 * 2 ^ (8 * 256) + bf 1 * 2 ^ (8 * 512) + bf 1 * 2 ^ (8 * 256 * 16))
    let m := { Mill.reset with active := plane, rowpred := 1, colpred := 1, queue := [⟨.mma 0 0 true, .nearestEven, 8⟩] }
    let t := (after (exec (.matrixOpComplete 0 none) ({ State.reset with scr := scr }.setMill 0 m))).mill 0
    sliceBytes (t.tiles.toList.getD 0 0) 0 4 = 0x4B800002 ∧ t.queue = [] ∧ t.completed = 1 := by decide +kernel

/-- R194: a stream of element stores through a view, at the view's addresses (R154). -/
theorem test_vector_store_and_load :
    let c := viewed 3 (scr4 0x20000 256) (fill 1 4 [7, 8] (strip 2 [(0, .i32), (1, .i32)] (running [(5, 2)])))
    let t := after (exec (.vst 1 3 5 0) (on 0 c))
    t.scr = [(0x20008, 7), (0x2000C, 8)] ∧ elems 0 2 (exec (.vld 0 3 5 0) t) = [7, 8] := by decide +kernel

/-- R210: an aligned word of the device is read and replaced, and the old word, sign-extended, reaches the register. -/
theorem test_atomic_swap :
    let s := mapped (on 0 (viewed 4 (dev4 0x200000 16) (running [(1, 4), (2, 0x55)])))
    let o := exec (.aswap 9 1 2 4 0) { s with dev := s.dev.write 0x200004 4 0x80000001 }
    (after o).dev.read 0x200004 4 = 0x55 ∧ (ctxAfter 0 o).s 9 = 0xFFFFFFFF80000001 := by decide +kernel

/-- R440, R442: a trap of `trap #0x123` stops the context, whose record names cause 0x0C and its code. -/
theorem test_trap_record :
    let c := ctxAfter 17 (exec (.trap 0x123) (on 17 { running [] with pc := 0x40 }))
    c.life = .stopped ∧ bitsAt c.record 152 8 = 0x0C ∧ bitsAt c.record 164 12 = 0x123 ∧ bitsAt c.record 180 12 = 17 ∧
    bitsAt c.record 288 32 = 0x40 := by decide +kernel

/-- R120: `csrs` answers the old value and sets the bits. -/
theorem test_csrs :
    let c := ctxAfter 0 (exec (.csrs 7 6 0x030) (on 0 { running [(6, 0xF0)] with rngkey0 := 0x3C }))
    c.s 7 = 0x3C ∧ c.rngkey0 = 0xFC := by decide +kernel

/-- R207: a key's slot lies in its set, and a look-up of an entry in progress answers −2. -/
theorem test_tag_table :
    let s := on 0 (running [(1, 0x400 * 3 + 1), (2, 0x31)])
    (ctxAfter 0 (exec (.tlook 7 1) (after (exec (.tset 0 1 2) s)))).s 7 = -2 ∧
    (ctxAfter 0 (exec (.tlook 7 1) s)).s 7 = -1 ∧
    bitsAt (ctxAfter 0 (exec (.tset 0 1 2) (on 0 (running [(1, 0x400 * 3 + 1), (2, 0x41)])))).record 152 8 = 0x02 := by decide +kernel

/-! ### Witnesses: for every statement with hypotheses, states and operands that meet them, clause by clause -/

/-- The plainest state: context 0 runs and has the turn, its registers as listed. -/
def plain (l : List (Nat × Dword)) : State := on 0 (running l)

theorem witness_RegisterArithmeticWritesTheTableValue :
    Ready (plain [(1, 7), (2, 3)]) 0 [(31 : BitVec 5).toNat, (1 : BitVec 5).toNat, (2 : BitVec 5).toNat] ∧
    Ready (on 2339 (running [(1, 7)])) 2339 [0, 1] ∧
    (30 % 2 = 0 ∧ Ready (plain [(1, 7)]) 0 [30, 31, 0, 1, 2, 3]) ∧
    (plain []).cur = .agent 0 ∧ ((31 : BitVec 5).toNat % 2 = 1) ∧ ((plain []).ctx 0).late = none ∧ Settled (plain []) 0 := by
  decide +kernel

theorem witness_ImmediateFormsComputeTheirCounterparts : Ready (plain [(1, 7)]) 0 [0, 1] ∧ Ready (plain [(1, 7)]) 0 [31, 31] := by
  decide +kernel

theorem witness_BranchesAndJumpsContinueAtTheirTargets :
    Ready (plain [(1, 7)]) 0 [1, 2] ∧ Ready (plain []) 0 [31] ∧
    (Ready (plain [(1, 8)]) 0 [1, 1] ∧ (((plain [(1, 8)]).ctx 0).s 1 + (4 : BitVec 16).signExtend 64).toNat % 4 = 0) ∧
    Ready (plain [(1, 6)]) 0 [0, 1] ∧ (((plain [(1, 6)]).ctx 0).s 1 + (-1 : BitVec 16).signExtend 64).toNat % 4 ≠ 0 ∧
    ((plain [(1, 6)]).ctx 0).quiet = true ∧ (plain [(1, 6)]).matIdle 0 = true := by decide +kernel

/-! Registers of the float statements: f32 bits of 1, −0, +∞, −∞, a signalling and a quiet NaN, and the least subnormal. -/
def floats : State :=
  plain [(1, 0x3F800000), (2, 0x80000000), (3, 0x7F800000), (4, 0xFF800000), (5, 0x7F800001), (6, 0x7FC00000), (7, 1), (8, 0xBF800000)]

theorem ratOf_pos {m : Nat} {e : Int} (h : m ≠ 0) : 0 < ratOf (.fin false m e) := by
  have : 0 < m := Nat.pos_of_ne_zero h
  simp only [ratOf, Bool.false_eq_true, if_false, one_mul]
  positivity

theorem witness_FloatResultsRoundTheExactResult :
    Ready floats 0 [31, 1, 7] ∧
    (isFinite ((fmtOf 0).ofReg ((floats.ctx 0).s 1)) = true ∧ isFinite ((fmtOf 0).ofReg ((floats.ctx 0).s 7)) = true ∧
      isFinite ((fmtOf 0).ofReg ((floats.ctx 0).s 31)) = true ∧ ratOf ((fmtOf 0).ofReg ((floats.ctx 0).s 7)) ≠ 0) ∧
    (isFinite ((fmtOf 0).ofReg ((floats.ctx 0).s 7)) = true ∧ 0 < ratOf ((fmtOf 0).ofReg ((floats.ctx 0).s 7))) ∧
    isFinite ((Fmt.ofCode 3).ofReg ((floats.ctx 0).s 1)) = true := by
  have h7 : (fmtOf 0).ofReg ((floats.ctx 0).s 7) = .fin false 1 (-149) := by decide +kernel
  have p := ratOf_pos (m := 1) (e := -149) (by decide)
  rw [h7]
  refine ⟨?_, ⟨?_, ?_, ?_, ne_of_gt p⟩, ⟨?_, p⟩, ?_⟩ <;> decide +kernel

theorem witness_RoundingIsCorrect : ∀ F ∈ [Fmt.f32, Fmt.f64, Fmt.bf16, Fmt.f16],
    ∀ rm ∈ [RM.nearestEven, .towardZero, .down, .up, .nearestAway], ∀ x ∈ [((1 : Nat), (-2000 : Int)), (1, 0), (1023, 5)],
      x.1 ≠ 0 ∧ (F.roundTo rm (.fin true x.1 x.2)).2 &&& Flags.of = 0 := by decide +kernel

/-- One register for each clause of R107's table. -/
theorem witness_FloatSpecialsFollowTheTable :
    let x (n : Nat) : Nat := ((floats.ctx 0).s n).toNat % 2 ^ (fmtOf 0).bits
    let X (n : Nat) : FVal := (fmtOf 0).decode (x n)
    ((0 : BitVec 3).toNat < 4 ∧ (3 : BitVec 3).toNat < 4) ∧
    (∀ d ∈ List.range 9, ∀ a ∈ List.range 9, ∀ b ∈ List.range 9, Ready floats 0 [d, a, b]) ∧
    nanBits (fmtOf 0) (x 5) = true ∧ nanBits (fmtOf 0) (x 6) = true ∧ nanBits (fmtOf 0) (x 1) = false ∧
    ((X 3).isInf = true ∧ (X 4).isInf = true ∧ nanBits (fmtOf 0) (x 3) = false ∧ nanBits (fmtOf 0) (x 4) = false) ∧
    (((X 2).isZero && (X 3).isInf) || ((X 2).isInf && (X 3).isZero)) = true ∧
    ((X 2).isZero = true ∧ (X 0).isZero = true) ∧ ((X 8).neg? = true ∧ (X 8).isZero = false) ∧
    (isFinite (X 7) = true ∧ (X 7).isZero = false) ∧
    (nanBits (Fmt.ofCode (0 : BitVec 2).toNat) (x 5) = true ∧ nanBits (Fmt.ofCode (3 : BitVec 2).toNat) 0x7C01 = true) := by decide +kernel

theorem witness_FloatComparisonsAndClasses :
    let x (n : Nat) : Nat := ((floats.ctx 0).s n).toNat % 2 ^ (fmtOf 0).bits
    let X (n : Nat) : FVal := (fmtOf 0).decode (x n)
    (Ready floats 0 [9, 2, 0] ∧ nanBits (fmtOf 0) (x 2) = false ∧ nanBits (fmtOf 0) (x 0) = false) ∧
    (ratOf (X 2) = ratOf (X 0) ∧ (X 2).neg? = true ∧ (X 0).neg? = false) ∧
    ratOf (X 0) < ratOf (X 7) ∧ ¬ ratOf (X 7) < ratOf (X 7) ∧ Ready floats 0 [9, 7, 7] := by
  have h7 : (fmtOf 0).decode (((floats.ctx 0).s 7).toNat % 2 ^ (fmtOf 0).bits) = .fin false 1 (-149) := by decide +kernel
  have h2 : (fmtOf 0).decode (((floats.ctx 0).s 2).toNat % 2 ^ (fmtOf 0).bits) = .fin true 0 (-149) := by decide +kernel
  have h0 : (fmtOf 0).decode (((floats.ctx 0).s 0).toNat % 2 ^ (fmtOf 0).bits) = .fin false 0 (-149) := by decide +kernel
  have p := ratOf_pos (m := 1) (e := -149) (by decide)
  have z (b : Bool) : ratOf (.fin b 0 (-149)) = 0 := by simp [ratOf]
  refine ⟨by decide +kernel, ⟨?_, by decide +kernel, by decide +kernel⟩, ?_, lt_irrefl _, by decide +kernel⟩
  · exact (congrArg ratOf h2).trans ((z true).trans ((z false).symm.trans (congrArg ratOf h0).symm))
  · exact lt_of_eq_of_lt ((congrArg ratOf h0).trans (z false)) (lt_of_lt_of_eq p (congrArg ratOf h7).symm)

/-- A thread with view 3 of 256 words from 0x20000 and view 4 of the device. -/
def withViews (l : List (Nat × Dword)) : State := mapped (on 0 (viewed 4 (dev4 0x200000 16) (viewed 3 (scr4 0x20000 256) (running l))))

/-- The last word of the view, and its first byte. -/
theorem witness_ScratchAccessesMoveTheirBytes :
    (∀ seen : Bool, ScratchOk (withViews [(6, 1020)]) 0 [7, 6] 3 (scr4 0x20000 256) 1020 4 seen ∧
      ScratchOk (withViews []) 0 [7, 6] 3 (scr4 0x20000 256) 0 1 seen ∧ ScratchOk (withViews [(6, 0x3FFFF8)]) 0 [7, 6] 0 View.w0 0x3FFFF8 8 seen) ∧
    ((withViews [(6, 1020)]).watched 0 (scr4 0x20000 256) 0x203FC 4 true false = false ∧
      (withViews [(6, 1020)]).watched 0 (scr4 0x20000 256) 0x203FC 4 false true = false) := by
  unfold ScratchOk
  refine ⟨fun seen => ?_, by decide +kernel⟩
  cases seen <;> decide +kernel

theorem witness_ScratchChecksTrapInOrder :
    Ready (withViews []) 0 [7, 6] ∧ Settled (withViews []) 0 ∧ InOrder (withViews []) 0 3 true ∧ InOrder (withViews []) 0 5 true ∧
    coreViewBad 0 (5 : BitVec 4).toNat = false ∧ ((withViews []).ctx 0).view (isCore 0) 5 = none ∧
    (((withViews []).ctx 0).vq = [] ∧ ((withViews []).ctx 0).xq = [] ∧ (withViews []).streamWritesPending 0 = false) ∧
    (((withViews []).ctx 0).view (isCore 0) 4 = some (dev4 0x200000 16) ∧ ¬ View.space (dev4 0x200000 16) ≤ 1) ∧
    (let v := scr4 0x20000 256
     ((withViews []).ctx 0).view (isCore 0) 3 = some v ∧
     (View.space v ≤ 1 ∧ View.rank v = 1 ∧ View.stride v 0 = 1 ∧ View.whole v = false) ∧ ¬ (1021 : Int) + 4 ≤ View.ext v 0 * View.size v ∧
     ¬ 0 ≤ (-1 : Int) ∧ ((1020 : Int) + 4 ≤ View.ext v 0 * View.size v) ∧ (View.base v + 2) % 4 ≠ 0 ∧
     (withViews []).struck (.scr (scrByte 0 v 0x20002)) 4 = false ∧
     { withViews [] with errors := [(0, 0x20005)] }.struck (.scr (scrByte 0 v 0x20002)) 4 = true) := by decide +kernel

/-- The last word of the device view, whose page is one of 1 GiB; the queue of external accesses is empty or not, as the statement says of both. -/
theorem witness_ExternalAccessesEnterTheQueue :
    let s := withViews [(1, 60), (2, 5)]
    let v := dev4 0x200000 16
    (Ready s 0 [9, 1] ∧ Ready s 0 [9, 1, 2] ∧ Ready s 0 [0, 1, 2] ∧ InOrder s 0 4 true ∧ coreViewBad 0 4 = false) ∧
    ((s.ctx 0).view (isCore 0) 4 = some v ∧ ExternalBounds v 60 4 0x20003C) ∧
    (∀ u ∈ [Use.read, .write], s.locate 0 v 0x20003C 4 u = .ok (.dev 0x20003C false) ∧
      (accessPin s 0 0x20003C u (.dev 0x20003C false)).map (fun p => (p.page, p.size)) = some (0, 2 ^ 30)) ∧
    (0x20003C % 4 = 0 ∧ (s.ctx 0).xq.length < 16 ∧ s.pinRoom (s.partOf 0) (dieOf 0) [(0, 2 ^ 30)] = true) ∧
    reachable s (.dev 0x20003C false) 4 ∧
    (s.watched 0 v 0x20003C 4 true false = false ∧ s.watched 0 v 0x20003C 4 false true = false ∧ bitAt (s.ctx 0).detm 0 = false) ∧
    View.space v ≠ 3 ∧ ExternalBounds View.w15 0xFFFFFFFFFFFFFFFC 4 0xFFFFFFFFFFFFFFFC := by
  unfold ExternalBounds reachable
  refine ⟨?_, ?_, ?_, ?_, ⟨by simp, ?_⟩, ?_, ?_⟩ <;> decide +kernel

/-- No stack of HBM4 is ready yet. -/
def untrained (s : State) : State := { s with starting := (List.range 8).map (64 + ·) }

/-- An entry of the external queue: a load of the last word of the device view. -/
def entry : XqEntry := ⟨.load, ⟨4, dev4 0x200000 16, none⟩, 0x20003C, .dev 0x20003C false, none, 4, 9, []⟩

/-- A store there, and an access of a core through w15. -/
def storeEntry : XqEntry := { entry with kind := .store 7 }
def coreEntry : XqEntry := { entry with via := ⟨15, View.w15, none⟩, loc := .host 64 }

/-- An entry that can be reached, a peer that cannot, and a byte that an error has struck. -/
theorem witness_QueueEntriesCompleteOldestFirst :
    let s := (withViews []).modCtx 0 fun c => { c with xq := [entry] }
    let u := { s with errors := [(2, 0x20003F)] }
    ((s.ctx 0).xq = entry :: [] ∧ s.accessing 0 = true ∧ (u.ctx 0).xq = entry :: [] ∧ u.accessing 0 = true ∧
      s.entryHeld 0 0 entry = false ∧ u.entryHeld 0 0 entry = false) ∧
    Succeeds s 0 entry ∧ ¬ Succeeds s 0 { entry with loc := .peer 0 } ∧ ¬ Succeeds u 0 entry := by
  refine ⟨by decide +kernel, ⟨⟨?_, by decide +kernel⟩, ?_⟩, ?_, ?_⟩
  · intro a h
    cases h
  · intro a x _ h
    exact absurd h (by decide)
  · intro h
    exact absurd (h.1.1 0 rfl) (by decide +kernel)
  · intro h
    exact absurd h.1.2 (by decide +kernel)

/-- An entry that a stack or an earlier raise holds back, when it enters the queue and when its turn comes. -/
theorem witness_QueueEntriesCompleteOldestFirst_held :
    let s := untrained ((withViews []).modCtx 0 fun c => { c with xq := [entry] })
    let m := on 2304 { Ctx.reset with life := .running, xq := [coreEntry], raises := [⟨[0, 0, 0, 0], 0, 319, 63⟩] }
    let n := on 2304 { Ctx.reset with life := .running, xq := [coreEntry], raises := [⟨[0, 0, 0, 0], 1, 319, 63⟩] }
    ((s.ctx 0).xq = entry :: [] ∧ s.accessing 0 = true ∧ s.entryHeld 0 0 entry = true ∧ (withViews []).entryHeld 0 0 entry = false) ∧
    ((m.ctx 2304).xq = coreEntry :: [] ∧ m.accessing 2304 = true ∧ m.entryHeld 2304 0 coreEntry = true) ∧
    ((n.ctx 2304).xq = coreEntry :: [] ∧ n.accessing 2304 = true ∧ n.entryHeld 2304 0 coreEntry = false) := by decide +kernel

theorem witness_FencesAndCountersOrderTheirAgent :
    let s := withViews [(1, 319), (2, 1), (3, 320)]
    let u := s.modCtx 0 fun c => { c with xq := [entry] }
    (Ready s 0 [] ∧ coreMaskBad 0 0xFFFF = false ∧ (s.ctx 0).quiet = true ∧ s.matIdle 0 = true ∧
      (s.ctx 0).vq = []) ∧
    (Ready u 0 [] ∧ (∃ e ∈ (u.ctx 0).xq, (0x10 : BitVec 16).getLsbD e.via.reg = true) ∧
      ∀ e ∈ (u.ctx 0).xq, (0xFFEF : BitVec 16).getLsbD e.via.reg = false) ∧
    ((s.ctx 0).xq = [] ∧ s.streamWritesPending 0 = false ∧ ¬ (u.ctx 0).xq = []) ∧
    (Ready u 0 [2] ∧ (u.ctx 0).xq.length ≤ ((u.ctx 0).s 2).toNat ∧ (u.ctx 0).xfail = [] ∧ ((u.ctx 0).s 0).toNat < (u.ctx 0).xq.length) ∧
    (Ready s 0 [1, 2] ∧ ((s.ctx 0).s 1).toNat < 320 ∧ s.counter (bayOf 0) (s.partOf 0) 319 < (s.ctx 0).s 2 ∧
      (s.ctx 0).s 0 ≤ s.counter (bayOf 0) (s.partOf 0) 319 ∧ s.released 0 = true ∧ (s.ctx 0).matErr = none) ∧
    (Ready u 0 [1, 2] ∧ u.released 0 = false) ∧ (Ready s 0 [3, 2] ∧ 320 ≤ ((s.ctx 0).s 3).toNat ∧ Settled s 0) ∧
    Ready s 0 [9, 1] := by decide +kernel

/-- Eight groups tagged f32, f32, i32, i32, d8b, p32, p32 and none, a strip of 5 elements, the first below VSTART v. -/
def vecFrom (v vl : Nat) (l : List (Nat × Dword)) : State :=
  on 0 { strip vl [(0, .f32), (1, .f32), (2, .i32), (3, .i32), (4, .d8b), (5, .p32), (6, .p32)] (running l) with vstart := v }
def vec (l : List (Nat × Dword)) : State := vecFrom 0 5 l

/-- All members: for i32 operands, and the members that floats have for f32. -/
theorem witness_VectorArithmeticWritesActiveElements :
    let s := vecFrom 4 5 [(1, 7)]
    let c := s.ctx 0
    HasStrip c ∧ VectorReady s 0 [0, 0, 0] ∧ VectorReady s 0 [(1 : BitVec 5).toNat, 0, 0] ∧ GroupsOk c [2, 3, 2] ∧ GroupsOk c [0, 1, 1] ∧
    GroupsOk c [2, 3] ∧ GroupsOk c [2] ∧ c.tag 2 = .i32 ∧ c.tag 0 = .f32 ∧
    (∀ op ∈ [Arith.vadd, .vsub, .vmul, .vfma, .vfms, .vfnma, .vdiv, .vmin, .vmax, .vsadd, .vssub, .vmulh, .vavg, .vabs, .vneg],
      op.tagsBad .i32 .i32 .i32 = false) ∧
    ∀ op ∈ [Arith.vadd, .vsub, .vmul, .vfma, .vfms, .vfnma, .vdiv, .vmin, .vmax, .vavg, .vabs, .vneg],
      op.tagsBad .f32 .f32 .f32 = false := by
  unfold GroupsOk
  decide +kernel

theorem witness_ArithmeticElementsOfIntegers :
    ∀ op ∈ [Arith.vadd, .vsub, .vmul, .vfma, .vfms, .vfnma, .vdiv, .vmin, .vmax, .vsadd, .vssub, .vmulh, .vavg, .vabs, .vneg],
    ∀ td ∈ [Tag.i32, .i64, .n16],
      let C := if op.unary then Tag.i32 else if op.fused then commonTag (commonTag .i32 .i8) td else commonTag .i32 .i8
      Tag.i32.isInt = true ∧ Tag.i8.isInt = true ∧ td.isNum = true ∧ C.isInt = true ∧ op.tagsBad .i32 .i8 td = false ∧
      Tag.i8.readInt 0 = 0 ∧ Tag.i8.readInt 0xFF = -1 ∧ Tag.i32.readInt 0x80000000 = Tag.i32.minInt := by decide +kernel

/-- Finite operands, a NaN operand, and a zero divisor, of one width and of two. -/
theorem witness_ArithmeticElementsOfFloats :
    (∀ op ∈ [Arith.vadd, .vsub, .vmul, .vfma, .vfms, .vfnma, .vdiv, .vmin, .vmax, .vavg],
      ∀ t ∈ [(Tag.f32, Tag.f32, Tag.f32), (Tag.f16, Tag.i32, Tag.f64), (Tag.d8, Tag.bf16, Tag.f16)],
        op.unary = false ∧ t.1.isNum = true ∧ t.2.1.isNum = true ∧ t.2.2.isNum = true ∧
        (if op.fused then commonTag (commonTag t.1 t.2.1) t.2.2 else commonTag t.1 t.2.1).isFloat = true ∧
        op.tagsBad t.1 t.2.1 t.2.2 = false) ∧
    (let x (b : Nat) : FVal := (toCommon .f32 .nearestEven (Tag.f32.read b)).1.flt?
     [x 0x3F800000, x 0x7F800001].find? (·.isNan) = some (x 0x7F800001) ∧
     ([x 0x3F800000, x 0x00000001].all isFinite) = true ∧ x 0x80000000 = .fin true 0 (-149) ∧
     ((x 0x80000000).isZero = true ∧ (x 0).isZero = true) ∧
     (([x 0x3F800000, x 0xFF800000].all (fun v => !v.isNan)) = true ∧ ([x 0x3F800000, x 0xFF800000].any (·.isInf)) = true)) ∧
    ((3 : Nat) < 2 ^ Tag.bf16.width ∧ Tag.i8.isNum = true) := by decide +kernel

theorem witness_LogicShiftsAndCounts :
    let s := vec []
    let c := s.ctx 0
    VectorReady s 0 [0, 0, 0] ∧ HasStrip c ∧ GroupsOk c [2, 3, 2] ∧ GroupsOk c [0, 1] ∧ GroupsOk c [0, 1, 4] ∧ GroupsOk c [4, 1] ∧
    ((c.tag 0).bytes = (c.tag 2).bytes ∧ (c.tag 4).bytes ≠ (c.tag 0).bytes) ∧
    ((c.tag 2).isInt = true ∧ (c.tag 3).isInt = true ∧ (c.tag 0).isInt = false) ∧ (c.tag 0).isNum = true ∧ Settled s 0 := by
  unfold GroupsOk
  decide +kernel

/-- An instruction that others may observe, behind a `vadd` of the convoy that begins next, and behind one with a `vsrd` of stream q2 queued. -/
theorem witness_ThreadsInstructionsBesideAConvoy :
    let x := (vec [(1, 3), (2, 5), (3, 15)]).ctx 0
    let e (i : Instr) : VqEntry := VOp.entry { word := i.word } x
    let s := on 0 { x with vq := [e (.vaddVv 1 0 0 0)] }
    let t := on 0 { x with vq := [e (.vsrd 2 2 1 0)] }
    (∀ rs ∈ [[31, 1, 2], [31, 1], [1], [31], []], ThreadReady s 0 rs) ∧ (s.ctx 0).quiet = false ∧ State.transferQueued (s.ctx 0) 2 = false ∧
    ThreadReady t 0 [] ∧ State.transferQueued (t.ctx 0) 2 = true ∧ Ready t 0 [31, 1] := by
  and_intros <;> decide +kernel

theorem witness_ComparisonsWritePredicateBits :
    let s := vec []
    let c := s.ctx 0
    VectorReady s 0 [0, 0, 0] ∧ HasStrip c ∧ Settled s 0 ∧ GroupsOk c [0, 3] ∧ GroupsOk c [0] ∧ GroupsOk c [0, 4] ∧ GroupsOk c [2] ∧
    ((15 : BitVec 4) ≠ 0 ∧ (c.tag 0).isNum = true ∧ (c.tag 3).isNum = true) ∧ ((9 : BitVec 6).toNat ≤ 9 ∧ (c.tag 0).isFloat = true) ∧
    10 ≤ (10 : BitVec 6).toNat ∧ ((c.tag 0).isNum && (c.tag 4).isNum) = false ∧ (c.tag 2).isFloat = false := by
  unfold GroupsOk
  and_intros <;> decide +kernel

theorem witness_FunctionsFollowTheirTables :
    let s := vec []
    let c := s.ctx 0
    VectorReady s 0 [0, 0, 0] ∧ HasStrip c ∧ GroupsOk c [2, 0] ∧ GroupsOk c [0, 0] ∧ (c.tag 0).isFloat = true ∧ (c.tag 2).isNum = true := by
  unfold GroupsOk
  decide +kernel

theorem witness_ConversionsMovesAndScaling :
    let s := vec []
    let c := s.ctx 0
    VectorReady s 0 [0, 0, 0] ∧ HasStrip c ∧ Settled s 0 ∧
    (Tag.ofCode Tag.p32.code = .p32 ∧ Tag.ofCode Tag.f16.code = .f16) ∧
    (c.groupOk 0 = true ∧ c.groupOk 1 = true ∧ c.tag 1 ≠ .none ∧ c.tag 1 ≠ .d8b ∧ c.tag 1 ≠ .p32 ∧ c.fits (c.tag 1).bytes = true ∧
      c.fits Tag.f16.bytes = true) ∧
    c.tag 4 = .d8b ∧ GroupsOk c [0, 2] ∧ GroupsOk c [0, 4] ∧ GroupsOk c [0, 1, 2] ∧ GroupsOk c [2, 0, 4] ∧
    ((c.tag 0).isFloat = true ∧ (c.tag 2).isNum = true ∧ c.tag 1 ≠ .d8b ∧ c.tag 1 ≠ .p32) := by
  unfold GroupsOk
  decide +kernel

theorem witness_SlidesButterfliesAndBroadcasts :
    let s := vec [(1, 0x8000), (2, 3)]
    let c := s.ctx 0
    VectorReady s 0 [1, 0, 0] ∧ VectorReady s 0 [2, 0, 0] ∧ HasStrip c ∧ Settled s 0 ∧ GroupsOk c [0] ∧ GroupsOk c [4] ∧
    (c.tag 0).isNum = true ∧ (c.tag 4).isNum = false ∧ GroupsOk c [0, 1] ∧ GroupsOk c [0, 2] ∧ GroupsOk c [0, 0] ∧ GroupsOk c [0, 4] ∧
    (∃ k < 16, (c.s 1).toNat = 2 ^ k) ∧ ¬ (∃ k < 16, (c.s 2).toNat = 2 ^ k) ∧ (c.tag 0 = c.tag 1 ∧ c.tag 0 ≠ c.tag 2) := by
  unfold GroupsOk
  and_intros <;> decide +kernel

/-- A `vbfly.c` at distance 1 and its reader, in the convoy that has begun with them. -/
theorem witness_SlidesButterfliesAndBroadcasts_chain :
    let x := (vec [(1, 1)]).ctx 0
    let e := VOp.entry { word := (Instr.vbflyC 0 1 1 0).word, sa := 1 } x
    let r := VOp.entry { word := (Instr.vaddVv 1 0 0 0).word } x
    let s : State := { State.reset.setCtx 0 { x with vq := [e, r], convoyLeft := 2 } with cur := .entry 0 0 }
    let c := s.ctx 0
    s.cur = .entry 0 0 ∧ c.vq = [e, r] ∧ c.convoyLeft = 2 ∧ c.latch = none ∧ HasStrip c ∧ GroupsOk c [0, 1] ∧ (c.tag 1).isNum = true ∧
    ((x.stepping = false ∧ x.debugReq ≠ 3)) ∧ e.word = (Instr.vbflyC 0 1 1 0).word ∧ (e.begun = false ∧ e.done = false ∧ e.vtype = c.vtype ∧ e.vtag = c.vtag) ∧
    (r.done = false ∧ isChain r.word = false) ∧ State.groupsBetween (c.groupOf e) c.vstart c.reals ≤ c.slotted + 1 := by
  unfold GroupsOk
  and_intros <;> decide +kernel

theorem witness_GatherCompressExpandAndElements :
    let s := vec [(1, 4), (2, 5)]
    let u := vecFrom 1 5 []
    let c := s.ctx 0
    VectorReady s 0 [0, 0, 0] ∧ GroupsOk c [0, 1] ∧ (c.tag 1).bytes = (c.tag 0).bytes ∧ c.vstart = 0 ∧ c.vl ≠ 0 ∧ GroupsOk c [2] ∧
    (c.tag 2).isInt = true ∧ HasStrip c ∧ GroupsOk c [0, 1, 2] ∧ GroupsOk c [0, 0, 2] ∧ GroupsOk c [0, 2, 1] ∧ (c.tag 1).isInt = false ∧
    (VectorReady u 0 [0, 0, 0] ∧ HasStrip (u.ctx 0) ∧ GroupsOk (u.ctx 0) [0, 1, 2] ∧ (u.ctx 0).vstart ≠ 0) ∧ Settled s 0 ∧
    VectorReady s 0 [2, 1, 0] ∧ (c.s 1).toNat < c.reals ∧ ¬ (c.s 2).toNat < c.reals ∧ VectorReady s 0 [1, 0, 31] := by
  unfold GroupsOk
  and_intros <;> decide +kernel

theorem witness_PredicateInstructions :
    let s := vec []
    let c := s.ctx 0
    HasStrip c ∧ VectorReady s 0 [0, 0, 0] ∧ VectorReady s 0 [31, 0, 0] ∧ VectorReady s 0 [0, 0, 31] ∧ (15 : BitVec 4) ≠ 0 ∧
    GroupsOk c [2] ∧ (c.tag 2).isNum = true ∧ GroupsOk c [4] ∧ (c.tag 4).isNum = false ∧ Settled s 0 := by
  unfold GroupsOk
  decide +kernel

/-- Members of f32, raw members of i32, and d8b with a block length of 8 and e8 scales in the next group. -/
theorem witness_ReductionsCombineInTreeOrder :
    let s := vec []
    let c := s.ctx 0
    let b := on 0 (strip 16 [(0, .f32), (1, .d8b), (2, .e8)] (running []))
    let x := b.ctx 0
    VectorReady s 0 [0, 0, 0] ∧ GroupsOk c [0, 1] ∧ GroupsOk c [2, 3] ∧ c.vstart = 0 ∧ c.vl ≠ 0 ∧ (c.tag 0).isNum = true ∧
    (c.tag 1).isNum = true ∧ ((c.tag 2).isInt = true ∧ (c.tag 3).isInt = true ∧ (c.tag 2).bytes = (c.tag 3).bytes) ∧
    (VectorReady b 0 [0, 0, 0] ∧ GroupsOk x [0, 1] ∧ x.tag 1 = .d8b ∧ (1 : BitVec 3).toNat < 6 ∧ 1 + x.g < x.nreg ∧ 0 ≠ 1 + x.g ∧
      x.tag (1 + x.g) = .e8 ∧ 2 ^ (3 + (1 : BitVec 3).toNat) ≤ x.vl) := by
  unfold GroupsOk
  decide +kernel

theorem witness_TreeReductionCombinesAlignedBlocks : [some 1, none, some 3].length < 2 ^ 32 := by decide

/-- A stack of the one leaf 1.0, with base b. -/
def oneLeaf (b : Dword) : Tree := ⟨(Vector.replicate 32 0).set 0 0x3F800000, 1, b, 1⟩

theorem holds_empty (rm : RM) (x : Nat → Nat) : Holds rm Tree.empty x 0 :=
  ⟨by decide, by decide, by decide, by simp⟩

theorem holds_one (rm : RM) (b : Dword) : Holds rm (oneLeaf b) (fun _ => 0x3F800000) 1 := by
  refine ⟨rfl, rfl, by decide, fun k hk h => ?_⟩
  obtain rfl : k = 0 := Nat.testBit_one_eq_true_iff_self_eq_zero.mp h
  rfl

/-- The block of group 1 is `oneLeaf 1` as `tread` with form 1 writes it; the stack 0 holds one leaf at base 0. -/
theorem witness_TreeStacksJoinWithoutChangingTheSum :
    let c0 := fill 1 4 [0x3F800000] (strip 40 [(0, .f32), (1, .n32), (2, .f32), (3, .n32)] (running [(1, 1)]))
    let c := (((c0.setElem 1 4 32 1).setElem 1 4 34 1).setElem 1 4 36 1)
    let s := on 0 { c with trees := c.trees.set 0 (oneLeaf 0) }
    let x := s.ctx 0
    let w (j : Nat) : Nat := x.elem 1 4 j
    let B : Tree := ⟨Vector.ofFn fun k => BitVec.ofNat 32 (w k.val), BitVec.ofNat 32 (w 32), BitVec.ofNat 64 (w 34 + 2 ^ 32 * w 35),
      BitVec.ofNat 64 (w 36 + 2 ^ 32 * w 37)⟩
    VectorReady s 0 [1, 0, 0] ∧ VectorReady s 0 [0, 0, 0] ∧ x.vstart = 0 ∧ x.vl ≠ 0 ∧ GroupsOk x [2] ∧ x.tag 2 ∈ [Tag.f32, .f16, .bf16, .d8] ∧
    GroupsOk x [1] ∧ (x.tag 1).bytes = 4 ∧ 40 ≤ x.reals ∧ (w 33 = 0 ∧ w 38 = 0 ∧ w 39 = 0) ∧ B = oneLeaf 1 ∧
    Holds x.vrm (x.trees.toList.getD 0 Tree.empty) (fun _ => 0x3F800000) 1 ∧ 1 + x.reals < 2 ^ 32 ∧
    Holds x.vrm (oneLeaf 1) (fun _ => 0x3F800000) 1 ∧ ((1 : Nat) ≤ 2 ^ 0 ∧ ∀ k, 1 ≤ 2 ^ k → 0 ≤ k) ∧ 1 % 2 ^ 0 = 0 ∧
    (oneLeaf 1).base = (oneLeaf 0).base + (oneLeaf 0).count ∧ 2 ^ 32 ≤ (0xFFFFFFFF : Dword).toNat + x.reals := by
  unfold GroupsOk
  refine ⟨?_, ?_, ?_, ?_, ?_, ?_, ?_, ?_, ?_, ?_, ?_, holds_one _ _, ?_, holds_one _ _, ⟨by decide, fun k _ => Nat.zero_le k⟩, ?_, ?_, ?_⟩
  all_goals decide +kernel

theorem witness_ScansWriteEveryPrefix :
    let s := vec []
    let c := s.ctx 0
    VectorReady s 0 [0, 0, 0] ∧ GroupsOk c [0, 1] ∧ GroupsOk c [2, 3] ∧ GroupsOk c [5, 6] ∧ (c.tag 1 = c.tag 0 ∧ c.tag 2 = c.tag 3) ∧
    c.vstart = 0 ∧ c.vl ≠ 0 ∧ ((c.tag 0).isNum = true ∧ c.tag 0 ≠ .d8) ∧ (c.tag 5 = .p32 ∧ c.tag 6 = .p32) ∧
    (0x7F7FFFFF < 2 ^ 32 ∧ isFinite (Fmt.f32.decode 0x7F7FFFFF) = true ∧ isFinite (Fmt.f32.decode 0x00000001) = true) := by
  unfold GroupsOk
  decide +kernel

theorem witness_GeneratorIsAFunctionOfCounterAndKey :
    let s := vec []
    let c := s.ctx 0
    VectorReady s 0 [30, 31, 0] ∧ VectorReady s 0 [31, 32, 0] ∧ HasStrip c ∧ GroupsOk c [2] ∧ (c.tag 2).bytes = 4 ∧ GroupsOk c [4] ∧
    (c.tag 4).bytes ≠ 4 ∧ Settled s 0 := by
  unfold GroupsOk
  decide +kernel

/-- Views 3 of the scratchpad and 5 of the bay, each of 256 words; groups 0 and 1 i32, 2 i32 with the indices 0, 255, 256, 3 and 4. -/
def bay4 (base n : Nat) : Line := BitVec.ofNat 512 (base + 2 ^ 64 + 2 * 2 ^ 73 + n * 2 ^ 128 + 2 ^ 256)
def vmem (v : Nat) (l : List (Nat × Dword)) : State :=
  let c := fill 2 4 [0, 255, 256, 3, 4] (strip 5 [(0, .i32), (1, .f32), (2, .i32)] (running l))
  on 0 { viewed 5 (bay4 0x420000 256) (viewed 3 (scr4 0x20000 256) c) with vstart := v }

/-- From 251 all five elements can be accessed, from 254 element 2 is the first that cannot, and from 256 element 0. With p2 clear above
element 1 the indices can all be accessed, and from VSTART 2 the first cannot. -/
theorem witness_VectorLoadsReadTheirElements :
    let s := vmem 0 [(1, 251), (2, 254), (3, 256)]
    let u := vmem 2 []
    let c := s.ctx 0
    let p := (c.setPred 2 0b11011)
    let v := scr4 0x20000 256
    let lin (y i : Nat) : Int := (c.s y).toInt + (i * 1 : Nat)
    let idx (x : Ctx) (i : Nat) : Int := (x.tag 2).readInt (x.elem 2 4 i)
    HasStrip c ∧ GroupsOk c [0] ∧ VectorReady s 0 [1, 0, 0] ∧ VectorReady s 0 [2, 0, 0] ∧ VectorReady s 0 [3, 0, 0] ∧
    VectorView s 0 3 v [0] 4 ∧ VectorView s 0 5 (bay4 0x420000 256) [1] 4 ∧
    (∀ i ∈ performed c 0, s.watched 0 v (View.addr v (lin 1 i).toNat).toNat 4 true false = false) ∧
    (∀ i ∈ performed c 0, Performs s 0 v 4 (lin 1 i)) ∧
    ((∀ i ∈ performed c 0, i < 2 → Performs s 0 v 4 (lin 2 i)) ∧ ¬ Performs s 0 v 4 (lin 2 2) ∧ 2 ∈ performed c 0) ∧
    ((performed c 0).head? = some 0 ∧ ¬ Performs s 0 v 4 (lin 3 0)) ∧
    ¬ Performs { s with errors := [(0, 0x203EC)] } 0 v 4 (lin 1 0) ∧
    (bitAt c.detm 0 = false ∧ bitAt { c with detm := 1 }.detm 0 = true ∧ Settled s 0) ∧ c.view false 7 = none ∧
    (VectorReady s 0 [0, 0, 0] ∧ GroupsOk c [2] ∧ indexTag (c.tag 2) = true ∧ c.tag 0 ≠ .p32) ∧
    (∀ i ∈ performed p 2, Performs s 0 v 4 (idx p i) ∧ Performs s 0 (bay4 0x420000 256) 4 (idx p i)) ∧
    (VectorReady u 0 [0, 0, 0] ∧ (performed (u.ctx 0) 0).head? = some 2 ∧ ¬ Performs u 0 v 4 (idx (u.ctx 0) 2)) := by
  unfold GroupsOk VectorView Performs Accessible
  and_intros <;> decide +kernel

/-- The same accesses as stores; group 0 is i32, which `vaadd` takes. -/
theorem witness_VectorStoresWriteTheirElements :
    let s := vmem 0 [(1, 251), (3, 256)]
    let c := s.ctx 0
    let v := scr4 0x20000 256
    let lin (y i : Nat) : Int := (c.s y).toInt + (i * 1 : Nat)
    let p := (c.setPred 2 0b11011)
    let idx (i : Nat) : Int := (c.tag 2).readInt (c.elem 2 4 i)
    HasStrip c ∧ GroupsOk c [0] ∧ VectorReady s 0 [1, 0, 0] ∧ VectorView s 0 3 v [0] 4 ∧
    (∀ k ∈ performed c 0, s.watched 0 v (View.addr v (lin 1 k).toNat).toNat 4 false true = false) ∧
    (∀ k ∈ performed c 0, Performs s 0 v 4 (lin 1 k)) ∧
    ((performed c 0).head? = some 0 ∧ ¬ Performs s 0 v 4 (lin 3 0)) ∧
    (VectorReady s 0 [0, 0, 0] ∧ GroupsOk c [2] ∧ indexTag (c.tag 2) = true ∧ c.tag 0 ∈ [Tag.i32, .n32, .i64]) ∧
    VectorView s 0 5 (bay4 0x420000 256) [1] 4 ∧ VectorView s 0 5 (bay4 0x420000 256) [0, 1] 4 ∧
    ∀ k ∈ performed p 2, Performs s 0 (bay4 0x420000 256) 4 (idx k) := by
  unfold GroupsOk VectorView Performs Accessible
  and_intros <;> decide +kernel

theorem witness_VectorChecksComeInOrder :
    let s := on 0 (strip 2048 [(0, .f32), (1, .f64)] (running []))
    let e := on 0 (strip 0 [(0, .f32), (1, .f64)] (running []))
    let c := s.ctx 0
    VectorReady s 0 [0, 0, 0] ∧ Settled s 0 ∧ ¬ (8 < c.nreg ∧ 8 % c.g = 0) ∧ (7 < c.nreg ∧ 7 % c.g = 0 ∧ c.tag 7 = .none) ∧
    ((c.tag 0).isNum = true ∧ (c.tag 1).isNum = true ∧ HasStrip c ∧ c.groupBytes < c.vl * (c.tag 1).bytes) ∧
    (VectorReady e 0 [0, 0, 0] ∧ ¬ HasStrip (e.ctx 0)) ∧ VectorReady s 0 [31, 0, 0] ∧
    ((e.ctx 0).view false 3 = none ∧ (e.ctx 0).tag 0 ≠ .none) ∧
    (2304 ≤ 2339 ∧ (on 2339 (running [])).cur = .agent 2339 ∧ ((on 2339 (running [])).ctx 2339).late = none ∧
      Settled (on 2339 (running [])) 2339) := by
  and_intros <;> decide +kernel

theorem witness_VectorConfigurationSetsItsFields :
    let s := plain [(1, 0x1000), (2, 0x1140)]
    let c := s.ctx 0
    let k : BitVec 11 := 0x130
    VectorReady s 0 [31] ∧ VectorReady s 0 [0, 1] ∧ VectorReady s 0 [] ∧ VectorReady s 0 [1] ∧
    (4 ≤ bitsAt k 5 4 ∧ bitsAt k 5 4 ≤ 9 ∧ bitsAt k 2 3 ≤ 4) ∧ (4 ≤ bitsAt (c.s 1) 9 4 ∧ bitsAt (c.s 1) 9 4 ≤ 9 ∧ bitsAt (c.s 1) 6 3 ≤ 4) ∧
    (bitsAt (0 : BitVec 11) 5 4 < 4 ∧ 4 < bitsAt (c.s 2) 6 3 ∧ Settled s 0) ∧
    (7 % c.g = 0 ∧ 7 + 2 ^ 0 * c.g ≤ c.nreg ∧ ¬ 7 + 2 ^ 1 * c.g ≤ c.nreg) ∧ 7 < c.nreg ∧ ¬ 8 < c.nreg := by
  and_intros <;> decide +kernel

/-- The groups that carry have a tag that folds. -/
abbrev foldable (c : Ctx) : Prop :=
  ∀ n < c.nreg, n % c.g = 0 → n < 32 → c.vcarry.getLsbD n = true → c.tag n ∉ [Tag.none, .d8b, .e8, .p32]

theorem witness_GrantFollowsTheCap :
    let s := plain [(6, 1000)]
    let u := on 0 { running [] with vcarry := 1 }
    (VectorReady s 0 [7, 6] ∧ (s.ctx 0).ganged = false ∧ Settled s 0) ∧ foldable (s.ctx 0) ∧
    (VectorReady u 0 [7, 6] ∧ (u.ctx 0).ganged = false ∧ Settled u 0) ∧ ¬ foldable (u.ctx 0) ∧
    ¬ (6 ≤ (5 : BitVec 3).toNat ∨ (11 : BitVec 4) = 0 ∨ (s.ctx 0).groupBytes / (Tag.ofCode 11).bytes < 8 * 2 ^ 5) ∧
    6 ≤ (6 : BitVec 3).toNat := by
  have h : ((plain [(6, 1000)]).ctx 0).vcarry = 0 := by decide +kernel
  refine ⟨by decide +kernel, fun n _ _ _ k => ?_, by decide +kernel, fun k => ?_, by decide +kernel, by decide +kernel⟩
  · rw [h] at k
    simp at k
  · exact k 0 (by decide +kernel) (by decide +kernel) (by decide) (by decide +kernel) (by decide +kernel)

/-- View 4 has and has not an access under way. -/
theorem witness_ViewsLoadRetireAndReport :
    let s := withViews []
    let u := s.modCtx 0 fun c => { c with xq := [entry] }
    let v := dev4 0x200000 16
    let c := s.ctx 0
    Ready s 0 [1] ∧ Settled s 0 ∧ ((15 : BitVec 4) = 0 ∨ (15 : BitVec 4) = 15) ∧ ¬ ((14 : BitVec 4) = 0 ∨ (14 : BitVec 4) = 15) ∧
    c.view false 7 = none ∧ c.view false 4 = some v ∧ ExternalBounds v (c.s 1) 64 0x200000 ∧
    s.locate 0 v 0x200000 64 .read = .ok (.dev 0x200000 false) ∧ 0x200000 % 64 = 0 ∧ InOrder s 0 4 true ∧
    (s.xqMeets 0 v = false ∧ s.locBusy (.dev 0x200000 false) = false) ∧
    reachable s (.dev 0x200000 false) 64 ∧ s.watched 0 v 0x200000 64 true false = false ∧ Ready s 0 [] ∧ Ready s 0 [31] ∧
    (Ready u 0 [] ∧ u.orderHeld 0 4 true = false ∧ (∃ e ∈ (u.ctx 0).xq, e.via.reg = 4) ∧ u.freeDraining (millOf 0) = some 0) ∧
    (View.valid s.pkg v = true ∧ View.valid s.pkg 0 = false) := by
  unfold ExternalBounds reachable
  refine ⟨?_, ?_, ?_, ?_, ?_, ?_, ?_, ?_, ?_, ?_, ?_, ⟨by simp, ?_⟩, ?_, ?_, ?_, ?_, ?_⟩ <;> decide +kernel

/-- A `vfetch` in the queue, two loads queued through view 3 of which only one is certain, and a mill of which no draining entry is free. -/
theorem witness_ViewsLoadRetireAndReport_waits :
    let x := viewed 3 (scr4 0x20000 256) ((vec []).ctx 0)
    let via (k : Option Nat) : Via := ⟨3, scr4 0x20000 256, k⟩
    let e (i : Instr) (v : Option Via) : VqEntry := { VOp.entry { word := i.word } x with via := v }
    let f := on 0 { x with vq := [e (.vfetch 0 0) none] }
    let h := on 0 { x with vq := [e (.vld 0 3 1 0) (some (via none)), e (.vaddVv 1 0 0 0) none], convoyLeft := 1 }
    let d := (on 0 { x with xq := [⟨.load, via none, 0x20000, .scr 0x20000, none, 4, 9, []⟩] }).setCtx 1
      { x with vq := (List.range 32).map fun k => e (.vld 0 3 1 0) (some (via (some k))) }
    (Ready f 0 [] ∧ f.orderHeld 0 3 true = true ∧ ((f.ctx 0).view false 6 = none ∧ f.orderHeld 0 6 true = false)) ∧
    (Ready h 0 [] ∧ h.orderHeld 0 3 true = true ∧ ∀ e ∈ (h.ctx 0).vq, opOf e.word ≠ 0x1E ∧ e.granted = false) ∧
    d.freeDraining (millOf 0) = none ∧ ((d.ctx 0).xq.filter fun e => decide (e.via.reg = 3) && e.via.drain.isNone).length ≠ 0 := by
  and_intros <;> decide +kernel

/-- Slots of the first and the last set, a slot of another set, and one past the table. -/
theorem witness_TagTableActsOnOneSet :
    let s := plain [(1, 0), (2, 0x3FC00), (3, 15), (4, 4095), (5, 4096)]
    let c := s.ctx 0
    Ready s 0 [31, 1] ∧ ThreadReady s 0 [31, 1, 3] ∧ ThreadReady s 0 [31, 2, 4] ∧ ThreadReady s 0 [31, 5] ∧
    ¬ (4096 ≤ (c.s 3).toNat ∨ (c.s 3).toNat / 16 ≠ bitsAt (c.s 1) 10 54 % 256) ∧
    ¬ (4096 ≤ (c.s 4).toNat ∨ (c.s 4).toNat / 16 ≠ bitsAt (c.s 2) 10 54 % 256) ∧ (c.s 4).toNat / 16 ≠ bitsAt (c.s 1) 10 54 % 256 ∧
    4096 ≤ (c.s 5).toNat := by decide +kernel

/-- Tiles 0 of mode 0 and 3 of mode 2, the last line of each, one line too far, and a tile that is not enabled. -/
theorem witness_TileSlicesMoveLines :
    let c := { strip 128 [(0, .f32), (1, .f64)] (running [(1, 127), (2, 63), (3, 128)]) with tileen := 0b1001 }
    let s := (on 0 c).setCtx 2304 { Ctx.reset with mcfg := 8 + 2 * 2 ^ 14 }
    let x := s.ctx 0
    let mode (t : Nat) : Nat := bitsAt (s.ctx 2304).mcfg (8 + 2 * t) 2
    HasStrip x ∧ GroupsOk x [0] ∧ GroupsOk x [1] ∧ (x.tileen.getLsbD 0 = true ∧ x.tileen.getLsbD 3 = true ∧ x.tileen.getLsbD 1 = false) ∧
    VectorReady s 0 [1, 0, 0] ∧ VectorReady s 0 [2, 0, 0] ∧ VectorReady s 0 [3, 0, 0] ∧ VectorReady s 0 [0, 0, 0] ∧
    (mode 0 = 0 ∧ mode 3 = 2 ∧ 2 ^ bitsAt x.vtype 13 2 = 1 ∧ (x.s 1).toNat + 1 ≤ 128 ∧ (x.s 2).toNat + 1 ≤ 64 ∧ 128 < (x.s 3).toNat + 1) ∧
    ((x.tag 0).bytes = 4 ∧ (x.tag 1).bytes = 8 ∧ x.vstart < min x.reals (1 * 128)) ∧ Settled s 0 := by
  unfold GroupsOk
  and_intros <;> decide +kernel

/-- Context 0 is in group 3 alone, or with context 1 that has or has not arrived, and has a child in context 2. -/
theorem witness_GroupsForksAndThreadNumbers :
    let c := { running [(1, 3), (2, 256), (3, 255), (4, 0x1000), (5, 2), (6, 9)] with groups := [3], children := [(9, 0)], share := 2 }
    let s := on 0 c
    let u := s.setCtx 1 { running [] with groups := [3] }
    let w := s.setCtx 1 { running [] with groups := [3], arrived := some 3, wait := some .gbar }
    Inv s ∧ ThreadReady s 0 [31, 1] ∧ (256 ≤ ((s.ctx 0).s 2).toNat) ∧ (3 ∈ (s.ctx 0).groups) ∧
    (((s.ctx 0).s 3).toNat < 256 ∧ ((s.ctx 0).s 3).toNat ∉ (s.ctx 0).groups ∧ (s.ctx 0).groups.length < 4 ∧ ThreadReady s 0 [31, 3]) ∧
    (((s.ctx 0).s 5).toNat % 4 ≠ 0 ∧ ((s.ctx 0).s 4).toNat % 4 = 0 ∧ ThreadReady s 0 [31, 4]) ∧
    ((s.ctx 0).life = .running ∧ (s.ctx 0).share ≠ 1 ∧ ¬ ((s.ctx 0).pinned = true ∧ (s.ctx 0).pincap = 0) ∧
      s.freeIn (millOf 0) = some 1 ∧ s.released 0 = true) ∧
    ((running []).share = 1 ∧ Inv (plain []) ∧ ThreadReady (plain []) 0 [31, 0]) ∧
    (Ready s 0 [31] ∧ Ready s 0 [] ∧ ThreadReady s 0 [1]) ∧ ((s.ctx 0).groups.Nodup ∧ (s.groupMembers (s.partOf 0) 3).Nodup) ∧
    (Inv u ∧ ThreadReady u 0 [1] ∧ u.released 0 = true ∧ (u.groupMembers (u.partOf 0) 3) = [0, 1] ∧ (u.ctx 1).arrived ≠ some 3) ∧
    (Inv w ∧ ThreadReady w 0 [1] ∧ w.released 0 = true ∧ (w.groupMembers (w.partOf 0) 3) = [0, 1] ∧ (w.ctx 1).arrived = some 3) ∧
    (ThreadReady s 0 [6] ∧ ((s.ctx 0).s 6).toNat ≠ 0 ∧
      ((s.ctx 0).children.find? fun e => decide (e.1 = 9)) = some (9, 0)) ∧ (∀ e ∈ (s.ctx 0).children, e.1 ≠ 3) := by
  and_intros <;> decide +kernel

/-- A barrier waits for a release. -/
theorem witness_GroupsForksAndThreadNumbers_release :
    let s := (withViews [(1, 3)]).modCtx 0 fun c => { c with xq := [entry], groups := [3] }
    Inv s ∧ s.released 0 = false ∧ Ready s 0 [1] ∧ 3 ∈ (s.ctx 0).groups := by decide +kernel

theorem witness_ControlRegistersReadAndWrite :
    let s := plain [(1, 0x1140)]
    let m := on 2304 (running [(1, 8)])
    Ready s 0 [31, 1] ∧ (s.ctx 0).quiet = true ∧ Ready s 0 [31, 0] ∧ Settled s 0 ∧
    Ready m 2304 [31, 1] ∧ (m.ctx 2304).quiet = true ∧ m.matIdle 2304 = true ∧ Ready m 2304 [31, 0] ∧ Settled m 2304 := by decide +kernel

/-- Ends of a thread alone, of one with a failed access, with a child that has and has not ended, and of a child. -/
theorem witness_StopsSleepsAndEnds :
    let s := plain [(1, 5)]
    let x := on 0 { running [] with xfail := [⟨3, 0x40⟩] }
    let y := on 0 { running [] with children := [(9, 1)], exited := [9] }
    let z := on 0 { running [] with children := [(9, 1)] }
    let k := on 8 { running [] with parent := 1 }
    Ready s 0 [] ∧ Settled s 0 ∧ (s.ctx 0).matErr = none ∧ Ready s 0 [1] ∧ s.released 0 = true ∧ (s.ctx 0).xfail = [] ∧
    (Ready x 0 [] ∧ x.released 0 = true ∧ (x.ctx 0).xfail = ⟨3, 0x40⟩ :: []) ∧
    (Ready y 0 [] ∧ y.released 0 = true ∧ ∀ e ∈ (y.ctx 0).children, e.1 ∈ (y.ctx 0).exited) ∧
    (Ready z 0 [] ∧ z.released 0 = true ∧ ∃ e ∈ (z.ctx 0).children, e.1 ∉ (z.ctx 0).exited) ∧
    ((((withViews []).modCtx 0 fun c => { c with xq := [entry] }).released 0 = false) ∧
      Ready ((withViews []).modCtx 0 fun c => { c with xq := [entry] }) 0 []) ∧
    (ThreadReady s 0 [0] ∧ (s.ctx 0).s 0 = 0 ∧ (s.ctx 0).parent = 0 ∧ (s.ctx 0).quiet = true) ∧
    (∀ q < 8, s.streamReg 1 q = none ∧ s.streamReg 0 q = none) ∧
    (ThreadReady k 8 [0] ∧ (k.ctx 8).parent ≠ 0 ∧ (k.ctx 8).parent < 65536 ∧ (k.ctx 8).children = [] ∧ k.released 8 = true ∧
      (k.ctx 8).xfail = []) := by
  and_intros <;> decide +kernel

/-- Context 0 has a stream q2 of view v bound at port 5, started, with the elements held and buffered. -/
def bound (write gang : Bool) (v : Line) (buf : List Nat) (pend : List (Nat × Nat)) (started : Bool) (s : State) : State :=
  (s.modCtx 0 fun c => { c with streams := c.streams.setIfInBounds 2 (some ⟨0, 5, v, write, gang, 0⟩) }).setPort 0 5
    [⟨0, 2, v, write, gang, started, none, 0, buf, pend, [], false, buf.length⟩]
/-- A gang of contexts 0 and, where `two`, 1. -/
def ganged (two : Bool) (s : State) : State :=
  let s := s.modCtx 0 fun c => { c with gang := some ⟨3, 2, 0, true, 0, none, false, 0, []⟩ }
  if two then s.setCtx 1 { running [] with gang := some ⟨3, 2, 1, true, 0, none, false, 0, []⟩ } else s

/-- Pages of a view: what the statement asks of them. -/
def pagesThat (s : State) (u : Use) (v : Line) (p : List Pin → Bool) : Bool :=
  match s.pagesOf 1 u v with
  | .ok ps => p ps
  | .error _ => false

theorem witness_StreamsAndGangsBindAndCount_strm :
    let s := withViews []
    let v := dev4 0x200000 16
    let full := s.setPort 0 5 (List.replicate 4 ⟨1, 0, v, true, false, false, none, 0, [], [], [], false, 0⟩)
    let gone := viewed 6 (bay4 0x420000 256) ((withViews []).ctx 0)
    ThreadReady s 0 [] ∧ (s.partOf 0 = 1 ∧ s.streamReg 0 2 = none) ∧ (s.ctx 0).view false 7 = none ∧
    (gone.view false 6 = some (bay4 0x420000 256) ∧ View.space (bay4 0x420000 256) = 1) ∧
    ((s.ctx 0).view false 4 = some v ∧ View.space v ≠ 1 ∧
      (pagesThat s .write v fun ps => decide (ps.length = 1 ∧ ps.length ≤ s.pinLimit 1 (dieOf 0)) && s.pinRoom 1 (dieOf 0) (ps.map fun x => (x.page, x.size))) = true ∧
      (pagesThat s .read v fun ps => decide (ps.length = 1)) = true ∧ (s.port 0 5).length < 4) ∧
    (ThreadReady full 0 [] ∧ 4 ≤ (full.port 0 5).length) ∧
    ((s.setReg (.part 1) 0x18 0).pinLimit 1 (dieOf 0) < 1 ∧
      (let o := { s.setReg (.part 1) 0x18 1 with pins := [⟨.job 1, 1, 0, 2 ^ 30, 2 ^ 30, 0, 0, false, [], false⟩] }
       ThreadReady o 0 [] ∧ 1 ≤ o.pinLimit 1 (dieOf 0) ∧ (o.port 0 5).length < 4 ∧
         (pagesThat o .write v fun ps => decide (ps.length = 1) && !o.pinRoom 1 (dieOf 0) (ps.map fun x => (x.page, x.size))) = true)) ∧
    (∃ g ∈ [0], ((bound true false v [] [] true s).streamReg g 2).isSome = true) ∧ ThreadReady (bound true false v [] [] true s) 0 [] ∧
    (((ganged true s).ctx 0).ganged = true ∧ (ganged true s).gangOf 0 = [0, 1] ∧ (s.ctx 0).ganged = false ∧ ThreadReady (ganged true s) 0 []) := by
  and_intros <;> decide +kernel

theorem witness_StreamsAndGangsBindAndCount_counts :
    let s := withViews [(1, 15), (2, 2), (3, 4), (4, 16)]
    let v := dev4 0x200000 16
    let w := bound true false v [] [(0, 7)] true s
    let r := bound false false v [7, 8] [] true s
    let g := ganged true (bound false true v [7] [] true s)
    let one (x : State) : Prop := x.streamReg 0 2 ≠ none ∧ (x.streamReg 0 2).bind (fun r => x.bindingOf r 2) ≠ none
    (one w ∧ one r ∧ one g) ∧ (ThreadReady w 0 [] ∧ ThreadReady r 0 [] ∧ ThreadReady g 0 []) ∧
    (Ready w 0 [31, 2] ∧ Ready r 0 [31, 2] ∧ (s.streamReg 0 2 = none)) ∧
    (State.transferQueued (w.ctx 0) 2 = false ∧ State.transferQueued (r.ctx 0) 2 = false ∧ State.transferQueued (g.ctx 0) 2 = false) ∧
    (g.readingNow ⟨0, 5, v, false, true, 0⟩ 2 0 = false) ∧
    (∃ r ∈ (g.ctx 0).streams.toList, r.any (·.gang) = true) ∧ ¬ (∃ r ∈ (s.ctx 0).streams.toList, r.any (·.gang) = true) ∧
    (ThreadReady s 0 [31, 1, 2] ∧ (s.ctx 0).gang = none ∧ s.gangMembers (bayOf 0) 15 = [] ∧ ((s.ctx 0).s 4).toNat = 16) ∧
    (let two := s.setCtx 1 { running [] with gang := some ⟨15, 2, 0, false, 0, none, false, 0, []⟩, wait := some .gang }
     ThreadReady two 0 [31, 1, 2] ∧ two.gangMembers (bayOf 0) 15 = [1] ∧ two.memberTerms 1 = some (2, (two.ctx 0).nreg) ∧ bayOf 0 < 36) := by
  and_intros <;> decide +kernel

/-- A stream of group 0's element width at index 0, with two elements arrived of five, and a write stream that has and has not started. -/
theorem witness_StreamTransfersConsumeIndices :
    let v := dev4 0x200000 16
    let c := viewed 4 v (strip 5 [(0, .i32), (1, .i8)] (running [(1, 11)]))
    let s := mapped (on 0 c)
    let r := bound false false v [7, 8] [] true s
    let w := bound true false v [] [] true s
    let n := bound true false v [] [] false s
    let pinned (x : State) : State := x.addPins (.stream 0 2) 0 [⟨.job 0, 1, 0, 0, 2 ^ 30, 0, 0, false, [], false⟩]
    let ok (x : State) : Prop := VectorReady x 0 [1, 0, 0] ∧ HasStrip (x.ctx 0)
    (ok s ∧ ok r ∧ ok w ∧ ok n ∧ ok (pinned w)) ∧ s.streamReg 0 2 = none ∧
    (r.streamReg 0 2 = some ⟨0, 5, v, false, false, 0⟩ ∧ w.streamReg 0 2 = some ⟨0, 5, v, true, false, 0⟩) ∧
    r.bindingOf ⟨0, 5, v, false, false, 0⟩ 2 = some ⟨0, 2, v, false, false, true, none, 0, [7, 8], [], [], false, 2⟩ ∧
    w.bindingOf ⟨0, 5, v, true, false, 0⟩ 2 = some ⟨0, 2, v, true, false, true, none, 0, [], [], [], false, 0⟩ ∧
    ((c.tag 0).bytes = View.size v ∧ (c.tag 1).bytes ≠ View.size v ∧ (c.s 1).toNat + c.reals ≤ View.count v ∧ c.vstart ≤ c.reals) ∧
    (∀ j < 16, r.streamLoc ⟨0, 2, v, false, false, true, none, 0, [7, 8], [], [], false, 2⟩ j = .ok (.dev (0x200000 + 4 * j) false)) ∧
    (∀ j < 16, (pinned w).streamLoc ⟨0, 2, v, true, false, true, none, 0, [], [], [], false, 0⟩ j = .ok (.dev (0x200000 + 4 * j) false) ∧
      ((pinned w).pinAt (.stream 0 2) (View.addr v j).toNat).isSome = true) ∧
    (0 < Binding.room ⟨0, 2, v, false, false, true, none, 0, [7, 8], [], [], false, 2⟩ ∧ c.vstart ≤ 0 ∧ 0 < c.reals) ∧
    (∀ j < 16, r.elementBusy ⟨0, 2, v, false, false, true, none, 0, [7, 8], [], [], false, 2⟩ j = false) ∧
    (∀ i ∈ performed c 0,
      let u := ((performed c 0).filter (· < i)).foldl (fun u k => u.store (.dev (0x200000 + 4 * (11 + k)) false) 4 (c.elem 0 4 k)) (pinned w)
      u.streamLoc ⟨0, 2, v, true, false, true, none, 0, [], [], [], false, 0⟩ (11 + i) = .ok (.dev (0x200000 + 4 * (11 + i)) false) ∧
        u.locBusy (.dev (0x200000 + 4 * (11 + i)) false) = false) ∧
    ∀ i ∈ performed c 0, (pinned n).streamLoc ⟨0, 2, v, true, false, false, none, 0, [], [], [], false, 0⟩ (11 + i) =
      .ok (.dev (0x200000 + 4 * (11 + i)) false) := by
  and_intros <;> decide +kernel

theorem witness_StreamTransfersConsumeIndices_groups :
    GroupsOk (strip 5 [(0, .i32), (1, .i8)] (running [])) [0] ∧ GroupsOk (strip 5 [(0, .i32), (1, .i8)] (running [])) [1] := by
  unfold GroupsOk
  decide +kernel

/-- The element threads 0 and 1 of a `vfetch` at offset 4, or at the last word but one of a block, or thread 1 alone with a link to read. -/
theorem witness_ElementBlocksRunTheirThreads :
    let s := vec []
    let c := strip 2 [(0, .i32), (1, .f32)] (running [])
    let blocks (ts : List EThread) : Blocks := ⟨0, .replicate 32 0, .replicate 16 none, (0, 0), ts⟩
    let st (ts : List EThread) : State := { State.reset.setCtx 0 { c with blocks := some (blocks ts) } with cur := .group 0 }
    let both : List EThread := [⟨0, 4, true, none⟩, ⟨1, 4, true, none⟩]
    let first : List EThread := [⟨0, 4, true, none⟩, ⟨1, 8, true, none⟩]
    let last : List EThread := [⟨0, 8, true, some 7⟩, ⟨1, 120, true, none⟩]
    VectorReady s 0 [] ∧ Settled s 0 ∧ ((s.ctx 0).code.nblk ≤ 3 ∧ 2 < (s.ctx 0).code.nblk ∧ HasStrip (s.ctx 0)) ∧
    (performed (s.ctx 0) 0 ≠ [] ∧ performed (s.ctx 0) 2 = []) ∧
    ((st both).cur = .group 0 ∧ ((st both).ctx 0).blocks = some (blocks both) ∧ (st both).issueGroup 0 (blocks both) = (4, both)) ∧
    ((both.map (·.elem)).Pairwise (· < ·) ∧ c.groupOk 0 = true ∧ (c.tag 0).isNum = true ∧ c.tag 0 ≠ .d8b ∧ (c.tag 0).bytes ≤ 4) ∧
    ((0 : Int) ≤ (4 : Int) + (-1 : BitVec 6).toInt * 4 ∧ ((4 : Int) + (-1 : BitVec 6).toInt * 4) / 128 = 4 / 128 ∧ 4 % 128 ≠ 124) ∧
    ((st first).issueGroup 0 (blocks first) = (4, [⟨0, 4, true, none⟩])) ∧
    ((st (first.map fun t => { t with live := t.elem = 1 })).issueGroup 0 (blocks (first.map fun t => { t with live := t.elem = 1 })) =
      (8, [⟨1, 8, true, none⟩])) ∧
    (((last.filter fun x => decide (x.elem < 1)).getLast?).bind (·.link) = some 7) ∧
    (performed (s.ctx 0) 2 = [] ∧ (s.ctx 0).reverted = false) ∧ (∀ t ∈ both, t.link = none) ∧ c.tagOf (1 : BitVec 6) ≠ .none ∧
    (let chain : List EThread := [⟨0, 4, true, some 7⟩, ⟨1, 4, true, none⟩]
     (st chain).issueGroup 0 (blocks chain) = (4, chain) ∧
       ∀ t ∈ chain, ((chain.filter fun x => decide (x.elem < t.elem)).getLast?).all (fun y => y.link.isSome) = true) ∧
    ((s.cur = .agent 0 ∧ (s.ctx 0).late = none)) ∧ ({ c with xqin := BitVec.ofNat 33 (2 ^ 32 + 5) }.xqin.getLsbD 32 = true) := by
  and_intros <;> decide +kernel

/-- Core 2,304 with tiles 0 to 2 enabled in modes 0, 1 and 2, array 1 with an active f64 plane, and offsets at the ends of their ranges. -/
theorem witness_MatrixInstructionsCheckAndQueue :
    let l := [(1, 0x3F8000), (2, 0x3F8001), (3, 0x400000), (4, 128 + 256 * 65536), (5, 129), (6, 319), (7, 0), (8, 320), (9, 0x3000408)]
    let c := { running l with mcfg := 8 + 2 ^ 10 + 2 ^ 13 + 7 * 2 ^ 16, issue := (Vector.replicate 4 Issue.reset).set 1 ⟨128, 0, 128, 4, 0⟩ }
    let s := on 2304 c
    let full := s.setMill 1 { Mill.reset with queue := List.replicate 16 ⟨.swap, .nearestEven, 8⟩ }
    let tmode (n : Nat) : Nat := bitsAt (s.ctx 2304).mcfg (8 + 2 * n) 2
    (∀ o ∈ List.range 10, Ready s 2304 [o]) ∧ (2304 ≤ 2304 ∧ 2304 < 2340 ∧ Settled s 2304) ∧ (tmode 0 = 0 ∧ tmode 1 = 1 ∧ tmode 2 = 2) ∧
    ((List.range 4).map fun t => (s.ctx 2304).mcfg.getLsbD (16 + t)) = [true, true, true, false] ∧
    ((c.issueOf 0).active ≠ 4 ∧ (c.issueOf 1).active = 4) ∧
    ((c.s 1).toNat % 64 = 0 ∧ (c.s 1).toNat + 32768 ≤ 0x400000 ∧ (c.s 2).toNat % 64 ≠ 0 ∧ 0x400000 < (c.s 3).toNat + 32768) ∧
    (bitsAt (c.s 4) 0 9 = 128 ∧ bitsAt (c.s 4) 16 9 = 256 ∧ 128 < bitsAt (c.s 5) 0 9) ∧ ((c.s 6).toNat < 320 ∧ 320 ≤ (c.s 8).toNat) ∧
    (Ready full 2304 [1] ∧ 16 ≤ (full.mill 1).queue.length ∧ (s.mill 1).queue.length < 16 ∧ full.matIdle 2304 = false ∧ s.matIdle 2304 = true) ∧
    (Ready s 2304 [6, 7] ∧ 6 % 2 = 0 ∧ (c.s 7) ≤ s.counter (bayOf 2304) (s.partOf 2304) 319 ∧ c.matErr = none) ∧
    (let m := on 2304 { c with matErr := some 64, sregs := regs [(6, 5), (7, 1)] }
     Ready m 2304 [6] ∧ Settled m 2304 ∧ (m.ctx 2304).matErr = some 64 ∧ ((m.ctx 2304).s 6).toNat < 320) ∧
    (let m := on 2304 { c with sregs := regs [(6, 5), (7, 1)] }
     Ready m 2304 [6, 7] ∧ m.counter (bayOf 2304) (m.partOf 2304) 5 < (m.ctx 2304).s 7) ∧
    ((plain []).cur = .agent 0 ∧ ((plain []).ctx 0).late = none ∧ Settled (plain []) 0) := by
  and_intros <;> decide +kernel

/-- An array with an operation queued, and the turn of an element that it has or has not updated, and a raise of core 2,304 that is and is not due. -/
theorem witness_ArraysCarryOutTheirOperations :
    let op : MatOp := ⟨.tileIn 3 0, .nearestEven, 8⟩
    let m := { Mill.reset with queue := [op, ⟨.swap, .nearestEven, 8⟩] }
    let s := State.reset.setMill 143 m
    let raised (n : Nat) : State := on 2304 { Ctx.reset with raises := [⟨[n, 0, 0, 0], 0, 319, 63⟩] }
    ((0 < (s.mill 143).rowsM ∧ 0 < 512 / s.tileBytes 143 3 ∧ (0, 0) ∉ (s.mill 143).drawn ∧ 143 < 144 ∧
      { s with agenda := [.element 143 0 0] }.agenda = Turn.element 143 0 0 :: []) ∧
     (0, 0) ∈ ({ m with drawn := [(0, 0)] } : Mill).drawn) ∧
    (s.mill 143).queue = op :: [⟨.swap, .nearestEven, 8⟩] ∧ (s.mill 143).rowsM ≤ 128 ∧ (s.mill 143).nc ≤ 128 ∧ op.kind = .tileIn 3 0 ∧
    bitsAt m.planes 0 3 < 4 ∧ bitsAt ({ m with planes := 4 } : Mill).planes 0 3 = 4 ∧
    (let k := s.modCtx 2339 fun c => { c with xq := [⟨.load, ⟨0, View.bay0, none⟩, 0, .scr 0, none, 4, 9, []⟩] }
     op.kind.memory = true ∧ s.xqMeets 2339 View.bay0 = false ∧ k.xqMeets 2339 View.bay0 = true ∧ s.struckRow 143 op = none ∧
       { s with errors := [(0, 143 / 4 * 0x1000000 + 143 % 4 * 0x400000)] }.struckRow 143 op = some 0) ∧
    (((raised 0).ctx 2304).raises ≠ [] ∧ ((raised 0).ctx 2304).xq = [] ∧ ¬ (1 ≤ ((raised 1).mill 0).completed)) := by
  and_intros <;> decide +kernel

/-- Queue slot 0 of die 0 of partition 1 has the turn; its segment is at 0x200000, and its control block at 0x210000. -/
def queue0 : Queue := { Queue.reset with live := true, running := true, part := 1, segment := some 0x200000, lo := 0x200000, hi := 0x210000 }
def atQueue (q : Queue) : State :=
  ({ mapped State.reset with cur := .queue 0 0 }.setQueue 0 0 q).setReg (.queue 0 0) 0x08 0x210000
/-- A command register. -/
def cr (l : List (Nat × Dword)) (q : Queue) : Queue := { q with cregs := l.foldl (fun v p => v.setIfInBounds p.1 p.2) q.cregs }

/-- A launch that runs code of pages 0x22 and 0x23. -/
def kernel0 (d : Line) (st : LaunchState) : Launch :=
  ⟨5, 1, 0, 0, 0x210000, 0, d, 0x200000, none, none, 0, 0, false, 0, [], st, 0, 0, [], [], [], (0, 0), [], ⟨0x220000, 0x20000, 0, 0, 0⟩⟩

/-- In ring mode, in call mode of one level and of four, and at the link; a counter of 1 and of 2; a word address, and one of a code page. -/
theorem witness_QueueCommandsComputeAndBranch :
    let q := cr [(1, 1), (2, 2), (3, 0x200008), (4, 0x200004), (5, 0x220000), (6, 0x40000000)] queue0
    let s := atQueue q
    let coded := { s with launches := [(6, kernel0 0 .placed)] }
    let t (n : Nat) : Int := (q.pos % 65520 : Nat) + (BitVec.ofNat 16 n).toInt * 4
    s.cur = .queue 0 0 ∧ ((s.queue 0 0).stack = [] ∧ (s.queue 0 0).atLink = false) ∧ ({ q with stack := [4] }.stack ≠ []) ∧
    (0 ≤ t 0 ∧ t 16379 < 65520 ∧ 65520 ≤ t 16380 ∧ t 0xFFFF < 0) ∧ ((creg q 3).toNat % 8 = 0 ∧ (creg q 4).toNat % 8 ≠ 0) ∧
    ((s.translate 1 0x200008 .read).toOption.map (·.phys) = some 0x200008 ∧ (s.translate 1 0x200008 .write).toOption.map (·.phys) = some 0x200008) ∧
    ((s.translate 1 0x40000000 .read).toOption = none ∧ (s.translate 1 0x40000000 .write).toOption = none) ∧
    (coded.codePage 1 0x220000 = true ∧ s.codePage 1 0x200008 = false ∧ (coded.translate 1 0x220000 .write).toOption.isSome = true) ∧
    (creg q 1 - 1 = 0 ∧ creg q 2 - 1 ≠ 0) ∧ (4 ≤ [0, 4, 8, 12].length ∧ [0, 4, 8].length < 4) ∧
    ((0xFFFFFFFFFFFFFFFC : BitVec 64).toNat % 4 = 0 ∧ (2 : BitVec 64).toNat % 4 ≠ 0) ∧
    (let u := s.setQueue 0 0 { q with issued := 3, done := 0, openCmds := [2] }
     let z := u.queue 0 0
     z.live = true ∧ z.done < z.openCmds.foldl min z.issued ∧
       (u.translate z.part ((u.reg (.queue 0 0) 0x08).toNat + 56) .write).toOption.map (·.phys) = some 0x210038 ∧
       u.codePage z.part 0x210038 = false ∧ u.struck (.dev 0x210038 false) 8 = false) ∧
    (q.hold = false ∧ q.toStop = false ∧ { q with running := false }.running = false) := by
  and_intros <;> decide +kernel

/-- An address whose stack is ready, and one whose stack is not. -/
theorem witness_QueueCommandsComputeAndBranch_stacks :
    let s := atQueue (cr [(3, 0x200008)] queue0)
    let l := locOf 0x200008 false
    l = .dev 0x200008 false ∧ s.locBusy l = false ∧ (untrained s).locBusy l = true ∧ (untrained s).cur = .queue 0 0 ∧
    (untrained s).codePage 1 0x200008 = false ∧
    ((untrained s).translate 1 0x200008 .read).toOption.map (·.phys) = some 0x200008 ∧
    ((untrained s).translate 1 0x200008 .write).toOption.map (·.phys) = some 0x200008 := by
  and_intros <;> decide +kernel

/-- A `splice` before two launches, before two `nop`, before nothing published, where the ring is not mapped, and at a segment's end whose
link leads outside the ring; chain 63 enabled or not; a card at a line's address or not, and in a code page. -/
theorem witness_CommandsSynchroniseAndAppendCards :
    let q := cr [(3, 0x200040), (4, 0x200004), (5, 0x220000), (6, 0x40000000)] queue0
    let s := (atQueue q).setReg (.chain 1 0 63) 0x00 (2 ^ 63)
    let coded := { s with launches := [(6, kernel0 0 .placed)] }
    let ring (w u prod : Nat) : State :=
      { atQueue q with dev := ((atQueue q).dev.write 0x200000 12 (0x28000000 + w * 2 ^ 32 + u * 2 ^ 64)).write 0x210020 8 prod }
    let word (w u n : Nat) : Option Word := match peekCommand (ring w u 12) 0 0 q n with | .word x => some x | _ => none
    let late (w prod n : Nat) : Bool := match peekCommand (ring w 0 prod) 0 0 q n with | .unpublished => true | _ => false
    let far := { q with pos := 65516 }
    let left : Bool := match peekCommand (ring 0 0 131072) 0 0 far 1 with | .outside => true | _ => false
    let lost : Bool := match peekCommand (s.setReg (.queue 0 0) 0x08 0x40000000) 0 0 q 1 with | .fault _ => true | _ => false
    (s.cur = .queue 0 0 ∧ 320 ≤ (320 : BitVec 9).toNat ∧ (319 : BitVec 9).toNat < 320 ∧ (64 : BitVec 9).toNat ≥ 64 ∧ (63 : BitVec 9).toNat < 64) ∧
    (8 < (9 : BitVec 4).toNat ∧ s.ownerOf (9 * 0 + 8) ≠ q.part ∧ s.ownerOf (9 * 0 + 0) = q.part) ∧
    (word 0x20000000 0x20000000 1 = some 0x20000000 ∧ word 0x20000000 0x20000000 2 = some 0x20000000 ∧ isLaunch 0x20000000 = true ∧
      word 0 0 1 = some 0 ∧ isLaunch 0 = false ∧ late 0x20000000 8 2 = true ∧ left = true ∧ lost = true) ∧
    (bitAt (s.reg (.chain q.part 0 63) 0x00) 63 = true ∧ bitAt (s.reg (.chain q.part 0 62) 0x00) 63 = false) ∧
    ((creg q 3).toNat % 64 = 0 ∧ (creg q 4).toNat % 64 ≠ 0 ∧ (s.translate 1 0x200040 .write).toOption.isSome = true ∧
      (s.translate 1 0x40000000 .write).toOption = none ∧ coded.codePage 1 0x220000 = true ∧ s.codePage 1 0x200040 = false) ∧
    (locOf 0x200040 false = .dev 0x200040 false ∧ (s.reg (.chain 1 0 63) 0x18).toNat = 0 ∧
      (let t := s.setReg (.chain 1 0 63) 0x18 0x200080
       (t.reg (.chain 1 0 63) 0x18).toNat ≠ 0 ∧ (t.translate 1 0x200080 .write).toOption.isSome = true)) := by
  and_intros <;> decide +kernel

/-- A card whose stack is ready, and one whose stack is not; a thread whose card's page has come to hold code when it appends, and one whose has not. -/
theorem witness_CommandsSynchroniseAndAppendCards_pages :
    let s := atQueue (cr [(3, 0x200040)] queue0)
    let th := (withViews [(1, 63), (2, 0x200040)]).setReg (.chain 1 0 63) 0x00 (2 ^ 63)
    let held := { th with pins := [⟨.append 0, 1, 0, 0, 2 ^ 30, 0, 0, false, [], false⟩] }
    let coded := { held with launches := [(6, { kernel0 0 .placed with code := ⟨0x200000, 0x20000, 0, 0, 0⟩ })] }
    (s.stackBusy 0x200040 = false ∧ (untrained s).stackBusy 0x200040 = true ∧ (untrained s).codePage 1 0x200040 = false ∧
      ((untrained s).translate 1 0x200040 .write).toOption.isSome = true) ∧
    (locOf 0x200040 false = .dev 0x200040 false ∧ held.codePage 1 0x200040 = false ∧ coded.codePage 1 0x200040 = true ∧
      ThreadReady coded 0 [31, 1, 2] ∧ (coded.pinAt (.append 0) 0x200040).isSome = true ∧ coded.released 0 = true ∧ (coded.ctx 0).quiet = true) := by
  and_intros <;> decide +kernel

/-- A thread that appends: at its first turn, with and without room for the pin, and with the pin it holds; before and after its release. -/
theorem witness_CommandsSynchroniseAndAppendCards_threads :
    let on' (s : State) : State := s.setReg (.chain 1 0 63) 0x00 (2 ^ 63)
    let th := on' (withViews [(1, 63), (2, 0x200040), (3, 64), (4, 0x200004), (5, 0x220000), (6, 0x40000000)])
    let wait (s : State) : State := s.modCtx 0 fun c => { c with xq := [entry] }
    let held (s : State) : State := { s with pins := [⟨.append 0, 1, 0, 0, 2 ^ 30, 0, 0, false, [], false⟩] }
    (ThreadReady th 0 [31, 1, 2] ∧ 64 ≤ ((th.ctx 0).s 3).toNat ∧ ((th.ctx 0).s 1).toNat < 64 ∧ ((th.ctx 0).s 4).toNat % 64 ≠ 0 ∧
      ((th.ctx 0).s 2).toNat % 64 = 0) ∧
    (th.released 0 = true ∧ th.pinAt (.append 0) 0x200040 = none ∧ th.codePage 1 0x200040 = false ∧
      (th.translate (th.partOf 0) 0x200040 .write).toOption.isSome = true ∧ (th.translate (th.partOf 0) 0x40000000 .write).toOption = none ∧
      { th with launches := [(6, kernel0 0 .placed)] }.codePage 1 0x220000 = true) ∧
    (th.pinRoom 1 0 [(0, 2 ^ 30)] = true ∧ (th.setReg (.part 1) 0x18 0).pinRoom 1 0 [(0, 2 ^ 30)] = false) ∧
    (bitAt (th.reg (.chain 1 0 63) 0x00) 63 = true ∧ bitAt (th.reg (.chain 1 0 62) 0x00) 63 = false) ∧
    (ThreadReady (wait th) 0 [31, 1, 2] ∧ (wait th).released 0 = false ∧ (wait th).pinAt (.append 0) 0x200040 = none) ∧
    (ThreadReady (held th) 0 [31, 1, 2] ∧ ((held th).pinAt (.append 0) 0x200040).isSome = true ∧ (held th).released 0 = true ∧
      (wait (held th)).released 0 = false ∧ ((wait (held th)).pinAt (.append 0) 0x200040).isSome = true) := by
  and_intros <;> decide +kernel

/-- A descriptor for mill 0 of bay 0: code of 128 bytes at 0x220000, N 20, weight 1; the same for its matrix control core. -/
def desc0 : Line := BitVec.ofNat 512 (0x220000 + 0x230000 * 2 ^ 64 + 128 * 2 ^ 256 + 128 * 2 ^ 288 + 20 * 2 ^ 384 + 2 ^ 416 + 2 ^ 452 + 2 ^ 478)
/-- The package runs: a lease is held, and bay 0 is ready. -/
def started (s : State) : State := ((s.setReg (.lease 0) 0x00 1).setReg (.lease 0) 0x08 0x7FFFFFFFFFFFFFFF).setReg .ready 0x00 1
def withDesc : State :=
  let s := started (atQueue (cr [(3, 0x200040), (4, 0x200004), (5, 0x200080)] queue0))
  { s with dev := s.dev.write 0x200040 64 desc0.toNat }

theorem witness_LaunchesAreRegisteredPlacedAndCompleted_commands :
    let s := withDesc
    let q := s.queue 0 0
    let lined (m : Bool) : Option (Line × List Byte) := (readDescriptor s q m 0x200040).toOption
    s.cur = .queue 0 0 ∧ (q.launching = none ∧ q.splicing = .none) ∧ ((creg q 3).toNat % 64 = 0 ∧ (creg q 4).toNat % 64 ≠ 0) ∧
    ((s.readVirtual q.part 2 0x200080 64).toOption.isSome = true ∧ bitsAt (0 : Line) 478 4 = 0) ∧
    (lined false = some (desc0, []) ∧ lined true = some (desc0, [])) ∧ (q.openCmds = [] ∧ { q with openCmds := [1] }.openCmds ≠ []) ∧
    ((List.range 36).filter (fun x => bitAt desc0 (416 + x)) = [0] ∧ s.holdState = 0 ∧ (s.ctx 2304).life = .free ∧ bitAt (s.reg .ready 0x00) 0 = true) ∧
    (let w := (s.setQueue 0 0 { q with launching := some 6 }).setLaunch 6 (kernel0 desc0 .waiting)
     let p := (s.setQueue 0 0 { q with launching := some 6 }).setLaunch 6 (kernel0 desc0 .placed)
     (w.queue 0 0).launching = some 6 ∧ w.launchOf 6 = some (kernel0 desc0 .waiting) ∧ (p.queue 0 0).launching = some 6 ∧
       p.launchOf 6 = some (kernel0 desc0 .placed)) := by
  and_intros <;> decide +kernel

/-- A descriptor whose stack is ready and one whose is not, and a launch that has ended, of a command alone and of a pair's producer. -/
theorem witness_LaunchesAreRegisteredPlacedAndCompleted_ended :
    let s := withDesc
    let q := s.queue 0 0
    let e := s.setQueue 0 0 { q with launching := some 6 }
    let j := s.setQueue 0 0 { q with launching := some 6, splicing := .joined }
    (descriptorBusy s q 0x200040 = false ∧ descriptorBusy (untrained s) ((untrained s).queue 0 0) 0x200040 = true ∧
      ((untrained s).queue 0 0).launching = none ∧ ((untrained s).queue 0 0).splicing = .none) ∧
    ((e.queue 0 0).launching = some 6 ∧ e.launchOf 6 = none ∧ (e.queue 0 0).splicing ≠ .joined ∧ e.cur = .queue 0 0) ∧
    ((j.queue 0 0).launching = some 6 ∧ j.launchOf 6 = none ∧ (j.queue 0 0).splicing = .joined ∧ j.cur = .queue 0 0) := by
  and_intros <;> decide +kernel

/-- A launch that completes while its queue stands in a slot, and while its book is kept. -/
theorem witness_LaunchesAreRegisteredPlacedAndCompleted_books :
    let done := { kernel0 desc0 .waiting with state := .placed, next := 20, mills := [0], status := none }
    let s := { withDesc with launches := [] }.setLaunch 6 done |>.setQueue 0 0 { queue0 with block := 0x210000, openCmds := [0] }
    let b := { (s.setQueue 0 0 { queue0 with live := false }) with books := [⟨1, 0x210000, 1, [0], .none, none⟩] }
    (s.launchOf 6 = some done ∧ s.slotOf done.part done.block = some (0, 0) ∧ s.away = [] ∧ done.second = none) ∧
    (b.launchOf 6 = some done ∧ b.slotOf done.part done.block = none ∧ b.book done.part done.block = some ⟨1, 0x210000, 1, [0], .none, none⟩) := by
  and_intros <;> decide +kernel

theorem witness_LaunchesAreRegisteredPlacedAndCompleted_events :
    let l := kernel0 desc0 .waiting
    let s := withDesc.setLaunch 6 l
    let done := { l with state := .placed, next := 20, mills := [0], status := some 0x200008 }
    let d := { withDesc with launches := [] }.setLaunch 6 done |>.setQueue 0 0 { queue0 with live := false }
    (s.launchOf 6 = some l ∧ l.state = .waiting ∧ s.canPlace 6 l = true ∧ l.redo = [] ∧ l.next = 0 ∧ Desc.mills l.desc = [0] ∧
      0 < min ((millContexts 0).filter fun f => (s.ctx f).life = .free).length (bitsAt l.desc 384 32) ∧ s.asleep = false ∧
      s.scr.wf = true ∧ l.params = []) ∧
    (d.launchOf 6 = some done ∧ done.state = .placed ∧ d.away = [] ∧ (∀ e ∈ d.agents, e.2.launch = 6 → e.2.life = .free) ∧
      bitsAt done.desc 384 32 ≤ done.next ∧ done.redo = [] ∧ done.second = none ∧ 0x200008 % 8 = 0 ∧
      (d.translate 1 0x200008 .write).toOption.isSome = true ∧ { d with launches := d.launches.erase 6 }.codePage 1 0x200008 = false ∧
      d.slotOf done.part done.block = none ∧ d.book done.part done.block = none) := by
  and_intros <;> decide +kernel

/-- A shadow control block of partition 1 at 0x240000, and the control block at 0x210000. -/
theorem witness_QueuesStopBindAndRecycle :
    let s := atQueue queue0
    let shadow (part : Nat) : State :=
      let t := (mapped State.reset).setReg (.queue 3 63) 0x00 (setBits 0 5 47 (0x240000 / 32))
      { t.setReg (.queue 3 63) 0x08 0x210000 with dev := t.dev.write 0x240000 32 (part * 256) }
    let bad (t : State) : Prop :=
      let w := t.dev.read (bitsAt (t.reg (.queue 3 63) 0x00) 5 47 * 32) 32
      w / 2 ^ 16 % 2 ^ 112 ≠ 0 ∨ w / 8 % 32 ≠ 0 ∨ w / 2 ^ 8 % 256 = 0 ∨ 36 < w / 2 ^ 8 % 256 ∨
        bitsAt (t.reg (.part (w / 2 ^ 8 % 256)) 0x00) 0 2 ≠ 2
    (s.cur = .queue 0 0 ∧ (s.queue 0 0).launching = none) ∧ (3 < 4 ∧ 63 < 64) ∧
    ((shadow 1).asleep = false ∧ 3 ∉ (shadow 1).fenced ∧ ¬ bad (shadow 1) ∧ bad (shadow 37) ∧ bad (shadow 0)) ∧
    (((shadow 1).queue 3 63).live = false ∧ ((shadow 37).queue 3 63).running = false) ∧
    ((shadow 1).readVirtual 1 3 ((shadow 1).reg (.queue 3 63) 0x08).toNat 256).toOption.isSome = true ∧
    ((shadow 1).movedQueue 3 63 1 = false ∧
      (let m := ((shadow 1).setReg (.queue 0 0) 0x08 0x210000).setQueue 0 0 queue0
       m.movedQueue 3 63 1 = true ∧ (m.queue 3 63).live = false ∧ (m.readVirtual 1 2 0x210000 32).toOption.map (·.length) = some 32 ∧
         m.dev.read 0x210000 32 ≠ m.dev.read 0x240000 32)) ∧
    ((s.queue 0 0).hold = false ∧ (s.queue 0 0).issued = 0 ∧ (s.queue 0 0).segment ≠ none ∧
      (let h := { queue0 with hold := true, running := false, segment := none }
       h.hold = true ∧ h.live = true ∧ h.segment = none ∧ h.issued = 0 ∧ h.running = false)) ∧
    ((s.queue 0 0).free = [] ∧ { queue0 with free := [65536] }.free = 65536 :: []) := by
  and_intros <;> decide +kernel

/-- A slot that no queue of the block stands in, one whose queue leaves it, and one that takes up a book. -/
theorem witness_QueuesStopBindAndRecycle_books :
    let shadow := (mapped State.reset).setReg (.queue 3 63) 0x00 (setBits 0 5 47 (0x240000 / 32))
    let s := { shadow.setReg (.queue 3 63) 0x08 0x210000 with dev := shadow.dev.write 0x240000 32 256 }
    let l := (atQueue { queue0 with running := false, block := 0x210000, issued := 3, openCmds := [2] })
    let b : Book := ⟨1, 0x210000, 3, [2], .none, none⟩
    let t := { l with books := [b] }
    (s.slotOf 1 0x210000 = none ∧ s.movedQueue 3 63 1 = false ∧ s.asleep = false ∧ 3 ∉ s.fenced) ∧
    ((l.queue 0 0).live = true ∧ (l.queue 0 0).launching = none ∧ (l.queue 0 0).running = false) ∧
    ((t.queue 0 0).live = true ∧ t.book 1 0x210000 = some b ∧ (t.readVirtual 1 3 0x210000 256).toOption.isSome = true ∧
      (t.reg (.queue 0 0) 0x08).toNat = 0x210000) := by
  and_intros <;> decide +kernel

/-- A ring of partition 1 at 0x210000, none mapped, one in a code page, and one that an error has struck. -/
theorem witness_TrapsStopTheContextAndWriteARecord :
    let s := (withViews []).setReg (.cx 1) 0x30 0x210000
    let m := (withViews []).setReg (.cx 1) 0x30 0x40000000
    let h := { (withViews []) with errors := [(2, 0)] }
    let c := s.ctx 0
    (0 < 2340 ∧ 2339 < 2340) ∧ (c.vq = [] ∧ c.latch = none ∧ c.splice = [] ∧ c.xq = [] ∧ c.raises = [] ∧ s.streamWritesPending 0 = false) ∧
    (Trap.operand.cause < 256 ∧ c.pc < 2 ^ 32) ∧
    (Trap.operand.stage2 = false ∧ ({ cause := 5, stage2 := true } : Trap).stage2 = true) ∧ s.partOf 0 = 1 ∧
    ((s.translate 1 0x210000 .write).toOption.map (·.phys) = some 0x210000 ∧ s.codePage 1 0x210000 = false ∧
      { s with launches := [(6, kernel0 0 .placed)] }.codePage 1 0x220000 = true ∧ s.struck (.dev 0x210000 false) 64 = false ∧
      h.struck (.dev 0 false) 64 = true ∧ (m.translate 1 0x40000000 .write).toOption = none) ∧
    (s.cur = .agent 0 ∧ c.late = none ∧ Settled s 0) ∧ decodeThread 0x77000001 = .error .gangWrite ∧ decodeThread 0 = .error .neverAssigned ∧
    (let k := on 2304 (running [])
     k.cur = .agent 2304 ∧ (k.ctx 2304).late = none ∧ Settled k 2304) ∧ c.pc ≠ 0xFFFFFFFFFFFFFFF0 ∧
    { c with pc := 0xFFFFFFFFFFFFFFF0 }.pc = 0xFFFFFFFFFFFFFFF0 := by
  and_intros <;> decide +kernel

/-- A `vadd` entry at the head of the queue, and a `setvl`. -/
def vqEntry (w : Word) : VqEntry :=
  ⟨w, 0, 0, 0, 0, 0, false, false, false, false, 0, (0, 0), Ctx.reset.vtype, (strip 5 [(0, .i32), (1, .i32)] (running [])).vtag, 0, 0, 0, none, none,
    none, 0, [], none⟩

theorem witness_WaitsPortsAndArbitersGoOn :
    let v := dev4 0x200000 16
    let st (c : Ctx) : State := mapped (State.reset.setCtx 0 c)
    let acts (s : State) (f : Nat) : Prop := (s.ctx f).life = .running ∧ s.asleep = false ∧ dieOf f ∉ s.fenced
    let w1 := st { running [] with wait := some (.counter 319 0) }
    let w2 := st { running [] with wait := some (.sleep 0) }
    let bl : Blocks := ⟨0, .replicate 32 0, .replicate 16 none, (0, 0), [⟨0, 4, false, none⟩]⟩
    let b := st { running [] with vq := [vqEntry 0x7C300000], blocks := some bl, convoyLeft := 1 }
    let g := st { running [] with vq := [vqEntry 0x78E60022] }
    let a := st { strip 5 [(0, .i32), (1, .i32)] (running []) with vq := [vqEntry 0x80004100] }
    let port (x : Binding) : State := (st (running [])).setPort 0 31 [x]
    let x0 : Binding := ⟨0, 2, v, false, false, false, none, 0, [], [], [], false, 0⟩
    (acts w1 0 ∧ (w1.ctx 0).wait = some (.counter 319 0) ∧ (0 : Dword) ≤ w1.counter (bayOf 0) (w1.partOf 0) 319) ∧
    (acts w2 0 ∧ (w2.ctx 0).wait = some (.sleep 0)) ∧
    (acts b 0 ∧ (b.ctx 0).late = none ∧ (b.ctx 0).debugReq = 0 ∧ (b.ctx 0).wait ≠ some .brk ∧ bitAt (b.reg (.cx (b.partOf 0)) 0x60) 63 = false ∧
      (b.ctx 0).vq = [vqEntry 0x7C300000] ∧ (b.ctx 0).blocks = some bl ∧ ∀ t ∈ bl.threads, t.live = false) ∧
    (acts g 0 ∧ (g.ctx 0).vq = vqEntry 0x78E60022 :: [] ∧ bitsAt (vqEntry 0x78E60022).word 26 6 = 0x1E ∧
      decodeVector (vqEntry 0x78E60022).word = .ok (.setvl 7 6 2)) ∧
    ((port x0).port 0 31 = x0 :: [] ∧ (port x0).asleep = false ∧ (port x0).streamLive x0 = true ∧ x0.started = false ∧ x0.after = []) ∧
    (let y := { x0 with started := true, write := true, pend := [(15, 7)] }
     let z := { y with desc := dev4 0x40000000 16 }
     (port y).port 0 31 = y :: [] ∧ y.pend = (15, 7) :: [] ∧ (port y).streamLive y = true ∧ ((port y).streamLoc y 15).toOption.isSome = true ∧
       (port z).streamLive z = true ∧ ((port z).streamLoc z 15).toOption = none) ∧
    (let y := { x0 with started := true }
     (port y).port 0 31 = y :: [] ∧ y.pend = [] ∧ y.device = false ∧ y.buf.length < Binding.room y ∧ (port y).streamLive y = true ∧
       y.base + y.buf.length < View.count y.desc ∧ 0 = millOf y.flat ∧ ((port y).streamLoc y 0).toOption.isSome = true) ∧
    (143 < 144 ∧ (a.mill 143).pointer < 16 ∧ ∀ f ∈ millContexts 143, a.hasWork f = false) ∧
    (({ Mill.reset with slots := some 1 }.slots = some 1) ∧ ((a.issueOne 0).toOption.map fun t => (t.ctx 0).vq) = some []) := by
  and_intros <;> decide +kernel

/-- A stream whose start an access of its context holds back, and one that nothing holds back; an element whose stack is ready, and one whose is not; and a
wait that is not that of `brk`. -/
theorem witness_WaitsPortsAndArbitersGoOn_held :
    let v := dev4 0x200000 16
    let st (x : Binding) (xq : List XqEntry) : State :=
      (mapped (State.reset.setCtx 0 { running [] with xq := xq })).setPort 0 31 [x]
    let x0 : Binding := ⟨0, 2, v, false, false, false, none, 0, [], [], [], false, 0⟩
    let y := { x0 with started := true, write := true, pend := [(15, 7)] }
    (State.streamHeld ((st x0 [{ entry with holds := [2] }]).ctx 0) 2 = true ∧ State.streamHeld ((st x0 [entry]).ctx 0) 2 = false) ∧
    ((st y []).streamLoc y 15 = .ok (.dev 0x20003C false) ∧ (st y []).locBusy (.dev 0x20003C false) = false ∧
      (untrained (st y [])).streamLoc y 15 = .ok (.dev 0x20003C false) ∧ (untrained (st y [])).locBusy (.dev 0x20003C false) = true ∧
      (untrained (st y [])).streamLive y = true) := by
  and_intros <;> decide +kernel

theorem witness_PowerEventsSetCapsTargetsAndSlots :
    let s := started State.reset
    s.asleep = false ∧ (2 ∉ s.failed ∧ 2 ∈ { s with failed := [2] }.failed) ∧ (let t := { s with targetTimes := [(3, 0)], gtime := 3000000, noTarget := [0, 1, 2] }
      t.targetTimes.find 3 = some 0 ∧ (0 : Dword).toNat + 3000000 ≤ t.gtime.toNat ∧ 3 ∉ t.noTarget) ∧
    (3 < 144 ∧ bitAt (s.reg .ready 0x00) (3 / 4) = true ∧ 3 / 4 ∉ s.mapped) ∧ (35 < 36) ∧
    ((s.mill 3).lastE = 0 ∧ ((millContexts 3).filter fun f => (s.ctx f).life = .running) = [] ∧
      (s.setMill 3 { s.mill 3 with lastE := 5 }).mill 3 = { Mill.reset with lastE := 5 } ∧ s.regulatorOf 0 < 4 ∧
      bitsAt (s.reg (.dtarget 0) 0x00) 0 22 = 0) ∧
    (let m := { s with capacityTier := true, installed := 0x40000, tiers := [(1, ⟨0, false, 0⟩)] }
     m.granules = 4 ∧ m.asleep = false ∧ (∀ k < m.granules, (m.granule k).frame ≠ 1) ∧ (∀ e ∈ m.tiers, e.2.frame ≠ 1) ∧
       (let fitted := (List.range 8).filter fun k => !bitAt (m.reg (.start 4) 0x00) k
        (m.granule 0).lpddr = decide (2 ^ 20 * fitted.length ≤ 1) ∧ ∀ k, fitted[1 / 2 ^ 20]? = some k → 48 + k ∉ m.mapped)) ∧
    (let m := { s with capacityTier := true }
     m.capacityTier = true ∧ m.asleep = false ∧ 0 < m.granules ∧ 1 < m.granules ∧ (0 : Nat) ≠ 1 ∧ (m.granule 0).owner = (m.granule 1).owner ∧
       (m.granule 0).lpddr = (m.granule 1).lpddr) ∧
    (let r := s.setReg .regmap 0x08 (setBits (s.reg .regmap 0x08) 6 2 0)
     r.regulatorOf 35 ≠ r.mapOf 35 ∧ (∀ e ∈ r.agents, bayOf e.1 = 35 → e.2.life ≠ .running) ∧
       (let q := r.setCtx 2339 (running [])
        q.regulatorOf 35 ≠ q.mapOf 35 ∧ 2339 < 2340 ∧ bayOf 2339 = 35 ∧ (q.ctx 2339).life = .running)) := by
  and_intros <;> decide +kernel

theorem witness_PartitionsAreCreatedDestroyedAndConfigured :
    let s := State.reset
    let w := s.setReg (.part 36) 0x08 (2 ^ 35)
    let taken := { w with owners := w.owners.put 35 1 }
    let live := (w.setReg (.part 36) 0x00 2)
    let state (t : State) : Nat := bitsAt (t.reg (.part 36) 0x00) 0 2
    let bays (t : State) : List Nat := (List.range 36).filter fun b => bitAt (t.reg (.part 36) 0x08) b
    let i : Inval := ⟨36, true, 0, 1, 0, 0⟩
    (1 ≤ 36 ∧ 36 ≤ 36) ∧ (state s = 0 ∧ bays s = []) ∧ (state taken = 0 ∧ ∃ b ∈ bays taken, taken.ownerOf b ≠ 0) ∧
    (state w = 0 ∧ bays w ≠ [] ∧ ∀ b ∈ bays w, w.ownerOf b = 0) ∧ (state live = 2 ∧ bays live ≠ []) ∧ ((1 : Nat) ≠ s.epoch) ∧
    (let q := { s with invals := List.replicate 8 i }
     8 ≤ (q.invals.filter fun i => i.part = 36 && i.stage2 = true).length ∧ (s.invals.filter fun i => i.part = 36 && i.stage2 = true).length < 8) ∧
    (let q := { s with invals := [i] }
     (q.invals.filter fun i => i.part = 36 && i.stage2 = true) = i :: [] ∧ q.blockers i = 0) ∧
    (let q := { s with invals := [i], pins := [⟨.job 1, 36, 0, 0, 65536, 0, 0, false, [], true⟩] }
     q.blockers i ≠ 0) ∧
    ((s.invalWaits.find? fun j => j.part = 36 && j.stage2 = true) = none ∧
      ({ s with invalWaits := [i] }.invalWaits.find? fun j => j.part = 36 && j.stage2 = true) = some i) ∧
    (8 % 8 = 0 ∧ 8 < s.installed ∧ s.struck (.dev 0 false) 32 = false ∧ { s with errors := [(2, 31)] }.struck (.dev 0 false) 32 = true) := by
  and_intros <;> decide +kernel

/-- Words that no walk has read, that one has, and that two have, with and without the one that the event names. -/
theorem witness_PartitionsAreCreatedDestroyedAndConfigured_walks :
    let read (s : State) : List Walked := s.walked.filter fun x => x.part = 36 && x.stage2 = true && x.word = 8
    let x : Walked := ⟨36, true, 8, 5, 1⟩
    let y : Walked := ⟨36, true, 8, 6, 1⟩
    let one := { State.reset with walked := [x] }
    let two := { State.reset with walked := [x, y] }
    (8 % 8 = 0 ∧ 8 < one.installed) ∧ read State.reset = [] ∧ (x ∈ read one ∧ (read one).head? = some x ∧ ∀ z ∈ read one, ¬ (z.page = 9 ∧ z.pages = 1)) ∧
    (y ∈ read two ∧ (y.page = 6 ∧ y.pages = 1)) := by decide +kernel

/-- Context 0 of partition 1 running, stopped and free, its image at 0x210000 or where nothing is mapped. -/
theorem witness_ContextCommandsStopSaveAndResume :
    let st (life : Life) : State := mapped (State.reset.setCtx 0 { running [] with life := life })
    let here (s : State) : Prop := bitsAt (s.reg (.cx 1) 0x00) 0 12 = 0 ∧ s.partOf 0 = 1
    let r := st .running
    let p := st .stopped
    let f := mapped State.reset
    let unbound (s : State) : Prop := ∀ q < 8, s.streamReg 0 q = none
    (1 ≤ 1 ∧ 36 ≤ 36 ∧ bitAt ((r.setReg (.cx 1) 0x10 (2 ^ 63)).reg (.cx 1) 0x10) 63 = true ∧ bitAt (r.reg (.cx 1) 0x10) 63 = false) ∧
    ¬ here (r.setReg (.cx 1) 0x00 2000) ∧
    (here r ∧ (r.ctx 0).life = .running ∧ (r.ctx 0).debugReq = 0 ∧ (r.ctx 0).late = none ∧ (r.ctx 0).passBreak = false) ∧
    (here p ∧ (p.ctx 0).life = .stopped ∧ 0 ∉ p.kills ∧ (p.saveAt 1 0 0x210000).isSome = true ∧ p.saveAt 1 0 0x40000000 = none ∧ unbound p) ∧
    (here f ∧ (f.ctx 0).life = .free ∧ (f.restoreAt 1 0 0x40000000).toOption = none) ∧
    ((p.ctx 0).debugReq = 0 ∧ 8 * 33 < (p.settleImage 0).imageSize 0 ∧ 8 * 78 < (p.settleImage 0).imageSize 0 ∧ (33 ≤ 63 ∧ 63 < 64)) ∧
    (let d := r.modCtx 0 fun c => { c with debugReq := 2 }
     here d ∧ (d.ctx 0).debugReq ≠ 0 ∧ (d.ctx 0).debugReq ≠ 4 ∧ (d.ctx 0).convoyLeft = 0 ∧ (d.ctx 0).blocks = none ∧ d.matIdle 0 = true) ∧
    (let k := r.setReg (.cx 1) 0x80 (2 ^ 63)
     here k ∧ (k.ctx 0).passBreak = false ∧ (k.breakAt 0).isSome = true ∧ (k.ctx 0).convoyLeft = 0 ∧ (k.ctx 0).blocks = none ∧
       k.matIdle 0 = true) ∧
    (let k := (r.setReg (.cx 1) 0x80 (2 ^ 63)).modCtx 0 fun c => { c with convoyLeft := 2 }
     here k ∧ (k.breakAt 0).isSome = true ∧ (k.ctx 0).convoyLeft ≠ 0) ∧
    ((r.ctx 0).life ≠ .free ∧ ∀ g ∈ millContexts (millOf 0), g ≠ 0 → (r.ctx g).life ≠ .free → (r.ctx g).parent ≠ 1) := by
  and_intros <;> decide +kernel

/-- A command that goes on: a stop behind a debug stop, a save that a kill holds back, and a resumption without room for a stream's pin; and
kills of context 0, of its jobs, and of it when free. -/
theorem witness_ContextCommandsStopSaveAndResume_later :
    let st (life : Life) (op : Nat) : State := (mapped (State.reset.setCtx 0 { running [] with life := life })).setReg (.cx 1) 0x08 op
    let hold (s : State) : State := { s.setField .hold 0x00 40 2 1 with kills := [1] }
    let pending (s : State) : Nat := bitsAt (s.reg (.cx 1) 0x08) 0 3
    let agent (s : State) : Nat := bitsAt (s.reg (.cx 1) 0x08) 3 12
    let p := st .stopped 2
    let full := (bound false false (dev4 0x200000 16) [] [] true (st .stopped 4)).setReg (.part 1) 0x18 0
    let killed := { st .stopped 0 with kills := [0] }
    let gone := { mapped State.reset with kills := [4096] }
    (pending (st .running 0) ∉ [1, 2, 4, 5] ∧ pending (st .running 1) = 1 ∧ agent (st .running 1) = 0) ∧
    (pending p = 2 ∧ (p.ctx 0).life = .stopped ∧ agent p ∉ p.kills ∧ p.holdState ≠ 1 ∧ p.saveAt 1 0 0x40000000 = none ∧
      (p.saveAt 1 0 0x210000).isSome = true) ∧
    ((hold p).holdState = 1 ∧ (hold p).kills ≠ [] ∧ 0 ∉ (hold p).kills) ∧
    ((∀ q < 8, p.streamReg 0 q = none) ∧ pending (st .stopped 4) = 4 ∧ pending (st .stopped 5) = 5) ∧
    ((full.ctx 0).life = .stopped ∧ (full.streamPins 0).toOption.map (fun ps =>
      full.pinRoom 1 (dieOf 0) ((ps.flatMap (·.2.2)).map fun p => (p.page, p.size))) = some false) ∧
    (killed.kills = [0] ∧ (∀ j ∈ killed.jobs, j.by' ≠ some 0) ∧ (∀ a ∈ killed.appended, a.by' ≠ some 0) ∧
      ∃ a ∈ { killed with appended := [⟨1, 0, 63, 0x200040, some 0, some 0, false, true⟩] }.appended, a.by' = some 0) ∧
    (gone.kills = [4096 + 0] ∧ (gone.ctx 0).life = .free ∧ (∀ a ∈ gone.appended, a.by' ≠ some 4096) ∧ ∀ j ∈ gone.jobs, j.by' ≠ some 4096) ∧
    p.kills = [] := by
  and_intros <;> decide +kernel

/-- Agents about to stop by themselves; a breakpoint's stop whose convoy has drained; and an image whose stack is not ready. -/
theorem witness_ContextCommandsStopSaveAndResume_stops :
    let st (c : Ctx) (op : Nat) : State := (mapped (State.reset.setCtx 0 c)).setReg (.cx 1) 0x08 op
    let stops (s : State) : Prop :=
      (s.ctx 0).life = .running ∧ ((s.ctx 0).debugReq ≠ 0 ∨ ((s.ctx 0).late ≠ none ∧ (s.ctx 0).wait = none))
    let d := st { running [] with debugReq := 2 } 1
    let l := st { running [] with late := some ⟨.stream, 0, 0, false⟩ } 1
    let p := (st { running [] with life := .stopped } 2).setReg (.cx 1) 0x18 0x210000
    (stops d ∧ stops l ∧ ¬ stops (st (running []) 1) ∧ ((st (running []) 1).ctx 0).late = none) ∧
    (bitsAt (d.reg (.cx 1) 0x08) 0 3 = 1 ∧ bitsAt (d.reg (.cx 1) 0x08) 3 12 = 0) ∧
    (let b := st { running [] with debugReq := 4, matched := 3 } 0
     (b.ctx 0).life = .running ∧ (b.ctx 0).late = none ∧ (b.ctx 0).debugReq = 4 ∧ (b.ctx 0).convoyLeft = 0 ∧ (b.ctx 0).blocks = none ∧
       b.matIdle 0 = true) ∧
    (p.rangeBusy 1 0x210000 (p.imageSize 0) = false ∧ (untrained p).rangeBusy 1 0x210000 ((untrained p).imageSize 0) = true ∧
      ((untrained p).ctx 0).life = .stopped ∧ (untrained p).kills = []) := by
  and_intros <;> decide +kernel

/-- An image that a restore accepts. -/
theorem witness_ContextCommandsStopSaveAndResume_image :
    ((mapped (State.reset.setCtx 0 { running [] with life := .stopped })).image 0 : Image).ok 0 false = true := by decide +kernel

/-- A copy of 16 words from 0x210000 to 0x220000 by engine 0, its card at 0x200040; the descriptors follow it. -/
def copyCard : Line := BitVec.ofNat 512 ((0x200100 + 1) * 2 ^ 128 + (0x200140 + 3) * 2 ^ 192)
def copyFoot : List (Nat × Line × Bool) := [(0, dev4 0x210000 16, false), (1, dev4 0x220000 16, true)]
def withCard (card : Line) : State :=
  let s := (mapped State.reset).setReg (.chain 1 0 63) 0x10 0x200040
  { s with dev := ((s.dev.write 0x200040 64 card.toNat).write 0x200100 64 (dev4 0x210000 16).toNat).write 0x200140 64 (dev4 0x220000 16).toNat }
/-- Job 7 of a card, with its footprints pinned. -/
def job7 (card : Line) (st : Option (Nat × Nat)) : Job := ⟨7, 1, 0, 63, 0, card, 0x200040, none, none, copyFoot, 0, st, false, false⟩
def withJob (j : Job) : State :=
  { mapped State.reset with jobs := [j], pins := [⟨.job 7, 1, 0, 0, 2 ^ 30, 0, 0, false, [], false⟩] }

theorem witness_EnginesStartRunAndCompleteJobs_start :
    let s := withCard copyCard
    let b := withCard (setBits copyCard 64 4 5)
    let w := Window.chain 1 0 63
    let bad (c : Line) : Bool := Card.fieldsBad c 0 false || Card.viewsBad c copyFoot s.pkg true
    let own (t : State) : Option Appended := t.appended.find? fun a => a.part = 1 && a.die = 0 && a.chain = 63 && a.addr = 0x200040
    let pages (t : State) (l : List (Nat × Line × Bool)) : Option (List Pin) := (t.jobPages 1 l).toOption
    let far : List (Nat × Line × Bool) := [(0, dev4 0x40000000 16, false)]
    let host : List (Nat × Line × Bool) := [(0, BitVec.ofNat 512 (3 * 2 ^ 64 + 2 * 2 ^ 73 + 2 ^ 128 + 2 ^ 256), false)]
    (∀ j ∈ s.jobs, Card.kind j.card = 4 → j.waiting = false) ∧
    ((s.reg w 0x10).toNat ≠ 0 ∧ bitAt (s.reg w 0x30) 0 = false ∧ (s.jobs.filter fun j => j.die = 0 && j.eng = 0).length < 4 ∧ 0 ∉ s.fenced ∧
      s.asleep = false ∧ bitsAt (s.reg (.part 1) 0x00) 0 2 = 2) ∧
    ((s.readWord 1 0x200040 64).toOption = some copyCard.toNat ∧ (s.readWord 1 0x40000000 64).toOption = none) ∧
    ((s.readFootprints 1 copyCard [0, 1, 2, 3]).toOption = some copyFoot ∧ Card.kind copyCard ≠ 4 ∧ bad copyCard = false ∧ own s = none) ∧
    (own { s with appended := [⟨1, 0, 63, 0x200040, none, none, false, true⟩] } = some ⟨1, 0, 63, 0x200040, none, none, false, true⟩) ∧
    ((b.readFootprints 1 (setBits copyCard 64 4 5) [0, 1, 2, 3]).toOption = some copyFoot ∧ bad (setBits copyCard 64 4 5) = true) ∧
    (pages s far = none ∧ (pages s copyFoot).map (·.length) = some 1) ∧
    ((s.setReg (.part 1) 0x18 0).pinLimit 1 0 = 0 ∧ s.pinLimit 1 0 = 455) ∧
    ((∀ x ∈ copyFoot, s.hostFootOk 1 x.2.1 = true) ∧ (∃ x ∈ host, s.hostFootOk 1 x.2.1 = false) ∧ (pages s host).map (·.length) = some 0) ∧
    (s.pinRoom 1 0 [(0, 2 ^ 30)] = true ∧
      { s.setReg (.part 1) 0x18 1 with pins := [⟨.job 1, 1, 0, 2 ^ 30, 2 ^ 30, 0, 0, false, [], false⟩] }.pinRoom 1 0 [(0, 2 ^ 30)] = false) := by
  and_intros <;> decide +kernel

/-- A copy in flight, one whose outcome is certain, and one that meets an error or a code page at its last element. -/
theorem witness_EnginesStartRunAndCompleteJobs_jobs :
    let j := job7 copyCard none
    let s := withJob j
    let e := { s with errors := [(2, 0x21003F)] }
    let c := { s with launches := [(6, kernel0 0 .placed)] }
    let run (s : State) (n : Nat) : Nat × Nat × Nat := let r := State.runElements j n 0 s; (r.2.1, r.2.2.1, r.2.2.2)
    (s.jobs = j :: [] ∧ j.parked = false ∧ s.asleep = false ∧ ∀ j ∈ s.jobs, Card.kind j.card = 4 → j.waiting = false) ∧
    ((∃ p ∈ s.pins, p.holder = .job 7) ∧ Card.kind copyCard ≠ 3 ∧ Card.kind copyCard ≠ 4 ∧ Card.kind copyCard = 0) ∧
    ((job7 copyCard (some (0, 0))).status = some (0, 0) ∧ j.status = none ∧ j.count = 16 ∧ j.off = 0) ∧
    (run s 16 = (16, 0, 0) ∧ run e 16 = (15, 7, 0) ∧ run c 16 = (0, 1, 6) ∧ run s 5 = (5, 0, 0)) ∧
    ((s.jobLoc j (dev4 0x210000 16) 15 false).toOption.isSome = true ∧ (s.jobLoc j (dev4 0x220000 16) 15 true).toOption.isSome = true) ∧
    (Card.ctr (setBits copyCard 80 9 319) < 320) := by
  and_intros <;> decide +kernel

/-- A send of rank 1: to the open slot of a receive of two, to one it does not match, to none, with 16 contributions held or fewer; to a
peer with no tag, with none reached, and with one reached; one whose source cannot be read. -/
theorem witness_EnginesStartRunAndCompleteJobs_sends :
    let tag : Nat := Tag.f32.code * 2 ^ 72
    let send (n : Nat) : Job := job7 (BitVec.ofNat 512 (3 * 2 ^ 64 + tag + n * 2 ^ 384)) none
    let j := send 1
    let r := { job7 (BitVec.ofNat 512 (4 * 2 ^ 64 + tag + 2 * 2 ^ 384)) none with id := 8 }
    let x : FoldSlot := ⟨8, 0, 0, 2, 0x220000, 1, 2, []⟩
    let t := { withJob j with jobs := [j, r], folds := [x] }
    let es := ((t.sendElems j).toOption).getD []
    let c : Contribution := ⟨Card.slot j.card, 2, 0x220000, 1, Card.rank j.card, Card.fold j.card, Card.fop j.card,
      bitsAt j.card 72 4, j.size, es, some 7⟩
    let off : FoldSlot := { x with n := 1 }
    let peer : Job := { j with foot := [(0, dev4 0x210000 16, false), (1, BitVec.ofNat 512 (4 * 2 ^ 64 + 2 * 2 ^ 73 + 16 * 2 ^ 128 + 2 ^ 256), true)] }
    let far : Job := { j with foot := [(0, BitVec.ofNat 512 (3 * 2 ^ 64 + 2 * 2 ^ 73 + 2 ^ 128 + 2 ^ 256), false), (1, dev4 0x220000 16, true)] }
    let tagged := t.setReg (.part 1) 0x28 7
    (t.jobs = j :: [r] ∧ (∀ x ∈ [r], x.id ≠ j.id) ∧ j.status = none ∧ Card.kind j.card = 3 ∧ (∃ p ∈ t.pins, p.holder = .job j.id) ∧
      j.waiting = false ∧ t.held = [] ∧ View.space (j.view 1) = 2 ∧ (View.addr (j.view 1) 0).toNat = 0x220000 ∧
      (t.sendElems j).toOption.isSome = true) ∧
    (t.slotFor c = some x ∧ t.slotMatches x c = true) ∧
    ({ t with folds := [off] }.slotFor c = some off ∧ { t with folds := [off] }.slotMatches off c = false) ∧
    ({ t with folds := [] }.slotFor c = none ∧
      16 ≤ ({ t with held := List.replicate 16 { c with job := none } }.held.filter fun (h : Contribution) => h.slot = c.slot).length) ∧
    (View.space (peer.view 1) = 4 ∧ bitsAt (t.reg (.part 1) 0x28) 0 16 = 0 ∧ bitsAt (tagged.reg (.part 1) 0x28) 0 16 ≠ 0 ∧
      tagged.peerReachable = false ∧ (tagged.setReg .ready 0x08 (2 ^ 10)).peerReachable = true ∧ { peer with waiting := true }.waiting = true) ∧
    (t.sendElems far).toOption = none := by
  and_intros <;> decide +kernel

/-- Cards and jobs whose stacks are ready and are not, and a bay of the card's partition and of another. -/
theorem witness_EnginesStartRunAndCompleteJobs_stacks :
    let s := withCard copyCard
    let j := job7 copyCard none
    let b (bay : Nat) : State := (withJob j).setReg (.chain 1 0 63) 0x00 (BitVec.ofNat 64 (bay * 2 ^ 8))
    (s.cardBusy 1 0x200040 = false ∧ (untrained s).cardBusy 1 0x200040 = true) ∧
    ((withJob j).jobBusy j 0 16 = false ∧ (untrained (withJob j)).jobBusy j 0 16 = true ∧ (untrained (withJob j)).jobs = j :: []) ∧
    (bitsAt ((b 0).reg (.chain 1 0 63) 0x00) 8 4 = 0 ∧ (b 0).ownerOf 0 = j.part ∧ bitsAt ((b 5).reg (.chain 1 0 63) 0x00) 8 4 = 5 ∧
      (b 5).ownerOf 5 ≠ j.part ∧ Card.ctr copyCard < 64) := by
  and_intros <;> decide +kernel

/-- A resumption at its steps 3 and 5, with and without a kernel's image unrestored; and a READY bit that will be set. -/
theorem witness_LeasesHoldsAndStarts_resume :
    let s := State.reset.setField .hold 0x00 40 2 3
    let r := { State.reset with resumeStep := 5 }
    let a : Away := ⟨0, 1, 0, 0, [], none, true, []⟩
    let up := { State.reset with agenda := [.ready 35], starting := [35] }
    (s.holdState = 3 ∧ s.firmwareSaved = []) ∧ (r.holdState = 0 ∧ r.resumeStep = 5) ∧
    ((∃ x ∈ { r with away := [a] }.away, x.held = true) ∧ (∀ x ∈ r.away, x.held = false) ∧ r.queues = [] ∧
      ∀ j ∈ { r with jobs := [job7 copyCard none] }.jobs, Card.kind j.card ≠ 4) ∧
    (up.agenda = .ready 35 :: [] ∧ 35 ∈ up.starting ∧ 35 < 36) ∧ (∀ j ∈ State.reset.jobs, j.die ≠ 0) ∧
    State.reset.verified 2 = false := by decide +kernel

/-- Images that the fused key has signed, for whatever such images there are: the key, its digest and the signatures are free values. -/
theorem witness_LeasesHoldsAndStarts_verified (x : SignedImage) (hk : Config.sha256 (bytesOfNat 64 x.key.toNat) = Config.fusedKey)
    (hs : Config.signedBy x.key (Config.sha256 x.bytes) x.sig = true) (hv : Config.fusedVersion ≤ x.version) :
    let s := { State.reset with images := [(2, x), (4, x), (20, x)] }
    (∀ k < 12, bitsAt (s.reg (.start k) 0x00) 16 8 = 0) ∧ s.verified 2 = true ∧ s.verified 4 = true ∧ s.verified 20 = true := by
  have h (k : Nat) (h : Assoc.find [(2, x), (4, x), (20, x)] k = some x) :
      State.verified { State.reset with images := [(2, x), (4, x), (20, x)] } k = true := by
    simp [State.verified, h, hk, hs, hv]
  have r : ∀ k < 12, bitsAt (State.reset.reg (.start k) 0x00) 16 8 = 0 := by decide +kernel
  exact ⟨r, h 2 rfl, h 4 rfl, h 20 rfl⟩

theorem witness_LeasesHoldsAndStarts :
    let s := State.reset
    let healthy (s : State) (d : Nat) : State := s.setReg (.lease 0) 0x10 (2 ^ d)
    let h := started (healthy s 0)
    let live (s : State) (d : Nat) : Prop := d < 4 ∧ d ∉ s.fenced
    let held (s : State) : Bool := bitAt (s.reg (.lease s.leaseDie) 0x00) 0
    let holder (s : State) : Nat := bitsAt (s.reg (.lease s.leaseDie) 0x00) 2 2
    let expiry (s : State) : Nat := (s.reg (.lease s.leaseDie) 0x08).toNat
    let state (k : Nat) : State := { (s.setField .hold 0x00 40 2 k) with holdTimer := some 0 }
    live s 3 ∧ (held h = true ∧ 0 = holder h ∧ 0 = bitsAt (h.reg (.lease h.leaseDie) 0x00) 32 32 ∧ h.gtime.toNat < expiry h + 1000000) ∧
    (let t := healthy s 3
     held t = false ∧ bitAt (t.reg (.lease t.leaseDie) 0x10) 3 = true ∧ ∀ d < 3, bitAt (t.reg (.lease t.leaseDie) 0x10) d = false) ∧
    bitAt (h.reg (.lease h.leaseDie) 0x10) 0 = true ∧
    (let t := { s with gtime := 1000000 }
     (t.heartbeats.getD 3 0).toNat + 1000000 ≤ t.gtime.toNat) ∧ s.holdState = 0 ∧
    ((1 : Nat) ≠ bitsAt (s.reg (.lease s.leaseDie) 0x00) 32 32 ∧ (0 : Nat) = bitsAt (s.reg (.lease s.leaseDie) 0x00) 32 32) ∧
    ((state 1).holdState = 1 ∧ (state 1).holdTimer = some 0 ∧ 0 ≤ (state 1).gtime.toNat ∧ (state 1).kills = []) ∧
    ((state 2).holdState = 2 ∧ (state 2).holdTimer = some 0 ∧ bitAt ((state 2).reg .hold 0x00) 0 = false) ∧
    (∀ k < 12, bitsAt (s.reg (.start k) 0x00) 16 8 = 0) ∧ (35 < 36 ∧ ∀ e ∈ s.agents, bayOf e.1 = 35 → e.2.life ≠ .running) ∧
    (11 < 12 ∧ 36 + 11 ∉ s.mapped ∧ s.holdState ≠ 2) := by
  and_intros <;> decide +kernel

theorem witness_OutsideRequestsAndAttestationAreAnswered :
    let s := mapped State.reset
    let ready (v : Dword) : State := s.setReg .ready 0x08 v
    let u := (ready (1 + 2 ^ 10 + 2 ^ 24)).setReg (.part 1) 0x28 7
    let up (s : State) : Prop := s.asleep = false ∧ bitAt (s.reg .ready 0x08) 24 = true
    let alive (p : Nat) : Prop := bitsAt (s.reg (.part p) 0x00) 0 2 = 2
    let mine (p : Nat) : Prop := bitsAt (u.reg (.part p) 0x00) 0 2 = 2 ∧ bitsAt (u.reg (.part p) 0x28) 0 16 = 7
    (¬ up s ∧ up u ∧ alive 1 ∧ ¬ alive 2) ∧ (u.imagePages 1 0x200000 8 .write = true ∧ u.imagePages 1 0x40000000 8 .write = false) ∧
    ((u.readVirtual 1 (8 / 65536 + 2) 0x200000 8).toOption.isSome = true ∧ (u.readVirtual 1 (8 / 65536 + 2) 0x40000000 8).toOption = none) ∧
    ((u.translate 1 0x20FFF8 .write).toOption.map (·.phys) = some 0x20FFF8 ∧ (u.translate 1 0x20FFF8 .read).toOption.map (·.phys) = some 0x20FFF8 ∧
      0 < 8 ∧ 0x20FFF8 % 65536 + 8 ≤ 65536 ∧ 0x20FFF8 % 8 = 0 ∧ u.codePage 1 0x20FFF8 = false ∧ u.struck (.dev 0x20FFF8 false) 8 = false) ∧
    (let a := { u with agenda := [.hostAtomic 1 0x20FFF8 9 (List.replicate 8 0) (List.replicate 8 0)] }
     a.agenda = .hostAtomic 1 0x20FFF8 9 (List.replicate 8 0) (List.replicate 8 0) :: [] ∧ up a ∧ bitsAt (a.reg (.part 1) 0x00) 0 2 = 2 ∧
       9 ∈ [0, 8, 9]) ∧
    (u.asleep = false ∧ bitsAt (u.reg .ready 0x08) 10 12 ≠ 0 ∧ 7 ≠ 0 ∧ mine 1 ∧ ¬ mine 2) ∧
    ((1 : Nat) ≠ s.epoch ∧ bitAt (s.reg (.lease s.leaseDie) 0x00) 0 = false) ∧
    (let t := { started s with keys := [(1, ⟨0, 1, 0⟩)] }
     bitAt (t.reg (.lease t.leaseDie) 0x00) 0 = true ∧ 0 = t.epoch ∧ (started s).keys.find 1 = none ∧ t.keys.find 1 = some ⟨0, 1, 0⟩) := by
  and_intros <;> decide +kernel

/-- Bytes in a stack that is ready, in one that is not, and in one under recalibration; and contributions of a peer that match an open slot, do not, and meet none. -/
theorem witness_OutsideRequestsAndAttestationAreAnswered_stacks :
    let s := ((mapped State.reset).setReg .ready 0x08 (255 + 2 ^ 10 + 2 ^ 24)).setReg (.part 1) 0x28 7
    let low := s.setReg .ready 0x08 (2 ^ 10 + 2 ^ 24)
    let recal := { s with calibrating := [0] }
    let size := 4
    let c (slot : Nat) : Contribution := ⟨slot, 2, 0x220000, 1, 1, 0, 0, Tag.f32.code, size, State.elementsOf size (List.replicate 64 0), none⟩
    let x : FoldSlot := ⟨8, 0, 0, 2, 0x220000, 1, 2, []⟩
    let r := { job7 (BitVec.ofNat 512 (4 * 2 ^ 64 + Tag.f32.code * 2 ^ 72 + 2 * 2 ^ 384)) none with id := 8 }
    let t := { s with folds := [x] }
    let m := { t with jobs := [r] }
    (s.stackDown false 1 0x200000 8 = false ∧ s.stackDown true 1 0x200000 8 = false ∧ low.stackDown false 1 0x200000 8 = true ∧
      recal.stackDown false 1 0x200000 8 = false ∧ recal.stackDown true 1 0x200000 8 = true) ∧
    (s.rangeBusy 1 0x200000 8 = false ∧ recal.rangeBusy 1 0x200000 8 = true) ∧
    (m.slotFor (c 0) = some x ∧ m.slotMatches x (c 0) = true) ∧
    (t.slotFor (c 0) = some x ∧ t.slotMatches x (c 0) = false ∧ t.slotFor (c 1) = none) := by
  and_intros <;> decide +kernel

/-- `xori s6, s0, #3` in context 0, word 0 there, a context at the end of its image, `lil c3` in a queue's segment and in a called
sequence, and an event. -/
theorem witness_StepRunsTheDecodedInstruction :
    let a := State.reset.withFetchWord 32 0x14C00003
    let z := { a with dev := a.dev.write 0x100000 4 0 }
    let q := State.reset.withFetchWord 96 0x0123456789ABCDEF09300000
    let u := { a with agenda := [], defer := false }
    let v := q.queue 0 0
    (a.agenda = Turn.run 0 :: [] ∧ { a with agenda := [Turn.push 0] }.agenda = Turn.push 0 :: []) ∧
    (u.acts 0 = true ∧ (u.ctx 0).debugReq = 0 ∧ (u.ctx 0).passBreak = true ∧ u.breakAt 0 = none ∧ u.awaitsStream 0 = false ∧ 0 < 2340) ∧
    (u.acts 1 = false ∧ (let w := (bound false false (dev4 0x200000 16) [] [] false u).modCtx 0 fun c => { c with wait := some (.element 2 0) }
      w.awaitsStream 0 = true) ∧
      (let b := (u.modCtx 0 fun c => { c with passBreak := false }).setReg (.cx (u.partOf 0)) 0x80 (2 ^ 63)
       (b.ctx 0).passBreak = false ∧ b.acts 0 = true ∧ (b.breakAt 0).isSome = true)) ∧
    ((u.ctx 0).pc % 4 = 0 ∧ ({ u.ctx 0 with pc := 2 } : Ctx).pc % 4 ≠ 0) ∧
    ((u.ctx 0).pc + 4 ≤ (u.ctx 0).code.len ∧ (u.ctx 0).code.len < ({ u.ctx 0 with pc := 4 } : Ctx).pc + 4) ∧
    ((u.translate (u.partOf 0) ((u.ctx 0).code.base + (u.ctx 0).pc) .fetch).toOption.map (·.phys) = some 0x100000 ∧
      u.dev.read 0x100000 4 = 0x14C00003 ∧ z.dev.read 0x100000 4 = 0 ∧ decode 0x14C00003 = .ok (.xori 6 0 3) ∧ decode 0 = .error .neverAssigned) ∧
    (q.agenda = .queue 0 0 :: [] ∧ v.live = true ∧ v.running = true ∧ v.hold = false ∧ v.pendFault = none ∧ q.fenced.contains 0 = false ∧
      q.holdState = 0 ∧ q.holdState ≠ 2 ∧ (State.imageFor .pwarnFall ∉ q.failed ∧
        State.imageFor (.fwHeartbeat 0) ∈ { q with failed := [1] }.failed) ∧ { v with busy := true, hold := true }.busy = true) ∧
    (v.stack = [] ∧ v.atLink = false ∧ v.segment = some 0x120000 ∧ State.segmentOk v 0x120000 = true ∧
      (q.readWord v.part ((q.reg (.queue 0 0) 0x08).toNat + 32) 8).toOption = some 65520 ∧ v.pos + State.commandLength 0x09300000 ≤ 65520 ∧
      (q.commandWords v.part (0x120000 + v.pos % 65520)).toOption = some (0x09300000, 0x89ABCDEF, 0x01234567)) ∧
    decodeCommand 0x09300000 0x89ABCDEF 0x01234567 = .ok (.cmdLil 3 0x0123456789ABCDEF) ∧
    (u.rangeBusy (u.partOf 0) ((u.ctx 0).code.base + (u.ctx 0).pc) 4 = false ∧
      (untrained u).rangeBusy (u.partOf 0) ((u.ctx 0).code.base + (u.ctx 0).pc) 4 = true ∧ (untrained u).acts 0 = true) ∧
    (q.rangeBusy v.part (q.reg (.queue 0 0) 0x08).toNat 320 = false ∧ q.rangeBusy v.part (0x120000 + v.pos % 65520) 12 = false) ∧
    ({ v with stack := [0x120000] }.stack ≠ [] ∧ (q.commandWords v.part 0x120000).toOption.isSome = true) ∧
    (Instr.pwarnFall.isWord = false ∧ Instr.pwarnFall.isCommand = false ∧ Instr.pwarnFall.wf = true ∧ (Instr.arbiterCycle 143).wf = true) := by
  and_intros <;> decide +kernel

theorem witness_DecodingAndEncodingAgree :
    ((Instr.fcvtFf 31 31 3 3).wf = true ∧ (Instr.fcvtFf 31 31 3 3).isWord = true) ∧
    ((Instr.cmdLil 15 0xFFFFFFFFFFFFFFFF).wf = true ∧ (Instr.cmdLil 15 0xFFFFFFFFFFFFFFFF).isCommand = true) ∧
    decode 0x04642800 = .ok (.add 3 4 5) ∧ decodeCommand 0x09500000 0x89ABCDEF 0x01234567 = .ok (.cmdLil 5 0x0123456789ABCDEF) := by
  decide +kernel

theorem witness_EveryStepKeepsTheInvariant :
    let s := State.reset.withFetchWord 32 0x14C00003
    Inv s ∧ (after (step s)).agenda = [] ∧ ((after (step s)).ctx 0).s 6 = 3 := by decide +kernel

end Sys2Proof.Tests
end

section
/-! SUPPORT. What the events of a partition come to: its creation, its end, its shoot-downs and the log of its tables (R402 to R404, R413, R414,
R487, R488). -/

namespace Sys2Proof.Proofs

open Sys2Proof Sys2Proof.Machine Sys2Proof.Laws

/-! ### Tables with entries left out -/

theorem find_filter {α : Type} (t : Assoc α) (p : Nat × α → Bool) (k : Nat) (b : Bool) (h : ∀ v, p (k, v) = b) :
    Assoc.find (t.filter p) k = if b then Assoc.find t k else none := by
  induction t with
  | nil => cases b <;> rfl
  | cons e t ih =>
    obtain ⟨j, v⟩ := e
    by_cases hj : j = k
    · subst hj
      cases b <;> simp [h v, Assoc.find, ih]
    · cases hp : p (j, v) <;> simp [hp, Assoc.find, hj, ih]

theorem getD_filter_out {α : Type} (t : Assoc α) (p : Nat × α → Bool) (k : Nat) (d : α) (h : ∀ v, p (k, v) = false) :
    Assoc.getD (t.filter p) k d = d := by
  simp [Assoc.getD, find_filter t p k false h]

theorem getD_filter_kept {α : Type} (t : Assoc α) (p : Nat × α → Bool) (k : Nat) (d : α) (h : ∀ v, p (k, v) = true) :
    Assoc.getD (t.filter p) k d = t.getD k d := by
  simp [Assoc.getD, find_filter t p k true h]

theorem find_erase_same {α : Type} (t : Assoc α) (k : Nat) : Assoc.find (t.erase k) k = none :=
  find_filter t (fun e => decide (e.1 ≠ k)) k false (by simp)

theorem getD_erase {α : Type} (t : Assoc α) (j k : Nat) (d : α) : (t.erase j).getD k d = if k = j then d else t.getD k d := by
  split
  · next h => exact getD_filter_out _ _ _ _ (by simp [h])
  · next h => exact getD_filter_kept _ _ _ _ (by simp [h])

theorem getD_put {α : Type} (t : Assoc α) (j k : Nat) (v d : α) : (t.put j v).getD k d = if k = j then v else t.getD k d := by
  split
  · next h => rw [h, getD_put_same]
  · next h => exact getD_put_other _ _ _ _ _ h

theorem find_map {α : Type} (t : Assoc α) (g : α → α) (k : Nat) :
    Assoc.find (t.map fun e => (e.1, g e.2)) k = (Assoc.find t k).map g := by
  induction t with
  | nil => rfl
  | cons e t ih =>
    simp only [List.map_cons, Assoc.find]
    split
    · rfl
    · exact ih

/-- One value put at several keys, as bays are given to a partition. -/
theorem getD_foldl_put {α : Type} (ks : List Nat) (t : Assoc α) (v d : α) (k : Nat) :
    Assoc.getD (ks.foldl (fun o b => o.put b v) t) k d = if k ∈ ks then v else t.getD k d := by
  induction ks generalizing t with
  | nil => simp
  | cons b ks ih =>
    rw [List.foldl_cons, ih, getD_put]
    by_cases hb : k = b <;> by_cases hk : k ∈ ks <;> simp [hb, hk]

/-- Several entries taken out, as bays are given up. -/
theorem getD_foldl_erase {α : Type} (ks : List Nat) (t : Assoc α) (d : α) (k : Nat) :
    Assoc.getD (ks.foldl (fun o b => o.erase b) t) k d = if k ∈ ks then d else t.getD k d := by
  induction ks generalizing t with
  | nil => simp
  | cons b ks ih =>
    rw [List.foldl_cons, ih, getD_erase]
    by_cases hb : k = b <;> by_cases hk : k ∈ ks <;> simp [hb, hk]

theorem get_clear (m : Mem) (lo hi a : Nat) : Mem.get (m.clear lo hi) a = if lo ≤ a ∧ a < hi then 0 else m.get a := by
  induction m with
  | nil => simp [Mem.clear, Mem.get]
  | cons e m ih =>
    obtain ⟨j, v⟩ := e
    unfold Mem.clear at ih ⊢
    by_cases hj : j = a
    · subst hj
      by_cases hin : lo ≤ j ∧ j < hi
      · rw [List.filter_cons_of_neg (by simp; omega), ih, if_pos hin, if_pos hin]
      · rw [List.filter_cons_of_pos (by simp; omega), if_neg hin]
        simp [Mem.get]
    · by_cases hin : lo ≤ j ∧ j < hi
      · rw [List.filter_cons_of_neg (by simp; omega), ih]
        simp [Mem.get, hj]
      · rw [List.filter_cons_of_pos (by simp; omega)]
        simp [Mem.get, hj, ih]

theorem mill_modMill (s : State) (m n : Nat) (g : Mill → Mill) :
    (s.modMill m g).mill n = if n = m then g (s.mill m) else s.mill n := getD_put _ _ _ _ _

/-! ### Registers -/

theorem setField_reg_other (s : State) (w w' : Window) (off off' lo n v : Nat) (h : w'.regKey off' ≠ w.regKey off) :
    (s.setField w off lo n v).reg w' off' = s.reg w' off' := reg_setReg_other _ _ _ _ _ _ h

theorem setField_bitsAt_same (s : State) (w : Window) (off lo n v : Nat) (h : lo + n ≤ 64) :
    bitsAt ((s.setField w off lo n v).reg w off) lo n = v % 2 ^ n := by
  unfold State.setField
  rw [reg_setReg_same, bitsAt_setBits_same _ _ _ _ h]

theorem bump_reg (s : State) (w : Window) (off : Nat) : (s.bump w off).reg w off = s.reg w off + 1 := reg_setReg_same _ _ _ _
theorem bump_dev (s : State) (w : Window) (off : Nat) : (s.bump w off).dev = s.dev := rfl

theorem reg_withDev (s : State) (d : Mem) (w : Window) (off : Nat) : State.reg { s with dev := d } w off = s.reg w off := rfl
theorem dev_withDev (s : State) (d : Mem) : State.dev { s with dev := d } = d := rfl

/-! ### Clearing bays (R403, R404) -/

/-- What creating or destroying a partition leaves of its bays and of what it has counted. -/
def Cleared (n : Nat) (bays : List Nat) (t : State) : Prop :=
  (∀ f, bayOf f ∈ bays → t.ctx f = Ctx.reset) ∧
  (∀ b ∈ bays, ∀ a, b * 0x1000000 ≤ a → a < (b + 1) * 0x1000000 → t.scr.get a = 0) ∧
  (∀ b ∈ bays, ∀ k < 320, t.counter b n k = 0) ∧ t.reg (.energy n) 0x00 = 0 ∧
  (∀ b ∈ bays, ∀ k < 4, ∃ x : Mill, t.mill (4 * b + k) = State.clearMill x)

/-- It depends on the contexts, scratchpads, counters, arrays and the energy alone. -/
theorem Cleared.congr {n : Nat} {bays : List Nat} {t u : State} (h : Cleared n bays t) (ha : u.agents = t.agents) (hs : u.scr = t.scr)
    (hc : u.counters = t.counters) (hm : u.mills = t.mills) (he : u.reg (.energy n) 0x00 = t.reg (.energy n) 0x00) : Cleared n bays u := by
  unfold Cleared State.ctx State.counter State.mill at h ⊢
  rw [ha, hs, hc, hm, he]
  exact h

theorem clearBay_ctx (s : State) (b f : Nat) : (s.clearBay b).ctx f = if bayOf f = b then Ctx.reset else s.ctx f := by
  show Assoc.getD (s.agents.filter fun e => decide (bayOf e.1 ≠ b)) f Ctx.reset = _
  split
  · next h => exact getD_filter_out _ _ _ _ (by simp [h])
  · next h => exact getD_filter_kept _ _ _ _ (by simp [h])

theorem clearBay_scr (s : State) (b a : Nat) :
    (s.clearBay b).scr.get a = if a / 0x1000000 = b then 0 else s.scr.get a := by
  have h : (State.scrAddr b 0 ≤ a ∧ a < State.scrAddr (b + 1) 0) ↔ a / 0x1000000 = b := by
    unfold State.scrAddr; omega
  show Mem.get (s.scr.clear _ _) a = _
  rw [get_clear, if_congr h rfl rfl]

theorem clearBay_mill (s : State) (b m : Nat) :
    (s.clearBay b).mill m = if m / 4 = b then State.clearMill (s.mill m) else s.mill m := by
  have h : (s.clearBay b).mill m =
      ((((s.modMill (4 * b + 0) State.clearMill).modMill (4 * b + 1) State.clearMill).modMill (4 * b + 2) State.clearMill).modMill
        (4 * b + 3) State.clearMill).mill m := rfl
  rw [h]
  by_cases hb : m / 4 = b
  · rw [if_pos hb]
    have hm : m = 4 * b + m % 4 := by omega
    have hlt : m % 4 < 4 := Nat.mod_lt _ (by decide)
    rw [hm]
    interval_cases m % 4 <;> simp [mill_modMill]
  · have h0 : ∀ k < 4, m ≠ 4 * b + k := by omega
    simp only [mill_modMill, if_neg (h0 _ (by decide : 0 < 4)), if_neg (h0 _ (by decide : 1 < 4)), if_neg (h0 _ (by decide : 2 < 4)),
      if_neg (h0 _ (by decide : 3 < 4)), if_neg hb]

theorem clearBays_frame (bays : List Nat) (s : State) :
    ∃ c g a m, bays.foldl (fun s b => s.clearBay b) s = { s with scr := c, tags := g, agents := a, mills := m } := by
  induction bays generalizing s with
  | nil => exact ⟨_, _, _, _, rfl⟩
  | cons b bays ih => exact ih (s.clearBay b)

theorem clearBays_ctx (bays : List Nat) (s : State) (f : Nat) :
    (bays.foldl (fun s b => s.clearBay b) s).ctx f = if bayOf f ∈ bays then Ctx.reset else s.ctx f := by
  induction bays generalizing s with
  | nil => simp
  | cons b bays ih =>
    rw [List.foldl_cons, ih, clearBay_ctx]
    by_cases hb : bayOf f = b <;> by_cases hf : bayOf f ∈ bays <;> simp [hb, hf]

theorem clearBays_scr (bays : List Nat) (s : State) (a : Nat) :
    (bays.foldl (fun s b => s.clearBay b) s).scr.get a = if a / 0x1000000 ∈ bays then 0 else s.scr.get a := by
  induction bays generalizing s with
  | nil => simp
  | cons b bays ih =>
    rw [List.foldl_cons, ih, clearBay_scr]
    by_cases hb : a / 0x1000000 = b <;> by_cases ha : a / 0x1000000 ∈ bays <;> simp [hb, ha]

theorem clearBays_mill (bays : List Nat) (s : State) (m : Nat) :
    (bays.foldl (fun s b => s.clearBay b) s).mill m = if m / 4 ∈ bays then State.clearMill (s.mill m) else s.mill m := by
  induction bays generalizing s with
  | nil => simp
  | cons b bays ih =>
    rw [List.foldl_cons, ih, clearBay_mill]
    by_cases hb : m / 4 = b <;> by_cases hm : m / 4 ∈ bays <;> simp [hb, hm, State.clearMill]

/-- A counter of one of the bays, or of the partition, has no entry left (R49). -/
theorem clearCounters_counter {bays : List Nat} {b : Nat} (s : State) (n k : Nat) (hb : b ∈ bays) (h36 : b < 36) (hk : k < 320) :
    (s.clearCounters n bays).counter b n k = 0 := by
  refine getD_filter_out _ _ _ _ fun v => ?_
  unfold State.counterKey
  by_cases h64 : k < 64
  · have hlt : b * 64 + k < 2304 := by omega
    have hdiv : (b * 64 + k) / 64 = b := by omega
    simp [h64, hlt, hdiv, hb]
  · have hge : ¬ 2304 + n * 256 + (k - 64) < 2304 := by omega
    have hdiv : (2304 + n * 256 + (k - 64) - 2304) / 256 = n := by omega
    simp [h64, hge, hdiv]

/-- Steps 2 and 3 of R403, and the end of R404. -/
theorem clearBays_cleared {bays : List Nat} (s : State) (n : Nat) (h36 : ∀ b ∈ bays, b < 36) :
    Cleared n bays ((bays.foldl (fun s b => s.clearBay b) s).clearCounters n bays) := by
  refine ⟨fun f hf => ?_, fun b hb a hlo hhi => ?_, fun b hb k hk => ?_, ?_, fun b hb k hk => ?_⟩
  · show (bays.foldl (fun s b => s.clearBay b) s).ctx f = _
    rw [clearBays_ctx, if_pos hf]
  · have ha : a / 0x1000000 = b := by omega
    show (bays.foldl (fun s b => s.clearBay b) s).scr.get a = 0
    rw [clearBays_scr, if_pos (ha ▸ hb)]
  · exact clearCounters_counter _ _ _ hb (h36 b hb) hk
  · exact reg_setReg_same _ _ _ _
  · have hm : (4 * b + k) / 4 = b := by omega
    refine ⟨s.mill (4 * b + k), ?_⟩
    show (bays.foldl (fun s b => s.clearBay b) s).mill (4 * b + k) = _
    rw [clearBays_mill, hm, if_pos hb]

/-! ### Creating a partition (R403) -/

theorem moveBay_frame (s : State) (b : Nat) : ∃ r, s.moveBay b = { s with regulators := r } := by
  unfold State.moveBay
  split
  · exact ⟨_, rfl⟩
  · exact ⟨s.regulators, rfl⟩

theorem moveBays_frame (bays : List Nat) (s : State) : ∃ r, bays.foldl (fun s b => s.moveBay b) s = { s with regulators := r } := by
  induction bays generalizing s with
  | nil => exact ⟨s.regulators, rfl⟩
  | cons b bays ih =>
    obtain ⟨r, hr⟩ := moveBay_frame s b
    rw [List.foldl_cons, hr]
    exact ih _

/-- The chains' windows stand apart from ENERGY. -/
theorem clearChains_energy (s : State) (n m : Nat) (hn : n ≤ 36) : (s.clearChains n).reg (.energy m) 0x00 = s.reg (.energy m) 0x00 := by
  refine getD_filter_kept _ _ _ _ fun v => ?_
  simp only [Window.regKey, Window.key]
  simp [List.any_eq_false]
  intro die hdie
  omega

/-- A die's nine bays hold at most 9 of any bays. -/
theorem bays_of_die_le {bays : List Nat} (h : bays.Sublist (List.range 36)) {d : Nat} (hd : d < 4) :
    (bays.filter fun b => decide (b / 9 = d)).length ≤ 9 := by
  have h9 : ∀ d < 4, ((List.range 36).filter fun b => decide (b / 9 = d)).length ≤ 9 := by decide
  exact (h.filter _).length_le.trans (h9 d hd)

/-- Each field of a number made of four fields of 16 bits. -/
theorem four_fields (c : Nat → Nat) (h : ∀ d < 4, c d < 2 ^ 16) {d : Nat} (hd : d < 4) :
    (c 0 + c 1 * 2 ^ 16 + c 2 * 2 ^ 32 + c 3 * 2 ^ 48) % 2 ^ 64 / 2 ^ (16 * d) % 2 ^ 16 = c d := by
  have h0 := h 0 (by decide)
  have h1 := h 1 (by decide)
  have h2 := h 2 (by decide)
  have h3 := h 3 (by decide)
  interval_cases d <;> simp only [Nat.reducePow, Nat.reduceMul] at * <;> omega

theorem foldl_range_four (g : Nat → Nat) : (List.range 4).foldl (fun t d => t + g d) 0 = g 0 + g 1 + g 2 + g 3 := by
  simp [List.range_succ]

/-- 455 pins on a die for each of its bays (R403). -/
theorem pinLimits_field {bays : List Nat} (h : bays.Sublist (List.range 36)) {d : Nat} (hd : d < 4) :
    bitsAt (BitVec.ofNat 64 (State.pinLimits bays)) (16 * d) 16 = 455 * (bays.filter fun b => decide (b / 9 = d)).length := by
  have hlt : ∀ d < 4, 455 * (bays.filter fun b => decide (b / 9 = d)).length < 2 ^ 16 := fun d hd => by
    have := bays_of_die_le h hd
    omega
  rw [bitsAt, BitVec.toNat_ofNat, State.pinLimits, foldl_range_four,
    ← four_fields (fun d => 455 * (bays.filter fun b => decide (b / 9 = d)).length) hlt hd]
  simp only [Nat.mul_zero, Nat.pow_zero, Nat.mul_one, Nat.reduceMul]

/-- PBAYS that names no bay is refused. -/
theorem createPart_none {s : State} {n : Nat} (h1 : 1 ≤ n) (h36 : n ≤ 36) (hb : s.wantedBays n = []) :
    s.createPart n = s.setField (.part n) 0x00 8 2 2 := by
  have h0 : ¬ n = 0 := by omega
  have hle : ¬ 36 < n := by omega
  simp [State.createPart, h0, hle, hb]

/-- So is a partition that is not free, or a bay that another has. -/
theorem createPart_taken {s : State} {n : Nat} (h1 : 1 ≤ n) (h36 : n ≤ 36) (hb : s.wantedBays n ≠ [])
    (h : s.partState n ≠ 0 ∨ ∃ b ∈ s.wantedBays n, s.ownerOf b ≠ 0) : s.createPart n = s.setField (.part n) 0x00 8 2 1 := by
  have h0 : ¬ n = 0 := by omega
  have hle : ¬ 36 < n := by omega
  simp [State.createPart, h0, hle, hb, h]

/-- The state in which the bays that a partition takes are its own and cleared. -/
def takenBays (s : State) (n : Nat) : State :=
  let bays := s.wantedBays n
  let s1 := bays.foldl (fun s b => s.moveBay b) { s with owners := bays.foldl (fun o b => o.put b n) s.owners }
  (bays.foldl (fun s b => s.clearBay b) s1).clearCounters n bays

theorem takenBays_cleared (s : State) (n : Nat) : Cleared n (s.wantedBays n) (takenBays s n) :=
  clearBays_cleared _ _ fun _ hb => List.mem_range.1 (List.mem_filter.1 hb).1

/-- Beyond what is cleared, taking bays changes their owners and regulators. -/
theorem takenBays_frame (s : State) (n : Nat) : ∃ r c g a m k q, takenBays s n = { s with
    owners := (s.wantedBays n).foldl (fun o b => o.put b n) s.owners, regulators := r, scr := c, tags := g, agents := a, mills := m,
    counters := k, regs := q } := by
  obtain ⟨r, hr⟩ := moveBays_frame (s.wantedBays n) { s with owners := (s.wantedBays n).foldl (fun o b => o.put b n) s.owners }
  unfold takenBays
  dsimp only
  rw [hr]
  obtain ⟨c, g, a, m, hc⟩ := clearBays_frame (s.wantedBays n)
    { s with owners := (s.wantedBays n).foldl (fun o b => o.put b n) s.owners, regulators := r }
  rw [hc]
  exact ⟨_, _, _, _, _, _, _, rfl⟩

theorem takenBays_dev (s : State) (n : Nat) : (takenBays s n).dev = s.dev := by
  obtain ⟨_, _, _, _, _, _, _, h⟩ := takenBays_frame s n
  rw [h]

theorem takenBays_ownerOf (s : State) (n b : Nat) : (takenBays s n).ownerOf b = if b ∈ s.wantedBays n then n else s.ownerOf b := by
  obtain ⟨_, _, _, _, _, _, _, h⟩ := takenBays_frame s n
  rw [h]
  exact getD_foldl_put _ _ _ _ _

/-- The state in which a partition has all that it is created with but its STATE. -/
def readyPart (s : State) (n : Nat) : State :=
  let t := ((takenBays s n).clearChains n).setReg (.part n) 0x18 (BitVec.ofNat 64 (State.pinLimits (s.wantedBays n)))
  { t with keys := t.keys.put n ⟨t.creates + 1, (s.wantedBays n).foldl (fun m b => m + 2 ^ b) 0, t.gtime⟩, creates := t.creates + 1 }

/-- A free partition whose bays are free is created. -/
theorem createPart_free {s : State} {n : Nat} (h1 : 1 ≤ n) (h36 : n ≤ 36) (hb : s.wantedBays n ≠ []) (hs : s.partState n = 0)
    (hf : ∀ b ∈ s.wantedBays n, s.ownerOf b = 0) : s.createPart n = (readyPart s n).setField (.part n) 0x00 0 2 2 := by
  have h0 : ¬ n = 0 := by omega
  have hle : ¬ 36 < n := by omega
  unfold State.createPart
  simp only [h0, hle, decide_false, Bool.or_false, Bool.false_eq_true, if_false, List.isEmpty_iff, hb, hs, ne_eq, not_true]
  rw [if_neg (by simpa using hf)]
  rfl

theorem createdPart_ownerOf (s : State) (n b : Nat) :
    ((readyPart s n).setField (.part n) 0x00 0 2 2).ownerOf b = if b ∈ s.wantedBays n then n else s.ownerOf b :=
  takenBays_ownerOf s n b

theorem createdPart_dev (s : State) (n : Nat) : ((readyPart s n).setField (.part n) 0x00 0 2 2).dev = s.dev := takenBays_dev s n

theorem createdPart_pins (s : State) (n : Nat) :
    ((readyPart s n).setField (.part n) 0x00 0 2 2).reg (.part n) 0x18 = BitVec.ofNat 64 (State.pinLimits (s.wantedBays n)) := by
  rw [setField_reg_other _ _ _ _ _ _ _ _ (by simp [Window.regKey])]
  exact reg_setReg_same _ _ _ _

theorem createdPart_cleared (s : State) {n : Nat} (h36 : n ≤ 36) :
    Cleared n (s.wantedBays n) ((readyPart s n).setField (.part n) 0x00 0 2 2) := by
  refine (takenBays_cleared s n).congr rfl rfl rfl rfl ?_
  rw [setField_reg_other _ _ _ _ _ _ _ _ (by simp only [Window.regKey, Window.key]; omega)]
  have h : (readyPart s n).reg (.energy n) 0x00 = ((takenBays s n).clearChains n).reg (.energy n) 0x00 :=
    reg_setReg_other _ _ _ _ _ _ (by simp only [Window.regKey, Window.key]; omega)
  rw [h, clearChains_energy _ _ _ h36]

/-! ### Destroying a partition (R404) -/

/-- The state in which the agents of a partition are killed, its work has ended and its bays are cleared. -/
def emptiedPart (s : State) (n : Nat) : State :=
  ((s.baysOf n).foldl (fun s b => s.clearBay b) ((s.killPart n).releasePart n)).clearCounters n (s.baysOf n)

/-- The state in which its bays are given up as well. -/
def freedPart (s : State) (n : Nat) : State :=
  let t := emptiedPart s n
  { t with
    owners := (s.baysOf n).foldl (fun o b => o.erase b) t.owners, keys := t.keys.erase n,
    kills := t.kills.filter fun f => !(s.baysOf n).contains (bayOf (f % 4096)) }.setField (.part n) 0x00 0 2 0

theorem destroyPart_live {s : State} {n : Nat} (h1 : 1 ≤ n) (h36 : n ≤ 36) (hs : s.partState n = 2) :
    s.destroyPart n = freedPart s n := by
  have h0 : ¬ n = 0 := by omega
  have hle : ¬ 36 < n := by omega
  unfold State.destroyPart
  rw [if_neg (by simp [h0, hle, hs])]
  rfl

theorem freedPart_state (s : State) (n : Nat) : (freedPart s n).partState n = 0 := setField_bitsAt_same _ _ _ _ _ _ (by decide)

theorem freedPart_cleared (s : State) (n : Nat) : Cleared n (s.baysOf n) (freedPart s n) := by
  refine (clearBays_cleared ((s.killPart n).releasePart n) n fun _ hb => List.mem_range.1 (List.mem_filter.1 hb).1).congr rfl rfl rfl rfl ?_
  exact setField_reg_other _ _ _ _ _ _ _ _ (by simp only [Window.regKey, Window.key]; omega)

theorem freedPart_ownerOf {s : State} {n b : Nat} (hb : b ∈ s.baysOf n) : (freedPart s n).ownerOf b = 0 := by
  refine (getD_foldl_erase (s.baysOf n) (emptiedPart s n).owners 0 b).trans ?_
  rw [if_pos hb]

theorem freedPart_key (s : State) (n : Nat) : (freedPart s n).keys.find n = none := find_erase_same _ _

/-! ### Writes of registers (R6, R7) -/

/-- A write, bit by bit. -/
theorem maskedWrite_bit (old v : Dword) (info : RegInfo) {i : Nat} (hi : i < 64) :
    bitAt (State.maskedWrite old info v) i = if info.rw.testBit i then bitAt v i else bitAt old i && !(info.w1c.testBit i && bitAt v i) := by
  simp only [bitAt, State.maskedWrite, BitVec.getLsbD_or, BitVec.getLsbD_and, BitVec.getLsbD_not, BitVec.getLsbD_ofNat, hi, decide_true,
    Bool.true_and]
  cases info.rw.testBit i <;> simp

/-- A window of contexts or of translation whose register has no field with a condition of its own is written by its map. -/
theorem registerWrite_plain {s : State} {w : Window} {off n : Nat} (v : Dword) (epoch : Nat) (h1 : 1 ≤ n) (h36 : n ≤ 36)
    (h : (w = .cx n ∧ off ≠ 0x30 ∧ off ≠ 0x68) ∨ (w = .trans n ∧ off ≠ 0x40)) :
    s.registerWrite w off v epoch = s.setReg w off (State.maskedWrite (s.reg w off) (w.info off) v) := by
  rcases h with ⟨rfl, h30, h68⟩ | ⟨rfl, h40⟩
  · have hw : s.writable (.cx n) off v = v := by
      unfold State.writable
      split <;> simp_all
    simp [State.registerWrite, Window.valid, State.writeIgnored, State.actOfAuthority, h1, h36, hw]
  · have hw : s.writable (.trans n) off v = v := by
      unfold State.writable
      split <;> simp_all
    simp [State.registerWrite, Window.valid, State.writeIgnored, State.actOfAuthority, h1, h36, hw]

/-- PBAYS of a partition that is not free keeps its value (R402). -/
theorem registerWrite_pbays {s : State} {n : Nat} (v : Dword) (epoch : Nat) (h : s.partState n ≠ 0) :
    s.registerWrite (.part n) 0x08 v epoch = s := by
  simp [State.registerWrite, State.writeIgnored, h]

/-- A write of the hold window is an act of authority (R474). -/
theorem registerWrite_hold_refused {s : State} {epoch : Nat} (off : Nat) (v : Dword) (h : epoch ≠ s.epoch) :
    s.registerWrite .hold off v epoch = s.answer (.refused s.epoch) := by
  simp [State.registerWrite, Window.valid, State.writeIgnored, State.actOfAuthority, h]

/-! ### Shoot-downs (R179, R413, R414) -/

/-- A request has begun: what holds a pin that it names is waited for from now on. -/
def Begun (i : Inval) (s t : State) : Prop :=
  t.pins = s.pins.map (State.markPin i) ∧
  ∀ f, t.ctx f = { s.ctx f with xq := (s.ctx f).xq.map fun (x : XqEntry) => { x with pin := x.pin.map (State.markPin i) } }

theorem beginInval_begun (s : State) (i : Inval) : Begun i s (s.beginInval i) := by
  refine ⟨rfl, fun f => ?_⟩
  unfold State.ctx Assoc.getD State.beginInval
  rw [find_map s.agents fun c => { c with xq := c.xq.map fun (x : XqEntry) => { x with pin := x.pin.map (State.markPin i) } }]
  cases Assoc.find s.agents f <;> rfl

/-- A request begins alike in states with the same pins and contexts. -/
theorem Begun.congr {i : Inval} {s u t : State} (h : Begun i u t) (hp : u.pins = s.pins) (ha : u.agents = s.agents) : Begun i s t := by
  unfold Begun State.ctx at h ⊢
  rwa [hp, ha] at h

/-- The pins that a request names, in the words of R413 and R414. -/
theorem markPin_eq (i : Inval) (p : Pin) : State.markPin i p =
    if p.part = i.part ∧ (if i.stage2 then State.inRange i p.ipa p.size || p.tables.any fun a => State.inRange i a 8
      else State.inRange i p.page p.size) = true then { p with inval := true } else p := by
  simp only [State.markPin, State.names, Bool.and_eq_true, decide_eq_true_eq]

theorem invalidate_full {s : State} {n : Nat} {stage2 : Bool} (die core : Nat) (h : 8 ≤ (s.invalsOf n stage2).length) {w : Window} {o : Nat}
    (hw : State.invWindow n stage2 = (w, o)) : s.invalidate n stage2 die core =
      { s with invalWaits := s.invalWaits ++ [⟨n, stage2, (s.reg w o).toNat, (s.reg w (o + 8)).toNat, die, core⟩] } := by
  simp only [State.invalidate, hw, h, if_true]

theorem invalidate_queued {s : State} {n : Nat} {stage2 : Bool} (die core : Nat) (h : (s.invalsOf n stage2).length < 8) {w : Window} {o : Nat}
    (hw : State.invWindow n stage2 = (w, o)) : s.invalidate n stage2 die core =
      s.beginInval ⟨n, stage2, (s.reg w o).toNat, (s.reg w (o + 8)).toNat, die, core⟩ := by
  simp only [State.invalidate, hw, Nat.not_le.2 h, if_false]

/-! ### The log of a partition's tables (R487, R488) -/

/-- The log's registers, and where its next record stands. -/
def logWindow (part : Nat) (stage2 : Bool) : Window := if stage2 then .part part else .trans part
def logBase (stage2 : Bool) : Nat := if stage2 then 0xC0 else 0x40
def logSlot (s : State) (part : Nat) (stage2 : Bool) : Nat :=
  bitsAt (s.reg (logWindow part stage2) (logBase stage2)) 12 52 * 4096 +
    32 * ((s.reg (logWindow part stage2) (logBase stage2 + 0x08)).toNat % State.ringSize (s.reg (logWindow part stage2) (logBase stage2)))

theorem logWindow_stage2 (part : Nat) : logWindow part true = .part part := rfl
theorem logBase_stage2 : logBase true = 0xC0 := rfl

/-- A record that cannot be stored sets the log's fault flag. -/
theorem logPut_lost {s : State} {part : Nat} {stage2 : Bool} {r : Nat} (h : s.ringStore part stage2 (logSlot s part stage2) 32 r = none) :
    s.logPut part stage2 r = s.setField (logWindow part stage2) (logBase stage2 + 0x18) 0 1 1 := by
  cases stage2 <;>
  · unfold State.logPut
    unfold logSlot logWindow logBase at h
    simp only [Bool.false_eq_true, if_true, if_false] at h ⊢
    simp only [h]
    rfl

/-- One that is stored is counted, after the flag where it overwrites an unread one. -/
theorem logPut_stored {s t : State} {part : Nat} {stage2 : Bool} {r : Nat} (h : s.ringStore part stage2 (logSlot s part stage2) 32 r = some t) :
    ∃ u : State, s.logPut part stage2 r = u.bump (logWindow part stage2) (logBase stage2 + 0x08) ∧
      (u = t ∨ u = t.setField (logWindow part stage2) (logBase stage2 + 0x18) 0 1 1) := by
  cases stage2 <;>
  · unfold State.logPut
    unfold logSlot logWindow logBase at h
    simp only [Bool.false_eq_true, if_true, if_false] at h ⊢
    simp only [h]
    refine ⟨_, rfl, ?_⟩
    split
    · exact Or.inr rfl
    · exact Or.inl rfl

/-- A record changes device memory, the words walked and registers alone. -/
theorem logPut_frame (s : State) (part : Nat) (stage2 : Bool) (r : Nat) :
    ∃ d w g, s.logPut part stage2 r = { s with dev := d, walked := w, regs := g } := by
  cases h : s.ringStore part stage2 (logSlot s part stage2) 32 r with
  | none => exact ⟨_, s.walked, _, logPut_lost h⟩
  | some t =>
    obtain ⟨d, w, rfl⟩ := ringStore_frame h
    obtain ⟨u, hu, rfl | rfl⟩ := logPut_stored h
    · exact ⟨_, _, _, hu⟩
    · exact ⟨_, _, _, hu⟩

/-- Of the registers, the log's count and its flags. -/
theorem logPut_reg_other {s : State} {part : Nat} {stage2 : Bool} {r : Nat} {w : Window} {off : Nat}
    (h8 : w.regKey off ≠ (logWindow part stage2).regKey (logBase stage2 + 0x08))
    (h18 : w.regKey off ≠ (logWindow part stage2).regKey (logBase stage2 + 0x18)) :
    (s.logPut part stage2 r).reg w off = s.reg w off := by
  cases h : s.ringStore part stage2 (logSlot s part stage2) 32 r with
  | none => rw [logPut_lost h, setField_reg_other _ _ _ _ _ _ _ _ h18]
  | some t =>
    obtain ⟨d, x, rfl⟩ := ringStore_frame h
    obtain ⟨u, hu, rfl | rfl⟩ := logPut_stored h
    · rw [hu, State.bump, reg_setReg_other _ _ _ _ _ _ h8]; rfl
    · rw [hu, State.bump, reg_setReg_other _ _ _ _ _ _ h8, setField_reg_other _ _ _ _ _ _ _ _ h18]; rfl

/-- A store at a physical address fails where an error has struck, and walks no table. -/
theorem ringStore_physical (s : State) (part addr n v : Nat) : s.ringStore part true addr n v =
    if s.struck (.dev addr false) n then none else some { s with dev := s.dev.write addr n v } := rfl

theorem logPut_walked_stage2 (s : State) (part r : Nat) : (s.logPut part true r).walked = s.walked := by
  by_cases hs : s.struck (.dev (logSlot s part true) false) 32 = true
  · rw [logPut_lost ((ringStore_physical ..).trans (if_pos hs))]; rfl
  · obtain ⟨u, hu, rfl | rfl⟩ := logPut_stored ((ringStore_physical s part (logSlot s part true) 32 r).trans (if_neg hs)) <;>
      rw [hu] <;> rfl

/-- What a record of an edit holds (R488). -/
theorem logRecord_fields (s : State) (page pages die core : Nat) : ∃ r : BitVec 256,
    r.toNat = s.logRecord false true page pages die core 0 ∧ bitsAt r 0 1 = 0 ∧ bitsAt r 1 1 = 1 ∧ bitsAt r 4 2 = core % 4 ∧
    bitsAt r 6 2 = die % 4 ∧ bitsAt r 39 33 = pages % 2 ^ 33 ∧ bitsAt r 72 56 = page % 2 ^ 56 ∧ bitsAt r 192 64 = s.gtime.toNat := by
  have hg := s.gtime.isLt
  have hc := Nat.mod_lt core (by decide : 4 > 0)
  have hd := Nat.mod_lt die (by decide : 4 > 0)
  have hn := Nat.mod_lt pages (Nat.two_pow_pos 33)
  have hp := Nat.mod_lt page (Nat.two_pow_pos 56)
  have hr : s.logRecord false true page pages die core 0 = 2 + core % 4 * 2 ^ 4 + die % 4 * 2 ^ 6 + pages % 2 ^ 33 * 2 ^ 39 +
      page % 2 ^ 56 * 2 ^ 72 + s.gtime.toNat * 2 ^ 192 := by simp [State.logRecord, b2n]
  have hlt : s.logRecord false true page pages die core 0 < 2 ^ 256 := by
    rw [hr]
    generalize pages % 2 ^ 33 = n, page % 2 ^ 56 = p at *
    omega
  refine ⟨BitVec.ofNat 256 (s.logRecord false true page pages die core 0), ?_⟩
  simp only [bitsAt, BitVec.toNat_ofNat, Nat.mod_eq_of_lt hlt, true_and]
  rw [hr]
  generalize pages % 2 ^ 33 = n, page % 2 ^ 56 = p at *
  clear hr hlt
  refine ⟨?_, ?_, ?_, ?_, ?_, ?_, ?_⟩ <;> omega

/-! ### Completing a shoot-down -/

theorem takeInval_none {s : State} {part : Nat} {stage2 : Bool}
    (h : (s.invalWaits.find? fun j => j.part = part && j.stage2 = stage2) = none) : s.takeInval part stage2 = s := by
  simp only [State.takeInval, h]

theorem takeInval_some {s : State} {part : Nat} {stage2 : Bool} {j : Inval}
    (h : (s.invalWaits.find? fun j => j.part = part && j.stage2 = stage2) = some j) :
    s.takeInval part stage2 = State.beginInval { s with invalWaits := s.invalWaits.erase j } j := by
  simp only [State.takeInval, h]

theorem takeInval_frame (s : State) (part : Nat) (stage2 : Bool) :
    ∃ i w p a, s.takeInval part stage2 = { s with invals := i, invalWaits := w, pins := p, agents := a } := by
  unfold State.takeInval
  split
  · exact ⟨_, _, _, _, rfl⟩
  · exact ⟨_, _, _, _, rfl⟩

theorem completeInval_blocked {s : State} {part : Nat} {stage2 : Bool} {i : Inval} {rest : List Inval}
    (hi : s.invalsOf part stage2 = i :: rest) (hb : s.blockers i ≠ 0) : s.completeInval part stage2 = s := by
  simp [State.completeInval, hi, hb]

/-- The state in which a request has completed, been counted and signalled, and what it covers been forgotten. -/
def countedInval (s : State) (part : Nat) (stage2 : Bool) (i : Inval) : State :=
  let t := State.bump { s with invals := s.invals.erase i, walked := s.walked.filter fun x => !State.covers i x }
    (State.invWindow part stage2).1 ((State.invWindow part stage2).2 + 0x18)
  { t with interrupts := t.interrupts ++ [.invalidated part stage2 i.die i.core], fresh := t.fresh + 1 }

/-- The oldest request completes and is logged, and then a write of GO that waits is taken. -/
theorem completeInval_logged {s : State} {part : Nat} {stage2 : Bool} {i : Inval} {rest : List Inval}
    (hi : s.invalsOf part stage2 = i :: rest) (hb : s.blockers i = 0) :
    ∃ r, s.completeInval part stage2 = ((countedInval s part stage2 i).logPut part stage2 r).takeInval part stage2 := by
  refine ⟨(countedInval s part stage2 i).logRecord true stage2 i.page i.pages i.die i.core (Config.timing s.fresh), ?_⟩
  unfold State.completeInval
  rw [hi]
  exact if_neg (not_not_intro hb)

/-- COUNT of INVCTL is no register of the log. -/
theorem countedInval_logPut_count (s : State) (part r : Nat) (stage2 : Bool) (i : Inval) {w : Window} {o : Nat}
    (hw : State.invWindow part stage2 = (w, o)) :
    ((countedInval s part stage2 i).logPut part stage2 r).reg w (o + 0x18) = s.reg w (o + 0x18) + 1 := by
  have hc : (countedInval s part stage2 i).reg w (o + 0x18) = s.reg w (o + 0x18) + 1 := by
    show State.reg (State.setReg _ (State.invWindow part stage2).1 ((State.invWindow part stage2).2 + 0x18) _) w (o + 0x18) = _
    rw [hw]
    exact reg_setReg_same _ _ _ _
  rw [← hc]
  cases stage2 <;> cases hw <;> exact logPut_reg_other (by simp [logWindow, logBase, Window.regKey]) (by simp [logWindow, logBase, Window.regKey])

/-- What the log leaves of a completed request. -/
theorem countedInval_logPut_frame (s : State) (part r : Nat) (stage2 : Bool) (i : Inval) :
    let u := (countedInval s part stage2 i).logPut part stage2 r
    u.invals = s.invals.erase i ∧ u.invalWaits = s.invalWaits ∧ u.pins = s.pins ∧ u.agents = s.agents ∧
      u.interrupts = s.interrupts ++ [.invalidated part stage2 i.die i.core] := by
  intro u
  obtain ⟨d, x, g, hu⟩ := logPut_frame (countedInval s part stage2 i) part stage2 r
  rw [show u = _ from hu]
  exact ⟨rfl, rfl, rfl, rfl, rfl⟩

/-- What a request of stage 2 covers. -/
theorem covers_stage2 {i : Inval} (hi : i.stage2 = true) (x : Walked) : State.covers i x =
    (decide (x.part = i.part) && x.stage2 && (decide (i.pages = 0) ||
      (decide (i.page ≤ x.page) && decide (x.page + x.pages ≤ i.page + i.pages)))) := by
  simp [State.covers, hi]

section Completion

variable {s : State} {part : Nat} {stage2 : Bool} {i : Inval} {rest : List Inval} (hi : s.invalsOf part stage2 = i :: rest)
  (hb : s.blockers i = 0)

include hi hb

theorem completeInval_count {w : Window} {o : Nat} (hw : State.invWindow part stage2 = (w, o)) :
    (s.completeInval part stage2).reg w (o + 0x18) = s.reg w (o + 0x18) + 1 := by
  obtain ⟨r, hr⟩ := completeInval_logged hi hb
  obtain ⟨_, _, _, _, hf⟩ := takeInval_frame ((countedInval s part stage2 i).logPut part stage2 r) part stage2
  rw [hr, hf]
  exact countedInval_logPut_count s part r stage2 i hw

theorem completeInval_interrupts :
    (s.completeInval part stage2).interrupts = s.interrupts ++ [.invalidated part stage2 i.die i.core] := by
  obtain ⟨r, hr⟩ := completeInval_logged hi hb
  obtain ⟨_, _, _, _, hf⟩ := takeInval_frame ((countedInval s part stage2 i).logPut part stage2 r) part stage2
  obtain ⟨-, -, -, -, hn⟩ := countedInval_logPut_frame s part r stage2 i
  rw [hr, hf]
  exact hn

/-- A log of stage 2 walks no table, so that what is covered stays forgotten. -/
theorem completeInval_walked (h2 : stage2 = true) :
    (s.completeInval part stage2).walked = s.walked.filter fun x => !State.covers i x := by
  obtain ⟨r, hr⟩ := completeInval_logged hi hb
  obtain ⟨_, _, _, _, hf⟩ := takeInval_frame ((countedInval s part stage2 i).logPut part stage2 r) part stage2
  rw [hr, hf, h2]
  exact logPut_walked_stage2 _ _ _

theorem completeInval_alone (hj : (s.invalWaits.find? fun j => j.part = part && j.stage2 = stage2) = none) :
    (s.completeInval part stage2).invals = s.invals.erase i ∧ (s.completeInval part stage2).invalWaits = s.invalWaits := by
  obtain ⟨r, hr⟩ := completeInval_logged hi hb
  obtain ⟨hui, huw, -, -, -⟩ := countedInval_logPut_frame s part r stage2 i
  rw [hr, takeInval_none (by rw [huw]; exact hj)]
  exact ⟨hui, huw⟩

/-- A write of GO that waited is queued in its place. -/
theorem completeInval_taking {j : Inval} (hj : (s.invalWaits.find? fun j => j.part = part && j.stage2 = stage2) = some j) :
    (s.completeInval part stage2).invals = s.invals.erase i ++ [j] ∧
      (s.completeInval part stage2).invalWaits = s.invalWaits.erase j ∧ Begun j s (s.completeInval part stage2) := by
  obtain ⟨r, hr⟩ := completeInval_logged hi hb
  obtain ⟨hui, huw, hup, hua, -⟩ := countedInval_logPut_frame s part r stage2 i
  rw [hr, takeInval_some (by rw [huw]; exact hj), huw]
  exact ⟨congrArg (· ++ [j]) hui, rfl, (beginInval_begun _ j).congr hup hua⟩

end Completion

/-! ### Edits of a table (R488) -/

theorem walkedAt_unread {s : State} {part : Nat} {stage2 : Bool} {addr : Nat} (page pages : Nat)
    (h : (s.walked.filter fun x => x.part = part && x.stage2 = stage2 && x.word = addr) = []) :
    s.walkedAt part stage2 addr page pages = none := by
  simp [State.walkedAt, h]

/-- Of several ranges, the one named is found, or else the oldest (log entry 121). -/
theorem walkedAt_read {s : State} {part : Nat} {stage2 : Bool} {addr page pages : Nat} {x : Walked}
    (hx : x ∈ s.walked.filter fun x => x.part = part && x.stage2 = stage2 && x.word = addr)
    (h : (x.page = page ∧ x.pages = pages) ∨
      ((s.walked.filter fun x => x.part = part && x.stage2 = stage2 && x.word = addr).head? = some x ∧
        ∀ y ∈ s.walked.filter fun x => x.part = part && x.stage2 = stage2 && x.word = addr, ¬ (y.page = page ∧ y.pages = pages))) :
    s.walkedAt part stage2 addr page pages = some x := by
  unfold State.walkedAt
  dsimp only
  generalize hl : (s.walked.filter fun x => x.part = part && x.stage2 = stage2 && x.word = addr) = l at *
  have hmem : ∀ y ∈ l, (y.part = part ∧ y.stage2 = stage2) ∧ y.word = addr := by
    intro y hy
    rw [← hl] at hy
    simpa using (List.mem_filter.1 hy).2
  cases hf : l.find? fun w => decide (w.page = page) && decide (w.pages = pages) with
  | none =>
    have hnone := List.find?_eq_none.1 hf
    rcases h with hn | ⟨hhead, -⟩
    · exact absurd (by simpa using hn) (hnone x hx)
    · exact hhead
  | some y =>
    have hy := List.mem_of_find?_eq_some hf
    have hyn : y.page = page ∧ y.pages = pages := by simpa using List.find?_some hf
    rcases h with hn | ⟨-, hnot⟩
    · obtain ⟨⟨hxp, hxs⟩, hxw⟩ := hmem x hx
      obtain ⟨⟨hyp, hys⟩, hyw⟩ := hmem y hy
      cases x; cases y
      simp_all
    · exact absurd hyn (hnot y hy)

section Edit

variable {s : State} {part addr page pages : Nat} (v : Dword) (die core : Nat) (ha : addr % 8 = 0) (hi : addr < s.installed)

include ha hi

theorem editTable_unread (h : s.walkedAt part true addr page pages = none) :
    s.editTable part true addr v page pages die core = { s with dev := s.dev.write addr 8 v.toNat } := by
  have hw : State.walkedAt { s with dev := s.dev.write addr 8 v.toNat } part true addr page pages = none := h
  unfold State.editTable
  rw [if_neg (not_not_intro ha), if_pos rfl, if_neg (Nat.not_le.2 hi)]
  simp only [hw]

theorem editTable_read {x : Walked} (h : s.walkedAt part true addr page pages = some x) :
    s.editTable part true addr v page pages die core = State.logPut { s with dev := s.dev.write addr 8 v.toNat } part true
      (s.logRecord false true x.page x.pages die core 0) := by
  have hw : State.walkedAt { s with dev := s.dev.write addr 8 v.toNat } part true addr page pages = some x := h
  unfold State.editTable
  rw [if_neg (not_not_intro ha), if_pos rfl, if_neg (Nat.not_le.2 hi)]
  simp only [hw]
  rfl

end Edit

/-- A log of stage 2 whose slot an error has struck sets its fault flag. -/
theorem logPut_struck {s : State} {part r : Nat} (h : s.struck (.dev (logSlot s part true) false) 32 = true) :
    (s.logPut part true r).dev = s.dev ∧ bitAt ((s.logPut part true r).reg (.part part) 0xD8) 0 = true := by
  rw [logPut_lost ((ringStore_physical s part (logSlot s part true) 32 r).trans (if_pos h))]
  refine ⟨setField_dev .., ?_⟩
  rw [logWindow_stage2, logBase_stage2, State.setField, reg_setReg_same, bitAt, getLsbD_setBits]
  rfl

/-- Otherwise the record stands in its slot and is counted. -/
theorem logPut_good {s : State} {part r : Nat} (h : s.struck (.dev (logSlot s part true) false) 32 = false) :
    (s.logPut part true r).reg (.part part) 0xC8 = s.reg (.part part) 0xC8 + 1 ∧
      (s.logPut part true r).dev = s.dev.write (logSlot s part true) 32 r := by
  obtain ⟨u, hu, hut⟩ := logPut_stored ((ringStore_physical s part (logSlot s part true) 32 r).trans (if_neg (by simp [h])))
  rw [hu, logWindow_stage2, logBase_stage2, bump_reg, bump_dev]
  rcases hut with rfl | rfl
  · rw [reg_withDev, dev_withDev]
    exact ⟨rfl, rfl⟩
  · rw [setField_reg_other _ _ _ _ _ _ _ _ (by simp [Window.regKey, logWindow, logBase]), setField_dev, reg_withDev, dev_withDev]
    exact ⟨rfl, rfl⟩

/-! ### The statement -/

theorem exec_partitionCreate (n : Nat) (s : State) : exec (.partitionCreate n) s = .next (s.createPart n) := rfl
theorem exec_partitionDestroy (n : Nat) (s : State) : exec (.partitionDestroy n) s = .next (s.destroyPart n) := rfl
theorem exec_registerWrite (w : Window) (off : Nat) (v : Dword) (epoch : Nat) (s : State) :
    exec (.registerWrite w off v epoch) s = .next (s.registerWrite w off v epoch) := rfl
theorem exec_invalidateGo (n : Nat) (stage2 : Bool) (die core : Nat) (s : State) :
    exec (.invalidateGo n stage2 die core) s = .next (s.invalidate n stage2 die core) := rfl
theorem exec_invalidationComplete (n : Nat) (stage2 : Bool) (s : State) :
    exec (.invalidationComplete n stage2) s = .next (s.completeInval n stage2) := rfl
theorem exec_ptEditRecord (n : Nat) (stage2 : Bool) (addr : Nat) (v : Dword) (page pages die core : Nat) (s : State) :
    exec (.ptEditRecord n stage2 addr v page pages die core) s = .next (s.editTable n stage2 addr v page pages die core) := rfl

/-- Settles O51, clause by clause from what each event comes to; a shoot-down's clauses are those of `Begun`. -/
theorem partitionsAreCreatedDestroyedAndConfigured : Obligations.PartitionsAreCreatedDestroyedAndConfigured := by
  intro s n off epoch page pages die core addr stage2 v hn1 hn36 state cleared bays
  refine ⟨fun hb => ?_, fun hb h => ?_, fun hs hb hf => ?_, fun hs => ?_, fun w hw => ?_, fun hs => ?_, fun he => ?_, ?_, fun ha hi => ?_⟩
  · rw [exec_partitionCreate, createPart_none hn1 hn36 hb]
  · rw [exec_partitionCreate, createPart_taken hn1 hn36 hb h]
  · rw [exec_partitionCreate, createPart_free hn1 hn36 hb hs hf]
    refine ⟨_, rfl, setField_bitsAt_same _ _ _ _ _ _ (by decide), createdPart_ownerOf s n, createdPart_cleared s hn36,
      createdPart_dev s n, fun d hd => ?_⟩
    rw [createdPart_pins]
    exact pinLimits_field List.filter_sublist hd
  · rw [exec_partitionDestroy, destroyPart_live hn1 hn36 hs]
    exact ⟨_, rfl, freedPart_state s n, freedPart_cleared s n, fun b hb => freedPart_ownerOf hb, freedPart_key s n⟩
  · rw [exec_registerWrite, registerWrite_plain v epoch hn1 hn36 hw]
    exact ⟨_, rfl, fun i hi => maskedWrite_bit _ _ _ hi⟩
  · rw [exec_registerWrite, registerWrite_pbays v epoch hs]
  · rw [exec_registerWrite, registerWrite_hold_refused off v he]
    rfl
  · intro w o mine new within mark begun
    have hw : State.invWindow n stage2 = (w, o) := by cases stage2 <;> rfl
    have hmark (i : Inval) (hp : i.part = n) (hg : i.stage2 = stage2) : mark i = State.markPin i := by
      funext p
      rw [markPin_eq, hp, hg]
      rfl
    have hbegun (i : Inval) (t : State) (hp : i.part = n) (hg : i.stage2 = stage2) (h : Begun i s t) : begun i t := by
      unfold begun
      rwa [hmark i hp hg]
    refine ⟨fun h => ?_, fun h => ?_, fun i rest hm => ⟨fun hb => ?_, fun hb => ?_⟩⟩
    · rw [exec_invalidateGo, invalidate_full die core h hw]
    · rw [exec_invalidateGo, invalidate_queued die core h hw]
      exact ⟨_, rfl, rfl, hbegun new _ rfl rfl (beginInval_begun s new), rfl, rfl⟩
    · rw [exec_invalidationComplete, completeInval_blocked hm hb]
    · have hi : i ∈ mine := hm ▸ List.mem_cons_self
      obtain ⟨hp, hg⟩ : i.part = n ∧ i.stage2 = stage2 := by simpa using (List.mem_filter.1 hi).2
      rw [exec_invalidationComplete]
      refine ⟨_, rfl, completeInval_count hm hb hw, completeInval_interrupts hm hb, fun h2 => ?_, ?_⟩
      · refine (completeInval_walked hm hb h2).trans (List.filter_congr fun x _ => ?_)
        rw [covers_stage2 (hg.trans h2), hp]
      · split
        · next hj => exact completeInval_alone hm hb hj
        · next j hj =>
          obtain ⟨hjp, hjg⟩ : j.part = n ∧ j.stage2 = stage2 := by simpa using List.find?_some hj
          obtain ⟨hji, hjw, hjb⟩ := completeInval_taking hm hb hj
          exact ⟨hji, hjw, hbegun j _ hjp hjg hjb⟩
  · intro base d slot i read named
    refine ⟨fun hr => ?_, fun x hx hn => ?_⟩
    · exact (exec_ptEditRecord ..).trans (congrArg _ (editTable_unread v die core ha hi (walkedAt_unread page pages hr)))
    · have he : exec i s = .next (State.logPut { s with dev := d } n true (s.logRecord false true x.page x.pages die core 0)) :=
        (exec_ptEditRecord ..).trans (congrArg _ (editTable_read v die core ha hi (walkedAt_read hx hn)))
      refine ⟨fun hst => ⟨_, he, logPut_struck hst⟩, fun hst => ?_⟩
      obtain ⟨r, hr, hfields⟩ := logRecord_fields s x.page x.pages die core
      obtain ⟨hshoot, hstage, hcore, hdie, hpages, hpage, htime⟩ := hfields
      obtain ⟨hcount, hdev⟩ := logPut_good (s := { s with dev := d }) (r := s.logRecord false true x.page x.pages die core 0) hst
      refine ⟨_, he, hcount, r, hshoot, hstage, hcore, hdie, hpages, hpage, htime, ?_⟩
      rw [hr]
      exact hdev

end Sys2Proof.Proofs
end

section
/-! SUPPORT. What a turn of the agenda executes (R5, R58, R73, R110, R426, R428, R435, R478, R481, R488). -/

namespace Sys2Proof.Proofs

open Sys2Proof Sys2Proof.Machine Sys2Proof.Laws

/-! ### What a translation depends on -/

section Translation

variable {s t : State} (hr : t.regs = s.regs) (hd : t.dev = s.dev) (hi : t.installed = s.installed) (ht : t.tiers = s.tiers)

include hr in
theorem reg_congr (w : Window) (off : Nat) : t.reg w off = s.reg w off := by
  unfold State.reg
  rw [hr]

include hd hi in
theorem walk2_congr (ipa n level table : Nat) : t.walk2 ipa n level table = s.walk2 ipa n level table := by
  induction n generalizing level table with
  | zero => rfl
  | succ n ih => simp only [State.walk2, hd, hi, ih]

include hr hd hi in
theorem stage2_congr (part ipa : Nat) (u : Use) : t.stage2 part ipa u = s.stage2 part ipa u := by
  simp only [State.stage2, walk2_congr hd hi, reg_congr hr, hi]

include ht in
theorem granuleOwner_congr (phys : Nat) : t.granuleOwner phys = s.granuleOwner phys := by
  unfold State.granuleOwner
  rw [ht]

include hr hd hi ht in
theorem walk1_congr (part va : Nat) (u : Use) (n level table : Nat) (met : List Nat) :
    t.walk1 part va u n level table met = s.walk1 part va u n level table met := by
  induction n generalizing level table met with
  | zero => rfl
  | succ n ih => simp only [State.walk1, granuleOwner_congr ht, stage2_congr hr hd hi, hd, ih]

include hr hd hi ht in
/-- Translation reads the tables in memory, the registers that name them, and the tier map (R405 to R407, R411). -/
theorem translate_congr (part va : Nat) (u : Use) : t.translate part va u = s.translate part va u := by
  simp only [State.translate, walk1_congr hr hd hi ht, reg_congr hr]

include hr hd hi ht in
theorem readVirtual_congr (part n va k : Nat) : t.readVirtual part n va k = s.readVirtual part n va k := by
  induction n generalizing va k with
  | zero => rfl
  | succ n ih => simp only [State.readVirtual, translate_congr hr hd hi ht, hd, ih]

include hr hd hi ht in
theorem commandWords_congr (part a : Nat) : t.commandWords part a = s.commandWords part a := by
  simp only [State.commandWords, readVirtual_congr hr hd hi ht]

include hr hd hi ht in
/-- Whether an access waits depends on the stacks' state as well (R481, R482). -/
theorem rangeBusy_congr (hs : t.starting = s.starting) (hc : t.calibrating = s.calibrating) (part va n : Nat) :
    t.rangeBusy part va n = s.rangeBusy part va n := by
  simp only [State.rangeBusy, State.stackBusy, State.stackOf, State.fitted, translate_congr hr hd hi ht, reg_congr hr, ht, hs, hc]

end Translation

/-! ### A turn and its step -/

theorem step_exec {s t : State} {i : Instr} (h : s.nextAction = .exec i t) : step s = exec i t := by
  simp only [step, h]

theorem step_still {s t : State} (h : s.nextAction = .still t) : step s = .next t := by
  simp only [step, h]

theorem nextAction_agent {s : State} {rest : List Turn} {f : Nat} {push : Bool}
    (h : s.agenda = (if push then Turn.push f else Turn.run f) :: rest) :
    s.nextAction = State.agentTurn { s with agenda := rest, defer := push } f := by
  cases push <;> simp only [State.nextAction, h, Bool.false_eq_true, if_false, if_true]

theorem nextAction_queue {s : State} {rest : List Turn} {die slot : Nat} (h : s.agenda = .queue die slot :: rest) :
    s.nextAction = State.queueTurn { s with agenda := rest, defer := false } die slot := by
  simp only [State.nextAction, h]

theorem nextAction_event {s : State} {rest : List Turn} {i : Instr} (h : s.agenda = .event i :: rest) (hw : i.isWord = false)
    (hc : i.isCommand = false) (hf : i.wf = true) : s.nextAction =
      if State.imageFor i ∈ s.failed then .still { s with agenda := rest }
      else .exec i { s with agenda := rest, cur := .nobody, defer := false } := by
  simp only [State.nextAction, h, hw, hc, hf, Bool.or_false, Bool.not_true, Bool.false_eq_true, if_false, List.contains_iff_mem]

/-! ### An agent's turn (R73, R76, R110) -/

/-- A number of four bytes is the word they make (R5). -/
theorem wordOfBytes_read (m : Mem) (a : Nat) :
    wordOfBytes (m.get a) (m.get (a + 1)) (m.get (a + 2)) (m.get (a + 3)) = BitVec.ofNat 32 (m.read a 4) := by
  unfold wordOfBytes
  simp only [Mem.read]
  congr 1
  ring

theorem agentTurn_still {s : State} {f : Nat} (hf : f < 2340)
    (h : s.acts f = false ∨ (s.ctx f).debugReq ≠ 0 ∨ s.awaitsStream f = true) : s.agentTurn f = .still { s with cur := .agent f } := by
  unfold State.agentTurn
  rw [if_neg (Nat.not_le.2 hf)]
  refine if_pos ?_
  simpa [or_assoc] using h

theorem agentTurn_break {s : State} {f : Nat} (hf : f < 2340) (ha : s.acts f = true) (hd : (s.ctx f).debugReq = 0)
    (hs : s.awaitsStream f = false) (hp : (s.ctx f).passBreak = false) (hb : s.breakAt f ≠ none) :
    s.agentTurn f = .exec (.breakpointHit f) { s with cur := .agent f } := by
  have hsome := Option.isSome_iff_ne_none.2 hb
  unfold State.agentTurn
  rw [if_neg (Nat.not_le.2 hf), if_neg (by simp [ha, hd, hs]), if_pos (by simp [hp, hsome])]

/-- The turn of an agent that nothing keeps from fetching the word at its program counter. -/
noncomputable def fetchTurn (s : State) (f : Nat) : Action :=
  let t : State := { s with cur := .agent f }
  if (s.ctx f).pc % 4 ≠ 0 then .still (t.trapHere f (.align (s.ctx f).pc))
  else if !State.insideImage (s.ctx f) then .exec .fetchOutsideImage t
  else if s.fetchBusy f then .still t
  else
    match s.fetchWord f with
    | .error e => .still ((t.fetched f).trapHere f e)
    | .ok w =>
      match decode w with
      | .ok i => .exec i (t.fetched f)
      | .error _ => .exec (.illegalInstruction w) (t.fetched f)

theorem agentTurn_fetch {s : State} {f : Nat} (hf : f < 2340) (ha : s.acts f = true) (hd : (s.ctx f).debugReq = 0)
    (hs : s.awaitsStream f = false) (hb : (s.ctx f).passBreak = true ∨ s.breakAt f = none) : s.agentTurn f = fetchTurn s f := by
  have hbreak : ¬ (!(s.ctx f).passBreak && (s.breakAt f).isSome) = true := by
    rcases hb with hb | hb <;> simp [hb]
  unfold State.agentTurn
  rw [if_neg (Nat.not_le.2 hf), if_neg (by simp [ha, hd, hs]), if_neg hbreak]
  unfold fetchTurn
  cases s.fetchWord f with
  | error e => rfl
  | ok w => cases decode w <;> rfl

theorem fetchTurn_misaligned {s : State} {f : Nat} (hpc : (s.ctx f).pc % 4 ≠ 0) :
    fetchTurn s f = .still (State.trapHere { s with cur := .agent f } f (.align (s.ctx f).pc)) := by
  unfold fetchTurn
  rw [if_pos hpc]

theorem fetchTurn_outside {s : State} {f : Nat} (hpc : (s.ctx f).pc % 4 = 0) (hlen : (s.ctx f).code.len < (s.ctx f).pc + 4) :
    fetchTurn s f = .exec .fetchOutsideImage { s with cur := .agent f } := by
  unfold fetchTurn
  rw [if_neg (not_not_intro hpc), if_pos (by simp [State.insideImage, hlen])]

/-- The four bytes where the program counter translates to are the word fetched. -/
theorem fetchWord_ok {s : State} {f : Nat} {x : Xlat} (hx : s.translate (s.partOf f) ((s.ctx f).code.base + (s.ctx f).pc) .fetch = .ok x) : s.fetchWord f =
    .ok (wordOfBytes (s.dev.get x.phys) (s.dev.get (x.phys + 1)) (s.dev.get (x.phys + 2)) (s.dev.get (x.phys + 3))) := by
  simp only [State.fetchWord, hx, wordOfBytes_read]

section Fetch

variable {s : State} {f : Nat} (hpc : (s.ctx f).pc % 4 = 0) (hlen : (s.ctx f).pc + 4 ≤ (s.ctx f).code.len)

include hpc hlen

theorem fetchTurn_busy (hb : s.fetchBusy f = true) : fetchTurn s f = .still { s with cur := .agent f } := by
  unfold fetchTurn
  rw [if_neg (not_not_intro hpc), if_neg (by simp [State.insideImage, hlen]), if_pos hb]

theorem fetchTurn_fault {e : Trap} (hb : s.fetchBusy f = false)
    (he : s.translate (s.partOf f) ((s.ctx f).code.base + (s.ctx f).pc) .fetch = .error e) :
    fetchTurn s f = .still ((State.fetched { s with cur := .agent f } f).trapHere f e) := by
  have hw : s.fetchWord f = .error e := by simp only [State.fetchWord, he]
  unfold fetchTurn
  rw [if_neg (not_not_intro hpc), if_neg (by simp [State.insideImage, hlen]), if_neg (by simp [hb]), hw]

theorem fetchTurn_decodes {w : Word} {i : Instr} (hb : s.fetchBusy f = false) (hw : s.fetchWord f = .ok w) (hi : decode w = .ok i) :
    fetchTurn s f = .exec i (State.fetched { s with cur := .agent f } f) := by
  unfold fetchTurn
  rw [if_neg (not_not_intro hpc), if_neg (by simp [State.insideImage, hlen]), if_neg (by simp [hb]), hw]
  simp only [hi]

theorem fetchTurn_illegal {w : Word} {r : Reject} (hb : s.fetchBusy f = false) (hw : s.fetchWord f = .ok w) (hr : decode w = .error r) :
    fetchTurn s f = .exec (.illegalInstruction w) (State.fetched { s with cur := .agent f } f) := by
  unfold fetchTurn
  rw [if_neg (not_not_intro hpc), if_neg (by simp [State.insideImage, hlen]), if_neg (by simp [hb]), hw]
  simp only [hr]

end Fetch

/-! ### A queue's turn (R426, R428, R435) -/

/-- A queue that its front end goes on with: it runs, and no fence, hold, fault or stack that is not ready keeps it from its next command, or a
command is in execution. -/
def QueueGoes (s : State) (die slot : Nat) : Prop :=
  let q := s.queue die slot
  q.live = true ∧ q.running = true ∧ s.fenced.contains die = false ∧ s.holdState ≠ 2 ∧
  (q.busy = true ∨ q.hold = false ∧ s.holdState = 0 ∧ q.pendFault = none) ∧
  s.rangeBusy q.part (s.reg (.queue die slot) 0x08).toNat 320 = false

theorem fetchCommand_word {s : State} {die slot a : Nat} {w lo hi : Word} (hb : s.rangeBusy (s.queue die slot).part a 12 = false)
    (hw : s.commandWords (s.queue die slot).part a = .ok (w, lo, hi)) : s.fetchCommand die slot a =
      .word ((s.noteWalk (s.queue die slot).part (s.reg (.queue die slot) 0x08).toNat).noteWalk (s.queue die slot).part a) w lo hi := by
  simp only [State.fetchCommand, hb, hw, Bool.false_eq_true, if_false]

section Next

variable {s : State} {die slot : Nat} (h : QueueGoes s die slot)

include h

theorem QueueGoes.not_idle : ¬ (!(s.queue die slot).live || !(s.queue die slot).running || s.fenced.contains die || s.asleep ||
    (!(s.queue die slot).busy && ((s.queue die slot).hold || decide (s.holdState ≠ 0))) ||
    s.rangeBusy (s.queue die slot).part (s.reg (.queue die slot) 0x08).toNat 320) = true := by
  obtain ⟨hl, hr, hf, hh, hb, hk⟩ := h
  have hgo : (!(s.queue die slot).busy && ((s.queue die slot).hold || decide (s.holdState ≠ 0))) = false := by
    rcases hb with hb | ⟨hb, h0, -⟩
    · simp [hb]
    · simp [hb, h0]
  rw [hl, hr, hf, hgo, hk, State.asleep, decide_eq_false hh]
  decide

theorem QueueGoes.no_fault : (if (s.queue die slot).busy = true then none else (s.queue die slot).pendFault) = none := by
  obtain ⟨-, -, -, -, hb, -⟩ := h
  rcases hb with hb | ⟨-, -, hb⟩ <;> simp [hb]

/-- In call mode the command at its program counter is next. -/
theorem nextCommand_call (hs : (s.queue die slot).stack ≠ []) :
    s.nextCommand die slot = s.fetchCommand die slot (s.queue die slot).pc := by
  unfold State.nextCommand
  dsimp only
  rw [if_neg h.not_idle, h.no_fault]
  exact if_pos (by simpa using hs)

/-- In ring mode the next is the one at its position, where it has been published whole. -/
theorem nextCommand_ring {a prod : Nat} {w lo hi : Word} (hs : (s.queue die slot).stack = [])
    (hl : (s.queue die slot).atLink = false) (ha : (s.queue die slot).segment = some a) (hok : State.segmentOk (s.queue die slot) a = true)
    (hb : s.rangeBusy (s.queue die slot).part (a + (s.queue die slot).pos % 65520) 12 = false)
    (hp : s.readWord (s.queue die slot).part ((s.reg (.queue die slot) 0x08).toNat + 32) 8 = .ok prod)
    (h4 : (s.queue die slot).pos + 4 ≤ prod) (hlen : (s.queue die slot).pos + State.commandLength w ≤ prod)
    (hw : s.commandWords (s.queue die slot).part (a + (s.queue die slot).pos % 65520) = .ok (w, lo, hi)) :
    s.nextCommand die slot = .word (((s.setQueue die slot (s.queue die slot)).noteWalk (s.queue die slot).part
      (s.reg (.queue die slot) 0x08).toNat).noteWalk (s.queue die slot).part (a + (s.queue die slot).pos % 65520)) w lo hi := by
  have hq : { s.queue die slot with segment := some a } = s.queue die slot := by rw [← ha]
  have hat : (s.queue die slot).at' = a + (s.queue die slot).pos % 65520 := by
    simp [Queue.at', hs, hl, ha, segmentBytes]
  have hfetch := fetchCommand_word (s := s.setQueue die slot (s.queue die slot)) (die := die) (slot := slot)
    (a := a + (s.queue die slot).pos % 65520) (w := w) (lo := lo) (hi := hi)
    (by
      rw [queue_setQueue_same, rangeBusy_congr (setQueue_regs ..) (setQueue_dev ..) (setQueue_installed ..) (setQueue_tiers ..)
        (setQueue_starting ..) (setQueue_calibrating ..)]
      exact hb)
    (by
      rw [queue_setQueue_same, commandWords_congr (setQueue_regs ..) (setQueue_dev ..) (setQueue_installed ..) (setQueue_tiers ..)]
      exact hw)
  rw [queue_setQueue_same, reg_setQueue] at hfetch
  have hring : ¬ (!(s.queue die slot).stack.isEmpty) = true := by simp [hs]
  dsimp only at hq
  unfold State.nextCommand
  dsimp only
  rw [if_neg h.not_idle, h.no_fault]
  dsimp only
  rw [if_neg hring, ha]
  dsimp only
  rw [hq, queue_setQueue_same, hok, hp, hl, hat, hfetch]
  simp only [Bool.not_true, Bool.not_false, Bool.true_and, Bool.false_eq_true, if_false, decide_eq_true_eq, Nat.not_lt.2 h4, Nat.not_lt.2 hlen]

end Next

/-- A command that is fetched and decodes, where no link has to stand, is executed. -/
theorem queueTurn_executes {s t : State} {die slot : Nat} {w lo hi : Word} {i : Instr} (hd : die < 4) (hs : slot < 64)
    (hn : State.nextCommand { s with cur := .queue die slot } die slot = .word t w lo hi) (hi' : decodeCommand w lo hi = .ok i)
    (hl : (t.queue die slot).stack ≠ [] ∨ (t.queue die slot).atLink = false) : s.queueTurn die slot = .exec i t := by
  have hlink : ((t.queue die slot).atLink && (t.queue die slot).stack.isEmpty && decide (bitsAt w 24 8 ≠ 0x1E)) = false := by
    rcases hl with hl | hl <;> simp [hl]
  unfold State.queueTurn
  rw [if_neg (by simp; omega)]
  simp only [hn, hi', hlink, Bool.false_eq_true, if_false]

theorem queue_noteWalk (s : State) (part va die slot : Nat) : (s.noteWalk part va).queue die slot = s.queue die slot := by
  obtain ⟨w, hw⟩ := noteWalk_frame s part va
  rw [hw]
  rfl

/-! ### The statement -/

/-- Settles O56: the agent's clauses by the guards of its turn in their order, the queue's by what its front end fetches, the event's by
the agenda. -/
theorem stepRunsTheDecodedInstruction : Obligations.StepRunsTheDecodedInstruction := by
  refine ⟨?_, ?_, ?_⟩
  · intro s rest f push hag u t c hf
    have hstep := nextAction_agent hag
    refine ⟨fun h => step_still (hstep.trans (agentTurn_still hf h)), fun ha hd hs => ⟨fun hp hb => ?_, fun hb => ?_⟩⟩
    · exact step_exec (hstep.trans (agentTurn_break hf ha hd hs hp hb))
    · have hfetch : s.nextAction = fetchTurn u f := hstep.trans (agentTurn_fetch hf ha hd hs hb)
      refine ⟨fun hpc => step_still (hfetch.trans (fetchTurn_misaligned hpc)),
        fun hpc hlen => step_exec (hfetch.trans (fetchTurn_outside hpc hlen)), fun hpc hlen => ⟨fun hb => ?_, fun hb => ⟨fun e he => ?_, ?_⟩⟩⟩
      · exact step_still (hfetch.trans (fetchTurn_busy hpc hlen hb))
      · exact step_still (hfetch.trans (fetchTurn_fault hpc hlen hb he))
      · intro x hx byte word
        have hw := fetchWord_ok hx
        exact ⟨fun i hi => step_exec (hfetch.trans (fetchTurn_decodes hpc hlen hb hw hi)),
          fun r hr => step_exec (hfetch.trans (fetchTurn_illegal hpc hlen hb hw hr))⟩
  · intro s rest die slot hag hdie hslot t q hlive hrun hfence hhold hgo block free walked
    have hstep := nextAction_queue hag
    have hwalked (u : State) (a : Nat) : (walked u a).queue die slot = u.queue die slot := by
      show ((u.noteWalk q.part block).noteWalk q.part a).queue die slot = _
      rw [queue_noteWalk, queue_noteWalk]
    refine ⟨fun hs w lo hi i hfree hw hi' => ?_, fun hs hl a prod w lo hi i ha hok hfree hp h4 hlen hw hi' => ?_⟩
    · obtain ⟨hb, hb12⟩ := hfree
      have hnext := (nextCommand_call ⟨hlive, hrun, hfence, hhold, hgo, hb⟩ hs).trans (fetchCommand_word hb12 hw)
      have hend : ((walked t q.pc).queue die slot).stack ≠ [] ∨ ((walked t q.pc).queue die slot).atLink = false := by
        rw [hwalked]
        exact Or.inl hs
      exact step_exec (hstep.trans (queueTurn_executes hdie hslot hnext hi' hend))
    · obtain ⟨hb, hb12⟩ := hfree
      have hnext := nextCommand_ring ⟨hlive, hrun, hfence, hhold, hgo, hb⟩ hs hl ha hok hb12 hp h4 hlen hw
      have hend : ((walked (t.setQueue die slot q) (a + q.pos % 65520)).queue die slot).stack ≠ [] ∨
          ((walked (t.setQueue die slot q) (a + q.pos % 65520)).queue die slot).atLink = false := by
        rw [hwalked, queue_setQueue_same]
        exact Or.inr hl
      exact step_exec (hstep.trans (queueTurn_executes hdie hslot hnext hi' hend))
  · intro s rest i hag hw hc hf
    have hnext := nextAction_event hag hw hc hf
    split
    · next h => exact step_still (hnext.trans (if_pos h))
    · next h => exact step_exec (hnext.trans (if_neg h))

end Sys2Proof.Proofs
end

section
/-! SUPPORT. What a vector instruction comes to that performs no element: refused at decode (R445 steps 1 and 2) or at issue (steps 3 to 5), with
VSTART at or above VL (R41), and on a matrix control core (R71). -/

namespace Sys2Proof.Proofs

open Sys2Proof Sys2Proof.Machine Sys2Proof.Laws Sys2Proof.Safety

/-! ### A push that is refused -/

/-- A matrix control core has no vector instruction (R71). -/
theorem vector_on_core {s : State} {f : Nat} (op : VOp) (hf : 2304 ≤ f) (hc : s.cur = .agent f) (hl : (s.ctx f).late = none)
    (h : Settled s f) : s.vector op = stopped s f .illegal := by
  have hcore : isCore f = true := decide_eq_true hf
  unfold State.vector
  simp only [hc, hcore, if_true]
  exact trapHere_settled _ hl h

/-- A check at decode that fails stops the context at the instruction (R75, R76). -/
theorem vector_refused {s : State} {f : Nat} {op : VOp} {t : Trap} (h : VectorReady s f [op.sa, op.sb, op.dest])
    (hd : op.decode f (s.ctx f) = some t) (hs : Settled s f) : s.vector op = stopped s f t := by
  obtain ⟨⟨hc, hp, -, hl, -⟩, hf, hq, -⟩ := h
  have hlatch : (s.ctx f).latchBad op.reader = false := by simp [Ctx.latchBad, Ctx.latchNext, hq]
  unfold State.vector State.checked
  simp only [hc, not_core hf, hp, hlatch, hd, Bool.false_eq_true, if_false]
  exact trapHere_settled _ hl hs

/-! ### The course of an entry pushed into an empty queue -/

/-- What is left of the configuration under which an entry ran: that of c0 comes back, but where a discard has set it (R36, R449). -/
def restoreConfig (c0 c : Ctx) : Ctx :=
  if c.reverted then { c with reverted := false }
  else { c with vtype := c0.vtype, vtag := c0.vtag, vcarry := c0.vcarry, vfoldop := c0.vfoldop }

theorem restoreConfig_same {c0 c : Ctx} (hr : c.reverted = false) (h : c0.vtype = c.vtype ∧ c0.vtag = c.vtag ∧ c0.vcarry = c.vcarry ∧
    c0.vfoldop = c.vfoldop) : restoreConfig c0 c = c := by
  obtain ⟨h1, h2, h3, h4⟩ := h
  rw [restoreConfig, if_neg (by simp [hr]), h1, h2, h3, h4]

/-- A vector instruction that passes its checks at decode runs at once, under the configuration it was pushed with. -/
theorem vector_runs {s : State} {f : Nat} {op : VOp} (h : VectorReady s f [op.sa, op.sb, op.dest]) (hp : PushOnly op) (h1 : Single op)
    (hd : op.decode f (s.ctx f) = none) : s.vector op =
      (State.runMember op f 0 false (fun c _ => op.limit c) (op.entry (s.ctx f)) (readyState op s f)).modCtx f
        (restoreConfig (pushedCtx op (s.ctx f))) := by
  obtain ⟨-, -, hq, hl, -⟩ := id h
  have hloop := loopCtx_eq (op := op) hp h1 hq hl
  have hleft : (pushedCtx op (s.ctx f)).beginConvoy.convoyLeft ≠ 0 := by
    show (loopCtx op (s.ctx f)).convoyLeft ≠ 0
    rw [hloop]
    exact Nat.one_ne_zero
  obtain ⟨hv, ht, hk, ho⟩ := beginConvoy_config (pushedCtx op (s.ctx f))
  rw [vector_begins (vector_begin h) hd]
  unfold State.runAll State.underEntry readyState
  rw [← hloop]
  simp only [State.modCtx, ctx_setCtx_same, setCtx_setCtx, hleft, if_false, hv, ht, hk, ho]
  rfl

/-- With VSTART at or above VL an entry that has not begun completes with nothing performed (R41). -/
theorem runMember_idle {op : VOp} {f k : Nat} {slots : Bool} {upto : Ctx → Nat → Nat} {e : VqEntry} {s : State} (hb : e.begun = false)
    (hv : (s.ctx f).vl ≤ (s.ctx f).startAt k e) (ha : op.always = false) : State.runMember op f k slots upto e s =
      (op.idle (e.env f ((s.ctx f).startAt k e)) (s.modCtx f State.goOn)).endMember f k { e with first := (s.ctx f).reals } := by
  unfold State.runMember
  dsimp only
  rw [if_pos (by simp [hb, hv, ha])]

/-- A check at issue that fails refuses the entry (R445). -/
theorem runMember_refused {op : VOp} {f k : Nat} {slots : Bool} {upto : Ctx → Nat → Nat} {e : VqEntry} {s : State} {t : Trap}
    (hv : (s.ctx f).startAt k e < (s.ctx f).vl ∨ op.always = true) (hi : op.issue (e.env f ((s.ctx f).startAt k e)) s = some t) :
    State.runMember op f k slots upto e s = s.refuseIssue f k t ((s.ctx f).startAt k e) e := by
  have hgoes : ¬ (!e.begun && decide ((s.ctx f).vl ≤ (s.ctx f).startAt k e) && !op.always) = true := by
    rcases hv with hv | hv
    · simp [Nat.not_le.2 hv]
    · simp [hv]
  unfold State.runMember
  dsimp only
  rw [if_neg hgoes, hi]

/-! ### An empty strip (R41) -/

theorem elementsOf_le_reals (i : Instr) (c : Ctx) : elementsOf i c ≤ c.reals := by
  unfold elementsOf
  split
  · exact Nat.min_le_left _ _
  · exact Nat.min_le_left _ _
  · exact Nat.min_le_left _ _
  · exact Nat.zero_le _
  · exact Nat.le_refl _

/-- With VSTART at or above VL no element group is issued. -/
theorem charged_idle {s : State} {f : Nat} (i : Instr) (h : ¬ HasStrip (s.ctx f)) : charged s f i (elementsOf i (s.ctx f)) = s := by
  have hle : elementsOf i (s.ctx f) ≤ (s.ctx f).vstart :=
    ((elementsOf_le_reals i _).trans (Nat.sub_le _ _)).trans (Nat.not_lt.1 h)
  unfold charged State.groupsBetween State.chargeAlone
  rw [if_pos hle, if_pos rfl]

/-- The one entry of a queue completes, and no sample is taken: the instruction is counted, and VSTART is 0. -/
theorem endMember_one {s : State} {f : Nat} {c0 c : Ctx} {q : VqEntry} (e : VqEntry) (h1 : isChain q.word = false) (hd : q.done = false)
    (ho : c.order = []) (hs : bitAt (s.reg (.cx (s.partOf f)) 0x60) 63 = false) :
    (s.setCtx f (inFlight c0 q c)).endMember f 0 e = (s.modMill (millOf f) fun m => { m with samples := m.samples + 1 }).setCtx f
      { inFlight c0 q c with
        vq := [], convoyLeft := 0, convoyHead := if (inFlight c0 q c).debugReq = 0 then 0 else c0.pc,
        convoyCount := if (inFlight c0 q c).debugReq = 0 then 0 else 1, vstart := 0, instret := c.instret + 1 } := by
  unfold State.endMember
  rw [sample_off (s := s.setCtx f (inFlight c0 q c)) e _ hs, modMill_setCtx, modCtx_setCtx, complete_one (c := inFlight c0 q c) (q := q) h1 rfl hd rfl ho rfl]
  rfl

/-- A vector instruction that passes its checks at decode, with VSTART at or above VL, completes and changes nothing else (R41). -/
theorem vector_idle {s : State} {f : Nat} {op : VOp} (i : Instr) (h : VectorReady s f [op.sa, op.sb, op.dest]) (hp : PushOnly op)
    (h1 : Single op) (hd : op.decode f (s.ctx f) = none) (hv : ¬ HasStrip (s.ctx f)) (ha : op.always = false)
    (hid : ∀ env u, op.idle env u = u) : s.vector op = vnext s f i (s.ctx f) := by
  obtain ⟨-, -, hq, -, -, -, -, hs, -, -, ho⟩ := id h
  have hnext : (s.ctx f).idleNext = true := by
    simp only [Ctx.idleNext, Ctx.stripsNow, hq, Ctx.strips]
    exact decide_eq_true (Nat.not_lt.1 hv)
  have hpush : pushedCtx op (s.ctx f) = State.pushEntry (s.ctx f) (op.entry (s.ctx f)) := if_pos hnext
  have hgo : (readyState op s f).modCtx f State.goOn = beginState op s f := by
    unfold readyState beginState
    rw [modCtx_setCtx]
    rfl
  have hstart : ((readyState op s f).ctx f).vl ≤ ((readyState op s f).ctx f).startAt 0 (op.entry (s.ctx f)) := by
    rw [readyState, ctx_setCtx_same, startAt_one]
    exact Nat.not_lt.1 hv
  rw [vector_runs h hp h1 hd, runMember_idle rfl hstart ha, hid, hgo, beginState,
    endMember_one (q := op.entry (s.ctx f)) _ h1.1 rfl ho hs, modCtx_setCtx, hpush]
  rw [restoreConfig_same (hr := ?_) (h := ?_), vnext, charged_idle i hv]
  · rfl
  · rfl
  · exact ⟨rfl, rfl, rfl, rfl⟩

/-! ### A refusal at issue -/

/-- A trap of the one instruction in flight waits for the next vector instruction (R449). -/
theorem vectorTrap_late {s : State} {f pc elem : Nat} {c : Ctx} {q : VqEntry} {t : Trap} {ethr : Bool} (hq : c.vq = [q])
    (hl : c.convoyLeft = 1) (hd : c.debugReq = 0) (hw : c.wait = none) :
    (s.setCtx f c).vectorTrap f t pc elem ethr = s.setCtx f { c with late := some ⟨t, pc, elem, ethr⟩ } := by
  have hpushed : c.pushed = none := by simp [Ctx.pushed, hq, hl]
  unfold State.vectorTrap
  simp [hpushed, hd, hw]

/-- The entry of an instruction that has not begun, as a refusal at an index leaves it (R448). -/
def refusedEntry (q : VqEntry) (start : Nat) : VqEntry :=
  if start = 0 then q else { q with begun := true, start := start, first := start }

theorem refusedEntry_fields {q : VqEntry} {n : Nat} (hb : q.begun = false) (hs : q.start = 0) :
    (refusedEntry q n).pc = q.pc ∧ (refusedEntry q n).begun = decide (n ≠ 0) ∧ (refusedEntry q n).start = n ∧
      (refusedEntry q n).done = q.done := by
  unfold refusedEntry
  split
  · next h => simp [h, hb, hs]
  · next h => simp [h]

/-- The context whose one instruction in flight, of entry q, has been refused at VSTART: it keeps its place, and its trap waits. -/
def refusedCtx (c : Ctx) (q : VqEntry) (t : Trap) : Ctx :=
  { c with vq := [refusedEntry q c.vstart], late := some ⟨t, q.pc, c.vstart, false⟩ }

theorem keepAt_one {c : Ctx} {q : VqEntry} (hq : c.vq = [q]) (hd : q.done = false) (hb : q.begun = false) (hv : c.vstart ≠ 0) :
    c.keepAt 0 c.vstart c.vstart = { c with vq := [refusedEntry q c.vstart] } := by
  unfold Ctx.keepAt Ctx.atPlace refusedEntry
  simp [Ctx.doneAhead, hq, hd, hb, hv]

theorem refuseIssue_one {s : State} {f : Nat} {c : Ctx} {q : VqEntry} (t : Trap) (hq : c.vq = [q]) (hdone : q.done = false)
    (hb : q.begun = false) (hl : c.convoyLeft = 1) (hd : c.debugReq = 0) (hw : c.wait = none) :
    (s.setCtx f c).refuseIssue f 0 t c.vstart q = s.setCtx f (refusedCtx c q t) := by
  unfold State.refuseIssue refusedCtx
  by_cases hv : c.vstart = 0
  · rw [if_pos hv, vectorTrap_late hq hl hd hw, hq, refusedEntry, if_pos hv]
  · rw [if_neg hv, modCtx_setCtx, keepAt_one hq hdone hb hv]
    exact vectorTrap_late (q := refusedEntry q c.vstart) rfl hl hd hw

/-- A vector instruction that a check at issue refuses meets its trap before any effect (R445). -/
theorem vector_meetsTrap {s : State} {f : Nat} {op : VOp} {i : Instr} {t : Trap} (hexec : exec i s = .next (s.vector op))
    (h : VectorReady s f [op.sa, op.sb, op.dest]) (hp : op.push = id) (h1 : Single op) (hd : op.decode f (s.ctx f) = none)
    (hv : HasStrip (s.ctx f) ∨ op.always = true) (hi : op.issue (envOf op s f) (readyState op s f) = some t) : MeetsTrap s f i t := by
  intro hstep hdebug
  have hpush : pushedCtx op (s.ctx f) = State.pushEntry (s.ctx f) (op.entry (s.ctx f)) := by
    unfold pushedCtx
    rw [hp]
    exact ite_self _
  have hreq : (aboutTo (s.ctx f) (op.entry (s.ctx f)) (s.ctx f)).debugReq = 0 := by
    show (if (s.ctx f).stepping then 3 else (s.ctx f).debugReq) = 0
    rw [hstep, hdebug]
    rfl
  have hstart : ((readyState op s f).ctx f).startAt 0 (op.entry (s.ctx f)) = (s.ctx f).vstart := by
    rw [readyState, ctx_setCtx_same, startAt_one]
  have hvl : ((readyState op s f).ctx f).vl = (s.ctx f).vl := by
    rw [readyState, ctx_setCtx_same]
    rfl
  have hrun : State.runMember op f 0 false (fun c _ => op.limit c) (op.entry (s.ctx f)) (readyState op s f) =
      s.setCtx f (refusedCtx (aboutTo (s.ctx f) (op.entry (s.ctx f)) (s.ctx f)) (op.entry (s.ctx f)) t) := by
    rw [runMember_refused (t := t) (by rw [hstart, hvl]; exact hv) (by rw [hstart]; exact hi), hstart]
    exact refuseIssue_one (c := aboutTo (s.ctx f) (op.entry (s.ctx f)) (s.ctx f)) (q := op.entry (s.ctx f)) t rfl rfl rfl rfl hreq rfl
  obtain ⟨hpc, hbegun, hat, hdone⟩ := refusedEntry_fields (q := op.entry (s.ctx f)) (n := (s.ctx f).vstart) rfl rfl
  refine ⟨refusedEntry (op.entry (s.ctx f)) (s.ctx f).vstart, hpc, hbegun, hat, hdone, ?_⟩
  rw [hexec, vector_runs h (pushOnly_id hp) h1 hd, hrun, modCtx_setCtx, hpush, restoreConfig_same (hr := ?_) (h := ?_)]
  · simp only [refusedCtx, aboutTo, inFlight, hstep, hdebug, Bool.false_eq_true, if_false]
    rfl
  · rfl
  · exact ⟨rfl, rfl, rfl, rfl⟩

/-! ### The checks of `vadd` and `vld` -/

/-- `vadd` and `vld` as the vector instructions they are. -/
abbrev vaddOp (d a b : BitVec 6) (p : BitVec 4) : VOp := arithVv .vadd (Instr.vaddVv d a b p).word d a b p
abbrev vldOp (d : BitVec 6) (w : BitVec 4) (x : BitVec 5) (p : BitVec 4) : VOp :=
  vmemOp (Instr.vld d w x p).word [0] .load d w x.toNat .linear p

theorem exec_vaddVv (d a b : BitVec 6) (p : BitVec 4) (s : State) : exec (.vaddVv d a b p) s = .next (s.vector (vaddOp d a b p)) := rfl
theorem exec_vld (d : BitVec 6) (w : BitVec 4) (x : BitVec 5) (p : BitVec 4) (s : State) :
    exec (.vld d w x p) s = .next (s.vector (vldOp d w x p)) := rfl

/-- A word of another opcode than 0x1E and 0x25 forms a convoy by itself. -/
theorem single_of_opcode {op : VOp} {n : Nat} (h : opOf op.word = n) (h1 : n ≠ 0x1E) (h2 : n ≠ 0x25) : Single op :=
  ⟨by simp [isChain, h, h2], h ▸ h1⟩

theorem opOf_vaddVv (d a b : BitVec 6) (p : BitVec 4) : opOf (Instr.vaddVv d a b p).word = 0x20 := by
  obtain ⟨W, hW, -, hbits⟩ := Encoding.asm_reads 0x80000000 [(d.toNat, 20, 6), (a.toNat, 14, 6), (b.toNat, 8, 6), (p.toNat, 4, 4)]
    [(d.toNat, 20), (a.toNat, 14), (b.toNat, 8), (p.toNat, 4)] [(20, 6), (14, 6), (8, 6), (4, 4)] rfl rfl (by decide +kernel)
    ⟨d.isLt, a.isLt, b.isLt, p.isLt, trivial⟩
  exact (congrArg opOf hW).trans (hbits 26 6 0x20 (by decide))

theorem opOf_vld (d : BitVec 6) (w : BitVec 4) (x : BitVec 5) (p : BitVec 4) : opOf (Instr.vld d w x p).word = 0x2B := by
  obtain ⟨W, hW, -, hbits⟩ := Encoding.asm_reads 0xAC000000 [(d.toNat, 20, 6), (w.toNat, 16, 4), (x.toNat, 11, 5), (p.toNat, 6, 4)]
    [(d.toNat, 20), (w.toNat, 16), (x.toNat, 11), (p.toNat, 6)] [(20, 6), (16, 4), (11, 5), (6, 4)] rfl rfl (by decide +kernel)
    ⟨d.isLt, w.isLt, x.isLt, p.isLt, trivial⟩
  exact (congrArg opOf hW).trans (hbits 26 6 0x2B (by decide))

theorem single_vadd (d a b : BitVec 6) (p : BitVec 4) : Single (vaddOp d a b p) :=
  single_of_opcode (opOf_vaddVv d a b p) (by decide) (by decide)

theorem single_vld (d : BitVec 6) (w : BitVec 4) (x : BitVec 5) (p : BitVec 4) : Single (vldOp d w x p) :=
  single_of_opcode (opOf_vld d w x p) (by decide) (by decide)

/-- The limits of a group that an operand names (R29). -/
def GoodGroup (c : Ctx) (n : Nat) : Prop := n < c.nreg ∧ n % c.g = 0

theorem badGroups_iff {c : Ctx} {ns : List Nat} : c.badGroups ns = true ↔ ¬ ∀ n ∈ ns, GoodGroup c n := by
  simp [Ctx.badGroups, Ctx.groupOk, GoodGroup, imp_iff_not_or]

theorem untagged_iff {c : Ctx} {ns : List Nat} : c.untagged ns = true ↔ ¬ ∀ n ∈ ns, c.tag n ≠ .none := by simp [Ctx.untagged]

theorem isNum_tagged {t : Tag} (h : t.isNum = true) : t ≠ .none := by
  rintro rfl
  exact absurd h (by decide)

theorem vadd_tagsOk {ta tb td : Tag} (ha : ta.isNum = true) (hb : tb.isNum = true) (hd : td.isNum = true) :
    Arith.vadd.tagsBad ta tb td = false := by
  simp [Arith.tagsBad, arithTag, Arith.integerOnly, ha, hb, hd]

section Elementwise

variable {word : Word} {sa d f : Nat} {p : BitVec 4} {ns : List Nat} {tagsBad : Ctx → Bool} {F : Env → Nat → Ctx → Nat × Flags} {c : Ctx}

/-- Groups are checked before tags (R75). -/
theorem elementwise_decode_operand (h : ¬ ∀ n ∈ d :: ns, GoodGroup c n) :
    (elementwise word sa p d ns tagsBad F).decode f c = some .operand := if_pos (badGroups_iff.2 h)

theorem elementwise_decode_tag (hg : ∀ n ∈ d :: ns, GoodGroup c n) (h : ¬ ∀ n ∈ d :: ns, c.tag n ≠ .none) :
    (elementwise word sa p d ns tagsBad F).decode f c = some .tag := by
  have hbad : (c.untagged (d :: ns) || tagsBad c) = true := by rw [untagged_iff.2 h, Bool.true_or]
  exact (if_neg fun hb => badGroups_iff.1 hb hg).trans (if_pos hbad)

theorem elementwise_decode_none (hg : ∀ n ∈ d :: ns, GoodGroup c n) (ht : ∀ n ∈ d :: ns, c.tag n ≠ .none) (hb : tagsBad c = false) :
    (elementwise word sa p d ns tagsBad F).decode f c = none := by
  have hok : ¬ (c.untagged (d :: ns) || tagsBad c) = true := by
    rw [hb, Bool.or_false]
    exact fun hu => untagged_iff.1 hu ht
  exact (if_neg fun hb => badGroups_iff.1 hb hg).trans (if_neg hok)

/-- A group that cannot hold VL elements fails the check of fit at issue (R313). -/
theorem fitTrap_short {op : VOp} {s : State} (h : ∃ n ∈ ns, (s.ctx f).groupBytes < (s.ctx f).vl * ((s.ctx f).tag n).bytes) :
    fitTrap ns (envOf op s f) (readyState op s f) = some .operand := by
  obtain ⟨n, hn, hlt⟩ := h
  have hctx : (readyState op s f).ctx (envOf op s f).f = aboutTo (s.ctx f) (op.entry (s.ctx f)) (s.ctx f) := ctx_setCtx_same ..
  have hfit : (aboutTo (s.ctx f) (op.entry (s.ctx f)) (s.ctx f)).fits
      ((aboutTo (s.ctx f) (op.entry (s.ctx f)) (s.ctx f)).tag n).bytes = false := decide_eq_false (Nat.not_le.2 hlt)
  unfold fitTrap
  rw [hctx]
  exact if_neg fun hall => Bool.false_ne_true (hfit.symm.trans (List.all_eq_true.1 hall n hn))

end Elementwise

section LinearAccess

variable {spaces : List Nat} {acc : Access} {d w : Nat} {c : Ctx}

theorem linear_decode_operand (h : ¬ GoodGroup c d) : vmemDecode spaces acc d w .linear c = some .operand :=
  if_pos (badGroups_iff.2 (by simpa using h))

theorem linear_decode_tag (hg : GoodGroup c d) (h : ¬ c.tag d ≠ .none) : vmemDecode spaces acc d w .linear c = some .tag :=
  (if_neg fun hb => badGroups_iff.1 hb (by simpa using hg)).trans (if_pos (by simpa using h))

/-- A view that is not set passes at decode: it is a check at issue (R190). -/
theorem linear_decode_unset (hg : GoodGroup c d) (ht : c.tag d ≠ .none) (hv : c.view false w = none) :
    vmemDecode spaces acc d w .linear c = none := by
  unfold vmemDecode
  rw [hv]
  exact (if_neg fun hb => badGroups_iff.1 hb (by simpa using hg)).trans (if_neg (by simpa using ht))

end LinearAccess

/-! ### The statement -/

/-- Settles O30: the clauses of `vadd` and of `vld` by the check that each meets first, an empty strip by `vector_idle`, a group too small by
`vector_meetsTrap`, and the matrix control core by `vector_on_core`. -/
theorem vectorChecksComeInOrder : Obligations.VectorChecksComeInOrder := by
  intro s f d a b w p x c good tagged
  have hgroups (P : Nat → Prop) : (∀ n ∈ [d.toNat, a.toNat, b.toNat], P n) ↔ P d.toNat ∧ P a.toNat ∧ P b.toNat := by simp
  refine ⟨fun h => ⟨fun hg hs => ?_, fun hd ha hb ht hs => ?_, fun hd ha hb hnd hna hnb => ?_⟩,
    fun h => ⟨fun hg hs => ?_, fun hg ht hs => ?_, fun hg ht hv hstrip => ?_⟩, fun hf hc hl hs => ⟨?_, ?_⟩⟩
  · rw [exec_vaddVv, vector_refused (op := vaddOp d a b p) h (elementwise_decode_operand (mt (hgroups _).1 hg)) hs]
  · rw [exec_vaddVv, vector_refused (op := vaddOp d a b p) h (elementwise_decode_tag ((hgroups _).2 ⟨hd, ha, hb⟩) (mt (hgroups _).1 ht)) hs]
  · have hdec : (vaddOp d a b p).decode f c = none := elementwise_decode_none ((hgroups _).2 ⟨hd, ha, hb⟩)
      ((hgroups _).2 ⟨isNum_tagged hnd, isNum_tagged hna, isNum_tagged hnb⟩) (vadd_tagsOk hna hnb hnd)
    refine ⟨fun hstrip hshort => ?_, fun hstrip => ?_⟩
    · have hshort' : ∃ n ∈ [d.toNat, a.toNat, b.toNat], c.groupBytes < c.vl * (c.tag n).bytes := by
        obtain ⟨n, hn, hlt⟩ := hshort
        exact ⟨n.toNat, List.mem_map_of_mem hn, hlt⟩
      exact vector_meetsTrap (exec_vaddVv d a b p s) h rfl (single_vadd d a b p) hdec (.inl hstrip) (fitTrap_short hshort')
    · rw [exec_vaddVv, vector_idle (.vaddVv d a b p) h (pushOnly_id rfl) (single_vadd d a b p) hdec hstrip rfl fun _ _ => rfl]
  · rw [exec_vld, vector_refused (op := vldOp d w x p) h (linear_decode_operand (acc := .load) hg) hs]
  · rw [exec_vld, vector_refused (op := vldOp d w x p) h (linear_decode_tag (acc := .load) hg ht) hs]
  · have hdec : (vldOp d w x p).decode f c = none := linear_decode_unset (acc := .load) hg ht hv
    rw [exec_vld, vector_idle (.vld d w x p) h (pushOnly_id rfl) (single_vld d w x p) hdec hstrip rfl fun _ _ => rfl]
  · rw [exec_vaddVv, vector_on_core _ hf hc hl hs]
  · rw [exec_vld, vector_on_core _ hf hc hl hs]

end Sys2Proof.Proofs
end

section
/-! SUPPORT. Decoding and encoding agree in both directions (R59, R62, R68, R73, R423, R424): an instruction decodes from its words by the law of
its own encoding, and a word that decodes is made again from the constants that its decoder checked and the fields that it read. -/

namespace Sys2Proof.Proofs

open Sys2Proof Sys2Proof.Laws

section Words

variable {w : Word} {F : List (Nat × Nat × Nat)} {k lo n v : Nat} {gs L : List (Nat × Nat)}

/-! ### A word and its parts -/

/-- Every part (place, width, value) of the list stands in the word. -/
def Parts (w : Word) (F : List (Nat × Nat × Nat)) : Prop := ∀ p ∈ F, bitsAt w p.1 p.2.1 = p.2.2

/-- The operands that an encoder places, as `asm` takes them, are fields of the word, each put back where it was read; the second list holds
the places and widths. -/
inductive Reread (w : Word) : List (Nat × Nat) → List (Nat × Nat) → Prop
  | nil : Reread w [] []
  | cons {lo n : Nat} {gs L : List (Nat × Nat)} : Reread w gs L → Reread w (((field w lo n).toNat, lo) :: gs) ((lo, n) :: L)

/-- Bit `i` stands in one of the fields. -/
def inField (L : List (Nat × Nat)) (i : Nat) : Bool := L.any fun f => decide (f.1 ≤ i) && decide (i < f.1 + f.2)

/-- Bit `i` stands in a part whose value gives it as `k` does. -/
def inPart (k : Nat) (F : List (Nat × Nat × Nat)) (i : Nat) : Bool :=
  F.any fun p => decide (p.1 ≤ i) && decide (i < p.1 + p.2.1) && (k.testBit i == p.2.2.testBit (i - p.1))

/-- The fields lie in the zeros of the constant `k`, apart from one another, and a part gives every bit outside them as `k` has it. -/
def covers (k : Nat) (L : List (Nat × Nat)) (F : List (Nat × Nat × Nat)) : Bool :=
  decide (k < 2 ^ 32) && Encoding.free k L && (List.range 32).all fun i => inField L i || inPart k F i

theorem parts_nil : Parts w [] := fun _ hp => nomatch hp

theorem field_toNat (w : Word) (lo n : Nat) : (field w lo n).toNat = bitsAt w lo n := BitVec.toNat_ofNat ..

theorem Reread.eq_map (h : Reread w gs L) : gs = L.map fun f => (bitsAt w f.1 f.2, f.1) := by
  induction h with
  | nil => rfl
  | cons _ ih => rw [List.map_cons, ← ih, field_toNat]

theorem bounded_bitsAt (w : Word) (L : List (Nat × Nat)) : Encoding.bounded (L.map fun f => (bitsAt w f.1 f.2, f)) := by
  induction L with
  | nil => trivial
  | cons f L ih => exact ⟨bitsAt_lt w f.1 f.2, ih⟩

theorem reads_mem {x : Nat} {fs : List (Nat × Nat × Nat)} (h : Encoding.reads x fs) : ∀ f ∈ fs, x / 2 ^ f.2.1 % 2 ^ f.2.2 = f.1 := by
  induction fs with
  | nil => simp
  | cons g fs ih =>
    obtain ⟨hg, hr⟩ := h
    simpa using ⟨hg, fun a b c hm => ih hr (a, b, c) hm⟩

/-- A bit of a part of the word is a bit of the part's value. -/
theorem getLsbD_of_bitsAt {i : Nat} (h : bitsAt w lo n = v) (hlo : lo ≤ i) (hi : i < lo + n) : w.getLsbD i = v.testBit (i - lo) := by
  rw [← h, testBit_bitsAt, Nat.add_sub_cancel' hlo]
  simp [show i - lo < n by omega]

theorem apart_of_not_inField {i : Nat} (h : ¬ inField L i = true) : Encoding.apart i 1 L = true := by
  simp only [inField, List.any_eq_true, not_exists, not_and, Bool.and_eq_true, decide_eq_true_eq] at h
  simp only [Encoding.apart, List.all_eq_true, Bool.or_eq_true, decide_eq_true_eq]
  intro f hm
  have hout := h f hm
  omega

/-- A word is made again from its fields and the constant that its parts give. -/
theorem asm_reread (hr : Reread w gs L) (hp : Parts w F) (hc : covers k L F = true) : asm k gs = w := by
  simp only [covers, Bool.and_eq_true, List.all_eq_true, List.mem_range, Bool.or_eq_true] at hc
  obtain ⟨hk, hbits⟩ := hc
  obtain ⟨W, hW, hreads, hrest⟩ := Encoding.asm_reads k (L.map fun f => (bitsAt w f.1 f.2, f)) gs L
    (by rw [hr.eq_map, List.map_map]; rfl) (by rw [List.map_map]; exact List.map_id L) (by simpa using hk) (bounded_bitsAt w L)
  rw [hW]
  refine BitVec.eq_of_getLsbD_eq fun i hi => ?_
  by_cases hf : inField L i = true
  · obtain ⟨f, hmem, hin⟩ := List.any_eq_true.1 hf
    simp only [Bool.and_eq_true, decide_eq_true_eq] at hin
    rw [getLsbD_of_bitsAt (reads_mem hreads _ (List.mem_map_of_mem hmem)) hin.1 hin.2, getLsbD_of_bitsAt rfl hin.1 hin.2]
  · obtain ⟨p, hmem, hin⟩ := List.any_eq_true.1 ((hbits i hi).resolve_left hf)
    simp only [Bool.and_eq_true, decide_eq_true_eq, beq_iff_eq] at hin
    obtain ⟨⟨hlo, hhi⟩, hbit⟩ := hin
    have hconst : bitsAt W i 1 = k / 2 ^ i % 2 ^ 1 := hrest i 1 _ (by simp [apart_of_not_inField hf])
    rw [getLsbD_of_bitsAt hconst le_rfl (by omega), getLsbD_of_bitsAt (hp p hmem) hlo hhi, ← hbit]
    simpa using Nat.testBit_eq_decide_div_mod_eq.symm

/-! ### What a decoder answers -/

/-- Where the parts stand in the word: if the answer `r` is an instruction, `P` holds of it, and the word is its word. -/
def Yields (P : Instr → Prop) (F : List (Nat × Nat × Nat)) (w : Word) (r : Except Reject Instr) : Prop :=
  Parts w F → ∀ i, r = .ok i → P i ∧ i.word = w

variable {P : Instr → Prop} {r a b : Except Reject Instr} {i : Instr} {e : Reject}

theorem Yields.refused : Yields P F w (.error e) := fun _ _ h => nomatch h

/-- A part found in the word, as by the match that leads to an arm of a decoder. -/
theorem Yields.part (h : bitsAt w lo n = v) (hr : Yields P ((lo, n, v) :: F) w r) : Yields P F w r :=
  fun hF => hr (List.forall_mem_cons.2 ⟨h, hF⟩)

/-- An answer under a condition on a part of the word. -/
theorem Yields.guard (ha : Yields P ((lo, n, v) :: F) w a) (hb : Yields P F w b) : Yields P F w (if bitsAt w lo n = v then a else b) := by
  split
  · next h => exact ha.part h
  · exact hb

/-- An answer under a condition on a part of the word and a further one. With the part known, the further one is left to decide between the answer
and a refusal; what the decoder does when either fails is asked for once. -/
theorem Yields.both {Q : Prop} [Decidable Q] (ha : Yields P ((lo, n, v) :: F) w (if Q then a else .error .unassigned))
    (hb : Yields P F w b) : Yields P F w (if bitsAt w lo n = v ∧ Q then a else b) := by
  rw [ite_and]
  refine .guard ?_ hb
  by_cases hq : Q
  · rwa [if_pos hq] at ha ⊢
  · rw [if_neg hq]
    exact fun hF => hb fun p hp => hF p (List.mem_cons_of_mem _ hp)

/-- An answer under a condition that fixes no part. -/
theorem Yields.cond {Q : Prop} [Decidable Q] (ha : Q → Yields P F w a) (hb : Yields P F w b) : Yields P F w (if Q then a else b) := by
  split
  · next h => exact ha h
  · exact hb

/-- The answer is an instruction: its operands are fields of the word, and the parts checked on the way give the rest of its word. -/
theorem Yields.answer (hP : P i) (hi : i.word = asm k gs) (hr : Reread w gs L) (hc : covers k L F = true) : Yields P F w (.ok i) :=
  fun hF _ h => Except.ok.inj h ▸ ⟨hP, hi.trans (asm_reread hr hF hc)⟩

/-! ### The decoder of words -/

/-- An instruction of a thread or core that names something the device has. -/
def GoodWord (i : Instr) : Prop := i.isWord = true ∧ i.wf = true

/-- OP 0x0A: the format code is one of four, which is what its members' being well-formed asks. -/
theorem decode0A_yields : Yields GoodWord [(26, 6, 0x0A)] w (decode0A w) := by
  unfold decode0A
  split
  any_goals exact .refused
  all_goals refine .part ‹_› ?_
  any_goals refine .both ?_ .refused
  all_goals
    refine .cond (fun hf => ?_) .refused
    exact .answer ⟨rfl, decide_eq_true hf⟩ rfl (by repeat constructor) (by decide +kernel)

/-- OP 0x19: the scope is one of six, as for the format codes. -/
theorem decode19_yields : Yields GoodWord [(26, 6, 0x19)] w (decode19 w) := by
  unfold decode19
  split
  any_goals exact .refused
  all_goals
    refine .part ‹_› (.both (.both (.cond (fun hc => ?_) .refused) .refused) .refused)
    exact .answer ⟨rfl, decide_eq_true hc⟩ rfl (by repeat constructor) (by decide +kernel)

/-- OP 0x38, behind the check of the view, which can only refuse. -/
theorem decode38_yields : Yields GoodWord [(26, 6, 0x38)] w (decode38 w) := by
  unfold decode38
  refine .cond (fun _ => .refused) ?_
  split
  any_goals exact .refused
  all_goals refine .part ‹_› ?_
  any_goals apply_rules [Yields.both, Yields.guard, Yields.refused]
  all_goals exact .answer ⟨rfl, rfl⟩ rfl (by repeat constructor) (by decide +kernel)

/-- Every other major opcode: an arm of its decoder refuses, or answers from fields under conditions on the rest of the word. -/
theorem decodeThread_yields : Yields GoodWord [] w (decodeThread w) := by
  unfold decodeThread
  split
  any_goals exact .refused
  all_goals refine .part ‹_› ?_
  any_goals apply_rules [decode0A_yields, decode19_yields]
  any_goals
    delta decode01 decode07 decode18 decode1A decode1B decode1C decode1D decode1E decode1F decode20 decode21 decode22 decode23 decode24
      decode25 decode26 decode27 decode28 decode29 decode2A decode2B decode2C decode2D decode2E decode2F
  any_goals split
  any_goals exact .refused
  any_goals refine .part ‹_› ?_
  any_goals apply_rules [Yields.both, Yields.guard, Yields.refused]
  all_goals exact .answer ⟨rfl, rfl⟩ rfl (by repeat constructor) (by decide +kernel)

theorem decode_yields : Yields GoodWord [] w (decode w) := by
  rw [decode]
  exact .guard decode38_yields decodeThread_yields

/-! ### The decoder of commands -/

/-- A command that names something the device has, whose words are its first word and, behind one that takes a literal as `w` does, `l` and `h`. -/
def GoodCommand (w l h : Word) (i : Instr) : Prop :=
  i.isCommand = true ∧ i.wf = true ∧ encode i = if takesLiteral w then [i.word, l, h] else [i.word]

/-- The two words of a literal are read back from it. -/
theorem literal_words (x l h : Word) :
    [x, BitVec.ofNat 32 (literal l h).toNat, BitVec.ofNat 32 ((literal l h).toNat / 2 ^ 32)] = [x, l, h] := by
  have hlit : (literal l h).toNat = l.toNat + 2 ^ 32 * h.toNat :=
    Nat.mod_eq_of_lt (by have hl := l.isLt; have hh := h.isLt; omega)
  rw [hlit, Nat.add_mul_div_left _ _ (Nat.two_pow_pos 32), Nat.div_eq_of_lt l.isLt, Nat.zero_add, BitVec.ofNat_toNat, BitVec.setWidth_eq]
  congr 2
  exact BitVec.eq_of_toNat_eq (by simp [Nat.mod_eq_of_lt l.isLt])

theorem decodeCommand_yields {l h : Word} : Yields (GoodCommand w l h) [] w (decodeCommand w l h) := by
  unfold decodeCommand
  split
  any_goals exact .refused
  all_goals refine .part ‹_› ?_
  any_goals apply_rules [Yields.both, Yields.guard, Yields.refused]
  all_goals
    refine .answer ⟨rfl, rfl, ?_⟩ rfl (by repeat constructor) (by decide +kernel)
    rw [takesLiteral, ‹bitsAt w 24 8 = _›]
  any_goals rfl
  all_goals exact literal_words ..

end Words

/-! ### The encoder -/

theorem encode_of_isWord {i : Instr} (h : i.isWord = true) : encode i = [i.word] := by
  unfold encode
  split
  case h_4 => rw [h]; rfl
  all_goals exact absurd h Bool.false_ne_true

/-- Each instruction, command and event by the law of its own encoding. -/
theorem encoding_statement (i : Instr) : Encoding.Statement i :=
  i.casesOn (motive := Encoding.Statement) Encoding.add Encoding.sub Encoding.and Encoding.or Encoding.xor Encoding.shl Encoding.shr Encoding.sha
    Encoding.mul Encoding.mulh Encoding.mulhn Encoding.div Encoding.divn Encoding.rem Encoding.remn Encoding.min Encoding.max Encoding.minn
    Encoding.maxn Encoding.slt Encoding.sltn Encoding.seq Encoding.clz Encoding.ctz Encoding.popc Encoding.qadd Encoding.addi Encoding.andi
    Encoding.ori Encoding.xori Encoding.slti Encoding.shli Encoding.shri Encoding.shai Encoding.lui Encoding.addpc Encoding.fadd Encoding.fsub
    Encoding.fmul Encoding.ffma Encoding.fdiv Encoding.fsqrt Encoding.fmin Encoding.fmax Encoding.feq Encoding.flt Encoding.fle Encoding.fclass
    Encoding.fcvtI Encoding.fcvtN Encoding.fcvtFi Encoding.fcvtFn Encoding.fcvtFf Encoding.beq Encoding.bne Encoding.blt Encoding.bge Encoding.bltn
    Encoding.bgen Encoding.jal Encoding.jalr Encoding.ld Encoding.ldn Encoding.st Encoding.ldx Encoding.stx Encoding.aadd Encoding.aand Encoding.aor
    Encoding.axor Encoding.amin Encoding.amax Encoding.aminn Encoding.amaxn Encoding.aaddRet Encoding.aandRet Encoding.aorRet Encoding.axorRet
    Encoding.aminRet Encoding.amaxRet Encoding.aminnRet Encoding.amaxnRet Encoding.aswap Encoding.acas Encoding.fenceV Encoding.fenceS
    Encoding.waitseq Encoding.signal Encoding.waitx Encoding.sqwait Encoding.tseq Encoding.gjoin Encoding.gleave Encoding.gbar Encoding.forkl
    Encoding.joinl Encoding.yield Encoding.tid Encoding.gsize Encoding.trap Encoding.csrr Encoding.csrw Encoding.csrs Encoding.csrc Encoding.sleep
    Encoding.halt Encoding.brk Encoding.chapp Encoding.strmR Encoding.strmW Encoding.strmRg Encoding.sunb Encoding.gang Encoding.ungang
    Encoding.vconfigImm Encoding.vconfigReg Encoding.vtag Encoding.setvl Encoding.setvlB Encoding.vcarrySet Encoding.vcarryReg Encoding.vfetch
    Encoding.efetch Encoding.ebz Encoding.ebnz Encoding.eend Encoding.xqsend Encoding.xqrecv Encoding.vaddVv Encoding.vsubVv Encoding.vmulVv
    Encoding.vfmaVv Encoding.vfmsVv Encoding.vfnmaVv Encoding.vdivVv Encoding.vminVv Encoding.vmaxVv Encoding.vabsVv Encoding.vnegVv Encoding.vsaddVv
    Encoding.vssubVv Encoding.vmulhVv Encoding.vavgVv Encoding.vaddVs Encoding.vsubVs Encoding.vmulVs Encoding.vfmaVs Encoding.vfmsVs
    Encoding.vfnmaVs Encoding.vdivVs Encoding.vminVs Encoding.vmaxVs Encoding.vabsVs Encoding.vnegVs Encoding.vsaddVs Encoding.vssubVs
    Encoding.vmulhVs Encoding.vavgVs Encoding.vand Encoding.vor Encoding.vxor Encoding.vnot Encoding.vshl Encoding.vshr Encoding.vsha Encoding.vclz
    Encoding.vpopc Encoding.vceq Encoding.vcne Encoding.vclt Encoding.vcle Encoding.vcun Encoding.vclass Encoding.vsqrt Encoding.vrcp Encoding.vrsq
    Encoding.vexp2f Encoding.vlog2f Encoding.vrndi Encoding.vgetexp Encoding.vcvt Encoding.vmov Encoding.vsel Encoding.vscale Encoding.vslideup
    Encoding.vslidedn Encoding.vbfly Encoding.vid Encoding.vbcast Encoding.vbflyC Encoding.vxg Encoding.vcomp Encoding.vexpd Encoding.vredsum
    Encoding.vredmax Encoding.vredmin Encoding.vredand Encoding.vredor Encoding.vredxor Encoding.vtree Encoding.tmerge Encoding.tread Encoding.tclear
    Encoding.vscan Encoding.vscana Encoding.vscanmax Encoding.pand Encoding.por Encoding.pxor Encoding.pnot Encoding.pandn Encoding.pwhile
    Encoding.pcnt Encoding.pfirst Encoding.pset Encoding.vins Encoding.vext Encoding.vld Encoding.vst Encoding.vldx Encoding.vstx Encoding.vldff
    Encoding.vgb Encoding.vsb Encoding.vaadd Encoding.vsrd Encoding.vswr Encoding.tlook Encoding.tset Encoding.tinv Encoding.vwset Encoding.vwret
    Encoding.vwget Encoding.vrng Encoding.mtv Encoding.mvt Encoding.mtvc Encoding.mten Encoding.mzero Encoding.mldw Encoding.mswap Encoding.mma
    Encoding.mmaF64 Encoding.mscan Encoding.mcld Encoding.mcst Encoding.mst Encoding.mld Encoding.mrow Encoding.mcol Encoding.msig Encoding.mwait
    Encoding.mcfg Encoding.cmdNop Encoding.cmdHalt Encoding.cmdLi Encoding.cmdLil Encoding.cmdAddi Encoding.cmdAdd Encoding.cmdSub Encoding.cmdAnd
    Encoding.cmdOr Encoding.cmdShli Encoding.cmdLd Encoding.cmdSt Encoding.cmdBeq Encoding.cmdBne Encoding.cmdBlt Encoding.cmdLoop Encoding.cmdCall
    Encoding.cmdRet Encoding.cmdLink Encoding.cmdLaunch Encoding.cmdLaunchm Encoding.cmdSplice Encoding.cmdChapp Encoding.cmdWait Encoding.cmdSignal
    Encoding.cmdFence Encoding.launchPlaceRange Encoding.launchComplete Encoding.registerWrite Encoding.cxStop Encoding.cxSave Encoding.cxRestore
    Encoding.cxResume Encoding.cxCommandComplete Encoding.cxdataRead Encoding.cxdataWrite Encoding.debugStopCmd Encoding.debugStep
    Encoding.breakpointHit Encoding.debugStopDrained Encoding.kill Encoding.killDone Encoding.partitionCreate Encoding.partitionDestroy
    Encoding.invalidateGo Encoding.invalidationComplete Encoding.ptEditRecord Encoding.queueBind Encoding.queueHoldClear Encoding.qfreePop
    Encoding.qfreePush Encoding.leaseRenew Encoding.leaseTake Encoding.leaseHand Encoding.fwHeartbeat Encoding.healthTimeout Encoding.dieFence
    Encoding.regmapWrite Encoding.bayRegulatorMove Encoding.chstatStopClear Encoding.startRecordClear Encoding.coldBoot Encoding.unitMapOut
    Encoding.pmlLinkUp Encoding.holdEntry Encoding.holdDeadline Encoding.pwarnFall Encoding.holdResume Encoding.holdSupplyLoss Encoding.droop
    Encoding.droopEnd Encoding.chandlerLoop Encoding.targetTimeout Encoding.millCapUpdate Encoding.ballastEnd Encoding.tierMigration
    Encoding.arbiterCycle Encoding.grantApply Encoding.vfetchComplete Encoding.waitEnd Encoding.sleepExpiry Encoding.xqEntryComplete
    Encoding.streamBindingStart Encoding.streamFetch Encoding.engineJobStart Encoding.jobComplete Encoding.foldContribution Encoding.matrixOpComplete
    Encoding.msigRaise Encoding.hostWrite Encoding.hostRead Encoding.peerRequest Encoding.spdmGetVersion Encoding.spdmGetCapabilities
    Encoding.spdmNegotiateAlgorithms Encoding.spdmGetDigests Encoding.spdmGetCertificate Encoding.spdmChallenge Encoding.spdmGetMeasurements
    Encoding.illegalInstruction Encoding.fetchOutsideImage Encoding.illegalCommand Encoding.pmlLinkDown Encoding.hostConfigRequest

/-! ### The statements -/

/-- Settles O58: an instruction decodes from its words by `encoding_statement`, and what a word decodes to has it as its word by `decode_yields` and
`decodeCommand_yields`. -/
theorem decodingAndEncodingAgree : Obligations.DecodingAndEncodingAgree := by
  refine ⟨fun i => (encoding_statement i).1, fun i => (encoding_statement i).2, fun w i h => ?_, fun w lo hi i h => ?_⟩
  · obtain ⟨⟨hword, hwf⟩, rfl⟩ := decode_yields parts_nil i h
    exact ⟨hword, hwf, encode_of_isWord hword⟩
  · obtain ⟨⟨hcommand, hwf, henc⟩, hw⟩ := decodeCommand_yields parts_nil i h
    rw [hw] at henc
    exact ⟨hcommand, hwf, henc⟩

/-- Settles O57: each word of the list is closed, and is decoded. -/
theorem wordsOfTheSpecDecode : Obligations.WordsOfTheSpecDecode := by
  unfold Obligations.WordsOfTheSpecDecode
  and_intros <;> decide +kernel

end Sys2Proof.Proofs
end

section
/-! SUPPORT. What the scalar integer instructions, branches and jumps compute (R27, R58, R100 to R104, R108, R109). -/

namespace Sys2Proof.Proofs

open Sys2Proof Sys2Proof.Machine Sys2Proof.Laws Sys2Proof.Safety

/-! ### Which registers an instruction names -/

/-- An instruction that names fewer registers may take effect as well. -/
theorem ready_of_subset {s : State} {f : Nat} {rs rs' : List Nat} (h : Ready s f rs) (hs : rs' ⊆ rs) : Ready s f rs' := by
  obtain ⟨hc, hp, hf, hl, hv⟩ := h
  refine ⟨hc, ?_, ?_, hl, hv⟩
  · rw [List.any_eq_false] at hp ⊢
    exact fun r hr => hp r (hs hr)
  · rw [State.failureOf, List.find?_eq_none] at hf ⊢
    intro x hx hd
    simp only [Bool.and_eq_true, List.contains_iff_mem] at hd
    exact hf x hx (by simpa using ⟨by simpa using hd.1, hs hd.2⟩)

section Simple

variable {s : State} {f : Nat} {d a b : BitVec 5}

/-- An instruction of one result that raises no flag writes it, and nothing else. -/
theorem simple_wrote {rs : List Nat} {val : Ctx → Dword × Flags} {v : Dword} (h : Ready s f (d.toNat :: rs)) (hv : val (s.ctx f) = (v, 0)) :
    s.simple rs d.toNat val = wrote s f d v := by
  rw [simple_ready val h, hv, raiseFlags_none]

theorem regOp_wrote {val : Dword → Dword → Dword} {v : Dword} (h : Ready s f [d.toNat, a.toNat, b.toNat])
    (hv : val ((s.ctx f).s a.toNat) ((s.ctx f).s b.toNat) = v) : regOp val d a b s = wrote s f d v :=
  simple_wrote h (Prod.ext hv rfl)

theorem regOp1_wrote {val : Dword → Dword} {v : Dword} (h : Ready s f [d.toNat, a.toNat])
    (hv : val ((s.ctx f).s a.toNat) = v) : regOp1 val d a s = wrote s f d v :=
  simple_wrote h (Prod.ext hv rfl)

theorem immOp_wrote {val : Dword → Dword → Dword} {i : BitVec 16} {v : Dword} (h : Ready s f [d.toNat, a.toNat])
    (hv : val ((s.ctx f).s a.toNat) (i.signExtend 64) = v) : immOp val d a i s = wrote s f d v :=
  simple_wrote h (Prod.ext hv rfl)

theorem shiftOp_wrote {val : Dword → Dword → Dword} {n : BitVec 6} {v : Dword} (h : Ready s f [d.toNat, a.toNat])
    (hv : val ((s.ctx f).s a.toNat) (n.setWidth 64) = v) : shiftOp val d a n s = wrote s f d v :=
  simple_wrote h (Prod.ext hv rfl)

end Simple

/-! ### The values of R100 -/

/-- A truth value is 1 or 0. -/
theorem truthBit_eq (p : Prop) [Decidable p] : BitVec.ofNat 64 (b2n (decide p)) = if p then 1 else 0 := by
  by_cases h : p <;> simp [h, b2n]

theorem shiftAmount_eq (y : Dword) : (y.extractLsb' 0 6).toNat = y.toNat % 64 := by simp

/-- The high 64 bits of a 128-bit number. -/
theorem extract_high (z : ℤ) : (BitVec.ofInt 128 z).extractLsb' 64 64 = BitVec.ofInt 64 (z / 2 ^ 64) := by
  apply BitVec.eq_of_toNat_eq
  simp only [BitVec.extractLsb'_toNat, BitVec.toNat_ofInt, Nat.shiftRight_eq_div_pow]
  norm_num
  omega

theorem extract_low (z : ℤ) : (BitVec.ofInt 128 z).extractLsb' 0 64 = BitVec.ofInt 64 z := by
  apply BitVec.eq_of_toNat_eq
  simp only [BitVec.extractLsb'_toNat, BitVec.toNat_ofInt, Nat.shiftRight_zero]
  norm_num
  omega

theorem signExtend_mul_signExtend (x y : Dword) : x.signExtend 128 * y.signExtend 128 = BitVec.ofInt 128 (x.toInt * y.toInt) := by
  rw [BitVec.signExtend, BitVec.signExtend, BitVec.ofInt_mul]

theorem valMul_eq (x y : Dword) : valMul x y = (x.signExtend 128 * y.signExtend 128).extractLsb' 0 64 := by
  rw [signExtend_mul_signExtend, extract_low, BitVec.ofInt_mul, BitVec.ofInt_toInt, BitVec.ofInt_toInt, valMul]

theorem valMulh_eq (x y : Dword) : valMulh x y = (x.signExtend 128 * y.signExtend 128).extractLsb' 64 64 := by
  rw [signExtend_mul_signExtend, extract_high, valMulh]

theorem valMulhn_eq (x y : Dword) : valMulhn x y = (x.setWidth 128 * y.setWidth 128).extractLsb' 64 64 := by
  have hx := x.isLt
  have hy := y.isLt
  have hxy : x.toNat * y.toNat < 2 ^ 128 := by nlinarith
  apply BitVec.eq_of_toNat_eq
  simp only [valMulhn, BitVec.extractLsb'_toNat, BitVec.toNat_mul, BitVec.toNat_setWidth, BitVec.toNat_ofNat, Nat.shiftRight_eq_div_pow]
  rw [Nat.mod_eq_of_lt (by omega : x.toNat < 2 ^ 128), Nat.mod_eq_of_lt (by omega : y.toNat < 2 ^ 128), Nat.mod_eq_of_lt hxy]

theorem valDiv_eq (x y : Dword) : valDiv x y = if y = 0 then BitVec.allOnes 64 else x.sdiv y := by
  refine if_congr Iff.rfl rfl (BitVec.eq_of_toInt_eq ?_)
  rw [BitVec.toInt_ofInt, BitVec.toInt_sdiv]

theorem valDivn_eq (x y : Dword) : valDivn x y = if y = 0 then BitVec.allOnes 64 else x.udiv y := by
  refine if_congr Iff.rfl rfl (BitVec.eq_of_toNat_eq ?_)
  rw [BitVec.toNat_ofNat, BitVec.udiv_eq, BitVec.toNat_udiv, Nat.mod_eq_of_lt (lt_of_le_of_lt (Nat.div_le_self _ _) x.isLt)]

theorem valRem_eq (x y : Dword) : valRem x y = if y = 0 then x else x.srem y := by
  refine if_congr Iff.rfl rfl ?_
  rw [← BitVec.toInt_srem, BitVec.ofInt_toInt]

theorem valRemn_eq (x y : Dword) : valRemn x y = if y = 0 then x else x.umod y := by
  refine if_congr Iff.rfl rfl (BitVec.eq_of_toNat_eq ?_)
  rw [BitVec.toNat_ofNat, BitVec.umod_eq, BitVec.toNat_umod, Nat.mod_eq_of_lt (lt_of_le_of_lt (Nat.mod_le _ _) x.isLt)]

theorem valMin_eq (x y : Dword) : valMin x y = if x.slt y then x else y := by
  simp only [valMin, BitVec.slt_iff_toInt_lt]
  rcases lt_trichotomy x.toInt y.toInt with h | h | h
  · rw [if_pos h.le, if_pos h]
  · rw [if_pos h.le, if_neg (by omega), BitVec.eq_of_toInt_eq h]
  · rw [if_neg (by omega), if_neg (by omega)]

theorem valMax_eq (x y : Dword) : valMax x y = if x.slt y then y else x := by
  simp only [valMax, BitVec.slt_iff_toInt_lt]
  rcases lt_trichotomy x.toInt y.toInt with h | h | h
  · rw [if_pos h.le, if_pos h]
  · rw [if_pos h.le, if_neg (by omega), BitVec.eq_of_toInt_eq h]
  · rw [if_neg (by omega), if_neg (by omega)]

theorem valMinn_eq (x y : Dword) : valMinn x y = if x.ult y then x else y := by
  simp only [valMinn, BitVec.ult_iff_lt, BitVec.lt_def]
  rcases lt_trichotomy x.toNat y.toNat with h | h | h
  · rw [if_pos h.le, if_pos h]
  · rw [if_pos h.le, if_neg (by omega), BitVec.eq_of_toNat_eq h]
  · rw [if_neg (by omega), if_neg (by omega)]

theorem valMaxn_eq (x y : Dword) : valMaxn x y = if x.ult y then y else x := by
  simp only [valMaxn, BitVec.ult_iff_lt, BitVec.lt_def]
  rcases lt_trichotomy x.toNat y.toNat with h | h | h
  · rw [if_pos h.le, if_pos h]
  · rw [if_pos h.le, if_neg (by omega), BitVec.eq_of_toNat_eq h]
  · rw [if_neg (by omega), if_neg (by omega)]

theorem valSlt_eq (x y : Dword) : valSlt x y = if x.slt y then 1 else 0 := by
  rw [valSlt, truthBit_eq]
  exact if_congr BitVec.slt_iff_toInt_lt.symm rfl rfl

theorem valSltn_eq (x y : Dword) : valSltn x y = if x.ult y then 1 else 0 := by
  rw [valSltn, truthBit_eq]
  exact if_congr BitVec.ult_iff_lt.symm rfl rfl

/-! ### Counts of bits -/

theorem leadingZeros_spec (x : Dword) : leadingZeros 64 x.toNat ≤ 64 ∧
    (∀ i, 64 - leadingZeros 64 x.toNat ≤ i → i < 64 → x.getLsbD i = false) ∧
    (leadingZeros 64 x.toNat < 64 → x.getLsbD (63 - leadingZeros 64 x.toNat) = true) := by
  unfold leadingZeros
  split
  · next h =>
    refine ⟨le_rfl, fun i _ _ => ?_, fun h => absurd h (lt_irrefl _)⟩
    rw [BitVec.getLsbD, h, Nat.zero_testBit]
  · next h =>
    have hlog : x.toNat.log2 < 64 := (Nat.log2_lt h).2 x.isLt
    refine ⟨by omega, fun i hi _ => ?_, fun _ => ?_⟩
    · exact Nat.testBit_lt_two_pow (lt_of_lt_of_le Nat.lt_log2_self (Nat.pow_le_pow_right (by decide) (by omega)))
    · rw [show 63 - (64 - 1 - x.toNat.log2) = x.toNat.log2 by omega]
      exact Nat.testBit_log2 h

/-- The bits below the count are 0, and the next is 1 unless there is none. -/
theorem trailingZeros_spec (n x : Nat) : trailingZeros n x ≤ n ∧ (∀ i < trailingZeros n x, x.testBit i = false) ∧
    (trailingZeros n x < n → x.testBit (trailingZeros n x) = true) := by
  induction n generalizing x with
  | zero => exact ⟨le_rfl, fun i hi => absurd hi (Nat.not_lt_zero i), fun h => absurd h (lt_irrefl _)⟩
  | succ n ih =>
    obtain ⟨hle, hlow, hnext⟩ := ih (x / 2)
    unfold trailingZeros
    split
    · next h => exact ⟨Nat.zero_le _, fun i hi => absurd hi (Nat.not_lt_zero i), fun _ => by simp [Nat.testBit_zero, h]⟩
    · next h =>
      refine ⟨by omega, fun i hi => ?_, fun hlt => ?_⟩
      · cases i with
        | zero => simpa [Nat.testBit_zero] using h
        | succ i => rw [Nat.testBit_succ]; exact hlow i (by omega)
      · rw [Nat.add_comm, Nat.testBit_succ]
        exact hnext (by omega)

theorem popCount_eq (n x : Nat) : popCount n x = ((List.range n).filter fun i => x.testBit i).length := by
  induction n generalizing x with
  | zero => rfl
  | succ n ih =>
    rw [popCount, ih, List.range_succ_eq_map, List.filter_cons, Nat.testBit_zero]
    have hmap : ((List.map Nat.succ (List.range n)).filter fun i => x.testBit i).length =
        ((List.range n).filter fun i => (x / 2).testBit i).length := by
      rw [List.filter_map, List.length_map]
      simp [Function.comp_def, Nat.testBit_succ]
    rcases Nat.mod_two_eq_zero_or_one x with h | h <;> simp [h, hmap, Nat.add_comm]

theorem valPopc_eq (x : Dword) : valPopc x = BitVec.ofNat 64 ((List.range 64).filter fun i => x.getLsbD i).length := by
  rw [valPopc, popCount_eq]
  simp only [BitVec.getLsbD]

/-! ### 128-bit addition (R101) -/

/-- A pair of registers is the number made of its two halves. -/
theorem pair_eq_append (c : Ctx) (a : Nat) : c.pair a = (c.s (a + 1) ++ c.s a).toNat := by
  rw [BitVec.toNat_append, Nat.shiftLeft_eq, Nat.mul_comm, ← Nat.two_pow_add_eq_or_of_lt (c.s a).isLt, Nat.add_comm]
  rfl

theorem pair_sum_low (c : Ctx) (a b : Nat) : BitVec.ofNat 64 (c.pair a + c.pair b) =
    ((c.s (a + 1) ++ c.s a : BitVec 128) + (c.s (b + 1) ++ c.s b)).extractLsb' 0 64 := by
  apply BitVec.eq_of_toNat_eq
  rw [pair_eq_append, pair_eq_append, BitVec.extractLsb'_toNat, BitVec.toNat_add, BitVec.toNat_ofNat, Nat.shiftRight_zero]
  exact (Nat.mod_mod_of_dvd _ (by decide)).symm

theorem pair_sum_high (c : Ctx) (a b : Nat) : BitVec.ofNat 64 ((c.pair a + c.pair b) / 2 ^ 64) =
    ((c.s (a + 1) ++ c.s a : BitVec 128) + (c.s (b + 1) ++ c.s b)).extractLsb' 64 64 := by
  apply BitVec.eq_of_toNat_eq
  rw [pair_eq_append, pair_eq_append, BitVec.extractLsb'_toNat, BitVec.toNat_add, BitVec.toNat_ofNat, Nat.shiftRight_eq_div_pow]
  omega

theorem qadd_completes {s : State} {f : Nat} {d a b : BitVec 5} (hd : d.toNat % 2 = 0) (ha : a.toNat % 2 = 0) (hb : b.toNat % 2 = 0)
    (h : Ready s f [d.toNat, d.toNat + 1, a.toNat, a.toNat + 1, b.toNat, b.toNat + 1]) :
    let c := s.ctx f
    let x : BitVec 128 := (c.s (a.toNat + 1) ++ c.s a.toNat) + (c.s (b.toNat + 1) ++ c.s b.toNat)
    exec (.qadd d a b) s =
      .next (next s f ((c.setS d.toNat (x.extractLsb' 0 64)).setS (d.toNat + 1) (x.extractLsb' 64 64))) := by
  intro c x
  show execQadd d a b s = _
  rw [execQadd, if_neg (by simp [hd, ha, hb]), scalar_ready _ h]
  simp only [pair_sum_low, pair_sum_high]
  rfl

theorem qadd_odd {s : State} {f : Nat} {d a b : BitVec 5} (hc : s.cur = .agent f) (ho : d.toNat % 2 = 1 ∨ a.toNat % 2 = 1 ∨ b.toNat % 2 = 1)
    (hl : (s.ctx f).late = none) (h : Settled s f) : exec (.qadd d a b) s = .next (stopped s f .operand) := by
  show execQadd d a b s = _
  rw [execQadd, me_agent hc, if_pos (by simpa [hc, or_assoc] using ho), trapHere_settled _ hl h]

/-! ### The statements -/

/-- A write to a register changes it alone. -/
theorem setS_frame (c : Ctx) (d : Nat) (v : Dword) : c.setS d v = { c with sregs := (c.setS d v).sregs } := by
  unfold Ctx.setS
  split <;> rfl

/-- Settles O1: each member by the value of its table row, the counts by what they count. -/
theorem registerArithmeticWritesTheTableValue : Obligations.RegisterArithmeticWritesTheTableValue := by
  unfold Obligations.RegisterArithmeticWritesTheTableValue
  refine ⟨fun s f d a b h => ?_, fun s f d a h => ?_, fun s f d a b hd ha hb h => qadd_completes hd ha hb h,
    fun s f d a b hc ho hl h => qadd_odd hc ho hl h, fun c d v => ?_⟩
  · intro x y n
    have hn : y.toNat % 64 = n := (shiftAmount_eq y).symm
    have row (val : Dword → Dword → Dword) {v : Dword} (hv : val x y = v) :
        Host.Outcome.next (regOp val d a b s) = (.next (wrote s f d v) : Out) := congrArg _ (regOp_wrote h hv)
    exact ⟨row valAdd rfl, row valSub rfl, row valAnd rfl, row valOr rfl, row valXor rfl, row valShl (by rw [valShl, hn]),
      row valShr (by rw [valShr, hn]), row valSha (by rw [valSha, hn]), row valMul (valMul_eq x y), row valMulh (valMulh_eq x y),
      row valMulhn (valMulhn_eq x y), row valDiv (valDiv_eq x y), row valDivn (valDivn_eq x y), row valRem (valRem_eq x y),
      row valRemn (valRemn_eq x y), row valMin (valMin_eq x y), row valMax (valMax_eq x y), row valMinn (valMinn_eq x y),
      row valMaxn (valMaxn_eq x y), row valSlt (valSlt_eq x y), row valSltn (valSltn_eq x y), row valSeq (truthBit_eq _)⟩
  · intro x
    have row (val : Dword → Dword) {v : Dword} (hv : val x = v) :
        Host.Outcome.next (regOp1 val d a s) = (.next (wrote s f d v) : Out) := congrArg _ (regOp1_wrote h hv)
    exact ⟨⟨_, row valClz rfl, leadingZeros_spec x⟩, ⟨_, row valCtz rfl, trailingZeros_spec 64 x.toNat⟩, row valPopc (valPopc_eq x)⟩
  · exact ⟨s_zero c, setS_zero c v, fun h0 h32 =>
      ⟨s_setS_same c d v (by omega) h32, fun e he => s_setS_other c d e v he, setS_frame c d v⟩⟩

/-- Settles O2: each is its counterpart of R100 with the immediate as its second operand. -/
theorem immediateFormsComputeTheirCounterparts : Obligations.ImmediateFormsComputeTheirCounterparts := by
  unfold Obligations.ImmediateFormsComputeTheirCounterparts
  intro s f d a i n u h x y
  have hn : (n.setWidth 64 : Dword).toNat % 64 = n.toNat := by
    have := n.isLt
    rw [BitVec.toNat_setWidth]
    omega
  have hd : Ready s f [d.toNat] := ready_of_subset h (by simp)
  have imm (val : Dword → Dword → Dword) {v : Dword} (hv : val x y = v) :
      Host.Outcome.next (immOp val d a i s) = (.next (wrote s f d v) : Out) := congrArg _ (immOp_wrote h hv)
  have shift (val : Dword → Dword → Dword) {v : Dword} (hv : val x (n.setWidth 64) = v) :
      Host.Outcome.next (shiftOp val d a n s) = (.next (wrote s f d v) : Out) := congrArg _ (shiftOp_wrote h hv)
  exact ⟨imm valAdd rfl, imm valAnd rfl, imm valOr rfl, imm valXor rfl, imm valSlt (valSlt_eq x y), shift valShl (by rw [valShl, hn]),
    shift valShr (by rw [valShr, hn]), shift valSha (by rw [valSha, hn]), congrArg _ (simple_wrote hd rfl), congrArg _ (simple_wrote hd rfl)⟩

end Sys2Proof.Proofs
end

section
/-! SUPPORT. A misaligned `jalr` behind a `vbfly.c` whose reader has not been pushed (R58, R109, R331, R449). -/

namespace Sys2Proof.Proofs

open Sys2Proof Sys2Proof.Machine Sys2Proof.Safety

/-- A `vbfly.c` pushed while s5 held 0. It has completed alone, as it does once its context waits for it, and stays in the queue for the reader of
its latch, with what a discard restores. -/
def chainLeft : VqEntry := { VOp.entry { word := (Instr.vbflyC 1 0 0 0).word } Ctx.reset with begun := true, done := true }

/-- Context 0 has executed the instruction behind it, which wrote 9 to s5: what a program comes to that runs `vbfly.c`, `addi s5, s0, #9` and
`jalr`, once the `vbfly.c` has performed while the `jalr` waits. -/
def behindChain : State :=
  { State.reset.setCtx 0 { Ctx.reset with
      life := .running, sregs := (Vector.replicate 32 0).setIfInBounds 5 9, pc := 8, vq := [chainLeft] } with cur := .agent 0 }

theorem behindChain_ready : Ready behindChain 0 [(5 : BitVec 5).toNat, (0 : BitVec 5).toNat] ∧ (behindChain.ctx 0).quiet = true ∧
    behindChain.matIdle 0 = true ∧ (((behindChain.ctx 0).s 0 + (2 : BitVec 16).signExtend 64).toNat = 2) := by decide +kernel

/-- The stop at `jalr s5, s0, #2` puts the `vbfly.c` back to be executed again, and with it the registers as they stood at its push. -/
theorem behindChain_reverts : ((behindChain.ctx 0).s 5 = 9) ∧
    ((behindChain.stopContext 0 (.align 2) (behindChain.ctx 0).pc (behindChain.ctx 0).vstart 0 false).ctx 0).s 5 = 0 := by decide +kernel

/-- Refutes O3: sd keeps its value when a `jalr` to a misaligned target stops the agent, except where a completed `vbfly.c` waits in the
vector queue for its reader: the discard of R449 goes back to the push of that instruction, and undoes what was written to sd since. -/
theorem not_branchesAndJumpsContinueAtTheirTargets : ¬ Obligations.BranchesAndJumpsContinueAtTheirTargets := by
  unfold Obligations.BranchesAndJumpsContinueAtTheirTargets
  intro h
  obtain ⟨hready, hquiet, hidle, ht⟩ := behindChain_ready
  obtain ⟨h9, h0⟩ := behindChain_reverts
  obtain ⟨-, -, hjalr⟩ := h behindChain 0 5 0 0 0 0 2
  obtain ⟨-, hkeeps⟩ := (hjalr hready).2 (by rw [show (0 : BitVec 5).toNat = 0 from rfl, ht]; decide) hquiet hidle
  have hsame := (congrArg (fun n => ((behindChain.stopContext 0 (.align n) (behindChain.ctx 0).pc (behindChain.ctx 0).vstart 0 false).ctx 0).s 5)
    ht).symm.trans hkeeps
  rw [h0] at hsame
  exact absurd (hsame.trans h9) (by decide)

end Sys2Proof.Proofs
end

section
/-! SUPPORT. The external queue: an access that enters it, and the entry that performs (R77, R114 to R118, R177, R210, R374, R446, R488). -/

namespace Sys2Proof.Proofs

open Sys2Proof Sys2Proof.Machine Sys2Proof.Laws Sys2Proof.Safety Host

/-! ### The new value of an atomic step (R210) -/

/-- The model's new value of an atomic on numbers of k bits is the table's on words of k bits. -/
theorem atomicResult_toNat {k op old v cmp : Nat} (ho : old < 2 ^ k) (hv : v < 2 ^ k) (hc : cmp < 2 ^ k) :
    (atomicResult op (BitVec.ofNat k old) (BitVec.ofNat k v) (BitVec.ofNat k cmp)).toNat = atomicNew k op old v cmp := by
  have hold : (BitVec.ofNat k old).toNat = old := by rw [BitVec.toNat_ofNat, Nat.mod_eq_of_lt ho]
  have hval : (BitVec.ofNat k v).toNat = v := by rw [BitVec.toNat_ofNat, Nat.mod_eq_of_lt hv]
  have hcmp : (BitVec.ofNat k cmp).toNat = cmp := by rw [BitVec.toNat_ofNat, Nat.mod_eq_of_lt hc]
  unfold atomicResult atomicNew
  split
  case h_10 => simp only [← BitVec.toNat_inj, apply_ite BitVec.toNat, hold, hval, hcmp]
  any_goals simp only [BitVec.toNat_add, BitVec.toNat_and, BitVec.toNat_or, BitVec.toNat_xor, hold, hval]
  all_goals
    simp only [BitVec.slt_iff_toInt_lt, BitVec.ult_iff_lt, BitVec.lt_def, apply_ite BitVec.toNat, hold, hval]
    split <;> first | omega | (split <;> omega)

/-- What an entry carries fits its size, as what an instruction puts there does (R210). -/
def XKind.Fits (n : Nat) : XKind → Prop
  | .atomic _ v cmp => v < 2 ^ (8 * n) ∧ cmp < 2 ^ (8 * n)
  | _ => True

theorem load_lt (s : State) (l : Loc) (n : Nat) : s.load l n < 2 ^ (8 * n) := by
  have hpow : 256 ^ n = 2 ^ (8 * n) := pow_mul 2 8 n ▸ rfl
  cases l with
  | slot die slot off => exact Nat.mod_lt _ (Nat.two_pow_pos _)
  | _ => exact hpow ▸ read_lt _ _ _

/-- An entry performs as the statements say: its memory effect and its register's value. -/
theorem performEntry_eq {s : State} {e : XqEntry} (h : XKind.Fits e.size e.kind) : s.performEntry e = (entryMemory s e, entryValue s e) := by
  unfold State.performEntry entryMemory entryValue
  cases hk : e.kind with
  | load => cases e.loc <;> rfl
  | store v => rfl
  | atomic op v cmp =>
    rw [hk] at h
    simp only [atomicResult_toNat (load_lt s e.loc e.size) h.1 h.2]
    rfl

/-! ### What an entry's access depends on -/

theorem entryValue_congr {s t : State} {e : XqEntry} (h : t.load e.loc e.size = s.load e.loc e.size) : entryValue t e = entryValue s e := by
  unfold entryValue
  rw [h]

theorem store_setCtx (s : State) (f : Nat) (c : Ctx) (l : Loc) (n v : Nat) : (s.setCtx f c).store l n v = (s.store l n v).setCtx f c := by
  cases l with
  | slot die slot off =>
    simp only [State.store, State.slotWrite]
    split_ifs <;> rfl
  | _ => rfl

/-- A context is no part of what an entry's access reads and writes. -/
theorem entryMemory_setCtx (s : State) (f : Nat) (c : Ctx) (e : XqEntry) : entryMemory (s.setCtx f c) e = (entryMemory s e).setCtx f c := by
  have hload : (s.setCtx f c).load e.loc e.size = s.load e.loc e.size := by cases e.loc <;> rfl
  unfold entryMemory
  rw [hload]
  cases e.kind with
  | load =>
    cases e.loc with
    | slot die slot off =>
      dsimp only
      split <;> rfl
    | _ => rfl
  | store v => exact store_setCtx ..
  | atomic op v cmp => exact store_setCtx ..

section Translation

variable {s t : State} (hr : t.regs = s.regs) (hd : t.dev = s.dev) (hi : t.installed = s.installed) (ht : t.tiers = s.tiers)

include hr hd hi ht in
theorem codePage_congr (hl : t.launches = s.launches) (part phys : Nat) : t.codePage part phys = s.codePage part phys := by
  simp only [State.codePage, State.codeAt, translate_congr hr hd hi ht, hl]

include hr hd hi ht in
theorem succeeds_congr {f : Nat} {e : XqEntry} (hl : t.launches = s.launches) (he : t.errors = s.errors) (ho : t.owners = s.owners)
    (h : Succeeds s f e) : Succeeds t f e := by
  obtain ⟨⟨hpeer, hstruck⟩, hcode⟩ := h
  refine ⟨⟨fun a ha => ?_, ?_⟩, fun a x hx hw => ?_⟩
  · rw [State.peerReachable, reg_congr hr]
    exact hpeer a ha
  · rw [State.struck, he]
    exact hstruck
  · rw [codePage_congr hr hd hi ht hl, State.partOf, State.ownerOf, ho]
    exact hcode a x hx hw

end Translation

/-! ### An entry's turn -/

theorem entryFails_eq_false_iff {s : State} {f : Nat} {e : XqEntry} : s.entryFails f e = false ↔ Succeeds s f e := by
  unfold State.entryFails Succeeds reachable State.unreachable
  cases e.loc <;> simp

theorem raisesPast_eq (c : Ctx) : (c.raises.map fun x => if 0 < x.xq then { x with xq := x.xq - 1 } else x) = raisesPast c := by
  refine List.map_congr_left fun x _ => ?_
  split
  · rfl
  · next h =>
    obtain ⟨after, xq, counter, inc⟩ := x
    obtain rfl : xq = 0 := Nat.eq_zero_of_not_pos h
    rfl

/-- What arrives in a register does so in what a discard would restore as well. -/
theorem arrive_eq (c : Ctx) (r : Nat) (v : Dword) : ∃ q, SameQueue q c.vq ∧ c.arrive r v = { c.setS r v with vq := q } := by
  refine ⟨_, ?_, rfl⟩
  simp [SameQueue, Function.comp_def]

/-- The oldest entry, where it does not fail, performs and leaves the queue. -/
theorem completeAt_succeeds {s : State} {f : Nat} {e : XqEntry} {rest : List XqEntry} (hq : (s.ctx f).xq = e :: rest)
    (hfits : XKind.Fits e.size e.kind) (h : Succeeds s f e) : ∃ q, SameQueue q (s.ctx f).vq ∧ s.completeAt f 0 false =
      (entryMemory s e).setCtx f { (s.ctx f).setS e.dest (entryValue s e) with xq := rest, vq := q, raises := raisesPast (s.ctx f) } := by
  obtain ⟨q, hsame, harrive⟩ := arrive_eq (s.ctx f) e.dest (entryValue s e)
  refine ⟨q, hsame, ?_⟩
  unfold State.completeAt
  simp only [hq, List.getElem?_cons_zero, entryFails_eq_false_iff.2 h, Bool.or_self, Bool.false_eq_true, if_false, performEntry_eq hfits,
    harrive, raisesPast_eq, List.eraseIdx_cons_zero]

/-! ### Entering the queue -/

theorem accessWalk_frame (s : State) (f A : Nat) (p : Option Pin) : ∃ w, accessWalk s f A p = { s with walked := w } := by
  unfold accessWalk
  split
  · exact noteWalk_frame ..
  · exact ⟨s.walked, rfl⟩

/-- An entry that has just entered an empty queue performs. -/
theorem completeAt_entered {s : State} {f : Nat} {e : XqEntry} {c : Ctx} {w : List Walked} (hq : c.xq = [e])
    (hfits : XKind.Fits e.size e.kind) (h : Succeeds s f e) :
    ∃ q, SameQueue q c.vq ∧ (State.setCtx { s with walked := w } f c).completeAt f 0 false =
      (entryMemory { s with walked := w } e).setCtx f
        { c.setS e.dest (entryValue s e) with xq := [], vq := q, raises := raisesPast c } := by
  have hsucc : Succeeds (State.setCtx { s with walked := w } f c) f e := by
    refine succeeds_congr (s := s) ?_ ?_ ?_ ?_ ?_ ?_ ?_ h <;> rfl
  have hload : (State.setCtx { s with walked := w } f c).load e.loc e.size = s.load e.loc e.size := by cases e.loc <;> rfl
  obtain ⟨q, hsame, hdone⟩ := completeAt_succeeds (by rw [ctx_setCtx_same, hq]) hfits hsucc
  rw [ctx_setCtx_same] at hsame hdone
  rw [entryValue_congr hload, entryMemory_setCtx, setCtx_setCtx] at hdone
  exact ⟨q, hsame, hdone⟩

/-- What an entry's access does to a context that it has just entered, and to one that it has not. -/
theorem retire_entered {c : Ctx} {e : XqEntry} {q : List VqEntry} {d : Nat} {v : Dword} (hempty : c.xq = []) :
    { Ctx.setS { c.retire (c.pc + 4) with xq := c.xq ++ [e] } d v with
      xq := [], vq := q, raises := raisesPast { c.retire (c.pc + 4) with xq := c.xq ++ [e] } } =
    { (c.setS d v).retire (c.pc + 4) with vq := q, raises := raisesPast c } := by
  unfold Ctx.setS
  split
  all_goals simp only [Ctx.retire, hempty, raisesPast]

/-- An unwatched access with room in the queue joins it, or performs at once where nothing is ahead of it and nothing holds it back. -/
theorem enterXq_unwatched {s : State} {f : Nat} {e : XqEntry} {rd wr : Bool} (hroom : (s.ctx f).xq.length < 16)
    (hw : s.watched f e.via.desc e.addr e.size rd wr = false) (hfits : XKind.Fits e.size e.kind) (h : Succeeds s f e) :
    if s.defer = true ∨ (s.ctx f).xq ≠ [] ∨ s.entryHeld f 0 e = true then
      s.enterXq f e rd wr =
        (accessWalk s f e.addr e.pin).setCtx f { (s.ctx f).retire ((s.ctx f).pc + 4) with xq := (s.ctx f).xq ++ [e] }
    else ∃ q, SameQueue q (s.ctx f).vq ∧ s.enterXq f e rd wr =
      (entryMemory (accessWalk s f e.addr e.pin) e).setCtx f
        { ((s.ctx f).setS e.dest (entryValue s e)).retire ((s.ctx f).pc + 4) with vq := q, raises := raisesPast (s.ctx f) } := by
  obtain ⟨w, hs0⟩ := accessWalk_frame s f e.addr e.pin
  have henter : s.enterXq f e rd wr =
      if s.defer = true ∨ (s.ctx f).xq ≠ [] ∨ s.entryHeld f 0 e = true then
        (accessWalk s f e.addr e.pin).setCtx f { (s.ctx f).retire ((s.ctx f).pc + 4) with xq := (s.ctx f).xq ++ [e] }
      else
        ((accessWalk s f e.addr e.pin).setCtx f
          { (s.ctx f).retire ((s.ctx f).pc + 4) with xq := (s.ctx f).xq ++ [e] }).completeAt f 0 false := by
    unfold State.enterXq
    simp [hw, State.watchHeld, State.watchScalar, State.completeEntry, Nat.not_le.2 hroom, or_assoc]
    rfl
  rw [henter]
  split
  · rfl
  · next hq =>
    simp only [not_or, not_not] at hq
    obtain ⟨-, hempty, -⟩ := hq
    obtain ⟨q, hsame, hdone⟩ := completeAt_entered (w := w)
      (c := { (s.ctx f).retire ((s.ctx f).pc + 4) with xq := (s.ctx f).xq ++ [e] }) (by simp [hempty]) hfits h
    exact ⟨q, hsame, by rw [hs0, hdone, retire_entered hempty]⟩

/-- Whether an access is an atomic step (R210). -/
def XKind.isStep : XKind → Bool
  | .atomic _ _ _ => true
  | _ => false

theorem externalCheck_ok {s : State} {f A n : Nat} {v : Line} {B : Dword} {u : Use} {step : Bool} {l : Loc} (hb : ExternalBounds v B n A)
    (hl : s.locate f v A n u = .ok l) (ha : A % n = 0) : externalCheck s f v B n n u step = .ok (A, l) := by
  have haddr : ((externalAddr v B n).1 % 2 ^ 72).toNat = A ∧ (externalAddr v B n).2 = true := by
    unfold ExternalBounds at hb
    unfold externalAddr
    split at hb
    · next hwhole =>
      obtain ⟨rfl, hn⟩ := hb
      rw [if_pos hwhole]
      have := B.isLt
      exact ⟨by dsimp only; omega, by simpa using hn⟩
    · next hwhole =>
      obtain ⟨hA, h72, hin⟩ := hb
      rw [if_neg hwhole, ← hA]
      split at hin
      · next hrank =>
        rw [if_pos (by simpa using hrank)]
        exact ⟨by dsimp only; omega, by simpa using hin⟩
      · next hrank =>
        rw [if_neg (by simpa using hrank)]
        exact ⟨by dsimp only; omega, by simpa using hin⟩
  obtain ⟨hA, hin⟩ := haddr
  unfold externalCheck
  simp only [hA, hl, hin, ha]
  simp

/-- An access whose checks pass makes its entry (R114). -/
theorem external_enters {s : State} {f A n dest : Nat} {rs : List Nat} {w : BitVec 4} {off : Ctx → Dword} {u : Use} {kind : Ctx → XKind}
    {det hostOk : Bool} {v : Line} {l : Loc} (h : Ready s f rs) (ho : InOrder s f w true) (hw : coreViewBad f w.toNat = false)
    (hv : (s.ctx f).view (isCore f) w.toNat = some v) (hdet : det = true → bitAt (s.ctx f).detm 0 = false)
    (hhost : View.space v = 3 → hostOk = true) (hb : ExternalBounds v (off (s.ctx f)) n A) (hl : s.locate f v A n u = .ok l) (ha : A % n = 0)
    (hpin : s.pinRoom (s.partOf f) (dieOf f) ((accessPin s f A u l).toList.map fun p => (p.page, p.size)) = true) :
    external rs w off n u kind dest det hostOk s =
      s.enterXq f ⟨kind (s.ctx f), ⟨w.toNat, v, none⟩, A, l, accessPin s f A u l, n, dest, []⟩
        (u = .read || XKind.isStep (kind (s.ctx f))) (u = .write) := by
  unfold external
  rw [me_agent h.1, if_neg (by simp [hw]), ordered_ready _ h ho]
  dsimp only
  rw [if_neg (by simpa using hdet), hv]
  dsimp only
  rw [externalCheck_ok hb hl ha]
  dsimp only
  rw [if_neg (by
    simp only [Bool.and_eq_true, Bool.not_eq_true', decide_eq_true_eq, not_and]
    exact fun hno hspace => absurd (hhost hspace) (by simp [hno]))]
  cases l
  all_goals
    dsimp only [accessPin] at hpin ⊢
    simp only [if_true, Bool.false_eq_true, if_false, hpin, Bool.not_true]
    cases kind (s.ctx f) <;> rfl

/-- A write is located only where no launch that runs has its code (R77). -/
theorem located_codePage {s : State} {f A n a : Nat} {v : Line} {x : Bool} (h : s.locate f v A n .write = .ok (.dev a x)) :
    s.codePage (s.partOf f) a = false := by
  unfold State.locate at h
  dsimp only at h
  split at h
  · cases h
  · cases h
  · split at h
    · cases h
    · next y hy =>
      by_cases hcode : s.codePage (s.partOf f) y.phys = true
      · simp [hcode] at h
      · simp only [hcode, Bool.and_false, Bool.false_eq_true, if_false, Except.ok.injEq] at h
        unfold locOf at h
        split at h
        · cases h
        · cases h
          exact Bool.not_eq_true _ ▸ hcode
  · split at h <;> cases h
  · split at h <;> cases h

/-- An access whose location can be reached is an entry that performs. -/
theorem located_succeeds {s : State} {f A n : Nat} {v : Line} {u : Use} {l : Loc} {e : XqEntry} (hl : s.locate f v A n u = .ok l)
    (hr : reachable s l n) (hloc : e.loc = l) (hsize : e.size = n) (hu : e.kind.writes = true → u = .write) : Succeeds s f e := by
  subst hloc hsize
  refine ⟨hr, fun a x hax hw => ?_⟩
  rw [hu hw, hax] at hl
  exact located_codePage hl

/-- What an instruction that makes an entry does with it (R114, R115): the entry joins the queue, or performs at once where nothing is ahead of it
and nothing holds it back. -/
def Joins (s : State) (f : Nat) (e : XqEntry) (j : Instr) : Prop :=
  if s.defer = true ∨ (s.ctx f).xq ≠ [] ∨ s.entryHeld f 0 e = true then
    exec j s =
      .next ((accessWalk s f e.addr e.pin).setCtx f { (s.ctx f).retire ((s.ctx f).pc + 4) with xq := (s.ctx f).xq ++ [e] })
  else ∃ q, SameQueue q (s.ctx f).vq ∧ exec j s =
    .next ((entryMemory (accessWalk s f e.addr e.pin) e).setCtx f
      { ((s.ctx f).setS e.dest (entryValue s e)).retire ((s.ctx f).pc + 4) with vq := q, raises := raisesPast (s.ctx f) })

/-- An external access whose checks pass joins the queue, or performs at once (R114, R115). -/
theorem external_joins {s : State} {f A n dest : Nat} {rs : List Nat} {w : BitVec 4} {off : Ctx → Dword} {u : Use} {kind : Ctx → XKind}
    {det hostOk : Bool} {v : Line} {l : Loc} {j : Instr} (hj : exec j s = .next (external rs w off n u kind dest det hostOk s))
    (hfits : XKind.Fits n (kind (s.ctx f))) (hu : (kind (s.ctx f)).writes = true → u = .write) (h : Ready s f rs) (ho : InOrder s f w true) (hw : coreViewBad f w.toNat = false)
    (hv : (s.ctx f).view (isCore f) w.toNat = some v) (hdet : det = true → bitAt (s.ctx f).detm 0 = false)
    (hhost : View.space v = 3 → hostOk = true) (hb : ExternalBounds v (off (s.ctx f)) n A) (hl : s.locate f v A n u = .ok l) (ha : A % n = 0)
    (hroom : (s.ctx f).xq.length < 16) (hr : reachable s l n)
    (hpin : s.pinRoom (s.partOf f) (dieOf f) ((accessPin s f A u l).toList.map fun p => (p.page, p.size)) = true)
    (hwatch : s.watched f v A n (u = .read || XKind.isStep (kind (s.ctx f))) (u = .write) = false) :
    Joins s f ⟨kind (s.ctx f), ⟨w.toNat, v, none⟩, A, l, accessPin s f A u l, n, dest, []⟩ j := by
  unfold Joins
  simp only [hj, Outcome.next.injEq]
  rw [external_enters h ho hw hv hdet hhost hb hl ha hpin]
  exact enterXq_unwatched hroom hwatch hfits (located_succeeds hl hr rfl rfl hu)

/-- The value and the compared value of a scalar atomic fit its size (R210). -/
theorem atomic_fits (op n : Nat) (b d : Dword) : XKind.Fits n (.atomic op (b.toNat % 2 ^ (8 * n)) (d.toNat % 2 ^ (8 * n))) :=
  ⟨Nat.mod_lt _ (Nat.two_pow_pos _), Nat.mod_lt _ (Nat.two_pow_pos _)⟩

/-- An atomic that joins the queue or performs at once, from the same of the operation that it stands for. -/
theorem atomic_joins {s : State} {f A op : Nat} {d a b : BitVec 5} {w : BitVec 4} {y : BitVec 1} {ret hostOk : Bool} {v : Line} {l : Loc} {j : Instr}
    (hj : exec j s = .next (atomic op ret hostOk d a b w y s)) (h : Ready s f [d.toNat, a.toNat, b.toNat]) (ho : InOrder s f w true) (hw : coreViewBad f w.toNat = false)
    (hv : (s.ctx f).view (isCore f) w.toNat = some v) (hdet : ret = true → bitAt (s.ctx f).detm 0 = false)
    (hhost : View.space v = 3 → hostOk = true) (hb : ExternalBounds v ((s.ctx f).s a.toNat) (4 * 2 ^ y.toNat) A)
    (hl : s.locate f v A (4 * 2 ^ y.toNat) .write = .ok l) (ha : A % (4 * 2 ^ y.toNat) = 0)
    (hroom : (s.ctx f).xq.length < 16) (hr : reachable s l (4 * 2 ^ y.toNat))
    (hpin : s.pinRoom (s.partOf f) (dieOf f) ((accessPin s f A .write l).toList.map fun p => (p.page, p.size)) = true)
    (hwatch : s.watched f v A (4 * 2 ^ y.toNat) true true = false) :
    Joins s f ⟨.atomic op (((s.ctx f).s b.toNat).toNat % 2 ^ (8 * (4 * 2 ^ y.toNat))) (((s.ctx f).s d.toNat).toNat % 2 ^ (8 * (4 * 2 ^ y.toNat))),
      ⟨w.toNat, v, none⟩, A, l, accessPin s f A .write l, 4 * 2 ^ y.toNat, if ret then d.toNat else 0, []⟩ j := by
  exact external_joins
    (kind := fun c => .atomic op ((c.s b.toNat).toNat % 2 ^ (8 * (4 * 2 ^ y.toNat))) ((c.s d.toNat).toNat % 2 ^ (8 * (4 * 2 ^ y.toNat))))
    hj (atomic_fits ..) (fun _ => rfl) h ho hw hv hdet hhost hb hl ha hroom hr hpin hwatch

/-- Settles O10: every one of the twenty forms is the one operation `external`, which joins the queue or performs at once. -/
theorem externalAccessesEnterTheQueue : Obligations.ExternalAccessesEnterTheQueue := by
  unfold Obligations.ExternalAccessesEnterTheQueue
  intro s f d a b w z i y v A l c B m arg enters atomics returning
  refine ⟨?_, ?_, ?_, ?_⟩
  · unfold enters
    intro pin e s0 h ho hw hv hb hl ha hroom hr hpin hwatch
    exact external_joins (j := .ldx d a w z i) rfl (kind := fun _ => .load) trivial (fun hk => by cases hk) h ho hw hv (fun hk => by cases hk) (fun _ => rfl) hb hl ha
      hroom hr hpin hwatch
  · unfold enters
    intro pin e s0 h ho hw hv hb hl ha hroom hr hpin hwatch
    exact external_joins (j := .stx d a w z i) rfl (kind := fun c => .store (c.s d.toNat).toNat) trivial (fun _ => rfl) h ho hw hv (fun hk => by cases hk) (fun _ => rfl)
      hb hl ha hroom hr hpin hwatch
  · have hjoins (j : Instr) (op : Nat) (hostOk : Bool) (hj : exec j s = .next (atomic op false hostOk 0 a b w y s))
        (hhost : View.space v = 3 → hostOk = true) :
        enters j [0, a.toNat, b.toNat] (c.s a.toNat) m .write (.atomic op (arg b) 0) 0 true := by
      unfold enters
      intro pin e s0 h ho hw hv hb hl ha hroom hr hpin hwatch
      exact atomic_joins (d := 0) (ret := false) hj h ho hw hv (fun hk => by cases hk) hhost hb hl ha hroom hr hpin hwatch
    intro p hp hhost
    simp only [atomics, List.mem_cons, List.not_mem_nil, or_false] at hp
    obtain rfl | rfl | rfl | rfl | rfl | rfl | rfl | rfl := hp
    · exact hjoins _ 0 true rfl fun _ => rfl
    all_goals exact hjoins _ _ false rfl fun hspace => absurd (hhost hspace) (by simp)
  · have hjoins (j : Instr) (op : Nat) (hostOk : Bool) (hj : exec j s = .next (atomic op true hostOk d a b w y s))
        (hdet : bitAt c.detm 0 = false) (hhost : View.space v = 3 → hostOk = true) :
        enters j [d.toNat, a.toNat, b.toNat] (c.s a.toNat) m .write (.atomic op (arg b) (arg d)) d.toNat true := by
      unfold enters
      intro pin e s0 h ho hw hv hb hl ha hroom hr hpin hwatch
      exact atomic_joins (ret := true) hj h ho hw hv (fun _ => hdet) hhost hb hl ha hroom hr hpin hwatch
    intro p hp hhost hdet
    simp only [returning, List.mem_cons, List.not_mem_nil, or_false] at hp
    obtain rfl | rfl | rfl | rfl | rfl | rfl | rfl | rfl | rfl | rfl := hp
    · exact hjoins _ 0 true rfl hdet fun _ => rfl
    case inr.inr.inr.inr.inr.inr.inr.inr.inl => exact hjoins _ 8 true rfl hdet fun _ => rfl
    case inr.inr.inr.inr.inr.inr.inr.inr.inr => exact hjoins _ 9 true rfl hdet fun _ => rfl
    all_goals exact hjoins _ _ false rfl hdet fun hspace => absurd (hhost hspace) (by simp)

/-! ### An entry that no instruction makes (R210) -/

/-- An `acas` of 4 bytes whose compared value has a bit above them. -/
def wideCompare : XqEntry := ⟨.atomic 9 1 (2 ^ 32), ⟨0, 0, none⟩, 0, .scr 0, none, 4, 0, []⟩

/-- Context 0 has it as the oldest entry of its queue. -/
def wideQueued : State := State.reset.setCtx 0 { Ctx.reset with life := .running, xq := [wideCompare] }

theorem wideQueued_performs : (wideQueued.ctx 0).xq = [wideCompare] ∧ wideQueued.accessing 0 = true ∧ wideQueued.entryHeld 0 0 wideCompare = false ∧
    wideQueued.entryFails 0 wideCompare = false := by decide +kernel

/-- The model compares the whole number and leaves 0 in memory; on words of 32 bits the compared value is 0, and 1 is stored. -/
theorem wideQueued_memory : (wideQueued.completeAt 0 0 false).scr.read 0 4 = 0 ∧ (entryMemory wideQueued wideCompare).scr.read 0 4 = 1 := by
  decide +kernel

/-- Refutes O11: the statement takes an atomic's operands on words of the entry's size, and its hypotheses allow an entry whose operands are
wider than that, which the model compares as it stands. No instruction makes such an entry (`atomic_fits`). -/
theorem not_queueEntriesCompleteOldestFirst : ¬ Obligations.QueueEntriesCompleteOldestFirst := by
  unfold Obligations.QueueEntriesCompleteOldestFirst
  intro h
  obtain ⟨hxq, haccess, hheld, hfails⟩ := wideQueued_performs
  obtain ⟨hmodel, hstated⟩ := wideQueued_memory
  obtain ⟨-, hperforms, -⟩ := h wideQueued 0 wideCompare [] hxq haccess
  obtain ⟨q, -, hexec⟩ := hperforms hheld (entryFails_eq_false_iff.1 hfails)
  have hturn : exec (.xqEntryComplete 0 false) wideQueued = .next (wideQueued.completeAt 0 0 false) := by
    change Outcome.next (if wideQueued.accessing 0 then wideQueued.accessTurn 0 0 false else wideQueued) = _
    rw [if_pos haccess]
    unfold State.accessTurn
    simp [hxq, hheld]
  rw [hturn, Outcome.next.injEq] at hexec
  rw [hexec] at hmodel
  exact absurd (hmodel.symm.trans hstated) (by decide)

end Sys2Proof.Proofs
end

section
/-! SUPPORT. Scratch accesses: a store over cells that no run makes, and the traps of R112 with what a stop leaves of registers and scratchpads (R440, R453). -/

namespace Sys2Proof.Proofs

open Sys2Proof Sys2Proof.Machine Sys2Proof.Laws Sys2Proof.Safety Host

/-! ### A store over two cells of one byte (R111) -/

/-- Context 0 runs with s0 = 0, and its scratchpad holds two cells for byte 0. -/
def twoCells : State := { State.reset.setCtx 0 { Ctx.reset with life := .running } with cur := .agent 0, scr := [(0, 1), (0, 2)] }

/-- The scratchpads after an instruction that completes. -/
def scrAfter : Out → Mem
  | .next s => s.scr
  | _ => []

theorem twoCells_ok :
    ScratchOk twoCells 0 [(0 : BitVec 5).toNat, (0 : BitVec 5).toNat] 0 View.w0
      ((twoCells.ctx 0).s (0 : BitVec 5).toNat + ((0 : BitVec 10).signExtend 64 <<< (0 : BitVec 2).toNat)) (2 ^ (0 : BitVec 2).toNat) true ∧
    twoCells.watched 0 View.w0 (View.base View.w0 +
      ((twoCells.ctx 0).s (0 : BitVec 5).toNat + ((0 : BitVec 10).signExtend 64 <<< (0 : BitVec 2).toNat)).toNat)
      (2 ^ (0 : BitVec 2).toNat) false true = false := by
  unfold ScratchOk
  decide +kernel

theorem twoCells_byte : scrByte 0 View.w0 (View.base View.w0 +
    ((twoCells.ctx 0).s (0 : BitVec 5).toNat + ((0 : BitVec 10).signExtend 64 <<< (0 : BitVec 2).toNat)).toNat) + 0 = 0 ∧
    ((twoCells.ctx 0).s (0 : BitVec 5).toNat).extractLsb' (8 * 0) 8 = 0 := by decide +kernel

/-- The store of a zero byte removes the first cell, and the second shows. -/
theorem twoCells_store : Mem.get (scrAfter (exec (.st 0 0 0 0 0) twoCells)) 0 = 2 := by decide +kernel

/-- Refutes O8: a store of zero removes the cell of its byte, and the statement's hypotheses allow a memory with a second cell for the same byte, which
then shows. Every memory of a run has one cell for each byte (`Mem.wf`). -/
theorem not_scratchAccessesMoveTheirBytes : ¬ Obligations.ScratchAccessesMoveTheirBytes := by
  unfold Obligations.ScratchAccessesMoveTheirBytes
  intro h
  obtain ⟨-, hst⟩ := h twoCells 0 0 0 0 0 0 View.w0
  obtain ⟨m, hexec, hbytes, -⟩ := hst twoCells_ok.1 twoCells_ok.2
  have hmodel := twoCells_store
  rw [hexec] at hmodel
  have hbyte := hbytes 0 (by decide)
  rw [twoCells_byte.1, twoCells_byte.2] at hbyte
  exact absurd (hmodel.symm.trans hbyte) (by decide)

/-! ### What a stop leaves of registers and scratchpads where nothing is queued (R440, R453) -/

/-- Two states agree on a context's scalar registers and queues, on the scratchpads and on the mills. -/
def SameScratch (f : Nat) (s t : State) : Prop :=
  (t.ctx f).sregs = (s.ctx f).sregs ∧ (t.ctx f).vq = (s.ctx f).vq ∧ (t.ctx f).xq = (s.ctx f).xq ∧ t.scr = s.scr ∧ t.mills = s.mills

theorem SameScratch.trans {f : Nat} {s t u : State} (h : SameScratch f s t) (h' : SameScratch f t u) : SameScratch f s u := by
  obtain ⟨hr, hv, hx, hs, hm⟩ := h
  obtain ⟨hr', hv', hx', hs', hm'⟩ := h'
  exact ⟨hr'.trans hr, hv'.trans hv, hx'.trans hx, hs'.trans hs, hm'.trans hm⟩

theorem SameScratch.refl (f : Nat) (s : State) : SameScratch f s s := ⟨rfl, rfl, rfl, rfl, rfl⟩

/-- A raise changes its counter and its own queue. -/
theorem raiseNext_sameScratch (s : State) (f : Nat) : SameScratch f s (s.raiseNext f) := by
  unfold State.raiseNext
  split
  · exact .refl f s
  · split
    · unfold State.modCtx SameScratch
      simp only [ctx_setCtx_same]
      exact ⟨rfl, rfl, rfl, rfl, rfl⟩
    · exact .refl f s

/-- With an empty external queue only raises are left to complete. -/
theorem drainSome_sameScratch {f : Nat} (n : Nat) {s : State} (hx : (s.ctx f).xq = []) : SameScratch f s (State.drainSome f n s) := by
  induction n generalizing s with
  | zero => exact .refl f s
  | succ n ih =>
    unfold State.drainSome
    split
    · have hraise := raiseNext_sameScratch s f
      exact hraise.trans (ih (hraise.2.2.1.trans hx))
    · rw [if_pos (by rw [hx]; rfl)]
      exact .refl f s

/-- No stream write that waits, none to perform. -/
theorem settleWrites_none {f : Nat} (n : Nat) {s : State} (h : s.streamWritesPending f = false) : State.settleWrites f n s = s := by
  cases n with
  | zero => rfl
  | succ n =>
    unfold State.settleWrites
    have hone : ((s.mill (millOf f)).ports.findSome? fun e =>
        (e.2.find? fun b => decide (b.flat = f) && !b.pend.isEmpty && s.afterOthers b).map fun b => (e.1, b)) = none := by
      rw [List.findSome?_eq_none_iff]
      intro e he
      rw [Option.map_eq_none_iff, List.find?_eq_none]
      intro b hb hfound
      unfold State.streamWritesPending at h
      rw [List.any_eq_false] at h
      refine absurd (List.any_eq_true.2 ⟨b, hb, ?_⟩) (h e he)
      simp only [Bool.and_eq_true] at hfound ⊢
      exact hfound.1
    rw [hone]

theorem settleStreams_frame {s : State} {f : Nat} (h : s.streamWritesPending f = false) : ∃ m, s.settleStreams f = { s with mills := m } := by
  unfold State.settleStreams
  rw [settleWrites_none 8 h]
  exact ⟨_, rfl⟩

theorem ringTrap_frame (s : State) (part : Nat) (stage2 : Bool) (r : Line) :
    ∃ d w g i, s.ringTrap part stage2 r = { s with dev := d, walked := w, regs := g, interrupts := i } := by
  unfold State.ringTrap
  generalize (if stage2 then Window.part part else Window.cx part) = v
  generalize (if stage2 then 0x100 else 0x30) = o
  dsimp only
  split
  · next t ht =>
    obtain ⟨d, w, rfl⟩ := ringStore_frame ht
    split <;> exact ⟨_, _, _, _, rfl⟩
  · exact ⟨_, s.walked, _, _, rfl⟩

/-- What a stop does after its context has stopped leaves the context and the scratchpads as they are. -/
theorem stopRest_keeps (s : State) (f part : Nat) (c : Ctx) (stage2 : Bool) (r : Line) :
    (((s.setCtx f c).releasePins f).ringTrap part stage2 r).ctx f = c ∧ (((s.setCtx f c).releasePins f).ringTrap part stage2 r).scr = s.scr := by
  obtain ⟨d, w, g, i, hring⟩ := ringTrap_frame ((s.setCtx f c).releasePins f) part stage2 r
  rw [hring]
  exact ⟨ctx_setCtx_same s f c, rfl⟩

/-- The discard of R449 finds nothing in an empty queue. -/
theorem settleQueue_sregs {c : Ctx} (h : c.vq = []) : c.settleQueue.sregs = c.sregs ∧ c.settleQueue.discard.sregs = c.sregs := by
  have hqueue : c.settleQueue.vq = [] ∧ c.settleQueue.sregs = c.sregs := by
    unfold Ctx.settleQueue Ctx.behind
    simp [h, kept]
  refine ⟨hqueue.2, ?_⟩
  have hpushed : c.settleQueue.pushed = none := by
    unfold Ctx.pushed
    simp [hqueue.1]
  unfold Ctx.discard
  rw [hpushed]
  exact hqueue.2

theorem stopAs_withdraw_sregs (c : Ctx) (r : Line) : (State.stopAs (Ctx.withdraw c) r).sregs = c.sregs := rfl

/-- A stop with nothing queued leaves the scalar registers and the scratchpads as they are. -/
theorem stopContext_keeps {s : State} {f pc elem code : Nat} {t : Trap} {ethr : Bool} (hv : (s.ctx f).vq = []) (hx : (s.ctx f).xq = [])
    (hw : s.streamWritesPending f = false) :
    ((s.stopContext f t pc elem code ethr).ctx f).sregs = (s.ctx f).sregs ∧ (s.stopContext f t pc elem code ethr).scr = s.scr := by
  obtain ⟨hsregs, hvq, -, hscr, hmills⟩ : SameScratch f s (s.drainXq f) := drainSome_sameScratch _ hx
  have hwrites : (s.drainXq f).streamWritesPending f = false := by
    unfold State.streamWritesPending State.mill at hw ⊢
    rw [hmills]
    exact hw
  obtain ⟨m, hm⟩ := settleStreams_frame hwrites
  unfold State.stopContext
  dsimp only
  obtain ⟨hctx, hrest⟩ := stopRest_keeps ((s.drainXq f).settleStreams f) f (s.partOf f)
    (State.stopAs (Ctx.withdraw (if t.cause = 0x0D then (((s.drainXq f).settleStreams f).ctx f).settleQueue
      else (((s.drainXq f).settleStreams f).ctx f).settleQueue.discard)) (((s.drainXq f).settleStreams f).recordOf f t pc elem code ethr))
    t.stage2 (((s.drainXq f).settleStreams f).recordOf f t pc elem code ethr)
  rw [hctx, hrest, hm]
  refine ⟨?_, hscr⟩
  obtain ⟨hset, hdisc⟩ := settleQueue_sregs (hvq.trans hv)
  have hsame : State.ctx { s.drainXq f with mills := m } f = (s.drainXq f).ctx f := rfl
  rw [hsame, stopAs_withdraw_sregs]
  split
  · exact hset.trans hsregs
  · exact hdisc.trans hsregs

/-! ### The checks of R112 -/

/-- What a store may go ahead of, a load may. -/
theorem inOrder_load {s : State} {f : Nat} {w : BitVec 4} (h : InOrder s f w true) : InOrder s f w false := by
  obtain ⟨hheld, hroom⟩ := h
  refine ⟨?_, hroom⟩
  unfold State.orderHeld at hheld ⊢
  simp only [Bool.or_eq_false_iff] at hheld ⊢
  obtain ⟨⟨-, hmeets⟩, hcore⟩ := hheld
  exact ⟨⟨rfl, hmeets⟩, hcore⟩

section Checks

variable {s : State} {f : Nat} {d a : BitVec 5} {w : BitVec 4} {z : BitVec 2} {i : BitVec 10}

/-- The three scratch accesses. -/
def scratchForms (d a : BitVec 5) (w : BitVec 4) (z : BitVec 2) (i : BitVec 10) : List Instr := [.ld d a w z i, .ldn d a w z i, .st d a w z i]

/-- Each of the three takes the trap of an unset view, or the one that its checks find. -/
theorem scratch_traps {t : Trap} (h : Ready s f [d.toNat, a.toNat]) (hs : Settled s f) (ho : InOrder s f w true) (hw : coreViewBad f w.toNat = false)
    (ht : ((s.ctx f).view (isCore f) w.toNat = none ∧ t = .access 0) ∨ ∃ v, (s.ctx f).view (isCore f) w.toNat = some v ∧
      scratchCheck (s.scratchBad f v (2 ^ z.toNat)) v (memOffset (s.ctx f) a z i).toInt (2 ^ z.toNat) = .error t) :
    ∀ j ∈ scratchForms d a w z i, exec j s = .next (stopped s f t) := by
  have hload (ext : Nat → Nat → Dword) : scratchLoad ext d a w z i s = stopped s f t := by
    unfold scratchLoad
    dsimp only
    rw [me_agent h.1, if_neg (by simp [hw]), ordered_ready _ h (inOrder_load ho)]
    obtain ⟨hv, rfl⟩ | ⟨v, hv, hcheck⟩ := ht
    · simp only [hv, trapHere_settled _ h.2.2.2.1 hs]
    · simp only [hv, hcheck, trapHere_settled _ h.2.2.2.1 hs]
  have hstore : execSt d a w z i s = .next (stopped s f t) := by
    unfold execSt
    dsimp only
    rw [me_agent h.1, if_neg (by simp [hw]), ordered_ready _ h ho]
    obtain ⟨hv, rfl⟩ | ⟨v, hv, hcheck⟩ := ht
    · simp only [hv, trapHere_settled _ h.2.2.2.1 hs]
    · simp only [hv, hcheck, trapHere_settled _ h.2.2.2.1 hs]
  intro j hj
  simp only [scratchForms, List.mem_cons, List.not_mem_nil, or_false] at hj
  obtain rfl | rfl | rfl := hj
  · exact congrArg Outcome.next (hload sextBytes)
  · exact congrArg Outcome.next (hload zextBytes)
  · exact hstore

end Checks

/-- Settles O9: the checks of `scratchCheck` in their order, each a stop with nothing before it under way. -/
theorem scratchChecksTrapInOrder : Obligations.ScratchChecksTrapInOrder := by
  unfold Obligations.ScratchChecksTrapInOrder
  intro s f d a w z i c n B traps h hs ho hw
  have htraps {t : Trap} (ht : ((s.ctx f).view (isCore f) w.toNat = none ∧ t = .access 0) ∨ ∃ v, (s.ctx f).view (isCore f) w.toNat = some v ∧
      scratchCheck (s.scratchBad f v n) v B n = .error t) : traps t :=
    ⟨scratch_traps h hs ho hw ht, stopContext_keeps⟩
  refine ⟨fun hv => htraps (.inl ⟨hv, rfl⟩), ?_⟩
  intro v hv plain inside at' struck
  have hplain : (1 < View.space v || View.rank v ≠ 1 || View.stride v 0 ≠ 1 || View.whole v) = true ↔ ¬ plain := by
    simp only [plain, Bool.or_eq_true, decide_eq_true_eq]
    by_cases hwhole : View.whole v
    · simp [hwhole]
    · simp [hwhole]
      omega
  have hinside : (B < 0 || (View.ext v 0 * View.size v : Nat) < B + n : Bool) = true ↔ ¬ inside := by
    simp only [inside, Bool.or_eq_true, decide_eq_true_eq]
    push_cast
    omega
  have hbad (hp : plain) : s.scratchBad f v n at' = s.struck (.scr (scrByte f v at')) n := by
    unfold State.scratchBad
    rw [locate_scratch _ _ _ hp.1]
  refine ⟨fun hp => htraps (.inr ⟨v, hv, ?_⟩), fun hp hi => htraps (.inr ⟨v, hv, ?_⟩), fun hp hi hst => htraps (.inr ⟨v, hv, ?_⟩),
    fun hp hi hst ha => htraps (.inr ⟨v, hv, ?_⟩)⟩
  all_goals unfold scratchCheck
  · rw [if_pos (hplain.2 hp)]
  · rw [if_neg (by rw [hplain, not_not]; exact hp), if_pos (hinside.2 hi)]
  · rw [if_neg (by rw [hplain, not_not]; exact hp), if_neg (by rw [hinside, not_not]; exact hi), if_pos ((hbad hp).trans hst)]
  · rw [if_neg (by rw [hplain, not_not]; exact hp), if_neg (by rw [hinside, not_not]; exact hi), if_neg (by rw [hbad hp]; exact hst), if_pos ha]

end Sys2Proof.Proofs
end

section
/-! SUPPORT. Fences and sequence counters (R117, R164, R213, R215, R216). -/

namespace Sys2Proof.Proofs

open Sys2Proof Sys2Proof.Machine Sys2Proof.Laws Sys2Proof.Safety Host

/-! ### What a fence waits for (R164, R213) -/

/-- An access of a vector instruction through a view of a mask has yet to perform. -/
def VectorOpen (c : Ctx) (m : BitVec 16) : Prop := ∃ e ∈ c.vq, e.done = false ∧ ∃ x, e.via = some x ∧ m.getLsbD x.reg = true

/-- A vector instruction of one of some operation codes has yet to complete. -/
def HoldsOp (c : Ctx) (ops : List Nat) : Prop := ∃ e ∈ c.vq, e.done = false ∧ opOf e.word ∈ ops

/-- An access through a view of a mask has yet to perform. -/
def ViewOpen (s : State) (f : Nat) (m : BitVec 16) : Prop :=
  VectorOpen (s.ctx f) m ∨ (∃ e ∈ (s.ctx f).xq, m.getLsbD e.via.reg = true) ∨ (m.getLsbD 0 = true ∧ s.matIdle f = false)

theorem viaNamed_iff {m : BitVec 16} (v : Option Via) : (v.map fun x => bitAt m x.reg).getD false = true ↔ ∃ x, v = some x ∧ m.getLsbD x.reg = true := by
  cases v with
  | none => simp
  | some x => simp [bitAt]

theorem fenceVector_iff {c : Ctx} {whole : Bool} {m : BitVec 16} : State.fenceVector c whole m = true ↔
    VectorOpen c m ∨ ((m ≠ 0 ∨ whole = true) ∧ HoldsOp c [0x1F]) ∨ (whole = true ∧ HoldsOp c [0x2C]) := by
  unfold State.fenceVector VectorOpen HoldsOp
  simp only [List.any_eq_true, Bool.and_eq_true, Bool.or_eq_true, viaNamed_iff, Bool.not_eq_true', decide_eq_true_eq, List.mem_singleton]
  constructor
  · rintro ⟨e, he, hopen, (⟨hm, hop⟩ | hvia) | ⟨hwhole, hop⟩⟩
    · exact .inr (.inl ⟨hm, e, he, hopen, hop⟩)
    · exact .inl ⟨e, he, hopen, hvia⟩
    · exact .inr (.inr ⟨hwhole, e, he, hopen, hop⟩)
  · rintro (⟨e, he, hopen, hvia⟩ | ⟨hm, e, he, hopen, hop⟩ | ⟨hwhole, e, he, hopen, hop⟩)
    · exact ⟨e, he, hopen, .inl (.inr hvia)⟩
    · exact ⟨e, he, hopen, .inl (.inl ⟨hm, hop⟩)⟩
    · exact ⟨e, he, hopen, .inr ⟨hwhole, hop⟩⟩

theorem holdsOp_pair_iff {c : Ctx} {x y : Nat} : HoldsOp c [x, y] ↔ HoldsOp c [x] ∨ HoldsOp c [y] := by
  unfold HoldsOp
  simp only [List.mem_cons, List.not_mem_nil, or_false, and_or_left, exists_or]

theorem fenceWaits_views_iff {s : State} {f : Nat} {m : BitVec 16} : s.fenceWaits f false m = true ↔
    ViewOpen s f m ∨ (m ≠ 0 ∧ HoldsOp (s.ctx f) [0x1F]) := by
  unfold State.fenceWaits Via.inMask ViewOpen
  simp only [Bool.or_eq_true, Bool.and_eq_true, fenceVector_iff, List.any_eq_true, Bool.false_or, Bool.not_eq_true', bitAt, Bool.false_eq_true,
    false_and, or_false, or_assoc]
  exact or_congr_right (by simp only [or_comm, or_assoc])

theorem fenceWaits_all_iff {s : State} {f : Nat} {m : BitVec 16} : s.fenceWaits f true m = true ↔
    ViewOpen s f m ∨ HoldsOp (s.ctx f) [0x1F, 0x2C] ∨ (s.ctx f).xq ≠ [] ∨ s.streamWritesPending f = true := by
  have hxq : (∃ x, x ∈ (s.ctx f).xq) ↔ (s.ctx f).xq ≠ [] := by
    rw [← List.length_pos_iff, List.length_pos_iff_exists_mem]
  have hnamed : (∃ e ∈ (s.ctx f).xq, m.getLsbD e.via.reg = true) → (s.ctx f).xq ≠ [] := fun ⟨e, he, _⟩ => List.ne_nil_of_mem he
  unfold State.fenceWaits Via.inMask ViewOpen
  simp only [Bool.or_eq_true, Bool.and_eq_true, fenceVector_iff, List.any_eq_true, Bool.true_or, Bool.not_eq_true', bitAt, holdsOp_pair_iff, true_and,
    or_true, and_true, hxq]
  generalize (∃ e ∈ (s.ctx f).xq, m.getLsbD e.via.reg = true) = X at hnamed ⊢
  tauto

/-- A fence completes where nothing that it names is open, and waits otherwise. -/
theorem fence_ready {s : State} {f : Nat} {whole : Bool} {m : BitVec 16} (h : Ready s f []) (hm : coreMaskBad f m = false) :
    fence whole m s = if s.fenceWaits f whole m then waiting s f (.fence whole m) else next s f (s.ctx f) := by
  unfold fence
  rw [me_agent h.1, if_neg (by simp [hm]), scalar_ready _ h, stall_waits _ h.2.2.2.1]

/-! ### Counters (R49, R216) -/

section Counters

variable {s : State} {f : Nat} {d a b : BitVec 5}

theorem counterCheck_below {c : Ctx} (h : (c.s a.toNat).toNat < 320) : counterCheck a f c = none := if_neg (Nat.not_le.2 h)
theorem counterCheck_above {c : Ctx} (h : 320 ≤ (c.s a.toNat).toNat) : counterCheck a f c = some .operand := if_pos h

/-- A word that fails its check traps at once, where nothing is before it. -/
theorem checked_stops {rs : List Nat} {bad : Nat → Ctx → Option Trap} {t : Trap} (k : Nat → Ctx → State → State) (h : Ready s f rs)
    (hs : Settled s f) (hb : bad f (s.ctx f) = some t) : s.checked bad rs k = stopped s f t := by
  unfold State.checked
  simp only [h.1, h.2.1, Bool.false_eq_true, if_false, hb]
  exact trapHere_settled t h.2.2.2.1 hs

theorem counter_raise_same (bay part n inc : Nat) : (s.raise bay part n inc).counter bay part n =
    BitVec.ofNat 64 (min (2 ^ 64 - 1) ((s.counter bay part n).toNat + inc)) := getD_put_same ..

theorem counter_raise_other {bay part n inc y p j : Nat} (h : State.counterKey y p j ≠ State.counterKey bay part n) :
    (s.raise bay part n inc).counter y p j = s.counter y p j := getD_put_other _ _ _ _ _ h

end Counters

/-- Settles O12: `fence_ready` with what `fenceWaits` means, and the counter check before each access of a counter. -/
theorem fencesAndCountersOrderTheirAgent : Obligations.FencesAndCountersOrderTheirAgent := by
  unfold Obligations.FencesAndCountersOrderTheirAgent
  refine ⟨?_, ?_⟩
  · intro s f k m a c named viewOpen holds restOpen n
    refine ⟨fun h hm => ?_, fun h => ?_⟩
    · have hviews : exec (.fenceV k m) s = .next (fence false m s) := rfl
      have hall : exec (.fenceS k m) s = .next (fence true m s) := rfl
      rw [hviews, hall, fence_ready h hm, fence_ready h hm]
      refine ⟨fun ho => ?_, fun ho => ?_, fun ho => ?_, fun ho => ?_⟩
      · rw [if_neg (mt fenceWaits_views_iff.1 ho)]
      · rw [if_pos (fenceWaits_views_iff.2 ho)]
      · rw [if_neg (mt fenceWaits_all_iff.1 ho)]
      · rw [if_pos (fenceWaits_all_iff.2 ho)]
    · have hexec : exec (.waitx a) s = execWaitx a s := rfl
      rw [hexec]
      unfold execWaitx
      rw [scalar_ready _ h]
      refine ⟨fun hn hfail => ?_, fun hn => ?_⟩
      · have hfew : ¬ ((s.ctx f).s a.toNat).toNat < (s.ctx f).xq.length := Nat.not_lt.2 hn
        have hnone : (s.ctx f).xfail = [] := hfail
        simp only [if_neg hfew, hnone]
        rfl
      · have hmany : ((s.ctx f).s a.toNat).toNat < (s.ctx f).xq.length := hn
        rw [if_pos hmany, stall_waits _ h.2.2.2.1]
  · intro s f d a b c n x value
    refine ⟨fun h => ⟨fun hn => ⟨fun hx => ?_, fun hx => ?_, fun hrel herr => ?_, fun hrel => ?_⟩,
      fun hn hs => ⟨congrArg Outcome.next (checked_stops _ h hs (counterCheck_above hn)),
        congrArg Outcome.next (checked_stops _ h hs (counterCheck_above hn))⟩⟩, fun h hf => ⟨fun hn => ?_, fun hn hs => ?_⟩⟩
    · exact congrArg Outcome.next ((checked_ready _ h (counterCheck_below hn)).trans (if_neg (BitVec.not_lt.2 hx)))
    · exact congrArg Outcome.next ((checked_ready _ h (counterCheck_below hn)).trans ((if_pos hx).trans (stall_waits _ h.2.2.2.1)))
    · refine ⟨(s.raise (bayOf f) (s.partOf f) n x.toNat).counters, ?_, counter_raise_same .., fun y p j hne => counter_raise_other hne⟩
      have hexec : exec (.signal a b) s = execSignal a b s := rfl
      rw [hexec]
      unfold execSignal matChecked
      rw [checked_ready _ h (counterCheck_below hn)]
      have hnone : (s.ctx f).matErr = none := herr
      simp only [hrel, hnone, Bool.not_true, Bool.false_eq_true, if_false]
      rfl
    · have hexec : exec (.signal a b) s = execSignal a b s := rfl
      rw [hexec]
      unfold execSignal
      rw [checked_ready _ h (counterCheck_below hn), if_pos (by simp [hrel]), stall_waits _ h.2.2.2.1]
    · exact congrArg Outcome.next (checked_ready _ h ((if_neg (by simp [not_core hf])).trans (counterCheck_below hn)))
    · exact congrArg Outcome.next (checked_stops _ h hs ((if_neg (by simp [not_core hf])).trans (counterCheck_above hn)))

end Sys2Proof.Proofs
end

section
/-! SUPPORT. The control and status registers (R35 to R42, R50 to R52, R120), with what a change of the grouping factor does (R39). -/

namespace Sys2Proof.Proofs

open Sys2Proof Sys2Proof.Machine Sys2Proof.Laws Sys2Proof.Safety Host

/-! ### The fields of VTYPE (R37) -/

/-- A write of the four writable fields leaves the others. -/
theorem setVtype_fields (w : Dword) {tshape slices rm g : Nat} (ht : tshape < 2 ^ 2) (hs : slices < 2 ^ 4) (hr : rm < 2 ^ 3) (hg : g < 2 ^ 2) :
    bitsAt (setVtype w tshape slices rm g) 0 2 = bitsAt w 0 2 ∧ bitsAt (setVtype w tshape slices rm g) 2 2 = g ∧
      bitsAt (setVtype w tshape slices rm g) 4 2 = bitsAt w 4 2 ∧ bitsAt (setVtype w tshape slices rm g) 6 3 = rm ∧
      bitsAt (setVtype w tshape slices rm g) 9 4 = slices ∧ bitsAt (setVtype w tshape slices rm g) 13 2 = tshape ∧
      bitsAt (setVtype w tshape slices rm g) 15 49 = bitsAt w 15 49 := by
  unfold setVtype
  refine ⟨?_, ?_, ?_, ?_, ?_, ?_, ?_⟩
  · rw [bitsAt_setBits_apart _ _ _ _ _ _ (by omega), bitsAt_setBits_apart _ _ _ _ _ _ (by omega),
      bitsAt_setBits_apart _ _ _ _ _ _ (by omega), bitsAt_setBits_apart _ _ _ _ _ _ (by omega)]
  · rw [bitsAt_setBits_same _ _ _ _ (by omega), Nat.mod_eq_of_lt hg]
  · rw [bitsAt_setBits_apart _ _ _ _ _ _ (by omega), bitsAt_setBits_apart _ _ _ _ _ _ (by omega),
      bitsAt_setBits_apart _ _ _ _ _ _ (by omega), bitsAt_setBits_apart _ _ _ _ _ _ (by omega)]
  · rw [bitsAt_setBits_apart _ _ _ _ _ _ (by omega), bitsAt_setBits_same _ _ _ _ (by omega), Nat.mod_eq_of_lt hr]
  · rw [bitsAt_setBits_apart _ _ _ _ _ _ (by omega), bitsAt_setBits_apart _ _ _ _ _ _ (by omega), bitsAt_setBits_same _ _ _ _ (by omega),
      Nat.mod_eq_of_lt hs]
  · rw [bitsAt_setBits_apart _ _ _ _ _ _ (by omega), bitsAt_setBits_apart _ _ _ _ _ _ (by omega),
      bitsAt_setBits_apart _ _ _ _ _ _ (by omega), bitsAt_setBits_same _ _ _ _ (by omega), Nat.mod_eq_of_lt ht]
  · rw [bitsAt_setBits_apart _ _ _ _ _ _ (by omega), bitsAt_setBits_apart _ _ _ _ _ _ (by omega),
      bitsAt_setBits_apart _ _ _ _ _ _ (by omega), bitsAt_setBits_apart _ _ _ _ _ _ (by omega)]

/-! ### Void bytes of the groups (R31, R39) -/

/-- The bytes of the group at n from byte `lo n` cleared. -/
def voidFrom (rb gb : Nat) (lo : Nat → Nat) (sl : BitVec 524288) (n : Nat) : BitVec 524288 :=
  if lo n < gb then setSliceBytes sl (n * rb + lo n) (gb - lo n) 0 else sl

theorem voidGroup_eq (c : Ctx) (n : Nat) (lo : Nat → Nat) :
    c.voidGroup n (lo n) = { c with slice := voidFrom c.regBytes c.groupBytes lo c.slice n } := by
  unfold Ctx.voidGroup voidFrom
  split <;> rfl

/-- Voiding group after group changes the slice alone. -/
theorem voidGroups_eq (c : Ctx) (m : Nat) (l : List Nat) :
    l.foldl (fun c n => c.voidGroup n (m * c.voidBytes n c.eb)) c =
      { c with slice := l.foldl (voidFrom c.regBytes c.groupBytes fun n => m * c.voidBytes n c.eb) c.slice } := by
  induction l generalizing c with
  | nil => rfl
  | cons n l ih =>
    rw [List.foldl_cons, voidGroup_eq c n fun n => m * c.voidBytes n c.eb, ih]
    rfl

theorem clearedByte {sl : BitVec 524288} {lo n j : Nat} (h : lo ≤ j) (hj : j < lo + n) : sliceBytes (setSliceBytes sl lo n 0) j 1 = 0 := by
  apply Nat.eq_of_testBit_eq
  intro i
  unfold sliceBytes setSliceBytes
  rw [testBit_bitsAt, getLsbD_setBits]
  by_cases hi : i < 8 * 1
  · rw [if_neg (by omega), if_pos (by omega)]
    simp
  · simp [hi]

section Void

variable {rb gb n j : Nat} {lo : Nat → Nat} {sl : BitVec 524288}

theorem voidFrom_apart (h : j < n * rb ∨ n * rb + gb ≤ j) : sliceBytes (voidFrom rb gb lo sl n) j 1 = sliceBytes sl j 1 := by
  unfold voidFrom
  split
  · rw [sliceBytes_set_apart _ _ _ _ _ _ (by omega)]
  · rfl

theorem voidFrom_same (hj : j < n * rb + gb) :
    sliceBytes (voidFrom rb gb lo sl n) j 1 = if j < n * rb + lo n then sliceBytes sl j 1 else 0 := by
  unfold voidFrom
  split
  · split
    · rw [sliceBytes_set_apart _ _ _ _ _ _ (by omega)]
    · exact clearedByte (by omega) (by omega)
  · rw [if_pos (by omega)]

end Void

theorem voidAll_apart {c : Ctx} {lo : Nat → Nat} {r j : Nat} (hr : c.groupOk r = true) (h : r * c.regBytes ≤ j)
    (hj : j < r * c.regBytes + c.groupBytes) : ∀ {l : List Nat} {sl : BitVec 524288}, (∀ n ∈ l, c.groupOk n = true) → r ∉ l →
      sliceBytes (l.foldl (voidFrom c.regBytes c.groupBytes lo) sl) j 1 = sliceBytes sl j 1 := by
  intro l
  induction l with
  | nil => exact fun _ _ => rfl
  | cons n l ih =>
    intro sl hok hnot
    rw [List.mem_cons, not_or] at hnot
    rw [List.foldl_cons, ih (fun x hx => hok x (List.mem_cons_of_mem _ hx)) hnot.2]
    have hapart := groups_apart hr (hok n List.mem_cons_self) hnot.1
    exact voidFrom_apart (by omega)

/-- Where every group of a list is voided once, a byte of one of them is void from its bound up. -/
theorem voidAll_byte {c : Ctx} {lo : Nat → Nat} {r j : Nat} (h : r * c.regBytes ≤ j) (hj : j < r * c.regBytes + c.groupBytes) :
    ∀ {l : List Nat} {sl : BitVec 524288}, (∀ n ∈ l, c.groupOk n = true) → l.Nodup → r ∈ l →
      sliceBytes (l.foldl (voidFrom c.regBytes c.groupBytes lo) sl) j 1 = if j < r * c.regBytes + lo r then sliceBytes sl j 1 else 0 := by
  intro l
  induction l with
  | nil => exact fun _ _ hr => absurd hr List.not_mem_nil
  | cons n l ih =>
    intro sl hok hnd hr
    obtain ⟨hn, hnd⟩ := List.nodup_cons.1 hnd
    have hokl : ∀ x ∈ l, c.groupOk x = true := fun x hx => hok x (List.mem_cons_of_mem _ hx)
    rw [List.foldl_cons]
    by_cases hrn : r = n
    · subst hrn
      rw [voidAll_apart (hok r hr) h hj hokl hn, voidFrom_same hj]
    · have hrl : r ∈ l := (List.mem_cons.1 hr).resolve_left hrn
      have hapart := groups_apart (hokl r hrl) (hok n List.mem_cons_self) hrn
      rw [ih hokl hnd hrl, voidFrom_apart (by omega)]

theorem g_pos (c : Ctx) : 0 < c.g := Nat.two_pow_pos _

theorem g_dvd_nreg (c : Ctx) : c.g ∣ c.nreg := by
  obtain ⟨k, hk, hg⟩ := g_dvd c
  obtain ⟨m, -, hn, -⟩ := nreg_form c
  rw [hg, hn]
  exact Nat.pow_dvd_pow 2 (by omega)

theorem groupBases_ok {c : Ctx} {n : Nat} (h : n ∈ c.groupBases) : c.groupOk n = true := by
  unfold Ctx.groupBases at h
  obtain ⟨k, hk, rfl⟩ := List.mem_map.1 h
  have hlt : c.g * (k + 1) ≤ c.nreg := (Nat.mul_le_mul_left _ (List.mem_range.1 hk)).trans (Nat.mul_div_le _ _)
  have hpos := g_pos c
  unfold Ctx.groupOk
  simp only [Nat.mul_mod_right, decide_true, Bool.and_true, decide_eq_true_eq]
  rw [Nat.mul_succ] at hlt
  omega

theorem groupBases_nodup (c : Ctx) : c.groupBases.Nodup :=
  List.Nodup.map (fun _ _ h => Nat.eq_of_mul_eq_mul_left (g_pos c) h) List.nodup_range

theorem mem_groupBases {c : Ctx} {r : Nat} (hr : r < c.nreg) (hg : r % c.g = 0) : r ∈ c.groupBases := by
  obtain ⟨q, rfl⟩ := Nat.dvd_of_mod_eq_zero hg
  refine List.mem_map.2 ⟨q, List.mem_range.2 ?_, rfl⟩
  rw [← Nat.mul_div_cancel' (g_dvd_nreg c)] at hr
  exact Nat.lt_of_mul_lt_mul_left hr

/-! ### A change of the grouping factor (R39) -/

/-- What `regroup` makes of a context with a new grouping factor in VTYPE. -/
theorem regroup_reconfigured {c : Ctx} {vt : Dword} {tshape slices rm g : Nat}
    (hfields : bitsAt vt 0 2 = bitsAt c.vtype 0 2 ∧ bitsAt vt 2 2 = g ∧ bitsAt vt 4 2 = bitsAt c.vtype 4 2 ∧ bitsAt vt 6 3 = rm ∧
      bitsAt vt 9 4 = slices ∧ bitsAt vt 13 2 = tshape ∧ bitsAt vt 15 49 = bitsAt c.vtype 15 49) :
    Reconfigured c (if g = bitsAt c.vtype 2 2 then { c with vtype := vt } else Ctx.regroup { c with vtype := vt }) tshape slices rm g := by
  obtain ⟨hnreg, hg, heb, -⟩ := id hfields
  have hn : Ctx.nreg { c with vtype := vt } = c.nreg := by unfold Ctx.nreg Ctx.nregCode; rw [hnreg]
  have hrb : Ctx.regBytes { c with vtype := vt } = c.regBytes := by unfold Ctx.regBytes; rw [hn]
  have hgv : Ctx.g { c with vtype := vt } = 2 ^ g := by unfold Ctx.g; rw [hg]
  have hgb : Ctx.groupBytes { c with vtype := vt } = c.regBytes * 2 ^ g := by unfold Ctx.groupBytes; rw [hrb, hgv]
  have hebv : Ctx.eb { c with vtype := vt } = c.eb := by unfold Ctx.eb; rw [heb]
  have hmax : Ctx.vlmaxFor { c with vtype := vt } (Ctx.eb { c with vtype := vt }) = c.regBytes * 2 ^ g / c.eb := by
    unfold Ctx.vlmaxFor; rw [hgb, hebv]
  refine ⟨vt, (Ctx.groupBases { c with vtype := vt }).foldl (voidFrom c.regBytes (c.regBytes * 2 ^ g) fun n =>
    (c.regBytes * 2 ^ g / c.eb) * if c.tag n = .none then c.eb else (c.tag n).bytes) c.slice, hfields, ?_, ?_⟩
  · unfold Ctx.regroup
    dsimp only
    rw [hmax, voidGroups_eq, hrb, hgb, hebv]
    rfl
  · intro _ _ r hr hrg w j hj hjr
    have hok : ∀ n ∈ Ctx.groupBases { c with vtype := vt }, Ctx.groupOk { c with vtype := vt } n = true := fun n hn => groupBases_ok hn
    have hmem : r ∈ Ctx.groupBases { c with vtype := vt } := mem_groupBases (by rw [hn]; exact hr) (by rw [hgv]; exact hrg)
    have hbyte := voidAll_byte (c := { c with vtype := vt }) (r := r) (j := j) (lo := fun n =>
      (c.regBytes * 2 ^ g / c.eb) * if c.tag n = .none then c.eb else (c.tag n).bytes) (sl := c.slice)
      (by rw [hrb]; exact hj) (by rw [hrb, hgb]; exact hjr) hok (groupBases_nodup _) hmem
    rw [hrb, hgb] at hbyte
    exact hbyte

/-- A write of VTYPE with a slice count and a rounding mode that exist. -/
theorem writeVtype_reconfigured {c : Ctx} {v : Dword} (h : 4 ≤ bitsAt v 9 4 ∧ bitsAt v 9 4 ≤ 9 ∧ bitsAt v 6 3 ≤ 4) :
    Reconfigured c (writeVtype c v) (bitsAt v 13 2) (bitsAt v 9 4) (bitsAt v 6 3) (bitsAt v 2 2) := by
  have hfields := setVtype_fields c.vtype (bitsAt_lt v 13 2) (bitsAt_lt v 9 4) (bitsAt_lt v 6 3) (bitsAt_lt v 2 2)
  have hwrite : writeVtype c v = if bitsAt v 2 2 = bitsAt c.vtype 2 2 then
      { c with vtype := setVtype c.vtype (bitsAt v 13 2) (bitsAt v 9 4) (bitsAt v 6 3) (bitsAt v 2 2) }
      else Ctx.regroup { c with vtype := setVtype c.vtype (bitsAt v 13 2) (bitsAt v 9 4) (bitsAt v 6 3) (bitsAt v 2 2) } := by
    unfold writeVtype
    rw [if_neg (by simp only [Bool.or_eq_true, decide_eq_true_eq]; omega)]
    refine if_congr ?_ rfl rfl
    unfold Ctx.g
    rw [Nat.pow_right_inj (by omega)]
    dsimp only
    rw [hfields.2.1]
  rw [hwrite]
  exact regroup_reconfigured hfields

theorem writeVtype_rejected {c : Ctx} {v : Dword} (h : ¬ (4 ≤ bitsAt v 9 4 ∧ bitsAt v 9 4 ≤ 9 ∧ bitsAt v 6 3 ≤ 4)) : writeVtype c v = c := by
  unfold writeVtype
  rw [if_pos (by simp only [Bool.or_eq_true, decide_eq_true_eq]; omega)]

/-! ### MCFG (R51, R365) -/

/-- A write of MCFG sets TMODE, RM and SLICES and leaves every other bit. -/
theorem setMcfg_fields (w v : Dword) :
    bitsAt (setMcfg w v) 0 4 = bitsAt v 0 4 ∧ bitsAt (setMcfg w v) 4 3 = bitsAt v 4 3 ∧ bitAt (setMcfg w v) 7 = bitAt w 7 ∧
      bitsAt (setMcfg w v) 8 8 = bitsAt v 8 8 ∧ bitsAt (setMcfg w v) 16 48 = bitsAt w 16 48 := by
  unfold setMcfg
  refine ⟨?_, ?_, ?_, ?_, ?_⟩
  · rw [bitsAt_setBits_same _ _ _ _ (by omega), Nat.mod_eq_of_lt (bitsAt_lt ..)]
  · rw [bitsAt_setBits_apart _ _ _ _ _ _ (by omega), bitsAt_setBits_same _ _ _ _ (by omega), Nat.mod_eq_of_lt (bitsAt_lt ..)]
  · unfold bitAt
    rw [getLsbD_setBits, getLsbD_setBits, getLsbD_setBits]
    simp
  · rw [bitsAt_setBits_apart _ _ _ _ _ _ (by omega), bitsAt_setBits_apart _ _ _ _ _ _ (by omega), bitsAt_setBits_same _ _ _ _ (by omega),
      Nat.mod_eq_of_lt (bitsAt_lt ..)]
  · rw [bitsAt_setBits_apart _ _ _ _ _ _ (by omega), bitsAt_setBits_apart _ _ _ _ _ _ (by omega), bitsAt_setBits_apart _ _ _ _ _ _ (by omega)]

theorem mcfgBad_eq (v : Dword) : mcfgBad v = !decide (bitsAt v 8 2 ≠ 3 ∧ bitsAt v 10 2 ≠ 3 ∧ bitsAt v 12 2 ≠ 3 ∧ bitsAt v 14 2 ≠ 3 ∧
    bitsAt v 4 3 ≤ 4 ∧ 4 ≤ bitsAt v 0 4 ∧ bitsAt v 0 4 ≤ 9) := by
  rw [Bool.eq_iff_iff]
  have hmodes : ((List.range 4).any fun n => bitsAt v (8 + 2 * n) 2 = 3) = true ↔
      bitsAt v 8 2 = 3 ∨ bitsAt v 10 2 = 3 ∨ bitsAt v 12 2 = 3 ∨ bitsAt v 14 2 = 3 := by
    simp [List.range_succ]
  unfold mcfgBad
  simp only [Bool.or_eq_true, hmodes, decide_eq_true_eq, Bool.not_eq_true', decide_eq_false_iff_not]
  omega

/-! ### An access (R120) -/

section Access

variable {s : State} {f : Nat} {d a : BitVec 5} {k : BitVec 12} {write : Bool} {new : Dword → Dword → Dword}

theorem csrAccess_ready {old : Dword} (h : Ready s f [d.toNat, a.toNat]) (hread : csrRead s f (s.ctx f) k.toNat = some old)
    (hq : (s.ctx f).quiet = true) (hm : write = true → k = 0x080 → s.matIdle f = true) : csrAccess write new d a k s =
      next s f ((if write then csrWrite (s.ctx f) k.toNat (new old ((s.ctx f).s a.toNat)) else s.ctx f).setS d.toNat old) := by
  unfold csrAccess
  simp only [h.1]
  rw [checked_ready _ h (by simp [hread])]
  simp only [hread, hq, Bool.not_true, Bool.and_false, Bool.false_eq_true, if_false]
  rw [if_neg]
  simp only [Bool.and_eq_true, decide_eq_true_eq, Bool.not_eq_true', not_and, Bool.not_eq_false, and_imp]
  exact hm

/-- A number that the agent does not hold (R52). -/
theorem csrAccess_unheld (h : Ready s f [d.toNat, a.toNat]) (hs : Settled s f) (hread : csrRead s f (s.ctx f) k.toNat = none) :
    csrAccess write new d a k s = stopped s f .illegal := by
  unfold csrAccess State.checked
  simp only [h.1, h.2.1, Bool.false_eq_true, if_false, hread, Option.isNone_none, if_true]
  exact trapHere_settled _ h.2.2.2.1 hs

/-- The numbers that an agent holds: a thread 0x000 to 0x072 of the list, a core the common ones and MCFG. -/
def csrNumbers (core : Bool) : List Nat :=
  [0x000, 0x001, 0x060, 0x061, 0x062, 0x070] ++
    if core then [0x080] else
      [0x010, 0x011, 0x012, 0x013, 0x014, 0x015, 0x016, 0x017, 0x018, 0x019, 0x01A, 0x01B, 0x020, 0x021, 0x022, 0x023, 0x024, 0x030, 0x031,
        0x040, 0x041, 0x042, 0x050, 0x071, 0x072]

theorem csrRead_unheld {c : Ctx} {n : Nat} (h : n ∉ csrNumbers (isCore f)) : csrRead s f c n = none := by
  unfold csrRead
  dsimp only
  cases hcore : isCore f
  all_goals
    rw [hcore] at h
    split
    all_goals first | rfl | exact absurd (by simp [csrNumbers]) h

/-- An entry of the statement's list says what the register reads as and what a write makes of the context. -/
def CsrEntry (s : State) (f : Nat) (e : Nat × Dword × (Dword → Ctx → Prop)) : Prop :=
  csrRead s f (s.ctx f) e.1 = some e.2.1 ∧ ∀ v, e.2.2 v (csrWrite (s.ctx f) e.1 v)

/-- The members that write a register, each with the value that it gives. -/
theorem csrEntry_written {j : Instr} {e : Nat × Dword × (Dword → Ctx → Prop)} (new : Dword → Dword → Dword)
    (hj : exec j s = .next (csrAccess true new d a k s)) (he : CsrEntry s f e) (hk : e.1 = k.toNat)
    (h : Ready s f [d.toNat, a.toNat]) (hq : (s.ctx f).quiet = true) (hm : k = 0x080 → s.matIdle f = true) :
    ∃ c', e.2.2 (new e.2.1 ((s.ctx f).s a.toNat)) c' ∧ exec j s = .next (next s f (c'.setS d.toNat e.2.1)) := by
  obtain ⟨hread, hwrite⟩ := he
  refine ⟨_, hwrite (new e.2.1 ((s.ctx f).s a.toNat)), ?_⟩
  rw [hk] at hread ⊢
  rw [hj, csrAccess_ready h hread hq fun _ => hm, if_pos rfl]

/-- What a thread alone holds. -/
theorem held_thread (hf : f < 2304) (x : Option Dword) : (if isCore f = true then none else x) = x := if_neg (by simp [not_core hf])

end Access

/-- Settles O37: every entry of the list is what `csrRead` and `csrWrite` say of its number, and an access does no more. -/
theorem controlRegistersReadAndWrite : Obligations.ControlRegistersReadAndWrite := by
  unfold Obligations.ControlRegistersReadAndWrite
  intro s f d a k c n mill fixed both threads mcfgOk cores held plain
  have hboth : ∀ e ∈ both, CsrEntry s f e := by
    simp only [both, List.forall_mem_cons, List.not_mem_nil, false_imp_iff, implies_true, and_true]
    refine ⟨⟨rfl, fun v => rfl⟩, ⟨rfl, fun v => ?_⟩, ⟨rfl, fun v => rfl⟩, ⟨rfl, fun v => rfl⟩, ⟨rfl, fun v => rfl⟩, ⟨rfl, fun v => rfl⟩⟩
    change (if 4 < bitsAt v 0 3 then _ else _) = if bitsAt v 0 3 ≤ 4 then _ else _
    rw [← ite_not, if_congr Nat.not_lt rfl rfl]
  have hthreads (hf : f < 2304) : ∀ e ∈ threads, CsrEntry s f e := by
    have hentry {e : Nat × Dword × (Dword → Ctx → Prop)} (hread : csrRead s f c e.1 = if isCore f = true then none else some e.2.1)
        (hwrite : ∀ v, e.2.2 v (csrWrite c e.1 v)) : CsrEntry s f e := ⟨hread.trans (held_thread hf _), hwrite⟩
    simp only [threads, List.forall_mem_cons, List.not_mem_nil, false_imp_iff, implies_true, and_true]
    refine ⟨hentry rfl fun v => ?_, hentry rfl fun v => rfl, hentry rfl fun v => rfl, hentry rfl fun v => rfl, hentry rfl fun v => rfl,
      hentry rfl fun v => rfl, hentry rfl fun v => rfl, hentry rfl fun v => rfl, hentry rfl fun v => rfl, hentry rfl fun v => rfl,
      hentry rfl fun v => rfl, hentry rfl fun v => rfl, hentry rfl fun v => rfl, hentry rfl fun v => rfl, hentry rfl fun v => rfl,
      hentry rfl fun v => rfl, hentry rfl fun v => rfl, hentry rfl fun v => rfl, hentry rfl fun v => rfl, hentry rfl fun v => rfl,
      hentry rfl fun v => rfl, hentry rfl fun v => rfl, hentry rfl fun v => rfl, hentry ?_ fun v => rfl, hentry rfl fun v => rfl⟩
    · change if 4 ≤ bitsAt v 9 4 ∧ bitsAt v 9 4 ≤ 9 ∧ bitsAt v 6 3 ≤ 4 then
        Reconfigured c (writeVtype c v) (bitsAt v 13 2) (bitsAt v 9 4) (bitsAt v 6 3) (bitsAt v 2 2) else writeVtype c v = c
      split
      · next hv => exact writeVtype_reconfigured hv
      · next hv => exact writeVtype_rejected hv
    · change (if isCore f then none else if c.splice = [] then some (c.launchid.setWidth 64) else some (n (s.origin c c.pc).2.2)) = _
      rw [apply_ite some]
  have hcores (hf : ¬ f < 2304) : ∀ e ∈ cores, CsrEntry s f e := by
    have hcore : isCore f = true := decide_eq_true (Nat.not_lt.1 hf)
    simp only [cores, List.forall_mem_cons, List.not_mem_nil, false_imp_iff, implies_true, and_true]
    refine ⟨if_pos hcore, fun v => ⟨setMcfg c.mcfg v, ?_, setMcfg_fields c.mcfg v⟩⟩
    change (if mcfgBad v then c else { c with mcfg := setMcfg c.mcfg v }) = if mcfgOk v then { c with mcfg := setMcfg c.mcfg v } else c
    rw [mcfgBad_eq, show (decide _) = mcfgOk v from rfl]
    cases mcfgOk v <;> rfl
  have hheld : ∀ e ∈ held, CsrEntry s f e := by
    intro e he
    obtain he | he := List.mem_append.1 he
    · exact hboth e he
    · split at he
      · next hf => exact hthreads hf e he
      · next hf => exact hcores hf e he
  have hnumbers : held.map Prod.fst = csrNumbers (isCore f) := by
    by_cases hf : f < 2304
    · simp only [held, if_pos hf, not_core hf]
      rfl
    · have hcore : isCore f = true := decide_eq_true (Nat.not_lt.1 hf)
      simp only [held, if_neg hf, hcore]
      rfl
  have hunheld (hnone : ∀ e ∈ held, e.1 ≠ k.toNat) : csrRead s f c k.toNat = none := by
    refine csrRead_unheld fun hmem => ?_
    rw [← hnumbers] at hmem
    obtain ⟨e, he, hk⟩ := List.mem_map.1 hmem
    exact hnone e he hk
  refine ⟨fun h hq hm e he hk => ⟨csrEntry_written (fun _ x => x) rfl (hheld e he) hk h hq hm,
    csrEntry_written (fun o x => o ||| x) rfl (hheld e he) hk h hq hm,
    csrEntry_written (fun o x => o &&& ~~~x) rfl (hheld e he) hk h hq hm⟩, fun h hq e he hk => ?_, fun hs hnone => ⟨fun h => ?_, fun h i hi => ?_⟩⟩
  · have hread := (hheld e he).1
    rw [hk] at hread
    exact congrArg Outcome.next (csrAccess_ready (write := false) (new := fun o _ => o) (a := 0) h hread hq fun hw => by cases hw)
  · exact congrArg Outcome.next (csrAccess_unheld (write := false) (new := fun o _ => o) (a := 0) h hs (hunheld hnone))
  · simp only [List.mem_cons, List.not_mem_nil, or_false] at hi
    obtain rfl | rfl | rfl := hi
    · exact congrArg Outcome.next (csrAccess_unheld (write := true) (new := fun _ x => x) h hs (hunheld hnone))
    · exact congrArg Outcome.next (csrAccess_unheld (write := true) (new := fun o x => o ||| x) h hs (hunheld hnone))
    · exact congrArg Outcome.next (csrAccess_unheld (write := true) (new := fun o x => o &&& ~~~x) h hs (hunheld hnone))

end Sys2Proof.Proofs
end

section
/-! SUPPORT. The end of a context that stands twice in the list of its groups (R123, R261). -/

namespace Sys2Proof.Proofs

open Sys2Proof Sys2Proof.Machine Sys2Proof.Safety Host

/-- Context 0 runs, alone in group 3, which its list names twice, and has arrived at the group's episode. -/
def twiceMember : State := { State.reset.setCtx 0 { Ctx.reset with life := .running, groups := [3, 3], arrived := some 3 } with cur := .agent 0 }

/-- The program counter of a context after an instruction that completes. -/
def pcAfter (f : Nat) : Out → Nat
  | .next s => (s.ctx f).pc
  | _ => 0

theorem emptied_retire_pc (c : Ctx) (pc : Nat) : (Ctx.emptied (c.retire pc)).pc = pc := rfl

theorem twiceMember_ready : Ready twiceMember 0 [] ∧ twiceMember.released 0 = true ∧ (twiceMember.ctx 0).xfail = [] ∧
    (twiceMember.ctx 0).matErr = none ∧ (∀ e ∈ (twiceMember.ctx 0).children, e.1 ∈ (twiceMember.ctx 0).exited) := by decide +kernel

/-- Leaving the group once, the context is still a member that has arrived: the episode completes and moves it to the next word. -/
theorem twiceMember_pc : (twiceMember.ctx 0).pc = 0 ∧ pcAfter 0 (exec (.halt 0) twiceMember) = 4 := by decide +kernel

/-- Refutes O38: a context that `halt` ends stays at its program counter, except where its list names a group twice, in whose open episode it has
arrived: the first of the two leavings completes the episode for the context itself. Only a state that no `gjoin` makes has such a list. -/
theorem not_stopsSleepsAndEnds : ¬ Obligations.StopsSleepsAndEnds := by
  unfold Obligations.StopsSleepsAndEnds
  intro h
  obtain ⟨hready, hreleased, hfail, herr, hchildren⟩ := twiceMember_ready
  obtain ⟨hstart, hend⟩ := twiceMember_pc
  obtain ⟨-, -, hhalt, -⟩ := h twiceMember 0 0 0
  obtain ⟨t, hexec, hctx, -⟩ := ((hhalt hready).2 hreleased).2.1 hfail herr hchildren
  rw [hexec] at hend
  have hpc : (t.ctx 0).pc = (twiceMember.ctx 0).pc := (congrArg Ctx.pc hctx).trans (emptied_retire_pc _ _)
  exact absurd ((hend.symm.trans hpc).trans hstart) (by decide)

end Sys2Proof.Proofs
end

section
/-! SUPPORT. The scalar float instructions: what each writes, and the exact value that it rounds (R105, R106, R300). -/

namespace Sys2Proof.Proofs

open Sys2Proof Sys2Proof.Machine Sys2Proof.Laws Sys2Proof.Safety Host

/-! ### What each instruction writes -/

/-- The operand in a register, read in the format of a code (R105). -/
abbrev operand (s : State) (f : Nat) (k : BitVec 3) (r : BitVec 5) : FVal := (fmtOf k).ofReg ((s.ctx f).s r.toNat)

section Writes

variable {s : State} {f : Nat} {d a b : BitVec 5} {k : BitVec 3}

theorem simple_writes {rs : List Nat} {val : Ctx → Dword × Flags} (h : Ready s f [d.toNat, a.toNat, b.toNat]) (hrs : rs ⊆ [a.toNat, b.toNat]) :
    (.next (s.simple rs d.toNat val) : Out) = .next (wroteFlags s f d (val (s.ctx f))) :=
  congrArg Outcome.next (simple_ready val (ready_of_subset h (List.cons_subset_cons _ hrs)))

theorem first_subset (x y : Nat) : [x] ⊆ [x, y] := by simp

variable (h : Ready s f [d.toNat, a.toNat, b.toNat])

include h

theorem fop2_writes (op : RM → FVal → FVal → FVal × Flags) : (.next (fop2 op d a b k s) : Out) =
    .next (wroteFlags s f d (roundScalar (fmtOf k) (s.ctx f).srm (op (s.ctx f).srm (operand s f k a) (operand s f k b)))) :=
  simple_writes h (List.Subset.refl _)

theorem fcmp_writes (ordered : Bool) (op : FVal → FVal → Bool) : (.next (fcmp ordered op d a b k s) : Out) =
    .next (wroteFlags s f d (truth (op (operand s f k a) (operand s f k b)) (compareFlags ordered (operand s f k a) (operand s f k b)))) :=
  simple_writes h (List.Subset.refl _)

theorem exec_fadd : exec (.fadd d a b k) s =
    .next (wroteFlags s f d (roundScalar (fmtOf k) (s.ctx f).srm (fAdd (s.ctx f).srm (operand s f k a) (operand s f k b)))) :=
  fop2_writes h (fun rm x y => fAdd rm x y)

theorem exec_fsub : exec (.fsub d a b k) s =
    .next (wroteFlags s f d (roundScalar (fmtOf k) (s.ctx f).srm (fSub (s.ctx f).srm (operand s f k a) (operand s f k b)))) :=
  fop2_writes h (fun rm x y => fSub rm x y)

theorem exec_fmul : exec (.fmul d a b k) s =
    .next (wroteFlags s f d (roundScalar (fmtOf k) (s.ctx f).srm (fMul (operand s f k a) (operand s f k b)))) :=
  fop2_writes h (fun _ x y => fMul x y)

theorem exec_fdiv : exec (.fdiv d a b k) s =
    .next (wroteFlags s f d (roundScalar (fmtOf k) (s.ctx f).srm (fDiv (operand s f k a) (operand s f k b)))) :=
  fop2_writes h (fun _ x y => fDiv x y)

theorem exec_ffma : exec (.ffma d a b k) s =
    .next (wroteFlags s f d (roundScalar (fmtOf k) (s.ctx f).srm
      (fFma (s.ctx f).srm false false (operand s f k a) (operand s f k b) (operand s f k d)))) :=
  simple_writes h (List.Subset.refl _)

theorem exec_fsqrt : exec (.fsqrt d a k) s =
    .next (wroteFlags s f d (roundScalar (fmtOf k) (s.ctx f).srm (fSqrt (operand s f k a)))) :=
  simple_writes h (first_subset ..)

theorem exec_fmin : exec (.fmin d a b k) s =
    .next (wroteFlags s f d (roundScalar (fmtOf k) (s.ctx f).srm (fMinMax false (operand s f k a) (operand s f k b)))) :=
  fop2_writes h (fun _ x y => fMinMax false x y)

theorem exec_fmax : exec (.fmax d a b k) s =
    .next (wroteFlags s f d (roundScalar (fmtOf k) (s.ctx f).srm (fMinMax true (operand s f k a) (operand s f k b)))) :=
  fop2_writes h (fun _ x y => fMinMax true x y)

theorem exec_feq : exec (.feq d a b k) s =
    .next (wroteFlags s f d (truth (floatEq (operand s f k a) (operand s f k b)) (compareFlags false (operand s f k a) (operand s f k b)))) :=
  fcmp_writes h false floatEq

theorem exec_flt : exec (.flt d a b k) s =
    .next (wroteFlags s f d (truth (floatLt (operand s f k a) (operand s f k b)) (compareFlags true (operand s f k a) (operand s f k b)))) :=
  fcmp_writes h true floatLt

theorem exec_fle : exec (.fle d a b k) s =
    .next (wroteFlags s f d (truth (floatLe (operand s f k a) (operand s f k b)) (compareFlags true (operand s f k a) (operand s f k b)))) :=
  fcmp_writes h true floatLe

theorem exec_fclass : exec (.fclass d a k) s =
    .next (wroteFlags s f d (BitVec.ofNat 64 (2 ^ (fmtOf k).classOf (operand s f k a)), 0)) :=
  simple_writes h (first_subset ..)

theorem exec_fcvtI : exec (.fcvtI d a k) s =
    .next (wroteFlags s f d (BitVec.ofInt 64 (floatToInt (s.ctx f).srm (-(2 ^ 63)) (2 ^ 63 - 1) (operand s f k a)).1,
      (floatToInt (s.ctx f).srm (-(2 ^ 63)) (2 ^ 63 - 1) (operand s f k a)).2)) :=
  simple_writes h (first_subset ..)

theorem exec_fcvtN : exec (.fcvtN d a k) s =
    .next (wroteFlags s f d (BitVec.ofInt 64 (floatToInt (s.ctx f).srm 0 (2 ^ 64 - 1) (operand s f k a)).1,
      (floatToInt (s.ctx f).srm 0 (2 ^ 64 - 1) (operand s f k a)).2)) :=
  simple_writes h (first_subset ..)

theorem exec_fcvtFi : exec (.fcvtFi d a k) s =
    .next (wroteFlags s f d (roundScalar (fmtOf k) (s.ctx f).srm (.ofInt ((s.ctx f).s a.toNat).toInt, 0))) :=
  simple_writes h (first_subset ..)

theorem exec_fcvtFn : exec (.fcvtFn d a k) s =
    .next (wroteFlags s f d (roundScalar (fmtOf k) (s.ctx f).srm (.ofInt ((s.ctx f).s a.toNat).toNat, 0))) :=
  simple_writes h (first_subset ..)

theorem exec_fcvtFf (src : BitVec 2) : exec (.fcvtFf d a src k) s =
    .next (wroteFlags s f d (roundScalar (fmtOf k) (s.ctx f).srm ((Fmt.ofCode src.toNat).ofReg ((s.ctx f).s a.toNat), 0))) :=
  simple_writes h (first_subset ..)

end Writes

/-! ### Exact values (R300) -/

theorem fbits_le (k : BitVec 3) : (fmtOf k).fbits ≤ 52 := by
  unfold fmtOf Fmt.ofCode
  split <;> decide

/-- A finite value is a sign, a significand and a power of two. -/
theorem isFinite_iff {x : FVal} : isFinite x = true ↔ ∃ neg m e, x = .fin neg m e := by
  cases x <;> simp [isFinite, FVal.isNan, FVal.isInf]

theorem standsFor_exact {F : Fmt} {x : FVal} (h : isFinite x = true) : StandsFor F x (ratOf x) := ⟨h, .inl rfl⟩

/-- The sign of a value as a factor. -/
theorem ratOf_signed (neg : Bool) (m : Nat) (e : Int) : ratOf (.fin neg m e) = (if neg then -1 else 1) * m * (2 : ℚ) ^ e := rfl

theorem ratOf_zero (neg : Bool) (e : Int) : ratOf (.fin neg 0 e) = 0 := by simp [ratOf]

theorem ratOf_negate {x : FVal} (h : isFinite x = true) : ratOf x.negate = -ratOf x := by
  obtain ⟨neg, m, e, rfl⟩ := isFinite_iff.1 h
  cases neg <;> simp [FVal.negate, ratOf]

theorem isFinite_negate {x : FVal} (h : isFinite x = true) : isFinite x.negate = true := by
  obtain ⟨neg, m, e, rfl⟩ := isFinite_iff.1 h
  rfl

/-- A count of 2^e is the value that it counts. -/
theorem scaledInt_value (neg : Bool) (m : Nat) {e0 e : Int} (h : e ≤ e0) : (scaledInt neg m e0 e : ℚ) * 2 ^ e = ratOf (.fin neg m e0) := by
  have hpow : (2 : ℚ) ^ e0 = 2 ^ (e0 - e).toNat * 2 ^ e := by
    rw [← zpow_natCast, ← zpow_add₀ (by norm_num), Int.toNat_of_nonneg (by omega)]
    congr 1
    omega
  unfold scaledInt
  rw [ratOf_signed, hpow]
  cases neg
  · push_cast; simp; ring
  · push_cast; simp; ring

/-- An integer as a float value. -/
theorem ratOf_int (v e : Int) : ratOf (.fin (decide (v < 0)) v.natAbs e) = v * (2 : ℚ) ^ e := by
  rw [ratOf_signed]
  congr 1
  obtain hv | hv := lt_or_ge v 0
  · have habs : ((v.natAbs : Int) : ℚ) = -v := by rw [Int.ofNat_natAbs_of_nonpos hv.le]; push_cast; rfl
    rw [if_pos (by simpa using hv), ← Int.cast_natCast, habs]
    ring
  · have habs : ((v.natAbs : Int) : ℚ) = v := by rw [Int.natAbs_of_nonneg hv]
    rw [if_neg (by simpa using hv), ← Int.cast_natCast, habs]
    ring

theorem addNum_exact {rm : RM} {x y : FVal} (hx : isFinite x = true) (hy : isFinite y = true) :
    ∃ r, addNum rm x y = (r, 0) ∧ isFinite r = true ∧ ratOf r = ratOf x + ratOf y := by
  obtain ⟨n1, m1, e1, rfl⟩ := isFinite_iff.1 hx
  obtain ⟨n2, m2, e2, rfl⟩ := isFinite_iff.1 hy
  have hsum : ratOf (.fin n1 m1 e1) + ratOf (.fin n2 m2 e2) =
      ((scaledInt n1 m1 e1 (min e1 e2) + scaledInt n2 m2 e2 (min e1 e2) : Int) : ℚ) * 2 ^ min e1 e2 := by
    rw [← scaledInt_value n1 m1 (min_le_left e1 e2), ← scaledInt_value n2 m2 (min_le_right e1 e2)]
    push_cast
    ring
  unfold addNum
  dsimp only
  split
  · next hv =>
    rw [hsum, hv]
    split
    · exact ⟨_, rfl, rfl, by simp [ratOf]⟩
    · exact ⟨_, rfl, rfl, by simp [ratOf]⟩
  · exact ⟨_, rfl, rfl, by rw [ratOf_int, hsum]⟩

theorem mulNum_exact {x y : FVal} (hx : isFinite x = true) (hy : isFinite y = true) :
    ∃ r, mulNum x y = (r, 0) ∧ isFinite r = true ∧ ratOf r = ratOf x * ratOf y := by
  obtain ⟨n1, m1, e1, rfl⟩ := isFinite_iff.1 hx
  obtain ⟨n2, m2, e2, rfl⟩ := isFinite_iff.1 hy
  refine ⟨_, rfl, rfl, ?_⟩
  rw [ratOf_signed, ratOf_signed, ratOf_signed, zpow_add₀ (by norm_num)]
  cases n1 <;> cases n2 <;> (push_cast; simp; ring)

theorem firstNan_finite {l : List FVal} (h : ∀ x ∈ l, isFinite x = true) : firstNan l = none := by
  induction l with
  | nil => rfl
  | cons x l ih =>
    obtain ⟨n, m, e, rfl⟩ := isFinite_iff.1 (h x List.mem_cons_self)
    exact ih fun y hy => h y (List.mem_cons_of_mem _ hy)

section Finite

variable {F : Fmt} {rm : RM} {x y z : FVal} (hx : isFinite x = true) (hy : isFinite y = true)

include hx hy

theorem firstNan_pair : firstNan [x, y] = none := firstNan_finite (by simp [hx, hy])

theorem fAdd_exact : ∃ r, StandsFor F r (ratOf x + ratOf y) ∧ fAdd rm x y = (r, 0) := by
  obtain ⟨r, hr, hfin, hval⟩ := addNum_exact (rm := rm) hx hy
  exact ⟨r, hval ▸ standsFor_exact hfin, by unfold fAdd; rw [firstNan_pair hx hy]; exact hr⟩

theorem fSub_exact : ∃ r, StandsFor F r (ratOf x - ratOf y) ∧ fSub rm x y = (r, 0) := by
  obtain ⟨r, hr, hfin, hval⟩ := addNum_exact (rm := rm) hx (isFinite_negate hy)
  rw [ratOf_negate hy, ← sub_eq_add_neg] at hval
  exact ⟨r, hval ▸ standsFor_exact hfin, by unfold fSub; rw [firstNan_pair hx hy]; exact hr⟩

theorem fMul_exact : ∃ r, StandsFor F r (ratOf x * ratOf y) ∧ fMul x y = (r, 0) := by
  obtain ⟨r, hr, hfin, hval⟩ := mulNum_exact hx hy
  exact ⟨r, hval ▸ standsFor_exact hfin, by unfold fMul; rw [firstNan_pair hx hy]; exact hr⟩

theorem fFma_exact (hz : isFinite z = true) : ∃ r, StandsFor F r (ratOf x * ratOf y + ratOf z) ∧ fFma rm false false x y z = (r, 0) := by
  obtain ⟨p, hp, hpfin, hpval⟩ := mulNum_exact hx hy
  obtain ⟨r, hr, hfin, hval⟩ := addNum_exact (rm := rm) hpfin hz
  rw [hpval] at hval
  refine ⟨r, hval ▸ standsFor_exact hfin, ?_⟩
  have hinf : x.isInf = false ∧ y.isInf = false := by
    simp only [isFinite, Bool.and_eq_true, Bool.not_eq_true'] at hx hy
    exact ⟨hx.2, hy.2⟩
  unfold fFma
  rw [firstNan_finite (by simp [hx, hy, hz])]
  simp [hinf.1, hinf.2, hp, hr]

end Finite

end Sys2Proof.Proofs
end

section
/-! SUPPORT. Quotients and roots with a sticky bit, and the results of finite operands (R106, R300). -/

namespace Sys2Proof.Proofs

open Sys2Proof Sys2Proof.Machine Sys2Proof.Laws Sys2Proof.Safety Host

/-! ### A sticky bit (R300; log entry 8) -/

/-- A significand with a sticky bit below it stands for every number between it and the next, where it has more bits than a format reads. -/
theorem standsFor_sticky {F : Fmt} (neg : Bool) {n : Nat} {j : Int} {q : ℚ} (hlo : (n : ℚ) * 2 ^ j < q) (hhi : q < (n + 1) * 2 ^ j)
    (hn : 2 ^ (F.fbits + 2) ≤ n) : StandsFor F (.fin neg (2 * n + 1) (j - 1)) ((if neg then -1 else 1) * q) := by
  have hpos : (0 : ℚ) < 2 ^ j := zpow_pos (by norm_num) _
  have hhalf : (2 : ℚ) ^ (j - 1) = 2 ^ j / 2 := by rw [zpow_sub_one₀ (by norm_num)]; ring
  have hvalue : ratOf (.fin neg (2 * n + 1) (j - 1)) = (if neg then -1 else 1) * ((n + 1 / 2) * 2 ^ j) := by
    rw [ratOf_signed, hhalf]
    push_cast
    ring
  have hwide : (2 : ℚ) ^ j * 2 ^ (F.fbits + 2) ≤ q := by
    have hcast : ((2 : ℚ) ^ (F.fbits + 2)) ≤ n := by exact_mod_cast hn
    nlinarith
  have hq : 0 < q := lt_of_lt_of_le (by positivity) hwide
  refine ⟨rfl, .inr ?_⟩
  rw [hvalue]
  cases neg
  · refine ⟨n, j, ?_⟩
    simp only [Bool.false_eq_true, if_false, one_mul, abs_of_pos hq]
    push_cast
    exact ⟨by nlinarith, by nlinarith, hlo, hhi, hwide⟩
  · refine ⟨-n - 1, j, ?_⟩
    simp only [if_true, neg_one_mul, abs_neg, abs_of_pos hq]
    push_cast
    exact ⟨by nlinarith, by nlinarith, by nlinarith, by nlinarith, hwide⟩

/-! ### Quotients -/

/-- The whole quotient of two significands, scaled as `fDiv` scales it, has at least 64 bits. -/
theorem quotient_wide {m1 m2 : Nat} (h1 : m1 ≠ 0) (h2 : m2 ≠ 0) : 2 ^ 63 ≤ m1 * 2 ^ (m2.log2 + 64) / m2 := by
  rw [Nat.le_div_iff_mul_le (Nat.pos_of_ne_zero h2)]
  have hm2 : m2 < 2 ^ (m2.log2 + 1) := Nat.lt_log2_self
  calc 2 ^ 63 * m2 ≤ 2 ^ 63 * 2 ^ (m2.log2 + 1) := Nat.mul_le_mul_left _ hm2.le
    _ = 1 * 2 ^ (m2.log2 + 64) := by rw [← pow_add, one_mul]; congr 1; omega
    _ ≤ m1 * 2 ^ (m2.log2 + 64) := Nat.mul_le_mul_right _ (Nat.pos_of_ne_zero h1)

/-- A whole quotient with a sticky bit for its remainder stands for the exact quotient. -/
theorem quotient_stands {F : Fmt} (neg : Bool) {u m : Nat} (hm : m ≠ 0) (j : Int) (hwide : 2 ^ (F.fbits + 2) ≤ u / m) :
    StandsFor F (.fin neg (2 * (u / m) + if u % m = 0 then 0 else 1) (j - 1)) ((if neg then -1 else 1) * ((u : ℚ) / m * 2 ^ j)) := by
  have hmpos : (0 : ℚ) < m := by exact_mod_cast Nat.pos_of_ne_zero hm
  have hdiv : (m : ℚ) * (u / m : Nat) + (u % m : Nat) = u := by exact_mod_cast Nat.div_add_mod u m
  have hunit : (0 : ℚ) < 2 ^ j := zpow_pos (by norm_num) _
  by_cases hr : u % m = 0
  · have hq : (u : ℚ) / m = (u / m : Nat) := by
      rw [hr] at hdiv
      rw [div_eq_iff hmpos.ne', ← hdiv]
      push_cast
      ring
    have hvalue : ratOf (.fin neg (2 * (u / m) + 0) (j - 1)) = (if neg then -1 else 1) * ((u : ℚ) / m * 2 ^ j) := by
      rw [ratOf_signed, hq, zpow_sub_one₀ (by norm_num)]
      push_cast
      ring
    rw [if_pos hr]
    exact hvalue ▸ standsFor_exact rfl
  · have hrpos : (0 : ℚ) < (u % m : Nat) := by exact_mod_cast Nat.pos_of_ne_zero hr
    have hrlt : ((u % m : Nat) : ℚ) < m := by exact_mod_cast Nat.mod_lt u (Nat.pos_of_ne_zero hm)
    rw [if_neg hr]
    refine standsFor_sticky neg (mul_lt_mul_of_pos_right ?_ hunit) (mul_lt_mul_of_pos_right ?_ hunit) hwide
    · rw [lt_div_iff₀ hmpos]
      linarith
    · rw [div_lt_iff₀ hmpos]
      linarith

/-- `fDiv`'s quotient of two significands. -/
theorem ratVal_stands {F : Fmt} (hF : F.fbits ≤ 52) (neg : Bool) {m1 m2 : Nat} (h1 : m1 ≠ 0) (h2 : m2 ≠ 0) (e : Int) :
    ∃ n m x, ratVal neg m1 m2 (m2.log2 + 64) = .fin n m x ∧
      StandsFor F (.fin n m (x + e)) ((if neg then -1 else 1) * (m1 / m2 * (2 : ℚ) ^ e)) := by
  have hwide := (Nat.pow_le_pow_right (n := 2) (by norm_num) (show F.fbits + 2 ≤ 63 by omega)).trans (quotient_wide h1 h2)
  refine ⟨_, _, _, rfl, ?_⟩
  generalize m2.log2 + 64 = k at hwide ⊢
  have hexact : (m1 : ℚ) / m2 * 2 ^ e = (m1 * 2 ^ k : Nat) / m2 * 2 ^ (e - k) := by
    rw [zpow_sub₀ (by norm_num), zpow_natCast]
    push_cast
    field_simp
  rw [hexact, show -(k : Int) - 1 + e = e - k - 1 by ring]
  exact quotient_stands neg h2 (e - k) hwide

theorem fDiv_stands {F : Fmt} {x y : FVal} (hF : F.fbits ≤ 52) (hx : isFinite x = true) (hy : isFinite y = true) (h0 : ratOf y ≠ 0) :
    ∃ r, StandsFor F r (ratOf x / ratOf y) ∧ fDiv x y = (r, 0) := by
  have hnan := firstNan_pair hx hy
  obtain ⟨n1, m1, e1, rfl⟩ := isFinite_iff.1 hx
  obtain ⟨n2, m2, e2, rfl⟩ := isFinite_iff.1 hy
  have h2 : m2 ≠ 0 := by rintro rfl; exact h0 (ratOf_zero n2 e2)
  have hquot : ratOf (.fin n1 m1 e1) / ratOf (.fin n2 m2 e2) = (if (n1 != n2) then -1 else 1) * (m1 / m2 * (2 : ℚ) ^ (e1 - e2)) := by
    rw [ratOf_signed, ratOf_signed, zpow_sub₀ (by norm_num)]
    cases n1 <;> cases n2 <;> (simp; field_simp)
  unfold fDiv
  rw [hnan]
  simp only [FVal.neg?, if_neg h2]
  by_cases h1 : m1 = 0
  · subst h1
    refine ⟨_, ?_, if_pos rfl⟩
    rw [ratOf_zero, zero_div]
    exact ratOf_zero (n1 != n2) 0 ▸ standsFor_exact rfl
  · rw [if_neg h1]
    obtain ⟨n, m, x, hval, hstands⟩ := ratVal_stands hF (n1 != n2) h1 h2 (e1 - e2)
    rw [hval, hquot]
    exact ⟨_, hstands, by dsimp only; rw [add_sub_assoc]⟩

/-! ### Roots -/

/-- The bits below n of the root, from a number whose square is at most x, and whose successor by 2^n is not. -/
theorem isqrtAux_spec (n x r : Nat) (hlo : r * r ≤ x) (hhi : x < (r + 2 ^ n) * (r + 2 ^ n)) :
    isqrtAux n x r * isqrtAux n x r ≤ x ∧ x < (isqrtAux n x r + 1) * (isqrtAux n x r + 1) := by
  induction n generalizing r with
  | zero => exact ⟨hlo, hhi⟩
  | succ n ih =>
    unfold isqrtAux
    dsimp only
    split
    · next ht => exact ih _ ht (by rw [add_assoc, ← two_mul, ← pow_succ']; exact hhi)
    · next ht => exact ih _ hlo (Nat.lt_of_not_le ht)

theorem isqrt_spec (x : Nat) : isqrt x * isqrt x ≤ x ∧ x < (isqrt x + 1) * (isqrt x + 1) := by
  refine isqrtAux_spec _ x 0 (Nat.zero_le _) ?_
  rw [zero_add, ← pow_add]
  exact lt_of_lt_of_le Nat.lt_log2_self (Nat.pow_le_pow_right (by norm_num) (by omega))

/-- The root of m × 2^(2h) to 64 bits below 2^h, with a sticky bit where it is not exact. -/
def rootVal (m : Nat) (h : Int) : FVal :=
  .fin false (2 * isqrt (m * 2 ^ 128) + if isqrt (m * 2 ^ 128) * isqrt (m * 2 ^ 128) = m * 2 ^ 128 then 0 else 1) (h - 64 - 1)

/-- A value rounds as the root of x does: it is the root, or lies with it between two neighbours far below its last place. -/
def RootStands (F : Fmt) (r : FVal) (x : ℚ) : Prop :=
  ratOf r ^ 2 = x ∨ ∃ n j : ℤ, 0 ≤ n ∧ n * (2 : ℚ) ^ j < ratOf r ∧ ratOf r < n * (2 : ℚ) ^ j + 2 ^ j ∧
    (n * (2 : ℚ) ^ j) ^ 2 < x ∧ x < (n * (2 : ℚ) ^ j + 2 ^ j) ^ 2 ∧ (2 : ℚ) ^ j * 2 ^ (F.fbits + 2) ≤ n * (2 : ℚ) ^ j

theorem rootVal_stands {F : Fmt} (hF : F.fbits ≤ 52) {m : Nat} (hm : m ≠ 0) (h : Int) : RootStands F (rootVal m h) (m * 2 ^ (2 * h)) := by
  set v := m * 2 ^ 128 with hv
  obtain ⟨hlo, hhi⟩ := isqrt_spec v
  have hx : (m : ℚ) * 2 ^ (2 * h) = (v : Nat) * ((2 : ℚ) ^ (h - 64)) ^ 2 := by
    rw [hv, ← zpow_natCast, ← zpow_mul, show (h - 64) * ((2 : Nat) : Int) = 2 * h - 128 by push_cast; ring, zpow_sub₀ (by norm_num)]
    push_cast
    field_simp
  have hwide : 2 ^ 54 ≤ isqrt v := by
    by_contra hsmall
    have hle : isqrt v + 1 ≤ 2 ^ 54 := by omega
    have : 2 ^ 128 ≤ v := Nat.le_mul_of_pos_left _ (Nat.pos_of_ne_zero hm)
    have := Nat.mul_le_mul hle hle
    omega
  have hunit : (0 : ℚ) < 2 ^ (h - 64) := zpow_pos (by norm_num) _
  have hplace : (2 : ℚ) ^ (h - 64 - 1) = 2 ^ (h - 64) / 2 := by rw [zpow_sub_one₀ (by norm_num)]; ring
  unfold RootStands
  rw [hx]
  by_cases hsq : isqrt v * isqrt v = v
  · have hvq : (v : ℚ) = isqrt v * isqrt v := by exact_mod_cast hsq.symm
    refine .inl ?_
    rw [show ratOf (rootVal m h) = isqrt v * 2 ^ (h - 64) by simp only [rootVal, ← hv, if_pos hsq, ratOf_signed, hplace]; push_cast; simp; ring, hvq]
    ring
  · have hr : ratOf (rootVal m h) = (isqrt v + 1 / 2) * 2 ^ (h - 64) := by
      simp only [rootVal, ← hv, if_neg hsq, ratOf_signed, hplace]
      push_cast
      simp
      ring
    have hloq : (isqrt v : ℚ) * isqrt v < v := by exact_mod_cast lt_of_le_of_ne hlo hsq
    have hhiq : (v : ℚ) < (isqrt v + 1) * (isqrt v + 1) := by exact_mod_cast hhi
    have hbits : (2 : ℚ) ^ (F.fbits + 2) ≤ isqrt v := by
      exact_mod_cast (Nat.pow_le_pow_right (by norm_num) (show F.fbits + 2 ≤ 54 by omega)).trans hwide
    have husq : (0 : ℚ) < (2 ^ (h - 64)) ^ 2 := by positivity
    refine .inr ⟨isqrt v, h - 64, by positivity, ?_⟩
    rw [hr, Int.cast_natCast]
    generalize (2 : ℚ) ^ (h - 64) = u at hunit husq ⊢
    generalize (v : ℚ) = w at hloq hhiq ⊢
    refine ⟨by nlinarith, by nlinarith, ?_, ?_, by nlinarith⟩
    · nlinarith [mul_lt_mul_of_pos_right hloq husq]
    · nlinarith [mul_lt_mul_of_pos_right hhiq husq]

/-- The square root of a positive value, whose exponent is made even first. -/
theorem fSqrt_stands {F : Fmt} {x : FVal} (hF : F.fbits ≤ 52) (hx : isFinite x = true) (h0 : 0 < ratOf x) :
    ∃ r, fSqrt x = (r, 0) ∧ isFinite r = true ∧ RootStands F r (ratOf x) := by
  obtain ⟨neg, m, e, rfl⟩ := isFinite_iff.1 hx
  have hm : m ≠ 0 := by rintro rfl; simp [ratOf] at h0
  obtain rfl : neg = false := by
    refine Bool.eq_false_iff.2 fun hneg => ?_
    have hmag : (0 : ℚ) ≤ m * 2 ^ e := by positivity
    simp only [ratOf_signed, hneg, if_true, neg_mul, one_mul] at h0
    linarith
  have hroot : fSqrt (.fin false m e) = (rootVal (if e % 2 = 1 then 2 * m else m) ((if e % 2 = 1 then e - 1 else e) / 2), 0) := by
    simp only [fSqrt, rootVal, if_neg hm, Bool.false_eq_true, if_false]
  refine ⟨_, hroot, rfl, ?_⟩
  have heven : ((if e % 2 = 1 then 2 * m else m : Nat) : ℚ) * 2 ^ (2 * ((if e % 2 = 1 then e - 1 else e) / 2)) = ratOf (.fin false m e) := by
    rw [ratOf_signed]
    split
    · rw [show 2 * ((e - 1) / 2) = e - 1 by omega, zpow_sub_one₀ (by norm_num)]
      push_cast
      simp
      ring
    · rw [show 2 * (e / 2) = e by omega]
      simp
  rw [← heven]
  exact rootVal_stands hF (by split <;> omega) _

/-- An integer stands for itself. -/
theorem ofInt_stands (F : Fmt) (v : Int) : StandsFor F (.ofInt v) v := by
  have hvalue : ratOf (.ofInt v) = v := (ratOf_int v 0).trans (by simp)
  exact hvalue ▸ standsFor_exact rfl

/-- Settles O4: each instruction rounds once a value that equals the exact result or has a sticky bit below it. -/
theorem floatResultsRoundTheExactResult : Obligations.FloatResultsRoundTheExactResult := by
  unfold Obligations.FloatResultsRoundTheExactResult
  intro s f d a b k src h c F x y z rounds
  have hF := fbits_le k
  have hrounds {i : Instr} {q : ℚ} {v : FVal × Flags} (hi : exec i s = .next (wroteFlags s f d (roundScalar F c.srm v)))
      (hv : ∃ r, StandsFor F r q ∧ v = (r, 0)) : rounds i q := by
    obtain ⟨r, hstands, rfl⟩ := hv
    exact ⟨r, hstands, hi⟩
  have hdone {i : Instr} {v : Dword × Flags} (hi : exec i s = .next (wroteFlags s f d v)) : ∃ v fl, exec i s = .next (wroteFlags s f d (v, fl)) :=
    ⟨v.1, v.2, hi⟩
  refine ⟨?_, fun hx hy => ⟨hrounds (exec_fadd h) (fAdd_exact hx hy), hrounds (exec_fsub h) (fSub_exact hx hy),
    hrounds (exec_fmul h) (fMul_exact hx hy), fun hz => hrounds (exec_ffma h) (fFma_exact hx hy hz),
    fun h0 => hrounds (exec_fdiv h) (fDiv_stands hF hx hy h0)⟩, fun hx h0 => ?_, fun hx => ?_, ?_, ?_⟩
  · intro i hi
    simp only [List.mem_cons, List.not_mem_nil, or_false] at hi
    obtain rfl | rfl | rfl | rfl | rfl | rfl | rfl | rfl | rfl | rfl | rfl := hi
    · exact hdone (exec_fadd h)
    · exact hdone (exec_fsub h)
    · exact hdone (exec_fmul h)
    · exact hdone (exec_fdiv h)
    · exact hdone (exec_ffma h)
    · exact hdone (exec_fsqrt h)
    · exact hdone (exec_fcvtI h)
    · exact hdone (exec_fcvtN h)
    · exact hdone (exec_fcvtFi h)
    · exact hdone (exec_fcvtFn h)
    · exact hdone (exec_fcvtFf h src)
  · obtain ⟨r, hr, hfin, hroot⟩ := fSqrt_stands hF hx h0
    have hexec : exec (.fsqrt d a k) s = .next (wroteFlags s f d (roundScalar F c.srm (r, 0))) := by rw [exec_fsqrt h, hr]
    obtain hexact | ⟨n, j, hn, hbetween⟩ := hroot
    · exact ⟨r, 0, hexec, hfin, .inl hexact⟩
    · exact ⟨r, n * 2 ^ j, hexec, hfin, .inr ⟨n, j, hn, rfl, hbetween⟩⟩
  · exact hrounds (exec_fcvtFf h src) ⟨_, standsFor_exact hx, rfl⟩
  · exact hrounds (exec_fcvtFi h) ⟨_, ofInt_stands F _, rfl⟩
  · exact hrounds (exec_fcvtFn h) ⟨_, ofInt_stands F (((s.ctx f).s a.toNat).toNat : Int), rfl⟩

end Sys2Proof.Proofs
end

section
/-! SUPPORT. The bits of the scalar formats: fields, NaNs and the rounding of a value that a format holds (R291, R300, R304). -/

namespace Sys2Proof.Proofs

open Sys2Proof Sys2Proof.Machine Sys2Proof.Laws Sys2Proof.Safety Host

/-! ### The fields of an encoding (R291) -/

/-- What the four scalar formats have in common. -/
def Sound (F : Fmt) : Prop := 2 ≤ F.ebits ∧ F.ebits ≤ 11 ∧ 1 ≤ F.fbits ∧ F.fbits ≤ 52

theorem ofCode_sound (n : Nat) : Sound (Fmt.ofCode n) := by
  unfold Fmt.ofCode Sound
  split <;> decide

theorem fmtOf_sound (k : BitVec 3) : Sound (fmtOf k) := ofCode_sound _

/-- The sign, the exponent field and the fraction of encoded bits. -/
def signOf (F : Fmt) (b : Nat) : Bool := b / F.mag % 2 == 1
def exOf (F : Fmt) (b : Nat) : Nat := b / 2 ^ F.fbits % 2 ^ F.ebits
def frOf (F : Fmt) (b : Nat) : Nat := b % 2 ^ F.fbits

section Fields

variable {F : Fmt} {b : Nat}

theorem exOf_lt : exOf F b < 2 ^ F.ebits := Nat.mod_lt _ (Nat.two_pow_pos _)
theorem frOf_lt : frOf F b < 2 ^ F.fbits := Nat.mod_lt _ (Nat.two_pow_pos _)

theorem mag_eq (F : Fmt) : F.mag = 2 ^ F.fbits * 2 ^ F.ebits := by rw [Fmt.mag, pow_add, mul_comm]

theorem twoMag_eq (F : Fmt) : 2 ^ F.bits = F.mag * 2 := by
  unfold Fmt.bits Fmt.mag
  rw [← pow_succ]
  congr 1
  omega

/-- The encoded bits are made of their fields. -/
theorem pack_fields (h : b < 2 ^ F.bits) : F.pack (signOf F b) (exOf F b) (frOf F b) = b := by
  rw [twoMag_eq] at h
  have hsign : b2n (signOf F b) = b / F.mag := by
    have hlt : b / F.mag < 2 := Nat.div_lt_of_lt_mul h
    unfold signOf b2n
    rw [Nat.mod_eq_of_lt hlt]
    interval_cases b / F.mag <;> rfl
  have hlow : b % 2 ^ F.fbits + 2 ^ F.fbits * (b / 2 ^ F.fbits) = b := Nat.mod_add_div ..
  have hhigh : b / 2 ^ F.fbits % 2 ^ F.ebits + 2 ^ F.ebits * (b / 2 ^ F.fbits / 2 ^ F.ebits) = b / 2 ^ F.fbits := Nat.mod_add_div ..
  unfold Fmt.pack exOf frOf
  rw [hsign, mag_eq, ← Nat.div_div_eq_div_mul]
  calc b / 2 ^ F.fbits / 2 ^ F.ebits * (2 ^ F.fbits * 2 ^ F.ebits) + b / 2 ^ F.fbits % 2 ^ F.ebits * 2 ^ F.fbits + b % 2 ^ F.fbits
      = b % 2 ^ F.fbits + 2 ^ F.fbits * (b / 2 ^ F.fbits % 2 ^ F.ebits + 2 ^ F.ebits * (b / 2 ^ F.fbits / 2 ^ F.ebits)) := by ring
    _ = b := by rw [hhigh, hlow]

theorem pack_lt {neg : Bool} {ex fr : Nat} (hex : ex < 2 ^ F.ebits) (hfr : fr < 2 ^ F.fbits) : F.pack neg ex fr < 2 ^ F.bits := by
  have hlow : ex * 2 ^ F.fbits + fr < F.mag := by
    rw [mag_eq]
    calc ex * 2 ^ F.fbits + fr < ex * 2 ^ F.fbits + 2 ^ F.fbits := by omega
      _ = 2 ^ F.fbits * (ex + 1) := by ring
      _ ≤ 2 ^ F.fbits * 2 ^ F.ebits := Nat.mul_le_mul_left _ hex
  have hneg : b2n neg ≤ 1 := by cases neg <;> decide
  rw [twoMag_eq]
  unfold Fmt.pack
  have := Nat.mul_le_mul_right F.mag hneg
  omega

theorem decode_eq (F : Fmt) (b : Nat) : F.decode b =
    if exOf F b = 2 ^ F.ebits - 1 then
      if frOf F b = 0 then .inf (signOf F b) else .nan (signOf F b) (BitVec.ofNat 52 (frOf F b * 2 ^ (52 - F.fbits)))
    else if exOf F b = 0 then .fin (signOf F b) (frOf F b) F.emin
    else .fin (signOf F b) (2 ^ F.fbits + frOf F b) (exOf F b - 1 + F.emin) := rfl

theorem nanBits_eq_true_iff : nanBits F b = true ↔ exOf F b = 2 ^ F.ebits - 1 ∧ frOf F b ≠ 0 := by
  unfold nanBits exOf frOf
  simp

theorem decode_nan (h : nanBits F b = true) : F.decode b = .nan (signOf F b) (BitVec.ofNat 52 (frOf F b * 2 ^ (52 - F.fbits))) := by
  obtain ⟨hex, hfr⟩ := nanBits_eq_true_iff.1 h
  rw [decode_eq, if_pos hex, if_neg hfr]

theorem isNan_decode (F : Fmt) (b : Nat) : (F.decode b).isNan = nanBits F b := by
  by_cases h : nanBits F b = true
  · rw [decode_nan h, h]
    rfl
  · rw [Bool.eq_false_iff.2 h, decode_eq]
    rw [nanBits_eq_true_iff, not_and, not_not] at h
    split
    · next hex => rw [if_pos (h hex)]; rfl
    · split <;> rfl

/-- Bits that encode no NaN encode an infinity, or a finite value with an exponent field below all ones. -/
theorem decode_num (h : nanBits F b = false) : (exOf F b = 2 ^ F.ebits - 1 ∧ frOf F b = 0 ∧ F.decode b = .inf (signOf F b)) ∨
    (exOf F b < 2 ^ F.ebits - 1 ∧ F.decode b =
      if exOf F b = 0 then .fin (signOf F b) (frOf F b) F.emin else .fin (signOf F b) (2 ^ F.fbits + frOf F b) (exOf F b - 1 + F.emin)) := by
  rw [Bool.eq_false_iff, ne_eq, nanBits_eq_true_iff, not_and, not_not] at h
  rw [decode_eq]
  by_cases hex : exOf F b = 2 ^ F.ebits - 1
  · exact .inl ⟨hex, h hex, by rw [if_pos hex, if_pos (h hex)]⟩
  · have := exOf_lt (F := F) (b := b)
    exact .inr ⟨by omega, if_neg hex⟩

end Fields

/-! ### A value that the format holds (R300) -/

section Held

variable {F : Fmt} {b : Nat} {rm : RM}

theorem roundShift_zero (rm : RM) (neg : Bool) (m : Nat) : roundShift rm neg m 0 = (m, false) := by
  unfold roundShift
  simp

theorem emax_eq (hF : Sound F) : F.emax = F.emin + 2 ^ F.ebits - 3 := by
  obtain ⟨n, hn⟩ := Nat.exists_eq_add_of_le hF.1
  unfold Fmt.emax Fmt.emin Fmt.bias
  rw [hn, show 2 + n - 1 = n + 1 by omega, pow_add, pow_succ]
  ring

/-- A significand at its exponent that needs no rounding: the bits of a subnormal, or of a normal value. -/
theorem roundTo_exact {neg : Bool} {m : Nat} {e : Int} (hm : m ≠ 0) (hq : max (e + m.log2 - F.fbits) F.emin = e)
    (hcarry : m < 2 ^ (F.fbits + 1)) (hmax : e ≤ F.emax) : F.roundTo rm (.fin neg m e) =
      (if m < 2 ^ F.fbits then F.pack neg 0 m else F.pack neg ((e - F.emin).toNat + 1) (m - 2 ^ F.fbits), 0) := by
  unfold Fmt.roundTo
  simp only [if_neg hm, hq, sub_self, roundShift_zero, decide_eq_false hcarry.ne, Bool.false_eq_true, if_false, if_neg (not_lt.2 hmax),
    Bool.false_and]
  split <;> rfl

/-- A finite value of the format rounds to its own bits, and nothing is raised. -/
theorem roundTo_fin (hF : Sound F) {neg : Bool} {ex fr : Nat} (hex : ex < 2 ^ F.ebits - 1) (hfr : fr < 2 ^ F.fbits) :
    F.roundTo rm (if ex = 0 then .fin neg fr F.emin else .fin neg (2 ^ F.fbits + fr) (ex - 1 + F.emin)) = (F.pack neg ex fr, 0) := by
  have hmax := emax_eq hF
  have hpow : 2 ^ (F.fbits + 1) = 2 ^ F.fbits * 2 := pow_succ ..
  have hexz : (ex : Int) < 2 ^ F.ebits - 1 := by have := Nat.lt_sub_iff_add_lt.1 hex; exact_mod_cast (by omega : (ex : Int) < (2 ^ F.ebits : Nat) - 1)
  have hfour : (4 : Int) ≤ 2 ^ F.ebits := by exact_mod_cast Nat.pow_le_pow_right (n := 2) (by norm_num) hF.1
  split
  · next h0 =>
    subst h0
    by_cases hfr0 : fr = 0
    · subst hfr0
      rfl
    · have hlog : fr.log2 < F.fbits := (Nat.log2_lt hfr0).2 hfr
      rw [roundTo_exact hfr0 (by omega) (by omega) (by omega), if_pos hfr]
  · next h0 =>
    have hlog : (2 ^ F.fbits + fr).log2 = F.fbits := by
      rw [Nat.log2_eq_iff (by have := Nat.two_pow_pos F.fbits; omega)]
      omega
    rw [roundTo_exact (by have := Nat.two_pow_pos F.fbits; omega) (by rw [hlog]; omega) (by omega) (by omega), if_neg (by omega),
      show ((ex : Int) - 1 + F.emin - F.emin).toNat + 1 = ex by omega, Nat.add_sub_cancel_left]

/-- Bits that encode no NaN come back from rounding what they encode. -/
theorem roundTo_decode (hF : Sound F) (hb : b < 2 ^ F.bits) (h : nanBits F b = false) : F.roundTo rm (F.decode b) = (b, 0) := by
  obtain ⟨hex, hfr, hval⟩ | ⟨hex, hval⟩ := decode_num h
  · have hfields := pack_fields hb
    rw [hex, hfr] at hfields
    rw [hval]
    exact congrArg (·, 0) hfields
  · rw [hval, roundTo_fin hF hex frOf_lt, pack_fields hb]

end Held

/-! ### NaNs (R304) -/

section Nan

variable {F G : Fmt} {b : Nat} {rm : RM} {neg : Bool}

/-- A payload of fbits bits left-aligned to 52, with the quiet bit set. -/
theorem quiet_payload {p : Nat} (hG : Sound G) (hp : p < 2 ^ G.fbits) :
    (BitVec.ofNat 52 (p * 2 ^ (52 - G.fbits)) ||| 0x8000000000000).toNat = p * 2 ^ (52 - G.fbits) ||| 2 ^ 51 := by
  obtain ⟨-, -, -, hG⟩ := hG
  have hlt : p * 2 ^ (52 - G.fbits) < 2 ^ 52 := by
    calc p * 2 ^ (52 - G.fbits) < 2 ^ G.fbits * 2 ^ (52 - G.fbits) := Nat.mul_lt_mul_of_pos_right hp (Nat.two_pow_pos _)
      _ = 2 ^ 52 := by rw [← pow_add]; congr 1; omega
  rw [BitVec.toNat_or, BitVec.toNat_ofNat, Nat.mod_eq_of_lt hlt]
  rfl

/-- The quiet bit in a format's fraction. -/
theorem quietBit_div (hF : Sound F) : 2 ^ 51 / 2 ^ (52 - F.fbits) = 2 ^ (F.fbits - 1) := by
  obtain ⟨-, -, hlo, hhi⟩ := hF
  rw [Nat.pow_div (by omega) (by norm_num)]
  congr 1
  omega

/-- A payload carried over from a format to another. -/
def carried (G F : Fmt) (p : Nat) : Nat := if F.fbits ≤ G.fbits then p / 2 ^ (G.fbits - F.fbits) else p * 2 ^ (F.fbits - G.fbits)

theorem carried_eq (hG : Sound G) (hF : Sound F) (p : Nat) : p * 2 ^ (52 - G.fbits) / 2 ^ (52 - F.fbits) = carried G F p := by
  obtain ⟨-, -, -, hG⟩ := hG
  obtain ⟨-, -, -, hF⟩ := hF
  unfold carried
  split
  · rw [show 52 - F.fbits = (52 - G.fbits) + (G.fbits - F.fbits) by omega, pow_add, ← Nat.div_div_eq_div_mul,
      Nat.mul_div_cancel _ (Nat.two_pow_pos _)]
  · rw [show 52 - G.fbits = (F.fbits - G.fbits) + (52 - F.fbits) by omega, pow_add, ← mul_assoc, Nat.mul_div_cancel _ (Nat.two_pow_pos _)]

/-- A NaN rounds to its sign, an exponent field of ones, and the high bits of its payload with the quiet bit set. -/
theorem roundTo_nan (hG : Sound G) (hF : Sound F) {p : Nat} (hp : p < 2 ^ G.fbits) :
    F.roundTo rm (.nan neg (BitVec.ofNat 52 (p * 2 ^ (52 - G.fbits)))) = (F.pack neg (2 ^ F.ebits - 1) (carried G F p ||| 2 ^ (F.fbits - 1)),
      if FVal.isSnan (.nan neg (BitVec.ofNat 52 (p * 2 ^ (52 - G.fbits)))) then Flags.nv else 0) := by
  unfold Fmt.roundTo
  simp only [quiet_payload hG hp, Nat.or_div_two_pow, quietBit_div hF, carried_eq hG hF]

/-- The same of a NaN that has been quieted: it raises nothing more. -/
theorem roundTo_quiet (hG : Sound G) (hF : Sound F) {p : Nat} (hp : p < 2 ^ G.fbits) :
    F.roundTo rm (FVal.quiet (.nan neg (BitVec.ofNat 52 (p * 2 ^ (52 - G.fbits))))) =
      (F.pack neg (2 ^ F.ebits - 1) (carried G F p ||| 2 ^ (F.fbits - 1)), 0) := by
  have hsnan (w : BitVec 52) : FVal.isSnan (.nan neg (w ||| 0x8000000000000)) = false := by
    unfold FVal.isSnan
    simp
  unfold FVal.quiet Fmt.roundTo
  simp only [BitVec.or_assoc, BitVec.or_self, quiet_payload hG hp, Nat.or_div_two_pow, quietBit_div hF, carried_eq hG hF, hsnan,
    Bool.false_eq_true, if_false]

theorem carried_same (F : Fmt) (p : Nat) : carried F F p = p := by simp [carried]

theorem pack_or {ex fr c : Nat} (hfr : fr < 2 ^ F.fbits) (hc : c < 2 ^ F.fbits) : F.pack neg ex fr ||| c = F.pack neg ex (fr ||| c) := by
  have hform (x : Nat) : F.pack neg ex x = 2 ^ F.fbits * (b2n neg * 2 ^ F.ebits + ex) + x := by
    unfold Fmt.pack
    rw [mag_eq]
    ring
  rw [hform, hform, Nat.two_pow_add_eq_or_of_lt hfr, Nat.two_pow_add_eq_or_of_lt (Nat.or_lt_two_pow hfr hc), Nat.or_assoc]

theorem quietBit_lt (hF : Sound F) : 2 ^ (F.fbits - 1) < 2 ^ F.fbits := Nat.pow_lt_pow_right (by norm_num) (by have := hF.2.2.1; omega)

/-- The bits of a quieted NaN. -/
theorem quietBits_eq (hF : Sound F) (hb : b < 2 ^ F.bits) (h : nanBits F b = true) :
    quietBits F b = F.pack (signOf F b) (2 ^ F.ebits - 1) (frOf F b ||| 2 ^ (F.fbits - 1)) := by
  have hfields := pack_fields hb
  rw [(nanBits_eq_true_iff.1 h).1] at hfields
  unfold quietBits
  rw [← pack_or frOf_lt (quietBit_lt hF), hfields]

theorem isSnan_decode (hF : Sound F) (b : Nat) : (F.decode b).isSnan = snanBits F b := by
  obtain ⟨-, -, hlo, hhi⟩ := hF
  unfold snanBits
  by_cases h : nanBits F b = true
  · have hbit : (BitVec.ofNat 52 (frOf F b * 2 ^ (52 - F.fbits))).getLsbD 51 = b.testBit (F.fbits - 1) := by
      rw [BitVec.getLsbD_ofNat, Nat.testBit_mul_two_pow, frOf, Nat.testBit_mod_two_pow, show 51 - (52 - F.fbits) = F.fbits - 1 by omega]
      simp [show 52 - F.fbits ≤ 51 by omega, show F.fbits - 1 < F.fbits by omega]
    rw [decode_nan h, h]
    change (!(BitVec.ofNat 52 (frOf F b * 2 ^ (52 - F.fbits))).getLsbD 51) = _
    rw [hbit, Nat.testBit_eq_decide_div_mod_eq, Bool.true_and, ← decide_not]
    congr 1
    simp
  · have hnan := isNan_decode F b
    rw [Bool.eq_false_iff.2 h] at hnan ⊢
    cases hval : F.decode b with
    | nan n w => rw [hval] at hnan; cases hnan
    | inf n => rfl
    | fin n m e => rfl

/-- A NaN of the format, quieted, gives its own bits with the quiet bit. -/
theorem roundTo_decode_quiet (hF : Sound F) (hb : b < 2 ^ F.bits) (h : nanBits F b = true) :
    F.roundTo rm (F.decode b).quiet = (quietBits F b, 0) := by
  rw [decode_nan h, roundTo_quiet hF hF frOf_lt, carried_same, quietBits_eq hF hb h]

/-- A NaN converted to a format. -/
theorem roundTo_converted (hG : Sound G) (hF : Sound F) (h : nanBits G b = true) :
    F.roundTo rm (G.decode b) = (convertedNan G F b, if snanBits G b then Flags.nv else 0) := by
  have hsign : b2n (signOf G b) = b / 2 ^ (G.bits - 1) % 2 := by
    rw [show G.bits - 1 = G.ebits + G.fbits by unfold Fmt.bits; omega]
    change b2n (b / G.mag % 2 == 1) = b / G.mag % 2
    obtain h0 | h1 := Nat.mod_two_eq_zero_or_one (b / G.mag)
    · rw [h0]; rfl
    · rw [h1]; rfl
  rw [← isSnan_decode hG, decode_nan h, roundTo_nan hG hF frOf_lt]
  unfold Fmt.pack convertedNan
  rw [hsign, show F.bits - 1 = F.ebits + F.fbits by unfold Fmt.bits; omega]
  rfl

theorem roundTo_dnan (hF : Sound F) : F.roundTo rm .dnan = (defaultNan F, 0) := by
  have hbits : ((0x8000000000000 : BitVec 52) ||| 0x8000000000000).toNat = 2 ^ 51 := by decide
  have hsnan : FVal.isSnan (.nan false 0x8000000000000) = false := by decide
  unfold FVal.dnan Fmt.roundTo
  simp only [hbits, hsnan, quietBit_div hF, Bool.false_eq_true, if_false]
  unfold Fmt.pack defaultNan
  simp [b2n]

theorem roundTo_inf (neg : Bool) : F.roundTo rm (.inf neg) = (infBits F neg, 0) := by
  change (F.pack neg (2 ^ F.ebits - 1) 0, 0) = _
  unfold Fmt.pack infBits Fmt.mag
  rfl

end Nan

end Sys2Proof.Proofs
end

section
/-! SUPPORT. Order and class of float values (R106). -/

namespace Sys2Proof.Proofs

open Sys2Proof Sys2Proof.Machine Sys2Proof.Laws Sys2Proof.Safety Host

/-! ### Order (R106) -/

/-- A value as a number, an infinity standing at K or -K. -/
def keyAt (K : ℚ) (v : FVal) : ℚ := if v.isInf then (if v.neg? then -K else K) else ratOf v

/-- An infinity, or a finite value below K in magnitude. -/
def Below (K : ℚ) (v : FVal) : Prop := (∃ n, v = .inf n) ∨ ∃ n m e, v = .fin n m e ∧ |ratOf v| < K

section Order

variable {K : ℚ} {x y : FVal}

theorem scaledInt_lt_iff {n1 n2 : Bool} {m1 m2 : Nat} {e1 e2 : Int} :
    scaledInt n1 m1 e1 (min e1 e2) < scaledInt n2 m2 e2 (min e1 e2) ↔ ratOf (.fin n1 m1 e1) < ratOf (.fin n2 m2 e2) := by
  rw [← scaledInt_value n1 m1 (min_le_left e1 e2), ← scaledInt_value n2 m2 (min_le_right e1 e2),
    mul_lt_mul_iff_left₀ (zpow_pos (by norm_num) _), Int.cast_lt]

theorem scaledInt_eq_iff {n1 n2 : Bool} {m1 m2 : Nat} {e1 e2 : Int} :
    scaledInt n1 m1 e1 (min e1 e2) = scaledInt n2 m2 e2 (min e1 e2) ↔ ratOf (.fin n1 m1 e1) = ratOf (.fin n2 m2 e2) := by
  rw [← scaledInt_value n1 m1 (min_le_left e1 e2), ← scaledInt_value n2 m2 (min_le_right e1 e2),
    mul_left_inj' (zpow_pos (by norm_num) _).ne', Int.cast_inj]

theorem keyAt_fin (n : Bool) (m : Nat) (e : Int) : keyAt K (.fin n m e) = ratOf (.fin n m e) := rfl
theorem keyAt_inf (n : Bool) : keyAt K (.inf n) = if n then -K else K := rfl

theorem ratOf_sign (n : Bool) (m : Nat) (e : Int) : if n then ratOf (.fin n m e) ≤ 0 else 0 ≤ ratOf (.fin n m e) := by
  have hmag : (0 : ℚ) ≤ m * 2 ^ e := by positivity
  cases n
  · simp only [ratOf_signed, Bool.false_eq_true, if_false, one_mul]
    exact hmag
  · simp only [ratOf_signed, if_true, neg_mul, one_mul]
    linarith

theorem ratOf_eq_zero_iff {n : Bool} {m : Nat} {e : Int} : ratOf (.fin n m e) = 0 ↔ m = 0 := by
  have hpow : (2 : ℚ) ^ e ≠ 0 := (zpow_pos (by norm_num) _).ne'
  rw [ratOf_signed]
  cases n <;> simp [hpow]

theorem fEqNum_iff (hK : 0 < K) (hx : Below K x) (hy : Below K y) : fEqNum x y = true ↔ keyAt K x = keyAt K y := by
  obtain ⟨n1, rfl⟩ | ⟨n1, m1, e1, rfl, h1⟩ := hx <;> obtain ⟨n2, rfl⟩ | ⟨n2, m2, e2, rfl, h2⟩ := hy
  · rw [keyAt_inf, keyAt_inf]
    cases n1 <;> cases n2 <;> simp [fEqNum] <;> linarith
  · rw [abs_lt] at h2
    rw [keyAt_inf, keyAt_fin]
    refine iff_of_false Bool.false_ne_true ?_
    cases n1
    · exact h2.2.ne'
    · exact h2.1.ne
  · rw [abs_lt] at h1
    rw [keyAt_inf, keyAt_fin]
    refine iff_of_false Bool.false_ne_true ?_
    cases n2
    · exact h1.2.ne
    · exact h1.1.ne'
  · exact decide_eq_true_iff.trans scaledInt_eq_iff

/-- The order of `fmin` and `fmax` is that of the numbers, with −0 below +0. -/
theorem less_iff (hK : 0 < K) (hx : Below K x) (hy : Below K y) :
    fMinMax.less x y = true ↔ keyAt K x < keyAt K y ∨ (keyAt K x = keyAt K y ∧ x.neg? = true ∧ y.neg? = false) := by
  obtain ⟨n1, rfl⟩ | ⟨n1, m1, e1, rfl, h1⟩ := hx <;> obtain ⟨n2, rfl⟩ | ⟨n2, m2, e2, rfl, h2⟩ := hy
  · rw [keyAt_inf, keyAt_inf]
    have hends : -K < K := by linarith
    cases n1 <;> cases n2
    · simp [fMinMax.less, FVal.neg?]
    · simp [fMinMax.less, FVal.neg?, hK.le]
    · exact iff_of_true rfl (.inl hends)
    · simp [fMinMax.less, FVal.neg?]
  · rw [abs_lt] at h2
    rw [keyAt_inf, keyAt_fin]
    cases n1
    · simp [fMinMax.less, FVal.neg?]
      linarith
    · simp [fMinMax.less, h2.1]
  · rw [abs_lt] at h1
    rw [keyAt_inf, keyAt_fin]
    cases n2
    · simp [fMinMax.less, h1.2]
    · simp [fMinMax.less, FVal.neg?]
      linarith
  · rw [keyAt_fin, keyAt_fin]
    have hs1 := ratOf_sign n1 m1 e1
    have hs2 := ratOf_sign n2 m2 e2
    unfold fMinMax.less
    by_cases hzero : m1 = 0 ∧ m2 = 0
    · obtain ⟨rfl, rfl⟩ := hzero
      simp [ratOf_zero, FVal.neg?]
    · have hsign : ¬ (ratOf (.fin n1 m1 e1) = ratOf (.fin n2 m2 e2) ∧ n1 = true ∧ n2 = false) := by
        rintro ⟨heq, rfl, rfl⟩
        simp only [if_true, Bool.false_eq_true, if_false] at hs1 hs2
        exact hzero ⟨ratOf_eq_zero_iff.1 (le_antisymm hs1 (heq ▸ hs2)), ratOf_eq_zero_iff.1 (le_antisymm (heq ▸ hs1) hs2)⟩
      simp only [FVal.neg?, hsign, or_false, Bool.and_eq_true, decide_eq_true_eq, hzero, if_false]
      exact scaledInt_lt_iff

end Order

/-! ### The values of a format -/

section Values

variable {F : Fmt} {b : Nat}

theorem ratOf_bound (hF : Sound F) {n : Bool} {m : Nat} {e : Int} (hm : m < 2 ^ (F.fbits + 1)) (he : e ≤ F.emax) :
    |ratOf (.fin n m e)| < 2 ^ 1100 := by
  have habs : |ratOf (.fin n m e)| = m * 2 ^ e := by
    rw [ratOf_signed, abs_mul, abs_mul, abs_of_pos (zpow_pos (by norm_num : (0 : ℚ) < 2) e)]
    cases n <;> simp
  have hbias : F.fbits + 1 + F.emax ≤ 1100 := by
    have hpow : (2 : Int) ^ (F.ebits - 1) ≤ 2 ^ 10 := pow_le_pow_right₀ (by norm_num) (by have := hF.2.1; omega)
    unfold Fmt.emax Fmt.bias
    omega
  rw [habs]
  calc (m : ℚ) * 2 ^ e < 2 ^ (F.fbits + 1) * 2 ^ e := mul_lt_mul_of_pos_right (by exact_mod_cast hm) (zpow_pos (by norm_num) _)
    _ ≤ 2 ^ (F.fbits + 1) * 2 ^ F.emax := mul_le_mul_of_nonneg_left (zpow_le_zpow_right₀ (by norm_num) he) (by positivity)
    _ = 2 ^ (F.fbits + 1 + F.emax) := by rw [zpow_add₀ (by norm_num)]; norm_cast
    _ ≤ 2 ^ (1100 : Int) := zpow_le_zpow_right₀ (by norm_num) hbias
    _ = 2 ^ 1100 := zpow_ofNat ..

/-- The numbers of the formats lie below 2^1100. -/
theorem decode_below (hF : Sound F) (h : nanBits F b = false) : Below (2 ^ 1100) (F.decode b) := by
  obtain ⟨-, -, hval⟩ | ⟨hex, hval⟩ := decode_num h
  · exact .inl ⟨_, hval⟩
  · have hfr := frOf_lt (F := F) (b := b)
    have hmax := emax_eq hF
    have hfour : (4 : Int) ≤ 2 ^ F.ebits := by exact_mod_cast Nat.pow_le_pow_right (n := 2) (by norm_num) hF.1
    have hexz : (exOf F b : Int) < 2 ^ F.ebits - 1 := by exact_mod_cast (by omega : (exOf F b : Int) < (2 ^ F.ebits : Nat) - 1)
    have hpow : 2 ^ (F.fbits + 1) = 2 ^ F.fbits * 2 := pow_succ ..
    refine .inr ?_
    rw [hval]
    split
    · exact ⟨_, _, _, rfl, ratOf_bound hF (by omega) (by omega)⟩
    · exact ⟨_, _, _, rfl, ratOf_bound hF (by omega) (by omega)⟩

/-! ### Classes (R106) -/

/-- The class of encoded bits by their fields. -/
theorem classOf_decode (hF : Sound F) : F.classOf (F.decode b) =
    if exOf F b = 2 ^ F.ebits - 1 then
      (if frOf F b = 0 then (if signOf F b then 0 else 7) else if frOf F b / 2 ^ (F.fbits - 1) = 0 then 8 else 9)
    else if exOf F b = 0 then (if frOf F b = 0 then (if signOf F b then 3 else 4) else (if signOf F b then 2 else 5))
    else (if signOf F b then 1 else 6) := by
  by_cases h : nanBits F b = true
  · obtain ⟨hex, hfr⟩ := nanBits_eq_true_iff.1 h
    have htop : frOf F b / 2 ^ (F.fbits - 1) = b / 2 ^ (F.fbits - 1) % 2 := by
      unfold frOf
      rw [show 2 ^ F.fbits = 2 ^ (F.fbits - 1) * 2 by rw [← pow_succ]; congr 1; have := hF.2.2.1; omega, Nat.mod_mul_right_div_self]
    have hclass : F.classOf (F.decode b) = if (F.decode b).isSnan then 8 else 9 := by rw [decode_nan h]; rfl
    rw [hclass, isSnan_decode hF, if_pos hex, if_neg hfr, htop]
    unfold snanBits
    simp [h]
  · obtain ⟨hex, hfr, hval⟩ | ⟨hex, hval⟩ := decode_num (Bool.eq_false_iff.2 h)
    · rw [hval, if_pos hex, if_pos hfr]
      rfl
    · have hfr := frOf_lt (F := F) (b := b)
      rw [hval, if_neg hex.ne]
      by_cases h0 : exOf F b = 0
      · rw [if_pos h0, if_pos h0]
        unfold Fmt.classOf
        simp [magLt, hfr]
      · have hpos := Nat.two_pow_pos F.fbits
        have hmag : magLt (2 ^ F.fbits + frOf F b) (exOf F b - 1 + F.emin) (2 ^ F.fbits) F.emin = false := by
          unfold magLt
          dsimp only
          rw [min_eq_right (by omega), sub_self]
          have hscale : 2 ^ F.fbits + frOf F b ≤ (2 ^ F.fbits + frOf F b) * 2 ^ ((exOf F b : Int) - 1 + F.emin - F.emin).toNat :=
            Nat.le_mul_of_pos_right _ (Nat.two_pow_pos _)
          simp only [Int.toNat_zero, pow_zero, mul_one, decide_eq_false_iff_not]
          omega
        rw [if_neg h0, if_neg h0]
        unfold Fmt.classOf
        simp only [hmag, Bool.false_eq_true, if_false]
        rw [if_neg (by omega)]

end Values

/-! ### The instructions -/

section Instructions

variable {s : State} {f : Nat} {d : BitVec 5}

theorem wroteFlags_none (v : Dword) : wroteFlags s f d (v, 0) = wrote s f d v := by
  change next s f (((s.ctx f).raiseFlags 0).setS d.toNat v) = _
  rw [raiseFlags_none]

/-- What an instruction writes of a value whose rounding is known. -/
theorem roundScalar_eq {F : Fmt} {rm : RM} {v : FVal} {b : Nat} {fl g : Flags} (hv : F.roundTo rm v = (b, fl)) (hb : b < 2 ^ F.bits) :
    roundScalar F rm (v, g) = (BitVec.ofNat 64 b, g ||| fl) := by
  unfold roundScalar
  rw [hv]
  change (BitVec.ofNat 64 (b % 2 ^ F.bits), g ||| fl) = _
  rw [Nat.mod_eq_of_lt hb]

theorem isSnan_num {x : FVal} (h : x.isNan = false) : x.isSnan = false := by
  cases x with
  | nan n w => cases h
  | inf n => rfl
  | fin n m e => rfl

theorem compareFlags_num {ordered : Bool} {x y : FVal} (hx : x.isNan = false) (hy : y.isNan = false) : compareFlags ordered x y = 0 := by
  unfold compareFlags snanFlag
  simp [hx, hy, isSnan_num hx, isSnan_num hy]

theorem fMinMax_num {isMax : Bool} {x y : FVal} (hx : x.isNan = false) (hy : y.isNan = false) :
    fMinMax isMax x y = (if fMinMax.less x y then (if isMax then y else x) else (if isMax then x else y), 0) := by
  unfold fMinMax firstNan firstNan firstNan
  simp [hx, hy]

end Instructions

/-- Settles O7: the comparisons are those of the numbers (`fEqNum_iff`, `less_iff`), and the value picked is written as it is. -/
theorem floatComparisonsAndClasses : Obligations.FloatComparisonsAndClasses := by
  unfold Obligations.FloatComparisonsAndClasses
  intro s f d a b k _ h c F x y X Y key lt eq put ex fr neg
  have hF := fmtOf_sound k
  have hx : x < 2 ^ F.bits := Nat.mod_lt _ (Nat.two_pow_pos _)
  have hy : y < 2 ^ F.bits := Nat.mod_lt _ (Nat.two_pow_pos _)
  refine ⟨fun hnx hny => ?_, _, ?_, rfl⟩
  · have hK : (0 : ℚ) < 2 ^ 1100 := pow_pos (by norm_num) _
    have hX : Below (2 ^ 1100) X := decode_below hF hnx
    have hY : Below (2 ^ 1100) Y := decode_below hF hny
    have hnX : X.isNan = false := (isNan_decode F x).trans hnx
    have hnY : Y.isNan = false := (isNan_decode F y).trans hny
    have heq : fEqNum X Y = true ↔ eq := fEqNum_iff hK hX hY
    have hless : fMinMax.less X Y = true ↔ lt ∨ (eq ∧ X.neg? = true ∧ Y.neg? = false) := less_iff hK hX hY
    have hput {v : FVal × Flags} {n : Nat} {i : Instr} (hi : exec i s = .next (wroteFlags s f d (roundScalar F c.srm v)))
        (hv : v = (F.decode n, 0)) (hn : n < 2 ^ F.bits) (hnum : nanBits F n = false) : exec i s = put n := by
      rw [hi, hv, roundScalar_eq (roundTo_decode hF hn hnum) hn]
      exact congrArg Outcome.next (wroteFlags_none _)
    have htruth {i : Instr} {p : Bool} {P : Prop} {fl : Flags} (hi : exec i s = .next (wroteFlags s f d (truth p fl))) (hfl : fl = 0)
        (hp : p = true ↔ P) : exec i s = put 1 ∧ P ∨ exec i s = put 0 ∧ ¬ P := by
      rw [hi, hfl]
      cases p with
      | true => exact .inl ⟨congrArg Outcome.next (wroteFlags_none _), hp.1 rfl⟩
      | false => exact .inr ⟨congrArg Outcome.next (wroteFlags_none _), fun hP => Bool.false_ne_true (hp.2 hP)⟩
    have hlt : floatLt X Y = true ↔ lt := by
      unfold floatLt fLtNum
      simp only [hnX, hnY, Bool.not_false, Bool.true_and, Bool.and_eq_true, Bool.not_eq_true', ← Bool.not_eq_true, heq, hless]
      exact ⟨fun ⟨hl, hne⟩ => hl.resolve_right fun he => hne he.1, fun hl => ⟨.inl hl, hl.ne⟩⟩
    have heq' : floatEq X Y = true ↔ eq := by
      unfold floatEq
      simp only [hnX, hnY, Bool.not_false, Bool.true_and, heq]
    have hle : floatLe X Y = true ↔ lt ∨ eq := by
      unfold floatLe
      rw [Bool.or_eq_true, hlt, heq']
    have hpick (isMax : Bool) (hl : fMinMax.less X Y = true) : fMinMax isMax X Y = (if isMax then Y else X, 0) := by
      rw [fMinMax_num hnX hnY, if_pos hl]
    have hother (isMax : Bool) (hl : ¬ fMinMax.less X Y = true) : fMinMax isMax X Y = (if isMax then X else Y, 0) := by
      rw [fMinMax_num hnX hnY, if_neg hl]
    refine ⟨htruth (exec_feq h) (compareFlags_num hnX hnY) heq', htruth (exec_flt h) (compareFlags_num hnX hnY) hlt,
      htruth (exec_fle h) (compareFlags_num hnX hnY) hle, fun hl => ?_, fun hl => ?_⟩
    · have hl' := hless.2 hl
      exact ⟨hput (exec_fmin h) (hpick false hl') hx hnx,
        hput (exec_fmax h) (hpick true hl') hy hny⟩
    · have hl' : ¬ fMinMax.less X Y = true := fun hless' => (hless.1 hless').elim hl.1 hl.2
      exact ⟨hput (exec_fmin h) (hother false hl') hy hny,
        hput (exec_fmax h) (hother true hl') hx hnx⟩
  · have hneg : signOf F x = true ↔ neg := beq_iff_eq
    have hclass := classOf_decode (F := F) (b := x) hF
    simp only [hneg] at hclass
    rw [exec_fclass h, wroteFlags_none]
    exact congrArg (fun n => (.next (wrote s f d (BitVec.ofNat 64 (2 ^ n))) : Out)) hclass

end Sys2Proof.Proofs
end

section
/-! SUPPORT. Floats rounded to integers, and the special operands of the scalar float instructions (R107, R302, R304). -/

namespace Sys2Proof.Proofs

open Sys2Proof Sys2Proof.Machine Sys2Proof.Laws Sys2Proof.Safety Host

/-! ### Rounding to an integer (R302) -/

/-- Whether a magnitude of whole part q and fraction t goes up to q + 1. -/
def GoesUp (rm : RM) (neg : Bool) (q : Nat) (t : ℚ) : Prop :=
  match rm with
  | .nearestEven => 1 / 2 < t ∨ (t = 1 / 2 ∧ q % 2 = 1)
  | .towardZero => False
  | .up => t ≠ 0 ∧ neg = false
  | .down => t ≠ 0 ∧ neg = true
  | .nearestAway => 1 / 2 ≤ t

/-- An integer by sign and magnitude. -/
def withSign (neg : Bool) (n : Nat) : ℤ := if neg then -(n : ℤ) else n

section Parts

variable {rm : RM} {neg : Bool} {q n : Nat} {t : ℚ}

theorem withSign_cast (neg : Bool) (n : Nat) : ((withSign neg n : ℤ) : ℚ) = (if neg then -1 else 1) * n := by
  cases neg <;> simp [withSign]

theorem abs_sign (neg : Bool) {x : ℚ} (hx : 0 ≤ x) : |(if neg then -1 else 1) * x| = x := by
  cases neg <;> simp [abs_of_nonneg hx]

theorem abs_sign_sub (neg : Bool) (x y : ℚ) : |(if neg then -1 else 1) * x - (if neg then -1 else 1) * y| = |x - y| := by
  cases neg
  · simp
  · simp only [if_true]
    rw [show -1 * x - -1 * y = -(x - y) by ring, abs_neg]

/-- The mode's choice between the two integers around a magnitude is the one that R302 names. -/
theorem roundsTo_of_parts (h0 : 0 ≤ t) (h1 : t < 1) (hup : GoesUp rm neg q t → n = q + 1) (hdown : ¬ GoesUp rm neg q t → n = q) :
    RoundsTo rm ((if neg then -1 else 1) * (q + t)) (withSign neg n) := by
  have hq : (0 : ℚ) ≤ q := Nat.cast_nonneg q
  have hn : (0 : ℚ) ≤ n := Nat.cast_nonneg n
  have hleft : |(q : ℚ) + t - q| = t := by rw [add_sub_cancel_left, abs_of_nonneg h0]
  have hright : |(q : ℚ) + t - (q + 1 : Nat)| = 1 - t := by
    push_cast
    rw [show (q : ℚ) + t - (q + 1) = -(1 - t) by ring, abs_neg, abs_of_pos (by linarith)]
  cases rm with
  | nearestEven =>
    simp only [RoundsTo, withSign_cast, abs_sign_sub]
    by_cases h : GoesUp .nearestEven neg q t
    · obtain rfl := hup h
      rw [hright]
      refine ⟨by obtain h | ⟨h, -⟩ := h <;> linarith, fun he => ?_⟩
      obtain h | ⟨-, hodd⟩ := h
      · linarith
      · unfold withSign
        split <;> omega
    · obtain rfl := hdown h
      simp only [GoesUp, not_or, not_lt, not_and] at h
      rw [hleft]
      refine ⟨h.1, fun he => ?_⟩
      have := h.2 he
      unfold withSign
      split <;> omega
  | towardZero =>
    obtain rfl := hdown id
    simp only [RoundsTo, withSign_cast]
    rw [abs_sign neg hq, abs_sign neg (by linarith)]
    refine ⟨by linarith, by linarith, ?_⟩
    cases neg
    · simp only [Bool.false_eq_true, if_false, one_mul]
      positivity
    · simp only [if_true, neg_mul, one_mul, mul_neg, neg_neg]
      positivity
  | up =>
    simp only [RoundsTo, withSign_cast]
    cases neg with
    | false =>
      by_cases ht : t = 0
      · obtain rfl := hdown fun h => h.1 ht
        simp [ht]
      · obtain rfl := hup ⟨ht, rfl⟩
        have : 0 < t := lt_of_le_of_ne h0 (Ne.symm ht)
        push_cast
        simp only [one_mul]
        exact ⟨by linarith, by linarith⟩
    | true =>
      obtain rfl := hdown fun h => Bool.noConfusion h.2
      simp only [if_true, neg_mul, one_mul]
      exact ⟨by linarith, by linarith⟩
  | down =>
    simp only [RoundsTo, withSign_cast]
    cases neg with
    | true =>
      by_cases ht : t = 0
      · obtain rfl := hdown fun h => h.1 ht
        simp [ht]
      · obtain rfl := hup ⟨ht, rfl⟩
        have : 0 < t := lt_of_le_of_ne h0 (Ne.symm ht)
        push_cast
        simp only [if_true, neg_mul, one_mul]
        exact ⟨by linarith, by linarith⟩
    | false =>
      obtain rfl := hdown fun h => Bool.noConfusion h.2
      simp only [Bool.false_eq_true, if_false, one_mul]
      exact ⟨by linarith, by linarith⟩
  | nearestAway =>
    simp only [RoundsTo, withSign_cast, abs_sign_sub]
    by_cases h : GoesUp .nearestAway neg q t
    · obtain rfl := hup h
      rw [hright, abs_sign neg hn, abs_sign neg (by linarith)]
      have h' : 1 / 2 ≤ t := h
      refine ⟨by linarith, fun he => ?_⟩
      push_cast
      linarith
    · obtain rfl := hdown h
      have h' : t < 1 / 2 := not_le.1 h
      rw [hleft]
      exact ⟨h'.le, fun he => by linarith⟩

theorem goesUp_ne_zero (h : GoesUp rm neg q t) : t ≠ 0 := by
  rintro rfl
  cases rm with
  | nearestEven => exact h.elim (fun h => by norm_num at h) fun h => by norm_num at h
  | towardZero => exact h
  | up => exact h.1 rfl
  | down => exact h.1 rfl
  | nearestAway => exact absurd (show (1 / 2 : ℚ) ≤ 0 from h) (by norm_num)

/-- Only a magnitude without a fraction is its own rounding. -/
theorem parts_exact_iff (h1 : t < 1) (hup : GoesUp rm neg q t → n = q + 1) (hdown : ¬ GoesUp rm neg q t → n = q) :
    ((withSign neg n : ℤ) : ℚ) = (if neg then -1 else 1) * (q + t) ↔ t = 0 := by
  have hsign : (if neg then -1 else 1 : ℚ) ≠ 0 := by cases neg <;> norm_num
  rw [withSign_cast, mul_right_inj' hsign]
  by_cases h : GoesUp rm neg q t
  · rw [hup h]
    push_cast
    exact iff_of_false (fun he => by linarith) (goesUp_ne_zero h)
  · rw [hdown h, left_eq_add]

end Parts

theorem roundsTo_exact {rm : RM} {n : ℤ} : RoundsTo rm n n := by
  have h2 : |((n : ℚ)) - n| = 0 := by simp
  cases rm with
  | nearestEven => exact ⟨by rw [h2]; norm_num, fun h => by rw [h2] at h; norm_num at h⟩
  | towardZero => exact ⟨le_rfl, lt_add_one _, mul_self_nonneg _⟩
  | up => exact ⟨le_rfl, lt_add_one _⟩
  | down => exact ⟨le_rfl, lt_add_one _⟩
  | nearestAway => exact ⟨by rw [h2]; norm_num, fun h => by rw [h2] at h; norm_num at h⟩

/-- Below a binary point, `roundShift` takes the whole part of a magnitude or the next one, as its fraction says. -/
theorem roundShift_parts {rm : RM} {neg : Bool} {m : Nat} {sh : Int} (h : 0 < sh) :
    (GoesUp rm neg (m / 2 ^ sh.toNat) ((m % 2 ^ sh.toNat : Nat) / (2 ^ sh.toNat : Nat)) → (roundShift rm neg m sh).1 = m / 2 ^ sh.toNat + 1) ∧
      (¬ GoesUp rm neg (m / 2 ^ sh.toNat) ((m % 2 ^ sh.toNat : Nat) / (2 ^ sh.toNat : Nat)) → (roundShift rm neg m sh).1 = m / 2 ^ sh.toNat) ∧
      ((roundShift rm neg m sh).2 = true ↔ m % 2 ^ sh.toNat ≠ 0) := by
  have hd := Nat.two_pow_pos sh.toNat
  unfold roundShift
  rw [if_neg (not_le.2 h)]
  generalize 2 ^ sh.toNat = d at hd
  have hdq : (0 : ℚ) < d := by exact_mod_cast hd
  have hgt : 1 / 2 < ((m % d : Nat) : ℚ) / d ↔ 2 * (m % d) > d := by
    rw [div_lt_div_iff₀ (by norm_num) hdq, one_mul, mul_comm]
    exact_mod_cast Iff.rfl
  have heq : ((m % d : Nat) : ℚ) / d = 1 / 2 ↔ 2 * (m % d) = d := by
    rw [div_eq_div_iff hdq.ne' (by norm_num), one_mul, mul_comm]
    exact_mod_cast Iff.rfl
  have hge : 1 / 2 ≤ ((m % d : Nat) : ℚ) / d ↔ 2 * (m % d) ≥ d := by
    rw [div_le_div_iff₀ (by norm_num) hdq, one_mul, mul_comm]
    exact_mod_cast Iff.rfl
  have hne : ((m % d : Nat) : ℚ) / d ≠ 0 ↔ m % d ≠ 0 := by
    rw [ne_eq, div_eq_zero_iff, or_iff_left hdq.ne', Nat.cast_eq_zero]
  dsimp only
  have hup (p : Bool) (P : Prop) (hp : p = true ↔ P) : (P → (if p = true then m / d + 1 else m / d) = m / d + 1) ∧
      (¬ P → (if p = true then m / d + 1 else m / d) = m / d) := ⟨fun h => if_pos (hp.2 h), fun h => if_neg (mt hp.1 h)⟩
  rw [← and_assoc]
  refine ⟨hup _ _ ?_, decide_eq_true_iff⟩
  cases rm with
  | nearestEven => simp only [GoesUp, Bool.or_eq_true, Bool.and_eq_true, decide_eq_true_eq, beq_iff_eq, hgt, heq]
  | towardZero => simp [GoesUp]
  | up => simp only [GoesUp, Bool.and_eq_true, decide_eq_true_eq, Bool.not_eq_true', hne]
  | down => simp only [GoesUp, Bool.and_eq_true, decide_eq_true_eq, hne]
  | nearestAway => simp only [GoesUp, decide_eq_true_eq, hge]

/-- What `roundShift` makes of a finite value is the integer of R302, inexact exactly where it differs. -/
theorem roundShift_roundsTo (rm : RM) (neg : Bool) (m : Nat) (e : Int) :
    RoundsTo rm (ratOf (.fin neg m e)) (withSign neg (roundShift rm neg m (-e)).1) ∧
      ((roundShift rm neg m (-e)).2 = true ↔ ((withSign neg (roundShift rm neg m (-e)).1 : ℤ) : ℚ) ≠ ratOf (.fin neg m e)) := by
  by_cases hsh : -e ≤ 0
  · have hvalue : ((withSign neg (m * 2 ^ (- -e).toNat) : ℤ) : ℚ) = ratOf (.fin neg m e) := by
      obtain ⟨k, rfl⟩ := Int.eq_ofNat_of_zero_le (show 0 ≤ e by omega)
      rw [withSign_cast, ratOf_signed]
      push_cast
      simp
    unfold roundShift
    rw [if_pos hsh]
    dsimp only
    exact ⟨hvalue ▸ roundsTo_exact, iff_of_false Bool.false_ne_true (not_not.2 hvalue)⟩
  · have hsh' : 0 < -e := not_le.1 hsh
    obtain ⟨hup, hdown, hinexact⟩ := roundShift_parts (rm := rm) (neg := neg) (m := m) hsh'
    have hd : (0 : ℚ) < (2 ^ (-e).toNat : Nat) := by positivity
    have hparts : ratOf (.fin neg m e) =
        (if neg then -1 else 1) * ((m / 2 ^ (-e).toNat : Nat) + (m % 2 ^ (-e).toNat : Nat) / (2 ^ (-e).toNat : Nat)) := by
      have hdiv : ((2 ^ (-e).toNat : Nat) : ℚ) * (m / 2 ^ (-e).toNat : Nat) + (m % 2 ^ (-e).toNat : Nat) = m := by
        exact_mod_cast Nat.div_add_mod m _
      have hpow : (2 : ℚ) ^ e = ((2 ^ (-e).toNat : Nat) : ℚ)⁻¹ := by
        push_cast
        rw [← zpow_natCast, ← zpow_neg, Int.toNat_of_nonneg hsh'.le, neg_neg]
      rw [ratOf_signed, hpow, ← hdiv]
      field_simp
    have ht0 : (0 : ℚ) ≤ (m % 2 ^ (-e).toNat : Nat) / (2 ^ (-e).toNat : Nat) := by positivity
    have ht1 : ((m % 2 ^ (-e).toNat : Nat) : ℚ) / (2 ^ (-e).toNat : Nat) < 1 := by
      rw [div_lt_one hd]
      exact_mod_cast Nat.mod_lt _ (Nat.two_pow_pos _)
    rw [hparts]
    refine ⟨roundsTo_of_parts ht0 ht1 hup hdown, hinexact.trans ?_⟩
    rw [ne_eq, ne_eq, parts_exact_iff ht1 hup hdown, div_eq_zero_iff, or_iff_left hd.ne', Nat.cast_eq_zero]

/-- A finite value converted to an integer (R302): the integer that the mode names, or the end of the range beyond which it lies. -/
theorem floatToInt_finite {rm : RM} {lo hi : Int} {x : FVal} (hx : isFinite x = true) : ∃ v : Int, RoundsTo rm (ratOf x) v ∧
    ((v < lo ∧ floatToInt rm lo hi x = (lo, Flags.nv)) ∨ (hi < v ∧ floatToInt rm lo hi x = (hi, Flags.nv)) ∨
      (lo ≤ v ∧ v ≤ hi ∧ floatToInt rm lo hi x = (v, if (v : ℚ) = ratOf x then 0 else Flags.nx))) := by
  obtain ⟨neg, m, e, rfl⟩ := isFinite_iff.1 hx
  obtain ⟨hrounds, hinexact⟩ := roundShift_roundsTo rm neg m e
  refine ⟨_, hrounds, ?_⟩
  have hvalue : floatToInt rm lo hi (.fin neg m e) =
      if withSign neg (roundShift rm neg m (-e)).1 < lo then (lo, Flags.nv)
      else if withSign neg (roundShift rm neg m (-e)).1 > hi then (hi, Flags.nv)
      else (withSign neg (roundShift rm neg m (-e)).1, if (roundShift rm neg m (-e)).2 then Flags.nx else 0) := rfl
  rw [hvalue]
  generalize withSign neg (roundShift rm neg m (-e)).1 = v at hinexact
  by_cases hlo : v < lo
  · exact .inl ⟨hlo, if_pos hlo⟩
  · rw [if_neg hlo]
    by_cases hhi : v > hi
    · exact .inr (.inl ⟨hhi, if_pos hhi⟩)
    · rw [if_neg hhi, if_congr hinexact rfl rfl, ite_not]
      exact .inr (.inr ⟨not_lt.1 hlo, not_lt.1 hhi, rfl⟩)

end Sys2Proof.Proofs
end

section
/-! SUPPORT. The special operands of the scalar float instructions (R107, R304). -/

namespace Sys2Proof.Proofs

open Sys2Proof Sys2Proof.Machine Sys2Proof.Laws Sys2Proof.Safety Host

/-! ### What is written of a NaN and of an infinity -/

theorem flags_or_zero (g : Flags) : g ||| 0 = g := BitVec.or_zero

section Written

variable {F G : Fmt} {rm : RM} {b : Nat}

/-- A NaN's bits in a format fit it. -/
theorem roundTo_nan_lt (hF : Sound F) (neg : Bool) (w : BitVec 52) : (F.roundTo rm (.nan neg w)).1 < 2 ^ F.bits := by
  obtain ⟨-, -, -, hfb⟩ := hF
  refine pack_lt (by have := Nat.two_pow_pos F.ebits; omega) (Nat.div_lt_of_lt_mul ?_)
  rw [← pow_add, show 52 - F.fbits + F.fbits = 52 by omega]
  exact (w ||| 0x8000000000000).isLt

/-- A quieted operand writes its own bits with the quiet bit. -/
theorem roundScalar_quiet (hF : Sound F) (hb : b < 2 ^ F.bits) (h : nanBits F b = true) (g : Flags) :
    roundScalar F rm ((F.decode b).quiet, g) = (BitVec.ofNat 64 (quietBits F b), g) := by
  have hround := roundTo_decode_quiet (rm := rm) hF hb h
  have hlt := roundTo_nan_lt (rm := rm) hF (signOf F b) (BitVec.ofNat 52 (frOf F b * 2 ^ (52 - F.fbits)) ||| 0x8000000000000)
  rw [decode_nan h] at hround ⊢
  unfold FVal.quiet at hround ⊢
  rw [hround] at hlt
  rw [roundScalar_eq hround hlt, flags_or_zero]

/-- A NaN of another format, converted. -/
theorem roundScalar_converted (hG : Sound G) (hF : Sound F) (h : nanBits G b = true) :
    roundScalar F rm (G.decode b, 0) = (BitVec.ofNat 64 (convertedNan G F b), if snanBits G b then Flags.nv else 0) := by
  have hround := roundTo_converted (rm := rm) hG hF h
  have hlt := roundTo_nan_lt (rm := rm) hF (signOf G b) (BitVec.ofNat 52 (frOf G b * 2 ^ (52 - G.fbits)))
  rw [← decode_nan h, hround] at hlt
  rw [roundScalar_eq hround hlt, BitVec.or_comm, flags_or_zero]

theorem convertedNan_same (hF : Sound F) (hb : b < 2 ^ F.bits) (h : nanBits F b = true) : convertedNan F F b = quietBits F b := by
  have hround := roundTo_converted (rm := .nearestEven) hF hF h
  rw [decode_nan h, roundTo_nan hF hF frOf_lt, carried_same, ← quietBits_eq hF hb h] at hround
  exact (congrArg Prod.fst hround).symm

theorem roundScalar_dnan (hF : Sound F) (g : Flags) : roundScalar F rm (.dnan, g) = (BitVec.ofNat 64 (defaultNan F), g) := by
  have hlt := roundTo_nan_lt (rm := rm) hF false 0x8000000000000
  rw [← FVal.dnan, roundTo_dnan hF] at hlt
  rw [roundScalar_eq (roundTo_dnan hF) hlt, flags_or_zero]

theorem roundScalar_inf (neg : Bool) (g : Flags) : roundScalar F rm (.inf neg, g) = (BitVec.ofNat 64 (infBits F neg), g) := by
  have hlt : infBits F neg < 2 ^ F.bits :=
    (pack_lt (F := F) (neg := neg) (ex := 2 ^ F.ebits - 1) (fr := 0) (by have := Nat.two_pow_pos F.ebits; omega) (Nat.two_pow_pos _))
  rw [roundScalar_eq (roundTo_inf neg) hlt, flags_or_zero]

theorem snanFlag_decode (hF : Sound F) (bs : List Nat) :
    snanFlag (bs.map F.decode) = if bs.any (snanBits F) then Flags.nv else 0 := by
  unfold snanFlag
  rw [List.any_map, show FVal.isSnan ∘ F.decode = snanBits F from funext (isSnan_decode hF)]

end Written

/-! ### NaN operands -/

section Operands

variable {rm : RM} {x y z n : FVal}

theorem firstNan_head (l : List FVal) (hx : x.isNan = true) : firstNan (x :: l) = some x.quiet := if_pos hx
theorem firstNan_tail (l : List FVal) (hx : x.isNan = false) : firstNan (x :: l) = firstNan l := if_neg (by simp [hx])

theorem fAdd_nan (h : firstNan [x, y] = some n) : fAdd rm x y = (n, snanFlag [x, y]) := by unfold fAdd; rw [h]
theorem fSub_nan (h : firstNan [x, y] = some n) : fSub rm x y = (n, snanFlag [x, y]) := by unfold fSub; rw [h]
theorem fMul_nan (h : firstNan [x, y] = some n) : fMul x y = (n, snanFlag [x, y]) := by unfold fMul; rw [h]
theorem fDiv_nan (h : firstNan [x, y] = some n) : fDiv x y = (n, snanFlag [x, y]) := by unfold fDiv; rw [h]
theorem fMinMax_nan {isMax : Bool} (h : firstNan [x, y] = some n) : fMinMax isMax x y = (n, snanFlag [x, y]) := by unfold fMinMax; rw [h]

/-- Whether a product is one of 0 and an infinity. -/
def zeroTimesInf (x y : FVal) : Bool := (x.isZero && y.isInf) || (x.isInf && y.isZero)

theorem fFma_nan (h : firstNan [x, y, z] = some n) :
    fFma rm false false x y z = (n, snanFlag [x, y, z] ||| if zeroTimesInf x y then Flags.nv else 0) := by unfold fFma; rw [h]; rfl

theorem fFma_nan_valid (h : firstNan [x, y, z] = some n) (hp : zeroTimesInf x y = false) :
    fFma rm false false x y z = (n, snanFlag [x, y, z]) := by
  rw [fFma_nan h, hp]
  exact congrArg (Prod.mk n) (flags_or_zero _)

theorem fFma_invalid (h : firstNan [x, y, z] = none) (hp : zeroTimesInf x y = true) : fFma rm false false x y z = (.dnan, Flags.nv) := by
  unfold fFma
  rw [h]
  exact if_pos hp

theorem zeroTimesInf_nan (h : x.isNan = true ∨ y.isNan = true) : zeroTimesInf x y = false := by
  unfold zeroTimesInf
  cases x <;> cases y <;> simp_all [FVal.isNan, FVal.isZero, FVal.isInf]

theorem fSqrt_nan (hx : x.isNan = true) : fSqrt x = (x.quiet, snanFlag [x]) := by
  cases x with
  | nan n w => rfl
  | inf n => cases hx
  | fin n m e => cases hx

theorem isInf_iff : x.isInf = true ↔ ∃ n, x = .inf n := by cases x <;> simp [FVal.isInf]

theorem isZero_iff : x.isZero = true ↔ ∃ n e, x = .fin n 0 e := by
  cases x with
  | nan n w => simp [FVal.isZero]
  | inf n => simp [FVal.isZero]
  | fin n m e => cases m <;> simp [FVal.isZero]

theorem fMul_invalid (hp : zeroTimesInf x y = true) : fMul x y = (.dnan, Flags.nv) := by
  unfold zeroTimesInf at hp
  simp only [Bool.or_eq_true, Bool.and_eq_true, isInf_iff, isZero_iff] at hp
  obtain ⟨⟨n, e, rfl⟩, m, rfl⟩ | ⟨⟨n, rfl⟩, m, e, rfl⟩ := hp <;> rfl

/-- The square root of a negative value. -/
theorem fSqrt_negative (hn : x.isNan = false) (hneg : x.neg? = true) (h0 : x.isZero = false) : fSqrt x = (.dnan, Flags.nv) := by
  cases x with
  | nan n w => cases hn
  | inf n => exact if_pos hneg
  | fin n m e =>
    have hm : m ≠ 0 := by rintro rfl; cases h0
    exact (if_neg hm).trans (if_pos hneg)

/-- Two infinities, or two zeros, divided. -/
theorem fDiv_inf {n m : Bool} (hx : x = .inf n) (hy : y = .inf m) : fDiv x y = (.dnan, Flags.nv) := by rw [hx, hy]; rfl

theorem fDiv_zeros (hx : x.isZero = true) (hy : y.isZero = true) : fDiv x y = (.dnan, Flags.nv) := by
  obtain ⟨n, e, rfl⟩ := isZero_iff.1 hx
  obtain ⟨n', e', rfl⟩ := isZero_iff.1 hy
  rfl

/-- A finite nonzero value divided by zero. -/
theorem fDiv_byZero (hx : isFinite x = true) (hx0 : x.isZero = false) (hy : y.isZero = true) :
    fDiv x y = (.inf (x.neg? != y.neg?), Flags.dz) := by
  obtain ⟨n, m, e, rfl⟩ := isFinite_iff.1 hx
  obtain ⟨n', e', rfl⟩ := isZero_iff.1 hy
  have hm : m ≠ 0 := by rintro rfl; cases hx0
  exact if_neg hm

theorem floatCompare_nan (h : x.isNan = true ∨ y.isNan = true) : floatEq x y = false ∧ floatLt x y = false ∧ floatLe x y = false ∧
    compareFlags true x y = Flags.nv := by
  have heq : floatEq x y = false := by unfold floatEq; obtain h | h := h <;> simp [h]
  have hlt : floatLt x y = false := by unfold floatLt; obtain h | h := h <;> simp [h]
  refine ⟨heq, hlt, by unfold floatLe; simp [heq, hlt], ?_⟩
  unfold compareFlags
  obtain h | h := h <;> simp [h]

end Operands

/-! ### The instructions -/

section Instructions

variable {s : State} {f : Nat} {d a b : BitVec 5} {k : BitVec 3} (h : Ready s f [d.toNat, a.toNat, b.toNat])

include h

/-- The six instructions of two float operands, with a first NaN. -/
theorem binary_nan {n : FVal} (hn : firstNan [operand s f k a, operand s f k b] = some n) :
    ∀ i ∈ ([.fadd d a b k, .fsub d a b k, .fmul d a b k, .fdiv d a b k, .fmin d a b k, .fmax d a b k] : List Instr), exec i s =
      .next (wroteFlags s f d (roundScalar (fmtOf k) (s.ctx f).srm (n, snanFlag [operand s f k a, operand s f k b]))) := by
  intro i hi
  simp only [List.mem_cons, List.not_mem_nil, or_false] at hi
  obtain rfl | rfl | rfl | rfl | rfl | rfl := hi
  · rw [exec_fadd h, fAdd_nan hn]
  · rw [exec_fsub h, fSub_nan hn]
  · rw [exec_fmul h, fMul_nan hn]
  · rw [exec_fdiv h, fDiv_nan hn]
  · rw [exec_fmin h, fMinMax_nan hn]
  · rw [exec_fmax h, fMinMax_nan hn]

/-- The sum or difference of two infinities that has no value. -/
theorem infinities_invalid {n m : Bool} (ha : operand s f k a = .inf n) (hb : operand s f k b = .inf m) :
    exec (if n = m then .fsub d a b k else .fadd d a b k) s =
      .next (wroteFlags s f d (roundScalar (fmtOf k) (s.ctx f).srm (.dnan, Flags.nv))) := by
  split
  · next hnm =>
    rw [exec_fsub h, ha, hb, hnm]
    cases m <;> rfl
  · next hnm =>
    rw [exec_fadd h, ha, hb]
    have hadd : fAdd (s.ctx f).srm (.inf n) (.inf m) = (.dnan, Flags.nv) := if_neg hnm
    rw [hadd]

end Instructions

/-- Settles O6: a first NaN is quieted and carried, an operation without a value gives the default NaN, and a conversion to an integer
is `floatToInt_finite`. -/
theorem floatSpecialsFollowTheTable : Obligations.FloatSpecialsFollowTheTable := by
  unfold Obligations.FloatSpecialsFollowTheTable
  intro s f d a b k hk h c F x y z X Y wr nv binary product0inf
  have hF : Sound F := fmtOf_sound k
  have hfit (r : BitVec 5) : (c.s r.toNat).toNat % 2 ^ F.bits < 2 ^ F.bits := Nat.mod_lt _ (Nat.two_pow_pos _)
  have hnan (n : Nat) : (F.decode n).isNan = nanBits F n := isNan_decode F n
  have hwr {i : Instr} {r r' : FVal × Flags} {v : Nat} {fl : Flags} (hi : exec i s = .next (wroteFlags s f d (roundScalar F c.srm r)))
      (hop : r = r') (hr : roundScalar F c.srm r' = (BitVec.ofNat 64 v, fl)) : exec i s = wr v fl := by rw [hi, hop, hr]
  have hquiet {i : Instr} {r : FVal × Flags} {q : BitVec 5} {bs : List Nat}
      (hi : exec i s = .next (wroteFlags s f d (roundScalar F c.srm r)))
      (hop : r = ((F.decode ((c.s q.toNat).toNat % 2 ^ F.bits)).quiet, snanFlag (bs.map F.decode)))
      (hq : nanBits F ((c.s q.toNat).toNat % 2 ^ F.bits) = true) : exec i s = wr (quietBits F ((c.s q.toNat).toNat % 2 ^ F.bits)) (nv bs) := by
    rw [snanFlag_decode hF] at hop
    exact hwr hi hop (roundScalar_quiet hF (hfit q) hq _)
  refine ⟨?_, ?_, ?_, ?_, ?_, ?_, ?_⟩
  · intro hx
    have hX : X.isNan = true := (hnan x).trans hx
    have hcode : Fmt.ofCode (k.setWidth 2).toNat = F := by
      rw [BitVec.toNat_setWidth, Nat.mod_eq_of_lt hk]
      rfl
    refine ⟨fun i hi => hquiet (bs := [x, y]) (binary_nan h (firstNan_head [Y] hX) i hi) rfl hx,
      hquiet (bs := [x]) (exec_fsqrt h) (fSqrt_nan hX) hx, ?_,
      hquiet (bs := [x, y, z]) (exec_ffma h) (fFma_nan_valid (firstNan_head [Y, F.decode z] hX) (zeroTimesInf_nan (.inl hX))) hx⟩
    have hsame : roundScalar F c.srm (X, 0) = (BitVec.ofNat 64 (quietBits F x), if snanBits F x then Flags.nv else 0) := by
      rw [← convertedNan_same hF (hfit a) hx]
      exact roundScalar_converted hF hF hx
    have hone : nv [x] = if snanBits F x then Flags.nv else 0 := by simp [nv]
    rw [hone]
    exact hwr (exec_fcvtFf h (k.setWidth 2)) (by rw [hcode]; rfl) hsame
  · intro g G u hu
    exact hwr (exec_fcvtFf h g) rfl (roundScalar_converted (ofCode_sound _) hF hu)
  · intro hx hy
    have hX : X.isNan = false := (hnan x).trans hx
    have hY : Y.isNan = true := (hnan y).trans hy
    exact ⟨fun i hi => hquiet (bs := [x, y]) (binary_nan h ((firstNan_tail [Y] hX).trans (firstNan_head [] hY)) i hi) rfl hy,
      hquiet (bs := [x, y, z]) (exec_ffma h)
        (fFma_nan_valid ((firstNan_tail _ hX).trans (firstNan_head [F.decode z] hY)) (zeroTimesInf_nan (.inr hY))) hy⟩
  · intro hx hy hz
    have hX : X.isNan = false := (hnan x).trans hx
    have hY : Y.isNan = false := (hnan y).trans hy
    have hZ : (F.decode z).isNan = true := (hnan z).trans hz
    have hfirst : firstNan [X, Y, F.decode z] = some (F.decode z).quiet :=
      (firstNan_tail _ hX).trans ((firstNan_tail _ hY).trans (firstNan_head [] hZ))
    have hflags : snanFlag [X, Y, F.decode z] = nv [z] := by
      have hxs : snanBits F x = false := by unfold snanBits; rw [hx]; rfl
      have hys : snanBits F y = false := by unfold snanBits; rw [hy]; rfl
      exact (snanFlag_decode hF [x, y, z]).trans (by simp [nv, hxs, hys])
    have hraised : (snanFlag [X, Y, F.decode z] ||| if zeroTimesInf X Y then Flags.nv else 0) = if product0inf then Flags.nv else nv [z] := by
      rw [hflags]
      change (nv [z] ||| if product0inf then Flags.nv else 0) = _
      cases product0inf with
      | false => exact flags_or_zero _
      | true =>
        simp only [if_true, nv]
        split <;> decide
    exact hwr (exec_ffma h) ((fFma_nan hfirst).trans (congrArg (Prod.mk _) hraised)) (roundScalar_quiet hF (hfit d) hz _)
  · intro hx hy
    have hX : X.isNan = false := (hnan x).trans hx
    have hY : Y.isNan = false := (hnan y).trans hy
    refine ⟨fun hXi hYi => ?_, fun hp => hwr (exec_fmul h) (fMul_invalid hp) (roundScalar_dnan hF _), fun hp hz => ?_,
      fun hX0 hY0 => hwr (exec_fdiv h) (fDiv_zeros hX0 hY0) (roundScalar_dnan hF _),
      fun hneg h0 => hwr (exec_fsqrt h) (fSqrt_negative hX hneg h0) (roundScalar_dnan hF _),
      fun hfin h0 hY0 => hwr (exec_fdiv h) (fDiv_byZero hfin h0 hY0) (roundScalar_inf _ _)⟩
    · obtain ⟨n, hXn⟩ := isInf_iff.1 hXi
      obtain ⟨m, hYm⟩ := isInf_iff.1 hYi
      refine ⟨?_, hwr (exec_fdiv h) (fDiv_inf hXn hYm) (roundScalar_dnan hF _)⟩
      have hsum := infinities_invalid h hXn hYm
      rw [hXn, hYm]
      exact hwr hsum rfl (roundScalar_dnan hF _)
    · have hZ : (F.decode z).isNan = false := (hnan z).trans hz
      have hfirst : firstNan [X, Y, F.decode z] = none := (firstNan_tail _ hX).trans ((firstNan_tail _ hY).trans (firstNan_tail [] hZ))
      exact hwr (exec_ffma h) (fFma_invalid hfirst hp) (roundScalar_dnan hF _)
  · intro hxy
    have hXY : X.isNan = true ∨ Y.isNan = true := hxy.imp (hnan x).trans (hnan y).trans
    obtain ⟨heq, hlt, hle, hfl⟩ := floatCompare_nan hXY
    have hcompare {i : Instr} {p : Bool} {fl fl' : Flags} (hi : exec i s = .next (wroteFlags s f d (truth p fl))) (hp : p = false)
        (hfl : fl = fl') : exec i s = wr 0 fl' := by rw [hi, hp, hfl]; rfl
    exact ⟨hcompare (exec_feq h) heq (snanFlag_decode hF [x, y]), hcompare (exec_flt h) hlt hfl, hcompare (exec_fle h) hle hfl⟩
  · intro lo hi i hi' wi
    have hint : exec i s = wi (floatToInt c.srm lo hi X).1 (floatToInt c.srm lo hi X).2 := by
      obtain ⟨rfl, rfl, rfl⟩ | ⟨rfl, rfl, rfl⟩ := hi'
      · exact exec_fcvtI h
      · exact exec_fcvtN h
    have hval {v : Int} {fl : Flags} (hr : floatToInt c.srm lo hi X = (v, fl)) : exec i s = wi v fl := by rw [hint, hr]
    refine ⟨fun hx => ?_, fun hXi => ?_, fun hfin => ?_⟩
    · exact hval (by rw [show X = F.decode x from rfl, decode_nan hx]; rfl)
    · obtain ⟨n, hXn⟩ := isInf_iff.1 hXi
      exact hval (by rw [hXn]; rfl)
    · obtain ⟨v, hrounds, ⟨hlo, hv⟩ | ⟨hhi, hv⟩ | ⟨hlo, hhi, hv⟩⟩ := floatToInt_finite (rm := c.srm) (lo := lo) (hi := hi) hfin
      · exact ⟨v, hrounds, .inl ⟨hlo, hval hv⟩⟩
      · exact ⟨v, hrounds, .inr (.inl ⟨hhi, hval hv⟩)⟩
      · exact ⟨v, hrounds, .inr (.inr ⟨hlo, hhi, hval hv⟩)⟩

end Sys2Proof.Proofs
end

section
/-! SUPPORT. The members of OP 0x1E as a thread pushes them into an empty queue: what each comes to at once (R130), and the settings of `vconfig`,
`vtag` and `vcarry` (R39, R131 to R133). -/

namespace Sys2Proof.Proofs

open Sys2Proof Sys2Proof.Machine Sys2Proof.Laws Sys2Proof.Safety

/-! ### The course of a member of OP 0x1E (R130) -/

/-- What such a member changes as it is pushed: scalar registers, configuration, VLMAX and the replayed caps. -/
def AtPush (c c1 : Ctx) : Prop :=
  ∃ regs vt m tags carry op caps, c1 = { c with
    sregs := regs, vtype := vt, vlmax := m, vtag := tags, vcarry := carry, vfoldop := op, replay := caps }

/-- The entry of a member with its grant, pushed by a context that stood at c. -/
def configEntry (word : Word) (sa : Nat) (c : Ctx) (grant : Option (Nat × Nat)) : VqEntry :=
  { VOp.entry { word := word, sa := sa } c with
    sb := BitVec.ofNat 64 (bitsAt word 4 12), grant := (grant.getD (0, 0)).1, pad := (grant.getD (0, 0)).2, granted := grant.isSome }

/-- The context of a thread that stood at c, with the entry of a member alone in its queue, whose effects at push have made c1. -/
def queuedCtx (c c1 : Ctx) (e : VqEntry) : Ctx :=
  { c1 with
    vq := [e], pc := c.pc + 4, wait := none, passBreak := false, debugReq := if c.stepping then 3 else c.debugReq, stepping := false }

/-- The one in which its effect on vector state takes place, under the configuration that it was pushed with (R36). -/
def effectCtx (c c1 : Ctx) (e : VqEntry) : Ctx :=
  { queuedCtx c c1 e with vtype := c.vtype, vtag := c.vtag, vcarry := c.vcarry, vfoldop := c.vfoldop, reverted := false }

/-- The push of its entry into an empty queue. -/
theorem pushEntry_queued {c c1 : Ctx} (e : VqEntry) (hq : c.vq = []) (h : AtPush c c1) :
    { State.pushEntry { c1 with vq := c.vq } e with pc := c.pc + 4 } = queuedCtx c c1 e := by
  obtain ⟨regs, vt, m, tags, carry, op, caps, rfl⟩ := h
  unfold State.pushEntry queuedCtx
  rw [hq]
  rfl

/-- The head of a queue of one leaves it. -/
theorem popEntry_one {c : Ctx} (hq : c.vq.length = 1) (hw : c.wait = none) (ho : c.order = []) :
    c.popEntry = { c with
      vq := [], convoyLeft := 0, convoyHead := if c.debugReq = 0 then 0 else c.convoyHead,
      convoyCount := if c.debugReq = 0 then 0 else c.convoyCount } := by
  have htail : c.vq.tail = [] := List.eq_nil_of_length_eq_zero (by simp [hq])
  unfold Ctx.popEntry
  simp [htail, hw, ho]

section Course

variable {s : State} {f : Nat} {rs : List Nat} {word : Word} {sa : Nat} {decode : Ctx → Option Trap} {plan : Nat → Ctx → State → Plan}
  {apply : VqEntry → Ctx → Ctx} {c1 x : Ctx} {grant : Option (Nat × Nat)} {t : Trap}

/-- Behind an empty queue no latch has to be read (R331). -/
theorem latchBad_empty {c : Ctx} (hq : c.vq = []) : c.latchBad none = false := by simp [Ctx.latchBad, Ctx.latchNext, hq]

/-- A member whose word passes its checks is pushed as its plan says. -/
theorem configure_pushes (h : VectorReady s f rs) (hd : decode (s.ctx f) = none) (hp : plan f (s.ctx f) s = .push s c1 grant) :
    s.configure word rs sa decode plan apply = s.pushConfig word sa apply f (s.ctx f) c1 grant := by
  obtain ⟨hr, hf, hq, -⟩ := h
  unfold State.configure
  simp only [hr.1, me_agent hr.1, not_core hf, Bool.false_eq_true, if_false]
  rw [checked_ready _ hr (by simp [latchBad_empty hq, hd])]
  simp [hr.2.2.2.1, hq, Ctx.fetching, hp]

/-- One whose plan traps stops the thread. -/
theorem configure_traps (h : VectorReady s f rs) (hs : Settled s f) (hd : decode (s.ctx f) = none) (hp : plan f (s.ctx f) s = .trap t) :
    s.configure word rs sa decode plan apply = stopped s f t := by
  obtain ⟨hr, hf, hq, -⟩ := h
  unfold State.configure
  simp only [hr.1, me_agent hr.1, not_core hf, Bool.false_eq_true, if_false]
  rw [checked_ready _ hr (by simp [latchBad_empty hq, hd])]
  simp [hr.2.2.2.1, hq, Ctx.fetching, hp, trapHere_settled t hr.2.2.2.1 hs]

/-- A check of its word that fails stops it as well. -/
theorem configure_rejected (h : VectorReady s f rs) (hs : Settled s f) (hd : decode (s.ctx f) = some t) :
    s.configure word rs sa decode plan apply = stopped s f t := by
  obtain ⟨hr, hf, hq, -⟩ := h
  unfold State.configure
  simp only [hr.1, me_agent hr.1, not_core hf, Bool.false_eq_true, if_false]
  exact checked_stops _ hr hs (by simp [latchBad_empty hq, hd])

/-- The effect of the one entry of a queue takes place under its configuration, and the entry leaves. -/
theorem runConfig_one {now : Ctx} {e : VqEntry} (hsample : bitAt (s.reg (.cx (s.partOf f)) 0x60) 63 = false) (hq : now.vq = [e])
    (hx : apply e { now with vtype := e.vtype, vtag := e.vtag, vcarry := e.vcarry, vfoldop := e.vfoldop, reverted := false } = x)
    (hlen : x.vq.length = 1) (hw : x.wait = none) (ho : x.order = []) (hrev : x.reverted = false) :
    State.runConfig apply f (s.setCtx f now) = (s.modMill (millOf f) fun m => { m with samples := m.samples + 1 }).setCtx f { x with
      vq := [], convoyLeft := 0, convoyHead := if x.debugReq = 0 then 0 else x.convoyHead,
      convoyCount := if x.debugReq = 0 then 0 else x.convoyCount, instret := x.instret + 1,
      vlmax := if x.g = now.g then x.vlmax else now.vlmax, vtype := now.vtype, vtag := now.vtag, vcarry := now.vcarry,
      vfoldop := now.vfoldop } := by
  unfold State.runConfig
  simp only [ctx_setCtx_same]
  split
  · next hnil => cases hq.symm.trans hnil
  · next hcons =>
    cases hq.symm.trans hcons
    unfold State.underEntry
    simp only [ctx_setCtx_same, setCtx_setCtx]
    rw [sample_off (s := s.setCtx f _) _ _ hsample]
    simp only [modMill_setCtx, modCtx_setCtx]
    rw [hx, popEntry_one hlen hw ho]
    exact congrArg _ (if_neg (Bool.eq_false_iff.1 hrev))

/-- With nothing ahead of it in the queue, a member's effect on vector state takes place at once: it joins what the push has changed. -/
theorem pushConfig_runs {vl m pad st : Nat} {sl : BitVec 524288} {ps : Vector (BitVec 65536) 16} {fl : Flags} {q : List VqEntry}
    (h : VectorReady s f rs) (hc : AtPush (s.ctx f) c1) (hq : q.length = 1)
    (hx : apply (configEntry word sa (s.ctx f) grant) (effectCtx (s.ctx f) c1 (configEntry word sa (s.ctx f) grant)) =
      { effectCtx (s.ctx f) c1 (configEntry word sa (s.ctx f) grant) with
        vtype := c1.vtype, vl := vl, vlmax := m, vpad := pad, vstart := st, slice := sl, preds := ps, fflags := fl, vq := q }) :
    s.pushConfig word sa apply f (s.ctx f) c1 grant =
      gnext s f { c1 with vl := vl, vlmax := m, vpad := pad, vstart := st, slice := sl, preds := ps, fflags := fl } := by
  obtain ⟨-, -, hempty, -, hb, -, hdefer, hsample, -, -, ho⟩ := h
  have hquiet : (s.ctx f).quiet = true := by simp [Ctx.quiet, hempty, hb]
  have horder : c1.order = [] := by
    obtain ⟨regs, vt, m, tags, carry, op, caps, rfl⟩ := hc
    exact ho
  have hpush : s.pushConfig word sa apply f (s.ctx f) c1 grant =
      State.runConfig apply f (s.setCtx f (queuedCtx (s.ctx f) c1 (configEntry word sa (s.ctx f) grant))) := by
    rw [← pushEntry_queued _ hempty hc]
    unfold State.pushConfig
    simp only [hdefer, hquiet, Bool.not_true, Bool.or_self, Bool.false_eq_true, if_false]
    rfl
  rw [hpush, runConfig_one (now := queuedCtx (s.ctx f) c1 (configEntry word sa (s.ctx f) grant)) hsample rfl hx hq rfl horder rfl]
  unfold gnext
  refine congrArg (State.setCtx _ f) ?_
  rw [if_pos (by rfl)]
  rfl

/-- A member whose whole effect takes place as it is pushed. -/
theorem pushConfig_plain (h : VectorReady s f rs) (hc : AtPush (s.ctx f) c1) (hv : c1.vtype = (s.ctx f).vtype) :
    s.pushConfig word sa (fun _ c => c) f (s.ctx f) c1 grant = gnext s f c1 := by
  refine pushConfig_runs h hc (q := [configEntry word sa (s.ctx f) grant]) rfl ?_
  rw [hv]
  rfl

end Course

/-! ### `vconfig` (R131) -/

/-- A write to a register depends on the registers alone. -/
theorem setS_of_sregs {c x : Ctx} (h : x.sregs = c.sregs) (d : Nat) (v : Dword) : x.setS d v = { x with sregs := (c.setS d v).sregs } := by
  unfold Ctx.setS
  rw [h]
  split
  · rw [← h]
  · rfl

/-- A change of G, in each of its cases (R39). -/
theorem regroup_eq (c : Ctx) : c.regroup =
    if c.vl ≤ c.vlmaxFor c.eb then { c with vlmax := c.vlmaxFor c.eb }
    else { c with
      slice := c.groupBases.foldl (voidFrom c.regBytes c.groupBytes fun n => c.vlmaxFor c.eb * c.voidBytes n c.eb) c.slice,
      vlmax := c.vlmaxFor c.eb, vpad := c.vpad - (c.vl - c.vlmaxFor c.eb), vl := c.vlmaxFor c.eb } := by
  unfold Ctx.regroup
  dsimp only
  rw [voidGroups_eq]

/-- VTYPE replaced, with R39 applied where that changes G. -/
def retype (c : Ctx) (vt : Dword) : Ctx :=
  if Ctx.g { c with vtype := vt } = c.g then { c with vtype := vt } else Ctx.regroup { c with vtype := vt }

/-- VLMAX under a VTYPE (R29). -/
def vlmaxUnder (c : Ctx) (vt : Dword) : Nat := Ctx.vlmaxFor { c with vtype := vt } (Ctx.eb { c with vtype := vt })

theorem retype_reconfigured {c : Ctx} {tshape slices rm g : Nat} (ht : tshape < 2 ^ 2) (hs : slices < 2 ^ 4) (hr : rm < 2 ^ 3) (hg : g < 2 ^ 2) :
    Reconfigured c (retype c (setVtype c.vtype tshape slices rm g)) tshape slices rm g := by
  have hfields := setVtype_fields c.vtype ht hs hr hg
  have hcases : retype c (setVtype c.vtype tshape slices rm g) = if g = bitsAt c.vtype 2 2 then
      { c with vtype := setVtype c.vtype tshape slices rm g } else Ctx.regroup { c with vtype := setVtype c.vtype tshape slices rm g } := by
    refine if_congr ?_ rfl rfl
    unfold Ctx.g
    rw [Nat.pow_right_inj (by omega)]
    dsimp only
    rw [hfields.2.1]
  rw [hcases]
  exact regroup_reconfigured hfields

theorem retype_vlmax (c : Ctx) (vt : Dword) :
    (retype c vt).vlmax = if Ctx.g { c with vtype := vt } = c.g then c.vlmax else vlmaxUnder c vt := by
  unfold retype
  rw [regroup_eq]
  split_ifs <;> rfl

/-- It depends on the configuration, the strip and the file alone, and changes nothing else. -/
theorem retype_of_strip {c x : Ctx} (vt : Dword) (hv : x.vtype = c.vtype) (ht : x.vtag = c.vtag) (hl : x.vl = c.vl) (hp : x.vpad = c.vpad)
    (hs : x.slice = c.slice) (hm : Ctx.g { c with vtype := vt } = c.g → x.vlmax = c.vlmax) :
    retype x vt = { x with
      vtype := vt, vl := (retype c vt).vl, vlmax := (retype c vt).vlmax, vpad := (retype c vt).vpad, slice := (retype c vt).slice } := by
  have hgx : x.g = c.g := by unfold Ctx.g; rw [hv]
  have hbytes : Ctx.voidBytes { x with vtype := vt } = Ctx.voidBytes { c with vtype := vt } := by
    unfold Ctx.voidBytes Ctx.tag
    rw [ht]
  unfold retype
  rw [hgx]
  by_cases hg : Ctx.g { c with vtype := vt } = c.g
  · rw [if_pos hg, if_pos (by exact hg), ← hm hg, ← hl, ← hp, ← hs]
  · rw [if_neg hg, if_neg (by exact hg), regroup_eq, regroup_eq, hbytes]
    dsimp only
    rw [hl, hp, hs]
    by_cases hfit : c.vl ≤ vlmaxUnder c vt
    · rw [if_pos (by exact hfit), if_pos (by exact hfit)]
      dsimp only
      rw [← hl, ← hp, ← hs]
      rfl
    · rw [if_neg (by exact hfit), if_neg (by exact hfit)]
      rfl

/-- What a `vconfig` makes of the thread's context as it is pushed. -/
def vconfigPushed (c : Ctx) (vt : Dword) (d : Nat) : Ctx :=
  { c with sregs := (c.setS d (BitVec.ofNat 64 (vlmaxUnder c vt))).sregs, vtype := vt, vlmax := (retype c vt).vlmax }

/-- VLMAX under the fields of a `vconfig`: the register count and the element width stay. -/
theorem vlmaxUnder_setVtype (c : Ctx) {tshape slices rm g : Nat} (ht : tshape < 2 ^ 2) (hs : slices < 2 ^ 4) (hr : rm < 2 ^ 3) (hg : g < 2 ^ 2) :
    vlmaxUnder c (setVtype c.vtype tshape slices rm g) = c.regBytes * 2 ^ g / c.eb := by
  obtain ⟨hnreg, hgroup, hwidth, -⟩ := setVtype_fields c.vtype ht hs hr hg
  unfold vlmaxUnder Ctx.vlmaxFor Ctx.groupBytes Ctx.regBytes Ctx.nreg Ctx.nregCode Ctx.g Ctx.eb
  dsimp only
  rw [hnreg, hgroup, hwidth]

theorem configFields_imm (k : BitVec 11) : configFields true k.toNat = (bitsAt k 9 2, bitsAt k 5 4, bitsAt k 2 3, bitsAt k 0 2) := by
  simp [configFields, bitsAt]

theorem vconfigPlan_pushes {s : State} {f d : Nat} {c : Ctx} {fields : Ctx → Nat × Nat × Nat × Nat} {tshape slices rm g : Nat}
    (hc : fields c = (tshape, slices, rm, g)) (hgood : configBad (tshape, slices, rm, g) = false) :
    vconfigPlan d fields f c s = .push s (vconfigPushed c (setVtype c.vtype tshape slices rm g) d) none := by
  unfold vconfigPlan
  rw [hc]
  dsimp only
  rw [hgood, if_neg Bool.false_ne_true]
  refine congrArg (Plan.push s · none) ((setS_of_sregs (c := c) (by rfl) _ _).trans ?_)
  unfold vconfigPushed
  rw [retype_vlmax]
  rfl

theorem vconfigApply_retypes {fields : VqEntry → Nat × Nat × Nat × Nat} {e : VqEntry} {tshape slices rm g : Nat}
    (he : fields e = (tshape, slices, rm, g)) (x : Ctx) : vconfigApply fields e x = retype x (setVtype x.vtype tshape slices rm g) := by
  unfold vconfigApply
  rw [he]
  rfl

theorem vconfig_runs {s : State} {f : Nat} {rs : List Nat} {word : Word} {sa d : Nat} {vt : Dword} {apply : VqEntry → Ctx → Ctx}
    (h : VectorReady s f rs) (hv : ∀ x : Ctx, x.vtype = (s.ctx f).vtype → apply (configEntry word sa (s.ctx f) none) x = retype x vt) :
    s.pushConfig word sa apply f (s.ctx f) (vconfigPushed (s.ctx f) vt d) none =
      gnext s f ((retype (s.ctx f) vt).setS d (BitVec.ofNat 64 (vlmaxUnder (s.ctx f) vt))) := by
  obtain ⟨vl, m, pad, sl, hretype⟩ : ∃ vl m pad sl, retype (s.ctx f) vt = { s.ctx f with
      vtype := vt, vl := vl, vlmax := m, vpad := pad, slice := sl } :=
    ⟨_, _, _, _, retype_of_strip (c := s.ctx f) vt rfl rfl rfl rfl rfl fun _ => rfl⟩
  have hregs : (retype (s.ctx f) vt).sregs = (s.ctx f).sregs := by rw [hretype]
  have hat : AtPush (s.ctx f) (vconfigPushed (s.ctx f) vt d) := ⟨_, _, _, _, _, _, _, rfl⟩
  have heffect := retype_of_strip (c := s.ctx f)
    (x := effectCtx (s.ctx f) (vconfigPushed (s.ctx f) vt d) (configEntry word sa (s.ctx f) none)) vt rfl rfl rfl rfl rfl
    fun hg => (retype_vlmax ..).trans (if_pos hg)
  have hrun := pushConfig_runs (q := [configEntry word sa (s.ctx f) none]) h hat rfl ((hv (effectCtx ..) rfl).trans heffect)
  rw [hrun, setS_of_sregs hregs]
  unfold vconfigPushed
  rw [hretype]
  rfl

/-! ### Tags and the carry set (R132, R133) -/

theorem ofCode_code (t : Tag) : Tag.ofCode t.code = t := by cases t <;> rfl
theorem code_lt (t : Tag) : t.code < 16 := by cases t <;> decide

/-- Registers from `base` up tagged alike, one after another. -/
theorem tagFields_set {base code : Nat} (w : BitVec 256) (hc : code < 16) : ∀ n, base + n ≤ 64 → ∀ r < 64,
    bitsAt ((List.range n).foldl (fun v k => setBits v (4 * (base + k)) 4 code) w) (4 * r) 4 =
      if base ≤ r ∧ r < base + n then code else bitsAt w (4 * r) 4 := by
  intro n
  induction n with
  | zero => exact fun _ r _ => (if_neg (by omega)).symm
  | succ n ih =>
    intro hn r hr
    rw [List.range_succ, List.foldl_append, List.foldl_cons, List.foldl_nil]
    by_cases hrn : r = base + n
    · subst hrn
      rw [bitsAt_setBits_same _ _ _ _ (by omega), Nat.mod_eq_of_lt (show code < 2 ^ 4 from hc), if_pos (by omega)]
    · rw [bitsAt_setBits_apart _ _ _ _ _ _ (by omega), ih (by omega) r hr]
      exact if_congr (by omega) rfl rfl

theorem nreg_le (c : Ctx) : c.nreg ≤ 64 := by
  obtain ⟨k, hk, hn, -⟩ := nreg_form c
  rw [hn]
  exact Nat.pow_le_pow_right (by omega) (show 3 + k ≤ 6 by omega)

/-- Groups from `base` up tagged alike. -/
theorem setTags_tags {c : Ctx} {base : Nat} (t : Tag) : ∀ n, base + n * c.g ≤ 64 →
    ∃ tags, (List.range n).foldl (fun c j => c.setTag (base + j * c.g) t) c = { c with vtag := tags } ∧
      ∀ r < 64, bitsAt tags (4 * r) 4 = if base ≤ r ∧ r < base + n * c.g then t.code else bitsAt c.vtag (4 * r) 4 := by
  intro n
  induction n with
  | zero => exact fun _ => ⟨c.vtag, rfl, fun r _ => (if_neg (by omega)).symm⟩
  | succ n ih =>
    intro hn
    rw [Nat.succ_mul] at hn
    obtain ⟨tags, heq, htags⟩ := ih (by omega)
    have hfields := tagFields_set (base := base + n * c.g) tags (code_lt t) c.g (by omega)
    refine ⟨_, by rw [List.range_succ, List.foldl_append, heq]; rfl, fun r hr => ?_⟩
    refine (hfields r hr).trans ?_
    have hsucc : (n + 1) * c.g = n * c.g + c.g := Nat.succ_mul ..
    by_cases hlast : base + n * c.g ≤ r ∧ r < base + n * c.g + c.g
    · rw [if_pos hlast, if_pos (by omega)]
    · rw [if_neg hlast, htags r hr]
      exact if_congr (by omega) rfl rfl

/-- One bit of the carry set, and one fold operator (R133). -/
theorem carry_set (w : Word) {n j : Nat} (hj : j < 32) : (setBits w n 1 1).getLsbD j = (decide (j = n) || w.getLsbD j) := by
  rw [getLsbD_setBits]
  rcases Nat.lt_trichotomy j n with hlt | rfl | hgt
  · simp [hj, hlt, Nat.ne_of_lt hlt]
  · simp [hj]
  · rw [if_neg (by omega), if_neg (by omega)]
    simp [hj, Nat.ne_of_gt hgt]

theorem foldOp_set (w : Dword) {n o : Nat} (hn : n < 32) (ho : o < 4) (j : Nat) :
    bitsAt (setBits w (2 * n) 2 o) (2 * j) 2 = if j = n then o else bitsAt w (2 * j) 2 := by
  by_cases h : j = n
  · subst h
    rw [if_pos rfl, bitsAt_setBits_same _ _ _ _ (by omega), Nat.mod_eq_of_lt (show o < 2 ^ 2 from ho)]
  · rw [if_neg h, bitsAt_setBits_apart _ _ _ _ _ _ (by omega)]

/-! ### The statement -/

section Statement

variable {s : State} {f : Nat}

/-- The two forms of `vconfig` differ in where the fields come from. -/
theorem vconfig_configures {i : Instr} {rs : List Nat} {word : Word} {sa d tshape slices rm g : Nat} {decode : Ctx → Option Trap}
    {fc : Ctx → Nat × Nat × Nat × Nat} {fe : VqEntry → Nat × Nat × Nat × Nat}
    (hi : exec i s = .next (s.configure word rs sa decode (vconfigPlan d fc) (vconfigApply fe))) (h : VectorReady s f rs)
    (hc : fc (s.ctx f) = (tshape, slices, rm, g)) (he : fe (configEntry word sa (s.ctx f) none) = (tshape, slices, rm, g))
    (hd : decode (s.ctx f) = none ∨ decode (s.ctx f) = if configBad (tshape, slices, rm, g) then some .operand else none)
    (ht : tshape < 2 ^ 2) (hs : slices < 2 ^ 4) (hr : rm < 2 ^ 3) (hg : g < 2 ^ 2) :
    (slices < 4 ∨ 9 < slices ∨ 4 < rm → Settled s f → exec i s = .next (stopped s f .operand)) ∧
    (4 ≤ slices → slices ≤ 9 → rm ≤ 4 → ∃ c', Reconfigured (s.ctx f) c' tshape slices rm g ∧
      exec i s = .next (gnext s f (c'.setS d (BitVec.ofNat 64 ((s.ctx f).regBytes * 2 ^ g / (s.ctx f).eb))))) := by
  have hbad : configBad (tshape, slices, rm, g) = decide (slices < 4 ∨ 9 < slices ∨ 4 < rm) := by simp [configBad, Bool.or_assoc]
  rw [hi]
  refine ⟨fun hb hset => congrArg Host.Outcome.next ?_, fun h1 h2 h3 => ⟨_, retype_reconfigured ht hs hr hg, congrArg Host.Outcome.next ?_⟩⟩
  · have hbad : configBad (tshape, slices, rm, g) = true := hbad.trans (decide_eq_true hb)
    rw [hbad, if_pos rfl] at hd
    obtain hd | hd := hd
    · refine configure_traps h hset hd ?_
      unfold vconfigPlan
      rw [hc]
      exact if_pos hbad
    · exact configure_rejected h hset hd
  · have hgood : configBad (tshape, slices, rm, g) = false := hbad.trans (decide_eq_false (by omega))
    rw [hgood, if_neg Bool.false_ne_true, or_self] at hd
    rw [configure_pushes h hd (vconfigPlan_pushes hc hgood), vconfig_runs h fun x hx => by rw [vconfigApply_retypes he, hx],
      vlmaxUnder_setVtype _ ht hs hr hg]

theorem vtag_tags {n : BitVec 2} {v : BitVec 6} {t : BitVec 4} (h : VectorReady s f []) :
    let c := s.ctx f
    if v.toNat % c.g = 0 ∧ v.toNat + 2 ^ n.toNat * c.g ≤ c.nreg then
      ∃ tags : BitVec 256, exec (.vtag n v t) s = .next (gnext s f { c with vtag := tags }) ∧
        ∀ r < 64, Tag.ofCode (bitsAt tags (4 * r) 4) =
          if v.toNat ≤ r ∧ r < v.toNat + 2 ^ n.toNat * c.g then Tag.ofCode t.toNat else c.tag r
    else Settled s f → exec (.vtag n v t) s = .next (stopped s f .operand) := by
  dsimp only
  split
  · next hgood =>
    obtain ⟨tags, heq, htags⟩ := setTags_tags (c := s.ctx f) (base := v.toNat) (Tag.ofCode t.toNat) (2 ^ n.toNat) (hgood.2.trans (nreg_le _))
    refine ⟨tags, congrArg Host.Outcome.next ?_, fun r hr => ?_⟩
    · exact (configure_pushes h (if_neg (by simpa using hgood)) (congrArg (Plan.push s · none) heq)).trans
        (pushConfig_plain h ⟨_, _, _, _, _, _, _, rfl⟩ rfl)
    · rw [htags r hr]
      split
      · exact ofCode_code _
      · rfl
  · next hbad =>
    exact fun hs => congrArg Host.Outcome.next (configure_rejected h hs (if_pos (by
      simp only [Bool.or_eq_true, decide_eq_true_eq]
      omega)))

theorem vcarrySet_sets {o : BitVec 2} {m : BitVec 5} (h : VectorReady s f []) :
    let c := s.ctx f
    if m.toNat % c.g = 0 ∧ m.toNat < c.nreg then
      ∃ carry op, exec (.vcarrySet o m) s = .next (gnext s f { c with vcarry := carry, vfoldop := op }) ∧
        (∀ j < 32, carry.getLsbD j = (decide (j = m.toNat) || c.vcarry.getLsbD j)) ∧
        ∀ j < 32, bitsAt op (2 * j) 2 = if j = m.toNat then o.toNat else bitsAt c.vfoldop (2 * j) 2
    else Settled s f → exec (.vcarrySet o m) s = .next (stopped s f .operand) := by
  dsimp only
  split
  · next hgood =>
    refine ⟨_, _, congrArg Host.Outcome.next ?_, fun j hj => carry_set (s.ctx f).vcarry hj,
      fun j _ => foldOp_set (s.ctx f).vfoldop m.isLt o.isLt j⟩
    exact (configure_pushes h (if_neg (by simpa using hgood)) rfl).trans (pushConfig_plain h ⟨_, _, _, _, _, _, _, rfl⟩ rfl)
  · next hbad =>
    exact fun hs => congrArg Host.Outcome.next (configure_rejected h hs (if_pos (by
      simp only [Bool.or_eq_true, decide_eq_true_eq]
      omega)))

end Statement

/-- Settles O31: `vconfig` in both forms by `vconfig_configures`, the others by what each changes as it is pushed. -/
theorem vectorConfigurationSetsItsFields : Obligations.VectorConfigurationSetsItsFields := by
  unfold Obligations.VectorConfigurationSetsItsFields
  intro s f d a k n v t o m c configures x
  refine ⟨fun h => ?_, fun h => ?_, fun h => ⟨?_, ?_⟩, fun h => ?_⟩
  · exact vconfig_configures rfl h (configFields_imm k) (configFields_imm k) (.inr (by rw [configFields_imm]))
      (bitsAt_lt ..) (bitsAt_lt ..) (bitsAt_lt ..) (bitsAt_lt ..)
  · exact vconfig_configures rfl h rfl rfl (.inl rfl) (bitsAt_lt ..) (bitsAt_lt ..) (bitsAt_lt ..) (bitsAt_lt ..)
  · exact vtag_tags h
  · exact vcarrySet_sets h
  · exact congrArg Host.Outcome.next ((configure_pushes h rfl rfl).trans (pushConfig_plain h ⟨_, _, _, _, _, _, _, rfl⟩ rfl))

end Sys2Proof.Proofs
end

section
/-! SUPPORT. What a grant makes of the vector file and the predicates: folds, void bytes and predicates cut (R31, R33, R138 to R140). -/

namespace Sys2Proof.Proofs

open Sys2Proof Sys2Proof.Machine Sys2Proof.Laws Sys2Proof.Safety

/-! ### What a fold leaves alone -/

/-- Context x is c but for its vector file, flags raised, and what the entries of its queue would restore. -/
def FoldFrame (c x : Ctx) : Prop :=
  ∃ sl fl q, q.length = c.vq.length ∧ x = { c with slice := sl, fflags := c.fflags ||| fl, vq := q }

theorem FoldFrame.refl (c : Ctx) : FoldFrame c c := ⟨c.slice, 0, c.vq, rfl, (raiseFlags_none c).symm⟩

theorem FoldFrame.trans {a b c : Ctx} (h : FoldFrame a b) (k : FoldFrame b c) : FoldFrame a c := by
  obtain ⟨sl, fl, q, hq, rfl⟩ := h
  obtain ⟨sl', fl', q', hq', rfl⟩ := k
  exact ⟨sl', fl ||| fl', q', hq'.trans hq, by simp only [BitVec.or_assoc]⟩

theorem foldFrame_slice (c : Ctx) (sl : BitVec 524288) : FoldFrame c { c with slice := sl } :=
  ⟨sl, 0, c.vq, rfl, congrArg (fun x : Ctx => { x with slice := sl }) (raiseFlags_none c).symm⟩

theorem foldFrame_accrue (c : Ctx) (fl : Flags) : FoldFrame c (c.accrue fl) := ⟨c.slice, fl, _, List.length_map _, rfl⟩

/-! ### The fold of one group (R139) -/

/-- The sources below `hi` of a fold into element k. -/
def sourcesBelow (gf k hi : Nat) : List Nat := (List.range hi).filter fun j => decide (gf ≤ j) && decide (j % gf = k)

theorem sourcesBelow_low {gf k hi : Nat} (h : hi ≤ gf) : sourcesBelow gf k hi = [] := by
  unfold sourcesBelow
  rw [List.filter_eq_nil_iff]
  intro j hj
  have hlt := List.mem_range.1 hj
  simp only [Bool.and_eq_true, decide_eq_true_eq]
  omega

theorem sourcesBelow_succ {gf k j : Nat} (h : gf ≤ j) :
    sourcesBelow gf k (j + 1) = if j % gf = k then sourcesBelow gf k j ++ [j] else sourcesBelow gf k j := by
  unfold sourcesBelow
  rw [List.range_succ, List.filter_append]
  split
  · next hk => simp [h, hk]
  · next hk => simp [hk]

theorem sourcesBelow_end (gf k top : Nat) : sourcesBelow gf k (gf + (top - gf)) = sourcesBelow gf k top := by
  by_cases h : top ≤ gf
  · rw [sourcesBelow_low h, sourcesBelow_low (by omega)]
  · rw [show gf + (top - gf) = top by omega]

/-- One step of a fold (R139): element j of the group at n combined into the value a of its target. -/
def foldStep (c : Ctx) (n : Nat) (t : Tag) (op a j : Nat) : Nat :=
  (foldOp t c.vrm op a (sliceBytes c.slice (n * c.regBytes + j * t.bytes) t.bytes)).1 % 2 ^ (8 * t.bytes)

/-- File `sl` has the sources below `hi` folded into the first gf elements of the group at n, and every other byte as c has it. -/
def FoldedTo (c : Ctx) (sl : BitVec 524288) (n : Nat) (t : Tag) (op gf hi : Nat) : Prop :=
  (∀ k < gf, (k + 1) * t.bytes ≤ c.groupBytes → sliceBytes sl (n * c.regBytes + k * t.bytes) t.bytes =
    (sourcesBelow gf k hi).foldl (foldStep c n t op) (sliceBytes c.slice (n * c.regBytes + k * t.bytes) t.bytes)) ∧
  ∀ p, p < n * c.regBytes ∨ n * c.regBytes + min (gf * t.bytes) c.groupBytes ≤ p → sliceBytes sl p 1 = sliceBytes c.slice p 1

theorem foldedTo_start (c : Ctx) (n : Nat) (t : Tag) (op gf : Nat) : FoldedTo c c.slice n t op gf gf :=
  ⟨fun k _ _ => by rw [sourcesBelow_low (Nat.le_refl gf)]; rfl, fun _ _ => rfl⟩

/-- The next source is folded into its target. -/
theorem foldedTo_succ {c : Ctx} {sl : BitVec 524288} {n : Nat} {t : Tag} {op gf j v : Nat} (hn : c.groupOk n = true) (h : FoldedTo c sl n t op gf j)
    (hgf : 0 < gf) (hj : gf ≤ j) (hfit : (j + 1) * t.bytes ≤ c.groupBytes)
    (hv : v % 2 ^ (8 * t.bytes) = foldStep c n t op (sliceBytes sl (n * c.regBytes + j % gf * t.bytes) t.bytes) j) :
    FoldedTo c (setSliceBytes sl (n * c.regBytes + j % gf * t.bytes) t.bytes v) n t op gf (j + 1) := by
  obtain ⟨helems, hrest⟩ := h
  have hi : j % gf < gf := Nat.mod_lt _ hgf
  have hinside := group_inside hn
  have hsucc (m : Nat) : (m + 1) * t.bytes = m * t.bytes + t.bytes := Nat.succ_mul ..
  have hmono {a b : Nat} (hab : a ≤ b) : a * t.bytes ≤ b * t.bytes := Nat.mul_le_mul_right _ hab
  have hti := hmono (show j % gf + 1 ≤ gf from hi)
  have htj := hmono hj
  have hs := hsucc (j % gf)
  have hsj := hsucc j
  refine ⟨fun k hk hkfit => ?_, fun p hp => ?_⟩
  · rw [sourcesBelow_succ hj]
    by_cases hki : j % gf = k
    · subst hki
      rw [if_pos rfl, sliceBytes_set_same _ _ _ _ (by omega), hv, helems _ hk hkfit, List.foldl_append]
      rfl
    · have hsk := hsucc k
      have hapart : (k + 1) * t.bytes ≤ j % gf * t.bytes ∨ (j % gf + 1) * t.bytes ≤ k * t.bytes := by
        rcases Nat.lt_or_gt_of_ne hki with hlt | hlt
        · exact .inr (hmono hlt)
        · exact .inl (hmono hlt)
      rw [if_neg hki, sliceBytes_set_apart _ _ _ _ _ _ (by omega), helems k hk hkfit]
  · rw [sliceBytes_set_apart _ _ _ _ _ _ (by omega), hrest p hp]

/-- The loop of R139 over sources that lie within the group. -/
theorem foldLoop_folds {c : Ctx} {n : Nat} {t : Tag} {op gf : Nat} (hn : c.groupOk n = true) (hgf : 0 < gf) :
    ∀ k j x, gf ≤ j → (k = 0 ∨ (j + k) * t.bytes ≤ c.groupBytes) → FoldFrame c x → FoldedTo c x.slice n t op gf j →
      FoldFrame c (foldLoop n t op gf k j x) ∧ FoldedTo c (foldLoop n t op gf k j x).slice n t op gf (j + k) := by
  intro k
  induction k with
  | zero => exact fun j x _ _ hframe h => ⟨hframe, h⟩
  | succ k ih =>
    intro j x hj hfit hframe h
    have hfit : (j + 1 + k) * t.bytes ≤ c.groupBytes := by
      rw [Nat.add_right_comm]
      exact hfit.resolve_left (Nat.succ_ne_zero k)
    have hfitj : (j + 1) * t.bytes ≤ c.groupBytes := (Nat.mul_le_mul_right _ (Nat.le_add_right ..)).trans hfit
    have htj : gf * t.bytes ≤ j * t.bytes := Nat.mul_le_mul_right _ hj
    have hsource : sliceBytes x.slice (n * c.regBytes + j * t.bytes) t.bytes = sliceBytes c.slice (n * c.regBytes + j * t.bytes) t.bytes :=
      sliceBytes_ext fun p hp _ => h.2 p (by omega)
    obtain ⟨sl, fl, q, hq, rfl⟩ := id hframe
    unfold foldLoop
    dsimp only
    rw [show j + (k + 1) = j + 1 + k by omega]
    refine ih (j + 1) _ (by omega) (.inr hfit) ?_ ?_
    · exact (hframe.trans (foldFrame_slice _ _)).trans (foldFrame_accrue _ _)
    · refine foldedTo_succ hn h hgf hj hfitj ?_
      unfold foldStep
      rw [← hsource]
      rfl

/-! ### A carried group under a grant (R138) -/

/-- Bytes of the group at n from byte `lo` are void. -/
def VoidAbove (c : Ctx) (sl : BitVec 524288) (n lo : Nat) : Prop :=
  ∀ j, n * c.regBytes + lo ≤ j → j < n * c.regBytes + c.groupBytes → sliceBytes sl j 1 = 0

/-- The group at n holds its folded elements below gf, and is void above them. -/
def CarriedGranted (c : Ctx) (sl : BitVec 524288) (n gf : Nat) : Prop :=
  let b := (c.tag n).bytes
  VoidAbove c sl n (gf * b) ∧
  ∀ k < gf, (k + 1) * b ≤ c.groupBytes → sliceBytes sl (n * c.regBytes + k * b) b =
    (foldSources c b gf k).foldl (foldStep c n (c.tag n) (bitsAt c.vfoldop (2 * n) 2)) (sliceBytes c.slice (n * c.regBytes + k * b) b)

/-- Two files agree on the group at n. -/
def AgreeOn (c : Ctx) (a b : BitVec 524288) (n : Nat) : Prop :=
  ∀ j, n * c.regBytes ≤ j → j < n * c.regBytes + c.groupBytes → sliceBytes a j 1 = sliceBytes b j 1

theorem AgreeOn.elem {c : Ctx} {a b : BitVec 524288} {n k m : Nat} (h : AgreeOn c a b n) (hfit : (k + 1) * m ≤ c.groupBytes) :
    sliceBytes a (n * c.regBytes + k * m) m = sliceBytes b (n * c.regBytes + k * m) m := by
  rw [Nat.succ_mul] at hfit
  exact sliceBytes_ext fun j h1 h2 => h j (by omega) (by omega)

/-- A source of a fold lies within the group. -/
theorem foldSources_fit {c : Ctx} {b gf k j : Nat} (h : j ∈ foldSources c b gf k) : (j + 1) * b ≤ c.groupBytes := by
  have hlt : j < min c.reals (c.groupBytes / b) := List.mem_range.1 (List.mem_filter.1 h).1
  exact (Nat.mul_le_mul_right _ (show j + 1 ≤ c.groupBytes / b by omega)).trans (Nat.div_mul_le_self ..)

/-- It depends on the bytes of that group alone, in the file before and in the file after. -/
theorem CarriedGranted.of_agree {c x : Ctx} {sl sl' : BitVec 524288} {n gf : Nat} (hx : FoldFrame c x) (hin : AgreeOn c x.slice c.slice n)
    (hout : AgreeOn c sl' sl n) (h : CarriedGranted x sl n gf) : CarriedGranted c sl' n gf := by
  obtain ⟨xs, fl, q, -, rfl⟩ := hx
  obtain ⟨hvoid, helems⟩ := h
  refine ⟨fun j h1 h2 => (hout j (by omega) h2).trans (hvoid j h1 h2), fun k hk hfit => ?_⟩
  rw [hout.elem hfit]
  refine (helems k hk hfit).trans ?_
  have hstart := hin.elem hfit
  refine (congrArg (List.foldl _ · _) hstart).trans ?_
  refine List.foldl_ext _ _ _ fun a j hj => ?_
  have hsource := hin.elem (foldSources_fit (c := c) hj)
  unfold foldStep
  exact congrArg (fun y => (foldOp (c.tag n) c.vrm (bitsAt c.vfoldop (2 * n) 2) a y).1 % 2 ^ (8 * (c.tag n).bytes)) hsource

/-- The grant's effect on a carried group. -/
def foldGroup (oldvl gf eb : Nat) (c : Ctx) (n : Nat) : Ctx := (c.fold n oldvl gf).voidGroup n (gf * c.voidBytes n eb)

/-- A fold of the old strip's real elements that the group holds (R139). -/
theorem fold_folds {c : Ctx} {n gf : Nat} (hn : c.groupOk n = true) (hgf : 0 < gf) :
    FoldFrame c (c.fold n c.reals gf) ∧
      FoldedTo c (c.fold n c.reals gf).slice n (c.tag n) (bitsAt c.vfoldop (2 * n) 2) gf (min c.reals (c.groupBytes / (c.tag n).bytes)) := by
  have hcount : min c.reals (c.groupBytes / (c.tag n).bytes) - gf = 0 ∨
      (gf + (min c.reals (c.groupBytes / (c.tag n).bytes) - gf)) * (c.tag n).bytes ≤ c.groupBytes := by
    refine (Nat.eq_zero_or_pos _).imp id fun hpos => ?_
    exact (Nat.mul_le_mul_right _ (show _ ≤ c.groupBytes / (c.tag n).bytes by omega)).trans (Nat.div_mul_le_self ..)
  obtain ⟨hframe, helems, hrest⟩ := foldLoop_folds hn hgf _ gf c (Nat.le_refl gf) hcount (.refl c) (foldedTo_start ..)
  simp only [sourcesBelow_end] at helems
  exact ⟨hframe, helems, hrest⟩

/-- A carried group under a grant: folded below, void above, and no other byte changed. -/
theorem foldGroup_granted {c : Ctx} {n gf eb : Nat} (hn : c.groupOk n = true) (hgf : 0 < gf) (ht : c.tag n ≠ .none) :
    FoldFrame c (foldGroup c.reals gf eb c n) ∧ CarriedGranted c (foldGroup c.reals gf eb c n).slice n gf ∧
      ∀ j, j < n * c.regBytes ∨ n * c.regBytes + c.groupBytes ≤ j →
        sliceBytes (foldGroup c.reals gf eb c n).slice j 1 = sliceBytes c.slice j 1 := by
  obtain ⟨hframe, helems, hrest⟩ := fold_folds (c := c) hn hgf
  obtain ⟨sl, fl, q, hq, hx⟩ := id hframe
  have hbytes : c.voidBytes n eb = (c.tag n).bytes := if_neg ht
  have heq : foldGroup c.reals gf eb c n =
      { c.fold n c.reals gf with slice := voidFrom c.regBytes c.groupBytes (fun _ => gf * (c.tag n).bytes) sl n } := by
    unfold foldGroup
    rw [hbytes, voidGroup_eq _ n fun _ => gf * (c.tag n).bytes, hx]
    rfl
  have hslice : (foldGroup c.reals gf eb c n).slice = voidFrom c.regBytes c.groupBytes (fun _ => gf * (c.tag n).bytes) sl n := by rw [heq]
  have hbyte {p : Nat} (hp : p < n * c.regBytes + c.groupBytes) : sliceBytes (foldGroup c.reals gf eb c n).slice p 1 =
      if p < n * c.regBytes + gf * (c.tag n).bytes then sliceBytes sl p 1 else 0 := by
    rw [hslice]
    exact voidFrom_same hp
  have hfold : (c.fold n c.reals gf).slice = sl := by rw [hx]
  rw [hfold] at helems hrest
  refine ⟨by rw [heq]; exact hframe.trans (foldFrame_slice _ _), ⟨fun j h1 h2 => ?_, fun k hk hfit => ?_⟩, fun j hj => ?_⟩
  · rw [hbyte h2, if_neg (Nat.not_lt.2 h1)]
  · refine Eq.trans (sliceBytes_ext fun p h1 h2 => ?_) (helems k hk hfit)
    have hkg : (k + 1) * (c.tag n).bytes ≤ gf * (c.tag n).bytes := Nat.mul_le_mul_right _ hk
    rw [Nat.succ_mul] at hfit hkg
    rw [hbyte (by omega), if_pos (by omega)]
  · rw [hslice, voidFrom_apart hj, hrest j (by omega)]

/-- Carried groups one after another. -/
theorem foldGroups_granted {gf eb oldvl : Nat} (hgf : 0 < gf) :
    ∀ (l : List Nat) (c : Ctx), oldvl = c.reals → (∀ n ∈ l, c.groupOk n = true ∧ c.tag n ≠ .none) → l.Nodup →
      FoldFrame c (l.foldl (foldGroup oldvl gf eb) c) ∧
      (∀ n ∈ l, CarriedGranted c (l.foldl (foldGroup oldvl gf eb) c).slice n gf) ∧
      ∀ n, c.groupOk n = true → n ∉ l → AgreeOn c (l.foldl (foldGroup oldvl gf eb) c).slice c.slice n := by
  intro l
  induction l with
  | nil => exact fun c _ _ _ => ⟨.refl c, fun _ h => absurd h List.not_mem_nil, fun _ _ _ _ _ _ => rfl⟩
  | cons m l ih =>
    intro c hold hl hnd
    subst hold
    obtain ⟨hml, hnd⟩ := List.nodup_cons.1 hnd
    obtain ⟨hm, hmt⟩ := hl m List.mem_cons_self
    obtain ⟨hframe, hgranted, hrest⟩ := foldGroup_granted (eb := eb) hm hgf hmt
    have hother {n : Nat} (hn : c.groupOk n = true) (hnm : n ≠ m) : AgreeOn c (foldGroup c.reals gf eb c m).slice c.slice n := fun j h1 h2 => by
      have hapart := groups_apart hn hm hnm
      exact hrest j (by omega)
    rw [List.foldl_cons]
    obtain ⟨sl, fl, q, hq, hx⟩ := id hframe
    rw [hx] at hframe hgranted hother ⊢
    obtain ⟨hframe', hin, hout⟩ := ih { c with slice := sl, fflags := c.fflags ||| fl, vq := q } rfl
      (fun n hn => hl n (List.mem_cons_of_mem _ hn)) hnd
    refine ⟨hframe.trans hframe', fun n hn => ?_, fun n hn hnl => ?_⟩
    · obtain rfl | hnl := List.mem_cons.1 hn
      · exact hgranted.of_agree (.refl c) (fun _ _ _ => rfl) (hout n hm hml)
      · exact (hin n hnl).of_agree hframe (hother (hl n hn).1 fun h => hml (h ▸ hnl)) fun _ _ _ => rfl
    · rw [List.mem_cons, not_or] at hnl
      exact fun j h1 h2 => (hout n hn hnl.2 j h1 h2).trans (hother hn hnl.1 j h1 h2)

/-! ### The grant (R138) -/

/-- Voiding groups one after another changes the file alone, at any element width. -/
theorem voidGroups_width_eq (m eb : Nat) (l : List Nat) (c : Ctx) :
    l.foldl (fun c n => c.voidGroup n (m * c.voidBytes n eb)) c =
      { c with slice := l.foldl (voidFrom c.regBytes c.groupBytes fun n => m * c.voidBytes n eb) c.slice } := by
  induction l generalizing c with
  | nil => rfl
  | cons n l ih =>
    rw [List.foldl_cons, voidGroup_eq c n fun n => m * c.voidBytes n eb, ih]
    rfl

/-- Every carried group has a tag that folds (R140). -/
def CarriedFold (c : Ctx) : Prop :=
  ∀ n < c.nreg, n % c.g = 0 → n < 32 → c.vcarry.getLsbD n = true → c.tag n ∉ [Tag.none, .d8b, .e8, .p32]

theorem carries_iff {c : Ctx} {n : Nat} : c.carries n = true ↔ n < 32 ∧ c.vcarry.getLsbD n = true := by
  unfold Ctx.carries bitAt
  simp

theorem mem_groupBases_iff {c : Ctx} {n : Nat} : n ∈ c.groupBases ↔ n < c.nreg ∧ n % c.g = 0 := by
  refine ⟨fun h => ?_, fun ⟨hn, hg⟩ => mem_groupBases hn hg⟩
  simpa [Ctx.groupOk] using groupBases_ok h

theorem carryTagBad_iff {c : Ctx} : carryTagBad c = true ↔ ¬ CarriedFold c := by
  unfold carryTagBad CarriedFold
  simp only [List.any_eq_true, Bool.and_eq_true, carries_iff, mem_groupBases_iff, List.contains_iff_mem, not_forall, not_not, exists_prop, and_assoc]

/-- The groups of a context after a grant: first the carried ones folded, then the others voided. -/
def grantGroups (c : Ctx) (real eb : Nat) : Ctx :=
  (c.groupBases.filter fun n => !c.carries n).foldl (fun c n => c.voidGroup n (real * c.voidBytes n eb))
    ((c.groupBases.filter c.carries).foldl (foldGroup c.reals (max real 1) eb) c)

/-- The file after a grant, as the statement describes it. -/
theorem grantGroups_granted {c : Ctx} {real eb : Nat} (h : CarriedFold c) :
    FoldFrame c (grantGroups c real eb) ∧ Granted c (grantGroups c real eb).slice real eb := by
  have hok : ∀ n ∈ c.groupBases, c.groupOk n = true := fun n hn => groupBases_ok hn
  have htag : ∀ n ∈ c.groupBases.filter c.carries, c.groupOk n = true ∧ c.tag n ≠ .none := fun n hn => by
    obtain ⟨hn, hcarries⟩ := List.mem_filter.1 hn
    obtain ⟨hlt, hmod⟩ := mem_groupBases_iff.1 hn
    obtain ⟨h32, hbit⟩ := carries_iff.1 hcarries
    exact ⟨hok n hn, fun hnone => h n hlt hmod h32 hbit (by simp [hnone])⟩
  obtain ⟨hframe, hin, hout⟩ := foldGroups_granted (eb := eb) (Nat.le_max_right real 1) _ c rfl htag ((groupBases_nodup c).filter _)
  obtain ⟨sl, fl, q, hq, hx⟩ := id hframe
  unfold grantGroups
  rw [voidGroups_width_eq]
  refine ⟨hframe.trans (foldFrame_slice _ _), ?_⟩
  rw [hx] at hin hout ⊢
  have hplain : ∀ n ∈ c.groupBases.filter (fun n => !c.carries n), c.groupOk n = true := fun n hn => hok n (List.mem_filter.1 hn).1
  intro n hn hmod carried b gf
  have hbase := mem_groupBases hn hmod
  by_cases hc : n < 32 ∧ c.vcarry.getLsbD n = true
  · have hcarries : c.carries n = true := carries_iff.2 hc
    have hmem : n ∈ c.groupBases.filter c.carries := List.mem_filter.2 ⟨hbase, hcarries⟩
    have hnot : n ∉ c.groupBases.filter (fun n => !c.carries n) := by simp [hcarries]
    have hb : b = (c.tag n).bytes := if_neg (htag n hmem).2
    have hgf : gf = max real 1 := if_pos hc
    rw [hb, hgf]
    obtain ⟨hvoid, helems⟩ := (hin n hmem).of_agree (.refl c) (fun _ _ _ => rfl) fun j h1 h2 => voidAll_apart (hok n hbase) h1 h2 hplain hnot
    exact ⟨hvoid, fun hnc => absurd hc hnc, fun _ => helems⟩
  · have hcarries : c.carries n = false := by rw [← Bool.not_eq_true, carries_iff]; exact hc
    have hmem : n ∈ c.groupBases.filter (fun n => !c.carries n) := List.mem_filter.2 ⟨hbase, by simp [hcarries]⟩
    have hnot : n ∉ c.groupBases.filter c.carries := by simp [hcarries]
    have hgf : gf = real := if_neg hc
    rw [hgf]
    have hbyte {j : Nat} (h1 : n * c.regBytes ≤ j) (h2 : j < n * c.regBytes + c.groupBytes) :=
      voidAll_byte (lo := fun n => real * c.voidBytes n eb) (sl := sl) h1 h2 hplain ((groupBases_nodup c).filter _) hmem
    refine ⟨fun j h1 h2 => ?_, fun _ j h1 h2 => ?_, fun hcarried => absurd hcarried hc⟩
    · exact (hbyte (by omega) h2).trans (if_neg (Nat.not_lt.2 h1))
    · exact ((hbyte h1 (by omega)).trans (if_pos (by change _ < _ + real * b; omega))).trans (hout n (hok n hbase) hnot j h1 (by omega))

/-- Predicates that have lost every bit from n up (R33). -/
theorem cutPreds_bit {c : Ctx} {n m j : Nat} (hn : n ≤ 65536) (hm : m < 16) (hj : j < 65536) :
    bitAt ((c.cutPreds n).preds.toList.getD m 0) j = (decide (j < n) && bitAt (c.preds.toList.getD m 0) j) := by
  have hpred : (c.cutPreds n).preds.toList.getD m 0 = setBits (c.preds.toList.getD m 0) n (65536 - n) 0 := by
    simp [Ctx.cutPreds, hm]
  rw [hpred]
  unfold bitAt
  rw [getLsbD_setBits]
  by_cases hlt : j < n
  · simp [hlt, hj]
  · rw [if_neg hlt, if_pos (by omega)]
    simp [hlt]

/-- What a grant of g elements with a pad makes of a context (R138). -/
theorem applyGrant_granted {c : Ctx} {g pad ew : Nat} (h : CarriedFold c) (hg : g - pad ≤ 65536) :
    ∃ sl ps fl q, q.length = c.vq.length ∧
      applyGrant g pad ew c = { c with
        vtype := setBits c.vtype 4 2 ew, vl := g, vpad := pad, vlmax := c.vlmaxFor (2 ^ ew), vstart := 0, slice := sl, preds := ps,
        fflags := c.fflags ||| fl, vq := q } ∧
      Granted c sl (g - pad) (2 ^ ew) ∧
      ∀ n, n < 16 → ∀ j < 65536, bitAt (ps.toList.getD n 0) j = (decide (j < g - pad) && bitAt (c.preds.toList.getD n 0) j) := by
  obtain ⟨⟨sl, fl, q, hq, hx⟩, hgranted⟩ := grantGroups_granted (real := g - pad) (eb := 2 ^ ew) h
  have happly : applyGrant g pad ew c = { (grantGroups c (g - pad) (2 ^ ew)).cutPreds (g - pad) with
      vtype := setBits (grantGroups c (g - pad) (2 ^ ew)).vtype 4 2 ew, vlmax := c.vlmaxFor (2 ^ ew), vl := g, vpad := pad, vstart := 0 } := rfl
  rw [hx] at hgranted happly
  exact ⟨sl, (c.cutPreds (g - pad)).preds, fl, q, hq, happly, hgranted, fun n hn j hj => cutPreds_bit hg hn hj⟩

end Sys2Proof.Proofs
end

section
/-! SUPPORT. `setvl` and `setvl.b`: how many elements each grants, and what the grant leaves (R134 to R140). -/

namespace Sys2Proof.Proofs

open Sys2Proof Sys2Proof.Machine Sys2Proof.Laws Sys2Proof.Safety

/-! ### How many elements (R134 to R136) -/

/-- The most elements of 2^ew bytes that the group and the cap allow. -/
def mostOf (c : Ctx) (ew : Nat) : Nat := min (c.groupBytes / 2 ^ ew) (max 1 (capOf c * 4 / 2 ^ ew))

/-- Group 0 lies within the file, so no group is larger. -/
theorem groupBytes_le (c : Ctx) : c.groupBytes ≤ 65536 := by
  have hgroup := group_inside (c := c) (n := 0) (by simp [Ctx.groupOk, Ctx.nreg])
  omega

theorem mostOf_le (c : Ctx) (ew : Nat) : mostOf c ew ≤ 65536 :=
  (Nat.min_le_left ..).trans ((Nat.div_le_self ..).trans (groupBytes_le c))

theorem sampleCap_cap (c : Ctx) : (sampleCap c).1 = capOf c := by
  unfold sampleCap capOf
  cases c.replay <;> rfl

/-- A replayed cap is consumed (R135). -/
theorem sampleCap_ctx (c : Ctx) : (sampleCap c).2 = { c with replay := c.replay.tail } := by
  unfold sampleCap
  split
  · next hcaps => rw [hcaps]; rfl
  · next hcaps => rw [hcaps, List.tail_nil, ← hcaps]

theorem grantFor_elements (c : Ctx) (avl ew : Nat) : grantFor c avl ew 0 (capOf c) = min avl (mostOf c ew) := by
  unfold grantFor
  exact if_pos rfl

theorem grantFor_blocks (c : Ctx) (avl ew : Nat) {b : Nat} (hb : 0 < b) :
    grantFor c avl ew b (capOf c) = min ((avl + b - 1) / b) (max 1 (mostOf c ew / b)) * b := by
  unfold grantFor
  exact if_neg hb.ne'

theorem padFor_elements (avl g : Nat) : padFor avl 0 g = 0 := by simp [padFor]

theorem padFor_blocks (avl n : Nat) {b : Nat} (hb : 0 < b) : padFor avl b (n * b) = if n = (avl + b - 1) / b then n * b - avl else 0 := by
  unfold padFor
  rw [Nat.mul_div_cancel _ hb]
  simp [hb.ne']

/-! ### The course of a grant (R138) -/

/-- Instruction i grants g elements with a pad to thread f of s, under element width ew: s[d] is the grant less its pad, and strip, file, predicates and flags are as it leaves them. -/
def Grants (s : State) (f d : Nat) (i : Instr) (ew g pad : Nat) : Prop :=
  let c := s.ctx f
  ∃ sl ps fl, exec i s = .next (gnext s f
      { c.setS d (BitVec.ofNat 64 (g - pad)) with
        vtype := setBits c.vtype 4 2 ew, vl := g, vpad := pad, vlmax := c.groupBytes / 2 ^ ew, vstart := 0, slice := sl,
        preds := ps, fflags := c.fflags ||| fl, replay := c.replay.tail }) ∧
    Granted c sl (g - pad) (2 ^ ew) ∧
    ∀ n, 0 < n → n < 16 → ∀ j < 65536, bitAt (ps.toList.getD n 0) j =
      (decide (j < g - pad) && bitAt (c.preds.toList.getD n 0) j)

section Grant

variable {s : State} {f d a ew b : Nat} {word : Word} {decode : Ctx → Option Trap}

/-- What a grant of `real` elements makes of the thread's context as it is pushed. -/
def grantPushed (c : Ctx) (d ew real : Nat) : Ctx :=
  { c with sregs := (c.setS d (BitVec.ofNat 64 real)).sregs, vtype := setBits c.vtype 4 2 ew, replay := c.replay.tail }

theorem granted_pushed (c : Ctx) (avl g : Nat) : granted d avl ew b g (sampleCap c).2 = grantPushed c d ew (g - padFor avl b g) := by
  unfold granted grantPushed
  rw [sampleCap_ctx, setS_of_sregs (c := c) (x := { c with replay := c.replay.tail }) rfl]

theorem setvlPlan_grants {g pad : Nat} (h : (s.ctx f).ganged = false)
    (hgrant : grantFor (s.ctx f) ((s.ctx f).s a).toNat ew b (capOf (s.ctx f)) = g) (hpad : padFor ((s.ctx f).s a).toNat b g = pad) :
    setvlPlan word d a ew b f (s.ctx f) s = .push s (grantPushed (s.ctx f) d ew (g - pad)) (some (g, pad)) := by
  subst hgrant hpad
  unfold setvlPlan
  rw [h, ← granted_pushed, ← sampleCap_cap]
  rfl

/-- The push of a grant and its effect at once. -/
theorem grant_runs {rs : List Nat} {g pad : Nat} (h : VectorReady s f rs) (hfold : CarriedFold (s.ctx f)) (hle : g - pad ≤ 65536) :
    ∃ sl ps fl, s.pushConfig word a (fun x c => applyGrant x.grant x.pad ew c) f (s.ctx f) (grantPushed (s.ctx f) d ew (g - pad)) (some (g, pad)) =
        gnext s f { grantPushed (s.ctx f) d ew (g - pad) with
          vl := g, vlmax := (s.ctx f).groupBytes / 2 ^ ew, vpad := pad, vstart := 0, slice := sl, preds := ps, fflags := (s.ctx f).fflags ||| fl } ∧
      Granted (s.ctx f) sl (g - pad) (2 ^ ew) ∧
      ∀ n, n < 16 → ∀ j < 65536, bitAt (ps.toList.getD n 0) j = (decide (j < g - pad) && bitAt ((s.ctx f).preds.toList.getD n 0) j) := by
  have hat : AtPush (s.ctx f) (grantPushed (s.ctx f) d ew (g - pad)) := ⟨_, _, _, _, _, _, _, rfl⟩
  have hfold' : CarriedFold (effectCtx (s.ctx f) (grantPushed (s.ctx f) d ew (g - pad)) (configEntry word a (s.ctx f) (some (g, pad)))) := hfold
  obtain ⟨sl, ps, fl, q, hq, happly, hgranted, hpreds⟩ := applyGrant_granted (ew := ew) hfold' hle
  exact ⟨sl, ps, fl, pushConfig_runs h hat hq happly, hgranted, hpreds⟩

/-- A form of `setvl` that passes its checks at decode grants what `grantFor` and `padFor` give. -/
theorem setvl_grants {i : Instr} {rs : List Nat} {g pad : Nat}
    (hi : exec i s = .next (s.configure word rs a decode (fun f c s => setvlPlan word d a ew b f c s) fun x c => applyGrant x.grant x.pad ew c))
    (h : VectorReady s f rs) (hg : (s.ctx f).ganged = false) (hd : decode (s.ctx f) = none) (hfold : CarriedFold (s.ctx f))
    (hgrant : grantFor (s.ctx f) ((s.ctx f).s a).toNat ew b (capOf (s.ctx f)) = g) (hpad : padFor ((s.ctx f).s a).toNat b g = pad)
    (hle : g - pad ≤ 65536) : Grants s f d i ew g pad := by
  obtain ⟨sl, ps, fl, hrun, hgranted, hpreds⟩ := grant_runs (word := word) (a := a) (d := d) (ew := ew) h hfold hle
  refine ⟨sl, ps, fl, ?_, hgranted, fun n _ hn => hpreds n hn⟩
  rw [hi, configure_pushes h hd (setvlPlan_grants hg hgrant hpad), hrun, setS_frame (s.ctx f)]
  rfl

end Grant

/-! ### The statement -/

/-- Element bytes of a tag as a width code. -/
theorem log2_bytes (t : Tag) : t.bytes.log2 = if t.bytes = 1 then 0 else if t.bytes = 2 then 1 else if t.bytes = 4 then 2 else 3 := by
  cases t <;> decide

/-- Whole blocks within the cap, or one block that the group holds, are within the file. -/
theorem blocks_le {c : Ctx} {ew need b : Nat} (hb : b ≤ 65536) : min need (max 1 (mostOf c ew / b)) * b ≤ 65536 := by
  have hmost : mostOf c ew / b * b ≤ 65536 := (Nat.div_mul_le_self ..).trans (mostOf_le ..)
  calc min need (max 1 (mostOf c ew / b)) * b ≤ max 1 (mostOf c ew / b) * b := Nat.mul_le_mul_right _ (Nat.min_le_right ..)
    _ = max (1 * b) (mostOf c ew / b * b) := (Nat.mul_max_mul_right ..).symm
    _ ≤ 65536 := by omega

/-- Settles O32: both forms by `setvl_grants`, with the cap's bound on the blocks; the traps by the checks at decode in their order. -/
theorem grantFollowsTheCap : Obligations.GrantFollowsTheCap := by
  unfold Obligations.GrantFollowsTheCap
  intro s f d a w k t h c avl grants foldable most tg ew B need nb bad hg
  have hB : 0 < B := by positivity
  have hew : ew = tg.bytes.log2 := (log2_bytes tg).symm
  have hcheck : (decide (6 ≤ k.toNat) || decide (t = 0) || decide (c.vlmaxFor tg.bytes < B)) = true ↔ bad := by
    simp only [Bool.or_eq_true, decide_eq_true_eq, or_assoc]
    rfl
  have hcarry (hfold : foldable) : carryTagBad c = false := by rw [← Bool.not_eq_true, carryTagBad_iff, not_not]; exact hfold
  refine ⟨fun hfold => ?_, fun hfold hgood => ?_, fun hs => ⟨fun hnot => ?_, fun hbad => ?_, fun hnot hgood => ?_⟩⟩
  · exact setvl_grants rfl h hg (if_neg (Bool.eq_false_iff.1 (hcarry hfold))) hfold (grantFor_elements ..) (padFor_elements ..)
      ((Nat.sub_le ..).trans ((Nat.min_le_right ..).trans (mostOf_le ..)))
  · have hfits : B ≤ c.groupBytes / tg.bytes := Nat.not_lt.1 fun hlt => hgood (.inr (.inr hlt))
    have hgroup : B ≤ 65536 := hfits.trans ((Nat.div_le_self ..).trans (groupBytes_le c))
    have hnb : nb = min need (max 1 (mostOf c tg.bytes.log2 / B)) := by rw [← hew]; rfl
    change Grants s f d.toNat (.setvlB d a k t) ew (nb * B) (if nb = need then nb * B - avl else 0)
    rw [hnb, hew]
    exact setvl_grants rfl h hg ((if_neg (hcheck.not.2 hgood)).trans (if_neg (Bool.eq_false_iff.1 (hcarry hfold)))) hfold
      (grantFor_blocks c avl _ hB) (padFor_blocks avl _ hB) ((Nat.sub_le ..).trans (blocks_le hgroup))
  · exact congrArg Host.Outcome.next (configure_rejected h hs (if_pos (carryTagBad_iff.2 hnot)))
  · exact congrArg Host.Outcome.next (configure_rejected h hs (if_pos (hcheck.2 hbad)))
  · exact congrArg Host.Outcome.next (configure_rejected h hs ((if_neg (hcheck.not.2 hgood)).trans (if_pos (carryTagBad_iff.2 hnot))))

end Sys2Proof.Proofs
end

section
/-! SUPPORT. The invariant of every step (R147; log entry 1), by one rule for each operation of the model: what it answers is canonical when what it is
given is. The operations of the state, of accesses, stops and vector instructions. -/

namespace Sys2Proof.Proofs

open Sys2Proof Sys2Proof.Machine Sys2Proof.Laws Sys2Proof.Safety

/-! ### The invariant -/

/-- `Inv` with its parts named. -/
structure Canonical (s : State) : Prop where
  dev : s.dev.wf = true
  host : s.host.wf = true
  peer : s.peer.wf = true
  scr : s.scr.wf = true
  agents : (s.agents.map (·.1)).Pairwise (· < ·)

theorem inv_iff_canonical {s : State} : Inv s ↔ Canonical s :=
  ⟨fun ⟨⟨hd, hh, hp, hs⟩, ha⟩ => ⟨hd, hh, hp, hs, ha⟩, fun h => ⟨⟨h.dev, h.host, h.peer, h.scr⟩, h.agents⟩⟩

/-- All that the invariant looks at. -/
def canonicalParts (s : State) : Mem × Mem × Mem × Mem × List Nat := (s.dev, s.host, s.peer, s.scr, s.agents.map (·.1))

variable {s t : State}

/-- Every other part of the state is free. -/
theorem Canonical.same (h : Canonical s) (e : canonicalParts t = canonicalParts s) : Canonical t := by
  simp only [canonicalParts, Prod.mk.injEq] at e
  obtain ⟨hd, hh, hp, hs, ha⟩ := e
  exact ⟨hd ▸ h.dev, hh ▸ h.host, hp ▸ h.peer, hs ▸ h.scr, ha ▸ h.agents⟩

theorem Canonical.foldl {α : Type} {g : State → α → State} (h : Canonical s) (l : List α)
    (k : ∀ t x, Canonical t → Canonical (g t x)) : Canonical (l.foldl g s) := by
  induction l generalizing s with
  | nil => exact h
  | cons x l ih => exact ih (k s x h)

theorem Canonical.getD {o : Option State} (h : Canonical s) (k : ∀ t, o = some t → Canonical t) : Canonical (o.getD s) := by
  cases o with
  | none => exact h
  | some t => exact k t rfl

theorem Canonical.ite {p : Prop} [Decidable p] (h : Canonical s) (k : Canonical t) : Canonical (if p then s else t) := by
  split <;> assumption

/-! ### Tables and memories -/

theorem put_key_mem {α : Type} {t : Assoc α} {k j : Nat} {v : α} (h : j ∈ (t.put k v).map (·.1)) : j = k ∨ j ∈ t.map (·.1) := by
  induction t with
  | nil => exact .inl (by simpa [Assoc.put] using h)
  | cons e t ih =>
    obtain ⟨i, w⟩ := e
    simp only [Assoc.put] at h
    split_ifs at h <;> grind

theorem pairwise_put {α : Type} {t : Assoc α} {k : Nat} {v : α} (h : (t.map (·.1)).Pairwise (· < ·)) :
    ((t.put k v).map (·.1)).Pairwise (· < ·) := by
  induction t with
  | nil => simp [Assoc.put]
  | cons e t ih =>
    obtain ⟨i, w⟩ := e
    obtain ⟨hi, ht⟩ := List.pairwise_cons.1 h
    simp only [Assoc.put]
    split_ifs with h1 h2
    · subst h1; exact List.pairwise_cons.2 ⟨hi, ht⟩
    · refine List.pairwise_cons.2 ⟨fun j hj => ?_, h⟩
      rcases List.mem_cons.1 hj with rfl | hj
      · exact h2
      · exact h2.trans (hi j hj)
    · refine List.pairwise_cons.2 ⟨fun j hj => ?_, ih ht⟩
      rcases put_key_mem hj with rfl | hj
      · show i < j; omega
      · exact hi j hj

theorem Canonical.withDev {d : Mem} (h : Canonical s) (hd : d.wf = true) : Canonical { s with dev := d } := { h with dev := hd }
theorem Canonical.withScr {d : Mem} (h : Canonical s) (hd : d.wf = true) : Canonical { s with scr := d } := { h with scr := hd }

theorem Canonical.writeDev (h : Canonical s) (a n v : Nat) : Canonical { s with dev := s.dev.write a n v } :=
  h.withDev (wf_write a n v h.dev)

theorem Canonical.writeScr (h : Canonical s) (a n v : Nat) : Canonical { s with scr := s.scr.write a n v } :=
  h.withScr (wf_write a n v h.scr)

/-! ### The operations of the state -/

variable {f g m n k p q die slot part off lo a v pc elem code : Nat} {c : Ctx} {w : Window}

theorem Canonical.setCtx (h : Canonical s) : Canonical (s.setCtx f c) := { h with agents := pairwise_put h.agents }
theorem Canonical.modCtx {g : Ctx → Ctx} (h : Canonical s) : Canonical (s.modCtx f g) := h.setCtx
theorem Canonical.setMill {x : Mill} (h : Canonical s) : Canonical (s.setMill m x) := h.same rfl
theorem Canonical.modMill {g : Mill → Mill} (h : Canonical s) : Canonical (s.modMill m g) := h.same rfl
theorem Canonical.setQueue {x : Queue} (h : Canonical s) : Canonical (s.setQueue die slot x) := h.same rfl
theorem Canonical.modQueue {g : Queue → Queue} (h : Canonical s) : Canonical (s.modQueue die slot g) := h.same rfl
theorem Canonical.setReg {x : Dword} (h : Canonical s) : Canonical (s.setReg w off x) := h.same rfl
theorem Canonical.setField (h : Canonical s) : Canonical (s.setField w off lo n v) := h.same rfl
theorem Canonical.bump (h : Canonical s) : Canonical (s.bump w off) := h.same rfl
theorem Canonical.raise {bay inc : Nat} (h : Canonical s) : Canonical (s.raise bay part n inc) := h.same rfl
theorem Canonical.interrupt {i : Interrupt} (h : Canonical s) : Canonical (s.interrupt i) := h.same rfl
theorem Canonical.answer {x : Answer} (h : Canonical s) : Canonical (s.answer x) := h.same rfl
theorem Canonical.freshNumber (h : Canonical s) : Canonical s.freshNumber.2 := h.same rfl
theorem Canonical.setLaunch {l : Launch} (h : Canonical s) : Canonical (s.setLaunch k l) := h.same rfl
theorem Canonical.noteWalk (h : Canonical s) : Canonical (s.noteWalk part a) := by
  obtain ⟨w, hw⟩ := noteWalk_frame s part a
  exact hw ▸ h.same rfl
theorem Canonical.raiseFlags {fl : Flags} (h : Canonical s) : Canonical (s.raiseFlags f fl) := h.modCtx
theorem Canonical.setTagValue {x : Dword} (h : Canonical s) : Canonical (s.setTagValue m slot x) := h.same rfl

/-! ### Stores -/

theorem Canonical.pushFree (h : Canonical s) : Canonical (s.pushFree die slot a) := h.same rfl
theorem Canonical.popFree (h : Canonical s) : Canonical (s.popFree die slot) := h.same rfl

theorem Canonical.popped {l : Loc} (h : Canonical s) : Canonical (s.popped l) := by
  unfold State.popped
  split
  · exact h.popFree.ite h
  · exact h

theorem Canonical.slotWrite (h : Canonical s) : Canonical (s.slotWrite die slot off v) := h.ite (h.pushFree.ite (h.same rfl))

theorem Canonical.store {l : Loc} (h : Canonical s) : Canonical (s.store l n v) := by
  cases l with
  | scr a => exact h.writeScr a n v
  | dev a _ => exact h.writeDev a n v
  | host a => exact { h with host := wf_write a n v h.host }
  | peer a => exact { h with peer := wf_write a n v h.peer }
  | slot die slot off => exact h.slotWrite

theorem Canonical.ringStore {physical : Bool} (h : Canonical s) (e : s.ringStore part physical a n v = some t) : Canonical t := by
  unfold State.ringStore at e
  split_ifs at e
  · cases e; exact h.writeDev a n v
  · split at e
    · cases e
    · split_ifs at e
      cases e; exact h.noteWalk.withDev (wf_write _ n v h.dev)

theorem Canonical.ringStoreD {physical : Bool} (h : Canonical s) : Canonical ((s.ringStore part physical a n v).getD s) :=
  h.getD fun _ e => h.ringStore e

/-! ### Pins, external accesses and streams -/

theorem Canonical.addPins {x : PinHolder} {ps : List Pin} (h : Canonical s) : Canonical (s.addPins x die ps) :=
  (h.foldl ps fun _ _ h => h.noteWalk).same rfl
theorem Canonical.dropPins {x : PinHolder} (h : Canonical s) : Canonical (s.dropPins x) := h.same rfl
theorem Canonical.releasePins (h : Canonical s) : Canonical (s.releasePins f) := h.same rfl

theorem Canonical.performEntry {e : XqEntry} (h : Canonical s) : Canonical (s.performEntry e).1 := by
  unfold State.performEntry
  cases e.kind with
  | load => exact h.popped
  | store v => exact h.store
  | atomic op v cmp => exact h.store

theorem Canonical.completeAt {failed : Bool} (h : Canonical s) : Canonical (s.completeAt f k failed) := by
  unfold State.completeAt
  dsimp only
  split
  · exact h
  · exact h.setCtx.ite h.performEntry.setCtx

theorem Canonical.completeEntry {failed : Bool} (h : Canonical s) : Canonical (s.completeEntry f failed) := h.completeAt

theorem Canonical.accessTurn {failed : Bool} (h : Canonical s) : Canonical (s.accessTurn f k failed) := by
  unfold State.accessTurn
  split
  · exact h.ite h.completeAt
  · exact h

theorem Canonical.setPort {l : List Binding} (h : Canonical s) : Canonical (s.setPort m p l) := h.same rfl
theorem Canonical.modBinding {r : StreamReg} {g : Binding → Binding} (h : Canonical s) : Canonical (s.modBinding r q g) := h.same rfl
theorem Canonical.setStreamReg {r : Option StreamReg} (h : Canonical s) : Canonical (s.setStreamReg f q r) := h.modCtx

theorem Canonical.fetchNext {r : StreamReg} {b : Binding} (h : Canonical s) (e : s.fetchNext r q b = .ok t) : Canonical t := by
  unfold State.fetchNext at e
  dsimp only at e
  split_ifs at e
  split at e
  · cases e
  · cases e; exact h.modBinding

theorem Canonical.trimBinding {r : StreamReg} (h : Canonical s) : Canonical (s.trimBinding r q) := by
  unfold State.trimBinding
  dsimp only
  split
  · exact h
  · exact h.modBinding

theorem Canonical.moveStream (h : Canonical s) : Canonical (s.moveStream f q n) := by
  unfold State.moveStream
  split
  · exact h
  · exact h.setStreamReg.trimBinding

theorem Canonical.fetchUpTo {r : StreamReg} {j : Nat} (h : Canonical s) (e : s.fetchUpTo r q j n = .ok (some t)) : Canonical t := by
  induction n generalizing s with
  | zero => cases e
  | succ n ih =>
    unfold State.fetchUpTo at e
    split at e
    · cases e
    · split_ifs at e
      · cases e; exact h
      · cases e
      · split at e
        · cases e
        · exact ih (h.fetchNext ‹_›) e

theorem Canonical.performWrite {b : Binding} {j : Nat} (h : Canonical s) : Canonical (s.performWrite b j v) := by
  unfold State.performWrite
  split
  · exact h.modCtx
  · exact h.store

theorem Canonical.performPending {b : Binding} {rest : List Binding} (h : Canonical s) : Canonical (s.performPending m p b rest) := by
  unfold State.performPending
  split
  · exact h
  · exact h.setPort.performWrite

theorem Canonical.settleWrites (h : Canonical s) : Canonical (State.settleWrites f n s) := by
  induction n generalizing s with
  | zero => exact h
  | succ n ih =>
    unfold State.settleWrites
    dsimp only
    split
    · exact h
    · exact ih (h.foldl _ fun _ _ h => h.performWrite).setPort

theorem Canonical.settleStreams (h : Canonical s) : Canonical (s.settleStreams f) := h.settleWrites.modMill

theorem Canonical.moveElement (h : Canonical s) : Canonical (s.moveElement m p) := by
  unfold State.moveElement
  split
  · exact h
  · split_ifs
    · exact h
    · exact h
    · exact h.performPending
    · split
      · exact h.fetchNext ‹_›
      · exact h
    · exact h

theorem Canonical.startBinding (h : Canonical s) : Canonical (s.startBinding m p) := by
  unfold State.startBinding
  split
  · exact h
  · exact h.ite h.setPort

/-! ### Rings and samples -/

theorem Canonical.ringTrap {stage2 : Bool} {r : Line} (h : Canonical s) : Canonical (s.ringTrap part stage2 r) := by
  unfold State.ringTrap
  dsimp only
  split
  · exact ((h.ringStore ‹_›).setField.ite (h.ringStore ‹_›)).bump.interrupt
  · exact h.setField.bump.interrupt

theorem Canonical.putSample {r : Line} (h : Canonical s) : Canonical (s.putSample part r) := by
  unfold State.putSample
  dsimp only
  split
  · exact ((h.ringStore ‹_›).setField.ite (h.ringStore ‹_›)).bump
  · exact h.setField

theorem Canonical.sample {e : VqEntry} {b : Nat} (h : Canonical s) : Canonical (s.sample f k e b) := by
  unfold State.sample
  exact h.modMill.ite (h.modMill.freshNumber.foldl _ fun _ _ h => h.freshNumber.putSample)

/-! ### Stops and waits -/

theorem Canonical.raiseNext (h : Canonical s) : Canonical (s.raiseNext f) := by
  unfold State.raiseNext
  split
  · exact h
  · exact h.raise.modCtx.ite h

theorem Canonical.drainSome (h : Canonical s) : Canonical (State.drainSome f n s) := by
  induction n generalizing s with
  | zero => exact h
  | succ n ih => exact (ih h.raiseNext).ite (h.ite (ih h.completeEntry))

theorem Canonical.drainXq (h : Canonical s) : Canonical (s.drainXq f) := h.drainSome

theorem Canonical.stopContext {x : Trap} {ethr : Bool} (h : Canonical s) : Canonical (s.stopContext f x pc elem code ethr) :=
  h.drainXq.settleStreams.setCtx.releasePins.ringTrap

theorem Canonical.takeTrap {x : Trap} {ethr : Bool} (h : Canonical s) : Canonical (s.takeTrap f x pc elem code ethr) := by
  unfold State.takeTrap
  split <;> exact h.stopContext

theorem Canonical.vectorTrap {x : Trap} {ethr : Bool} (h : Canonical s) : Canonical (s.vectorTrap f x pc elem ethr) :=
  h.setCtx.ite h.takeTrap

theorem Canonical.stopLate (h : Canonical s) : Canonical (s.stopLate f) := by
  unfold State.stopLate
  split
  · exact h.stopContext
  · exact h

theorem Canonical.stall {x : Wait} (h : Canonical s) : Canonical (s.stall f x) := h.stopLate.ite h.setCtx
theorem Canonical.trapHere {x : Trap} (h : Canonical s) : Canonical (s.trapHere f x) := h.takeTrap.ite h.stall

theorem Canonical.debugStop {src bpn : Nat} (h : Canonical s) : Canonical (s.debugStop f src bpn code) :=
  h.stopLate.modCtx.ite h.modCtx.takeTrap.modCtx

theorem Canonical.groupTrap {e : Nat} {x : Trap} (h : Canonical s) : Canonical (s.groupTrap f e off x) := h.vectorTrap

theorem Canonical.trapGroup {x : Trap} (h : Canonical s) : Canonical (s.trapGroup f x) := by
  unfold State.trapGroup
  split
  · exact h
  · split
    · exact h.groupTrap
    · exact h

/-! ### The ways a scalar instruction runs -/

section Scalar

variable {rs : List Nat} {bad : Nat → Ctx → Option Trap} {k : Nat → Ctx → State → State}

theorem Canonical.scalar (h : Canonical s) (hk : ∀ f c t, Canonical t → Canonical (k f c t)) : Canonical (s.scalar rs k) := by
  unfold State.scalar
  split
  · refine h.stall.ite (h.stall.ite ?_)
    split
    · exact h.setCtx.trapHere.ite h.stall
    · exact hk _ _ _ h
  · exact h.trapGroup
  · exact h

theorem Canonical.checked (h : Canonical s) (hk : ∀ f c t, Canonical t → Canonical (k f c t)) : Canonical (s.checked bad rs k) := by
  unfold State.checked
  split
  · refine h.stall.ite ?_
    split
    · exact h.trapHere
    · exact h.scalar hk
  · exact h.scalar hk

theorem Canonical.simple {d : Nat} {val : Ctx → Dword × Flags} (h : Canonical s) : Canonical (s.simple rs d val) :=
  h.scalar fun _ _ _ h => h.setCtx

theorem Canonical.threadOnly (h : Canonical s) (hk : ∀ f c t, Canonical t → Canonical (k f c t)) : Canonical (s.threadOnly rs k) :=
  h.trapHere.ite (h.scalar hk)

theorem Canonical.threadOnlyChecked (h : Canonical s) (hk : ∀ f c t, Canonical t → Canonical (k f c t)) :
    Canonical (s.threadOnlyChecked bad rs k) :=
  h.trapHere.ite (h.checked hk)

theorem Canonical.threadCertain (h : Canonical s) (hk : ∀ f c t, Canonical t → Canonical (k f c t)) :
    Canonical (s.threadCertain rs k) :=
  h.trapHere.ite (h.scalar fun _ _ _ h => (hk _ _ _ h).ite h.stall)

theorem Canonical.ordered {w : Nat} {seen : Bool} (h : Canonical s) (hk : ∀ f c t, Canonical t → Canonical (k f c t)) :
    Canonical (s.ordered w seen rs k) :=
  h.scalar fun _ _ _ h => h.stall.ite (h.stall.ite (hk _ _ _ h))

theorem Canonical.coreOnly {bad : Ctx → Option Trap} (h : Canonical s) (hk : ∀ f c t, Canonical t → Canonical (k f c t)) :
    Canonical (s.coreOnly bad rs k) := by
  unfold State.coreOnly
  split
  · exact (h.checked hk).ite h.trapHere
  · exact h.trapGroup
  · exact h

end Scalar

end Sys2Proof.Proofs
end

section
/-! SUPPORT. The invariant of every step, continued: vector instructions (R53, R271, R314), element blocks, and the grant. -/

namespace Sys2Proof.Proofs

open Sys2Proof Sys2Proof.Machine Sys2Proof.Laws Sys2Proof.Safety

variable {s t : State} {f g k n p q off : Nat}

/-! ### What a vector instruction is made of -/

/-- A result of elements in a canonical state. -/
def CanonicalRes : Res → Prop
  | .ok t | .trap _ _ _ t | .wait _ _ t => Canonical t

/-- Every effect of a vector instruction keeps the invariant. -/
structure KeepsCanonical (op : VOp) : Prop where
  elem : ∀ env i s, Canonical s → CanonicalRes (op.elem env i s) := by exact fun _ _ _ h => h
  skip : ∀ env i s, Canonical s → CanonicalRes (op.skip env i s) := by exact fun _ _ _ h => h
  whole : ∀ w, op.whole = some w → ∀ env i s, Canonical s → CanonicalRes (w env i s) := by exact fun _ hw => nomatch hw
  begin' : ∀ env s, Canonical s → Canonical (op.begin' env s) := by exact fun _ _ h => h
  finish : ∀ env s, Canonical s → Canonical (op.finish env s) := by exact fun _ _ h => h
  idle : ∀ env s, Canonical s → Canonical (op.idle env s) := by exact fun _ _ h => h

theorem Canonical.elements {pm : Nat} {env : Env} {el sk : Env → Nat → State → Res} {i : Nat}
    (hel : ∀ env i s, Canonical s → CanonicalRes (el env i s)) (hsk : ∀ env i s, Canonical s → CanonicalRes (sk env i s))
    (h : Canonical s) : CanonicalRes (elements pm env el sk n i s) := by
  induction n generalizing i s with
  | zero => exact h
  | succ n ih =>
    unfold Machine.elements
    have hr : CanonicalRes (if (s.ctx env.f).pbit pm i then el env i s else sk env i s) := by
      split
      · exact hel _ _ _ h
      · exact hsk _ _ _ h
    split
    · rename_i e
      rw [e] at hr
      exact ih hr
    · exact hr

variable {op : VOp}

theorem Canonical.run {env : Env} {lo hi : Nat} (h : Canonical s) (hop : KeepsCanonical op) : CanonicalRes (op.run env lo hi s) := by
  unfold VOp.run
  split
  · exact hop.whole _ ‹_› _ _ _ h
  · exact Canonical.elements hop.elem hop.skip h

theorem CanonicalRes.of_ok {r : Res} (h : CanonicalRes r) (e : r = .ok t) : Canonical t := by
  subst e; exact h

theorem CanonicalRes.of_trap {r : Res} {x : Trap} {i : Nat} {done : Bool} (h : CanonicalRes r) (e : r = .trap x i done t) : Canonical t := by
  subst e; exact h

/-! ### The course of a vector instruction -/

theorem Canonical.underEntry {e : VqEntry} {k : State → State} (h : Canonical s) (hk : ∀ t, Canonical t → Canonical (k t)) :
    Canonical (State.underEntry e f k s) := by
  unfold State.underEntry
  exact (hk _ h.setCtx).modCtx

theorem Canonical.endMember {e : VqEntry} (h : Canonical s) : Canonical (State.endMember f k e s) := h.sample.modCtx
theorem Canonical.chargeAlone (h : Canonical s) : Canonical (s.chargeAlone f n) := h.ite h.modMill
theorem Canonical.issued {slots : Bool} (h : Canonical s) : Canonical (State.issued slots f n s) := h.modCtx.ite h.chargeAlone

theorem Canonical.holdMember {w : Wait} (h : Canonical s) : Canonical (State.holdMember f w s) := by
  unfold State.holdMember
  split
  · exact h.modCtx
  · exact h

theorem Canonical.refuseIssue {x : Trap} {start : Nat} {e : VqEntry} (h : Canonical s) :
    Canonical (State.refuseIssue f k x start e s) := (h.ite h.modCtx).vectorTrap

theorem Canonical.runMember {slots : Bool} {upto : Ctx → Nat → Nat} {e : VqEntry} (h : Canonical s) (hop : KeepsCanonical op) :
    Canonical (State.runMember op f k slots upto e s) := by
  unfold State.runMember
  refine (hop.idle _ _ h.modCtx).endMember.ite ?_
  dsimp only
  split
  · exact h.refuseIssue
  · split
    · exact h.holdMember
    · refine h.modCtx.ite ?_
      have hb {c : Prop} [Decidable c] {env : Env} : Canonical (if c then op.begin' env (s.modCtx f State.goOn) else s.modCtx f State.goOn) :=
        (hop.begin' _ _ h.modCtx).ite h.modCtx
      split
      · have ht := CanonicalRes.of_trap (hb.run hop) ‹_›
        exact ht.issued.modCtx.vectorTrap
      · exact h.holdMember
      · have ht := CanonicalRes.of_ok (hb.run hop) ‹_›
        exact (hop.finish _ _ ht.issued).endMember.ite ht.issued.modCtx

theorem Canonical.runAll {e : VqEntry} (h : Canonical s) (hop : KeepsCanonical op) : Canonical (State.runAll op f k e s) :=
  h.ite (h.modCtx.underEntry fun _ h => h.runMember hop)

theorem Canonical.runGroup (h : Canonical s) (hop : KeepsCanonical op) : Canonical (State.runGroup op f k s) := by
  unfold State.runGroup
  split
  · exact h
  · exact h.underEntry fun _ h => h.runMember hop

theorem Canonical.advanceThread {e : Nat} (h : Canonical s) : Canonical (s.advanceThread f e off) := h.modCtx

theorem Canonical.runMembers {env : Env} {es : List Nat} (h : Canonical s) (hop : KeepsCanonical op) :
    Canonical (State.runMembers op env off es s) := by
  induction es generalizing s with
  | nil => exact h
  | cons e es ih =>
    unfold State.runMembers
    refine h.groupTrap.ite ?_
    have hr := hop.elem env e s h
    split
    · split
      · exact ih (hr.of_ok ‹_›).advanceThread
      · have ht := hr.of_trap ‹_›
        exact (ht.advanceThread.ite ht).groupTrap
      · rename_i e'
        rwa [e'] at hr
    · exact ih h.advanceThread

theorem Canonical.withSlots {k : State → State} (h : Canonical s) (hk : ∀ t, Canonical t → Canonical (k t)) :
    Canonical (s.withSlots f n k) := h.modCtx.ite (hk _ h.modCtx)

theorem Canonical.runIssueGroup (h : Canonical s) (hop : KeepsCanonical op) : Canonical (State.runIssueGroup op f s) := by
  unfold State.runIssueGroup
  split
  · exact h
  · refine h.trapGroup.ite ?_
    split
    · exact h.trapGroup
    · split
      · exact h.trapGroup
      · split
        · exact h
        · exact h.withSlots fun _ h => (h.runMembers hop).modCtx.ite (h.runMembers hop)

theorem Canonical.vector (h : Canonical s) (hop : KeepsCanonical op) : Canonical (s.vector op) := by
  unfold State.vector
  split
  · exact h.trapHere.ite (h.checked fun _ _ _ h => h.stopLate.ite (h.stall.ite (h.stall.ite (h.setCtx.ite (h.setCtx.runAll hop)))))
  · exact h.runGroup hop
  · exact h.runIssueGroup hop
  · exact h

/-! ### The vector instructions -/

section Members

variable {word : Word} {sa d : Nat} {pm : BitVec 4} {ns : List Nat} {bad : Ctx → Bool}

theorem keeps_elementwise {g : Env → Nat → Ctx → Nat × Flags} : KeepsCanonical (elementwise word sa pm d ns bad g) where
  elem _ _ _ h := h.setCtx

theorem keeps_intoPredicate {x : BitVec 4} {b : Bool} {g : Nat → Ctx → Bool × Flags} :
    KeepsCanonical (intoPredicate word x ns pm b bad g) where
  elem _ _ _ h := h.setCtx

theorem crossLane_elem {x : BitVec 5} {d a : BitVec 6} {only : Env → Nat → Bool} {g : Env → Nat → Ctx → Nat × Flags} (env : Env)
    (i : Nat) (s : State) (h : Canonical s) : CanonicalRes ((crossLane word x pm d a bad only g).elem env i s) := by
  simp only [crossLane]
  split
  · exact h.setCtx
  · exact h

theorem keeps_crossLane {x : BitVec 5} {d a : BitVec 6} {only : Env → Nat → Bool} {g : Env → Nat → Ctx → Nat × Flags} :
    KeepsCanonical (crossLane word x pm d a bad only g) where
  elem := crossLane_elem

theorem keeps_modCtx {w : Word} {sa sb dest pm : Nat} {dec : Nat → Ctx → Option Trap} {iss : Env → State → Option Trap} {always : Bool}
    {g : Env → Ctx → Ctx} :
    KeepsCanonical { word := w, sa := sa, sb := sb, dest := dest, decode := dec, issue := iss, pm := pm, always := always
                     whole := some fun env _ s => .ok (s.modCtx env.f (g env)) } where
  whole _ hw _ _ _ h := by cases hw; exact h.modCtx

theorem Canonical.dropLatch {env : Env} (h : Canonical s) : Canonical (dropLatch env s) := h.modCtx

theorem Canonical.vmemPerform {acc : Access} {d b i : Nat} {l : Loc} {c : Ctx} (h : Canonical s) :
    Canonical (vmemPerform acc d b i l c f s) := by
  cases acc with
  | load => exact h.setCtx
  | store => exact h.store
  | add => exact h.store

theorem Canonical.vmemElem {spaces : List Nat} {acc : Access} {ix : Index} {env : Env} {i : Nat} (h : Canonical s) :
    CanonicalRes (vmemElem spaces acc d ix env i s) := by
  unfold Machine.vmemElem
  dsimp only
  split
  · exact h
  · split
    · exact h
    · split
      · exact h
      · split_ifs <;> first | exact h | exact h.vmemPerform

theorem keeps_vmemOp {spaces : List Nat} {acc : Access} {d : BitVec 6} {w : BitVec 4} {ix : Index} :
    KeepsCanonical (vmemOp word spaces acc d w sa ix pm) where
  elem _ _ _ h := h.vmemElem

theorem Canonical.vldffLoop {env : Env} {i : Nat} (h : Canonical s) : CanonicalRes (vldffLoop d p env n i s) := by
  induction n generalizing i s with
  | zero => exact h.modCtx
  | succ n ih =>
    unfold Machine.vldffLoop
    have hr := h.vmemElem (spaces := [0]) (acc := .load) (d := d) (ix := .linear) (env := env) (i := i)
    split
    · split
      · exact hr.of_trap ‹_›
      · exact ih (hr.of_ok ‹_›)
      · exact h.modCtx
    · exact ih h

theorem Canonical.streamBegin {env : Env} (h : Canonical s) : Canonical (streamBegin d q env s) := by
  unfold Machine.streamBegin
  split
  · exact h
  · exact h.modBinding.moveStream

theorem Canonical.vsrdElem {active : Bool} {env : Env} {i : Nat} (h : Canonical s) : CanonicalRes (vsrdElem d q active env i s) := by
  unfold Machine.vsrdElem
  split
  · exact h
  · split
    · exact h
    · split
      · exact h
      · split
        · exact h
        · exact h
        · have ht := h.fetchUpTo ‹_›
          exact (ht.modCtx.ite ht).moveStream

theorem Canonical.vswrElem {active : Bool} {env : Env} {i : Nat} (h : Canonical s) : CanonicalRes (vswrElem d q active env i s) := by
  unfold Machine.vswrElem
  split
  · exact h
  · split
    · exact h
    · split
      · exact h
      · split
        · exact h.moveStream
        · split
          · exact h
          · split
            · exact h
            · exact (h.modBinding.store.ite h.modBinding.modBinding).moveStream

theorem keeps_streamOp {write : Bool} {d : BitVec 6} {q : BitVec 3} {x : BitVec 5} : KeepsCanonical (streamOp word write d q x pm) where
  elem _ _ _ h := by cases write; exacts [h.vsrdElem, h.vswrElem]
  skip _ _ _ h := by cases write; exacts [h.vsrdElem, h.vswrElem]
  begin' _ _ h := h.streamBegin

theorem Canonical.scanElem {k : Scan} {cin active : Bool} {d a : Nat} {env : Env} {i : Nat} (h : Canonical s) :
    CanonicalRes (scanElem k cin active d a env i s) := by
  unfold Machine.scanElem
  dsimp only
  split <;> exact h.setCtx

theorem Canonical.scanFinish {k : Scan} {cin cout : Bool} {env : Env} (h : Canonical s) : Canonical (scanFinish k cin cout d env s) :=
  h.setCtx.ite h.setCtx

theorem keeps_scanOp {k : Scan} {d a : BitVec 6} {o i : BitVec 1} : KeepsCanonical (scanOp k word d a o i pm) := by
  unfold scanOp
  constructor <;> dsimp only
  · exact fun _ _ _ h => h.scanElem
  · exact fun _ _ _ h => h.scanElem
  · exact fun _ hw => nomatch hw
  · exact fun _ _ h => h.modCtx
  · exact fun _ _ h => h.scanFinish
  · exact fun _ _ h => h

theorem Canonical.tileMoveElem {toTile active : Bool} {t ax : Nat} {env : Env} {i : Nat} (h : Canonical s) :
    CanonicalRes (tileMoveElem toTile active d t ax env i s) := by
  unfold Machine.tileMoveElem
  dsimp only
  split_ifs
  · exact h
  · exact h
  · exact h
  · exact h.modMill
  · exact h.setCtx

theorem keeps_tileMove {toTile : Bool} {d : BitVec 6} {t : BitVec 2} {x : BitVec 1} {a : BitVec 5} :
    KeepsCanonical (tileMove word toTile d t x a pm) where
  elem _ _ _ h := h.tileMoveElem
  skip _ _ _ h := h.tileMoveElem

theorem keeps_carryMove {d : BitVec 6} {t : BitVec 2} {x : BitVec 1} : KeepsCanonical (carryMove word d t x pm) where
  elem _ _ _ h := by
    simp only [carryMove, carryMoveElem]
    split
    · exact h.modMill
    · exact h.setCtx

end Members

/-! ### Element blocks -/

theorem Canonical.startBlocks {block pm : Nat} (h : Canonical s) : Canonical (s.startBlocks f block pm) := by
  unfold State.startBlocks
  dsimp only
  split
  · exact h
  · exact h.ite (h.setCtx.sample.modCtx.ite h.setCtx)

theorem Canonical.setThread {x : EThread} (h : Canonical s) : Canonical (s.setThread f x) := h.modCtx

theorem Canonical.nextWord {x : EThread} (h : Canonical s) (e : nextWord f x s = .ok t) : Canonical t := by
  unfold Machine.nextWord at e
  split_ifs at e
  cases e; exact h.setThread

theorem Canonical.blockMembers {k : Blocks → EThread → Ctx → State → Except Trap State} {es : List Nat} (h : Canonical s)
    (hk : ∀ b x c s t, Canonical s → k b x c s = .ok t → Canonical t) : Canonical (blockMembers f off k es s) := by
  induction es generalizing s with
  | nil => exact h
  | cons e es ih =>
    unfold Machine.blockMembers
    dsimp only
    split
    · exact h
    · split
      · exact h
      · split
        · exact h.groupTrap
        · exact ih (hk _ _ _ _ _ h ‹_›)

theorem Canonical.blockInstr {ns : List Nat} {bad : Ctx → Bool} {k : Nat → Blocks → EThread → Ctx → State → Except Trap State}
    (h : Canonical s) (hk : ∀ f b x c s t, Canonical s → k f b x c s = .ok t → Canonical t) : Canonical (blockInstr ns bad k s) := by
  unfold Machine.blockInstr
  split
  · exact h.trapHere
  · dsimp only
    split
    · exact h
    · split
      · exact h.trapGroup
      · exact h.withSlots fun _ h => h.blockMembers fun _ _ _ _ _ => hk _ _ _ _ _ _
  · exact h

theorem Canonical.blockBranch {onZero : Bool} {o a : BitVec 6} (h : Canonical s) : Canonical (blockBranch onZero o a s) := by
  refine h.blockInstr fun f b x c s t h e => ?_
  dsimp only at e
  split_ifs at e
  · cases e; exact h.setThread
  · exact h.nextWord e

/-! ### Configuration and the grant -/

theorem Canonical.runConfig {apply : VqEntry → Ctx → Ctx} (h : Canonical s) : Canonical (State.runConfig apply f s) := by
  unfold State.runConfig
  dsimp only
  split
  · exact h
  · exact h.underEntry fun _ h => h.sample.modCtx

theorem Canonical.pushConfig {word : Word} {sa : Nat} {apply : VqEntry → Ctx → Ctx} {c c1 : Ctx} {grant : Option (Nat × Nat)}
    (h : Canonical s) : Canonical (State.pushConfig word sa apply f c c1 grant s) := h.setCtx.ite h.setCtx.runConfig

/-- A plan in a canonical state. -/
def CanonicalPlan : Plan → Prop
  | .trap _ => True
  | .wait _ t | .push t _ _ | .pushed t => Canonical t

theorem Canonical.configure {word : Word} {rs : List Nat} {sa : Nat} {dec : Ctx → Option Trap} {plan : Nat → Ctx → State → Plan}
    {apply : VqEntry → Ctx → Ctx} (h : Canonical s) (hp : ∀ f c t, Canonical t → CanonicalPlan (plan f c t)) :
    Canonical (State.configure word rs sa dec plan apply s) := by
  unfold State.configure
  split
  · exact h.runConfig
  · refine h.trapHere.ite (h.checked fun f c t h => h.stopLate.ite (h.stall.ite ?_))
    have hr := hp f c t h
    split <;> rename_i e <;> rw [e] at hr
    · exact h.trapHere
    · exact Canonical.stall hr
    · exact Canonical.pushConfig hr
    · exact hr

theorem Canonical.vconfigPlan {d : Nat} {fs : Ctx → Nat × Nat × Nat × Nat} {c : Ctx} (h : Canonical s) :
    CanonicalPlan (vconfigPlan d fs f c s) := by
  unfold Machine.vconfigPlan
  dsimp only
  split
  · trivial
  · exact h

theorem Canonical.settleGang {ms : List Nat} (h : Canonical s) : Canonical (settleGang ms n s) :=
  h.foldl _ fun _ x h => by
    dsimp only
    split
    · exact h
    · exact h.pushConfig

theorem Canonical.setvlPlan {word : Word} {d a ew b : Nat} {c : Ctx} (h : Canonical s) : CanonicalPlan (setvlPlan word d a ew b f c s) := by
  unfold Machine.setvlPlan
  dsimp only
  split
  · exact h
  · split_ifs
    · trivial
    · exact h.setCtx
    · trivial
    · exact h.setCtx.settleGang

end Sys2Proof.Proofs
end

section
/-! SUPPORT. The invariant of every step, continued: scalar accesses, streams, fences, threads and cores. -/

namespace Sys2Proof.Proofs

open Sys2Proof Sys2Proof.Machine Sys2Proof.Laws Sys2Proof.Safety

variable {s t : State} {f g k m n p q off part die a b v pc code : Nat} {c : Ctx}

/-! ### Accesses of scalar instructions -/

theorem Canonical.watchScalar {hit : Bool} (h : Canonical s) : Canonical (s.watchScalar f pc a hit) := h.takeTrap.ite h

theorem Canonical.scratchLoad {ext : Nat → Nat → Dword} {d a : BitVec 5} {w : BitVec 4} {z : BitVec 2} {i : BitVec 10} (h : Canonical s) :
    Canonical (scratchLoad ext d a w z i s) := by
  refine h.trapHere.ite (h.ordered fun f c s h => ?_)
  split
  · exact h.trapHere
  · split
    · exact h.trapHere
    · refine h.stall.ite (h.stall.ite ?_)
      split
      · exact h.trapHere
      · exact h.setCtx.watchScalar

theorem Canonical.scratchStore {v a : BitVec 5} {w : BitVec 4} {z : BitVec 2} {i : BitVec 10} (h : Canonical s)
    (e : execSt v a w z i s = .next t) : Canonical t := by
  cases e
  refine h.trapHere.ite (h.ordered fun f c s h => ?_)
  split
  · exact h.trapHere
  · split
    · exact h.trapHere
    · refine h.stall.ite (h.stall.ite ?_)
      split
      · exact h.trapHere
      · exact h.store.setCtx.watchScalar

theorem Canonical.noteAccess {d : Line} {b : Dword} (h : Canonical s) : Canonical (s.noteAccess f d b n) := h.noteWalk.ite h

theorem Canonical.enterXq {e : XqEntry} {rd wr : Bool} (h : Canonical s) : Canonical (s.enterXq f e rd wr) := by
  unfold State.enterXq
  have hn := (h.noteWalk.ite h : Canonical (if e.pin.isSome then s.noteWalk (s.partOf f) e.addr else s))
  exact h.stall.ite (h.stall.ite (hn.setCtx.ite hn.setCtx.completeEntry.watchScalar))

theorem Canonical.external {rs : List Nat} {w : BitVec 4} {off : Ctx → Dword} {u : Use} {kind : Ctx → XKind} {det hostOk : Bool}
    (h : Canonical s) : Canonical (external rs w off n u kind a det hostOk s) := by
  unfold Machine.external
  refine h.trapHere.ite (h.ordered fun f c s h => h.trapHere.ite ?_)
  split
  · exact h.trapHere
  · dsimp only
    split
    · exact h.noteAccess.trapHere
    · exact h.trapHere.ite (h.stall.ite h.enterXq)

theorem Canonical.atomic {ret hostOk : Bool} {d a b : BitVec 5} {w : BitVec 4} {z : BitVec 1} (h : Canonical s) :
    Canonical (atomic n ret hostOk d a b w z s) := by
  unfold Machine.atomic
  exact h.external

theorem Canonical.waitx {a : BitVec 5} (h : Canonical s) (e : execWaitx a s = .next t) : Canonical t := by
  cases e
  refine h.scalar fun f c s h => h.stall.ite ?_
  split
  · exact h.setCtx.trapHere.ite h.stall
  · exact h.setCtx

/-! ### Streams and gangs -/

theorem Canonical.holdStart {d : Line} (h : Canonical s) : Canonical (s.holdStart f q d) := by
  unfold State.holdStart
  exact h.modCtx
theorem Canonical.releaseStart (h : Canonical s) : Canonical (s.releaseStart f q) := by
  unfold State.releaseStart
  exact h.modCtx.modMill

theorem Canonical.strm {write gang : Bool} {q : BitVec 3} {w : BitVec 4} {p : BitVec 5} (h : Canonical s) :
    Canonical (strm write gang q w p s) := by
  refine h.threadCertain fun f c s h => h.trapHere.ite (h.trapHere.ite ?_)
  split
  · exact h.trapHere
  · refine h.trapHere.ite ?_
    split
    · exact h.trapHere
    · exact h.trapHere.ite (h.stall.ite (h.stall.ite (h.addPins.holdStart.setPort.foldl _ fun _ _ h => h.setStreamReg).modCtx))

theorem Canonical.unbind {r : StreamReg} (h : Canonical s) : Canonical (s.unbind r q) :=
  (h.foldl _ fun _ _ h => h.setStreamReg).releaseStart.setPort.dropPins

theorem Canonical.sunb {q : BitVec 3} (h : Canonical s) (e : execSunb q s = .next t) : Canonical t := by
  cases e
  refine h.threadCertain fun f c s h => ?_
  split
  · exact h.setCtx
  · refine h.stall.ite ?_
    split
    · exact h.unbind.modCtx
    · exact h.stall.ite (h.stall.ite h.unbind.modCtx)

theorem Canonical.sqwait {d : BitVec 5} {q : BitVec 3} {b : BitVec 5} (h : Canonical s) (e : execSqwait d q b s = .next t) :
    Canonical t := by
  cases e
  refine h.threadOnly fun f c s h => h.stall.ite ?_
  split
  · exact h.trapHere
  · exact h.setCtx.ite h.stall

theorem Canonical.completeGang {ms : List Nat} (h : Canonical s) : Canonical (completeGang ms s) := h.foldl _ fun _ _ h => h.modCtx

theorem Canonical.gang {d a b : BitVec 5} (h : Canonical s) (e : execGang d a b s = .next t) : Canonical t := by
  cases e
  refine h.threadCertain fun f c s h => ?_
  split
  · exact h.trapHere.ite h.stall
  · exact h.trapHere.ite (h.setCtx.stall.ite h.setCtx.completeGang)

theorem Canonical.ungang (h : Canonical s) (e : execUngang s = .next t) : Canonical t := by
  cases e
  exact h.threadCertain fun f c s h => h.trapHere.ite (h.trapHere.ite h.setCtx)

/-! ### Fences, counters and job cards -/

theorem Canonical.fence {whole : Bool} {x : BitVec 16} (h : Canonical s) : Canonical (fence whole x s) :=
  h.trapHere.ite (h.scalar fun _ _ _ h => h.stall.ite h.setCtx)

theorem Canonical.matChecked {k : State → State} (h : Canonical s) (hk : ∀ t, Canonical t → Canonical (k t)) :
    Canonical (matChecked f c s k) := by
  unfold Machine.matChecked
  split
  · exact h.setCtx.trapHere.ite h.stall
  · exact hk _ h

theorem Canonical.withAppended {l : List Appended} (h : Canonical s) : Canonical { s with appended := l } := h.same rfl

theorem Canonical.appendCard {l : Loc} {flat : Option Nat} {det : Bool} (h : Canonical s) :
    Canonical (appendCard s part die n a l flat det).1 := by
  unfold Machine.appendCard
  have h2 {tail : Nat} : Canonical (if tail ≠ 0 then ((s.store l 8 0).ringStore part false tail 8 a).getD (s.store l 8 0) else s.store l 8 0) :=
    h.store.ringStoreD.ite h.store
  dsimp only
  exact (h2.setReg.ite h2).setReg.setReg.withAppended

theorem Canonical.chapp {d a b : BitVec 5} (h : Canonical s) (e : execChapp d a b s = .next t) : Canonical t := by
  cases e
  refine h.threadCertain fun f c s h => h.trapHere.ite (h.trapHere.ite ?_)
  split
  · exact h.noteWalk.trapHere
  · exact h.stall.ite (h.trapHere.ite (Canonical.ite (h.addPins.ite h).stall
      (h.trapHere.ite (h.dropPins.trapHere.ite h.dropPins.appendCard.setCtx))))

/-! ### Views and tags -/

theorem Canonical.vwset {n : BitVec 4} {a : BitVec 5} {v : BitVec 4} (h : Canonical s) (e : execVwset n a v s = .next t) : Canonical t := by
  cases e
  refine h.threadOnlyChecked fun f c s h => ?_
  split
  · exact h.trapHere
  · split
    · exact h.noteAccess.trapHere
    · refine h.stall.ite (h.stall.ite (h.stall.ite (h.stall.ite (h.trapHere.ite (h.trapHere.ite (h.noteAccess.setCtx.watchScalar.ite ?_))))))
      split
      · exact h.stall
      · exact h.noteAccess.setCtx.watchScalar

theorem Canonical.tset {d a b : BitVec 5} (h : Canonical s) (e : execTset d a b s = .next t) : Canonical t := by
  cases e
  exact h.threadCertain fun f c s h => h.trapHere.ite (h.stall.ite
    (h.foldl _ fun _ _ h => h.setTagValue.ite h).setTagValue.setCtx)

/-! ### Groups and the end of a context -/

theorem Canonical.settleGroup (h : Canonical s) : Canonical (s.settleGroup part g) := (h.foldl _ fun _ _ h => h.modCtx).ite h
theorem Canonical.leaveGroup (h : Canonical s) : Canonical (s.leaveGroup f g) := h.modCtx.settleGroup

theorem Canonical.unbindAll (h : Canonical s) : Canonical (s.unbindAll f) :=
  h.foldl _ fun _ _ h => by
    split
    · exact h.unbind
    · exact h

theorem Canonical.disown (h : Canonical s) : Canonical (s.disown f) := h.same rfl

theorem Canonical.freeContext (h : Canonical s) : Canonical (s.freeContext f) :=
  (h.unbindAll.disown.foldl _ fun _ _ h => h.leaveGroup).modCtx

theorem Canonical.endThread (h : Canonical s) : Canonical (s.endThread f code) := by
  unfold State.endThread
  dsimp only
  refine (Canonical.modCtx (Canonical.ite ?_ (Canonical.modCtx ?_))).freeContext
  all_goals
    split
    · exact h.setLaunch
    · exact h

theorem Canonical.yield (h : Canonical s) (e : execYield s = .next t) : Canonical t := by
  cases e
  exact h.threadOnly fun _ _ _ h => h.setCtx.modMill.ite h.setCtx

theorem Canonical.forkl {d a : BitVec 5} (h : Canonical s) (e : execForkl d a s = .next t) : Canonical t := by
  cases e
  refine h.threadCertain fun f c s h => h.trapHere.ite (h.setCtx.ite ?_)
  split
  · exact h.setCtx
  · exact h.stall.ite h.setCtx.setCtx

theorem Canonical.joinl {a : BitVec 5} (h : Canonical s) (e : execJoinl a s = .next t) : Canonical t := by
  cases e
  refine h.threadCertain fun f c s h => ?_
  refine Canonical.ite (h.trapHere.ite (h.stall.ite ?_)) ?_
  · split
    · exact h.setCtx.trapHere
    · exact h.setCtx.endThread
  · split
    · exact h.trapHere
    · exact h.setCtx.ite h.stall

theorem Canonical.csrAccess {write : Bool} {new : Dword → Dword → Dword} {d a : BitVec 5} {k : BitVec 12} (h : Canonical s) :
    Canonical (csrAccess write new d a k s) := by
  unfold Machine.csrAccess
  dsimp only
  split
  · exact h.trapGroup
  · refine h.checked fun f c s h => ?_
    split
    · exact h
    · exact h.stall.ite (h.stall.ite h.setCtx)

theorem Canonical.haltContext (h : Canonical s) : Canonical (haltContext code s) :=
  h.scalar fun f c s h => h.stall.ite (by
    split
    · exact h.setCtx.trapHere
    · exact h.matChecked fun s h => h.setCtx.endThread.ite h.stall)

end Sys2Proof.Proofs
end

section
/-! SUPPORT. The invariant of every step, continued: matrix operations, queues, and engines. -/

namespace Sys2Proof.Proofs

open Sys2Proof Sys2Proof.Machine Sys2Proof.Laws Sys2Proof.Safety

variable {s t : State} {f g k m n p q off part die slot a b v pc code mill : Nat} {c : Ctx}

/-! ### Matrix operations -/

theorem Canonical.matrixOp {am : BitVec 4} {checks : Ctx → List Issue → List (Bool × Trap)} {kind : Ctx → MatKind}
    {upd : Ctx → Issue → Issue} (h : Canonical s) : Canonical (matrixOp am a checks kind upd s) :=
  h.coreOnly fun _ _ _ h => h.stall.ite (h.foldl _ fun _ _ h => h.modMill).setCtx

theorem Canonical.msig {a : BitVec 5} {i : BitVec 6} (h : Canonical s) (e : execMsig a i s = .next t) : Canonical t := by
  cases e
  exact h.coreOnly fun _ _ _ h => h.matChecked fun _ h => h.setCtx

theorem Canonical.mwait {a : BitVec 5} (h : Canonical s) (e : execMwait a s = .next t) : Canonical t := by
  cases e
  exact h.coreOnly fun _ _ _ h => h.matChecked fun _ h => h.stall.ite h.setCtx

theorem Canonical.mmaRows {o : MmaMode} {z : Bool} (h : Canonical s) : Canonical (mmaRows o k off z mill n s).1 := h.setMill

theorem Canonical.runMatrix {op : MatOp} {top : Nat} (h : Canonical s) : Canonical (runMatrix op mill top s).1 := by
  unfold Machine.runMatrix
  dsimp only
  cases op.kind with
  | carryIn t off => dsimp only; split; exacts [h, h.setMill]
  | carryOut t off => dsimp only; split; exacts [h, h.writeScr _ _ _]
  | tileOut t off => exact h.writeScr _ _ _
  | mma t off z => exact h.mmaRows
  | mma64 t off z => exact h.mmaRows
  | zero | loadPlane | swap | scan | tileIn | rows | cols => exact h.setMill

theorem Canonical.drawElement {row col : Nat} (h : Canonical s) : Canonical (s.drawElement mill row col) := by
  unfold State.drawElement
  split
  · exact h
  · dsimp only
    split
    · exact h
    · exact h.ite h.setMill.raiseFlags

theorem Canonical.completeMatrix {fail : Option Nat} (h : Canonical s) : Canonical (s.completeMatrix mill fail) := by
  unfold State.completeMatrix
  dsimp only
  split
  · exact h
  · refine h.ite ?_
    split
    · exact h.runMatrix.modMill.raiseFlags
    · exact h.runMatrix.modMill.modCtx.raiseFlags

/-! ### Queues -/

theorem Canonical.writeBlock (h : Canonical s) : Canonical (s.writeBlock die slot off v) := h.ringStoreD
theorem Canonical.settleDone (h : Canonical s) : Canonical (s.settleDone die slot) := h.setQueue.writeBlock.ite h
theorem Canonical.setBook {b : Book} (h : Canonical s) : Canonical (s.setBook b) := h.same rfl
theorem Canonical.withBooks {l : List Book} (h : Canonical s) : Canonical { s with books := l } := h.same rfl

theorem Canonical.completeCommand {block : Nat} (h : Canonical s) : Canonical (s.completeCommand part block k) := by
  unfold State.completeCommand
  split
  · exact h.modQueue.settleDone
  · split
    · exact h
    · exact h.setBook.ringStoreD.ite h.setBook

theorem Canonical.pendFault {block : Nat} {x : Trap} (h : Canonical s) : Canonical (s.pendFault part block x) := by
  unfold State.pendFault
  split
  · exact h.modQueue
  · cases s.book part block with
    | none => exact h
    | some b => exact h.setBook

theorem Canonical.saveBlock (h : Canonical s) : Canonical (s.saveBlock die slot) :=
  ((h.foldl _ fun _ _ h => h.writeBlock).foldl _ fun _ _ h => h.writeBlock).writeBlock.writeBlock.writeBlock.writeBlock

theorem Canonical.stopQueue (h : Canonical s) : Canonical (s.stopQueue die slot) := h.modQueue.saveBlock

theorem Canonical.boundary (h : Canonical s) : Canonical (s.boundary die slot) := by
  unfold State.boundary
  exact (h.modQueue.stopQueue.ite h.modQueue).modQueue

theorem Canonical.faultQueue {stage2 : Bool} (h : Canonical s) : Canonical (s.faultQueue die slot code stage2) :=
  have hs := h.setQueue.stopQueue.boundary.interrupt
  hs.interrupt.ite hs

theorem Canonical.holdQueue {x : Option Nat} (h : Canonical s) : Canonical (s.holdQueue die slot k x) := h.modQueue.ite h.modQueue.boundary

theorem Canonical.loadBlock {first : Bool} (h : Canonical s) : Canonical (s.loadBlock die slot first) := by
  unfold State.loadBlock
  dsimp only
  split
  · exact h.setQueue
  · exact h.withBooks.setQueue

theorem Canonical.unbindQueue (h : Canonical s) : Canonical (s.unbindQueue die slot) := h.modQueue
theorem Canonical.withLaunches {l : Assoc Launch} (h : Canonical s) : Canonical { s with launches := l } := h.same rfl

theorem Canonical.settleLaunching (h : Canonical s) : Canonical (s.settleLaunching die slot) := by
  unfold State.settleLaunching
  dsimp only
  split
  · exact h
  · split
    · exact h.setQueue
    · exact h.withLaunches.setQueue.ite h.setQueue

theorem Canonical.leaveSlot (h : Canonical s) : Canonical (s.leaveSlot die slot) :=
  h.ite (h.settleLaunching.stopQueue.ite h.settleLaunching).withBooks.unbindQueue

theorem Canonical.leaveOther (h : Canonical s) : Canonical (s.leaveOther die slot part) := by
  unfold State.leaveOther
  split
  · exact h.ite h.leaveSlot
  · exact h

theorem Canonical.bindQueue (h : Canonical s) : Canonical (s.bindQueue die slot) :=
  h.holdQueue.ite (h.leaveOther.setQueue.loadBlock.ite (h.leaveOther.setQueue.interrupt.ite
    (h.holdQueue.interrupt.ite (h.setQueue.ite h.setQueue.loadBlock))))

theorem Canonical.clearHold (h : Canonical s) : Canonical (s.clearHold die slot) := h.ite (h.setQueue.loadBlock.ite h.setQueue)

/-- What a turn finds, in a canonical state. -/
def CanonicalFetched : Fetched → Prop
  | .idle => True
  | .word t _ _ _ | .stopped t => Canonical t

theorem Canonical.fetchCommand (h : Canonical s) : CanonicalFetched (s.fetchCommand die slot a) := by
  unfold State.fetchCommand
  dsimp only
  split
  · trivial
  · split
    · exact h.faultQueue
    · exact h.noteWalk.noteWalk

theorem Canonical.nextCommand (h : Canonical s) : CanonicalFetched (s.nextCommand die slot) := by
  unfold State.nextCommand
  dsimp only
  split
  · trivial
  · split
    · exact h.faultQueue
    · split
      · exact h.fetchCommand
      · split
        · exact h.faultQueue
        · trivial
        · split
          · exact h.setQueue.holdQueue
          · split
            · exact h.setQueue.faultQueue
            · split
              · trivial
              · have hf {q : Queue} {b : Nat} := (h.setQueue (die := die) (slot := slot) (x := q)).fetchCommand (die := die) (slot := slot) (a := b)
                split
                · rename_i e
                  have hw := e ▸ hf
                  split
                  · trivial
                  · exact hw
                · exact hf

/-- The end of a command in a canonical state. -/
def CanonicalEnd : CmdEnd → Prop
  | .done t | .running t | .jump t | .wait t => Canonical t
  | .fault _ _ | .outside | .halt _ => True

theorem Canonical.command {k : Nat → Nat → Queue → State → CmdEnd} (h : Canonical s)
    (hk : ∀ die slot q t, Canonical t → CanonicalEnd (k die slot q t)) : Canonical (command n k s) := by
  unfold Machine.command
  split
  · rename_i die slot e
    have he := hk die slot (s.queue die slot) s h
    split <;> rename_i e' <;> rw [e'] at he
    · exact (Canonical.modQueue he).settleDone.boundary
    · exact (Canonical.modQueue he).settleDone.boundary
    · exact (Canonical.modQueue he).settleDone.boundary
    · exact Canonical.modQueue he
    · exact h.faultQueue
    · exact h.modQueue.holdQueue
    · exact h.modQueue.settleDone.stopQueue.boundary
  · exact h.trapHere
  · exact h.trapGroup
  · exact h

/-! ### Engines -/

theorem Canonical.setJob {j : Job} (h : Canonical s) : Canonical (s.setJob j) := h.same rfl
theorem Canonical.withJobs {l : List Job} (h : Canonical s) : Canonical { s with jobs := l } := h.same rfl
theorem Canonical.withFolds {l : List FoldSlot} (h : Canonical s) : Canonical { s with folds := l } := h.same rfl
theorem Canonical.withFoldsHeld {l : List FoldSlot} {l' : List Contribution} (h : Canonical s) :
    Canonical { s with folds := l, held := l' } := h.same rfl
theorem Canonical.withHeld {l : List Contribution} (h : Canonical s) : Canonical { s with held := l } := h.same rfl

theorem Canonical.withJobsHeld {l : List Job} {l' : List Contribution} (h : Canonical s) : Canonical { s with jobs := l, held := l' } :=
  h.same rfl

variable {j : Job}

theorem Canonical.writeRecord {bytes seq : Nat} (h : Canonical s) : Canonical (s.writeRecord j k n bytes seq) := by
  unfold State.writeRecord
  dsimp only
  split
  · split
    · exact h.ringStore ‹_›
    · exact h.setField
  · exact h

theorem Canonical.completeJob {fault bytes : Nat} (h : Canonical s) : Canonical (s.completeJob j k fault bytes) := by
  unfold State.completeJob
  dsimp only
  split
  · exact h.raise.writeRecord.bump.dropPins.withJobsHeld
  · exact h.freshNumber.writeRecord.bump.dropPins.withJobsHeld

theorem Canonical.stopChain (h : Canonical s) : Canonical (s.stopChain part die k) := h.setField.interrupt
theorem Canonical.popCard {card : Line} (h : Canonical s) : Canonical (s.popCard part die k a card) := h.setReg.withAppended
theorem Canonical.signalled {x : Trap} (h : Canonical s) : Canonical (s.signalled part x) := h.interrupt.ite h

theorem Canonical.withJobsNext {l : List Job} (h : Canonical s) : Canonical { s with nextJob := n, jobs := l } := h.same rfl

theorem Canonical.startJob (h : Canonical s) : Canonical (s.startJob part die k) := by
  unfold State.startJob
  dsimp only
  refine h.ite ?_
  split
  · exact h.stopChain
  · split
    · exact h.stopChain
    · have h1 {ps : List Nat} {a n : Nat} {card : Line} {l : List Job} :
          Canonical { (ps.foldl (fun s a => s.noteWalk part a) s).popCard part die k a card with nextJob := n, jobs := l } :=
        (h.foldl _ fun _ _ h => h.noteWalk).popCard.withJobsNext
      refine h1.ite (h1.ite ?_)
      split
      · exact h1.signalled
      · exact h1.ite (h1.ite (h.ite h1.addPins))

theorem Canonical.runElements (h : Canonical s) : Canonical (State.runElements j n k s).1 := by
  induction n generalizing k s with
  | zero => exact h
  | succ n ih =>
    unfold State.runElements
    dsimp only
    split
    · exact h
    · exact h
    · exact ih h.store

theorem Canonical.settleSend {c : Contribution} (h : Canonical s) : Canonical (s.settleSend c k) := by
  unfold State.settleSend
  split
  · exact h.answer
  · split
    · exact h.setJob
    · exact h

theorem Canonical.deliver {x : FoldSlot} {c : Contribution} (h : Canonical s) : Canonical (s.deliver x c) :=
  h.withFolds.settleSend.ite h.settleSend

theorem Canonical.openSlot (h : Canonical s) : Canonical (s.openSlot j) := by
  unfold State.openSlot
  dsimp only
  split
  · exact h
  · refine h.setJob.withFoldsHeld.foldl _ fun _ _ h => ?_
    split
    · exact h.deliver
    · exact h

theorem Canonical.openSlots (h : Canonical s) : Canonical s.openSlots := h.foldl _ fun _ _ h => h.openSlot

theorem Canonical.runReceive {got : List Contribution} (h : Canonical s) : Canonical (State.runReceive j got n k s).1 := by
  induction n generalizing k s with
  | zero => exact h
  | succ n ih =>
    unfold State.runReceive
    split
    · exact h
    · exact ih h.store

theorem Canonical.pinAgain_ok (h : Canonical s) (e : s.pinAgain j = .ok t) : Canonical t := by
  unfold State.pinAgain at e
  split at e
  · cases e; exact h
  · split at e
    · cases e
    · split_ifs at e
      cases e; exact h.addPins

theorem Canonical.pinAgain_error {o : Nat × Nat} (h : Canonical s) (e : s.pinAgain j = .error (some (t, o))) : Canonical t := by
  unfold State.pinAgain at e
  split at e
  · cases e
  · split at e
    · cases e; exact h.signalled
    · split_ifs at e <;> cases e
      exact h

theorem Canonical.performSome (h : Canonical s) : Canonical (s.performSome j n) := by
  unfold State.performSome
  dsimp only
  refine h.ite ?_
  split
  · exact h
  · exact (h.pinAgain_error ‹_›).setJob
  · exact h.ite (h.pinAgain_ok ‹_›).runElements.setJob

theorem Canonical.finishJob (h : Canonical s) : Canonical (s.finishJob j n) := by
  unfold State.finishJob
  dsimp only
  split
  · exact h.completeJob
  · refine h.ite (Canonical.ite (h.completeJob.ite (h.completeJob.ite h)) ?_)
    split
    · exact h
    · exact (h.pinAgain_error ‹_›).completeJob
    · have ht := h.pinAgain_ok ‹_›
      refine h.ite (Canonical.ite ?_ ht.runElements.completeJob)
      split
      · exact ht
      · exact ht.ite ht.runReceive.completeJob.withFolds

theorem Canonical.jobComplete (h : Canonical s) (e : execJobComplete k n s = .next t) : Canonical t := by
  cases e
  split
  · exact h
  · exact h.ite h.finishJob.openSlots

theorem Canonical.foldContribution (h : Canonical s) (e : execFoldContribution k s = .next t) : Canonical t := by
  cases e
  split
  · exact h
  · refine h.ite ?_
    split
    · exact h
    · exact (h.pinAgain_error ‹_›).setJob
    · have ht := h.pinAgain_ok ‹_›
      refine h.ite ?_
      dsimp only
      split
      · exact h.setJob
      · refine Canonical.ite (h.setJob.ite (h.setJob.ite ht.setJob)) ?_
        split
        · exact ht.deliver
        · exact ht.ite ht.withHeld

end Sys2Proof.Proofs
end

section
/-! SUPPORT. The invariant of every step, continued: images, the placement and end of launches, and the context window. -/

namespace Sys2Proof.Proofs

open Sys2Proof Sys2Proof.Machine Sys2Proof.Laws Sys2Proof.Safety

variable {s t : State} {f g k m n p q off part die slot a b v pc code mill : Nat} {c : Ctx} {l : Launch} {i : Image}

/-! ### Settling before an image -/

theorem Canonical.settleCore (h : Canonical s) : Canonical (State.settleCore f n s) := by
  induction n generalizing s with
  | zero => exact h
  | succ n ih =>
    unfold State.settleCore
    refine (ih h.raiseNext).ite ?_
    split
    · exact ih h.completeMatrix
    · exact h.ite (ih h.completeEntry)

theorem Canonical.settleImage (h : Canonical s) : Canonical (s.settleImage f) :=
  Canonical.settleStreams (h.settleCore.ite h.drainXq)

/-! ### Launches -/

theorem Canonical.copyIn (h : Canonical s) : Canonical (s.copyIn part k a n b) := by
  induction k generalizing s a n b with
  | zero => exact h
  | succ k ih =>
    unfold State.copyIn
    dsimp only
    split_ifs
    · exact h
    · refine ih ?_
      split
      · exact h
      · exact h.withScr (wf_writeBytes _ _ (wf_clear _ _ h.scr))

theorem Canonical.fillMill (h : Canonical s) : Canonical (s.fillMill l mill k n) :=
  h.copyIn.withScr (wf_writeBytes _ _ (wf_write _ _ _ (wf_write _ _ _ (wf_write _ _ _ (wf_write _ _ _ (wf_write _ _ _
    (wf_clear _ _ h.copyIn.scr)))))))

theorem Canonical.startThreads {ps : List (Nat × Nat)} (h : Canonical s) : Canonical (s.startThreads k l ps) :=
  h.foldl _ fun _ _ h => h.modCtx

theorem Canonical.takeMills {ms : List Nat} (h : Canonical s) : Canonical (s.takeMills k ms) := h.same rfl

theorem Canonical.placeFirst (h : Canonical s) : Canonical (s.placeFirst k l) :=
  ((h.foldl _ fun _ _ h => h.fillMill).foldl _ fun _ _ h => h.startThreads).takeMills.setLaunch

theorem Canonical.placeNext (h : Canonical s) : Canonical (s.placeNext k l) := by
  unfold State.placeNext
  split
  · exact h
  · exact (h.ite h.fillMill.takeMills).startThreads.setLaunch

theorem Canonical.writeStatus {x : Option Nat} (h : Canonical s) : Canonical (s.writeStatus l x) := by
  unfold State.writeStatus
  split
  · exact h
  · dsimp only
    split
    · exact h.pendFault
    · split
      · exact h.pendFault
      · split
        · exact h.pendFault
        · exact h.noteWalk.withDev (wf_write _ _ _ h.dev)

theorem Canonical.finishLaunch (h : Canonical s) : Canonical (s.finishLaunch k l) := by
  unfold State.finishLaunch
  have h1 := (h.withLaunches (l := s.launches.erase k)).writeStatus (l := l) (x := l.status)
  split
  · exact h1.completeCommand
  · exact h1.writeStatus.ite h1.writeStatus.completeCommand.completeCommand

theorem Canonical.launchPlaceRange (h : Canonical s) (e : execLaunchPlaceRange k s = .next t) : Canonical t := by
  cases e
  refine h.answer.ite ?_
  split
  · exact h
  · refine h.ite ?_
    split
    · exact h.placeFirst
    · exact h.placeNext

theorem Canonical.launchComplete (h : Canonical s) (e : execLaunchComplete k s = .next t) : Canonical t := by
  cases e
  split
  · exact h
  · exact h.finishLaunch.ite h

/-! ### The context window -/

theorem Canonical.setErr (h : Canonical s) : Canonical (s.setErr part k) := h.setField
theorem Canonical.setPending (h : Canonical s) : Canonical (s.setPending part k f) := h.setReg
theorem Canonical.setBusy (h : Canonical s) : Canonical (s.setBusy part v) := h.setField

/-- The end of a command of the context window in a canonical state. -/
def CanonicalCx : State.CxEnd → Prop
  | .refused _ => True
  | .done t | .later t => Canonical t

theorem Canonical.cxEnd {r : State.CxEnd} (h : Canonical s) (hr : CanonicalCx r) : Canonical (s.cxEnd part k f r) := by
  cases r with
  | refused e => exact h.setErr
  | done t => exact Canonical.setBusy (Canonical.setErr hr)
  | later t => exact Canonical.setPending (Canonical.setBusy (Canonical.setErr hr))

theorem Canonical.cxCommand {x : Nat → Ctx → State.CxEnd} (h : Canonical s) (hx : ∀ f c, CanonicalCx (x f c)) :
    Canonical (s.cxCommand part k x) :=
  h.ite (h.cxEnd (by
    split
    · exact hx _ _
    · trivial))

theorem Canonical.preempt (h : Canonical s) : Canonical (s.preempt f) := h.stopLate.ite h.settleImage.setCtx.releasePins

theorem Canonical.writeImage {physical : Bool} (h : Canonical s) : Canonical (s.writeImage part physical a i n) :=
  (h.foldl _ fun _ _ h => h.ringStoreD).foldl _ fun _ _ h => h.ringStoreD

theorem Canonical.withClaims {x : List Away} {js : List Job} {l : List Appended} (h : Canonical s) :
    Canonical { s with away := x, jobs := js, appended := l } := h.same rfl

theorem Canonical.freeSaved (h : Canonical s) : Canonical (s.freeSaved f) := by
  refine Canonical.withClaims (Canonical.modCtx (Canonical.freshNumber (h.foldl _ fun _ _ h => ?_)))
  split
  · exact h.unbind.ite h.setStreamReg
  · exact h

theorem Canonical.saveAt (h : Canonical s) (e : s.saveAt part f a = some t) : Canonical t := by
  simp only [State.saveAt, Option.ite_none_left_eq_some, Option.some.injEq] at e
  obtain ⟨-, rfl⟩ := e
  exact h.settleImage.writeImage.freeSaved

theorem Canonical.restoreStream (h : Canonical s) : Canonical (s.restoreStream f i q) := by
  unfold State.restoreStream
  dsimp only
  refine h.ite (Canonical.ite ?_ h.setPort.setStreamReg)
  split
  · exact h.setStreamReg.modBinding
  · exact h.setPort.setStreamReg

theorem Canonical.rewriteStream (h : Canonical s) : Canonical (s.rewriteStream f i q) := by
  unfold State.rewriteStream
  split
  · exact h.restoreStream
  · exact h.setStreamReg.modBinding.ite h.unbind.restoreStream

theorem Canonical.relink (h : Canonical s) : Canonical (s.relink f k n) := by
  unfold State.relink
  dsimp only
  refine Canonical.foldl (h.ite ?_) _ fun _ _ h => h.modCtx.modCtx
  split
  · exact h.modCtx.modCtx
  · exact h.modCtx

theorem Canonical.reclaim {x : Option Away} (h : Canonical s) : Canonical (s.reclaim x f) := by
  unfold State.reclaim
  split
  · exact h
  · exact h.withClaims

theorem Canonical.alignGang (h : Canonical s) : Canonical (s.alignGang f) := by
  unfold State.alignGang
  exact h.modCtx

theorem Canonical.holdRestored (h : Canonical s) : Canonical (s.holdRestored f) :=
  h.foldl _ fun _ _ h => by
    split
    · exact h
    · exact h.modCtx

theorem Canonical.completeSet {x : Option Nat} (h : Canonical s) : Canonical (s.completeSet f x) := by
  unfold State.completeSet
  split
  · exact h
  · exact (h.foldl _ fun _ _ h => h.modCtx).ite h

theorem Canonical.restoreThread (h : Canonical s) (e : s.restoreThread part f i = some t) : Canonical t := by
  unfold State.restoreThread at e
  dsimp only at e
  split_ifs at e
  cases e
  exact (Canonical.foldl h.setCtx.alignGang _ fun _ _ h => h.restoreStream).holdRestored.relink.reclaim.completeSet

theorem Canonical.loadCore (h : Canonical s) : Canonical (s.loadCore f i c) := (h.foldl _ fun _ _ h => h.modMill).setCtx

theorem Canonical.restoreCore (h : Canonical s) (e : s.restoreCore part f i = some t) : Canonical t := by
  unfold State.restoreCore at e
  dsimp only at e
  split_ifs at e
  cases e
  exact h.loadCore.reclaim

theorem Canonical.restoreImage (h : Canonical s) (e : s.restoreImage part f i = .ok t) : Canonical t := by
  unfold State.restoreImage at e
  split at e
  · cases e
  · split at e <;> cases e
    rename_i _ e
    split at e
    · exact h.restoreCore e
    · exact h.restoreThread e

theorem Canonical.restoreAt (h : Canonical s) (e : s.restoreAt part f a = .ok t) : Canonical t := by
  unfold State.restoreAt at e
  dsimp only at e
  split_ifs at e
  exact h.restoreImage e

theorem Canonical.repin {x : StreamReg × Nat × List Pin} (h : Canonical s) : Canonical (s.repin die x) := h.addPins.modBinding

theorem Canonical.resume {stepping : Bool} (h : Canonical s) : CanonicalCx (s.resume f stepping) := by
  unfold State.resume
  dsimp only
  split
  · exact h.setCtx.ringTrap
  · split_ifs
    · exact h
    · exact (h.foldl _ fun _ _ h => h.repin).setCtx.withJobs

theorem Canonical.writeThread {v : Dword} (h : Canonical s) : Canonical (s.writeThread f k i v) :=
  h.setCtx.completeSet.ite ((h.setCtx.foldl _ fun _ _ h => h.rewriteStream).ite h.setCtx)

theorem Canonical.cxWrite {v : Dword} (h : Canonical s) : Canonical (s.cxWrite part v) := by
  unfold State.cxWrite
  refine h.setErr.ite ?_
  split
  · exact h.setErr
  · exact h.setErr.ite (h.setErr.ite h.modCtx.setErr)
  · exact h.settleImage.setErr.ite (h.settleImage.loadCore.modCtx.ite h.settleImage.writeThread).setErr

theorem Canonical.cxRead (h : Canonical s) : Canonical (s.cxRead part) := by
  unfold State.cxRead
  refine h.setErr.ite ?_
  split
  · exact h.setErr
  · exact h.setErr.ite h.answer.setErr
  · exact h.settleImage.setErr.ite h.settleImage.answer.setErr

theorem Canonical.debugDrained (h : Canonical s) : Canonical (s.debugDrained f) := h.debugStop.ite h

theorem Canonical.cancelJob {j : Job} (h : Canonical s) : Canonical (s.cancelJob j) := h.completeJob.withFolds

theorem Canonical.killJobs (h : Canonical s) : Canonical (s.killJobs f) :=
  (h.foldl _ fun _ _ h => h.cancelJob).withAppended.openSlots

theorem Canonical.withKills {ks : List Nat} (h : Canonical s) : Canonical { s with kills := ks } := h.same rfl

theorem Canonical.killContext (h : Canonical s) : Canonical (s.killContext n f) := by
  induction n generalizing s f with
  | zero => exact h
  | succ n ih =>
    unfold State.killContext
    have h1 {ks : List Nat} : Canonical (ks.foldl (fun s g => s.killContext n g) s) := h.foldl _ fun _ _ h => ih h
    refine h.ite (Canonical.ite ?_ (Canonical.withKills ?_))
    all_goals exact ((h1.foldl _ fun _ _ h => h.modMill).ite h1).modCtx.unbindAll.killJobs.releasePins.modCtx

theorem Canonical.freeKilled (h : Canonical s) : Canonical (s.freeKilled f) := by
  unfold State.freeKilled
  dsimp only
  refine h.withKills.ite (Canonical.freeContext (Canonical.ite ?_ (Canonical.modCtx ?_)))
  all_goals
    split
    · exact h.withKills.setLaunch
    · exact h.withKills

theorem Canonical.cxSave (h : Canonical s) : CanonicalCx (s.cxSave part f) := by
  unfold State.cxSave
  split_ifs
  · trivial
  · exact h
  · split
    · trivial
    · exact h.saveAt ‹_›

theorem Canonical.cxResume {stepping : Bool} (h : Canonical s) : CanonicalCx (s.cxResume f stepping) := by
  unfold State.cxResume
  split
  · exact h.resume
  · trivial

theorem Canonical.cxStop (h : Canonical s) (e : execCxStop part s = .next t) : Canonical t := by
  cases e
  refine h.cxCommand fun f c => ?_
  split_ifs
  · trivial
  · exact h
  · exact h.preempt

theorem Canonical.cxRestore (h : Canonical s) (e : execCxRestore part s = .next t) : Canonical t := by
  cases e
  refine h.cxCommand fun f c => ?_
  split_ifs
  · trivial
  · split
    · trivial
    · exact h.restoreAt ‹_›

theorem Canonical.cxCommandComplete (h : Canonical s) (e : execCxCommandComplete part s = .next t) : Canonical t := by
  cases e
  have again : ∀ r, CanonicalCx r → Canonical (match (r : State.CxEnd) with
      | .later _ => s
      | .refused e => ((s.setErr part e).setPending part 0 0).setBusy part 0
      | .done s1 => (s1.setPending part 0 0).setBusy part 0) := by
    intro r hr
    cases r with
    | refused e => exact h.setErr.setPending.setBusy
    | done t => exact Canonical.setBusy (Canonical.setPending hr)
    | later t => exact h
  dsimp only
  split
  · exact h.ite (h.stopLate.ite h).setPending.setBusy
  · exact again _ h.cxSave
  · exact again _ h.cxResume
  · exact again _ h.cxResume
  · exact h.setBusy

theorem Canonical.debugStopCmd (h : Canonical s) (e : execDebugStopCmd part s = .next t) : Canonical t := by
  cases e
  exact h.setErr.ite (h.setErr.ite (h.ite (h.stopLate.ite h.modCtx)))

theorem Canonical.breakpointHit (h : Canonical s) (e : execBreakpointHit f s = .next t) : Canonical t := by
  cases e
  dsimp only
  split
  · exact (h.setCtx.ite h.setCtx.debugDrained).ite h
  · exact h

theorem Canonical.kill (h : Canonical s) (e : execKill part f s = .next t) : Canonical t := by
  cases e
  exact h.ite (h.setReg.withKills.ite h.setReg.killContext)

theorem Canonical.killDone (h : Canonical s) (e : execKillDone part s = .next t) : Canonical t := by
  cases e
  have h1 {ks : List Nat} : Canonical (ks.foldl (fun s f => s.freeKilled f) s) := h.foldl _ fun _ _ h => h.freeKilled
  exact h1.ite h1.setField

end Sys2Proof.Proofs
end

section
/-! SUPPORT. The invariant of every step, continued: registers, partitions and power, the lease and the hold state, and requests from outside. -/

namespace Sys2Proof.Proofs

open Sys2Proof Sys2Proof.Machine Sys2Proof.Laws Sys2Proof.Safety

variable {s t : State} {f g k m n p q off part die slot a b v pc code mill d : Nat} {c : Ctx} {stage2 : Bool}

/-! ### Tables of agents and memories that are built anew -/

theorem Canonical.filterAgents {keep : Nat × Ctx → Bool} (h : Canonical s) : ((s.agents.filter keep).map (·.1)).Pairwise (· < ·) :=
  h.agents.sublist (List.filter_sublist.map _)

theorem Canonical.mapAgents {x : Nat × Ctx → Nat × Ctx} (h : Canonical s) (hx : ∀ e, (x e).1 = e.1) :
    ((s.agents.map x).map (·.1)).Pairwise (· < ·) := by
  simpa only [List.map_map, Function.comp_def, hx] using h.agents

theorem wf_shift {x : Mem} {lo : Nat} (h : Mem.wf x = true) (hlo : ∀ e ∈ x, lo ≤ e.1) : Mem.wf (x.map fun e => (e.1 - lo, e.2)) = true := by
  induction x with
  | nil => rfl
  | cons e x ih =>
    obtain ⟨hb, hk, hx⟩ := wf_cons.1 h
    have hlo' : ∀ e ∈ x, lo ≤ e.1 := fun e he => hlo e (List.mem_cons_of_mem _ he)
    refine wf_cons.2 ⟨hb, fun e' he' => ?_, ih hx hlo'⟩
    obtain ⟨e0, he0, rfl⟩ := List.mem_map.1 he'
    have h1 := hk e0 he0
    have h2 := hlo e List.mem_cons_self
    show e.1 - lo < e0.1 - lo
    omega

theorem Canonical.cellsIn {lo n : Nat} (h : Canonical s) : (s.cellsIn lo n).wf = true :=
  wf_shift (wf_filter _ h.dev) fun e he => by
    have hk := (List.mem_filter.1 he).2
    simp only [Bool.and_eq_true, decide_eq_true_eq] at hk
    exact hk.1

/-! ### Registers -/

theorem Canonical.writeRegmap {hi : Bool} {x : Dword} (h : Canonical s) : Canonical (s.writeRegmap hi x) := h.ite h.setReg
theorem Canonical.withRegulators {x : Assoc Nat} (h : Canonical s) : Canonical { s with regulators := x } := h.same rfl
theorem Canonical.moveBay (h : Canonical s) : Canonical (s.moveBay b) := h.withRegulators.ite h
theorem Canonical.bindSlot (h : Canonical s) : Canonical (s.bindSlot die slot) := h.ite h.bindQueue
theorem Canonical.withTiers {x : Assoc Granule} (h : Canonical s) : Canonical { s with tiers := x } := h.same rfl

theorem Canonical.registerWrite {w : Window} {x : Dword} {epoch : Nat} (h : Canonical s) : Canonical (s.registerWrite w off x epoch) := by
  unfold State.registerWrite
  refine h.ite (h.answer.ite ?_)
  split
  · exact h.writeRegmap
  · exact h.withTiers.ite h
  · exact (h.modQueue.ite h).ite (Canonical.ite ((h.clearHold.ite h).bindSlot.ite (h.clearHold.ite h)) h.setReg)
  · exact h.setReg
  · exact h.setReg

/-! ### Shoot-downs -/

theorem Canonical.beginInval {i : Inval} (h : Canonical s) : Canonical (s.beginInval i) := { h with agents := h.mapAgents fun _ => rfl }
theorem Canonical.withInvalWaits {l : List Inval} (h : Canonical s) : Canonical { s with invalWaits := l } := h.same rfl
theorem Canonical.invalidate {core : Nat} (h : Canonical s) : Canonical (s.invalidate part stage2 die core) := h.withInvalWaits.ite h.beginInval

theorem Canonical.takeInval (h : Canonical s) : Canonical (s.takeInval part stage2) := by
  unfold State.takeInval
  split
  · exact h
  · exact h.withInvalWaits.beginInval

theorem Canonical.logPut (h : Canonical s) : Canonical (s.logPut part stage2 v) := by
  unfold State.logPut
  dsimp only
  split
  · exact ((h.ringStore ‹_›).setField.ite (h.ringStore ‹_›)).bump
  · exact h.setField

theorem Canonical.withInvals {l : List Inval} {w : List Walked} (h : Canonical s) : Canonical { s with invals := l, walked := w } := h.same rfl

theorem Canonical.completeInval (h : Canonical s) : Canonical (s.completeInval part stage2) := by
  unfold State.completeInval
  split
  · exact h
  · exact h.ite h.withInvals.bump.interrupt.freshNumber.logPut.takeInval

theorem Canonical.editTable {x : Dword} {page pages core : Nat} (h : Canonical s) :
    Canonical (s.editTable part stage2 a x page pages die core) := by
  have hlog {b n v : Nat} : Canonical (match ({ s with dev := s.dev.write b n v } : State).walkedAt part stage2 a page pages with
      | none => { s with dev := s.dev.write b n v }
      | some w => ({ s with dev := s.dev.write b n v } : State).logPut part stage2
          (({ s with dev := s.dev.write b n v } : State).logRecord false stage2 w.page w.pages die core 0)) := by
    split
    · exact h.writeDev _ _ _
    · exact (h.writeDev _ _ _).logPut
  unfold State.editTable
  refine h.ite (Canonical.ite (h.ite hlog) ?_)
  split
  · exact h
  · exact h.ite hlog

/-! ### Partitions -/

theorem Canonical.clearBay (h : Canonical s) : Canonical (s.clearBay b) := by
  refine Canonical.foldl ?_ _ fun _ _ h => h.modMill
  exact { h with scr := wf_clear _ _ h.scr, agents := h.filterAgents }

theorem Canonical.withCounters {x : Assoc Dword} (h : Canonical s) : Canonical { s with counters := x } := h.same rfl
theorem Canonical.clearCounters {bays : List Nat} (h : Canonical s) : Canonical (s.clearCounters n bays) := h.withCounters.setReg
theorem Canonical.clearChains (h : Canonical s) : Canonical (s.clearChains n) := h.same rfl
theorem Canonical.withOwners {x : Assoc Nat} (h : Canonical s) : Canonical { s with owners := x } := h.same rfl
theorem Canonical.withKeys {x : Assoc Certified} (h : Canonical s) : Canonical { s with keys := x, creates := n } := h.same rfl

theorem Canonical.createPart (h : Canonical s) : Canonical (s.createPart n) :=
  h.ite (h.setField.ite (h.setField.ite
    ((h.withOwners.foldl _ fun _ _ h => h.moveBay).foldl _ fun _ _ h => h.clearBay).clearCounters.clearChains.setReg.withKeys.setField))

theorem Canonical.withAway {x : List Away} (h : Canonical s) : Canonical { s with away := x } := h.same rfl

theorem Canonical.killPart (h : Canonical s) : Canonical (s.killPart n) := by
  unfold State.killPart
  have h1 {fs : List Nat} : Canonical (fs.foldl (fun s f => s.killContext 17 f) s) := h.foldl _ fun _ _ h => h.killContext
  exact (h1.withAway.foldl _ fun _ _ h => h.ite h.freeKilled).foldl _ fun _ _ h => h.ite (h.finishLaunch.ite h.withLaunches)

theorem Canonical.withNextJob (h : Canonical s) : Canonical { s with nextJob := n } := h.same rfl

theorem Canonical.cancelCard {x : Appended} (h : Canonical s) : Canonical (s.cancelCard x) := by
  unfold State.cancelCard
  split
  · exact h
  · exact h.popCard.withNextJob.completeJob

theorem Canonical.endInvals (h : Canonical s) : Canonical (s.endInvals n) :=
  h.foldl _ fun _ _ h => h.foldl _ fun _ _ h => h.completeInval

theorem Canonical.withHolders {l : List Contribution} {l' : List Appended} {x : List Pin} {bs : List Book} (h : Canonical s) :
    Canonical { s with held := l, appended := l', pins := x, books := bs } := h.same rfl

theorem Canonical.releasePart (h : Canonical s) : Canonical (s.releasePart n) :=
  ((((h.foldl _ fun _ _ h => h.cancelJob).foldl _ fun _ _ h => h.cancelCard).foldl _ fun _ _ h => h.unbindQueue.ite h).foldl _
    fun _ _ h => h.settleSend).withHolders.endInvals

theorem Canonical.withPartition {x : Assoc Nat} {y : Assoc Certified} {z : List Nat} (h : Canonical s) :
    Canonical { s with owners := x, keys := y, kills := z } := h.same rfl

theorem Canonical.destroyPart (h : Canonical s) : Canonical (s.destroyPart n) :=
  h.ite (h.killPart.releasePart.foldl _ fun _ _ h => h.clearBay).clearCounters.withPartition.setField

/-! ### Power -/

theorem Canonical.withTargets {x : List Nat} {y : Assoc Dword} (h : Canonical s) : Canonical { s with noTarget := x, targetTimes := y } := h.same rfl
theorem Canonical.writeTarget (h : Canonical s) : Canonical (s.writeTarget d v) := h.setField.withTargets

theorem Canonical.updateCaps (h : Canonical s) : Canonical (s.updateCaps m) :=
  h.ite (h.foldl _ fun _ _ h => h.modCtx).modMill

theorem Canonical.loopMill (h : Canonical s) : Canonical (s.loopMill m) := h.modMill.ite h
theorem Canonical.charge (h : Canonical s) : Canonical (s.charge n v) := h.setReg

theorem Canonical.chargeAll {es : List Nat} (h : Canonical s) : Canonical (s.chargeAll es) :=
  (h.foldl _ fun _ _ h => h.charge).foldl _ fun _ _ h => h.charge

theorem Canonical.chandlerLoop {ts ss es : List Nat} (h : Canonical s) : Canonical (s.chandlerLoop ts ss es) :=
  h.ite (((h.foldl _ fun _ _ h => h.setReg).foldl _ fun _ _ h => h.writeTarget).foldl _ fun _ _ h => h.loopMill).chargeAll

theorem Canonical.withStretched {x : Assoc Bool} (h : Canonical s) : Canonical { s with stretched := x } := h.same rfl

theorem Canonical.droop (h : Canonical s) : Canonical (s.droop b n) := (h.foldl _ fun _ _ h => h.modMill).withStretched.setField
theorem Canonical.droopEnd (h : Canonical s) : Canonical (s.droopEnd b) := (h.foldl _ fun _ _ h => h.modMill).withStretched

theorem Canonical.migrate {exchange : Bool} (h : Canonical s) : Canonical (s.migrate g n exchange) :=
  h.ite (Canonical.ite (h.ite h.withTiers) (h.ite h.withTiers))

theorem Canonical.targetTimeout (h : Canonical s) (e : execTargetTimeout d s = .next t) : Canonical t := by
  cases e
  split
  · exact (h.withTargets (y := s.targetTimes)).ite h
  · exact h

/-! ### The lease and fencing -/

theorem Canonical.setLease {x : Dword} (h : Canonical s) : Canonical (s.setLease off x) := h.foldl _ fun _ _ h => h.setReg
theorem Canonical.extendLease (h : Canonical s) : Canonical s.extendLease := h.setLease
theorem Canonical.takeLease (h : Canonical s) : Canonical (s.takeLease d) := h.setLease.extendLease
theorem Canonical.setHealth (h : Canonical s) : Canonical (s.setHealth d v) := h.setLease

theorem Canonical.loseLaunch {l : Launch} (h : Canonical s) : Canonical (s.loseLaunch k die l) := h.ite (h.setLaunch.ite h.setLaunch)

theorem Canonical.stopDie {x : List Nat} {y : Assoc Mill} {z : List Pin} {w : List Nat} (h : Canonical s) :
    Canonical { s with
      fenced := x, mills := y, pins := z, kills := w,
      agents := s.agents.map fun (e : Nat × Ctx) => if dieOf e.1 = die then (e.1, State.loseAgent e.2) else e } :=
  { h with agents := h.mapAgents fun e => by split <;> rfl }

theorem Canonical.fenceDie (h : Canonical s) : Canonical (s.fenceDie die) :=
  h.ite (((h.setHealth.stopDie.foldl _ fun _ _ h => h.completeJob).withFolds.setReg.setField.setField.foldl _
    fun _ _ h => h.leaveSlot).foldl _ fun _ _ h => h.loseLaunch)

/-! ### The hold state -/

theorem Canonical.holdBack (h : Canonical s) : Canonical (s.holdBack die slot) := h.ite (h.setQueue.ite h.stopQueue)
theorem Canonical.withSaved {x : List (Nat × Bool)} (h : Canonical s) : Canonical { s with firmwareSaved := x } := h.same rfl
theorem Canonical.withResume {x : List (Nat × Bool)} (h : Canonical s) : Canonical { s with firmwareSaved := x, resumeStep := n } := h.same rfl
theorem Canonical.withTimer {x : Option Nat} (h : Canonical s) : Canonical { s with holdTimer := x } := h.same rfl
theorem Canonical.withResumeStep (h : Canonical s) : Canonical { s with resumeStep := n } := h.same rfl
theorem Canonical.unrestored (h : Canonical s) : Canonical s.unrestored := h.ite h.withResume

theorem Canonical.enterHold (h : Canonical s) : Canonical s.enterHold :=
  Canonical.ite ((h.unrestored.setField.setField.foldl _ fun _ _ h => h.writeTarget).foldl _ fun _ _ h => h.holdBack).interrupt.withTimer
    (h.setField.withTimer.ite h.setField)

theorem Canonical.firmwareSave (h : Canonical s) : Canonical (s.firmwareSave f) := by
  unfold State.firmwareSave
  have h1 := h.preempt (f := f) |>.ite h (p := (s.ctx f).life = .running)
  dsimp only
  split
  · rename_i e
    obtain ⟨va, -, e⟩ := Option.bind_eq_some_iff.1 e
    exact (h1.saveAt e).withSaved
  · exact h1.settleImage.writeImage.freeSaved.withSaved

theorem Canonical.parkJob {j : Job} (h : Canonical s) : Canonical (s.parkJob j) :=
  h.ite (h.completeJob.withFolds.ite h.ringStoreD.setJob)

theorem Canonical.writeOnDie (h : Canonical s) : Canonical s.writeOnDie := by
  refine h.withDev ?_
  have hw : ∀ (l : List (Nat × Nat × Nat)) (x : Mem) (base : Nat), x.wf = true →
      (l.foldl (fun m (o, n, v) => if v = 0 then m else m.write (base + o) n v) x).wf = true := by
    intro l x base hx
    induction l generalizing x with
    | nil => exact hx
    | cons e l ih => exact ih _ (by dsimp only; split; exacts [hx, wf_write _ _ _ hx])
  exact hw _ _ _ (wf_clear _ _ h.dev)

theorem Canonical.stopUnfinished (h : Canonical s) : Canonical (s.stopUnfinished die slot) := h.setQueue.stopQueue.boundary.ite h
theorem Canonical.withPins {x : List Pin} (h : Canonical s) : Canonical { s with pins := x } := h.same rfl

theorem Canonical.sleepNow (h : Canonical s) : Canonical s.sleepNow :=
  (((h.foldl _ fun _ _ h => h.stopUnfinished).foldl _ fun _ _ h => h.firmwareSave).foldl _
    fun _ _ h => h.parkJob).withPins.writeOnDie.setField.bump.withTimer

theorem Canonical.pwarnFall (h : Canonical s) : Canonical s.pwarnFall := h.setField.withTimer.ite h.setField

theorem Canonical.failRestore (h : Canonical s) : Canonical (s.failRestore part f) := by
  unfold State.failRestore
  split
  · exact h
  · dsimp only
    split
    · exact h.withAway.setLaunch
    · exact h.withAway

theorem Canonical.firmwareRestore {fallback : Bool} (h : Canonical s) : Canonical (s.firmwareRestore f fallback) := by
  unfold State.firmwareRestore
  dsimp only
  split
  · rename_i e
    split at e
    · exact h.restoreImage e
    · split at e
      · exact h.restoreAt e
      · cases e
  · exact h.failRestore

theorem Canonical.rebindQueue (h : Canonical s) : Canonical (s.rebindQueue die slot) := h.bindQueue.ite h.bindQueue.modQueue
theorem Canonical.recordStep {o x : Nat} (h : Canonical s) : Canonical (s.recordStep n o x) := h.setReg
theorem Canonical.recordSurvived (h : Canonical s) : Canonical (s.recordSurvived n) := h.freshNumber.recordStep

theorem Canonical.readOnDie (h : Canonical s) : Canonical s.readOnDie := { h with scr := h.cellsIn }

theorem Canonical.withWake {x : Option Nat} (h : Canonical s) : Canonical { s with holdTimer := x, resumeStep := n } := h.same rfl
theorem Canonical.resumeDie (h : Canonical s) : Canonical s.resumeDie := h.setField.readOnDie.withWake

theorem Canonical.resumeAgents (h : Canonical s) : Canonical s.resumeAgents :=
  (h.withSaved.foldl _ fun _ _ h => h.firmwareRestore).setField.recordSurvived.interrupt.withResumeStep

theorem Canonical.withGoOn {l : List Job} (h : Canonical s) : Canonical { s with resumeStep := n, jobs := l } := h.same rfl

theorem Canonical.resumeQueues (h : Canonical s) : Canonical s.resumeQueues :=
  (h.foldl _ fun _ _ h => h.rebindQueue.ite h).withGoOn.openSlots

theorem Canonical.resumeHold (h : Canonical s) : Canonical s.resumeHold :=
  Canonical.ite (h.resumeDie.ite h) (h.resumeAgents.ite (h.resumeQueues.ite h))

/-! ### The start, and units that come and go -/

theorem Canonical.powerOff (h : Canonical s) : Canonical s.powerOff :=
  { dev := rfl, host := h.host, peer := h.peer, scr := rfl, agents := .nil }

theorem Canonical.withMapped {x : List Nat} (h : Canonical s) : Canonical { s with mapped := x } := h.same rfl

theorem Canonical.reassign (h : Canonical s) : Canonical (s.reassign n) :=
  h.foldl _ fun _ _ h => h.ite (h.withMapped.ite h.freshNumber.setField.withRegulators)

theorem Canonical.fuse (h : Canonical s) : Canonical (s.fuse n) := h.foldl _ fun _ _ h => h.ite h.modMill

theorem Canonical.recordStart {pass alt : BitVec 12} {details l : List Nat} (h : Canonical t) :
    Canonical (s.recordStart pass alt details l t) := by
  induction l generalizing t with
  | nil => exact h
  | cons n l ih =>
    unfold State.recordStart
    have h2 {o x : Nat} : Canonical (if n = 5 && !s.capacityTier then t else t.freshNumber.2.recordStep n o x) := h.ite h.freshNumber.recordStep
    exact h2.ite (ih h2)

theorem Canonical.withFailed {x : List Nat} (h : Canonical s) : Canonical { s with failed := x } := h.same rfl
theorem Canonical.withUnits {x y : List Nat} (h : Canonical s) : Canonical { s with installed := n, fenced := x, mapped := y } := h.same rfl
theorem Canonical.withStarting {x : List Nat} (h : Canonical s) : Canonical { s with starting := x } := h.same rfl

theorem Canonical.coldBoot {pass alt : BitVec 12} {details : List Nat} (h : Canonical s) : Canonical (s.coldBoot pass alt details) := by
  unfold State.coldBoot
  have h1 {l : List Nat} : Canonical (s.recordStart pass alt details l s.powerOff) := h.powerOff.recordStart
  have h2 {l x : List Nat} : Canonical { (if bitsAt (s.reg (.start 11) 0x00) 16 8 = 2 then
      (s.recordStart pass alt details l s.powerOff).recordSurvived 4 else s.recordStart pass alt details l s.powerOff) with failed := x } :=
    (h1.recordSurvived.ite h1).withFailed
  exact h2.ite h2.reassign.fuse.withUnits.freshNumber.withStarting

theorem Canonical.setReady (h : Canonical s) : Canonical (s.setReady k) :=
  h.ite (h.withStarting.setField.ite h.withStarting.setField)

theorem Canonical.calibrate {on : Bool} (h : Canonical s) : Canonical (s.calibrate k on) := h.same rfl

theorem Canonical.mapOutStack (h : Canonical s) : Canonical (s.mapOutStack k) := by
  unfold State.mapOutStack
  split
  · exact h
  · exact h.ite (h.foldl _ fun _ _ h => h.withTiers).setField.withMapped

theorem Canonical.mapOut (h : Canonical s) : Canonical (s.mapOut k) :=
  Canonical.ite (h.setField.withMapped.ite h) (h.setField.withMapped.ite (h.mapOutStack.ite (h.ite (h.modMill.ite h))))

theorem Canonical.withHeartbeats {x : Assoc Dword} (h : Canonical s) : Canonical { s with heartbeats := x } := h.same rfl

/-! ### Requests from outside -/

theorem Canonical.writeVirtual {l : List Byte} (h : Canonical s) : Canonical (s.writeVirtual part a l) := by
  induction l generalizing s a with
  | nil => exact h
  | cons b l ih =>
    unfold State.writeVirtual
    exact ih h.ringStoreD

theorem Canonical.served {x : State → State} (h : Canonical s) (hx : ∀ t, Canonical t → Canonical (x t)) :
    Canonical (s.served part a n x) := h.answer.ite (h.ite (hx _ h))

theorem Canonical.hostWrite {l : List Byte} (h : Canonical s) : Canonical (s.hostWrite part a l) :=
  h.served fun _ h => h.answer.ite h.writeVirtual

theorem Canonical.hostRead (h : Canonical s) : Canonical (s.hostRead part a n) :=
  h.served fun _ h => by
    split
    · exact h.answer
    · exact h.answer

theorem Canonical.outsideAtomic {op cmp : Nat} {l : List Byte} (h : Canonical s) : Canonical (s.outsideAtomic part a op l cmp) := by
  unfold State.outsideAtomic
  refine h.answer.ite ?_
  split
  · exact h.answer
  · exact h.ringStoreD.answer

theorem Canonical.hostAtomic {op : Nat} {l l' : List Byte} (h : Canonical s) : Canonical (s.hostAtomic part a op l l') := by
  unfold State.hostAtomic
  exact h.answer.ite (h.served fun _ h => h.outsideAtomic)

theorem Canonical.peerContribution {args : List Nat} {l : List Byte} (h : Canonical s) : Canonical (s.peerContribution part a args l) := by
  unfold State.peerContribution
  dsimp only
  split
  · exact h.deliver
  · exact h.ite h.withHeld

theorem Canonical.peerRequest {tag op : Nat} {args : List Nat} {l : List Byte} (h : Canonical s) :
    Canonical (s.peerRequest tag a op args l) := by
  unfold State.peerRequest
  split
  · exact h.answer
  · refine h.ite (Canonical.ite ?_ (Canonical.ite (h.answer.ite h.writeVirtual.answer)
      (h.outsideAtomic.ite (h.peerContribution.ite h.answer))))
    split
    · exact h.answer
    · exact h.answer

theorem Canonical.attest {epoch : Nat} {x : Certified → Answer} (h : Canonical s) : Canonical (s.attest part epoch x) := by
  unfold State.attest
  refine h.answer.ite ?_
  split
  · exact h.answer
  · exact h.answer

end Sys2Proof.Proofs
end

section
/-! SUPPORT. The invariant of every step, continued: the meaning of every vector instruction, and what a mill does beside its thread cores. -/

namespace Sys2Proof.Proofs

open Sys2Proof Sys2Proof.Machine Sys2Proof.Laws Sys2Proof.Safety

variable {s t : State} {f g k m n p : Nat}

/-! ### The meaning of vector instructions -/

/-- An outcome that leaves no state, or a canonical one. -/
def CanonicalOut (o : Out) : Prop := ∀ t, o = .next t → Canonical t

theorem Canonical.out (h : Canonical t) : CanonicalOut (.next t) := fun _ e => by cases e; exact h

theorem Canonical.vectorOut {op : VOp} (h : Canonical s) (hop : KeepsCanonical op) : CanonicalOut (.next (s.vector op)) := (h.vector hop).out

theorem Canonical.vcvt {d a : BitVec 6} {x p : BitVec 4} (h : Canonical s) : CanonicalOut (execVcvt d a x p s) := by
  refine h.vectorOut ?_
  constructor <;> dsimp only
  · exact fun _ _ _ h => h.setCtx
  · exact fun _ _ _ h => h
  · exact fun _ hw => nomatch hw
  · exact fun _ _ h => h
  · exact fun _ _ h => h.dropLatch
  · exact fun _ _ h => h.dropLatch

theorem keeps_vbfly {d a : BitVec 6} {x : BitVec 5} {p : BitVec 4} {word : Word} {dec : Nat → Ctx → Option Trap}
    {v : Env → Nat → Ctx → Nat × Flags} :
    KeepsCanonical { crossLane word x p d a (fun _ => false) (fun _ _ => true) v with
      decode := dec, finish := dropLatch, idle := dropLatch, reader := some a.toNat } := by
  constructor <;> dsimp only
  · exact crossLane_elem
  · exact fun _ _ _ h => h
  · exact fun _ hw => nomatch hw
  · exact fun _ _ h => h
  · exact fun _ _ h => h.dropLatch
  · exact fun _ _ h => h.dropLatch

theorem Canonical.vbflyC {d a : BitVec 6} {x : BitVec 5} {p : BitVec 4} (h : Canonical s) : CanonicalOut (execVbflyC d a x p s) := by
  refine h.vectorOut ?_
  constructor <;> dsimp only
  · exact crossLane_elem
  · exact fun _ _ _ h => h
  · rintro _ ⟨⟩ _ _ _ h
    exact h.setCtx
  · exact fun _ _ h => h
  · exact fun _ _ h => h
  · exact fun _ _ h => h.modCtx

theorem Canonical.vldff {d : BitVec 6} {w : BitVec 4} {x : BitVec 5} {p : BitVec 4} (h : Canonical s) :
    CanonicalOut (execVldff d w x p s) := by
  refine h.vectorOut ?_
  constructor <;> dsimp only
  · exact fun _ _ _ h => h.vmemElem
  · exact fun _ _ _ h => h
  · rintro _ ⟨⟩ _ _ _ h
    exact h.vldffLoop
  · exact fun _ _ h => h
  · exact fun _ _ h => h
  · exact fun _ _ h => h

theorem Canonical.vfetch {b : BitVec 6} {p : BitVec 4} (h : Canonical s) : CanonicalOut (execVfetch b p s) := by
  refine Canonical.out ?_
  split
  · exact h.startBlocks
  · exact h.trapGroup
  · exact h.trapHere.ite (h.checked fun _ _ _ h => h.stopLate.ite (h.stall.ite (h.setCtx.ite h.setCtx.startBlocks)))

theorem Canonical.efetch {b : BitVec 6} (h : Canonical s) : CanonicalOut (execEfetch b s) := by
  refine (h.blockInstr fun f b' x c s t h e => ?_).out
  split_ifs at e
  cases e; exact h.setThread

theorem Canonical.eend (h : Canonical s) : CanonicalOut (execEend s) :=
  (h.blockInstr fun f b x c s t h e => by cases e; exact h.setThread).out

theorem Canonical.xqsend {a : BitVec 6} (h : Canonical s) : CanonicalOut (execXqsend a s) := by
  refine (h.blockInstr fun f b x c s t h e => ?_).out
  dsimp only at e
  split at e
  · exact h.modCtx.nextWord e
  · split_ifs at e
    exact h.nextWord e

theorem Canonical.xqrecv {d : BitVec 6} (h : Canonical s) : CanonicalOut (execXqrecv d s) := by
  refine (h.blockInstr fun f b x c s t h e => ?_).out
  split at e
  · split_ifs at e
    exact h.setCtx.nextWord e
  · split at e
    · cases e
    · exact h.setThread.modCtx.nextWord e

theorem Canonical.vtag {k : BitVec 2} {v : BitVec 6} {x : BitVec 4} (h : Canonical s) : CanonicalOut (execVtag k v x s) :=
  Canonical.out (h.configure fun _ _ _ h => h)

theorem Canonical.vcarrySet {o : BitVec 2} {n : BitVec 5} (h : Canonical s) : CanonicalOut (execVcarrySet o n s) :=
  Canonical.out (h.configure fun _ _ _ h => h)

theorem Canonical.vcarryReg {a : BitVec 5} (h : Canonical s) : CanonicalOut (execVcarryReg a s) :=
  Canonical.out (h.configure fun _ _ _ h => h)

theorem Canonical.vconfigImm {d : BitVec 5} {x : BitVec 11} (h : Canonical s) : CanonicalOut (execVconfigImm d x s) :=
  (h.configure fun _ _ _ h => h.vconfigPlan).out

theorem Canonical.vconfigReg {d a : BitVec 5} (h : Canonical s) : CanonicalOut (execVconfigReg d a s) :=
  (h.configure fun _ _ _ h => h.vconfigPlan).out

theorem Canonical.setvl {d a : BitVec 5} {x : BitVec 2} (h : Canonical s) : CanonicalOut (execSetvl d a x s) :=
  (h.configure fun _ _ _ h => h.setvlPlan).out

theorem Canonical.setvlB {d a : BitVec 5} {x : BitVec 3} {y : BitVec 4} (h : Canonical s) : CanonicalOut (execSetvlB d a x y s) :=
  (h.configure fun _ _ _ h => h.setvlPlan).out

/-- A word that is no vector instruction. -/
theorem Canonical.notVector (h : Canonical s) :
    CanonicalOut (match s.cur with | .group f => .next (s.trapGroup f .block) | _ => .next s) := by
  split
  · exact h.trapGroup.out
  · exact h.out

theorem Canonical.vectorMeaning (h : Canonical s) (i : Instr) : CanonicalOut (vectorMeaning i s) := by
  cases i with
  | vconfigImm => exact h.vconfigImm
  | vconfigReg => exact h.vconfigReg
  | vtag => exact h.vtag
  | setvl => exact h.setvl
  | setvlB => exact h.setvlB
  | vcarrySet => exact h.vcarrySet
  | vcarryReg => exact h.vcarryReg
  | vfetch => exact h.vfetch
  | efetch => exact h.efetch
  | ebz => exact h.blockBranch.out
  | ebnz => exact h.blockBranch.out
  | eend => exact h.eend
  | xqsend => exact h.xqsend
  | xqrecv => exact h.xqrecv
  | vaddVv | vsubVv | vmulVv | vfmaVv | vfmsVv | vfnmaVv | vdivVv | vminVv | vmaxVv | vabsVv | vnegVv | vsaddVv | vssubVv | vmulhVv | vavgVv
  | vaddVs | vsubVs | vmulVs | vfmaVs | vfmsVs | vfnmaVs | vdivVs | vminVs | vmaxVs | vabsVs | vnegVs | vsaddVs | vssubVs | vmulhVs | vavgVs
  | vand | vor | vxor | vnot | vshl | vshr | vsha | vclz | vpopc
  | vsqrt | vrcp | vrsq | vexp2f | vlog2f | vrndi | vgetexp | vmov | vsel | vscale => exact h.vectorOut keeps_elementwise
  | vceq | vcne | vclt | vcle | vcun | vclass => exact h.vectorOut keeps_intoPredicate
  | vcvt => exact h.vcvt
  | vslideup | vslidedn => exact h.vectorOut keeps_crossLane
  | vid | vbcast => exact h.vectorOut { elem := fun _ _ _ h => h.setCtx }
  | vbfly => exact h.vectorOut keeps_vbfly
  | vbflyC => exact h.vbflyC
  | vxg | vcomp | vexpd | vins | vext | vredsum | vredmax | vredmin | vredand | vredor | vredxor | vtree | tmerge | tread | tclear
  | pand | por | pxor | pnot | pandn | pwhile | pcnt | pfirst | pset => exact h.vectorOut keeps_modCtx
  | vscan | vscana | vscanmax => exact h.vectorOut keeps_scanOp
  | vld | vst | vldx | vstx | vgb | vsb | vaadd => exact h.vectorOut keeps_vmemOp
  | vldff => exact h.vldff
  | vsrd | vswr => exact h.vectorOut keeps_streamOp
  | vrng => exact h.vectorOut { elem := fun _ _ _ h => h.modCtx }
  | mtv | mvt => exact h.vectorOut keeps_tileMove
  | mtvc => exact h.vectorOut keeps_carryMove
  | csrr | csrw | csrs | csrc => exact h.csrAccess.out
  | _ => exact h.notVector

/-! ### The arbiter -/

theorem Canonical.withCur {x : Who} (h : Canonical s) : Canonical { s with cur := x } := h.same rfl

theorem Canonical.after {o : Out} (h : Canonical s) (ho : CanonicalOut o) : Canonical (s.after o) := by
  cases o with
  | next t => exact ho t rfl
  | fault => exact h
  | refused => exact h

theorem Canonical.issueEntry (h : Canonical s) : Canonical (s.issueEntry f k) := by
  unfold State.issueEntry
  split
  · exact h
  · split
    · exact h.withCur.after (h.withCur.vectorMeaning _)
    · exact h

theorem Canonical.issueBlocks (h : Canonical s) : Canonical (s.issueBlocks f) := by
  unfold State.issueBlocks
  split
  · exact h
  · split
    · exact h
    · split
      · exact h.groupTrap
      · dsimp only
        split
        · exact h.withCur.after (h.withCur.vectorMeaning _)
        · exact h.withCur.trapGroup
        · exact h.withCur.trapGroup

/-- What an issue slot leaves, granted or not, is canonical. -/
def CanonicalSlot : Except State State → Prop
  | .ok t | .error t => Canonical t

theorem Canonical.issueFirst {l : List Nat} (h : Canonical s) : CanonicalSlot (State.issueFirst f l s) := by
  induction l generalizing s with
  | nil => exact h
  | cons k l ih =>
    unfold State.issueFirst
    dsimp only
    split
    · exact h.modCtx.issueEntry
    · exact ih h.modCtx.issueEntry

theorem Canonical.issueWithin (h : Canonical s) : CanonicalSlot (State.issueWithin f n s) := by
  induction n generalizing s with
  | zero => exact h
  | succ n ih =>
    unfold State.issueWithin
    dsimp only
    split_ifs
    · exact h
    · exact h.issueBlocks
    · exact h
    · have ho {l : List Nat} := (h.modCtx (f := f) (g := Ctx.beginConvoy)).issueFirst (f := f) (l := l)
      split <;> rename_i e
      · exact e ▸ ho
      · have ht : Canonical _ := e ▸ ho
        split_ifs
        · exact ht.modCtx
        · exact ih ht

theorem Canonical.issueOne (h : Canonical s) : CanonicalSlot (s.issueOne f) := h.issueWithin

theorem Canonical.askMember (h : Canonical s) : Canonical (s.askMember f k) := h.modCtx

theorem Canonical.arbitrate {free idle : Nat} (h : Canonical s) : Canonical (State.arbitrate m n free idle s) := by
  induction n generalizing s free idle with
  | zero => exact h
  | succ n ih =>
    unfold State.arbitrate
    dsimp only
    have ho {f : Nat} := h.issueOne (f := f)
    split
    · exact h
    · split <;> rename_i e
      · have ht : Canonical _ := e ▸ ho
        exact ih ht.modCtx.modMill
      · have ht : Canonical _ := e ▸ ho
        exact ih (ht.modCtx.modMill.modMill.ite ht.modCtx.modMill)

theorem Canonical.arbiterCycle (h : Canonical s) : Canonical (s.arbiterCycle m) := h.arbitrate

theorem Canonical.applyHead (h : Canonical s) : Canonical (s.applyHead f) := by
  unfold State.applyHead
  dsimp only
  split
  · exact h
  · exact h.issueEntry.ite h

theorem Canonical.endBlocks (h : Canonical s) : Canonical (s.endBlocks f) := by
  unfold State.endBlocks
  split
  · exact h
  · exact h.sample.modCtx.ite h

theorem Canonical.endWait (h : Canonical s) : Canonical (s.endWait f) := by
  unfold State.endWait
  split
  · exact h
  · exact h.modCtx.ite h

theorem Canonical.sleepExpiry (h : Canonical s) : CanonicalOut (execSleepExpiry f s) := by
  refine Canonical.out ?_
  split
  · exact h.modCtx.ite h
  · exact h

theorem Canonical.illegalInstruction {w : Word} (h : Canonical s) : CanonicalOut (execIllegalInstruction w s) := by
  refine Canonical.out ?_
  split
  · exact h.trapHere
  · exact h.trapGroup
  · exact h

theorem Canonical.fetchOutsideImage (h : Canonical s) : CanonicalOut (execFetchOutsideImage s) := by
  refine Canonical.out ?_
  split
  · exact h.haltContext.ite h.trapHere
  · exact h

theorem Canonical.illegalCommand {w : Word} (h : Canonical s) : CanonicalOut (execIllegalCommand w s) := by
  refine Canonical.out ?_
  split
  · exact h.faultQueue
  · exact h

end Sys2Proof.Proofs
end

section
/-! SUPPORT. The invariant of every step, continued: the commands of queues, the meaning of every instruction, and the step. -/

namespace Sys2Proof.Proofs

open Sys2Proof Sys2Proof.Machine Sys2Proof.Laws Sys2Proof.Safety

variable {s t : State} {f g k m n p part die slot addr : Nat} {q : Queue} {l : Launch}

/-! ### The commands of queues -/

theorem Canonical.commandOut {len : Nat} {x : Nat → Nat → Queue → State → CmdEnd} (h : Canonical s)
    (hx : ∀ die slot q t, Canonical t → CanonicalEnd (x die slot q t)) : CanonicalOut (.next (Machine.command len x s)) := (h.command hx).out

theorem CanonicalEnd.ite {p : Prop} [Decidable p] {x y : CmdEnd} (hx : CanonicalEnd x) (hy : CanonicalEnd y) :
    CanonicalEnd (if p then x else y) := by
  split <;> assumption

theorem Canonical.setCommand {len : Nat} {a : BitVec 4} {val : Queue → Dword} (h : Canonical s) :
    CanonicalOut (.next (setCommand len a val s)) :=
  h.commandOut fun _ _ _ _ h => h.setQueue

theorem Canonical.cmdLd {a b : BitVec 4} {i : BitVec 16} (h : Canonical s) : CanonicalOut (execCmdLd a b i s) := by
  refine h.commandOut fun die slot q s h => ?_
  dsimp only
  split
  · trivial
  · split
    · trivial
    · split
      · exact h
      · exact h.noteWalk.popped.modQueue

theorem Canonical.cmdSt {a b : BitVec 4} {i : BitVec 16} (h : Canonical s) : CanonicalOut (execCmdSt a b i s) := by
  refine h.commandOut fun die slot q s h => ?_
  dsimp only
  split
  · trivial
  · split
    · trivial
    · split_ifs
      · trivial
      · exact h
      · exact h.noteWalk.store

theorem Canonical.branchTo {o : BitVec 16} (h : Canonical s) : CanonicalEnd (branchTo die slot q o s) := by
  unfold Machine.branchTo
  dsimp only
  split_ifs
  · exact h.setQueue
  · trivial
  · exact h.setQueue

theorem Canonical.branchCommand {taken : Dword → Dword → Bool} {a b : BitVec 4} {o : BitVec 16} (h : Canonical s) :
    CanonicalOut (.next (branchCommand taken a b o s)) := by
  refine h.commandOut fun die slot q s h => ?_
  split
  · exact h.branchTo
  · exact h

theorem Canonical.cmdLoop {a : BitVec 4} {o : BitVec 16} (h : Canonical s) : CanonicalOut (execCmdLoop a o s) := by
  refine h.commandOut fun die slot q s h => ?_
  dsimp only
  split
  · exact h.setQueue
  · exact h.branchTo

theorem Canonical.cmdCall {x : BitVec 64} (h : Canonical s) : CanonicalOut (execCmdCall x s) := by
  refine h.commandOut fun die slot q s h => ?_
  dsimp only
  split_ifs
  · trivial
  · trivial
  · exact h.setQueue
  · exact h.setQueue

theorem Canonical.cmdRet (h : Canonical s) : CanonicalOut (execCmdRet s) := by
  refine h.commandOut fun die slot q s h => ?_
  split
  · trivial
  · exact h.setQueue

theorem Canonical.cmdLink {x : BitVec 64} (h : Canonical s) : CanonicalOut (execCmdLink x s) := by
  refine h.commandOut fun die slot q s h => ?_
  split
  · trivial
  · exact h.setQueue.pushFree.writeBlock

theorem Canonical.cmdWait {b y : BitVec 4} {c : BitVec 9} (h : Canonical s) : CanonicalOut (execCmdWait b y c s) := by
  refine h.commandOut fun die slot q s h => ?_
  split
  · trivial
  · split
    · exact h
    · exact h

theorem Canonical.cmdSignal {b y : BitVec 4} {c : BitVec 9} (h : Canonical s) : CanonicalOut (execCmdSignal b y c s) := by
  refine h.commandOut fun die slot q s h => ?_
  split
  · trivial
  · exact h.raise

theorem Canonical.cmdFence (h : Canonical s) : CanonicalOut (execCmdFence s) := by
  refine h.commandOut fun die slot q s h => ?_
  split
  · exact h
  · exact h

theorem Canonical.cmdChapp {a b : BitVec 4} {n : BitVec 6} (h : Canonical s) : CanonicalOut (execCmdChapp a b n s) := by
  refine h.commandOut fun die slot q s h => ?_
  dsimp only
  split
  · trivial
  · split
    · trivial
    · split_ifs
      · trivial
      · exact h
      · trivial
      · exact h.noteWalk.appendCard.modQueue

theorem Canonical.refuse {code detail prod cons : Nat} (h : Canonical s) : Canonical (refuse s part die code detail prod cons) := by
  unfold Machine.refuse
  dsimp only
  split
  · exact (h.ringStore ‹_›).bump
  · exact h.setField.bump

theorem Canonical.cmdSplice (h : Canonical s) : CanonicalOut (execCmdSplice s) := by
  refine h.commandOut fun die slot q s h => ?_
  have look : ∀ (n : Nat) (x : CmdEnd), CanonicalEnd x → CanonicalEnd (match peekCommand s die slot q n with
      | .fault t => .of t
      | .outside => .outside
      | .unpublished => .wait s
      | .word w => if isLaunch w then x else
          .done (Machine.refuse s.freshNumber.2 q.part die 0x02 0 (Config.unstated (2 * s.freshNumber.1))
            (Config.unstated (2 * s.freshNumber.1 + 1)))) := by
    intro n x hx
    split
    · trivial
    · trivial
    · exact h
    · split
      · exact hx
      · exact h.freshNumber.refuse
  exact look 1 _ (look 2 _ h.setQueue)

theorem Canonical.storeWords {a : Nat} {ws : List Word} (h : Canonical s) (e : storeWords part a ws k s = some t) : Canonical t := by
  induction ws generalizing s k with
  | nil => cases e; exact h
  | cons w ws ih =>
    unfold Machine.storeWords at e
    split at e
    · cases e
    · exact ih (h.ringStore ‹_›) e

theorem Canonical.register {x : Splicing} (h : Canonical s) : Canonical (register die slot l x s) := by
  unfold Machine.register
  exact h.noteWalk.setLaunch.modQueue

theorem Canonical.launchPair (h : Canonical s) : CanonicalEnd (launchPair die slot q l s) := by
  unfold Machine.launchPair
  split
  · trivial
  · trivial
  · exact h
  · dsimp only
    split
    · exact h.register
    · split
      · exact h.refuse.register
      · split
        · exact h.refuse.register
        · split
          · exact h.refuse.register
          · split
            · exact h.refuse.register
            · rename_i e
              obtain ⟨t, e1, e2⟩ := Option.bind_eq_some_iff.1 e
              exact ((h.storeWords e1).storeWords e2).bump.register

theorem Canonical.startCores (h : Canonical s) : Canonical (startCores l s) := (h.foldl _ fun _ _ h => h.setCtx).setLaunch

theorem Canonical.reach (h : Canonical s) : Canonical (reach die slot s) := h.ite h.freshNumber.modQueue

theorem Canonical.launchCommand {matrix : Bool} {a b : BitVec 4} {p : BitVec 3} {dep : BitVec 1} (h : Canonical s) :
    CanonicalOut (.next (launchCommand matrix a b p dep s)) := by
  refine h.commandOut fun die slot q s h => ?_
  replace h := h.reach (die := die) (slot := slot)
  dsimp only
  split
  · split
    · split
      · exact h.setQueue
      · exact h.setQueue
    · split
      · exact h
      · exact h.setQueue
  · refine CanonicalEnd.ite (CanonicalEnd.ite h.setQueue h.setQueue) (CanonicalEnd.ite h ?_)
    split
    · trivial
    · exact CanonicalEnd.ite h (CanonicalEnd.ite (CanonicalEnd.ite h.startCores.noteWalk.modQueue h)
        (CanonicalEnd.ite h.launchPair h.register))

end Sys2Proof.Proofs
end

section
/-! SUPPORT. The invariant of every step: the meaning of every instruction, the next action, and the step. -/

namespace Sys2Proof.Proofs

open Sys2Proof Sys2Proof.Machine Sys2Proof.Laws Sys2Proof.Safety

variable {s t : State} {f g k m n p part die slot addr : Nat}

/-! ### The meaning of an instruction -/

theorem Canonical.simpleOut {rs : List Nat} {d : Nat} {val : Ctx → Dword × Flags} (h : Canonical s) :
    CanonicalOut (.next (s.simple rs d val)) := h.simple.out

theorem Canonical.fpickOut {isMax : Bool} {d a b : BitVec 5} {x : BitVec 3} (h : Canonical s) :
    CanonicalOut (.next (fpick isMax d a b x s)) := by
  unfold fpick fop2
  exact h.simpleOut

theorem Canonical.branchOut {cmp : Dword → Dword → Bool} {a b : BitVec 5} {o : BitVec 16} (h : Canonical s) :
    CanonicalOut (.next (branch cmp a b o s)) := (h.scalar fun _ _ _ h => h.setCtx).out

theorem Canonical.externalOut {rs : List Nat} {w : BitVec 4} {off : Ctx → Dword} {u : Use} {kind : Ctx → XKind} {a n : Nat}
    {det hostOk : Bool} (h : Canonical s) : CanonicalOut (.next (Machine.external rs w off n u kind a det hostOk s)) := h.external.out

theorem Canonical.atomicOut {ret hostOk : Bool} {d a b : BitVec 5} {w : BitVec 4} {z : BitVec 1} (h : Canonical s) :
    CanonicalOut (.next (Machine.atomic n ret hostOk d a b w z s)) := h.atomic.out

theorem Canonical.matrixOut {am : BitVec 4} {a : Nat} {checks : Ctx → List Issue → List (Bool × Trap)} {kind : Ctx → MatKind}
    {upd : Ctx → Issue → Issue} (h : Canonical s) : CanonicalOut (.next (Machine.matrixOp am a checks kind upd s)) := h.matrixOp.out

theorem Canonical.attestOut {epoch : Nat} {x : Certified → Answer} (h : Canonical s) : CanonicalOut (.next (s.attest part epoch x)) :=
  h.attest.out

theorem Canonical.execWord (h : Canonical s) (i : Instr) (hi : i.isWord = true) : CanonicalOut (exec i s) := by
  have hv := h.vectorMeaning i
  cases i with
  | add | sub | and | or | xor | shl | shr | sha | mul | mulh | mulhn | div | divn | rem | remn | min | max | minn | maxn | slt | sltn | seq
  | clz | ctz | popc | addi | andi | ori | xori | slti | shli | shri | shai | lui | addpc
  | fadd | fsub | fmul | ffma | fdiv | fsqrt | feq | flt | fle | fclass | fcvtI | fcvtN | fcvtFi | fcvtFn | fcvtFf =>
    exact h.simpleOut
  | fmin | fmax => exact h.fpickOut
  | qadd => exact (h.trapHere.ite (h.scalar fun _ _ _ h => h.setCtx)).out
  | beq | bne | blt | bge | bltn | bgen => exact h.branchOut
  | jal => exact (h.scalar fun _ _ _ h => h.setCtx).out
  | jalr => exact (h.scalar fun _ _ _ h => h.trapHere.ite h.setCtx).out
  | ld | ldn => exact h.scratchLoad.out
  | st => exact fun _ => h.scratchStore
  | ldx | stx => exact h.externalOut
  | aadd | aand | aor | axor | amin | amax | aminn | amaxn | aaddRet | aandRet | aorRet | axorRet | aminRet | amaxRet | aminnRet | amaxnRet
  | aswap | acas => exact h.atomicOut
  | fenceV | fenceS => exact h.fence.out
  | waitseq => exact (h.checked fun _ _ _ h => h.stall.ite h.setCtx).out
  | signal => exact (h.checked fun _ _ _ h => h.stall.ite (h.matChecked fun _ h => h.raise.setCtx)).out
  | tseq => exact (h.checked fun _ _ _ h => h.setCtx).out
  | waitx => exact fun _ => h.waitx
  | sqwait => exact fun _ => h.sqwait
  | gjoin => exact (h.threadCertain fun _ _ _ h => h.trapHere.ite h.setCtx).out
  | gleave => exact (h.threadCertain fun _ _ _ h => h.trapHere.ite h.leaveGroup.modCtx).out
  | gbar => exact (h.threadCertain fun _ _ _ h => h.trapHere.ite (h.stall.ite h.setCtx.settleGroup)).out
  | gsize => exact (h.threadOnly fun _ _ _ h => h.trapHere.ite h.setCtx).out
  | tid => exact (h.threadOnly fun _ _ _ h => h.setCtx).out
  | yield => exact fun _ => h.yield
  | forkl => exact fun _ => h.forkl
  | joinl => exact fun _ => h.joinl
  | trap => exact (h.scalar fun _ _ _ h => h.takeTrap.ite h.stall).out
  | csrr | csrw | csrs | csrc => exact h.csrAccess.out
  | sleep => exact (h.scalar fun _ _ _ h => h.stall.ite h.setCtx).out
  | halt => exact h.haltContext.out
  | brk => exact (h.scalar fun _ _ _ h => (h.matChecked fun _ h => h.debugStop).ite h.stall).out
  | chapp => exact fun _ => h.chapp
  | strmR | strmW | strmRg => exact h.strm.out
  | sunb => exact fun _ => h.sunb
  | gang => exact fun _ => h.gang
  | ungang => exact fun _ => h.ungang
  | vconfigImm | vconfigReg | vtag | setvl | setvlB | vcarrySet | vcarryReg | vfetch | efetch | ebz | ebnz | eend | xqsend | xqrecv
  | vaddVv | vsubVv | vmulVv | vfmaVv | vfmsVv | vfnmaVv | vdivVv | vminVv | vmaxVv | vabsVv | vnegVv | vsaddVv | vssubVv | vmulhVv | vavgVv
  | vaddVs | vsubVs | vmulVs | vfmaVs | vfmsVs | vfnmaVs | vdivVs | vminVs | vmaxVs | vabsVs | vnegVs | vsaddVs | vssubVs | vmulhVs | vavgVs
  | vand | vor | vxor | vnot | vshl | vshr | vsha | vclz | vpopc | vceq | vcne | vclt | vcle | vcun | vclass
  | vsqrt | vrcp | vrsq | vexp2f | vlog2f | vrndi | vgetexp | vcvt | vmov | vsel | vscale
  | vslideup | vslidedn | vbfly | vid | vbcast | vbflyC | vxg | vcomp | vexpd | vredsum | vredmax | vredmin | vredand | vredor | vredxor
  | vtree | tmerge | tread | tclear | vscan | vscana | vscanmax | pand | por | pxor | pnot | pandn | pwhile | pcnt | pfirst | pset | vins | vext
  | vld | vst | vldx | vstx | vldff | vgb | vsb | vaadd | vsrd | vswr | vrng | mtv | mvt | mtvc => exact hv
  | tlook => exact (h.threadOnly fun _ _ _ h => h.setCtx).out
  | tset => exact fun _ => h.tset
  | tinv => exact (h.threadCertain fun _ _ _ h => h.trapHere.ite h.setTagValue.setCtx).out
  | vwset => exact fun _ => h.vwset
  | vwret => exact (h.threadOnlyChecked fun _ _ _ h => h.stall.ite (h.stall.ite h.setCtx)).out
  | vwget => exact (h.threadOnly fun _ _ _ h => h.setCtx).out
  | mten => exact (h.coreOnly fun _ _ _ h => h.setCtx).out
  | mzero | mldw | mswap | mma | mmaF64 | mscan | mcld | mcst | mst | mld | mrow | mcol => exact h.matrixOut
  | msig => exact fun _ => h.msig
  | mwait => exact fun _ => h.mwait
  | mcfg => exact (h.coreOnly fun _ _ _ h => h.stall.ite h.setCtx).out
  | _ => cases hi

theorem Canonical.execCommand (h : Canonical s) (i : Instr) (hi : i.isCommand = true) : CanonicalOut (exec i s) := by
  cases i with
  | cmdNop => exact h.commandOut fun _ _ _ _ h => h
  | cmdHalt => exact h.commandOut fun _ _ _ _ _ => trivial
  | cmdLi | cmdLil | cmdAddi | cmdAdd | cmdSub | cmdAnd | cmdOr | cmdShli => exact h.setCommand
  | cmdLd a b i => exact h.cmdLd (a := a) (b := b) (i := i)
  | cmdSt a b i => exact h.cmdSt (a := a) (b := b) (i := i)
  | cmdBeq | cmdBne | cmdBlt => exact h.branchCommand
  | cmdLoop a o => exact h.cmdLoop (a := a) (o := o)
  | cmdCall x => exact h.cmdCall (x := x)
  | cmdRet => exact h.cmdRet
  | cmdLink x => exact h.cmdLink (x := x)
  | cmdLaunch | cmdLaunchm => exact h.launchCommand
  | cmdSplice => exact h.cmdSplice
  | cmdChapp a b n => exact h.cmdChapp (a := a) (b := b) (n := n)
  | cmdWait b y c => exact h.cmdWait (b := b) (y := y) (c := c)
  | cmdSignal b y c => exact h.cmdSignal (b := b) (y := y) (c := c)
  | cmdFence => exact h.cmdFence
  | _ => cases hi

theorem Canonical.execEvent (h : Canonical s) (i : Instr) (hi : (i.isWord || i.isCommand) = false) : CanonicalOut (exec i s) := by
  cases i with
  | launchPlaceRange => exact fun _ => h.launchPlaceRange
  | launchComplete => exact fun _ => h.launchComplete
  | registerWrite => exact h.registerWrite.out
  | cxStop => exact fun _ => h.cxStop
  | cxSave => exact (h.cxCommand fun _ _ => h.cxSave).out
  | cxRestore => exact fun _ => h.cxRestore
  | cxResume | debugStep => exact (h.cxCommand fun _ _ => h.cxResume).out
  | cxCommandComplete => exact fun _ => h.cxCommandComplete
  | cxdataRead => exact h.cxRead.out
  | cxdataWrite => exact h.cxWrite.out
  | debugStopCmd => exact fun _ => h.debugStopCmd
  | breakpointHit => exact fun _ => h.breakpointHit
  | debugStopDrained => exact h.debugDrained.out
  | kill => exact fun _ => h.kill
  | killDone => exact fun _ => h.killDone
  | partitionCreate => exact h.createPart.out
  | partitionDestroy => exact h.destroyPart.out
  | invalidateGo => exact h.invalidate.out
  | invalidationComplete => exact h.completeInval.out
  | ptEditRecord => exact h.editTable.out
  | queueBind => exact h.bindSlot.out
  | queueHoldClear => exact h.clearHold.out
  | qfreePop => exact h.popFree.answer.out
  | qfreePush => exact h.pushFree.out
  | leaseRenew => exact (h.extendLease.ite h.answer).out
  | leaseTake | leaseHand => exact (h.takeLease.ite h.answer).out
  | fwHeartbeat => exact (h.ite h.setHealth.withHeartbeats).out
  | healthTimeout => exact (h.setHealth.ite h).out
  | dieFence => exact h.fenceDie.out
  | regmapWrite => exact h.writeRegmap.out
  | bayRegulatorMove => exact h.moveBay.out
  | chstatStopClear => exact h.setField.out
  | startRecordClear => exact (h.setField.ite h).out
  | coldBoot => exact h.coldBoot.out
  | unitMapOut => exact h.mapOut.out
  | pmlLinkUp | pmlLinkDown => exact (h.setField.ite h).out
  | holdEntry => exact h.enterHold.out
  | holdDeadline => exact (h.answer.ite (h.sleepNow.ite h)).out
  | pwarnFall => exact h.pwarnFall.out
  | holdResume => exact (h.answer.ite h.resumeHold).out
  | holdSupplyLoss => exact (h.powerOff.recordSurvived.ite h).out
  | droop => exact (h.droop.ite h).out
  | droopEnd => exact (h.droopEnd.ite h).out
  | chandlerLoop => exact h.chandlerLoop.out
  | targetTimeout => exact fun _ => h.targetTimeout
  | millCapUpdate => exact (h.updateCaps.ite h).out
  | ballastEnd => exact h.modMill.out
  | tierMigration => exact h.migrate.out
  | arbiterCycle => exact (h.arbiterCycle.ite h).out
  | grantApply => exact h.applyHead.out
  | vfetchComplete => exact h.endBlocks.out
  | waitEnd => exact h.endWait.out
  | sleepExpiry => exact h.sleepExpiry
  | xqEntryComplete => exact (h.accessTurn.ite h).out
  | streamBindingStart => exact h.startBinding.out
  | streamFetch => exact h.moveElement.out
  | engineJobStart => exact h.startJob.openSlots.out
  | jobComplete => exact fun _ => h.jobComplete
  | foldContribution => exact fun _ => h.foldContribution
  | matrixOpComplete => exact h.completeMatrix.out
  | msigRaise => exact h.raiseNext.out
  | hostWrite => exact h.hostWrite.out
  | hostRead => exact h.hostRead.out
  | peerRequest => exact h.peerRequest.out
  | hostConfigRequest => exact h.answer.out
  | spdmGetVersion | spdmGetCapabilities | spdmNegotiateAlgorithms | spdmGetDigests | spdmGetCertificate | spdmChallenge
  | spdmGetMeasurements => exact h.attestOut
  | illegalInstruction => exact h.illegalInstruction
  | fetchOutsideImage => exact h.fetchOutsideImage
  | illegalCommand w => exact h.illegalCommand (w := w)
  | _ => cases hi

theorem Canonical.exec (h : Canonical s) (i : Instr) : CanonicalOut (exec i s) := by
  rcases hw : i.isWord with _ | _
  · rcases hc : i.isCommand with _ | _
    · exact h.execEvent i (by simp [hw, hc])
    · exact h.execCommand i hc
  · exact h.execWord i hw

/-! ### The next action -/

/-- What a turn comes to, from a canonical state. -/
def CanonicalAction : Action → Prop
  | .exec _ t | .still t => Canonical t
  | .absent => True

theorem CanonicalAction.ite {p : Prop} [Decidable p] {x y : Action} (hx : CanonicalAction x) (hy : CanonicalAction y) :
    CanonicalAction (if p then x else y) := by
  split <;> assumption

theorem CanonicalAction.absent : CanonicalAction .absent := trivial

theorem Canonical.fetched (h : Canonical s) : Canonical (s.fetched f) := h.noteWalk

theorem Canonical.agentTurn (h : Canonical s) : CanonicalAction (s.agentTurn f) := by
  unfold State.agentTurn
  have ht := h.withCur (x := .agent f)
  refine CanonicalAction.absent.ite (CanonicalAction.ite ht (CanonicalAction.ite ht (CanonicalAction.ite ht.trapHere
    (CanonicalAction.ite ht (CanonicalAction.ite ht ?_)))))
  split
  · exact ht.fetched.trapHere
  · split
    · exact ht.fetched
    · exact ht.fetched

theorem Canonical.queueTurn (h : Canonical s) : CanonicalAction (s.queueTurn die slot) := by
  unfold State.queueTurn
  have ht := h.withCur (x := .queue die slot)
  have hn := ht.nextCommand (die := die) (slot := slot)
  refine CanonicalAction.absent.ite ?_
  dsimp only
  split <;> rename_i e
  · exact ht
  · have hw := e ▸ hn
    exact hw
  · have hw : Canonical _ := e ▸ hn
    split
    · exact CanonicalAction.ite hw hw
    · exact hw

theorem Canonical.withTime {x : Dword} (h : Canonical s) : Canonical { s with gtime := x } := h.same rfl

theorem Canonical.tick {cycles : List Nat} (h : Canonical s) : Canonical (s.tick n cycles) :=
  h.withTime.ite (h.withTime.foldl _ fun _ _ h => h.modMill)

theorem Canonical.withDefer {x : Bool} (h : Canonical s) : Canonical { s with defer := x } := h.same rfl
theorem Canonical.withLast (h : Canonical s) : Canonical { s with last := n } := h.same rfl
theorem Canonical.withRound (h : Canonical s) : Canonical { s with round := n } := h.same rfl
theorem Canonical.atEvent {x : Bool} (h : Canonical s) : Canonical { s with cur := .nobody, defer := x } := h.same rfl

theorem Canonical.nextMover (h : Canonical s) : CanonicalAction s.nextMover := by
  unfold State.nextMover
  dsimp only
  split
  · rename_i n _
    have ha : CanonicalAction (if n < 2340 then ({ s with defer := false } : State).agentTurn n
        else ({ s with defer := false } : State).queueTurn ((n - 2340) / 64) ((n - 2340) % 64)) :=
      CanonicalAction.ite h.withDefer.agentTurn h.withDefer.queueTurn
    split <;> rename_i e <;> rw [e] at ha
    · exact Canonical.withLast ha
    · exact Canonical.withLast ha
    · trivial
  · exact h.tick.withLast

theorem Canonical.event {o : Option Instr} {a : Action} (h : Canonical s)
    (e : o.map (fun i => Action.exec i { s with cur := .nobody, defer := false }) = some a) : CanonicalAction a := by
  obtain ⟨i, -, rfl⟩ := Option.map_eq_some_iff.1 e
  exact h.atEvent

theorem Canonical.dueOf {a : Action} (h : Canonical s) (e : s.dueOf k = some a) : CanonicalAction a := by
  unfold State.dueOf at e
  dsimp only at e
  split at e
  · split at e
    · cases e; exact h.setReady
    · exact h.event e
  · exact h.event e
  · exact h.event e
  · exact h.event e
  · exact h.event e
  · exact h.event e
  · cases e; exact h.nextMover

theorem Canonical.firstDue {l : List Nat} (h : Canonical s) : CanonicalAction (s.firstDue l) := by
  induction l with
  | nil => exact h
  | cons n l ih =>
    unfold State.firstDue
    rcases e : State.dueOf { s with round := n + 1 } (n % 7) with _ | a
    · exact ih
    · exact h.withRound.dueOf e

theorem Canonical.strike {space a : Nat} {bad : Bool} (h : Canonical s) : Canonical (s.strike space a bad) := h.same rfl
theorem Canonical.withAgenda {x : List Turn} (h : Canonical s) : Canonical { s with agenda := x } := h.same rfl

theorem Canonical.nextAction (h : Canonical s) : CanonicalAction s.nextAction := by
  unfold State.nextAction
  split
  · exact h.firstDue
  · replace h := h.withAgenda (x := ‹List Turn›)
    rename_i turn _ _
    cases turn with
    | run f => exact h.withDefer.agentTurn
    | push f => exact h.withDefer.agentTurn
    | queue die slot => exact h.withDefer.queueTurn
    | event i => exact CanonicalAction.absent.ite (CanonicalAction.ite h h.atEvent)
    | member f k => exact CanonicalAction.absent.ite h.askMember
    | access f k => exact CanonicalAction.absent.ite (h.accessTurn.ite h)
    | element m row col => exact CanonicalAction.absent.ite h.drawElement
    | job id n =>
      dsimp only
      split
      · exact h.performSome
      · trivial
    | memory space a bad => exact h.strike
    | hostAtomic part addr op bytes cmp => exact h.hostAtomic
    | windowWrite w off v =>
      dsimp only
      split
      · exact h.registerWrite
      · trivial
    | walk part va => exact h.noteWalk
    | image k x => exact h.same rfl
    | ready k => exact h.setReady
    | calibrate stack on => exact CanonicalAction.absent.ite h.calibrate
    | time ns cycles => exact h.tick

theorem Canonical.step (h : Canonical s) (e : step s = .next t) : Canonical t := by
  have ha := h.nextAction
  unfold Machine.step at e
  split at e <;> rename_i ea <;> rw [ea] at ha
  · exact Canonical.exec ha _ t e
  · cases e; exact ha
  · cases e

/-- Settles O60: `Canonical` names the parts of the invariant, and each operation of the model keeps them. -/
theorem everyStepKeepsTheInvariant : Obligations.EveryStepKeepsTheInvariant :=
  fun _ _ h e => inv_iff_canonical.2 ((inv_iff_canonical.1 h).step e)

/-! ### Reset -/

theorem ctx_reset (f : Nat) : State.reset.ctx f = Ctx.reset := rfl

theorem canonical_reset : Canonical State.reset := { dev := rfl, host := rfl, peer := rfl, scr := rfl, agents := .nil }

/-- Settles O59: every table of the reset state is empty, so what it is asked for is at its default. -/
theorem resetMeetsTheInvariant : Obligations.ResetMeetsTheInvariant := by
  refine ⟨inv_iff_canonical.2 canonical_reset, fun a => ⟨rfl, rfl, rfl, rfl⟩, fun f => ⟨rfl, ?_⟩, fun die slot => rfl⟩
  simp [State.acts, ctx_reset, Ctx.reset]

end Sys2Proof.Proofs
end

section
/-! SUPPORT. What the tag table's instructions leave of a mill's table: one set at most is written, and no key stands twice in it (R206 to R208). -/

namespace Sys2Proof.Proofs

open Sys2Proof Sys2Proof.Machine Sys2Proof.Laws Sys2Proof.Safety

/-- A thread has no matrix operation of its own, so that its trap waits for the vector queue alone (R76, R376). -/
theorem trapHere_thread {s : State} {f : Nat} (t : Trap) (hf : f < 2304) (hl : (s.ctx f).late = none) (hq : (s.ctx f).quiet = true) :
    s.trapHere f t = stopped s f t :=
  trapHere_settled t hl ⟨hq, by simp [State.matIdle, not_core hf]⟩

theorem tagHolds_iff (v : Dword) (key : Nat) : tagHolds v key = true ↔ bitsAt v 0 2 ≠ 0 ∧ bitsAt v 10 54 = key := by
  simp [tagHolds]

theorem tagHolds_zero (key : Nat) : tagHolds 0 key = false := by simp [tagHolds, bitsAt]

theorem mem_setSlots (key sl : Nat) : sl ∈ setSlots key ↔ sl / 16 = key % 256 := by
  simp only [setSlots, List.mem_map, List.mem_range]
  constructor
  · rintro ⟨i, hi, rfl⟩; omega
  · intro h; exact ⟨sl % 16, Nat.mod_lt _ (by decide), by omega⟩

/-- The slots of a set found first: none holds the key, or the lowest one that does is met. -/
theorem find_setSlots (key : Nat) (p : Nat → Bool) :
    ((setSlots key).find? p = none ∧ ∀ i < 16, p (16 * (key % 256) + i) = false) ∨
      ∃ i < 16, (setSlots key).find? p = some (16 * (key % 256) + i) ∧ p (16 * (key % 256) + i) = true ∧
        ∀ j < i, p (16 * (key % 256) + j) = false := by
  rw [setSlots, List.find?_map]
  cases h : (List.range 16).find? (p ∘ (16 * (key % 256) + ·)) with
  | none =>
    refine .inl ⟨rfl, fun i hi => ?_⟩
    simpa using List.find?_eq_none.1 h i (List.mem_range.2 hi)
  | some i =>
    obtain ⟨hp, hi, hlow⟩ := List.find?_range_eq_some.1 h
    exact .inr ⟨i, by simpa using hi, rfl, hp, fun j hj => by simpa using hlow j hj⟩

/-- A table in which the entries of the slots listed, but the one that is to be set, no longer hold the key. -/
theorem emptied_tags (m key slot : Nat) (sls : List Nat) (s : State) :
    ∃ ts, sls.foldl (fun s sl => if sl ≠ slot && tagHolds (s.tagValue m sl) key then s.setTagValue m sl 0 else s) s = { s with tags := ts } ∧
      ∀ j, ts.getD j 0 = if ∃ sl ∈ sls, sl ≠ slot ∧ j = m * 4096 + sl ∧ tagHolds (s.tagValue m sl) key = true then 0 else s.tags.getD j 0 := by
  induction sls generalizing s with
  | nil => exact ⟨s.tags, rfl, fun j => by simp⟩
  | cons x sls ih =>
    rw [List.foldl_cons]
    by_cases hx : (decide (x ≠ slot) && tagHolds (s.tagValue m x) key) = true
    · rw [if_pos hx]
      obtain ⟨hne, hhold⟩ : x ≠ slot ∧ tagHolds (s.tagValue m x) key = true := by simpa using hx
      obtain ⟨ts, hts, hget⟩ := ih (s.setTagValue m x 0)
      refine ⟨ts, by rw [hts]; rfl, fun j => ?_⟩
      have hval (sl : Nat) : (s.setTagValue m x 0).tagValue m sl = if sl = x then 0 else s.tagValue m sl := by
        show Assoc.getD (s.tags.put (m * 4096 + x) 0) (m * 4096 + sl) 0 = _
        rw [getD_put]
        exact if_congr (by omega) rfl rfl
      have hold : (s.setTagValue m x 0).tags.getD j 0 = if j = m * 4096 + x then 0 else s.tags.getD j 0 := getD_put _ _ _ _ _
      rw [hget, hold]
      by_cases hj : j = m * 4096 + x
      · have : ∃ sl ∈ x :: sls, sl ≠ slot ∧ j = m * 4096 + sl ∧ tagHolds (s.tagValue m sl) key = true :=
          ⟨x, List.mem_cons_self, hne, hj, hhold⟩
        rw [if_pos hj, ite_self, if_pos this]
      · rw [if_neg hj]
        refine if_congr ⟨?_, ?_⟩ rfl rfl
        · rintro ⟨sl, hsl, hs, rfl, hk⟩
          rw [hval, if_neg (by rintro rfl; exact hj rfl)] at hk
          exact ⟨sl, List.mem_cons_of_mem _ hsl, hs, rfl, hk⟩
        · rintro ⟨sl, hsl, hs, rfl, hk⟩
          have hsx : sl ≠ x := by rintro rfl; exact hj rfl
          exact ⟨sl, (List.mem_cons.1 hsl).resolve_left hsx, hs, rfl, by rwa [hval, if_neg hsx]⟩
    · rw [if_neg hx]
      obtain ⟨ts, hts, hget⟩ := ih s
      refine ⟨ts, hts, fun j => ?_⟩
      rw [hget]
      refine if_congr ⟨?_, ?_⟩ rfl rfl
      · rintro ⟨sl, hsl, hs⟩
        exact ⟨sl, List.mem_cons_of_mem _ hsl, hs⟩
      · rintro ⟨sl, hsl, hs, hj, hk⟩
        have hsx : sl ≠ x := by rintro rfl; exact hx (by simp [hs, hk])
        exact ⟨sl, (List.mem_cons.1 hsl).resolve_left hsx, hs, hj, hk⟩

/-! ### The three instructions -/

theorem tlook_reports {s : State} {f : Nat} {d a : BitVec 5} (h : Ready s f [d.toNat, a.toNat]) (hf : f < 2304) :
    exec (.tlook d a) s = .next (wrote s f d (tlookValue s (millOf f) (bitsAt ((s.ctx f).s a.toNat) 10 54))) :=
  congrArg Host.Outcome.next (threadOnly_ready _ h hf)

/-- What `tlook` answers: -1, or the lowest slot of the set that holds the key, -2 in its place while it is pending (R207). -/
theorem tlookValue_cases (s : State) (m key : Nat) :
    (tlookValue s m key = -1 ∧ ∀ i < 16, tagHolds (s.tagValue m (16 * (key % 256) + i)) key = false) ∨
      ∃ i < 16, tagHolds (s.tagValue m (16 * (key % 256) + i)) key = true ∧
        (∀ j < i, tagHolds (s.tagValue m (16 * (key % 256) + j)) key = false) ∧
        tlookValue s m key =
          if bitAt (s.tagValue m (16 * (key % 256) + i)) 0 then -2 else BitVec.ofNat 64 (16 * (key % 256) + i) := by
  unfold tlookValue
  rcases find_setSlots key fun sl => tagHolds (s.tagValue m sl) key with ⟨h, hnone⟩ | ⟨i, hi, h, hp, hlow⟩
  · exact .inl ⟨by rw [h], hnone⟩
  · exact .inr ⟨i, hi, hp, hlow, by rw [h]⟩

/-- `tinv` empties its slot and leaves every other entry. -/
theorem tinv_empties {s : State} {f : Nat} {d a : BitVec 5} (h : ThreadReady s f [d.toNat, a.toNat]) :
    exec (.tinv d a) s = .next (
      if 4096 ≤ ((s.ctx f).s a.toNat).toNat then s.trapHere f .operand
      else next (s.setTagValue (millOf f) ((s.ctx f).s a.toNat).toNat 0) f
        ((s.ctx f).setS d.toNat (s.tagValue (millOf f) ((s.ctx f).s a.toNat).toNat))) :=
  congrArg Host.Outcome.next (threadCertain_ready _ h)

/-- The table after a `tset` of key, with P or V, in slot `slot` of mill m. -/
def taggedTable (s : State) (m key p slot : Nat) : State :=
  ((setSlots key).foldl (fun s sl => if sl ≠ slot && tagHolds (s.tagValue m sl) key then s.setTagValue m sl 0 else s) s).setTagValue m slot
    (BitVec.ofNat 64 (key * 1024 + (1 - p) * 2 + p))

theorem taggedTable_frame (s : State) (m key p slot : Nat) (hp : p < 2) :
    ∃ ts, taggedTable s m key p slot = { s with tags := ts } ∧
      ∀ j, ts.getD j 0 = if j = m * 4096 + slot then BitVec.ofNat 64 (key * 1024 + if p = 0 then 2 else 1)
        else if ∃ sl ∈ setSlots key, sl ≠ slot ∧ j = m * 4096 + sl ∧ tagHolds (s.tagValue m sl) key = true then 0 else s.tags.getD j 0 := by
  obtain ⟨ts, hts, hget⟩ := emptied_tags m key slot (setSlots key) s
  refine ⟨ts.put (m * 4096 + slot) (BitVec.ofNat 64 (key * 1024 + (1 - p) * 2 + p)), by rw [taggedTable, hts]; rfl, fun j => ?_⟩
  have hv : key * 1024 + (1 - p) * 2 + p = key * 1024 + if p = 0 then 2 else 1 := by split <;> omega
  rw [getD_put, hget, hv]

theorem tset_places {s : State} {f : Nat} {d a b : BitVec 5} (h : ThreadReady s f [d.toNat, a.toNat, b.toNat]) :
    let key := bitsAt ((s.ctx f).s a.toNat) 10 54
    let p := bitsAt ((s.ctx f).s a.toNat) 0 1
    let slot := ((s.ctx f).s b.toNat).toNat
    exec (.tset d a b) s = .next (
      if 4096 ≤ slot ∨ slot / 16 ≠ key % 256 then s.trapHere f .operand
      else if p = 0 ∧ s.released f = false then s.stall f .release
      else next (taggedTable s (millOf f) key p slot) f ((s.ctx f).setS d.toNat (s.tagValue (millOf f) slot))) := by
  obtain ⟨ts, hts, -⟩ := taggedTable_frame s (millOf f) (bitsAt ((s.ctx f).s a.toNat) 10 54) (bitsAt ((s.ctx f).s a.toNat) 0 1)
    ((s.ctx f).s b.toNat).toNat (Nat.mod_lt _ (by decide))
  have hctx : (taggedTable s (millOf f) (bitsAt ((s.ctx f).s a.toNat) 10 54) (bitsAt ((s.ctx f).s a.toNat) 0 1)
      ((s.ctx f).s b.toNat).toNat).ctx f = s.ctx f := by rw [hts]; rfl
  dsimp only [next]
  rw [hctx]
  exact (congrArg Host.Outcome.next (threadCertain_ready _ h)).trans
    (congrArg Host.Outcome.next (if_congr (by simp) rfl (if_congr (by simp) rfl rfl)))

/-- A key in a set of the mill's table, by its place in the table and by its slot. -/
theorem inSet_iff {s : State} {m key slot j : Nat} :
    (∃ sl ∈ setSlots key, sl ≠ slot ∧ j = m * 4096 + sl ∧ tagHolds (s.tagValue m sl) key = true) ↔
      m * 4096 ≤ j ∧ j - m * 4096 ≠ slot ∧ (j - m * 4096) / 16 = key % 256 ∧ bitsAt (s.tagValue m (j - m * 4096)) 0 2 ≠ 0 ∧
        bitsAt (s.tagValue m (j - m * 4096)) 10 54 = key := by
  constructor
  · rintro ⟨sl, hsl, hne, rfl, hk⟩
    have hsub : m * 4096 + sl - m * 4096 = sl := by omega
    rw [hsub]
    exact ⟨by omega, hne, (mem_setSlots key sl).1 hsl, (tagHolds_iff _ _).1 hk⟩
  · rintro ⟨hle, hne, hset, hk⟩
    exact ⟨j - m * 4096, (mem_setSlots key _).2 hset, hne, by omega, (tagHolds_iff _ _).2 hk⟩

/-- The same table in the terms of one set of one mill. -/
theorem taggedTable_entries {s : State} {ts : Assoc Dword} {m key slot : Nat} {x : Dword} (hs : slot < 4096)
    (h : ∀ j, ts.getD j 0 = if j = m * 4096 + slot then x
      else if ∃ sl ∈ setSlots key, sl ≠ slot ∧ j = m * 4096 + sl ∧ tagHolds (s.tagValue m sl) key = true then 0 else s.tags.getD j 0) (j : Nat) :
    ts.getD j 0 = if m * 4096 ≤ j ∧ j < (m + 1) * 4096 then
        if j - m * 4096 = slot then x
        else if (j - m * 4096) / 16 = key % 256 ∧ bitsAt (s.tagValue m (j - m * 4096)) 0 2 ≠ 0 ∧
          bitsAt (s.tagValue m (j - m * 4096)) 10 54 = key then 0
        else s.tagValue m (j - m * 4096)
      else s.tags.getD j 0 := by
  rw [h, if_congr inSet_iff rfl rfl]
  by_cases hm : m * 4096 ≤ j ∧ j < (m + 1) * 4096
  · have hv : s.tagValue m (j - m * 4096) = s.tags.getD j 0 := by rw [State.tagValue, Nat.add_sub_cancel' hm.1]
    rw [if_pos hm, hv]
    by_cases hj : j - m * 4096 = slot
    · rw [if_pos hj, if_pos (by omega)]
    · rw [if_neg hj, if_neg (by omega)]
      exact if_congr ⟨fun ⟨_, _, h⟩ => h, fun h => ⟨hm.1, hj, h⟩⟩ rfl rfl
  · have hset : ¬ (m * 4096 ≤ j ∧ (j - m * 4096) / 16 = key % 256) := by omega
    rw [if_neg hm, if_neg (by omega), if_neg fun ⟨hle, _, hin, _⟩ => hset ⟨hle, hin⟩]

/-- One entry of a mill's table set. -/
theorem setTagValue_entries (s : State) {m slot : Nat} (x : Dword) (hs : slot < 4096) (j : Nat) :
    (s.setTagValue m slot x).tags.getD j 0 = if m * 4096 ≤ j ∧ j < (m + 1) * 4096 then
      if j - m * 4096 = slot then x else s.tagValue m (j - m * 4096) else s.tags.getD j 0 := by
  have hput : (s.setTagValue m slot x).tags.getD j 0 = if j = m * 4096 + slot then x else s.tags.getD j 0 := getD_put _ _ _ _ _
  rw [hput]
  by_cases hm : m * 4096 ≤ j ∧ j < (m + 1) * 4096
  · rw [if_pos hm, State.tagValue, Nat.add_sub_cancel' hm.1]
    exact if_congr (by omega) rfl rfl
  · rw [if_neg hm, if_neg (by omega)]

/-- Settles O34: each of the three comes to its rule's branches, and the table after a `tset` is read entry by entry. -/
theorem tagTableActsOnOneSet : Obligations.TagTableActsOnOneSet := by
  unfold Obligations.TagTableActsOnOneSet
  intro s f d a b
  dsimp only
  refine ⟨fun h hf => ?_, fun h => ?_, fun h => ?_⟩
  · refine ⟨_, tlook_reports h hf, ?_⟩
    simp only [← tagHolds_iff, Bool.not_eq_true]
    exact tlookValue_cases s _ _
  · obtain ⟨⟨-, -, -, hl, -⟩, hf, -⟩ := id h
    rw [tset_places h]
    by_cases hbad : 4096 ≤ ((s.ctx f).s b.toNat).toNat ∨ ((s.ctx f).s b.toNat).toNat / 16 ≠ bitsAt ((s.ctx f).s a.toNat) 10 54 % 256
    · rw [if_pos hbad, if_pos hbad]
      exact fun hq => by rw [trapHere_thread _ hf hl hq]
    rw [if_neg hbad, if_neg hbad]
    by_cases hrel : bitsAt ((s.ctx f).s a.toNat) 0 1 = 0 ∧ s.released f = false
    · rw [if_pos hrel, if_pos hrel, stall_waits _ hl]
    rw [if_neg hrel, if_neg hrel]
    obtain ⟨ts, hts, hget⟩ := taggedTable_frame s (millOf f) (bitsAt ((s.ctx f).s a.toNat) 10 54) (bitsAt ((s.ctx f).s a.toNat) 0 1)
      ((s.ctx f).s b.toNat).toNat (Nat.mod_lt _ (by decide))
    exact ⟨ts, by rw [hts]; rfl, taggedTable_entries (by omega) hget⟩
  · obtain ⟨⟨-, -, -, hl, -⟩, hf, -⟩ := id h
    rw [tinv_empties h]
    by_cases hbad : 4096 ≤ ((s.ctx f).s a.toNat).toNat
    · rw [if_pos hbad, if_pos hbad]
      exact fun hq => by rw [trapHere_thread _ hf hl hq]
    · rw [if_neg hbad, if_neg hbad]
      exact ⟨_, rfl, setTagValue_entries s 0 (by omega)⟩

end Sys2Proof.Proofs
end

section
/-! SUPPORT. What loads, retires and reports a view, and what the live-view directory counts against it (R162, R163, R202 to R204). -/

namespace Sys2Proof.Proofs

open Sys2Proof Sys2Proof.Machine Sys2Proof.Laws Sys2Proof.Safety

/-! ### The count of a view -/

/-- Element groups left to a queued vector access that goes on at an element, when it goes through a view that is counted. -/
def groupsLeft (c : Ctx) (counted : Via → Bool) (e : VqEntry) (start : Nat) : Nat :=
  if (e.via.map counted).getD false && !e.done then State.groupsBetween (c.groupOf e) start c.reals else 0

/-- Where the entry at a place of a queue goes on, the strip's start being `st`. -/
def goesOnAt (vq : List VqEntry) (st j : Nat) (e : VqEntry) : Nat :=
  if e.begun then e.start else if (vq.take j).all (·.done) then st else 0

/-- With no grant and no change of G in the queue, each entry keeps the strip, and all but the oldest start at 0 (R39, R41, R130). -/
theorem strips_groups (c : Ctx) (counted : Via → Bool) (vq : List VqEntry) (st : Nat)
    (h : ∀ e ∈ vq, opOf e.word ≠ 0x1E ∧ e.granted = false) :
    (((c.strips vq (c.vl, c.vpad, st)).1.filter fun x => (x.1.via.map counted).getD false).map (State.accessGroups c)).sum =
      ((List.range vq.length).map fun j => (vq[j]?).elim 0 fun e => groupsLeft c counted e (goesOnAt vq st j e)).sum := by
  induction vq generalizing st with
  | nil => rfl
  | cons e vq ih =>
    obtain ⟨hop, hg⟩ := h e List.mem_cons_self
    have hstrips : (c.strips (e :: vq) (c.vl, c.vpad, st)).1 =
        (e, c.vl, c.vpad, if e.begun then e.start else st) :: (c.strips vq (c.vl, c.vpad, if e.done then st else 0)).1 := by
      simp [Ctx.strips, hop, hg]
    have hhead : ((if (e.via.map counted).getD false then [(e, c.vl, c.vpad, if e.begun then e.start else st)] else []).map
        (State.accessGroups c)).sum = groupsLeft c counted e (goesOnAt (e :: vq) st 0 e) := by
      unfold groupsLeft goesOnAt State.accessGroups
      cases hc : (e.via.map counted).getD false <;> cases hd : e.done <;> simp [Ctx.reals, hd]
    have htail (j : Nat) (x : VqEntry) : goesOnAt (e :: vq) st (j + 1) x = goesOnAt vq (if e.done then st else 0) j x := by
      unfold goesOnAt
      cases hd : e.done <;> simp [hd]
    rw [hstrips, List.length_cons, List.range_succ_eq_map, List.map_cons, List.sum_cons, List.map_map]
    have hrest := ih (if e.done then st else 0) fun x hx => h x (List.mem_cons_of_mem _ hx)
    simp only [Function.comp_def, List.getElem?_cons_succ, List.getElem?_cons_zero, Option.elim_some, Nat.succ_eq_add_one, htail, ← hrest,
      ← hhead, List.filter_cons]
    cases (e.via.map counted).getD false <;> simp

/-- What stands against w[n], at most 4,095 (R162, R163). -/
theorem viewCount_eq (c : Ctx) (n : Nat) (h : ∀ e ∈ c.vq, opOf e.word ≠ 0x1E ∧ e.granted = false) :
    State.viewCount c n = min 4095 ((c.xq.filter fun e => e.via.isNow n).length +
      ((List.range c.vq.length).map fun j => (c.vq[j]?).elim 0 fun e =>
        groupsLeft c (Via.isNow · n) e (goesOnAt c.vq c.vstart j e)).sum) := by
  unfold State.viewCount Ctx.stripsNow
  rw [strips_groups c (Via.isNow · n) c.vq c.vstart h]

/-! ### `vwset` -/

/-- The address that a passed check answers is that of the walk. -/
theorem externalCheck_addr {s : State} {f A n al : Nat} {v : Line} {B : Dword} {u : Use} {step : Bool} {l : Loc}
    (h : externalCheck s f v B n al u step = .ok (A, l)) : ((externalAddr v B n).1 % 2 ^ 72).toNat = A := by
  unfold externalCheck at h
  dsimp only at h
  split at h
  · next t _ =>
    split at h
    · cases h
    · split_ifs at h
  · split_ifs at h
    injection h with h
    exact congrArg Prod.fst h

theorem vwsetBad_fixed {n : BitVec 4} (h : n = 0 ∨ n = 15) (f : Nat) (c : Ctx) : vwsetBad n f c = some .operand :=
  if_pos (by simpa using h)

theorem vwsetBad_free {n : BitVec 4} (h : ¬ (n = 0 ∨ n = 15)) (f : Nat) (c : Ctx) : vwsetBad n f c = none :=
  if_neg (by simpa using h)

/-- A thread's instruction refused by its word or the registers it reads (R75, R76). -/
theorem threadOnlyChecked_refused {s : State} {f : Nat} {rs : List Nat} {bad : Nat → Ctx → Option Trap} {t : Trap}
    (k : Nat → Ctx → State → State) (h : Ready s f rs) (hf : f < 2304) (hb : bad f (s.ctx f) = some t) (hs : Settled s f) :
    s.threadOnlyChecked bad rs k = stopped s f t := by
  obtain ⟨hc, hp, -, hl, -⟩ := h
  unfold State.threadOnlyChecked State.checked
  simp only [me_agent hc, not_core hf, Bool.false_eq_true, if_false, hc, hp, hb]
  exact trapHere_settled _ hl hs

/-- The descriptor x in w[n], once the tables have been walked for the address it was read at (R488). -/
def viewLoaded (s : State) (f n : Nat) (d x : Line) (A : Nat) (c : Ctx) : State :=
  next (if View.space d = 2 then s.noteWalk (s.partOf f) A else s) f { c with views := c.views.setIfInBounds n (some x) }

/-- A descriptor that can be read is loaded, when it satisfies R201 and there is an entry that its outstanding accesses can drain through. -/
theorem vwset_reads {s : State} {f A : Nat} {n m : BitVec 4} {a : BitVec 5} {v : Line} {l : Loc} (h : Ready s f [a.toNat]) (hf : f < 2304)
    (hn : ¬ (n = 0 ∨ n = 15)) (hv : (s.ctx f).view false m.toNat = some v) (hb : ExternalBounds v ((s.ctx f).s a.toNat) 64 A)
    (hloc : s.locate f v A 64 .read = .ok l) (hA : A % 64 = 0) (ho : InOrder s f m true) (hx : s.xqMeets f v = false)
    (hbusy : s.locBusy l = false) (hr : reachable s l 64) (hw : s.watched f v A 64 true false = false) :
    let x : Line := BitVec.ofNat 512 (s.load l 64)
    exec (.vwset n a m) s = .next (
      if View.valid s.pkg x = false then s.trapHere f { cause := 0x02, faddr := A % 2 ^ 64 }
      else if State.viewCount (s.ctx f) n.toNat = 0 then viewLoaded s f n.toNat v x A (s.ctx f)
      else (s.freeDraining (millOf f)).elim (s.stall f .draining) fun k =>
        viewLoaded s f n.toNat v x A ((s.ctx f).drainView n.toNat k)) := by
  have hcheck := externalCheck_ok (step := false) hb hloc hA
  have hunreach : s.unreachable l = false := by
    cases l <;> simp [State.unreachable]
    exact hr.1 _ rfl
  have hload (c : Ctx) : ((s.noteAccess f v ((s.ctx f).s a.toNat) 64).setCtx f
      ((c.setView n.toNat (some (BitVec.ofNat 512 (s.load l 64)))).retire ((s.ctx f).pc + 4))) =
        viewLoaded s f n.toNat v (BitVec.ofNat 512 (s.load l 64)) A c := by
    unfold State.noteAccess viewLoaded next
    rw [externalCheck_addr hcheck]
    split
    · obtain ⟨w, hwalk⟩ := noteWalk_frame s (s.partOf f) A
      rw [hwalk]; rfl
    · rfl
  refine (congrArg Host.Outcome.next (threadOnlyChecked_ready _ h hf (vwsetBad_free hn _ _))).trans ?_
  dsimp only
  rw [hv]
  dsimp only
  rw [hcheck]
  dsimp only
  rw [hw]
  simp only [ho.1, hx, Nat.ne_of_lt ho.2, hbusy, hunreach, hr.2, State.watchScalar, hload, State.viewValid]
  congr 1
  cases View.valid s.pkg (BitVec.ofNat 512 (s.load l 64))
  · rfl
  by_cases hcount : State.viewCount (s.ctx f) n.toNat = 0
  · simp [hcount]
  cases s.freeDraining (millOf f)
  · simp [hcount]
  · next k =>
    simp only [hcount, ne_eq, not_false_eq_true, decide_true, Bool.not_true, Bool.false_eq_true, if_false]
    exact hload ((s.ctx f).drainView n.toNat k)

/-! ### `vwret` and `vwget` -/

theorem viaOpen_iff (c : Ctx) (n : Nat) : c.viaOpen n = true ↔
    (∃ e ∈ c.xq, e.via.reg = n) ∨ (∃ e ∈ c.vq, e.done = false ∧ ∃ x, e.via = some x ∧ x.reg = n) ∨
      (c.fetching = true ∧ ∃ u, c.view false n = some u ∧ View.space u ≤ 1) := by
  have hvia (e : VqEntry) : (e.via.map fun v => decide (v.reg = n)).getD false = true ↔ ∃ x, e.via = some x ∧ x.reg = n := by
    cases e.via <;> simp
  have hview : ((c.view false n).map fun d => decide (View.space d ≤ 1)).getD false = true ↔ ∃ u, c.view false n = some u ∧ View.space u ≤ 1 := by
    cases c.view false n <;> simp
  simp only [Ctx.viaOpen, Bool.or_eq_true, Bool.and_eq_true, List.any_eq_true, decide_eq_true_eq, Bool.not_eq_true', hvia, hview, or_assoc]

theorem vwret_retires {s : State} {f : Nat} {n : BitVec 4} (h : Ready s f []) (hf : f < 2304) (hn : ¬ (n = 0 ∨ n = 15)) :
    exec (.vwret n) s = .next (
      if s.orderHeld f n.toNat true then waiting s f (.order n.toNat true)
      else if (s.ctx f).viaOpen n.toNat then waiting s f (.views n.toNat)
      else next s f { s.ctx f with views := (s.ctx f).views.setIfInBounds n.toNat none }) := by
  obtain ⟨-, -, -, hl, -⟩ := id h
  refine (congrArg Host.Outcome.next (threadOnlyChecked_ready _ h hf (vwsetBad_free hn _ _))).trans ?_
  rw [← stall_waits _ hl, ← stall_waits _ hl]
  rfl

theorem vwget_reads {s : State} {f : Nat} {d : BitVec 5} {n : BitVec 4} {k : BitVec 3} (h : Ready s f [d.toNat]) (hf : f < 2304) :
    exec (.vwget d n k) s = .next (wrote s f d (viewPart (s.ctx f) n.toNat k.toNat)) :=
  congrArg Host.Outcome.next (threadOnly_ready _ h hf)

/-- Settles O33: each of the three comes to its rule's branches, and the count is taken strip by strip. -/
theorem viewsLoadRetireAndReport : Obligations.ViewsLoadRetireAndReport := by
  unfold Obligations.ViewsLoadRetireAndReport
  intro s f n m d a k v A l
  dsimp only
  refine ⟨fun hq => ?_, fun h hf => ⟨fun hn hs => ?_, fun hn hv hs => ?_, fun hn hv hb hloc hA ho hx hbusy hr hw => ?_⟩,
    fun h hf => ⟨fun hn hs => ?_, fun hn hheld => ?_, fun hn hheld => ⟨fun hopen => ?_, fun hopen => ?_⟩⟩, fun h hf => ?_⟩
  · rw [viewCount_eq _ _ hq]
    congr 3
    refine List.map_congr_left fun j _ => ?_
    cases (s.ctx f).vq[j]? <;> rfl
  · exact congrArg Host.Outcome.next (threadOnlyChecked_refused _ h hf (vwsetBad_fixed hn _ _) hs)
  · obtain ⟨-, -, -, hl, -⟩ := id h
    refine (congrArg Host.Outcome.next (threadOnlyChecked_ready _ h hf (vwsetBad_free hn _ _))).trans ?_
    dsimp only
    rw [hv]
    exact congrArg Host.Outcome.next (trapHere_settled _ hl hs)
  · obtain ⟨-, -, -, hl, -⟩ := id h
    rw [vwset_reads h hf hn hv hb hloc hA ho hx hbusy hr hw]
    refine ⟨fun hbad hs => ?_, fun hok => ⟨fun hc => ?_, fun hc hfree => ?_, fun k hc hfree => ?_⟩⟩
    · rw [if_pos hbad, trapHere_settled _ hl hs]
    · rw [if_neg (by simp [hok]), if_pos hc]; rfl
    · rw [if_neg (by simp [hok]), if_neg hc, hfree, Option.elim_none, stall_waits _ hl]
    · rw [if_neg (by simp [hok]), if_neg hc, hfree]; rfl
  · exact congrArg Host.Outcome.next (threadOnlyChecked_refused _ h hf (vwsetBad_fixed hn _ _) hs)
  · rw [vwret_retires h hf hn, if_pos hheld]
  · rw [vwret_retires h hf hn, if_neg (by simp [hheld]), if_pos ((viaOpen_iff _ _).2 hopen)]
  · rw [vwret_retires h hf hn, if_neg (by simp [hheld]), if_neg fun ho => hopen ((viaOpen_iff _ _).1 ho)]
  · have hk : k.toNat = 6 ↔ k = 6 := by bv_omega
    rw [vwget_reads h hf, viewPart]
    cases (s.ctx f).view false n.toNat
    · rfl
    · simp only [hk]

end Sys2Proof.Proofs
end

section
/-! SUPPORT. A peer's compare-and-swap whose compared value is wider than the word (R210, R410). -/

namespace Sys2Proof.Proofs

open Sys2Proof Sys2Proof.Machine Sys2Proof.Laws Sys2Proof.Safety Host

/-- Partition 1 is live under fabric tag 7, its memory is ready and holds zeros from 0x100000, and a link is up. -/
def taggedPartition : State := (State.reset.placePartition.setReg .ready 0x08 (255 + 2 ^ 10)).setReg (.part 1) 0x28 7

/-- The operand of the swap: 1 in eight bytes. -/
def swapOperand : List Byte := [1, 0, 0, 0, 0, 0, 0, 0]

/-- Device memory after an event. -/
def devAfter : Out → Mem
  | .next s => s.dev
  | _ => []

theorem taggedPartition_linked : taggedPartition.asleep = false ∧ bitsAt (taggedPartition.reg .ready 0x08) 10 12 ≠ 0 ∧
    bitsAt (taggedPartition.reg (.part 1) 0x00) 0 2 = 2 ∧ bitsAt (taggedPartition.reg (.part 1) 0x28) 0 16 = 7 ∧
    taggedPartition.rangeBusy 1 0x100000 swapOperand.length = false := by decide +kernel

/-- Where the tables send the address. -/
def swapped : Xlat := ⟨0x100000, false, true, 0x100000, [0x80000, 0xA0000, 0xB0000]⟩

theorem taggedPartition_translates : taggedPartition.translate 1 0x100000 .read = .ok swapped ∧
    taggedPartition.translate 1 0x100000 .write = .ok swapped := ⟨by rfl, by rfl⟩

theorem swapped_writable : taggedPartition.codePage 1 swapped.phys = false ∧ taggedPartition.struck (.dev swapped.phys swapped.dev) 8 = false := by
  decide +kernel

/-- The model compares the whole number, which no word equals, and leaves 0 in memory; on words of 64 bits the compared value is 0, and 1 is stored. -/
theorem swap_memory : Mem.get (devAfter (exec (.peerRequest 7 0x100000 (2 + 9) [2 ^ 64] swapOperand) taggedPartition)) 0x100000 = 0 ∧
    Mem.get (taggedPartition.dev.write swapped.phys 8 (atomicResult 9 (BitVec.ofNat 64 (taggedPartition.dev.read swapped.phys 8))
      (BitVec.ofNat 64 (swapOperand.foldr (fun x acc => x.toNat + 256 * acc) 0)) (BitVec.ofNat 64 (2 ^ 64))).toNat) 0x100000 = 1 := by
  decide +kernel

/-- Refutes O55: the statement takes the compared value of a peer's compare-and-swap on words of 64 bits, and asks for it of every argument; the model
compares an argument of 2^64 or above as it stands, so that it meets no word. No PML request carries such an argument. -/
theorem not_outsideRequestsAndAttestationAreAnswered : ¬ Obligations.OutsideRequestsAndAttestationAreAnswered := by
  unfold Obligations.OutsideRequestsAndAttestationAreAnswered
  intro h
  obtain ⟨hawake, hlink, hlive, htag, hready⟩ := taggedPartition_linked
  obtain ⟨hread, hwrite⟩ := taggedPartition_translates
  obtain ⟨hcode, hstruck⟩ := swapped_writable
  obtain ⟨hmodel, hstated⟩ := swap_memory
  obtain ⟨-, -, -, -, -, -, -, -, -, ⟨-, hpeer⟩, -⟩ := h taggedPartition 1 0x100000 (2 ^ 64) 7 0 0 0 0 0 0 0 swapOperand
  obtain ⟨-, -, -, hserved⟩ := hpeer 1 ⟨hawake, hlink, by decide⟩ ⟨by decide, by decide, hlive, htag⟩ (by omega)
  obtain ⟨-, -, hatomic, -⟩ := hserved hready
  have hexec := hatomic 9 (by decide) swapped rfl (by decide) hread hwrite hcode hstruck
  rw [hexec] at hmodel
  exact absurd (hmodel.symm.trans hstated) (by decide)

end Sys2Proof.Proofs
end

section
/-! SUPPORT. The move engines: a card read at its chain's head, a job's elements, its completion, and the contribution of a send (R224 to R229). -/

namespace Sys2Proof.Proofs

open Sys2Proof Sys2Proof.Machine Sys2Proof.Laws Sys2Proof.Safety Host

variable {s t : State} {part die ch : Nat} {j : Job}

/-! ### Receives (R229) -/

/-- No receive waits for its slot. -/
def NoneWaiting (s : State) : Prop := ∀ j ∈ s.jobs, Card.kind j.card = 4 → j.waiting = false

theorem openSlot_idle (h : Card.kind j.card = 4 → j.waiting = false) : s.openSlot j = s := by
  unfold State.openSlot
  refine if_pos ?_
  by_cases hk : Card.kind j.card = 4
  · simp [h hk]
  · simp [hk]

theorem openSlots_idle (h : NoneWaiting s) : s.openSlots = s := by
  suffices ∀ l : List Job, (∀ j ∈ l, Card.kind j.card = 4 → j.waiting = false) → l.foldl (fun s j => s.openSlot j) s = s from this _ h
  intro l hl
  induction l with
  | nil => rfl
  | cons j l ih =>
    rw [List.foldl_cons, openSlot_idle (hl j List.mem_cons_self)]
    exact ih fun x hx => hl x (List.mem_cons_of_mem _ hx)

theorem NoneWaiting.filter {p : Job → Bool} (h : NoneWaiting s) (ht : t.jobs = s.jobs.filter p) : NoneWaiting t :=
  fun j hj => h j (List.mem_of_mem_filter (ht ▸ hj))

theorem NoneWaiting.append (h : NoneWaiting s) (ht : t.jobs = s.jobs ++ [j]) (hj : Card.kind j.card ≠ 4) : NoneWaiting t := by
  intro x hx hk
  rw [ht, List.mem_append, List.mem_singleton] at hx
  rcases hx with hx | rfl
  · exact h x hx hk
  · exact absurd hk hj

/-! ### Completion (R226, R227) -/

/-- A completion record reaches memory and registers of its chain alone, and CHDONE is not among them. -/
theorem writeRecord_frame (s : State) (j : Job) (st fl bytes seq : Nat) : ∃ d w g, s.writeRecord j st fl bytes seq =
    { s with dev := d, walked := w, regs := g } ∧
      State.reg { s with dev := d, walked := w, regs := g } (.chain j.part j.die j.chain) 0x28 = s.reg (.chain j.part j.die j.chain) 0x28 := by
  unfold State.writeRecord
  dsimp only
  split
  · split
    · next hstore =>
      obtain ⟨d, w, rfl⟩ := ringStore_frame hstore
      exact ⟨d, w, s.regs, rfl, rfl⟩
    · exact ⟨s.dev, s.walked, _, rfl, setField_reg_other _ _ _ _ _ _ _ _ (by simp [Window.regKey])⟩
  · exact ⟨s.dev, s.walked, s.regs, rfl, rfl⟩

/-- The state in which the counter that a job's card names has been raised, or a number stands for the count that it has none of. -/
def counted (s : State) (j : Job) : State :=
  if s.cardCounter j then s.raise (s.cardBay j) j.part (Card.ctr j.card) (Card.inc j.card) else s.freshNumber.2

/-- The state in which a job that has been counted is recorded and removed. -/
def removed (s : State) (j : Job) (st fl bytes seq : Nat) : State :=
  let u := (s.writeRecord j st fl bytes seq).bump (.chain j.part j.die j.chain) 0x28
  { u.dropPins (.job j.id) with jobs := u.jobs.filter fun x => x.id ≠ j.id, held := u.held.filter fun c => c.job ≠ some j.id }

theorem completeJob_eq (s : State) (j : Job) (st fl bytes : Nat) : ∃ seq, s.completeJob j st fl bytes = removed (counted s j) j st fl bytes seq := by
  unfold State.completeJob counted removed
  cases s.cardCounter j
  · exact ⟨Config.unstated s.freshNumber.1, rfl⟩
  · exact ⟨min (2 ^ 64 - 1) ((s.counter (s.cardBay j) j.part (Card.ctr j.card)).toNat + Card.inc j.card), rfl⟩

theorem removed_frame (s : State) (j : Job) (st fl bytes seq : Nat) : ∃ d w g, removed s j st fl bytes seq =
    { s with
      dev := d, walked := w, regs := g, pins := s.pins.filter fun p => p.holder ≠ .job j.id
      jobs := s.jobs.filter fun x => x.id ≠ j.id, held := s.held.filter fun c => c.job ≠ some j.id } ∧
      State.reg { s with regs := g } (.chain j.part j.die j.chain) 0x28 = s.reg (.chain j.part j.die j.chain) 0x28 + 1 := by
  obtain ⟨d, w, g, hrec, hreg⟩ := writeRecord_frame s j st fl bytes seq
  unfold removed
  rw [hrec]
  refine ⟨d, w, _, rfl, (reg_setReg_same _ _ _ _).trans ?_⟩
  rw [hreg]

theorem cardCounter_iff (s : State) (j : Job) :
    s.cardCounter j = true ↔ Card.ctr j.card < 320 ∧ (64 ≤ Card.ctr j.card ∨ s.ownerOf (s.cardBay j) = j.part) := by
  unfold State.cardCounter
  rw [Bool.and_eq_true, Bool.or_eq_true, decide_eq_true_iff, decide_eq_true_iff, decide_eq_true_iff]

theorem counted_frame (s : State) (j : Job) : ∃ c n, counted s j = { s with counters := c, fresh := n } := by
  unfold counted
  split
  · exact ⟨_, s.fresh, rfl⟩
  · exact ⟨s.counters, _, rfl⟩

/-- What a completion leaves of the registers, jobs and counters that R226 speaks of. -/
theorem completeJob_parts (s : State) (j : Job) (st fl bytes : Nat) :
    (s.completeJob j st fl bytes).reg (.chain j.part j.die j.chain) 0x28 = s.reg (.chain j.part j.die j.chain) 0x28 + 1 ∧
    (s.completeJob j st fl bytes).jobs = (s.jobs.filter fun x => x.id ≠ j.id) ∧
    (s.completeJob j st fl bytes).counters = (counted s j).counters := by
  obtain ⟨seq, h⟩ := completeJob_eq s j st fl bytes
  obtain ⟨d, w, g, hrem, hreg⟩ := removed_frame (counted s j) j st fl bytes seq
  obtain ⟨c, n, hc⟩ := counted_frame s j
  rw [h, hrem]
  rw [hc] at hreg ⊢
  exact ⟨hreg, rfl, rfl⟩

theorem NoneWaiting.completeJob (h : NoneWaiting s) (j : Job) (st fl bytes : Nat) : NoneWaiting (s.completeJob j st fl bytes) :=
  h.filter (completeJob_parts s j st fl bytes).2.1

/-! ### Elements (R221) -/

theorem store_jobs (s : State) (l : Loc) (n v : Nat) : (s.store l n v).jobs = s.jobs := by
  cases l with
  | slot d k off =>
    show (s.slotWrite d k off v).jobs = s.jobs
    unfold State.slotWrite
    split_ifs <;> rfl
  | _ => rfl

theorem runElements_jobs (j : Job) (n k : Nat) (s : State) : (State.runElements j n k s).1.jobs = s.jobs := by
  induction n generalizing k s with
  | zero => rfl
  | succ n ih =>
    unfold State.runElements
    dsimp only
    split
    · rfl
    · rfl
    · exact (ih _ _).trans (store_jobs _ _ _ _)

/-- An element of a copy or a fill, with the value that it stores (R221). -/
theorem runElements_step {j : Job} {k v : Nat} {l : Loc} (n : Nat) (hk : Card.kind j.card ≤ 1)
    (hfill : Card.kind j.card = 1 → v = Card.param j.card % 2 ^ (8 * j.size))
    (hcopy : Card.kind j.card = 0 → ∃ m, s.jobLoc j (j.view 0) k false = .ok m ∧ v = s.load m j.size)
    (hl : s.jobLoc j (j.view 1) k true = .ok l) :
    State.runElements j (n + 1) k s = State.runElements j n (k + 1) (s.store l j.size v) := by
  have hfold : Card.kind j.card ≠ 2 := by omega
  rw [State.runElements]
  by_cases h1 : Card.kind j.card = 1
  · simp [h1, hl, hfill h1]
  · obtain ⟨m, hm, rfl⟩ := hcopy (by omega)
    simp [h1, hfold, hm, hl]

/-! ### The first job of the scheduler -/

section First

variable {rest : List Job} (hs : s.jobs = j :: rest)

include hs

theorem job_first : s.job j.id = some j := by
  unfold State.job
  rw [hs]
  exact List.find?_cons_of_pos (by simp)

/-- No job is before it, to hold it back (R176). -/
theorem jobBlocked_first : s.jobBlocked j = false := by
  unfold State.jobBlocked
  rw [hs]
  simp

theorem setJob_first (hrest : ∀ x ∈ rest, x.id ≠ j.id) {x : Job} (hx : x.id = j.id) : s.setJob x = { s with jobs := x :: rest } := by
  unfold State.setJob
  have hmap : (rest.map fun y => if y.id = x.id then x else y) = rest :=
    List.map_congr_left (fun y hy => if_neg (hx ▸ hrest y hy)) |>.trans (List.map_id _)
  rw [hs, List.map_cons, hmap, if_pos hx.symm]

/-- A job that is not parked comes to what its run gives, where that leaves no receive waiting. -/
theorem jobComplete_first (hp : j.parked = false) (ha : s.asleep = false) {n : Nat} (hr : s.finishJob j n = t) (ht : NoneWaiting t) :
    exec (.jobComplete j.id n) s = .next t := by
  show Outcome.next _ = _
  rw [job_first hs]
  dsimp only
  rw [hp, ha, hr, openSlots_idle ht]
  rfl

omit hs in
theorem pinAgain_pinned (hpin : ∃ p ∈ s.pins, p.holder = .job j.id) : s.pinAgain j = .ok s := if_pos (by simpa using hpin)

/-- An element whose stack is not ready is waited for (R481). -/
theorem finishJob_waits (hst : j.status = none) (hpin : ∃ p ∈ s.pins, p.holder = .job j.id) (h3 : Card.kind j.card ≠ 3)
    (hb : s.jobBusy j j.off (j.count - j.off) = true) (n : Nat) : s.finishJob j n = s := by
  unfold State.finishJob
  rw [hst]
  dsimp only
  rw [jobBlocked_first hs, if_neg Bool.false_ne_true, if_neg h3, pinAgain_pinned hpin]
  dsimp only
  rw [hb, if_pos rfl]

/-- The elements of a copy, fill or fold copy that are left, up to the one that an error strikes. -/
theorem finishJob_runs (hst : j.status = none) (hpin : ∃ p ∈ s.pins, p.holder = .job j.id) (h3 : Card.kind j.card ≠ 3)
    (h4 : Card.kind j.card ≠ 4) (hb : s.jobBusy j j.off (j.count - j.off) = false) {n k st fl : Nat} {u : State}
    (hr : State.runElements j ((if n = 0 then j.count else min j.count (n - 1)) - j.off) j.off s = (u, k, st, fl)) :
    s.finishJob j n =
      if st = 0 ∧ n ≠ 0 ∧ k < j.count then u.completeJob j 7 0 (k * j.size) else u.completeJob j st fl (k * j.size) := by
  unfold State.finishJob
  rw [hst]
  dsimp only
  rw [jobBlocked_first hs, if_neg Bool.false_ne_true, if_neg h3, pinAgain_pinned hpin]
  dsimp only
  rw [hb, if_neg Bool.false_ne_true, if_neg h4, hr]
  by_cases hstruck : st = 0 ∧ n ≠ 0 ∧ k < j.count
  · simp [hstruck]
  · rw [if_neg hstruck, if_neg (by simpa using hstruck)]

/-- A send that a peer has taken in completes with the peer's answer (R227, R229). -/
theorem finishJob_answered (hst : j.status = none) (h3 : Card.kind j.card = 3) (hw : j.waiting = true) (n : Nat) :
    s.finishJob j n = if n = 1 then s.completeJob j 1 6 0 else s.completeJob j (if n ∈ [6, 7, 8] then n else 0) 0 0 := by
  unfold State.finishJob State.peerAnswer
  rw [hst]
  dsimp only
  rw [jobBlocked_first hs, if_neg Bool.false_ne_true, if_pos h3, hw, if_pos rfl]
  by_cases h1 : n = 1
  · simp [h1]
  · by_cases h6 : n = 6 ∨ n = 7 ∨ n = 8 <;> simp [h1, h6, or_assoc]

/-! ### Sends (R229) -/

/-- The state in which the first job has an outcome. -/
abbrev outcome (s : State) (j : Job) (rest : List Job) (st fl : Nat) : State := { s with jobs := { j with status := some (st, fl) } :: rest }

omit hs in
/-- The state in which a slot has taken in a contribution. -/
def accepted (s : State) (x : FoldSlot) (c : Contribution) : State :=
  { s with folds := s.folds.map fun y => if y.job = x.job then { y with got := y.got ++ [c] } else y }

theorem settleSend_first (hrest : ∀ x ∈ rest, x.id ≠ j.id) {c : Contribution} (hc : c.job = some j.id) (st : Nat) :
    s.settleSend c st = outcome s j rest st 0 := by
  unfold State.settleSend
  rw [hc]
  dsimp only
  rw [job_first hs]
  exact setJob_first hs hrest rfl

/-- A contribution that reaches its slot is accepted, or is not, which is the outcome of its send. -/
theorem deliver_first (hrest : ∀ x ∈ rest, x.id ≠ j.id) {x : FoldSlot} {c : Contribution} (hc : c.job = some j.id) : s.deliver x c =
    if s.slotMatches x c then outcome (accepted s x c) j rest 0 0 else outcome s j rest 6 0 := by
  have haccepted : (accepted s x c).jobs = j :: rest := hs
  rw [← settleSend_first hs hrest hc, ← settleSend_first haccepted hrest hc]
  rfl

/-- What a send offers to its slot. -/
def sentBy (j : Job) (elems : List Nat) : Contribution :=
  ⟨Card.slot j.card, j.first.1, j.first.2, j.part, Card.rank j.card, Card.fold j.card, Card.fop j.card, bitsAt j.card 72 4, j.size, elems, some j.id⟩

variable (hrest : ∀ x ∈ rest, x.id ≠ j.id) (hp : j.parked = false) (ha : s.asleep = false) (hst : j.status = none)
  (hpin : ∃ p ∈ s.pins, p.holder = .job j.id) (h3 : Card.kind j.card = 3) (hw : j.waiting = false)
  (hheld : ∀ c ∈ s.held, c.job ≠ some j.id) (hb : s.jobBusy j 0 j.count = false)

include hrest hp ha hst hpin h3 hw hheld hb

/-- A send that has its pins, and nothing held, ends with the status of its source. -/
theorem foldContribution_fails {st fl : Nat} (he : s.sendElems j = .error (st, fl)) :
    exec (.foldContribution j.id) s = .next (outcome s j rest st fl) := by
  show Outcome.next _ = _
  rw [job_first hs]
  dsimp only
  rw [if_neg (by simpa [h3, hst, hw, hp, ha, jobBlocked_first hs] using hheld), pinAgain_pinned hpin]
  dsimp only
  rw [hb, if_neg Bool.false_ne_true, he]
  exact congrArg Outcome.next (setJob_first hs hrest rfl)

/-- Its contribution goes to its peer or to its slot. -/
theorem foldContribution_sends {elems : List Nat} (he : s.sendElems j = .ok elems) :
    exec (.foldContribution j.id) s = .next (
      if View.space (j.view 1) = 4 then
        if bitsAt (s.reg (.part j.part) 0x28) 0 16 = 0 then outcome s j rest 1 6
        else if s.peerReachable = false then outcome s j rest 8 0
        else { s with jobs := { j with waiting := true } :: rest }
      else (s.slotFor (sentBy j elems)).elim
        (if 16 ≤ (s.held.filter fun h => h.slot = Card.slot j.card).length then s else { s with held := s.held ++ [sentBy j elems] })
        fun x => s.deliver x (sentBy j elems)) := by
  have hset {x : Job} (hx : x.id = j.id) : s.setJob x = { s with jobs := x :: rest } := setJob_first hs hrest hx
  show Outcome.next _ = _
  rw [job_first hs]
  dsimp only
  rw [if_neg (by simpa [h3, hst, hw, hp, ha, jobBlocked_first hs] using hheld), pinAgain_pinned hpin]
  dsimp only
  rw [hb, if_neg Bool.false_ne_true, he]
  dsimp only
  congr 1
  refine if_congr Iff.rfl (if_congr Iff.rfl (hset rfl) (if_congr (by simp) (hset rfl) (hset rfl))) ?_
  show (match s.slotFor (sentBy j elems) with
    | some x => s.deliver x (sentBy j elems)
    | none => _) = _
  cases s.slotFor (sentBy j elems) <;> rfl

end First

/-! ### Starting (R224, R225) -/

theorem noteWalks_frame {α : Type} (p a : α → Nat) (l : List α) (s : State) :
    ∃ w, l.foldl (fun s x => s.noteWalk (p x) (a x)) s = { s with walked := w } := by
  induction l generalizing s with
  | nil => exact ⟨s.walked, rfl⟩
  | cons x l ih =>
    obtain ⟨w, hw⟩ := noteWalk_frame s (p x) (a x)
    obtain ⟨w', hw'⟩ := ih (s.noteWalk (p x) (a x))
    exact ⟨w', by rw [List.foldl_cons, hw', hw]⟩

theorem addPins_frame (s : State) (h : PinHolder) (d : Nat) (ps : List Pin) : ∃ w, s.addPins h d ps =
    { s with walked := w, pins := s.pins ++ ps.map fun p => { p with holder := h, die := d } } := by
  obtain ⟨w, hw⟩ := noteWalks_frame Pin.part Pin.page ps s
  exact ⟨w, by unfold State.addPins; rw [hw]⟩

/-- The address at the head of a chain, and the engine that runs it. -/
abbrev cardAt (s : State) (part die ch : Nat) : Nat := (s.reg (.chain part die ch) 0x10).toNat
abbrev engineOf (s : State) (part die ch : Nat) : Nat := bitsAt (s.reg (.chain part die ch) 0x00) 12 4

/-- What is known of who appended the card at the head of a chain. -/
abbrev appendedAt (s : State) (part die ch : Nat) : Appended :=
  (s.appended.find? fun a => a.part = part && a.die = die && a.chain = ch && a.addr = cardAt s part die ch).getD
    ⟨part, die, ch, cardAt s part die ch, none, none, false, false⟩

/-- The job that the card at the head of a chain asks for. -/
abbrev jobAt (s : State) (part die ch : Nat) (card : Line) (vs : List (Nat × Line × Bool)) (st : Option (Nat × Nat))
    (waiting : Bool) : Job :=
  ⟨s.nextJob, part, die, ch, engineOf s part die ch, card, cardAt s part die ch, (appendedAt s part die ch).flat,
    (appendedAt s part die ch).by', vs, 0, st, waiting, false⟩

/-- The card at the head of a chain, read: its address and the descriptors have been walked for, and CHHEAD has moved on. -/
def cardRead (s : State) (part die ch : Nat) (card : Line) : State :=
  let walks := (List.range 4).filterMap fun n => if Card.fpValid card n then some (Card.fpAddr card n) else none
  { (((cardAt s part die ch :: walks).foldl (fun s a => s.noteWalk part a) s).popCard part die ch (cardAt s part die ch) card) with
    nextJob := s.nextJob + 1 }

/-- A job joins the scheduler. -/
def joined (s : State) (j : Job) : State := { s with jobs := s.jobs ++ [j] }

/-- An engine reads the card of its chain: a place is free, the chain runs, and its partition is live. -/
def Reads (s : State) (part die ch : Nat) : Prop :=
  cardAt s part die ch ≠ 0 ∧ bitAt (s.reg (.chain part die ch) 0x30) 0 = false ∧
    (s.jobs.filter fun j => j.die = die && j.eng = engineOf s part die ch).length < 4 ∧ die ∉ s.fenced ∧ s.asleep = false ∧
    bitsAt (s.reg (.part part) 0x00) 0 2 = 2

theorem Reads.goes (h : Reads s part die ch) : (cardAt s part die ch = 0 || bitAt (s.reg (.chain part die ch) 0x30) 0 ||
    4 ≤ s.placesTaken die (engineOf s part die ch) || s.fenced.contains die || s.asleep || s.partState part ≠ 2 ||
    s.cardBusy part (cardAt s part die ch)) = s.cardBusy part (cardAt s part die ch) := by
  obtain ⟨haddr, hstop, hplace, hfence, hawake, hlive⟩ := h
  have hp : ¬ 4 ≤ s.placesTaken die (engineOf s part die ch) := Nat.not_le.2 hplace
  have hl : s.partState part = 2 := hlive
  simp [haddr, hstop, hp, hfence, hawake, hl]

theorem startJob_waits (h : Reads s part die ch) (hb : s.cardBusy part (cardAt s part die ch) = true) : s.startJob part die ch = s := by
  unfold State.startJob
  dsimp only
  rw [h.goes, hb, if_pos rfl]

theorem startJob_unreadable (h : Reads s part die ch) (hb : s.cardBusy part (cardAt s part die ch) = false) {e : Trap}
    (hr : s.readWord part (cardAt s part die ch) 64 = .error e) : s.startJob part die ch = s.stopChain part die ch := by
  unfold State.startJob
  dsimp only
  rw [h.goes, hb, if_neg Bool.false_ne_true, hr]

/-- What a card that has been read comes to, in the order in which it is refused. -/
theorem startJob_offers (h : Reads s part die ch) (hb : s.cardBusy part (cardAt s part die ch) = false) {bits : Nat}
    {vs : List (Nat × Line × Bool)} (hr : s.readWord part (cardAt s part die ch) 64 = .ok bits)
    (hf : s.readFootprints part (BitVec.ofNat 512 bits) [0, 1, 2, 3] = .ok vs) :
    let card : Line := BitVec.ofNat 512 bits
    let own := appendedAt s part die ch
    let failed (st fl : Nat) : State := joined (cardRead s part die ch card) (jobAt s part die ch card vs (some (st, fl)) false)
    s.startJob part die ch =
      if own.killed then failed 5 0
      else if Card.fieldsBad card (engineOf s part die ch) own.det || Card.viewsBad card vs s.pkg own.flat.isNone then failed 6 0
      else
        match s.jobPages part vs with
        | .error t => (failed (if t.cause = 0x05 then 2 else 1) t.cause).signalled part t
        | .ok ps =>
          if 1024 < ps.length || s.pinLimit part die < ps.length then failed 6 0
          else if vs.any fun v => !s.hostFootOk part v.2.1 then failed 1 0x06
          else if !s.pinRoom part die (ps.map fun p => (p.page, p.size)) then s
          else (joined (cardRead s part die ch card) (jobAt s part die ch card vs none (decide (Card.kind card = 4)))).addPins (.job s.nextJob) die ps := by
  unfold State.startJob
  dsimp only
  rw [h.goes, hb, if_neg Bool.false_ne_true, hr]
  dsimp only
  rw [hf]
  dsimp only [joined, cardRead, appendedAt, cardAt, engineOf, jobAt] <;> cases s.jobPages part vs <;> rfl

/-- Where a chain goes on behind the card at its head: at the card's NEXT, or nowhere behind the last one appended. -/
abbrev headAfter (s : State) (part die ch : Nat) (card : Line) : Nat :=
  if cardAt s part die ch = (s.reg (.chain part die ch) 0x18).toNat then 0 else bitsAt card 0 64

theorem cardRead_frame (s : State) (part die ch : Nat) (card : Line) : ∃ w a, cardRead s part die ch card =
    { s.setReg (.chain part die ch) 0x10 (BitVec.ofNat 64 (headAfter s part die ch card)) with
      walked := w, appended := a, nextJob := s.nextJob + 1 } := by
  obtain ⟨w, hw⟩ : ∃ w, (cardAt s part die ch :: (List.range 4).filterMap fun n =>
      if Card.fpValid card n then some (Card.fpAddr card n) else none).foldl (fun s a => s.noteWalk part a) s = { s with walked := w } :=
    noteWalks_frame (fun _ => part) id _ s
  refine ⟨w, s.appended.eraseP fun a => a.part = part && a.die = die && a.chain = ch && a.addr = cardAt s part die ch, ?_⟩
  unfold cardRead
  dsimp only
  rw [hw]
  rfl

/-- The job of a card has joined the scheduler and CHHEAD has moved on, with the pins given. -/
def Started (s t : State) (part die ch : Nat) (card : Line) (job : Job) (pins : List Pin) : Prop :=
  t.jobs = s.jobs ++ [job] ∧ t.reg (.chain part die ch) 0x10 = BitVec.ofNat 64 (headAfter s part die ch card) ∧ t.pins = pins

theorem joined_started (s : State) (part die ch : Nat) (card : Line) (job : Job) :
    Started s (joined (cardRead s part die ch card) job) part die ch card job s.pins := by
  obtain ⟨w, a, h⟩ := cardRead_frame s part die ch card
  unfold joined
  rw [h]
  exact ⟨rfl, reg_setReg_same _ _ _ _, rfl⟩

theorem Started.signalled {card : Line} {job : Job} {pins : List Pin} (h : Started s t part die ch card job pins) (e : Trap) :
    Started s (t.signalled part e) part die ch card job pins := by
  unfold State.signalled
  split <;> exact h

theorem Started.addPins {card : Line} {job : Job} {pins : List Pin} (h : Started s t part die ch card job pins) (x : PinHolder) (ps : List Pin) :
    Started s (t.addPins x die ps) part die ch card job (pins ++ ps.map fun p => { p with holder := x, die := die }) := by
  obtain ⟨hj, hr, hp⟩ := h
  obtain ⟨w, hw⟩ := addPins_frame t x die ps
  rw [hw]
  exact ⟨hj, hr, congrArg (· ++ _) hp⟩

/-- The event is what the engine does, where no receive waits after it. -/
theorem engineJobStart_started (hn : NoneWaiting s) {card : Line} {job : Job} {pins : List Pin} (hk : Card.kind job.card ≠ 4)
    (h : Started s t part die ch card job pins) (hs : s.startJob part die ch = t) :
    ∃ u, exec (.engineJobStart part die ch) s = .next u ∧ u.jobs = s.jobs ++ [job] ∧
      u.reg (.chain part die ch) 0x10 = BitVec.ofNat 64 (headAfter s part die ch card) ∧ u.pins = pins := by
  refine ⟨t, ?_, h⟩
  show Outcome.next (s.startJob part die ch).openSlots = _
  rw [hs, openSlots_idle (hn.append h.1 hk)]

theorem engineJobStart_still (hs : s.startJob part die ch = t) (ht : NoneWaiting t) : exec (.engineJobStart part die ch) s = .next t := by
  show Outcome.next (s.startJob part die ch).openSlots = _
  rw [hs, openSlots_idle ht]

/-- Settles O53: a card's refusals in their order, a job's elements and completion, and a send's contribution; no receive waits, so that no slot opens. -/
theorem enginesStartRunAndCompleteJobs : Obligations.EnginesStartRunAndCompleteJobs := by
  unfold Obligations.EnginesStartRunAndCompleteJobs
  intro s part die ch (hn : NoneWaiting s)
  dsimp only
  refine ⟨rfl, fun haddr hstop hplace hfence hawake hlive => ?_, fun j rest hs hrest hp ha => ?_, fun j n k v l hk hfill hcopy hl => ?_,
    fun j st fl bytes => ?_⟩
  · have h : Reads s part die ch := ⟨haddr, hstop, hplace, hfence, hawake, hlive⟩
    refine ⟨fun hb => engineJobStart_still (startJob_waits h hb) hn, fun hb => ⟨fun t hr => ?_, fun bits vs hr hf hk => ?_⟩⟩
    · exact engineJobStart_still (startJob_unreadable h hb hr) hn
    have hoffer := startJob_offers h hb hr hf
    have hfail (st fl : Nat) := joined_started s part die ch (BitVec.ofNat 512 bits)
      (jobAt s part die ch (BitVec.ofNat 512 bits) vs (some (st, fl)) false)
    refine ⟨fun hkill => ?_, fun hkill hbad => ?_, fun hkill hbad t hpages => ?_, fun hkill hbad ps hpages =>
      ⟨fun hmany => ?_, fun hfew hlimit => ⟨fun hfoot => ?_, fun hfoot => ?_⟩⟩⟩
    · exact engineJobStart_started hn hk (hfail 5 0) (hoffer.trans (if_pos hkill))
    · exact engineJobStart_started hn hk (hfail 6 0) (hoffer.trans ((if_neg (by simp [hkill])).trans (if_pos hbad)))
    · refine engineJobStart_started hn hk ((hfail _ _).signalled t) (hoffer.trans ?_)
      rw [if_neg (by simp [hkill]), if_neg (by simp [hbad]), hpages]
    · refine engineJobStart_started hn hk (hfail 6 0) (hoffer.trans ?_)
      rw [if_neg (by simp [hkill]), if_neg (by simp [hbad]), hpages]
      exact if_pos (by simpa using hmany)
    · refine engineJobStart_started hn hk (hfail 1 6) (hoffer.trans ?_)
      rw [if_neg (by simp [hkill]), if_neg (by simp [hbad]), hpages]
      exact (if_neg (by simp [hfew, hlimit])).trans (if_pos (by simpa using hfoot))
    · have hfine : (vs.any fun v => !s.hostFootOk part v.2.1) = false := List.any_eq_false.2 fun x hx => by simp [hfoot x hx]
      have hstart := hoffer.trans ((if_neg (by simp [hkill])).trans (if_neg (by simp [hbad])))
      rw [hpages] at hstart
      replace hstart := hstart.trans ((if_neg (by simp [hfew, hlimit])).trans (if_neg (by simp [hfine])))
      refine ⟨fun hroom => ?_, fun hroom => ?_⟩
      · exact engineJobStart_still (hstart.trans (if_pos (by simp [hroom]))) hn
      · rw [decide_eq_false hk] at hstart
        exact engineJobStart_started hn hk ((joined_started s part die ch (BitVec.ofNat 512 bits)
          (jobAt s part die ch (BitVec.ofNat 512 bits) vs none false)).addPins (.job s.nextJob) ps) (hstart.trans (if_neg (by simp [hroom])))
  · have hran {u : State} {k st fl : Nat} {n : Nat} (hr : State.runElements j n j.off s = (u, k, st, fl)) : NoneWaiting u := by
      have hu : u.jobs = s.jobs := by rw [← runElements_jobs j n j.off s, hr]
      unfold NoneWaiting
      rw [hu]
      exact hn
    refine ⟨fun st fl hst => ?_, fun hst hpin h3 hb m => ?_, fun hst hpin h3 h4 hb => ⟨fun u k st fl hr => ?_, fun m u fl hlo hhi hr => ?_⟩,
      fun hst h3 hw n => ?_, fun hst hpin h3 hw hheld hb => ⟨fun st fl he => ?_, fun elems he => ⟨fun hpeer => ?_, fun hslot => ?_⟩⟩⟩
    · exact jobComplete_first hs hp ha (by unfold State.finishJob; rw [hst]) (hn.completeJob j st fl _)
    · exact jobComplete_first hs hp ha (finishJob_waits hs hst hpin h3 hb m) hn
    · refine jobComplete_first hs hp ha ((finishJob_runs hs hst hpin h3 h4 hb (n := 0) hr).trans (if_neg (by simp))) ((hran hr).completeJob j st fl _)
    · have htop : (if m + 1 = 0 then j.count else min j.count (m + 1 - 1)) = m := by simp; omega
      refine jobComplete_first hs hp ha ((finishJob_runs hs hst hpin h3 h4 hb (n := m + 1) (by rw [htop]; exact hr)).trans
        (if_pos ⟨rfl, by omega, hhi⟩)) ((hran hr).completeJob j 7 0 _)
    · refine jobComplete_first hs hp ha (finishJob_answered hs hst h3 hw n) ?_
      split <;> exact hn.completeJob j _ _ _
    · exact foldContribution_fails hs hrest hp ha hst hpin h3 hw hheld hb he
    · have hsend := foldContribution_sends hs hrest hp ha hst hpin h3 hw hheld hb he
      rw [if_pos hpeer] at hsend
      refine ⟨fun htag => ?_, fun htag hlink => ?_, fun htag hlink => ?_⟩
      · rw [hsend, if_pos htag]
      · rw [hsend, if_neg htag, if_pos hlink]
      · rw [hsend, if_neg htag, if_neg (by simp [hlink])]
    · have hsend := foldContribution_sends hs hrest hp ha hst hpin h3 hw hheld hb he
      rw [if_neg hslot] at hsend
      refine ⟨fun x hx hm => ?_, fun x hx hm => ?_, fun hx hfew => ?_, fun hx hfull => ?_⟩
      · rw [hsend, show s.slotFor (sentBy j elems) = some x from hx, Option.elim_some, deliver_first hs hrest rfl,
          if_pos (show s.slotMatches x (sentBy j elems) = true from hm)]
        rfl
      · rw [hsend, show s.slotFor (sentBy j elems) = some x from hx, Option.elim_some, deliver_first hs hrest rfl,
          if_neg (show ¬ s.slotMatches x (sentBy j elems) = true by simp [show s.slotMatches x (sentBy j elems) = false from hm])]
      · rw [hsend, show s.slotFor (sentBy j elems) = none from hx, Option.elim_none, if_neg (Nat.not_le.2 hfew)]
        rfl
      · rw [hsend, show s.slotFor (sentBy j elems) = none from hx, Option.elim_none, if_pos hfull]
  · exact runElements_step n hk hfill hcopy hl
  · obtain ⟨hreg, hjobs, hcount⟩ := completeJob_parts s j st fl bytes
    refine ⟨hreg, hjobs, fun h320 hown => ?_, fun h64 hown => ?_⟩
    · have hc : s.cardCounter j = true := (cardCounter_iff s j).2 ⟨h320, hown⟩
      unfold State.counter
      rw [hcount, counted, if_pos hc]
      exact counter_raise_same _ _ _ _
    · have hc : ¬ s.cardCounter j = true := fun h => ((cardCounter_iff s j).1 h).2.elim (Nat.not_le.2 h64) hown
      rw [hcount, counted, if_neg hc]
      rfl

end Sys2Proof.Proofs
end

section
/-! SUPPORT. A stream unbound at a port where another of its context's bindings starts after it (R173, R233). -/

namespace Sys2Proof.Proofs

open Sys2Proof Sys2Proof.Machine Sys2Proof.Laws Sys2Proof.Safety Host

/-- The write stream q0 of context 0 at port 0, started, with no write held. -/
def earlierStream : Binding := ⟨0, 0, View.w0, true, false, true, none, 0, [], [], [], false, 0⟩

/-- The write stream q1 behind it at the same port, bound while q0 held a write: it starts after q0. -/
def laterStream : Binding := ⟨0, 1, View.w0, true, false, false, none, 0, [], [], [0], false, 0⟩

/-- What q0 and q1 of context 0 name. -/
def portRegister : StreamReg := ⟨0, 0, View.w0, true, false, 0⟩

/-- Context 0 runs with both bound. -/
def sharedPort : State :=
  { (State.reset.setCtx 0 { Ctx.reset with
      life := .running, streams := (Ctx.reset.streams.setIfInBounds 0 (some portRegister)).setIfInBounds 1 (some portRegister) }).setPort 0 0
      [earlierStream, laterStream] with cur := .agent 0 }

/-- The bindings of a port after an instruction that completes. -/
def portAfter (m p : Nat) : Out → List Binding
  | .next s => s.port m p
  | _ => []

theorem sharedPort_ready : ThreadReady sharedPort 0 [] ∧ sharedPort.streamReg 0 0 = some portRegister ∧
    State.transferQueued (sharedPort.ctx 0) 0 = false ∧ sharedPort.bindingOf portRegister 0 = some earlierStream := by decide +kernel

/-- The model leaves q0 among those that q1 starts after. -/
theorem sharedPort_sunb : portAfter (millOf portRegister.owner) portRegister.port (exec (.sunb 0) sharedPort) = [laterStream] ∧
    sharedPort.port (millOf portRegister.owner) portRegister.port = [earlierStream, laterStream] := by decide +kernel

/-- Refutes O39: the statement has `sunb` take the stream from those that its context's other bindings start after, at its own port too; the model takes
it from those of other ports alone, as it writes back that port's list as it stood before. -/
theorem not_streamsAndGangsBindAndCount : ¬ Obligations.StreamsAndGangsBindAndCount := by
  unfold Obligations.StreamsAndGangsBindAndCount
  intro h
  obtain ⟨hready, hreg, hqueued, hbinding⟩ := sharedPort_ready
  obtain ⟨hmodel, hport⟩ := sharedPort_sunb
  obtain ⟨hthread, -⟩ := h sharedPort 0 0 0 0 0 0 0
  obtain ⟨-, -, -, -, -, hsunb, -⟩ := hthread hready
  obtain ⟨t, hexec, -, hstated, -⟩ := (hsunb portRegister earlierStream hreg hqueued hbinding).2 rfl (fun hg => by cases hg)
  rw [hexec] at hmodel
  rw [hport] at hstated
  exact absurd (hmodel.symm.trans hstated) (by decide +kernel)

end Sys2Proof.Proofs
end

section
/-! SUPPORT. An `mscan` whose column holds a result wider than a pair (R372, R377). -/

namespace Sys2Proof.Proofs

open Sys2Proof Sys2Proof.Machine Sys2Proof.Laws Sys2Proof.Safety

/-- An `mscan` of tile 0, without carries. -/
def plainScan : MatOp := ⟨.scan 0 false false, .nearestEven, 0⟩

/-- Array 0 has it at the head of its queue, for one row and one column, of which it is said to have computed 2^64. -/
def wideScan : State :=
  State.reset.setMill 0 { State.reset.mill 0 with queue := [plainScan], rowpred := 1, colpred := 1, scans := [(0, [2 ^ 64])] }

theorem wideScan_heads : (wideScan.mill 0).queue = [plainScan] ∧ (wideScan.mill 0).rowsM = 1 ∧ (wideScan.mill 0).nc = 1 ∧
    wideScan.struckRow 0 plainScan = none ∧ (wideScan.mill 0).drawn = [] ∧ Assoc.find (wideScan.mill 0).scans 0 = some [2 ^ 64] := by
  decide +kernel

/-- Refutes O43: the statement has the pair of a tile equal to what `scans` holds for it, and asks so of every array; a number of 2^64 there is no pair.
No turn of an `mscan` leaves such a number. -/
theorem not_arraysCarryOutTheirOperations : ¬ Obligations.ArraysCarryOutTheirOperations := by
  unfold Obligations.ArraysCarryOutTheirOperations
  intro h
  obtain ⟨hqueue, hrows, hcols, hstruck, hdrawn, hscans⟩ := wideScan_heads
  obtain ⟨-, hruns, -⟩ := h wideScan 0 plainScan [] hqueue (by omega) (by omega)
  obtain ⟨-, hkinds, -⟩ := hruns fun hm => by cases hm
  obtain ⟨-, -, -, -, -, -, hscan, -⟩ := hkinds hstruck 0 (by decide) 0
  obtain ⟨v, cs, -, hpairs⟩ := hscan false false rfl
  have hpair := (hpairs 0 (by decide)).1 0 (by decide)
  rw [hrows, hcols, hdrawn, if_pos (by simp)] at hpair
  dsimp only at hpair
  rw [hscans] at hpair
  have hlt : sliceBytes v (512 * 0 + 8 * 0) 8 < 2 ^ 64 := bitsAt_lt _ _ _
  exact absurd (hpair : _ = 2 ^ 64) (Nat.ne_of_lt hlt)

end Sys2Proof.Proofs
end

section
/-! SUPPORT. A thread's transfers of a stream of its own, element after element (R173, R182, R196 to R198, R231). -/

namespace Sys2Proof.Proofs

open Sys2Proof Sys2Proof.Machine Sys2Proof.Laws Sys2Proof.Safety

/-! ### What an element's place depends on -/

section Places

variable {s t : State} {ms : Assoc Mill} {as : Assoc Ctx} (ht : t = { s with mills := ms, agents := as })

include ht in
theorem locate_elsewhere (f : Nat) (v : Line) (a n : Nat) (u : Use) : t.locate f v a n u = s.locate f v a n u := by
  have htr := fun p va u => translate_congr (s := s) (t := t) (by rw [ht]) (by rw [ht]) (by rw [ht]) (by rw [ht]) p va u
  have hco := fun p a => codePage_congr (s := s) (t := t) (by rw [ht]) (by rw [ht]) (by rw [ht]) (by rw [ht]) (by rw [ht]) p a
  have hrg := fun w o => reg_congr (s := s) (t := t) (by rw [ht]) w o
  have hp : t.partOf f = s.partOf f := by rw [ht]; rfl
  simp only [State.locate, State.hostAllowed, htr, hco, hrg, hp] <;> rfl

include ht in
/-- Neither the contexts nor the mills decide where an element of a stream lands. -/
theorem streamLoc_elsewhere (b : Binding) (j : Nat) : t.streamLoc b j = s.streamLoc b j := by
  have hco := fun p a => codePage_congr (s := s) (t := t) (by rw [ht]) (by rw [ht]) (by rw [ht]) (by rw [ht]) (by rw [ht]) p a
  have hrg := fun w o => reg_congr (s := s) (t := t) (by rw [ht]) w o
  have hp : t.partOf b.flat = s.partOf b.flat := by rw [ht]; rfl
  have he : t.errors = s.errors := by rw [ht]
  have hpin : t.pins = s.pins := by rw [ht]
  simp only [State.streamLoc, State.pinAt, State.unreachable, State.peerReachable, State.struck, locate_elsewhere ht, hco, hrg, hp, he, hpin] <;>
    rfl

include ht in
theorem locBusy_elsewhere (l : Loc) : t.locBusy l = s.locBusy l := by
  subst ht
  cases l <;> rfl

include ht in
theorem elementBusy_elsewhere (b : Binding) (j : Nat) : t.elementBusy b j = s.elementBusy b j := by
  simp only [State.elementBusy, streamLoc_elsewhere ht, locBusy_elsewhere ht]

include ht in
theorem load_elsewhere (l : Loc) (n : Nat) : t.load l n = s.load l n := by
  subst ht
  cases l <;> rfl

end Places

theorem store_setMills (s : State) (ms : Assoc Mill) (l : Loc) (n v : Nat) :
    State.store { s with mills := ms } l n v = { s.store l n v with mills := ms } := by
  cases l with
  | slot die slot off =>
    simp only [State.store, State.slotWrite]
    split_ifs <;> rfl
  | _ => rfl

theorem store_keeps (s : State) (l : Loc) (n v : Nat) : (s.store l n v).mills = s.mills ∧ (s.store l n v).agents = s.agents ∧
    (s.store l n v).regs = s.regs ∧ (s.store l n v).owners = s.owners := by
  cases l with
  | slot die slot off =>
    simp only [State.store, State.slotWrite]
    split_ifs <;> exact ⟨rfl, rfl, rfl, rfl⟩
  | _ => exact ⟨rfl, rfl, rfl, rfl⟩

/-! ### A port's line of bindings -/

/-- State u is s, but that port p of mill m holds the bindings of `lined`. -/
structure Ported (s : State) (m p : Nat) (lined : List Binding) (u : State) : Prop where
  frame : u = { s with mills := u.mills }
  port : u.port m p = lined
  put : ∀ l, (u.setPort m p l).mills = (s.setPort m p l).mills

section Ported

variable {s u : State} {m p : Nat} {lined : List Binding}

theorem Ported.refl (s : State) (m p : Nat) : Ported s m p (s.port m p) s := ⟨rfl, rfl, fun _ => rfl⟩

theorem Ported.setPort_eq (h : Ported s m p lined u) (l : List Binding) : u.setPort m p l = s.setPort m p l := by
  have hm := h.put l
  rw [show u.setPort m p l = { u with mills := (u.setPort m p l).mills } from rfl, hm, h.frame]
  rfl

theorem ported_setPort (s : State) (m p : Nat) (l : List Binding) : Ported s m p l (s.setPort m p l) where
  frame := rfl
  port := by simp [State.port, State.setPort]
  put := fun l' => by
    show Assoc.put _ m _ = Assoc.put _ m _
    simp [State.setPort, State.modMill, State.setMill, State.mill, put_put]

theorem Ported.store (h : Ported s m p lined u) (l : Loc) (n v : Nat) : Ported (s.store l n v) m p lined (u.store l n v) := by
  have hu := (store_keeps u l n v).1
  have hs := (store_keeps s l n v).1
  refine ⟨?_, ?_, fun lined' => ?_⟩
  · conv_lhs => rw [h.frame]
    rw [store_setMills, hu]
  · rw [← h.port]
    unfold State.port State.mill
    rw [hu]
  · have hput := h.put lined'
    simp only [State.setPort, State.modMill, State.setMill, State.mill] at hput ⊢
    rw [hu, hs]
    exact hput

/-- A context changed as well, nothing that an element's place depends on has. -/
theorem Ported.elsewhere (h : Ported s m p lined u) (f : Nat) (c : Ctx) :
    u.setCtx f c = { s with mills := u.mills, agents := s.agents.put f c } := by
  conv_lhs => rw [h.frame]
  rfl

theorem Ported.ctx (h : Ported s m p lined u) (f : Nat) : u.ctx f = s.ctx f := by rw [h.frame]; rfl

end Ported

/-- The line with the binding that a stream register names changed by g. -/
def withBinding (r : StreamReg) (k : Nat) (g : Binding → Binding) (lined : List Binding) : List Binding :=
  lined.map fun b => if Binding.isOf b r k then g b else b

/-- A line as long as another, with its other bindings, in which b is the one that register k names. -/
structure Carries (r : StreamReg) (k : Nat) (queued lined : List Binding) (b : Binding) : Prop where
  length : lined.length = queued.length
  others : ∀ (j : Nat) (x : Binding), queued[j]? = some x → Binding.isOf x r k = false → lined[j]? = some x
  found : lined.find? (fun x => Binding.isOf x r k) = some b

theorem Carries.changed {r : StreamReg} {k : Nat} {queued lined : List Binding} {b : Binding} {g : Binding → Binding} (h : Carries r k queued lined b)
    (hg : ∀ x, Binding.isOf (g x) r k = Binding.isOf x r k) : Carries r k queued (withBinding r k g lined) (g b) where
  length := by rw [withBinding, List.length_map, h.length]
  others := fun j x hx hn => by simp [withBinding, h.others j x hx hn, hn]
  found := by
    have hsame : ((fun x => Binding.isOf x r k) ∘ fun x => if Binding.isOf x r k then g x else x) = fun x => Binding.isOf x r k := by
      funext x
      by_cases hx : Binding.isOf x r k = true <;> simp [hx, hg]
    have hb := List.find?_some h.found
    rw [withBinding, List.find?_map, hsame, h.found]
    simp only [Option.map_some]
    rw [if_pos hb]

/-! ### The next index moves on (R197, R236) -/

/-- A binding whose elements below an index have been read. -/
def trimmed (low : Nat) (b : Binding) : Binding :=
  if low ≤ b.base then b
  else if b.base + b.buf.length ≤ low then { b with base := low, buf := [] }
  else { b with base := low, buf := b.buf.drop (low - b.base) }

theorem trimmed_eq {low : Nat} {b : Binding} (h : b.base ≤ low) : trimmed low b = { b with base := low, buf := b.buf.drop (low - b.base) } := by
  unfold trimmed
  split_ifs with h1 h2
  · obtain rfl : low = b.base := by omega
    simp
  · rw [List.drop_eq_nil_of_le (by omega)]
  · rfl

theorem trimmed_moved (low : Nat) (b : Binding) : trimmed low b = { b with base := (trimmed low b).base, buf := (trimmed low b).buf } := by
  unfold trimmed
  split_ifs <;> rfl

theorem trimmed_isOf (low : Nat) (r : StreamReg) (k : Nat) (b : Binding) : Binding.isOf (trimmed low b) r k = Binding.isOf b r k := by
  rw [trimmed_moved]
  rfl

/-- The context of a thread inside a transfer of its stream k, of queue entry q: the next index is n, the vector file sl. -/
def transferCtx (c : Ctx) (q : VqEntry) (k : Nat) (r : StreamReg) (n : Nat) (sl : BitVec 524288) : Ctx :=
  inFlight c q { c with streams := c.streams.setIfInBounds k (some { r with next := n }), slice := sl }

section Transfer

variable {s u : State} {c : Ctx} {q : VqEntry} {k n : Nat} {r : StreamReg} {sl : BitVec 524288} (hk : k < 8)

include hk in
theorem streamReg_transferCtx (f : Nat) : (u.setCtx f (transferCtx c q k r n sl)).streamReg f k = some { r with next := n } := by
  unfold State.streamReg
  rw [ctx_setCtx_same]
  simp [transferCtx, inFlight, List.getD, hk]

theorem setStreamReg_transferCtx (f n' : Nat) :
    (u.setCtx f (transferCtx c q k r n sl)).setStreamReg f k (some { r with next := n' }) = u.setCtx f (transferCtx c q k r n' sl) := by
  unfold State.setStreamReg
  rw [modCtx_setCtx]
  simp [transferCtx, inFlight]

theorem modBinding_setCtx (n : Nat) (f : Nat) (c : Ctx) (g : Binding → Binding) : (u.setCtx f c).modBinding { r with next := n } k g =
    (u.setPort (millOf r.owner) r.port (withBinding r k g (u.port (millOf r.owner) r.port))).setCtx f c := rfl

variable (hg : r.gang = false)

theorem bindingOf_setCtx (n f : Nat) (c : Ctx) {lined : List Binding} (h : Ported s (millOf r.owner) r.port lined u) :
    (u.setCtx f c).bindingOf { r with next := n } k = lined.find? fun x => Binding.isOf x r k := by
  rw [← h.port]
  rfl

include hk hg in
/-- The next index of a stream that its owner alone reads. -/
theorem moveStream_transferCtx {lined : List Binding} (h : Ported s (millOf r.owner) r.port lined u) (n' : Nat) :
    (u.setCtx r.owner (transferCtx c q k r n sl)).moveStream r.owner k n' =
      (s.setPort (millOf r.owner) r.port (withBinding r k (trimmed n') lined)).setCtx r.owner (transferCtx c q k r n' sl) := by
  have hreaders : (u.setCtx r.owner (transferCtx c q k r n' sl)).readers { r with next := n } k = [r.owner] := by
    unfold State.readers
    rw [if_neg (by simp [hg])]
  unfold State.moveStream
  rw [streamReg_transferCtx hk]
  dsimp only
  rw [setStreamReg_transferCtx]
  unfold State.trimBinding
  rw [hreaders]
  simp only [List.filterMap_cons, List.filterMap_nil, streamReg_transferCtx hk, Option.map_some, List.foldl_nil]
  rw [← h.setPort_eq, ← h.port]
  rfl

end Transfer

end Sys2Proof.Proofs
end

section
/-! SUPPORT. What one element of a transfer does (R182, R196, R197, R231). -/

namespace Sys2Proof.Proofs

open Sys2Proof Sys2Proof.Machine Sys2Proof.Laws Sys2Proof.Safety

/-! ### An element read -/

/-- The binding of a read stream that has come to index n. -/
def atIndex (b : Binding) (n top : Nat) : Binding := { b with base := n, buf := b.buf.drop (n - b.base), top := top }

/-- What a read of index n delivers: the value buffered, or the one at its place l. -/
def delivered (s : State) (b : Binding) (l : Loc) (n : Nat) : Nat :=
  if n < b.base + b.buf.length then b.buf.getD (n - b.base) 0 else s.load l (View.size b.desc)

/-- The binding with the element of index n arrived, of value v. -/
def arriving (v n : Nat) (b : Binding) : Binding := { b with buf := b.buf ++ [v], top := n + 1 }

theorem trimmed_atIndex {b : Binding} {n n' top : Nat} (h : b.base ≤ n) (h' : n ≤ n') : trimmed n' (atIndex b n top) = atIndex b n' top := by
  rw [trimmed_eq (b := atIndex b n top) h']
  simp only [atIndex, List.drop_drop]
  rw [show n - b.base + (n' - n) = n' - b.base by omega]

theorem getD_drop_zero (l : List Nat) (m : Nat) : (l.drop m).getD 0 0 = l.getD m 0 := by simp [List.getD]

theorem setElem_transferCtx {c : Ctx} {q : VqEntry} {k n : Nat} {r : StreamReg} {sl : BitVec 524288} (d : Nat) {z i : Nat} (v : Nat)
    (hi : i < c.reals) (hfit : (i + 1) * z ≤ c.groupBytes) : (transferCtx c q k r n sl).setElem d z i v =
      transferCtx c q k r n (setSliceBytes sl (d * c.regBytes + i * z) z v) := by
  unfold transferCtx
  rw [setElem_inFlight]
  unfold Ctx.setElem
  rw [if_pos ⟨hi, hfit⟩]
  rfl

section Reads

variable {s u : State} {k n top : Nat} {r : StreamReg} {b : Binding} {queued lined : List Binding} {l : Loc}
  (hp : Ported s (millOf r.owner) r.port lined u) (hc : Carries r k queued lined (atIndex b n top)) (hle : b.base ≤ n)
  (hroom : 0 < Binding.room b) (hloc : s.streamLoc b n = .ok l) (hbusy : b.base + b.buf.length ≤ n → s.locBusy l = false)
  (htop : b.device = true → top ≤ max n (b.base + b.buf.length))

include hp hc hle in
theorem fetchUpTo_arrived (hin : n < b.base + b.buf.length) (cx : Ctx) :
    (u.setCtx r.owner cx).fetchUpTo { r with next := n } k n 2 = .ok (some (u.setCtx r.owner cx)) := by
  have hlen : n < (atIndex b n top).base + (atIndex b n top).buf.length := by
    simp only [atIndex, List.length_drop]
    omega
  unfold State.fetchUpTo
  rw [bindingOf_setCtx n r.owner cx hp, hc.found]
  dsimp only
  rw [if_pos hlen]

include hp hc hroom hloc hbusy htop in
theorem fetchUpTo_fetches (hout : b.base + b.buf.length ≤ n) (cx : Ctx) :
    (u.setCtx r.owner cx).fetchUpTo { r with next := n } k n 2 = .ok (some ((s.setPort (millOf r.owner) r.port
      (withBinding r k (arriving (s.load l (View.size b.desc)) n) lined)).setCtx r.owner cx)) := by
  have hnil : b.buf.drop (n - b.base) = [] := List.drop_eq_nil_of_le (by omega)
  have hat : atIndex b n top = { b with base := n, buf := [], top := top } := by rw [atIndex, hnil]
  have hev := hp.elsewhere r.owner cx
  have hl : (u.setCtx r.owner cx).streamLoc (atIndex b n top) n = .ok l := (streamLoc_elsewhere hev _ _).trans hloc
  have hready : (u.setCtx r.owner cx).elementBusy (atIndex b n top) n = false := by
    unfold State.elementBusy
    rw [hl]
    exact (locBusy_elsewhere hev l).trans (hbusy hout)
  have hnext : (u.setCtx r.owner cx).fetchNext { r with next := n } k (atIndex b n top) = .ok ((s.setPort (millOf r.owner) r.port
      (withBinding r k (arriving (s.load l (View.size b.desc)) n) lined)).setCtx r.owner cx) := by
    have hfresh : (b.device && decide (n < top)) = false := by
      cases hd : b.device with
      | false => rfl
      | true => have := htop hd; simp; omega
    have hbase : (atIndex b n top).base + (atIndex b n top).buf.length = n := by rw [hat]; rfl
    unfold State.fetchNext
    simp only [hbase, hl, load_elsewhere hev]
    rw [show (atIndex b n top).device = b.device from rfl, show (atIndex b n top).top = top from rfl, hfresh, if_neg Bool.false_ne_true,
      modBinding_setCtx, hp.setPort_eq, hp.port]
    rfl
  have hlate : ¬ n < (atIndex b n top).base + (atIndex b n top).buf.length := by rw [hat]; exact Nat.lt_irrefl n
  have hopen : ¬ (decide (Binding.room (atIndex b n top) ≤ (atIndex b n top).buf.length) ||
      (u.setCtx r.owner cx).elementBusy (atIndex b n top) ((atIndex b n top).base + (atIndex b n top).buf.length)) = true := by
    rw [show (atIndex b n top).base + (atIndex b n top).buf.length = n by rw [hat]; rfl, hready,
      show Binding.room (atIndex b n top) = Binding.room b from rfl, show (atIndex b n top).buf = [] by rw [hat]]
    simp; omega
  have hc' := hc.changed (g := arriving (s.load l (View.size b.desc)) n) fun _ => rfl
  unfold State.fetchUpTo
  rw [bindingOf_setCtx n r.owner cx hp, hc.found]
  dsimp only
  rw [if_neg hlate, if_neg hopen, hnext]
  dsimp only
  unfold State.fetchUpTo
  rw [bindingOf_setCtx n r.owner cx (ported_setPort s _ _ _), hc'.found]
  dsimp only
  rw [if_pos (by simp [arriving, hat])]

include hp hc hle hroom hloc hbusy htop in
/-- Element n is in the buffer, or it arrives; what the binding becomes once it has been read. -/
theorem fetchUpTo_next (cx : Ctx) : ∃ u' lined' b' top', Ported s (millOf r.owner) r.port lined' u' ∧ Carries r k queued lined' b' ∧
    (u.setCtx r.owner cx).fetchUpTo { r with next := n } k n 2 = .ok (some (u'.setCtx r.owner cx)) ∧
    b'.base = n ∧ b'.buf.getD 0 0 = delivered s b l n ∧ trimmed (n + 1) b' = atIndex b (n + 1) top' ∧
    (b.device = true → top' ≤ max (n + 1) (b.base + b.buf.length)) := by
  by_cases hin : n < b.base + b.buf.length
  · refine ⟨u, lined, atIndex b n top, top, hp, hc, fetchUpTo_arrived hp hc hle hin cx, rfl, ?_, trimmed_atIndex hle (Nat.le_succ n), fun hd => ?_⟩
    · rw [delivered, if_pos hin, atIndex, getD_drop_zero]
    · have := htop hd
      omega
  · have hnil : b.buf.drop (n - b.base) = [] := List.drop_eq_nil_of_le (by omega)
    have hnil' : b.buf.drop (n + 1 - b.base) = [] := List.drop_eq_nil_of_le (by omega)
    refine ⟨_, _, _, n + 1, ported_setPort s _ _ _, hc.changed (g := arriving (s.load l (View.size b.desc)) n) (fun _ => rfl),
      fetchUpTo_fetches hp hc hroom hloc hbusy htop (by omega) cx, rfl, ?_, ?_, fun _ => Nat.le_max_left _ _⟩
    · rw [delivered, if_neg hin]
      simp [arriving, atIndex, hnil]
    · rw [trimmed_eq (Nat.le_succ n)]
      simp [arriving, atIndex, hnil, hnil']

include hp hc hle hroom hloc hbusy htop in
/-- A read consumes an index, and an active element receives what the index delivers (R197). -/
theorem vsrdElem_next {c : Ctx} {q : VqEntry} {sl : BitVec 524288} {env : Env} {i : Nat} (d : Nat) (active : Bool) (hk : k < 8) (hg : r.gang = false)
    (he : env.f = r.owner) (hn : n < View.count r.desc) (hi : i < c.reals) (hfit : (i + 1) * View.size r.desc ≤ c.groupBytes) :
    ∃ lined' top', Carries r k queued lined' (atIndex b (n + 1) top') ∧ (b.device = true → top' ≤ max (n + 1) (b.base + b.buf.length)) ∧
      vsrdElem d k active env i (u.setCtx r.owner (transferCtx c q k r n sl)) = .ok ((s.setPort (millOf r.owner) r.port lined').setCtx r.owner
        (transferCtx c q k r (n + 1)
          (if active then setSliceBytes sl (d * c.regBytes + i * View.size r.desc) (View.size r.desc) (delivered s b l n) else sl))) := by
  obtain ⟨u', lined', b', top', hp', hc', hfetch, hbase, hval, htrim, htop'⟩ := fetchUpTo_next hp hc hle hroom hloc hbusy htop (transferCtx c q k r n sl)
  refine ⟨withBinding r k (trimmed (n + 1)) lined', top', htrim ▸ hc'.changed (trimmed_isOf _ r k), htop', ?_⟩
  have hv : (((u'.setCtx r.owner (transferCtx c q k r n sl)).bindingOf { r with next := n } k).map fun b => b.buf.getD (n - b.base) 0).getD 0 =
      delivered s b l n := by
    rw [bindingOf_setCtx n r.owner _ hp', hc'.found]
    simp only [Option.map_some, Option.getD_some, hbase, Nat.sub_self, hval]
  unfold vsrdElem
  rw [he, streamReg_transferCtx hk]
  dsimp only
  rw [if_neg (by omega), bindingOf_setCtx n r.owner _ hp, hc.found]
  dsimp only
  rw [show n - (atIndex b n top).base + 2 = 2 by simp [atIndex], hfetch]
  dsimp only
  rw [hv]
  cases active with
  | false =>
    simp only [Bool.false_eq_true, if_false]
    rw [moveStream_transferCtx hk hg hp']
  | true =>
    simp only [if_true]
    rw [modCtx_setCtx, setElem_transferCtx d _ hi hfit, moveStream_transferCtx hk hg hp']

end Reads

/-! ### An element written -/

section Writes

variable {s u : State} {k n : Nat} {r : StreamReg} {x : Binding} {queued lined : List Binding} {c : Ctx} {q : VqEntry} {sl : BitVec 524288} {env : Env}
  (hp : Ported s (millOf r.owner) r.port lined u) (hc : Carries r k queued lined x) (hk : k < 8) (hg : r.gang = false)
  (he : env.f = r.owner) (hn : n < View.count r.desc)

include hp hc hk hg he hn in
/-- A write passes over the index of an inactive element (R197). -/
theorem vswrElem_inactive (d i : Nat) : vswrElem d k false env i (u.setCtx r.owner (transferCtx c q k r n sl)) =
    .ok ((s.setPort (millOf r.owner) r.port (withBinding r k (trimmed (n + 1)) lined)).setCtx r.owner (transferCtx c q k r (n + 1) sl)) := by
  unfold vswrElem
  rw [he, streamReg_transferCtx hk]
  dsimp only
  rw [if_neg (by omega), bindingOf_setCtx n r.owner _ hp, hc.found]
  exact congrArg Res.ok (moveStream_transferCtx hk hg hp (n + 1))

variable {l : Loc} (htop : x.device = true → x.top ≤ n) (hloc : s.streamLoc x n = .ok l)

/-- The binding of a write stream with an element written at index n, held or performed. -/
def marked (n : Nat) (b : Binding) : Binding := { b with top := n + 1 }

/-- The same with the value held. -/
def holding (n v : Nat) (b : Binding) : Binding := { marked n b with pend := b.pend ++ [(n, v)] }

include hp in
theorem modBinding_marked (cx : Ctx) : (u.setCtx r.owner cx).modBinding { r with next := n } k (fun b => { b with top := n + 1 }) =
    (s.setPort (millOf r.owner) r.port (withBinding r k (marked n) lined)).setCtx r.owner cx := by
  rw [modBinding_setCtx, hp.setPort_eq, hp.port]
  rfl

include htop in
/-- A device-class element at an index beyond those performed may perform (R182). -/
theorem not_repeated : (x.device && decide (n < x.top)) = false := by
  cases hd : x.device with
  | false => rfl
  | true =>
    have := htop hd
    simp
    omega

theorem withBinding_withBinding (g g' : Binding → Binding) (hg : ∀ y, Binding.isOf (g y) r k = Binding.isOf y r k) (l : List Binding) :
    withBinding r k g' (withBinding r k g l) = withBinding r k (fun y => g' (g y)) l := by
  unfold withBinding
  rw [List.map_map]
  refine List.map_congr_left fun y _ => ?_
  by_cases hy : Binding.isOf y r k = true <;> simp [hy, hg]

include hp hc hk hg he hn htop hloc in
/-- An active element of a binding that has started and holds nothing performs at once. -/
theorem vswrElem_performs (d i : Nat) (hstart : x.started = true) (hpend : x.pend = []) (hbusy : s.locBusy l = false) :
    vswrElem d k true env i (u.setCtx r.owner (transferCtx c q k r n sl)) =
      .ok (((s.store l (View.size r.desc) ((transferCtx c q k r n sl).elem d (View.size r.desc) i)).setPort (millOf r.owner) r.port
        (withBinding r k (trimmed (n + 1)) (withBinding r k (marked n) lined))).setCtx r.owner (transferCtx c q k r (n + 1) sl)) := by
  have hev := hp.elsewhere r.owner (transferCtx c q k r n sl)
  have hmark := modBinding_marked (k := k) (n := n) hp (transferCtx c q k r n sl)
  unfold vswrElem
  rw [he, streamReg_transferCtx hk]
  dsimp only
  rw [if_neg (by omega), bindingOf_setCtx n r.owner _ hp, hc.found]
  dsimp only
  rw [not_repeated htop, streamLoc_elsewhere hev, hloc]
  simp only [Bool.not_true, Bool.false_eq_true, if_false, hmark]
  rw [if_pos (by rw [hstart, hpend, locBusy_elsewhere hev, hbusy]; rfl),
    store_setCtx, ctx_setCtx_same, moveStream_transferCtx hk hg ((ported_setPort ..).store _ _ _)]

include hp hc hk hg he hn htop hloc in
/-- An active element of a binding that has not started is held. -/
theorem vswrElem_holds (d i : Nat) (hstart : x.started = false) :
    vswrElem d k true env i (u.setCtx r.owner (transferCtx c q k r n sl)) =
      .ok ((s.setPort (millOf r.owner) r.port (withBinding r k (trimmed (n + 1)) (withBinding r k
        (holding n ((transferCtx c q k r n sl).elem d (View.size r.desc) i)) lined))).setCtx r.owner (transferCtx c q k r (n + 1) sl)) := by
  have hev := hp.elsewhere r.owner (transferCtx c q k r n sl)
  have hmark := modBinding_marked (k := k) (n := n) hp (transferCtx c q k r n sl)
  unfold vswrElem
  rw [he, streamReg_transferCtx hk]
  dsimp only
  rw [if_neg (by omega), bindingOf_setCtx n r.owner _ hp, hc.found]
  dsimp only
  rw [not_repeated htop, streamLoc_elsewhere hev, hloc]
  simp only [Bool.not_true, Bool.false_eq_true, if_false, hmark, hstart, Bool.false_and]
  rw [modBinding_setCtx, (ported_setPort ..).setPort_eq, (ported_setPort ..).port, withBinding_withBinding (marked n) _ (fun _ => rfl), ctx_setCtx_same,
    moveStream_transferCtx hk hg (ported_setPort ..)]
  rfl

end Writes

end Sys2Proof.Proofs
end

section
/-! SUPPORT. The transfers of a stream by its owner (R182, R196 to R198). -/

namespace Sys2Proof.Proofs

open Sys2Proof Sys2Proof.Machine Sys2Proof.Laws Sys2Proof.Safety

/-! ### The loop -/

/-- A loop each of whose elements keeps an invariant of the state ends with the invariant. -/
theorem elements_reach {pm B : Nat} {env : Env} {el sk : Env → Nat → State → Res} (P : Nat → State → Prop)
    (hstep : ∀ i t, i < B → P i t → ∃ t', (if (t.ctx env.f).pbit pm i then el env i t else sk env i t) = .ok t' ∧ P (i + 1) t') :
    ∀ n i t, i + n ≤ B → P i t → ∃ t', elements pm env el sk n i t = .ok t' ∧ P (i + n) t' := by
  intro n
  induction n with
  | zero => exact fun i t _ h => ⟨t, rfl, h⟩
  | succ n ih =>
    intro i t hB h
    obtain ⟨t', hrun, h'⟩ := hstep i t (by omega) h
    obtain ⟨t'', hrest, h''⟩ := ih (i + 1) t' (by omega) h'
    refine ⟨t'', ?_, by rw [show i + (n + 1) = i + 1 + n by omega]; exact h''⟩
    unfold elements
    rw [hrun]
    exact hrest

/-- The elements that an instruction performs below an element. -/
def performedBelow (c : Ctx) (pm hi : Nat) : List Nat := (List.range hi).filter fun i => decide (c.vstart ≤ i) && c.pbit pm i

theorem performedBelow_start (c : Ctx) (pm : Nat) : performedBelow c pm c.vstart = [] := by
  unfold performedBelow
  rw [List.filter_eq_nil_iff]
  intro a ha
  have := List.mem_range.mp ha
  simp
  omega

theorem performedBelow_succ {c : Ctx} {pm i : Nat} (h : c.vstart ≤ i) :
    performedBelow c pm (i + 1) = if c.pbit pm i then performedBelow c pm i ++ [i] else performedBelow c pm i := by
  unfold performedBelow
  rw [List.range_succ, List.filter_append]
  cases hp : c.pbit pm i <;> simp [h, hp]

theorem performed_below {c : Ctx} {i : Nat} (pm : Nat) (h : i ≤ c.reals) : (performed c pm).filter (· < i) = performedBelow c pm i := by
  have hrange : ∀ n, i ≤ n → (List.range n).filter (· < i) = List.range i := by
    intro n hn
    induction n, hn using Nat.le_induction with
    | base => exact List.filter_eq_self.2 fun a ha => decide_eq_true (List.mem_range.1 ha)
    | succ n hn ih => rw [List.range_succ, List.filter_append, ih]; simp [Nat.not_lt.2 hn]
  unfold performed performedBelow
  rw [List.filter_comm, hrange _ h]

/-! ### The checks and the first index -/

/-- A transfer's word is of OP 0x2C. -/
theorem opOf_transfer (write : Bool) (d : BitVec 6) (q : BitVec 3) (x : BitVec 5) (p : BitVec 4) :
    opOf (if write then Instr.vswr d q x p else Instr.vsrd d q x p).word = 0x2C := by
  cases write with
  | false =>
    obtain ⟨W, hW, -, hbits⟩ := Encoding.asm_reads 0xB0000000 [(d.toNat, 20, 6), (q.toNat, 16, 3), (x.toNat, 11, 5), (p.toNat, 6, 4)]
      [(d.toNat, 20), (q.toNat, 16), (x.toNat, 11), (p.toNat, 6)] [(20, 6), (16, 3), (11, 5), (6, 4)] rfl rfl (by decide +kernel)
      ⟨d.isLt, q.isLt, x.isLt, p.isLt, trivial⟩
    exact (congrArg opOf hW).trans (hbits 26 6 0x2C (by decide))
  | true =>
    obtain ⟨W, hW, -, hbits⟩ := Encoding.asm_reads 0xB0000001 [(d.toNat, 20, 6), (q.toNat, 16, 3), (x.toNat, 11, 5), (p.toNat, 6, 4)]
      [(d.toNat, 20), (q.toNat, 16), (x.toNat, 11), (p.toNat, 6)] [(20, 6), (16, 3), (11, 5), (6, 4)] rfl rfl (by decide +kernel)
      ⟨d.isLt, q.isLt, x.isLt, p.isLt, trivial⟩
    exact (congrArg opOf hW).trans (hbits 26 6 0x2C (by decide))

/-- The instruction that transfers a stream in one direction, and its course. -/
def transferInstr (write : Bool) (d : BitVec 6) (q : BitVec 3) (x : BitVec 5) (p : BitVec 4) : Instr :=
  if write then .vswr d q x p else .vsrd d q x p
def transferOp (write : Bool) (d : BitVec 6) (q : BitVec 3) (x : BitVec 5) (p : BitVec 4) : VOp :=
  streamOp (transferInstr write d q x p).word write d q x p

section Checks

variable {s : State} {f : Nat} {write : Bool} {d : BitVec 6} {q : BitVec 3} {x : BitVec 5} {p : BitVec 4}

theorem exec_transfer : exec (transferInstr write d q x p) s = .next (s.vector (transferOp write d q x p)) := by
  cases write <;> rfl

theorem single_transfer : Single (transferOp write d q x p) := single_of_opcode (opOf_transfer write d q x p) (by decide) (by decide)

theorem transfer_decodes (h : GroupsOk (s.ctx f) [d.toNat]) : (transferOp write d q x p).decode f (s.ctx f) = none := by
  obtain ⟨hbad, huntag, -⟩ := groupsOk_checks h
  refine firstTrap_none fun y hy => ?_
  simp only [List.mem_cons, List.not_mem_nil, or_false] at hy
  rcases hy with rfl | rfl
  · exact hbad
  · exact huntag

theorem streamReg_readyState (op : VOp) (k : Nat) : (readyState op s f).streamReg f k = s.streamReg f k := by
  unfold State.streamReg readyState
  rw [ctx_setCtx_same]
  rfl

theorem transfer_unbound (h : s.streamReg f q.toNat = none) :
    (transferOp write d q x p).issue (envOf (transferOp write d q x p) s f) (readyState (transferOp write d q x p) s f) = some .stream := by
  show streamIssue write d.toNat q.toNat _ _ = _
  unfold streamIssue
  rw [show (envOf (transferOp write d q x p) s f).f = f from rfl, streamReg_readyState, h]

variable {r : StreamReg} {b : Binding}

/-- The issue checks of R198, for a stream that its owner alone holds. -/
theorem transfer_issue (h : s.streamReg f q.toNat = some r) (hb : s.bindingOf r q.toNat = some b) (hg : r.gang = false) :
    (transferOp write d q x p).issue (envOf (transferOp write d q x p) s f) (readyState (transferOp write d q x p) s f) =
      firstTrap [(decide (r.write ≠ write), .stream), (decide (((s.ctx f).tagOf d).bytes ≠ View.size r.desc), .tag)] := by
  show streamIssue write d.toNat q.toNat _ _ = _
  have hb' : (readyState (transferOp write d q x p) s f).bindingOf r q.toNat = some b := hb
  have htag : ((readyState (transferOp write d q x p) s f).ctx f).tag d.toNat = (s.ctx f).tagOf d := by
    unfold readyState
    rw [ctx_setCtx_same]
    rfl
  unfold streamIssue
  rw [show (envOf (transferOp write d q x p) s f).f = f from rfl, streamReg_readyState, h]
  dsimp only
  rw [hb', htag]
  simp only [hg, Bool.false_and, Bool.or_false]

theorem transfer_meetsTrap {t : Trap} (hr : VectorReady s f [x.toNat, 0, 0]) (hs : HasStrip (s.ctx f)) (hd : GroupsOk (s.ctx f) [d.toNat])
    (ht : (transferOp write d q x p).issue (envOf (transferOp write d q x p) s f) (readyState (transferOp write d q x p) s f) = some t) :
    MeetsTrap s f (transferInstr write d q x p) t :=
  vector_meetsTrap exec_transfer hr rfl single_transfer (transfer_decodes hd) (Or.inl hs) ht

end Checks

/-- The stream index that the first element of a transfer takes (R197). -/
def firstIndex (c : Ctx) (r : StreamReg) (x : BitVec 5) : Nat := r.next + if c.vstart = 0 then (c.s x.toNat).toNat else 0

theorem transferCtx_start {s : State} {f k : Nat} {r : StreamReg} (q : VqEntry) (h : s.streamReg f k = some r) :
    transferCtx (s.ctx f) q k r r.next (s.ctx f).slice = inFlight (s.ctx f) q (s.ctx f) := by
  have hsame : (s.ctx f).streams.setIfInBounds k (some { r with next := r.next }) = (s.ctx f).streams := by
    refine Vector.ext fun j hj => ?_
    rw [Vector.getElem_setIfInBounds]
    split
    · next hjk =>
      subst hjk
      rw [State.streamReg, List.getD_eq_getElem _ _ (by simpa using hj)] at h
      simpa using h.symm
    · rfl
  unfold transferCtx
  rw [hsame]

section Course

variable {s : State} {write : Bool} {d : BitVec 6} {q : BitVec 3} {x : BitVec 5} {p : BitVec 4} {r : StreamReg} {b : Binding}
  (hreg : s.streamReg r.owner q.toNat = some r) (hbind : s.bindingOf r q.toNat = some b) (hg : r.gang = false)

include hbind in
theorem carries_start : Carries r q.toNat (s.port (millOf r.owner) r.port) (s.port (millOf r.owner) r.port) b :=
  ⟨rfl, fun _ _ h _ => h, hbind⟩

include hreg hbind hg in
/-- The loop begins at the first index, which the skip has reached (R197). -/
theorem transfer_begins (hbase : b.base = r.next) : ∃ u lined, Ported s (millOf r.owner) r.port lined u ∧
    Carries r q.toNat (s.port (millOf r.owner) r.port) lined (trimmed (firstIndex (s.ctx r.owner) r x) b) ∧
    (if (s.ctx r.owner).vstart = 0 then (transferOp write d q x p).begin' (envOf (transferOp write d q x p) s r.owner)
        (beginState (transferOp write d q x p) s r.owner) else beginState (transferOp write d q x p) s r.owner) =
      u.setCtx r.owner (transferCtx (s.ctx r.owner) ((transferOp write d q x p).entry (s.ctx r.owner)) q.toNat r (firstIndex (s.ctx r.owner) r x)
        (s.ctx r.owner).slice) := by
  have hstart : beginState (transferOp write d q x p) s r.owner = s.setCtx r.owner
      (transferCtx (s.ctx r.owner) ((transferOp write d q x p).entry (s.ctx r.owner)) q.toNat r r.next (s.ctx r.owner).slice) := by
    rw [transferCtx_start _ hreg]
    rfl
  have hp := Ported.refl s (millOf r.owner) r.port
  by_cases hv : (s.ctx r.owner).vstart = 0
  · have hskip : (envOf (transferOp write d q x p) s r.owner).skipped = ((s.ctx r.owner).s x.toNat).toNat := by
      simp [Env.skipped, envOf, VqEntry.env, VOp.entry, hv]
      rfl
    have hgroup : (fun y : Binding => { y with vd := if r.gang && y.vd.isNone then some d.toNat else y.vd }) = fun y => y := by
      funext y
      simp [hg]
    rw [if_pos hv, hstart]
    refine ⟨_, _, ported_setPort s _ _ _, (carries_start hbind).changed (trimmed_isOf (firstIndex (s.ctx r.owner) r x) r q.toNat), ?_⟩
    show streamBegin d.toNat q.toNat _ _ = _
    unfold streamBegin
    rw [show (envOf (transferOp write d q x p) s r.owner).f = r.owner from rfl, streamReg_transferCtx q.isLt]
    dsimp only
    rw [hgroup, modBinding_setCtx (r := r) r.next, show withBinding r q.toNat (fun y => y) (s.port (millOf r.owner) r.port) =
      s.port (millOf r.owner) r.port by simp [withBinding], moveStream_transferCtx q.isLt hg (ported_setPort s _ _ _), hskip]
    unfold firstIndex
    rw [if_pos hv]
  · have hfirst : firstIndex (s.ctx r.owner) r x = r.next := by
      unfold firstIndex
      rw [if_neg hv, Nat.add_zero]
    have hsame : trimmed r.next b = b := if_pos hbase.ge
    rw [if_neg hv, hstart, hfirst, hsame]
    exact ⟨s, _, hp, carries_start hbind, rfl⟩

include hreg hbind hg in
/-- A transfer whose loop ends with the next index n leaves that, and the file that the loop has built. -/
theorem transfer_completes {S : State} {lined : List Binding} {n : Nat} {sl : BitVec 524288} (hr : VectorReady s r.owner [x.toNat, 0, 0])
    (hs : HasStrip (s.ctx r.owner)) (hd : GroupsOk (s.ctx r.owner) [d.toNat]) (hz : ((s.ctx r.owner).tagOf d).bytes = View.size r.desc) (hw : r.write = write)
    (hbusy : (transferOp write d q x p).busy (envOf (transferOp write d q x p) s r.owner) (s.ctx r.owner).reals
      (readyState (transferOp write d q x p) s r.owner) = none)
    (hS : S.agents = s.agents ∧ S.regs = s.regs ∧ S.owners = s.owners)
    (hrun : (transferOp write d q x p).run (envOf (transferOp write d q x p) s r.owner) (s.ctx r.owner).vstart (s.ctx r.owner).reals
      (if (s.ctx r.owner).vstart = 0 then (transferOp write d q x p).begin' (envOf (transferOp write d q x p) s r.owner)
        (beginState (transferOp write d q x p) s r.owner) else beginState (transferOp write d q x p) s r.owner) =
      .ok ((S.setPort (millOf r.owner) r.port lined).setCtx r.owner (transferCtx (s.ctx r.owner) ((transferOp write d q x p).entry (s.ctx r.owner))
        q.toNat r n sl))) :
    exec (transferInstr write d q x p) s = .next (vnext (S.setPort (millOf r.owner) r.port lined) r.owner (transferInstr write d q x p)
      { s.ctx r.owner with streams := (s.ctx r.owner).streams.setIfInBounds q.toNat (some { r with next := n }), slice := sl }) := by
  obtain ⟨hagents, hregs, howners⟩ := hS
  obtain ⟨-, -, -, -, -, -, -, hsample, -, -, hord⟩ := id hr
  have hissue : (transferOp write d q x p).issue (envOf (transferOp write d q x p) s r.owner) (readyState (transferOp write d q x p) s r.owner) = none := by
    rw [transfer_issue hreg hbind hg]
    exact firstTrap_none (by simp [hw, hz])
  have hpush : pushedCtx (transferOp write d q x p) (s.ctx r.owner) =
      State.pushEntry (s.ctx r.owner) ((transferOp write d q x p).entry (s.ctx r.owner)) := ite_self _
  have hctx : (S.setPort (millOf r.owner) r.port lined).ctx r.owner = s.ctx r.owner := by
    show Assoc.getD S.agents _ _ = Assoc.getD s.agents _ _
    rw [hagents]
  have hsampled : bitAt ((S.setPort (millOf r.owner) r.port lined).reg (.cx ((S.setPort (millOf r.owner) r.port lined).partOf r.owner)) 0x60) 63 = false := by
    rw [← hsample]
    show bitAt (S.reg (.cx (S.partOf r.owner)) 0x60) 63 = _
    rw [State.reg, State.partOf, State.ownerOf, hregs, howners]
    rfl
  rw [exec_transfer, vector_next (i := transferInstr write d q x p) hr (pushOnly_id rfl) single_transfer (transfer_decodes hd) (Or.inl hs) hissue hbusy hrun
    (u := S.setPort (millOf r.owner) r.port lined) (fun n => chargeAlone_setCtx (by rw [hctx]; rfl)) ⟨rfl, rfl⟩ hord hctx hsampled rfl
    (by cases write <;> rfl), hpush]
  rfl

end Course

end Sys2Proof.Proofs
end

section
/-! SUPPORT. Stream transfers, by direction (R182, R196 to R198). -/

namespace Sys2Proof.Proofs

open Sys2Proof Sys2Proof.Machine Sys2Proof.Laws Sys2Proof.Safety

section Loops

variable {s : State} {d : BitVec 6} {q : BitVec 3} {x : BitVec 5} {p : BitVec 4} {r : StreamReg} {b : Binding} {loc : Nat → Loc}

/-- The stream index of element i of a transfer by the stream's owner. -/
def indexOf (s : State) (r : StreamReg) (x : BitVec 5) (i : Nat) : Nat := firstIndex (s.ctx r.owner) r x + (i - (s.ctx r.owner).vstart)

theorem indexOf_succ {i : Nat} (h : (s.ctx r.owner).vstart ≤ i) : indexOf s r x (i + 1) = indexOf s r x i + 1 := by
  unfold indexOf
  omega

theorem indexOf_start : indexOf s r x (s.ctx r.owner).vstart = firstIndex (s.ctx r.owner) r x := by
  unfold indexOf
  omega

theorem indexOf_lt {i : Nat} (h : (s.ctx r.owner).vstart ≤ i) (h' : i < (s.ctx r.owner).reals) :
    firstIndex (s.ctx r.owner) r x ≤ indexOf s r x i ∧ indexOf s r x i < indexOf s r x (s.ctx r.owner).reals := by
  unfold indexOf
  omega

/-! ### Reads -/

/-- The state in which a `vsrd` of register q has come to element i: its binding is trimmed to the next index, and the elements below have
received what their indices deliver. -/
def ReadTo (s : State) (d : BitVec 6) (q : BitVec 3) (x : BitVec 5) (p : BitVec 4) (r : StreamReg) (b : Binding) (loc : Nat → Loc) (i : Nat) (t : State) :
    Prop :=
  (s.ctx r.owner).vstart ≤ i ∧ ∃ u lined top sl, Ported s (millOf r.owner) r.port lined u ∧
    ((s.ctx r.owner).vstart < i → u = s.setPort (millOf r.owner) r.port lined) ∧
    Carries r q.toNat (s.port (millOf r.owner) r.port) lined (atIndex b (indexOf s r x i) top) ∧
    (b.device = true → top ≤ max (indexOf s r x i) (b.base + b.buf.length)) ∧
    WrittenTo (s.ctx r.owner) sl d.toNat (View.size r.desc) p.toNat (fun j => delivered s b (loc (indexOf s r x j)) (indexOf s r x j)) i ∧
    t = u.setCtx r.owner (transferCtx (s.ctx r.owner) ((transferOp false d q x p).entry (s.ctx r.owner)) q.toNat r (indexOf s r x i) sl)

/-- What a read asks of its stream: every index that it consumes inside the domain, at a place that is ready. -/
structure Readable (s : State) (x : BitVec 5) (r : StreamReg) (b : Binding) (loc : Nat → Loc) : Prop where
  base : b.base ≤ firstIndex (s.ctx r.owner) r x
  room : 0 < Binding.room b
  top : b.device = true → b.top ≤ b.base + b.buf.length
  inside : indexOf s r x (s.ctx r.owner).reals ≤ View.count r.desc
  place : ∀ j, firstIndex (s.ctx r.owner) r x ≤ j → j < indexOf s r x (s.ctx r.owner).reals → s.streamLoc b j = .ok (loc j)
  ready : ∀ j, b.base + b.buf.length ≤ j → j < indexOf s r x (s.ctx r.owner).reals → s.elementBusy b j = false

theorem Readable.locReady (h : Readable s x r b loc) {j : Nat} (hj : firstIndex (s.ctx r.owner) r x ≤ j)
    (hj' : j < indexOf s r x (s.ctx r.owner).reals) (hout : b.base + b.buf.length ≤ j) : s.locBusy (loc j) = false := by
  have hr := h.ready j hout hj'
  unfold State.elementBusy at hr
  rw [h.place j hj hj'] at hr
  exact hr

theorem ReadTo.step (hg : r.gang = false) (hok : Readable s x r b loc) (hd : GroupsOk (s.ctx r.owner) [d.toNat])
    (hz : ((s.ctx r.owner).tagOf d).bytes = View.size r.desc) {i : Nat} {t : State} (hi : i < (s.ctx r.owner).reals)
    (h : ReadTo s d q x p r b loc i t) :
    ∃ t', (if (t.ctx r.owner).pbit p.toNat i then vsrdElem d.toNat q.toNat true (envOf (transferOp false d q x p) s r.owner) i t
      else vsrdElem d.toNat q.toNat false (envOf (transferOp false d q x p) s r.owner) i t) = .ok t' ∧ ReadTo s d q x p r b loc (i + 1) t' := by
  obtain ⟨hle, u, lined, top, sl, hp, -, hc, htop, hw, rfl⟩ := h
  obtain ⟨hgroup, -, hfits⟩ := hd d.toNat (List.mem_singleton.2 rfl)
  obtain ⟨hlow, hhigh⟩ := indexOf_lt (x := x) hle hi
  have hfit : (i + 1) * View.size r.desc ≤ (s.ctx r.owner).groupBytes := by
    rw [← hz]
    exact fits_bound hfits hi
  have hin : d.toNat * (s.ctx r.owner).regBytes + (i + 1) * View.size r.desc ≤ 65536 := by
    have := group_inside hgroup
    omega
  have hpbit : (((u.setCtx r.owner (transferCtx (s.ctx r.owner) ((transferOp false d q x p).entry (s.ctx r.owner)) q.toNat r
      (indexOf s r x i) sl)).ctx r.owner).pbit p.toNat i) = (s.ctx r.owner).pbit p.toNat i := by
    rw [ctx_setCtx_same]
    rfl
  have hnext := fun active => vsrdElem_next (c := s.ctx r.owner) (q := (transferOp false d q x p).entry (s.ctx r.owner)) (sl := sl)
    (env := envOf (transferOp false d q x p) s r.owner) hp hc (hok.base.trans hlow) hok.room (hok.place _ hlow hhigh)
    (hok.locReady hlow hhigh) htop d.toNat active q.isLt hg rfl (hhigh.trans_le hok.inside) hi hfit
  rw [hpbit]
  cases hact : (s.ctx r.owner).pbit p.toNat i with
  | true =>
    obtain ⟨lined', top', hc', htop', hrun⟩ := hnext true
    rw [if_pos rfl, hrun]
    refine ⟨_, rfl, by omega, _, lined', top', _, ported_setPort .., fun _ => rfl, ?_, ?_, writtenTo_active hw hle hin hact rfl, ?_⟩
    · rw [indexOf_succ hle]; exact hc'
    · rw [indexOf_succ hle]; exact htop'
    · rw [indexOf_succ hle]; rfl
  | false =>
    obtain ⟨lined', top', hc', htop', hrun⟩ := hnext false
    rw [if_neg Bool.false_ne_true, hrun]
    refine ⟨_, rfl, by omega, _, lined', top', _, ported_setPort .., fun _ => rfl, ?_, ?_, writtenTo_inactive hw hle hact, ?_⟩
    · rw [indexOf_succ hle]; exact hc'
    · rw [indexOf_succ hle]; exact htop'
    · rw [indexOf_succ hle]; rfl

/-- A read waits for nothing: its last element has arrived, or the place of the next to arrive is ready. -/
theorem Readable.notBusy (h : Readable s x r b loc) (hreg : s.streamReg r.owner q.toNat = some r) (hbind : s.bindingOf r q.toNat = some b)
    (hg : r.gang = false) (hstart : b.started = true) (hs : (s.ctx r.owner).vstart < (s.ctx r.owner).reals) :
    (transferOp false d q x p).busy (envOf (transferOp false d q x p) s r.owner) (s.ctx r.owner).reals
      (readyState (transferOp false d q x p) s r.owner) = none := by
  have hev : readyState (transferOp false d q x p) s r.owner = { s with mills := s.mills, agents := (readyState (transferOp false d q x p) s r.owner).agents } := rfl
  have hbind' : (readyState (transferOp false d q x p) s r.owner).bindingOf r q.toNat = some b := hbind
  have hreaders : (readyState (transferOp false d q x p) s r.owner).readers r q.toNat = [r.owner] := by
    unfold State.readers
    rw [if_neg (by simp [hg])]
  have harrive : ∀ j, j < indexOf s r x (s.ctx r.owner).reals → (readyState (transferOp false d q x p) s r.owner).canArrive r.owner q.toNat j = true := by
    intro j hj
    have hnext : j < b.base + b.buf.length ∨ s.elementBusy b (b.base + b.buf.length) = false := by
      by_cases hin : j < b.base + b.buf.length
      · exact Or.inl hin
      · exact Or.inr (h.ready _ (Nat.le_refl _) (by omega))
    unfold State.canArrive
    rw [streamReg_readyState, hreg]
    dsimp only
    rw [hbind', hreaders]
    dsimp only
    rw [hstart, elementBusy_elsewhere hev]
    rcases hnext with hin | hin <;> simp [hin]
  have hfirst : r.next + (envOf (transferOp false d q x p) s r.owner).skipped + ((s.ctx r.owner).reals - (envOf (transferOp false d q x p) s r.owner).start) =
      indexOf s r x (s.ctx r.owner).reals := by
    unfold indexOf firstIndex Env.skipped
    by_cases hv : (s.ctx r.owner).vstart = 0
    · simp [envOf, VqEntry.env, VOp.entry, hv]
      rfl
    · simp [envOf, VqEntry.env, VOp.entry, hv]
  have hpos : 0 < indexOf s r x (s.ctx r.owner).reals := by
    have := indexOf_lt (x := x) (Nat.le_refl _) hs
    omega
  show streamBusy q.toNat _ _ _ = none
  unfold streamBusy
  rw [show (envOf (transferOp false d q x p) s r.owner).f = r.owner from rfl, streamReg_readyState, hreg]
  dsimp only
  rw [hfirst, if_pos (harrive _ (by omega))]

/-- `vsrd` of a started binding. -/
theorem vsrd_next (hreg : s.streamReg r.owner q.toNat = some r) (hbind : s.bindingOf r q.toNat = some b) (hg : r.gang = false)
    (hr : VectorReady s r.owner [x.toNat, 0, 0]) (hs : HasStrip (s.ctx r.owner)) (hd : GroupsOk (s.ctx r.owner) [d.toNat])
    (hz : ((s.ctx r.owner).tagOf d).bytes = View.size r.desc) (hbase : b.base = r.next) (hw : r.write = false) (hstart : b.started = true)
    (hok : Readable s x r b loc) (hne : (s.ctx r.owner).vstart < (s.ctx r.owner).reals) :
    ∃ lined top sl, Carries r q.toNat (s.port (millOf r.owner) r.port) lined (atIndex b (indexOf s r x (s.ctx r.owner).reals) top) ∧
      exec (.vsrd d q x p) s = .next (vnext (s.setPort (millOf r.owner) r.port lined) r.owner (.vsrd d q x p)
        { s.ctx r.owner with
          streams := (s.ctx r.owner).streams.setIfInBounds q.toNat (some { r with next := indexOf s r x (s.ctx r.owner).reals })
          slice := sl }) ∧
      GroupWritten (s.ctx r.owner) sl d.toNat (View.size r.desc) p.toNat
        fun j => delivered s b (loc (indexOf s r x j)) (indexOf s r x j) := by
  obtain ⟨u, lined, hp, hc, hbegin⟩ := transfer_begins (write := false) (d := d) (x := x) (p := p) hreg hbind hg hbase
  have hread : ReadTo s d q x p r b loc (s.ctx r.owner).vstart (u.setCtx r.owner (transferCtx (s.ctx r.owner)
      ((transferOp false d q x p).entry (s.ctx r.owner)) q.toNat r (firstIndex (s.ctx r.owner) r x) (s.ctx r.owner).slice)) := by
    refine ⟨Nat.le_refl _, u, lined, b.top, (s.ctx r.owner).slice, hp, fun h => absurd h (Nat.lt_irrefl _), ?_, ?_, writtenTo_start .., ?_⟩
    · rw [indexOf_start]
      rw [trimmed_eq hok.base] at hc
      exact hc
    · intro hdev
      exact (hok.top hdev).trans (Nat.le_max_right _ _)
    · rw [indexOf_start]
  obtain ⟨t, hrun, hend⟩ := elements_reach (pm := p.toNat) (env := envOf (transferOp false d q x p) s r.owner)
    (ReadTo s d q x p r b loc) (fun i t hi h => ReadTo.step hg hok hd hz hi h) ((s.ctx r.owner).reals - (s.ctx r.owner).vstart) _ _ (by omega) hread
  rw [show (s.ctx r.owner).vstart + ((s.ctx r.owner).reals - (s.ctx r.owner).vstart) = (s.ctx r.owner).reals by omega] at hend
  obtain ⟨-, u', lined', top', sl', -, hu, hc', -, hwritten, rfl⟩ := hend
  rw [hu hne] at hrun
  refine ⟨lined', top', sl', hc', ?_, hwritten⟩
  exact transfer_completes (write := false) (S := s) hreg hbind hg hr hs hd hz hw (hok.notBusy hreg hbind hg hstart hne) ⟨rfl, rfl, rfl⟩
    (by rw [hbegin]; exact hrun)

/-! ### Writes -/

/-- The state in which a `vswr` has come to element i: S is what its writes have left of s, and `pend` what its binding holds. -/
def WroteTo (s : State) (d : BitVec 6) (q : BitVec 3) (x : BitVec 5) (p : BitVec 4) (r : StreamReg) (b : Binding) (S : Nat → State)
    (pend : Nat → List (Nat × Nat)) (i : Nat) (t : State) : Prop :=
  (s.ctx r.owner).vstart ≤ i ∧ ∃ u lined y, Ported (S i) (millOf r.owner) r.port lined u ∧
    ((s.ctx r.owner).vstart < i → u = (S i).setPort (millOf r.owner) r.port lined) ∧
    Carries r q.toNat (s.port (millOf r.owner) r.port) lined y ∧
    y = { b with base := y.base, buf := y.buf, top := y.top, pend := pend i } ∧ (b.device = true → y.top ≤ indexOf s r x i) ∧
    t = u.setCtx r.owner (transferCtx (s.ctx r.owner) ((transferOp true d q x p).entry (s.ctx r.owner)) q.toNat r (indexOf s r x i) (s.ctx r.owner).slice)

/-- `vswr`, once each of its elements keeps `WroteTo`. -/
theorem vswr_next (hreg : s.streamReg r.owner q.toNat = some r) (hbind : s.bindingOf r q.toNat = some b) (hg : r.gang = false)
    (hr : VectorReady s r.owner [x.toNat, 0, 0]) (hs : HasStrip (s.ctx r.owner)) (hd : GroupsOk (s.ctx r.owner) [d.toNat])
    (hz : ((s.ctx r.owner).tagOf d).bytes = View.size r.desc) (hbase : b.base = r.next) (hw : r.write = true)
    (htop : b.device = true → b.top ≤ r.next) (hne : (s.ctx r.owner).vstart < (s.ctx r.owner).reals) {S : Nat → State} {pend : Nat → List (Nat × Nat)}
    (hS : ∀ i, (S i).agents = s.agents ∧ (S i).regs = s.regs ∧ (S i).owners = s.owners)
    (hS0 : S (s.ctx r.owner).vstart = s) (hpend : pend (s.ctx r.owner).vstart = b.pend)
    (hstep : ∀ i t, i < (s.ctx r.owner).reals → WroteTo s d q x p r b S pend i t →
      ∃ t', (if (t.ctx r.owner).pbit p.toNat i then vswrElem d.toNat q.toNat true (envOf (transferOp true d q x p) s r.owner) i t
        else vswrElem d.toNat q.toNat false (envOf (transferOp true d q x p) s r.owner) i t) = .ok t' ∧ WroteTo s d q x p r b S pend (i + 1) t') :
    ∃ lined y, Carries r q.toNat (s.port (millOf r.owner) r.port) lined y ∧
      y = { b with base := y.base, buf := y.buf, top := y.top, pend := pend (s.ctx r.owner).reals } ∧
      exec (.vswr d q x p) s = .next (vnext ((S (s.ctx r.owner).reals).setPort (millOf r.owner) r.port lined) r.owner (.vswr d q x p)
        { s.ctx r.owner with
          streams := (s.ctx r.owner).streams.setIfInBounds q.toNat (some { r with next := indexOf s r x (s.ctx r.owner).reals }) }) := by
  obtain ⟨u, lined, hp, hc, hbegin⟩ := transfer_begins (write := true) (d := d) (x := x) (p := p) hreg hbind hg hbase
  have hmoved := trimmed_moved (firstIndex (s.ctx r.owner) r x) b
  have hwrote : WroteTo s d q x p r b S pend (s.ctx r.owner).vstart (u.setCtx r.owner (transferCtx (s.ctx r.owner)
      ((transferOp true d q x p).entry (s.ctx r.owner)) q.toNat r (firstIndex (s.ctx r.owner) r x) (s.ctx r.owner).slice)) := by
    refine ⟨Nat.le_refl _, u, lined, _, by rw [hS0]; exact hp, fun h => absurd h (Nat.lt_irrefl _), hc, ?_, ?_, by rw [indexOf_start]⟩
    · rw [hpend]
      conv_lhs => rw [hmoved]
      rw [show (trimmed (firstIndex (s.ctx r.owner) r x) b).top = b.top by rw [hmoved]]
    · intro hdev
      rw [indexOf_start, show (trimmed (firstIndex (s.ctx r.owner) r x) b).top = b.top by rw [hmoved]]
      exact (htop hdev).trans (Nat.le_add_right _ _)
  obtain ⟨t, hrun, hend⟩ := elements_reach (pm := p.toNat) (env := envOf (transferOp true d q x p) s r.owner)
    (WroteTo s d q x p r b S pend) hstep ((s.ctx r.owner).reals - (s.ctx r.owner).vstart) _ _ (by omega) hwrote
  rw [show (s.ctx r.owner).vstart + ((s.ctx r.owner).reals - (s.ctx r.owner).vstart) = (s.ctx r.owner).reals by omega] at hend
  obtain ⟨-, u', lined', y, -, hu, hc', hy, -, rfl⟩ := hend
  rw [hu hne] at hrun
  refine ⟨lined', y, hc', hy, ?_⟩
  exact transfer_completes (write := true) (S := S (s.ctx r.owner).reals) hreg hbind hg hr hs hd hz hw rfl (hS _) (by rw [hbegin]; exact hrun)

/-- The element at which a write stands, and the predicate that it reads. -/
theorem pbit_transferCtx {u : State} {e : VqEntry} {n : Nat} {sl : BitVec 524288} (i : Nat) :
    ((u.setCtx r.owner (transferCtx (s.ctx r.owner) e q.toNat r n sl)).ctx r.owner).pbit p.toNat i = (s.ctx r.owner).pbit p.toNat i := by
  rw [ctx_setCtx_same]
  rfl

/-- What the writes of the active elements below i have made of s, by a binding that has started. -/
def storedBelow (s : State) (d : BitVec 6) (x : BitVec 5) (p : BitVec 4) (r : StreamReg) (loc : Nat → Loc) (i : Nat) : State :=
  (performedBelow (s.ctx r.owner) p.toNat i).foldl
    (fun u k => u.store (loc (indexOf s r x k)) (View.size r.desc) ((s.ctx r.owner).elem d.toNat (View.size r.desc) k)) s

theorem foldl_store_keeps (l : List Nat) (a : Nat → Loc) (n : Nat) (v : Nat → Nat) (s : State) :
    (l.foldl (fun u k => u.store (a k) n (v k)) s).mills = s.mills ∧ (l.foldl (fun u k => u.store (a k) n (v k)) s).agents = s.agents ∧
      (l.foldl (fun u k => u.store (a k) n (v k)) s).regs = s.regs ∧ (l.foldl (fun u k => u.store (a k) n (v k)) s).owners = s.owners := by
  induction l generalizing s with
  | nil => exact ⟨rfl, rfl, rfl, rfl⟩
  | cons k l ih =>
    obtain ⟨hm, ha, hr, ho⟩ := store_keeps s (a k) n (v k)
    obtain ⟨hm', ha', hr', ho'⟩ := ih (s.store (a k) n (v k))
    exact ⟨hm'.trans hm, ha'.trans ha, hr'.trans hr, ho'.trans ho⟩

theorem WroteTo.performs (hg : r.gang = false) (hstart : b.started = true) (hinside : indexOf s r x (s.ctx r.owner).reals ≤ View.count r.desc)
    (hplace : ∀ i ∈ performed (s.ctx r.owner) p.toNat, (storedBelow s d x p r loc i).streamLoc b (indexOf s r x i) = .ok (loc (indexOf s r x i)) ∧
      (storedBelow s d x p r loc i).locBusy (loc (indexOf s r x i)) = false) {i : Nat} {t : State} (hi : i < (s.ctx r.owner).reals)
    (h : WroteTo s d q x p r b (storedBelow s d x p r loc) (fun _ => []) i t) :
    ∃ t', (if (t.ctx r.owner).pbit p.toNat i then vswrElem d.toNat q.toNat true (envOf (transferOp true d q x p) s r.owner) i t
      else vswrElem d.toNat q.toNat false (envOf (transferOp true d q x p) s r.owner) i t) = .ok t' ∧
      WroteTo s d q x p r b (storedBelow s d x p r loc) (fun _ => []) (i + 1) t' := by
  obtain ⟨hle, u, lined, y, hp, -, hc, hy, htop, rfl⟩ := h
  obtain ⟨-, hhigh⟩ := indexOf_lt (x := x) hle hi
  have hn := hhigh.trans_le hinside
  rw [pbit_transferCtx]
  cases hact : (s.ctx r.owner).pbit p.toNat i with
  | true =>
    have hmem : i ∈ performed (s.ctx r.owner) p.toNat := by simp [performed, hi, hle, hact]
    obtain ⟨hloc, hbusy⟩ := hplace i hmem
    have hS : storedBelow s d x p r loc (i + 1) = (storedBelow s d x p r loc i).store (loc (indexOf s r x i)) (View.size r.desc)
        ((s.ctx r.owner).elem d.toNat (View.size r.desc) i) := by
      unfold storedBelow
      rw [performedBelow_succ hle, hact, if_pos rfl, List.foldl_append]
      rfl
    have hmoved := trimmed_moved (indexOf s r x i + 1) (marked (indexOf s r x i) y)
    rw [if_pos rfl, vswrElem_performs hp hc q.isLt hg rfl hn (by rw [hy]; exact htop) (by rw [hy]; exact hloc) d.toNat i (by rw [hy]; exact hstart)
      (by rw [hy]) hbusy]
    refine ⟨_, rfl, by omega, _, _, _, ported_setPort .., fun _ => ?_, (hc.changed (g := marked (indexOf s r x i)) fun _ => rfl).changed
      (trimmed_isOf (indexOf s r x i + 1) r q.toNat), ?_, fun _ => ?_, ?_⟩
    · rfl
    · conv_lhs => rw [hmoved]
      rw [hmoved, marked, hy]
    · rw [hmoved, indexOf_succ hle]
      exact Nat.le_refl _
    · rw [indexOf_succ hle, hS]
      rfl
  | false =>
    have hS : storedBelow s d x p r loc (i + 1) = storedBelow s d x p r loc i := by
      unfold storedBelow
      rw [performedBelow_succ hle, hact, if_neg Bool.false_ne_true]
    have hmoved := trimmed_moved (indexOf s r x i + 1) y
    rw [if_neg Bool.false_ne_true, vswrElem_inactive hp hc q.isLt hg rfl hn]
    refine ⟨_, rfl, by omega, _, _, _, ported_setPort .., fun _ => rfl, hc.changed (trimmed_isOf (indexOf s r x i + 1) r q.toNat), ?_, fun hdev => ?_, ?_⟩
    · conv_lhs => rw [hmoved]
      rw [hmoved, hy]
    · rw [hmoved, indexOf_succ hle]
      exact (htop hdev).trans (Nat.le_succ _)
    · rw [indexOf_succ hle, hS]

/-- What the binding holds once the active elements below i have been written, before it has started. -/
def heldBelow (s : State) (d : BitVec 6) (x : BitVec 5) (p : BitVec 4) (r : StreamReg) (b : Binding) (i : Nat) : List (Nat × Nat) :=
  b.pend ++ (performedBelow (s.ctx r.owner) p.toNat i).map fun k => (indexOf s r x k, (s.ctx r.owner).elem d.toNat (View.size r.desc) k)

theorem WroteTo.holds (hg : r.gang = false) (hstart : b.started = false) (hinside : indexOf s r x (s.ctx r.owner).reals ≤ View.count r.desc)
    (hplace : ∀ i ∈ performed (s.ctx r.owner) p.toNat, s.streamLoc b (indexOf s r x i) = .ok (loc (indexOf s r x i))) {i : Nat} {t : State}
    (hi : i < (s.ctx r.owner).reals) (h : WroteTo s d q x p r b (fun _ => s) (heldBelow s d x p r b) i t) :
    ∃ t', (if (t.ctx r.owner).pbit p.toNat i then vswrElem d.toNat q.toNat true (envOf (transferOp true d q x p) s r.owner) i t
      else vswrElem d.toNat q.toNat false (envOf (transferOp true d q x p) s r.owner) i t) = .ok t' ∧
      WroteTo s d q x p r b (fun _ => s) (heldBelow s d x p r b) (i + 1) t' := by
  obtain ⟨hle, u, lined, y, hp, -, hc, hy, htop, rfl⟩ := h
  obtain ⟨-, hhigh⟩ := indexOf_lt (x := x) hle hi
  have hn := hhigh.trans_le hinside
  rw [pbit_transferCtx]
  cases hact : (s.ctx r.owner).pbit p.toNat i with
  | true =>
    have hmem : i ∈ performed (s.ctx r.owner) p.toNat := by simp [performed, hi, hle, hact]
    have hheld : heldBelow s d x p r b (i + 1) = heldBelow s d x p r b i ++ [(indexOf s r x i, (s.ctx r.owner).elem d.toNat (View.size r.desc) i)] := by
      unfold heldBelow
      rw [performedBelow_succ hle, hact, if_pos rfl, List.map_append, List.append_assoc]
      rfl
    have hmoved := trimmed_moved (indexOf s r x i + 1) (holding (indexOf s r x i) ((s.ctx r.owner).elem d.toNat (View.size r.desc) i) y)
    rw [if_pos rfl, vswrElem_holds hp hc q.isLt hg rfl hn (by rw [hy]; exact htop) (by rw [hy]; exact hplace i hmem) d.toNat i
      (by rw [hy]; exact hstart)]
    refine ⟨_, rfl, by omega, _, _, _, ported_setPort .., fun _ => rfl,
      (hc.changed (g := holding (indexOf s r x i) ((s.ctx r.owner).elem d.toNat (View.size r.desc) i)) fun _ => rfl).changed
        (trimmed_isOf (indexOf s r x i + 1) r q.toNat), ?_, fun _ => ?_, ?_⟩
    · conv_lhs => rw [hmoved]
      rw [hmoved, hheld, holding, marked, hy]
    · rw [hmoved, indexOf_succ hle]
      exact Nat.le_refl _
    · rw [indexOf_succ hle]
      rfl
  | false =>
    have hheld : heldBelow s d x p r b (i + 1) = heldBelow s d x p r b i := by
      unfold heldBelow
      rw [performedBelow_succ hle, hact, if_neg Bool.false_ne_true]
    have hmoved := trimmed_moved (indexOf s r x i + 1) y
    rw [if_neg Bool.false_ne_true, vswrElem_inactive hp hc q.isLt hg rfl hn]
    refine ⟨_, rfl, by omega, _, _, _, ported_setPort .., fun _ => rfl, hc.changed (trimmed_isOf (indexOf s r x i + 1) r q.toNat), ?_, fun hdev => ?_, ?_⟩
    · conv_lhs => rw [hmoved]
      rw [hmoved, hheld, hy]
    · rw [hmoved, indexOf_succ hle]
      exact (htop hdev).trans (Nat.le_succ _)
    · rw [indexOf_succ hle]

end Loops

end Sys2Proof.Proofs
end

section
/-! SUPPORT. The statement about stream transfers. -/

namespace Sys2Proof.Proofs

open Sys2Proof Sys2Proof.Machine Sys2Proof.Laws Sys2Proof.Safety

/-- Stores leave the mills, so a port of the state after them stands as one of the state before. -/
theorem storedBelow_setPort_mills {s : State} {d : BitVec 6} {x : BitVec 5} {p : BitVec 4} {r : StreamReg} {loc : Nat → Loc} (i m k : Nat)
    (lined : List Binding) : ((storedBelow s d x p r loc i).setPort m k lined).mills =
      s.mills.put m { s.mill m with ports := (s.mill m).ports.put k lined } := by
  have hm : (storedBelow s d x p r loc i).mills = s.mills := (foldl_store_keeps _ _ _ _ s).1
  show Assoc.put (storedBelow s d x p r loc i).mills m { (storedBelow s d x p r loc i).mill m with
    ports := ((storedBelow s d x p r loc i).mill m).ports.put k lined } = _
  unfold State.mill
  rw [hm]

/-- Settles O40: each element of the strip moves the next index by one, and the binding follows it; the loop keeps the binding trimmed to that
index (`ReadTo`), or what it has stored or held below it (`WroteTo`). -/
theorem streamTransfersConsumeIndices : Obligations.StreamTransfersConsumeIndices := by
  unfold Obligations.StreamTransfersConsumeIndices
  intro s f d q x p hready c qn hstrip hgroups
  refine ⟨fun hun => ⟨transfer_meetsTrap (write := false) hready hstrip hgroups (transfer_unbound hun),
    transfer_meetsTrap (write := true) hready hstrip hgroups (transfer_unbound hun)⟩, fun r b hreg hbind hg hown => ?_⟩
  subst hown
  refine ⟨?_, ?_⟩
  · have htrap := transfer_meetsTrap (write := !r.write) (p := p) (t := .stream) hready hstrip hgroups
      (by rw [transfer_issue hreg hbind hg]; cases r.write <;> rfl)
    cases hw : r.write <;> rw [hw] at htrap <;> exact htrap
  intro z
  refine ⟨fun htag => ?_, ?_⟩
  · have htrap := transfer_meetsTrap (write := r.write) (p := p) (t := .tag) hready hstrip hgroups
      (by rw [transfer_issue hreg hbind hg, decide_eq_true htag]; cases r.write <;> rfl)
    cases hw : r.write <;> rw [hw] at htrap <;> exact htrap
  intro first index after hz hdesc hbase hinside hle queued onlyBinding moved
  have hafter : index (max c.reals c.vstart) = indexOf s r x c.reals := by rw [Nat.max_eq_left hle]; rfl
  refine ⟨?_, ?_⟩
  · intro hw hbw hstart hroom htop loc hplace hbusy hsome
    obtain ⟨i, hi, hi'⟩ := hsome
    have hne : c.vstart < c.reals := by omega
    have hok : Readable s x r b loc := ⟨hbase.le.trans (Nat.le_add_right _ _), hroom, htop, hinside, hplace, hbusy⟩
    obtain ⟨lined, top, sl, hc, hexec, hwritten⟩ := vsrd_next hreg hbind hg hready hstrip hgroups hz hbase hw hstart hok hne
    refine ⟨sl, _, ?_, ⟨lined, rfl, hc.length, hc.others, _, hc.found, _, _, _, rfl⟩, ?_⟩
    · rw [hexec]
      simp only [after, hafter]
      rfl
    · simp only [delivered, hdesc] at hwritten
      exact hwritten
  · intro hw hbw htop hsome loc
    obtain ⟨i, hi, hi'⟩ := hsome
    have hne : c.vstart < c.reals := by omega
    refine ⟨fun hstart hpend hplace => ?_, fun hstart hplace => ?_⟩
    · have hat : ∀ i ∈ performed c p.toNat, (storedBelow s d x p r loc i).streamLoc b (indexOf s r x i) = .ok (loc (indexOf s r x i)) ∧
          (storedBelow s d x p r loc i).locBusy (loc (indexOf s r x i)) = false := by
        intro i hmem
        have hlt : i < c.reals := List.mem_range.1 (List.mem_of_mem_filter hmem)
        have hi := hplace i hmem
        rw [performed_below p.toNat hlt.le] at hi
        exact hi
      obtain ⟨lined, y, hc, hy, hexec⟩ := vswr_next hreg hbind hg hready hstrip hgroups hz hbase hw htop hne
        (S := storedBelow s d x p r loc) (pend := fun _ => []) (fun i => (foldl_store_keeps _ _ _ _ s).2)
        (by rw [storedBelow, performedBelow_start]; rfl) hpend.symm (fun i t hi h => h.performs hg hstart hinside hat hi)
      refine ⟨((storedBelow s d x p r loc c.reals).setPort (millOf r.owner) r.port lined).mills,
        ⟨lined, storedBelow_setPort_mills .., hc.length, hc.others, y, hc.found, y.base, y.buf, y.top, ?_⟩, ?_⟩
      · rw [hy, ← hpend]
      · rw [hexec]
        simp only [after, hafter]
        rfl
    · obtain ⟨lined, y, hc, hy, hexec⟩ := vswr_next hreg hbind hg hready hstrip hgroups hz hbase hw htop hne
        (S := fun _ => s) (pend := heldBelow s d x p r b) (fun _ => ⟨rfl, rfl, rfl⟩) rfl
        (by rw [heldBelow, performedBelow_start]; exact List.append_nil _) (fun i t hi h => h.holds hg hstart hinside hplace hi)
      refine ⟨_, ?_, ⟨lined, rfl, hc.length, hc.others, y, hc.found, ⟨y.base, y.buf, y.top, ?_⟩, ?_⟩⟩
      · rw [hexec]
        simp only [after, hafter]
        rfl
      · rw [hy]
      · rw [hy]
        rfl

end Sys2Proof.Proofs
end

section
/-! SUPPORT. The vector accesses (R186 to R194): their words and checks, and what one element does. -/

namespace Sys2Proof.Proofs

open Sys2Proof Sys2Proof.Machine Sys2Proof.Laws Sys2Proof.Safety

/-! ### The instructions -/

/-- A word of OP 0x2B, whose index register, scalar or vector, has n bits from bit lo. -/
theorem opOf_access {lo n : Nat} (k : Fin 8) (hplace : lo = 11 ∧ n = 5 ∨ lo = 10 ∧ n = 6) (d : BitVec 6) (w : BitVec 4) (x : BitVec n)
    (p : BitVec 4) :
    opOf (asm (0xAC000000 + k) [(d.toNat, 20), (w.toNat, 16), (x.toNat, lo), (p.toNat, 6)]) = 0x2B := by
  have hfree : (decide (0xAC000000 + k.val < 2 ^ 32) && Encoding.free (0xAC000000 + k) [(20, 6), (16, 4), (lo, n), (6, 4)]) = true := by
    revert k
    rcases hplace with ⟨rfl, rfl⟩ | ⟨rfl, rfl⟩ <;> decide +kernel
  have hopcode : (Encoding.apart 26 6 [(20, 6), (16, 4), (lo, n), (6, 4)] && Nat.beq ((0xAC000000 + k) / 2 ^ 26 % 2 ^ 6) 0x2B) = true := by
    revert k
    rcases hplace with ⟨rfl, rfl⟩ | ⟨rfl, rfl⟩ <;> decide +kernel
  obtain ⟨W, hW, -, hbits⟩ := Encoding.asm_reads (0xAC000000 + k) [(d.toNat, 20, 6), (w.toNat, 16, 4), (x.toNat, lo, n), (p.toNat, 6, 4)]
    _ _ rfl rfl hfree ⟨d.isLt, w.isLt, x.isLt, p.isLt, trivial⟩
  exact (congrArg opOf hW).trans (hbits 26 6 0x2B hopcode)

/-- Instruction i is the vector access of these operands. -/
structure IsAccess (i : Instr) (spaces : List Nat) (acc : Access) (d : BitVec 6) (w : BitVec 4) (sa : Nat) (ix : Index) (p : BitVec 4) : Prop where
  runs : ∀ s, exec i s = .next (s.vector (vmemOp i.word spaces acc d w sa ix p))
  opcode : opOf i.word = 0x2B
  strip : ∀ c, elementsOf i c = c.reals

section Instructions

variable (d x : BitVec 6) (w p : BitVec 4) (y : BitVec 5)

theorem isAccess_vld : IsAccess (.vld d w y p) [0] .load d w y.toNat .linear p :=
  ⟨fun _ => rfl, opOf_access 0 (.inl ⟨rfl, rfl⟩) d w y p, fun _ => rfl⟩
theorem isAccess_vst : IsAccess (.vst d w y p) [0] .store d w y.toNat .linear p :=
  ⟨fun _ => rfl, opOf_access 1 (.inl ⟨rfl, rfl⟩) d w y p, fun _ => rfl⟩
theorem isAccess_vldx : IsAccess (.vldx d w x p) [0] .load d w 0 (.indexed x.toNat) p :=
  ⟨fun _ => rfl, opOf_access 2 (.inr ⟨rfl, rfl⟩) d w x p, fun _ => rfl⟩
theorem isAccess_vstx : IsAccess (.vstx d w x p) [0] .store d w 0 (.indexed x.toNat) p :=
  ⟨fun _ => rfl, opOf_access 3 (.inr ⟨rfl, rfl⟩) d w x p, fun _ => rfl⟩
theorem isAccess_vgb : IsAccess (.vgb d w x p) [1] .load d w 0 (.indexed x.toNat) p :=
  ⟨fun _ => rfl, opOf_access 5 (.inr ⟨rfl, rfl⟩) d w x p, fun _ => rfl⟩
theorem isAccess_vsb : IsAccess (.vsb d w x p) [1] .store d w 0 (.indexed x.toNat) p :=
  ⟨fun _ => rfl, opOf_access 6 (.inr ⟨rfl, rfl⟩) d w x p, fun _ => rfl⟩
theorem isAccess_vaadd : IsAccess (.vaadd d w x p) [0, 1] .add d w 0 (.indexed x.toNat) p :=
  ⟨fun _ => rfl, opOf_access 7 (.inr ⟨rfl, rfl⟩) d w x p, fun _ => rfl⟩

end Instructions

/-! ### The checks (R187 to R190) -/

/-- The index operand of an access serves it (R188, R189), and so does the tag of its elements (R194). -/
def IndexOk (c : Ctx) (acc : Access) (d : BitVec 6) : Index → Prop
  | .linear => True
  | .indexed x => GroupsOk c [x] ∧ indexTag (c.tag x) = true ∧ c.tagOf d ≠ .p32 ∧ (acc ≠ .load → d.toNat ≠ x) ∧
      (acc = .add → c.tagOf d ∈ [Tag.i32, .n32, .i64])

section Checks

variable {s : State} {f : Nat} {word : Word} {spaces : List Nat} {acc : Access} {d : BitVec 6} {w : BitVec 4} {sa : Nat} {ix : Index}
  {p : BitVec 4} {v : Line}

/-- An accepted view is the one that the access goes through. -/
theorem vectorView_accepted {b : Nat} (h : VectorView s f w v spaces b) : vmemView spaces ((s.ctx f).view false w.toNat) = some v := by
  obtain ⟨hview, hspace, hwhole, -⟩ := h
  simp [vmemView, hview, hspace, hwhole]

/-- An element of a view that is not larger than the elements of the group, and smaller ones only side by side (R187). -/
def SizeFits (v : Line) (b : Nat) : Prop := View.size v ≤ b ∧ (View.size v = b ∨ View.rank v = 1 ∧ View.stride v 0 = 1)

theorem vectorView_sizeFits {b : Nat} (h : VectorView s f w v spaces b) : SizeFits v b := by
  obtain ⟨-, -, -, hle, hfit, -⟩ := h
  exact ⟨hle, hfit⟩

theorem sizeFits_check {b : Nat} (h : SizeFits v b) :
    (decide (b < View.size v) || (decide (View.size v < b) && !(View.rank v = 1 && View.stride v 0 = 1))) = false := by
  obtain ⟨hle, hsize | ⟨hrank, hstride⟩⟩ := h
  · simp [hsize]
  · simp [hrank, hstride, hle]

/-- An access whose groups, tags and view serve it passes at decode; a view that is not set is a check at issue (R190). -/
theorem vmemDecode_none {c : Ctx} (hd : GroupsOk c [d.toNat]) (hix : IndexOk c acc d ix)
    (hv : ∀ v, vmemView spaces (c.view false w.toNat) = some v → SizeFits v (c.tagOf d).bytes) :
    vmemDecode spaces acc d.toNat w.toNat ix c = none := by
  obtain ⟨hgroup, htag, -⟩ := hd d.toNat (List.mem_singleton.2 rfl)
  have hview : (match vmemView spaces (c.view false w.toNat) with
      | none => false
      | some v => decide ((c.tag d.toNat).bytes < View.size v) ||
        (decide (View.size v < (c.tag d.toNat).bytes) && !(View.rank v = 1 && View.stride v 0 = 1))) = false := by
    cases hacc : vmemView spaces (c.view false w.toNat) with
    | none => rfl
    | some v => exact sizeFits_check (hv v hacc)
  cases ix with
  | linear =>
    refine firstTrap_none ?_
    simp only [List.mem_cons, List.not_mem_nil, or_false, forall_eq_or_imp, forall_eq]
    exact ⟨by simp [Ctx.badGroups, hgroup], decide_eq_false htag, hview⟩
  | indexed x =>
    obtain ⟨hx, hindex, hp32, hapart, hadd⟩ := hix
    obtain ⟨hxgroup, -, -⟩ := hx x (List.mem_singleton.2 rfl)
    refine firstTrap_none ?_
    simp only [List.mem_cons, List.not_mem_nil, or_false, forall_eq_or_imp, forall_eq]
    refine ⟨?_, ?_, ?_, hview⟩
    · simp only [Ctx.badGroups, List.any_cons, List.any_nil, hgroup, hxgroup, Bool.not_true, Bool.or_false, Bool.false_or]
      by_cases hload : acc = .load
      · simp [hload]
      · simp [hapart hload]
    · have hint : acc = .add → (c.tag d.toNat = .i32 ∨ c.tag d.toNat = .n32) ∨ c.tag d.toNat = .i64 := fun h => by
        simpa [Ctx.tagOf, or_assoc] using hadd h
      simp only [Ctx.tagOf] at hp32
      by_cases hacc : acc = .add
      · rcases hint hacc with (h | h) | h <;> simp [h]
      · simp [htag, hp32, hacc]
    · simp [hindex]

/-- What the access finds of its view when it was pushed. -/
theorem envOf_view : (envOf (vmemOp word spaces acc d w sa ix p) s f).view = (s.ctx f).view false w.toNat := by
  show ((((s.ctx f).view false w.toNat).map fun d => (⟨w.toNat, d, none⟩ : Via)).map (·.desc)) = _
  cases (s.ctx f).view false w.toNat <;> rfl

/-- The group of indices holds VL elements, and so the view alone decides at issue (R189, R190). -/
theorem vmemIssue_view (hix : IndexOk (s.ctx f) acc d ix) :
    vmemIssue spaces ix (envOf (vmemOp word spaces acc d w sa ix p) s f) (readyState (vmemOp word spaces acc d w sa ix p) s f) =
      if (vmemView spaces ((s.ctx f).view false w.toNat)).isNone then some (.access 0) else none := by
  have hctx : (readyState (vmemOp word spaces acc d w sa ix p) s f).ctx f = aboutTo (s.ctx f) _ (s.ctx f) := ctx_setCtx_same ..
  unfold vmemIssue
  rw [envOf_view]
  cases ix with
  | linear => rfl
  | indexed x =>
    obtain ⟨hx, -⟩ := hix
    obtain ⟨-, -, hfits⟩ := hx x (List.mem_singleton.2 rfl)
    show firstTrap [(!(Ctx.fits ((readyState _ s f).ctx f) (((readyState _ s f).ctx f).tag x).bytes), _), _] = _
    rw [hctx]
    show firstTrap [(!((s.ctx f).fits ((s.ctx f).tag x).bytes), _), _] = _
    rw [hfits]
    rfl

/-- An access through an accepted view that no queued access meets waits for nothing (R157). -/
theorem vmemBusy_none {b n : Nat} (h : VectorView s f w v spaces b) :
    vmemBusy spaces (envOf (vmemOp word spaces acc d w sa ix p) s f) n (readyState (vmemOp word spaces acc d w sa ix p) s f) = none := by
  have hmeets : (readyState (vmemOp word spaces acc d w sa ix p) s f).xqMeets f v = false := by
    obtain ⟨-, -, -, -, -, hfree⟩ := h
    rw [← hfree]
    unfold State.xqMeets readyState
    rw [ctx_setCtx_same]
    rfl
  unfold vmemBusy
  rw [envOf_view, vectorView_accepted h]
  exact if_neg (Bool.eq_false_iff.1 hmeets)

/-- A vector access is not one of those that form convoys with others by R130 or R331. -/
theorem IsAccess.single {i : Instr} (h : IsAccess i spaces acc d w sa ix p) : Single (vmemOp i.word spaces acc d w sa ix p) :=
  single_of_opcode h.opcode (by decide) (by decide)

/-- An access through a view that is not set meets the access trap (R190). -/
theorem IsAccess.unset {i : Instr} (h : IsAccess i spaces acc d w sa ix p) (hr : VectorReady s f [sa, 0, 0]) (hs : HasStrip (s.ctx f))
    (hd : GroupsOk (s.ctx f) [d.toNat]) (hix : IndexOk (s.ctx f) acc d ix) (hv : (s.ctx f).view false w.toNat = none) :
    MeetsTrap s f i (.access 0) := by
  have hnone : vmemView spaces ((s.ctx f).view false w.toNat) = none := by rw [hv]; rfl
  refine vector_meetsTrap (h.runs s) hr rfl h.single (vmemDecode_none hd hix (by simp [hnone])) (.inl hs) ?_
  exact (vmemIssue_view hix).trans (by rw [hnone]; rfl)

end Checks

/-! ### One element (R190, R194, R445) -/

/-- The elements of b bytes at view index j lie inside the domain (R190). -/
def Inside (v : Line) (b : Nat) (j : Int) : Prop := 0 ≤ j ∧ j + (b / View.size v : Nat) ≤ View.count v

theorem vmemAddr_inside {v : Line} {b : Nat} {j : Int} (h : Inside v b j) : vmemAddr v b j = .ok (View.addr v j.toNat).toNat := by
  obtain ⟨hlow, hhigh⟩ := h
  refine if_neg ?_
  simp only [Bool.or_eq_true, decide_eq_true_eq, not_or, Int.not_lt]
  exact ⟨hlow, hhigh⟩

theorem vmemAddr_outside {v : Line} {b : Nat} {j : Int} (h : ¬ Inside v b j) : vmemAddr v b j = .error (.access (View.base v)) := by
  refine if_pos ?_
  simp only [Bool.or_eq_true, decide_eq_true_eq]
  unfold Inside at h
  omega

section Element

variable {t : State} {spaces : List Nat} {acc : Access} {b d i : Nat} {ix : Index} {env : Env} {v : Line} {j : Int}

/-- The context t of thread env.f, at element i of an access through view v, has b bytes for its elements and the index j. -/
structure AtElement (t : State) (spaces : List Nat) (d : Nat) (ix : Index) (env : Env) (i : Nat) (v : Line) (b : Nat) (j : Int) : Prop where
  view : vmemView spaces env.view = some v
  space : View.space v ≤ 1
  bytes : ((t.ctx env.f).tag d).bytes = b
  index : vmemIndex (t.ctx env.f) ix env (b / View.size v) i = j

/-- The checks of an element inside the domain, in the order of R445, and its watchpoint. -/
theorem AtElement.inside (h : AtElement t spaces d ix env i v b j) (hin : Inside v b j) :
    vmemElem spaces acc d ix env i t =
      let a := (View.addr v j.toNat).toNat
      let done := vmemPerform acc d b i (.scr (elementByte env.f v j)) (t.ctx env.f) env.f t
      if t.struck (.scr (elementByte env.f v j)) b then .trap (.access a) i false t
      else if a % b ≠ 0 then .trap (.align a) i false t
      else if t.watched env.f v a b (acc ≠ .store) (acc ≠ .load) then .trap (.watch a) i true done else .ok done := by
  obtain ⟨hview, hspace, hbytes, hindex⟩ := h
  unfold vmemElem
  dsimp only
  rw [hview, hbytes]
  dsimp only
  rw [hindex, vmemAddr_inside hin]
  dsimp only
  rw [locate_scratch _ _ _ hspace]
  rfl

theorem AtElement.outside (h : AtElement t spaces d ix env i v b j) (hout : ¬ Inside v b j) :
    vmemElem spaces acc d ix env i t = .trap (.access (View.base v)) i false t := by
  obtain ⟨hview, -, hbytes, hindex⟩ := h
  unfold vmemElem
  dsimp only
  rw [hview, hbytes]
  dsimp only
  rw [hindex, vmemAddr_outside hout]

/-- An element that can be accessed, and that no watchpoint is on, performs. -/
theorem AtElement.performs (h : AtElement t spaces d ix env i v b j) (hok : Performs t env.f v b j)
    (hquiet : t.watched env.f v (View.addr v j.toNat).toNat b (acc ≠ .store) (acc ≠ .load) = false) :
    vmemElem spaces acc d ix env i t = .ok (vmemPerform acc d b i (.scr (elementByte env.f v j)) (t.ctx env.f) env.f t) := by
  obtain ⟨⟨hlow, hhigh, halign⟩, hsound⟩ := hok
  rw [h.inside ⟨hlow, hhigh⟩]
  dsimp only
  rw [hsound, hquiet, if_neg Bool.false_ne_true, if_neg (not_not.2 halign), if_neg Bool.false_ne_true]

theorem elementTrap_inside {f : Nat} (h : Inside v b j) : elementTrap t f v b j =
    if t.struck (.scr (elementByte f v j)) b then .access (View.addr v j.toNat).toNat else .align (View.addr v j.toNat).toNat := if_pos h

theorem elementTrap_outside {f : Nat} (h : ¬ Inside v b j) : elementTrap t f v b j = .access (View.base v) := if_neg h

/-- An element that cannot be accessed meets its trap, and nothing is performed. -/
theorem AtElement.faults (h : AtElement t spaces d ix env i v b j) (hbad : ¬ Performs t env.f v b j) :
    vmemElem spaces acc d ix env i t = .trap (elementTrap t env.f v b j) i false t := by
  by_cases hin : Inside v b j
  · rw [h.inside hin, elementTrap_inside hin]
    dsimp only
    cases hstruck : t.struck (.scr (elementByte env.f v j)) b with
    | true => rfl
    | false =>
      have halign : (View.addr v j.toNat).toNat % b ≠ 0 := fun h0 => hbad ⟨⟨hin.1, hin.2, h0⟩, hstruck⟩
      rw [if_neg Bool.false_ne_true, if_pos halign, if_neg Bool.false_ne_true]
  · rw [h.outside hin, elementTrap_outside hin]

end Element

end Sys2Proof.Proofs
end

section
/-! SUPPORT. The loop of a vector instruction in two parts, and one that meets a trap at an element (R314, R447, R448). -/

namespace Sys2Proof.Proofs

open Sys2Proof Sys2Proof.Machine Sys2Proof.Laws Sys2Proof.Safety

/-! ### The loop in two parts -/

/-- A loop goes on from where its first elements have come to. -/
theorem elements_add {pm : Nat} {env : Env} {el sk : Env → Nat → State → Res} {n : Nat} :
    ∀ {m i : Nat} {t t' : State}, elements pm env el sk m i t = .ok t' →
      elements pm env el sk (m + n) i t = elements pm env el sk n (i + m) t' := by
  intro m
  induction m with
  | zero =>
    intro i t t' h
    cases h
    rw [Nat.zero_add]
    rfl
  | succ m ih =>
    intro i t t' h
    rw [show m + 1 + n = m + n + 1 by omega]
    cases hel : (if (t.ctx env.f).pbit pm i then el env i t else sk env i t) with
    | ok u =>
      simp only [elements, hel] at h ⊢
      rw [ih h, show i + 1 + m = i + (m + 1) by omega]
    | trap => simp [elements, hel] at h
    | wait => simp [elements, hel] at h

/-- A loop ends with the trap of the element that it has come to. -/
theorem elements_trap {pm n i j : Nat} {env : Env} {el sk : Env → Nat → State → Res} {t u : State} {trap : Trap} {done : Bool}
    (hact : (t.ctx env.f).pbit pm i = true) (hel : el env i t = .trap trap j done u) :
    elements pm env el sk (n + 1) i t = .trap trap j done u := by
  rw [elements, if_pos hact, hel]

/-- Inactive elements that have no effect. -/
theorem elements_inactive {pm : Nat} {env : Env} {el : Env → Nat → State → Res} {t : State} :
    ∀ {n i : Nat}, (∀ j, i ≤ j → j < i + n → (t.ctx env.f).pbit pm j = false) → elements pm env el (fun _ _ s => .ok s) n i t = .ok t := by
  intro n
  induction n with
  | zero => exact fun _ => rfl
  | succ n ih =>
    intro i h
    unfold elements
    rw [h i (Nat.le_refl i) (by omega), if_neg Bool.false_ne_true]
    exact ih fun j hj hj' => h j (by omega) (by omega)

/-- The first element that an instruction performs, and those below it. -/
theorem performed_first {c : Ctx} {pm k : Nat} (h : (performed c pm).head? = some k) :
    (c.vstart ≤ k ∧ k < c.reals ∧ c.pbit pm k = true) ∧ ∀ j, c.vstart ≤ j → j < k → c.pbit pm j = false := by
  rw [performed, List.head?_filter, List.find?_range_eq_some] at h
  obtain ⟨hk, hlt, hbelow⟩ := h
  simp only [Bool.and_eq_true, decide_eq_true_eq] at hk
  refine ⟨⟨hk.1, List.mem_range.1 hlt, hk.2⟩, fun j hj hjk => ?_⟩
  simpa [hj] using hbelow j hjk

theorem mem_performed {c : Ctx} {pm k : Nat} : k ∈ performed c pm ↔ c.vstart ≤ k ∧ k < c.reals ∧ c.pbit pm k = true := by
  simp only [performed, List.mem_filter, List.mem_range, Bool.and_eq_true, decide_eq_true_eq]
  tauto

/-! ### A trap at an element -/

/-- The entry of an instruction that has met a trap at element k, and began at `first`. -/
def faultedEntry (q : VqEntry) (first k : Nat) : VqEntry := { q with begun := true, start := k, first := if q.begun then q.first else first }

/-- The context whose one instruction in flight, of entry q, goes on at element k. -/
def faultedCtx (c : Ctx) (q : VqEntry) (first k : Nat) : Ctx := { c with vq := [faultedEntry q first k], vstart := k }

theorem keepAt_faulted {c : Ctx} {q : VqEntry} {first k : Nat} (hq : c.vq = [q]) (hd : q.done = false) :
    c.keepAt 0 first k = faultedCtx c q first k := by
  unfold Ctx.keepAt Ctx.atPlace faultedCtx faultedEntry
  simp [Ctx.doneAhead, hq, hd]

/-- Instruction i of thread f passes its checks and waits for nothing; it is a loop over the elements of the strip, with nothing before the first or after
the last. -/
structure Loops (s : State) (f : Nat) (i : Instr) (op : VOp) : Prop where
  runs : exec i s = .next (s.vector op)
  word : op.word = i.word
  ready : VectorReady s f [op.sa, op.sb, op.dest]
  single : Single op
  decode : op.decode f (s.ctx f) = none
  strip : HasStrip (s.ctx f)
  issue : op.issue (envOf op s f) (readyState op s f) = none
  busy : op.busy (envOf op s f) (s.ctx f).reals (readyState op s f) = none
  push : op.push = id
  begin' : op.begin' = fun _ u => u
  finish : op.finish = fun _ u => u
  limit : op.limit = Ctx.reals
  whole : elementsOf i (s.ctx f) = (s.ctx f).reals

section Loops

variable {s : State} {f : Nat} {i : Instr} {op : VOp}

theorem Loops.limit_eq (h : Loops s f i op) : op.limit (aboutTo (s.ctx f) (op.entry (s.ctx f)) (s.ctx f)) = (s.ctx f).reals := by
  rw [h.limit]
  rfl

theorem Loops.pushed (h : Loops s f i op) : pushedCtx op (s.ctx f) = State.pushEntry (s.ctx f) (op.entry (s.ctx f)) := by
  unfold pushedCtx
  rw [h.push]
  exact ite_self _

/-- A loop that writes the vector file, VFF and the scratchpads, and meets no trap. -/
theorem Loops.completes {m : Mem} {sl : BitVec 524288} {n : Nat} (h : Loops s f i op)
    (hr : op.run (envOf op s f) (s.ctx f).vstart (s.ctx f).reals (beginState op s f) =
      .ok (State.setCtx { s with scr := m } f (inFlight (s.ctx f) (op.entry (s.ctx f)) { s.ctx f with slice := sl, vff := n }))) :
    exec i s = .next (vnext { s with scr := m } f i { s.ctx f with slice := sl, vff := n }) := by
  obtain ⟨-, -, -, -, -, -, -, hsample, -, -, hord⟩ := id h.ready
  have hrun : op.run (envOf op s f) (s.ctx f).vstart (op.limit (aboutTo (s.ctx f) (op.entry (s.ctx f)) (s.ctx f)))
      (if (s.ctx f).vstart = 0 then op.begin' (envOf op s f) (beginState op s f) else beginState op s f) =
        .ok (State.setCtx { s with scr := m } f (inFlight (s.ctx f) (op.entry (s.ctx f)) { s.ctx f with slice := sl, vff := n })) := by
    rw [h.limit_eq, h.begin', ite_self]
    exact hr
  rw [h.runs, vector_next (i := i) h.ready (pushOnly_id h.push) h.single h.decode (.inl h.strip) h.issue (by rw [h.limit_eq]; exact h.busy)
    (u := { s with scr := m }) (c' := { s.ctx f with slice := sl, vff := n }) (q := op.entry (s.ctx f)) hrun
    (fun n => by rw [h.finish]; exact chargeAlone_setCtx rfl) ⟨rfl, rfl⟩ hord rfl hsample h.word (h.limit_eq.trans h.whole.symm), h.pushed]
  rfl

/-- A loop that meets a trap at element k with nothing performed leaves its entry in the convoy, to go on at that element (R447, R448). -/
theorem Loops.faultsAt {k : Nat} {t : Trap} (h : Loops s f i op)
    (hr : op.run (envOf op s f) (s.ctx f).vstart (s.ctx f).reals (beginState op s f) = .trap t k false (beginState op s f)) :
    FaultsAt s f i t k := by
  intro hstep hdebug
  have hgo : (readyState op s f).modCtx f State.goOn = beginState op s f := by
    unfold readyState beginState
    rw [modCtx_setCtx]
    rfl
  have hctx : (readyState op s f).ctx f = aboutTo (s.ctx f) (op.entry (s.ctx f)) (s.ctx f) := ctx_setCtx_same ..
  have hreq : (faultedCtx (inFlight (s.ctx f) (op.entry (s.ctx f)) (s.ctx f)) (op.entry (s.ctx f)) (s.ctx f).vstart k).debugReq = 0 := by
    show (if (s.ctx f).stepping then 3 else (s.ctx f).debugReq) = 0
    rw [hstep, hdebug]
    rfl
  have hrun : State.runMember op f 0 false (fun c _ => op.limit c) (op.entry (s.ctx f)) (readyState op s f) =
      ((((beginState op s f).chargeAlone f (State.groupsBetween (max 1 (256 / (s.ctx f).widestOf i.word)) (s.ctx f).vstart (k + 1))).modCtx f
        fun c => c.keepAt 0 (s.ctx f).vstart k).vectorTrap f t (s.ctx f).pc k false) := by
    have hstrip : ¬ (aboutTo (s.ctx f) (op.entry (s.ctx f)) (s.ctx f)).vl ≤ (s.ctx f).vstart := Nat.not_le.2 h.strip
    have hbegun : (op.entry (s.ctx f)).begun = false := rfl
    have hbusy := h.busy
    rw [← h.limit_eq] at hr hbusy
    unfold State.runMember
    simp only [hctx, startAt_one, hbegun, hstrip, h.issue, hbusy, hgo, h.begin', hr, Nat.min_self, decide_false, Bool.not_false,
      Bool.true_and, Bool.false_and, Bool.false_eq_true, if_false, ite_self]
    rw [← h.word]
    rfl
  refine ⟨faultedEntry (op.entry (s.ctx f)) (s.ctx f).vstart k, rfl, rfl, rfl, rfl, ?_⟩
  rw [h.runs, vector_runs h.ready (pushOnly_id h.push) h.single h.decode, hrun, beginState, chargeAlone_setCtx (by rfl), modCtx_setCtx,
    keepAt_faulted (q := op.entry (s.ctx f)) rfl rfl, vectorTrap_late (q := faultedEntry (op.entry (s.ctx f)) (s.ctx f).vstart k) rfl rfl hreq rfl,
    modCtx_setCtx, h.pushed, restoreConfig_same (hr := ?_) (h := ?_)]
  · simp only [charged, faultedCtx, inFlight, hstep, hdebug, Bool.false_eq_true, if_false]
  · rfl
  · exact ⟨rfl, rfl, rfl, rfl⟩

end Loops

end Sys2Proof.Proofs
end

section
/-! SUPPORT. The course of a vector access: the elements it reads or writes, and the one it cannot access (R187 to R190, R194, R445). -/

namespace Sys2Proof.Proofs

open Sys2Proof Sys2Proof.Machine Sys2Proof.Laws Sys2Proof.Safety

/-- The view index of element n of an access (R187). -/
def viewIndex (c : Ctx) (ix : Index) (sa b : Nat) (v : Line) (n : Nat) : Int :=
  match ix with
  | .linear => (c.s sa).toInt + (n * (b / View.size v) : Nat)
  | .indexed x => (c.tag x).readInt (c.elem x (c.tag x).bytes n)

/-- The groups and the view v of an access serve it, which is of a scratchpad and of a space that the access takes. Its elements have b bytes and the
view indices J. -/
structure Served (s : State) (f : Nat) (spaces : List Nat) (acc : Access) (d : BitVec 6) (w : BitVec 4) (sa : Nat) (ix : Index) (v : Line) (b : Nat)
    (J : Nat → Int) : Prop where
  groups : GroupsOk (s.ctx f) [d.toNat]
  index : IndexOk (s.ctx f) acc d ix
  view : VectorView s f w v spaces b
  scratch : ∀ n ∈ spaces, n ≤ 1
  bytes : ((s.ctx f).tagOf d).bytes = b
  indices : viewIndex (s.ctx f) ix sa b v = J

/-- No watchpoint is on an active element of an access. -/
def Unwatched (s : State) (f : Nat) (p : BitVec 4) (v : Line) (b : Nat) (J : Nat → Int) (rd wr : Bool) : Prop :=
  ∀ k ∈ performed (s.ctx f) p.toNat, 0 ≤ J k → s.watched f v (View.addr v (J k).toNat).toNat b rd wr = false

section Access

variable {s : State} {f : Nat} {i : Instr} {word : Word} {spaces : List Nat} {acc : Access} {d : BitVec 6} {w : BitVec 4} {sa : Nat} {ix : Index}
  {p : BitVec 4} {v : Line} {b : Nat} {J : Nat → Int}

theorem Served.decodes (h : Served s f spaces acc d w sa ix v b J) : vmemDecode spaces acc d.toNat w.toNat ix (s.ctx f) = none := by
  refine vmemDecode_none h.groups h.index fun u hu => ?_
  rw [vectorView_accepted h.view] at hu
  cases hu
  rw [h.bytes]
  exact vectorView_sizeFits h.view

theorem Served.issues (h : Served s f spaces acc d w sa ix v b J) :
    vmemIssue spaces ix (envOf (vmemOp word spaces acc d w sa ix p) s f) (readyState (vmemOp word spaces acc d w sa ix p) s f) = none := by
  rw [vmemIssue_view h.index, vectorView_accepted h.view]
  rfl

/-- A context in flight whose index group reads as when the access was pushed finds the index of then. -/
theorem Served.atElement {S : State} {q : VqEntry} {sl : BitVec 524288} {n : Nat} (h : Served s f spaces acc d w sa ix v b J)
    (hindex : ∀ x, ix = .indexed x →
      ({ s.ctx f with slice := sl } : Ctx).elem x ((s.ctx f).tag x).bytes n = (s.ctx f).elem x ((s.ctx f).tag x).bytes n) :
    AtElement (S.setCtx f (inFlight (s.ctx f) q { s.ctx f with slice := sl })) spaces d.toNat ix (envOf (vmemOp word spaces acc d w sa ix p) s f) n v
      b (J n) := by
  obtain ⟨-, hspace, -⟩ := id h.view
  have hctx : (S.setCtx f (inFlight (s.ctx f) q { s.ctx f with slice := sl })).ctx (envOf (vmemOp word spaces acc d w sa ix p) s f).f =
      inFlight (s.ctx f) q { s.ctx f with slice := sl } := ctx_setCtx_same ..
  refine ⟨by rw [envOf_view]; exact vectorView_accepted h.view, h.scratch _ hspace, by rw [hctx]; exact h.bytes, ?_⟩
  rw [hctx, ← h.indices]
  cases ix with
  | linear => rfl
  | indexed x => exact congrArg ((s.ctx f).tag x).readInt (hindex x rfl)

/-- The same of the state in which the loop begins. -/
theorem Served.atBegin (h : Served s f spaces acc d w sa ix v b J) (n : Nat) :
    AtElement (beginState (vmemOp word spaces acc d w sa ix p) s f) spaces d.toNat ix (envOf (vmemOp word spaces acc d w sa ix p) s f) n v b (J n) :=
  h.atElement (sl := (s.ctx f).slice) fun _ _ => rfl

theorem IsAccess.loops (ha : IsAccess i spaces acc d w sa ix p) (h : Served s f spaces acc d w sa ix v b J) (hr : VectorReady s f [sa, 0, 0])
    (hs : HasStrip (s.ctx f)) : Loops s f i (vmemOp i.word spaces acc d w sa ix p) where
  runs := ha.runs s
  word := rfl
  ready := hr
  single := ha.single
  decode := h.decodes
  strip := hs
  issue := h.issues
  busy := vmemBusy_none (n := (s.ctx f).reals) h.view
  push := rfl
  begin' := rfl
  finish := rfl
  limit := rfl
  whole := ha.strip _

/-- An access whose first active element cannot be accessed meets its trap there, and performs nothing (R190, R445). -/
theorem IsAccess.faultsAt {k : Nat} (ha : IsAccess i spaces acc d w sa ix p) (h : Served s f spaces acc d w sa ix v b J)
    (hr : VectorReady s f [sa, 0, 0]) (hs : HasStrip (s.ctx f)) (hk : (performed (s.ctx f) p.toNat).head? = some k)
    (hbad : ¬ Performs s f v b (J k)) : FaultsAt s f i (elementTrap s f v b (J k)) k := by
  obtain ⟨⟨hlow, hhigh, hact⟩, hbelow⟩ := performed_first hk
  let op := vmemOp i.word spaces acc d w sa ix p
  have hpbit : ∀ n, ((beginState op s f).ctx f).pbit p.toNat n = (s.ctx f).pbit p.toNat n := fun n => by
    rw [beginState, ctx_setCtx_same]
    rfl
  have hskip : elements p.toNat (envOf op s f) (vmemElem spaces acc d.toNat ix) (fun _ _ s => .ok s) (k - (s.ctx f).vstart) (s.ctx f).vstart
      (beginState op s f) = .ok (beginState op s f) :=
    elements_inactive fun j hj hj' => (hpbit j).trans (hbelow j hj (by omega))
  have htrap : elements p.toNat (envOf op s f) (vmemElem spaces acc d.toNat ix) (fun _ _ s => .ok s) ((s.ctx f).reals - k - 1 + 1) k
      (beginState op s f) = .trap (elementTrap s f v b (J k)) k false (beginState op s f) :=
    elements_trap ((hpbit k).trans hact) ((h.atBegin k).faults hbad)
  refine (ha.loops h hr hs).faultsAt ?_
  show elements p.toNat (envOf op s f) (vmemElem spaces acc d.toNat ix) (fun _ _ s => .ok s) ((s.ctx f).reals - (s.ctx f).vstart) _ _ = _
  rw [show (s.ctx f).reals - (s.ctx f).vstart = k - (s.ctx f).vstart + ((s.ctx f).reals - k - 1 + 1) by omega, elements_add hskip,
    show (s.ctx f).vstart + (k - (s.ctx f).vstart) = k by omega, htrap]

/-! ### Loads -/

/-- The bytes at the view index of an element (R187). -/
def loaded (s : State) (f : Nat) (v : Line) (b : Nat) (J : Nat → Int) (n : Nat) : Nat := s.scr.read (elementByte f v (J n)) b

/-- The state in which a load of thread f, of queue entry q, has come to element n: the active elements below have their values. -/
def LoadedTo (s : State) (f : Nat) (q : VqEntry) (d : BitVec 6) (p : BitVec 4) (v : Line) (b : Nat) (J : Nat → Int) (n : Nat) (t : State) : Prop :=
  (s.ctx f).vstart ≤ n ∧ ∃ sl, WrittenTo (s.ctx f) sl d.toNat b p.toNat (loaded s f v b J) n ∧
    t = s.setCtx f (inFlight (s.ctx f) q { s.ctx f with slice := sl })

theorem loadedTo_start (q : VqEntry) : LoadedTo s f q d p v b J (s.ctx f).vstart (s.setCtx f (inFlight (s.ctx f) q (s.ctx f))) :=
  ⟨Nat.le_refl _, (s.ctx f).slice, writtenTo_start .., rfl⟩

/-- The strip's elements fit in the group, which lies in the file. -/
theorem groupsOk_element {c : Ctx} {n : Nat} (h : GroupsOk c [d.toNat]) (hn : n < c.reals) :
    (n + 1) * (c.tagOf d).bytes ≤ c.groupBytes ∧ d.toNat * c.regBytes + (n + 1) * (c.tagOf d).bytes ≤ 65536 := by
  obtain ⟨hgroup, -, hfits⟩ := h d.toNat (List.mem_singleton.2 rfl)
  have hfit : (n + 1) * (c.tagOf d).bytes ≤ c.groupBytes := fits_bound hfits hn
  exact ⟨hfit, by have := group_inside hgroup; omega⟩

/-- An index group reads as before up to the element that a load has come to: it is another group, or the destination itself. -/
theorem index_kept {c : Ctx} {x n pm : Nat} {sl : BitVec 524288} {value : Nat → Nat} (hd : GroupsOk c [d.toNat]) (hx : GroupsOk c [x])
    (hn : n < c.reals) (hw : WrittenTo c sl d.toNat (c.tagOf d).bytes pm value n) :
    ({ c with slice := sl } : Ctx).elem x (c.tag x).bytes n = c.elem x (c.tag x).bytes n := by
  obtain ⟨hgroup, -, -⟩ := hd d.toNat (List.mem_singleton.2 rfl)
  obtain ⟨hxgroup, -, -⟩ := hx x (List.mem_singleton.2 rfl)
  have hfit : n * (c.tagOf d).bytes ≤ c.groupBytes := (Nat.mul_le_mul_right _ (Nat.le_succ n)).trans (groupsOk_element hd hn).1
  have hsame : x = d.toNat → (c.tag x).bytes = (c.tagOf d).bytes ∧ n ≤ n := fun hxd => ⟨by rw [hxd]; rfl, Nat.le_refl _⟩
  exact elem_kept (c' := { c with slice := sl }) hw ⟨rfl, rfl, rfl, rfl⟩ hgroup hfit hxgroup _ _ hsame

theorem LoadedTo.step {q : VqEntry} {n : Nat} {t : State} (h : Served s f spaces .load d w sa ix v b J) (hn : n < (s.ctx f).reals)
    (hok : (s.ctx f).pbit p.toNat n = true → Performs s f v b (J n) ∧ s.watched f v (View.addr v (J n).toNat).toNat b true false = false)
    (ht : LoadedTo s f q d p v b J n t) :
    ∃ t', (if (t.ctx f).pbit p.toNat n then vmemElem spaces .load d.toNat ix (envOf (vmemOp word spaces .load d w sa ix p) s f) n t
        else .ok t) = .ok t' ∧
      LoadedTo s f q d p v b J (n + 1) t' := by
  obtain ⟨hle, sl, hw, rfl⟩ := ht
  obtain ⟨hfit, hin⟩ := groupsOk_element h.groups hn
  have hctx : (s.setCtx f (inFlight (s.ctx f) q { s.ctx f with slice := sl })).ctx f = inFlight (s.ctx f) q { s.ctx f with slice := sl } :=
    ctx_setCtx_same ..
  rw [hctx]
  cases hact : (s.ctx f).pbit p.toNat n with
  | false => exact ⟨_, if_neg (Bool.eq_false_iff.1 hact), by omega, sl, writtenTo_inactive hw hle hact, rfl⟩
  | true =>
    obtain ⟨hperforms, hquiet⟩ := hok hact
    have hat := h.atElement (word := word) (p := p) (S := s) (q := q) (sl := sl) (n := n) fun x hix => by
      have hindex := h.index
      rw [hix] at hindex
      rw [← h.bytes] at hw
      exact index_kept h.groups hindex.1 hn hw
    rw [h.bytes] at hfit hin
    refine ⟨_, (if_pos hact).trans (hat.performs hperforms hquiet), by omega, _, writtenTo_active hw hle hin hact rfl, ?_⟩
    show State.setCtx _ f (Ctx.setElem (State.ctx _ f) _ _ _ _) = _
    rw [hctx, setElem_inFlight, setCtx_setCtx]
    unfold Ctx.setElem
    rw [if_pos ⟨hn, hfit⟩]
    rfl

/-- The elements of a load below element B, each of which can be accessed. -/
theorem Served.loadsBelow {B : Nat} (h : Served s f spaces .load d w sa ix v b J) (hB : B ≤ (s.ctx f).reals)
    (hok : ∀ k ∈ performed (s.ctx f) p.toNat, k < B → Performs s f v b (J k)) (hquiet : Unwatched s f p v b J true false) :
    ∃ t, elements p.toNat (envOf (vmemOp word spaces .load d w sa ix p) s f) (vmemElem spaces .load d.toNat ix) (fun _ _ s => .ok s)
        (B - (s.ctx f).vstart) (s.ctx f).vstart (beginState (vmemOp word spaces .load d w sa ix p) s f) = .ok t ∧
      LoadedTo s f ((vmemOp word spaces .load d w sa ix p).entry (s.ctx f)) d p v b J ((s.ctx f).vstart + (B - (s.ctx f).vstart)) t := by
  refine elements_reach (B := (s.ctx f).vstart + (B - (s.ctx f).vstart)) _ (fun n t hn ht => ?_) _ _ _ (Nat.le_refl _) (loadedTo_start _)
  have hle : (s.ctx f).vstart ≤ n := ht.1
  have hlt : n < (s.ctx f).reals := by omega
  refine LoadedTo.step h hlt (fun hact => ?_) ht
  have hmem : n ∈ performed (s.ctx f) p.toNat := mem_performed.2 ⟨hle, hlt, hact⟩
  have hperforms := hok n hmem (by omega)
  exact ⟨hperforms, hquiet n hmem hperforms.1.1⟩

/-- A loop that has come to the end of the strip has written its group. -/
theorem writtenTo_group {c : Ctx} {sl : BitVec 524288} {d b pm : Nat} {r : Nat → Nat} (h : WrittenTo c sl d b pm r (c.vstart + (c.reals - c.vstart))) :
    GroupWritten c sl d b pm r := by
  obtain ⟨hinside, hrest⟩ := h
  by_cases hle : c.vstart ≤ c.reals
  · rw [Nat.add_sub_cancel' hle] at hinside hrest
    exact ⟨hinside, hrest⟩
  · rw [Nat.sub_eq_zero_of_le (by omega), Nat.add_zero] at hrest
    exact ⟨fun n h1 h2 => absurd h2 (by omega), fun k _ => hrest k (by omega)⟩

theorem activeFlags_zero (c : Ctx) (pm : Nat) : activeFlags c pm (fun _ => 0) = 0 := by
  unfold activeFlags
  rw [List.foldl_map]
  exact List.foldl_fixed' (fun _ => BitVec.or_zero) _

/-- A load all of whose active elements can be accessed (R187, R190). -/
theorem IsAccess.loads (ha : IsAccess i spaces .load d w sa ix p) (h : Served s f spaces .load d w sa ix v b J) (hr : VectorReady s f [sa, 0, 0])
    (hs : HasStrip (s.ctx f)) (hok : ∀ k ∈ performed (s.ctx f) p.toNat, Performs s f v b (J k)) (hquiet : Unwatched s f p v b J true false) :
    WritesGroup s f i d p fun k => (loaded s f v b J k, 0) := by
  obtain ⟨t, hrun, -, sl, hw, rfl⟩ := h.loadsBelow (word := i.word) (p := p) (Nat.le_refl _) (fun k hk _ => hok k hk) hquiet
  refine ⟨sl, ?_, ?_⟩
  · rw [activeFlags_zero, show (s.ctx f).fflags ||| 0 = (s.ctx f).fflags from BitVec.or_zero]
    exact (ha.loops h hr hs).completes (m := s.scr) (n := (s.ctx f).vff) hrun
  · have hgroup := writtenTo_group hw
    rw [← h.bytes] at hgroup ⊢
    exact hgroup

end Access

end Sys2Proof.Proofs
end

section
/-! SUPPORT. The vector accesses that write the scratchpads: the memory after each of their elements (R194). -/

namespace Sys2Proof.Proofs

open Sys2Proof Sys2Proof.Machine Sys2Proof.Laws Sys2Proof.Safety

/-- A write of n bytes takes its value modulo 2^(8n). -/
theorem write_mod (m : Mem) (a n x : Nat) : Mem.write m a n (x % 2 ^ (8 * n)) = Mem.write m a n x := by
  induction n generalizing m a x with
  | zero => rfl
  | succ n ih =>
    have hpow : 2 ^ (8 * (n + 1)) = 256 * 2 ^ (8 * n) := by rw [Nat.mul_succ, pow_add]; ring
    have hlow : BitVec.ofNat 8 (x % 2 ^ (8 * (n + 1))) = BitVec.ofNat 8 x := by
      apply BitVec.eq_of_toNat_eq
      rw [BitVec.toNat_ofNat, BitVec.toNat_ofNat, hpow, Nat.mod_mul_right_mod]
    rw [Mem.write, Mem.write, hlow, hpow, Nat.mod_mul_right_div_self, ih]

/-- The access that stores its elements, or adds them to what stands at their locations. -/
def storing (add : Bool) : Access := if add then .add else .store

/-- The memory with an element e of b bytes stored at address a, or added to what stands there. -/
def elementWritten (add : Bool) (b : Nat) (m : Mem) (a e : Nat) : Mem := m.write a b ((if add then m.read a b else 0) + e)

theorem vmemPerform_writes (add : Bool) (d b n a : Nat) (c : Ctx) (f : Nat) (t : State) :
    vmemPerform (storing add) d b n (.scr a) c f t = { t with scr := elementWritten add b t.scr a (c.elem d b n) } := by
  unfold elementWritten
  cases add with
  | false => rw [if_neg Bool.false_ne_true, Nat.zero_add]; rfl
  | true => rw [if_pos rfl, ← write_mod]; rfl

/-- The scratchpads after an access has written its elements at some indices, one after another. -/
def writtenAt (add : Bool) (s : State) (f : Nat) (d : BitVec 6) (v : Line) (b : Nat) (J : Nat → Int) (l : List Nat) : Mem :=
  l.foldl (fun m k => elementWritten add b m (elementByte f v (J k)) ((s.ctx f).elem d.toNat b k)) s.scr

section Stores

variable {s : State} {f : Nat} {i : Instr} {word : Word} {spaces : List Nat} {add : Bool} {d : BitVec 6} {w : BitVec 4} {sa : Nat} {ix : Index}
  {p : BitVec 4} {v : Line} {b : Nat} {J : Nat → Int}

theorem writtenAt_concat (l : List Nat) (k : Nat) : writtenAt add s f d v b J (l ++ [k]) =
    elementWritten add b (writtenAt add s f d v b J l) (elementByte f v (J k)) ((s.ctx f).elem d.toNat b k) := by
  rw [writtenAt, List.foldl_append]
  rfl

/-- A byte outside the locations of the elements is as before. -/
theorem writtenAt_outside {a : Nat} {l : List Nat} (h : ∀ k ∈ l, a < elementByte f v (J k) ∨ elementByte f v (J k) + b ≤ a) :
    (writtenAt add s f d v b J l).get a = s.scr.get a := by
  induction l using List.reverseRecOn with
  | nil => rfl
  | append_singleton l k ih =>
    rw [writtenAt_concat]
    exact (get_write_outside _ _ _ _ _ (h k (by simp))).trans (ih fun j hj => h j (by simp [hj]))

/-- The state in which a store of thread f, of queue entry q, has come to element n: the active elements below have been written. -/
def StoredTo (add : Bool) (s : State) (f : Nat) (q : VqEntry) (d : BitVec 6) (p : BitVec 4) (v : Line) (b : Nat) (J : Nat → Int) (n : Nat)
    (t : State) : Prop :=
  (s.ctx f).vstart ≤ n ∧
    t = State.setCtx { s with scr := writtenAt add s f d v b J (performedBelow (s.ctx f) p.toNat n) } f (inFlight (s.ctx f) q (s.ctx f))

theorem storedTo_start (q : VqEntry) : StoredTo add s f q d p v b J (s.ctx f).vstart (s.setCtx f (inFlight (s.ctx f) q (s.ctx f))) :=
  ⟨Nat.le_refl _, by rw [performedBelow_start]; rfl⟩

theorem StoredTo.step {q : VqEntry} {n : Nat} {t : State} (h : Served s f spaces (storing add) d w sa ix v b J)
    (hok : (s.ctx f).pbit p.toNat n = true → Performs s f v b (J n) ∧ s.watched f v (View.addr v (J n).toNat).toNat b add true = false)
    (ht : StoredTo add s f q d p v b J n t) :
    ∃ t', (if (t.ctx f).pbit p.toNat n then vmemElem spaces (storing add) d.toNat ix (envOf (vmemOp word spaces (storing add) d w sa ix p) s f) n t
        else .ok t) = .ok t' ∧ StoredTo add s f q d p v b J (n + 1) t' := by
  obtain ⟨hle, rfl⟩ := ht
  have hctx : ∀ m : Mem, (State.setCtx { s with scr := m } f (inFlight (s.ctx f) q (s.ctx f))).ctx f = inFlight (s.ctx f) q (s.ctx f) :=
    fun _ => ctx_setCtx_same ..
  rw [hctx]
  have hnext := performedBelow_succ (pm := p.toNat) hle
  cases hact : (s.ctx f).pbit p.toNat n with
  | false =>
    rw [hact, if_neg Bool.false_ne_true] at hnext
    exact ⟨_, if_neg (Bool.eq_false_iff.1 hact), by omega, by rw [hnext]⟩
  | true =>
    obtain ⟨hperforms, hquiet⟩ := hok hact
    rw [hact, if_pos rfl] at hnext
    have hat := h.atElement (word := word) (p := p) (S := { s with scr := writtenAt add s f d v b J (performedBelow (s.ctx f) p.toNat n) }) (q := q)
      (sl := (s.ctx f).slice) (n := n) fun _ _ => rfl
    have hwatch : s.watched f v (View.addr v (J n).toNat).toNat b (storing add ≠ .store) (storing add ≠ .load) = false := by
      cases add <;> exact hquiet
    refine ⟨_, (if_pos hact).trans (hat.performs hperforms hwatch), by omega, ?_⟩
    rw [vmemPerform_writes, hnext, writtenAt_concat]
    show State.setCtx { s with scr := elementWritten add b _ _ (Ctx.elem (State.ctx _ f) _ _ _) } f _ = _
    rw [hctx]
    rfl

theorem performedBelow_end (c : Ctx) (pm : Nat) : performedBelow c pm (c.vstart + (c.reals - c.vstart)) = performed c pm := by
  by_cases hle : c.vstart ≤ c.reals
  · rw [Nat.add_sub_cancel' hle]
    rfl
  · have hnone : performed c pm = [] := List.eq_nil_iff_forall_not_mem.2 fun k hk => by
      obtain ⟨hlow, hhigh, -⟩ := mem_performed.1 hk
      omega
    rw [Nat.sub_eq_zero_of_le (by omega), Nat.add_zero, performedBelow_start, hnone]

/-- An access that writes, all of whose active elements can be accessed (R190, R194). -/
theorem IsAccess.stores (ha : IsAccess i spaces (storing add) d w sa ix p) (h : Served s f spaces (storing add) d w sa ix v b J)
    (hr : VectorReady s f [sa, 0, 0]) (hs : HasStrip (s.ctx f)) (hok : ∀ k ∈ performed (s.ctx f) p.toNat, Performs s f v b (J k))
    (hquiet : Unwatched s f p v b J add true) :
    exec i s = .next (vnext { s with scr := writtenAt add s f d v b J (performed (s.ctx f) p.toNat) } f i (s.ctx f)) := by
  obtain ⟨t, hrun, -, hend⟩ := elements_reach (pm := p.toNat) (env := envOf (vmemOp i.word spaces (storing add) d w sa ix p) s f)
    (el := vmemElem spaces (storing add) d.toNat ix) (sk := fun _ _ s => .ok s)
    (B := (s.ctx f).vstart + ((s.ctx f).reals - (s.ctx f).vstart))
    (StoredTo add s f ((vmemOp i.word spaces (storing add) d w sa ix p).entry (s.ctx f)) d p v b J) (fun n t hn ht => by
      have hle : (s.ctx f).vstart ≤ n := ht.1
      have hlt : n < (s.ctx f).reals := by omega
      refine StoredTo.step h (fun hact => ?_) ht
      have hmem : n ∈ performed (s.ctx f) p.toNat := mem_performed.2 ⟨hle, hlt, hact⟩
      exact ⟨hok n hmem, hquiet n hmem (hok n hmem).1.1⟩) _ _ _ (Nat.le_refl _) (storedTo_start _)
  rw [performedBelow_end] at hend
  rw [hend] at hrun
  exact (ha.loops h hr hs).completes (sl := (s.ctx f).slice) (n := (s.ctx f).vff) hrun

end Stores

end Sys2Proof.Proofs
end

section
/-! SUPPORT. `vldff`: the elements below the first that cannot be accessed, and the zeros from there (R192, R195). -/

namespace Sys2Proof.Proofs

open Sys2Proof Sys2Proof.Machine Sys2Proof.Laws Sys2Proof.Safety

/-! ### The loop -/

section Loop

variable {d p n : Nat} {env : Env}

/-- While its elements can be accessed the loop is that of a load. -/
theorem vldffLoop_add : ∀ {m i : Nat} {t t' : State}, elements p env (vmemElem [0] .load d .linear) (fun _ _ s => .ok s) m i t = .ok t' →
    vldffLoop d p env (m + n) i t = vldffLoop d p env n (i + m) t' := by
  intro m
  induction m with
  | zero =>
    intro i t t' h
    cases h
    rw [Nat.zero_add]
    rfl
  | succ m ih =>
    intro i t t' h
    rw [show m + 1 + n = m + n + 1 by omega, show i + (m + 1) = i + 1 + m by omega]
    cases hact : (t.ctx env.f).pbit p i with
    | false =>
      simp only [elements, hact, Bool.false_eq_true, if_false] at h
      simp only [vldffLoop, hact, Bool.false_eq_true, if_false]
      exact ih h
    | true =>
      cases hel : vmemElem [0] .load d .linear env i t with
      | ok u =>
        simp only [elements, hact, if_true, hel] at h
        simp only [vldffLoop, hact, if_true, hel]
        exact ih h
      | trap => simp [elements, hact, hel] at h
      | wait => simp [elements, hact, hel] at h

/-- The first element that cannot be accessed ends the loop (R192). -/
theorem vldffLoop_faults {i j : Nat} {t u : State} {trap : Trap} (hact : (t.ctx env.f).pbit p i = true)
    (hel : vmemElem [0] .load d .linear env i t = .trap trap j false u) : vldffLoop d p env (n + 1) i t =
      .ok (t.modCtx env.f fun c => { zeroElements c d (c.tag d).bytes (c.reals - i) i with vff := i }) := by
  rw [vldffLoop, if_pos hact, hel]

end Loop

/-! ### The zeros -/

/-- Zeros written from element k up to element hi of a group; every other byte of the file sl is as before. -/
def ZeroedTo (c : Ctx) (sl sl' : BitVec 524288) (d b k hi : Nat) : Prop :=
  WrittenTo { c with slice := sl, vstart := k } sl' d b 0 (fun _ => 0) hi

theorem zeroElements_inFlight {c : Ctx} {q : VqEntry} {sl : BitVec 524288} {d b k : Nat}
    (hfit : ∀ n < c.reals, (n + 1) * b ≤ c.groupBytes ∧ d * c.regBytes + (n + 1) * b ≤ 65536) :
    ∀ {n i : Nat} {sl' : BitVec 524288}, i + n ≤ c.reals → k ≤ i → ZeroedTo c sl sl' d b k i →
      ∃ sl'', zeroElements (inFlight c q { c with slice := sl' }) d b n i = inFlight c q { c with slice := sl'' } ∧
        ZeroedTo c sl sl'' d b k (i + n) := by
  intro n
  induction n with
  | zero => exact fun {_ sl'} _ _ h => ⟨sl', rfl, h⟩
  | succ n ih =>
    intro i sl' hle hk h
    have hi : i < c.reals := by omega
    obtain ⟨hgroup, hin⟩ := hfit i hi
    have hwritten : ZeroedTo c sl (setSliceBytes sl' (d * c.regBytes + i * b) b 0) d b k (i + 1) := writtenTo_active h hk hin rfl rfl
    have hset : (inFlight c q { c with slice := sl' }).setElem d b i 0 =
        inFlight c q { c with slice := setSliceBytes sl' (d * c.regBytes + i * b) b 0 } := by
      rw [setElem_inFlight, Ctx.setElem, if_pos ⟨hi, hgroup⟩]
      rfl
    obtain ⟨sl'', hrun, hend⟩ := ih (by omega) (by omega) hwritten
    refine ⟨sl'', ?_, by rw [show i + (n + 1) = i + 1 + n by omega]; exact hend⟩
    rw [zeroElements, hset, hrun]

/-- The group of a `vldff` that ends at element k: what it has loaded below, zero from there up (R192). -/
theorem zeroed_group {c : Ctx} {sl sl' : BitVec 524288} {d b pm k : Nat} {value : Nat → Nat} (hlow : c.vstart ≤ k) (hhigh : k ≤ c.reals)
    (hw : WrittenTo c sl d b pm value k) (hz : ZeroedTo c sl sl' d b k c.reals) :
    (∀ i, c.vstart ≤ i → i < c.reals → sliceBytes sl' (d * c.regBytes + i * b) b =
      if k ≤ i then 0 else if c.pbit pm i then value i % 2 ^ (8 * b) else sliceBytes c.slice (d * c.regBytes + i * b) b) ∧
    ∀ j, j < d * c.regBytes + c.vstart * b ∨ d * c.regBytes + c.reals * b ≤ j → sliceBytes sl' j 1 = sliceBytes c.slice j 1 := by
  obtain ⟨hloaded, hrest⟩ := hw
  obtain ⟨hzero, hsame⟩ := hz
  change ∀ j, j < d * c.regBytes + k * b ∨ d * c.regBytes + c.reals * b ≤ j → sliceBytes sl' j 1 = sliceBytes sl j 1 at hsame
  have hstart : c.vstart * b ≤ k * b := Nat.mul_le_mul_right b hlow
  have hend : k * b ≤ c.reals * b := Nat.mul_le_mul_right b hhigh
  refine ⟨fun i hi hi' => ?_, fun j hj => ?_⟩
  · by_cases hki : k ≤ i
    · rw [if_pos hki]
      exact (hzero i hki hi').trans (Nat.zero_mod _)
    · have hbelow : (i + 1) * b ≤ k * b := Nat.mul_le_mul_right b (by omega)
      rw [Nat.succ_mul] at hbelow
      rw [if_neg hki, ← hloaded i hi (by omega)]
      exact sliceBytes_ext fun j h1 h2 => hsame j (by omega)
  · rw [hsame j (by omega), hrest j (by omega)]

/-! ### The instruction -/

/-- `vldff` as the vector instruction it is. -/
def vldffOp (d : BitVec 6) (w : BitVec 4) (y : BitVec 5) (p : BitVec 4) : VOp :=
  { vmemOp (Instr.vldff d w y p).word [0] .load d w y.toNat .linear p with
    decode := fun _ c =>
      match vmemDecode [0] .load d.toNat w.toNat .linear c with
      | some t => some t
      | none => if bitAt c.detm 0 then some .determinism else none
    whole := some fun env lo s => vldffLoop d.toNat p.toNat env ((s.ctx env.f).reals - lo) lo s
    inBlock := false }

section Instruction

variable {s : State} {f : Nat} {d : BitVec 6} {w p : BitVec 4} {y : BitVec 5} {v : Line} {b : Nat} {J : Nat → Int}

theorem exec_vldff : exec (.vldff d w y p) s = .next (s.vector (vldffOp d w y p)) := rfl

theorem vldff_decodes (h : Served s f [0] .load d w y.toNat .linear v b J) :
    (vldffOp d w y p).decode f (s.ctx f) = if bitAt (s.ctx f).detm 0 then some .determinism else none := by
  show (match vmemDecode [0] .load d.toNat w.toNat .linear (s.ctx f) with | some t => some t | none => _) = _
  rw [h.decodes]

theorem vldff_loops (h : Served s f [0] .load d w y.toNat .linear v b J) (hr : VectorReady s f [y.toNat, 0, 0]) (hs : HasStrip (s.ctx f))
    (hdet : bitAt (s.ctx f).detm 0 = false) : Loops s f (.vldff d w y p) (vldffOp d w y p) where
  runs := exec_vldff
  word := rfl
  ready := hr
  single := single_of_opcode (opOf_access 4 (.inl ⟨rfl, rfl⟩) d w y p) (by decide) (by decide)
  decode := by rw [vldff_decodes h, hdet]; rfl
  strip := hs
  issue := h.issues (word := (Instr.vldff d w y p).word) (p := p)
  busy := vmemBusy_none (word := (Instr.vldff d w y p).word) (acc := .load) (d := d) (ix := .linear) (p := p) (n := (s.ctx f).reals) h.view
  push := rfl
  begin' := rfl
  finish := rfl
  limit := rfl
  whole := rfl

/-- Its course from the first element of the strip. -/
theorem vldff_run : (vldffOp d w y p).run (envOf (vldffOp d w y p) s f) (s.ctx f).vstart (s.ctx f).reals (beginState (vldffOp d w y p) s f) =
    vldffLoop d.toNat p.toNat (envOf (vldffOp d w y p) s f) ((s.ctx f).reals - (s.ctx f).vstart) (s.ctx f).vstart (beginState (vldffOp d w y p) s f) := by
  show vldffLoop _ _ _ (((beginState (vldffOp d w y p) s f).ctx f).reals - _) _ _ = _
  rw [beginState, ctx_setCtx_same]
  rfl

/-- With every active element accessible it loads them, and VFF is VL. -/
theorem vldff_loads (h : Served s f [0] .load d w y.toNat .linear v b J) (hr : VectorReady s f [y.toNat, 0, 0]) (hs : HasStrip (s.ctx f))
    (hdet : bitAt (s.ctx f).detm 0 = false) (hok : ∀ k ∈ performed (s.ctx f) p.toNat, Performs s f v b (J k))
    (hquiet : Unwatched s f p v b J true false) :
    ∃ sl, exec (.vldff d w y p) s = .next (vnext s f (.vldff d w y p) { s.ctx f with slice := sl, vff := (s.ctx f).vl }) ∧
      GroupWritten (s.ctx f) sl d.toNat b p.toNat (loaded s f v b J) := by
  obtain ⟨t, hrun, -, sl, hw, rfl⟩ := h.loadsBelow (word := (Instr.vldff d w y p).word) (p := p) (Nat.le_refl _) (fun k hk _ => hok k hk) hquiet
  refine ⟨sl, (vldff_loops h hr hs hdet).completes (m := s.scr) ?_, writtenTo_group hw⟩
  rw [vldff_run]
  refine (vldffLoop_add (n := 0) hrun).trans ?_
  exact congrArg Res.ok (modCtx_setCtx ..)

/-- Where element k is the first that cannot be accessed it loads those below, zeros the rest, and VFF is k (R192). -/
theorem vldff_faults {k : Nat} (h : Served s f [0] .load d w y.toNat .linear v b J) (hr : VectorReady s f [y.toNat, 0, 0]) (hs : HasStrip (s.ctx f))
    (hdet : bitAt (s.ctx f).detm 0 = false) (hk : k ∈ performed (s.ctx f) p.toNat) (hbad : ¬ Performs s f v b (J k))
    (hok : ∀ i ∈ performed (s.ctx f) p.toNat, i < k → Performs s f v b (J i)) (hquiet : Unwatched s f p v b J true false) :
    ∃ sl sl', exec (.vldff d w y p) s = .next (vnext s f (.vldff d w y p) { s.ctx f with slice := sl', vff := k }) ∧
      WrittenTo (s.ctx f) sl d.toNat b p.toNat (loaded s f v b J) k ∧ ZeroedTo (s.ctx f) sl sl' d.toNat b k (s.ctx f).reals := by
  obtain ⟨hlow, hhigh, hact⟩ := mem_performed.1 hk
  obtain ⟨t, hrun, -, sl, hw, rfl⟩ := h.loadsBelow (word := (Instr.vldff d w y p).word) (p := p) hhigh.le hok hquiet
  rw [Nat.add_sub_cancel' hlow] at hw
  obtain ⟨sl', hzero, hzeroed⟩ := zeroElements_inFlight (c := s.ctx f) (q := (vldffOp d w y p).entry (s.ctx f)) (sl := sl) (d := d.toNat) (b := b)
    (k := k) (n := (s.ctx f).reals - k) (fun n hn => by rw [← h.bytes]; exact groupsOk_element h.groups hn) (by omega) (Nat.le_refl k) (writtenTo_start ..)
  rw [Nat.add_sub_cancel' hhigh.le] at hzeroed
  refine ⟨sl, sl', (vldff_loops h hr hs hdet).completes (m := s.scr) ?_, hw, hzeroed⟩
  have hat := (h.atElement (word := (Instr.vldff d w y p).word) (p := p) (S := s) (q := (vldffOp d w y p).entry (s.ctx f)) (sl := sl) (n := k)
    fun _ hx => nomatch hx).faults (acc := .load) hbad
  rw [vldff_run, show (s.ctx f).reals - (s.ctx f).vstart = k - (s.ctx f).vstart + ((s.ctx f).reals - k - 1 + 1) by omega]
  refine (vldffLoop_add hrun).trans ?_
  rw [Nat.add_sub_cancel' hlow]
  refine (vldffLoop_faults (by rw [show Env.f _ = f from rfl, ctx_setCtx_same]; exact hact) hat).trans ?_
  refine congrArg Res.ok ((modCtx_setCtx ..).trans (congrArg (s.setCtx f) ?_))
  rw [← h.bytes] at hzero
  exact congrArg (fun c : Ctx => { c with vff := k }) hzero

end Instruction

end Sys2Proof.Proofs
end

section
/-! SUPPORT. The statements about vector loads and stores. -/

namespace Sys2Proof.Proofs

open Sys2Proof Sys2Proof.Machine Sys2Proof.Laws Sys2Proof.Safety

/-- Settles O28: every load ends as its loop does, at the end of the strip (`IsAccess.loads`) or at its first element (`IsAccess.faultsAt`); `vldff` ends
its own at the first element that cannot be accessed (`vldff_faults`). -/
theorem vectorLoadsReadTheirElements : Obligations.VectorLoadsReadTheirElements := by
  unfold Obligations.VectorLoadsReadTheirElements
  intro s f d x w p y v c b quietly value ok loads linear indexed hstrip hd
  have hloads : ∀ {i spaces sa ix J}, IsAccess i spaces .load d w sa ix p → Served s f spaces .load d w sa ix v b J → VectorReady s f [sa, 0, 0] →
      loads i J := fun ha h hr hquiet =>
    ⟨fun hok => ha.loads h hr hstrip hok hquiet, fun k hk hbad => ha.faultsAt h hr hstrip hk hbad⟩
  refine ⟨fun hr => ?_, fun hr hx hindex hp32 => ?_⟩
  · have hserved : VectorView s f w v [0] b → Served s f [0] .load d w y.toNat .linear v b linear :=
      fun hv => ⟨hd, trivial, hv, by simp, rfl, rfl⟩
    refine ⟨fun hv => hloads (isAccess_vld d w p y) (hserved hv) hr, fun hv hdet hquiet => ⟨fun hok => ?_, fun k hk hbad hok => ?_⟩,
      fun hv hdet hsettled => ?_, fun hv => (isAccess_vld d w p y).unset hr hstrip hd trivial hv⟩
    · exact vldff_loads (hserved hv) hr hstrip hdet hok hquiet
    · obtain ⟨hlow, hhigh, -⟩ := mem_performed.1 hk
      obtain ⟨sl, sl', hexec, hloaded, hzeroed⟩ := vldff_faults (hserved hv) hr hstrip hdet hk hbad hok hquiet
      exact ⟨sl', hexec, zeroed_group hlow hhigh.le hloaded hzeroed⟩
    · rw [exec_vldff, vector_refused (op := vldffOp d w y p) hr (by rw [vldff_decodes (hserved hv), hdet]; rfl) hsettled]
  · have hix : IndexOk c .load d (.indexed x.toNat) := ⟨hx, hindex, hp32, fun h => absurd rfl h, fun h => nomatch h⟩
    have hserved : ∀ n ≤ 1, VectorView s f w v [n] b → Served s f [n] .load d w 0 (.indexed x.toNat) v b indexed :=
      fun n hn hv => ⟨hd, hix, hv, by simpa using hn, rfl, rfl⟩
    exact ⟨fun hv => hloads (isAccess_vldx d x w p) (hserved 0 (by decide) hv) hr, fun hv => hloads (isAccess_vgb d x w p) (hserved 1 (by decide) hv) hr,
      fun hv => ⟨(isAccess_vldx d x w p).unset hr hstrip hd hix hv, (isAccess_vgb d x w p).unset hr hstrip hd hix hv⟩⟩

/-- Settles O29: the loop of a store keeps the memory that its elements below have left (`IsAccess.stores`). -/
theorem vectorStoresWriteTheirElements : Obligations.VectorStoresWriteTheirElements := by
  unfold Obligations.VectorStoresWriteTheirElements
  intro s f d x w p y v c b stores linear indexed hstrip hd
  have hstores : ∀ {i spaces sa ix J} (add : Bool), IsAccess i spaces (storing add) d w sa ix p → Served s f spaces (storing add) d w sa ix v b J →
      VectorReady s f [sa, 0, 0] → stores i J add := fun add ha h hr hquiet =>
    ⟨fun hok => ⟨_, ha.stores h hr hstrip hok hquiet, rfl, fun a hout => writtenAt_outside hout⟩,
      fun k hk hbad => ha.faultsAt h hr hstrip hk hbad⟩
  refine ⟨fun hr hv => hstores false (isAccess_vst d w p y) ⟨hd, trivial, hv, by simp, rfl, rfl⟩ hr, fun hr hx hindex hp32 hne => ?_⟩
  have hapart : d.toNat ≠ x.toNat := fun h => hne (BitVec.eq_of_toNat_eq h)
  have hix : IndexOk c .store d (.indexed x.toNat) := ⟨hx, hindex, hp32, fun _ => hapart, fun h => nomatch h⟩
  refine ⟨fun hv => hstores false (isAccess_vstx d x w p) ⟨hd, hix, hv, by simp, rfl, rfl⟩ hr,
    fun hv => hstores false (isAccess_vsb d x w p) ⟨hd, hix, hv, by simp, rfl, rfl⟩ hr, fun htag hv => ?_⟩
  exact hstores true (isAccess_vaadd d x w p) ⟨hd, ⟨hx, hindex, hp32, fun _ => hapart, fun _ => htag⟩, hv, by simp, rfl, rfl⟩ hr

end Sys2Proof.Proofs
end

section
/-! SUPPORT. The members of a group and its episodes: who is left after a member has changed, and what completes for each (R260, R261). -/

namespace Sys2Proof.Proofs

open Sys2Proof Sys2Proof.Machine Sys2Proof.Laws Sys2Proof.Safety

/-! ### The members (R260) -/

theorem mem_of_find {α : Type} {t : Assoc α} {k : Nat} {v : α} (h : Assoc.find t k = some v) : (k, v) ∈ t := by
  induction t with
  | nil => cases h
  | cons e t ih =>
    obtain ⟨j, w⟩ := e
    simp only [Assoc.find] at h
    split at h
    · next hj =>
      cases h
      rw [hj]
      exact List.mem_cons_self
    · exact List.mem_cons_of_mem _ (ih h)

/-- The keys that a test picks, once the value at one that it picked is another: the same keys, or all but that one. -/
theorem picked_put {α : Type} {t : Assoc α} {k : Nat} {v w : α} {P : Nat × α → Bool} (hsorted : (t.map (·.1)).Pairwise (· < ·))
    (hmem : (k, v) ∈ t) (hold : P (k, v) = true) :
    ((Assoc.put t k w).filter P).map (·.1) =
      if P (k, w) then (t.filter P).map (·.1) else ((t.filter P).map (·.1)).filter fun m => decide (m ≠ k) := by
  induction t with
  | nil => cases hmem
  | cons e t ih =>
    obtain ⟨j, x⟩ := e
    obtain ⟨hj, ht⟩ := List.pairwise_cons.1 hsorted
    have hlow : ∀ y ∈ t, j < y.1 := fun y hy => hj _ (List.mem_map_of_mem hy)
    rcases List.mem_cons.1 hmem with heq | hin
    · cases heq
      have hothers : ((t.filter P).map (·.1)).filter (fun m => decide (m ≠ k)) = (t.filter P).map (·.1) := by
        rw [List.filter_eq_self]
        intro m hm
        obtain ⟨y, hy, rfl⟩ := List.mem_map.1 hm
        exact decide_eq_true (Nat.ne_of_gt (hlow y (List.mem_filter.1 hy).1))
      rw [show Assoc.put ((k, v) :: t) k w = (k, w) :: t from if_pos rfl, List.filter_cons_of_pos hold]
      cases hnew : P (k, w) with
      | true => rw [List.filter_cons_of_pos hnew]; rfl
      | false =>
        rw [List.filter_cons_of_neg (by simp [hnew]), List.map_cons, List.filter_cons_of_neg (by simp), hothers]
        rfl
    · have hjk : j < k := hlow _ hin
      have hput : Assoc.put ((j, x) :: t) k w = (j, x) :: Assoc.put t k w := by
        simp only [Assoc.put]
        rw [if_neg (by omega), if_neg (by omega)]
      have hne : j ≠ k := Nat.ne_of_lt hjk
      rw [hput]
      cases hx : P (j, x) with
      | true =>
        rw [List.filter_cons_of_pos hx, List.filter_cons_of_pos hx, List.map_cons, List.map_cons, ih ht hin, List.filter_cons_of_pos (by simp [hne])]
        split <;> rfl
      | false => rw [List.filter_cons_of_neg (by simp [hx]), List.filter_cons_of_neg (by simp [hx]), ih ht hin]

section Members

variable {s : State} {f g : Nat}

/-- A context in a group has its entry in the table of agents. -/
theorem mem_agents_of_group (hg : g ∈ (s.ctx f).groups) : (f, s.ctx f) ∈ s.agents := by
  cases hfind : Assoc.find s.agents f with
  | none =>
    have hreset : s.ctx f = Ctx.reset := by simp only [State.ctx, Assoc.getD, hfind, Option.getD_none]
    rw [hreset] at hg
    cases hg
  | some c =>
    have hctx : s.ctx f = c := by simp only [State.ctx, Assoc.getD, hfind, Option.getD_some]
    rw [hctx]
    exact mem_of_find hfind

/-- The members after one of them has changed: the same while it keeps the group, and the others once it has left. -/
theorem groupMembers_setCtx {c : Ctx} (hinv : Inv s) (hf : f < 2304) (hg : g ∈ (s.ctx f).groups) :
    (s.setCtx f c).groupMembers (s.partOf f) g =
      if g ∈ c.groups then s.groupMembers (s.partOf f) g else (s.groupMembers (s.partOf f) g).filter fun m => decide (m ≠ f) := by
  have hpicked := picked_put (w := c) (P := fun e : Nat × Ctx => decide (s.partOf e.1 = s.partOf f) && e.2.groups.contains g) hinv.2
    (mem_agents_of_group hg) (by simp [hg])
  have haway : ∀ l : List Away, (l.map fun a => 65536 + a.flat).filter (fun m => decide (m ≠ f)) = l.map fun a => 65536 + a.flat := by
    intro l
    rw [List.filter_eq_self]
    intro m hm
    obtain ⟨a, -, rfl⟩ := List.mem_map.1 hm
    exact decide_eq_true (by omega)
  unfold State.groupMembers
  simp only [partOf_setCtx, List.filter_append, haway]
  refine (congrArg (· ++ _) hpicked).trans ?_
  by_cases hnew : g ∈ c.groups <;> simp [hnew, State.setCtx]

/-- A context in a group stands once among its members. -/
theorem count_member (hinv : Inv s) (hf : f < 2304) (hg : g ∈ (s.ctx f).groups) : (s.groupMembers (s.partOf f) g).count f = 1 := by
  have hnodup : ((s.agents.filter fun e => decide (s.partOf e.1 = s.partOf f) && e.2.groups.contains g).map (·.1)).Nodup :=
    (hinv.2.sublist (List.filter_sublist.map _)).imp fun h => Nat.ne_of_lt h
  have hin : f ∈ (s.agents.filter fun e => decide (s.partOf e.1 = s.partOf f) && e.2.groups.contains g).map (·.1) :=
    List.mem_map.2 ⟨_, List.mem_filter.2 ⟨mem_agents_of_group hg, by simp [hg]⟩, rfl⟩
  have haway : ((s.away.filter fun a => decide (a.part = s.partOf f) && a.groups.contains g).map fun a => 65536 + a.flat).count f = 0 := by
    rw [List.count_eq_zero]
    intro hm
    obtain ⟨a, -, ha⟩ := List.mem_map.1 hm
    omega
  unfold State.groupMembers
  rw [List.count_append, List.count_eq_one_of_mem hnodup hin, haway]

theorem mem_members (hinv : Inv s) (hf : f < 2304) (hg : g ∈ (s.ctx f).groups) : f ∈ s.groupMembers (s.partOf f) g :=
  List.count_pos_iff.1 (by rw [count_member hinv hf hg]; exact Nat.one_pos)

end Members

/-! ### The end of an episode (R261) -/

/-- The context of a member whose `gbar` completes. -/
def onward (c : Ctx) : Ctx := { c with arrived := none }.retire (c.pc + 4)

theorem onward_foldl_agents (ms : List Nat) (s : State) : ∃ ag, ms.foldl (fun s m => s.modCtx m onward) s = { s with agents := ag } := by
  induction ms generalizing s with
  | nil => exact ⟨s.agents, rfl⟩
  | cons m ms ih =>
    obtain ⟨ag, h⟩ := ih (s.modCtx m onward)
    exact ⟨ag, h⟩

theorem onward_foldl_other {m : Nat} {ms : List Nat} {s : State} (h : m ∉ ms) :
    (ms.foldl (fun s m => s.modCtx m onward) s).ctx m = s.ctx m := by
  induction ms generalizing s with
  | nil => rfl
  | cons k ms ih =>
    obtain ⟨hk, hms⟩ := not_or.1 (mt List.mem_cons.2 h)
    rw [List.foldl_cons, ih hms, ctx_modCtx_other _ _ _ _ hk]

/-- One that stands once in a list of members goes on once. -/
theorem onward_foldl_once {m : Nat} {ms : List Nat} {s : State} (h : ms.count m = 1) :
    (ms.foldl (fun s m => s.modCtx m onward) s).ctx m = onward (s.ctx m) := by
  induction ms generalizing s with
  | nil => cases h
  | cons k ms ih =>
    rw [List.foldl_cons]
    by_cases hk : k = m
    · subst hk
      rw [List.count_cons_self] at h
      rw [onward_foldl_other (List.count_eq_zero.1 (by omega)), ctx_modCtx_same]
    · rw [List.count_cons_of_ne hk] at h
      rw [ih h, ctx_modCtx_other _ _ _ _ (Ne.symm hk)]

/-- Whether the episode of a group ends with these members. -/
def EpisodeOver (s : State) (ms : List Nat) (g : Nat) : Prop := ms ≠ [] ∧ ∀ m ∈ ms, (s.ctx m).arrived = some g

theorem settleGroup_over {s : State} {part g : Nat} (h : EpisodeOver s (s.groupMembers part g) g) :
    s.settleGroup part g = (s.groupMembers part g).foldl (fun s m => s.modCtx m onward) s := by
  obtain ⟨hne, hall⟩ := h
  unfold State.settleGroup
  rw [if_pos (by simpa [hne] using hall)]
  rfl

theorem settleGroup_open {s : State} {part g : Nat} (h : ¬ EpisodeOver s (s.groupMembers part g) g) : s.settleGroup part g = s := by
  unfold State.settleGroup
  rw [if_neg]
  intro hover
  simp only [Bool.and_eq_true, Bool.not_eq_true', List.isEmpty_eq_false_iff, List.all_eq_true, decide_eq_true_eq] at hover
  exact h hover

theorem settleGroup_agents (s : State) (part g : Nat) : ∃ ag, s.settleGroup part g = { s with agents := ag } := by
  by_cases h : EpisodeOver s (s.groupMembers part g) g
  · rw [settleGroup_over h]
    exact onward_foldl_agents _ _
  · exact ⟨s.agents, settleGroup_open h⟩

/-- A context that is no member is as before. -/
theorem settleGroup_ctx_other {s : State} {part g m : Nat} (hm : m ∉ s.groupMembers part g) : (s.settleGroup part g).ctx m = s.ctx m := by
  by_cases h : EpisodeOver s (s.groupMembers part g) g
  · rw [settleGroup_over h, onward_foldl_other hm]
  · rw [settleGroup_open h]

end Sys2Proof.Proofs
end

section
/-! SUPPORT. The statement about groups, forks and thread numbers (R259 to R264, R274). -/

namespace Sys2Proof.Proofs

open Sys2Proof Sys2Proof.Machine Sys2Proof.Laws Sys2Proof.Safety

section Instructions

variable {s : State} {f : Nat} {d a : BitVec 5}

/-- The number that an instruction's operand gives: a group, a child's handle or a start address. -/
abbrev numbered (s : State) (f : Nat) (a : BitVec 5) : Nat := ((s.ctx f).s a.toNat).toNat

/-- A thread has no matrix operations of its own. -/
theorem settled_of_quiet (hf : f < 2304) (hq : (s.ctx f).quiet = true) : Settled s f := by
  refine ⟨hq, ?_⟩
  unfold State.matIdle
  rw [not_core hf]
  rfl

/-- An exception of a thread that may execute stops it, once its vector instructions have completed. -/
theorem trapHere_of_quiet {t : Trap} {rs : List Nat} (h : ThreadReady s f rs) (hq : (s.ctx f).quiet = true) : s.trapHere f t = stopped s f t := by
  obtain ⟨⟨-, -, -, hlate, -⟩, hf, -⟩ := h
  exact trapHere_settled t hlate (settled_of_quiet hf hq)

theorem exec_gjoin (h : ThreadReady s f [d.toNat, a.toNat]) : exec (.gjoin d a) s = .next (
    if 256 ≤ numbered s f a || (s.ctx f).groups.contains (numbered s f a) || decide (4 ≤ (s.ctx f).groups.length) then s.trapHere f .operand
    else next s f ({ s.ctx f with groups := (s.ctx f).groups ++ [numbered s f a] }.setS d.toNat
      (BitVec.ofNat 64 ((s.groupMembers (s.partOf f) (numbered s f a)).length + 1)))) :=
  congrArg Host.Outcome.next (threadCertain_ready _ h)

theorem exec_gleave (h : ThreadReady s f [a.toNat]) : exec (.gleave a) s = .next (
    if 256 ≤ numbered s f a || !(s.ctx f).groups.contains (numbered s f a) then s.trapHere f .operand
    else (s.leaveGroup f (numbered s f a)).modCtx f fun c => c.retire (c.pc + 4)) :=
  congrArg Host.Outcome.next (threadCertain_ready _ h)

/-- A member has arrived at its group's episode. -/
def atBarrier (s : State) (f g : Nat) : State := s.setCtx f { s.ctx f with arrived := some g, wait := some .gbar }

theorem exec_gbar (h : ThreadReady s f [a.toNat]) : exec (.gbar a) s = .next (
    if 256 ≤ numbered s f a || !(s.ctx f).groups.contains (numbered s f a) then s.trapHere f .operand
    else if !s.released f then s.stall f .release
    else (atBarrier s f (numbered s f a)).settleGroup (s.partOf f) (numbered s f a)) :=
  congrArg Host.Outcome.next (threadCertain_ready _ h)

theorem exec_gsize (h : Ready s f [d.toNat, a.toNat]) (hf : f < 2304) : exec (.gsize d a) s = .next (
    if 256 ≤ numbered s f a then s.trapHere f .operand
    else wrote s f d (BitVec.ofNat 64 (s.groupMembers (s.partOf f) (numbered s f a)).length)) :=
  congrArg Host.Outcome.next (threadOnly_ready _ h hf)

theorem exec_tid (h : Ready s f [d.toNat]) (hf : f < 2304) : exec (.tid d) s = .next (wrote s f d (BitVec.ofNat 64 f)) :=
  congrArg Host.Outcome.next (threadOnly_ready _ h hf)

theorem exec_yield (h : Ready s f []) (hf : f < 2304) : exec .yield s = .next (
    if (s.mill (millOf f)).pointer = f % 16 then
      (next s f { s.ctx f with deficit := 0 }).setMill (millOf f) { s.mill (millOf f) with pointer := (f + 1) % 16, fresh := true }
    else next s f { s.ctx f with deficit := 0 }) :=
  congrArg Host.Outcome.next (threadOnly_ready _ h hf)

/-- The parent of a `forkl`, once its child k has started. -/
def forkParent (c : Ctx) (k : Nat) : Ctx :=
  { c with
    share := c.share - c.share / 2, pincap := if c.pinned then c.pincap - 1 else c.pincap,
    children := c.children ++ [(k + 1, c.share / 2)] }

theorem exec_forkl (h : ThreadReady s f [d.toNat, a.toNat]) : exec (.forkl d a) s = .next (
    if numbered s f a % 4 ≠ 0 then s.trapHere f (.align (numbered s f a))
    else if (s.ctx f).share = 1 || ((s.ctx f).pinned && (s.ctx f).pincap = 0) then wrote s f d 0
    else
      match s.freeIn (millOf f) with
      | none => wrote s f d 0
      | some k =>
        if !s.released f then s.stall f .release
        else (s.setCtx k (forkChild f (s.ctx f) (s.ctx k) d.toNat (numbered s f a))).setCtx f
          (((forkParent (s.ctx f) k).setS d.toNat (BitVec.ofNat 64 (k + 1))).retire ((s.ctx f).pc + 4))) := by
  refine (congrArg Host.Outcome.next (threadCertain_ready _ h)).trans ?_
  rfl

/-- The context that `forkl` starts was free. -/
theorem freeIn_free {m k : Nat} (h : s.freeIn m = some k) : (s.ctx k).life = .free := by
  simpa using List.find?_some h

/-- `joinl` of a handle other than 0. -/
theorem exec_joinl (h : ThreadReady s f [a.toNat]) (hne : numbered s f a ≠ 0) : exec (.joinl a) s = .next (
    match (s.ctx f).children.find? fun e => decide (e.1 = numbered s f a) with
    | none => s.trapHere f .operand
    | some (_, w) =>
      if (s.ctx f).exited.contains (numbered s f a) then next s f (joinChild (s.ctx f) (numbered s f a) w) else s.stall f (.joinl (numbered s f a))) := by
  refine (congrArg Host.Outcome.next (threadCertain_ready _ h)).trans ?_
  exact congrArg Host.Outcome.next (if_neg hne)

end Instructions

/-! ### Groups (R260, R261) -/

section Groups

variable {s : State} {f g : Nat}

theorem atBarrier_members (hinv : Inv s) (hf : f < 2304) (hg : g ∈ (s.ctx f).groups) :
    (atBarrier s f g).groupMembers (s.partOf f) g = s.groupMembers (s.partOf f) g := by
  rw [atBarrier, groupMembers_setCtx hinv hf hg, if_pos hg]

/-- An arrival ends the episode where every other member has arrived. -/
theorem atBarrier_over (hinv : Inv s) (hf : f < 2304) (hg : g ∈ (s.ctx f).groups) :
    EpisodeOver (atBarrier s f g) ((atBarrier s f g).groupMembers (s.partOf f) g) g ↔
      ∀ m ∈ s.groupMembers (s.partOf f) g, m ≠ f → (s.ctx m).arrived = some g := by
  rw [atBarrier_members hinv hf hg]
  refine ⟨fun ⟨_, hall⟩ m hm hne => ?_, fun hall => ⟨List.ne_nil_of_mem (mem_members hinv hf hg), fun m hm => ?_⟩⟩
  · have := hall m hm
    rwa [atBarrier, ctx_setCtx_other _ _ _ _ hne] at this
  · by_cases hne : m = f
    · rw [hne, atBarrier, ctx_setCtx_same]
    · rw [atBarrier, ctx_setCtx_other _ _ _ _ hne]
      exact hall m hm hne

theorem atBarrier_onward (m : Nat) : onward ((atBarrier s f g).ctx m) = onward (s.ctx m) := by
  by_cases hne : m = f
  · rw [hne, atBarrier, ctx_setCtx_same]
    rfl
  · rw [atBarrier, ctx_setCtx_other _ _ _ _ hne]

/-- The last arrival lets every member go on. -/
theorem atBarrier_ends (hinv : Inv s) (hf : f < 2304) (hg : g ∈ (s.ctx f).groups) (hnodup : (s.groupMembers (s.partOf f) g).Nodup)
    (hall : ∀ m ∈ s.groupMembers (s.partOf f) g, m ≠ f → (s.ctx m).arrived = some g) (m : Nat) :
    ((atBarrier s f g).settleGroup (s.partOf f) g).ctx m = if m ∈ s.groupMembers (s.partOf f) g then onward (s.ctx m) else s.ctx m := by
  have hmembers := atBarrier_members hinv hf hg
  have hover := (atBarrier_over hinv hf hg).2 hall
  by_cases hm : m ∈ s.groupMembers (s.partOf f) g
  · rw [settleGroup_over hover, hmembers, onward_foldl_once (List.count_eq_one_of_mem hnodup hm), atBarrier_onward, if_pos hm]
  · have hne : m ≠ f := by
      rintro rfl
      exact hm (mem_members hinv hf hg)
    rw [settleGroup_ctx_other (by rwa [hmembers]), atBarrier, ctx_setCtx_other _ _ _ _ hne, if_neg hm]

/-- A member has left its group. -/
def leaving (s : State) (f g : Nat) : State := s.setCtx f { s.ctx f with groups := (s.ctx f).groups.erase g }

theorem leaving_members (hinv : Inv s) (hf : f < 2304) (hg : g ∈ (s.ctx f).groups) (honce : (s.ctx f).groups.Nodup) :
    (leaving s f g).groupMembers (s.partOf f) g = (s.groupMembers (s.partOf f) g).filter fun m => decide (m ≠ f) := by
  rw [leaving, groupMembers_setCtx hinv hf hg, if_neg honce.not_mem_erase]

theorem mem_leaving (hinv : Inv s) (hf : f < 2304) (hg : g ∈ (s.ctx f).groups) (honce : (s.ctx f).groups.Nodup) {m : Nat} :
    m ∈ (leaving s f g).groupMembers (s.partOf f) g ↔ m ∈ s.groupMembers (s.partOf f) g ∧ m ≠ f := by
  rw [leaving_members hinv hf hg honce, List.mem_filter, decide_eq_true_eq]

/-- Once the member has left, the episode ends for those that remain where all of them have arrived. -/
theorem leaving_over (hinv : Inv s) (hf : f < 2304) (hg : g ∈ (s.ctx f).groups) (honce : (s.ctx f).groups.Nodup) {m : Nat}
    (hm : m ∈ (leaving s f g).groupMembers (s.partOf f) g) :
    EpisodeOver (leaving s f g) ((leaving s f g).groupMembers (s.partOf f) g) g ↔
      ∀ k ∈ s.groupMembers (s.partOf f) g, k ≠ f → (s.ctx k).arrived = some g := by
  refine ⟨fun ⟨_, hall⟩ k hk hne => ?_, fun hall => ⟨List.ne_nil_of_mem hm, fun k hk => ?_⟩⟩
  · have := hall k ((mem_leaving hinv hf hg honce).2 ⟨hk, hne⟩)
    rwa [leaving, ctx_setCtx_other _ _ _ _ hne] at this
  · obtain ⟨hin, hne⟩ := (mem_leaving hinv hf hg honce).1 hk
    rw [leaving, ctx_setCtx_other _ _ _ _ hne]
    exact hall k hin hne

/-- What a departure leaves of the context that leaves. -/
theorem leaveGroup_ctx_same (hinv : Inv s) (hf : f < 2304) (hg : g ∈ (s.ctx f).groups) (honce : (s.ctx f).groups.Nodup) :
    (s.leaveGroup f g).ctx f = { s.ctx f with groups := (s.ctx f).groups.erase g } := by
  have hout : f ∉ (leaving s f g).groupMembers (s.partOf f) g := fun h => ((mem_leaving hinv hf hg honce).1 h).2 rfl
  exact (settleGroup_ctx_other hout).trans (ctx_setCtx_same ..)

/-- And of every other. -/
theorem leaveGroup_ctx_other (hinv : Inv s) (hf : f < 2304) (hg : g ∈ (s.ctx f).groups) (honce : (s.ctx f).groups.Nodup)
    (hnodup : (s.groupMembers (s.partOf f) g).Nodup) {m : Nat} (hne : m ≠ f) : (s.leaveGroup f g).ctx m =
      if m ∈ s.groupMembers (s.partOf f) g ∧ ∀ k ∈ s.groupMembers (s.partOf f) g, k ≠ f → (s.ctx k).arrived = some g then onward (s.ctx m)
      else s.ctx m := by
  have hctx : (leaving s f g).ctx m = s.ctx m := ctx_setCtx_other _ _ _ _ hne
  have hleft : s.leaveGroup f g = (leaving s f g).settleGroup (s.partOf f) g := rfl
  have hkept := (hnodup.filter fun m => decide (m ≠ f))
  rw [← leaving_members hinv hf hg honce] at hkept
  rw [hleft]
  by_cases hm : m ∈ (leaving s f g).groupMembers (s.partOf f) g
  · have hin := ((mem_leaving hinv hf hg honce).1 hm).1
    by_cases hall : ∀ k ∈ s.groupMembers (s.partOf f) g, k ≠ f → (s.ctx k).arrived = some g
    · rw [settleGroup_over ((leaving_over hinv hf hg honce hm).2 hall), onward_foldl_once (List.count_eq_one_of_mem hkept hm), hctx,
        if_pos ⟨hin, hall⟩]
    · rw [settleGroup_open (mt (leaving_over hinv hf hg honce hm).1 hall), hctx, if_neg fun h => hall h.2]
  · rw [settleGroup_ctx_other hm, hctx, if_neg fun h => hm ((mem_leaving hinv hf hg honce).2 ⟨h.1, hne⟩)]

end Groups

/-- `gjoin` of a new group with room for it. -/
theorem gjoin_joins {s : State} {f : Nat} {d a : BitVec 5} (h : ThreadReady s f [d.toNat, a.toNat]) (hlt : numbered s f a < 256)
    (hnew : numbered s f a ∉ (s.ctx f).groups) (hroom : (s.ctx f).groups.length < 4) : exec (.gjoin d a) s = .next
      (next s f ({ s.ctx f with groups := (s.ctx f).groups ++ [numbered s f a] }.setS d.toNat
        (BitVec.ofNat 64 ((s.groupMembers (s.partOf f) (numbered s f a)).length + 1)))) := by
  rw [exec_gjoin h, if_neg (by simp [hnew, hlt, hroom])]

/-- `gbar` of a member waits for the others, or lets all of them go on. -/
theorem gbar_member {s : State} {f : Nat} {a : BitVec 5} (h : ThreadReady s f [a.toNat]) (hlt : numbered s f a < 256)
    (hg : numbered s f a ∈ (s.ctx f).groups) : exec (.gbar a) s = .next (
      if s.released f then (atBarrier s f (numbered s f a)).settleGroup (s.partOf f) (numbered s f a) else waiting s f .release) := by
  obtain ⟨⟨-, -, -, hlate, -⟩, -⟩ := id h
  rw [exec_gbar h, if_neg (by simp [hg, hlt])]
  cases hrel : s.released f with
  | true => rfl
  | false => rw [stall_waits _ hlate]; rfl

theorem gleave_member {s : State} {f : Nat} {a : BitVec 5} (h : ThreadReady s f [a.toNat]) (hlt : numbered s f a < 256)
    (hg : numbered s f a ∈ (s.ctx f).groups) :
    exec (.gleave a) s = .next ((s.leaveGroup f (numbered s f a)).modCtx f fun c => c.retire (c.pc + 4)) := by
  rw [exec_gleave h, if_neg (by simp [hg, hlt])]

/-- `forkl` with a context free and the release conditions met. -/
theorem forkl_starts {s : State} {f k : Nat} {d a : BitVec 5} (h : ThreadReady s f [d.toNat, a.toNat]) (halign : numbered s f a % 4 = 0)
    (hshare : ¬ ((s.ctx f).share = 1 ∨ (s.ctx f).pinned = true ∧ (s.ctx f).pincap = 0)) (hfree : s.freeIn (millOf f) = some k)
    (hrel : s.released f = true) : exec (.forkl d a) s = .next
      ((s.setCtx k (forkChild f (s.ctx f) (s.ctx k) d.toNat (numbered s f a))).setCtx f
        (((forkParent (s.ctx f) k).setS d.toNat (BitVec.ofNat 64 (k + 1))).retire ((s.ctx f).pc + 4))) := by
  rw [exec_forkl h, if_neg (by omega), if_neg (by simpa using hshare), hfree, hrel]
  rfl

theorem forkl_fails {s : State} {f : Nat} {d a : BitVec 5} (h : ThreadReady s f [d.toNat, a.toNat]) (halign : numbered s f a % 4 = 0)
    (hbad : (s.ctx f).share = 1 ∨ ((s.ctx f).pinned = true ∧ (s.ctx f).pincap = 0) ∨ s.freeIn (millOf f) = none) :
    exec (.forkl d a) s = .next (wrote s f d 0) := by
  rw [exec_forkl h, if_neg (by omega)]
  by_cases hshare : (s.ctx f).share = 1 ∨ ((s.ctx f).pinned = true ∧ (s.ctx f).pincap = 0)
  · rw [if_pos (by simpa using hshare)]
  · have hfree : s.freeIn (millOf f) = none := by tauto
    rw [if_neg (by simpa using hshare), hfree]

/-- `joinl` of a child. -/
theorem joinl_child {s : State} {f w : Nat} {a : BitVec 5} (h : ThreadReady s f [a.toNat]) (hne : numbered s f a ≠ 0)
    (hchild : ((s.ctx f).children.find? fun e => decide (e.1 = numbered s f a)) = some (numbered s f a, w)) : exec (.joinl a) s = .next (
      if numbered s f a ∈ (s.ctx f).exited then next s f (joinChild (s.ctx f) (numbered s f a) w) else waiting s f (.joinl (numbered s f a))) := by
  obtain ⟨⟨-, -, -, hlate, -⟩, -⟩ := id h
  rw [exec_joinl h hne, hchild]
  simp only [List.contains_iff_mem, stall_waits _ hlate]

/-- A handle in a list of children is found there. -/
theorem child_found {l : List (Nat × Nat)} {g : Nat} (h : ∃ w, (g, w) ∈ l) : ∃ w, (l.find? fun e => decide (e.1 = g)) = some (g, w) := by
  obtain ⟨w, hw⟩ := h
  obtain ⟨⟨g', w'⟩, hfind⟩ := Option.isSome_iff_exists.1 (List.find?_isSome.2 ⟨_, hw, decide_eq_true rfl⟩ : (l.find? fun e => decide (e.1 = g)).isSome)
  have hg : g' = g := of_decide_eq_true (List.find?_some hfind :)
  exact ⟨w', hg ▸ hfind⟩

/-- Settles O36: what each of the eight answers once it may take effect (`exec_gjoin` and the equations like it), and for `gbar` and `gleave` which members
go on (`atBarrier_ends`, `leaveGroup_ctx_same`, `leaveGroup_ctx_other`). -/
theorem groupsForksAndThreadNumbers : Obligations.GroupsForksAndThreadNumbers := by
  unfold Obligations.GroupsForksAndThreadNumbers
  intro s f d a hinv c g part ms opens onward' goes
  have hnext : ∀ {i : Instr} {u : State} {x : Ctx}, exec i s = .next (u.setCtx f (x.retire (c.pc + 4))) → x.instret = c.instret → goes i :=
    fun h hx => ⟨_, h, by rw [ctx_setCtx_same]; rfl, by rw [ctx_setCtx_same]; exact congrArg (· + 1) hx⟩
  refine ⟨fun h hlt hnew hroom => ?_, fun h hlt hg honce => ?_, fun h hlt hg hrel hall => ?_, fun h halign hlife hrel => ?_,
    fun h hne hchild hexit => ?_, fun h hf => ?_, fun h hf => hnext (exec_tid h hf) (setS_instret ..), fun h hf hlt => ?_,
    fun h => ⟨fun hbad hq => ?_, gjoin_joins h, fun halign hq => ?_, forkl_fails h, fun k hlife halign hshare hpin hfree hrel => ?_⟩,
    exec_gsize, exec_tid, exec_yield,
    fun h => ⟨fun hbad => ⟨fun hq => ?_, fun hq => ?_⟩, fun hlt hg honce hnodup => ⟨fun hrel => ?_, fun hrel => ⟨fun ⟨m, hm, hne, hout⟩ => ?_, fun hall => ?_⟩, ?_⟩,
      fun hne hnone hq => ?_, fun w hne hchild => joinl_child h hne hchild⟩⟩
  · exact hnext (gjoin_joins h hlt hnew hroom) (setS_instret ..)
  · refine ⟨_, gleave_member h hlt hg, ?_⟩
    rw [ctx_modCtx_same, leaveGroup_ctx_same hinv h.2.1 hg honce]
    exact ⟨rfl, rfl⟩
  · refine ⟨_, (gbar_member h hlt hg).trans (by rw [if_pos hrel]), ?_⟩
    rw [settleGroup_over ((atBarrier_over hinv h.2.1 hg).2 hall), atBarrier_members hinv h.2.1 hg, onward_foldl_once (count_member hinv h.2.1 hg),
      atBarrier_onward]
    exact ⟨rfl, rfl⟩
  · by_cases hbad : c.share = 1 ∨ (c.pinned = true ∧ c.pincap = 0)
    · exact hnext (forkl_fails h halign (hbad.imp_right .inl)) (setS_instret ..)
    · cases hfree : s.freeIn (millOf f) with
      | none => exact hnext (forkl_fails h halign (.inr (.inr hfree))) (setS_instret ..)
      | some k => exact hnext (forkl_starts h halign hbad hfree hrel) (setS_instret ..)
  · obtain ⟨w', hfound⟩ := child_found hchild
    exact hnext (x := joinChild c g w') ((joinl_child h hne hfound).trans (congrArg Host.Outcome.next (if_pos hexit))) rfl
  · refine ⟨_, exec_yield h hf, ?_⟩
    split
    · rw [ctx_setMill, ctx_setCtx_same]
      exact ⟨rfl, rfl⟩
    · rw [ctx_setCtx_same]
      exact ⟨rfl, rfl⟩
  · exact hnext ((exec_gsize h hf).trans (by rw [if_neg (Nat.not_le.2 hlt)])) (setS_instret ..)
  · rw [exec_gjoin h, if_pos (by simpa [or_assoc] using hbad), trapHere_of_quiet h hq]
  · rw [exec_forkl h, if_pos halign, trapHere_of_quiet h hq]
  · have hne : f ≠ k := by
      rintro rfl
      exact absurd (hlife.symm.trans (freeIn_free hfree)) (by decide)
    refine (forkl_starts h halign (not_or.2 ⟨hshare, hpin⟩) hfree hrel).trans ?_
    show _ = Host.Outcome.next ((s.setCtx k _).setCtx f (Ctx.retire _ (((s.setCtx k _).ctx f).pc + 4)))
    rw [ctx_setCtx_other _ _ _ _ hne]
    rfl
  · rw [exec_gleave h, if_pos (by simpa using hbad), trapHere_of_quiet h hq]
  · rw [exec_gbar h, if_pos (by simpa using hbad), trapHere_of_quiet h hq]
  · rw [gbar_member h hlt hg, hrel]
    rfl
  · rw [gbar_member h hlt hg, if_pos hrel, settleGroup_open fun hover => hout ((atBarrier_over hinv h.2.1 hg).1 hover m hm hne)]
    rfl
  · obtain ⟨ag, hag⟩ := settleGroup_agents (atBarrier s f g) part g
    refine ⟨ag, (gbar_member h hlt hg).trans (by rw [if_pos hrel, hag]; rfl), fun m => ?_⟩
    refine Eq.trans ?_ (atBarrier_ends hinv h.2.1 hg hnodup hall m)
    rw [hag]
    rfl
  · obtain ⟨ag, hag⟩ := settleGroup_agents (leaving s f g) part g
    refine ⟨((s.leaveGroup f g).modCtx f fun c => c.retire (c.pc + 4)).agents, (gleave_member h hlt hg).trans ?_, fun m => ?_⟩
    · rw [show s.leaveGroup f g = _ from hag]
      rfl
    · show ((s.leaveGroup f g).modCtx f fun c => c.retire (c.pc + 4)).ctx m = _
      by_cases hm : m = f
      · rw [if_pos hm, hm, ctx_modCtx_same, leaveGroup_ctx_same hinv h.2.1 hg honce]
      · rw [if_neg hm, ctx_modCtx_other _ _ _ _ hm, leaveGroup_ctx_other hinv h.2.1 hg honce hnodup hm]
        rfl
  · have hnot : (c.children.find? fun e => decide (e.1 = g)) = none := by
      rw [List.find?_eq_none]
      exact fun e he heq => hnone e.2 (by rw [← of_decide_eq_true heq]; exact he)
    rw [exec_joinl h hne, hnot, trapHere_of_quiet h hq]

end Sys2Proof.Proofs
end

section
/-! SUPPORT. The member of OP 0x1E at the head of a queue: it takes place there, and leaves (R130, R138). -/

namespace Sys2Proof.Proofs

open Sys2Proof Sys2Proof.Machine Sys2Proof.Laws Sys2Proof.Safety

/-! ### What its effect on vector state leaves alone -/

/-- The queue's words, the count of retired instructions, and whether a discard has set the configuration are as before. -/
structure KeepsQueue (c x : Ctx) : Prop where
  words : x.vq.map (·.word) = c.vq.map (·.word)
  instret : x.instret = c.instret
  reverted : x.reverted = c.reverted

theorem KeepsQueue.refl (c : Ctx) : KeepsQueue c c := ⟨rfl, rfl, rfl⟩

theorem KeepsQueue.trans {a b c : Ctx} (h : KeepsQueue a b) (k : KeepsQueue b c) : KeepsQueue a c :=
  ⟨k.words.trans h.words, k.instret.trans h.instret, k.reverted.trans h.reverted⟩

theorem behind_words (c : Ctx) (k : Checkpoint → Checkpoint) : (c.behind k).vq.map (·.word) = c.vq.map (·.word) := by
  unfold Ctx.behind
  rw [List.map_map]
  rfl

theorem keepsQueue_accrue (c : Ctx) (fl : Flags) : KeepsQueue c (c.accrue fl) := ⟨behind_words .., rfl, rfl⟩

theorem keepsQueue_voidGroup (c : Ctx) (n lo : Nat) : KeepsQueue c (c.voidGroup n lo) := by
  unfold Ctx.voidGroup
  split
  · exact ⟨rfl, rfl, rfl⟩
  · exact .refl c

theorem keepsQueue_foldl {α : Type} {g : Ctx → α → Ctx} (hg : ∀ c x, KeepsQueue c (g c x)) (l : List α) (c : Ctx) : KeepsQueue c (l.foldl g c) := by
  induction l generalizing c with
  | nil => exact .refl c
  | cons x l ih => exact (hg c x).trans (ih _)

theorem keepsQueue_foldLoop (n : Nat) (t : Tag) (op gf k j : Nat) (c : Ctx) : KeepsQueue c (foldLoop n t op gf k j c) := by
  induction k generalizing j c with
  | zero => exact .refl c
  | succ k ih =>
    refine KeepsQueue.trans ?_ (ih _ _)
    exact (show KeepsQueue c (c.setRaw n t.bytes (j % gf) _) from ⟨rfl, rfl, rfl⟩).trans (keepsQueue_accrue _ _)

theorem keepsQueue_foldGroup (oldvl gf eb : Nat) (c : Ctx) (n : Nat) : KeepsQueue c (foldGroup oldvl gf eb c n) :=
  (keepsQueue_foldLoop _ _ _ _ _ _ _).trans (keepsQueue_voidGroup _ _ _)

theorem keepsQueue_applyGrant (g pad ew : Nat) (c : Ctx) : KeepsQueue c (applyGrant g pad ew c) := by
  have hgroups : KeepsQueue c (grantGroups c (g - pad) (2 ^ ew)) :=
    (keepsQueue_foldl (keepsQueue_foldGroup _ _ _) _ _).trans (keepsQueue_foldl (fun c n => keepsQueue_voidGroup c n _) _ _)
  exact ⟨hgroups.words, hgroups.instret, hgroups.reverted⟩

theorem keepsQueue_regroup (c : Ctx) : KeepsQueue c c.regroup := by
  unfold Ctx.regroup
  dsimp only
  split
  · exact ⟨rfl, rfl, rfl⟩
  · have hvoids := keepsQueue_foldl (g := fun x n => x.voidGroup n (c.vlmaxFor c.eb * x.voidBytes n x.eb))
      (fun x n => keepsQueue_voidGroup x n _) c.groupBases c
    exact ⟨hvoids.words, hvoids.instret, hvoids.reverted⟩

theorem keepsQueue_vconfigApply (fs : VqEntry → Nat × Nat × Nat × Nat) (e : VqEntry) (c : Ctx) : KeepsQueue c (vconfigApply fs e c) := by
  unfold vconfigApply
  dsimp only
  have hset : KeepsQueue c { c with vtype := setVtype c.vtype (fs e).1 (fs e).2.1 (fs e).2.2.1 (fs e).2.2.2 } := ⟨rfl, rfl, rfl⟩
  split
  · exact hset
  · exact hset.trans (keepsQueue_regroup _)

/-! ### The head takes place -/

/-- An instruction that is no work of the lanes is counted, and takes no sample (R485). -/
theorem sample_counts (s : State) (f k : Nat) (e : VqEntry) :
    s.sample f k e 0 = s.modMill (millOf f) fun m => { m with samples := m.samples + 1 } := by
  unfold State.sample
  simp

/-- The configuration under which an entry of a queue runs. -/
def underConfig (e : VqEntry) (c : Ctx) : Ctx :=
  { c with vtype := e.vtype, vtag := e.vtag, vcarry := e.vcarry, vfoldop := e.vfoldop, reverted := false }

/-- The head of a queue takes place and leaves it; nothing but its context and the mill's count has changed. -/
theorem runConfig_head {apply : VqEntry → Ctx → Ctx} {f : Nat} {s : State} {e : VqEntry} {rest : List VqEntry} (hq : (s.ctx f).vq = e :: rest)
    (hkeeps : ∀ c, KeepsQueue c (apply e c)) : ∃ x, State.runConfig apply f s =
      (s.modMill (millOf f) fun m => { m with samples := m.samples + 1 }).setCtx f x ∧
      x.vq.map (·.word) = rest.map (·.word) ∧ x.instret = (s.ctx f).instret + 1 ∧
      x.vl = (apply e (underConfig e (s.ctx f))).vl ∧ x.vpad = (apply e (underConfig e (s.ctx f))).vpad ∧
      x.vstart = (apply e (underConfig e (s.ctx f))).vstart := by
  obtain ⟨hwords, hinstret, hreverted⟩ := hkeeps (underConfig e (s.ctx f))
  have hpopped : ((Ctx.popEntry (apply e (underConfig e (s.ctx f)))).vretire).vq.map (·.word) = rest.map (·.word) := by
    refine (behind_words _ _).trans ?_
    show (apply e (underConfig e (s.ctx f))).vq.tail.map (·.word) = _
    rw [List.map_tail, hwords, show (underConfig e (s.ctx f)).vq = e :: rest from hq]
    rfl
  unfold State.runConfig
  dsimp only
  split
  · next hnil => cases hq.symm.trans hnil
  next e' rest' hcons =>
  cases hq.symm.trans hcons
  unfold State.underEntry
  simp only [sample_counts, modMill_setCtx, modCtx_setCtx]
  exact ⟨_, congrArg _ (if_neg (Bool.eq_false_iff.1 hreverted)), hpopped, congrArg (· + 1) hinstret, rfl, rfl, rfl⟩

end Sys2Proof.Proofs
end

section
/-! SUPPORT. A cycle of a mill's arbiter (R274): a sweep in which no context has work, and the one slot of a mill. -/

namespace Sys2Proof.Proofs

open Sys2Proof Sys2Proof.Machine Sys2Proof.Laws Sys2Proof.Safety

/-! ### Work does not depend on deficits, nor on mills -/

/-- A state with other contexts and other mills. -/
def withMills (s : State) (ag : Assoc Ctx) (ml : Assoc Mill) : State := { s with agents := ag, mills := ml }

section Work

variable {s : State} {ag : Assoc Ctx} {ml : Assoc Mill} {f d : Nat}
  (hc : (withMills s ag ml).ctx f = { s.ctx f with deficit := d })

include hc

theorem blockFetch_mills (off : Nat) : (withMills s ag ml).blockFetch f off = s.blockFetch f off := by
  have htranslate := translate_congr (s := s) (t := withMills s ag ml) rfl rfl rfl rfl
  have hpart : (withMills s ag ml).partOf f = s.partOf f := rfl
  have hdev : (withMills s ag ml).dev = s.dev := rfl
  simp only [State.blockFetch, hc, htranslate, hpart, hdev]

theorem linkWaits_mills (ts : List EThread) (t : EThread) :
    (withMills s ag ml).linkWaits f ts t = s.linkWaits f ts t := by
  unfold State.linkWaits
  simp only [blockFetch_mills hc, hc]
  rfl

theorem hasWork_mills : (withMills s ag ml).hasWork f = s.hasWork f := by
  have hasleep : (withMills s ag ml).asleep = s.asleep := rfl
  have hfenced : (withMills s ag ml).fenced = s.fenced := rfl
  simp only [State.hasWork, State.acts, State.issueGroup, linkWaits_mills hc, hc, hasleep, hfenced]
  rfl

end Work

/-! ### A sweep with nothing to issue -/

/-- The arbiter of mill m has met k contexts from its pointer on, and found no work. -/
structure Swept (s : State) (m k : Nat) (u : State) : Prop where
  frame : ∃ ag ml, u = withMills s ag ml
  put : ∀ x, u.mills.put m x = s.mills.put m x
  mills : k ≠ 0 → u.mills = s.mills.put m (u.mill m)
  mill : u.mill m = { s.mill m with pointer := ((s.mill m).pointer + k) % 16, fresh := (s.mill m).fresh || decide (k ≠ 0) }
  ctx : ∀ g, u.ctx g = if ∃ i < k, g = 16 * m + ((s.mill m).pointer + i) % 16 then { s.ctx g with deficit := 0 } else s.ctx g

theorem issueOne_idle {s : State} {f : Nat} (h : s.hasWork f = false) : s.issueOne f = .error s := by
  unfold State.issueOne State.issueWithin
  rw [h]
  rfl

/-- What the arbiter does on a context that issues nothing: its deficit is zeroed, and the pointer moves on. -/
def skipped (m : Nat) (u : State) : State :=
  (u.modCtx (16 * m + (u.mill m).pointer) fun c => { c with deficit := 0 }).modMill m fun x =>
    { x with pointer := (x.pointer + 1) % 16, fresh := true }

theorem swept_step {s u : State} {m k : Nat} (h : Swept s m k u) : Swept s m (k + 1) (skipped m u) := by
  obtain ⟨⟨ag, ml, hframe⟩, hput, -, hmill, hctx⟩ := h
  have hmill' : (skipped m u).mill m =
      { s.mill m with pointer := ((s.mill m).pointer + (k + 1)) % 16, fresh := (s.mill m).fresh || decide (k + 1 ≠ 0) } := by
    unfold skipped
    rw [mill_modMill_same]
    show { u.mill m with pointer := ((u.mill m).pointer + 1) % 16, fresh := true } = _
    rw [hmill]
    simp [Nat.add_assoc]
  have hmills : (skipped m u).mills = s.mills.put m ((skipped m u).mill m) := by
    rw [show (skipped m u).mills = u.mills.put m ((skipped m u).mill m) by
      unfold skipped; rw [mill_modMill_same]; rfl, hput]
  refine ⟨?_, fun x => by rw [hmills, put_put], fun _ => hmills, hmill', fun g => ?_⟩
  · subst hframe
    exact ⟨_, _, rfl⟩
  · rw [show (skipped m u).ctx g = (u.setCtx (16 * m + (u.mill m).pointer) _).ctx g from rfl, hmill]
    by_cases hg : g = 16 * m + ((s.mill m).pointer + k) % 16
    · subst hg
      rw [ctx_setCtx_same, if_pos ⟨k, by omega, rfl⟩, hctx]
      split <;> rfl
    · rw [ctx_setCtx_other _ _ _ _ hg, hctx]
      refine if_congr ⟨fun ⟨i, hi, e⟩ => ⟨i, by omega, e⟩, fun ⟨i, hi, e⟩ => ⟨i, ?_, e⟩⟩ rfl rfl
      have : i ≠ k := by rintro rfl; exact hg e
      omega

theorem swept_hasWork {s u : State} {m k : Nat} (h : Swept s m k u) (f : Nat) : u.hasWork f = s.hasWork f := by
  obtain ⟨⟨ag, ml, rfl⟩, -, -, -, hctx⟩ := h
  have hf := hctx f
  split at hf
  · exact hasWork_mills hf
  · exact hasWork_mills (d := (s.ctx f).deficit) hf

theorem arbitrate_idle {s : State} {m free : Nat} (hfree : free ≠ 0) (hidle : ∀ i, s.hasWork (16 * m + i % 16) = false) (n j k : Nat) (hk : k + j = 16)
    (u : State) (h : Swept s m k u) : Swept s m 16 (State.arbitrate m (j + n) free k u) := by
  induction j generalizing k u with
  | zero =>
    obtain rfl : k = 16 := by omega
    have hdone : State.arbitrate m (0 + n) free 16 u = u := by
      cases n with
      | zero => rfl
      | succ n =>
        rw [Nat.zero_add]
        unfold State.arbitrate
        rw [if_pos (by simp)]
    rwa [hdone]
  | succ j ih =>
    have hstep : State.arbitrate m (j + 1 + n) free k u = State.arbitrate m (j + n) free (k + 1) (skipped m u) := by
      have hw : u.hasWork (16 * m + (u.mill m).pointer) = false := by
        rw [swept_hasWork h, h.mill]
        exact hidle _
      rw [show j + 1 + n = j + n + 1 by omega]
      conv_lhs => unfold State.arbitrate
      rw [if_neg (by simp only [Bool.or_eq_true, decide_eq_true_eq]; omega)]
      dsimp only
      rw [issueOne_idle hw]
      rfl
    rw [hstep]
    exact ih (k + 1) (by omega) _ (swept_step h)

theorem mem_millContexts {m p g : Nat} (hp : p < 16) : (∃ i < 16, g = 16 * m + (p + i) % 16) ↔ g ∈ millContexts m := by
  unfold millContexts
  simp only [List.mem_map, List.mem_range]
  constructor
  · rintro ⟨i, -, rfl⟩
    exact ⟨(p + i) % 16, by omega, rfl⟩
  · rintro ⟨j, hj, rfl⟩
    exact ⟨(j + 16 - p) % 16, by omega, by omega⟩

/-- With no work in the mill, a cycle zeroes its deficits, and the pointer comes round to where it stood. -/
theorem arbiterCycle_idle {s : State} {m : Nat} (hp : (s.mill m).pointer < 16) (hidle : ∀ g ∈ millContexts m, s.hasWork g = false) : ∃ ag,
    s.arbiterCycle m = { s with agents := ag }.setMill m { s.mill m with fresh := true } ∧
    ∀ g, State.ctx { s with agents := ag } g = if g ∈ millContexts m then { s.ctx g with deficit := 0 } else s.ctx g := by
  have hstart : Swept s m 0 s := ⟨⟨_, _, rfl⟩, fun _ => rfl, fun h => absurd rfl h, by
    rw [Nat.add_zero, Nat.mod_eq_of_lt hp]; simp, fun g => (if_neg (by simp)).symm⟩
  have hslots : s.issueSlots m ≠ 0 := by unfold State.issueSlots; dsimp only; omega
  have hswept := arbitrate_idle hslots (fun i => hidle _ (by simp [millContexts]; omega)) (17 * s.issueSlots m) 16 0 rfl s hstart
  rw [Nat.add_comm 16] at hswept
  change Swept s m 16 (s.arbiterCycle m) at hswept
  generalize s.arbiterCycle m = u at hswept
  obtain ⟨⟨ag, ml, rfl⟩, -, hmills, hmill, hctx⟩ := hswept
  refine ⟨ag, ?_, fun g => (hctx g).trans (if_congr (mem_millContexts hp) rfl rfl)⟩
  have hml : ml = s.mills.put m { s.mill m with fresh := true } := by
    refine (hmills (by decide)).trans ?_
    rw [hmill, Nat.add_mod_right, Nat.mod_eq_of_lt hp]
    simp
  rw [hml]
  rfl

/-! ### One slot -/

/-- A mill with one slot left, or one lane group in service, issues one element group a cycle. -/
theorem issueSlots_one {s : State} {m : Nat}
    (h : (s.mill m).slots = some 1 ∨ ((List.range 16).filter fun i => (s.mill m).lgmask.getLsbD i).length ≤ 1) : s.issueSlots m = 1 := by
  unfold State.issueSlots
  dsimp only
  have hmin : min ((List.range 16).filter fun i => bitAt (s.mill m).lgmask i).length
      ((s.mill m).slots.getD ((List.range 16).filter fun i => bitAt (s.mill m).lgmask i).length) ≤ 1 := by
    rcases h with h | h
    · rw [h]
      exact Nat.min_le_right _ _
    · exact (Nat.min_le_left _ _).trans h
  omega

theorem modMill_modMill (s : State) (m : Nat) (g h : Mill → Mill) : (s.modMill m g).modMill m h = s.modMill m fun x => h (g x) := by
  unfold State.modMill
  rw [mill_setMill_same]
  unfold State.setMill
  rw [put_put]

theorem arbiterCycle_issues {s t : State} {m : Nat} (h1 : s.issueSlots m = 1) (ht : s.issueOne (16 * m + (s.mill m).pointer) = .ok t) :
    let g := 16 * m + (s.mill m).pointer
    let d := (s.ctx g).deficit + (if (s.mill m).fresh then 4 * (s.ctx g).share else 0) - 1
    s.arbiterCycle m = (t.setCtx g { t.ctx g with deficit := d }).setMill m
      { t.mill m with fresh := decide (d = 0), pointer := if d = 0 then ((t.mill m).pointer + 1) % 16 else (t.mill m).pointer } := by
  intro g d
  unfold State.arbiterCycle
  rw [h1]
  dsimp only
  unfold State.arbitrate
  rw [if_neg (by decide)]
  dsimp only
  rw [ht]
  dsimp only
  have hover : ∀ u, State.arbitrate m 32 (1 - 1) 0 u = u := fun u => by
    unfold State.arbitrate
    rw [if_pos (by decide)]
  refine (hover _).trans ?_
  change (if d = 0 then _ else _) = _
  by_cases hd : d = 0
  · rw [if_pos hd, decide_eq_true hd, if_pos hd]
    exact modMill_modMill ..
  · rw [if_neg hd, decide_eq_false hd, if_neg hd]
    rfl

end Sys2Proof.Proofs
end

section
/-! SUPPORT. The events of contexts and of stream ports that go on by themselves (R122, R138, R173, R231, R265, R276). -/

namespace Sys2Proof.Proofs

open Sys2Proof Sys2Proof.Machine Sys2Proof.Laws Sys2Proof.Safety

/-! ### Waits -/

theorem acts_of {s : State} {f : Nat} (h : (s.ctx f).life = .running ∧ s.asleep = false ∧ dieOf f ∉ s.fenced) : s.acts f = true := by
  obtain ⟨hlife, hasleep, hfenced⟩ := h
  simp [State.acts, hlife, hasleep, hfenced]

theorem endWait_of {s : State} {f : Nat} {w : Wait} (h : s.acts f = true) (hw : (s.ctx f).wait = some w) :
    s.endWait f = if s.waitOver f w then s.setCtx f { s.ctx f with wait := none } else s := by
  unfold State.endWait
  rw [hw]
  dsimp only
  rw [h, Bool.true_and]
  rfl

theorem waitOver_counter {s : State} {f n : Nat} {v : Dword} (h : v ≤ s.counter (bayOf f) (s.partOf f) n) : s.waitOver f (.counter n v) = true := by
  show (decide (v ≤ s.counter (bayOf f) (s.partOf f) n) || _) = true
  rw [decide_eq_true h, Bool.true_or]

theorem sleepExpiry_of {s : State} {f : Nat} {t : Dword} (h : s.acts f = true) (hw : (s.ctx f).wait = some (.sleep t)) :
    exec (.sleepExpiry f) s = .next (if t ≤ s.gtime then s.setCtx f { s.ctx f with wait := none } else s) := by
  show Host.Outcome.next _ = _
  rw [hw]
  dsimp only
  rw [h, Bool.true_and]
  exact congrArg _ (if_congr decide_eq_true_iff rfl rfl)

/-! ### A vfetch whose threads have ended -/

theorem popEntry_alone {c : Ctx} {e : VqEntry} (hq : c.vq = [e]) (hd : c.debugReq = 0) (hw : c.wait ≠ some .brk) :
    (Ctx.popEntry { c with blocks := none }).vretire = { c with
      blocks := none, vq := [], vstart := 0, instret := c.instret + 1, order := [], convoyLeft := 0, convoyHead := 0, convoyCount := 0 } := by
  simp [Ctx.popEntry, Ctx.vretire, Ctx.behind, hq, hd, hw]

theorem endBlocks_over {s : State} {f : Nat} {b : Blocks} {e : VqEntry} (hacts : s.acts f = true) (hlate : (s.ctx f).late = none)
    (hd : (s.ctx f).debugReq = 0) (hw : (s.ctx f).wait ≠ some .brk) (hsample : bitAt (s.reg (.cx (s.partOf f)) 0x60) 63 = false)
    (hq : (s.ctx f).vq = [e]) (hb : (s.ctx f).blocks = some b) (hover : ∀ t ∈ b.threads, t.live = false) :
    s.endBlocks f = (s.modMill (millOf f) fun x => { x with samples := x.samples + 1 }).setCtx f { s.ctx f with
      blocks := none, vq := [], vstart := 0, instret := (s.ctx f).instret + 1, order := [], convoyLeft := 0, convoyHead := 0,
      convoyCount := 0 } := by
  have hall : s.blocksOver f = true := by
    unfold State.blocksOver
    rw [hb]
    simpa using hover
  have hgo : (s.acts f && (s.ctx f).late.isNone && s.blocksOver f) = true := by
    rw [hacts, hlate, hall]
    rfl
  unfold State.endBlocks
  rw [hq]
  dsimp only
  rw [if_pos hgo, sample_off _ _ hsample]
  exact congrArg (State.setCtx _ f) (popEntry_alone hq hd hw)

/-! ### A member of OP 0x1E -/

/-- The instruction i, at the head of a queue, takes place as `apply` says. -/
structure IsConfig (i : Instr) (apply : VqEntry → Ctx → Ctx) : Prop where
  meaning : ∀ s : State, vectorMeaning i s = exec i s
  runs : ∀ (s : State) (f : Nat), exec i { s with cur := .entry f 0 } = .next (State.runConfig apply f { s with cur := .entry f 0 })
  keeps : ∀ e c, KeepsQueue c (apply e c)
  grants : (∃ d a w, i = .setvl d a w) ∨ (∃ d a b k, i = .setvlB d a b k) → ∀ e c,
    (apply e c).vl = e.grant ∧ (apply e c).vpad = e.pad ∧ (apply e c).vstart = 0

theorem isConfig_vconfigImm (d : BitVec 5) (k : BitVec 11) : IsConfig (.vconfigImm d k) (vconfigApply fun _ => configFields true k.toNat) :=
  ⟨fun _ => rfl, fun _ _ => rfl, keepsQueue_vconfigApply _, by simp⟩

theorem isConfig_vconfigReg (d a : BitVec 5) : IsConfig (.vconfigReg d a) (vconfigApply fun e => configFields false e.sa.toNat) :=
  ⟨fun _ => rfl, fun _ _ => rfl, keepsQueue_vconfigApply _, by simp⟩

theorem isConfig_vtag (k : BitVec 2) (v : BitVec 6) (t : BitVec 4) : IsConfig (.vtag k v t) fun _ c => c :=
  ⟨fun _ => rfl, fun _ _ => rfl, fun _ c => .refl c, by simp⟩

theorem isConfig_vcarrySet (o : BitVec 2) (n : BitVec 5) : IsConfig (.vcarrySet o n) fun _ c => c :=
  ⟨fun _ => rfl, fun _ _ => rfl, fun _ c => .refl c, by simp⟩

theorem isConfig_vcarryReg (a : BitVec 5) : IsConfig (.vcarryReg a) fun _ c => c :=
  ⟨fun _ => rfl, fun _ _ => rfl, fun _ c => .refl c, by simp⟩

theorem isConfig_setvl (d a : BitVec 5) (w : BitVec 2) : IsConfig (.setvl d a w) fun e c => applyGrant e.grant e.pad w.toNat c :=
  ⟨fun _ => rfl, fun _ _ => rfl, fun _ _ => keepsQueue_applyGrant .., fun _ _ _ => ⟨rfl, rfl, rfl⟩⟩

theorem isConfig_setvlB (d a : BitVec 5) (k : BitVec 3) (t : BitVec 4) :
    IsConfig (.setvlB d a k t) fun e c => applyGrant e.grant e.pad (Tag.ofCode t.toNat).bytes.log2 c :=
  ⟨fun _ => rfl, fun _ _ => rfl, fun _ _ => keepsQueue_applyGrant .., fun _ _ _ => ⟨rfl, rfl, rfl⟩⟩

/-- Every instruction of OP 0x1E is one of the seven. -/
theorem isConfig_of_decode {w : Word} {i : Instr} (hop : bitsAt w 26 6 = 0x1E) (h : decodeVector w = .ok i) : ∃ apply, IsConfig i apply := by
  rw [show decodeVector w = decode1E w by unfold decodeVector; rw [hop]; rfl] at h
  unfold decode1E at h
  split at h
  · split at h
    · cases h; exact ⟨_, isConfig_vconfigImm ..⟩
    · split at h
      · cases h; exact ⟨_, isConfig_vconfigReg ..⟩
      · cases h
  · split at h
    · cases h; exact ⟨_, isConfig_vtag ..⟩
    · cases h
  · split at h
    · cases h; exact ⟨_, isConfig_setvl ..⟩
    · cases h
  · split at h
    · cases h; exact ⟨_, isConfig_setvlB ..⟩
    · cases h
  · split at h
    · cases h; exact ⟨_, isConfig_vcarrySet ..⟩
    · split at h
      · cases h; exact ⟨_, isConfig_vcarryReg ..⟩
      · cases h
  · cases h

theorem applyHead_config {s : State} {f : Nat} {e : VqEntry} {rest : List VqEntry} {i : Instr} {apply : VqEntry → Ctx → Ctx} (hacts : s.acts f = true)
    (hlate : (s.ctx f).late = none) (hd : (s.ctx f).debugReq = 0) (hq : (s.ctx f).vq = e :: rest) (hop : bitsAt e.word 26 6 = 0x1E)
    (hi : decodeVector e.word = .ok i) (h : IsConfig i apply) :
    s.applyHead f = State.runConfig apply f { s with cur := .entry f 0 } := by
  have hbarred : (s.ctx f).barred = false := by simp [Ctx.barred, hd]
  unfold State.applyHead
  dsimp only
  rw [hq]
  dsimp only
  rw [hacts, hlate, hbarred, show opOf e.word = 0x1E from hop]
  refine (if_pos rfl).trans ?_
  unfold State.issueEntry
  rw [hq]
  show (match decodeVector e.word with | .ok i => _ | .error _ => s) = _
  rw [hi]
  dsimp only
  rw [h.meaning, h.runs]
  rfl

theorem grantApply_config {s : State} {f : Nat} {e : VqEntry} {rest : List VqEntry} {i : Instr} (hacts : s.acts f = true)
    (hlate : (s.ctx f).late = none) (hd : (s.ctx f).debugReq = 0) (hq : (s.ctx f).vq = e :: rest) (hop : bitsAt e.word 26 6 = 0x1E)
    (hi : decodeVector e.word = .ok i) :
    ∃ t, exec (.grantApply f) s = .next t ∧ exec i { s with cur := .entry f 0 } = .next t ∧
      (t.ctx f).vq.map (·.word) = rest.map (·.word) ∧ (t.ctx f).instret = (s.ctx f).instret + 1 ∧
      ((∃ d a w, i = .setvl d a w) ∨ (∃ d a b k, i = .setvlB d a b k) →
        (t.ctx f).vl = e.grant ∧ (t.ctx f).vpad = e.pad ∧ (t.ctx f).vstart = 0) ∧
      (∀ g, g ≠ f → t.ctx g = s.ctx g) ∧ t.dev = s.dev ∧ t.scr = s.scr ∧ t.regs = s.regs := by
  obtain ⟨apply, h⟩ := isConfig_of_decode hop hi
  obtain ⟨x, hx, hwords, hinstret, hvl, hpad, hst⟩ :=
    runConfig_head (f := f) (s := { s with cur := .entry f 0 }) (apply := apply) hq (h.keeps e)
  refine ⟨_, congrArg Host.Outcome.next (applyHead_config hacts hlate hd hq hop hi h), h.runs s f, ?_⟩
  rw [hx, ctx_setCtx_same]
  refine ⟨hwords, hinstret, fun hg => ?_, fun g hg => ctx_setCtx_other _ _ _ _ hg, rfl, rfl, rfl⟩
  obtain ⟨hvl', hpad', hst'⟩ := h.grants hg e (underConfig e (s.ctx f))
  exact ⟨hvl.trans hvl', hpad.trans hpad', hst.trans hst'⟩

/-! ### The binding in force at a port -/

section Port

variable {s : State} {m p : Nat} {b : Binding} {rest : List Binding} (hport : s.port m p = b :: rest) (hasleep : s.asleep = false)
  (hlive : s.streamLive b = true)

include hport hasleep hlive

/-- With no access queued before it that it may meet, a binding starts unless one of its owner's own holds it. -/
theorem startBinding_alone (hs : b.started = false) (ha : b.after = []) :
    s.startBinding m p = if State.streamHeld (s.ctx b.flat) b.q then s else s.setPort m p ({ b with started := true } :: rest) := by
  have hafter : s.afterOthers b = true := by
    unfold State.afterOthers
    rw [ha]
    rfl
  unfold State.startBinding
  rw [hport]
  dsimp only
  rw [hasleep, hlive, State.canStart, hs, hafter]
  cases State.streamHeld (s.ctx b.flat) b.q <;> rfl

omit hport hasleep hlive in
theorem elementBusy_ok {j : Nat} {l : Loc} (hl : s.streamLoc b j = .ok l) : s.elementBusy b j = s.locBusy l := by
  unfold State.elementBusy
  rw [hl]

omit hport hasleep hlive in
theorem performWrite_ok {j v : Nat} {l : Loc} (hl : s.streamLoc b j = .ok l) : s.performWrite b j v = s.store l (View.size b.desc) v := by
  unfold State.performWrite
  rw [hl]

omit hport hasleep hlive in
theorem performWrite_error {j v : Nat} {t : Trap} (hl : s.streamLoc b j = .error t) : s.performWrite b j v =
    s.setCtx b.flat { s.ctx b.flat with xfail := (s.ctx b.flat).xfail ++ [⟨0, t.faddr⟩] } := by
  unfold State.performWrite
  rw [hl]
  rfl

/-- With a held write, moving an element performs it, once the stack where it lands is ready. -/
theorem moveElement_held {j v : Nat} {more : List (Nat × Nat)} (hs : b.started = true) (hp : b.pend = (j, v) :: more) :
    s.moveElement m p = if s.elementBusy b j then s else (s.setPort m p ({ b with pend := more } :: rest)).performWrite b j v := by
  unfold State.moveElement
  rw [hport]
  dsimp only
  rw [if_neg (by simp [hasleep, hlive, hs]), if_pos (by simp [hp])]
  have hperform : s.performPending m p b rest = (s.setPort m p ({ b with pend := more } :: rest)).performWrite b j v := by
    unfold State.performPending
    rw [hp]
  rw [hperform, hp]
  rfl

/-- With room and an element left, moving an element fetches it. -/
theorem moveElement_read {l : Loc} (hs : b.started = true) (hp : b.pend = []) (hw : b.write = false) (hd : b.device = false)
    (hroom : b.buf.length < Binding.room b) (hcount : b.base + b.buf.length < View.count b.desc) (hm : m = millOf b.flat)
    (hrest : ∀ x ∈ rest, ¬ (x.flat = b.flat ∧ x.q = b.q)) (hl : s.streamLoc b (b.base + b.buf.length) = .ok l)
    (hready : s.locBusy l = false) : s.moveElement m p =
      s.setPort m p ({ b with buf := b.buf ++ [s.load l (View.size b.desc)], top := b.base + b.buf.length + 1 } :: rest) := by
  have hfetch : State.canFetch b = true := by
    unfold State.canFetch
    rw [hs, hw, hd, decide_eq_true hroom, decide_eq_true hcount]
    rfl
  have hbusy : s.elementBusy b (b.base + b.buf.length) = false := by
    unfold State.elementBusy
    rw [hl]
    exact hready
  have hothers : ∀ r : StreamReg, r.owner = b.flat → ∀ g : Binding → Binding,
      rest.map (fun x => if Binding.isOf x r b.q then g x else x) = rest := by
    intro r hr g
    refine (List.map_congr_left fun x hx => if_neg ?_).trans (List.map_id _)
    have := hrest x hx
    rw [← hr] at this
    simpa [Binding.isOf] using this
  unfold State.moveElement
  rw [hport]
  dsimp only
  rw [hasleep, hlive, hs, hp, hfetch, hbusy]
  refine (if_neg (by decide)).trans ((if_neg (by decide)).trans ((if_pos (by decide)).trans ?_))
  unfold State.fetchNext
  dsimp only
  rw [hd, Bool.false_and, if_neg Bool.false_ne_true, hl]
  dsimp only
  unfold State.modBinding
  dsimp only
  rw [← hm, hport, List.map_cons, hothers _ rfl, if_pos (by simp [Binding.isOf]), hs, hp, hd]

end Port

end Sys2Proof.Proofs
end

section
/-! PROOF. Waits, ports and the arbiter go on (R122, R138, R173, R231, R265, R273, R274, R276). -/

namespace Sys2Proof.Proofs

open Sys2Proof Sys2Proof.Machine Sys2Proof.Laws Sys2Proof.Safety

/-- Settles O49, event by event: a port's by what its front binding holds, and a grant by the instruction at the queue's head. -/
theorem waitsPortsAndArbitersGoOn : Obligations.WaitsPortsAndArbitersGoOn := by
  unfold Obligations.WaitsPortsAndArbitersGoOn
  intro s f m p c acts
  refine ⟨fun h w hw => congrArg _ (endWait_of (acts_of h) hw), fun h n v hw hv => ?_, fun h t ht => sleepExpiry_of (acts_of h) ht,
    fun h hlate hd hw hsample b e hq hb hover => congrArg _ (endBlocks_over (acts_of h) hlate hd hw hsample hq hb hover),
    fun h hlate hd e rest i hq hop hi => grantApply_config (acts_of h) hlate hd hq hop hi,
    fun b rest hport hasleep hlive => ⟨fun hs ha => congrArg _ (startBinding_alone hport hasleep hlive hs ha), fun hs j v more hp => ?_,
      fun hs hp hw hd hroom hcount hm hrest l hl hready =>
        congrArg _ (moveElement_read hport hasleep hlive hs hp hw hd hroom hcount hm hrest hl hready)⟩,
    fun hm hp => ⟨fun hidle => ?_, fun hslots => ?_⟩⟩
  case refine_1 =>
    refine congrArg Host.Outcome.next ((endWait_of (acts_of h) hw).trans (if_pos ?_))
    exact waitOver_counter hv
  case refine_2 =>
    have hmove := moveElement_held hport hasleep hlive hs hp
    intro u
    have hloc : u.streamLoc b j = s.streamLoc b j := streamLoc_elsewhere (ms := u.mills) (as := s.agents) rfl b j
    refine ⟨fun l hl hbusy => congrArg _ (hmove.trans (if_pos ?_)), fun l hl hready => congrArg _ (hmove.trans ((if_neg ?_).trans ?_)),
      fun t ht => congrArg _ (hmove.trans ((if_neg ?_).trans ?_))⟩
    · rw [elementBusy_ok hl, hbusy]
    · rw [elementBusy_ok hl, hready]
      exact Bool.false_ne_true
    · exact performWrite_ok (hloc.trans hl)
    · rw [State.elementBusy, ht]
      exact Bool.false_ne_true
    · exact performWrite_error (hloc.trans ht)
  case refine_3 =>
    obtain ⟨ag, hcycle, hctx⟩ := arbiterCycle_idle hp hidle
    refine ⟨ag, ?_, hctx⟩
    exact (congrArg Host.Outcome.next (if_pos hm)).trans (congrArg _ hcycle)
  case refine_4 =>
    intro g t ht
    exact (congrArg Host.Outcome.next (if_pos hm)).trans (congrArg _ (arbiterCycle_issues (issueSlots_one hslots) ht))

end Sys2Proof.Proofs
end

section
/-! SUPPORT. An issue group of element threads executes a block instruction, one member after another (R267 to R269). -/

namespace Sys2Proof.Proofs

open Sys2Proof Sys2Proof.Machine Sys2Proof.Laws Sys2Proof.Safety

/-! ### The threads of a block, found by their elements -/

/-- The threads of a `vfetch`, each changed by F. -/
def Blocks.mapped (b : Blocks) (F : EThread → EThread) : Blocks := { b with threads := b.threads.map F }

/-- What a member of an issue group leaves of the threads: F, and its own record t. -/
def updated (F : EThread → EThread) (m t : EThread) (x : EThread) : EThread := if x = m then t else F x

theorem elem_injective {ts : List EThread} (h : (ts.map (·.elem)).Pairwise (· < ·)) {x y : EThread} (hx : x ∈ ts) (hy : y ∈ ts) (he : x.elem = y.elem) :
    x = y :=
  List.inj_on_of_nodup_map (h.imp Nat.ne_of_lt) hx hy he

theorem find_mapped {ts : List EThread} {F : EThread → EThread} (h : (ts.map (·.elem)).Pairwise (· < ·)) (hF : ∀ x, (F x).elem = x.elem)
    {m : EThread} (hm : m ∈ ts) : (ts.map F).find? (fun t => t.elem = m.elem) = some (F m) := by
  rw [List.find?_map]
  have hfind : ts.find? ((fun t => decide (t.elem = m.elem)) ∘ F) = some m := by
    cases hf : ts.find? ((fun t => decide (t.elem = m.elem)) ∘ F) with
    | none => exact absurd (List.find?_eq_none.1 hf m hm) (by simp [hF])
    | some x =>
      have hx := List.find?_some hf
      simp only [Function.comp_apply, hF, decide_eq_true_eq] at hx
      rw [elem_injective h (List.mem_of_find?_eq_some hf) hm hx]
  rw [hfind]
  rfl

theorem set_mapped {b : Blocks} {F : EThread → EThread} (h : (b.threads.map (·.elem)).Pairwise (· < ·)) (hF : ∀ x, (F x).elem = x.elem)
    {m t : EThread} (hm : m ∈ b.threads) (ht : t.elem = m.elem) : (Blocks.mapped b F).set t = Blocks.mapped b (updated F m t) := by
  unfold Blocks.set Blocks.mapped
  simp only [List.map_map]
  congr 1
  refine List.map_congr_left fun x hx => ?_
  simp only [Function.comp_apply, hF, updated, ht]
  exact if_congr ⟨elem_injective h hx hm, congrArg _⟩ rfl rfl

/-- The thread before an element, its record changed as the others are. -/
theorem predecessor_mapped {ts : List EThread} {F : EThread → EThread} (hF : ∀ x, (F x).elem = x.elem) (e : Nat) :
    State.predecessor (ts.map F) e = (State.predecessor ts e).map F := by
  unfold State.predecessor
  rw [List.filter_map, List.getLast?_map]
  simp only [Function.comp_def, hF]

/-- The thread behind an element, its record changed as the others are. -/
theorem successor_mapped {ts : List EThread} {F : EThread → EThread} (hF : ∀ x, (F x).elem = x.elem) (e : Nat) :
    State.successor (ts.map F) e = (State.successor ts e).map F := by
  unfold State.successor
  rw [List.find?_map]
  simp only [Function.comp_def, hF]

/-! ### The course of an issue group -/

theorem setThread_setCtx {s : State} {f : Nat} {x : Ctx} {b : Blocks} (t : EThread) (hb : x.blocks = some b) :
    (s.setCtx f x).setThread f t = s.setCtx f { x with blocks := some (b.set t) } := by
  unfold State.setThread
  rw [modCtx_setCtx, hb]
  rfl

theorem nextWord_setCtx {s : State} {f : Nat} {x : Ctx} {b : Blocks} {t : EThread} (hb : x.blocks = some b) (hoff : t.off % 128 ≠ 124) :
    nextWord f t (s.setCtx f x) = .ok (s.setCtx f { x with blocks := some (b.set { t with off := t.off + 4 }) }) := by
  unfold nextWord
  rw [if_neg hoff, setThread_setCtx _ hb]

/-- `R l` is the context once the members l have executed. Where each member leads from one to the next, all of them lead to the last. -/
theorem blockMembers_run {s : State} {f off : Nat} {k : Blocks → EThread → Ctx → State → Except Trap State} {R : List EThread → Ctx} {b : Blocks}
    {F : List EThread → EThread → EThread} {ms : List EThread} (hsort : (b.threads.map (·.elem)).Pairwise (· < ·)) (hmem : ∀ m ∈ ms, m ∈ b.threads)
    (hF : ∀ l x, (F l x).elem = x.elem) (hblocks : ∀ l, (R l).blocks = some (Blocks.mapped b (F l)))
    (hstep : ∀ l m rest, ms = l ++ m :: rest → k (Blocks.mapped b (F l)) (F l m) (R l) (s.setCtx f (R l)) = .ok (s.setCtx f (R (l ++ [m])))) :
    blockMembers f off k (ms.map (·.elem)) (s.setCtx f (R [])) = s.setCtx f (R ms) := by
  suffices h : ∀ l r, ms = l ++ r → blockMembers f off k (r.map (·.elem)) (s.setCtx f (R l)) = s.setCtx f (R ms) from h [] ms rfl
  intro l r
  induction r generalizing l with
  | nil =>
    intro h
    rw [h, List.append_nil]
    rfl
  | cons m r ih =>
    intro h
    have hfind := find_mapped hsort (hF l) (hmem m (h ▸ List.mem_append_right _ List.mem_cons_self))
    rw [List.map_cons]
    unfold blockMembers
    simp only [ctx_setCtx_same, hblocks]
    rw [show (Blocks.mapped b (F l)).threads = b.threads.map (F l) from rfl, hfind]
    dsimp only
    rw [hstep l m r h]
    exact ih (l ++ [m]) (by rw [h, List.append_assoc, List.singleton_append])

section Group

variable {s : State} {f off : Nat} {b : Blocks} {ms : List EThread}

theorem blockInstr_group {ns : List Nat} {tagBad : Ctx → Bool} {k : Nat → Blocks → EThread → Ctx → State → Except Trap State} (hcur : s.cur = .group f)
    (hb : (s.ctx f).blocks = some b) (hg : s.issueGroup f b = (off, ms))
    (hchecks : firstTrap [((s.ctx f).badGroups ns, .operand), ((s.ctx f).untagged ns || tagBad (s.ctx f), .tag)] = none) :
    blockInstr ns tagBad k s =
      if (s.ctx f).slotted + 1 < State.groupSlots (256 / (s.ctx f).widestIn ns) (ms.map (·.elem)) then
        s.setCtx f { s.ctx f with slotted := (s.ctx f).slotted + 1 }
      else blockMembers f off (k f) (ms.map (·.elem)) (s.setCtx f { s.ctx f with slotted := 0 }) := by
  have hexec : blockInstr ns tagBad k s = s.withSlots f (State.groupSlots (256 / (s.ctx f).widestIn ns) (ms.map (·.elem)))
      (blockMembers f off (k f) (ms.map (·.elem))) := by
    unfold blockInstr
    rw [hcur]
    dsimp only
    rw [hb]
    dsimp only
    rw [hchecks]
    dsimp only
    rw [hg]
  rw [hexec]
  rfl

/-- The members of an issue group, in the order of their elements, at its offset. -/
theorem issueGroup_members (hg : s.issueGroup f b = (off, ms)) : ms.Sublist b.threads ∧ ∀ t ∈ ms, t.off = off := by
  obtain ⟨rfl, rfl⟩ := Prod.mk.inj hg
  exact ⟨List.filter_sublist.trans List.filter_sublist, fun t ht => by simpa using (List.mem_filter.1 ht).2⟩

end Group

/-- The course of a block instruction with w-byte elements: a slot is counted while not all have been received, and then `r` is the context. -/
def BlockCourse (s : State) (f : Nat) (ms : List EThread) (u : State) (w : Nat) (r : Ctx) : Prop :=
  u = s.setCtx f (if (s.ctx f).slotted + 1 < (ms.map fun t => t.elem / (256 / w)).eraseDups.length then
    { s.ctx f with slotted := (s.ctx f).slotted + 1 } else r)

/-- Thread f's issue group is `ms`, at the offset `off` of its block. -/
structure GroupTurn (s : State) (f : Nat) (b : Blocks) (off : Nat) (ms : List EThread) : Prop where
  cur : s.cur = .group f
  blocks : (s.ctx f).blocks = some b
  group : s.issueGroup f b = (off, ms)
  sorted : (b.threads.map (·.elem)).Pairwise (· < ·)

namespace GroupTurn

variable {s : State} {f off : Nat} {b : Blocks} {ms : List EThread}

theorem mem (h : GroupTurn s f b off ms) {m : EThread} (hm : m ∈ ms) : m ∈ b.threads := (issueGroup_members h.group).1.subset hm

theorem at_off (h : GroupTurn s f b off ms) {m : EThread} (hm : m ∈ ms) : m.off = off := (issueGroup_members h.group).2 m hm

/-- The members that have executed stand before the one that executes. -/
theorem elem_lt (h : GroupTurn s f b off ms) {l rest : List EThread} {m t : EThread} (hms : ms = l ++ m :: rest) (ht : t ∈ l) : t.elem < m.elem := by
  have hsort : (ms.map (·.elem)).Pairwise (· < ·) := h.sorted.sublist ((issueGroup_members h.group).1.map _)
  rw [hms, List.map_append, List.pairwise_append] at hsort
  exact hsort.2.2 _ (List.mem_map_of_mem ht) _ (by simp)

theorem not_mem (h : GroupTurn s f b off ms) {l rest : List EThread} {m : EThread} (hms : ms = l ++ m :: rest) : m ∉ l :=
  fun hm => Nat.lt_irrefl _ (h.elem_lt hms hm)

/-- A block instruction whose checks pass, and whose members lead from R [] to R ms. -/
theorem course (h : GroupTurn s f b off ms) {ns : List Nat} {tagBad : Ctx → Bool} {k : Nat → Blocks → EThread → Ctx → State → Except Trap State}
    {R : List EThread → Ctx} {F : List EThread → EThread → EThread}
    (hchecks : firstTrap [((s.ctx f).badGroups ns, .operand), ((s.ctx f).untagged ns || tagBad (s.ctx f), .tag)] = none)
    (hstart : R [] = { s.ctx f with slotted := 0 }) (hF : ∀ l x, (F l x).elem = x.elem)
    (hblocks : ∀ l, (R l).blocks = some (Blocks.mapped b (F l)))
    (hstep : ∀ l m rest, ms = l ++ m :: rest → k f (Blocks.mapped b (F l)) (F l m) (R l) (s.setCtx f (R l)) = .ok (s.setCtx f (R (l ++ [m])))) :
    BlockCourse s f ms (blockInstr ns tagBad k s) ((s.ctx f).widestIn ns) (R ms) := by
  unfold BlockCourse
  rw [blockInstr_group h.cur h.blocks h.group hchecks, ← hstart,
    blockMembers_run h.sorted (fun _ hm => h.mem hm) hF hblocks hstep]
  unfold State.groupSlots
  rw [List.map_map]
  exact (apply_ite (s.setCtx f) _ _ _).symm

/-- The context once the members l have been changed by u, and nothing else. -/
def movedBy (s : State) (f : Nat) (b : Blocks) (u : EThread → EThread) (l : List EThread) : Ctx :=
  { s.ctx f with slotted := 0, blocks := some (Blocks.mapped b fun t => if t ∈ l then u t else t) }

theorem mapped_nil (h : GroupTurn s f b off ms) (u : EThread → EThread) : movedBy s f b u [] = { s.ctx f with slotted := 0 } := by
  unfold movedBy Blocks.mapped
  simp only [List.not_mem_nil, if_false, List.map_id']
  rw [← h.blocks]

theorem updated_member {u : EThread → EThread} {l : List EThread} {m : EThread} :
    updated (fun t => if t ∈ l then u t else t) m (u m) = fun t => if t ∈ l ++ [m] then u t else t := by
  funext x
  by_cases hx : x = m
  · simp [updated, hx]
  · simp [updated, hx]

/-- An instruction that changes each member's record by u, and nothing else. -/
theorem course_moved (h : GroupTurn s f b off ms) {ns : List Nat} {tagBad : Ctx → Bool} {k : Nat → Blocks → EThread → Ctx → State → Except Trap State}
    {u : EThread → EThread} (hchecks : firstTrap [((s.ctx f).badGroups ns, .operand), ((s.ctx f).untagged ns || tagBad (s.ctx f), .tag)] = none)
    (hu : ∀ t, (u t).elem = t.elem)
    (hstep : ∀ B m x, m.off = off → x.code = (s.ctx f).code → x.vtag = (s.ctx f).vtag → x.bits = (s.ctx f).bits → x.blocks = some B →
      k f B m x (s.setCtx f x) = .ok (s.setCtx f { x with blocks := some (B.set (u m)) })) :
    BlockCourse s f ms (blockInstr ns tagBad k s) ((s.ctx f).widestIn ns) (movedBy s f b u ms) := by
  have hF : ∀ (l : List EThread) (t : EThread), (if t ∈ l then u t else t).elem = t.elem := by
    intro l t
    split
    · exact hu t
    · rfl
  refine h.course hchecks (h.mapped_nil u) hF (fun _ => rfl) fun l m rest hms => ?_
  have hm : m ∈ ms := hms ▸ List.mem_append_right _ List.mem_cons_self
  rw [if_neg (h.not_mem hms), hstep _ m (movedBy s f b u l) (h.at_off hm) rfl rfl rfl rfl, set_mapped h.sorted (hF l) (h.mem hm) (hu m), updated_member]
  rfl

end GroupTurn

end Sys2Proof.Proofs
end

section
/-! SUPPORT. The block instructions of an issue group (R267, R268). -/

namespace Sys2Proof.Proofs

open Sys2Proof Sys2Proof.Machine Sys2Proof.Laws Sys2Proof.Safety

/-! ### Checks and values -/

theorem checks_none {c : Ctx} : firstTrap [(c.badGroups [], .operand), (c.untagged [] || false, .tag)] = none := rfl

theorem checks_one {c : Ctx} {a : BitVec 6} {bad : Bool} (hok : c.groupOk a.toNat = true) (htag : c.tagOf a ≠ .none) (hbad : bad = false) :
    firstTrap [(c.badGroups [a.toNat], .operand), (c.untagged [a.toNat] || bad, .tag)] = none := by
  have htag' : c.tag a.toNat ≠ .none := htag
  simp [firstTrap, Ctx.badGroups, Ctx.untagged, hok, htag', hbad]

theorem widestIn_one (c : Ctx) (a : BitVec 6) : c.widestIn [a.toNat] = (c.tagOf a).bytes := by
  show max 1 (c.tagOf a).bytes = _
  cases c.tagOf a <;> rfl

theorem bits_lt (c : Ctx) (n i : Nat) : c.bits n i < 2 ^ (c.tag n).width := by
  unfold Ctx.bits Ctx.elem
  split
  · exact bitsAt_lt _ _ _
  · exact Nat.two_pow_pos _

/-- An integer element is zero when all its bits are. -/
theorem readInt_eq_zero {t : Tag} {v : Nat} (hv : v < 2 ^ t.width) : t.readInt v = 0 ↔ v = 0 := by
  have hhalf : 0 < 2 ^ (t.width - 1) := Nat.two_pow_pos _
  unfold Tag.readInt
  dsimp only
  rw [Nat.mod_eq_of_lt hv]
  split
  · exact Int.natCast_eq_zero
  · next hneg =>
    have hge : 2 ^ (t.width - 1) ≤ v := by
      simp only [Bool.or_eq_true, decide_eq_true_eq, not_or, not_lt] at hneg
      exact hneg.2
    constructor
    · intro h
      have hv' : (v : Int) < (2 ^ t.width : Nat) := Int.ofNat_lt.2 hv
      push_cast at hv'
      omega
    · rintro rfl
      omega

/-- Whether an element reads as zero, under an integer or a float tag. -/
def readsZero (c : Ctx) (n e : Nat) : Bool :=
  match (c.tag n).read (c.bits n e) with
  | .int v => v = 0
  | .flt x => x.isZero

theorem elementZero_reads {c : Ctx} {n : Nat} (e : Nat) (hnum : (c.tag n).isNum = true) : elementZero c n e = readsZero c n e := by
  have hlt := bits_lt c n e
  have hval : c.val n e = (c.tag n).read (c.bits n e) := rfl
  have hzero := fun t (h : c.bits n e < 2 ^ t.width) => (readInt_eq_zero (t := t) h)
  unfold elementZero readsZero
  rw [hval]
  generalize c.bits n e = v at hlt hzero
  generalize c.tag n = t at hnum hlt
  cases t with
  | f32 | f64 | f16 | bf16 | d8 => rfl
  | none | d8b | e8 | p32 => exact absurd hnum (by decide)
  | i8 | i16 | i32 | i64 | n8 | n16 | n32 => exact decide_eq_decide.2 (hzero _ hlt).symm

theorem queueTag_carried {t : Tag} (h : t.bytes ≤ 4) : queueTagBad t = false := by
  cases t with
  | f64 | i64 | p32 => exact absurd h (by decide)
  | none | f32 | f16 | bf16 | d8 | d8b | e8 | i8 | i16 | i32 | n8 | n16 | n32 => rfl

/-! ### Instructions that move their members -/

namespace GroupTurn

variable {s : State} {f off : Nat} {b : Blocks} {ms : List EThread}

theorem efetch (h : GroupTurn s f b off ms) {k : BitVec 6} (hk : k.toNat < (s.ctx f).code.nblk) :
    ∃ u, exec (.efetch k) s = .next u ∧
      BlockCourse s f ms u (s.ctx f).eb (movedBy s f b (fun t => { t with off := 128 * k.toNat }) ms) := by
  refine ⟨_, rfl, h.course_moved (ns := []) checks_none (fun _ => rfl) fun B m x _ hcode _ _ hb => ?_⟩
  exact (if_neg (by rw [hcode]; exact Nat.not_le.2 hk)).trans (congrArg Except.ok (setThread_setCtx _ hb))

theorem eend (h : GroupTurn s f b off ms) :
    ∃ u, exec .eend s = .next u ∧ BlockCourse s f ms u (s.ctx f).eb (movedBy s f b (fun t => { t with live := false }) ms) := by
  refine ⟨_, rfl, h.course_moved (ns := []) checks_none (fun _ => rfl) fun B m x _ _ _ _ hb => ?_⟩
  exact congrArg Except.ok (setThread_setCtx _ hb)

/-- Where a branch by o words from `off` leads. -/
def branchTarget (off : Nat) (o : BitVec 6) : Int := (off : Int) + o.toInt * 4

theorem branch (h : GroupTurn s f b off ms) {o a : BitVec 6} (onZero : Bool) (hok : (s.ctx f).groupOk a.toNat = true)
    (hnum : ((s.ctx f).tagOf a).isNum = true) (hd8b : (s.ctx f).tagOf a ≠ .d8b) (hin : branchTarget off o / 128 = off / 128) (hlast : off % 128 ≠ 124) :
    BlockCourse s f ms (blockBranch onZero o a s) ((s.ctx f).tagOf a).bytes
      (movedBy s f b (fun t =>
        { t with off := if readsZero (s.ctx f) a.toNat t.elem = onZero then (branchTarget off o).toNat else off + 4 }) ms) := by
  have htag : (s.ctx f).tagOf a ≠ .none := fun e => by rw [e] at hnum; exact absurd hnum (by decide)
  have hbad : (!((s.ctx f).tagOf a).isNum || decide ((s.ctx f).tagOf a = .d8b)) = false := by simp [hnum, hd8b]
  rw [← widestIn_one]
  refine h.course_moved (checks_one hok htag hbad) (fun _ => rfl) fun B m x hoff _ hvtag hbits hb => ?_
  have hzero : elementZero x a.toNat m.elem = readsZero (s.ctx f) a.toNat m.elem := by
    have htags : x.tag a.toNat = (s.ctx f).tag a.toNat := by unfold Ctx.tag; rw [hvtag]
    rw [elementZero_reads _ (by rw [htags]; exact hnum)]
    unfold readsZero
    rw [htags, hbits]
  have hinside : ¬ ((m.off : Int) + o.toInt * 4).fdiv 128 ≠ m.off / 128 := by
    rw [hoff, Int.fdiv_eq_ediv_of_nonneg _ (by decide), not_not]
    exact hin
  refine (if_neg hinside).trans ?_
  rw [hzero, hoff]
  by_cases hz : readsZero (s.ctx f) a.toNat m.elem = onZero
  · rw [if_pos hz, if_pos hz]
    exact congrArg Except.ok (setThread_setCtx _ hb)
  · rw [if_neg hz, if_neg hz, nextWord_setCtx hb (by rw [hoff]; exact hlast), hoff]

end GroupTurn

end Sys2Proof.Proofs
end

section
/-! SUPPORT. The links between element threads, and the queues at their ends (R268). -/

namespace Sys2Proof.Proofs

open Sys2Proof Sys2Proof.Machine Sys2Proof.Laws Sys2Proof.Safety

/-! ### Neighbours -/

/-- No thread has a higher element. -/
def isLast (b : Blocks) (t : EThread) : Bool := b.threads.all fun x => decide (x.elem ≤ t.elem)

theorem isLast_iff {b : Blocks} {t : EThread} : isLast b t = true ↔ State.successor b.threads t.elem = none := by
  unfold isLast State.successor
  simp

theorem mem_of_predecessor {ts : List EThread} {e : Nat} {p : EThread} (h : State.predecessor ts e = some p) : p ∈ ts ∧ p.elem < e := by
  have hmem := List.mem_of_getLast? h
  simpa using hmem

/-- The thread before an element is the highest below it. -/
theorem le_predecessor {ts : List EThread} (hsort : (ts.map (·.elem)).Pairwise (· < ·)) {e : Nat} {p t : EThread}
    (h : State.predecessor ts e = some p) (ht : t ∈ ts) (hlt : t.elem < e) : t.elem ≤ p.elem := by
  have hmem : t ∈ ts.filter fun t => t.elem < e := by simp [ht, hlt]
  have hsorted : (ts.filter fun t => t.elem < e).Pairwise fun x y => x.elem < y.elem :=
    (List.pairwise_map.1 hsort).sublist List.filter_sublist
  obtain ⟨l, hl⟩ := List.getLast?_eq_some_iff.1 h
  rw [hl] at hmem hsorted
  rcases List.mem_append.1 hmem with hin | hin
  · exact Nat.le_of_lt ((List.pairwise_append.1 hsorted).2.2 t hin p (List.mem_singleton_self p))
  · rw [List.mem_singleton.1 hin]

theorem predecessor_none {ts : List EThread} {e : Nat} {t : EThread} (h : State.predecessor ts e = none) (ht : t ∈ ts) : ¬ t.elem < e := by
  intro hlt
  have hnil := List.getLast?_eq_none_iff.1 h
  exact List.ne_nil_of_mem (show t ∈ ts.filter fun t => t.elem < e by simp [ht, hlt]) hnil

namespace GroupTurn

variable {s : State} {f off : Nat} {b : Blocks} {ms : List EThread}

/-! ### Sending -/

/-- The context with these threads, and XQOUT. -/
def sentCtx (c : Ctx) (B : Blocks) (out : BitVec 33) : Ctx := { c with slotted := 0, blocks := some B, xqout := out }

theorem nextWord_sent {c : Ctx} {B : Blocks} {out : BitVec 33} {t : EThread} (hoff : t.off % 128 ≠ 124) :
    nextWord f t (s.setCtx f (sentCtx c B out)) = .ok (s.setCtx f (sentCtx c (B.set { t with off := t.off + 4 }) out)) :=
  nextWord_setCtx rfl hoff

/-- What xqsend makes of a member. -/
def sends (c : Ctx) (b : Blocks) (n off : Nat) (t : EThread) : EThread :=
  { t with off := off + 4, link := if isLast b t then t.link else some (BitVec.ofNat 32 (c.bits n t.elem)) }

/-- XQOUT once the members l have sent. -/
def sentOut (c : Ctx) (b : Blocks) (n : Nat) (l : List EThread) : BitVec 33 :=
  match l.find? (isLast b) with
  | some t => BitVec.ofNat 33 (2 ^ 32 + c.bits n t.elem)
  | none => c.xqout

theorem sentOut_last (h : GroupTurn s f b off ms) {n : Nat} {l rest : List EThread} {m : EThread} (hms : ms = l ++ m :: rest) (hend : isLast b m = true) :
    sentOut (s.ctx f) b n (l ++ [m]) = BitVec.ofNat 33 (2 ^ 32 + (s.ctx f).bits n m.elem) := by
  have hbefore : l.find? (isLast b) = none := by
    rw [List.find?_eq_none]
    intro t ht hlast
    have hle := List.all_eq_true.1 hlast m (h.mem (hms ▸ List.mem_append_right _ List.mem_cons_self))
    exact absurd (h.elem_lt hms ht) (Nat.not_lt.2 (by simpa using hle))
  unfold sentOut
  rw [List.find?_append, hbefore]
  simp [hend]

theorem sentOut_before {c : Ctx} {n : Nat} {l : List EThread} {m : EThread} (hend : isLast b m = false) :
    sentOut c b n (l ++ [m]) = sentOut c b n l := by
  unfold sentOut
  rw [List.find?_append, List.find?_cons_of_neg (by rw [hend]; exact Bool.false_ne_true)]
  simp

theorem xqsend (h : GroupTurn s f b off ms) {a : BitVec 6} (hok : (s.ctx f).groupOk a.toNat = true) (htag : (s.ctx f).tagOf a ≠ .none)
    (hbytes : ((s.ctx f).tagOf a).bytes ≤ 4) (hlast : off % 128 ≠ 124) (hempty : ∀ t ∈ ms, isLast b t = false → t.link = none) :
    ∃ u, exec (.xqsend a) s = .next u ∧ BlockCourse s f ms u ((s.ctx f).tagOf a).bytes
      { movedBy s f b (sends (s.ctx f) b a.toNat off) ms with xqout := sentOut (s.ctx f) b a.toNat ms } := by
  have hF : ∀ (l : List EThread) (t : EThread), (if t ∈ l then sends (s.ctx f) b a.toNat off t else t).elem = t.elem := by
    intro l t
    split <;> rfl
  rw [← widestIn_one]
  refine ⟨_, rfl, h.course (R := fun l => sentCtx (s.ctx f) (Blocks.mapped b fun t => if t ∈ l then sends (s.ctx f) b a.toNat off t else t)
      (sentOut (s.ctx f) b a.toNat l)) (checks_one hok htag (queueTag_carried hbytes)) (h.mapped_nil _) hF (fun _ => rfl)
    fun l m rest hms => ?_⟩
  have hm : m ∈ ms := hms ▸ List.mem_append_right _ List.mem_cons_self
  have hword : m.off % 128 ≠ 124 := by rw [h.at_off hm]; exact hlast
  have hset := fun t (ht : t.elem = m.elem) => set_mapped (t := t) h.sorted (hF l) (h.mem hm) ht
  rw [if_neg (h.not_mem hms), show (Blocks.mapped b _).threads = b.threads.map _ from rfl, successor_mapped (hF l)]
  dsimp only
  cases hend : isLast b m with
  | true =>
    have hsends : { m with off := m.off + 4 } = sends (s.ctx f) b a.toNat off m := by
      unfold sends
      rw [if_pos hend, h.at_off hm]
    rw [isLast_iff.1 hend, sentOut_last h hms hend]
    dsimp only [Option.map_none]
    rw [modCtx_setCtx]
    refine (nextWord_sent (out := BitVec.ofNat 33 (2 ^ 32 + (s.ctx f).bits a.toNat m.elem)) hword).trans ?_
    rw [hset { m with off := m.off + 4 } rfl]
    exact congrArg (fun F => Except.ok (s.setCtx f (sentCtx _ (Blocks.mapped b F) _))) ((congrArg _ hsends).trans updated_member)
  | false =>
    have hsends : { m with off := m.off + 4, link := some (BitVec.ofNat 32 ((s.ctx f).bits a.toNat m.elem)) } =
        sends (s.ctx f) b a.toNat off m := by
      unfold sends
      rw [if_neg (by rw [hend]; exact Bool.false_ne_true), h.at_off hm]
    obtain ⟨y, hy⟩ := Option.ne_none_iff_exists'.1 (mt isLast_iff.2 (by rw [hend]; exact Bool.false_ne_true))
    rw [hy, sentOut_before hend]
    dsimp only [Option.map_some]
    rw [hempty m hm hend]
    refine (if_neg (by decide)).trans ((nextWord_sent (t := { m with link := some _ }) hword).trans ?_)
    rw [hset { m with off := m.off + 4, link := some _ } rfl]
    exact congrArg (fun F => Except.ok (s.setCtx f (sentCtx _ (Blocks.mapped b F) _))) ((congrArg _ hsends).trans updated_member)

/-! ### Receiving -/

/-- What member t receives: the link of the thread before it, or XQIN. -/
def received (c : Ctx) (b : Blocks) (t : EThread) : Option Nat :=
  match State.predecessor b.threads t.elem with
  | none => if c.xqin.getLsbD 32 then some (bitsAt c.xqin 0 32) else none
  | some y => y.link.map (·.toNat)

/-- The context with these threads, and XQIN. -/
def linkedCtx (B : Blocks) (q : BitVec 33) (c : Ctx) : Ctx := { c with slotted := 0, blocks := some B, xqin := q }

theorem setElem_linked (B : Blocks) (q : BitVec 33) (c : Ctx) (n w i v : Nat) :
    (linkedCtx B q c).setElem n w i v = linkedCtx B q (c.setElem n w i v) := by
  unfold Ctx.setElem
  show (if i < c.reals ∧ (i + 1) * w ≤ c.groupBytes then _ else _) = _
  split <;> rfl

theorem nextWord_linked {c : Ctx} {B : Blocks} {q : BitVec 33} {t : EThread} (hoff : t.off % 128 ≠ 124) :
    nextWord f t (s.setCtx f (linkedCtx B q c)) = .ok (s.setCtx f (linkedCtx (B.set { t with off := t.off + 4 }) q c)) :=
  nextWord_setCtx rfl hoff

theorem setThread_linked {c : Ctx} {B : Blocks} {q : BitVec 33} (t : EThread) :
    (s.setCtx f (linkedCtx B q c)).setThread f t = s.setCtx f (linkedCtx (B.set t) q c) :=
  setThread_setCtx t rfl

/-- The members l have taken their elements. -/
def takenBy (c : Ctx) (b : Blocks) (n w : Nat) (l : List EThread) (x : Ctx) : Ctx :=
  l.foldl (fun r t => r.setElem n w t.elem ((received c b t).getD 0)) x

theorem takenBy_linked (c : Ctx) (n w : Nat) (l : List EThread) (B : Blocks) (q : BitVec 33) (x : Ctx) :
    takenBy c b n w l (linkedCtx B q x) = linkedCtx B q (takenBy c b n w l x) := by
  unfold takenBy
  induction l generalizing x with
  | nil => rfl
  | cons t l ih => rw [List.foldl_cons, setElem_linked, ih, List.foldl_cons]

theorem takenBy_vtag (c : Ctx) (n w : Nat) (l : List EThread) (x : Ctx) : (takenBy c b n w l x).vtag = x.vtag := by
  unfold takenBy
  induction l generalizing x with
  | nil => rfl
  | cons t l ih =>
    rw [List.foldl_cons, ih]
    unfold Ctx.setElem
    split <;> rfl

theorem updated_elem {F : EThread → EThread} {m t : EThread} (hF : ∀ x, (F x).elem = x.elem) (ht : t.elem = m.elem) (x : EThread) :
    (updated F m t x).elem = x.elem := by
  unfold updated
  split
  · next h => rw [h, ht]
  · exact hF x

/-- What the members l leave of a thread: they move on, and the links that they have taken are empty. -/
def unlinked (b : Blocks) (off : Nat) (l : List EThread) (x : EThread) : EThread :=
  { x with
    off := if x ∈ l then off + 4 else x.off
    link := if l.any fun t => decide (State.predecessor b.threads t.elem = some x) then none else x.link }

/-- XQIN once the members l have received. -/
def xqinLeft (c : Ctx) (b : Blocks) (l : List EThread) : BitVec 33 :=
  if l.any fun t => decide (State.predecessor b.threads t.elem = none) then BitVec.ofNat 33 (bitsAt c.xqin 0 32) else c.xqin

theorem xqin_emptied (q : BitVec 33) : setBits q 32 1 0 = BitVec.ofNat 33 (bitsAt q 0 32) := by
  apply BitVec.eq_of_toNat_eq
  have := q.isLt
  unfold setBits bitsAt
  simp only [BitVec.toNat_ofNat]
  omega

/-- No member before m has taken a link that m waits for, nor m's own. -/
theorem untaken (h : GroupTurn s f b off ms) {l rest : List EThread} {m x : EThread} (hms : ms = l ++ m :: rest)
    (hx : x = m ∨ State.predecessor b.threads m.elem = some x) :
    (l.any fun t => decide (State.predecessor b.threads t.elem = some x)) = false := by
  simp only [List.any_eq_false, decide_eq_true_eq]
  intro t ht hp
  have hlt := (mem_of_predecessor hp).2
  have hbefore := h.elem_lt hms ht
  rcases hx with rfl | hx
  · omega
  · have := le_predecessor h.sorted hx (h.mem (hms ▸ List.mem_append_left _ ht)) hbefore
    omega

theorem unlinked_member (h : GroupTurn s f b off ms) {l rest : List EThread} {m : EThread} (hms : ms = l ++ m :: rest) : unlinked b off l m = m := by
  unfold unlinked
  rw [if_neg (h.not_mem hms), h.untaken hms (.inl rfl)]
  rfl

/-- The record of a member that moves on, with no thread before it. -/
theorem unlinked_first (h : GroupTurn s f b off ms) {l rest : List EThread} {m : EThread} (hms : ms = l ++ m :: rest)
    (hp : State.predecessor b.threads m.elem = none) :
    updated (unlinked b off l) m { m with off := m.off + 4 } = unlinked b off (l ++ [m]) := by
  have hm : m ∈ ms := hms ▸ List.mem_append_right _ List.mem_cons_self
  funext x
  by_cases hx : x = m
  · subst hx
    simp [updated, unlinked, hp, h.untaken hms (.inl rfl), h.at_off hm]
  · simp [updated, unlinked, hx, hp]

/-- The record of a member that moves on, and of the thread before it. -/
theorem unlinked_behind (h : GroupTurn s f b off ms) {l rest : List EThread} {m p : EThread} (hms : ms = l ++ m :: rest)
    (hp : State.predecessor b.threads m.elem = some p) :
    updated (updated (unlinked b off l) p { unlinked b off l p with link := none }) m { m with off := m.off + 4 } = unlinked b off (l ++ [m]) := by
  have hm : m ∈ ms := hms ▸ List.mem_append_right _ List.mem_cons_self
  have hpm : p ≠ m := fun e => Nat.lt_irrefl _ (e ▸ (mem_of_predecessor hp).2)
  funext x
  by_cases hx : x = m
  · subst hx
    simp [updated, unlinked, hp, hpm, h.untaken hms (.inl rfl), h.at_off hm]
  · by_cases hxp : x = p
    · subst hxp
      simp [updated, unlinked, hp, hx]
    · simp [updated, unlinked, hp, hx, hxp, Ne.symm hxp]

theorem xqrecv (h : GroupTurn s f b off ms) {a : BitVec 6} (hok : (s.ctx f).groupOk a.toNat = true) (htag : (s.ctx f).tagOf a ≠ .none)
    (hbytes : ((s.ctx f).tagOf a).bytes ≤ 4) (hlast : off % 128 ≠ 124) (hfull : ∀ t ∈ ms, (received (s.ctx f) b t).isSome = true) :
    ∃ u, exec (.xqrecv a) s = .next u ∧ BlockCourse s f ms u ((s.ctx f).tagOf a).bytes
      (takenBy (s.ctx f) b a.toNat ((s.ctx f).tagOf a).bytes ms
        (linkedCtx (Blocks.mapped b (unlinked b off ms)) (xqinLeft (s.ctx f) b ms) (s.ctx f))) := by
  have hF : ∀ (l : List EThread) (t : EThread), (unlinked b off l t).elem = t.elem := fun _ _ => rfl
  have hstart : linkedCtx (Blocks.mapped b (unlinked b off [])) (xqinLeft (s.ctx f) b []) (s.ctx f) = { s.ctx f with slotted := 0 } :=
    h.mapped_nil id
  rw [← widestIn_one]
  simp only [takenBy_linked]
  refine ⟨_, rfl, h.course (R := fun l => linkedCtx (Blocks.mapped b (unlinked b off l)) (xqinLeft (s.ctx f) b l)
      (takenBy (s.ctx f) b a.toNat ((s.ctx f).widestIn [a.toNat]) l (s.ctx f)))
    (checks_one hok htag (queueTag_carried hbytes)) hstart hF (fun _ => rfl) fun l m rest hms => ?_⟩
  have hm : m ∈ ms := hms ▸ List.mem_append_right _ List.mem_cons_self
  have hword : m.off % 128 ≠ 124 := by rw [h.at_off hm]; exact hlast
  rw [h.unlinked_member hms, show (Blocks.mapped b (unlinked b off l)).threads = b.threads.map (unlinked b off l) from rfl,
    predecessor_mapped (hF l)]
  have hgot := hfull m hm
  have hput : ∀ (B : Blocks) (q : BitVec 33) (v : Nat), (received (s.ctx f) b m).getD 0 = v →
      (linkedCtx B q (takenBy (s.ctx f) b a.toNat ((s.ctx f).widestIn [a.toNat]) l (s.ctx f))).put a.toNat m.elem v =
        linkedCtx B q (takenBy (s.ctx f) b a.toNat ((s.ctx f).widestIn [a.toNat]) (l ++ [m]) (s.ctx f)) := by
    rintro B q v rfl
    have htags : ∀ x : Ctx, x.vtag = (s.ctx f).vtag → (x.tag a.toNat).bytes = (s.ctx f).widestIn [a.toNat] := fun x hx => by
      rw [widestIn_one, Ctx.tag, hx]
      rfl
    rw [Ctx.put, htags (linkedCtx B q _) (takenBy_vtag ..), setElem_linked]
    unfold takenBy
    rw [List.foldl_append]
    rfl
  cases hp : State.predecessor b.threads m.elem with
  | none =>
    obtain rfl : l = [] := List.eq_nil_iff_forall_not_mem.2 fun t ht =>
      predecessor_none hp (h.mem (hms ▸ List.mem_append_left _ ht)) (h.elem_lt hms ht)
    have hrec : received (s.ctx f) b m = if (s.ctx f).xqin.getLsbD 32 then some (bitsAt (s.ctx f).xqin 0 32) else none := by
      unfold received
      rw [hp]
    have hbit : (s.ctx f).xqin.getLsbD 32 = true := by
      rw [hrec] at hgot
      by_contra hne
      rw [if_neg hne] at hgot
      exact absurd hgot Bool.false_ne_true
    have hleft : xqinLeft (s.ctx f) b ([] ++ [m]) = setBits (s.ctx f).xqin 32 1 0 := by
      simp [xqinLeft, hp, xqin_emptied]
    rw [if_pos hbit] at hrec
    dsimp only [Option.map_none]
    refine (if_neg (show ¬ (!bitAt (s.ctx f).xqin 32) = true by rw [show bitAt (s.ctx f).xqin 32 = true from hbit]; decide)).trans ?_
    rw [hput _ _ _ (by rw [hrec]; rfl)]
    rw [setCtx_setCtx]
    refine (nextWord_linked (q := setBits (s.ctx f).xqin 32 1 0)
      (c := takenBy (s.ctx f) b a.toNat ((s.ctx f).widestIn [a.toNat]) ([] ++ [m]) (s.ctx f)) hword).trans ?_
    rw [set_mapped (t := { m with off := m.off + 4 }) h.sorted (hF []) (h.mem hm) rfl, h.unlinked_first hms hp, hleft]
  | some p =>
    obtain ⟨hpmem, hplt⟩ := mem_of_predecessor hp
    have hrec : received (s.ctx f) b m = p.link.map (·.toNat) := by
      unfold received
      rw [hp]
    have hlink : (unlinked b off l p).link = p.link := by
      unfold unlinked
      rw [h.untaken hms (.inr hp)]
      rfl
    have hleft : xqinLeft (s.ctx f) b (l ++ [m]) = xqinLeft (s.ctx f) b l := by
      simp [xqinLeft, hp]
    obtain ⟨v, hv⟩ : ∃ v, p.link = some v := Option.isSome_iff_exists.1 (by rw [hrec, Option.isSome_map] at hgot; exact hgot)
    dsimp only [Option.map_some]
    rw [hlink, hv]
    dsimp only
    rw [setThread_linked, modCtx_setCtx, hput _ _ _ (by rw [hrec, hv]; rfl)]
    refine (nextWord_linked hword).trans ?_
    rw [set_mapped (t := { unlinked b off l p with link := none }) h.sorted (hF l) hpmem rfl]
    rw [set_mapped (t := { m with off := m.off + 4 }) h.sorted (updated_elem (m := p) (t := { unlinked b off l p with link := none }) (hF l) rfl) (h.mem hm) rfl, h.unlinked_behind hms hp, hleft]

end GroupTurn

end Sys2Proof.Proofs
end

section
/-! SUPPORT. A vfetch is pushed, and starts its element threads (R265). -/

namespace Sys2Proof.Proofs

open Sys2Proof Sys2Proof.Machine Sys2Proof.Laws Sys2Proof.Safety

/-- The active indices of a strip, counted from VSTART. -/
theorem performed_from (c : Ctx) (pm : Nat) : ((List.range (c.reals - c.vstart)).map (c.vstart + ·)).filter (fun i => c.pbit pm i) = performed c pm := by
  have hfrom : ∀ n, (List.range (n - c.vstart)).map (c.vstart + ·) = (List.range n).filter fun i => c.vstart ≤ i := by
    intro n
    induction n with
    | zero => simp
    | succ n ih =>
      rw [List.range_succ, List.filter_append, ← ih]
      by_cases h : c.vstart ≤ n
      · rw [Nat.succ_sub h, List.range_succ, List.map_append]
        simp [h, Nat.add_sub_of_le h]
      · simp [h, show n + 1 - c.vstart = 0 by omega, show n - c.vstart = 0 by omega]
  unfold performed
  rw [hfrom, List.filter_filter]
  refine List.filter_congr fun i _ => ?_
  rw [Bool.and_comm]

theorem aloneInConvoy_vfetch (k : BitVec 6) (p : BitVec 4) : aloneInConvoy (Instr.vfetch k p).word = true := by
  obtain ⟨W, hW, -, hbits⟩ := Encoding.asm_reads 0x7C000000 [(k.toNat, 20, 6), (p.toNat, 4, 4)] [(k.toNat, 20), (p.toNat, 4)] [(20, 6), (4, 4)]
    rfl rfl (by decide +kernel) ⟨k.isLt, p.isLt, trivial⟩
  have hop : bitsAt (Instr.vfetch k p).word 26 6 = 0x1F := (congrArg (fun w : Word => bitsAt w 26 6) hW).trans (hbits 26 6 0x1F (by decide))
  have hlow : bitsAt (Instr.vfetch k p).word 0 4 = 0 := (congrArg (fun w : Word => bitsAt w 0 4) hW).trans (hbits 0 4 0 (by decide))
  unfold aloneInConvoy
  rw [show opOf (Instr.vfetch k p).word = 0x1F from hop, hlow]
  rfl

/-- The entry of a vfetch in the queue of a context that stands at c. -/
def fetchEntry (k : BitVec 6) (p : BitVec 4) (c : Ctx) : VqEntry :=
  { VOp.entry { word := (Instr.vfetch k p).word } c with regs := some c.sregs, sees := some c.views }

/-- The context in which a vfetch begins. -/
def fetchCtx (k : BitVec 6) (p : BitVec 4) (c : Ctx) : Ctx := { inFlight c (fetchEntry k p c) c with reverted := c.reverted }

theorem beginConvoy_fetch {k : BitVec 6} {p : BitVec 4} {c : Ctx} (hq : c.vq = []) (hl : c.convoyLeft = 0) :
    (State.pushEntry c (fetchEntry k p c)).beginConvoy = { fetchCtx k p c with slotted := c.slotted } := by
  have hat : ∀ x : Ctx, x.convoyAt [fetchEntry k p c] = 1 := fun x => if_pos (aloneInConvoy_vfetch k p)
  have hdone : (fetchEntry k p c).done = false := rfl
  unfold Ctx.beginConvoy State.pushEntry
  simp only [hq, hl, List.nil_append, ne_eq, not_true_eq_false, if_false, Ctx.doneAhead, List.takeWhile, hdone, List.length_nil, List.drop_zero,
    hat]
  rfl

/-- A vfetch at a queue's head completes at once with nothing to do, and else starts a thread for each active index. -/
theorem startBlocks_head {s : State} {f block pm : Nat} {e : VqEntry} (hq : (s.ctx f).vq = [e]) (he : e.begun = false) : s.startBlocks f block pm =
    if (decide ((s.ctx f).vl ≤ (s.ctx f).vstart) || (performed (s.ctx f) pm).isEmpty) = true then
      ((s.setCtx f (State.goOn (s.ctx f).beginConvoy)).sample f 0 { e with first := (s.ctx f).reals } (s.ctx f).eb).modCtx f
        fun c => c.popEntry.vretire
    else s.setCtx f { State.goOn (Ctx.keepAt (s.ctx f).beginConvoy 0 (s.ctx f).vstart (s.ctx f).vstart) with
      blocks := some ⟨e.pc, e.regs.getD (s.ctx f).sregs, e.sees.getD (s.ctx f).views, e.keys,
        (performed (s.ctx f) pm).map fun i => ⟨i, 128 * block, true, none⟩⟩ } := by
  unfold State.startBlocks
  dsimp only
  split
  · next hnil => cases hq.symm.trans hnil
  next e' rest hcons =>
  cases hq.symm.trans hcons
  rw [performed_from, if_neg (by rw [he]; exact Bool.false_ne_true)]

section Fetch

variable {s : State} {f : Nat} {k : BitVec 6} {p : BitVec 4}

/-- A vfetch of a block of the table is pushed, and begins. -/
theorem exec_vfetch (h : VectorReady s f (List.range 32)) (hk : k.toNat < (s.ctx f).code.nblk) :
    exec (.vfetch k p) s = .next ((s.setCtx f (State.pushEntry (s.ctx f) (fetchEntry k p (s.ctx f)))).startBlocks f k.toNat p.toNat) := by
  obtain ⟨hr, hf, hq, -, hb, -, hdefer, -⟩ := h
  have hlatch : (s.ctx f).latchBad none = false := by simp [Ctx.latchBad, Ctx.latchNext, hq]
  refine congrArg Host.Outcome.next ?_
  rw [hr.1]
  dsimp only
  rw [if_neg (by simp [State.me, hr.1, not_core hf]), checked_ready _ hr (by simp [hlatch, Nat.not_le.2 hk])]
  rw [if_neg (by simp [hr.2.2.2.1]), if_neg (by simp [Ctx.fetching, hq]), if_neg (by simp [hdefer, Ctx.quiet, hq, hb])]
  rfl

theorem vfetch_refused (h : VectorReady s f (List.range 32)) (hk : (s.ctx f).code.nblk ≤ k.toNat) (hset : Settled s f) :
    exec (.vfetch k p) s = .next (stopped s f .operand) := by
  obtain ⟨hr, hf, -⟩ := h
  refine congrArg Host.Outcome.next ?_
  rw [hr.1]
  dsimp only
  rw [if_neg (by simp [State.me, hr.1, not_core hf])]
  unfold State.checked
  rw [hr.1]
  dsimp only
  rw [hr.2.1, if_neg Bool.false_ne_true, if_pos (by simp [hk])]
  exact trapHere_settled _ hr.2.2.2.1 hset

/-- With no index active, a vfetch completes at once. -/
theorem vfetch_idle (h : VectorReady s f (List.range 32)) (hk : k.toNat < (s.ctx f).code.nblk) (hnone : performed (s.ctx f) p.toNat = [])
    (hrev : (s.ctx f).reverted = false) : exec (.vfetch k p) s = .next (vnext s f (.vfetch k p) (s.ctx f)) := by
  rw [exec_vfetch h hk]
  obtain ⟨-, -, hq, hl, -, -, -, hsample, -, -, ho⟩ := h
  have hpushed : (State.pushEntry (s.ctx f) (fetchEntry k p (s.ctx f))).vq = [fetchEntry k p (s.ctx f)] := by
    unfold State.pushEntry
    rw [hq]
    rfl
  have hnone' : performed (State.pushEntry (s.ctx f) (fetchEntry k p (s.ctx f))) p.toNat = [] := hnone
  have hcharged : charged s f (.vfetch k p) 0 = s := by
    unfold charged State.chargeAlone State.groupsBetween
    simp
  rw [startBlocks_head (by rw [ctx_setCtx_same]; exact hpushed) rfl]
  simp only [ctx_setCtx_same, setCtx_setCtx]
  rw [if_pos (by simp [hnone']), beginConvoy_fetch hq hl, sample_off (s := s.setCtx f _) _ _ hsample, modMill_setCtx, modCtx_setCtx]
  unfold vnext
  rw [show elementsOf (.vfetch k p) (s.ctx f) = 0 from rfl, hcharged]
  refine congrArg (fun x => Host.Outcome.next (State.setCtx _ f x)) ?_
  rw [show State.goOn { fetchCtx k p (s.ctx f) with slotted := (s.ctx f).slotted } = fetchCtx k p (s.ctx f) from rfl,
    popEntry_one (c := fetchCtx k p (s.ctx f)) rfl rfl ho]
  simp [Ctx.vretire, Ctx.behind, fetchCtx, inFlight, hrev]

/-- With an index active, a vfetch starts its element threads. -/
theorem vfetch_starts (h : VectorReady s f (List.range 32)) (hk : k.toNat < (s.ctx f).code.nblk) (hstrip : HasStrip (s.ctx f))
    (hsome : performed (s.ctx f) p.toNat ≠ []) :
    exec (.vfetch k p) s = .next (s.setCtx f { (Ctx.keepAt (fetchCtx k p (s.ctx f)) 0 (s.ctx f).vstart (s.ctx f).vstart) with
      blocks := some ⟨(s.ctx f).pc, (s.ctx f).sregs, (s.ctx f).views, (fetchEntry k p (s.ctx f)).keys,
        (performed (s.ctx f) p.toNat).map fun i => ⟨i, 128 * k.toNat, true, none⟩⟩ }) := by
  rw [exec_vfetch h hk]
  obtain ⟨-, -, hq, hl, -⟩ := h
  have hpushed : (State.pushEntry (s.ctx f) (fetchEntry k p (s.ctx f))).vq = [fetchEntry k p (s.ctx f)] := by
    unfold State.pushEntry
    rw [hq]
    rfl
  refine congrArg Host.Outcome.next ?_
  rw [startBlocks_head (by rw [ctx_setCtx_same]; exact hpushed) rfl]
  simp only [ctx_setCtx_same, setCtx_setCtx]
  have hgo : ¬ (decide ((State.pushEntry (s.ctx f) (fetchEntry k p (s.ctx f))).vl ≤ (State.pushEntry (s.ctx f) (fetchEntry k p (s.ctx f))).vstart) ||
      (performed (State.pushEntry (s.ctx f) (fetchEntry k p (s.ctx f))) p.toNat).isEmpty) = true := by
    rw [Bool.or_eq_true, decide_eq_true_eq, List.isEmpty_iff, not_or]
    exact ⟨Nat.not_le.2 hstrip, hsome⟩
  rw [if_neg hgo, beginConvoy_fetch hq hl]
  rfl

end Fetch

end Sys2Proof.Proofs
end

section
/-! PROOF. Element blocks run their threads (R265 to R269). -/

namespace Sys2Proof.Proofs

open Sys2Proof Sys2Proof.Machine Sys2Proof.Laws Sys2Proof.Safety

/-- Outside an element thread a block instruction is illegal (R73). -/
theorem blockInstr_outside {s : State} {f : Nat} {ns : List Nat} {tagBad : Ctx → Bool}
    {k : Nat → Blocks → EThread → Ctx → State → Except Trap State} (hcur : s.cur = .agent f) (hlate : (s.ctx f).late = none) (h : Settled s f) :
    blockInstr ns tagBad k s = stopped s f .illegal := by
  unfold blockInstr
  rw [hcur]
  exact trapHere_settled _ hlate h

/-- Settles O41: a vfetch by what its strip holds, and an issue group member by member, from the context that it starts with to the one it leaves. -/
theorem elementBlocksRunTheirThreads : Obligations.ElementBlocksRunTheirThreads := by
  unfold Obligations.ElementBlocksRunTheirThreads
  intro s f k p o a c
  refine ⟨fun h => ⟨fun hk hset => vfetch_refused h hk hset, fun hk hstrip => ⟨fun hnone hrev => vfetch_idle h hk hnone hrev, fun hsome => ?_⟩⟩,
    fun b off ms hcur hb hg hsort => ?_, fun i hi hcur hlate hset => ?_⟩
  case refine_1 =>
    refine ⟨_, _, vfetch_starts h hk hstrip hsome, by rw [ctx_setCtx_same], rfl, rfl, rfl, rfl, ?_⟩
    rw [ctx_setCtx_same]
    exact ⟨rfl, rfl, rfl, fun g hg => ctx_setCtx_other _ _ _ _ hg, rfl, rfl, rfl⟩
  case refine_2 =>
    intro moved slots course zero branch
    have h : GroupTurn s f b off ms := ⟨hcur, hb, hg, hsort⟩
    have hcourse : ∀ {i : Instr} {w : Nat} {r : Ctx}, (∃ u, exec i s = .next u ∧ BlockCourse s f ms u w r) → course i w r := by
      rintro i w r ⟨u, hu, hc⟩
      exact hu.trans (congrArg Host.Outcome.next hc)
    have hbranch : ∀ {i : Instr} {onZero : Bool}, exec i s = .next (blockBranch onZero o a s) → branch i onZero := by
      intro i onZero hi hok hnum hd8b _ hin hlast
      exact hcourse ⟨_, hi, h.branch onZero hok hnum hd8b hin hlast⟩
    refine ⟨fun hk => hcourse (h.efetch hk), hcourse h.eend, hbranch rfl, hbranch rfl, fun hok htag hbytes hlast => ?_⟩
    intro w v last before
    exact ⟨fun hempty => hcourse (h.xqsend hok htag hbytes hlast hempty), fun hfull => hcourse (h.xqrecv hok htag hbytes hlast hfull)⟩
  case refine_3 =>
    simp only [List.mem_cons, List.not_mem_nil, or_false] at hi
    rcases hi with rfl | rfl | rfl | rfl | rfl | rfl <;> exact congrArg Host.Outcome.next (blockInstr_outside hcur hlate hset)

end Sys2Proof.Proofs
end

section
/-! SUPPORT. A queue's turn at a launch command: its place in the order of commands, its descriptor, and how it ends (R430, R431). -/

namespace Sys2Proof.Proofs

open Sys2Proof Sys2Proof.Machine Sys2Proof.Laws Sys2Proof.Safety

/-! ### Reaching the command -/

theorem setQueue_setQueue (s : State) (die slot : Nat) (x y : Queue) : (s.setQueue die slot x).setQueue die slot y = s.setQueue die slot y := by
  unfold State.setQueue
  rw [put_put]

theorem modQueue_setQueue (s : State) (die slot : Nat) (x : Queue) (g : Queue → Queue) :
    (s.setQueue die slot x).modQueue die slot g = s.setQueue die slot (g x) := by
  unfold State.modQueue
  rw [queue_setQueue_same, setQueue_setQueue]

/-- The state, but for the queue, and the queue in which a slot has reached its command (R430). -/
def reachedState (s : State) (die slot : Nat) : State :=
  { s with fresh := if (s.queue die slot).reachedAt.isSome then s.fresh else s.fresh + 1 }
def reachedQueue (s : State) (die slot : Nat) : Queue :=
  { s.queue die slot with reachedAt := some ((s.queue die slot).reachedAt.getD s.fresh) }

/-- Reaching a command changes the queue, and the count that gives the places out. -/
structure HasReached (s : State) (die slot : Nat) (r : State) : Prop where
  queue : r.queue die slot = reachedQueue s die slot
  setQueue : ∀ x, r.setQueue die slot x = (reachedState s die slot).setQueue die slot x
  frame : ∃ qs, r = { reachedState s die slot with queues := qs }

theorem hasReached (s : State) (die slot : Nat) : HasReached s die slot (reach die slot s) := by
  unfold reach
  cases hat : (s.queue die slot).reachedAt with
  | some n =>
    have hq : reachedQueue s die slot = s.queue die slot := by
      unfold reachedQueue
      rw [hat]
      exact congrArg (fun x => { s.queue die slot with reachedAt := x }) hat.symm
    have hs : reachedState s die slot = s := by
      unfold reachedState
      rw [hat]
      rfl
    rw [if_pos (show (some n).isSome = true from rfl)]
    exact ⟨hq.symm, fun x => by rw [hs], s.queues, by rw [hs]⟩
  | none =>
    have hq : reachedQueue s die slot = { s.queue die slot with reachedAt := some s.fresh } := by
      unfold reachedQueue
      rw [hat]
      rfl
    have hs : reachedState s die slot = s.freshNumber.2 := by
      unfold reachedState
      rw [hat]
      rfl
    rw [if_neg (by decide)]
    refine ⟨?_, fun x => ?_, ?_⟩
    · rw [queue_modQueue_same, hq]
      rfl
    · rw [hs]
      exact setQueue_setQueue ..
    · rw [hs]
      exact ⟨_, rfl⟩

/-- Changing the queue of a state whose queues are those of a slot that has reached its command. -/
theorem modQueue_reached {s u : State} {die slot : Nat} (hu : u.queues = (reach die slot s).queues) (g : Queue → Queue) :
    u.modQueue die slot g = { u with queues := s.queues }.setQueue die slot (g (reachedQueue s die slot)) := by
  have h := hasReached s die slot
  have hqueue : u.queue die slot = reachedQueue s die slot := by
    rw [← h.queue]
    unfold State.queue
    rw [hu]
  have hput : ∀ x, u.queues.put (64 * die + slot) x = s.queues.put (64 * die + slot) x := fun x => by
    rw [hu]
    exact congrArg State.queues (h.setQueue x)
  unfold State.modQueue
  rw [hqueue]
  unfold State.setQueue
  rw [hput]

/-! ### What a walk depends on -/

section Walk

variable {s t : State} (hr : t.regs = s.regs) (hd : t.dev = s.dev) (hi : t.installed = s.installed)

include hd hi in
theorem words2_congr (part ipa n level table : Nat) : t.words2 part ipa n level table = s.words2 part ipa n level table := by
  induction n generalizing level table with
  | zero => rfl
  | succ n ih => simp only [State.words2, hd, hi, ih]

include hr hd hi in
theorem words1_congr (part va n level table : Nat) : t.words1 part va n level table = s.words1 part va n level table := by
  have hwords : t.words2Of part = s.words2Of part := by
    funext ipa
    simp only [State.words2Of, words2_congr hd hi, reg_congr hr]
  induction n generalizing level table with
  | zero => rfl
  | succ n ih => simp only [State.words1, ih, stage2_congr hr hd hi, hwords, hd]

include hr hd hi in
/-- The words walked depend on the tables and on the registers that name them. -/
theorem noteWalk_congr (hw : t.walked = s.walked) (part va : Nat) : t.noteWalk part va = { t with walked := (s.noteWalk part va).walked } := by
  unfold State.noteWalk
  simp only [words1_congr hr hd hi, reg_congr hr, hw]

end Walk

end Sys2Proof.Proofs
end

section
/-! SUPPORT. How a launch command ends (R239, R427, R430, R431). -/

namespace Sys2Proof.Proofs

open Sys2Proof Sys2Proof.Machine Sys2Proof.Laws Sys2Proof.Safety

section Ends

variable {s : State} {die slot : Nat} {m : Bool} {a b : BitVec 4} {p : BitVec 3} {dep : BitVec 1}

/-! ### Waiting, and executing -/

theorem advance_passed (q : Queue) (len : Nat) : (q.advance len).count true = passed q len := by
  unfold Queue.advance passed
  dsimp only
  rw [Nat.mul_comm 65520]
  by_cases hs : q.stack = []
  · rw [if_neg (by simp [hs]), if_neg (not_not.2 hs)]
    change Queue.count (if (q.pos / 65520 + 1) * 65520 ≤ q.pos + len then _ else _) true = _
    split <;> rfl
  · rw [if_pos (by simpa using hs), if_pos hs]
    rfl

theorem waits_reached {r : State} (h : HasReached s die slot r) :
    (r.modQueue die slot fun q => { q with busy := true }) = commandWaits (reachedState s die slot) die slot (reachedQueue s die slot) := by
  unfold State.modQueue
  rw [h.queue, h.setQueue]

/-- A command that completes, and one that completes later. -/
theorem done_command (u : State) (q : Queue) (len : Nat) :
    ((((u.setQueue die slot q).modQueue die slot fun q => (q.advance len).count true).settleDone die slot).boundary die slot) =
      commandDone u die slot q len := by
  rw [modQueue_setQueue, advance_passed]

theorem runs_command (u : State) (q : Queue) (len : Nat) :
    ((((u.setQueue die slot q).modQueue die slot fun q => (q.advance len).count false).settleDone die slot).boundary die slot) =
      commandRuns u die slot q len := by
  have hcount : (q.advance len).count false = { passed q len with openCmds := q.openCmds ++ [q.issued] } := by
    have hopen : (q.advance len).openCmds = q.openCmds ∧ (q.advance len).issued = q.issued := by
      unfold Queue.advance
      dsimp only
      split_ifs <;> exact ⟨rfl, rfl⟩
    rw [← advance_passed]
    unfold Queue.count
    rw [hopen.1, hopen.2]
    simp
  rw [modQueue_setQueue, hcount]

/-! ### With a launch registered -/

theorem launch_ended {key : Nat} (hcur : s.cur = .queue die slot) (hl : (s.queue die slot).launching = some key) (hnone : s.launchOf key = none) :
    launchCommand m a b p dep s = if (s.queue die slot).splicing = .joined then
      commandRuns (reachedState s die slot) die slot { reachedQueue s die slot with launching := none } 4
    else commandDone (reachedState s die slot) die slot { reachedQueue s die slot with launching := none } 4 := by
  have h := hasReached s die slot
  have hnone' : (reach die slot s).launchOf key = none := by
    obtain ⟨qs, hr⟩ := h.frame
    rw [hr]
    exact hnone
  unfold launchCommand command
  rw [hcur]
  dsimp only
  rw [h.queue, show (reachedQueue s die slot).launching = some key from hl]
  dsimp only
  rw [hnone', h.setQueue]
  dsimp only
  rw [show (reachedQueue s die slot).splicing = (s.queue die slot).splicing from rfl]
  by_cases hj : (s.queue die slot).splicing = .joined
  · rw [if_pos hj, if_pos hj]
    exact runs_command ..
  · rw [if_neg hj, if_neg hj]
    exact done_command ..

theorem launch_registered {key : Nat} {l : Launch} (hcur : s.cur = .queue die slot) (hl : (s.queue die slot).launching = some key)
    (hsome : s.launchOf key = some l) :
    launchCommand m a b p dep s = if l.state = .waiting then commandWaits (reachedState s die slot) die slot (reachedQueue s die slot)
    else commandRuns (reachedState s die slot) die slot { reachedQueue s die slot with launching := none } 4 := by
  have h := hasReached s die slot
  have hsome' : (reach die slot s).launchOf key = some l := by
    obtain ⟨qs, hr⟩ := h.frame
    rw [hr]
    exact hsome
  unfold launchCommand command
  rw [hcur]
  dsimp only
  rw [h.queue, show (reachedQueue s die slot).launching = some key from hl]
  dsimp only
  rw [hsome', h.setQueue]
  dsimp only
  by_cases hw : l.state = .waiting
  · rw [if_pos hw, if_pos hw]
    exact waits_reached h
  · rw [if_neg hw, if_neg hw]
    exact runs_command ..

/-! ### With a descriptor to read -/

/-- The address of the command's descriptor. -/
abbrev descAddr (s : State) (die slot : Nat) (b : BitVec 4) : Nat := (creg (s.queue die slot) b).toNat

theorem creg_c (q : Queue) (n : BitVec 4) : q.c n.toNat = creg q n := by
  unfold Queue.c creg
  exact if_congr ⟨fun h => BitVec.eq_of_toNat_eq h, fun h => congrArg BitVec.toNat h⟩ rfl rfl

/-- Reaching the command changes nothing of what its descriptor is read from. -/
theorem descriptor_reached (addr : Nat) : descriptorBusy (reach die slot s) (reachedQueue s die slot) addr = descriptorBusy s (s.queue die slot) addr ∧
    readDescriptor (reach die slot s) (reachedQueue s die slot) m addr = readDescriptor s (s.queue die slot) m addr := by
  obtain ⟨qs, hr⟩ := (hasReached s die slot).frame
  rw [hr]
  have hread := readVirtual_congr (s := s) (t := { reachedState s die slot with queues := qs }) rfl rfl rfl rfl
  have hbusy := rangeBusy_congr (s := s) (t := { reachedState s die slot with queues := qs }) rfl rfl rfl rfl rfl rfl
  have hbays : ({ reachedState s die slot with queues := qs } : State).baysOf = s.baysOf := rfl
  have hpart : (reachedQueue s die slot).part = (s.queue die slot).part := rfl
  constructor
  · simp only [descriptorBusy, hread, hbusy, hpart]
  · simp only [readDescriptor, hread, hbays, hpart]

/-- The launch of a descriptor, as the command registers it. -/
def commandLaunch (s : State) (die slot : Nat) (m : Bool) (a b : BitVec 4) (p : BitVec 3) (d : Line) (ps : List Byte) : Launch :=
  newLaunch die slot (reachedQueue s die slot) m d (descAddr s die slot b) (if a = 0 then none else some (creg (s.queue die slot) a).toNat) p.toNat
    ((s.queue die slot).reachedAt.getD s.fresh) ps

section Descriptor

variable (hcur : s.cur = .queue die slot) (hl : (s.queue die slot).launching = none) (hs : (s.queue die slot).splicing = .none)

include hcur hl hs

theorem launch_busy (hbusy : descriptorBusy s (s.queue die slot) (descAddr s die slot b) = true) :
    launchCommand m a b p dep s = commandWaits (reachedState s die slot) die slot (reachedQueue s die slot) := by
  have h := hasReached s die slot
  unfold launchCommand command
  rw [hcur]
  dsimp only
  rw [h.queue, show (reachedQueue s die slot).launching = none from hl, show (reachedQueue s die slot).splicing = .none from hs]
  dsimp only
  rw [if_neg (by simp), creg_c, if_pos (by rw [(descriptor_reached (m := m) _).1]; exact hbusy)]
  exact waits_reached h

theorem launch_fault {c : Nat} {g : Bool} (hready : descriptorBusy s (s.queue die slot) (descAddr s die slot b) = false)
    (hread : readDescriptor s (s.queue die slot) m (descAddr s die slot b) = .error (c, g)) :
    launchCommand m a b p dep s = s.faultQueue die slot c g := by
  have h := hasReached s die slot
  unfold launchCommand command
  rw [hcur]
  dsimp only
  rw [h.queue, show (reachedQueue s die slot).launching = none from hl, show (reachedQueue s die slot).splicing = .none from hs]
  dsimp only
  rw [if_neg (by simp), creg_c, if_neg (by rw [(descriptor_reached (m := m) _).1]; exact Bool.eq_false_iff.1 hready)]
  rw [show readDescriptor (reach die slot s) (reachedQueue s die slot) m (creg (reachedQueue s die slot) b).toNat = .error (c, g) from
    (descriptor_reached _).2.trans hread]

theorem launch_reads {d : Line} {ps : List Byte} (hready : descriptorBusy s (s.queue die slot) (descAddr s die slot b) = false)
    (hread : readDescriptor s (s.queue die slot) m (descAddr s die slot b) = .ok (d, ps)) :
    launchCommand m a b p dep s =
      if dep = 1 ∧ (s.queue die slot).openCmds ≠ [] then commandWaits (reachedState s die slot) die slot (reachedQueue s die slot)
      else if m = true then
        if s.holdState = 0 ∧ ∀ x ∈ Desc.bays d, (s.ctx (2304 + x)).life = .free ∧ bitAt (s.reg .ready 0x00) x = true then
          (((((startCores (commandLaunch s die slot m a b p d ps) (reach die slot s)).noteWalk (s.queue die slot).part (descAddr s die slot b)).modQueue
            die slot fun q => { q with ordinal := q.ordinal + 1 }).modQueue die slot fun q => (q.advance 4).count false).settleDone die slot).boundary
              die slot
        else commandWaits (reachedState s die slot) die slot (reachedQueue s die slot)
      else (register die slot (commandLaunch s die slot m a b p d ps) .none (reach die slot s)).modQueue die slot fun q => { q with busy := true } := by
  have h := hasReached s die slot
  unfold launchCommand command
  rw [hcur]
  dsimp only
  rw [h.queue, show (reachedQueue s die slot).launching = none from hl, show (reachedQueue s die slot).splicing = .none from hs]
  dsimp only
  rw [if_neg (by simp), creg_c, if_neg (by rw [(descriptor_reached (m := m) _).1]; exact Bool.eq_false_iff.1 hready)]
  rw [show readDescriptor (reach die slot s) (reachedQueue s die slot) m (creg (reachedQueue s die slot) b).toNat = .ok (d, ps) from
    (descriptor_reached _).2.trans hread]
  dsimp only
  have hfree : (decide ((reach die slot s).holdState = 0) && (Desc.bays d).all fun x =>
      decide (((reach die slot s).ctx (2304 + x)).life = .free) && bitAt ((reach die slot s).reg .ready 0x00) x) = true ↔
        s.holdState = 0 ∧ ∀ x ∈ Desc.bays d, (s.ctx (2304 + x)).life = .free ∧ bitAt (s.reg .ready 0x00) x = true := by
    obtain ⟨qs, hr⟩ := h.frame
    have hhold : (reach die slot s).holdState = s.holdState := by rw [hr]; rfl
    have hctx : (reach die slot s).ctx = s.ctx := by rw [hr]; rfl
    have hreg : (reach die slot s).reg = s.reg := by rw [hr]; rfl
    simp only [hhold, hctx, hreg, Bool.and_eq_true, decide_eq_true_eq, List.all_eq_true]
  have hheld : (false || (decide (dep = 1) && !(reachedQueue s die slot).openCmds.isEmpty)) = true ↔ dep = 1 ∧ (s.queue die slot).openCmds ≠ [] := by
    show (false || (decide (dep = 1) && !(s.queue die slot).openCmds.isEmpty)) = true ↔ _
    simp
  by_cases hdep : dep = 1 ∧ (s.queue die slot).openCmds ≠ []
  · rw [if_pos hdep, if_pos (hheld.2 hdep)]
    exact waits_reached h
  rw [if_neg hdep, if_neg (mt hheld.1 hdep)]
  by_cases hm : m = true
  · rw [if_pos hm, if_pos hm]
    by_cases hf : s.holdState = 0 ∧ ∀ x ∈ Desc.bays d, (s.ctx (2304 + x)).life = .free ∧ bitAt (s.reg .ready 0x00) x = true
    · rw [if_pos hf, if_pos (hfree.2 hf), creg_c]
      rfl
    · rw [if_neg hf, if_neg (mt hfree.1 hf)]
      exact waits_reached h
  · rw [if_neg hm, if_neg hm, if_neg (by decide), creg_c, ite_self]
    rfl

end Descriptor

end Ends

end Sys2Proof.Proofs
end

section
/-! SUPPORT. A launch registered, and the cores of a launchm started (R127, R429 to R431). -/

namespace Sys2Proof.Proofs

open Sys2Proof Sys2Proof.Machine Sys2Proof.Laws Sys2Proof.Safety

/-! ### The checks of a descriptor -/

theorem contains_bays {s : State} {part b : Nat} (hb : b < 36) : (s.baysOf part).contains b = decide (s.ownerOf b = part) := by
  unfold State.baysOf
  rw [Bool.eq_iff_iff, List.contains_iff_mem]
  simp [hb]

/-- What R431 refuses. -/
theorem bad_iff {s : State} {part : Nat} {d : Line} {m : Bool} : Desc.bad d m (s.baysOf part) = true ↔
    bitsAt d 505 7 ≠ 0 ∨ bitAt d 463 = true ∨ bitsAt d 478 4 = 0 ∨ 5 < bitsAt d 483 3 ∨ 3840 < bitsAt d 464 12 ∨
      (bitAt d 486 = true ∧ bitAt d 482 = false) ∨ Desc.bays d = [] ∨ (∃ x ∈ Desc.bays d, s.ownerOf x ≠ part) ∨ bitsAt d 452 4 = 0 ∨
      (m = true ∧ bitsAt d 64 64 = 0) ∨ 64 < bitsAt d 456 7 ∨ (bitsAt d 456 7 ≠ 0 ∧ bitsAt d 128 64 = 0) ∨
      (if m then bitsAt d 288 32 else bitsAt d 256 32) ≤ (if m then bitsAt d 352 32 else bitsAt d 320 32) ∨ 0x3FF000 < 64 * bitsAt d 489 16 := by
  have hforeign : ((Desc.bays d).any fun b => !(s.baysOf part).contains b) = true ↔ ∃ x ∈ Desc.bays d, s.ownerOf x ≠ part := by
    rw [List.any_eq_true]
    refine exists_congr fun x => and_congr_right fun hx => ?_
    have hlt : x < 36 := by
      unfold Desc.bays at hx
      simpa using (List.mem_filter.1 hx).1
    rw [contains_bays hlt]
    simp
  have hend : (if m = true then decide (Desc.mcodelen d ≤ Desc.mentry d) else decide (Desc.codelen d ≤ Desc.entry d)) = true ↔
      (if m then bitsAt d 288 32 else bitsAt d 256 32) ≤ (if m then bitsAt d 352 32 else bitsAt d 320 32) := by
    cases m <;> exact decide_eq_true_iff
  unfold Desc.bad
  rw [Bool.or_eq_true, Bool.or_eq_true, hend]
  simp only [Bool.or_eq_true, Bool.and_eq_true, Bool.not_eq_true', decide_eq_true_eq, hforeign, List.isEmpty_iff, or_assoc]
  rfl

/-! ### The fields that a start gives -/

/-- Cores that start in several bays: each receives its own context, and no other agent changes. -/
theorem foldl_setCtx {V : State → Nat × Nat → Ctx} {at' : Nat × Nat → Nat} (hV : ∀ s f c, V (State.setCtx s f c) = V s) (l : List (Nat × Nat)) (s : State) :
    (∃ ag, l.foldl (fun s x => s.setCtx (at' x) (V s x)) s = { s with agents := ag }) ∧
    (∀ f, f ∉ l.map at' → (l.foldl (fun s x => s.setCtx (at' x) (V s x)) s).ctx f = s.ctx f) ∧
    ((l.map at').Nodup → ∀ x ∈ l, (l.foldl (fun s x => s.setCtx (at' x) (V s x)) s).ctx (at' x) = V s x) := by
  induction l generalizing s with
  | nil => exact ⟨⟨s.agents, rfl⟩, fun _ _ => rfl, fun _ _ hx => absurd hx List.not_mem_nil⟩
  | cons y l ih =>
    obtain ⟨⟨ag, hframe⟩, hother, hown⟩ := ih (s.setCtx (at' y) (V s y))
    rw [List.foldl_cons]
    refine ⟨⟨ag, hframe⟩, fun f hf => ?_, fun hn x hx => ?_⟩
    · rw [List.map_cons, List.mem_cons, not_or] at hf
      rw [hother f hf.2, ctx_setCtx_other _ _ _ _ hf.1]
    · rw [List.map_cons, List.nodup_cons] at hn
      rcases List.mem_cons.1 hx with rfl | hx
      · rw [hother _ hn.1, ctx_setCtx_same]
      · rw [hown hn.2 x hx, hV]

theorem bays_nodup (d : Line) : (Desc.bays d).Nodup := List.nodup_range.filter _

/-- The core that launch l starts in the i-th of its bays, x. -/
def launchedCore (s : State) (l : Launch) (x : Nat × Nat) : Ctx :=
  coreStart (l.id + 1) l x.2 (Desc.bays l.desc).length (Vector.ofFn fun a => (s.mill (4 * x.1 + a.val)).asIssue)
    (Vector.ofFn fun a => (s.mill (4 * x.1 + a.val)).completed)

theorem startCores_frame (l : Launch) (s : State) : ∃ ag, startCores l s = { s with
      agents := ag, launches := s.launches.put (l.id + 1) { l with state := .placed, next := Desc.count l.desc } } ∧
    (∀ f, (∀ x ∈ Desc.bays l.desc, f ≠ 2304 + x) → (startCores l s).ctx f = s.ctx f) ∧
    ∀ i x, (Desc.bays l.desc)[i]? = some x → (startCores l s).ctx (2304 + x) = launchedCore s l (x, i) := by
  obtain ⟨⟨ag, hframe⟩, hother, hown⟩ := foldl_setCtx (V := fun s x => launchedCore s l x) (at' := fun x => 2304 + x.1) (fun _ _ _ => rfl)
    (Desc.bays l.desc).zipIdx s
  have hplaces : (Desc.bays l.desc).zipIdx.map (fun x => 2304 + x.1) = (Desc.bays l.desc).map (2304 + ·) := by
    show (Desc.bays l.desc).zipIdx.map ((2304 + ·) ∘ Prod.fst) = _
    rw [← List.map_map, List.zipIdx_map_fst]
  have hstart : startCores l s = State.setLaunch ((Desc.bays l.desc).zipIdx.foldl (fun s x => s.setCtx (2304 + x.1) (launchedCore s l x)) s)
      (l.id + 1) { l with state := .placed, next := Desc.count l.desc } := rfl
  refine ⟨ag, by rw [hstart, hframe]; rfl, fun f hf => ?_, fun i x hx => ?_⟩
  · rw [hstart]
    refine hother f ?_
    rw [hplaces, List.mem_map]
    rintro ⟨x, hx, rfl⟩
    exact hf x hx rfl
  · rw [hstart]
    refine hown ?_ (x, i) ?_
    · rw [hplaces]
      exact (bays_nodup _).map fun _ _ h => Nat.add_left_cancel h
    · rw [List.mem_zipIdx_iff_getElem?]
      exact hx

/-- The registers of a core or thread as it starts (R56, R127). -/
theorem startRegs_getD (s2 s3 s4 : Nat) {r : Nat} (hr : r < 32) : (startRegs s2 s3 s4).toList.getD r 0 =
    [0, 0xFFFFFFFFFFFFFFF0, BitVec.ofNat 64 s2, BitVec.ofNat 64 s3, BitVec.ofNat 64 s4, 0x100].getD r 0 := by
  interval_cases r <;> rfl

section Started

variable {s : State} {die slot : Nat} {m : Bool} {a b : BitVec 4} {p : BitVec 3} {dep : BitVec 1}

theorem modQueue_modQueue (s : State) (die slot : Nat) (g h : Queue → Queue) :
    (s.modQueue die slot g).modQueue die slot h = s.modQueue die slot fun q => h (g q) :=
  modQueue_setQueue ..

/-- The registered launch waits for its placement, but with no index it has nothing to place (R255). -/
theorem register_reached (l : Launch) :
    ((register die slot l .none (reach die slot s)).modQueue die slot fun q => { q with busy := true }) =
      commandWaits { (reachedState s die slot).noteWalk l.part l.descAddr with
        launches := s.launches.put (l.id + 1) { l with state := if Desc.count l.desc = 0 then .placed else l.state } } die slot
        { reachedQueue s die slot with launching := some (l.id + 1), ordinal := (s.queue die slot).ordinal + 1, splicing := .none } := by
  obtain ⟨qs, hr⟩ := (hasReached s die slot).frame
  have hwalk := noteWalk_congr (s := reachedState s die slot) (t := reach die slot s) (by rw [hr]) (by rw [hr]) (by rw [hr]) (by rw [hr]) l.part l.descAddr
  obtain ⟨w, hw⟩ := noteWalk_frame (reachedState s die slot) l.part l.descAddr
  unfold register
  dsimp only
  rw [modQueue_modQueue, modQueue_reached (s := s) (by rw [hwalk]; rfl), hwalk, hr, hw]
  unfold commandWaits
  congr 1

/-- The cores of a launchm start, and its command executes (R127, R430). -/
theorem startCores_reached (l : Launch) : ∃ ag,
    let u : State := { (reachedState s die slot).noteWalk l.part l.descAddr with
      agents := ag, launches := s.launches.put (l.id + 1) { l with state := .placed, next := Desc.count l.desc } }
    (((((startCores l (reach die slot s)).noteWalk l.part l.descAddr).modQueue die slot fun q => { q with ordinal := q.ordinal + 1 }).modQueue
      die slot fun q => (q.advance 4).count false).settleDone die slot).boundary die slot =
        commandRuns u die slot { reachedQueue s die slot with ordinal := (s.queue die slot).ordinal + 1 } 4 ∧
      (∀ f, (∀ x ∈ Desc.bays l.desc, f ≠ 2304 + x) → u.ctx f = s.ctx f) ∧
      ∀ i x, (Desc.bays l.desc)[i]? = some x → u.ctx (2304 + x) = launchedCore s l (x, i) := by
  obtain ⟨qs, hr⟩ := (hasReached s die slot).frame
  obtain ⟨ag, hcores, hother, hown⟩ := startCores_frame l (reach die slot s)
  have hwalk := noteWalk_congr (s := reachedState s die slot) (t := startCores l (reach die slot s)) (by rw [hcores, hr]) (by rw [hcores, hr])
    (by rw [hcores, hr]) (by rw [hcores, hr]) l.part l.descAddr
  obtain ⟨w, hw⟩ := noteWalk_frame (reachedState s die slot) l.part l.descAddr
  refine ⟨ag, ?_, fun f hf => ?_, fun i x hx => ?_⟩
  · rw [modQueue_reached (s := s) (u := (startCores l (reach die slot s)).noteWalk l.part l.descAddr) (by rw [hwalk, hcores]), runs_command,
      hwalk, hcores, hr, hw]
    unfold commandRuns
    congr 1
  · have h := hother f hf
    rw [hcores, hr] at h
    exact h
  · have h := hown i x hx
    rw [hcores, hr] at h
    exact h

end Started

end Sys2Proof.Proofs
end

section
/-! SUPPORT. The distributor places a mill's range (R126, R127, R255, R430). -/

namespace Sys2Proof.Proofs

open Sys2Proof Sys2Proof.Machine Sys2Proof.Laws Sys2Proof.Safety

/-! ### The launch page -/

theorem copyIn_scr (part fuel va n dst : Nat) (s : State) : ∃ m, s.copyIn part fuel va n dst = { s with scr := m } ∧
    (s.scr.wf = true → m.wf = true) := by
  induction fuel generalizing va n dst s with
  | zero => exact ⟨s.scr, rfl, id⟩
  | succ fuel ih =>
    unfold State.copyIn
    by_cases hn : n = 0
    · rw [if_pos hn]
      exact ⟨s.scr, rfl, id⟩
    rw [if_neg hn]
    dsimp only
    cases s.translate part va .read with
    | error t => exact ih ..
    | ok x =>
      obtain ⟨m, hm, hwf⟩ := ih (va + min n (65536 - va % 65536)) (n - min n (65536 - va % 65536)) (dst + min n (65536 - va % 65536))
        { s with scr := (s.scr.clear dst (dst + min n (65536 - va % 65536))).writeBytes dst (s.dev.readBytes x.phys (min n (65536 - va % 65536))) }
      exact ⟨m, hm, fun h => hwf (wf_writeBytes _ _ (wf_clear _ _ h))⟩

/-- The five dwords at the start of a launch page. -/
def pageWritten (m : Mem) (at' a b c d e : Nat) : Mem :=
  ((((m.write at' 8 a).write (at' + 8) 8 b).write (at' + 16) 8 c).write (at' + 24) 8 d).write (at' + 32) 8 e

theorem pageWritten_reads {m : Mem} (at' a b c d e : Nat) (h : m.wf = true) :
    (pageWritten m at' a b c d e).read at' 8 = a % 2 ^ 64 ∧ (pageWritten m at' a b c d e).read (at' + 8) 8 = b % 2 ^ 64 ∧
      (pageWritten m at' a b c d e).read (at' + 16) 8 = c % 2 ^ 64 ∧ (pageWritten m at' a b c d e).read (at' + 24) 8 = d % 2 ^ 64 ∧
      (pageWritten m at' a b c d e).read (at' + 32) 8 = e % 2 ^ 64 := by
  have h1 := wf_write at' 8 a h
  have h2 := wf_write (at' + 8) 8 b h1
  have h3 := wf_write (at' + 16) 8 c h2
  have h4 := wf_write (at' + 24) 8 d h3
  unfold pageWritten
  refine ⟨?_, ?_, ?_, ?_, read_write _ _ _ h4⟩
  · rw [read_write_apart _ _ _ _ _ _ (by omega), read_write_apart _ _ _ _ _ _ (by omega), read_write_apart _ _ _ _ _ _ (by omega),
      read_write_apart _ _ _ _ _ _ (by omega)]
    exact read_write _ _ _ h
  · rw [read_write_apart _ _ _ _ _ _ (by omega), read_write_apart _ _ _ _ _ _ (by omega), read_write_apart _ _ _ _ _ _ (by omega)]
    exact read_write _ _ _ h1
  · rw [read_write_apart _ _ _ _ _ _ (by omega), read_write_apart _ _ _ _ _ _ (by omega)]
    exact read_write _ _ _ h2
  · rw [read_write_apart _ _ _ _ _ _ (by omega)]
    exact read_write _ _ _ h3

/-- What a mill's launch page holds: the descriptor's address, LAUNCHID, COUNT, and the lowest index and the number of the range (R126). -/
def PageHolds (m : Mem) (at' a b c d e : Nat) : Prop :=
  m.read at' 8 = a % 2 ^ 64 ∧ m.read (at' + 8) 8 = b % 2 ^ 64 ∧ m.read (at' + 16) 8 = c ∧ m.read (at' + 24) 8 = d ∧ m.read (at' + 32) 8 = e

theorem pageWritten_holds {m : Mem} (at' a b : Nat) {c d e : Nat} (h : m.wf = true) (hc : c < 2 ^ 64) (hd : d < 2 ^ 64) (he : e < 2 ^ 64) :
    PageHolds (pageWritten m at' a b c d e) at' a b c d e := by
  obtain ⟨ha, hb, hc', hd', he'⟩ := pageWritten_reads at' a b c d e h
  exact ⟨ha, hb, hc'.trans (Nat.mod_eq_of_lt hc), hd'.trans (Nat.mod_eq_of_lt hd), he'.trans (Nat.mod_eq_of_lt he)⟩

theorem fillMill_page (s : State) (l : Launch) (mill : Nat) {lowest placed : Nat} (hl : lowest < 2 ^ 64) (hp : placed < 2 ^ 64) :
    ∃ m, s.fillMill l mill lowest placed = { s with scr := m } ∧ (s.scr.wf = true → l.params = [] →
      PageHolds m (ownScratch mill 0) l.descAddr l.id (Desc.count l.desc) lowest placed) := by
  obtain ⟨m, hm, hwf⟩ := copyIn_scr l.part 66 l.image.1 l.image.2 (ownScratch mill 0 + 0x1000) s
  have hcount : Desc.count l.desc < 2 ^ 64 := Nat.lt_trans (bitsAt_lt l.desc 384 32) (by decide)
  unfold State.fillMill
  dsimp only
  rw [hm]
  refine ⟨_, rfl, fun h hparams => ?_⟩
  rw [hparams]
  exact pageWritten_holds _ _ _ (wf_clear _ _ (hwf h)) hcount hl hp

/-! ### The threads that start -/

/-- Threads that start in several contexts: each receives its own index, and no other context changes. -/
theorem startThreads_frame (key : Nat) (l : Launch) (ps : List (Nat × Nat)) (s : State) : (∃ ag, s.startThreads key l ps = { s with agents := ag }) ∧
    (∀ f, f ∉ ps.map (·.1) → (s.startThreads key l ps).ctx f = s.ctx f) ∧
    ((ps.map (·.1)).Nodup → ∀ x ∈ ps, (s.startThreads key l ps).ctx x.1 = threadStart key l x.1 x.2 (s.ctx x.1)) := by
  unfold State.startThreads
  induction ps generalizing s with
  | nil => exact ⟨⟨s.agents, rfl⟩, fun _ _ => rfl, fun _ _ hx => absurd hx List.not_mem_nil⟩
  | cons y ps ih =>
    obtain ⟨⟨ag, hframe⟩, hother, hown⟩ := ih (s.modCtx y.1 (threadStart key l y.1 y.2))
    rw [List.foldl_cons]
    refine ⟨⟨ag, hframe⟩, fun f hf => ?_, fun hn x hx => ?_⟩
    · rw [List.map_cons, List.mem_cons, not_or] at hf
      rw [hother f hf.2]
      exact ctx_setCtx_other _ _ _ _ hf.1
    · rw [List.map_cons, List.nodup_cons] at hn
      rcases List.mem_cons.1 hx with rfl | hx
      · rw [hother _ hn.1, ctx_modCtx_same]
      · have hne : x.1 ≠ y.1 := fun e => hn.1 (e ▸ List.mem_map_of_mem hx)
        rw [hown hn.2 x hx, show (s.modCtx y.1 (threadStart key l y.1 y.2)).ctx x.1 = s.ctx x.1 from ctx_setCtx_other _ _ _ _ hne]

theorem two_bits {k : Nat} (w : BitVec k) (lo : Nat) : b2n (bitAt w lo) + 2 * b2n (bitAt w (lo + 1)) = bitsAt w lo 2 := by
  have hbit : ∀ i, b2n (bitAt w i) = w.toNat / 2 ^ i % 2 := by
    intro i
    unfold b2n bitAt
    rw [← BitVec.testBit_toNat, Nat.testBit_eq_decide_div_mod_eq]
    have := Nat.mod_lt (w.toNat / 2 ^ i) (show 0 < 2 by decide)
    by_cases h : w.toNat / 2 ^ i % 2 = 1
    · simp [h]
    · simp [h]
      omega
  rw [hbit, hbit, bitsAt, Nat.pow_succ, ← Nat.div_div_eq_div_mul]
  omega

/-! ### A range of one mill -/

section Placement

variable {s : State} {lid g : Nat} {l : Launch}

/-- The free contexts of a mill, the first ones of which start. -/
def freeContexts (s : State) (g : Nat) : List Nat := (millContexts g).filter fun f => (s.ctx f).life = .free

/-- How many of them start. -/
def placedCount (s : State) (l : Launch) (g : Nat) : Nat := min (freeContexts s g).length (Desc.count l.desc)

theorem freeContexts_nodup : (freeContexts s g).Nodup := by
  unfold freeContexts millContexts
  exact (List.nodup_range.map fun _ _ h => Nat.add_left_cancel h).filter _

/-- A mill that can take a range of a launch gives it all its free contexts. -/
theorem freeFor_some {key : Nat} (h : s.freeFor key g ≠ []) : s.freeFor key g = freeContexts s g := by
  unfold State.freeFor at h ⊢
  dsimp only at h ⊢
  split
  · next hbad =>
    rw [if_pos hbad] at h
    exact absurd rfl h
  · rfl

/-- The contexts that start, each with its index. -/
def placedPairs (s : State) (l : Launch) (g : Nat) : List (Nat × Nat) :=
  ((freeContexts s g).take (Desc.count l.desc)).zip (List.range (placedCount s l g))

theorem placedPairs_fst : (placedPairs s l g).map (·.1) = (freeContexts s g).take (placedCount s l g) := by
  unfold placedPairs placedCount
  rw [List.map_fst_zip (by simp [Nat.min_comm]), Nat.min_comm, ← List.take_eq_take_min]

theorem placedPairs_snd : (placedPairs s l g).map (·.2) = List.range (placedCount s l g) := by
  unfold placedPairs placedCount
  rw [List.map_snd_zip (by simp [Nat.min_comm])]

theorem placedPairs_mem {i : Nat} (hi : i < placedCount s l g) : ((freeContexts s g).getD i 0, i) ∈ placedPairs s l g := by
  have hfree : i < (freeContexts s g).length := Nat.lt_of_lt_of_le hi (Nat.min_le_left _ _)
  have hcount : i < Desc.count l.desc := Nat.lt_of_lt_of_le hi (Nat.min_le_right _ _)
  rw [List.mem_iff_getElem]
  have hlen : i < (placedPairs s l g).length := by
    have := congrArg List.length (placedPairs_snd (s := s) (l := l) (g := g))
    rw [List.length_map, List.length_range] at this
    omega
  refine ⟨i, hlen, ?_⟩
  simp only [placedPairs, List.getElem_zip]
  simp [hfree]

/-- The launch with its first range placed. -/
def placedLaunch (s : State) (l : Launch) (g : Nat) : Launch := { l with state := .placed, next := placedCount s l g, mills := [g] }

/-- The first pass over one mill: its page is filled, and its range of threads starts. -/
theorem placeFirst_one {key : Nat} (hmills : Desc.mills l.desc = [g]) (hfor : s.freeFor key g = freeContexts s g) (hredo : l.redo = []) (hnext : l.next = 0)
    (hpos : 0 < placedCount s l g) : s.placeFirst key l =
      ((((s.fillMill l g 0 (placedCount s l g)).startThreads key (placedLaunch s l g) (placedPairs s l g)).takeMills key [g]).setLaunch key
        (placedLaunch s l g)) := by
  have hcount : (Desc.count l.desc + [g].length - 1) / [g].length = Desc.count l.desc := by simp
  have htake : State.Launch.takeIndices l ((freeContexts s g).take (Desc.count l.desc)).length =
      (List.range (placedCount s l g), { l with next := placedCount s l g }) := by
    have hk : min (Desc.count l.desc) (freeContexts s g).length = placedCount s l g := Nat.min_comm ..
    have hle : placedCount s l g ≤ Desc.count l.desc := Nat.min_le_right _ _
    unfold State.Launch.takeIndices
    simp [hredo, hnext, hk, Nat.min_eq_left hle]
  have hsome : (List.range (placedCount s l g)).isEmpty = false := by
    rw [List.isEmpty_eq_false_iff, ne_eq, List.range_eq_nil]
    omega
  have hlen : (placedPairs s l g).length = placedCount s l g := by
    rw [← List.length_map (f := (·.2)), placedPairs_snd, List.length_range]
  have hhead : ((placedPairs s l g).map (·.2)).headD 0 = 0 := by
    rw [placedPairs_snd]
    cases placedCount s l g <;> simp [List.range_succ_eq_map]
  unfold State.placeFirst
  simp only [hmills, hcount, List.foldl_cons, List.foldl_nil, hfor, htake, hsome, Bool.false_eq_true, if_false, List.nil_append, List.map_cons, List.map_nil]
  rw [show ((freeContexts s g).take (Desc.count l.desc)).zip (List.range (placedCount s l g)) = placedPairs s l g from rfl, hlen, hhead]
  rfl

end Placement

end Sys2Proof.Proofs
end

section
/-! SUPPORT. A launch that is over completes: its status, and its command (R432, R433). -/

namespace Sys2Proof.Proofs

open Sys2Proof Sys2Proof.Machine Sys2Proof.Laws Sys2Proof.Safety

/-! ### The slot and the book of a queue -/

/-- A value put where it meets a test as the one there did leaves the key of the first that meets it. -/
theorem find_put_key {α : Type} {P : Nat × α → Bool} {k : Nat} {v : α} (t : Assoc α) (hv : ∀ w, Assoc.find t k = some w → P (k, v) = P (k, w))
    (hk : (t.find? P).map (·.1) = some k) : ((t.put k v).find? P).map (·.1) = some k := by
  induction t with
  | nil => exact absurd hk (by simp)
  | cons e rest ih =>
    obtain ⟨j, w⟩ := e
    unfold Assoc.put
    by_cases hj : j = k
    · subst hj
      rw [if_pos rfl]
      have hP := hv w (by simp [Assoc.find])
      rw [List.find?_cons] at hk ⊢
      rw [hP]
      cases hw : P (j, w) with
      | true => rfl
      | false => rwa [hw] at hk
    · rw [if_neg hj]
      by_cases hlt : k < j
      · rw [if_pos hlt, List.find?_cons]
        cases P (k, v) with
        | true => rfl
        | false => exact hk
      · rw [if_neg hlt]
        rw [List.find?_cons] at hk ⊢
        cases hw : P (j, w) with
        | true => rwa [hw] at hk
        | false =>
          rw [hw] at hk
          exact ih (fun x hx => hv x (by rw [Assoc.find, if_neg hj]; exact hx)) hk

section Completion

variable {s : State} {part block : Nat}

theorem slotOf_of_queues {t : State} (h : t.queues = s.queues) : t.slotOf part block = s.slotOf part block := by
  unfold State.slotOf
  rw [h]

theorem queue_of_queues {t : State} (h : t.queues = s.queues) (die slot : Nat) : t.queue die slot = s.queue die slot := by
  unfold State.queue
  rw [h]

/-- A change of the queue in the slot that executes it leaves it there. -/
theorem slotOf_modQueue {g : Queue → Queue} {die slot : Nat} (hg : ∀ q, (g q).live = q.live ∧ (g q).part = q.part ∧ (g q).block = q.block)
    (h : s.slotOf part block = some (die, slot)) : (s.modQueue die slot g).slotOf part block = some (die, slot) := by
  unfold State.slotOf at h ⊢
  obtain ⟨e, he, hplace⟩ := Option.map_eq_some_iff.1 h
  obtain ⟨hdie, hslot⟩ := Prod.mk.inj hplace
  have hkey : 64 * die + slot = e.1 := by rw [← hdie, ← hslot]; omega
  have hput := find_put_key (P := fun e : Nat × Queue => e.2.live && decide (e.2.part = part) && decide (e.2.block = block)) (k := 64 * die + slot)
    (v := g (s.queue die slot)) s.queues (fun w hw => by
      have hq : s.queue die slot = w := by
        unfold State.queue Assoc.getD
        rw [hw]
        rfl
      obtain ⟨hlive, hpart, hblock⟩ := hg w
      rw [hq]
      dsimp only
      rw [hlive, hpart, hblock]) (by rw [he, hkey]; rfl)
  obtain ⟨x, hx, hxk⟩ := Option.map_eq_some_iff.1 hput
  show ((s.queues.put (64 * die + slot) (g (s.queue die slot))).find? _).map _ = _
  rw [hx, Option.map_some, hxk, hkey, hdie, hslot]

theorem book_matches {y : Book} (h : s.book part block = some y) : y.part = part ∧ y.block = block := by
  have := List.find?_some h
  simpa using this

/-- A change of a queue's book. -/
theorem book_setBook {y z : Book} (h : s.book part block = some y) (hz : z.part = part ∧ z.block = block) : (s.setBook z).book part block = some z := by
  unfold State.book State.setBook at *
  obtain ⟨rfl, rfl⟩ := hz
  generalize s.books = l at h
  induction l with
  | nil => exact absurd h (by simp)
  | cons x l ih =>
    rw [List.map_cons, List.find?_cons]
    by_cases hx : (decide (x.part = z.part) && decide (x.block = z.block)) = true
    · rw [if_pos hx]
      simp
    · rw [if_neg hx, Bool.eq_false_iff.2 hx]
      rw [List.find?_cons, Bool.eq_false_iff.2 hx] at h
      exact ih h

/-! ### The command of a launch completes -/

theorem writeBlock_queues (die slot off v : Nat) : (s.writeBlock die slot off v).queues = s.queues ∧ (s.writeBlock die slot off v).launches = s.launches := by
  unfold State.writeBlock
  cases h : s.ringStore (s.queue die slot).part false ((s.reg (.queue die slot) 0x08).toNat + off) 8 v with
  | none => exact ⟨rfl, rfl⟩
  | some t =>
    obtain ⟨d, w, rfl⟩ := ringStore_frame h
    exact ⟨rfl, rfl⟩

theorem settleDone_openCmds (die slot : Nat) :
    ((s.settleDone die slot).queue die slot).openCmds = (s.queue die slot).openCmds ∧ (s.settleDone die slot).launches = s.launches := by
  unfold State.settleDone
  dsimp only
  split
  · obtain ⟨hq, hl⟩ := writeBlock_queues (s := s.setQueue die slot { s.queue die slot with done := (s.queue die slot).donePrefix }) die slot 56
      (s.queue die slot).donePrefix
    exact ⟨by rw [queue_of_queues hq, queue_setQueue_same], hl⟩
  · exact ⟨rfl, rfl⟩

theorem completeCommand_slot {cmd die slot : Nat} (h : s.slotOf part block = some (die, slot)) :
    ((s.completeCommand part block cmd).queue die slot).openCmds = (s.queue die slot).openCmds.erase cmd := by
  unfold State.completeCommand
  rw [h]
  dsimp only
  rw [(settleDone_openCmds die slot).1, queue_modQueue_same]

theorem completeCommand_book {cmd : Nat} {y : Book} (hs : s.slotOf part block = none) (h : s.book part block = some y) :
    ∃ y', (s.completeCommand part block cmd).book part block = some y' ∧ y'.openCmds = y.openCmds.erase cmd := by
  have hmatch := book_matches h
  have hset := book_setBook (z := { y with openCmds := y.openCmds.erase cmd }) h hmatch
  refine ⟨{ y with openCmds := y.openCmds.erase cmd }, ?_, rfl⟩
  unfold State.completeCommand
  rw [hs]
  dsimp only
  rw [h]
  dsimp only
  split
  · cases hstore : (s.setBook { y with openCmds := y.openCmds.erase cmd }).ringStore part false (block + 56) 8
        ((y.openCmds.erase cmd).foldl min y.issued) with
    | none => exact hset
    | some t =>
      obtain ⟨d, w, rfl⟩ := ringStore_frame hstore
      exact hset
  · exact hset

theorem completeCommand_launches (cmd : Nat) : (s.completeCommand part block cmd).launches = s.launches := by
  unfold State.completeCommand
  split
  · exact (settleDone_openCmds ..).2
  · split
    · rfl
    · next y _ =>
      dsimp only
      split
      · cases hstore : (s.setBook { y with openCmds := y.openCmds.erase cmd }).ringStore part false (block + 56) 8
            ((y.openCmds.erase cmd).foldl min y.issued) with
        | none => rfl
        | some t =>
          obtain ⟨d, w, rfl⟩ := ringStore_frame hstore
          rfl
      · rfl

/-! ### Its status -/

/-- A status that cannot be written leaves the fault with the queue, and else it changes memory alone. -/
theorem writeStatus_cases (l : Launch) (addr : Option Nat) :
    (∃ t, s.writeStatus l addr = s.pendFault l.part l.block t) ∨ ∃ d w, s.writeStatus l addr = { s with dev := d, walked := w } := by
  unfold State.writeStatus
  cases addr with
  | none => exact .inr ⟨s.dev, s.walked, rfl⟩
  | some a =>
    dsimp only
    split
    · exact .inl ⟨_, rfl⟩
    · split
      · exact .inl ⟨_, rfl⟩
      · split
        · exact .inl ⟨_, rfl⟩
        · obtain ⟨w, hw⟩ := noteWalk_frame s l.part a
          rw [hw]
          exact .inr ⟨_, w, rfl⟩

theorem writeStatus_slot {l : Launch} {addr : Option Nat} {die slot : Nat} (h : s.slotOf l.part l.block = some (die, slot)) :
    (s.writeStatus l addr).slotOf l.part l.block = some (die, slot) ∧
      ((s.writeStatus l addr).queue die slot).openCmds = (s.queue die slot).openCmds := by
  rcases writeStatus_cases (s := s) l addr with ⟨t, ht⟩ | ⟨d, w, hd⟩
  · have hfault : s.pendFault l.part l.block t = s.modQueue die slot fun q => { q with pendFault := some t } := by
      unfold State.pendFault
      rw [h]
    rw [ht, hfault]
    exact ⟨slotOf_modQueue (fun _ => ⟨rfl, rfl, rfl⟩) h, by rw [queue_modQueue_same]⟩
  · rw [hd]
    exact ⟨h, rfl⟩

theorem writeStatus_book {l : Launch} {addr : Option Nat} {y : Book} (hs : s.slotOf l.part l.block = none) (h : s.book l.part l.block = some y) :
    (s.writeStatus l addr).slotOf l.part l.block = none ∧
      ∃ y', (s.writeStatus l addr).book l.part l.block = some y' ∧ y'.openCmds = y.openCmds := by
  rcases writeStatus_cases (s := s) l addr with ⟨t, ht⟩ | ⟨d, w, hd⟩
  · have hfault : s.pendFault l.part l.block t = s.setBook { y with fault := some t } := by
      unfold State.pendFault
      rw [hs]
      dsimp only
      rw [h]
      rfl
    rw [ht, hfault]
    have hmatch := book_matches h
    exact ⟨hs, _, book_setBook (z := { y with fault := some t }) h hmatch, rfl⟩
  · rw [hd]
    exact ⟨hs, y, h, rfl⟩

theorem writeStatus_launches (l : Launch) (addr : Option Nat) : (s.writeStatus l addr).launches = s.launches := by
  rcases writeStatus_cases (s := s) l addr with ⟨t, ht⟩ | ⟨d, w, hd⟩
  · rw [ht]
    unfold State.pendFault
    split
    · rfl
    · cases s.book l.part l.block <;> rfl
  · rw [hd]

/-- The status dword of a launch, where its address can be written. -/
theorem writeStatus_dev {l : Launch} {x : Nat} {y : Xlat} (hx : x % 8 = 0) (hy : s.translate l.part x .write = .ok y)
    (hcode : s.codePage l.part y.phys = false) :
    (s.writeStatus l (some x)).dev = s.dev.write y.phys 8 (l.exit % 2 ^ 32 + l.kind * 2 ^ 56) ∧ (s.writeStatus l (some x)).queues = s.queues ∧
      (s.writeStatus l (some x)).books = s.books := by
  obtain ⟨w, hw⟩ := noteWalk_frame s l.part x
  unfold State.writeStatus
  dsimp only
  rw [if_neg (not_not.2 hx), hy]
  dsimp only
  rw [if_neg (Bool.eq_false_iff.1 hcode), hw]
  exact ⟨rfl, rfl, rfl⟩

end Completion

/-! ### A launch that is over -/

/-- With every index placed, and no context left, a launch is over (R432). -/
theorem launchOver_of {s : State} {key : Nat} {l : Launch} (hstate : l.state = .placed) (haway : s.away = [])
    (hfree : ∀ e ∈ s.agents, e.2.launch = key → e.2.life = .free) (hall : Desc.count l.desc ≤ l.next) (hredo : l.redo = []) :
    s.launchOver key l = true := by
  have halive : s.launchAlive key = false := by
    unfold State.launchAlive
    rw [haway, List.any_nil, Bool.or_false, List.any_eq_false]
    intro e he
    by_cases hk : e.2.launch = key
    · simp [hfree e he hk]
    · simp [hk]
  have hleft : State.Launch.left l = false := by
    unfold State.Launch.left
    simp [hredo, hall]
  unfold State.launchOver
  simp [hstate, halive, hleft]

end Sys2Proof.Proofs
end

section
/-! PROOF. Launches are registered, placed and completed (R56, R126, R127, R239, R255, R430 to R433, R474). -/

namespace Sys2Proof.Proofs

open Sys2Proof Sys2Proof.Machine Sys2Proof.Laws Sys2Proof.Safety

/-- A descriptor that R431 refuses. -/
theorem readDescriptor_bad {s : State} {q : Queue} {m : Bool} {addr : Nat} {bs : List Byte} (ha : addr % 64 = 0)
    (hread : s.readVirtual q.part 2 addr 64 = .ok bs) (hbad : Desc.bad (lineOf bs) m (s.baysOf q.part) = true) :
    readDescriptor s q m addr = .error (5, false) := by
  unfold readDescriptor
  dsimp only
  rw [if_neg (not_not.2 ha), hread]
  exact if_pos hbad

theorem readDescriptor_misaligned {s : State} {q : Queue} {m : Bool} {addr : Nat} (ha : addr % 64 ≠ 0) :
    readDescriptor s q m addr = .error (4, false) := if_pos ha

/-- A core as launchm starts it (R51, R56, R127). -/
theorem launchedCore_fields (s : State) (l : Launch) (x i : Nat) :
    (launchedCore s l (x, i)).life = .running ∧ (launchedCore s l (x, i)).pc = bitsAt l.desc 352 32 ∧
      (launchedCore s l (x, i)).code = ⟨bitsAt l.desc 64 64, bitsAt l.desc 288 32, 0, 0, 0⟩ ∧ (launchedCore s l (x, i)).launch = l.id + 1 ∧
      (launchedCore s l (x, i)).launchid = BitVec.ofNat 32 l.id ∧ (launchedCore s l (x, i)).mcfg = 8 ∧
      ∀ r < 32, (launchedCore s l (x, i)).sregs.toList.getD r 0 =
        [0, 0xFFFFFFFFFFFFFFF0, 0x3C0000, BitVec.ofNat 64 i, BitVec.ofNat 64 (Desc.bays l.desc).length, 0x100].getD r 0 :=
  ⟨rfl, rfl, rfl, rfl, rfl, rfl, fun _ hr => startRegs_getD _ _ _ hr⟩

/-- What LAUNCH_PLACE_RANGE makes of a mill (R255). -/
theorem placement {s : State} {lid g : Nat} {l : Launch} (hlaunch : s.launchOf (lid + 1) = some l) (hlid : lid < 2 ^ 32) (hstate : l.state = .waiting)
    (hcan : s.canPlace (lid + 1) l = true) (hredo : l.redo = []) (hnext : l.next = 0) (hmills : Desc.mills l.desc = [g])
    (hpos : 0 < placedCount s l g) : exec (.launchPlaceRange lid) s = .next
      ((((s.fillMill l g 0 (placedCount s l g)).startThreads (lid + 1) (placedLaunch s l g) (placedPairs s l g)).takeMills (lid + 1) [g]).setLaunch
        (lid + 1) (placedLaunch s l g)) := by
  have hfor : s.freeFor (lid + 1) g = freeContexts s g := by
    refine freeFor_some fun hnil => ?_
    have hany : ((Desc.mills l.desc).any fun m => !(s.freeFor (lid + 1) m).isEmpty) = true := by
      unfold State.canPlace at hcan
      rw [hstate] at hcan
      simp only [Bool.and_eq_true] at hcan
      exact hcan.2.2
    rw [hmills, List.any_cons, hnil] at hany
    exact absurd hany (by simp)
  show Host.Outcome.next _ = _
  rw [if_neg (Nat.not_le.2 hlid), hlaunch]
  dsimp only
  rw [if_neg (by rw [hcan]; decide), hstate]
  exact congrArg Host.Outcome.next (placeFirst_one hmills hfor hredo hnext hpos)

/-- The state that a placement leaves: its contexts, and its page. -/
theorem placement_effect (s : State) (lid g : Nat) (l : Launch) : ∃ ag m,
    ((((s.fillMill l g 0 (placedCount s l g)).startThreads (lid + 1) (placedLaunch s l g) (placedPairs s l g)).takeMills (lid + 1) [g]).setLaunch
      (lid + 1) (placedLaunch s l g)) = { s with
        agents := ag, scr := m,
        launches := (State.takeMills s (lid + 1) [g]).launches.put (lid + 1) (placedLaunch s l g) } ∧
    (∀ f, f ∉ (freeContexts s g).take (placedCount s l g) → State.ctx { s with agents := ag } f = s.ctx f) ∧
    (∀ i < placedCount s l g, State.ctx { s with agents := ag } ((freeContexts s g).getD i 0) =
      threadStart (lid + 1) (placedLaunch s l g) ((freeContexts s g).getD i 0) i (s.ctx ((freeContexts s g).getD i 0))) ∧
    (s.scr.wf = true → l.params = [] →
      PageHolds m (ownScratch g 0) l.descAddr l.id (Desc.count l.desc) 0 (placedCount s l g)) := by
  have hplaced : placedCount s l g < 2 ^ 64 :=
    Nat.lt_of_le_of_lt (Nat.min_le_right _ _) (Nat.lt_trans (bitsAt_lt l.desc 384 32) (by decide))
  obtain ⟨m, hm, hpage⟩ := fillMill_page s l g (lowest := 0) (by decide) hplaced
  obtain ⟨⟨ag, hframe⟩, hother, hown⟩ := startThreads_frame (lid + 1) (placedLaunch s l g) (placedPairs s l g) { s with scr := m }
  rw [hframe] at hother hown
  rw [placedPairs_fst] at hother hown
  refine ⟨ag, m, by rw [hm, hframe]; rfl, hother, fun i hi => ?_, hpage⟩
  exact hown (freeContexts_nodup.sublist (List.take_sublist _ _)) _ (placedPairs_mem hi)

/-- A first range: the threads that start, the launch's record, and the launch page. -/
theorem placed_range {s : State} {lid g : Nat} {l : Launch} (hlaunch : s.launchOf (lid + 1) = some l) (hlid : lid < 2 ^ 32) (hstate : l.state = .waiting)
    (hcan : s.canPlace (lid + 1) l = true) (hredo : l.redo = []) (hnext : l.next = 0) (hmills : Desc.mills l.desc = [g])
    (hpos : 0 < placedCount s l g) : ∃ t, exec (.launchPlaceRange lid) s = .next t ∧ t.launchOf (lid + 1) = some (placedLaunch s l g) ∧
      (∀ f, f ∉ (freeContexts s g).take (placedCount s l g) → t.ctx f = s.ctx f) ∧
      (∀ i < placedCount s l g, t.ctx ((freeContexts s g).getD i 0) =
        threadStart (lid + 1) (placedLaunch s l g) ((freeContexts s g).getD i 0) i (s.ctx ((freeContexts s g).getD i 0))) ∧
      (s.scr.wf = true → l.params = [] →
        PageHolds t.scr (ownScratch g 0) l.descAddr l.id (Desc.count l.desc) 0 (placedCount s l g)) ∧ t.dev = s.dev := by
  obtain ⟨ag, m, hleft, hother, hown, hpage⟩ := placement_effect s lid g l
  refine ⟨_, placement hlaunch hlid hstate hcan hredo hnext hmills hpos, ?_⟩
  rw [hleft]
  exact ⟨find_put_same _ _ _, hother, hown, hpage, rfl⟩

/-- What LAUNCH_COMPLETE makes of a launch that is over. -/
theorem completion {s : State} {lid : Nat} {l : Launch} (hlaunch : s.launchOf (lid + 1) = some l) (hover : s.launchOver (lid + 1) l = true)
    (hsecond : l.second = none) : exec (.launchComplete lid) s = .next
      ((State.writeStatus { s with launches := s.launches.erase (lid + 1) } l l.status).completeCommand l.part l.block l.command) := by
  show Host.Outcome.next _ = _
  rw [hlaunch]
  dsimp only
  rw [if_pos hover]
  unfold State.finishLaunch
  rw [hsecond]

/-- With neither a slot nor a book, nothing is left of a command to complete. -/
theorem completeCommand_nowhere {s : State} {part block cmd : Nat} (hslot : s.slotOf part block = none) (hbook : s.book part block = none) :
    s.completeCommand part block cmd = s := by
  unfold State.completeCommand
  rw [hslot]
  dsimp only
  rw [hbook]

/-- Settles O46: a command by what its queue waits for and by its descriptor, a placement by the contexts that it starts, and a completion by
where its command's queue stands. -/
theorem launchesAreRegisteredPlacedAndCompleted : Obligations.LaunchesAreRegisteredPlacedAndCompleted := by
  unfold Obligations.LaunchesAreRegisteredPlacedAndCompleted
  refine ⟨fun s die slot a b p dep hcur => ?_, fun s lid l hlaunch => ?_⟩
  · intro q addr fails id status scr code place s0 q0 made
    have hnot : dep = 0 ∨ q.openCmds = [] → ¬ (dep = 1 ∧ q.openCmds ≠ []) := by
      rintro hfree ⟨h1, hne⟩
      rcases hfree with h0 | h0
      · exact absurd (h0.symm.trans h1) (by decide)
      · exact hne h0
    refine ⟨fun hl hs => ⟨fun hbusy => ?_, fun hready => ⟨fun ha => ?_, fun bs m ha hread => ?_, fun d ps => ⟨fun hread => ?_,
      fun hread hdep => ?_⟩⟩⟩, fun key hl => ⟨fun hnone hj => ?_, fun hnone hj => ?_, fun l hsome => ⟨fun hw => ?_, fun hp => ?_⟩⟩⟩
    · exact ⟨congrArg Host.Outcome.next (launch_busy hcur hl hs hbusy), congrArg Host.Outcome.next (launch_busy hcur hl hs hbusy)⟩
    · exact ⟨congrArg Host.Outcome.next (launch_fault hcur hl hs hready (readDescriptor_misaligned ha)),
        congrArg Host.Outcome.next (launch_fault hcur hl hs hready (readDescriptor_misaligned ha))⟩
    · intro d bays entry len hbad
      have hrefused : Desc.bad (lineOf bs) m (s.baysOf q.part) = true := bad_iff.2 hbad
      have hfault := launch_fault (dep := dep) (a := a) (p := p) hcur hl hs hready (readDescriptor_bad ha hread hrefused)
      cases m <;> exact congrArg Host.Outcome.next hfault
    · have hturn := launch_reads (dep := dep) (a := a) (p := p) hcur hl hs hready hread
      refine ⟨fun hdep hopen => congrArg Host.Outcome.next (hturn.trans (if_pos ⟨hdep, hopen⟩)), fun hfree => ?_⟩
      intro s1
      rw [if_neg (hnot hfree), if_neg (by decide), register_reached] at hturn
      exact congrArg Host.Outcome.next hturn
    · intro bays free
      have hturn := launch_reads (dep := dep) (a := a) (p := p) hcur hl hs hready hread
      rw [if_neg (hnot hdep), if_pos rfl] at hturn
      change _ = if free then _ else _ at hturn
      refine ⟨fun hfree => congrArg Host.Outcome.next (hturn.trans (if_neg hfree)), fun hfree => ?_⟩
      rw [if_pos hfree] at hturn
      obtain ⟨ag, hruns, hother, hown⟩ := startCores_reached (s := s) (die := die) (slot := slot) (commandLaunch s die slot true a b p d ps)
      refine ⟨ag, congrArg Host.Outcome.next (hturn.trans hruns), hother, fun i x hx => ?_⟩
      have hcore := launchedCore_fields s (commandLaunch s die slot true a b p d ps) x i
      rw [← hown i x hx] at hcore
      exact hcore
    · exact congrArg Host.Outcome.next ((launch_ended hcur hl hnone).trans (if_neg hj))
    · exact congrArg Host.Outcome.next ((launch_ended hcur hl hnone).trans (if_pos hj))
    · exact congrArg Host.Outcome.next ((launch_registered hcur hl hsome).trans (if_pos hw))
    · exact congrArg Host.Outcome.next ((launch_registered hcur hl hsome).trans (if_neg (by rw [hp]; decide)))
  · intro d epoch
    refine ⟨fun behind hb => ?_, fun g hlid hstate hcan hredo hnext hmills => ?_, fun hstate haway hfree hall hredo hsecond => ?_⟩
    · exact congrArg Host.Outcome.next (if_pos (by omega))
    · intro free k page hpos _
      obtain ⟨t, hexec, hrecord, hother, hown, hpage, hdev⟩ := placed_range hlaunch hlid hstate hcan hredo hnext hmills hpos
      have hplace : ownScratch g 0 = page := congrArg (g / 4 * 0x1000000 + ·) (Nat.add_zero _)
      rw [hplace] at hpage
      refine ⟨t, hexec, hrecord, hother, fun i hi => (hown i hi).trans ?_, hpage, hdev⟩
      have hdetm : BitVec.ofNat 2 (b2n (Desc.det l.desc) + 2 * b2n (Desc.splice l.desc)) = BitVec.ofNat 2 (bitsAt l.desc 486 2) :=
        congrArg _ (two_bits l.desc 486)
      unfold threadStart
      dsimp only
      rw [show (placedLaunch s l g).desc = l.desc from rfl, hdetm]
      rfl
    · have hover := launchOver_of (key := lid + 1) hstate haway hfree hall hredo
      refine ⟨_, completion hlaunch hover hsecond, ?_, fun d k hslot => ?_, fun y hslot hbook => ?_, fun x y hx hal hy hcode hslot hbook => ?_⟩
      · unfold State.launchOf
        rw [completeCommand_launches, writeStatus_launches]
        exact find_erase_same ..
      · obtain ⟨hslot', hopen⟩ := writeStatus_slot (s := { s with launches := s.launches.erase (lid + 1) }) (addr := l.status) hslot
        exact (completeCommand_slot hslot').trans (congrArg (List.erase · l.command) hopen)
      · obtain ⟨hslot', y1, hbook', hopen⟩ := writeStatus_book (s := { s with launches := s.launches.erase (lid + 1) }) (addr := l.status) hslot hbook
        obtain ⟨y2, hbook2, hopen2⟩ := completeCommand_book (cmd := l.command) hslot' hbook'
        exact ⟨y2, hbook2, by rw [hopen2, hopen]⟩
      · have hsame := translate_congr (s := s) (t := { s with launches := s.launches.erase (lid + 1) }) rfl rfl rfl rfl l.part x .write
        obtain ⟨hdev, hqueues, hbooks⟩ := writeStatus_dev (s := { s with launches := s.launches.erase (lid + 1) }) hal (hsame.trans hy) hcode
        rw [hx, completeCommand_nowhere ((slotOf_of_queues hqueues).trans hslot) (by unfold State.book; rw [hbooks]; exact hbook)]
        exact hdev

end Sys2Proof.Proofs
end

section
/-! SUPPORT. The cross-lane instructions as `VOp`s: their words, the context that a written element leaves unchanged, and the Hadamard stage (R329, R330). -/

namespace Sys2Proof.Proofs

open Sys2Proof Sys2Proof.Machine Sys2Proof.Laws Sys2Proof.Safety

/-! ### Their words -/

/-- A word of OP 0x25: its opcode and its function code, which alone tells a `vbfly.c`. -/
theorem crossWord (k : Fin 6) (d a : BitVec 6) (x : BitVec 5) (p : BitVec 4) :
    opOf (asm (0x94000000 + k) [(d.toNat, 20), (a.toNat, 14), (x.toNat, 9), (p.toNat, 5)]) = 0x25 ∧
    bitsAt (asm (0x94000000 + k) [(d.toNat, 20), (a.toNat, 14), (x.toNat, 9), (p.toNat, 5)]) 0 5 = k := by
  have hfree : (decide (0x94000000 + k.val < 2 ^ 32) && Encoding.free (0x94000000 + k) [(20, 6), (14, 6), (9, 5), (5, 4)]) = true := by
    revert k; decide +kernel
  have hop : (Encoding.apart 26 6 [(20, 6), (14, 6), (9, 5), (5, 4)] && Nat.beq ((0x94000000 + k) / 2 ^ 26 % 2 ^ 6) 0x25) = true := by
    revert k; decide +kernel
  have hlow : (Encoding.apart 0 5 [(20, 6), (14, 6), (9, 5), (5, 4)] && Nat.beq ((0x94000000 + k) / 2 ^ 0 % 2 ^ 5) k) = true := by
    revert k; decide +kernel
  obtain ⟨W, hW, -, hbits⟩ := Encoding.asm_reads (0x94000000 + k) [(d.toNat, 20, 6), (a.toNat, 14, 6), (x.toNat, 9, 5), (p.toNat, 5, 4)]
    _ _ rfl rfl hfree ⟨d.isLt, a.isLt, x.isLt, p.isLt, trivial⟩
  exact ⟨(congrArg opOf hW).trans (hbits 26 6 _ hop), (congrArg (fun w => bitsAt w 0 5) hW).trans (hbits 0 5 _ hlow)⟩

/-- Every other word of OP 0x25 than `vbfly.c` forms a convoy by itself. -/
theorem single_cross {op : VOp} (k : Fin 6) (d a : BitVec 6) (x : BitVec 5) (p : BitVec 4) (hk : k ≠ 5)
    (hw : op.word = asm (0x94000000 + k) [(d.toNat, 20), (a.toNat, 14), (x.toNat, 9), (p.toNat, 5)]) : Single op := by
  obtain ⟨hop, hlow⟩ := crossWord k d a x p
  have hk5 : (k : Nat) ≠ 5 := fun h => hk (Fin.ext h)
  unfold Single isChain
  rw [hw, hop, hlow]
  exact ⟨by simp [hk5], by decide⟩

/-- A field that is 0 leaves the word as it is. -/
theorem asm_zero (k at' : Nat) (fs : List (Nat × Nat)) : asm k ((0, at') :: fs) = asm k fs := by
  unfold asm
  rw [List.foldl_cons, Nat.zero_mul, Nat.add_zero]

theorem asm_swap (k : Nat) (f g : Nat × Nat) (fs : List (Nat × Nat)) : asm k (f :: g :: fs) = asm k (g :: f :: fs) := by
  unfold asm
  simp only [List.foldl_cons, Nat.add_right_comm]

theorem vid_word (d : BitVec 6) (p : BitVec 4) :
    (Instr.vid d p).word = asm 0x94000003 [(d.toNat, 20), (0, 14), (0, 9), (p.toNat, 5)] := by
  rw [asm_swap, asm_zero, asm_swap, asm_zero]
  rfl

theorem vbcast_word (d : BitVec 6) (x : BitVec 5) (p : BitVec 4) :
    (Instr.vbcast d x p).word = asm 0x94000004 [(d.toNat, 20), (0, 14), (x.toNat, 9), (p.toNat, 5)] := by
  rw [asm_swap, asm_zero]
  rfl

theorem isChain_vbflyC (d a : BitVec 6) (x : BitVec 5) (p : BitVec 4) : isChain (Instr.vbflyC d a x p).word = true := by
  obtain ⟨hop, hlow⟩ := crossWord 5 d a x p
  have hop' : opOf (Instr.vbflyC d a x p).word = 0x25 := hop
  have hlow' : bitsAt (Instr.vbflyC d a x p).word 0 5 = 5 := hlow
  unfold isChain
  rw [hop', hlow']
  rfl

/-! ### An element written back unchanged -/

theorem setBits_bitsAt {k : Nat} (w : BitVec k) (lo n : Nat) : setBits w lo n (bitsAt w lo n) = w := by
  have hw : w.toNat % 2 ^ lo + 2 ^ lo * (w.toNat / 2 ^ lo % 2 ^ n) + 2 ^ (lo + n) * (w.toNat / 2 ^ (lo + n)) = w.toNat := by
    rw [pow_add, ← Nat.mod_mul, Nat.mod_add_div]
  unfold setBits bitsAt
  rw [Nat.mod_mod, hw, BitVec.ofNat_toNat, BitVec.setWidth_eq]

theorem accrue_zero (c : Ctx) : c.accrue 0 = c := by
  have hflags (fl : Flags) : fl ||| 0 = fl := BitVec.or_zero
  have hcheck (o : Option Checkpoint) : (o.map fun k => { k with fflags := k.fflags ||| 0 }) = o := by
    cases o with
    | none => rfl
    | some k => simp only [Option.map_some, hflags]
  unfold Ctx.accrue Ctx.behind Ctx.raiseFlags
  have hentry : (fun e : VqEntry => { e with check := e.check.map fun k => { k with fflags := k.fflags ||| 0 } }) = id := by
    funext e
    rw [hcheck]
    rfl
  rw [hentry, List.map_id, hflags]

theorem put_bits (c : Ctx) (n i : Nat) : c.put n i (c.bits n i) = c := by
  unfold Ctx.put Ctx.setElem Ctx.bits Ctx.elem
  split
  · unfold setSliceBytes sliceBytes
    rw [setBits_bitsAt]
  · rfl

theorem putFlags_bits (c : Ctx) (n i : Nat) : c.putFlags n i (c.bits n i, 0) = c := by
  unfold Ctx.putFlags
  rw [put_bits, accrue_zero]

/-! ### The distance of a butterfly, and its stage -/

theorem distanceBad_iff (x : Dword) : distanceBad x = false ↔ ∃ k < 16, x.toNat = 2 ^ k := by
  simp [distanceBad]

theorem latched_none {c : Ctx} (h : c.latch = none) : c.latched = c.bits := by
  funext n i
  unfold Ctx.latched
  rw [h]

theorem isInt_eq_not_isFloat {t : Tag} (h : t.isNum = true) : t.isInt = !t.isFloat := by
  revert h
  cases t <;> decide

/-- The model's Hadamard stage is that of R330. -/
theorem butterfly_eq_hadamard {c : Ctx} {a : BitVec 6} (h : (c.tag a.toNat).isNum = true) (n i : Nat) :
    butterfly (c.tag a.toNat) c.vrm n (c.bits a.toNat) i = hadamard c a n i := by
  unfold butterfly hadamard
  dsimp only
  rw [isInt_eq_not_isFloat h]
  cases (c.tag a.toNat).isFloat with
  | true => simp
  | false => simp

end Sys2Proof.Proofs
end

section
/-! SUPPORT. The cross-lane instructions run as element loops (R329, R330): each reads its source group where no element of the loop writes. -/

namespace Sys2Proof.Proofs

open Sys2Proof Sys2Proof.Machine Sys2Proof.Laws Sys2Proof.Safety

/-! ### The instructions -/

section Operations

variable (d a : BitVec 6) (x : BitVec 5) (p : BitVec 4)

def vidOp : VOp :=
  { elementwise (Instr.vid d p).word 0 p d.toNat [] (fun c => !arithTag (c.tagOf d))
      (fun _ i c => (c.tagOf d).roundTo c.vrm (.int i)) with inBlock := false }

def vbcastOp : VOp :=
  { elementwise (Instr.vbcast d x p).word x.toNat p d.toNat [] (fun _ => false)
      (fun env _ c => (scalarBits (c.tagOf d) env.sa, 0)) with inBlock := false }

def slideTags (c : Ctx) : Bool := (c.tagOf a).bytes ≠ (c.tagOf d).bytes

def vslideupOp : VOp :=
  crossLane (Instr.vslideup d a x p).word x p d a (slideTags d a)
    (fun env i => decide (env.sa.toNat ≤ i)) fun env i c => (c.bits a.toNat (i - env.sa.toNat), 0)

def vslidednOp : VOp :=
  crossLane (Instr.vslidedn d a x p).word x p d a (slideTags d a)
    (fun _ _ => true) fun env i c => (c.bits a.toNat (i + env.sa.toNat), 0)

/-- An element of a butterfly, from the latch where that is filled. -/
def bflyElem (env : Env) (i : Nat) (c : Ctx) : Nat × Flags := butterfly (c.tagOf a) c.vrm env.sa.toNat (c.latched a.toNat) i

/-- `vbfly` but for the latch that it empties. -/
def bflyLoop : VOp :=
  { crossLane (Instr.vbfly d a x p).word x p d a (fun _ => false) (fun _ _ => true) (bflyElem a) with
    decode := fun _ c => bflyDecode false d a x c
    reader := some a.toNat }

def vbflyOp : VOp := { bflyLoop d a x p with finish := dropLatch, idle := dropLatch }

def vbflyCOp : VOp :=
  { crossLane (Instr.vbflyC d a x p).word x p d a (fun _ => false) (fun _ _ => true) (fun _ _ _ => (0, 0)) with
    decode := fun _ c => bflyDecode true d a x c
    whole := some fun env lo s =>
      let c := s.ctx env.f
      let es := latchElements c d.toNat a.toNat p.toNat env.sa.toNat lo
      .ok (s.setCtx env.f ({ c with latch := some ⟨d.toNat, es.map Prod.fst⟩ }.accrue (es.foldl (fun (fl : Flags) (e : Nat × Flags) => fl ||| e.2) 0)))
    idle := fun env s => s.modCtx env.f fun c =>
      { c with latch := some ⟨d.toNat, (latchElements c d.toNat a.toNat p.toNat env.sa.toNat c.reals).map Prod.fst⟩ }
    reader := some a.toNat }

theorem exec_vid (s : State) : exec (.vid d p) s = .next (s.vector (vidOp d p)) := rfl
theorem exec_vbcast (s : State) : exec (.vbcast d x p) s = .next (s.vector (vbcastOp d x p)) := rfl
theorem exec_vslideup (s : State) : exec (.vslideup d a x p) s = .next (s.vector (vslideupOp d a x p)) := rfl
theorem exec_vslidedn (s : State) : exec (.vslidedn d a x p) s = .next (s.vector (vslidednOp d a x p)) := rfl
theorem exec_vbfly (s : State) : exec (.vbfly d a x p) s = .next (s.vector (vbflyOp d a x p)) := rfl
theorem exec_vbflyC (s : State) : exec (.vbflyC d a x p) s = .next (s.vector (vbflyCOp d a x p)) := rfl

/-! ### As element loops -/

theorem single_vid : Single (vidOp d p) := single_cross 3 d 0 0 p (by decide) (vid_word d p)
theorem single_vbcast : Single (vbcastOp d x p) := single_cross 4 d 0 x p (by decide) (vbcast_word d x p)
theorem single_vslideup : Single (vslideupOp d a x p) := single_cross 0 d a x p (by decide) rfl
theorem single_vslidedn : Single (vslidednOp d a x p) := single_cross 1 d a x p (by decide) rfl
theorem single_vbfly : Single (bflyLoop d a x p) := single_cross 2 d a x p (by decide) rfl

end Operations

variable {d a : BitVec 6} {x : BitVec 5} {p : BitVec 4} {word : Word}

/-- That a block may not hold the instruction is no matter of its loop. -/
theorem isElementwise_outsideBlocks {op : VOp} {pm n : Nat} {F : Env → Nat → Ctx → Nat × Flags} (h : IsElementwise op pm n F) :
    IsElementwise { op with inBlock := false } pm n F :=
  ⟨h.pm, h.single, h.elem, h.skip, h.whole, h.busy, h.begin', h.finish, h.limit, h.push⟩

theorem vid_isElementwise : IsElementwise (vidOp d p) p.toNat d.toNat fun _ i c => (c.tagOf d).roundTo c.vrm (.int i) :=
  isElementwise_outsideBlocks (isElementwise (Instr.vid d p).word 0 p d.toNat [] _ _ (single_vid d p))

theorem vbcast_isElementwise : IsElementwise (vbcastOp d x p) p.toNat d.toNat fun env _ c => (scalarBits (c.tagOf d) env.sa, 0) :=
  isElementwise_outsideBlocks (isElementwise (Instr.vbcast d x p).word x.toNat p d.toNat [] _ _ (single_vbcast d x p))

/-- An element that a cross-lane instruction passes over is one that it writes back as it stands. -/
theorem crossLane_isElementwise {tagsBad : Ctx → Bool} {only : Env → Nat → Bool} {G : Env → Nat → Ctx → Nat × Flags}
    (h : Single (crossLane word x p d a tagsBad only G)) :
    IsElementwise (crossLane word x p d a tagsBad only G) p.toNat d.toNat
      fun env i c => if only env i then G env i c else (c.bits d.toNat i, 0) where
  pm := rfl
  single := h
  elem := fun env i u c => by
    unfold crossLane
    dsimp only
    rw [ctx_setCtx_same]
    cases only env i with
    | true => simp only [if_true, setCtx_setCtx]
    | false => simp only [Bool.false_eq_true, if_false, putFlags_bits]
  skip := fun _ _ _ => rfl
  whole := rfl
  busy := fun _ _ _ => rfl
  begin' := fun _ _ => rfl
  finish := fun _ _ => rfl
  limit := fun _ => rfl
  push := rfl

theorem bflyLoop_isElementwise : IsElementwise (bflyLoop d a x p) p.toNat d.toNat (bflyElem a) where
  pm := rfl
  single := single_vbfly d a x p
  elem := fun env i u c => by
    unfold bflyLoop crossLane
    simp only [if_true, ctx_setCtx_same, setCtx_setCtx]
  skip := fun _ _ _ => rfl
  whole := rfl
  busy := fun _ _ _ => rfl
  begin' := fun _ _ => rfl
  finish := fun _ _ => rfl
  limit := fun _ => rfl
  push := rfl

/-! ### The latch that is empty stays so -/

/-- An element that is written changes the file, the flags and what a discard restores of them. -/
theorem putFlags_inFlight (c0 c : Ctx) (q : VqEntry) (n i : Nat) (r : Nat × Flags) :
    ∃ q' c', SameEntry q' q ∧ (inFlight c0 q c).putFlags n i r = inFlight c0 q' c' ∧ c'.latch = c.latch ∧ c'.share = c.share ∧
      c'.preds = c.preds := by
  obtain ⟨q', hsame, hq⟩ := accrue_inFlight c0 (c.setElem n ((inFlight c0 q c).tag n).bytes i r.1) q r.2
  refine ⟨q', (c.setElem n ((inFlight c0 q c).tag n).bytes i r.1).raiseFlags r.2, hsame, ?_, ?_⟩
  · unfold Ctx.putFlags Ctx.put
    rw [setElem_inFlight, hq]
  · unfold Ctx.raiseFlags Ctx.setElem
    split <;> exact ⟨rfl, rfl, rfl⟩

theorem dropLatch_empty {env : Env} {s : State} {c : Ctx} (h : c.latch = none) : dropLatch env (s.setCtx env.f c) = s.setCtx env.f c := by
  have hsame : ({ c with latch := none } : Ctx) = c := by rw [← h]
  unfold dropLatch
  rw [modCtx_setCtx, hsame]

/-- The completion of an instruction that does the same at its end as another. -/
theorem vectorEnd_finish {op : VOp} {f : Nat} {c : Ctx} {s : State} {g idle : Env → State → State}
    (h : ∀ env, env.f = f → g env s = op.finish env s) : vectorEnd { op with finish := g, idle := idle } f c s = vectorEnd op f c s := by
  unfold vectorEnd
  dsimp only
  rw [h _ rfl]
  rfl

/-- With no latch filled, an element loop that empties the latch at its end does nothing beside. -/
theorem vector_dropLatch {s : State} {f pm n : Nat} {op : VOp} {F : Env → Nat → Ctx → Nat × Flags} (ho : IsElementwise op pm n F)
    (h : VectorReady s f [op.sa, op.sb, op.dest]) (hs : HasStrip (s.ctx f)) (hd : op.decode f (s.ctx f) = none)
    (hi : op.issue (envOf op s f) (readyState op s f) = none) :
    s.vector { op with finish := dropLatch, idle := dropLatch } = s.vector op := by
  obtain ⟨-, -, hq, hl, -, hlatch, -⟩ := id h
  have hloop := loopCtx_eq (op := op) (pushOnly_id ho.push) ho.single hq hl
  obtain ⟨q, c, -, hrun, hc, hshare, -⟩ := elements_keep (u := s) (f := f) (pm := pm) (B := (s.ctx f).vstart + ((s.ctx f).reals - (s.ctx f).vstart))
    (c0 := s.ctx f) (env := envOf op s f) (el := op.elem) (sk := op.skip) rfl
    (fun _ c => c.latch = none ∧ c.share = (s.ctx f).share ∧ c.preds = (s.ctx f).preds)
    (fun i c hI j => Or.inl (by unfold Ctx.pbit; rw [hI.2.2]))
    (fun i c q _ hI _ => by
      obtain ⟨q', c', hsame, heq, hl', hs', hp'⟩ := putFlags_inFlight (s.ctx f) c q n i (F (envOf op s f) i (inFlight (s.ctx f) q c))
      refine ⟨q', c', hsame, (ho.elem (envOf op s f) i s _).trans (congrArg (fun c => Res.ok (s.setCtx f c)) heq), hl'.trans hI.1,
        hs'.trans hI.2.1, hp'.trans hI.2.2⟩)
    (fun i c q _ hI _ => ⟨q, c, .refl q, ho.skip _ _ _, hI⟩)
    ((s.ctx f).reals - (s.ctx f).vstart) (s.ctx f).vstart (s.ctx f) (op.entry (s.ctx f)) (Nat.le_refl _) ⟨hlatch, rfl, rfl⟩
  have hdrop (env : Env) (he : env.f = f) (m : Nat) : dropLatch env ((s.setCtx f (inFlight (s.ctx f) q c)).chargeAlone f m) =
      (s.setCtx f (inFlight (s.ctx f) q c)).chargeAlone f m := by
    rw [chargeAlone_setCtx (c := inFlight (s.ctx f) q c) hshare]
    exact he ▸ dropLatch_empty (env := env) hc
  have hstrip : (s.ctx f).vstart < (loopCtx op (s.ctx f)).vl := by rw [hloop]; exact hs
  have hstart : loopState op f s = beginState op s f := by unfold loopState; rw [hloop]; rfl
  have hruns : op.run (envOf op s f) (s.ctx f).vstart (op.limit (loopCtx op (s.ctx f)))
      (if (s.ctx f).vstart = 0 then op.begin' (envOf op s f) (loopState op f s) else loopState op f s) =
      .ok (s.setCtx f (inFlight (s.ctx f) q c)) := by
    rw [hstart, ho.begin', ite_self, ho.limit, hloop]
    unfold VOp.run
    rw [ho.whole, ho.pm]
    exact hrun
  have hissue : op.issue (envOf op s f) (checkState op f s) = none := by
    unfold checkState; rw [hloop]; exact hi
  have hconvoy : (loopCtx op (s.ctx f)).convoyLeft ≠ 0 := by rw [hloop]; exact Nat.one_ne_zero
  have hat : (loopCtx op (s.ctx f)).startAt 0 (op.entry (s.ctx f)) = (s.ctx f).vstart := by rw [hloop]; exact startAt_one
  rw [vector_completes (op := op) (vector_begin h) hd hconvoy hat (Or.inl hstrip) hissue (ho.busy _ _ _) hruns,
    vector_completes (op := { op with finish := dropLatch, idle := dropLatch }) (vector_begin h) hd hconvoy hat (Or.inl hstrip) hissue
      (ho.busy _ _ _) hruns]
  exact vectorEnd_finish fun env he => ((hdrop env he) _).trans (ho.finish _ _).symm

end Sys2Proof.Proofs
end

section
/-! SUPPORT. What the slides, `vid`, `vbcast` and `vbfly` write, and which check refuses them (R313, R329 to R331). -/

namespace Sys2Proof.Proofs

open Sys2Proof Sys2Proof.Machine Sys2Proof.Laws Sys2Proof.Safety

variable {s : State} {f : Nat} {d a : BitVec 6} {x : BitVec 5} {p : BitVec 4}

/-! ### What each reads -/

theorem readsGroups_vid : ReadsGroups (s.ctx f) d.toNat ((s.ctx f).tag d.toNat).bytes [] (envOf (vidOp d p) s f)
    (fun _ i c => (c.tagOf d).roundTo c.vrm (.int i)) fun i => ((s.ctx f).tagOf d).roundTo (s.ctx f).vrm (.int i) :=
  fun _ _ _ _ _ => rfl

theorem readsGroups_vbcast : ReadsGroups (s.ctx f) d.toNat ((s.ctx f).tag d.toNat).bytes [] (envOf (vbcastOp d x p) s f)
    (fun env _ c => (scalarBits (c.tagOf d) env.sa, 0)) fun _ => (scalarBits ((s.ctx f).tagOf d) ((s.ctx f).s x.toNat), 0) :=
  fun _ _ _ _ _ => rfl

theorem readsGroups_slideup (hda : d ≠ a) :
    ReadsGroups (s.ctx f) d.toNat ((s.ctx f).tag d.toNat).bytes [a.toNat, d.toNat] (envOf (vslideupOp d a x p) s f)
      (fun env i c => if decide (env.sa.toNat ≤ i) then (c.bits a.toNat (i - env.sa.toNat), 0) else (c.bits d.toNat i, 0))
      fun i => (if ((s.ctx f).s x.toNat).toNat ≤ i then (s.ctx f).bits a.toNat (i - ((s.ctx f).s x.toNat).toNat)
        else (s.ctx f).bits d.toNat i, 0) := by
  intro i q sl fl hkept
  have ha (j : Nat) : ({ s.ctx f with slice := sl } : Ctx).bits a.toNat j = (s.ctx f).bits a.toNat j :=
    hkept a.toNat (by simp) _ _ fun h => absurd (BitVec.eq_of_toNat_eq h.symm) hda
  have hd : ({ s.ctx f with slice := sl } : Ctx).bits d.toNat i = (s.ctx f).bits d.toNat i :=
    hkept d.toNat (by simp) _ _ fun _ => ⟨rfl, Nat.le_refl i⟩
  have hsa : (envOf (vslideupOp d a x p) s f).sa = (s.ctx f).s x.toNat := rfl
  simp only [hsa, decide_eq_true_eq]
  split
  · exact congrArg (·, (0 : Flags)) (ha _)
  · exact congrArg (·, (0 : Flags)) hd

theorem readsGroups_slidedn (hda : d ≠ a) :
    ReadsGroups (s.ctx f) d.toNat ((s.ctx f).tag d.toNat).bytes [a.toNat] (envOf (vslidednOp d a x p) s f)
      (fun env i c => if true then (c.bits a.toNat (i + env.sa.toNat), 0) else (c.bits d.toNat i, 0))
      fun i => ((s.ctx f).bits a.toNat (i + ((s.ctx f).s x.toNat).toNat), 0) := by
  intro i q sl fl hkept
  exact congrArg (·, (0 : Flags)) (hkept a.toNat (by simp) _ _ fun h => absurd (BitVec.eq_of_toNat_eq h.symm) hda)

theorem readsGroups_vbfly (hda : d ≠ a) (hl : (s.ctx f).latch = none) (hnum : ((s.ctx f).tag a.toNat).isNum = true) :
    ReadsGroups (s.ctx f) d.toNat ((s.ctx f).tag d.toNat).bytes [a.toNat] (envOf (bflyLoop d a x p) s f) (bflyElem a)
      (hadamard (s.ctx f) a ((s.ctx f).s x.toNat).toNat) := by
  intro i q sl fl hkept
  have hbits : (inFlight (s.ctx f) q { s.ctx f with slice := sl, fflags := fl }).bits a.toNat = (s.ctx f).bits a.toNat := by
    funext j
    exact hkept a.toNat (by simp) _ _ fun h => absurd (BitVec.eq_of_toNat_eq h.symm) hda
  unfold bflyElem
  rw [latched_none (c := inFlight (s.ctx f) q { s.ctx f with slice := sl, fflags := fl }) hl, hbits]
  exact butterfly_eq_hadamard hnum _ i

/-! ### The checks -/

/-- Groups that each can hold VL elements pass the check of fit. -/
theorem fitTrap_none {op : VOp} {ns : List Nat} (h : GroupsOk (s.ctx f) ns) : fitTrap ns (envOf op s f) (readyState op s f) = none := by
  have hctx : (readyState op s f).ctx (envOf op s f).f = aboutTo (s.ctx f) (op.entry (s.ctx f)) (s.ctx f) := ctx_setCtx_same ..
  unfold fitTrap
  rw [hctx]
  exact if_pos (groupsOk_checks h).2.2

section Decode

variable {c : Ctx}

theorem vid_decode (hg : GroupsOk c [d.toNat]) : (vidOp d p).decode f c = if (c.tagOf d).isNum = true then none else some .tag := by
  obtain ⟨hbad, htag, -⟩ := groupsOk_checks hg
  unfold vidOp elementwise
  simp only [firstTrap, hbad, htag, arithTag, Bool.false_or, Bool.false_eq_true, if_false]
  cases (c.tagOf d).isNum <;> rfl

theorem vbcast_decode (hg : GroupsOk c [d.toNat]) : (vbcastOp d x p).decode f c = none := by
  obtain ⟨hbad, htag, -⟩ := groupsOk_checks hg
  unfold vbcastOp elementwise
  simp only [firstTrap, hbad, htag, Bool.or_self, Bool.false_eq_true, if_false]

/-- Of an instruction that may not name its source as its destination, the same group twice fails before the tags (R75, R313). -/
theorem crossLane_sameGroup {word : Word} {tb : Ctx → Bool} {only : Env → Nat → Bool} {G : Env → Nat → Ctx → Nat × Flags} (h : d = a) :
    (crossLane word x p d a tb only G).decode f c = some .operand := if_pos (by simp [h])

theorem crossLane_decode {word : Word} {tb : Ctx → Bool} {only : Env → Nat → Bool} {G : Env → Nat → Ctx → Nat × Flags}
    (hg : GroupsOk c [d.toNat, a.toNat]) (h : d ≠ a) :
    (crossLane word x p d a tb only G).decode f c = if tb c then some .tag else none := by
  obtain ⟨hbad, htag, -⟩ := groupsOk_checks hg
  unfold crossLane
  simp only [firstTrap, hbad, htag, h, decide_false, Bool.or_self, Bool.false_or, Bool.false_eq_true, if_false]

theorem bflyDecode_distance {chain : Bool} (h : ¬ ∃ k < 16, (c.s x.toNat).toNat = 2 ^ k) : bflyDecode chain d a x c = some .operand := by
  have hbad : distanceBad (c.s x.toNat) = true := by
    rw [← Bool.not_eq_false, distanceBad_iff]
    exact h
  exact if_pos (by simp [hbad])

/-- With no latch named by the queue, `vbfly` may not name its source as its destination. -/
theorem readerClash_empty (h : c.vq = []) (n m : Nat) : c.readerClash n m = decide (n = m) := by
  simp [Ctx.readerClash, Ctx.latchNext, h]

theorem bflyDecode_sameGroup (hq : c.vq = []) (h : d = a) : bflyDecode false d a x c = some .operand :=
  if_pos (by simp [readerClash_empty hq, h])

theorem bflyDecode_groups {chain : Bool} (hq : c.vq = []) (hg : GroupsOk c [d.toNat, a.toNat]) (hda : chain = true ∨ d ≠ a)
    (hn : ∃ k < 16, (c.s x.toNat).toNat = 2 ^ k) :
    bflyDecode chain d a x c = if c.tagOf a = c.tagOf d ∧ (c.tagOf a).isNum = true then none else some .tag := by
  obtain ⟨hbad, htag, -⟩ := groupsOk_checks hg
  have hclash : (!chain && decide (d.toNat = a.toNat)) = false := by
    rcases hda with rfl | hda
    · rfl
    · simp [BitVec.toNat_inj, hda]
  have hdist := (distanceBad_iff _).2 hn
  unfold bflyDecode
  simp only [firstTrap, hbad, htag, hdist, readerClash_empty hq, hclash, Bool.or_self, Bool.false_or, Bool.false_eq_true, if_false, arithTag]
  by_cases he : c.tagOf a = c.tagOf d ∧ (c.tagOf a).isNum = true
  · rw [if_pos he]
    simp [he.1, he.1 ▸ he.2]
  · rw [if_neg he, if_pos]
    rw [not_and_or] at he
    rcases he with he | he <;> simp [he]

end Decode

end Sys2Proof.Proofs
end

section
/-! SUPPORT. `vid`, `vbcast`, the slides and `vbfly` write their groups, or are refused (R313, R329, R330). -/

namespace Sys2Proof.Proofs

open Sys2Proof Sys2Proof.Machine Sys2Proof.Laws Sys2Proof.Safety

variable {s : State} {f : Nat} {d a : BitVec 6} {x : BitVec 5} {p : BitVec 4}

/-- A thread ready for an instruction that names a register is ready for one that names none. -/
theorem vectorReady_noRegisters {r : Nat} (h : VectorReady s f [r, 0, 0]) : VectorReady s f [0, 0, 0] :=
  ⟨ready_of_subset h.1 (by simp), h.2⟩

/-- What an element loop that passes its checks writes into its destination group. -/
theorem writesGroup_elementwise {op : VOp} {i : Instr} {ns : List Nat} {F : Env → Nat → Ctx → Nat × Flags} {r : Nat → Nat × Flags}
    (ho : IsElementwise op p.toNat d.toNat F) (hexec : exec i s = .next (s.vector op)) (hword : op.word = i.word)
    (he : elementsOf i (s.ctx f) = (s.ctx f).reals) (h : VectorReady s f [op.sa, op.sb, op.dest]) (hs : HasStrip (s.ctx f))
    (hd : op.decode f (s.ctx f) = none) (hi : op.issue (envOf op s f) (readyState op s f) = none) (hg : GroupsOk (s.ctx f) (d.toNat :: ns))
    (hr : ReadsGroups (s.ctx f) d.toNat ((s.ctx f).tag d.toNat).bytes ns (envOf op s f) F r) : WritesGroup s f i d p r := by
  obtain ⟨sl, hnext, hwritten⟩ := elementwise_next ho hword he h hs hd hi hg hr
  exact ⟨sl, hexec.trans (congrArg Host.Outcome.next hnext), hwritten⟩

/-- A refused instruction stops the context at it. -/
theorem exec_refused {op : VOp} {i : Instr} {t : Trap} (hexec : exec i s = .next (s.vector op)) (h : VectorReady s f [op.sa, op.sb, op.dest])
    (hd : op.decode f (s.ctx f) = some t) (hs : Settled s f) : exec i s = .next (stopped s f t) :=
  hexec.trans (congrArg Host.Outcome.next (vector_refused h hd hs))

section Ready

variable (h : VectorReady s f [x.toNat, 0, 0])
include h

/-! ### vid and vbcast -/

theorem vid_writes (hs : HasStrip (s.ctx f)) (hg : GroupsOk (s.ctx f) [d.toNat]) (hnum : ((s.ctx f).tagOf d).isNum = true) :
    WritesGroup s f (.vid d p) d p fun i => ((s.ctx f).tagOf d).roundTo (s.ctx f).vrm (.int i) :=
  writesGroup_elementwise vid_isElementwise (exec_vid d p s) rfl rfl (vectorReady_noRegisters h) hs
    ((vid_decode hg).trans (if_pos hnum)) (fitTrap_none (op := vidOp d p) hg) hg
    readsGroups_vid

theorem vid_refused (hg : GroupsOk (s.ctx f) [d.toNat]) (hnum : ((s.ctx f).tagOf d).isNum = false) (hset : Settled s f) :
    exec (.vid d p) s = .next (stopped s f .tag) := by
  have hdec : (vidOp d p).decode f (s.ctx f) = some .tag := (vid_decode hg).trans (if_neg (by simp [hnum]))
  exact exec_refused (exec_vid d p s) (vectorReady_noRegisters h) hdec hset

theorem vbcast_writes (hs : HasStrip (s.ctx f)) (hg : GroupsOk (s.ctx f) [d.toNat]) :
    WritesGroup s f (.vbcast d x p) d p fun _ => (((s.ctx f).s x.toNat).toNat, 0) := by
  obtain ⟨sl, hnext, hwritten, hkept⟩ := writesGroup_elementwise vbcast_isElementwise
    (exec_vbcast d x p s) rfl rfl h hs (vbcast_decode hg)
    (fitTrap_none (op := vbcastOp d x p) hg) hg readsGroups_vbcast
  refine ⟨sl, hnext, fun i hlo hhi => ?_, hkept⟩
  rw [hwritten i hlo hhi]
  exact if_congr Iff.rfl (Nat.mod_mod _ _) rfl

/-! ### The slides -/

theorem slide_refused (hda : d = a) (hset : Settled s f) :
    exec (.vslideup d a x p) s = .next (stopped s f .operand) ∧ exec (.vslidedn d a x p) s = .next (stopped s f .operand) :=
  ⟨exec_refused (exec_vslideup d a x p s) h (crossLane_sameGroup hda) hset,
    exec_refused (exec_vslidedn d a x p s) h (crossLane_sameGroup hda) hset⟩

variable (hg : GroupsOk (s.ctx f) [d.toNat, a.toNat]) (hda : d ≠ a)
include hg hda

theorem slide_widths (hb : ((s.ctx f).tagOf a).bytes ≠ ((s.ctx f).tagOf d).bytes) (hset : Settled s f) :
    exec (.vslideup d a x p) s = .next (stopped s f .tag) ∧ exec (.vslidedn d a x p) s = .next (stopped s f .tag) := by
  have htags : slideTags d a (s.ctx f) = true := decide_eq_true hb
  exact ⟨exec_refused (exec_vslideup d a x p s) h ((crossLane_decode hg hda).trans (if_pos htags)) hset,
    exec_refused (exec_vslidedn d a x p s) h ((crossLane_decode hg hda).trans (if_pos htags)) hset⟩

variable (hs : HasStrip (s.ctx f))
include hs

theorem slideup_writes (hb : ((s.ctx f).tagOf a).bytes = ((s.ctx f).tagOf d).bytes) :
    WritesGroup s f (.vslideup d a x p) d p fun i => (if ((s.ctx f).s x.toNat).toNat ≤ i then
      (s.ctx f).bits a.toNat (i - ((s.ctx f).s x.toNat).toNat) else (s.ctx f).bits d.toNat i, 0) := by
  have htags : ¬ slideTags d a (s.ctx f) = true := by simp [slideTags, hb]
  exact writesGroup_elementwise (crossLane_isElementwise (single_vslideup d a x p)) (exec_vslideup d a x p s) rfl rfl h hs
    ((crossLane_decode hg hda).trans (if_neg htags)) (fitTrap_none (op := vslideupOp d a x p) hg)
    (ns := [a.toNat, d.toNat]) (by intro n hn; exact hg n (by simp at hn ⊢; tauto)) (readsGroups_slideup hda)

theorem slidedn_writes (hb : ((s.ctx f).tagOf a).bytes = ((s.ctx f).tagOf d).bytes) :
    WritesGroup s f (.vslidedn d a x p) d p fun i => ((s.ctx f).bits a.toNat (i + ((s.ctx f).s x.toNat).toNat), 0) := by
  have htags : ¬ slideTags d a (s.ctx f) = true := by simp [slideTags, hb]
  exact writesGroup_elementwise (crossLane_isElementwise (single_vslidedn d a x p)) (exec_vslidedn d a x p s) rfl rfl h hs
    ((crossLane_decode hg hda).trans (if_neg htags)) (fitTrap_none (op := vslidednOp d a x p) hg) hg (readsGroups_slidedn hda)

/-! ### vbfly -/

theorem vbfly_writes (hn : ∃ k < 16, ((s.ctx f).s x.toNat).toNat = 2 ^ k)
    (ht : (s.ctx f).tagOf a = (s.ctx f).tagOf d ∧ ((s.ctx f).tagOf a).isNum = true) :
    WritesGroup s f (.vbfly d a x p) d p (hadamard (s.ctx f) a ((s.ctx f).s x.toNat).toNat) := by
  have hq : (s.ctx f).vq = [] := h.2.2.1
  have hlatch : (s.ctx f).latch = none := h.2.2.2.2.2.1
  have hdec : (bflyLoop d a x p).decode f (s.ctx f) = none := (bflyDecode_groups hq hg (Or.inr hda) hn).trans (if_pos ht)
  have hissue := fitTrap_none (op := bflyLoop d a x p) hg
  exact writesGroup_elementwise bflyLoop_isElementwise
    ((exec_vbfly d a x p s).trans (congrArg Host.Outcome.next (vector_dropLatch bflyLoop_isElementwise h hs hdec hissue))) rfl rfl h hs
    hdec hissue hg (readsGroups_vbfly hda hlatch ht.2)

end Ready

end Sys2Proof.Proofs
end

section
/-! SUPPORT. `vbfly.c` on its own in the queue waits for its reader (R331, log entry 97), and which check refuses it and `vbfly`. -/

namespace Sys2Proof.Proofs

open Sys2Proof Sys2Proof.Machine Sys2Proof.Laws Sys2Proof.Safety

variable {s : State} {f : Nat} {d a : BitVec 6} {x : BitVec 5} {p : BitVec 4}

/-! ### What is refused -/

section Refused

variable (h : VectorReady s f [x.toNat, 0, 0]) (hset : Settled s f)
include h hset

theorem vbfly_sameGroup (hda : d = a) : exec (.vbfly d a x p) s = .next (stopped s f .operand) :=
  exec_refused (exec_vbfly d a x p s) h (bflyDecode_sameGroup h.2.2.1 hda) hset

theorem butterflies_distance (hn : ¬ ∃ k < 16, ((s.ctx f).s x.toNat).toNat = 2 ^ k) :
    exec (.vbfly d a x p) s = .next (stopped s f .operand) ∧ exec (.vbflyC d a x p) s = .next (stopped s f .operand) :=
  ⟨exec_refused (exec_vbfly d a x p s) h (bflyDecode_distance hn) hset, exec_refused (exec_vbflyC d a x p s) h (bflyDecode_distance hn) hset⟩

variable (hg : GroupsOk (s.ctx f) [d.toNat, a.toNat]) (hn : ∃ k < 16, ((s.ctx f).s x.toNat).toNat = 2 ^ k)
  (ht : ¬ ((s.ctx f).tagOf a = (s.ctx f).tagOf d ∧ ((s.ctx f).tagOf a).isNum = true))
include hg hn ht

theorem vbfly_tags (hda : d ≠ a) : exec (.vbfly d a x p) s = .next (stopped s f .tag) :=
  exec_refused (exec_vbfly d a x p s) h ((bflyDecode_groups h.2.2.1 hg (Or.inr hda) hn).trans (if_neg ht)) hset

theorem vbflyC_tags : exec (.vbflyC d a x p) s = .next (stopped s f .tag) :=
  exec_refused (exec_vbflyC d a x p s) h ((bflyDecode_groups h.2.2.1 hg (Or.inl rfl) hn).trans (if_neg ht)) hset

end Refused

/-! ### The push of a `vbfly.c` -/

/-- A `vbfly.c` by itself begins no convoy: it waits for its reader, but where its context waits for it or a debug step ends with it. -/
theorem convoyAt_chain {c : Ctx} {e : VqEntry} (hword : opOf e.word = 0x25) (hchain : isChain e.word = true) (hwait : c.wait = none)
    (hdebug : c.debugReq ≠ 3) : c.convoyAt [e] = 0 := by
  have halone : aloneInConvoy e.word = false := by
    unfold aloneInConvoy
    rw [hword]
    rfl
  unfold Ctx.convoyAt
  simp [convoyLength, halone, hchain, hword, hwait, hdebug]

/-- With no convoy to begin, the entry that has been pushed stays where it is. -/
theorem runAll_waits {op : VOp} {k : Nat} {e : VqEntry} {u : State} (hl : (u.ctx f).convoyLeft = 0)
    (hat : (u.ctx f).convoyAt ((u.ctx f).vq.drop (u.ctx f).doneAhead) = 0) : State.runAll op f k e u = u := by
  have hsame : (u.ctx f).beginConvoy = u.ctx f := by
    unfold Ctx.beginConvoy
    simp only [hl, hat, ne_eq, not_true_eq_false, if_false, if_true]
  have hleft : ((u.modCtx f Ctx.beginConvoy).ctx f).convoyLeft = 0 := by
    rw [ctx_modCtx_same, hsame]
    exact hl
  unfold State.runAll
  dsimp only
  rw [if_pos hleft]

theorem vbflyC_pushed (h : VectorReady s f [x.toNat, 0, 0]) (hg : GroupsOk (s.ctx f) [d.toNat, a.toNat])
    (hn : ∃ k < 16, ((s.ctx f).s x.toNat).toNat = 2 ^ k) (ht : (s.ctx f).tagOf a = (s.ctx f).tagOf d ∧ ((s.ctx f).tagOf a).isNum = true)
    (hstep : (s.ctx f).stepping = false) (hdebug : (s.ctx f).debugReq ≠ 3) :
    exec (.vbflyC d a x p) s = .next (s.setCtx f { s.ctx f with
      vq := [(vbflyCOp d a x p).entry (s.ctx f)], pc := (s.ctx f).pc + 4, wait := none, passBreak := false }) := by
  obtain ⟨-, -, hq, hl, -⟩ := id h
  have hdec : (vbflyCOp d a x p).decode f (s.ctx f) = none := (bflyDecode_groups hq hg (Or.inl rfl) hn).trans (if_pos ht)
  have hpush : pushedCtx (vbflyCOp d a x p) (s.ctx f) = { s.ctx f with
      vq := [(vbflyCOp d a x p).entry (s.ctx f)], pc := (s.ctx f).pc + 4, wait := none, passBreak := false } := by
    unfold pushedCtx
    refine (ite_self _).trans ?_
    unfold State.pushEntry
    simp only [hq, hstep, List.nil_append, Bool.false_eq_true, if_false]
  rw [exec_vbflyC, vector_begins (vector_begin h) hdec, hpush]
  refine congrArg Host.Outcome.next (runAll_waits ?_ ?_)
  · rw [ctx_setCtx_same]
    exact hl
  · rw [ctx_setCtx_same]
    exact convoyAt_chain (crossWord 5 d a x p).1 (isChain_vbflyC d a x p) rfl hdebug

end Sys2Proof.Proofs
end

section
/-! SUPPORT. `vbfly.c` with its reader behind it fills the latch of its convoy and stays in the queue, marked done (R331). -/

namespace Sys2Proof.Proofs

open Sys2Proof Sys2Proof.Machine Sys2Proof.Laws Sys2Proof.Safety

variable {s : State} {f : Nat} {d a : BitVec 6} {x : BitVec 5} {p : BitVec 4}

/-! ### The latch -/

section Latch

variable {c : Ctx} (hl : c.latch = none) (hnum : (c.tag a.toNat).isNum = true)
include hl hnum

theorem latchElements_eq (n lo : Nat) : latchElements c d.toNat a.toNat p.toNat n lo = (List.range c.reals).map fun i =>
    if (decide (lo ≤ i) && c.pbit p.toNat i) = true then hadamard c a n i else (c.bits d.toNat i, 0) := by
  unfold latchElements
  rw [latched_none hl]
  simp only [butterfly_eq_hadamard hnum]

theorem latchElements_getD (n i : Nat) (hi : i < c.reals) :
    ((latchElements c d.toNat a.toNat p.toNat n c.vstart).map Prod.fst).getD i 0 =
      if c.vstart ≤ i ∧ c.pbit p.toNat i = true then (hadamard c a n i).1 else c.bits d.toNat i := by
  rw [latchElements_eq hl hnum, List.map_map, List.getD_eq_getElem?_getD, List.getElem?_map, List.getElem?_range hi]
  simp only [Option.map_some, Option.getD_some, Function.comp_apply, Bool.and_eq_true, decide_eq_true_eq]
  split <;> rfl

end Latch

/-- Elements without flags add none to those of the others. -/
theorem foldl_flags {α : Type} (P : α → Bool) (g : α → Nat × Flags) (b : α → Nat) (l : List α) (fl : Flags) :
    (l.map fun i => if P i = true then g i else (b i, 0)).foldl (fun (fl : Flags) (e : Nat × Flags) => fl ||| e.2) fl =
      ((l.filter P).map fun i => (g i).2).foldl (· ||| ·) fl := by
  induction l generalizing fl with
  | nil => rfl
  | cons i l ih =>
    cases hP : P i with
    | true =>
      rw [List.map_cons, List.foldl_cons, ih, List.filter_cons_of_pos hP, List.map_cons, List.foldl_cons]
      simp only [hP, if_true]
    | false =>
      rw [List.map_cons, List.foldl_cons, ih, List.filter_cons_of_neg (by simp [hP])]
      simp only [hP, Bool.false_eq_true, if_false]
      exact congrArg (fun z : Flags => List.foldl (· ||| ·) z _) BitVec.or_zero

theorem latchFlags {c : Ctx} (hl : c.latch = none) (hnum : (c.tag a.toNat).isNum = true) (n : Nat) :
    (latchElements c d.toNat a.toNat p.toNat n c.vstart).foldl (fun (fl : Flags) (e : Nat × Flags) => fl ||| e.2) 0 =
      activeFlags c p.toNat fun i => (hadamard c a n i).2 := by
  rw [latchElements_eq hl hnum]
  exact foldl_flags (fun i => decide (c.vstart ≤ i) && c.pbit p.toNat i) _ _ _ _

/-! ### The course of a member that completes whole -/

/-- A member that completes whole, its slots allotted, performs at its one slot. -/
theorem runMember_whole {op : VOp} {w : Env → Nat → State → Res} {upto : Ctx → Nat → Nat} {e : VqEntry} {u : State}
    (hw : op.whole = some w) (hbegun : e.begun = false) (hstrip : (s.ctx f).startAt 0 e < (s.ctx f).vl)
    (hi : op.issue (e.env f ((s.ctx f).startAt 0 e)) s = none) (hbusy : ∀ env n u, op.busy env n u = none)
    (hbegin : ∀ env u, op.begin' env u = u) (hfinish : ∀ env u, op.finish env u = u)
    (hslots : State.groupsBetween ((s.ctx f).groupOf e) ((s.ctx f).startAt 0 e) (op.limit (s.ctx f)) ≤ (s.ctx f).slotted + 1)
    (hrun : w (e.env f ((s.ctx f).startAt 0 e)) ((s.ctx f).startAt 0 e) (s.modCtx f State.goOn) = .ok u) :
    ∃ n, State.runMember op f 0 true upto e s =
      (u.modCtx f fun c => { c with took := n }).endMember f 0 { e with first := (s.ctx f).startAt 0 e } := by
  have hnotIdle : ¬ (!e.begun && decide ((s.ctx f).vl ≤ (s.ctx f).startAt 0 e) && !op.always) = true := by
    simp [Nat.not_le.2 hstrip]
  have hallotted : ¬ (true && op.whole.isSome && decide ((s.ctx f).slotted + 1 <
      State.groupsBetween ((s.ctx f).groupOf e) ((s.ctx f).startAt 0 e) (op.limit (s.ctx f)))) = true := by
    simp [Nat.not_lt.2 hslots]
  have hwhole (lo hi : Nat) (v : State) : op.run (e.env f ((s.ctx f).startAt 0 e)) lo hi v = w (e.env f ((s.ctx f).startAt 0 e)) lo v := by
    unfold VOp.run
    rw [hw]
  unfold State.runMember
  dsimp only
  rw [if_neg hnotIdle, hi]
  dsimp only
  rw [hbusy]
  dsimp only
  rw [if_neg hallotted, hbegin, ite_self, hwhole, hrun]
  dsimp only
  rw [if_pos (by simp [hw]), hfinish, if_neg (by simp [hbegun])]
  exact ⟨_, rfl⟩

/-- The `vbfly.c` at the head completes: it is marked done, and stays until its reader has completed. -/
theorem complete_chain {c : Ctx} {e r : VqEntry} (hq : c.vq = [e, r]) (hleft : c.convoyLeft = 2) (he : isChain e.word = true)
    (hr : r.done = false) (hrc : isChain r.word = false) :
    ∃ v ch cc st n, c.complete 0 = { c with vq := v, convoyHead := ch, convoyCount := cc, vstart := st, instret := n } ∧
      v.map (·.word) = [e.word, r.word] ∧ v.map (·.done) = [true, false] := by
  have hkept : retired [{ e with begun := true, done := true, start := 0 }, r] = 0 := by
    simp [retired, readerDone, he, hr, hrc]
  unfold Ctx.complete Ctx.retireDone Ctx.atPlace Ctx.behind
  simp only [hq, hleft, hkept, hr, List.mapIdx_cons, List.mapIdx_nil, if_true, Nat.add_eq_zero_iff, one_ne_zero, and_false, if_false,
    List.drop_zero, List.take, List.all_cons, List.all_nil, Bool.and_true, Bool.and_false, Bool.false_eq_true, Nat.sub_zero]
  refine ⟨_, _, _, _, _, rfl, ?_, ?_⟩
  · simp
  · simp [hr]

/-- A member's completion changes no context but its own, and not the scratch memory: a sample goes to the device memory. -/
theorem endMember_frame (s : State) (f k : Nat) (e : VqEntry) (c : Ctx) :
    ∃ u : State, State.endMember f k e (s.setCtx f c) = u.setCtx f (c.complete k) ∧ u.scr = s.scr ∧ ∀ g, g ≠ f → u.ctx g = s.ctx g := by
  refine ⟨(s.setCtx f c).sample f k e (((s.setCtx f c).ctx f).widestOf e.word), ?_, ?_, fun g hg => ?_⟩
  · unfold State.endMember State.modCtx
    rw [sample_ctx, ctx_setCtx_same]
  · obtain ⟨_, _, _, _, _, h⟩ := sample_frame (s.setCtx f c) f k e (((s.setCtx f c).ctx f).widestOf e.word)
    rw [h]
    rfl
  · rw [sample_ctx, ctx_setCtx_other _ _ _ _ hg]

/-! ### The `vbfly.c` in its convoy -/

/-- The context under which the entry at the head runs, pushed with the VTYPE and the tags that it still has (R36). -/
def underCtx (e : VqEntry) (c : Ctx) : Ctx := { c with vcarry := e.vcarry, vfoldop := e.vfoldop, reverted := false }

/-- The context once the latch has been filled. -/
def latchedCtx (d a : BitVec 6) (p : BitVec 4) (e : VqEntry) (c : Ctx) : Ctx :=
  let es := latchElements c d.toNat a.toNat p.toNat e.sa.toNat c.vstart
  ({ State.goOn (underCtx e c) with latch := some ⟨d.toNat, es.map Prod.fst⟩ } : Ctx).accrue
    (es.foldl (fun (fl : Flags) (e : Nat × Flags) => fl ||| e.2) 0)

theorem latchedCtx_vq {e r : VqEntry} {c : Ctx} (hq : c.vq = [e, r]) :
    ∃ e' r', SameEntry e' e ∧ SameEntry r' r ∧ (latchedCtx d a p e c).vq = [e', r'] := by
  have hmap (g : VqEntry → VqEntry) : c.vq.map g = [g e, g r] := by rw [hq]; rfl
  refine ⟨_, _, ?_, ?_, hmap _⟩
  · exact ⟨rfl, rfl⟩
  · exact ⟨rfl, rfl⟩

section Convoy

variable {e r : VqEntry} (hcur : s.cur = .entry f 0) (hq : (s.ctx f).vq = [e, r]) (hstrip : HasStrip (s.ctx f))
  (hg : GroupsOk (s.ctx f) [d.toNat, a.toNat]) (hbegun : e.begun = false) (hdone : e.done = false)
  (hvtype : e.vtype = (s.ctx f).vtype) (hvtag : e.vtag = (s.ctx f).vtag)
  (hslots : State.groupsBetween ((s.ctx f).groupOf e) (s.ctx f).vstart (s.ctx f).reals ≤ (s.ctx f).slotted + 1)
include hcur hq hstrip hg hbegun hdone hvtype hvtag hslots

/-- It fills the latch and is then marked done. -/
theorem vbflyC_fills : ∃ b, s.vector (vbflyCOp d a x p) =
    (State.endMember f 0 { e with first := (s.ctx f).vstart }
      (s.setCtx f { latchedCtx d a p e (s.ctx f) with took := b })).modCtx f (restoreConfig (s.ctx f)) := by
  have hstart : (underCtx e (s.ctx f)).startAt 0 e = (s.ctx f).vstart := by
    unfold Ctx.startAt Ctx.doneAhead
    rw [if_neg (by simp [hbegun]), if_pos]
    · rfl
    · show 0 = ((s.ctx f).vq.takeWhile (·.done)).length
      rw [hq, List.takeWhile_cons_of_neg (by simp [hdone])]
      rfl
  have hunder : ({ s.ctx f with vtype := e.vtype, vtag := e.vtag, vcarry := e.vcarry, vfoldop := e.vfoldop, reverted := false } : Ctx) =
      underCtx e (s.ctx f) := by
    rw [hvtype, hvtag]
    rfl
  have hctx : (s.setCtx f (underCtx e (s.ctx f))).ctx f = underCtx e (s.ctx f) := ctx_setCtx_same ..
  obtain ⟨b, hrun⟩ := runMember_whole (s := s.setCtx f (underCtx e (s.ctx f))) (f := f) (op := vbflyCOp d a x p) (e := e)
    (upto := fun c start => (start / c.groupOf e + 1) * c.groupOf e) (u := s.setCtx f (latchedCtx d a p e (s.ctx f)))
    rfl hbegun (by rw [hctx, hstart]; exact hstrip)
    (by
      show fitTrap [d.toNat, a.toNat] _ _ = none
      unfold fitTrap
      rw [show (VqEntry.env e f _).f = f from rfl, hctx]
      exact if_pos (groupsOk_checks hg).2.2)
    (fun _ _ _ => rfl) (fun _ _ => rfl) (fun _ _ => rfl)
    (by rw [hctx, hstart]; exact hslots)
    (by
      rw [hctx, hstart, modCtx_setCtx]
      dsimp only
      rw [show (VqEntry.env e f (s.ctx f).vstart).f = f from rfl, ctx_setCtx_same, setCtx_setCtx]
      rfl)
  refine ⟨b, ?_⟩
  unfold State.vector
  rw [hcur]
  show State.runGroup _ f 0 s = _
  unfold State.runGroup
  rw [hq]
  show State.underEntry e f _ s = _
  unfold State.underEntry
  dsimp only
  rw [hunder, hrun, hctx, hstart, modCtx_setCtx]
  rfl

variable (hleft : (s.ctx f).convoyLeft = 2) (hlatch : (s.ctx f).latch = none) (hnum : ((s.ctx f).tag a.toNat).isNum = true)
  (hword : e.word = (Instr.vbflyC d a x p).word) (hrdone : r.done = false) (hrword : isChain r.word = false)
include hleft hlatch hnum hword hrdone hrword

/-- What it leaves behind. -/
theorem vbflyC_completes : ∃ t l, exec (.vbflyC d a x p) s = .next t ∧ (t.ctx f).latch = some l ∧ l.name = d.toNat ∧
    l.elems = (latchElements (s.ctx f) d.toNat a.toNat p.toNat e.sa.toNat (s.ctx f).vstart).map Prod.fst ∧
    (t.ctx f).slice = (s.ctx f).slice ∧ (t.ctx f).preds = (s.ctx f).preds ∧ (t.ctx f).sregs = (s.ctx f).sregs ∧ (t.ctx f).slotted = 0 ∧
    (t.ctx f).fflags = (s.ctx f).fflags ||| activeFlags (s.ctx f) p.toNat (fun i => (hadamard (s.ctx f) a e.sa.toNat i).2) ∧
    (t.ctx f).vq.map (·.word) = [e.word, r.word] ∧ (t.ctx f).vq.map (·.done) = [true, false] ∧
    t.scr = s.scr ∧ ∀ g, g ≠ f → t.ctx g = s.ctx g := by
  obtain ⟨b, hrun⟩ := vbflyC_fills (x := x) (p := p) hcur hq hstrip hg hbegun hdone hvtype hvtag hslots
  obtain ⟨e', r', ⟨hew, hed⟩, ⟨hrw, hrd⟩, hvq⟩ := latchedCtx_vq (d := d) (a := a) (p := p) hq
  obtain ⟨v, ch, cc, st, n, hcomplete, hwords, hdones⟩ := complete_chain (c := { latchedCtx d a p e (s.ctx f) with took := b }) hvq hleft
    (by rw [hew, hword]; exact isChain_vbflyC d a x p) (hrd.trans hrdone) (by rw [hrw]; exact hrword)
  obtain ⟨u, hend, hscr, hother⟩ := endMember_frame s f 0 { e with first := (s.ctx f).vstart } { latchedCtx d a p e (s.ctx f) with took := b }
  have hreverted : (latchedCtx d a p e (s.ctx f)).reverted = false := rfl
  rw [hend, modCtx_setCtx, hcomplete, restoreConfig, if_neg (by simp [hreverted])] at hrun
  refine ⟨_, ⟨d.toNat, (latchElements (s.ctx f) d.toNat a.toNat p.toNat e.sa.toNat (s.ctx f).vstart).map Prod.fst⟩,
    (exec_vbflyC d a x p s).trans (congrArg Host.Outcome.next hrun), ?_⟩
  rw [ctx_setCtx_same]
  refine ⟨by rfl, by rfl, by rfl, by rfl, by rfl, by rfl, by rfl, ?_, ?_, hdones, hscr, fun g hne => ?_⟩
  · exact congrArg ((s.ctx f).fflags ||| ·) (latchFlags hlatch hnum _)
  · rw [← hew, ← hrw]
    exact hwords
  · rw [ctx_setCtx_other _ _ _ _ hne]
    exact hother g hne

end Convoy

end Sys2Proof.Proofs
end

section
/-! PROOF. Slides, butterflies, `vid` and `vbcast`, and the latch that `vbfly.c` fills (R328 to R331). -/

namespace Sys2Proof.Proofs

open Sys2Proof Sys2Proof.Machine Sys2Proof.Laws Sys2Proof.Safety

/-- Settles O20: each instruction that writes a group as an element loop, each refusal by the check it meets first, and `vbfly.c` by its push into an
empty queue and by its turn at the head of its convoy. -/
theorem slidesButterfliesAndBroadcasts : Obligations.SlidesButterfliesAndBroadcasts := by
  refine ⟨?_, ?_⟩
  · intro s f d a x p h c ta td n A traps power hs
    refine ⟨fun hg => ?_, fun hda => ?_, fun hn => ?_, fun hg hda => ⟨?_, fun hn => ?_⟩, fun hg hn => ?_⟩
    · exact ⟨vid_writes h hs hg, vid_refused h hg, vbcast_writes h hs hg⟩
    · exact ⟨fun hset => (slide_refused h hda hset).1, fun hset => (slide_refused h hda hset).2, fun hset => vbfly_sameGroup h hset hda⟩
    · exact ⟨fun hset => (butterflies_distance h hset hn).1, fun hset => (butterflies_distance h hset hn).2⟩
    · split
      · next hb => exact ⟨slideup_writes h hg hda hs hb, slidedn_writes h hg hda hs hb⟩
      · next hb => exact ⟨fun hset => (slide_widths h hg hda hb hset).1, fun hset => (slide_widths h hg hda hb hset).2⟩
    · split
      · next ht => exact vbfly_writes h hg hda hs hn ht
      · next ht => exact fun hset => vbfly_tags h hset hg hn ht hda
    · split
      · next ht => exact fun hstep hdebug => ⟨_, rfl, rfl, rfl, rfl, rfl, vbflyC_pushed h hg hn ht hstep hdebug⟩
      · next ht => exact fun hset => vbflyC_tags h hset hg hn ht
  · intro s f d a x p e r c n hcur hq hleft hlatch hs hg hnum hword hbegun hdone hvtype hvtag hrdone hrword hslots
    obtain ⟨t, l, hexec, hfilled, hname, helems, hrest⟩ := vbflyC_completes (x := x) (p := p) hcur hq hs hg hbegun hdone hvtype hvtag hslots
      hleft hlatch hnum hword hrdone hrword
    refine ⟨t, l, hexec, hfilled, hname, ?_, fun i hi => ?_, hrest⟩
    · rw [helems, List.length_map]
      unfold latchElements
      rw [List.length_map, List.length_range]
    · rw [helems]
      exact latchElements_getD hlatch hnum _ _ hi

end Sys2Proof.Proofs
end
